-- ==== Sys2Proof/Word.lean ====
section
/-! DEFINITION. The word and byte types of the Fjaris 9, and reading a word as a number (R7). -/

namespace Sys2Proof

/-- A 64-bit register or memory word. -/
abbrev Word := BitVec 64

/-- The smallest addressable unit of memory (R7). -/
abbrev Byte := BitVec 8

/-- A word of a given value, modulo 2^64. -/
abbrev word (n : Nat) : Word := BitVec.ofNat 64 n

/-- A byte of a given value, modulo 2^8. -/
abbrev byte (n : Nat) : Byte := BitVec.ofNat 8 n

end Sys2Proof
end

