-- ==== Sys2Proof/Syntax.lean ====
section
/-! DEFINITION. The instructions and device events: one constructor of `Instr` per row of spec/opcode_table.json,
with the operand shapes of the formats SR, SI, SM, SX, EA, EI, AB and of the port words (R261-R275).
Register, predicate and semaphore numbers are plain numbers, whose ranges WellFormed checks. -/

namespace Sys2Proof

/-! ## Field codes -/

/-- Integer width class (R288): `.d` 64 bits, `.w` 32 bits. -/
inductive Width | d | w
  deriving DecidableEq, Repr

/-- Access size (R269). -/
inductive Size | b | h | w | d
  deriving DecidableEq, Repr

/-- Memory ordering (R150). -/
inductive Ord | rlx | acq | rel | ar | sc
  deriving DecidableEq, Repr

/-- Scope (R149). -/
inductive Scope | core | clus | chip | dev | dom
  deriving DecidableEq, Repr

/-- Cache hint (R249). -/
inductive Hint | nh | lu | st | na
  deriving DecidableEq, Repr

/-- Condition (R266). -/
inductive Cond | eq | ne | lt | le | gt | ge | ltu | leu | gtu | geu
  deriving DecidableEq, Repr

/-- Element type (R266). -/
inductive ETy | f32 | bf16 | f16 | e4m3 | e5m2 | l6 | i8 | ui8 | i16 | i32 | i64 | ui64
  deriving DecidableEq, Repr

/-- Operation of amo and vamo (R270). -/
inductive AmoOp | add | and | or | xor | min | max | minu | maxu | swap
  deriving DecidableEq, Repr

/-- Fold of red and scan (R361). -/
inductive RedOp | sum | max | min | and | or
  deriving DecidableEq, Repr

/-- Binding point of a port program (R400). -/
inductive Point | cin | cout | ma | md | ri | ro
  deriving DecidableEq, Repr

/-- Memory space of minit and mdrain (R383). -/
inductive MSpace | mem | spad | clus | chip
  deriving DecidableEq, Repr

/-! ## Operand shapes

`st` is the STALL field (R261) of every main-stream word. -/

/-- ra, rb → rd at a width. -/
structure R3w where
  (st rd ra rb : Nat) (w : Width)
  deriving DecidableEq, Repr

/-- ra → rd at a width (clz, popc). -/
structure R2w where
  (st rd ra : Nat) (w : Width)
  deriving DecidableEq, Repr

/-- ra, rb, rc → rd at a width (madd). -/
structure R4w where
  (st rd ra rb rc : Nat) (w : Width)
  deriving DecidableEq, Repr

/-- rd, ra, rb without modifiers (bext, iclk). -/
structure R3 where
  (st rd ra rb : Nat)
  deriving DecidableEq, Repr

/-- rd, ra, rb, rc without modifiers (bins). -/
structure R4 where
  (st rd ra rb rc : Nat)
  deriving DecidableEq, Repr

/-- rd, ra (spawn, arrive, bmake, join, caps). -/
structure R2 where
  (st rd ra : Nat)
  deriving DecidableEq, Repr

/-- ra only (est, sleepu, yield). -/
structure R1a where
  (st ra : Nat)
  deriving DecidableEq, Repr

/-- rd only (cyc). -/
structure R1d where
  (st rd : Nat)
  deriving DecidableEq, Repr

/-- No operand but STALL (leave, bbar, tret, mark, ret, nop, end, sync). -/
structure R0 where
  (st : Nat)
  deriving DecidableEq, Repr

/-- sel: `pk` says that ra names a predicate (R292). -/
structure SelF where
  (st rd ra rb rc : Nat) (pk : Bool)
  deriving DecidableEq, Repr

/-- cmp: `pk` says that rd names a predicate (R292). -/
structure CmpF where
  (st rd ra rb : Nat) (w : Width) (cond : Cond) (pk : Bool)
  deriving DecidableEq, Repr

/-- ra, imm32 → rd at a width (R293). -/
structure RIw where
  (st rd ra : Nat) (w : Width) (imm : BitVec 32)
  deriving DecidableEq, Repr

/-- cmpi (R293). -/
structure CmpiF where
  (st rd ra : Nat) (cond : Cond) (imm : BitVec 32)
  deriving DecidableEq, Repr

/-- imm32 → rd (li, lih). -/
structure RI0 where
  (st rd : Nat) (imm : BitVec 32)
  deriving DecidableEq, Repr

/-- ld (R302): `sx` is EXT. -/
structure LdF where
  (st rt ra : Nat) (size : Size) (ord : Ord) (scope : Scope) (sx : Bool) (hint : Hint) (off : BitVec 20)
  deriving DecidableEq, Repr

/-- st (R302). -/
structure StF where
  (st rt ra : Nat) (size : Size) (ord : Ord) (scope : Scope) (hint : Hint) (off : BitVec 20)
  deriving DecidableEq, Repr

/-- ldx (R302). -/
structure LdxF where
  (st rt ra rb : Nat) (size : Size) (ord : Ord) (scope : Scope) (sx : Bool) (hint : Hint)
  deriving DecidableEq, Repr

/-- stx (R302). -/
structure StxF where
  (st rt ra rb : Nat) (size : Size) (ord : Ord) (scope : Scope) (hint : Hint)
  deriving DecidableEq, Repr

/-- pref (R306): the size code gives the run length. -/
structure PrefF where
  (st ra : Nat) (size : Size) (scope : Scope) (hint : Hint) (off : BitVec 20)
  deriving DecidableEq, Repr

/-- waita (R307). -/
structure WaitaF where
  (st rt ra rb : Nat) (size : Size) (ord : Ord) (scope : Scope) (sx : Bool) (hint : Hint) (off : BitVec 20)
  deriving DecidableEq, Repr

/-- fence (R305). -/
structure FenceF where
  (st : Nat) (ord : Ord) (scope : Scope)
  deriving DecidableEq, Repr

/-- amo and vamo (R270): `wide` is size 3, otherwise size 2. -/
structure AmoF where
  (st rt ra rb : Nat) (wide : Bool) (ord : Ord) (scope : Scope) (op : AmoOp) (off : BitVec 14)
  deriving DecidableEq, Repr

/-- cas (R311): rb the new value, rc the expected one. -/
structure CasF where
  (st rt ra rb rc : Nat) (wide : Bool) (ord : Ord) (scope : Scope) (off : BitVec 14)
  deriving DecidableEq, Repr

/-- Mode of mred and vmred (R314): one of the three float types with its flags, or fixed with its exponent. -/
inductive MredMode
  | float (ty : ETy) (satf can fz : Bool)
  | fixed (e : BitVec 8)
  deriving DecidableEq, Repr

/-- mred and vmred (R270, R314). -/
structure MredF where
  (st ra rb : Nat) (ord : Ord) (scope : Scope) (mode : MredMode) (off : BitVec 8)
  deriving DecidableEq, Repr

/-- Scalar float, two sources (R295). -/
structure F3 where
  (st rd ra rb : Nat) (fz : Bool)
  deriving DecidableEq, Repr

/-- Scalar float, three sources (ffma). -/
structure F4 where
  (st rd ra rb rc : Nat) (fz : Bool)
  deriving DecidableEq, Repr

/-- Scalar float, one source (frcp, frsq). -/
structure F2 where
  (st rd ra : Nat) (fz : Bool)
  deriving DecidableEq, Repr

/-- fcvt (R297). -/
structure FcvtF where
  (st rd ra : Nat) (src dst : ETy) (fz : Bool)
  deriving DecidableEq, Repr

/-- fcmp (R296). -/
structure FcmpF where
  (st rd ra rb : Nat) (cond : Cond) (pk fz : Bool)
  deriving DecidableEq, Repr

/-- semw, sems (R316). -/
structure SemN where
  (st sem : Nat) (n : BitVec 16)
  deriving DecidableEq, Repr

/-- semi (R316). -/
structure SemI where
  (st sem : Nat) (v : BitVec 16) (keep : Bool)
  deriving DecidableEq, Repr

/-- semr (R316). -/
structure SemR where
  (st rd sem : Nat) (sw : Bool)
  deriving DecidableEq, Repr

/-- rdsys: register number in imm32. -/
structure RdsysF where
  (st rd : Nat) (num : BitVec 32)
  deriving DecidableEq, Repr

/-- wrsys: register number in imm32. -/
structure WrsysF where
  (st ra : Nat) (num : BitVec 32)
  deriving DecidableEq, Repr

/-- imm32 only (svc, trap). -/
structure ImmF where
  (st : Nat) (imm : BitVec 32)
  deriving DecidableEq, Repr

/-- ra, rb without a destination (iulk). -/
structure Rab where
  (st ra rb : Nat)
  deriving DecidableEq, Repr

/-- tlbi: the range form with its registers, or `.all` (R340); `g` also covers G entries. -/
structure TlbiF where
  (st : Nat) (range : Option (Nat × Nat)) (g : Bool)
  deriving DecidableEq, Repr

/-- pload (R413). -/
structure PloadF where
  (st slot ra : Nat)
  deriving DecidableEq, Repr

/-- pbind (R413). -/
structure PbindF where
  (st slot : Nat) (pt : Point)
  deriving DecidableEq, Repr

/-- pbind.u (R413). -/
structure PbindUF where
  (st : Nat) (pt : Point)
  deriving DecidableEq, Repr

/-- ppar (R413). -/
structure PparF where
  (st p ra : Nat)
  deriving DecidableEq, Repr

/-- pclr (R413). -/
structure PclrF where
  (st slot : Nat) (lpm : Bool)
  deriving DecidableEq, Repr

/-- prd and prd.n (R413). -/
structure PrdF where
  (st rd slot : Nat)
  deriving DecidableEq, Repr

/-- prd.c (R413). -/
structure PrdCF where
  (st rd slot ci ra : Nat)
  deriving DecidableEq, Repr

/-! ### A-tagged (R274) -/

/-- br, call. -/
structure BrF where
  (st : Nat) (off : BitVec 26)
  deriving DecidableEq, Repr

/-- bk. -/
structure BkF where
  (st : Nat) (cond : Cond) (ra rb : Nat) (off : BitVec 26)
  deriving DecidableEq, Repr

/-- jr. -/
structure JrF where
  (st ra : Nat)
  deriving DecidableEq, Repr

/-- loop. -/
structure LoopF where
  (st ra : Nat) (off : BitVec 26)
  deriving DecidableEq, Repr

/-- The word a tstb tests (R332). -/
inductive TstbSrc
  | sem (n : Nat)
  | mem (ra : Nat)
  deriving DecidableEq, Repr

/-- tstb: `none` is the sense bit. -/
structure TstbF where
  (st : Nat) (src : TstbSrc) (none : Bool) (mask : Nat) (off : BitVec 26)
  deriving DecidableEq, Repr

/-- xfence: the sets list S, C, M, R, K from the lowest bit (R274). -/
structure XfenceF where
  (st : Nat) (scope : Scope) (fromSet toSet : BitVec 5)
  deriving DecidableEq, Repr

/-! ### Engine-tagged (R271-R273) -/

/-- The synchronisation fields of an engine word: the wait field and the signal field with its visibility mask. -/
structure Sync where
  wait : Option Nat
  sig  : Option (Nat × BitVec 5)
  deriving DecidableEq, Repr

/-- Setup with a level (cnest.count). -/
structure ELvl where
  (st : Nat) (sy : Sync) (lvl ra : Nat)
  deriving DecidableEq, Repr

/-- Setup with a level and a stream (cnest.stride). -/
structure EStr where
  (st : Nat) (sy : Sync) (lvl j ra : Nat)
  deriving DecidableEq, Repr

/-- Setup with a register (cnest.run, cfmt.fill, mbase.pitch, mfmt.ctl). -/
structure EReg where
  (st : Nat) (sy : Sync) (ra : Nat)
  deriving DecidableEq, Repr

/-- Setup with a stream and a space (cbase.addr). -/
structure EBase where
  (st : Nat) (sy : Sync) (j sp ra : Nat)
  deriving DecidableEq, Repr

/-- Setup with a stream (cfmt.fmt). -/
structure EFmt where
  (st : Nat) (sy : Sync) (j ra : Nat)
  deriving DecidableEq, Repr

/-- No operand (cfmt.clear, mgo, dgo). -/
structure ENone where
  (st : Nat) (sy : Sync)
  deriving DecidableEq, Repr

/-- copy and decomp (R353): a base override is present exactly when its bit OS or OD is set. -/
structure CopyF where
  (st : Nat) (sy : Sync) (ch : Nat) (os od : Option Nat) (rc : Nat)
  deriving DecidableEq, Repr

/-- copyz: ns sources and nd destinations, 1 to 4. -/
structure CopyzF where
  (st : Nat) (sy : Sync) (ch ns nd rc : Nat)
  deriving DecidableEq, Repr

/-- gather: ra the list, `od` the destination base override. -/
structure GatherF where
  (st : Nat) (sy : Sync) (ch : Nat) (od : Option Nat) (ra rc : Nat)
  deriving DecidableEq, Repr

/-- scatter: rb the list, `os` the source base override. -/
structure ScatterF where
  (st : Nat) (sy : Sync) (ch : Nat) (os : Option Nat) (rb rc : Nat)
  deriving DecidableEq, Repr

/-- drain. -/
structure DrainF where
  (st : Nat) (sy : Sync) (ch : Nat)
  deriving DecidableEq, Repr

/-- cpref: `evp` is the eviction priority, used when `evpv` is set (R358). -/
structure CprefF where
  (st : Nat) (sy : Sync) (ch evp : Nat) (evpv : Bool) (ra rb : Nat)
  deriving DecidableEq, Repr

/-- red, scan (R361). -/
structure RedF where
  (st : Nat) (sy : Sync) (op : RedOp) (d : Nat)
  deriving DecidableEq, Repr

/-- merge (R364): `sgn` compares keys signed. -/
structure MergeF where
  (st : Nat) (sy : Sync) (sgn : Bool) (ra rb : Nat)
  deriving DecidableEq, Repr

/-- kring, and dcurve with its curve in `g`. -/
structure EIdx where
  (st : Nat) (sy : Sync) (g ra : Nat)
  deriving DecidableEq, Repr

/-- kallred, kbcast. -/
structure KarF where
  (st : Nat) (sy : Sync) (g ra rb : Nat)
  deriving DecidableEq, Repr

/-- kput, msparse. -/
structure E3 where
  (st : Nat) (sy : Sync) (ra rb rc : Nat)
  deriving DecidableEq, Repr

/-- dmap. -/
structure E2 where
  (st : Nat) (sy : Sync) (ra rb : Nat)
  deriving DecidableEq, Repr

/-- mzero. -/
structure MzeroF where
  (st : Nat) (sy : Sync) (i32 : Bool) (ra rb : Nat)
  deriving DecidableEq, Repr

/-- minit. -/
structure MinitF where
  (st : Nat) (sy : Sync) (i32 : Bool) (sp : MSpace) (ra rb rc : Nat)
  deriving DecidableEq, Repr

/-- mdrain. -/
structure MdrainF where
  (st : Nat) (sy : Sync) (sp : MSpace) (ra rb rc : Nat)
  deriving DecidableEq, Repr

/-- dtap: mode 3 is encodable and refused when it starts (R395). -/
structure DtapF where
  (st : Nat) (sy : Sync) (mode ra rb : Nat)
  deriving DecidableEq, Repr

/-! ### Port words (R275) -/

/-- The operand fields of a port word. -/
structure PortF where
  (d a b c m x : Nat)
  deriving DecidableEq, Repr

/-! ## Data carried by device events -/

/-- A unit that executes engine commands: a copy channel, the array unit, the drain unit, the reduction engine, or
the n-th collective command of the context (R106, R359, R365, R373). -/
inductive EUnit
  | ch (n : Nat)
  | array
  | drainU
  | red
  | coll (n : Nat)
  deriving DecidableEq, Repr

/-- What the training of a link learns of one path beyond it (R22): the destination, the hops to it, and the cable beyond
this link in dm. -/
structure Reach where
  (dest hops beyond : Nat)
  deriving DecidableEq, Repr

/-- PCIe AtomicOp (R39). -/
inductive HostAtomic | fetchAdd | swap | cas
  deriving DecidableEq, Repr

/-- A VC0 request of another device (R169); `watch` is the read of a waita, which also arms a monitor (R308). -/
inductive RemoteReq
  | load (addr size : Nat)
  | store (addr : Nat) (bytes : List Byte)
  | granule (addr : Nat) (parts : List (Nat × List Byte))
  | amo (op : AmoOp) (addr : Nat) (wide : Bool) (b : Word)
  | cas (addr : Nat) (wide : Bool) (expect new : Word)
  | mred (mode : MredMode) (addr : Nat) (addend : Word)
  | watch (addr size : Nat)
  deriving DecidableEq, Repr

/-- A VC1 answer to a request of this device (R169, R171, R127). -/
inductive RemoteAns
  | data (bytes : List Byte)
  | done
  | refused
  | failed
  deriving DecidableEq, Repr

/-- A VC2 segment of a bucket of a collective (R369): its launch-wide ring id, the sending member's position, the bucket
number, the step, the element offset, the values' bytes and the flags that each value's fold has raised so far. -/
structure Segment where
  (ring src bucket stepNo off : Nat) (bytes : List Byte) (flags : List (BitVec 15))
  deriving DecidableEq, Repr

/-! ## The instructions and events -/

/-- One constructor per row of the opcode table. Device events carry what the outside supplies, and an event without
data concerns the device, or the port or context that the cursor of the state names. -/
inductive Instr where
  -- host ports, boot, power and links (R18-R48)
  | mgmtOwnWrite (port : Nat) (v : Word)
  | registerWrite (port bar off size : Nat) (v : Word)
  | bootStage (fail : Option (Nat × Nat))
  | therm (die : Nat) (temp : Bool)
  | powerThrottle (watt tmax : Nat)
  | train (port link : Nat)
  | en (port link : Nat) (v : Bool)
  | linkTrainingDone (link : Nat) (low high : Bool) (mdm peer pport : Nat) (reach : List Reach)
  | linkDown (link : Nat)
  | routeChange (dest : Nat)
  | noRouteTimeout (dest : Nat)
  | flitCrcReplay (link : Nat) (received : Bool)
  | remoteRequest (src key : Nat) (req : RemoteReq)
  | remoteResponse (id : Nat) (ans : RemoteAns)
  | lwProdWrite (port : Nat) (v : Word)
  | completionRecordWrite (launch : Nat)
  | tlim (launch : Nat)
  | pageLoad (handle page : Nat)
  | cxlMemRead (port dec addr size : Nat)
  | cxlMemWrite (port dec addr : Nat) (bytes : List Byte)
  | hostAtomicop (port dec : Nat) (op : HostAtomic) (addr : Nat) (wide : Bool) (a b : Word)
  -- the scheduler (R68-R88)
  | dispatch (chiplet : Nat)
  | agingStep (entry : Nat)
  | reserving (entry : Nat)
  | saveComplete (entry : Nat)
  -- the streams, engines and memory paths
  | engineInstructionDecode (w : Word)
  | engineCommandComplete (cid : Nat) (u : EUnit)
  | engineWritePerform (cid path : Nat)
  | storePerform (cid : Nat) (lodge : Bool)
  | loadReturn (cid : Nat) (hit alloc : Bool)
  | l1AgeOut (core line : Nat)
  | waitaWake (cid : Nat)
  | readyWordPoll (cid n : Nat)
  | segmentArrival (die : Nat) (seg : Segment)
  | kputAck (cid n : Nat)
  -- S: integer register instructions (R289-R292)
  | add (o : R3w) | sub (o : R3w) | mul (o : R3w) | mulh (o : R3w) | mulhu (o : R3w)
  | div (o : R3w) | divu (o : R3w) | rem (o : R3w) | remu (o : R3w)
  | and (o : R3w) | or (o : R3w) | xor (o : R3w)
  | shl (o : R3w) | shr (o : R3w) | sra (o : R3w)
  | min (o : R3w) | max (o : R3w) | minu (o : R3w) | maxu (o : R3w)
  | clz (o : R2w) | popc (o : R2w)
  | bext (o : R3) | bins (o : R4) | sel (o : SelF) | cmp (o : CmpF) | madd (o : R4w)
  -- S: immediate instructions (R293)
  | addi (o : RIw) | andi (o : RIw) | ori (o : RIw) | xori (o : RIw)
  | shli (o : RIw) | shri (o : RIw) | srai (o : RIw)
  | cmpi (o : CmpiF) | li (o : RI0) | lih (o : RI0) | muli (o : RIw)
  -- S: loads, stores, fences and atomics (R302-R315)
  | ld (o : LdF) | st (o : StF) | ldx (o : LdxF) | stx (o : StxF)
  | pref (o : PrefF) | waita (o : WaitaF) | mark (o : R0) | fence (o : FenceF)
  | amo (o : AmoF) | cas (o : CasF) | mred (o : MredF) | vamo (o : AmoF) | vmred (o : MredF)
  -- S: scalar floating point (R294-R298)
  | fadd (o : F3) | fsub (o : F3) | fmul (o : F3) | ffma (o : F4)
  | fmin (o : F3) | fmax (o : F3) | fcvt (o : FcvtF) | fcmp (o : FcmpF)
  | frcp (o : F2) | frsq (o : F2)
  -- S: tasks, semaphores, time and system (R317-R343)
  | spawn (o : R2) | arrive (o : R2) | est (o : R1a) | bmake (o : R2)
  | join (o : R2) | leave (o : R0) | bbar (o : R0)
  | semw (o : SemN) | sems (o : SemN) | semi (o : SemI) | semr (o : SemR)
  | sleepu (o : R1a) | cyc (o : R1d) | yield (o : R1a)
  | rdsys (o : RdsysF) | wrsys (o : WrsysF) | svc (o : ImmF) | trap (o : ImmF) | tret (o : R0)
  | iclk (o : R3) | iulk (o : Rab) | tlbi (o : TlbiF) | caps (o : R2)
  -- S: port programs (R413-R418)
  | pload (o : PloadF) | pbind (o : PbindF) | pbindU (o : PbindUF) | ppar (o : PparF)
  | pclr (o : PclrF) | prd (o : PrdF) | prdC (o : PrdCF) | prdN (o : PrdF)
  -- A (R299-R301, R332-R334)
  | br (o : BrF) | bk (o : BkF) | jr (o : JrF) | call (o : BrF) | ret (o : R0)
  | loop (o : LoopF) | tstb (o : TstbF) | xfence (o : XfenceF)
  | endTask (o : R0) | sync (o : R0) | nop (o : R0)
  -- C (R346, R353-R358)
  | cnestCount (o : ELvl) | cnestStride (o : EStr) | cnestRun (o : EReg)
  | cbaseAddr (o : EBase) | cbaseScale (o : EBase)
  | cfmtFmt (o : EFmt) | cfmtFill (o : EReg) | cfmtLimit (o : EReg) | cfmtSubv (o : EReg) | cfmtClear (o : ENone)
  | copy (o : CopyF) | copyz (o : CopyzF) | gather (o : GatherF) | scatter (o : ScatterF) | decomp (o : CopyF)
  | drain (o : DrainF) | cpref (o : CprefF)
  -- R (R346, R361-R364)
  | rnestCount (o : ELvl) | rnestStride (o : EStr) | rnestRun (o : EReg)
  | rbaseAddr (o : EBase) | rbaseScale (o : EBase)
  | rfmtFmt (o : EFmt) | rfmtFill (o : EReg) | rfmtLimit (o : EReg) | rfmtSubv (o : EReg) | rfmtClear (o : ENone)
  | red (o : RedF) | scan (o : RedF) | merge (o : MergeF)
  -- K (R365-R371)
  | kring (o : EIdx) | kbw (o : EReg) | kallred (o : KarF) | kbcast (o : KarF) | kput (o : E3)
  -- M (R379-R399)
  | mnestCount (o : ELvl) | mnestStride (o : EStr)
  | mbaseAddr (o : EBase) | mbaseScale (o : EBase) | mbasePitch (o : EReg) | mbaseDpitch (o : EReg)
  | mfmtCtl (o : EReg) | mfmtDctl (o : EReg) | mfmtDsb (o : EReg) | mfmtClip (o : EReg) | mfmtSubv (o : EReg)
  | mfmtClear (o : ENone)
  | mgo (o : ENone) | mzero (o : MzeroF) | minit (o : MinitF) | mdrain (o : MdrainF) | msparse (o : E3)
  | dmap (o : E2) | dcurve (o : EIdx) | dtap (o : DtapF) | dgo (o : ENone)
  -- port programs (R420-R425)
  | portFadd (o : PortF) | portFsub (o : PortF) | portFmul (o : PortF) | portFfma (o : PortF)
  | portFmin (o : PortF) | portFmax (o : PortF) | portFabs (o : PortF) | portFneg (o : PortF)
  | portFrcp (o : PortF) | portFrsq (o : PortF) | portFex2 (o : PortF) | portFlg2 (o : PortF)
  | portFcmp (o : PortF)
  | portIadd (o : PortF) | portIsub (o : PortF) | portImul (o : PortF) | portImulh (o : PortF)
  | portImin (o : PortF) | portImax (o : PortF) | portIminu (o : PortF) | portImaxu (o : PortF)
  | portAnd (o : PortF) | portOr (o : PortF) | portXor (o : PortF)
  | portShl (o : PortF) | portShr (o : PortF) | portSra (o : PortF)
  | portIcmp (o : PortF) | portSel (o : PortF)
  | portCvt (o : PortF) | portRnd (o : PortF) | portQsr (o : PortF)
  | portGet (o : PortF) | portOut (o : PortF) | portDrop (o : PortF) | portPar (o : PortF) | portParx (o : PortF)
  | portCget (o : PortF) | portCset (o : PortF) | portPrev (o : PortF) | portLut (o : PortF)
  | portLdl (o : PortF) | portStl (o : PortF) | portFlag (o : PortF)
  | portHint (n : Nat) (o : PortF)
  -- engine and power events listed last in the table
  | engineIterationBoundary (cid : Nat) (u : EUnit)
  | throttleCauseClears (watt tmax : Nat)
  -- events of a host port, which the cursor of the state names (R30-R51)
  | mgmtOwnRead | mgmtHbWrite | bootCommit | bootClrt | bootFmin | bootRst
  | keyld | keyclr | hkey | codekey | codereg | coderel | codest | xreg | xdel | attest | abort
  | mailboxCommandEnd | descriptorAccept
  -- events of a context, which the cursor of the state names
  | scWheelIssue | scPerform | mredPerform | handlerStart | watchdog | sleepuWake | yieldEnd | svcReply
  -- events of the device
  | ownershipLapse | commitVerifyDone | firmwareWriteDone | deviceReset | fwdog | linkStageEnd
  | auxPowerLoss | powerLoss | tokenTick
  deriving DecidableEq, Repr

end Sys2Proof
end

