-- ==== Sys2Proof/Config.lean ====
section
/-! DEFINITION. What one implementation of the device fixes and the spec does not give, as constants without a body:
nothing in Lean can evaluate them, so a claim about them holds for every value (log entries 5, 6, 7 and 18). -/

namespace Sys2Proof.Config

/-- The key-wrap of NIST SP 800-38F under the device key-encryption key (R58): the 64-byte key pair of a 72-byte blob,
or nothing where the blob fails unwrapping. -/
opaque keyUnwrap : List Byte → Option (BitVec 512)

/-- What a byte of a 64-byte unit reads as when the unit was written under one key and is read under another (R59):
the XTS decryption under the second key of the encryption under the first. The arguments are the two keys, the unit's
local address, the unit's plaintext as written and the byte's place in it. A key is named by a number. -/
opaque xtsReread : Nat → Nat → Nat → List Byte → Nat → Byte

/-- SHA-384 (R60, R62, R28). -/
opaque sha384 : List Byte → BitVec 384

/-- RSA-3072 PSS SHA-384 verification: modulus, exponent, message, signature (R60, R61). -/
opaque rsaVerify : List Byte → List Byte → List Byte → List Byte → Bool

/-- The RSA-3072 and SLH-DSA-SHA2-192s signatures of an attestation report under the device's own keys (R35). -/
opaque attestRsa : List Byte → List Byte
opaque attestSlh : List Byte → List Byte

/-- The parts of the check of a firmware image (R28, R29), whose byte layout the spec does not give: the header is well
formed, its security version, whether it asks to raise the fused count, and the four results of VERIFY. -/
opaque imgHeaderOk : List (Nat × Byte) → Bool
opaque imgVersion : List (Nat × Byte) → Nat
opaque imgRaise : List (Nat × Byte) → Bool
opaque imgRsaKeyOk : List (Nat × Byte) → Bool
opaque imgSlhKeyOk : List (Nat × Byte) → Bool
opaque imgRsaSigOk : List (Nat × Byte) → Bool
opaque imgSlhSigOk : List (Nat × Byte) → Bool
opaque imgSigned : List (Nat × Byte) → List Byte

/-- Bits 51:8 of the address of the firmware default vector table, which lies in the code region (R61, R223). -/
opaque firmwareTable : Nat

/-- The HBM4E stack that holds a local address (DETAIL of R225): the spec gives no interleave over stacks. -/
opaque stackOf : Nat → Nat

/-- The number that DETAIL gives an SRAM level (R217): the spec does not number the levels. -/
opaque levelNumber : Nat → Nat

/-- A free value: the n-th value the spec leaves undefined in a run, at the width asked for (log entry 18). -/
opaque freeWord : Nat → Word

/-- A free choice between two outcomes that the spec allows (log entry 18). -/
opaque freeBool : Nat → Bool

/-- The stored row and column offset of an operand's offset under a pitch of 0, by which R377 and R391 divide (log entry 35). -/
opaque zeroPitch : Int → Int × Nat

end Sys2Proof.Config
end

