-- ==== Sys2Proof/Machine/Num.lean ====
section
/-! DEFINITION. Number formats and arithmetic (R185-R213): values are exact until they are rounded once. -/

namespace Sys2Proof.Machine

/-! ## Bits -/

/-- Bits hi..lo of a word, as a number (R11). -/
def bitsOf (w : Word) (hi lo : Nat) : Nat := w.toNat / 2 ^ lo % 2 ^ (hi + 1 - lo)

/-- One bit of a word. -/
def bitOf (w : Word) (n : Nat) : Bool := w.toNat / 2 ^ n % 2 == 1

/-- The low n bits of a word, sign-extended to 64 bits (R11). -/
def sextN (n : Nat) (w : Word) : Word :=
  if w.toNat % 2 ^ n < 2 ^ (n - 1) then BitVec.ofNat 64 (w.toNat % 2 ^ n)
  else BitVec.ofNat 64 (w.toNat % 2 ^ n) - BitVec.ofNat 64 (2 ^ n)

/-- The low n bits of a word, zero-extended. -/
def zextN (n : Nat) (w : Word) : Word := BitVec.ofNat 64 (w.toNat % 2 ^ n)

/-- Clamps an integer to a range (Sat of R11). -/
def satI (x lo hi : Int) : Int := if x < lo then lo else if hi < x then hi else x

/-! ## Flags (R190, R324) -/

/-- Status flags at the bit positions of a status word (R324): bit 1 INX to bit 14 DVZ. -/
abbrev Fl := BitVec 15

def fINX : Fl := 2#15
def fOVF : Fl := 4#15
def fUNF : Fl := 8#15
def fINV : Fl := 16#15
def fSUB : Fl := 32#15
def fSAT : Fl := 64#15
def fMETA : Fl := 128#15
def fRSV : Fl := 256#15
def fOOR : Fl := 512#15
def fCEC : Fl := 1024#15
def fUEC : Fl := 2048#15
def fPFT : Fl := 4096#15
def fDVZ : Fl := 16384#15

/-- A flag raised on a condition. -/
def flIf (b : Bool) (f : Fl) : Fl := if b then f else 0

/-! ## Exact values -/

/-- An exact value: NaN, a signed infinity, or (-1)^neg × m × 2^e, where zero keeps its sign. -/
inductive Val
  | nan
  | inf (neg : Bool)
  | fin (neg : Bool) (m : Nat) (e : Int)
  deriving DecidableEq, Repr

/-- An exact integer. -/
def Val.ofInt (i : Int) : Val := .fin (decide (i < 0)) i.natAbs 0

/-- m × 2^e as a multiple of 2^f, for f ≤ e. -/
def scaleTo (m : Nat) (e f : Int) : Nat := m * 2 ^ (e - f).toNat

/-- The sum with the sign rules of R191, and INV for opposite infinities (R190). -/
def Val.add : Val → Val → Val × Fl
  | .nan, _ => (.nan, 0)
  | _, .nan => (.nan, 0)
  | .inf a, .inf b => if a = b then (.inf a, 0) else (.nan, fINV)
  | .inf a, .fin _ _ _ => (.inf a, 0)
  | .fin _ _ _, .inf b => (.inf b, 0)
  | .fin a m e, .fin b n f =>
    let g := min e f
    let x : Int := if a then -(scaleTo m e g : Int) else scaleTo m e g
    let y : Int := if b then -(scaleTo n f g : Int) else scaleTo n f g
    let z := x + y
    if z = 0 then (.fin (a && b && m == 0 && n == 0) 0 0, 0)
    else (.fin (decide (z < 0)) z.natAbs g, 0)

/-- The negation, which changes the sign of zero as well. -/
def Val.neg : Val → Val
  | .nan => .nan
  | .inf a => .inf !a
  | .fin a m e => .fin (!a) m e

/-- The product, NaN with INV for 0 × ∞ (R190). -/
def Val.mul : Val → Val → Val × Fl
  | .nan, _ => (.nan, 0)
  | _, .nan => (.nan, 0)
  | .inf a, .inf b => (.inf (a != b), 0)
  | .inf a, .fin b n _ => if n = 0 then (.nan, fINV) else (.inf (a != b), 0)
  | .fin a m _, .inf b => if m = 0 then (.nan, fINV) else (.inf (a != b), 0)
  | .fin a m e, .fin b n f => (.fin (a != b) (m * n) (e + f), 0)

/-- Multiplication by a power of two. -/
def Val.scale (v : Val) (k : Int) : Val :=
  match v with
  | .nan => .nan
  | .inf a => .inf a
  | .fin a m e => .fin a m (e + k)

/-- Order of two exact values, neither NaN: less. -/
def Val.lt : Val → Val → Bool
  | .nan, _ => false
  | _, .nan => false
  | .inf a, .inf b => a && !b
  | .inf a, .fin _ _ _ => a
  | .fin _ _ _, .inf b => !b
  | .fin a m e, .fin b n f =>
    let g := min e f
    let x : Int := if a then -(scaleTo m e g : Int) else scaleTo m e g
    let y : Int := if b then -(scaleTo n f g : Int) else scaleTo n f g
    decide (x < y)

def Val.isNan : Val → Bool
  | .nan => true
  | .inf _ => false
  | .fin _ _ _ => false

def Val.isInf : Val → Bool
  | .inf _ => true
  | .nan => false
  | .fin _ _ _ => false

/-- Equality as numbers: the zeros are equal, NaN equals nothing. -/
def Val.eqv (a b : Val) : Bool := !a.isNan && !b.isNan && !a.lt b && !b.lt a

/-- Comparison of magnitudes m × 2^e and n × 2^f. -/
def magLt (m : Nat) (e : Int) (n : Nat) (f : Int) : Bool :=
  let g := min e f
  decide (scaleTo m e g < scaleTo n f g)

/-! ## Floating-point formats (R185) -/

/-- A format: fraction bits, exponent bits, bias, whether it has infinities (E4M3 has none). -/
structure FFmt where
  (fb eb bias : Nat) (hasInf : Bool)
  deriving DecidableEq, Repr

def FFmt.f32 : FFmt := ⟨23, 8, 127, true⟩
def FFmt.f16 : FFmt := ⟨10, 5, 15, true⟩
def FFmt.bf16 : FFmt := ⟨7, 8, 127, true⟩
def FFmt.e4m3 : FFmt := ⟨3, 4, 7, false⟩
def FFmt.e5m2 : FFmt := ⟨2, 5, 15, true⟩

/-- The exponent of the smallest normal. -/
def FFmt.emin (f : FFmt) : Int := 1 - (f.bias : Int)

/-- Width in bits. -/
def FFmt.width (f : FFmt) : Nat := 1 + f.eb + f.fb

/-- The largest finite magnitude as m × 2^e. -/
def FFmt.maxM (f : FFmt) : Nat := if f.hasInf then 2 ^ (f.fb + 1) - 1 else 2 ^ (f.fb + 1) - 2

def FFmt.maxE (f : FFmt) : Int :=
  (if f.hasInf then 2 ^ f.eb - 2 else 2 ^ f.eb - 1 : Int) - f.bias - f.fb

/-- The canonical NaN (R186). -/
def FFmt.canon (f : FFmt) : Nat :=
  if f.hasInf then (2 ^ f.eb - 1) * 2 ^ f.fb + 2 ^ (f.fb - 1) else 2 ^ (f.eb + f.fb) - 1

/-- The bits of a signed infinity. -/
def FFmt.infBits (f : FFmt) (neg : Bool) : Nat :=
  (if neg then 2 ^ (f.eb + f.fb) else 0) + (2 ^ f.eb - 1) * 2 ^ f.fb

/-- The largest finite value's bits with a sign. -/
def FFmt.maxBits (f : FFmt) (neg : Bool) : Nat :=
  (if neg then 2 ^ (f.eb + f.fb) else 0) +
    (if f.hasInf then (2 ^ f.eb - 1) * 2 ^ f.fb - 1 else 2 ^ (f.eb + f.fb) - 2)

/-- The value of a bit pattern. -/
def FFmt.decode (f : FFmt) (b : Nat) : Val :=
  let neg := b / 2 ^ (f.eb + f.fb) % 2 == 1
  let ex := b / 2 ^ f.fb % 2 ^ f.eb
  let fr := b % 2 ^ f.fb
  if f.hasInf && ex == 2 ^ f.eb - 1 then (if fr = 0 then .inf neg else .nan)
  else if !f.hasInf && ex == 2 ^ f.eb - 1 && fr == 2 ^ f.fb - 1 then .nan
  else if ex = 0 then .fin neg fr (f.emin - f.fb)
  else .fin neg (2 ^ f.fb + fr) ((ex : Int) - f.bias - f.fb)

/-- A bit pattern is subnormal: zero exponent and non-zero fraction (R185). -/
def FFmt.isSub (f : FFmt) (b : Nat) : Bool := b / 2 ^ f.fb % 2 ^ f.eb == 0 && b % 2 ^ f.fb != 0

/-- The value of a pattern, a subnormal read as a zero of its sign when flushing (R191). -/
def FFmt.decodeFz (f : FFmt) (fz : Bool) (b : Nat) : Val :=
  if fz && f.isSub b then .fin (b / 2 ^ (f.eb + f.fb) % 2 == 1) 0 0 else f.decode b

/-- The exponent of the spacing of the format at magnitude m × 2^e, m > 0, with unbounded exponent above and the
subnormal spacing below (R208). -/
def FFmt.ulpE (f : FFmt) (m : Nat) (e : Int) : Int :=
  max (e + Nat.log2 m - f.fb) (f.emin - f.fb)

/-- Rounds m × 2^e to a multiple of 2^q, to nearest with ties to even; also whether it was exact. -/
def roundAt (m : Nat) (e q : Int) : Nat × Bool :=
  if q ≤ e then (m * 2 ^ (e - q).toNat, true)
  else
    let d := 2 ^ (q - e).toNat
    let k := m / d
    let r := m % d
    if r = 0 then (k, true)
    else if 2 * r < d then (k, false)
    else if 2 * r > d then (k + 1, false)
    else (k + k % 2, false)

/-- Rounds m × 2^e to a multiple of 2^q with a draw (R208). -/
def roundAtSR (m : Nat) (e q : Int) (d : Nat) : Nat × Bool :=
  if q ≤ e then (m * 2 ^ (e - q).toNat, true)
  else
    let s := 2 ^ (q - e).toNat
    let w := m * 2 ^ 32 / s
    let k := (w + d) / 2 ^ 32
    (k, k * s == m)

/-- The pattern of the finite magnitude k × 2^q, which the format holds, with a sign. -/
def FFmt.pack (f : FFmt) (neg : Bool) (k : Nat) (q : Int) : Nat :=
  (if neg then 2 ^ (f.eb + f.fb) else 0) +
    (if k < 2 ^ f.fb then k
     else
      let k' := if k = 2 ^ (f.fb + 1) then 2 ^ f.fb else k
      let q' := if k = 2 ^ (f.fb + 1) then q + 1 else q
      (q' + f.fb + f.bias).toNat * 2 ^ f.fb + (k' - 2 ^ f.fb))

/-- The result of an arithmetic operation (R190, R191): one rounding to nearest even, overflow to infinity (a format
without infinities takes its canonical NaN), canonical NaN. -/
def FFmt.arith (f : FFmt) (fz : Bool) (v : Val) : Nat × Fl :=
  match v with
  | .nan => (f.canon, 0)
  | .inf n => (if f.hasInf then f.infBits n else f.canon, 0)
  | .fin n m e =>
    if m = 0 then (f.pack n 0 0, 0)
    else
      let q := f.ulpE m e
      let (k, ex) := roundAt m e q
      if magLt f.maxM f.maxE k q then (if f.hasInf then f.infBits n else f.canon, fOVF ||| fINX)
      else
        let tiny := magLt m e 1 f.emin
        let sub := k != 0 && decide (k < 2 ^ f.fb)
        if fz && sub then (f.pack n 0 0, fINX ||| fUNF)
        else (f.pack n k q, flIf (!ex) fINX ||| flIf (tiny && !ex) fUNF)

/-! ## L6 (R187, R194, R196) -/

/-- The table T of R187, in units of 1/4096. -/
def l6T : Nat → Nat
  | 0 => 4096
  | 1 => 4871
  | 2 => 5793
  | _ => 6889

/-- The linear magnitude of log field E as m × 2^e. -/
def l6Mag (E : Nat) : Nat × Int := (l6T (E % 4), (E / 4 : Nat) - 4 - 12)

/-- The linear value of a code, block scale 1 (R187). -/
def l6Val (c : Nat) : Val :=
  let c := c % 64
  if c = 32 then .fin false 0 0 else .fin (c / 32 == 1) (l6Mag (c % 32)).1 (l6Mag (c % 32)).2

/-- The linearised product of two codes (R198). -/
def l6Prod (a b : Nat) : Val :=
  let a := a % 64
  let b := b % 64
  if a = 32 ∨ b = 32 then .fin false 0 0
  else
    let F := a % 32 + b % 32
    .fin (a / 32 != b / 32) (l6T (F % 4)) ((F / 4 : Nat) - 8 - 12)

/-- A code with a sign and a log field. -/
def l6Code (s : Bool) (E : Nat) : Nat := (if s then 32 else 0) + E

/-- Nearest code of a finite non-zero magnitude, ties as R194; the flag says that the value saturated. -/
def l6Near (s : Bool) (m : Nat) (e : Int) : Nat × Fl × Bool :=
  if !magLt m e 15081 (-10) then (l6Code s 31, fSAT ||| fINX, true)
  else if s && magLt m e 1 (-4) then
    (if magLt 4871 (-17) m e then l6Code true 1 else 32, fUNF ||| fINX, false)
  else if !magLt 1 (-5) m e then (32, fUNF ||| fINX, false)
  else if magLt m e 1 (-4) then (0, fUNF ||| fINX, false)
  else
    let k : Int := e + Nat.log2 m
    let c := k - 13
    let j := if !magLt 8967 c m e then 0
      else if magLt m e 10664 c then 1
      else if !magLt 12682 c m e then 2
      else if magLt m e 15081 c then 3
      else 4
    let E := (4 * (k + 4) + j).toNat
    let E := if s && E == 0 then 1 else E
    let E := if E > 31 then 31 else E
    let ex := !magLt (l6Mag E).1 (l6Mag E).2 m e && !magLt m e (l6Mag E).1 (l6Mag E).2
    (l6Code s E, flIf (!ex) fINX, false)

/-- The largest log field from `lo` up to n whose linear magnitude is at most m × 2^e. -/
def l6Floor (m : Nat) (e : Int) (lo : Nat) : Nat → Option Nat
  | 0 => if lo ≤ 0 && !magLt m e (l6Mag 0).1 (l6Mag 0).2 then some 0 else none
  | n + 1 =>
    if lo ≤ n + 1 && !magLt m e (l6Mag (n + 1)).1 (l6Mag (n + 1)).2 then some (n + 1) else l6Floor m e lo n

/-- The stochastic choice of a code (R208). -/
def l6Stoch (s : Bool) (m : Nat) (e : Int) (d : Nat) : Nat × Fl × Bool :=
  if !magLt m e 1 4 then (l6Code s 31, fSAT ||| fINX, true)
  else
    let lo := l6Floor m e (if s then 1 else 0) 31
    let (lm, le) := match lo with | some E => l6Mag E | none => (0, -16)
    let (hm, he) := match lo with
      | some 31 => (1, 4)
      | some E => l6Mag (E + 1)
      | none => l6Mag (if s then 1 else 0)
    let g := min (min e le) he
    let x := scaleTo m e g
    let vl := scaleTo lm le g
    let vh := scaleTo hm he g
    let tiny := magLt m e 1 (-4)
    let up := decide (d * (vh - vl) < 2 ^ 32 * (x - vl))
    if x = vl then
      (match lo with | some E => l6Code s E | none => 32, 0, false)
    else if up then
      match lo with
      | some 31 => (l6Code s 31, fSAT ||| fINX, true)
      | some E => (l6Code s (E + 1), fINX, false)
      | none => (l6Code s (if s then 1 else 0), fINX ||| flIf tiny fUNF, false)
    else
      (match lo with | some E => l6Code s E | none => 32, fINX ||| flIf tiny fUNF, false)

end Sys2Proof.Machine

namespace Sys2Proof

open Machine

/-! ## Element types (R266) -/

/-- Width of a stored element in bits; an L6 code is stored in a byte (R345). -/
def ETy.bits : ETy → Nat
  | .f32 => 32 | .bf16 => 16 | .f16 => 16 | .e4m3 => 8 | .e5m2 => 8 | .l6 => 8
  | .i8 => 8 | .ui8 => 8 | .i16 => 16 | .i32 => 32 | .i64 => 64 | .ui64 => 64

/-- Size of a stored element in bytes. -/
def ETy.bytes (t : ETy) : Nat := t.bits / 8

/-- The floating-point format of a type. -/
def ETy.fmt : ETy → Option FFmt
  | .f32 => some .f32 | .bf16 => some .bf16 | .f16 => some .f16 | .e4m3 => some .e4m3 | .e5m2 => some .e5m2
  | .l6 => none | .i8 => none | .ui8 => none | .i16 => none | .i32 => none | .i64 => none | .ui64 => none

def ETy.signed : ETy → Bool
  | .i8 => true | .i16 => true | .i32 => true | .i64 => true
  | .ui8 => false | .ui64 => false
  | .f32 => false | .bf16 => false | .f16 => false | .e4m3 => false | .e5m2 => false | .l6 => false

/-- The smallest and the largest value of an integer type. -/
def ETy.range (t : ETy) : Int × Int :=
  if t.signed then (-(2 ^ (t.bits - 1)), 2 ^ (t.bits - 1) - 1) else (0, 2 ^ t.bits - 1)

/-- The integer in the low bits of a word under an integer type. -/
def ETy.intOf (t : ETy) (w : Word) : Int :=
  let n := w.toNat % 2 ^ t.bits
  if t.signed && decide (2 ^ (t.bits - 1) ≤ n) then (n : Int) - 2 ^ t.bits else n

/-- The value of an element held in a word (R407), L6 as its linear value, subnormals flushed when asked. -/
def ETy.value (t : ETy) (fz : Bool) (w : Word) : Val :=
  match t.fmt with
  | some f => f.decodeFz fz (w.toNat % 2 ^ f.width)
  | none => if t == .l6 then l6Val w.toNat else .ofInt (t.intOf w)

/-- A result held in a word under its type (R407): integers of the i types are sign-extended. -/
def ETy.hold (t : ETy) (bits : Nat) : Word :=
  if t.signed then sextN t.bits (BitVec.ofNat 64 bits) else BitVec.ofNat 64 (bits % 2 ^ t.bits)

/-- The bits of an integer in a type. -/
def ETy.ofInt (t : ETy) (i : Int) : Nat := (i % 2 ^ t.bits).toNat

/-- The largest finite value with a sign, as bits (R193); a negative value of an unsigned type takes 0. -/
def ETy.maxSigned (t : ETy) (neg : Bool) : Nat :=
  match t.fmt with
  | some f => f.maxBits neg
  | none =>
    if t == .l6 then l6Code neg 31
    else if neg then t.ofInt t.range.1 else t.ofInt t.range.2

end Sys2Proof

namespace Sys2Proof.Machine

/-- How a conversion rounds and substitutes (R192, R193): a draw for RoundSR, the substitute when SUBEN is set, and the
flush bit for the result. -/
structure Conv where
  (draw : Option Nat) (sub : Option Word) (fz : Bool)
  deriving DecidableEq, Repr

/-- The substitute, or the value given. -/
def Conv.orSub (c : Conv) (t : ETy) (bits : Nat) : Nat :=
  match c.sub with
  | some w => w.toNat % 2 ^ (if t == .l6 then 6 else t.bits)
  | none => bits

/-- Converts an exact value to a type: its bits and the flags (R192-R195). -/
def convert (t : ETy) (c : Conv) (v : Val) : Nat × Fl :=
  match t.fmt with
  | some f =>
    match v with
    | .nan => (f.canon, 0)
    | .inf n => if f.hasInf then (f.infBits n, 0) else (c.orSub t (f.maxBits n), fSUB)
    | .fin n m e =>
      if m = 0 then (f.pack n 0 0, 0)
      else
        let q := f.ulpE m e
        let (k, ex) := match c.draw with | some d => roundAtSR m e q d | none => roundAt m e q
        if magLt f.maxM f.maxE k q then (c.orSub t (f.maxBits n), fSAT ||| fINX)
        else
          let tiny := magLt m e 1 f.emin
          if c.fz && k != 0 && decide (k < 2 ^ f.fb) then (f.pack n 0 0, fINX ||| fUNF)
          else (f.pack n k q, flIf (!ex) fINX ||| flIf (tiny && !ex) fUNF)
  | none =>
    match v with
    | .nan => (c.orSub t (if t == .l6 then 32 else 0), fSUB)
    | .inf n => (c.orSub t (t.maxSigned n), fSUB)
    | .fin n m e =>
      if t == .l6 then
        if m = 0 then (32, 0)
        else
          let (code, fl, sat) := match c.draw with | some d => l6Stoch n m e d | none => l6Near n m e
          (if sat then c.orSub t code else code, fl)
      else
        let (k, ex) := match c.draw with | some d => roundAtSR m e 0 d | none => roundAt m e 0
        let i : Int := if n then -(k : Int) else k
        if i < t.range.1 ∨ t.range.2 < i then (c.orSub t (t.maxSigned n), fSAT ||| fINX)
        else (t.ofInt i, flIf (!ex) fINX)

/-- RoundNE without substitution or flushing. -/
def Conv.plain : Conv := ⟨none, none, false⟩

/-! ## FP32 operations (R190, R294-R298, R420) -/

/-- FP32 value of the low bits of a word. -/
def f32Val (fz : Bool) (w : Word) : Val := FFmt.f32.decodeFz fz (w.toNat % 2 ^ 32)

/-- The FP32 result of an exact value, with the flags of the operation that formed it. -/
def f32Res (fz : Bool) (r : Val × Fl) : Word × Fl :=
  let (b, fl) := FFmt.f32.arith fz r.1
  (BitVec.ofNat 64 b, fl ||| r.2)

def f32Add (fz : Bool) (a b : Word) : Word × Fl := f32Res fz ((f32Val fz a).add (f32Val fz b))
def f32Sub (fz : Bool) (a b : Word) : Word × Fl := f32Res fz ((f32Val fz a).add (f32Val fz b).neg)
def f32Mul (fz : Bool) (a b : Word) : Word × Fl := f32Res fz ((f32Val fz a).mul (f32Val fz b))

/-- a × b + c exactly. -/
def Val.fma (a b c : Val) : Val × Fl :=
  let p := a.mul b
  let r := p.1.add c
  (r.1, p.2 ||| r.2)

def f32Fma (fz : Bool) (a b c : Word) : Word × Fl := f32Res fz ((f32Val fz a).fma (f32Val fz b) (f32Val fz c))

/-- fmin and fmax: −0 below +0, one NaN yields the other operand, two NaNs the canonical NaN (R295). -/
def f32MinMax (mx fz : Bool) (a b : Word) : Word × Fl :=
  let x := f32Val fz a
  let y := f32Val fz b
  let neg : Val → Bool := fun v => match v with | .fin n _ _ => n | .inf n => n | .nan => false
  let r : Val :=
    if x.isNan then y
    else if y.isNan then x
    else if x.lt y then (if mx then y else x)
    else if y.lt x then (if mx then x else y)
    else if neg x = mx then y else x
  f32Res fz (r, 0)

/-- The conditions of fcmp (R296). -/
def f32Cmp (c : Cond) (fz : Bool) (a b : Word) : Bool :=
  let x := f32Val fz a
  let y := f32Val fz b
  match c with
  | .eq => x.eqv y
  | .ne => !x.eqv y
  | .lt => x.lt y
  | .le => !x.isNan && !y.isNan && !y.lt x
  | .gt => y.lt x
  | .ge => !x.isNan && !y.isNan && !x.lt y
  | .ltu => false
  | .leu => false
  | .gtu => false
  | .geu => false

/-- 1 / a: enough quotient bits and a sticky bit below them, so that one rounding is exact. DVZ for ±0. -/
def Val.recip : Val → Val × Fl
  | .nan => (.nan, 0)
  | .inf n => (.fin n 0 0, 0)
  | .fin n m e =>
    if m = 0 then (.inf n, fDVZ)
    else
      let k := Nat.log2 m + 64
      let q := 2 ^ k / m
      let st := if 2 ^ k % m = 0 then 0 else 1
      (.fin n (2 * q + st) (-e - k - 1), 0)

def f32Rcp (fz : Bool) (a : Word) : Word × Fl := f32Res fz (f32Val fz a).recip

/-- Integer square root, one result bit at a time: `n` bits remain. -/
def isqrtGo : Nat → Nat → Nat → Nat
  | 0, _, r => r
  | n + 1, x, r =>
    let t := r + 2 ^ n
    isqrtGo n x (if t * t ≤ x then t else r)

/-- The integer square root. -/
def isqrt (x : Nat) : Nat := isqrtGo (Nat.log2 x / 2 + 1) x 0

/-- 1 / √a for a finite positive value, with a sticky bit (R295, R420). -/
def Val.rsqrt : Val → Val × Fl
  | .nan => (.nan, 0)
  | .inf n => if n then (.nan, fINV) else (.fin false 0 0, 0)
  | .fin n m e =>
    if m = 0 then (.inf n, fDVZ)
    else if n then (.nan, fINV)
    else
      let (m, e) := if e % 2 = 0 then (m, e) else (2 * m, e - 1)
      let k := Nat.log2 m + 64
      let q := isqrt (2 ^ (2 * k) / m)
      let st := if q * q * m = 2 ^ (2 * k) then 0 else 1
      (.fin false (2 * q + st) (-(e / 2) - k - 1), 0)

def f32Rsq (fz : Bool) (a : Word) : Word × Fl := f32Res fz (f32Val fz a).rsqrt

/-- The product over the n fraction bits of f (below 2^n) of the roots 2^(2^-i), in units of 2^-p: `r` is the current
root and `acc` the product so far. -/
def exp2Go (p : Nat) : Nat → Nat → Nat → Nat → Nat
  | 0, _, _, acc => acc
  | n + 1, f, r, acc =>
    let r' := isqrt (r * 2 ^ p)
    exp2Go p n (f % 2 ^ n) r' (if f / 2 ^ n % 2 = 1 then acc * r' / 2 ^ p else acc)

/-- 2^a (R420), from 160 fraction bits and a sticky bit (log entry 17). -/
def Val.exp2 : Val → Val × Fl
  | .nan => (.nan, 0)
  | .inf n => (if n then .fin false 0 0 else .inf false, 0)
  | .fin n m e =>
    if m = 0 then (.fin false 1 0, 0)
    else if 0 ≤ e then
      -- an integer exponent: exact, far beyond the range clipped to it
      let i := min (m * 2 ^ min e.toNat 20) 4096
      (.fin false 1 (if n then -(i : Int) else i), 0)
    else if magLt m e 1 (-40) then
      -- |a| < 2^-40: 2^a lies strictly between 1 - 2^-39 and 1 + 2^-39
      (if n then .fin false (2 ^ 40 - 1) (-40) else .fin false (2 ^ 40 + 1) (-40), 0)
    else
      let d := (-e).toNat
      let ip : Int := if n then -((m + 2 ^ d - 1) / 2 ^ d : Nat) else (m / 2 ^ d : Nat)
      let fr := if n then (2 ^ d - m % 2 ^ d) % 2 ^ d else m % 2 ^ d
      if fr = 0 then (.fin false 1 (satI ip (-4096) 4096), 0)
      else
        let y := exp2Go 160 d fr (2 * 2 ^ 160) (2 ^ 160)
        (.fin false (2 * y + 1) (satI ip (-4096) 4096 - 161), 0)

def f32Ex2 (fz : Bool) (a : Word) : Word × Fl := f32Res fz (f32Val fz a).exp2

/-- n further binary digits of log2 of x / 2^p, 1 ≤ x / 2^p < 2, appended to `acc`. -/
def log2Go (p : Nat) : Nat → Nat → Nat → Nat
  | 0, _, acc => acc
  | n + 1, x, acc =>
    let y := x * x / 2 ^ p
    if 2 ^ (p + 1) ≤ y then log2Go p n (y / 2) (2 * acc + 1) else log2Go p n y (2 * acc)

/-- log2 a (R420), from 96 fraction digits and a sticky bit (log entry 17). -/
def Val.log2 : Val → Val × Fl
  | .nan => (.nan, 0)
  | .inf n => if n then (.nan, fINV) else (.inf false, 0)
  | .fin n m e =>
    if m = 0 then (.inf true, fDVZ)
    else if n then (.nan, fINV)
    else
      let l := Nat.log2 m
      let k : Int := e + l
      if m = 2 ^ l then (.ofInt k, 0)
      else
        let fr := log2Go 256 96 (m * 2 ^ (256 - l)) 0
        -- k + (2 fr + 1) / 2^97
        let z : Int := k * 2 ^ 97 + (2 * fr + 1)
        (.fin (decide (z < 0)) z.natAbs (-97), 0)

def f32Lg2 (fz : Bool) (a : Word) : Word × Fl := f32Res fz (f32Val fz a).log2

/-- fcvt (R298): the value of the source type converted with RoundNE and SUBEN = 0, held as the destination type. -/
def fcvtRes (src dst : ETy) (fz : Bool) (a : Word) : Word :=
  dst.hold (convert dst ⟨none, none, fz⟩ (src.value fz a)).1

/-! ## Generators (R206) -/

/-- One advance of a lane's generator. -/
def lfsrNext (st : BitVec 32) : BitVec 32 :=
  let n := st.toNat
  let fb := (n / 2 ^ 31 + n / 2 ^ 21 + n / 2 + n) % 2
  BitVec.ofNat 32 (n * 2 + fb)

/-- The seed of a lane at a binding point (R207). -/
def lfsrSeed (point lane : Nat) : BitVec 32 :=
  BitVec.ofNat 32 (0x6A09E667 ^^^ (point * 256) ^^^ lane)

/-! ## Memory reductions (R210, R212) -/

/-- The float mode of a memory reduction on two bit patterns of a format. -/
def mredFloat (f : FFmt) (satf can fz : Bool) (mem a : Nat) : Nat :=
  let x := f.decodeFz fz mem
  let y := f.decodeFz fz a
  let r := x.add y
  let (b, _) := f.arith fz r.1
  if r.1.isNan then
    if can then f.canon
    else if x.isNan then mem ||| 2 ^ (f.fb - 1)
    else a ||| 2 ^ (f.fb - 1)
  else if satf && !x.isInf && !y.isInf && (f.decode b).isInf then
    f.maxBits (match r.1 with | .fin n _ _ => n | .inf n => n | .nan => false)
  else b

/-- The integer that fixed mode adds (R212). -/
def mredAddend (e : Int) (a : Nat) : Int :=
  match FFmt.f32.decode a with
  | .nan => 0
  | .inf n => if n then -(2 ^ 63) else 2 ^ 63 - 1
  | .fin n m x =>
    let k := (roundAt m (x - e) 0).1
    satI (if n then -(k : Int) else k) (-(2 ^ 63)) (2 ^ 63 - 1)

/-- Fixed mode on a 64-bit element. -/
def mredFixed (e : Int) (mem : Word) (a : Nat) : Word := mem + BitVec.ofInt 64 (mredAddend e a)

end Sys2Proof.Machine
end

