-- ==== Sys2Proof/Machine/Map.lean ====
section
/-! DEFINITION. Finite maps with numbers as keys: lists of pairs in strictly rising key order. -/

namespace Sys2Proof.Machine

/-- A finite map: its keys strictly rise. -/
abbrev Map (α : Type) := List (Nat × α)

/-- The value at a key, if listed. -/
def Map.find {α : Type} : Map α → Nat → Option α
  | [], _ => none
  | (k, v) :: m, n => if k = n then some v else Map.find m n

/-- The value at a key, or a default where none is listed. -/
def Map.getD {α : Type} (m : Map α) (n : Nat) (d : α) : α := (Map.find m n).getD d

/-- Sets the value at a key. -/
def Map.put {α : Type} : Map α → Nat → α → Map α
  | [], n, v => [(n, v)]
  | (k, w) :: m, n, v =>
    if k = n then (n, v) :: m
    else if n < k then (n, v) :: (k, w) :: m
    else (k, w) :: Map.put m n v

/-- Removes a key. -/
def Map.del {α : Type} : Map α → Nat → Map α
  | [], _ => []
  | (k, w) :: m, n => if k = n then Map.del m n else (k, w) :: Map.del m n

/-- The keys strictly rise. -/
def Map.wf {α : Type} : Map α → Bool
  | [] => true
  | [_] => true
  | (a, _) :: (b, w) :: m => decide (a < b) && Map.wf ((b, w) :: m)

end Sys2Proof.Machine
end

