-- ==== Sys2Proof/Machine/State.lean ====
section
/-! DEFINITION. The state of one Fjaris 9 module as plain data, the ways a step can stop, and the state after reset.
Every piece of state names the rule of spec/ that gives it. -/

namespace Sys2Proof.Machine

/-! ## Memories -/

/-- A memory: (address, byte) pairs, addresses strictly rising, no byte equal to zero. An unlisted address reads as zero
(log entry 4; for the explicit levels R123). -/
abbrev Mem := List Host.Cell

/-- The addresses strictly rise and no listed byte is zero. -/
def Mem.wf : Mem → Bool
  | [] => true
  | [(_, v)] => v != 0
  | (a, v) :: (b, w) :: m => v != 0 && decide (a < b) && Mem.wf ((b, w) :: m)

/-! ## Places of memory -/

/-- Where an access is performed: its point of coherence (R141), or the trap core's own memory (R214). -/
inductive Place
  | spad (cid off : Nat)
  | clus (cluster off : Nat)
  | chip (pos off : Nat)
  | wst (cid off : Nat)
  | flash (off : Nat)
  | loc (pa key cl wp : Nat)
  | remote (dev pa key : Nat)
  | host (port bus : Nat)
  | trapMem (core off : Nat)
  deriving DecidableEq, Repr

/-! ## Who moves next -/

/-- The agent of a core that executes an instruction: a stream of a context (R91), the trap core (R214) or the helper
context (R112). -/
inductive Agent | S | C | M | R | K | trapCore | helper
  deriving DecidableEq, Repr

/-- The cursor: the host port, the context (twice the physical core id of R15, plus the context) and the agent of the
instruction or event that is carried out. The model's own (log entry 1). -/
structure Cursor where
  port : Nat
  cid : Nat
  agent : Agent
  deriving DecidableEq, Repr

/-- How far the clk in progress has come where the spec gives its agents an order: the host ports (R42, R43), the contexts by slot-wheel
position, engines before S (R211, R313, R327), and the dispatchers by chiplet position (R76). The model's own (log entry 1). -/
structure Turn where
  port : Nat
  agent : Nat
  chiplet : Nat
  deriving DecidableEq, Repr

/-- What a soft error strikes (R128, R225, R226): a unit of memory, with an error that the code corrects or not; or, in device-reserved HBM
and without correction, a loaded code page, an entry of the scheduler store, or a saved image. -/
inductive Soft
  | unit (p : Place) (hard : Bool)
  | codePage (handle page : Nat)
  | entry (e : Nat)
  | image (e : Nat)
  deriving DecidableEq, Repr

/-- Who moves next. The spec leaves the order of the agents' steps open (R2), so it is an input: the model's own
(log entry 1). -/
inductive Mover
  | idle
  | soft (x : Soft)
  | event (port cid : Nat) (i : Instr)
  | stream (cid : Nat) (a : Agent)
  deriving DecidableEq, Repr

/-! ## The scheduler's records -/

/-- A continuation record: its four words (R68). -/
structure Record where
  (w0 w1 w2 w3 : Word)
  deriving DecidableEq, Repr

/-- The fields of a task header (R70). -/
structure Header where
  (spad acc slots chan wst slLen : Nat) (slOff : BitVec 32)
  deriving DecidableEq, Repr

/-- The state of a record in the store (R72). -/
inductive RecState
  | pooled
  | ready
  | running (cid : Nat)
  | saved
  deriving DecidableEq, Repr

/-- An entry of the scheduler store (R72-R79, R83, R318). `join` is the live join counter, `hdr` the header read when the
record first became ready (R70), `first` the record as it entered (R85), `saveDone` says that a saved record's image is complete, `since` the clk of its last
becoming ready, `num` its sequence number (R76), `prio` the effective priority it was dispatched with, `disp` the clk of
its dispatch, `aged` how many aging steps have been taken, `resv` that it is reserving (R79) and `qforce` that a save has
set QREQ (R233). -/
structure Entry where
  gen : Nat
  record : Record
  first : Record
  join : Nat
  launch : Nat
  st : RecState
  hdr : Option Header
  saveDone : Bool
  since : Nat
  num : Nat
  prio : Nat
  disp : Nat
  aged : Nat
  resv : Bool
  qforce : Bool
  deriving DecidableEq, Repr

/-- A host mapping of a launch (R66). -/
structure HostMap where
  (va len exp off : Nat) (writable : Bool)
  deriving DecidableEq, Repr

/-- A launch (R50-R57, R66): its descriptor's fields, its root join counter, and what its completion record will say.
`stat` is the status of the event that ended it, `done` says that it has completed, on clk `doneAt`, and awaits its record. -/
structure Launch where
  port : Nat
  tag : Word
  caddr : Nat
  ptroot : Nat
  tlim : Nat
  accepted : Nat
  vec : Nat
  noint : Bool
  joins : Nat
  stat : Option Nat
  done : Bool
  doneAt : Nat
  fcnt : Nat
  fcore : Nat
  fcause : Nat
  faddr : Word
  maps : List HostMap
  deriving DecidableEq, Repr

/-- A bunch (R107-R110, R321): `count` is the member count of BMAKE, `placed` its cluster, `members` the contexts that
are members, `arrived` those whose arrival stands in the open generation `gen`. -/
structure Bunch where
  launch : Nat
  count : Nat
  placed : Option Nat
  members : List Nat
  arrived : List Nat
  gen : Nat
  deriving DecidableEq, Repr

/-- A pending pre-emption (R80-R87): the newcomer's entry while it has one, the victims' entries, whether it is a kill, and the queue and
number of the tokens taken. -/
structure Preempt where
  newcomer : Option Nat
  victims : List Nat
  kill : Bool
  queue : Nat
  tokens : Nat
  deriving DecidableEq, Repr

/-- A ready queue's registers (R74). -/
structure Queue where
  cap : Nat
  rate : Nat
  prio : Nat
  tok : Nat
  deriving DecidableEq, Repr

/-- The scheduler (R68-R88, R107, R318): `marks` maps a chiplet position to the entry that holds its mark and the core it
marks (R79), `offers` are contexts freed by a pre-emption, with the newcomer that is offered them first (R85). -/
structure Sched where
  store : Map Entry
  gens : Map Nat
  launches : Map Launch
  nextLaunch : Nat
  queues : Map Queue
  bunches : Map Bunch
  nextBunch : Nat
  nextNum : Nat
  ticks : Nat
  marks : Map (Nat × Nat)
  offers : Map Nat
  preempts : List Preempt
  deriving DecidableEq, Repr

/-! ## Code objects and keys -/

/-- The name of an encryption key: the random key of a start (R58), or a key that KEYLD loaded. -/
inductive KeyName
  | random (start : Nat)
  | loaded (bits : BitVec 512)
  deriving DecidableEq, Repr

/-- A code object (R60-R64): virtual base, length, page hashes, the host port and bus address of its code bytes, its
code-key index, the pages loaded and their bytes by offset, and whether it is revoked. -/
structure CodeObj where
  base : Nat
  len : Nat
  pages : Nat
  hashes : List (BitVec 384)
  port : Nat
  bus : Nat
  keyIdx : Nat
  loaded : List Nat
  bytes : Mem
  revoked : Bool
  deriving DecidableEq, Repr

/-- An export of host memory (R65). -/
structure Export where
  (port bus len : Nat) (rd wr : Bool)
  deriving DecidableEq, Repr

/-! ## Host ports, boot, power, links -/

/-- One host port: mailbox (R46) with the contents taken at the start of the running command, whether the port owned MGMT.OWN then
(R45), its answer with the result words, the range whose export a running XDEL has removed (R65), the launch window (R49), the HDM
decoder key slots (R58), the MSI-X table and BAR4 as bytes, and whether CXL is negotiated (R41). -/
structure PortSt where
  mbuf : Mem
  busy : Bool
  done : Bool
  err : Nat
  cmd : Mem
  owned : Bool
  ans : Option (Nat × List Word)
  xdel : Option (Nat × Nat × Nat)
  ring : Mem
  prod : Nat
  cons : Nat
  errSlot : Nat
  misal : Bool
  ovr : Bool
  hdm : Map Nat
  msixTab : Mem
  bar4 : Mem
  cxl : Bool
  deriving DecidableEq, Repr

/-- One Dyten link (R25): the fields of LNK.CFG and LNK.STAT, and what its last training learned of the paths beyond it (R22). -/
structure Link where
  (clen mdm peer pport lanes state retry crce : Nat) (loop en : Bool) (reach : List Reach)
  deriving DecidableEq, Repr

/-- A route entry of LNK.RT (R25), and the clk since when there is none (R21). -/
structure Route where
  v : Bool
  h : Nat
  port : Nat
  cdm : Nat
  lost : Nat
  deriving DecidableEq, Repr

/-- Boot state (R27-R34): BOOT.STAT, BOOT.WHY, BOOT.TRIES, the always-on flags, the fused count, the staging buffer and
the SPI NOR, the image that the current start has fetched and runs, the image that COMMIT takes, the clk at which stage 3 began, and a BOOT.CTL.RST that waits. `norBroken` says that a write to
the SPI NOR was cut short (R32), `off` that main power is lost, `therm` that the stop of R37 awaits its completion records, with the
die. -/
structure Boot where
  sver : Nat
  busy : Bool
  writing : Bool
  stage : Nat
  whyV : Bool
  whyStage : Nat
  whyReason : Nat
  whyDetail : Nat
  tries : Nat
  attemptOpen : Bool
  lastStage : Nat
  fminPending : Bool
  fuse : Nat
  staging : Mem
  nor : Mem
  running : Mem
  image : Mem
  fwSince : Nat
  rstWait : Option Nat
  starts : Nat
  norBroken : Bool
  off : Bool
  therm : Option Nat
  deriving DecidableEq, Repr

/-- Power and temperature (R37, R38): the registers. -/
structure Power where
  cap : Nat
  now : Nat
  thr : Word
  trip : Bool
  hot : Bool
  tmax : Nat
  deriving DecidableEq, Repr

/-- MGMT.OWN and MGMT.HB (R43): `ticks` counts the millisecond ticks taken. -/
structure Mgmt where
  held : Bool
  owner : Nat
  leftMs : Nat
  ticks : Nat
  deriving DecidableEq, Repr

/-- What the host sees and holds: its memory by bus address, the data of its last read, the MSI-X messages raised (R57),
the exports (R65), the code keys (R47) and the code objects (R60). -/
structure HostSt where
  mem : Mem
  rdata : List Byte
  poison : Bool
  msix : List (Nat × Nat)
  exports : Map Export
  codeKeys : Map (List Byte)
  objs : Map CodeObj
  nextBase : Nat
  deriving DecidableEq, Repr

/-! ## A task's context -/

/-- A result on its way to its register (R103): the clk it lands, its place in program order, the register (0-63 the
scalar registers, 64-71 the predicates) and the value. `var` says that its instruction is variable-latency, so that the register is pending
until then. -/
structure Landing where
  (clk seq reg : Nat) (val : Word) (var : Bool)
  deriving DecidableEq, Repr

/-- An operand-queue entry (R93, R219): sequence number, address, word and captured values. -/
structure QEnt where
  (seq : Nat) (addr w a b c : Word)
  deriving DecidableEq, Repr

/-- A semaphore (R323): count, status word and visibility set. -/
structure Sem where
  (count : Nat) (status : Word) (vis : BitVec 5)
  deriving DecidableEq, Repr

/-- A load in the load queue (R144): its destination register, place, virtual address, size in bytes, extension, ordering,
scope, hint, address of its instruction and sequence number. `req` is set once its request to another device is sent (R169). -/
structure LdEnt where
  rd : Nat
  place : Place
  va : Word
  size : Nat
  sx : Bool
  ord : Ord
  scope : Scope
  hint : Hint
  pc : Word
  seq : Nat
  req : Option Nat
  deriving DecidableEq, Repr

/-- What a store-queue entry does: write bytes, or add to memory (R146). -/
inductive StKind
  | store (val : Word)
  | mred (mode : MredMode) (val : Word)
  | vmred (mode : MredMode) (vals : List Word)
  deriving DecidableEq, Repr

/-- A store or memory reduction in the store queue (R144, R146). `sent` are its requests to another device that await their
acknowledgement: it is performed when the last one comes (R169). -/
structure StEnt where
  kind : StKind
  place : Place
  va : Word
  size : Nat
  ord : Ord
  scope : Scope
  hint : Hint
  pc : Word
  seq : Nat
  sent : List Nat
  deriving DecidableEq, Repr

/-- A waita that is parked (R307): its operands, the clk of its timeout and whether its monitor has seen a write. -/
structure WaitaSt where
  (rt size : Nat) (sx : Bool) (ord : Ord) (scope : Scope) (place : Place) (va : Word) (deadline : Nat) (woken : Bool)
  (pc : Word)
  deriving DecidableEq, Repr

/-- A request to another device that awaits its answer (R169): what the answer completes. -/
inductive RemKind
  | load
  | store
  | atomic (rt size : Nat) (sx : Bool) (acq : Option Scope)
  | vamo (op : AmoOp) (rt : Nat) (wide : Bool) (j : Nat) (pa key : Nat) (bs : List Word) (acq : Option Scope)
  | waita (w : WaitaSt) (expect tmo : Word) (second : Bool)
  | spawn (rt : Nat)
  | pload (slot j : Nat) (acc : List Byte)
  | notice
  | tstb (mask : Word) (sense : Bool) (target : Word)
  | engine (path : Nat) (pa n : Nat)
  | engineStore (path : Nat) (u : EUnit) (seq : Nat)
  | kput
  | refetch (off : Nat)
  deriving DecidableEq, Repr

structure RemReq where
  (cid dev : Nat) (kind : RemKind) (va pc : Word) (seq launch : Nat)
  deriving DecidableEq, Repr

/-- An .sc access on its way through the slot wheel (R165): what it does, and the wheel clk once issued. A waita's deadline is
0 where its timeout is 0. -/
inductive ScKind
  | load (rd : Nat) (sx : Bool)
  | store (val : Word)
  | amo (op : AmoOp) (rt : Nat) (b : Word)
  | cas (rt : Nat) (expect new : Word)
  | vamo (op : AmoOp) (rt rb : Nat) (wide : Bool) (bs : List Word)
  | waita (rt : Nat) (sx : Bool) (expect : Word) (deadline : Nat) (second : Bool)
  deriving DecidableEq, Repr

structure ScAcc where
  (kind : ScKind) (place : Place) (va : Word) (size : Nat) (pc : Word) (issued : Option Nat)
  deriving DecidableEq, Repr

/-- What the S stream of a context is held by, if anything, beyond the waits it retries. -/
inductive Hold
  | none
  | xfence (seq : Nat) (o : XfenceF)
  | sleepu (t ch : Nat)
  | yield (t : Nat)
  | waita (w : WaitaSt)
  | sc (a : ScAcc)
  | svc (num : Nat) (args : List Word)
  | bbar (gen : Nat)
  | remote (id : Nat)
  | iclk (rd handle : Nat) (a n : Word)
  | spawn (rd : Nat) (bs : List Byte)
  deriving DecidableEq, Repr

/-- A write in an engine path's write queue (R173): what one iteration writes into one aligned 32-byte granule, as places
and bytes in order; its virtual address, the unit, the sequence number of the command that made it and that command's run, for the last write of a whole-granule
run into the weight store, the granule and the source address (R231), and the containment units that the iteration covers whole
with this write (R225). -/
structure WEnt where
  (parts : List (Place × List Byte)) (va : Word) (u : EUnit) (seq run : Nat) (clean : Option (Nat × Word)) (heals : List Nat)
  deriving DecidableEq, Repr

/-- An engine write to another device that failed (R434). -/
structure WFail where
  (u : EUnit) (path seq : Nat) (va : Word) (link : Nat) (key : Bool)
  deriving DecidableEq, Repr

/-- A nest register set (R344). Counts and the run length are stored minus 1; STR[l][j] has key 8 × l + j. -/
structure NestSet where
  cnt : Map Nat
  run : Nat
  str : Map Int
  base : Map Word
  sbase : Map Word
  fmt : Map Word
  fill : Word
  limit : Word
  subv : Word
  deriving DecidableEq, Repr

/-- A matrix nest set (R378). STR[l][j] has key 4 × l + j; SBASE keys are 0 A, 1 B, 2 drain. -/
structure MatSet where
  cnt : Map Nat
  str : Map Int
  base : Map Word
  sbase : Map Word
  mctl : Word
  apitch : Word
  dctl : Word
  dsb : Word
  dclip : Word
  subv : Word
  rowp : Word
  dmapw : Word
  dtapw : Word
  dcrv : Map Word
  deriving DecidableEq, Repr

/-- A port fault met by a running program (R412). -/
structure PFault where
  (kind pins ix slot point : Nat)
  deriving DecidableEq, Repr

/-- A captured trap of an engine command at its iteration boundary: cause, DETAIL and FADDR. -/
structure EFault where
  (cause detail : Nat) (faddr : Word)
  deriving DecidableEq, Repr

/-- The block of a block-scaled destination that an element lies in (R349, R391): a key for the block, how many elements
of the command it holds, and where its code goes. -/
structure BlkAt where
  (key need : Nat) (code : Place) (codeVa : Word)
  deriving DecidableEq, Repr

/-- Where an element goes: the destination stream, its place and address, and its block. -/
structure Dst where
  (stream : Nat) (place : Place) (va : Word) (blk : Option BlkAt)
  deriving DecidableEq, Repr

/-- An element of the iteration in progress: its index, its inputs, the flags raised in reading it and where it goes. -/
structure Elem where
  (ix : Nat) (ins : List Word) (fl : Fl) (dsts : List Dst)
  deriving DecidableEq, Repr

/-- An element that a block's quantiser holds (R203): its index, the tile of an MDRAIN and its index there, where it goes,
its exact value (none if it was not emitted), its draw and the flags raised so far. -/
structure BlkEl where
  (ix tile tix : Nat) (dst : Dst) (at_ : BlkAt) (val : Option Val) (draw : Option Nat) (fl : Fl)
  deriving DecidableEq, Repr

/-- A drained tile whose status word is not yet written (R390, R391): its number in the command, its elements still held,
the word so far and where it goes. -/
structure OpenTile where
  (tile left : Nat) (st : Word) (place : Place) (va : Word)
  deriving DecidableEq, Repr

/-- A sum that is exact (R197, R362): how many terms, the finite part, and which special terms were met; or the running
fold of another operation. -/
structure Fold where
  (n : Nat) (sum : Val) (nan pinf ninf inv : Bool) (w : Word)
  deriving DecidableEq, Repr

/-- DECOMP's position (R356): the offset of the next chunk, the decompressed bytes not yet taken, each with the errors met in reading its
chunk, the reason for which nothing more is read (0 none, 1 malformed, 2 end of the flash tier), and the errors met in reading what has no
bytes, which the first element without a source takes. -/
structure DecSt where
  (pos : Nat) (buf : List (Byte × Fl)) (bad : Nat) (fl : Fl)
  deriving DecidableEq, Repr

/-- A branch of a DGO's map (R397): its first and last level-0 index, its id and its curve. -/
structure Branch where
  (first last br curve : Nat)
  deriving DecidableEq, Repr

/-- A bucket in flight of a KALLRED or KBCAST (R368, R369): its index in the list, its number on the ring, its entry's words,
the member's own bytes as read at its start, the ring it started on with this member's place in it, the index of its first
element among the command's, how many final bytes are written, and the flags of its elements so far. -/
structure Bucket where
  (idx num : Nat) (words : List Word) (own : List Byte) (ring : List Nat) (pos ebase got : Nat) (fl : Map Fl)
  deriving DecidableEq, Repr

/-- A pre-translation of a page that a nest's generator holds (R137): the leaf and its size, or the fault it met. -/
inductive PreX
  | leaf (w : Word) (size : Nat)
  | fault (code detail : Nat)
  deriving DecidableEq, Repr

/-- A port slot of the context (R404-R406): image bytes, binding, carried registers (key 4 × lane + i), the PREV history
latest first, as place in the history, element index and value, the stream's element count, each lane's count and the result register. `base` and `span` are the number of
indices of the earlier streams that the history continues, and of the present one (R423). -/
structure Slot where
  img : Mem
  bound : Option Nat
  carried : Map Word
  prev : List (Nat × Nat × Word)
  count : Nat
  lanes : Map Nat
  result : Word
  base : Nat
  span : Nat
  deriving DecidableEq, Repr

/-- What a command stood at before the iteration in progress, for an iteration whose write another device refuses (R127): the command then
stops at the boundary before it. The seeds and the slots are those of the command's points, with their lane-private memory. -/
structure Undo where
  status : Word
  fold : Fold
  blk : List BlkEl
  opens : List OpenTile
  dec : DecSt
  mi : Nat
  mj : Nat
  slots : Map Slot
  lpm : Mem
  seeds : Map (BitVec 32)
  deriving DecidableEq, Repr

/-- A running engine command (R229): its queue entry, the clk at which it started or last resumed, iterations done, status
word so far, promise, the active sets, the elements of the iteration in progress and the engine's own continuation.
`stage` says which program runs for the first of `todo` (0 none), `vals` holds port results, `wr` the iteration's writes,
`blk` and `opens` what a quantiser holds, `mi` and `mj` MERGE's positions, `ended` that
its last iteration is done, `rgot`, `rbad` and `rwait` the bytes read from other devices, `numBase` the number on its ring of its first bucket, `die` the die of the
collective engine that has it (R239), `pre` the pre-translations by 64 KiB page (R137), `acks` the writes of the iteration to other devices
that await their acknowledgement, and `undo` what a refusal of one of them goes back to (R127). -/
structure Cmd where
  ent : QEnt
  start : Nat
  iter : Nat
  status : Word
  promise : Word
  nest : NestSet
  mat : MatSet
  todo : List Elem
  stage : Nat
  fold : Fold
  wr : List WEnt
  vals : List Word
  blk : List BlkEl
  opens : List OpenTile
  dec : DecSt
  tab : Option (List Branch × Map (List Word))
  mi : Nat
  mj : Nat
  ended : Bool
  pfault : Option PFault
  efault : Option EFault
  rgot : Map Byte
  rbad : List Nat
  rwait : Option Nat
  buckets : List Bucket
  nextBucket : Nat
  elems : Nat
  numBase : Nat
  die : Nat
  pre : Map PreX
  acks : List Nat
  undo : Option Undo
  deriving DecidableEq, Repr

/-- The trap frame of a frozen context (R219), but for its queues and program counters, which the context itself holds. -/
structure Frame where
  code : Nat
  detail : Nat
  eng : Nat
  ch : Nat
  esw : Word
  faddr : Word
  pelem : Nat
  pins : Nat
  pslot : Nat
  pbind : Nat
  iword : Word
  fpc : Word
  deriving DecidableEq, Repr

/-- A cause raised in a context (R217), with what its frame would hold. `once` says that no retry raises it again, so that it is held
until it is taken (R218). -/
structure Cause where
  f : Frame
  once : Bool
  deriving DecidableEq, Repr

/-- How far a trap has come (R215, R216): not trapped; raised, the streams stopping; handled by the trap core; frozen
outside a handler (stopped by an abort or switched out). -/
inductive TrapPhase | none | migrating | freezing | frozen | handler
  deriving DecidableEq, Repr

/-- The trap state of a context: phase, causes detected, the frame chosen, PEND, SSW, whether trailing streams and
commands run on during a missed promise (R215), and whether the cause is the fatal one of a start with an empty key slot (R69). -/
structure TrapSt where
  phase : TrapPhase
  causes : List Cause
  frame : Option Frame
  pend : BitVec 32
  ssw : Word
  runOn : Bool
  frozenAt : Nat
  doomed : Bool
  deriving DecidableEq, Repr

/-- The scalar part of a context (R89, R92, R102, R103): PC.S, registers, predicates, results in flight, registers that
are pending, the next sequence number, the next issue clk, the watchdog's reference clk (R100), and the bundle of instructions fetched, by
its address (R263). -/
structure Scalar where
  pc : Word
  s : Map Word
  k : Map Bool
  land : List Landing
  pend : List Nat
  seq : Nat
  nextIssue : Nat
  boundSince : Option Nat
  hold : Hold
  bundle : Option (Nat × List Byte)
  deriving DecidableEq, Repr

/-- Per-context system registers (R341, R342, R207). `estOld` is EST as it stood before its last change, on clk `estAt`: a decision of
that clk does not see the change (R87). -/
structure SysRegs where
  window : Nat
  check : Bool
  est : Nat
  estOld : Nat
  estAt : Nat
  misses : Nat
  migcount : Nat
  ilock : Word
  seeds : Map (BitVec 32)
  deriving DecidableEq, Repr

/-- The S path of a context (R144): its two queues, the trap core's remote stores awaiting acknowledgement, failures not yet
reported (R171, R225), and the scratchpad granules to which one store has been performed while others are queued (R179), by
the place of their first byte. -/
structure SPath where
  loads : List LdEnt
  stores : List StEnt
  remStores : List Nat
  fails : List EFault
  stored : List Place
  deriving DecidableEq, Repr

/-- The engines' side of a context: operand queues, the clk of the last start of each trailing stream (R92), write queues of the paths
C, M, R, K (keys 0 to 3), failed writes, nest sets, running commands and the clk on which the last
one completed (R95). -/
structure Engines where
  qC : List QEnt
  qM : List QEnt
  qR : List QEnt
  qK : List QEnt
  began : Map Nat
  wq : Map (List WEnt)
  wfails : List WFail
  copyNest : NestSet
  redNest : NestSet
  matNest : MatSet
  copyActive : Map NestSet
  redActive : NestSet
  matActive : MatSet
  chans : Map Cmd
  array : Option Cmd
  drain : Option Cmd
  red : Option Cmd
  coll : List Cmd
  doneAt : Option Nat
  deriving DecidableEq, Repr

/-- The partition of a context (R89, R121-R124): scratchpad, weight store, accumulator tiles (key 1,536 × tile +
96 × row + column), the tiles marked INT32, and the written granules and tiles with, for the weight store, the source
address of a clean granule (R231). -/
structure Parts where
  spad : Mem
  wst : Mem
  acc : Map (BitVec 32)
  accInt : List Nat
  spadW : List Nat
  wstW : Map (Option Word)
  accW : List Nat
  deriving DecidableEq, Repr

/-- The ports of a context (R400-R408): slots, parameters and lane-private memory (address 131,072 × point +
1,024 × lane + byte), and the points where some of it has been written (R230). -/
structure Ports where
  slots : Map Slot
  par : Map Word
  lpm : Mem
  lpmW : List Nat
  deriving DecidableEq, Repr

/-- The task that a context runs: its store entry, launch, record as dispatched, header and whether it is a system task
(R74). -/
structure Task where
  entry : Nat
  launch : Nat
  record : Record
  hdr : Header
  sys : Bool
  bunch : Nat
  member : Bool
  deriving DecidableEq, Repr

/-- A context of a core (R89): the task it runs, if any, and the task's state. -/
structure Ctx where
  task : Option Task
  sc : Scalar
  sys : SysRegs
  sems : Map Sem
  path : SPath
  eng : Engines
  parts : Parts
  ports : Ports
  trap : TrapSt
  locks : List (Word × Word)
  deriving DecidableEq, Repr

/-! ## Cores, memory, collective engines -/

/-- An L1 line (R125, R143): the clk it was filled, the key slot, whether it is marked as the first to leave (R304), its bytes and which
of them are dirty. -/
structure Line where
  (fill key : Nat) (lu : Bool) (bytes : List Byte) (dirty : List Bool)
  deriving DecidableEq, Repr

/-- A TLB entry (R135): virtual page base, size, leaf word, PTROOT. -/
structure TlbEnt where
  (va size : Nat) (leaf : Word) (ptroot : Nat)
  deriving DecidableEq, Repr

/-- The trap core (R214): its registers, program counter, local memory, the context it serves, TACT, whether the
served handler is the firmware's default one, and the cause and DETAIL of the last task that the service cores killed here (R217). -/
structure TrapCore where
  sc : Scalar
  mem : Mem
  serving : Option Nat
  tact : Word
  firmware : Bool
  died : Option (Nat × Nat)
  deriving DecidableEq, Repr

/-- The helper context (R112): the context whose task it runs for, its slice and private registers. -/
structure Helper where
  (cid lo hi : Nat) (sc : Scalar)
  deriving DecidableEq, Repr

/-- What a core holds for both contexts (R89): L1, TLB, TVEC (unset until the first WRSYS), soft errors, the last issue
and the last wheel clk taken with its taker (R101, R165), the context that has given the next slot in which both are ready to the other
(R331), helper and trap core. -/
structure Core where
  l1 : Map Line
  tlb : List TlbEnt
  tvec : Option Word
  softerr : Nat
  lastIssue : Option (Nat × Nat)
  lastWheel : Option (Nat × Nat)
  gives : Option Nat
  helper : Option Helper
  trap : TrapCore
  deriving DecidableEq, Repr

/-- Memory beyond the contexts: HBM with the key name each 64-byte unit was written under (R58), poisoned units (R225), units with an
error that the code corrects (R128), key slots, cluster memories and chip scratchpads (address 2^26 × cluster or position + offset), owner
tags (R120) and the flash tier. Lines held compressed or prefetched are not visible and not held (R134). -/
structure MemSt where
  hbm : Mem
  unitKey : Map KeyName
  poison : List Nat
  weak : List Nat
  keys : Map KeyName
  clus : Mem
  clusW : List Nat
  chip : Mem
  tags : Map Nat
  flash : Mem
  deriving DecidableEq, Repr

/-- A ring (R366): the launch that holds it, its members and the number of the next bucket that a command brings to it. -/
structure Ring where
  (launch : Nat) (members : List Nat) (next : Nat)
  deriving DecidableEq, Repr

/-- A collective engine (R365-R371): its ring table, link weights, and the segments that have arrived and are not yet
taken. -/
structure Coll where
  rings : Map Ring
  wc : Nat
  wl : Nat
  early : List Segment
  deriving DecidableEq, Repr

/-- Messages sent to other devices (R19): VC0 requests by number, VC1 answers and VC2 segments. -/
inductive Msg
  | req (id dev key : Nat) (r : RemoteReq)
  | ans (src : Nat) (a : RemoteAns)
  | seg (dev die : Nat) (s : Segment)
  | notice (dev : Nat) (line : Nat)
  deriving DecidableEq, Repr

/-- The links' side (R18-R25, R169): device id, links, routes, messages sent, messages that wait for a route to their destination (R21),
requests awaiting an answer, and the monitors that other devices have armed here, as device and line (R308). -/
structure Net where
  devid : Nat
  links : Map Link
  routes : Map Route
  sent : List Msg
  waiting : List (Nat × Msg)
  reqs : Map RemReq
  nextReq : Nat
  watch : List (Nat × Nat)
  deriving DecidableEq, Repr

/-- The header of a canonical context image (R227): its fields, the section table as offset and length. -/
structure ImgHeader where
  (magic version cls reason total : Nat) (record : Record) (launch bunch : Nat) (secs : List (Nat × Nat))
  deriving DecidableEq, Repr

/-- A saved context (R227, R233): the context as frozen, with the reason and the core class that saved it, its member index in its bunch,
the key slot that the image is written under with the key it held then, the header once the image is complete, whether an uncorrectable
error has struck it (R226), and in member 0's image of a bunch the cluster memory with its written granules (R238). -/
structure Saved where
  (ctx : Ctx) (reason : Nat) (cls : Bool) (index key : Nat) (keyName : Option KeyName) (hdr : Option ImgHeader) (bad : Bool) (clus : Mem)
  (clusW : List Nat)
  deriving DecidableEq, Repr

/-! ## A port program in progress -/

/-- The lane that executes a port word (R406): the context, slot, point, unit, whether it is the epilogue, the word, the
element's index and lane, its v registers, inputs, emitted outputs, drop mask, flags raised and first fault. The model's
own: the program of one element runs word by word (log entry 12). -/
structure PortRun where
  cid : Nat
  slot : Nat
  point : Nat
  unit : EUnit
  epi : Bool
  pc : Nat
  ix : Nat
  lane : Nat
  v : Map Word
  ins : List Word
  outs : Map Word
  drops : BitVec 4
  flags : BitVec 15
  atEnd : Map Word
  pf : Option PFault
  deriving DecidableEq, Repr

/-! ## The whole state -/

/-- Variants of the part (R1). -/
inductive Variant | x9 | s9 | m9
  deriving DecidableEq, Repr

/-- The state of the device. -/
structure State where
  clk : Nat
  variant : Variant
  agenda : List Mover
  turn : Turn
  cur : Cursor
  free : Nat
  portRun : Option PortRun
  mgmt : Mgmt
  boot : Boot
  power : Power
  hports : Map PortSt
  host : HostSt
  net : Net
  sched : Sched
  cores : Map Core
  ctxs : Map Ctx
  mem : MemSt
  colls : Map Coll
  images : Map Saved
  deriving DecidableEq, Repr

/-! ## How a step can stop -/

/-- Why a step stops with a fault. -/
inductive Fault
  /-- Raised by `step` when the part is in a mode in which the spec lets nothing execute at the cursor. Not reachable from
  a meaning: kept for the interface. Safe: the machine stops where it could have waited. -/
  | halted
  deriving DecidableEq, Repr

/-- Why a step is refused. -/
inductive Refusal
  /-- Raised by an arm of the dispatcher whose instruction has no meaning yet. Safe: nothing is claimed of it. -/
  | notModelled (mnemonic : String)
  deriving DecidableEq, Repr

/-! ## Reset -/

/-- A scalar part with every register zero. -/
def Scalar.fresh : Scalar :=
  { pc := 0, s := [], k := [], land := [], pend := [], seq := 1, nextIssue := 0, boundSince := none, hold := .none,
    bundle := none }

/-- System registers at context assignment (R98, R105, R342): WINDOW.N is 64. -/
def SysRegs.fresh : SysRegs :=
  { window := 64, check := false, est := 0, estOld := 0, estAt := 0, misses := 0, migcount := 0, ilock := 0, seeds := [] }

/-- A nest set at reset (R344): LIMIT is all ones. -/
def NestSet.fresh : NestSet :=
  { cnt := [], run := 0, str := [], base := [], sbase := [], fmt := [], fill := 0, limit := BitVec.allOnes 64,
    subv := 0 }

/-- A matrix nest set at reset (R378). -/
def MatSet.fresh : MatSet :=
  { cnt := [], str := [], base := [], sbase := [], mctl := 0, apitch := 0, dctl := 0, dsb := 0, dclip := 0, subv := 0,
    rowp := 0, dmapw := 0, dtapw := 0, dcrv := [] }

/-- Engines at context assignment. -/
def Engines.fresh : Engines :=
  { qC := [], qM := [], qR := [], qK := [], began := [], wq := [], wfails := [], copyNest := .fresh,
    redNest := .fresh, matNest := .fresh, copyActive := [], redActive := .fresh, matActive := .fresh, chans := [],
    array := none, drain := none, red := none, coll := [], doneAt := none }

def TrapSt.fresh : TrapSt :=
  { phase := .none, causes := [], frame := none, pend := 0, ssw := 0, runOn := false, frozenAt := 0, doomed := false }

/-- A context that runs no task: every part zero (R123). -/
def Ctx.fresh : Ctx :=
  { task := none, sc := .fresh, sys := .fresh, sems := [],
    path := { loads := [], stores := [], remStores := [], fails := [], stored := [] },
    eng := .fresh,
    parts := { spad := [], wst := [], acc := [], accInt := [], spadW := [], wstW := [], accW := [] },
    ports := { slots := [], par := [], lpm := [], lpmW := [] },
    trap := .fresh, locks := [] }

/-- A core after reset. -/
def Core.fresh : Core :=
  { l1 := [], tlb := [], tvec := none, softerr := 0, lastIssue := none, lastWheel := none, gives := none, helper := none,
    trap := { sc := .fresh, mem := [], serving := none, tact := 0, firmware := false, died := none } }

/-- A port slot that was never loaded (R405). -/
def Slot.fresh : Slot :=
  { img := [], bound := none, carried := [], prev := [], count := 0, lanes := [], result := 0, base := 0, span := 0 }

def Sem.fresh : Sem := { count := 0, status := 0, vis := 0 }

def PortSt.fresh : PortSt :=
  { mbuf := [], busy := false, done := false, err := 0, cmd := [], owned := false, ans := none, xdel := none,
    ring := [], prod := 0, cons := 0, errSlot := 0, misal := false, ovr := false, hdm := [], msixTab := [], bar4 := [],
    cxl := true }

def Link.fresh : Link :=
  { clen := 0, mdm := 0, peer := 0, pport := 0, lanes := 0, state := 0, retry := 0, crce := 0, loop := false,
    en := false, reach := [] }

def Route.fresh : Route := { v := false, h := 0, port := 0, cdm := 0, lost := 0 }

/-- A collective engine after reset: both weights are 1 (R367). -/
def Coll.fresh : Coll := { rings := [], wc := 1, wl := 1, early := [] }

/-- QCFG[q] after reset: PRIO is q ÷ 8 (R74). -/
def Queue.fresh (q : Nat) : Queue := { cap := 0, rate := 0, prio := q / 8, tok := 0 }

def Sched.fresh : Sched :=
  { store := [], gens := [], launches := [], nextLaunch := 1, queues := [], bunches := [], nextBunch := 1, nextNum := 0,
    ticks := 0, marks := [], offers := [], preempts := [] }

/-- Memory after a reset: slot 0 holds the random key of the start (R58). -/
def MemSt.fresh (start : Nat) : MemSt :=
  { hbm := [], unitKey := [], poison := [], weak := [], keys := [(0, .random start)], clus := [], clusW := [], chip := [],
    tags := [], flash := [] }

/-- The device right after reset: the first start of R30 is open at stage ROM, PWR.CAP is 3,200 (R38), slot 0 holds the
random key of the start (R58), and everything else is at the reset value of its register or empty (log entry 3). -/
def State.reset : State :=
  { clk := 0
    variant := .x9
    agenda := []
    turn := { port := 0, agent := 0, chiplet := 0 }
    cur := { port := 0, cid := 0, agent := .S }
    free := 0
    portRun := none
    mgmt := { held := false, owner := 0, leftMs := 0, ticks := 0 }
    boot := { sver := 0, busy := false, writing := false, stage := 0, whyV := false, whyStage := 0, whyReason := 0,
              whyDetail := 0, tries := 1, attemptOpen := true, lastStage := 0, fminPending := false, fuse := 0,
              staging := [], nor := [], running := [], image := [], fwSince := 0, rstWait := none, starts := 1,
              norBroken := false, off := false, therm := none }
    power := { cap := 3200, now := 0, thr := 0, trip := false, hot := false, tmax := 0 }
    hports := []
    host := { mem := [], rdata := [], poison := false, msix := [], exports := [], codeKeys := [], objs := [],
              nextBase := 0x01F0000000010000 }
    net := { devid := 0, links := [], routes := [], sent := [], waiting := [], reqs := [], nextReq := 1, watch := [] }
    sched := .fresh
    cores := []
    ctxs := []
    mem := .fresh 1
    colls := []
    images := [] }

end Sys2Proof.Machine
end

