-- ==== Sys2Proof/Machine/Basic.lean ====
section
/-! DEFINITION. Reading and updating the parts of the state, the scalar register file with its results in flight
(R96, R101-R104), and the figures of the variants (R1, R15). -/

namespace Sys2Proof.Machine

/-! ## Byte memories -/

/-- The byte at an address; zero where none is listed (log entry 4). -/
def Mem.get : Mem → Nat → Byte
  | [], _ => 0
  | (a, v) :: m, n => if a = n then v else Mem.get m n

/-- Puts a byte at an address, keeping the canonical form: a zero byte is not listed. -/
def Mem.set : Mem → Nat → Byte → Mem
  | [], n, v => if v = 0 then [] else [(n, v)]
  | (a, u) :: m, n, v =>
    if a = n then (if v = 0 then m else (n, v) :: m)
    else if n < a then (if v = 0 then (a, u) :: m else (n, v) :: (a, u) :: m)
    else (a, u) :: Mem.set m n v

/-- n bytes from an address on. -/
def Mem.read (m : Mem) (a n : Nat) : List Byte := (List.range n).map (fun i => m.get (a + i))

/-- Writes a list of bytes from an address on. -/
def Mem.write : Mem → Nat → List Byte → Mem
  | m, _, [] => m
  | m, a, b :: bs => Mem.write (Mem.set m a b) (a + 1) bs

/-- Removes every byte of a range. -/
def Mem.clear (m : Mem) (lo n : Nat) : Mem := m.filter (fun c => decide (c.1 < lo) || decide (lo + n ≤ c.1))

/-- Bytes to a number, little-endian (R7). -/
def leNat : List Byte → Nat
  | [] => 0
  | b :: bs => b.toNat + 256 * leNat bs

/-- A number's n low bytes, little-endian (R7). -/
def leBytes : Nat → Nat → List Byte
  | 0, _ => []
  | n + 1, v => byte (v % 256) :: leBytes n (v / 256)

/-- A word of bytes, little-endian. -/
def leWord (bs : List Byte) : Word := word (leNat bs)

/-- Bytes lo to lo + n of a list, zero beyond its end. -/
def sliceB (bs : List Byte) (lo n : Nat) : List Byte := (List.range n).map (fun i => (bs[lo + i]?).getD 0)

/-- Adds a number to an ascending list without repeats. -/
def insertNat (n : Nat) : List Nat → List Nat
  | [] => [n]
  | a :: l => if n = a then a :: l else if n < a then n :: a :: l else a :: insertNat n l

/-- Replaces the first element that satisfies a test. -/
def updFirst {α : Type} (p : α → Bool) (f : α → α) : List α → List α
  | [] => []
  | x :: xs => if p x then f x :: xs else x :: updFirst p f xs

/-! ## The variants (R1, R6, R15-R17) -/

def Variant.quinces : Variant → Nat
  | .x9 => 4 | .s9 => 2 | .m9 => 0

def Variant.hbm : Variant → Nat
  | .x9 => 12 | .s9 => 8 | .m9 => 6

def Variant.cores : Variant → Nat
  | .x9 => 160 | .s9 => 112 | .m9 => 64

/-- The variant has the flash tier and the decompression engines (R1, R4). -/
def Variant.flash : Variant → Bool
  | .x9 => true | .s9 => false | .m9 => false

/-- Bytes of HBM that tasks may use (R129). -/
def Variant.usable : Variant → Nat
  | .x9 => 12 * 2 ^ 36 - 2 ^ 34 | .s9 => 8 * 2 ^ 36 - 2 ^ 34 | .m9 => 6 * 2 ^ 36 - 2 ^ 34

/-- The position of a physical core (R15). -/
def posOf (core : Nat) : Nat := core / 32

/-- The cluster of a physical core, counted over the device: 8 × position + cluster (R15). -/
def clusterOf (core : Nat) : Nat := core / 4

/-- Positions 0 to 3 hold Quince chiplets (R15). -/
def classQ (core : Nat) : Bool := decide (core < 128)

/-- The die of a core's collective engine: 0 north, 1 south (R365). -/
def dieOf (core : Nat) : Nat :=
  let p := posOf core
  if p = 0 ∨ p = 1 ∨ p = 4 ∨ p = 5 then 0 else 1

/-- The engine of a context. -/
def dieAt (cid : Nat) : Nat := dieOf (cid / 2)

/-- A physical core that the variant has (R15). -/
def Variant.hasCore (v : Variant) (core : Nat) : Bool :=
  if core < 128 then decide (core / 32 < v.quinces) && decide (core / 4 % 8 < 6)
  else decide (core < 256) && decide (core / 4 % 8 < 4)

/-- The weight store of a core in 4 KiB granules (R89). -/
def wstGranules (core : Nat) : Nat := if classQ core then 4096 else 3072

/-- The value of a capability register (R6, R17). -/
def Variant.caps (v : Variant) : Nat → Word
  | 0 =>
    let var := match v with | .x9 => 0 | .s9 => 1 | .m9 => 2
    let fl := if v.flash then 3 else 0
    word (2 ^ 24 + v.cores * 2 ^ 16 + var * 2 ^ 14 + fl * 2 ^ 12 + v.hbm * 2 ^ 8 + 4 * 2 ^ 4 + v.quinces)
  | 1 => word ((2 ^ v.quinces - 1) * 2 ^ 8 + 0xF0 + (2 ^ v.quinces - 1))
  | 2 =>
    let hm := match v with | .x9 => 0xFFF | .s9 => 0x3CF | .m9 => 0x1C7
    word ((if v.flash then 2000 else 0) * 2 ^ 32 + hm * 2 ^ 16 + 64 * 2 ^ 8)
  | 3 => word (940 * 2 ^ 16 + 24 * 2 ^ 8 + 8)
  | _ => 0

/-- Matrix issue clocks are withheld (R37): the power is above the cap, or a die above 100 °C. -/
def Power.withhold (p : Power) : Bool := decide (p.cap < p.now) || p.hot

/-! ## Parts of the state -/

def State.ctx (s : State) (cid : Nat) : Ctx := Map.getD s.ctxs cid .fresh

def State.setCtx (s : State) (cid : Nat) (c : Ctx) : State := { s with ctxs := Map.put s.ctxs cid c }

def State.modCtx (s : State) (cid : Nat) (f : Ctx → Ctx) : State := s.setCtx cid (f (s.ctx cid))

def State.core (s : State) (k : Nat) : Core := Map.getD s.cores k .fresh

def State.setCore (s : State) (k : Nat) (c : Core) : State := { s with cores := Map.put s.cores k c }

def State.modCore (s : State) (k : Nat) (f : Core → Core) : State := s.setCore k (f (s.core k))

def State.hport (s : State) (p : Nat) : PortSt := Map.getD s.hports p .fresh

def State.setHport (s : State) (p : Nat) (v : PortSt) : State := { s with hports := Map.put s.hports p v }

def State.coll (s : State) (die : Nat) : Coll := Map.getD s.colls die .fresh

def State.setColl (s : State) (die : Nat) (c : Coll) : State := { s with colls := Map.put s.colls die c }

/-- The context of the cursor. -/
def State.me (s : State) : Ctx := s.ctx s.cur.cid

/-- Updates the context of the cursor. -/
def State.modMe (s : State) (f : Ctx → Ctx) : State := s.modCtx s.cur.cid f

/-- The physical core of the cursor. -/
def State.myCore (s : State) : Nat := s.cur.cid / 2

/-- Updates parts of a context. -/
def Ctx.modSc (c : Ctx) (f : Scalar → Scalar) : Ctx := { c with sc := f c.sc }
def Ctx.modSys (c : Ctx) (f : SysRegs → SysRegs) : Ctx := { c with sys := f c.sys }
def Ctx.modPath (c : Ctx) (f : SPath → SPath) : Ctx := { c with path := f c.path }
def Ctx.modEng (c : Ctx) (f : Engines → Engines) : Ctx := { c with eng := f c.eng }
def Ctx.modParts (c : Ctx) (f : Parts → Parts) : Ctx := { c with parts := f c.parts }
def Ctx.modPorts (c : Ctx) (f : Ports → Ports) : Ctx := { c with ports := f c.ports }
def Ctx.modTrap (c : Ctx) (f : TrapSt → TrapSt) : Ctx := { c with trap := f c.trap }

/-- The header of the context's task; a context without a task has a header of zeros. -/
def Ctx.hdr (c : Ctx) : Header :=
  match c.task with
  | some t => t.hdr
  | none => { spad := 0, acc := 0, slots := 0, chan := 0, wst := 0, slLen := 0, slOff := 0 }

/-- The launch of the context's task, 0 where there is none. -/
def Ctx.launch (c : Ctx) : Nat := match c.task with | some t => t.launch | none => 0

/-- The task is a system task (R74). -/
def Ctx.isSys (c : Ctx) : Bool := match c.task with | some t => t.sys | none => false

/-- A fresh index for a free value (log entry 18). -/
def State.bump (s : State) : State := { s with free := s.free + 1 }

/-! ## Messages to other devices (R19, R21) -/

def State.route (s : State) (dev : Nat) : Route := Map.getD s.net.routes dev .fresh

/-- Gives a message to the link of its destination's route; without a route it waits, in order (R21). What goes to the own device needs no
link. -/
def State.post (s : State) (dev : Nat) (m : Msg) : State :=
  if dev = s.net.devid ∨ (s.route dev).v then { s with net := { s.net with sent := s.net.sent ++ [m] } }
  else { s with net := { s.net with waiting := s.net.waiting ++ [(dev, m)] } }

/-! ## The scalar register file

Registers 0 to 63 are s0 to s63, 64 to 71 are k0 to k7, as in the DETAIL of a stall check (R217). -/

/-- The last value of a register to land by a clk, if any result is listed; the list stands in landing order. -/
def landedVal : List Landing → Nat → Nat → Option Word
  | [], _, _ => none
  | l :: ls, clk, r =>
    match landedVal ls clk r with
    | some v => some v
    | none => if l.reg = r ∧ l.clk ≤ clk then some l.val else none

/-- Puts a result in landing order: by clk, then program order (R104). -/
def addLanding (n : Landing) : List Landing → List Landing
  | [] => [n]
  | l :: ls => if n.clk < l.clk then n :: l :: ls else l :: addLanding n ls

/-- s[r] as an instruction issued on a clk reads it (R104); s0 reads zero (R265). -/
def Scalar.reg (sc : Scalar) (clk r : Nat) : Word :=
  if r = 0 then 0 else (landedVal sc.land clk r).getD (Map.getD sc.s r 0)

/-- k[r] as an instruction issued on a clk reads it. -/
def Scalar.pred (sc : Scalar) (clk r : Nat) : Bool :=
  match landedVal sc.land clk (64 + r) with
  | some v => v != 0
  | none => Map.getD sc.k r false

/-- Writes a result into the register file itself. -/
def Scalar.put (sc : Scalar) (r : Nat) (v : Word) : Scalar :=
  if r = 0 then sc
  else if r < 64 then { sc with s := Map.put sc.s r v }
  else { sc with k := Map.put sc.k (r - 64) (v != 0) }

/-- Moves the results landed by a clk into the register file. -/
def Scalar.settle (sc : Scalar) (clk : Nat) : Scalar :=
  let done := sc.land.filter (fun l => decide (l.clk ≤ clk))
  done.foldl (fun sc l => sc.put l.reg l.val) { sc with land := sc.land.filter (fun l => decide (clk < l.clk)) }

/-- A result that lands at a clk; s0 discards it (R265). -/
def Scalar.result (sc : Scalar) (clk r : Nat) (v : Word) : Scalar :=
  if r = 0 then sc else { sc with land := addLanding ⟨clk, sc.seq, r, v, false⟩ sc.land }

/-- A variable-latency result that is written at a clk. No result depends on its latency (R285): results of earlier instructions on their
way to the register never overwrite it. -/
def Scalar.resultVar (sc : Scalar) (clk r : Nat) (v : Word) : Scalar :=
  if r = 0 then sc
  else { sc with land := addLanding ⟨clk, sc.seq, r, v, true⟩ (sc.land.filter (fun l => l.reg != r)) }

/-- A variable-latency result that is in its register. -/
def Scalar.putVar (sc : Scalar) (r : Nat) (v : Word) : Scalar :=
  if r = 0 then sc else { sc with land := sc.land.filter (fun l => l.reg != r) }.put r v

/-- The scalar part of the agent at the cursor: the context's, the trap core's (R214) or the helper's (R112). -/
def State.sca (s : State) : Scalar :=
  match s.cur.agent with
  | .trapCore => (s.core s.myCore).trap.sc
  | .helper => match (s.core s.myCore).helper with | some h => h.sc | none => .fresh
  | .S => s.me.sc | .C => s.me.sc | .M => s.me.sc | .R => s.me.sc | .K => s.me.sc

def State.setSca (s : State) (sc : Scalar) : State :=
  match s.cur.agent with
  | .trapCore => s.modCore s.myCore (fun c => { c with trap := { c.trap with sc := sc } })
  | .helper => s.modCore s.myCore (fun c => { c with helper := c.helper.map (fun h => { h with sc := sc }) })
  | .S => s.modMe (fun c => { c with sc := sc })
  | .C => s.modMe (fun c => { c with sc := sc })
  | .M => s.modMe (fun c => { c with sc := sc })
  | .R => s.modMe (fun c => { c with sc := sc })
  | .K => s.modMe (fun c => { c with sc := sc })

/-- s[r] as the agent at the cursor reads it now. -/
def State.r (s : State) (r : Nat) : Word := s.sca.reg s.clk r

/-- k[r] as the agent at the cursor reads it now. -/
def State.k (s : State) (r : Nat) : Bool := s.sca.pred s.clk r

/-- The address of the instruction that the agent at the cursor issues. -/
def State.pc (s : State) : Word := s.sca.pc

/-- A result of the instruction now issuing, after L clk (R103). -/
def State.res (s : State) (r : Nat) (v : Word) (lat : Nat) : State := s.setSca (s.sca.result (s.clk + lat) r v)

/-- A variable-latency result of the instruction now issuing (R103). -/
def State.resVar (s : State) (r : Nat) (v : Word) : State := s.setSca (s.sca.resultVar (s.clk + 1) r v)

/-- A register is pending on a clk (R96, R103). -/
def Scalar.pending (sc : Scalar) (clk r : Nat) : Bool :=
  r != 0 && (sc.pend.contains r || sc.land.any (fun l => l.var && l.reg == r && decide (clk < l.clk)))

/-- One of the registers named is pending (R96). -/
def State.held (s : State) (rs : List Nat) : Bool := rs.any (s.sca.pending s.clk)

/-- The register for which the checking scoreboard would trap (R104): a source not yet landed, or a destination that an
earlier result reaches no sooner than this one. -/
def Scalar.stallReg (sc : Scalar) (clk : Nat) (srcs : List Nat) (dst : Option (Nat × Nat)) : Option Nat :=
  match srcs.find? (fun r => r != 0 && sc.land.any (fun l => decide (l.reg = r) && decide (clk < l.clk))) with
  | some r => some r
  | none =>
    match dst with
    | none => none
    | some (r, lat) =>
      if r != 0 && sc.land.any (fun l => decide (l.reg = r) && decide (clk < l.clk) && decide (clk + lat ≤ l.clk)) then
        some r
      else none

/-- CHECK.EN of the context at the cursor; CHECK does not apply to the helper (R112), nor to the trap core. -/
def State.checking (s : State) : Bool :=
  match s.cur.agent with
  | .trapCore => false | .helper => false
  | .S => s.me.sys.check | .C => s.me.sys.check | .M => s.me.sys.check | .R => s.me.sys.check | .K => s.me.sys.check

/-- The instruction of the agent at the cursor takes the core's issue slot of this clk (R101). -/
def State.takeSlot (s : State) : State :=
  match s.cur.agent with
  | .trapCore => s
  | .helper => s.modCore s.myCore (fun c => { c with lastIssue := some (s.clk, ((c.lastIssue).getD (0, 1)).2) })
  | .S => s.modCore s.myCore (fun c => { c with lastIssue := some (s.clk, s.cur.cid % 2) })
  | .C => s | .M => s | .R => s | .K => s

/-- The bundle that holds an instruction's successor: one fetched anew serves a jump (R263). -/
def Scalar.bundleFor (sc : Scalar) (next : Word) : Option (Nat × List Byte) := if next = sc.pc + 8 then sc.bundle else none

/-- Ends the issue of an instruction: the program counter goes on to `next`, the sequence number advances, and the next
issue is on clk t + 1 + STALL + extra at the earliest (R92, R102, R286). -/
def State.retire (s : State) (st extra : Nat) (next : Word) : State :=
  let sc := s.sca
  (s.setSca { sc with pc := next, seq := sc.seq + 1, nextIssue := s.clk + 1 + st + extra, boundSince := none,
                      bundle := sc.bundleFor next }).takeSlot

/-- Ends the issue of an instruction that goes on to the one after it. -/
def State.adv (s : State) (st : Nat) : State := s.retire st 0 (s.pc + 8)

/-- The instruction that issues now waits for an event: its issue slot is taken and its stall count runs (R101, R102). -/
def State.park (s : State) (h : Hold) (st : Nat) : State :=
  (s.setSca { s.sca with hold := h, nextIssue := s.clk + 1 + st }).takeSlot

/-- An instruction that issued earlier and waited is done: the next one issues on the next clk at the earliest, and not before the stall
count has run out (R102). -/
def State.go (s : State) : State :=
  let sc := s.sca
  s.setSca { sc with pc := sc.pc + 8, seq := sc.seq + 1, nextIssue := max sc.nextIssue (s.clk + 1), boundSince := none, hold := .none }

end Sys2Proof.Machine
end

