-- ==== Sys2Proof/Machine/Mem.lean ====
section
/-! DEFINITION. Memory: points of coherence (R141), windows and translation (R117-R137), L1 (R125, R143), the encryption
of HBM (R58, R59), owner tags (R120), written bits (R124) and poison (R225). -/

namespace Sys2Proof.Machine

/-! ## HBM under its keys (R58, R59) -/

/-- A key's name as a number. -/
def KeyName.num : KeyName → Nat
  | .random n => 2 * n
  | .loaded b => 2 * b.toNat + 1

/-- The key held by a slot, if any. -/
def State.slotKey (s : State) (slot : Nat) : Option KeyName := Map.find s.mem.keys slot

/-- The byte at a local address as read under a key slot: the bytes written, unless their 64-byte unit was written under
another key (R59). A unit that nothing has written reads as zero (log entry 4). An access that was translated before a KEYCLR and is
performed after it finds the slot empty: it reads zero, and a write is dropped (DESIGN CHOICE, log entry 60). The model holds no L2, and
so no line that L2 keeps in plaintext over a change of keys: each read is under the key of its moment (log entry 60). -/
def State.hbmByte (s : State) (slot pa : Nat) : Byte :=
  match Map.find s.mem.unitKey (pa / 64), s.slotKey slot with
  | some kw, some kr =>
    if kw = kr then Mem.get s.mem.hbm pa
    else Config.xtsReread kw.num kr.num (pa / 64) (Mem.read s.mem.hbm (pa / 64 * 64) 64) (pa % 64)
  | some _, none => 0
  | none, _ => 0

/-- n bytes from a local address on, under a key slot. -/
def State.hbmRead (s : State) (slot pa n : Nat) : List Byte := (List.range n).map (fun i => s.hbmByte slot (pa + i))

/-- Writes a byte at a local address under a key slot. A unit written under another key is re-encrypted as a whole: its
other bytes are what they read as under the new key; those of a unit that nothing has written are zero (log entry 4). -/
def State.hbmSet (s : State) (slot pa : Nat) (b : Byte) : State :=
  match s.slotKey slot with
  | none => s
  | some kr =>
    let base := pa / 64 * 64
    let hbm :=
      match Map.find s.mem.unitKey (pa / 64) with
      | some kw => if kw = kr then s.mem.hbm else Mem.write s.mem.hbm base (s.hbmRead slot base 64)
      | none => Mem.clear s.mem.hbm base 64
    { s with mem := { s.mem with hbm := Mem.set hbm pa b, unitKey := Map.put s.mem.unitKey (pa / 64) kr } }

/-! ## Places -/

/-- The place n bytes further on. -/
def Place.add (p : Place) (n : Nat) : Place :=
  match p with
  | .spad cid off => .spad cid (off + n)
  | .clus c off => .clus c (off + n)
  | .chip pos off => .chip pos (off + n)
  | .wst cid off => .wst cid (off + n)
  | .flash off => .flash (off + n)
  | .loc pa key cl wp => .loc (pa + n) key cl wp
  | .remote dev pa key => .remote dev (pa + n) key
  | .host port bus => .host port (bus + n)
  | .trapMem core off => .trapMem core (off + n)

/-- The place's level as a number, its owner, its address there, and the size of its error-containment unit (R225). -/
def Place.coord : Place → Nat × Nat × Nat × Nat
  | .spad cid off => (0, cid, off, 8)
  | .clus c off => (1, c, off, 8)
  | .chip pos off => (2, pos, off, 8)
  | .wst cid off => (3, cid, off, 8)
  | .flash off => (4, 0, off, 64)
  | .loc pa _ _ _ => (5, 0, pa, 64)
  | .remote dev pa _ => (6, dev, pa, 64)
  | .host port bus => (7, port, bus, 64)
  | .trapMem core off => (8, core, off, 8)

/-- The number of the containment unit of a place, and that of its 64-byte line. -/
def Place.unit (p : Place) : Nat :=
  let (l, o, a, z) := p.coord
  (a / z * 512 + o) * 16 + l

def Place.line (p : Place) : Nat :=
  let (l, o, a, _) := p.coord
  (a / 64 * 512 + o) * 16 + l

/-- Two places are the same byte. -/
def Place.same (p q : Place) : Bool :=
  let (l, o, a, _) := p.coord
  let (m, r, b, _) := q.coord
  l == m && o == r && a == b

/-- Two runs of bytes overlap. -/
def Place.meets (p : Place) (n : Nat) (q : Place) (m : Nat) : Bool :=
  let (l, o, a, _) := p.coord
  let (k, r, b, _) := q.coord
  l == k && o == r && decide (a < b + m) && decide (b < a + n)

def Place.isRemote : Place → Bool
  | .remote _ _ _ => true
  | .spad _ _ => false | .clus _ _ => false | .chip _ _ => false | .wst _ _ => false | .flash _ => false
  | .loc _ _ _ _ => false | .host _ _ => false | .trapMem _ _ => false

/-- The device that performs an access, where it is another one. -/
def Place.dev? : Place → Option (Nat × Nat × Nat)
  | .remote d pa key => some (d, pa, key)
  | .spad _ _ => none | .clus _ _ => none | .chip _ _ => none | .wst _ _ => none | .flash _ => none
  | .loc _ _ _ _ => none | .host _ _ => none | .trapMem _ _ => none

/-- The place is cached in L1: CL is L1+L2 (R125). -/
def Place.cached : Place → Bool
  | .loc _ _ cl _ => cl == 0
  | .spad _ _ => false | .clus _ _ => false | .chip _ _ => false | .wst _ _ => false | .flash _ => false
  | .remote _ _ _ => false | .host _ _ => false | .trapMem _ _ => false

/-- A store to the place may lodge in L1: CL is L1+L2 and WP is write-back (R141). -/
def Place.lodges : Place → Bool
  | .loc _ _ cl wp => cl == 0 && wp == 0
  | .spad _ _ => false | .clus _ _ => false | .chip _ _ => false | .wst _ _ => false | .flash _ => false
  | .remote _ _ _ => false | .host _ _ => false | .trapMem _ _ => false

/-- The local address and the key slot of a translated local place. -/
def Place.pa? : Place → Option (Nat × Nat)
  | .loc pa key _ _ => some (pa, key)
  | .spad _ _ => none | .clus _ _ => none | .chip _ _ => none | .wst _ _ => none | .flash _ => none
  | .remote _ _ _ => none | .host _ _ => none | .trapMem _ _ => none

/-- The address in `clus` or `chip` of an offset: 2^26 to a cluster or position. -/
def bigAddr (o off : Nat) : Nat := o * 2 ^ 26 + off

/-- The address in host memory of a bus address of a port. -/
def hostAddr (port bus : Nat) : Nat := port * 2 ^ 64 + bus

/-- One byte at its point of coherence, as a task of a launch reads it: a chip-scratchpad granule of another launch
reads as zeros (R120). Another device's memory is not here. -/
def State.rd1 (s : State) (launch : Nat) (p : Place) : Byte :=
  match p with
  | .spad cid off => Mem.get (s.ctx cid).parts.spad off
  | .clus c off => Mem.get s.mem.clus (bigAddr c off)
  | .chip pos off =>
    if Map.find s.mem.tags (bigAddr pos off / 4096) = some launch then Mem.get s.mem.chip (bigAddr pos off) else 0
  | .wst cid off => Mem.get (s.ctx cid).parts.wst off
  | .flash off => Mem.get s.mem.flash off
  | .loc pa key _ _ => s.hbmByte key pa
  | .remote _ _ _ => 0
  | .host port bus => Mem.get s.host.mem (hostAddr port bus)
  | .trapMem core off => Mem.get (s.core core).trap.mem off

/-- n bytes from a place on. -/
def State.rd (s : State) (launch : Nat) (p : Place) (n : Nat) : List Byte :=
  (List.range n).map (fun i => s.rd1 launch (p.add i))

/-- The unit of the place is poisoned (R225). -/
def State.poisoned (s : State) (p : Place) (n : Nat) : Bool :=
  (List.range n).any (fun i => s.mem.poison.contains (p.add i).unit)

/-- Poisons the unit of a place. -/
def State.setPoison (s : State) (p : Place) : State :=
  { s with mem := { s.mem with poison := insertNat p.unit s.mem.poison } }

/-- The units of a run of bytes that hold an error which the code corrects (R128). Each read corrects it again until a write touches the
unit (log entry 61). -/
def State.weakUnits (s : State) (p : Place) (n : Nat) : List Nat :=
  (((List.range n).map (fun i => (p.add i).unit)).eraseDups).filter (fun u => s.mem.weak.contains u)

/-- Writes one byte at its point of coherence. A scratchpad or weight-store granule becomes written, and dirty (R124,
R231); a chip-scratchpad granule of another launch is first cleared and taken over (R120). -/
def State.wr1 (s : State) (launch : Nat) (p : Place) (b : Byte) : State :=
  match p with
  | .spad cid off =>
    s.modCtx cid (fun c => c.modParts (fun q =>
      { q with spad := Mem.set q.spad off b, spadW := insertNat (off / 4096) q.spadW }))
  | .clus c off =>
    { s with mem := { s.mem with clus := Mem.set s.mem.clus (bigAddr c off) b,
                                 clusW := insertNat (bigAddr c off / 4096) s.mem.clusW } }
  | .chip pos off =>
    let g := bigAddr pos off / 4096
    let chip := if Map.find s.mem.tags g = some launch then s.mem.chip else Mem.clear s.mem.chip (g * 4096) 4096
    { s with mem := { s.mem with chip := Mem.set chip (bigAddr pos off) b, tags := Map.put s.mem.tags g launch } }
  | .wst cid off =>
    s.modCtx cid (fun c => c.modParts (fun q =>
      { q with wst := Mem.set q.wst off b, wstW := Map.put q.wstW (off / 4096) none }))
  | .flash off => { s with mem := { s.mem with flash := Mem.set s.mem.flash off b } }
  | .loc pa key _ _ => s.hbmSet key pa b
  | .remote _ _ _ => s
  | .host port bus => { s with host := { s.host with mem := Mem.set s.host.mem (hostAddr port bus) b } }
  | .trapMem core off =>
    s.modCore core (fun c => { c with trap := { c.trap with mem := Mem.set c.trap.mem off b } })

/-- Writes bytes from a place on. -/
def State.wrBytes (s : State) (launch : Nat) (p : Place) : List Byte → State
  | [] => s
  | b :: bs => State.wrBytes (s.wr1 launch p b) launch (p.add 1) bs

/-- A write wakes every waita whose monitor is armed on a line it touches (R308). -/
def Ctx.wakeOn (c : Ctx) (p : Place) (n : Nat) : Ctx :=
  match c.sc.hold with
  | .waita w =>
    if (List.range n).any (fun i => (p.add i).line == w.place.line) then
      { c with sc := { c.sc with hold := .waita { w with woken := true } } }
    else c
  | _ => c

/-- A write to a line sends a notice to each device whose monitor is armed on it (R308). -/
def State.notices (s : State) (p : Place) (n : Nat) : State :=
  let hit : Nat × Nat → Bool := fun w => (List.range n).any (fun i => (p.add i).line == w.2)
  (s.net.watch.filter hit).foldl (fun s w => s.post w.1 (.notice w.1 w.2))
    { s with net := { s.net with watch := s.net.watch.filter (fun w => !hit w) } }

def State.wakeOn (s : State) (p : Place) (n : Nat) : State :=
  { s with ctxs := s.ctxs.map (fun x => (x.1, x.2.wakeOn p n)) }

/-- A trap of either context of a core, or a context switch in or out on it, wakes a parked waita (R308). -/
def Ctx.wakeNow (c : Ctx) : Ctx :=
  match c.sc.hold with
  | .waita w => { c with sc := { c.sc with hold := .waita { w with woken := true } } }
  | _ => c

def State.wakeCore (s : State) (cid : Nat) : State :=
  (s.modCtx (cid / 2 * 2) Ctx.wakeNow).modCtx (cid / 2 * 2 + 1) Ctx.wakeNow

/-- The units that a write of n bytes covers whole are poisoned no longer (R225), and those it touches hold no corrected error. -/
def State.heal (s : State) (p : Place) (n : Nat) : State :=
  let (_, _, a, z) := p.coord
  let whole : Nat → Bool := fun i =>
    let u := (a + i) / z * z
    decide (a ≤ u) && decide (u + z ≤ a + n)
  let units := ((List.range n).filter whole).map (fun i => (p.add i).unit)
  let touched := (List.range n).map (fun i => (p.add i).unit)
  { s with mem := { s.mem with poison := s.mem.poison.filter (fun u => !units.contains u)
                               weak := s.mem.weak.filter (fun u => !touched.contains u) } }

/-- Performs a write at its point of coherence. -/
def State.wr (s : State) (launch : Nat) (p : Place) (bs : List Byte) : State :=
  (((s.wrBytes launch p bs).heal p bs.length).wakeOn p bs.length).notices p bs.length

/-! ## L1 (R125, R143) -/

/-- The L1 line that holds a local address, if any. -/
def State.l1Line (s : State) (core pa : Nat) : Option Line := Map.find (s.core core).l1 (pa / 64)

/-- Bytes of a list replaced from a place on. -/
def putBytes (bs : List Byte) (off : Nat) (new : List Byte) : List Byte :=
  (List.range bs.length).map (fun i => if off ≤ i ∧ i < off + new.length then (new[i - off]?).getD 0 else (bs[i]?).getD 0)

/-- Marks bytes of a line dirty. -/
def putDirty (ds : List Bool) (off n : Nat) (v : Bool) : List Bool :=
  (List.range ds.length).map (fun i => if off ≤ i ∧ i < off + n then v else (ds[i]?).getD false)

/-- Writes bytes into the L1 line of a local address, dirty or clean; the line is present. -/
def State.l1Put (s : State) (core pa : Nat) (bs : List Byte) (dirty : Bool) : State :=
  match s.l1Line core pa with
  | none => s
  | some l =>
    let l := { l with bytes := putBytes l.bytes (pa % 64) bs, dirty := putDirty l.dirty (pa % 64) bs.length dirty }
    s.modCore core (fun c => { c with l1 := Map.put c.l1 (pa / 64) l })

/-- The runs of dirty bytes of a line, as (offset, bytes): the whole line if all of it is dirty. -/
def Line.runs (l : Line) : List (Nat × List Byte) :=
  if l.dirty.all id then [(0, l.bytes)]
  else ((List.range 64).filter (fun i => (l.dirty[i]?).getD false)).map (fun i => (i, [(l.bytes[i]?).getD 0]))

/-- Writes the dirty bytes of a line back to the home slice; the line stays, clean. -/
def State.wbLine (s : State) (core n : Nat) : State :=
  match Map.find (s.core core).l1 n with
  | none => s
  | some l =>
    if l.dirty.any id then
      let s := l.runs.foldl (fun s r => s.wr 0 (.loc (n * 64 + r.1) l.key 0 0) r.2) s
      s.modCore core (fun c => { c with l1 := Map.put c.l1 n { l with dirty := List.replicate 64 false } })
    else s

/-- Writes back the line if dirty, then invalidates it. -/
def State.dropLine (s : State) (core n : Nat) : State :=
  (s.wbLine core n).modCore core (fun c => { c with l1 := Map.del c.l1 n })

/-- The lines of L1's set of a line number: 2,048 lines, 8-way, so 256 sets (R116). -/
def State.l1Set (s : State) (core n : Nat) : Map Line := (s.core core).l1.filter (fun x => x.1 % 256 == n % 256)

/-- The line that leaves a set first: one that a .lu access marked (R304), else the one filled first (DESIGN CHOICE, log entry 61). -/
def firstOut : Map Line → Option (Nat × Line)
  | [] => none
  | x :: xs =>
    match firstOut xs with
    | none => some x
    | some y => if x.2.lu && !y.2.lu then some x else if y.2.lu && !x.2.lu then some y else if x.2.fill ≤ y.2.fill then some x else some y

/-- Makes room in the set of a line. -/
def State.l1Room (s : State) (core n : Nat) : State :=
  if (s.l1Set core n).length < 8 then s
  else
    match firstOut (s.l1Set core n) with
    | some x => s.dropLine core x.1
    | none => s

/-- Fills the line of a local address from its home slice, if it is absent; a full set first loses a line. -/
def State.l1Fill (s : State) (core pa key : Nat) : State :=
  match s.l1Line core pa with
  | some _ => s
  | none =>
    let s := s.l1Room core (pa / 64)
    let l : Line := { fill := s.clk, key := key, lu := false, bytes := s.hbmRead key (pa / 64 * 64) 64,
                      dirty := List.replicate 64 false }
    s.modCore core (fun c => { c with l1 := Map.put c.l1 (pa / 64) l })

/-- An access marks its line as the first to leave, if its hint is .lu, or marks it no longer (R304). -/
def State.l1Mark (s : State) (core pa : Nat) (lu : Bool) : State :=
  match s.l1Line core pa with
  | some l => s.modCore core (fun c => { c with l1 := Map.put c.l1 (pa / 64) { l with lu := lu } })
  | none => s

/-- Writes back every dirty line of a core's L1. -/
def State.wbAll (s : State) (core : Nat) : State :=
  ((s.core core).l1.map Prod.fst).foldl (fun s n => s.wbLine core n) s

/-- Writes back every dirty line, then invalidates every line (R151). -/
def State.wbInv (s : State) (core : Nat) : State := (s.wbAll core).modCore core (fun c => { c with l1 := [] })

/-- The write-back and invalidation of the L1 copy of a place's line (R146). -/
def State.flushPlace (s : State) (core : Nat) (p : Place) : State :=
  match p.pa? with
  | some (pa, _) => s.dropLine core (pa / 64)
  | none => s

/-- The lines older than 2,000 clk leave L1 (R143). -/
def State.ageL1 (s : State) (core : Nat) : State :=
  let old := (s.core core).l1.filter (fun x => decide (x.2.fill + 2000 ≤ s.clk))
  old.foldl (fun s x => s.dropLine core x.1) s

/-! ## Home slices (R126) -/

/-- The chiplet positions that the variant has (R15). -/
def Variant.positions (v : Variant) : List Nat := List.range v.quinces ++ [4, 5, 6, 7]

/-- The home slice of a local address: its number among the slices present, 64 on each chiplet. -/
def Variant.homeSlice (v : Variant) (pa : Nat) : Nat :=
  let g := pa % 2 ^ 45 / 256
  let f := (g ^^^ (g / 2 ^ 9) ^^^ (g / 2 ^ 18) ^^^ (g / 2 ^ 27)) % 512
  f * (64 * v.positions.length) / 512

/-- The position of the chiplet with the home slice of a local address. -/
def Variant.homeChiplet (v : Variant) (pa : Nat) : Nat := (v.positions[v.homeSlice pa / 64]?).getD 0

/-! ## Soft errors (R128, R225) -/

/-- An error strikes the unit of a place: one that the code corrects, or one that poisons it. -/
def State.strike (s : State) (p : Place) (hard : Bool) : State :=
  if p.isRemote then s
  else if hard then s.setPoison p
  else { s with mem := { s.mem with weak := insertNat p.unit s.mem.weak } }

/-- The errors corrected in an S-path read of a core count in SOFTERR, which saturates (R128, R342). -/
def State.sRead (s : State) (core : Nat) (p : Place) (n : Nat) : State :=
  match s.weakUnits p n with
  | [] => s
  | us => s.modCore core (fun k => { k with softerr := min 0xFFFFFFFF (k.softerr + us.length) })

/-! ## Translation (R117-R137) -/

/-- What an access needs: permissions (R133), and whether its kind may name host-mapped memory (R67) and a local window
(R118). -/
structure Want where
  (r w host win : Bool)
  deriving DecidableEq, Repr

def Want.load : Want := ⟨true, false, true, true⟩
def Want.store : Want := ⟨false, true, true, true⟩
def Want.atomic : Want := ⟨true, true, false, true⟩
/-- Memory reductions and vector atomics name no window (R118). -/
def Want.vector : Want := ⟨true, true, false, false⟩
def Want.scLoad : Want := ⟨true, false, false, false⟩
def Want.scStore : Want := ⟨false, true, false, false⟩
def Want.scAtomic : Want := ⟨true, true, false, false⟩
/-- waita reads at the point of coherence and names no host-mapped memory (R307). -/
def Want.wait : Want := ⟨true, false, false, true⟩
/-- Engine reads and writes of memory (R347), and matrix operand fetches, which name no host-mapped memory (R67). -/
def Want.fetch : Want := ⟨true, false, false, true⟩

/-- The outcome of a translation: a place, or a cause with its DETAIL. -/
inductive XRes
  | ok (p : Place)
  | fault (code detail : Nat)
  deriving DecidableEq, Repr

/-- The outcome of a walk: the leaf, its page size, or a cause with its DETAIL. -/
inductive Walk
  | leaf (w : Word) (size : Nat)
  | fault (code detail : Nat)
  deriving DecidableEq, Repr

/-- The width in bits of the page of a leaf at a level, and the place of a level's index bits (R130). -/
def walkIdx (va lvl : Nat) : Nat :=
  if lvl = 0 then va / 2 ^ 16 % 32 else va / 2 ^ (12 + 9 * lvl) % 512

def walkSize (lvl : Nat) : Nat := if lvl = 2 then 2 ^ 30 else if lvl = 1 then 2 ^ 21 else 2 ^ 16

/-- DETAIL of an uncorrectable HBM error: source 1 and the stack (R217, R225). -/
def hbmDetail (pa : Nat) : Nat := 1 + Config.stackOf pa % 256 * 256

/-- The fields of a leaf are legal for its size (R132). -/
def leafOk (e : Word) (size : Nat) : Bool :=
  bitsOf e 63 61 == 0 && bitsOf e 15 13 == 0 && bitsOf e 9 8 != 3 && bitsOf e 7 6 != 3 &&
    bitsOf e 51 16 * 2 ^ 16 % size == 0

/-- The walk of R130 from a table on down; `lvls` are the levels still to walk, highest first. -/
def State.walk (s : State) (va : Nat) : List Nat → Nat → Walk
  | [], _ => .fault 6 0
  | lvl :: ls, t =>
    let a := t + 8 * walkIdx va lvl
    -- a table pointer outside the usable HBM of the own device (R129)
    if a / 2 ^ 45 ≠ s.net.devid ∨ s.variant.usable ≤ a % 2 ^ 45 then .fault 6 lvl
    else
      let pa := a % 2 ^ 45
      if s.poisoned (.loc pa 0 2 0) 8 then .fault 0x0B (hbmDetail pa)
      else
        let e := leWord (s.hbmRead 0 pa 8)
        if bitOf e 0 = false then .fault 6 lvl
        else if bitOf e 1 then
          if 2 < lvl then .fault 6 lvl
          else if leafOk e (walkSize lvl) then .leaf e (walkSize lvl)
          else .fault 6 lvl
        else if lvl = 0 then .fault 6 lvl
        else if bitsOf e 63 52 ≠ 0 ∨ bitsOf e 7 2 ≠ 0 ∨ (2 ≤ lvl ∧ bitsOf e 11 8 ≠ 0) then .fault 6 lvl
        else s.walk va ls (bitsOf e 51 8 * 256)

/-- The page table root of a launch. -/
def State.ptroot (s : State) (launch : Nat) : Nat :=
  match Map.find s.sched.launches launch with | some l => l.ptroot | none => 0

/-- A TLB entry matches a task's access (R135). -/
def TlbEnt.hits (e : TlbEnt) (ptroot va : Nat) : Bool :=
  (e.ptroot == ptroot || bitOf e.leaf 5) && decide (va / e.size * e.size = e.va)

/-- The leaf an access uses: that of a fresh walk, or, while a TLB entry that differs is held, either (R136). -/
def State.leafFor (s : State) (core ptroot va : Nat) : Walk :=
  let fresh := s.walk va [4, 3, 2, 1, 0] ptroot
  match (s.core core).tlb.find? (fun e => e.hits ptroot va) with
  | none => fresh
  | some e => if fresh = .leaf e.leaf e.size then fresh else if Config.freeBool s.free then .leaf e.leaf e.size else fresh

/-- The place that a leaf gives an address, with the checks of R129, R133. -/
def State.leafPlace (s : State) (want : Want) (va : Nat) (e : Word) (size : Nat) : XRes :=
  let pa := bitsOf e 51 16 * 2 ^ 16 + va % size
  let dev := pa / 2 ^ 45
  let la := pa % 2 ^ 45
  let key := bitsOf e 60 52
  let lvl := if size = 2 ^ 30 then 2 else if size = 2 ^ 21 then 1 else 0
  if dev = s.net.devid ∧ 2 ^ 36 * s.variant.hbm ≤ la then .fault 6 lvl
  else if dev = s.net.devid ∧ s.variant.usable ≤ la then .fault 7 0
  else if (want.r && !bitOf e 2) || (want.w && !bitOf e 3) then .fault 7 0
  else if dev ≠ s.net.devid then .ok (.remote dev la key)
  else if (s.slotKey key).isNone then .fault 7 2
  else .ok (.loc la key (bitsOf e 7 6) (bitsOf e 9 8))

/-- A window address (R118): the base and the offset. The trap core has its own memory beside the windows (R214). -/
def State.xlatWin (s : State) (cid : Nat) (trapCore : Bool) (want : Want) (va : Nat) : XRes :=
  let off := va % 2 ^ 48
  let c := s.ctx cid
  let w := va / 2 ^ 48
  if w = 0x1C0 ∨ w = 0x1C1 ∨ w = 0x1C2 then
    let p : Option Place :=
      if w = 0x1C0 then (if off < 4096 * c.hdr.spad then some (.spad cid off) else none)
      else if w = 0x1C1 then
        (match c.task with
         | some t => if t.member ∧ off < 2 ^ 23 then some (.clus (clusterOf (cid / 2)) off) else none
         | none => none)
      else (if off < 48 * 2 ^ 20 then some (.chip (posOf (cid / 2)) off) else none)
    match p with
    | none => .fault 7 1
    | some p => if want.win then .ok p else .fault 7 3
  else if w = 0x1C3 ∧ trapCore then (if off < 0x4000 then .ok (.trapMem (cid / 2) off) else .fault 7 1)
  else .fault 6 5

/-- A host-map address (R66, R67). A removed or absent mapping takes a protection fault (R65), then comes the permission, then the kind of
the access (R309). -/
def State.xlatHost (s : State) (cid : Nat) (want : Want) (va : Nat) : XRes :=
  match Map.find s.sched.launches (s.ctx cid).launch with
  | none => .fault 7 0
  | some l =>
    match l.maps.find? (fun m => decide (m.va ≤ va) && decide (va < m.va + m.len)) with
    | none => .fault 7 0
    | some m =>
      match Map.find s.host.exports m.exp with
      | none => .fault 7 0
      | some x =>
        if want.w && !m.writable then .fault 7 0
        else if want.host then .ok (.host x.port (x.bus + m.off + (va - m.va)))
        else .fault 7 3

/-- The translation of an access of a context (R117, R130). The code region admits instruction fetch only (R61). -/
def State.xlat (s : State) (cid : Nat) (trapCore : Bool) (want : Want) (va : Word) : XRes :=
  let a := va.toNat
  if 2 ^ 57 ≤ a then .fault 6 5
  else if a < 0x1C0 * 2 ^ 48 then
    match s.leafFor (cid / 2) (s.ptroot (s.ctx cid).launch) a with
    | .fault c d => .fault c d
    | .leaf e size => s.leafPlace want a e size
  else if a < 0x1E0 * 2 ^ 48 then s.xlatWin cid trapCore want a
  else if a < 0x1F0 * 2 ^ 48 then s.xlatHost cid want a
  else .fault 7 3

/-- What a translation leaves: the leaf of the walk in the TLB of 2,048 entries, if its address is translated by one and
no entry matched. -/
def State.noteXlat (s : State) (cid : Nat) (va : Word) : State :=
  let a := va.toNat
  let root := s.ptroot (s.ctx cid).launch
  if a < 0x1C0 * 2 ^ 48 then
    if (s.core (cid / 2)).tlb.any (fun e => e.hits root a) then s.bump
    else
      match s.leafFor (cid / 2) root a with
      | .fault _ _ => s
      | .leaf e size =>
        let n : TlbEnt := { va := a / size * size, size := size, leaf := e, ptroot := root }
        s.modCore (cid / 2) (fun c => { c with tlb := (n :: c.tlb).take 2048 })
  else s

end Sys2Proof.Machine
end

