-- ==== Sys2Proof/Machine/PathOps.lean ====
section
/-! DEFINITION. The S path (R144-R153): performing stores, memory reductions (R210-R213) and loads, requests to other
devices (R169), and the waits of releases. -/

namespace Sys2Proof

/-- The hints under which a load or a prefetch allocates in L1 (R304, R306). -/
def Hint.allocL1 (h : Hint) : Bool :=
  match h with
  | .nh => true
  | .lu => true
  | .st => false
  | .na => false

namespace Machine

def sizeBytes : Size → Nat
  | .b => 1 | .h => 2 | .w => 4 | .d => 8

/-- A value loaded at a size, extended to a word (R303). -/
def extend (sx : Bool) (n : Nat) (v : Word) : Word := if sx then sextN (8 * n) v else zextN (8 * n) v

/-- The new value of an atomic on n bytes (R310). -/
def amoNew (op : AmoOp) (n : Nat) (old b : Word) : Word :=
  let so := (sextN (8 * n) old).toInt
  let sb := (sextN (8 * n) b).toInt
  let uo := (zextN (8 * n) old).toNat
  let ub := (zextN (8 * n) b).toNat
  match op with
  | .add => old + b
  | .and => old &&& b
  | .or => old ||| b
  | .xor => old ^^^ b
  | .min => if so ≤ sb then old else b
  | .max => if so ≤ sb then b else old
  | .minu => if uo ≤ ub then old else b
  | .maxu => if uo ≤ ub then b else old
  | .swap => b

/-! ## Requests to other devices -/

/-- Sends a VC0 request (R169) and notes what its answer completes, and for which launch. -/
def State.send (s : State) (dev key : Nat) (r : RemoteReq) (q : RemReq) : State :=
  let id := s.net.nextReq
  State.post { s with net := { s.net with reqs := Map.put s.net.reqs id { q with launch := (s.ctx q.cid).launch }, nextReq := id + 1 } }
    dev (.req id dev key r)

/-- The number that the next request gets. -/
def State.reqId (s : State) : Nat := s.net.nextReq

/-- Sends a remote store of a context that is no entry of its store queue: the trap core's (R214), or one of a task that ends. -/
def State.sendStore (s : State) (cid dev pa key : Nat) (bs : List Byte) (va pc : Word) (seq : Nat) : State :=
  let id := s.reqId
  let s := s.send dev key (.store pa bs) ⟨cid, dev, .store, va, pc, seq, 0⟩
  s.modCtx cid (fun c => c.modPath (fun p => { p with remStores := p.remStores ++ [id] }))

/-! ## Memory reductions (R210-R213, R314, R315) -/

/-- The width in bytes of a memory reduction's element. -/
def mredBytes : MredMode → Nat
  | .float ty _ _ _ => ty.bytes
  | .fixed _ => 8

/-- The element after the reduction. -/
def mredApply (m : MredMode) (old a : Word) : Word :=
  match m with
  | .float ty satf can fz =>
    match ty.fmt with
    | some f => BitVec.ofNat 64 (mredFloat f satf can fz (old.toNat % 2 ^ f.width) (a.toNat % 2 ^ f.width))
    | none => old
  | .fixed e => mredFixed e.toInt old (a.toNat % 2 ^ 32)

/-- Element j's addend of a vector reduction, from the registers rb on (R315). -/
def mredVal (m : MredMode) (vals : List Word) (j : Nat) : Word :=
  let per := 8 / (mredBytes m)
  match m with
  | .fixed _ => zextN 32 ((vals[j]?).getD 0)
  | .float _ _ _ _ => zextN (8 * (mredBytes m)) (((vals[j / per]?).getD 0) >>> (8 * (mredBytes m) * (j % per)))

/-- Notes an error that the S path reports at its next waiting instruction (R171, R225). -/
def State.addFail (s : State) (cid : Nat) (f : EFault) : State :=
  s.modCtx cid (fun c => c.modPath (fun p => { p with fails := p.fails ++ [f] }))

/-- DETAIL of an uncorrectable error at a place: the source and its level or stack (R217). -/
def Place.errDetail (p : Place) : Nat :=
  match p.pa? with
  | some (pa, _) => hbmDetail pa
  | none => Config.levelNumber p.coord.1 % 256 * 256

/-- One element of a memory reduction at its point of coherence. On a poisoned unit it is not performed and the error is
kept (R225). -/
def State.mredAt (s : State) (cid : Nat) (m : MredMode) (p : Place) (va a : Word) : State :=
  if s.poisoned p (mredBytes m) then
    s.addFail cid ⟨0x0B, p.errDetail, va⟩
  else
    let s := s.sRead (cid / 2) p (mredBytes m)
    let old := leWord (s.rd (s.ctx cid).launch p (mredBytes m))
    s.wr (s.ctx cid).launch p (leBytes (mredBytes m) (mredApply m old a).toNat)

/-! ## Atomics at their point of coherence (R310-R312) -/

/-- The width in bytes of an atomic's element. -/
def amoBytes (wide : Bool) : Nat := if wide then 8 else 4

/-- One element's atomic operation at its point of coherence: its old value and the state after. -/
def State.amoAt (s : State) (cid : Nat) (p : Place) (n : Nat) (op : AmoOp) (b : Word) : Word × State :=
  let s := s.sRead (cid / 2) p n
  let old := leWord (s.rd (s.ctx cid).launch p n)
  (old, s.wr (s.ctx cid).launch p (leBytes n (amoNew op n old b).toNat))

/-- cas on one element: its old value and the state after; a mismatch writes nothing (R311). -/
def State.casAt (s : State) (cid : Nat) (p : Place) (n : Nat) (expect new : Word) : Word × State :=
  let s := s.sRead (cid / 2) p n
  let old := leWord (s.rd (s.ctx cid).launch p n)
  if old = zextN (8 * n) expect then (old, s.wr (s.ctx cid).launch p (leBytes n new.toNat)) else (old, s)

/-- Element j's operand of a vector atomic, and the register and bits its old value returns to (R312). -/
def vamoOperand (wide : Bool) (bs : List Word) (j : Nat) : Word :=
  if wide then (bs[j]?).getD 0 else word (((bs[j / 2]?).getD 0).toNat / 2 ^ (32 * (j % 2)) % 2 ^ 32)

/-- The registers rt on, with element j's old value put in its place (R312). -/
def vamoMerge (wide : Bool) (olds : List Word) (j : Nat) (v : Word) : List Word :=
  if wide then olds.set j v
  else
    let r := ((olds[j / 2]?).getD 0).toNat
    let keep := if j % 2 = 0 then r / 2 ^ 32 * 2 ^ 32 else r % 2 ^ 32
    olds.set (j / 2) (word (keep + (v.toNat % 2 ^ 32) * 2 ^ (32 * (j % 2))))

/-- The number of elements of a vector atomic. -/
def vamoCount (wide : Bool) : Nat := if wide then 4 else 8

/-- Every element of a vector atomic in turn: the old values packed, and the state after. Each element is atomic and the vector need not be
(R140, R312): all of them in one step is one of the orders the rules allow (log entry 61). -/
def State.vamoAll (s : State) (cid : Nat) (p : Place) (wide : Bool) (op : AmoOp) (bs : List Word) : List Word × State :=
  (List.range (vamoCount wide)).foldl (fun x j =>
    let r := x.2.amoAt cid (p.add (amoBytes wide * j)) (amoBytes wide) op (vamoOperand wide bs j)
    (vamoMerge wide x.1 j r.1, r.2)) ([0, 0, 0, 0], s)

/-! ## Performing the head of the store queue -/

/-- Performs a plain store at its point of coherence, keeping the core's L1 copy as R125 says. -/
def State.storeHome (s : State) (cid : Nat) (p : Place) (bs : List Byte) : State :=
  let core := cid / 2
  match p with
  | .loc pa _ cl wp =>
    if cl = 0 ∧ wp = 1 then (s.l1Put core pa bs false).wr (s.ctx cid).launch p bs
    else (s.dropLine core (pa / 64)).wr (s.ctx cid).launch p bs
  | .spad _ _ => s.wr (s.ctx cid).launch p bs
  | .clus _ _ => s.wr (s.ctx cid).launch p bs
  | .chip _ _ => s.wr (s.ctx cid).launch p bs
  | .wst _ _ => s.wr (s.ctx cid).launch p bs
  | .flash _ => s.wr (s.ctx cid).launch p bs
  | .remote _ _ _ => s
  | .host _ _ => s.wr (s.ctx cid).launch p bs
  | .trapMem _ _ => s.wr (s.ctx cid).launch p bs

/-- What an issued .sc store or atomic does to memory (R166): the part of its effect that stands even where its task is gone (R165). -/
def State.scWrite (s : State) (cid : Nat) (a : ScAcc) : State :=
  let s := s.flushPlace (cid / 2) a.place
  let bad := s.poisoned a.place a.size
  match a.kind with
  | .store v => s.storeHome cid a.place (leBytes a.size v.toNat)
  | .amo op _ b => if bad then s else (s.amoAt cid a.place a.size op b).2
  | .cas _ e n => if bad then s else (s.casAt cid a.place a.size e n).2
  | .vamo op _ _ wide bs => if bad then s else (s.vamoAll cid a.place wide op bs).2
  | .load _ _ => s
  | .waita _ _ _ _ _ => s

/-- The store is a release (R152). -/
def StEnt.isRel (e : StEnt) : Bool := e.ord == .rel || e.ord == .ar || e.ord == .sc

/-- Lodges a store in L1 (R141): the line is filled if it is absent, and .lu marks it (R304). -/
def State.lodge (s : State) (cid pa key : Nat) (h : Hint) (bs : List Byte) : State :=
  ((s.l1Fill (cid / 2) pa key).l1Put (cid / 2) pa bs true).l1Mark (cid / 2) pa (h == .lu)

/-- A store lodges where R141 lets it: it is no release beyond .core (R152), and with a hint that allocates no L1 line the line is there
already (R304). -/
def State.mayLodge (s : State) (cid : Nat) (e : StEnt) : Bool :=
  e.place.lodges && !(e.isRel && e.scope != .core) &&
    (match e.place.pa? with
     | some (pa, _) => e.hint.allocL1 || (s.l1Line (cid / 2) pa).isSome
     | none => false)

/-- The first byte of the aligned 32-byte granule of a scratchpad place (R179). -/
def Place.granBase : Place → Option Place
  | .spad c off => some (.spad c (off / 32 * 32))
  | .clus c off => some (.clus c (off / 32 * 32))
  | .chip c off => some (.chip c (off / 32 * 32))
  | .wst _ _ => none | .flash _ => none | .loc _ _ _ _ => none | .remote _ _ _ => none | .host _ _ => none
  | .trapMem _ _ => none

/-- The store with a sequence number to a place is performed: its scratchpad granule is noted while further stores to it are queued, so
that no engine reads it between them (R179). -/
def State.noteStored (s : State) (cid : Nat) (p : Place) (seq : Nat) : State :=
  match p.granBase with
  | none => s
  | some g =>
    s.modCtx cid (fun c => c.modPath (fun q =>
      { q with stored := (g :: q.stored.filter (fun x => x != g)).filter (fun x =>
          q.stores.any (fun e => e.seq != seq && e.place.meets e.size x 32)) }))

/-- The addends of an entry's elements, or none for a plain store. -/
def StEnt.elems (e : StEnt) : List (Nat × Word) :=
  match e.kind with
  | .store _ => []
  | .mred _ v => [(0, v)]
  | .vmred m vs => (List.range (32 / (mredBytes m))).map (fun j => (j * (mredBytes m), mredVal m vs j))

/-- The requests of an entry for another device (R169): a store is one, a reduction one for each element. -/
def StEnt.reqs (e : StEnt) (pa : Nat) : List RemoteReq :=
  match e.kind with
  | .store v => [.store pa (leBytes e.size v.toNat)]
  | .mred m _ => e.elems.map (fun x => .mred m (pa + x.1) x.2)
  | .vmred m _ => e.elems.map (fun x => .mred m (pa + x.1) x.2)

/-- Performs an entry of the own device, or lodges it where that is chosen and allowed: a release beyond .core first writes back L1 (R152).
A local vector reduction does its elements in one step, one of the interleavings that R140 and R213 allow (log entry 61). -/
def State.performHere (s : State) (cid : Nat) (e : StEnt) (lodge : Bool) : State :=
  let s := if e.isRel && e.scope != .core then s.wbAll (cid / 2) else s
  let reduce := fun (m : MredMode) =>
    e.elems.foldl (fun s x => s.mredAt cid m (e.place.add x.1) (e.va + word x.1) x.2) (s.flushPlace (cid / 2) e.place)
  match e.kind with
  | .store v =>
    let bs := leBytes e.size v.toNat
    let s := s.noteStored cid e.place e.seq
    if lodge && s.mayLodge cid e then
      match e.place.pa? with
      | some (pa, key) => s.lodge cid pa key e.hint bs
      | none => s
    else s.storeHome cid e.place bs
  | .mred m _ => reduce m
  | .vmred m _ => reduce m

/-- Sends the requests of an entry for another device; their numbers, and the state after. -/
def State.sendEnt (s : State) (cid : Nat) (e : StEnt) (dev pa key : Nat) : List Nat × State :=
  let s := if e.isRel && e.scope != .core then s.wbAll (cid / 2) else s
  (e.reqs pa).foldl (fun x r =>
    (x.1 ++ [x.2.reqId], x.2.send dev key r ⟨cid, dev, .store, e.va, e.pc, e.seq, 0⟩)) ([], s)

/-- Performs an entry that stands in no queue: one of the trap core, which awaits its acknowledgements (R170), or of a task that ends. -/
def State.perform (s : State) (cid : Nat) (e : StEnt) (lodge : Bool) : State :=
  match e.place.dev? with
  | none => s.performHere cid e lodge
  | some (dev, pa, key) =>
    if e.sent ≠ [] then s
    else
      let x := s.sendEnt cid e dev pa key
      x.2.modCtx cid (fun c => c.modPath (fun p => { p with remStores := p.remStores ++ x.1 }))

/-- The entry at the head of the store queue may be performed: no acquire stands before it in program order (R151), no
earlier load of its bytes is still queued (R145), a release waits for every earlier load (R152), and every earlier store of the agent is
performed (R144), the trap core's among them. -/
def SPath.mayStore (p : SPath) (e : StEnt) : Bool :=
  p.loads.all (fun l => decide (e.seq < l.seq) ||
    (l.ord != .acq && l.ord != .sc && !l.place.meets l.size e.place e.size && !e.isRel)) &&
  p.remStores.isEmpty && e.sent.isEmpty

/-! ## Loads -/

/-- The bytes of a load's own agent's latest earlier queued store, byte by byte (R145). -/
def forward (sts : List StEnt) (l : LdEnt) (i : Nat) (b : Byte) : Byte :=
  sts.foldl (fun b e =>
    match e.kind with
    | .store v =>
      if decide (e.seq < l.seq) && (l.place.add i).meets 1 e.place e.size then
        -- the byte's offset in the store
        match (List.range e.size).find? (fun j => (e.place.add j).same (l.place.add i)) with
        | some j => byte (v.toNat / 256 ^ j % 256)
        | none => b
      else b
    | .mred _ _ => b
    | .vmred _ _ => b) b

/-- Byte i of a load is forwarded from a queued store (R145). -/
def forwarded (sts : List StEnt) (l : LdEnt) (i : Nat) : Bool :=
  sts.any (fun e => decide (e.seq < l.seq) && (l.place.add i).meets 1 e.place e.size &&
    (match e.kind with | .store _ => true | .mred _ _ => false | .vmred _ _ => false))

/-- An earlier memory reduction of the load's bytes is still queued, so that the load waits (R142, R146); a load of another device waits
for every earlier store of its bytes too, so that its answer is not older than that store (R142, R169). -/
def loadBlocked (sts : List StEnt) (l : LdEnt) : Bool :=
  sts.any (fun e => decide (e.seq < l.seq) && l.place.meets l.size e.place e.size &&
    match e.kind with | .store _ => l.place.isRemote | .mred _ _ => true | .vmred _ _ => true)

/-- The bytes that a load of a local place reads: the L1 copy where it hits (R143), else the home slice. -/
def State.loadBytes (s : State) (cid : Nat) (p : Place) (n : Nat) (hit : Bool) : List Byte :=
  let home := s.rd (s.ctx cid).launch p n
  match p.pa? with
  | some (pa, _) =>
    if hit && p.cached then
      match s.l1Line (cid / 2) pa with
      | some l => sliceB l.bytes (pa % 64) n
      | none => home
    else home
  | none => home

/-- Waits of S that a failed access ends (R171, R225): the first failure noted, if any. -/
def State.firstFail (s : State) (cid : Nat) : Option EFault := (s.ctx cid).path.fails.head?

/-- Every queued access of the S path is performed and every remote store acknowledged. -/
def SPath.drained (p : SPath) : Bool := p.loads.isEmpty && p.stores.isEmpty

def SPath.acked (p : SPath) : Bool := p.drained && p.remStores.isEmpty

/-- The acquire of R151 at a scope. -/
def State.acquire (s : State) (cid : Nat) (sc : Scope) : State := if sc = .core then s else s.wbInv (cid / 2)

/-- The L1 part of a release at a scope (R152). -/
def State.release (s : State) (cid : Nat) (sc : Scope) : State := if sc = .core then s else s.wbAll (cid / 2)

def ordAcq (o : Ord) : Bool := o == .acq || o == .ar || o == .sc
def ordRel (o : Ord) : Bool := o == .rel || o == .ar || o == .sc

end Machine

end Sys2Proof
end

