-- ==== Sys2Proof/Machine/SchedOps.lean ====
section
/-! DEFINITION. The scheduler's operations (R68-R88), launches (R49-R57), code objects (R60-R64), bunches (R107-R110), and
the end of a task, which the instructions, the events and the traps share. -/

namespace Sys2Proof.Machine

/-- Clks of a millisecond at 940 MHz (R17). -/
def msClk : Nat := 940000

/-! ## Fields of a record (R68) -/

def Record.code (r : Record) : Nat := bitsOf r.w0 63 3 * 8
def Record.pclass (r : Record) : Nat := bitsOf r.w0 2 1
def Record.qreq (r : Record) : Bool := bitOf r.w0 0
def Record.queue (r : Record) : Nat := bitsOf r.w2 40 35
def Record.pri (r : Record) : Nat := bitsOf r.w2 34 32
def Record.join (r : Record) : Nat := bitsOf r.w2 31 0
def Record.key (r : Record) : Nat := bitsOf r.w3 48 40
def Record.bunch (r : Record) : Nat := bitsOf r.w3 39 24
def Record.est (r : Record) : Nat := bitsOf r.w3 23 0

/-- The reserved bits of a record are zero. -/
def Record.clean (r : Record) : Bool := bitsOf r.w2 63 41 == 0 && bitsOf r.w3 63 49 == 0

/-- The record with another estimate (R320). -/
def Record.setEst (r : Record) (e : Nat) : Record :=
  { r with w3 := word (r.w3.toNat / 2 ^ 24 * 2 ^ 24 + e % 2 ^ 24) }

/-- The record with QREQ set (R233, R237). -/
def Record.setQreq (r : Record) : Record := { r with w0 := r.w0 ||| 1 }

/-- A record from its 32 bytes. -/
def Record.ofBytes (bs : List Byte) : Record :=
  ⟨leWord (sliceB bs 0 8), leWord (sliceB bs 8 8), leWord (sliceB bs 16 8), leWord (sliceB bs 24 8)⟩

/-! ## Code objects (R60-R63) -/

/-- The object whose pages hold an address, with its handle. -/
def State.objAt (s : State) (a : Nat) : Option (Nat × CodeObj) :=
  s.host.objs.find? (fun x => decide (x.2.base ≤ a) && decide (a < x.2.base + 65536 * x.2.pages))

/-- The outcome of a fetch. `wait` names the page still to be loaded (R62). -/
inductive FRes
  | bytes (b : List Byte)
  | wait (handle page : Nat)
  | fault (code detail : Nat)
  deriving DecidableEq, Repr

/-- Fetches n bytes of the code region (R62, R63): every page that they touch must be loaded, the first one first. -/
def State.fetch (s : State) (a n : Nat) : FRes :=
  match s.objAt a with
  | none => .fault 6 5
  | some (h, o) =>
    let first := (a - o.base) / 65536
    let last := (a - o.base + (n - 1)) / 65536
    if o.revoked then .fault 8 h
    else if o.pages ≤ last then .fault 6 5
    else if !o.loaded.contains first then .wait h first
    else if !o.loaded.contains last then .wait h last
    else .bytes (Mem.read o.bytes (a - o.base) n)

/-- An address lies in a registered, unrevoked code object. -/
def State.inCode (s : State) (a : Nat) : Bool :=
  match s.objAt a with
  | some (_, o) => !o.revoked
  | none => false

/-! ## Task headers (R70, R71) -/

/-- The header in 32 bytes, if it is a header within the ranges of R70. -/
def Header.ofBytes (bs : List Byte) : Option Header :=
  let w0 := leWord (sliceB bs 0 8)
  let w1 := leWord (sliceB bs 8 8)
  let w2 := leWord (sliceB bs 16 8)
  let w3 := leWord (sliceB bs 24 8)
  let h : Header :=
    { spad := bitsOf w0 35 24, acc := bitsOf w0 23 16, slots := bitsOf w0 15 12, chan := bitsOf w0 11 8,
      wst := bitsOf w1 12 0, slLen := bitsOf w2 47 32, slOff := BitVec.ofNat 32 (bitsOf w2 31 0) }
  if bitsOf w0 63 48 = 0x7A5C ∧ bitsOf w0 47 36 = 0 ∧ bitsOf w0 7 0 = 0 ∧ bitsOf w1 63 13 = 0 ∧ bitsOf w2 63 48 = 0 ∧
      w3 = 0 ∧ h.spad ≤ 2048 ∧ h.acc ≤ 64 ∧ h.slots ≤ 8 ∧ h.chan ≤ 8 ∧ h.wst ≤ 4096 then some h
  else none

/-- Record r is capable on core k (R77). -/
def State.capable (s : State) (qreq : Bool) (k : Nat) : Bool := !qreq || classQ k || s.variant.quinces == 0

/-- The requests of a header fit beside those of another (R77). -/
def fitsWith (k : Nat) (h o : Header) : Bool :=
  decide (h.spad + o.spad ≤ 2048) && decide (h.acc + o.acc ≤ 64) && decide (h.wst + o.wst ≤ wstGranules k) &&
    decide (h.slots + o.slots ≤ 8) && decide (h.chan ≤ 8)

/-- The header of a context without a task. -/
def Header.zero : Header := Ctx.fresh.hdr

/-- A header fits on core k next to the other context's task (R77). -/
def State.fits (s : State) (h : Header) (cid : Nat) : Bool :=
  fitsWith (cid / 2) h (s.ctx (if cid % 2 = 0 then cid + 1 else cid - 1)).hdr

/-- Some core of the variant could hold the header alone (R71). -/
def State.placeable (s : State) (qreq : Bool) (h : Header) : Bool :=
  (List.range 256).any (fun k => s.variant.hasCore k && s.capable qreq k && fitsWith k h .zero)

/-! ## Entries -/

def State.entry (s : State) (e : Nat) : Option Entry := Map.find s.sched.store e

def State.modSched (s : State) (f : Sched → Sched) : State := { s with sched := f s.sched }

def State.setEntry (s : State) (e : Nat) (v : Entry) : State :=
  s.modSched (fun q => { q with store := Map.put q.store e v })

def State.modEntry (s : State) (e : Nat) (f : Entry → Entry) : State :=
  match s.entry e with
  | some v => s.setEntry e (f v)
  | none => s

/-- Frees an entry, with its image; the generation of its index goes on (R318), and a pre-emption decided for it goes on without a
newcomer. -/
def State.dropEntry (s : State) (e : Nat) : State :=
  let s := s.modSched (fun q =>
    { q with store := Map.del q.store e, gens := Map.put q.gens e (Map.getD q.gens e 0 + 1),
             marks := q.marks.filter (fun m => m.2.1 != e), offers := q.offers.filter (fun o => o.2 != e),
             preempts := q.preempts.map (fun p => if p.newcomer = some e then { p with newcomer := none } else p) })
  { s with images := Map.del s.images e }

/-- The first index that no entry holds, below the store's 1,048,576 (R72). -/
def freeIdx : Map Entry → Nat → Nat
  | [], n => n
  | (k, _) :: m, n => if k = n then freeIdx m (n + 1) else n

def State.storeFull (s : State) : Bool := decide (2 ^ 20 ≤ freeIdx s.sched.store 0)

/-- The bunch with which a ready record is placed, 0 for none: that of its BUNCH field (R78), or, for a saved task, the one of which it was a
member when it was stopped (R111). -/
def State.groupOf (s : State) (e : Nat) (v : Entry) : Nat :=
  match Map.find s.images e with
  | some im => (match im.ctx.task with | some t => if t.member then t.bunch else 0 | none => 0)
  | none => v.record.bunch

/-! ## Priority (R75, R76) -/

def State.queue (s : State) (q : Nat) : Queue := Map.getD s.sched.queues q (.fresh q)

/-- P of a ready record (R75). -/
def State.effPri (s : State) (e : Entry) : Nat :=
  min 7 (min e.record.pri (s.queue e.record.queue).prio + (s.clk - e.since) / msClk)

/-- Record a precedes record b (R76). -/
def State.precedes (s : State) (a b : Entry) : Bool :=
  let pa := s.effPri a
  let pb := s.effPri b
  if pa ≠ pb then decide (pb < pa)
  else if a.since ≠ b.since then decide (a.since < b.since)
  else if a.record.queue ≠ b.record.queue then decide (a.record.queue < b.record.queue)
  else decide (a.num < b.num)

/-- Core k is held off for other records than a reserving one's (R79). -/
def State.heldOff (s : State) (e k : Nat) : Bool :=
  s.sched.marks.any (fun m => m.2.1 != e && (m.2.2 == k ||
    -- a bunch's mark applies to the whole cluster
    (match s.entry m.2.1 with
     | some v => s.groupOf m.2.1 v != 0 && m.2.2 / 4 == k / 4
     | none => false)))

/-- The first entry in the order of R76 among those that a test admits. -/
def State.bestEntry (s : State) (ok : Nat → Entry → Bool) : Option (Nat × Entry) :=
  s.sched.store.foldl (fun best x =>
    if ok x.1 x.2 then
      match best with
      | none => some x
      | some b => if s.precedes x.2 b.2 then some x else best
    else best) none

/-- A context without a task, on a core of the variant. -/
def State.isFree (s : State) (cid : Nat) : Bool :=
  s.variant.hasCore (cid / 2) && (s.ctx cid).task.isNone

/-- Core k is marked for a reserving record and has a task: the record waits until both contexts are free (R79). -/
def State.markWaits (s : State) (e k : Nat) : Bool :=
  s.sched.marks.any (fun m => m.2.1 == e && m.2.2 == k) &&
    ((s.ctx (2 * k)).task.isSome || (s.ctx (2 * k + 1)).task.isSome)

/-- A single record may be placed on a free context (R76). -/
def State.canPlace (s : State) (e : Nat) (v : Entry) (cid : Nat) : Bool :=
  v.st == .ready && s.groupOf e v == 0 &&
    (match v.hdr with
     | some h => s.capable v.record.qreq (cid / 2) && s.fits h cid
     | none => false) && !s.heldOff e (cid / 2) && !s.markWaits e (cid / 2)

/-! ## Launches (R52-R56) -/

def State.launch (s : State) (l : Nat) : Option Launch := Map.find s.sched.launches l

def State.modLaunch (s : State) (l : Nat) (f : Launch → Launch) : State :=
  match s.launch l with
  | some v => s.modSched (fun q => { q with launches := Map.put q.launches l (f v) })
  | none => s

/-- END and the like: the root join counter goes down, and at zero the launch completes (R52). -/
def State.joinDown (s : State) (l : Nat) : State :=
  s.modLaunch l (fun v =>
    { v with joins := v.joins - 1, done := v.done || decide (v.joins ≤ 1), doneAt := if v.done then v.doneAt else s.clk })

/-! ## Bunches (R107-R110) -/

def State.bunch (s : State) (b : Nat) : Option Bunch := Map.find s.sched.bunches b

def State.setBunch (s : State) (b : Nat) (v : Bunch) : State :=
  s.modSched (fun q => { q with bunches := Map.put q.bunches b v })

/-- A generation completes when the arrivals equal the members (R109). -/
def Bunch.settle (b : Bunch) : Bunch :=
  if b.members ≠ [] ∧ b.members.all (fun m => b.arrived.contains m) then
    { b with arrived := [], gen := b.gen + 1 }
  else b

/-- The entries of a bunch's members whose images are saved. -/
def State.savedMembers (s : State) (h : Nat) : List Nat :=
  (s.images.filter (fun x => match x.2.ctx.task with | some t => t.member && t.bunch == h | none => false)).map Prod.fst

/-- Sets a bunch, whose open generation may be complete. While members of it are saved the generation stays open: an arrival among
them stands, and they are members again once restored (R111, R436). -/
def State.settleBunch (s : State) (h : Nat) (b : Bunch) : State :=
  s.setBunch h (if (s.savedMembers h).isEmpty then b.settle else b)

/-- The saved member of a bunch with the lowest member index (R78). -/
def State.firstSaved (s : State) (h : Nat) : Option Nat :=
  let index : Nat → Nat := fun e => match Map.find s.images e with | some im => im.index | none => 8
  (s.savedMembers h).foldl (fun b e =>
    match b with
    | none => some e
    | some d => if index e < index d then some e else b) none

/-- Moves a cluster's memory into the image of member 0 of the bunch (R238), or of the first member that there is. -/
def State.parkClus (s : State) (cluster h : Nat) : State :=
  match s.firstSaved h with
  | none => s
  | some e =>
    let mine : Mem := (s.mem.clus.filter (fun x => decide (x.1 / 2 ^ 26 = cluster))).map (fun x => (x.1 % 2 ^ 26, x.2))
    let grs := (s.mem.clusW.filter (fun g => decide (g / 2 ^ 14 = cluster))).map (fun g => g % 2 ^ 14)
    match Map.find s.images e with
    | none => s
    | some im => { s with images := Map.put s.images e { im with clus := mine, clusW := grs } }

/-- Takes a context out of its bunch; an empty bunch dissolves and its cluster memory is lost (R108-R110), unless members of it
are saved. -/
def State.leaveBunch (s : State) (cid : Nat) : State :=
  match (s.ctx cid).task with
  | none => s
  | some t =>
    if !t.member then s
    else
      let s := s.modCtx cid (fun c => { c with task := some { t with member := false } })
      match s.bunch t.bunch with
      | none => s
      | some b =>
        let ms := b.members.filter (fun m => m != cid)
        let b1 := { b with members := ms, arrived := b.arrived.filter (fun m => m != cid) }
        if ms = [] then
          if (s.savedMembers t.bunch).isEmpty then s.setBunch t.bunch { b1 with arrived := [], placed := none, gen := b.gen + 1 }
          else (s.parkClus (clusterOf (cid / 2)) t.bunch).setBunch t.bunch { b1 with placed := none }
        else s.settleBunch t.bunch b1

/-! ## The end of a task's hold on its context -/

/-- The device that performs a write, with its key slot, where it is another one: the parts of a write lie in one 32-byte granule. -/
def WEnt.dev? (e : WEnt) : Option (Nat × Nat × Nat) := e.parts.findSome? (fun (x : Place × List Byte) => x.1.dev?)

/-- Performs one write of an engine path (R173): as one request to its device (R169), or each part at its point of coherence. A clean
weight-store granule keeps its source (R231), and units covered whole are poisoned no longer (R225). -/
def State.wrEnt (s : State) (cid path : Nat) (e : WEnt) : State :=
  let s := match e.dev? with
    | some (dev, pa, key) =>
      s.send dev key (.granule (pa / 32 * 32) (e.parts.filterMap (fun (x : Place × List Byte) => x.1.dev?.map (fun (d : Nat × Nat × Nat) => (d.2.1, x.2)))))
        ⟨cid, dev, .engineStore path e.u e.seq, e.va, 0, e.seq, 0⟩
    | none => e.parts.foldl (fun s (x : Place × List Byte) => s.wr (s.ctx cid).launch x.1 x.2) s
  let s := { s with mem := { s.mem with poison := s.mem.poison.filter (fun u => !e.heals.contains u) } }
  match e.clean with
  | some (g, va) =>
    s.modCtx cid (fun c => c.modParts (fun q => { q with wstW := Map.put q.wstW g (some va) }))
  | none => s

/-- The paths' write queues are performed in order (R54, R156); writes to other devices are sent. -/
def State.flushWq (s : State) (cid : Nat) : State :=
  let s := (s.ctx cid).eng.wq.foldl (fun s q => q.2.foldl (fun s e =>
    s.wrEnt cid q.1 e) s) s
  s.modCtx cid (fun c => c.modEng (fun g => { g with wq := [] }))

/-- The S store queue is performed in order (R156). -/
def State.flushStores (s : State) (cid : Nat) : State :=
  let s := (s.ctx cid).path.stores.foldl (fun s e => s.perform cid e false) s
  s.modCtx cid (fun c => c.modPath (fun p => { p with stores := [] }))

/-- The request is a refetch (R231). -/
def RemKind.isRefetch : RemKind → Bool
  | .refetch _ => true
  | .load => false | .store => false | .atomic _ _ _ _ => false | .vamo _ _ _ _ _ _ _ _ => false | .waita _ _ _ _ => false
  | .spawn _ => false | .pload _ _ _ => false | .notice => false | .tstb _ _ _ => false | .engine _ _ _ => false
  | .engineStore _ _ _ => false | .kput => false

/-- The .sc access of a hold, if that is what it is. -/
def holdSc? : Hold → Option ScAcc
  | .sc a => some a
  | .none => none | .xfence _ _ => none | .sleepu _ _ => none | .yield _ => none | .waita _ => none | .svc _ _ => none
  | .bbar _ => none | .remote _ => none | .iclk _ _ _ _ => none | .spawn _ _ => none

/-- The request that a hold awaits. -/
def holdReq? : Hold → Option Nat
  | .remote id => some id
  | .none => none | .xfence _ _ => none | .sleepu _ _ => none | .yield _ => none | .waita _ => none | .svc _ _ => none
  | .bbar _ => none | .sc _ => none | .iclk _ _ _ _ => none | .spawn _ _ => none

/-- What a held access of a task that is stopped at its streams' boundaries still does (R53, R165, R215): an .sc access that has issued is
performed, and a vector atomic of another device's memory sends its remaining elements. -/
def State.finishHold (s : State) (cid : Nat) (h : Hold) : State :=
  let s := match holdSc? h with
    | some a => if a.issued.isSome then s.scWrite cid a else s
    | none => s
  match (holdReq? h).bind (Map.find s.net.reqs) with
  | none => s
  | some q =>
    match q.kind with
    | .vamo op _ wide j pa key bs _ =>
      ((List.range (vamoCount wide)).filter (fun i => decide (j < i))).foldl (fun s i =>
        s.send q.dev key (.amo op (pa + amoBytes wide * (i - j)) wide (vamoOperand wide bs i)) { q with kind := .store }) s
    | .load => s | .store => s | .atomic _ _ _ _ => s | .waita _ _ _ _ => s | .spawn _ => s | .pload _ _ _ => s | .notice => s
    | .tstb _ _ _ => s | .engine _ _ _ => s | .engineStore _ _ _ => s | .kput => s | .refetch _ => s

/-- The accesses in progress of S, and of the trap core that serves the context. -/
def State.flushSc (s : State) (cid : Nat) : State :=
  let s := s.finishHold cid (s.ctx cid).sc.hold
  let t := (s.core (cid / 2)).trap
  if t.serving = some cid then s.finishHold cid t.sc.hold else s

/-- Requests of a context that is released: their answers complete nothing, and the launch still awaits its writes (R54). The
number 512 is no context's. -/
def State.detach (s : State) (cid : Nat) : State :=
  { s with net := { s.net with reqs := s.net.reqs.map (fun x => (x.1, if x.2.cid = cid then { x.2 with cid := 512 } else x.2)) } }

/-- Empties a context, cancels its commands and its requests, and ends its helper, its trap and its port program; parked waits of the core
wake (R308). -/
def State.vacate (s : State) (cid : Nat) : State :=
  let s := ((s.setCtx cid .fresh).detach cid).wakeCore cid
  let s := s.modCore (cid / 2) (fun k =>
    { k with helper := (match k.helper with | some h => if h.cid = cid then none else some h | none => none),
             trap := if k.trap.serving = some cid then { k.trap with serving := none } else k.trap })
  { s with portRun := (match s.portRun with | some r => if r.cid = cid then none else some r | none => none) }

/-- Releases a context: its queued writes are performed, its commands cancelled, its locks and its helper ended, and its
bunch left. L1 is written back and invalidated as at a FENCE .ar (R156). -/
def State.releaseCtx (s : State) (cid : Nat) : State :=
  ((((s.flushStores cid).flushWq cid).leaveBunch cid).wbInv (cid / 2)).vacate cid

/-- Tokens come back to a queue, capped (R87). -/
def State.refund (s : State) (q n : Nat) : State :=
  s.modSched (fun x =>
    let v := Map.getD x.queues q (.fresh q)
    { x with queues := Map.put x.queues q { v with tok := min v.cap (v.tok + n) } })

/-- A freed context is offered to the newcomer of a pre-emption, while it has one (R85). -/
def State.offer (s : State) (cid : Nat) (p : Preempt) : State :=
  match p.newcomer with
  | some n => s.modSched (fun q => { q with offers := Map.put q.offers cid n })
  | none => s

/-- A victim has ended before its trap: its pre-emption is void once every member has, the tokens come back and the
context is offered to the newcomer (R85, R87). -/
def State.victimEnded (s : State) (e cid : Nat) : State :=
  match s.sched.preempts.find? (fun p => p.victims.contains e) with
  | none => s
  | some p =>
    let rest := p.victims.filter (fun v => v != e)
    let others := s.sched.preempts.filter (fun q => !q.victims.contains e)
    let s := s.offer cid p
    if rest = [] then (s.modSched (fun q => { q with preempts := others })).refund p.queue p.tokens
    else s.modSched (fun q => { q with preempts := others ++ [{ p with victims := rest }] })

/-- The entry that a context runs. -/
def Ctx.entry (c : Ctx) : Option Nat := c.task.map Task.entry

/-- Stops a running task of an aborted launch (R53) and frees its entry. -/
def State.stopTask (s : State) (cid : Nat) : State :=
  match (s.ctx cid).task with
  | none => s
  | some t => (((s.flushSc cid).releaseCtx cid).dropEntry t.entry).victimEnded t.entry cid

/-- Aborts a launch (R53): the records that wait are discarded, running tasks stopped, and the launch completes with the
status of the event that came first. -/
def State.abortLaunch (s : State) (l stat : Nat) : State :=
  match s.launch l with
  | none => s
  | some v =>
    if v.done ∨ v.stat.isSome then s
    else
      let cids := (s.ctxs.filter (fun x => x.2.launch == l && x.2.task.isSome)).map Prod.fst
      let s := cids.foldl (fun s c => s.stopTask c) s
      let es := (s.sched.store.filter (fun x => x.2.launch == l)).map Prod.fst
      let s := es.foldl (fun s e => s.dropEntry e) s
      s.modLaunch l (fun v => { v with stat := some stat, done := true, doneAt := s.clk })

/-- Counts a fatal fault of a launch; the first one fills CORE, CAUSE and FADDR (R55, R224). -/
def State.countFault (s : State) (l core cause : Nat) (fa : Word) : State :=
  s.modLaunch l (fun v =>
    if v.fcnt = 0 then { v with fcnt := 1, fcore := core, fcause := cause, faddr := fa }
    else { v with fcnt := min 0xFFFF (v.fcnt + 1) })

/-- STATUS of the launch that a cause aborts (R56). -/
def statOf (cause : Nat) : Nat := if cause = 8 then 2 else if cause = 0x10 then 3 else 1

/-- A fatal end (R224): the launch aborts, the task's context with it. -/
def State.fatal (s : State) (cid cause : Nat) (fpc : Word) : State :=
  match (s.ctx cid).task with
  | none => s
  | some t => (s.countFault t.launch (cid / 2) cause fpc).abortLaunch t.launch (statOf cause)

/-- A failed record (R71): cause at the address CODE × 8, CORE 0xFF. -/
def State.failRecord (s : State) (e cause : Nat) : State :=
  match s.entry e with
  | none => s
  | some v => ((s.countFault v.launch 0xFF cause (word v.record.code)).dropEntry e).abortLaunch v.launch (statOf cause)

/-- Reads a ready record's header when its pages are there (R70, R71). -/
def State.readHdr (s : State) (e : Nat) : State :=
  match s.entry e with
  | none => s
  | some v =>
    if v.hdr.isSome then s
    else if !s.inCode v.record.code then s.failRecord e 6
    else
      match s.fetch (v.record.code - 32) 32 with
      | .fault _ _ => s.failRecord e 6
      | .wait _ _ => s
      | .bytes bs =>
        match Header.ofBytes bs with
        | none => s.failRecord e 1
        | some h =>
          if s.placeable v.record.qreq h then s.setEntry e { v with hdr := some h } else s.failRecord e 2

/-! ## Pre-emption decisions (R80-R84) -/

/-- The checkpoint charge of a header (R82), in bytes; a bunch's charge is the sum of its members' tokens. -/
def Header.charge (h : Header) : Nat := 2 ^ 20 + 4096 * (h.spad + h.wst) + 6144 * h.acc

def chargeTokens (bytes : Nat) : Nat := (bytes + 2 ^ 20 - 1) / 2 ^ 20

/-- A candidate for a newcomer: the contexts it stands for, its priority, estimate, dispatch clk and class (R83). -/
structure Cand where
  (cids : List Nat) (prio est disp pclass cid : Nat)
  deriving DecidableEq, Repr

/-- The contexts a running task stands for: its bunch's members, or itself. -/
def State.standsFor (s : State) (cid : Nat) : List Nat :=
  match (s.ctx cid).task with
  | none => []
  | some t =>
    if t.member then (match s.bunch t.bunch with | some b => b.members | none => [cid]) else [cid]

/-- EST as a decision of a clk sees it: an EST performed on that clk is not seen (R87). -/
def SysRegs.estSeen (y : SysRegs) (clk : Nat) : Nat := if y.estAt = clk then y.estOld else y.est

/-- The entry of the task that a context runs, while it is running. -/
def State.runs (s : State) (cid : Nat) : Option Entry :=
  match (s.ctx cid).task with
  | none => none
  | some t => (s.entry t.entry).bind (fun v => if v.st = .running cid then some v else none)

/-- The candidate that a running context makes for a newcomer (R83). A bunch member stands for its bunch, with the largest EST and the
lowest class of the members. -/
def State.cand (s : State) (n : Entry) (h : Header) (cid : Nat) : Option Cand :=
  match s.runs cid, (s.ctx cid).task with
  | some v, some t =>
    let cids := s.standsFor cid
    let other := if cid % 2 = 0 then cid + 1 else cid - 1
    let oh := if cids.contains other then Header.zero else (s.ctx other).hdr
    let est := cids.foldl (fun a x => max a ((s.ctx x).sys.estSeen s.clk)) 0
    let pc := cids.foldl (fun a x => match s.runs x with | some w => min a w.record.pclass | none => a) 3
    if pc ≠ 0 ∧ v.prio < s.effPri n ∧ s.capable n.record.qreq (cid / 2) ∧ fitsWith (cid / 2) h oh ∧
        (s.ctx cid).trap.phase ≠ .handler ∧ ¬ s.sched.preempts.any (fun p => p.victims.contains t.entry) then
      some ⟨cids, v.prio, est, v.disp, pc, cid⟩
    else none
  | none, _ => none
  | some _, none => none

/-- Candidate a comes before candidate b (R83). -/
def Cand.before (a b : Cand) : Bool :=
  if a.prio ≠ b.prio then decide (a.prio < b.prio)
  else if a.est ≠ b.est then decide (b.est < a.est)
  else if a.disp ≠ b.disp then decide (b.disp < a.disp)
  else if a.cid / 2 ≠ b.cid / 2 then decide (b.cid / 2 < a.cid / 2)
  else decide (b.cid % 2 < a.cid % 2)

/-- The victim for a newcomer (R83). -/
def State.victim (s : State) (n : Entry) (h : Header) : Option Cand :=
  s.ctxs.foldl (fun best x =>
    match s.cand n h x.1, best with
    | none, _ => best
    | some c, none => some c
    | some c, some b => if c.before b then some c else best) none

/-- A frame with its first fields; the rest zero. -/
def Frame.of (code detail eng : Nat) (faddr iword fpc : Word) : Frame :=
  { code := code, detail := detail, eng := eng, ch := 0, esw := 0, faddr := faddr, pelem := 0, pins := 0, pslot := 0,
    pbind := 0, iword := iword, fpc := fpc }

/-- What a cause does to the trap state of its context (R215, R218). The first one freezes the context: S issues nothing
further, trailing streams and commands stop, PEND gets the cause's bit. A migrate trap lets the trailing streams go on first
(R236), and a missed promise alone leaves them running (R215). A cause detected while the handler runs is held. -/
def TrapSt.detect (t : TrapSt) (clk : Nat) (c : Cause) : TrapSt :=
  let first := t.phase == .none
  { t with
    phase := if first then (if c.f.code = 3 then .migrating else .freezing) else t.phase
    causes := t.causes ++ [c]
    pend := t.pend ||| (BitVec.ofNat 32 (2 ^ c.f.code))
    runOn := if first then c.f.code == 9 else (t.runOn && c.f.code == 9)
    frozenAt := if first then clk else t.frozenAt }

/-- Raises the pre-emption request in a victim's context (R85): the cause joins those detected (R218). -/
def Ctx.requestStop (c : Ctx) (clk : Nat) (kill : Bool) : Ctx :=
  c.modTrap (fun t => t.detect clk ⟨.of 0x0F (if kill then 2 else 1) 5 0 0 c.sc.pc, true⟩)

/-- The helper of a core ends silently (R113). -/
def State.endHelper (s : State) (core : Nat) : State := s.modCore core (fun k => { k with helper := none })

/-- The helper of a context that a trap freezes ends (R113). -/
def State.endHelperOf (s : State) (cid : Nat) : State :=
  match (s.core (cid / 2)).helper with
  | some h => if h.cid = cid then s.endHelper (cid / 2) else s
  | none => s

/-- TAKING AN EXCEPTION: a cause is detected in a context (R215, R218). A trap of either context of the core wakes a parked waita (R308), and
the context's helper ends. -/
def State.detect (s : State) (cid : Nat) (c : Cause) : State :=
  ((s.wakeCore cid).endHelperOf cid).modCtx cid (fun x => x.modTrap (fun t => t.detect s.clk c))

/-- A cause that its instruction or iteration raises again when it is retried. -/
def State.raise (s : State) (cid : Nat) (f : Frame) : State := s.detect cid ⟨f, false⟩

/-- A cause that no retry raises again: it is held until it is taken (R218). -/
def State.raiseOnce (s : State) (cid : Nat) (f : Frame) : State := s.detect cid ⟨f, true⟩

/-- A pre-emption request stops a context as a trap does (R85): a parked waita of the core wakes (R308), the context's helper ends. -/
def State.askStop (s : State) (cid : Nat) (kill : Bool) : State :=
  ((s.wakeCore cid).endHelperOf cid).modCtx cid (fun c => c.requestStop s.clk kill)

/-- Takes the decision against a victim: tokens, the request and the pending pre-emption. -/
def State.preempt (s : State) (e : Nat) (n : Entry) (c : Cand) (kill : Bool) (tokens : Nat) : State :=
  let q := n.record.queue
  let s := s.modSched (fun x =>
    let v := Map.getD x.queues q (.fresh q)
    { x with queues := Map.put x.queues q { v with tok := v.tok - tokens },
             preempts := x.preempts ++ [⟨some e, c.cids.filterMap (fun y => (s.ctx y).entry), kill, q, tokens⟩] })
  c.cids.foldl (fun s y => s.askStop y kill) s

/-- The decision of R84 for a newcomer, at the moments of R80. -/
def State.decision (s : State) (e : Nat) : State :=
  match s.entry e with
  | none => s
  | some n =>
    match n.hdr with
    | none => s
    | some h =>
      if n.st ≠ .ready ∨ s.groupOf e n ≠ 0 ∨ s.sched.preempts.any (fun p => p.newcomer == some e) ∨
          (List.range 512).any (fun cid => s.isFree cid && s.canPlace e n cid) then s
      else
        match s.victim n h with
        | none => s
        | some c =>
          let charge := c.cids.foldl (fun a x => a + chargeTokens (s.ctx x).hdr.charge) 0
          let tok := (s.queue n.record.queue).tok
          if c.est ≤ 20 ∨ c.pclass = 1 then s
          else if charge ≤ tok then s.preempt e n c false charge
          else if c.pclass = 3 ∧ 1 ≤ tok then s.preempt e n c true 1
          else s

/-- A record becomes ready (R73, R76, R85): a new ready time and sequence number; its header is read; it may be a newcomer
(R80). -/
def State.ready (s : State) (e : Nat) : State :=
  let s := s.modEntry e (fun v =>
    { v with st := .ready, since := s.clk, num := s.sched.nextNum, aged := 0, resv := false })
  ((s.modSched (fun q => { q with nextNum := q.nextNum + 1 })).readHdr e).decision e

/-- Enters a new record of a launch at an index: pooled or ready by its join counter (R73). -/
def State.enter (s : State) (e : Nat) (r : Record) (l : Nat) : State :=
  let v : Entry := { gen := Map.getD s.sched.gens e 0, record := r, first := r, join := r.join, launch := l, st := .pooled,
                     hdr := none, saveDone := false, since := s.clk, num := 0, prio := 0, disp := 0, aged := 0,
                     resv := false, qforce := false }
  let s := s.setEntry e v
  if r.join = 0 then s.ready e else s

/-! ## Dispatch -/

/-- The context of a task that starts (R69, R98, R105, R123). -/
def Ctx.start (t : Task) : Ctx :=
  { Ctx.fresh with
    task := some t
    sc := { Scalar.fresh with pc := word t.record.code, s := Map.put [] 1 t.record.w1 }
    sys := { SysRegs.fresh with est := t.record.est, estOld := t.record.est } }

/-- A task of a code object under code-key index 0 is a system task (R74). -/
def State.isSysCode (s : State) (a : Nat) : Bool :=
  match s.objAt a with | some (_, o) => o.keyIdx == 0 | none => false

/-- Applies a function to every running command. -/
def Engines.mapCmds (g : Engines) (f : Cmd → Cmd) : Engines :=
  { g with chans := g.chans.map (fun x => (x.1, f x.2)), array := g.array.map f, drain := g.drain.map f,
           red := g.red.map f, coll := g.coll.map f }

/-- A stopped command goes on (R221, R233): its place among the unit's commands is that of a start on this clk (R106), and its translations
are fresh (R137, R138). -/
def Cmd.goOn (clk : Nat) (m : Cmd) : Cmd := { m with start := clk, efault := none, pre := [] }

/-- The image can be read (R226, R227, R233): it is complete, no uncorrectable error has struck it, its key slot still holds the key under
which it was written, and magic and version are right. What happens to an image under another key the spec does not say: its header does not
read as one (log entry 60). -/
def State.readable (s : State) (im : Saved) : Bool :=
  !im.bad && s.slotKey im.key == im.keyName && im.keyName.isSome &&
    (match im.hdr with | some h => h.magic == 0x5A3C0001 && h.version == 1 | none => false)

/-- The context of an image, restored (R233): the commands go on, and the causes that were held are taken first (R218). -/
def Ctx.restored (c : Ctx) (t : Task) (clk : Nat) : Ctx :=
  let held := c.trap.causes
  let c := { c with task := some t }
  let c := c.modTrap (fun q =>
    { q with phase := if held = [] then .none else .freezing, frame := none, ssw := 0, runOn := false, frozenAt := clk,
             pend := held.foldl (fun b x => b ||| BitVec.ofNat 32 (2 ^ x.f.code)) 0 })
  c.modEng (fun g => g.mapCmds (fun m => { m.goOn clk with rwait := none, tab := none }))

/-- A start whose KEY slot is empty takes a protection fault before its first instruction, which is fatal (R69, R437). -/
def State.doom (s : State) (cid : Nat) : State :=
  (s.raise cid (.of 7 2 0 0 0 (s.ctx cid).sc.pc)).modCtx cid (fun c => c.modTrap (fun t => { t with doomed := true }))

/-- The helper of a core starts on the slice of a task, if the header names one and the core's helper is free (R112, R114). -/
def State.startHelper (s : State) (cid : Nat) (t : Task) : State :=
  if t.hdr.slLen ≠ 0 ∧ (s.core (cid / 2)).helper.isNone then
    let lo := (((t.record.code : Int) + 8 * t.hdr.slOff.toInt) % 2 ^ 64).toNat
    s.modCore (cid / 2) (fun k =>
      { k with helper := some { cid := cid, lo := lo, hi := lo + 8 * t.hdr.slLen,
                                sc := { (Ctx.start t).sc with pc := word lo } } })
  else s

/-- The record takes its context: it runs, its mark and the offers of it go. -/
def State.assign (s : State) (e cid : Nat) (v : Entry) : State :=
  let s := s.setEntry e { v with st := .running cid, prio := s.effPri v, disp := s.clk }
  s.modSched (fun q => { q with marks := q.marks.filter (fun m => m.2.1 != e),
                                offers := q.offers.filter (fun o => o.1 != cid && o.2 != e) })

/-- Places a ready record on a context: a task start (R69), or the restore of its saved image (R233); both are an acquire at .dom (R73,
R156). An image that cannot be read ends its task (R226). A newcomer placed elsewhere leaves its pre-emption pending (R85). -/
def State.place (s : State) (e cid : Nat) (member : Bool) : State :=
  match s.entry e with
  | none => s
  | some v =>
    let t : Task := { entry := e, launch := v.launch, record := v.record, hdr := v.hdr.getD .zero, sys := s.isSysCode v.record.code,
                      bunch := s.groupOf e v, member := member }
    let s := (s.assign e cid v).wbInv (cid / 2)
    match Map.find s.images e with
    | some im =>
      let s1 := { (s.setCtx cid (im.ctx.restored t s.clk)).wakeCore cid with images := Map.del s.images e }
      if s.readable im then s1 else s1.fatal cid 0x0B (s1.ctx cid).sc.pc
    | none =>
      let s := (s.setCtx cid (.start t)).wakeCore cid
      if (s.slotKey v.record.key).isNone then s.doom cid else s.startHelper cid t

end Sys2Proof.Machine
end

