-- ==== Sys2Proof/Machine/Ops.lean ====
section
/-! DEFINITION. What the instructions share: issuing (R101-R104), taking an exception (R215-R219), starting a handler (R214,
R216), returning from one (R221), saving a context (R233), and the accesses of the S path (R302-R304). -/

namespace Sys2Proof.Machine

/-- The three outcomes of a step of this machine. -/
abbrev Res := Host.Outcome State Fault Refusal

/-! ## Taking an exception -/

/-- The instruction word at an address, zero where it cannot be fetched (IWORD of R219). -/
def State.wordAt (s : State) (a : Word) : Word :=
  match s.fetch a.toNat 8 with
  | .bytes b => leWord b
  | .wait _ _ => 0
  | .fault _ _ => 0

/-- The bundle that holds the instruction at the program counter of the agent at the cursor, if it has been fetched. -/
def State.bundle (s : State) : Option (List Byte) :=
  match s.sca.bundle with
  | some (b, bs) => if b = s.pc.toNat / 32 then some bs else none
  | none => none

/-- The instruction of a bundle at an address. -/
def bundleWord (bs : List Byte) (a : Nat) : Word := leWord (sliceB bs (a % 32) 8)

/-- The word of the instruction at the program counter (IWORD of R219). -/
def State.curWord (s : State) : Word :=
  match s.bundle with
  | some bs => bundleWord bs s.pc.toNat
  | none => s.wordAt s.pc

/-- Fetches the instruction at the program counter of the agent at the cursor (R62, R263): an aligned bundle of four words is fetched whole,
and serves until a jump. -/
def State.fetchNext (s : State) : FRes × State :=
  let a := s.pc.toNat
  match s.bundle with
  | some bs => (.bytes (sliceB bs (a % 32) 8), s)
  | none =>
    match s.fetch (a / 32 * 32) 32 with
    | .bytes bs => (.bytes (sliceB bs (a % 32) 8), s.setSca { s.sca with bundle := some (a / 32, bs) })
    | .wait h p => (.wait h p, s)
    | .fault c d => (.fault c d, s)

/-- A handler fault or a bad resume: the service cores kill the served task with the cause, whose DETAIL the trap core keeps (R217, R222). -/
def State.serviceKill (s : State) (core cause detail : Nat) : State :=
  match (s.core core).trap.serving with
  | none => s
  | some cid =>
    let fpc := match (s.ctx cid).trap.frame with | some f => f.fpc | none => (s.ctx cid).sc.pc
    (s.fatal cid cause fpc).modCore core (fun k => { k with trap := { k.trap with serving := none, died := some (cause, detail) } })

/-- A cause raised by the instruction that the agent at the cursor issues: the S stream traps (R217), the trap core takes a
handler fault (R222), the helper ends (R113). `once` says that the access has been made, so that a retry does not raise it again. -/
def State.trapAs (s : State) (once : Bool) (code detail : Nat) (faddr : Word) : State :=
  let frame := fun (eng : Nat) => Frame.of code detail eng faddr s.curWord s.pc
  match s.cur.agent with
  | .trapCore => s.serviceKill s.myCore 0x11 code
  | .helper => s.endHelper s.myCore
  | .S => s.detect s.cur.cid ⟨frame 0, once⟩
  | .C => s.detect s.cur.cid ⟨frame 1, once⟩
  | .M => s.detect s.cur.cid ⟨frame 2, once⟩
  | .R => s.detect s.cur.cid ⟨frame 3, once⟩
  | .K => s.detect s.cur.cid ⟨frame 4, once⟩

/-- A cause whose instruction has not been performed. -/
def State.trapS (s : State) (code detail : Nat) (faddr : Word) : State := s.trapAs false code detail faddr

/-! ## Issuing -/

/-- Issues an instruction that reads `srcs` and writes `dst` after a latency: while a register is pending it waits (R96), and
with CHECK.EN the scoreboard may trap (R104). A waiting instruction leaves the state as it is. -/
def State.issue (s : State) (srcs : List Nat) (dst : Option (Nat × Nat)) (k : Res) : Res :=
  if s.held (srcs ++ (match dst with | some d => [d.1] | none => [])) then .next s
  else if s.checking then
    match s.sca.stallReg s.clk srcs dst with
    | some r => .next (s.trapS 4 r 0)
    | none => k
  else k

/-- An instruction whose whole effect is one result: register, value and latency, then the next instruction. -/
def State.result (s : State) (st : Nat) (srcs : List Nat) (rd : Nat) (v : Word) (lat : Nat) : Res :=
  s.issue srcs (some (rd, lat)) (.next ((s.res rd v lat).adv st))

/-- Issues an instruction of variable latency that reads `srcs` and writes `dsts` (R103): it waits while one of them is pending, and the
scoreboard compares only what it reads, as its results come after every earlier one. -/
def State.issueVar (s : State) (srcs dsts : List Nat) (k : Res) : Res :=
  if s.held dsts then .next s else s.issue srcs none k

/-- An instruction whose whole effect is one result of variable latency. -/
def State.resultVar (s : State) (st : Nat) (srcs : List Nat) (rd : Nat) (v : Word) : Res :=
  s.issueVar srcs [rd] (.next ((s.resVar rd v).adv st))

/-- The agent at the cursor is the trap core. -/
def State.onTrapCore (s : State) : Bool := s.cur.agent == .trapCore

/-- An instruction that only the main S stream executes: a handler fault on the trap core (R214, R287), the end of the
helper (R113). -/
def State.mainOnly (s : State) (k : Res) : Res :=
  match s.cur.agent with
  | .trapCore => .next (s.serviceKill s.myCore 0x11 1)
  | .helper => .next (s.endHelper s.myCore)
  | .S => k | .C => k | .M => k | .R => k | .K => k

/-! ## Choosing and starting a handler (R216, R218) -/

/-- The rank of a cause in the choice of CODE (R218). -/
def causeRank (code : Nat) : Nat :=
  if code = 8 then 0 else if code = 0x0B then 1 else if code = 0x0F then 100 else 1 + code

/-- The cause chosen: lowest rank, first detected. -/
def chooseCause : List Cause → Option Cause
  | [] => none
  | c :: cs =>
    match chooseCause cs with
    | none => some c
    | some d => if causeRank c.f.code ≤ causeRank d.f.code then some c else some d

/-- PEND of a list of causes. -/
def pendOf (cs : List Cause) : BitVec 32 := cs.foldl (fun b c => b ||| BitVec.ofNat 32 (2 ^ c.f.code)) 0

/-- The command stands where it may be stopped: not inside a block that is partly written (R215), and not with its last
iteration done, when it completes first (R433). A command that a fault has stopped stands at that boundary (R138). -/
def Cmd.mayStop (c : Cmd) : Bool :=
  c.efault.isSome || (c.blk.isEmpty && c.todo.isEmpty && c.stage == 0 && !c.ended)

/-- The commands that run in a context. -/
def Engines.cmds (g : Engines) : List Cmd :=
  g.chans.map Prod.snd ++ g.array.toList ++ g.drain.toList ++ g.red.toList ++ g.coll

/-- The S path of a frozen context has drained and S has no access in progress (R156, R215). -/
def Ctx.sDrained (c : Ctx) : Bool :=
  c.path.drained &&
  (match c.sc.hold with
   | .none => true | .xfence _ _ => true | .sleepu _ _ => true | .yield _ => true | .bbar _ => true | .spawn _ _ => true
   | .waita _ => false | .sc _ => false | .svc _ _ => false | .remote _ => false | .iclk _ _ _ _ => false)

/-! ## Failed writes at a switch-out (R171, R225, R434) -/

/-- The unit number of a path in a frame (R219): 1 C, 2 M, 3 R, 4 K. -/
def engOf (path : Nat) : Nat := path + 1

/-- Every write of a path to another device is acknowledged. -/
def State.pathAcked (s : State) (cid path : Nat) : Bool :=
  s.net.reqs.all (fun x => x.2.cid != cid ||
    match x.2.kind with
    | .engineStore p _ _ => p != path
    | .kput => path != 3
    | .load => true | .store => true | .atomic _ _ _ _ => true | .vamo _ _ _ _ _ _ _ _ => true
    | .waita _ _ _ _ => true | .engine _ _ _ => true | .tstb _ _ _ => true | .spawn _ => true | .pload _ _ _ => true | .notice => true
    | .refetch _ => true)

/-- The frame of a failed engine write, taken at a waiting instruction (R434, R437). -/
def WFail.frame (f : WFail) (w fpc : Word) : Frame :=
  .of (if f.key then 7 else 0x0B) (if f.key then 2 else 2 + f.link * 256) (engOf f.path) f.va w fpc

/-- Every engine write of the context is performed, and every write to another device acknowledged. -/
def State.allAcked (s : State) (cid : Nat) : Bool :=
  (s.ctx cid).path.remStores.isEmpty && (s.ctx cid).eng.wq.all (fun q => q.2.isEmpty) && (List.range 4).all (s.pathAcked cid)

/-- The frames of the failures not yet reported, as a switch-out takes them: FPC is PC.S (R437). -/
def Ctx.failFrames (c : Ctx) : List Frame :=
  c.path.fails.map (fun f => Frame.of f.cause f.detail 0 f.faddr 0 c.sc.pc) ++ c.eng.wfails.map (fun f => f.frame 0 c.sc.pc)

/-- A switch-out reports the failures not yet reported: they join the causes detected. -/
def Ctx.noteFails (c : Ctx) : Ctx :=
  let fs := c.failFrames
  let up : TrapSt → TrapSt := fun t =>
    { t with causes := t.causes ++ fs.map (fun f => ⟨f, true⟩), pend := fs.foldl (fun b f => b ||| BitVec.ofNat 32 (2 ^ f.code)) t.pend }
  ((c.modTrap up).modPath (fun p => { p with fails := [] })).modEng (fun g => { g with wfails := [] })

/-- The context's commands all stand at a boundary where they may be stopped, and none of its programs runs (R215). -/
def State.cmdsStopped (s : State) (cid : Nat) : Bool :=
  (s.ctx cid).eng.cmds.all Cmd.mayStop && (match s.portRun with | some r => r.cid != cid | none => true)

/-- A pre-emption request stands in the context: it will be switched out. -/
def Ctx.leaving (c : Ctx) : Bool := c.trap.causes.any (fun x => x.f.code == 0x0F)

/-- The context is frozen and stopped, so that its handler may start (R215, R216). -/
def State.stopped (s : State) (cid : Nat) : Bool :=
  let c := s.ctx cid
  c.trap.phase == .freezing && c.sDrained &&
    (c.trap.runOn || s.cmdsStopped cid) && (!c.leaving || s.allAcked cid)

/-- The address of the firmware default vector table (R223). -/
def firmwareTvec : Word := word (0x1F0 * 2 ^ 48 + Config.firmwareTable % 2 ^ 44 * 256)

/-- TVEC of a core: the firmware's table until the first WRSYS (R223). -/
def State.tvecOf (s : State) (core : Nat) : Word := ((s.core core).tvec).getD firmwareTvec

/-- TVEC names the firmware's table, whose handlers are the default ones (R217, R223). -/
def State.byFirmware (s : State) (core : Nat) : Bool := s.tvecOf core == firmwareTvec

/-- Handler address: word `code` of the vector table (R214), or the firmware's (log entry 7). -/
def State.handlerAt (s : State) (core code : Nat) : FRes :=
  if s.byFirmware core then .bytes (leBytes 8 firmwareTvec.toNat) else s.fetch ((s.tvecOf core).toNat + 8 * code) 8

/-- Starts the handler of a stopped context: the frame takes CODE and its fields, unchosen causes go if a retry of their instruction raises
them again and are held otherwise, TACT is cleared, and the trap core begins at the handler
(R216, R218, R219). A vector table outside every code object is a handler fault (R222). -/
def State.startHandler (s : State) (cid : Nat) : State :=
  let s := if (s.ctx cid).leaving then s.modCtx cid Ctx.noteFails else s
  let c := s.ctx cid
  match chooseCause c.trap.causes with
  | none => s
  | some ch =>
    let kept := (c.trap.causes.erase ch).filter Cause.once
    let core := cid / 2
    let s1 := s.modCtx cid (fun c => c.modTrap (fun t =>
      { t with phase := .handler, causes := kept, frame := some ch.f, pend := pendOf t.causes, ssw := 0 }))
    let start := fun (pc : Word) (fw : Bool) =>
      s1.modCore core (fun k =>
        { k with trap := { k.trap with serving := some cid, tact := 0, firmware := fw,
                                       sc := { k.trap.sc.settle s.clk with pc := pc, hold := Hold.none, pend := [], bundle := none,
                                                                            nextIssue := s.clk + 1 } } })
    match s.handlerAt core ch.f.code with
    | .bytes b => start (leWord b) (s.byFirmware core)
    | .wait _ _ => s
    | .fault code _ => (start 0 false).serviceKill core 0x11 code

/-! ## Saving a context (R233) -/

/-- The matrix sets or the saved matrix command are class-Q state (R233). -/
def Engines.needsQ (g : Engines) : Bool :=
  let l6 : MatSet → Bool := fun m => bitsOf m.mctl 3 0 == 5 || bitsOf m.mctl 7 4 == 5
  let dgo := match g.array with | some c => bitsOf c.ent.w 57 50 == 0x0B && bitsOf c.ent.w 63 61 == 2 | none => false
  l6 g.matNest || l6 g.matActive || dgo

/-- Takes a saved member out of its placed bunch, without a change of the member count; with the last one the cluster memory goes
into an image (R238). -/
def State.parkMember (s : State) (cid : Nat) : State :=
  match (s.ctx cid).task with
  | none => s
  | some t =>
    if !t.member then s
    else
      match s.bunch t.bunch with
      | none => s
      | some b =>
        let ms := b.members.filter (fun m => m != cid)
        let b1 := { b with members := ms, arrived := b.arrived.filter (fun m => m != cid) }
        if ms = [] then (s.parkClus (clusterOf (cid / 2)) t.bunch).setBunch t.bunch { b1 with placed := none }
        else s.setBunch t.bunch b1

/-- The member index of a context in the bunch of its cluster (R78). -/
def memberIdx (cid : Nat) : Nat := cid / 2 % 4 + 4 * (cid % 2)

/-- What a save does with a held instruction (R436): one that runs again is not held in the image, a barrier's arrival stands, a yield counts as
complete. The others are done before. -/
def Hold.saved (h : Hold) : Hold :=
  match h with
  | .bbar g => .bbar g
  | .xfence n o => .xfence n o
  | .none => .none | .sleepu _ _ => .none | .yield _ => .none | .spawn _ _ => .none
  | .waita w => .waita w | .sc a => .sc a | .svc n as => .svc n as | .remote i => .remote i | .iclk r h a n => .iclk r h a n

/-- The binding points whose lane-private memory an image holds: a slot is bound there and some of it has been written (R230). -/
def Ports.savedPts (p : Ports) : List Nat := p.lpmW.filter (fun b => p.slots.any (fun x => x.2.bound == some b))

/-- Only the lane-private memory that an image holds comes back (R230). -/
def Ports.saved (p : Ports) : Ports :=
  { p with lpm := p.lpm.filter (fun x => p.savedPts.contains (x.1 / 131072)), lpmW := p.savedPts }

/-- A context whose image is being written: it holds its task and resources, and runs nothing. -/
def Ctx.husk (t : Task) : Ctx :=
  { Ctx.fresh with task := some { t with member := false }, trap := { TrapSt.fresh with phase := .frozen } }

/-- Saves a stopped context as an image (R233). `reason` is that of R227; a migration sets QREQ and counts
(R237). The image is complete, and the context released, when SAVE_COMPLETE says so. -/
def State.save (s : State) (cid reason : Nat) : State :=
  match (s.ctx cid).task with
  | none => s
  | some t =>
    let s := (s.flushWq cid).wbInv (cid / 2)
    let c := (s.ctx cid).noteFails
    let v := s.entry t.entry
    let mig : Bool := reason == 1 || (match v with | some v => v.qforce | none => false)
    let rec0 := t.record.setEst c.sys.est
    let rec1 := if mig || c.eng.needsQ || t.record.qreq then rec0.setQreq else rec0
    let c := if mig then c.modSys (fun y => { y with migcount := min 0xFFFF (y.migcount + 1) }) else c
    let c := c.modTrap (fun x => { x with causes := x.causes.filter (fun y => y.f.code != 0x0F) })
    let c := c.modSc (fun q => { q.settle (s.clk + 64) with boundSince := none, hold := q.hold.saved, bundle := none })
    let c := c.modPorts Ports.saved
    let img : Saved :=
      { ctx := { c with task := some { t with record := rec1 } }, reason := if mig then 1 else reason, cls := classQ (cid / 2),
        index := memberIdx cid, key := t.record.key, keyName := s.slotKey t.record.key, hdr := none, bad := false, clus := [], clusW := [] }
    let s := { s with images := Map.put s.images t.entry img }
    let s := ((s.parkMember cid).vacate cid).setCtx cid (.husk t)
    s.modEntry t.entry (fun v => { v with st := .saved, record := rec1, saveDone := false, qforce := false })

/-- The OP field of a command's word. -/
def Cmd.op (m : Cmd) : Nat := bitsOf m.ent.w 57 50

/-- The ring that a command names: fn bits 27:24 (R365). -/
def Cmd.ring (m : Cmd) : Nat := bitsOf m.ent.w 27 24

/-- Buckets that a running KALLRED or KBCAST has numbered on its ring. -/
def Cmd.numbered (m : Cmd) : Nat := if m.op = 2 ∨ m.op = 3 then m.ent.b.toNat else 0

/-- A kill gives back the bucket numbers of the context's commands that are the last of their ring, so that the task takes them again when
it runs anew (R372; log entry 20). -/
def State.rewindRings (s : State) (cid : Nat) : State :=
  (s.ctx cid).eng.coll.reverse.foldl (fun s m =>
    match Map.find (s.coll m.die).rings m.ring with
    | some r =>
      if m.numbered ≠ 0 ∧ r.next = m.numBase + m.numbered then
        s.setColl m.die { s.coll m.die with rings := Map.put (s.coll m.die).rings m.ring { r with next := m.numBase } }
      else s
    | none => s) s

/-- The record as originally dispatched; QREQ stays set once a save or a migration has set it (R233). -/
def Entry.again (v : Entry) : Record := if v.record.qreq then v.first.setQreq else v.first

/-- Stops a task whose record, as originally dispatched, enters its queue again (REQUEUE, R221; kill, R85). -/
def State.requeue (s : State) (cid : Nat) : State :=
  match (s.ctx cid).task with
  | none => s
  | some t =>
    -- the bunch of a killed member holds it no longer
    let s := (s.rewindRings cid).releaseCtx cid
    (s.modEntry t.entry (fun v => { v with record := v.again })).ready t.entry

/-- What becomes of a pre-emption when its victim is switched out by it (R85): the freed context is offered to the newcomer
first, and the decision is over once every victim has gone. -/
def State.victimGone (s : State) (e cid : Nat) : State :=
  match s.sched.preempts.find? (fun p => p.victims.contains e) with
  | none => s
  | some p =>
    let rest := p.victims.filter (fun v => v != e)
    let others := s.sched.preempts.filter (fun q => !q.victims.contains e)
    (s.offer cid p).modSched (fun q =>
      { q with preempts := if rest = [] then others else others ++ [{ p with victims := rest, tokens := 0 }] })

/-- A victim is stopped by its trap: the tokens of the decision stand (R87). -/
def State.standTokens (s : State) (e : Nat) : State :=
  s.modSched (fun q => { q with preempts := q.preempts.map (fun p => if p.victims.contains e then { p with tokens := 0 } else p) })

/-- A pre-emption is void, its tokens come back (R87). -/
def State.voidPreempt (s : State) (e : Nat) : State :=
  match s.sched.preempts.find? (fun p => p.victims.contains e) with
  | none => s
  | some p =>
    (s.modSched (fun q => { q with preempts := q.preempts.filter (fun x => !x.victims.contains e) })).refund p.queue
      p.tokens

/-! ## Returning from a handler (R221) -/

/-- Frees the trap core. -/
def State.endServe (s : State) (core : Nat) : State :=
  s.modCore core (fun k => { k with trap := { k.trap with serving := none } })

/-- The trap state after RESUME: unfrozen, or frozen again by the causes that were held (R218). -/
def TrapSt.resumed (t : TrapSt) (clk : Nat) : TrapSt :=
  { t with phase := if t.causes = [] then .none else .freezing, frame := none, pend := pendOf t.causes, ssw := 0,
           runOn := !t.causes.isEmpty && t.causes.all (fun c => c.f.code == 9), frozenAt := clk }

/-- S goes on after the instruction at PC.S (SKIP, R221). -/
def Scalar.skip (q : Scalar) : Scalar := { q with pc := q.pc + 8, seq := q.seq + 1, hold := .none }

/-- RESUME: S goes on at PC.S, or after it with SKIP; the commands that were stopped go on, and those that ran on are left as they are
(R221). Frozen time does not count for the watchdog (R100, R216). -/
def State.resume (s : State) (cid : Nat) (skip : Bool) : State :=
  s.modCtx cid (fun c =>
    let frozen := s.clk - c.trap.frozenAt
    let ran := c.trap.runOn
    let c := (c.modTrap (fun t => t.resumed s.clk)).modEng (fun g =>
      g.mapCmds (fun m => if ran || !m.mayStop then m else m.goOn s.clk))
    let c := if skip then c.modSc Scalar.skip else c
    c.modSc (fun q => { q with bundle := none, nextIssue := max q.nextIssue (s.clk + 1), boundSince := q.boundSince.map (fun b => b + frozen) }))

/-- A pending kill of a member becomes a checkpoint, as the member goes with its bunch (R87, R238). -/
def Ctx.keep (c : Ctx) : Ctx :=
  let f : Frame → Frame := fun f => if f.code = 0x0F then { f with detail := 1 } else f
  c.modTrap (fun t => { t with causes := t.causes.map (fun x => { x with f := f x.f }), frame := t.frame.map f })

/-- The other members of a bunch go with one that is switched out (R111, R238): each is stopped and saved, with QREQ if the
bunch migrates. -/
def State.stopOthers (s : State) (cid : Nat) (mig : Bool) : State :=
  ((s.standsFor cid).filter (fun x => x != cid)).foldl (fun s x =>
    let s := match (s.ctx x).entry with
      | some e => s.modEntry e (fun v => { v with qforce := v.qforce || mig })
      | none => s
    let going := (s.ctx x).leaving || (match (s.ctx x).trap.frame with | some f => f.code == 0x0F | none => false)
    if going then s.modCtx x Ctx.keep else s.askStop x false) s

/-- MIGRATE (R237, R238): the context is saved with reason 1; the other members of its bunch are stopped to go with it. -/
def State.migrate (s : State) (cid : Nat) : State :=
  match (s.ctx cid).task with
  | none => s
  | some t => (((s.voidPreempt t.entry).stopOthers cid true).save cid 1)

/-- What TRET finds at PC.S when SKIP is set (R221): a word of S, another word or none, or a page still to be loaded. -/
inductive SkipWord
  | stream | other | waits
  deriving DecidableEq, Repr

def State.skipWord (s : State) (cid : Nat) : SkipWord :=
  match s.fetch (s.ctx cid).sc.pc.toNat 8 with
  | .bytes b => if bitsOf (leWord b) 63 61 = 0 then .stream else .other
  | .fault _ _ => .other
  | .wait _ _ => .waits

/-- TRET on the trap core (R221). -/
def State.tret (s : State) (core : Nat) : State :=
  match (s.core core).trap.serving with
  | none => s
  | some cid =>
    let c := s.ctx cid
    match c.trap.frame with
    | none => s.endServe core
    | some f =>
      let act0 := bitsOf (s.core core).trap.tact 2 0
      let skip := bitOf c.trap.ssw 0
      if bitsOf c.trap.ssw 63 1 ≠ 0 then s.serviceKill core 0x10 1
      else if 4 < act0 then s.serviceKill core 0x10 2
      else if skip && (s.skipWord cid == .other || f.code == 3 || f.code == 0x0F) then s.serviceKill core 0x10 3
      else if skip && s.skipWord cid == .waits then s
      else
        let act := if f.code = 0x0F then (if f.detail = 1 then 1 else 4) else act0
        let act := if f.code = 2 ∨ f.code = 8 ∨ (f.code = 0x0B ∧ f.eng = 0) ∨ c.trap.doomed then 3 else act
        if (act = 1 ∨ act = 2) ∧ 4 ≤ f.code ∧ f.code ≤ 7 ∧ f.eng = 0 then s.serviceKill core 0x10 5
        else if act = 2 ∧ classQ core then s.serviceKill core 0x10 4
        else
          let e := c.entry.getD 0
          if act = 0 then (s.endServe core).resume cid skip
          -- before another action the commands that run on stop at their boundaries (R215), and a switch-out awaits the
          -- acknowledgements (R171, R434)
          else if !s.cmdsStopped cid || (act ≠ 3 && !s.allAcked cid) then s.modCtx cid (fun c => c.modTrap (fun t => { t with runOn := false }))
          else
            let s := s.endServe core
            let s := if skip then s.modCtx cid (fun c => c.modSc Scalar.skip) else s
            if act = 1 then
              let s := if f.code = 0x0F then s else s.stopOthers cid false
              let s := s.save cid (if f.code = 0x0F then 0 else 2)
              if f.code = 0x0F then s.standTokens e else s.voidPreempt e
            else if act = 2 then s.migrate cid
            else if act = 3 then s.fatal cid f.code f.fpc
            else
              let s := (s.modCtx cid (fun c => c.modTrap (fun t => { t with causes := [] }))).requeue cid
              if f.code = 0x0F then s.victimGone e cid else s.voidPreempt e

/-! ## The S path's accesses (R302-R304) -/

/-- The checks of an access before it is made: alignment (R140), translation and permission; then the place. -/
def State.access (s : State) (want : Want) (ea : Word) (align : Nat) (k : Place → Res) : Res :=
  if ea.toNat % align ≠ 0 then .next (s.trapS 5 align ea)
  else
    match s.xlat s.cur.cid s.onTrapCore want ea with
    | .fault c d => .next (s.trapS c d ea)
    | .ok p => k p

/-- A load destination becomes pending (R103). -/
def State.setPend (s : State) (r : Nat) : State :=
  if r = 0 then s else s.setSca { s.sca with pend := s.sca.pend ++ [r] }

/-- A pending register gets its value (R103). -/
def Scalar.arrive (sc : Scalar) (clk r : Nat) (v : Word) : Scalar :=
  { (sc.resultVar clk r v) with pend := sc.pend.filter (fun p => p != r) }

/-- An instruction that waits for the S path to drain and for remote acknowledgements (R146, R170): its effect then, or the
report of an earlier access that failed (R171, R225). `ack` says that acknowledgements are awaited. -/
def State.whenDrained (s : State) (ack : Bool) (k : Res) : Res :=
  let c := s.me
  if !c.path.drained || (ack && !c.path.remStores.isEmpty) then .next s
  else
    match c.path.fails with
    | [] => k
    | f :: fs =>
      .next ((s.modMe (fun c => c.modPath (fun p => { p with fails := fs }))).trapAs true f.cause f.detail f.faddr)

end Sys2Proof.Machine
end

