-- ==== Sys2Proof/Machine/Operands.lean ====
section
/-! DEFINITION. Operand forms: the width rule (R288), conditions (R266, R292), field descriptors (R291), addresses (R302,
R309), branch targets (R299) and destinations that may be predicates (R292, R296). -/

namespace Sys2Proof

/-- Width in bits of a width class (R288). -/
def Width.bits : Width → Nat
  | .d => 64
  | .w => 32

/-- A source as an unsigned number of its width (R288). -/
def Width.uns (wd : Width) (x : Word) : Nat := x.toNat % 2 ^ wd.bits

/-- A source as a signed number of its width (R288). -/
def Width.sgn (wd : Width) (x : Word) : Int :=
  match wd with
  | .d => x.toInt
  | .w => (Machine.sextN 32 x).toInt

/-- A result at a width: the low w bits, at .w sign-extended (R288). -/
def Width.out (wd : Width) (v : Word) : Word :=
  match wd with
  | .d => v
  | .w => Machine.sextN 32 v

/-- An exact integer result at a width. -/
def Width.ofInt (wd : Width) (i : Int) : Word := wd.out (BitVec.ofInt 64 i)

/-- An unsigned result at a width. -/
def Width.nat (wd : Width) (n : Nat) : Word := wd.out (BitVec.ofNat 64 n)

/-- A shift count from a register (R289). -/
def Width.count (wd : Width) (b : Word) : Nat := b.toNat % wd.bits

/-- A condition on two values at a width: signed for eq to ge, unsigned for ltu to geu (R292). -/
def Cond.holds (c : Cond) (wd : Width) (a b : Word) : Bool :=
  match c with
  | .eq => decide (wd.uns a = wd.uns b)
  | .ne => decide (wd.uns a ≠ wd.uns b)
  | .lt => decide (wd.sgn a < wd.sgn b)
  | .le => decide (wd.sgn a ≤ wd.sgn b)
  | .gt => decide (wd.sgn b < wd.sgn a)
  | .ge => decide (wd.sgn b ≤ wd.sgn a)
  | .ltu => decide (wd.uns a < wd.uns b)
  | .leu => decide (wd.uns a ≤ wd.uns b)
  | .gtu => decide (wd.uns b < wd.uns a)
  | .geu => decide (wd.uns b ≤ wd.uns a)

namespace Machine

/-- The value of a condition as a result: 1 or 0 (R292). -/
def boolWord (b : Bool) : Word := if b then 1 else 0

/-- The register number of a destination that names a predicate when `pk` is set (R292). -/
def dstPk (pk : Bool) (rd : Nat) : Nat := if pk then 64 + rd else rd

/-- Leading zero bits of an n-bit number (R289). -/
def clzN (n v : Nat) : Nat := if v = 0 then n else n - 1 - Nat.log2 v

/-- Set bits among the low n bits of a number (R289). -/
def popcN : Nat → Nat → Nat
  | 0, _ => 0
  | n + 1, v => v % 2 + popcN n (v / 2)

/-- lo and n of a field descriptor (R291). -/
def fieldLo (x : Word) : Nat := bitsOf x 5 0
def fieldLen (x : Word) : Nat := min (bitsOf x 14 8) 64

/-- bext (R291). -/
def bextVal (a d : Word) : Word := word (a.toNat / 2 ^ fieldLo d % 2 ^ fieldLen d)

/-- The mask of a field descriptor (R291). -/
def fieldMask (d : Word) : Word := word ((2 ^ fieldLen d - 1) * 2 ^ fieldLo d)

/-- bins (R291). -/
def binsVal (a b d : Word) : Word := (a &&& ~~~(fieldMask d)) ||| ((b <<< fieldLo d) &&& fieldMask d)

/-- div and rem, signed (R290). -/
def divS (wd : Width) (a b : Word) : Word :=
  if wd.sgn b = 0 then BitVec.allOnes 64 else wd.ofInt ((wd.sgn a).tdiv (wd.sgn b))

def remS (wd : Width) (a b : Word) : Word :=
  if wd.sgn b = 0 then wd.out a else wd.ofInt ((wd.sgn a).tmod (wd.sgn b))

/-- divu and remu (R290). -/
def divU (wd : Width) (a b : Word) : Word :=
  if wd.uns b = 0 then BitVec.allOnes 64 else wd.nat (wd.uns a / wd.uns b)

def remU (wd : Width) (a b : Word) : Word :=
  if wd.uns b = 0 then wd.out a else wd.nat (wd.uns a % wd.uns b)

/-- Shifts by n, logical and arithmetic at the width (R289). -/
def shlW (wd : Width) (a : Word) (n : Nat) : Word := wd.out (a <<< n)
def shrW (wd : Width) (a : Word) (n : Nat) : Word := wd.nat (wd.uns a / 2 ^ n)
def sraW (wd : Width) (a : Word) (n : Nat) : Word := wd.ofInt (wd.sgn a / 2 ^ n)

/-- The immediate of format SI: sign-extended (R293). -/
def immX (imm : BitVec 32) : Word := imm.signExtend 64

/-- lih (R293). -/
def lihVal (old : Word) (imm : BitVec 32) : Word := word (imm.toNat * 2 ^ 32 + old.toNat % 2 ^ 32)

/-- ea of ld, st, pref and waita (R302). -/
def State.eaOff20 (s : State) (ra : Nat) (off : BitVec 20) : Word := s.r ra + off.signExtend 64

/-- ea of amo, cas and vamo (R309). -/
def State.eaOff14 (s : State) (ra : Nat) (off : BitVec 14) : Word := s.r ra + off.signExtend 64

/-- ea of mred and vmred (R309). -/
def State.eaOff8 (s : State) (ra : Nat) (off : BitVec 8) : Word := s.r ra + off.signExtend 64

/-- ea of ldx and stx (R302). -/
def State.eaIdx (s : State) (ra rb : Nat) : Word := s.r ra + s.r rb

/-- A relative target (R299). -/
def State.target (s : State) (off : BitVec 26) : Word := s.pc + 8 * off.signExtend 64

end Machine

end Sys2Proof
end

