-- ==== Sys2Proof/Machine/Memory.lean ====
section
/-! DEFINITION. Loads, stores, prefetch, waita, mark and fence (R302-R308). A load or store enters its queue and is performed
by a later event (R144); an .sc access holds S until its wheel clk (R165; log entry 10). -/

namespace Sys2Proof.Machine

/-- An .sc access becomes wheel-ready once its release part of R152 is complete (R165): it holds S from then on. -/
def State.holdSc (s : State) (st : Nat) (kind : ScKind) (p : Place) (ea : Word) (n : Nat) : Res :=
  s.whenDrained true (.next ((s.wbAll s.myCore).park (.sc ⟨kind, p, ea, n, s.pc, none⟩) st))

/-- Sends a request of an instruction that has issued and waits for its answer (R169). -/
def State.holdRemote (s : State) (dev key : Nat) (r : RemoteReq) (kind : RemKind) (ea : Word) : State :=
  (s.send dev key r ⟨s.cur.cid, dev, kind, ea, s.pc, s.sca.seq, 0⟩).setSca { s.sca with hold := .remote s.reqId }

/-- Issues an instruction whose effect is a request to another device: S is held for the answer (R101, R102, R169). -/
def State.parkRemote (s : State) (st dev key : Nat) (r : RemoteReq) (kind : RemKind) (ea : Word) : State :=
  (s.park .none st).holdRemote dev key r kind ea

/-- The operands of a load. -/
structure LoadOp where
  (st rt : Nat) (z : Size) (ord : Ord) (scope : Scope) (sx : Bool) (hint : Hint)
  deriving DecidableEq, Repr

/-- A load of the main S stream enters the load queue; its destination is pending until the value arrives (R103, R144). -/
def State.queueLoad (s : State) (o : LoadOp) (p : Place) (ea : Word) : State :=
  let e : LdEnt := { rd := o.rt, place := p, va := ea, size := sizeBytes o.z, sx := o.sx, ord := o.ord, scope := o.scope,
                     hint := o.hint, pc := s.pc, seq := s.sca.seq, req := none }
  ((s.modMe (fun c => c.modPath (fun q => { q with loads := q.loads ++ [e] }))).setPend o.rt).adv o.st

/-- What a load does in L1 (R143, R304): it fills its line where the page is cached there and the hint admits it, and .lu marks the line. -/
def State.loadL1 (s : State) (core : Nat) (p : Place) (h : Hint) (fill : Bool) : State :=
  match p.pa? with
  | some (pa, key) =>
    if p.cached then ((if fill && h.allocL1 then s.l1Fill core pa key else s).l1Mark core pa (h == .lu)) else s
  | none => s

/-- A load that completes within its step: on the trap core (R214) and in the helper (R112). -/
def State.loadNow (s : State) (o : LoadOp) (p : Place) : State :=
  let n := sizeBytes o.z
  let s := s.loadL1 s.myCore p o.hint true
  let v := leWord (s.loadBytes s.cur.cid p n true)
  let s := if o.ord = .acq then s.acquire s.cur.cid o.scope else s
  (s.resVar o.rt (extend o.sx n v)).adv o.st

/-- A load on the trap core (R214): another device's memory is asked for, and a unit in error is a handler fault (R222, R226). -/
def State.loadTrap (s : State) (o : LoadOp) (p : Place) (ea : Word) : State :=
  let n := sizeBytes o.z
  match p.dev? with
  | some (dev, pa, key) =>
    s.parkRemote o.st dev key (.load pa n) (.atomic o.rt n o.sx (if o.ord = .acq then some o.scope else none)) ea
  | none => if s.poisoned p n then s.trapS 0x0B p.errDetail ea else (s.sRead s.myCore p n).loadNow o p

/-- The helper may load a place: a page cached in L2, of the own device (R113). -/
def Place.forHelper : Place → Bool
  | .loc _ _ cl _ => cl != 2
  | .spad _ _ => true | .clus _ _ => true | .chip _ _ => true
  | .wst _ _ => false | .flash _ => false | .remote _ _ _ => false | .host _ _ => false | .trapMem _ _ => false

/-- The helper ends at a load that is not .rlx, that would fault, or that names what R113 excludes. -/
def State.loadHelper (s : State) (o : LoadOp) (p : Place) : State :=
  if p.forHelper && o.ord == .rlx && !s.poisoned p (sizeBytes o.z) then s.loadNow o p else s.endHelper s.myCore

/-- ld and ldx (R302-R304): the checks at issue, then by the agent and the ordering. -/
def State.loadOp (s : State) (o : LoadOp) (srcs : List Nat) (ea : Word) : Res :=
  s.issueVar srcs [o.rt]
    (s.access (if o.ord = .sc then .scLoad else .load) ea (sizeBytes o.z) (fun p =>
      let s := s.noteXlat s.cur.cid ea
      if s.cur.agent = .helper then .next (s.loadHelper o p)
      else if o.ord = .sc then
        if p.isRemote then .next (s.trapS 7 3 ea) else s.holdSc o.st (.load o.rt o.sx) p ea (sizeBytes o.z)
      else if s.onTrapCore then .next (s.loadTrap o p ea)
      else .next (s.queueLoad o p ea)))

/-- ld (R302, R303). -/
def execLd (o : LdF) (s : State) : Res :=
  s.loadOp ⟨o.st, o.rt, o.size, o.ord, o.scope, o.sx, o.hint⟩ [o.ra] (s.eaOff20 o.ra o.off)

/-- ldx (R302, R303). -/
def execLdx (o : LdxF) (s : State) : Res :=
  s.loadOp ⟨o.st, o.rt, o.size, o.ord, o.scope, o.sx, o.hint⟩ [o.ra, o.rb] (s.eaIdx o.ra o.rb)

/-- The operands of a store. -/
structure StoreOp where
  (st : Nat) (v : Word) (z : Size) (ord : Ord) (scope : Scope) (hint : Hint)
  deriving DecidableEq, Repr

/-- The store-queue entry of a store (R144). -/
def State.storeEnt (s : State) (o : StoreOp) (p : Place) (ea : Word) : StEnt :=
  { kind := .store (zextN (8 * sizeBytes o.z) o.v), place := p, va := ea, size := sizeBytes o.z, ord := o.ord,
    scope := o.scope, hint := o.hint, pc := s.pc, seq := s.sca.seq, sent := [] }

/-- A store of the main S stream enters the store queue. -/
def State.queueStore (s : State) (o : StoreOp) (p : Place) (ea : Word) : State :=
  (s.modMe (fun c => c.modPath (fun q => { q with stores := q.stores ++ [s.storeEnt o p ea] }))).adv o.st

/-- The helper stores nothing (R113). -/
def State.notHelperSt (s : State) (k : Res) : Res :=
  if s.cur.agent = .helper then .next (s.endHelper s.myCore) else k

/-- st and stx (R302-R304). -/
def State.storeOp (s : State) (o : StoreOp) (srcs : List Nat) (ea : Word) : Res :=
  s.notHelperSt
    (s.issue srcs none
      (s.access (if o.ord = .sc then .scStore else .store) ea (sizeBytes o.z) (fun p =>
        let s := s.noteXlat s.cur.cid ea
        if o.ord = .sc then
          if p.isRemote then .next (s.trapS 7 3 ea)
          else s.holdSc o.st (.store (zextN (8 * sizeBytes o.z) o.v)) p ea (sizeBytes o.z)
        else if s.onTrapCore then
          let k : Res := .next ((s.perform s.cur.cid (s.storeEnt o p ea) false).adv o.st)
          -- every earlier store of the agent is performed before it (R144)
          if o.ord = .rel then s.whenDrained true k else if s.me.path.remStores.isEmpty then k else .next s
        else .next (s.queueStore o p ea))))

/-- st (R302, R303). -/
def execSt (o : StF) (s : State) : Res :=
  s.storeOp ⟨o.st, s.r o.rt, o.size, o.ord, o.scope, o.hint⟩ [o.ra, o.rt] (s.eaOff20 o.ra o.off)

/-- stx (R302, R303). -/
def execStx (o : StxF) (s : State) : Res :=
  s.storeOp ⟨o.st, s.r o.rt, o.size, o.ord, o.scope, o.hint⟩ [o.ra, o.rb, o.rt] (s.eaIdx o.ra o.rb)

/-- The length of pref's run (R306). -/
def prefLen : Size → Nat
  | .b => 64 | .h => 256 | .w => 1024 | .d => 4096

/-- The size of the page of an address, 64 KiB where it has none. -/
def State.pageSize (s : State) (cid va : Nat) : Nat :=
  match s.leafFor (cid / 2) (s.ptroot (s.ctx cid).launch) va with
  | .leaf _ z => z
  | .fault _ _ => 2 ^ 16

/-- What pref does to the caches: with .nh or .lu it fills the run's lines in L1 when the page's CL is L1+L2, up to the end
of the page. L2 contents are not visible (R134). It is dropped where it would fault or names another place (R306). -/
def State.prefetch (s : State) (ea : Word) (z : Size) (h : Hint) : State :=
  match s.xlat s.cur.cid s.onTrapCore .load ea with
  | .fault _ _ => s
  | .ok p =>
    match p.pa? with
    | none => s
    | some (pa, key) =>
      let s := s.noteXlat s.cur.cid ea
      if p.cached && h.allocL1 then
        let a := ea.toNat / 64 * 64
        let page := s.pageSize s.cur.cid ea.toNat
        let stop := min (a + prefLen z) (a / page * page + page)
        (List.range ((stop - a) / 64)).foldl (fun s i =>
          let b := pa / 64 * 64 + 64 * i
          (s.l1Fill s.myCore b key).l1Mark s.myCore b (h == .lu)) s
      else s

/-- The helper's prefetch that would fault, or names what R113 lists, ends it. -/
def State.prefEnds (s : State) (ea : Word) : Bool :=
  match s.xlat s.cur.cid false .load ea with
  | .fault _ _ => true
  | .ok p => !p.forHelper

/-- pref (R306). -/
def execPref (o : PrefF) (s : State) : Res :=
  let ea := s.eaOff20 o.ra o.off
  match s.cur.agent with
  | .trapCore => .next (s.serviceKill s.myCore 0x11 1)
  | .helper =>
    s.issue [o.ra] none
      (if s.prefEnds ea then .next (s.endHelper s.myCore) else .next ((s.prefetch ea o.size o.hint).adv o.st))
  | .S => s.issue [o.ra] none (.next ((s.prefetch ea o.size o.hint).adv o.st))
  | .C => s.issue [o.ra] none (.next ((s.prefetch ea o.size o.hint).adv o.st))
  | .M => s.issue [o.ra] none (.next ((s.prefetch ea o.size o.hint).adv o.st))
  | .R => s.issue [o.ra] none (.next ((s.prefetch ea o.size o.hint).adv o.st))
  | .K => s.issue [o.ra] none (.next ((s.prefetch ea o.size o.hint).adv o.st))

/-! ## waita (R307, R308) -/

/-- A read of a waita has given a value: the acquire part of its ordering; then S parks when the first read holds the expected value and the
timeout is not 0, and else rt gets the value and S goes on. -/
def State.waitaGot (s : State) (w : WaitaSt) (expect tmo : Word) (second : Bool) (v : Word) : State :=
  let s := if ordAcq w.ord then s.acquire s.cur.cid w.scope else s
  if !second && v == expect && tmo != 0 then s.setSca { s.sca with hold := .waita w }
  else (s.resVar w.rt (extend w.sx w.size v)).go

/-- The read of a waita that has issued, at its point of coherence: the core's L1 copy is written back and invalidated first. -/
def State.waitaRead (s : State) (w : WaitaSt) (expect tmo : Word) (second : Bool) : State :=
  let s := s.flushPlace s.myCore w.place
  if s.poisoned w.place w.size then (s.setSca { s.sca with hold := .none }).trapAs true 0x0B w.place.errDetail w.va
  else
    (s.sRead s.myCore w.place w.size).waitaGot w expect tmo second (leWord (s.rd (s.ctx s.cur.cid).launch w.place w.size))

/-- waita (R307). -/
def execWaita (o : WaitaF) (s : State) : Res :=
  s.mainOnly
    (let ea := s.eaOff20 o.ra o.off
     let n := sizeBytes o.size
     s.issueVar [o.ra, o.rb, o.rt] [o.rt]
       (s.access (if o.ord = .sc then .scLoad else .wait) ea n (fun p =>
           let s := s.noteXlat s.cur.cid ea
           let tmo := s.r o.rt
           let expect := zextN (8 * n) (s.r o.rb)
           let w : WaitaSt := { rt := o.rt, size := n, sx := o.sx, ord := o.ord, scope := o.scope, place := p, va := ea,
                                deadline := s.clk + tmo.toNat, woken := false, pc := s.pc }
           if o.ord = .sc then
             if p.isRemote then .next (s.trapS 7 3 ea)
             else s.holdSc o.st (.waita o.rt o.sx expect (if tmo = 0 then 0 else s.clk + tmo.toNat) false) p ea n
           else if !s.me.path.loads.isEmpty || s.me.path.stores.any (fun e => p.meets n e.place e.size) then .next s
           else
             match p.dev? with
             | some (dev, pa, key) => .next (s.parkRemote o.st dev key (.watch pa n) (.waita w expect tmo false) ea)
             | none => .next ((s.park .none o.st).waitaRead w expect tmo false))))

/-! ## mark and fence (R147, R153, R305) -/

/-- mark (R147): every earlier access is performed or lodged. It takes no error. -/
def execMark (o : R0) (s : State) : Res := s.mainOnly (if s.me.path.acked then .next (s.adv o.st) else .next s)

/-- fence (R153): the release part writes L1 back, the acquire part also invalidates it; at .core it is mark. An earlier
store that failed is reported here (R171). -/
def execFence (o : FenceF) (s : State) : Res :=
  s.mainOnly
    (s.whenDrained true
      (let s := if ordRel o.ord then s.release s.cur.cid o.scope else s
       let s := if ordAcq o.ord then s.acquire s.cur.cid o.scope else s
       .next (s.adv o.st)))

end Sys2Proof.Machine
end

