-- ==== Sys2Proof/Machine/Atomics.lean ====
section
/-! DEFINITION. Atomics and memory reductions (R309-R315). An atomic is performed once the S path has drained (R146); a
memory reduction enters the store queue. -/

namespace Sys2Proof.Machine

/-- Four results to the registers rt to rt + 3; rt = 0 returns nothing. -/
def State.res4 (s : State) (rt : Nat) (vs : List Word) : State :=
  if rt = 0 then s
  else (List.range 4).foldl (fun s j => s.resVar (rt + j) ((vs[j]?).getD 0)) s

/-- The checks of R309 for an atomic, then by its place: .sc holds for the wheel, another device gets a request, and a local
access is made once the S path has drained. -/
def State.atomicOp (s : State) (want : Want) (srcs dsts : List Nat) (ea : Word) (align : Nat) (od : Ord) (scp : Scope)
    (st : Nat) (sc : ScKind) (remote : Nat → Nat → Nat → State → State) (here : Place → State → State) : Res :=
  s.mainOnly
    (s.issueVar srcs dsts
      (s.access want ea align (fun p =>
        let s := s.noteXlat s.cur.cid ea
        if od = .sc then
          if p.isRemote then .next (s.trapS 7 3 ea) else s.holdSc st sc p ea align
        else
          s.whenDrained true
            (let s := if ordRel od then s.release s.cur.cid scp else s
             match p.dev? with
             | some (dev, pa, key) => .next (remote dev pa key s)
             | none =>
               let s := s.flushPlace s.myCore p
               if s.poisoned p align then .next (s.trapAs true 0x0B p.errDetail ea)
               else
                 let s := here p s
                 .next (if ordAcq od then s.acquire s.cur.cid scp else s)))))

/-- The scope of the acquire part of an ordering, if it has one. -/
def acqScope (od : Ord) (scp : Scope) : Option Scope := if ordAcq od then some scp else none

/-- amo (R310). -/
def execAmo (o : AmoF) (s : State) : Res :=
  let n := amoBytes o.wide
  let ea := s.eaOff14 o.ra o.off
  let b := s.r o.rb
  s.atomicOp (if o.ord = .sc then .scAtomic else .atomic) [o.ra, o.rb] [o.rt] ea n o.ord o.scope o.st (.amo o.op o.rt b)
    (fun dev pa key s => s.parkRemote o.st dev key (.amo o.op pa o.wide b) (.atomic o.rt n true (acqScope o.ord o.scope)) ea)
    (fun p s =>
      let r := s.amoAt s.cur.cid p n o.op b
      (r.2.resVar o.rt (extend true n r.1)).adv o.st)

/-- cas (R311): rc the expected value, rb the new one. -/
def execCas (o : CasF) (s : State) : Res :=
  let n := amoBytes o.wide
  let ea := s.eaOff14 o.ra o.off
  let new := s.r o.rb
  let expect := s.r o.rc
  s.atomicOp (if o.ord = .sc then .scAtomic else .atomic) [o.ra, o.rb, o.rc] [o.rt] ea n o.ord o.scope o.st
    (.cas o.rt expect new)
    (fun dev pa key s => s.parkRemote o.st dev key (.cas pa o.wide (zextN (8 * n) expect) (zextN (8 * n) new))
      (.atomic o.rt n true (acqScope o.ord o.scope)) ea)
    (fun p s =>
      let r := s.casAt s.cur.cid p n expect new
      (r.2.resVar o.rt (extend true n r.1)).adv o.st)

/-- The registers of a group of four. -/
def group4 (r : Nat) : List Nat := [r, r + 1, r + 2, r + 3]

/-- vamo (R312): no window (R118). -/
def execVamo (o : AmoF) (s : State) : Res :=
  let ea := s.eaOff14 o.ra o.off
  let bs := (group4 o.rb).map s.r
  let dsts := if o.rt = 0 then [] else group4 o.rt
  s.atomicOp (if o.ord = .sc then .scAtomic else .vector) (o.ra :: group4 o.rb) dsts ea 32 o.ord o.scope o.st
    (.vamo o.op o.rt o.rb o.wide bs)
    (fun dev pa key s => s.parkRemote o.st dev key (.amo o.op pa o.wide (vamoOperand o.wide bs 0))
      (.vamo o.op o.rt o.wide 0 pa key bs (acqScope o.ord o.scope)) ea)
    (fun p s =>
      let r := s.vamoAll s.cur.cid p o.wide o.op bs
      (r.2.res4 o.rt r.1).adv o.st)

/-- A memory reduction enters the store queue (R146), after the checks of R309. -/
def State.mredOp (s : State) (st : Nat) (srcs : List Nat) (ea : Word) (align : Nat) (od : Ord) (scp : Scope)
    (kind : StKind) : Res :=
  s.mainOnly
    (s.issue srcs none
      (s.access .vector ea align (fun p =>
        let s := s.noteXlat s.cur.cid ea
        let e : StEnt := { kind := kind, place := p, va := ea, size := align, ord := od, scope := scp, hint := .nh, pc := s.pc,
                           seq := s.sca.seq, sent := [] }
        .next ((s.modMe (fun c => c.modPath (fun q => { q with stores := q.stores ++ [e] }))).adv st))))

/-- mred (R314). -/
def execMred (o : MredF) (s : State) : Res :=
  s.mredOp o.st [o.ra, o.rb] (s.eaOff8 o.ra o.off) (mredBytes o.mode) o.ord o.scope (.mred o.mode (s.r o.rb))

/-- vmred (R315). -/
def execVmred (o : MredF) (s : State) : Res :=
  s.mredOp o.st (o.ra :: group4 o.rb) (s.eaOff8 o.ra o.off) 32 o.ord o.scope (.vmred o.mode ((group4 o.rb).map s.r))

end Sys2Proof.Machine
end

