-- ==== Sys2Proof/WellFormed.lean ====
section
/-! DEFINITION. Which terms of `Instr` are instructions: every field within the range its format gives it and no
combination that the spec reserves (R149, R150, R264-R275, R290-R300, R316, R346, R353, R379, R413). -/

namespace Sys2Proof

/-- A STALL field (R261). -/
def stOk (st : Nat) : Bool := decide (st < 8)

/-- A register field (R265). -/
def regOk (r : Nat) : Bool := decide (r < 64)

/-- A predicate field (R265). -/
def predOk (r : Nat) : Bool := decide (r < 8)

/-- A semaphore field (R265). -/
def semOk (n : Nat) : Bool := decide (n < 256)

/-- The scope an ordering admits: .sc takes .dev only (R150). -/
def ordScopeOk (o : Ord) (sc : Scope) : Bool := o != .sc || sc == .dev

/-- Orderings of ld, ldx and waita (R150). -/
def ordLoad : Ord → Bool
  | .rlx | .acq | .sc => true
  | .rel | .ar => false

/-- Orderings of st and stx (R150). -/
def ordStore : Ord → Bool
  | .rlx | .rel | .sc => true
  | .acq | .ar => false

/-- Orderings of mred and vmred (R150). -/
def ordMred : Ord → Bool
  | .rlx | .rel => true
  | .acq | .ar | .sc => false

/-- Orderings of fence (R150). -/
def ordFence : Ord → Bool
  | .acq | .rel | .ar => true
  | .rlx | .sc => false

/-- Condition codes of fcmp (R296). -/
def Cond.forFcmp : Cond → Bool
  | .eq | .ne | .lt | .le | .gt | .ge => true
  | .ltu | .leu | .gtu | .geu => false

/-- An extension a load admits: .sx with .d is reserved (R302). -/
def extOk (z : Size) (sx : Bool) : Bool := z != .d || !sx

/-- A shift immediate at a width (R293). -/
def shImmOk (wd : Width) (imm : BitVec 32) : Bool :=
  match wd with
  | .d => decide (imm.toNat < 64)
  | .w => decide (imm.toNat < 32)

/-- The types of mred's float mode (R270). -/
def MredMode.wf : MredMode → Bool
  | .float ty _ _ _ => ty == .f32 || ty == .bf16 || ty == .f16
  | .fixed _ => true

/-- The synchronisation fields (R271). -/
def Sync.wf (y : Sync) : Bool :=
  (match y.wait with | none => true | some n => semOk n) &&
  (match y.sig with | none => true | some (n, _) => semOk n)

/-- A non-empty visibility mask on cpref is reserved (R358). -/
def noVis (y : Sync) : Bool :=
  match y.sig with
  | none => true
  | some (_, v) => v == 0

/-- An optional register operand: absent operands have a zero field. -/
def optReg : Option Nat → Bool
  | none => true
  | some r => regOk r

/-- Ten condition codes apart, every field of a port word lies within its width (R275). -/
def PortF.wf (o : PortF) : Bool :=
  decide (o.d < 16) && decide (o.a < 16) && decide (o.b < 16) && decide (o.c < 16) && decide (o.m < 16) &&
    decide (o.x < 64)

def R3w.wf (o : R3w) : Bool := stOk o.st && regOk o.rd && regOk o.ra && regOk o.rb
def R2w.wf (o : R2w) : Bool := stOk o.st && regOk o.rd && regOk o.ra
def R4w.wf (o : R4w) : Bool := stOk o.st && regOk o.rd && regOk o.ra && regOk o.rb && regOk o.rc
def R3.wf (o : R3) : Bool := stOk o.st && regOk o.rd && regOk o.ra && regOk o.rb
def R4.wf (o : R4) : Bool := stOk o.st && regOk o.rd && regOk o.ra && regOk o.rb && regOk o.rc
def R2.wf (o : R2) : Bool := stOk o.st && regOk o.rd && regOk o.ra
def R1a.wf (o : R1a) : Bool := stOk o.st && regOk o.ra
def R1d.wf (o : R1d) : Bool := stOk o.st && regOk o.rd
def R0.wf (o : R0) : Bool := stOk o.st
def SelF.wf (o : SelF) : Bool :=
  stOk o.st && regOk o.rd && (if o.pk then predOk o.ra else regOk o.ra) && regOk o.rb && regOk o.rc
def CmpF.wf (o : CmpF) : Bool :=
  stOk o.st && (if o.pk then predOk o.rd else regOk o.rd) && regOk o.ra && regOk o.rb
def RIw.wf (o : RIw) : Bool := stOk o.st && regOk o.rd && regOk o.ra
def RIw.wfShift (o : RIw) : Bool := o.wf && shImmOk o.w o.imm
def CmpiF.wf (o : CmpiF) : Bool := stOk o.st && regOk o.rd && regOk o.ra
def RI0.wf (o : RI0) : Bool := stOk o.st && regOk o.rd
def LdF.wf (o : LdF) : Bool :=
  stOk o.st && regOk o.rt && regOk o.ra && ordLoad o.ord && ordScopeOk o.ord o.scope && extOk o.size o.sx
def StF.wf (o : StF) : Bool :=
  stOk o.st && regOk o.rt && regOk o.ra && ordStore o.ord && ordScopeOk o.ord o.scope
def LdxF.wf (o : LdxF) : Bool :=
  stOk o.st && regOk o.rt && regOk o.ra && regOk o.rb && ordLoad o.ord && ordScopeOk o.ord o.scope &&
    extOk o.size o.sx
def StxF.wf (o : StxF) : Bool :=
  stOk o.st && regOk o.rt && regOk o.ra && regOk o.rb && ordStore o.ord && ordScopeOk o.ord o.scope
def PrefF.wf (o : PrefF) : Bool := stOk o.st && regOk o.ra
def WaitaF.wf (o : WaitaF) : Bool :=
  stOk o.st && regOk o.rt && regOk o.ra && regOk o.rb && ordLoad o.ord && ordScopeOk o.ord o.scope &&
    extOk o.size o.sx && (o.size == .w || o.size == .d)
def FenceF.wf (o : FenceF) : Bool := stOk o.st && ordFence o.ord
def AmoF.wf (o : AmoF) : Bool :=
  stOk o.st && regOk o.rt && regOk o.ra && regOk o.rb && ordScopeOk o.ord o.scope
def AmoF.wfVec (o : AmoF) : Bool := o.wf && decide (o.rt % 4 = 0) && decide (o.rb % 4 = 0)
def CasF.wf (o : CasF) : Bool :=
  stOk o.st && regOk o.rt && regOk o.ra && regOk o.rb && regOk o.rc && ordScopeOk o.ord o.scope
def MredF.wf (o : MredF) : Bool :=
  stOk o.st && regOk o.ra && regOk o.rb && ordMred o.ord && o.mode.wf
def MredF.wfVec (o : MredF) : Bool := o.wf && decide (o.rb % 4 = 0)
def F3.wf (o : F3) : Bool := stOk o.st && regOk o.rd && regOk o.ra && regOk o.rb
def F4.wf (o : F4) : Bool := stOk o.st && regOk o.rd && regOk o.ra && regOk o.rb && regOk o.rc
def F2.wf (o : F2) : Bool := stOk o.st && regOk o.rd && regOk o.ra
def FcvtF.wf (o : FcvtF) : Bool := stOk o.st && regOk o.rd && regOk o.ra && o.src != .l6 && o.dst != .l6
def FcmpF.wf (o : FcmpF) : Bool :=
  stOk o.st && (if o.pk then predOk o.rd else regOk o.rd) && regOk o.ra && regOk o.rb && o.cond.forFcmp
def SemN.wf (o : SemN) : Bool := stOk o.st && semOk o.sem && o.n != 0
def SemI.wf (o : SemI) : Bool := stOk o.st && semOk o.sem
def SemR.wf (o : SemR) : Bool := stOk o.st && regOk o.rd && semOk o.sem
def RdsysF.wf (o : RdsysF) : Bool := stOk o.st && regOk o.rd
def WrsysF.wf (o : WrsysF) : Bool := stOk o.st && regOk o.ra
def ImmF.wf (o : ImmF) : Bool := stOk o.st
def Rab.wf (o : Rab) : Bool := stOk o.st && regOk o.ra && regOk o.rb
def TlbiF.wf (o : TlbiF) : Bool :=
  stOk o.st && (match o.range with | none => true | some (a, b) => regOk a && regOk b)
def PloadF.wf (o : PloadF) : Bool := stOk o.st && decide (o.slot < 8) && regOk o.ra
def PbindF.wf (o : PbindF) : Bool := stOk o.st && decide (o.slot < 8)
def PbindUF.wf (o : PbindUF) : Bool := stOk o.st
def PparF.wf (o : PparF) : Bool := stOk o.st && decide (o.p < 16) && regOk o.ra
def PclrF.wf (o : PclrF) : Bool := stOk o.st && decide (o.slot < 8)
def PrdF.wf (o : PrdF) : Bool := stOk o.st && regOk o.rd && decide (o.slot < 8)
def PrdCF.wf (o : PrdCF) : Bool :=
  stOk o.st && regOk o.rd && decide (o.slot < 8) && decide (o.ci < 4) && regOk o.ra
def BrF.wf (o : BrF) : Bool := stOk o.st
def BkF.wf (o : BkF) : Bool := stOk o.st && regOk o.ra && regOk o.rb
def JrF.wf (o : JrF) : Bool := stOk o.st && regOk o.ra
def LoopF.wf (o : LoopF) : Bool := stOk o.st && regOk o.ra && o.ra != 0
def TstbF.wf (o : TstbF) : Bool :=
  stOk o.st && regOk o.mask && (match o.src with | .sem n => semOk n | .mem r => regOk r)
def XfenceF.wf (o : XfenceF) : Bool := stOk o.st && o.fromSet != 0 && o.toSet != 0
def ELvl.wf (o : ELvl) : Bool := stOk o.st && o.sy.wf && decide (o.lvl < 6) && regOk o.ra
def EStr.wf (o : EStr) : Bool := stOk o.st && o.sy.wf && decide (o.lvl < 6) && decide (o.j < 8) && regOk o.ra
def EReg.wf (o : EReg) : Bool := stOk o.st && o.sy.wf && regOk o.ra
def EBase.wf (o : EBase) : Bool := stOk o.st && o.sy.wf && decide (o.j < 8) && decide (o.sp < 8) && regOk o.ra
def EFmt.wf (o : EFmt) : Bool := stOk o.st && o.sy.wf && decide (o.j < 8) && regOk o.ra
def ENone.wf (o : ENone) : Bool := stOk o.st && o.sy.wf
def CopyF.wf (o : CopyF) : Bool :=
  stOk o.st && o.sy.wf && decide (o.ch < 8) && optReg o.os && optReg o.od && regOk o.rc
def CopyzF.wf (o : CopyzF) : Bool :=
  stOk o.st && o.sy.wf && decide (o.ch < 8) && decide (1 ≤ o.ns ∧ o.ns ≤ 4) && decide (1 ≤ o.nd ∧ o.nd ≤ 4) &&
    regOk o.rc
def GatherF.wf (o : GatherF) : Bool :=
  stOk o.st && o.sy.wf && decide (o.ch < 8) && optReg o.od && regOk o.ra && regOk o.rc
def ScatterF.wf (o : ScatterF) : Bool :=
  stOk o.st && o.sy.wf && decide (o.ch < 8) && optReg o.os && regOk o.rb && regOk o.rc
def DrainF.wf (o : DrainF) : Bool := stOk o.st && o.sy.wf && decide (o.ch < 8)
def CprefF.wf (o : CprefF) : Bool :=
  stOk o.st && o.sy.wf && noVis o.sy && decide (o.ch < 8) && decide (o.evp < 4) && regOk o.ra && regOk o.rb
def RedF.wf (o : RedF) : Bool := stOk o.st && o.sy.wf && decide (o.d < 4)
def EIdx.wf (o : EIdx) : Bool := stOk o.st && o.sy.wf && decide (o.g < 16) && regOk o.ra
def KarF.wf (o : KarF) : Bool := stOk o.st && o.sy.wf && decide (o.g < 16) && regOk o.ra && regOk o.rb
def E3.wf (o : E3) : Bool := stOk o.st && o.sy.wf && regOk o.ra && regOk o.rb && regOk o.rc
def E2.wf (o : E2) : Bool := stOk o.st && o.sy.wf && regOk o.ra && regOk o.rb
def MzeroF.wf (o : MzeroF) : Bool := stOk o.st && o.sy.wf && regOk o.ra && regOk o.rb
def MergeF.wf (o : MergeF) : Bool := stOk o.st && o.sy.wf && regOk o.ra && regOk o.rb
def MinitF.wf (o : MinitF) : Bool := stOk o.st && o.sy.wf && regOk o.ra && regOk o.rb && regOk o.rc
def MdrainF.wf (o : MdrainF) : Bool := stOk o.st && o.sy.wf && regOk o.ra && regOk o.rb && regOk o.rc
def DtapF.wf (o : DtapF) : Bool := stOk o.st && o.sy.wf && decide (o.mode < 4) && regOk o.ra && regOk o.rb

/-- A host port number (R39). -/
def portOk (p : Nat) : Bool := decide (p < 2)

/-- A link number (R25). -/
def linkOk (n : Nat) : Bool := decide (n < 24)

/-- A context number: twice the physical core id (R15) plus the context. -/
def cidOk (c : Nat) : Bool := decide (c < 512)

/-- An engine unit: a copy channel is 0 to 7. -/
def EUnit.wf : EUnit → Bool
  | .ch n => decide (n < 8)
  | .array | .drainU | .red => true
  | .coll n => decide (n < 16)

/-- A well-formed instruction or event. -/
def Instr.wf : Instr → Bool
  | .mgmtOwnWrite p _ => portOk p
  | .registerWrite p bar _ size _ => portOk p && decide (bar < 6) && decide (size ≤ 8)
  | .bootStage _ => true
  | .therm die _ => decide (die < 10)
  | .powerThrottle w t => decide (w < 4096) && decide (t < 256)
  | .train p n => portOk p && linkOk n
  | .en p n _ => portOk p && linkOk n
  | .linkTrainingDone n _ _ mdm peer pp rs => linkOk n && decide (mdm < 256) && decide (peer < 128) && decide (pp < 32) && rs.all (fun r => decide (r.dest < 128))
  | .linkDown n => linkOk n
  | .routeChange d => decide (d < 128)
  | .noRouteTimeout d => decide (d < 128)
  | .flitCrcReplay n _ => linkOk n
  | .remoteRequest src key _ => decide (src < 128) && decide (key < 512)
  | .remoteResponse _ _ => true
  | .lwProdWrite p _ => portOk p
  | .completionRecordWrite _ => true
  | .tlim _ => true
  | .pageLoad _ _ => true
  | .cxlMemRead p d _ size => portOk p && decide (d < 8) && decide (size ≤ 64)
  | .cxlMemWrite p d _ bs => portOk p && decide (d < 8) && decide (bs.length ≤ 64)
  | .hostAtomicop p d _ _ _ _ _ => portOk p && decide (d < 8)
  | .dispatch c => decide (c < 8)
  | .agingStep _ => true
  | .reserving _ => true
  | .saveComplete _ => true
  | .engineInstructionDecode _ => true
  | .engineCommandComplete c u => cidOk c && u.wf
  | .engineWritePerform c p => cidOk c && decide (p < 4)
  | .storePerform c _ => cidOk c
  | .loadReturn c _ _ => cidOk c
  | .l1AgeOut k _ => decide (k < 256)
  | .waitaWake c => cidOk c
  | .readyWordPoll c n => decide (c < 512) && decide (n < 16)
  | .segmentArrival d _ => decide (d < 2)
  | .kputAck c n => decide (c < 512) && decide (n < 16)
  | .add o => o.wf | .sub o => o.wf | .mul o => o.wf | .mulh o => o.wf | .mulhu o => o.wf
  | .div o => o.wf | .divu o => o.wf | .rem o => o.wf | .remu o => o.wf
  | .and o => o.wf | .or o => o.wf | .xor o => o.wf | .shl o => o.wf | .shr o => o.wf | .sra o => o.wf
  | .min o => o.wf | .max o => o.wf | .minu o => o.wf | .maxu o => o.wf
  | .clz o => o.wf | .popc o => o.wf
  | .bext o => o.wf | .bins o => o.wf | .sel o => o.wf | .cmp o => o.wf | .madd o => o.wf
  | .addi o => o.wf | .andi o => o.wf | .ori o => o.wf | .xori o => o.wf
  | .shli o => o.wfShift | .shri o => o.wfShift | .srai o => o.wfShift
  | .cmpi o => o.wf | .li o => o.wf | .lih o => o.wf | .muli o => o.wf
  | .ld o => o.wf | .st o => o.wf | .ldx o => o.wf | .stx o => o.wf
  | .pref o => o.wf | .waita o => o.wf | .mark o => o.wf | .fence o => o.wf
  | .amo o => o.wf | .cas o => o.wf | .mred o => o.wf | .vamo o => o.wfVec | .vmred o => o.wfVec
  | .fadd o => o.wf | .fsub o => o.wf | .fmul o => o.wf | .ffma o => o.wf
  | .fmin o => o.wf | .fmax o => o.wf | .fcvt o => o.wf | .fcmp o => o.wf | .frcp o => o.wf | .frsq o => o.wf
  | .spawn o => o.wf | .arrive o => o.wf | .est o => o.wf | .bmake o => o.wf
  | .join o => o.wf | .leave o => o.wf | .bbar o => o.wf
  | .semw o => o.wf | .sems o => o.wf | .semi o => o.wf | .semr o => o.wf
  | .sleepu o => o.wf | .cyc o => o.wf | .yield o => o.wf
  | .rdsys o => o.wf | .wrsys o => o.wf | .svc o => o.wf | .trap o => o.wf | .tret o => o.wf
  | .iclk o => o.wf | .iulk o => o.wf | .tlbi o => o.wf | .caps o => o.wf
  | .pload o => o.wf | .pbind o => o.wf | .pbindU o => o.wf | .ppar o => o.wf
  | .pclr o => o.wf | .prd o => o.wf | .prdC o => o.wf | .prdN o => o.wf
  | .br o => o.wf | .bk o => o.wf | .jr o => o.wf | .call o => o.wf | .ret o => o.wf
  | .loop o => o.wf | .tstb o => o.wf | .xfence o => o.wf
  | .endTask o => o.wf | .sync o => o.wf | .nop o => o.wf
  | .cnestCount o => o.wf | .cnestStride o => o.wf | .cnestRun o => o.wf
  | .cbaseAddr o => o.wf | .cbaseScale o => o.wf
  | .cfmtFmt o => o.wf | .cfmtFill o => o.wf | .cfmtLimit o => o.wf | .cfmtSubv o => o.wf | .cfmtClear o => o.wf
  | .copy o => o.wf | .copyz o => o.wf | .gather o => o.wf | .scatter o => o.wf | .decomp o => o.wf
  | .drain o => o.wf | .cpref o => o.wf
  | .rnestCount o => o.wf | .rnestStride o => o.wf | .rnestRun o => o.wf
  | .rbaseAddr o => o.wf | .rbaseScale o => o.wf
  | .rfmtFmt o => o.wf | .rfmtFill o => o.wf | .rfmtLimit o => o.wf | .rfmtSubv o => o.wf | .rfmtClear o => o.wf
  | .red o => o.wf | .scan o => o.wf | .merge o => o.wf
  | .kring o => o.wf | .kbw o => o.wf | .kallred o => o.wf | .kbcast o => o.wf | .kput o => o.wf
  | .mnestCount o => o.wf | .mnestStride o => o.wf
  | .mbaseAddr o => o.wf | .mbaseScale o => o.wf | .mbasePitch o => o.wf | .mbaseDpitch o => o.wf
  | .mfmtCtl o => o.wf | .mfmtDctl o => o.wf | .mfmtDsb o => o.wf | .mfmtClip o => o.wf | .mfmtSubv o => o.wf
  | .mfmtClear o => o.wf
  | .mgo o => o.wf | .mzero o => o.wf | .minit o => o.wf | .mdrain o => o.wf | .msparse o => o.wf
  | .dmap o => o.wf | .dcurve o => o.wf | .dtap o => o.wf | .dgo o => o.wf
  | .portFadd o => o.wf | .portFsub o => o.wf | .portFmul o => o.wf | .portFfma o => o.wf
  | .portFmin o => o.wf | .portFmax o => o.wf | .portFabs o => o.wf | .portFneg o => o.wf
  | .portFrcp o => o.wf | .portFrsq o => o.wf | .portFex2 o => o.wf | .portFlg2 o => o.wf
  | .portFcmp o => o.wf
  | .portIadd o => o.wf | .portIsub o => o.wf | .portImul o => o.wf | .portImulh o => o.wf
  | .portImin o => o.wf | .portImax o => o.wf | .portIminu o => o.wf | .portImaxu o => o.wf
  | .portAnd o => o.wf | .portOr o => o.wf | .portXor o => o.wf
  | .portShl o => o.wf | .portShr o => o.wf | .portSra o => o.wf
  | .portIcmp o => o.wf | .portSel o => o.wf
  | .portCvt o => o.wf | .portRnd o => o.wf | .portQsr o => o.wf
  | .portGet o => o.wf | .portOut o => o.wf | .portDrop o => o.wf | .portPar o => o.wf | .portParx o => o.wf
  | .portCget o => o.wf | .portCset o => o.wf | .portPrev o => o.wf | .portLut o => o.wf
  | .portLdl o => o.wf | .portStl o => o.wf | .portFlag o => o.wf
  | .portHint n o => decide (n < 8) && o.wf
  | .engineIterationBoundary c u => cidOk c && u.wf
  | .throttleCauseClears w t => decide (w < 4096) && decide (t < 256)
  | .mgmtOwnRead | .mgmtHbWrite | .bootCommit | .bootClrt | .bootFmin | .bootRst | .keyld | .keyclr
  | .hkey | .codekey | .codereg | .coderel | .codest | .xreg | .xdel | .attest
  | .abort | .mailboxCommandEnd | .descriptorAccept | .scWheelIssue | .scPerform | .mredPerform | .handlerStart | .watchdog
  | .sleepuWake | .yieldEnd | .svcReply | .ownershipLapse | .commitVerifyDone | .firmwareWriteDone | .deviceReset | .fwdog
  | .linkStageEnd | .auxPowerLoss | .powerLoss | .tokenTick => true

end Sys2Proof
end

