-- ==== Sys2Proof/Decode.lean ====
section
/-! DEFINITION. Decoding and encoding (R261-R279): the total decoder of a 64-bit main-stream word and of a 32-bit port
word, which rejects by name, and the encoder written from the same field tables. -/

namespace Sys2Proof

/-- Why a word is not an instruction, in the order of R264: its TAG is 6 or 7, its OP is unassigned, a reserved field is
non-zero or a field holds a reserved code, or there are too few bytes. -/
inductive Reject | badTag | badOp | reserved | short
  deriving DecidableEq, Repr

/-! ## Fields of a word -/

/-- The fields of a word whose widths are listed from the most significant one. -/
def fieldsOf : List Nat → Nat → List Nat
  | [], _ => []
  | n :: ns, v => v / 2 ^ ns.sum % 2 ^ n :: fieldsOf ns v

/-- The word whose fields have the widths and values given, from the most significant one. -/
def packOf : List Nat → List Nat → Nat
  | n :: ns, v :: vs => v % 2 ^ n * 2 ^ ns.sum + packOf ns vs
  | _, _ => 0

/-- Field widths of the formats, from bit 63 (R267-R274), and of a port word, from bit 31 (R275). -/
def fmtSR : List Nat := [3, 3, 8, 6, 6, 6, 6, 8, 6, 12]
def fmtSI : List Nat := [3, 3, 8, 6, 6, 6, 32]
def fmtSM : List Nat := [3, 3, 8, 6, 6, 6, 2, 3, 3, 1, 3, 20]
def fmtSX : List Nat := [3, 3, 8, 6, 6, 6, 2, 3, 3, 4, 20]
def fmtEA : List Nat := [3, 3, 8, 1, 8, 1, 8, 3, 5, 6, 6, 6, 5, 1]
def fmtEI : List Nat := [3, 3, 8, 1, 8, 1, 8, 3, 5, 6, 5, 13]
def fmtAB : List Nat := [3, 3, 8, 8, 10, 6, 26]
def fmtPort : List Nat := [6, 4, 4, 4, 4, 4, 6]

/-! ## Field codes -/

def Width.code : Width → Nat
  | .d => 0 | .w => 1
def Size.code : Size → Nat
  | .b => 0 | .h => 1 | .w => 2 | .d => 3
def Ord.code : Ord → Nat
  | .rlx => 0 | .acq => 1 | .rel => 2 | .ar => 3 | .sc => 4
def Scope.code : Scope → Nat
  | .core => 0 | .clus => 1 | .chip => 2 | .dev => 3 | .dom => 4
def Hint.code : Hint → Nat
  | .nh => 0 | .lu => 1 | .st => 2 | .na => 3
def Cond.code : Cond → Nat
  | .eq => 0 | .ne => 1 | .lt => 2 | .le => 3 | .gt => 4 | .ge => 5 | .ltu => 6 | .leu => 7 | .gtu => 8 | .geu => 9
def ETy.code : ETy → Nat
  | .f32 => 0 | .bf16 => 1 | .f16 => 2 | .e4m3 => 3 | .e5m2 => 4 | .l6 => 5
  | .i8 => 6 | .ui8 => 7 | .i16 => 8 | .i32 => 9 | .i64 => 10 | .ui64 => 11
def AmoOp.code : AmoOp → Nat
  | .add => 0 | .and => 1 | .or => 2 | .xor => 3 | .min => 4 | .max => 5 | .minu => 6 | .maxu => 7 | .swap => 8
def RedOp.code : RedOp → Nat
  | .sum => 0 | .max => 1 | .min => 2 | .and => 3 | .or => 4
def Point.code : Point → Nat
  | .cin => 0 | .cout => 1 | .ma => 2 | .md => 3 | .ri => 4 | .ro => 5
def MSpace.code : MSpace → Nat
  | .mem => 0 | .spad => 1 | .clus => 2 | .chip => 3

def Width.ofCode : Nat → Except Reject Width
  | 0 => .ok .d | 1 => .ok .w | _ => .error .reserved
def Size.ofCode : Nat → Except Reject Size
  | 0 => .ok .b | 1 => .ok .h | 2 => .ok .w | 3 => .ok .d | _ => .error .reserved
def Ord.ofCode : Nat → Except Reject Ord
  | 0 => .ok .rlx | 1 => .ok .acq | 2 => .ok .rel | 3 => .ok .ar | 4 => .ok .sc | _ => .error .reserved
def Scope.ofCode : Nat → Except Reject Scope
  | 0 => .ok .core | 1 => .ok .clus | 2 => .ok .chip | 3 => .ok .dev | 4 => .ok .dom | _ => .error .reserved
def Hint.ofCode : Nat → Except Reject Hint
  | 0 => .ok .nh | 1 => .ok .lu | 2 => .ok .st | 3 => .ok .na | _ => .error .reserved
def Cond.ofCode : Nat → Except Reject Cond
  | 0 => .ok .eq | 1 => .ok .ne | 2 => .ok .lt | 3 => .ok .le | 4 => .ok .gt | 5 => .ok .ge
  | 6 => .ok .ltu | 7 => .ok .leu | 8 => .ok .gtu | 9 => .ok .geu | _ => .error .reserved
def ETy.ofCode : Nat → Except Reject ETy
  | 0 => .ok .f32 | 1 => .ok .bf16 | 2 => .ok .f16 | 3 => .ok .e4m3 | 4 => .ok .e5m2 | 5 => .ok .l6
  | 6 => .ok .i8 | 7 => .ok .ui8 | 8 => .ok .i16 | 9 => .ok .i32 | 10 => .ok .i64 | 11 => .ok .ui64
  | _ => .error .reserved
def AmoOp.ofCode : Nat → Except Reject AmoOp
  | 0 => .ok .add | 1 => .ok .and | 2 => .ok .or | 3 => .ok .xor | 4 => .ok .min | 5 => .ok .max
  | 6 => .ok .minu | 7 => .ok .maxu | 8 => .ok .swap | _ => .error .reserved
def RedOp.ofCode : Nat → Except Reject RedOp
  | 0 => .ok .sum | 1 => .ok .max | 2 => .ok .min | 3 => .ok .and | 4 => .ok .or | _ => .error .reserved
def Point.ofCode : Nat → Except Reject Point
  | 0 => .ok .cin | 1 => .ok .cout | 2 => .ok .ma | 3 => .ok .md | 4 => .ok .ri | 5 => .ok .ro
  | _ => .error .reserved
def MSpace.ofCode : Nat → Except Reject MSpace
  | 0 => .ok .mem | 1 => .ok .spad | 2 => .ok .clus | 3 => .ok .chip | _ => .error .reserved

/-- A one-bit field as a Bool. -/
def flag (n : Nat) : Bool := n != 0

/-- A Bool as a one-bit field. -/
def bit (b : Bool) : Nat := if b then 1 else 0

/-- A reserved field: zero, or the word is rejected (R8, R264 check 3). -/
def zero (n : Nat) : Except Reject Unit := if n = 0 then .ok () else .error .reserved

/-- A condition on a field that reserves its other values. -/
def need (b : Bool) : Except Reject Unit := if b then .ok () else .error .reserved

/-- A shape accepted when it is well formed: its remaining value limits are those WellFormed states. -/
def keep (i : Instr) : Except Reject Instr := if i.wf then .ok i else .error .reserved

/-! ## S-tagged words -/

/-- The fields of format SR below OP (R267). -/
structure SRw where
  (st rd ra rb rc fn md lo : Nat)
  deriving DecidableEq, Repr

def srOf (v : Nat) : SRw :=
  match fieldsOf fmtSR v with
  | [_, st, _, rd, ra, rb, rc, fn, md, lo] => ⟨st, rd, ra, rb, rc, fn, md, lo⟩
  | _ => ⟨0, 0, 0, 0, 0, 0, 0, 0⟩

/-- The fields of format SI below OP (R268). -/
structure SIw where
  (st rd ra fn imm : Nat)
  deriving DecidableEq, Repr

def siOf (v : Nat) : SIw :=
  match fieldsOf fmtSI v with
  | [_, st, _, rd, ra, fn, imm] => ⟨st, rd, ra, fn, imm⟩
  | _ => ⟨0, 0, 0, 0, 0⟩

/-- The fields of format SM below OP (R269). -/
structure SMw where
  (st rt ra rb size ord scope ext hint off : Nat)
  deriving DecidableEq, Repr

def smOf (v : Nat) : SMw :=
  match fieldsOf fmtSM v with
  | [_, st, _, rt, ra, rb, size, ord, scope, ext, hint, off] => ⟨st, rt, ra, rb, size, ord, scope, ext, hint, off⟩
  | _ => ⟨0, 0, 0, 0, 0, 0, 0, 0, 0, 0⟩

/-- The fields of format SX below OP (R270). -/
structure SXw where
  (st rt ra rb size ord scope fn tail : Nat)
  deriving DecidableEq, Repr

def sxOf (v : Nat) : SXw :=
  match fieldsOf fmtSX v with
  | [_, st, _, rt, ra, rb, size, ord, scope, fn, tail] => ⟨st, rt, ra, rb, size, ord, scope, fn, tail⟩
  | _ => ⟨0, 0, 0, 0, 0, 0, 0, 0, 0⟩

def SRw.r3w (f : SRw) (k : R3w → Instr) : Except Reject Instr := do
  zero f.rc; zero f.fn; zero f.lo
  let wd ← Width.ofCode f.md
  keep (k ⟨f.st, f.rd, f.ra, f.rb, wd⟩)

def SRw.r2w (f : SRw) (k : R2w → Instr) : Except Reject Instr := do
  zero f.rb; zero f.rc; zero f.fn; zero f.lo
  let wd ← Width.ofCode f.md
  keep (k ⟨f.st, f.rd, f.ra, wd⟩)

def SRw.r4w (f : SRw) (k : R4w → Instr) : Except Reject Instr := do
  zero f.fn; zero f.lo
  let wd ← Width.ofCode f.md
  keep (k ⟨f.st, f.rd, f.ra, f.rb, f.rc, wd⟩)

def SRw.r3 (f : SRw) (k : R3 → Instr) : Except Reject Instr := do
  zero f.rc; zero f.fn; zero f.md; zero f.lo
  keep (k ⟨f.st, f.rd, f.ra, f.rb⟩)

def SRw.r4 (f : SRw) (k : R4 → Instr) : Except Reject Instr := do
  zero f.fn; zero f.md; zero f.lo
  keep (k ⟨f.st, f.rd, f.ra, f.rb, f.rc⟩)

def SRw.r2 (f : SRw) (k : R2 → Instr) : Except Reject Instr := do
  zero f.rb; zero f.rc; zero f.fn; zero f.md; zero f.lo
  keep (k ⟨f.st, f.rd, f.ra⟩)

def SRw.r1a (f : SRw) (k : R1a → Instr) : Except Reject Instr := do
  zero f.rd; zero f.rb; zero f.rc; zero f.fn; zero f.md; zero f.lo
  keep (k ⟨f.st, f.ra⟩)

def SRw.r1d (f : SRw) (k : R1d → Instr) : Except Reject Instr := do
  zero f.ra; zero f.rb; zero f.rc; zero f.fn; zero f.md; zero f.lo
  keep (k ⟨f.st, f.rd⟩)

def SRw.r0 (f : SRw) (k : R0 → Instr) : Except Reject Instr := do
  zero f.rd; zero f.ra; zero f.rb; zero f.rc; zero f.fn; zero f.md; zero f.lo
  keep (k ⟨f.st⟩)

def SRw.rab (f : SRw) (k : Rab → Instr) : Except Reject Instr := do
  zero f.rd; zero f.rc; zero f.fn; zero f.md; zero f.lo
  keep (k ⟨f.st, f.ra, f.rb⟩)

/-- sel: PK in fn bit 22 (R292). -/
def SRw.sel (f : SRw) (k : SelF → Instr) : Except Reject Instr := do
  zero (f.fn % 16); zero (f.fn / 32); zero f.md; zero f.lo
  keep (k ⟨f.st, f.rd, f.ra, f.rb, f.rc, flag (f.fn / 16 % 2)⟩)

/-- cmp: condition in fn bits 21:18, PK in bit 22 (R292). -/
def SRw.cmp (f : SRw) (k : CmpF → Instr) : Except Reject Instr := do
  zero f.rc; zero (f.fn / 32); zero f.lo
  let wd ← Width.ofCode f.md
  let c ← Cond.ofCode (f.fn % 16)
  keep (k ⟨f.st, f.rd, f.ra, f.rb, wd, c, flag (f.fn / 16 % 2)⟩)

/-- Scalar float words: mod bit 13 is FZ, bit 12 reserved (R294). -/
def fzOf (md : Nat) : Except Reject Bool := do
  zero (md % 2); zero (md / 4)
  return flag (md / 2 % 2)

def SRw.f3 (f : SRw) (k : F3 → Instr) : Except Reject Instr := do
  zero f.rc; zero f.fn; zero f.lo
  let fz ← fzOf f.md
  keep (k ⟨f.st, f.rd, f.ra, f.rb, fz⟩)

def SRw.f4 (f : SRw) (k : F4 → Instr) : Except Reject Instr := do
  zero f.fn; zero f.lo
  let fz ← fzOf f.md
  keep (k ⟨f.st, f.rd, f.ra, f.rb, f.rc, fz⟩)

def SRw.f2 (f : SRw) (k : F2 → Instr) : Except Reject Instr := do
  zero f.rb; zero f.rc; zero f.fn; zero f.lo
  let fz ← fzOf f.md
  keep (k ⟨f.st, f.rd, f.ra, fz⟩)

/-- fcvt: source type in fn bits 25:22, destination type in bits 21:18 (R297). -/
def SRw.fcvt (f : SRw) (k : FcvtF → Instr) : Except Reject Instr := do
  zero f.rb; zero f.rc; zero f.lo
  let fz ← fzOf f.md
  let src ← ETy.ofCode (f.fn / 16)
  let dst ← ETy.ofCode (f.fn % 16)
  keep (k ⟨f.st, f.rd, f.ra, src, dst, fz⟩)

def SRw.fcmp (f : SRw) (k : FcmpF → Instr) : Except Reject Instr := do
  zero f.rc; zero (f.fn / 32); zero f.lo
  let fz ← fzOf f.md
  let c ← Cond.ofCode (f.fn % 16)
  keep (k ⟨f.st, f.rd, f.ra, f.rb, c, flag (f.fn / 16 % 2), fz⟩)

/-- tlbi: fn bit 18 ALL, bit 19 G (R340). -/
def SRw.tlbi (f : SRw) : Except Reject Instr := do
  zero f.rd; zero f.rc; zero (f.fn / 4); zero f.md; zero f.lo
  if f.fn % 2 = 1 then
    zero f.ra; zero f.rb
    keep (.tlbi ⟨f.st, none, flag (f.fn / 2 % 2)⟩)
  else
    keep (.tlbi ⟨f.st, some (f.ra, f.rb), flag (f.fn / 2 % 2)⟩)

def SRw.pload (f : SRw) : Except Reject Instr := do
  zero f.rd; zero f.rb; zero f.rc; zero (f.fn / 8); zero f.md; zero f.lo
  keep (.pload ⟨f.st, f.fn, f.ra⟩)

/-- pbind: slot in fn bits 20:18, point in 23:21, U in 24 (R413, R416). -/
def SRw.pbind (f : SRw) : Except Reject Instr := do
  zero f.rd; zero f.ra; zero f.rb; zero f.rc; zero (f.fn / 128); zero f.md; zero f.lo
  let pt ← Point.ofCode (f.fn / 8 % 8)
  if f.fn / 64 % 2 = 1 then
    zero (f.fn % 8)
    keep (.pbindU ⟨f.st, pt⟩)
  else
    keep (.pbind ⟨f.st, f.fn % 8, pt⟩)

def SRw.ppar (f : SRw) : Except Reject Instr := do
  zero f.rd; zero f.rb; zero f.rc; zero (f.fn / 16); zero f.md; zero f.lo
  keep (.ppar ⟨f.st, f.fn, f.ra⟩)

def SRw.pclr (f : SRw) : Except Reject Instr := do
  zero f.rd; zero f.ra; zero f.rb; zero f.rc; zero (f.fn / 16); zero f.md; zero f.lo
  keep (.pclr ⟨f.st, f.fn % 8, flag (f.fn / 8 % 2)⟩)

/-- prd: slot in fn bits 20:18, mode in 22:21, ci in 24:23 (R413). -/
def SRw.prd (f : SRw) : Except Reject Instr := do
  zero f.rb; zero f.rc; zero (f.fn / 128); zero f.md; zero f.lo
  match f.fn / 8 % 4 with
  | 0 => zero f.ra; zero (f.fn / 32 % 4); keep (.prd ⟨f.st, f.rd, f.fn % 8⟩)
  | 1 => keep (.prdC ⟨f.st, f.rd, f.fn % 8, f.fn / 32 % 4, f.ra⟩)
  | 2 => zero f.ra; zero (f.fn / 32 % 4); keep (.prdN ⟨f.st, f.rd, f.fn % 8⟩)
  | _ => .error .reserved

/-- Immediate instructions with W in fn bit 32 (R293). -/
def SIw.riw (f : SIw) (k : RIw → Instr) : Except Reject Instr := do
  let wd ← Width.ofCode f.fn
  keep (k ⟨f.st, f.rd, f.ra, wd, BitVec.ofNat 32 f.imm⟩)

def SIw.cmpi (f : SIw) : Except Reject Instr := do
  zero (f.fn / 16)
  let c ← Cond.ofCode (f.fn % 16)
  keep (.cmpi ⟨f.st, f.rd, f.ra, c, BitVec.ofNat 32 f.imm⟩)

def SIw.ri0 (f : SIw) (k : RI0 → Instr) : Except Reject Instr := do
  zero f.ra; zero f.fn
  keep (k ⟨f.st, f.rd, BitVec.ofNat 32 f.imm⟩)

/-- semw and sems: n in imm32 bits 23:8, the semaphore in bits 7:0 (R316). -/
def SIw.semn (f : SIw) (k : SemN → Instr) : Except Reject Instr := do
  zero f.rd; zero f.ra; zero f.fn; zero (f.imm / 2 ^ 24)
  keep (k ⟨f.st, f.imm % 256, BitVec.ofNat 16 (f.imm / 256)⟩)

def SIw.semi (f : SIw) : Except Reject Instr := do
  zero f.rd; zero f.ra; zero (f.fn / 2); zero (f.imm / 2 ^ 24)
  keep (.semi ⟨f.st, f.imm % 256, BitVec.ofNat 16 (f.imm / 256), flag f.fn⟩)

def SIw.semr (f : SIw) : Except Reject Instr := do
  zero f.ra; zero (f.fn / 2); zero (f.imm / 256)
  keep (.semr ⟨f.st, f.rd, f.imm, flag f.fn⟩)

def SIw.rdsys (f : SIw) : Except Reject Instr := do
  zero f.ra; zero f.fn
  keep (.rdsys ⟨f.st, f.rd, BitVec.ofNat 32 f.imm⟩)

def SIw.wrsys (f : SIw) : Except Reject Instr := do
  zero f.rd; zero f.fn
  keep (.wrsys ⟨f.st, f.ra, BitVec.ofNat 32 f.imm⟩)

def SIw.immf (f : SIw) (k : ImmF → Instr) : Except Reject Instr := do
  zero f.rd; zero f.ra; zero f.fn
  keep (k ⟨f.st, BitVec.ofNat 32 f.imm⟩)

def SMw.ld (f : SMw) : Except Reject Instr := do
  zero f.rb
  let z ← Size.ofCode f.size
  let o ← Ord.ofCode f.ord
  let sc ← Scope.ofCode f.scope
  let h ← Hint.ofCode f.hint
  keep (.ld ⟨f.st, f.rt, f.ra, z, o, sc, flag f.ext, h, BitVec.ofNat 20 f.off⟩)

def SMw.store (f : SMw) : Except Reject Instr := do
  zero f.rb; zero f.ext
  let z ← Size.ofCode f.size
  let o ← Ord.ofCode f.ord
  let sc ← Scope.ofCode f.scope
  let h ← Hint.ofCode f.hint
  keep (.st ⟨f.st, f.rt, f.ra, z, o, sc, h, BitVec.ofNat 20 f.off⟩)

def SMw.ldx (f : SMw) : Except Reject Instr := do
  zero f.off
  let z ← Size.ofCode f.size
  let o ← Ord.ofCode f.ord
  let sc ← Scope.ofCode f.scope
  let h ← Hint.ofCode f.hint
  keep (.ldx ⟨f.st, f.rt, f.ra, f.rb, z, o, sc, flag f.ext, h⟩)

def SMw.stx (f : SMw) : Except Reject Instr := do
  zero f.off; zero f.ext
  let z ← Size.ofCode f.size
  let o ← Ord.ofCode f.ord
  let sc ← Scope.ofCode f.scope
  let h ← Hint.ofCode f.hint
  keep (.stx ⟨f.st, f.rt, f.ra, f.rb, z, o, sc, h⟩)

/-- pref accepts .rlx only (R150, R306). -/
def SMw.pref (f : SMw) : Except Reject Instr := do
  zero f.rt; zero f.rb; zero f.ext; zero f.ord
  let z ← Size.ofCode f.size
  let sc ← Scope.ofCode f.scope
  let h ← Hint.ofCode f.hint
  keep (.pref ⟨f.st, f.ra, z, sc, h, BitVec.ofNat 20 f.off⟩)

def SMw.waita (f : SMw) : Except Reject Instr := do
  let z ← Size.ofCode f.size
  let o ← Ord.ofCode f.ord
  let sc ← Scope.ofCode f.scope
  let h ← Hint.ofCode f.hint
  keep (.waita ⟨f.st, f.rt, f.ra, f.rb, z, o, sc, flag f.ext, h, BitVec.ofNat 20 f.off⟩)

def SMw.mark (f : SMw) : Except Reject Instr := do
  zero f.rt; zero f.ra; zero f.rb; zero f.size; zero f.ord; zero f.scope; zero f.ext; zero f.hint; zero f.off
  keep (.mark ⟨f.st⟩)

def SMw.fence (f : SMw) : Except Reject Instr := do
  zero f.rt; zero f.ra; zero f.rb; zero f.size; zero f.ext; zero f.hint; zero f.off
  let o ← Ord.ofCode f.ord
  let sc ← Scope.ofCode f.scope
  keep (.fence ⟨f.st, o, sc⟩)

/-- Size 2 or 3 of amo, cas and vamo (R270). -/
def wideOf : Nat → Except Reject Bool
  | 2 => .ok false
  | 3 => .ok true
  | _ => .error .reserved

def SXw.amo (f : SXw) (k : AmoF → Instr) : Except Reject Instr := do
  zero (f.tail / 2 ^ 14)
  let wd ← wideOf f.size
  let o ← Ord.ofCode f.ord
  let sc ← Scope.ofCode f.scope
  let op ← AmoOp.ofCode f.fn
  keep (k ⟨f.st, f.rt, f.ra, f.rb, wd, o, sc, op, BitVec.ofNat 14 f.tail⟩)

def SXw.cas (f : SXw) : Except Reject Instr := do
  zero f.fn
  let wd ← wideOf f.size
  let o ← Ord.ofCode f.ord
  let sc ← Scope.ofCode f.scope
  keep (.cas ⟨f.st, f.rt, f.ra, f.rb, f.tail / 2 ^ 14, wd, o, sc, BitVec.ofNat 14 f.tail⟩)

/-- The mode of mred and vmred, whose size code its type implies (R270, R314). -/
def mredModeOf (fn size tail : Nat) : Except Reject MredMode := do
  let ty ← ETy.ofCode (tail / 2 ^ 16)
  if fn / 8 = 1 then
    zero (fn % 8); need (ty == .f32); need (size == 3)
    return .fixed (BitVec.ofNat 8 (tail / 256))
  else
    zero (tail / 256 % 256); need (size == (if ty == .f32 then 2 else 1))
    return .float ty (flag (fn / 4 % 2)) (flag (fn / 2 % 2)) (flag (fn % 2))

def SXw.mred (f : SXw) (k : MredF → Instr) : Except Reject Instr := do
  zero f.rt
  let o ← Ord.ofCode f.ord
  let sc ← Scope.ofCode f.scope
  let m ← mredModeOf f.fn f.size f.tail
  keep (k ⟨f.st, f.ra, f.rb, o, sc, m, BitVec.ofNat 8 f.tail⟩)

/-- S-tagged words by OP (R276). -/
def decodeS (op v : Nat) : Except Reject Instr :=
  match op with
  | 0x00 => (srOf v).r3w .add
  | 0x01 => (srOf v).r3w .sub
  | 0x02 => (srOf v).r3w .mul
  | 0x03 => (srOf v).r3w .mulh
  | 0x04 => (srOf v).r3w .mulhu
  | 0x05 => (srOf v).r3w .div
  | 0x06 => (srOf v).r3w .divu
  | 0x07 => (srOf v).r3w .rem
  | 0x08 => (srOf v).r3w .remu
  | 0x09 => (srOf v).r3w .and
  | 0x0A => (srOf v).r3w .or
  | 0x0B => (srOf v).r3w .xor
  | 0x0C => (srOf v).r3w .shl
  | 0x0D => (srOf v).r3w .shr
  | 0x0E => (srOf v).r3w .sra
  | 0x0F => (srOf v).r3w .min
  | 0x10 => (srOf v).r3w .max
  | 0x11 => (srOf v).r3w .minu
  | 0x12 => (srOf v).r3w .maxu
  | 0x13 => (srOf v).r2w .clz
  | 0x14 => (srOf v).r2w .popc
  | 0x15 => (srOf v).r3 .bext
  | 0x16 => (srOf v).r4 .bins
  | 0x17 => (srOf v).sel .sel
  | 0x18 => (srOf v).cmp .cmp
  | 0x19 => (srOf v).r4w .madd
  | 0x20 => (siOf v).riw .addi
  | 0x21 => (siOf v).riw .andi
  | 0x22 => (siOf v).riw .ori
  | 0x23 => (siOf v).riw .xori
  | 0x24 => (siOf v).riw .shli
  | 0x25 => (siOf v).riw .shri
  | 0x26 => (siOf v).riw .srai
  | 0x27 => (siOf v).cmpi
  | 0x28 => (siOf v).ri0 .li
  | 0x29 => (siOf v).ri0 .lih
  | 0x2A => (siOf v).riw .muli
  | 0x40 => (smOf v).ld
  | 0x41 => (smOf v).store
  | 0x42 => (smOf v).ldx
  | 0x43 => (smOf v).stx
  | 0x44 => (smOf v).pref
  | 0x45 => (smOf v).waita
  | 0x46 => (smOf v).mark
  | 0x47 => (smOf v).fence
  | 0x60 => (sxOf v).amo .amo
  | 0x61 => (sxOf v).cas
  | 0x62 => (sxOf v).mred .mred
  | 0x63 => (sxOf v).amo .vamo
  | 0x64 => (sxOf v).mred .vmred
  | 0x70 => (srOf v).f3 .fadd
  | 0x71 => (srOf v).f3 .fsub
  | 0x72 => (srOf v).f3 .fmul
  | 0x73 => (srOf v).f4 .ffma
  | 0x74 => (srOf v).f3 .fmin
  | 0x75 => (srOf v).f3 .fmax
  | 0x76 => (srOf v).fcvt .fcvt
  | 0x77 => (srOf v).fcmp .fcmp
  | 0x78 => (srOf v).f2 .frcp
  | 0x79 => (srOf v).f2 .frsq
  | 0x80 => (srOf v).r2 .spawn
  | 0x81 => (srOf v).r2 .arrive
  | 0x82 => (srOf v).r1a .est
  | 0x83 => (srOf v).r2 .bmake
  | 0x84 => (srOf v).r2 .join
  | 0x85 => (srOf v).r0 .leave
  | 0x86 => (srOf v).r0 .bbar
  | 0x87 => (siOf v).semn .semw
  | 0x88 => (siOf v).semn .sems
  | 0x89 => (siOf v).semi
  | 0x8A => (siOf v).semr
  | 0x8B => (srOf v).r1a .sleepu
  | 0x8C => (srOf v).r1d .cyc
  | 0x8D => (srOf v).r1a .yield
  | 0xA0 => (siOf v).rdsys
  | 0xA1 => (siOf v).wrsys
  | 0xA2 => (siOf v).immf .svc
  | 0xA3 => (siOf v).immf .trap
  | 0xA4 => (srOf v).r0 .tret
  | 0xA5 => (srOf v).r3 .iclk
  | 0xA6 => (srOf v).rab .iulk
  | 0xA7 => (srOf v).tlbi
  | 0xA8 => (srOf v).r2 .caps
  | 0xB0 => (srOf v).pload
  | 0xB1 => (srOf v).pbind
  | 0xB2 => (srOf v).ppar
  | 0xB3 => (srOf v).pclr
  | 0xB4 => (srOf v).prd
  | _ => .error .badOp

/-! ## A-tagged words -/

/-- The fields of format AB below OP (R274). -/
structure ABw where
  (st f m ra imm : Nat)
  deriving DecidableEq, Repr

def abOf (v : Nat) : ABw :=
  match fieldsOf fmtAB v with
  | [_, st, _, f, m, ra, imm] => ⟨st, f, m, ra, imm⟩
  | _ => ⟨0, 0, 0, 0, 0⟩

def ABw.br (a : ABw) (k : BrF → Instr) : Except Reject Instr := do
  zero a.f; zero a.m; zero a.ra
  keep (k ⟨a.st, BitVec.ofNat 26 a.imm⟩)

def ABw.bk (a : ABw) : Except Reject Instr := do
  zero (a.f / 16); zero (a.m / 64)
  let c ← Cond.ofCode (a.f % 16)
  keep (.bk ⟨a.st, c, a.ra, a.m % 64, BitVec.ofNat 26 a.imm⟩)

def ABw.jr (a : ABw) : Except Reject Instr := do
  zero a.f; zero a.m; zero a.imm
  keep (.jr ⟨a.st, a.ra⟩)

def ABw.r0 (a : ABw) (k : R0 → Instr) : Except Reject Instr := do
  zero a.f; zero a.m; zero a.ra; zero a.imm
  keep (k ⟨a.st⟩)

def ABw.loop (a : ABw) : Except Reject Instr := do
  zero a.f; zero a.m
  keep (.loop ⟨a.st, a.ra, BitVec.ofNat 26 a.imm⟩)

/-- tstb: bit 41 the mode, bit 40 the sense (R274). -/
def ABw.tstb (a : ABw) : Except Reject Instr := do
  zero (a.m % 256)
  keep (.tstb ⟨a.st, (if a.m / 512 = 1 then .mem a.f else .sem a.f), flag (a.m / 256 % 2), a.ra,
    BitVec.ofNat 26 a.imm⟩)

def ABw.xfence (a : ABw) : Except Reject Instr := do
  zero (a.f / 8); zero a.ra; zero a.imm
  let sc ← Scope.ofCode (a.f % 8)
  keep (.xfence ⟨a.st, sc, BitVec.ofNat 5 (a.m / 32), BitVec.ofNat 5 a.m⟩)

/-- A-tagged words by OP (R274, R277). -/
def decodeA (op v : Nat) : Except Reject Instr :=
  match op with
  | 0x00 => (abOf v).br .br
  | 0x01 => (abOf v).bk
  | 0x02 => (abOf v).jr
  | 0x03 => (abOf v).br .call
  | 0x04 => (abOf v).r0 .ret
  | 0x05 => (abOf v).loop
  | 0x06 => (abOf v).tstb
  | 0x10 => (abOf v).xfence
  | 0x11 => (abOf v).r0 .endTask
  | 0x12 => (abOf v).r0 .sync
  | 0x13 => (abOf v).r0 .nop
  | _ => .error .badOp

/-! ## Engine-tagged words -/

/-- The fields of format EA below OP (R272). -/
structure EAw where
  (st wv wsem sv ssem ch fn ra rb rc xv lo : Nat)
  deriving DecidableEq, Repr

def eaOf (v : Nat) : EAw :=
  match fieldsOf fmtEA v with
  | [_, st, _, wv, wsem, sv, ssem, ch, fn, ra, rb, rc, xv, lo] =>
    ⟨st, wv, wsem, sv, ssem, ch, fn, ra, rb, rc, xv, lo⟩
  | _ => ⟨0, 0, 0, 0, 0, 0, 0, 0, 0, 0, 0, 0⟩

/-- The fields of format EI below OP (R273). -/
structure EIw where
  (st wv wsem sv ssem ch fn ra xv imm : Nat)
  deriving DecidableEq, Repr

def eiOf (v : Nat) : EIw :=
  match fieldsOf fmtEI v with
  | [_, st, _, wv, wsem, sv, ssem, ch, fn, ra, xv, imm] => ⟨st, wv, wsem, sv, ssem, ch, fn, ra, xv, imm⟩
  | _ => ⟨0, 0, 0, 0, 0, 0, 0, 0, 0, 0⟩

/-- The synchronisation fields: a number without its valid bit is reserved (R271). -/
def syncOf (wv wsem sv ssem xv : Nat) : Except Reject Sync := do
  let w ← (if wv = 1 then .ok (some wsem) else do zero wsem; return none : Except Reject (Option Nat))
  let s ← (if sv = 1 then .ok (some (ssem, BitVec.ofNat 5 xv)) else do zero ssem; zero xv; return none :
    Except Reject (Option (Nat × BitVec 5)))
  return ⟨w, s⟩

def EAw.sy (e : EAw) : Except Reject Sync := syncOf e.wv e.wsem e.sv e.ssem e.xv
def EIw.sy (e : EIw) : Except Reject Sync := syncOf e.wv e.wsem e.sv e.ssem e.xv

/-- A register field used only when its bit is set. -/
def ovr (b r : Nat) : Except Reject (Option Nat) :=
  if b = 1 then .ok (some r) else do
    zero r
    return none

def EIw.lvl (e : EIw) (k : ELvl → Instr) : Except Reject Instr := do
  zero e.ch; zero (e.imm / 8)
  let y ← e.sy
  keep (k ⟨e.st, y, e.imm % 8, e.ra⟩)

def EIw.str (e : EIw) (k : EStr → Instr) : Except Reject Instr := do
  zero e.ch; zero (e.imm / 64)
  let y ← e.sy
  keep (k ⟨e.st, y, e.imm % 8, e.imm / 8 % 8, e.ra⟩)

def EIw.reg (e : EIw) (k : EReg → Instr) : Except Reject Instr := do
  zero e.ch; zero e.imm
  let y ← e.sy
  keep (k ⟨e.st, y, e.ra⟩)

def EIw.base (e : EIw) (k : EBase → Instr) : Except Reject Instr := do
  zero e.ch; zero (e.imm % 8); zero (e.imm / 512)
  let y ← e.sy
  keep (k ⟨e.st, y, e.imm / 8 % 8, e.imm / 64 % 8, e.ra⟩)

def EIw.fmt (e : EIw) (k : EFmt → Instr) : Except Reject Instr := do
  zero e.ch; zero (e.imm % 8); zero (e.imm / 64)
  let y ← e.sy
  keep (k ⟨e.st, y, e.imm / 8 % 8, e.ra⟩)

def EIw.none (e : EIw) (k : ENone → Instr) : Except Reject Instr := do
  zero e.ch; zero e.imm; zero e.ra
  let y ← e.sy
  keep (k ⟨e.st, y⟩)

/-- cnest, rnest (R346). -/
def EIw.nest (e : EIw) (c : ELvl → Instr) (s : EStr → Instr) (r : EReg → Instr) : Except Reject Instr :=
  match e.fn with
  | 0 => e.lvl c
  | 1 => e.str s
  | 2 => e.reg r
  | _ => .error .reserved

/-- cbase, rbase (R346). -/
def EIw.nbase (e : EIw) (a s : EBase → Instr) : Except Reject Instr :=
  match e.fn with
  | 0 => e.base a
  | 1 => e.base s
  | _ => .error .reserved

/-- cfmt, rfmt (R346). -/
def EIw.nfmt (e : EIw) (f : EFmt → Instr) (fill limit subv : EReg → Instr) (clear : ENone → Instr) :
    Except Reject Instr :=
  match e.fn with
  | 0 => e.fmt f
  | 1 => e.reg fill
  | 2 => e.reg limit
  | 3 => e.reg subv
  | 4 => e.none clear
  | _ => .error .reserved

def EAw.copy (e : EAw) (k : CopyF → Instr) : Except Reject Instr := do
  zero (e.fn / 4); zero e.lo
  let y ← e.sy
  let os ← ovr (e.fn % 2) e.ra
  let od ← ovr (e.fn / 2 % 2) e.rb
  keep (k ⟨e.st, y, e.ch, os, od, e.rc⟩)

def EAw.copyz (e : EAw) : Except Reject Instr := do
  zero (e.fn / 16); zero e.ra; zero e.rb; zero e.lo
  let y ← e.sy
  keep (.copyz ⟨e.st, y, e.ch, e.fn % 4 + 1, e.fn / 4 % 4 + 1, e.rc⟩)

def EAw.gather (e : EAw) : Except Reject Instr := do
  zero (e.fn % 2); zero (e.fn / 4); zero e.lo
  let y ← e.sy
  let od ← ovr (e.fn / 2 % 2) e.rb
  keep (.gather ⟨e.st, y, e.ch, od, e.ra, e.rc⟩)

def EAw.scatter (e : EAw) : Except Reject Instr := do
  zero (e.fn / 2); zero e.lo
  let y ← e.sy
  let os ← ovr (e.fn % 2) e.ra
  keep (.scatter ⟨e.st, y, e.ch, os, e.rb, e.rc⟩)

def EAw.drain (e : EAw) : Except Reject Instr := do
  zero e.fn; zero e.ra; zero e.rb; zero e.rc; zero e.lo
  let y ← e.sy
  keep (.drain ⟨e.st, y, e.ch⟩)

def EAw.cpref (e : EAw) : Except Reject Instr := do
  zero (e.fn / 8); zero e.rc; zero e.lo
  let y ← e.sy
  keep (.cpref ⟨e.st, y, e.ch, e.fn % 4, flag (e.fn / 4 % 2), e.ra, e.rb⟩)

def EAw.red (e : EAw) (k : RedF → Instr) : Except Reject Instr := do
  zero e.ch; zero e.ra; zero e.rb; zero e.rc; zero e.lo
  let y ← e.sy
  let op ← RedOp.ofCode (e.fn % 8)
  keep (k ⟨e.st, y, op, e.fn / 8⟩)

def EAw.none (e : EAw) (k : ENone → Instr) : Except Reject Instr := do
  zero e.ch; zero e.fn; zero e.ra; zero e.rb; zero e.rc; zero e.lo
  let y ← e.sy
  keep (k ⟨e.st, y⟩)

def EAw.idx (e : EAw) (k : EIdx → Instr) : Except Reject Instr := do
  zero e.ch; zero (e.fn / 16); zero e.rb; zero e.rc; zero e.lo
  let y ← e.sy
  keep (k ⟨e.st, y, e.fn, e.ra⟩)

def EAw.reg (e : EAw) (k : EReg → Instr) : Except Reject Instr := do
  zero e.ch; zero e.fn; zero e.rb; zero e.rc; zero e.lo
  let y ← e.sy
  keep (k ⟨e.st, y, e.ra⟩)

def EAw.kar (e : EAw) (k : KarF → Instr) : Except Reject Instr := do
  zero e.ch; zero (e.fn / 16); zero e.rc; zero e.lo
  let y ← e.sy
  keep (k ⟨e.st, y, e.fn, e.ra, e.rb⟩)

def EAw.e3 (e : EAw) (k : E3 → Instr) : Except Reject Instr := do
  zero e.ch; zero e.fn; zero e.lo
  let y ← e.sy
  keep (k ⟨e.st, y, e.ra, e.rb, e.rc⟩)

def EAw.e2 (e : EAw) (k : E2 → Instr) : Except Reject Instr := do
  zero e.ch; zero e.fn; zero e.rc; zero e.lo
  let y ← e.sy
  keep (k ⟨e.st, y, e.ra, e.rb⟩)

def EAw.mzero (e : EAw) : Except Reject Instr := do
  zero e.ch; zero (e.fn % 8); zero (e.fn / 16); zero e.rc; zero e.lo
  let y ← e.sy
  keep (.mzero ⟨e.st, y, flag (e.fn / 8 % 2), e.ra, e.rb⟩)

def EAw.minit (e : EAw) : Except Reject Instr := do
  zero e.ch; zero (e.fn / 4 % 2); zero (e.fn / 16); zero e.lo
  let y ← e.sy
  let sp ← MSpace.ofCode (e.fn % 4)
  keep (.minit ⟨e.st, y, flag (e.fn / 8 % 2), sp, e.ra, e.rb, e.rc⟩)

def EAw.mdrain (e : EAw) : Except Reject Instr := do
  zero e.ch; zero (e.fn / 4); zero e.lo
  let y ← e.sy
  let sp ← MSpace.ofCode (e.fn % 4)
  keep (.mdrain ⟨e.st, y, sp, e.ra, e.rb, e.rc⟩)

def EAw.merge (e : EAw) : Except Reject Instr := do
  zero e.ch; zero (e.fn / 2); zero e.rc; zero e.lo
  let y ← e.sy
  keep (.merge ⟨e.st, y, flag (e.fn % 2), e.ra, e.rb⟩)

def EAw.dtap (e : EAw) : Except Reject Instr := do
  zero e.ch; zero (e.fn / 4); zero e.rc; zero e.lo
  let y ← e.sy
  keep (.dtap ⟨e.st, y, e.fn % 4, e.ra, e.rb⟩)

/-- C-tagged words by OP (R278). -/
def decodeC (op v : Nat) : Except Reject Instr :=
  match op with
  | 0x00 => (eiOf v).nest .cnestCount .cnestStride .cnestRun
  | 0x01 => (eiOf v).nbase .cbaseAddr .cbaseScale
  | 0x02 => (eiOf v).nfmt .cfmtFmt .cfmtFill .cfmtLimit .cfmtSubv .cfmtClear
  | 0x03 => (eaOf v).copy .copy
  | 0x04 => (eaOf v).copyz
  | 0x05 => (eaOf v).gather
  | 0x06 => (eaOf v).scatter
  | 0x07 => (eaOf v).copy .decomp
  | 0x08 => (eaOf v).drain
  | 0x09 => (eaOf v).cpref
  | _ => .error .badOp

/-- mnest (R379). -/
def EIw.mnest (e : EIw) : Except Reject Instr :=
  match e.fn with
  | 0 => e.lvl .mnestCount
  | 1 => e.str .mnestStride
  | _ => .error .reserved

/-- mbase (R379). -/
def EIw.mbase (e : EIw) : Except Reject Instr :=
  match e.fn with
  | 0 => e.base .mbaseAddr
  | 1 => e.base .mbaseScale
  | 2 => e.reg .mbasePitch
  | 3 => e.reg .mbaseDpitch
  | _ => .error .reserved

/-- mfmt (R379). -/
def EIw.mfmt (e : EIw) : Except Reject Instr :=
  match e.fn with
  | 0 => e.reg .mfmtCtl
  | 1 => e.reg .mfmtDctl
  | 2 => e.reg .mfmtDsb
  | 3 => e.reg .mfmtClip
  | 4 => e.reg .mfmtSubv
  | 5 => e.none .mfmtClear
  | _ => .error .reserved

/-- M-tagged words by OP (R278). -/
def decodeM (op v : Nat) : Except Reject Instr :=
  match op with
  | 0x00 => (eiOf v).mnest
  | 0x01 => (eiOf v).mbase
  | 0x02 => (eiOf v).mfmt
  | 0x03 => (eaOf v).none .mgo
  | 0x04 => (eaOf v).mzero
  | 0x05 => (eaOf v).minit
  | 0x06 => (eaOf v).mdrain
  | 0x07 => (eaOf v).e3 .msparse
  | 0x08 => (eaOf v).e2 .dmap
  | 0x09 => (eaOf v).idx .dcurve
  | 0x0A => (eaOf v).dtap
  | 0x0B => (eaOf v).none .dgo
  | _ => .error .badOp

/-- R-tagged words by OP (R278). -/
def decodeR (op v : Nat) : Except Reject Instr :=
  match op with
  | 0x00 => (eiOf v).nest .rnestCount .rnestStride .rnestRun
  | 0x01 => (eiOf v).nbase .rbaseAddr .rbaseScale
  | 0x02 => (eiOf v).nfmt .rfmtFmt .rfmtFill .rfmtLimit .rfmtSubv .rfmtClear
  | 0x03 => (eaOf v).red .red
  | 0x04 => (eaOf v).red .scan
  | 0x05 => (eaOf v).merge
  | _ => .error .badOp

/-- K-tagged words by OP (R278). -/
def decodeK (op v : Nat) : Except Reject Instr :=
  match op with
  | 0x00 => (eaOf v).idx .kring
  | 0x01 => (eaOf v).reg .kbw
  | 0x02 => (eaOf v).kar .kallred
  | 0x03 => (eaOf v).kar .kbcast
  | 0x04 => (eaOf v).e3 .kput
  | _ => .error .badOp

/-- TAG of a main-stream word (R261). -/
def tagOf (v : Nat) : Nat := v / 2 ^ 61 % 8

/-- STALL of a main-stream word (R261). -/
def stallOf (v : Nat) : Nat := v / 2 ^ 58 % 8

/-- OP of a main-stream word (R261). -/
def opOf (v : Nat) : Nat := v / 2 ^ 50 % 256

/-- The decoder of main-stream words: checks 1 to 3 of R264, in order. -/
def decodeMain (v : Nat) : Except Reject Instr :=
  match tagOf v with
  | 0 => decodeS (opOf v) v
  | 1 => decodeC (opOf v) v
  | 2 => decodeM (opOf v) v
  | 3 => decodeR (opOf v) v
  | 4 => decodeK (opOf v) v
  | 5 => decodeA (opOf v) v
  | _ => .error .badTag

/-! ## Port words -/

def portOf (v : Nat) : PortF :=
  match fieldsOf fmtPort v with
  | [_, d, a, b, c, m, x] => ⟨d, a, b, c, m, x⟩
  | _ => ⟨0, 0, 0, 0, 0, 0⟩

/-- Port words by op (R279): unused fields are ignored (R282), reserved ops rejected. -/
def decodePort (v : Nat) : Except Reject Instr :=
  let o := portOf v
  match v / 2 ^ 26 % 64 with
  | 0x00 => .ok (.portFadd o)
  | 0x01 => .ok (.portFsub o)
  | 0x02 => .ok (.portFmul o)
  | 0x03 => .ok (.portFfma o)
  | 0x04 => .ok (.portFmin o)
  | 0x05 => .ok (.portFmax o)
  | 0x06 => .ok (.portFabs o)
  | 0x07 => .ok (.portFneg o)
  | 0x08 => .ok (.portFrcp o)
  | 0x09 => .ok (.portFrsq o)
  | 0x0A => .ok (.portFex2 o)
  | 0x0B => .ok (.portFlg2 o)
  | 0x0C => .ok (.portFcmp o)
  | 0x10 => .ok (.portIadd o)
  | 0x11 => .ok (.portIsub o)
  | 0x12 => .ok (.portImul o)
  | 0x13 => .ok (.portImulh o)
  | 0x14 => .ok (.portImin o)
  | 0x15 => .ok (.portImax o)
  | 0x16 => .ok (.portIminu o)
  | 0x17 => .ok (.portImaxu o)
  | 0x18 => .ok (.portAnd o)
  | 0x19 => .ok (.portOr o)
  | 0x1A => .ok (.portXor o)
  | 0x1B => .ok (.portShl o)
  | 0x1C => .ok (.portShr o)
  | 0x1D => .ok (.portSra o)
  | 0x1E => .ok (.portIcmp o)
  | 0x1F => .ok (.portSel o)
  | 0x20 => .ok (.portCvt o)
  | 0x21 => .ok (.portRnd o)
  | 0x22 => .ok (.portQsr o)
  | 0x24 => .ok (.portGet o)
  | 0x25 => .ok (.portOut o)
  | 0x26 => .ok (.portDrop o)
  | 0x27 => .ok (.portPar o)
  | 0x28 => .ok (.portParx o)
  | 0x29 => .ok (.portCget o)
  | 0x2A => .ok (.portCset o)
  | 0x2B => .ok (.portPrev o)
  | 0x2C => .ok (.portLut o)
  | 0x2D => .ok (.portLdl o)
  | 0x2E => .ok (.portStl o)
  | 0x2F => .ok (.portFlag o)
  | 0x38 => .ok (.portHint 0 o)
  | 0x39 => .ok (.portHint 1 o)
  | 0x3A => .ok (.portHint 2 o)
  | 0x3B => .ok (.portHint 3 o)
  | 0x3C => .ok (.portHint 4 o)
  | 0x3D => .ok (.portHint 5 o)
  | 0x3E => .ok (.portHint 6 o)
  | 0x3F => .ok (.portHint 7 o)
  | _ => .error .badOp

/-! ## Bytes -/

/-- The number whose little-endian bytes are listed (R7). -/
def natOfBytes : List Byte → Nat
  | [] => 0
  | b :: bs => b.toNat + 256 * natOfBytes bs

/-- The first `n` little-endian bytes of a number (R7). -/
def bytesOfNat : Nat → Nat → List Byte
  | 0, _ => []
  | n + 1, v => BitVec.ofNat 8 v :: bytesOfNat n (v / 256)

/-- Decodes a main-stream instruction from its eight bytes and gives the rest of the list. -/
def decodeMainBytes (bs : List Byte) : Except Reject (Instr × List Byte) :=
  if bs.length < 8 then .error .short else do
    let i ← decodeMain (natOfBytes (bs.take 8))
    return (i, bs.drop 8)

/-- Decodes a port instruction from its four bytes and gives the rest of the list. -/
def decodePortBytes (bs : List Byte) : Except Reject (Instr × List Byte) :=
  if bs.length < 4 then .error .short else do
    let i ← decodePort (natOfBytes (bs.take 4))
    return (i, bs.drop 4)

/-- The host's question for a row of the opcode table: port rows are 32-bit words, main-stream words 64 bits. -/
def decodeTableWord (nbits w : Nat) : Option Instr :=
  if nbits ≤ 32 then
    match decodePortBytes (bytesOfNat 4 w) with
    | .ok (i, _) => some i
    | .error _ => none
  else
    match decodeMainBytes (bytesOfNat 8 w) with
    | .ok (i, _) => some i
    | .error _ => none

/-! ## The encoder -/

def encSR (op st rd ra rb rc fn md : Nat) : Nat := packOf fmtSR [0, st, op, rd, ra, rb, rc, fn, md, 0]
def encSI (op st rd ra fn imm : Nat) : Nat := packOf fmtSI [0, st, op, rd, ra, fn, imm]
def encSM (op st rt ra rb size ord scope ext hint off : Nat) : Nat :=
  packOf fmtSM [0, st, op, rt, ra, rb, size, ord, scope, ext, hint, off]
def encSX (op st rt ra rb size ord scope fn tail : Nat) : Nat :=
  packOf fmtSX [0, st, op, rt, ra, rb, size, ord, scope, fn, tail]
def encAB (op st f m ra imm : Nat) : Nat := packOf fmtAB [5, st, op, f, m, ra, imm]

/-- The wait fields of a synchronisation: WV and WSEM (R271). -/
def Sync.wBits (y : Sync) : Nat × Nat :=
  match y.wait with
  | none => (0, 0)
  | some n => (1, n)

/-- The signal fields: SV, SSEM and xv (R271). -/
def Sync.sBits (y : Sync) : Nat × Nat × Nat :=
  match y.sig with
  | none => (0, 0, 0)
  | some (n, v) => (1, n, v.toNat)

def encEA (tag op st : Nat) (y : Sync) (ch fn ra rb rc : Nat) : Nat :=
  packOf fmtEA [tag, st, op, y.wBits.1, y.wBits.2, y.sBits.1, y.sBits.2.1, ch, fn, ra, rb, rc, y.sBits.2.2, 0]
def encEI (tag op st : Nat) (y : Sync) (fn ra imm : Nat) : Nat :=
  packOf fmtEI [tag, st, op, y.wBits.1, y.wBits.2, y.sBits.1, y.sBits.2.1, 0, fn, ra, y.sBits.2.2, imm]
def encPort (op : Nat) (o : PortF) : Nat := packOf fmtPort [op, o.d, o.a, o.b, o.c, o.m, o.x]

def R3w.enc (o : R3w) (op : Nat) : Nat := encSR op o.st o.rd o.ra o.rb 0 0 o.w.code
def R2w.enc (o : R2w) (op : Nat) : Nat := encSR op o.st o.rd o.ra 0 0 0 o.w.code
def R4w.enc (o : R4w) (op : Nat) : Nat := encSR op o.st o.rd o.ra o.rb o.rc 0 o.w.code
def R3.enc (o : R3) (op : Nat) : Nat := encSR op o.st o.rd o.ra o.rb 0 0 0
def R4.enc (o : R4) (op : Nat) : Nat := encSR op o.st o.rd o.ra o.rb o.rc 0 0
def R2.enc (o : R2) (op : Nat) : Nat := encSR op o.st o.rd o.ra 0 0 0 0
def R1a.enc (o : R1a) (op : Nat) : Nat := encSR op o.st 0 o.ra 0 0 0 0
def R1d.enc (o : R1d) (op : Nat) : Nat := encSR op o.st o.rd 0 0 0 0 0
def R0.enc (o : R0) (op : Nat) : Nat := encSR op o.st 0 0 0 0 0 0
def R0.encA (o : R0) (op : Nat) : Nat := encAB op o.st 0 0 0 0
def SelF.enc (o : SelF) (op : Nat) : Nat := encSR op o.st o.rd o.ra o.rb o.rc (16 * bit o.pk) 0
def CmpF.enc (o : CmpF) (op : Nat) : Nat := encSR op o.st o.rd o.ra o.rb 0 (o.cond.code + 16 * bit o.pk) o.w.code
def RIw.enc (o : RIw) (op : Nat) : Nat := encSI op o.st o.rd o.ra o.w.code o.imm.toNat
def CmpiF.enc (o : CmpiF) (op : Nat) : Nat := encSI op o.st o.rd o.ra o.cond.code o.imm.toNat
def RI0.enc (o : RI0) (op : Nat) : Nat := encSI op o.st o.rd 0 0 o.imm.toNat
def LdF.enc (o : LdF) (op : Nat) : Nat :=
  encSM op o.st o.rt o.ra 0 o.size.code o.ord.code o.scope.code (bit o.sx) o.hint.code o.off.toNat
def StF.enc (o : StF) (op : Nat) : Nat :=
  encSM op o.st o.rt o.ra 0 o.size.code o.ord.code o.scope.code 0 o.hint.code o.off.toNat
def LdxF.enc (o : LdxF) (op : Nat) : Nat :=
  encSM op o.st o.rt o.ra o.rb o.size.code o.ord.code o.scope.code (bit o.sx) o.hint.code 0
def StxF.enc (o : StxF) (op : Nat) : Nat :=
  encSM op o.st o.rt o.ra o.rb o.size.code o.ord.code o.scope.code 0 o.hint.code 0
def PrefF.enc (o : PrefF) (op : Nat) : Nat :=
  encSM op o.st 0 o.ra 0 o.size.code 0 o.scope.code 0 o.hint.code o.off.toNat
def WaitaF.enc (o : WaitaF) (op : Nat) : Nat :=
  encSM op o.st o.rt o.ra o.rb o.size.code o.ord.code o.scope.code (bit o.sx) o.hint.code o.off.toNat
def FenceF.enc (o : FenceF) (op : Nat) : Nat := encSM op o.st 0 0 0 0 o.ord.code o.scope.code 0 0 0
def AmoF.enc (o : AmoF) (op : Nat) : Nat :=
  encSX op o.st o.rt o.ra o.rb (2 + bit o.wide) o.ord.code o.scope.code o.op.code o.off.toNat
def CasF.enc (o : CasF) (op : Nat) : Nat :=
  encSX op o.st o.rt o.ra o.rb (2 + bit o.wide) o.ord.code o.scope.code 0 (o.rc * 2 ^ 14 + o.off.toNat)

/-- The size, fn and upper tail of a mred mode (R270). -/
def MredMode.enc : MredMode → Nat × Nat × Nat
  | .float ty satf can fz =>
    (if ty == .f32 then 2 else 1, 4 * bit satf + 2 * bit can + bit fz, ty.code * 2 ^ 16)
  | .fixed e => (3, 8, e.toNat * 256)

def MredF.enc (o : MredF) (op : Nat) : Nat :=
  encSX op o.st 0 o.ra o.rb o.mode.enc.1 o.ord.code o.scope.code o.mode.enc.2.1 (o.mode.enc.2.2 + o.off.toNat)
def F3.enc (o : F3) (op : Nat) : Nat := encSR op o.st o.rd o.ra o.rb 0 0 (2 * bit o.fz)
def F4.enc (o : F4) (op : Nat) : Nat := encSR op o.st o.rd o.ra o.rb o.rc 0 (2 * bit o.fz)
def F2.enc (o : F2) (op : Nat) : Nat := encSR op o.st o.rd o.ra 0 0 0 (2 * bit o.fz)
def FcvtF.enc (o : FcvtF) (op : Nat) : Nat :=
  encSR op o.st o.rd o.ra 0 0 (o.src.code * 16 + o.dst.code) (2 * bit o.fz)
def FcmpF.enc (o : FcmpF) (op : Nat) : Nat :=
  encSR op o.st o.rd o.ra o.rb 0 (o.cond.code + 16 * bit o.pk) (2 * bit o.fz)
def SemN.enc (o : SemN) (op : Nat) : Nat := encSI op o.st 0 0 0 (o.n.toNat * 256 + o.sem)
def SemI.enc (o : SemI) (op : Nat) : Nat := encSI op o.st 0 0 (bit o.keep) (o.v.toNat * 256 + o.sem)
def SemR.enc (o : SemR) (op : Nat) : Nat := encSI op o.st o.rd 0 (bit o.sw) o.sem
def RdsysF.enc (o : RdsysF) (op : Nat) : Nat := encSI op o.st o.rd 0 0 o.num.toNat
def WrsysF.enc (o : WrsysF) (op : Nat) : Nat := encSI op o.st 0 o.ra 0 o.num.toNat
def ImmF.enc (o : ImmF) (op : Nat) : Nat := encSI op o.st 0 0 0 o.imm.toNat
def Rab.enc (o : Rab) (op : Nat) : Nat := encSR op o.st 0 o.ra o.rb 0 0 0
def TlbiF.enc (o : TlbiF) (op : Nat) : Nat :=
  match o.range with
  | none => encSR op o.st 0 0 0 0 (1 + 2 * bit o.g) 0
  | some (a, b) => encSR op o.st 0 a b 0 (2 * bit o.g) 0
def PloadF.enc (o : PloadF) (op : Nat) : Nat := encSR op o.st 0 o.ra 0 0 o.slot 0
def PbindF.enc (o : PbindF) (op : Nat) : Nat := encSR op o.st 0 0 0 0 (o.slot + 8 * o.pt.code) 0
def PbindUF.enc (o : PbindUF) (op : Nat) : Nat := encSR op o.st 0 0 0 0 (8 * o.pt.code + 64) 0
def PparF.enc (o : PparF) (op : Nat) : Nat := encSR op o.st 0 o.ra 0 0 o.p 0
def PclrF.enc (o : PclrF) (op : Nat) : Nat := encSR op o.st 0 0 0 0 (o.slot + 8 * bit o.lpm) 0
def PrdF.enc (o : PrdF) (op mode : Nat) : Nat := encSR op o.st o.rd 0 0 0 (o.slot + 8 * mode) 0
def PrdCF.enc (o : PrdCF) (op : Nat) : Nat := encSR op o.st o.rd o.ra 0 0 (o.slot + 8 + 32 * o.ci) 0
def BrF.enc (o : BrF) (op : Nat) : Nat := encAB op o.st 0 0 0 o.off.toNat
def BkF.enc (o : BkF) (op : Nat) : Nat := encAB op o.st o.cond.code o.rb o.ra o.off.toNat
def JrF.enc (o : JrF) (op : Nat) : Nat := encAB op o.st 0 0 o.ra 0
def LoopF.enc (o : LoopF) (op : Nat) : Nat := encAB op o.st 0 0 o.ra o.off.toNat
def TstbF.enc (o : TstbF) (op : Nat) : Nat :=
  match o.src with
  | .sem n => encAB op o.st n (256 * bit o.none) o.mask o.off.toNat
  | .mem r => encAB op o.st r (512 + 256 * bit o.none) o.mask o.off.toNat
def XfenceF.enc (o : XfenceF) (op : Nat) : Nat :=
  encAB op o.st o.scope.code (o.fromSet.toNat * 32 + o.toSet.toNat) 0 0

/-- The register and the bit of an optional base override. -/
def ovrBits : Option Nat → Nat × Nat
  | none => (0, 0)
  | some r => (1, r)

def ELvl.enc (o : ELvl) (tag op fn : Nat) : Nat := encEI tag op o.st o.sy fn o.ra o.lvl
def EStr.enc (o : EStr) (tag op fn : Nat) : Nat := encEI tag op o.st o.sy fn o.ra (o.lvl + 8 * o.j)
def EReg.enc (o : EReg) (tag op fn : Nat) : Nat := encEI tag op o.st o.sy fn o.ra 0
def EBase.enc (o : EBase) (tag op fn : Nat) : Nat := encEI tag op o.st o.sy fn o.ra (8 * o.j + 64 * o.sp)
def EFmt.enc (o : EFmt) (tag op fn : Nat) : Nat := encEI tag op o.st o.sy fn o.ra (8 * o.j)
def ENone.encI (o : ENone) (tag op fn : Nat) : Nat := encEI tag op o.st o.sy fn 0 0
def ENone.enc (o : ENone) (tag op : Nat) : Nat := encEA tag op o.st o.sy 0 0 0 0 0
def CopyF.enc (o : CopyF) (tag op : Nat) : Nat :=
  encEA tag op o.st o.sy o.ch ((ovrBits o.os).1 + 2 * (ovrBits o.od).1) (ovrBits o.os).2 (ovrBits o.od).2 o.rc
def CopyzF.enc (o : CopyzF) (tag op : Nat) : Nat :=
  encEA tag op o.st o.sy o.ch (o.ns - 1 + 4 * (o.nd - 1)) 0 0 o.rc
def GatherF.enc (o : GatherF) (tag op : Nat) : Nat :=
  encEA tag op o.st o.sy o.ch (2 * (ovrBits o.od).1) o.ra (ovrBits o.od).2 o.rc
def ScatterF.enc (o : ScatterF) (tag op : Nat) : Nat :=
  encEA tag op o.st o.sy o.ch (ovrBits o.os).1 (ovrBits o.os).2 o.rb o.rc
def DrainF.enc (o : DrainF) (tag op : Nat) : Nat := encEA tag op o.st o.sy o.ch 0 0 0 0
def CprefF.enc (o : CprefF) (tag op : Nat) : Nat :=
  encEA tag op o.st o.sy o.ch (o.evp + 4 * bit o.evpv) o.ra o.rb 0
def RedF.enc (o : RedF) (tag op : Nat) : Nat := encEA tag op o.st o.sy 0 (o.op.code + 8 * o.d) 0 0 0
def EIdx.enc (o : EIdx) (tag op : Nat) : Nat := encEA tag op o.st o.sy 0 o.g o.ra 0 0
def EReg.encA (o : EReg) (tag op : Nat) : Nat := encEA tag op o.st o.sy 0 0 o.ra 0 0
def KarF.enc (o : KarF) (tag op : Nat) : Nat := encEA tag op o.st o.sy 0 o.g o.ra o.rb 0
def E3.enc (o : E3) (tag op : Nat) : Nat := encEA tag op o.st o.sy 0 0 o.ra o.rb o.rc
def E2.enc (o : E2) (tag op : Nat) : Nat := encEA tag op o.st o.sy 0 0 o.ra o.rb 0
def MzeroF.enc (o : MzeroF) (tag op : Nat) : Nat := encEA tag op o.st o.sy 0 (8 * bit o.i32) o.ra o.rb 0
def MergeF.enc (o : MergeF) (tag op : Nat) : Nat := encEA tag op o.st o.sy 0 (bit o.sgn) o.ra o.rb 0
def MinitF.enc (o : MinitF) (tag op : Nat) : Nat :=
  encEA tag op o.st o.sy 0 (8 * bit o.i32 + o.sp.code) o.ra o.rb o.rc
def MdrainF.enc (o : MdrainF) (tag op : Nat) : Nat := encEA tag op o.st o.sy 0 o.sp.code o.ra o.rb o.rc
def DtapF.enc (o : DtapF) (tag op : Nat) : Nat := encEA tag op o.st o.sy 0 o.mode o.ra o.rb 0

/-- The word of a main-stream instruction (64 bits) or port instruction (32 bits); a device event has no word. -/
def encode : Instr → Option Nat
  | .mgmtOwnRead | .mgmtOwnWrite _ _ | .mgmtHbWrite | .ownershipLapse | .registerWrite _ _ _ _ _
  | .bootCommit | .commitVerifyDone | .firmwareWriteDone | .bootClrt | .bootFmin | .bootRst | .deviceReset
  | .bootStage _ | .fwdog | .linkStageEnd | .auxPowerLoss | .powerLoss | .therm _ _ | .powerThrottle _ _
  | .train _ _ | .en _ _ _ | .linkTrainingDone _ _ _ _ _ _ _ | .linkDown _ | .routeChange _ | .noRouteTimeout _
  | .flitCrcReplay _ _ | .remoteRequest _ _ _ | .remoteResponse _ _ | .keyld | .keyclr | .hkey | .codekey
  | .codereg | .coderel | .codest | .xreg | .xdel | .attest | .abort | .mailboxCommandEnd
  | .lwProdWrite _ _ | .descriptorAccept | .completionRecordWrite _ | .tlim _ | .pageLoad _ _
  | .cxlMemRead _ _ _ _ | .cxlMemWrite _ _ _ _ | .hostAtomicop _ _ _ _ _ _ _ | .dispatch _ | .agingStep _
  | .tokenTick | .reserving _ | .saveComplete _ | .engineInstructionDecode _ | .engineCommandComplete _ _
  | .engineWritePerform _ _ | .storePerform _ _ | .loadReturn _ _ _ | .l1AgeOut _ _ | .scWheelIssue
  | .scPerform | .mredPerform | .handlerStart | .watchdog | .sleepuWake | .waitaWake _ | .yieldEnd
  | .svcReply | .readyWordPoll _ _ | .segmentArrival _ _ | .kputAck _ _ | .engineIterationBoundary _ _
  | .throttleCauseClears _ _ => none
  | .add o => some (o.enc 0x00) | .sub o => some (o.enc 0x01) | .mul o => some (o.enc 0x02)
  | .mulh o => some (o.enc 0x03) | .mulhu o => some (o.enc 0x04) | .div o => some (o.enc 0x05)
  | .divu o => some (o.enc 0x06) | .rem o => some (o.enc 0x07) | .remu o => some (o.enc 0x08)
  | .and o => some (o.enc 0x09) | .or o => some (o.enc 0x0A) | .xor o => some (o.enc 0x0B)
  | .shl o => some (o.enc 0x0C) | .shr o => some (o.enc 0x0D) | .sra o => some (o.enc 0x0E)
  | .min o => some (o.enc 0x0F) | .max o => some (o.enc 0x10) | .minu o => some (o.enc 0x11)
  | .maxu o => some (o.enc 0x12) | .clz o => some (o.enc 0x13) | .popc o => some (o.enc 0x14)
  | .bext o => some (o.enc 0x15) | .bins o => some (o.enc 0x16) | .sel o => some (o.enc 0x17)
  | .cmp o => some (o.enc 0x18) | .madd o => some (o.enc 0x19)
  | .addi o => some (o.enc 0x20) | .andi o => some (o.enc 0x21) | .ori o => some (o.enc 0x22)
  | .xori o => some (o.enc 0x23) | .shli o => some (o.enc 0x24) | .shri o => some (o.enc 0x25)
  | .srai o => some (o.enc 0x26) | .cmpi o => some (o.enc 0x27) | .li o => some (o.enc 0x28)
  | .lih o => some (o.enc 0x29) | .muli o => some (o.enc 0x2A)
  | .ld o => some (o.enc 0x40) | .st o => some (o.enc 0x41) | .ldx o => some (o.enc 0x42)
  | .stx o => some (o.enc 0x43) | .pref o => some (o.enc 0x44) | .waita o => some (o.enc 0x45)
  | .mark o => some (encSM 0x46 o.st 0 0 0 0 0 0 0 0 0) | .fence o => some (o.enc 0x47)
  | .amo o => some (o.enc 0x60) | .cas o => some (o.enc 0x61) | .mred o => some (o.enc 0x62)
  | .vamo o => some (o.enc 0x63) | .vmred o => some (o.enc 0x64)
  | .fadd o => some (o.enc 0x70) | .fsub o => some (o.enc 0x71) | .fmul o => some (o.enc 0x72)
  | .ffma o => some (o.enc 0x73) | .fmin o => some (o.enc 0x74) | .fmax o => some (o.enc 0x75)
  | .fcvt o => some (o.enc 0x76) | .fcmp o => some (o.enc 0x77) | .frcp o => some (o.enc 0x78)
  | .frsq o => some (o.enc 0x79)
  | .spawn o => some (o.enc 0x80) | .arrive o => some (o.enc 0x81) | .est o => some (o.enc 0x82)
  | .bmake o => some (o.enc 0x83) | .join o => some (o.enc 0x84) | .leave o => some (o.enc 0x85)
  | .bbar o => some (o.enc 0x86) | .semw o => some (o.enc 0x87) | .sems o => some (o.enc 0x88)
  | .semi o => some (o.enc 0x89) | .semr o => some (o.enc 0x8A) | .sleepu o => some (o.enc 0x8B)
  | .cyc o => some (o.enc 0x8C) | .yield o => some (o.enc 0x8D)
  | .rdsys o => some (o.enc 0xA0) | .wrsys o => some (o.enc 0xA1) | .svc o => some (o.enc 0xA2)
  | .trap o => some (o.enc 0xA3) | .tret o => some (o.enc 0xA4) | .iclk o => some (o.enc 0xA5)
  | .iulk o => some (o.enc 0xA6) | .tlbi o => some (o.enc 0xA7) | .caps o => some (o.enc 0xA8)
  | .pload o => some (o.enc 0xB0) | .pbind o => some (o.enc 0xB1) | .pbindU o => some (o.enc 0xB1)
  | .ppar o => some (o.enc 0xB2) | .pclr o => some (o.enc 0xB3) | .prd o => some (o.enc 0xB4 0)
  | .prdC o => some (o.enc 0xB4) | .prdN o => some (o.enc 0xB4 2)
  | .br o => some (o.enc 0x00) | .bk o => some (o.enc 0x01) | .jr o => some (o.enc 0x02)
  | .call o => some (o.enc 0x03) | .ret o => some (o.encA 0x04) | .loop o => some (o.enc 0x05)
  | .tstb o => some (o.enc 0x06) | .xfence o => some (o.enc 0x10) | .endTask o => some (o.encA 0x11)
  | .sync o => some (o.encA 0x12) | .nop o => some (o.encA 0x13)
  | .cnestCount o => some (o.enc 1 0x00 0) | .cnestStride o => some (o.enc 1 0x00 1)
  | .cnestRun o => some (o.enc 1 0x00 2) | .cbaseAddr o => some (o.enc 1 0x01 0)
  | .cbaseScale o => some (o.enc 1 0x01 1) | .cfmtFmt o => some (o.enc 1 0x02 0)
  | .cfmtFill o => some (o.enc 1 0x02 1) | .cfmtLimit o => some (o.enc 1 0x02 2)
  | .cfmtSubv o => some (o.enc 1 0x02 3) | .cfmtClear o => some (o.encI 1 0x02 4)
  | .copy o => some (o.enc 1 0x03) | .copyz o => some (o.enc 1 0x04) | .gather o => some (o.enc 1 0x05)
  | .scatter o => some (o.enc 1 0x06) | .decomp o => some (o.enc 1 0x07) | .drain o => some (o.enc 1 0x08)
  | .cpref o => some (o.enc 1 0x09)
  | .rnestCount o => some (o.enc 3 0x00 0) | .rnestStride o => some (o.enc 3 0x00 1)
  | .rnestRun o => some (o.enc 3 0x00 2) | .rbaseAddr o => some (o.enc 3 0x01 0)
  | .rbaseScale o => some (o.enc 3 0x01 1) | .rfmtFmt o => some (o.enc 3 0x02 0)
  | .rfmtFill o => some (o.enc 3 0x02 1) | .rfmtLimit o => some (o.enc 3 0x02 2)
  | .rfmtSubv o => some (o.enc 3 0x02 3) | .rfmtClear o => some (o.encI 3 0x02 4)
  | .red o => some (o.enc 3 0x03) | .scan o => some (o.enc 3 0x04) | .merge o => some (o.enc 3 0x05)
  | .kring o => some (o.enc 4 0x00) | .kbw o => some (o.encA 4 0x01) | .kallred o => some (o.enc 4 0x02)
  | .kbcast o => some (o.enc 4 0x03) | .kput o => some (o.enc 4 0x04)
  | .mnestCount o => some (o.enc 2 0x00 0) | .mnestStride o => some (o.enc 2 0x00 1)
  | .mbaseAddr o => some (o.enc 2 0x01 0) | .mbaseScale o => some (o.enc 2 0x01 1)
  | .mbasePitch o => some (o.enc 2 0x01 2) | .mbaseDpitch o => some (o.enc 2 0x01 3)
  | .mfmtCtl o => some (o.enc 2 0x02 0) | .mfmtDctl o => some (o.enc 2 0x02 1) | .mfmtDsb o => some (o.enc 2 0x02 2)
  | .mfmtClip o => some (o.enc 2 0x02 3) | .mfmtSubv o => some (o.enc 2 0x02 4)
  | .mfmtClear o => some (o.encI 2 0x02 5)
  | .mgo o => some (o.enc 2 0x03) | .mzero o => some (o.enc 2 0x04) | .minit o => some (o.enc 2 0x05)
  | .mdrain o => some (o.enc 2 0x06) | .msparse o => some (o.enc 2 0x07) | .dmap o => some (o.enc 2 0x08)
  | .dcurve o => some (o.enc 2 0x09) | .dtap o => some (o.enc 2 0x0A) | .dgo o => some (o.enc 2 0x0B)
  | .portFadd o => some (encPort 0x00 o) | .portFsub o => some (encPort 0x01 o)
  | .portFmul o => some (encPort 0x02 o) | .portFfma o => some (encPort 0x03 o)
  | .portFmin o => some (encPort 0x04 o) | .portFmax o => some (encPort 0x05 o)
  | .portFabs o => some (encPort 0x06 o) | .portFneg o => some (encPort 0x07 o)
  | .portFrcp o => some (encPort 0x08 o) | .portFrsq o => some (encPort 0x09 o)
  | .portFex2 o => some (encPort 0x0A o) | .portFlg2 o => some (encPort 0x0B o)
  | .portFcmp o => some (encPort 0x0C o)
  | .portIadd o => some (encPort 0x10 o) | .portIsub o => some (encPort 0x11 o)
  | .portImul o => some (encPort 0x12 o) | .portImulh o => some (encPort 0x13 o)
  | .portImin o => some (encPort 0x14 o) | .portImax o => some (encPort 0x15 o)
  | .portIminu o => some (encPort 0x16 o) | .portImaxu o => some (encPort 0x17 o)
  | .portAnd o => some (encPort 0x18 o) | .portOr o => some (encPort 0x19 o) | .portXor o => some (encPort 0x1A o)
  | .portShl o => some (encPort 0x1B o) | .portShr o => some (encPort 0x1C o) | .portSra o => some (encPort 0x1D o)
  | .portIcmp o => some (encPort 0x1E o) | .portSel o => some (encPort 0x1F o)
  | .portCvt o => some (encPort 0x20 o) | .portRnd o => some (encPort 0x21 o) | .portQsr o => some (encPort 0x22 o)
  | .portGet o => some (encPort 0x24 o) | .portOut o => some (encPort 0x25 o) | .portDrop o => some (encPort 0x26 o)
  | .portPar o => some (encPort 0x27 o) | .portParx o => some (encPort 0x28 o)
  | .portCget o => some (encPort 0x29 o) | .portCset o => some (encPort 0x2A o)
  | .portPrev o => some (encPort 0x2B o) | .portLut o => some (encPort 0x2C o)
  | .portLdl o => some (encPort 0x2D o) | .portStl o => some (encPort 0x2E o)
  | .portFlag o => some (encPort 0x2F o)
  | .portHint n o => some (encPort (0x38 + n) o)

end Sys2Proof
end

