-- ==== Sys2Proof/Machine/Control.lean ====
section
/-! DEFINITION. Control flow (R299-R301, R332), nop, and the A-tagged synchronisation instructions xfence, sync and end
(R95, R176, R333, R334). -/

namespace Sys2Proof.Machine

/-- Appends an A-tagged entry to the queue of each trailing stream that has instructions still to start; a stream without any
passes it at once (R92, R94). -/
def Engines.follow (g : Engines) (e : QEnt) : Engines :=
  let put : List QEnt → List QEnt := fun q => if q.isEmpty then q else q ++ [e]
  { g with qC := put g.qC, qM := put g.qM, qR := put g.qR, qK := put g.qK }

/-- S has executed an A-tagged instruction of control flow: the trailing streams follow its record (R94). -/
def State.follow (s : State) : State :=
  match s.cur.agent with
  | .S => s.modMe (fun c => c.modEng (fun g => g.follow ⟨s.sca.seq, s.pc, s.curWord, 0, 0, 0⟩))
  | .C => s | .M => s | .R => s | .K => s | .trapCore => s | .helper => s

/-- Goes to a target, or on to the next instruction: a taken branch lets the next instruction issue one clk later (R286). -/
def State.branch (s : State) (st : Nat) (taken : Bool) (target : Word) : State :=
  if taken then s.follow.retire st 1 target else s.follow.adv st

/-- A branch that has issued and waited is resolved (R286, R332). -/
def State.branchLate (s : State) (taken : Bool) (target : Word) : State :=
  let s := s.follow
  if taken then
    let sc := s.sca
    s.setSca { sc with pc := target, seq := sc.seq + 1, nextIssue := max (sc.nextIssue + 1) (s.clk + 1), boundSince := none, hold := .none,
                       bundle := sc.bundleFor target }
  else s.go

/-- br (R299). -/
def execBr (o : BrF) (s : State) : Res := s.issue [] none (.next (s.branch o.st true (s.target o.off)))

/-- bk (R299). -/
def execBk (o : BkF) (s : State) : Res :=
  s.issue [o.ra, o.rb] none (.next (s.branch o.st (o.cond.holds .d (s.r o.ra) (s.r o.rb)) (s.target o.off)))

/-- An indirect target must be a multiple of 8 (R301). -/
def State.jump (s : State) (st : Nat) (t : Word) : State :=
  if t.toNat % 8 ≠ 0 then s.trapS 5 8 t else s.branch st true t

/-- jr (R299, R301). -/
def execJr (o : JrF) (s : State) : Res := s.issue [o.ra] none (.next (s.jump o.st (s.r o.ra)))

/-- An instruction that the helper does not execute, though the trap core does (R113, R214). -/
def State.notHelper (s : State) (k : Res) : Res :=
  match s.cur.agent with
  | .helper => .next (s.endHelper s.myCore)
  | .trapCore => k | .S => k | .C => k | .M => k | .R => k | .K => k

/-- call (R299): s2 lands 1 clk after issue. -/
def execCall (o : BrF) (s : State) : Res :=
  s.notHelper (s.issue [] (some (2, 1)) (.next ((s.follow.res 2 (s.pc + 8) 1).retire o.st 1 (s.target o.off))))

/-- ret (R299, R301). -/
def execRet (o : R0) (s : State) : Res := s.notHelper (s.issue [2] none (.next (s.jump o.st (s.r 2))))

/-- loop (R300). -/
def execLoop (o : LoopF) (s : State) : Res :=
  let v := s.r o.ra - 1
  let u := s.follow.res o.ra v 1
  s.issue [o.ra] (some (o.ra, 1)) (.next (if v = 0 then u.adv o.st else u.retire o.st 1 (s.target o.off)))

/-- nop (R299). -/
def execNop (o : R0) (s : State) : Res := s.issue [] none (.next (s.follow.adv o.st))

/-- A semaphore of the context at the cursor. -/
def State.sem (s : State) (n : Nat) : Sem := Map.getD s.me.sems n .fresh

/-- tstb (R332): the status word of a semaphore, or 8 bytes of memory read as ld.d.rlx, which waits for its value: the S path
has then no earlier access, and the read is made at the point of coherence or in L1. A read that meets a poisoned unit raises
the data error (R225). -/
def execTstb (o : TstbF) (s : State) : Res :=
  s.notHelper
    (match o.src with
     | .sem n =>
       s.issue [o.mask] none
         (.next (s.branch o.st ((((s.sem n).status &&& s.r o.mask) != 0) != o.none) (s.target o.off)))
     | .mem ra =>
       s.issue [o.mask, ra] none
         (s.access .load (s.r ra) 8 (fun p =>
           if !s.me.path.drained then .next s
           else if s.poisoned p 8 then .next (s.trapAs true 0x0B p.errDetail (s.r ra))
           else
             match p.dev? with
             -- another device: the request is sent, and the branch resolves with the answer
             | some (dev, pa, key) =>
               .next (s.parkRemote o.st dev key (.load pa 8) (.tstb (s.r o.mask) o.none (s.target o.off)) (s.r ra))
             | none =>
               let v := leWord (s.loadBytes s.cur.cid p 8 true)
               .next (((s.noteXlat s.cur.cid (s.r ra)).sRead s.myCore p 8).branch o.st (((v &&& s.r o.mask) != 0) != o.none)
                 (s.target o.off)))))

/-! ## Trailing streams -/

/-- The operand queue of a trailing stream. -/
def Engines.q (g : Engines) (a : Agent) : List QEnt :=
  match a with
  | .C => g.qC | .M => g.qM | .R => g.qR | .K => g.qK
  | .S => [] | .trapCore => [] | .helper => []

def Engines.setQ (g : Engines) (a : Agent) (q : List QEnt) : Engines :=
  match a with
  | .C => { g with qC := q }
  | .M => { g with qM := q }
  | .R => { g with qR := q }
  | .K => { g with qK := q }
  | .S => g | .trapCore => g | .helper => g

/-- The instruction that stands at the head of the cursor's trailing stream. -/
def State.head (s : State) : QEnt :=
  ((s.me.eng.q s.cur.agent).head?).getD ⟨0, 0, 0, 0, 0, 0⟩

/-- A word of the control flow that S resolves alone: br, bk, jr, call, ret, loop, tstb or nop (R94). -/
def isFlow (w : Word) : Bool :=
  bitsOf w 63 61 == 5 && (decide (bitsOf w 57 50 ≤ 6) || bitsOf w 57 50 == 0x13)

/-- The number of a trailing stream's path (R139): C 0, M 1, R 2, K 3. -/
def pathOf : Agent → Nat
  | .C => 0 | .M => 1 | .R => 2 | .K => 3
  | .S => 4 | .trapCore => 4 | .helper => 4

/-- The head of the cursor's trailing stream has started on this clk: it leaves the queue, and the watchdog's time starts anew (R92, R100). -/
def State.started (s : State) : State :=
  s.modMe (fun c => { c with
    eng := { c.eng.setQ s.cur.agent (c.eng.q s.cur.agent).tail with began := Map.put c.eng.began (pathOf s.cur.agent) s.clk }
    sc := { c.sc with boundSince := none } })

/-- The trailing stream of a path has started nothing on a clk: it starts at most one instruction per clk (R92). -/
def Engines.canStart (g : Engines) (path clk : Nat) : Bool := Map.find g.began path != some clk

/-- The stream of a path. -/
def agentOf : Nat → Agent
  | 0 => .C | 1 => .M | 2 => .R | 3 => .K | _ => .S

/-- Commands of a path run (R176). -/
def Engines.busy (g : Engines) (path : Nat) : Bool :=
  match path with
  | 0 => !g.chans.isEmpty
  | 1 => g.array.isSome || g.drain.isSome
  | 2 => g.red.isSome
  | 3 => !g.coll.isEmpty
  | _ => false

/-- The writes of a path that stand in its write queue. -/
def Engines.wqOf (g : Engines) (path : Nat) : List WEnt := Map.getD g.wq path []

/-- Every access of a path before a fence is done (R176): commands completed, writes performed, and at .dom acknowledged. -/
def State.pathDone (s : State) (cid path : Nat) (sc : Scope) : Bool :=
  let g := (s.ctx cid).eng
  !g.busy path && (g.wqOf path).isEmpty && (sc != .dom || s.pathAcked cid path)

/-- The failed writes that a test admits are reported at a waiting instruction of a context (R434). -/
def State.reportWhere (s : State) (cid : Nat) (ok : WFail → Bool) (w fpc : Word) : Option State :=
  match (s.ctx cid).eng.wfails.find? ok with
  | none => none
  | some f =>
    let s := s.modCtx cid (fun c => c.modEng (fun g => { g with wfails := g.wfails.filter (fun x => !ok x) }))
    some (s.raiseOnce cid (f.frame w fpc))

/-- The failed writes of some paths are reported. -/
def State.reportFails (s : State) (cid : Nat) (paths : Nat → Bool) (w fpc : Word) : Option State :=
  s.reportWhere cid (fun f => paths f.path) w fpc

/-! ## xfence (R176) -/

/-- A class is in a set; the sets list S, C, M, R, K from bit 0. -/
def inSet (x : BitVec 5) (n : Nat) : Bool := x.toNat / 2 ^ n % 2 == 1

/-- A stream of the from-set has passed the fence of a sequence number: a failed write of its path is first reported there (R434). -/
def State.passed (s : State) (cid path seq : Nat) (sc : Scope) : Bool :=
  match (s.ctx cid).eng.q (agentOf path) with
  | [] => true
  | e :: es =>
    if e.seq = seq then s.pathDone cid path sc && !(s.ctx cid).eng.wfails.any (fun f => f.path == path) else decide (seq < e.seq) || !es.any (fun x => x.seq == seq)

/-- Every trailing stream of the from-set has passed. -/
def State.fromPassed (s : State) (cid seq : Nat) (o : XfenceF) : Bool :=
  (List.range 4).all (fun p => !inSet o.fromSet (p + 1) || s.passed cid p seq o.scope)

/-- Appends an instruction to the queues of the paths that a test admits (R93). -/
def Engines.pushAll (g : Engines) (e : QEnt) (ok : Nat → Bool) : Engines :=
  (List.range 4).foldl (fun g p => if ok p then g.setQ (agentOf p) (g.q (agentOf p) ++ [e]) else g) g

/-- S in the to-set waits at the xfence until every stream of the from-set has passed; then its L1 is written back and invalidated. -/
def State.xfenceWait (s : State) (n : Nat) (o : XfenceF) : State :=
  if s.fromPassed s.cur.cid n o then (s.wbInv s.myCore).go else s

/-- S decodes an xfence: the streams that it names get the instruction, and S waits if it is in the to-set. -/
def State.xfencePush (s : State) (o : XfenceF) : State :=
  let e : QEnt := ⟨s.sca.seq, s.pc, word ((encode (.xfence o)).getD 0), 0, 0, 0⟩
  let s := s.modMe (fun c => c.modEng (fun g =>
    g.pushAll e (fun p => inSet o.fromSet (p + 1) || inSet o.toSet (p + 1))))
  if inSet o.toSet 0 then (s.park (.xfence e.seq o) o.st).xfenceWait e.seq o else s.adv o.st

/-- S's part of xfence: its from-step, then its decode. -/
def xfenceS (o : XfenceF) (s : State) : Res :=
  if inSet o.fromSet 0 then
    s.whenDrained (o.scope != .core) (.next ((s.wbAll s.myCore).xfencePush o))
  else .next (s.xfencePush o)

/-- A trailing stream's part of xfence. -/
def xfenceX (o : XfenceF) (s : State) : Res :=
  let p := pathOf s.cur.agent
  let inF := inSet o.fromSet (p + 1)
  if inF && !s.pathDone s.cur.cid p o.scope then .next s
  else
    match (if inF then s.reportFails s.cur.cid (fun x => x == p) s.head.w s.head.addr else none) with
    | some s' => .next s'
    | none =>
      if inSet o.toSet (p + 1) && !s.fromPassed s.cur.cid s.head.seq o then .next s else .next s.started

/-- xfence (R95, R176, R333). -/
def execXfence (o : XfenceF) (s : State) : Res :=
  match s.cur.agent with
  | .trapCore => .next (s.serviceKill s.myCore 0x11 1)
  | .helper => .next (s.endHelper s.myCore)
  | .S => xfenceS o s
  | .C => xfenceX o s | .M => xfenceX o s | .R => xfenceX o s | .K => xfenceX o s

/-- All five streams stand at the instruction and every command started earlier has completed (R95). -/
def Engines.idle (g : Engines) : Bool :=
  g.qC.isEmpty && g.qM.isEmpty && g.qR.isEmpty && g.qK.isEmpty && g.cmds.isEmpty

/-- The rendezvous of SYNC and END is complete on a clk: it is the clk after the one on which the last stream came to stand at it and the last
command completed, or a later one (R95). -/
def Engines.met (g : Engines) (clk : Nat) : Bool :=
  g.idle && g.began.all (fun x => decide (x.2 < clk)) && (match g.doneAt with | some t => decide (t < clk) | none => true)

/-- sync (R95). -/
def execSync (o : R0) (s : State) : Res :=
  s.mainOnly (if s.me.eng.met s.clk then .next (s.adv o.st) else .next s)

/-- What END waits for beyond the rendezvous: the writes of every path performed at .dom (R95, R180). -/
def State.allDone (s : State) (cid : Nat) : Bool :=
  (List.range 4).all (fun p => s.pathDone cid p .dom)

/-- The context of a task that ends is released: LEAVE, locks, helper, the root join counter (R334); a victim that ends
before its trap is delivered ends normally (R87). -/
def State.finish (s : State) (cid : Nat) : State :=
  match (s.ctx cid).task with
  | none => s
  | some t =>
    let s := s.wbInv (cid / 2)
    let s := s.releaseCtx cid
    ((s.dropEntry t.entry).victimEnded t.entry cid).joinDown t.launch

/-- end (R95, R334). -/
def execEndTask (_o : R0) (s : State) : Res :=
  s.mainOnly
    (if !(s.me.eng.met s.clk && s.allDone s.cur.cid) then .next s
     else
       match s.reportFails s.cur.cid (fun _ => true) s.curWord s.pc with
       | some s' => .next s'
       | none => s.whenDrained true (.next (s.finish s.cur.cid)))

end Sys2Proof.Machine
end

