-- ==== Sys2Proof/Machine/Flags.lean ====
section
/-! DEFINITION. Status words (R324), their merging at a signal and the semaphores (R325-R327), and the visibility step of a
signal (R177). -/

namespace Sys2Proof.Machine

/-- Fields of a status word (R324). -/
def stCnt (w : Word) : Nat := bitsOf w 63 48
def stIdx (w : Word) : Nat := bitsOf w 47 16
def stFlags (w : Word) : Nat := bitsOf w 14 0

/-- A status word of its fields. -/
def stWord (cnt idx flags : Nat) : Word := word (cnt % 2 ^ 16 * 2 ^ 48 + idx % 2 ^ 32 * 2 ^ 16 + flags % 2 ^ 15)

/-- Some flag of bits 14:1 is set. -/
def stFlagged (w : Word) : Bool := stFlags w / 2 != 0

/-- A command's status word after an element set flags: CNT counts flagged elements, IDX is the first one's index (R324). -/
def stElem (w : Word) (ix : Nat) (fl : Fl) : Word :=
  if fl.toNat / 2 = 0 then w
  else
    stWord (min 0xFFFF (stCnt w + 1)) (if stFlagged w then stIdx w else ix)
      (stFlags w ||| (fl.toNat / 2 * 2))

/-- The merge of a command's status word into a semaphore's (R325), DONE set. -/
def stMerge (st w : Word) : Word :=
  stWord (min 0xFFFF (stCnt st + stCnt w)) (if !stFlagged st && stFlagged w then stIdx w else stIdx st)
    (stFlags st ||| stFlags w ||| 1)

/-- SOV of a status word. -/
def stSov : Nat := 2 ^ 13

/-- A semaphore after an increment by n with a status word and a mask; the flag says that it overflowed (R325). -/
def Sem.signal (m : Sem) (n : Nat) (w : Word) (mask : BitVec 5) : Sem × Bool :=
  let st := stMerge m.status w
  if 65535 < m.count + n then
    ({ count := 65535, status := st ||| word stSov, vis := m.vis ||| mask }, true)
  else ({ count := m.count + n, status := st, vis := m.vis ||| mask }, false)

/-- Puts a semaphore of a context. -/
def State.setSem (s : State) (cid n : Nat) (m : Sem) : State :=
  s.modCtx cid (fun c => { c with sems := Map.put c.sems n m })

/-- A semaphore of a context. -/
def State.semOf (s : State) (cid n : Nat) : Sem := Map.getD (s.ctx cid).sems n .fresh

/-- Signals a semaphore of a context; an overflow is raised there, with the signalling unit (R325). -/
def State.signal (s : State) (cid sem n : Nat) (w : Word) (mask : BitVec 5) (eng : Nat) (iword fpc : Word) : State :=
  let r := (s.semOf cid sem).signal n w mask
  let s := s.setSem cid sem r.1
  if r.2 then s.raiseOnce cid (.of 0x0C sem eng 0 iword fpc) else s

/-- A wait takes n units; at 0 the visibility set is cleared. The result also says whether S was in the set (R177, R326). -/
def Sem.take (m : Sem) (n : Nat) : Sem × Bool :=
  let c := m.count - n
  ({ m with count := c, vis := if c = 0 then 0 else m.vis }, inSet m.vis 0)

end Sys2Proof.Machine
end

