-- ==== Sys2Proof/Machine/PortOps.lean ====
section
/-! DEFINITION. The port operations (R419-R426). Each acts on the lane that runs a port program, `State.portRun` (log entry
12), and goes on to the program's next word. -/

namespace Sys2Proof.Machine

/-! ## Slots (R404, R405) -/

/-- Header word 0 of a slot. -/
def Slot.head (l : Slot) : Word := leWord (Mem.read l.img 0 8)

def Slot.blen (l : Slot) : Nat := bitsOf l.head 5 0
def Slot.elen (l : Slot) : Nat := bitsOf l.head 11 8
def Slot.lg (l : Slot) : Nat := bitsOf l.head 18 16
def Slot.laneCount (l : Slot) : Nat := 2 ^ l.lg
def Slot.comb (l : Slot) : Nat := bitsOf l.head 22 20
def Slot.keep (l : Slot) : Bool := bitOf l.head 23
def Slot.tsz (l : Slot) : Nat := bitsOf l.head 31 24

/-- Word n of the program: 0-31 the body, 32-39 the epilogue (R404). -/
def Slot.word (l : Slot) (n : Nat) : Nat := leNat (Mem.read l.img (32 + 4 * n) 4)

/-- Table entry i (R404). -/
def Slot.entry (l : Slot) (i : Nat) : Nat := leNat (Mem.read l.img (0xC0 + 4 * i) 4)

def Ports.slot (p : Ports) (n : Nat) : Slot := Map.getD p.slots n .fresh

def State.slot (s : State) (cid n : Nat) : Slot := (s.ctx cid).ports.slot n

def State.modSlot (s : State) (cid n : Nat) (f : Slot → Slot) : State :=
  s.modCtx cid (fun c => c.modPorts (fun p => { p with slots := Map.put p.slots n (f (p.slot n)) }))

/-- The slot bound at a point whose body is not empty: a slot with an empty body acts as no slot (R400). -/
def State.program (s : State) (cid point : Nat) : Option Nat :=
  match (s.ctx cid).ports.slots.find? (fun x => x.2.bound == some point) with
  | some (n, l) => if l.blen = 0 then none else some n
  | none => none

/-- Parameter n. -/
def State.par (s : State) (cid n : Nat) : Word := Map.getD (s.ctx cid).ports.par n 0

/-! ## Generators (R206, R207) -/

/-- A lane's generator state. -/
def SysRegs.seed (y : SysRegs) (point lane : Nat) : BitVec 32 := Map.getD y.seeds (128 * point + lane) (lfsrSeed point lane)

/-- One draw of a lane's generator: the state it had, and the machine after the advance. -/
def State.draw (s : State) (cid point lane : Nat) : Nat × State :=
  let d := (s.ctx cid).sys.seed point lane
  (d.toNat, s.modCtx cid (fun c => c.modSys (fun y => { y with seeds := Map.put y.seeds (128 * point + lane) (lfsrNext d) })))

/-! ## The running lane -/

/-- The lane's elements so far in the stream. -/
def State.laneElems (s : State) (r : PortRun) : Nat := Map.getD (s.slot r.cid r.slot).lanes r.lane 0

/-- A source operand (R275). -/
def State.pSrc (s : State) (r : PortRun) (code : Nat) : Word :=
  if code < 8 then Map.getD r.v code 0
  else if code < 12 then Map.getD (s.slot r.cid r.slot).carried (4 * r.lane + (code - 8)) 0
  else if code = 12 then (if r.epi then word (s.laneElems r) else word r.ix)
  else if code = 13 then word r.lane
  else if code = 14 then 0
  else 0x3F800000

/-- Goes on to the next word, with flags raised (R412). -/
def PortRun.next (r : PortRun) (fl : Fl) : PortRun := { r with pc := r.pc + 1, flags := r.flags ||| fl }

/-- Writes a destination (R275, R426) and goes on. -/
def State.pPut (s : State) (r : PortRun) (d : Nat) (v : Word) (fl : Fl) : State :=
  if d < 8 then { s with portRun := some ({ r with v := Map.put r.v d v }.next fl) }
  else if d < 12 then
    { s.modSlot r.cid r.slot (fun l => { l with carried := Map.put l.carried (4 * r.lane + (d - 8)) v }) with
      portRun := some (r.next fl) }
  else { s with portRun := some (r.next fl) }

/-- A port fault in a running program: the destination gets zero, the element continues (R412). -/
def State.pFault (s : State) (r : PortRun) (kind : Nat) (d : Option Nat) : State :=
  let r := { r with pf := match r.pf with
                          | some f => some f
                          | none => some ⟨kind, r.pc, r.ix, r.slot, r.point⟩ }
  match d with
  | some d => s.pPut r d 0 fPFT
  | none => { s with portRun := some (r.next fPFT) }

/-- An operation of the running lane; with none running there is nothing to do. -/
def State.pDo (s : State) (k : PortRun → State) : Res :=
  match s.portRun with
  | none => .next s
  | some r => .next (k r)

/-- An operation with one result and its flags. -/
def State.pRes (s : State) (o : PortF) (f : Word → Word → Word → Word × Fl) : Res :=
  s.pDo (fun r =>
    let x := f (s.pSrc r o.a) (s.pSrc r o.b) (s.pSrc r o.c)
    s.pPut r o.d x.1 x.2)

/-- m bit 6, 7 and 8 of the word: bits 0, 1 and 2 of the field. -/
def portM6 (o : PortF) : Bool := o.m % 2 == 1
def portM7 (o : PortF) : Bool := o.m / 2 % 2 == 1
def portM8 (o : PortF) : Bool := o.m / 4 % 2 == 1

/-! ## Float ops (R420) -/

/-- fadd (R420). -/
def execPortFadd (o : PortF) (s : State) : Res := s.pRes o (fun a b _ => f32Add (portM6 o) a b)

/-- fsub (R420). -/
def execPortFsub (o : PortF) (s : State) : Res := s.pRes o (fun a b _ => f32Sub (portM6 o) a b)

/-- fmul (R420). -/
def execPortFmul (o : PortF) (s : State) : Res := s.pRes o (fun a b _ => f32Mul (portM6 o) a b)

/-- ffma (R420). -/
def execPortFfma (o : PortF) (s : State) : Res := s.pRes o (fun a b c => f32Fma (portM6 o) a b c)

/-- fmin (R420). -/
def execPortFmin (o : PortF) (s : State) : Res := s.pRes o (fun a b _ => f32MinMax false (portM6 o) a b)

/-- fmax (R420). -/
def execPortFmax (o : PortF) (s : State) : Res := s.pRes o (fun a b _ => f32MinMax true (portM6 o) a b)

/-- fabs (R420): bit 31 cleared, no flag. -/
def execPortFabs (o : PortF) (s : State) : Res := s.pRes o (fun a _ _ => (a &&& 0x7FFFFFFF, 0))

/-- fneg (R420): bit 31 inverted, no flag. -/
def execPortFneg (o : PortF) (s : State) : Res := s.pRes o (fun a _ _ => (zextN 32 a ^^^ 0x80000000, 0))

/-- frcp (R420). -/
def execPortFrcp (o : PortF) (s : State) : Res := s.pRes o (fun a _ _ => f32Rcp (portM6 o) a)

/-- frsq (R420). -/
def execPortFrsq (o : PortF) (s : State) : Res := s.pRes o (fun a _ _ => f32Rsq (portM6 o) a)

/-- fex2 (R420). -/
def execPortFex2 (o : PortF) (s : State) : Res := s.pRes o (fun a _ _ => f32Ex2 (portM6 o) a)

/-- flg2 (R420). -/
def execPortFlg2 (o : PortF) (s : State) : Res := s.pRes o (fun a _ _ => f32Lg2 (portM6 o) a)

/-- The condition that a code names (R266). -/
def condOf : Nat → Option Cond
  | 0 => some .eq | 1 => some .ne | 2 => some .lt | 3 => some .le | 4 => some .gt | 5 => some .ge
  | 6 => some .ltu | 7 => some .leu | 8 => some .gtu | 9 => some .geu
  | _ => none

/-- fcmp (R420): codes 6 to 15 give 0. -/
def execPortFcmp (o : PortF) (s : State) : Res :=
  s.pRes o (fun a b _ =>
    (match condOf o.x with
     | some c => boolWord (f32Cmp c (portM6 o) a b)
     | none => 0, 0))

/-! ## Integer ops (R421) -/

/-- The width of an integer op: m bit 6 is W. -/
def portW (o : PortF) : Width := if o.m % 2 = 1 then .w else .d

/-- b of an integer op: the immediate when m bit 7 is set. -/
def portB (o : PortF) (b : Word) : Word := if portM7 o then sextN 6 (word o.x) else b

/-- An integer op. -/
def State.pInt (s : State) (o : PortF) (f : Width → Word → Word → Word) : Res :=
  s.pRes o (fun a b _ => (f (portW o) a (portB o b), 0))

/-- iadd (R421). -/
def execPortIadd (o : PortF) (s : State) : Res := s.pInt o (fun wd a b => wd.out (a + b))

/-- isub (R421). -/
def execPortIsub (o : PortF) (s : State) : Res := s.pInt o (fun wd a b => wd.out (a - b))

/-- imul (R421). -/
def execPortImul (o : PortF) (s : State) : Res := s.pInt o (fun wd a b => wd.out (a * b))

/-- imulh (R421). -/
def execPortImulh (o : PortF) (s : State) : Res :=
  s.pInt o (fun wd a b => wd.ofInt (wd.sgn a * wd.sgn b / 2 ^ wd.bits))

/-- imin (R421). -/
def execPortImin (o : PortF) (s : State) : Res := s.pInt o (fun wd a b => wd.ofInt (min (wd.sgn a) (wd.sgn b)))

/-- imax (R421). -/
def execPortImax (o : PortF) (s : State) : Res := s.pInt o (fun wd a b => wd.ofInt (max (wd.sgn a) (wd.sgn b)))

/-- iminu (R421). -/
def execPortIminu (o : PortF) (s : State) : Res := s.pInt o (fun wd a b => wd.nat (min (wd.uns a) (wd.uns b)))

/-- imaxu (R421). -/
def execPortImaxu (o : PortF) (s : State) : Res := s.pInt o (fun wd a b => wd.nat (max (wd.uns a) (wd.uns b)))

/-- and (R421). -/
def execPortAnd (o : PortF) (s : State) : Res := s.pInt o (fun wd a b => wd.out (a &&& b))

/-- or (R421). -/
def execPortOr (o : PortF) (s : State) : Res := s.pInt o (fun wd a b => wd.out (a ||| b))

/-- xor (R421). -/
def execPortXor (o : PortF) (s : State) : Res := s.pInt o (fun wd a b => wd.out (a ^^^ b))

/-- shl (R421). -/
def execPortShl (o : PortF) (s : State) : Res := s.pInt o (fun wd a b => shlW wd a (wd.count b))

/-- shr (R421). -/
def execPortShr (o : PortF) (s : State) : Res := s.pInt o (fun wd a b => shrW wd a (wd.count b))

/-- sra (R421). -/
def execPortSra (o : PortF) (s : State) : Res := s.pInt o (fun wd a b => sraW wd a (wd.count b))

/-- icmp (R421): codes 10 to 15 give 0; the immediate form is not its own. -/
def execPortIcmp (o : PortF) (s : State) : Res :=
  s.pRes o (fun a b _ =>
    (match condOf o.x with
     | some c => boolWord (c.holds (portW o) a b)
     | none => 0, 0))

/-- sel (R421), on 64 bits. -/
def execPortSel (o : PortF) (s : State) : Res := s.pRes o (fun a b c => (if a ≠ 0 then b else c, 0))

/-! ## Conversions (R422) -/

/-- The element type that a code names (R266). -/
def tyOf : Nat → Option ETy
  | 0 => some .f32 | 1 => some .bf16 | 2 => some .f16 | 3 => some .e4m3 | 4 => some .e5m2 | 5 => some .l6
  | 6 => some .i8 | 7 => some .ui8 | 8 => some .i16 | 9 => some .i32 | 10 => some .i64 | 11 => some .ui64
  | _ => none

/-- The draw of a conversion that rounds stochastically (x bit 4), one per execution. -/
def State.pDraw (s : State) (r : PortRun) (o : PortF) : Option Nat × State :=
  if o.x / 16 % 2 = 1 then
    let d := s.draw r.cid r.point r.lane
    (some d.1, d.2)
  else (none, s)

/-- cvt (R422). -/
def execPortCvt (o : PortF) (s : State) : Res :=
  s.pDo (fun r =>
    match tyOf o.m, tyOf (o.x % 16) with
    | some src, some dst =>
      let d := s.pDraw r o
      let c : Conv := ⟨d.1, if o.x / 32 % 2 = 1 then some (s.pSrc r o.c) else none, false⟩
      let v := convert dst c (src.value false (s.pSrc r o.a))
      d.2.pPut r o.d (dst.hold v.1) v.2
    | some _, none => s.pFault r 4 (some o.d)
    | none, _ => s.pFault r 4 (some o.d))

/-- rnd (R422). -/
def execPortRnd (o : PortF) (s : State) : Res :=
  s.pDo (fun r =>
    let d := s.draw r.cid r.point r.lane
    d.2.pPut r o.d (word d.1) 0)

/-- qsr (R422): one exact multiply-add, converted. FZ flushes the float inputs and the result (R191). -/
def execPortQsr (o : PortF) (s : State) : Res :=
  s.pDo (fun r =>
    match tyOf (o.x % 16) with
    | some dst =>
      let d := s.pDraw r o
      let fz := portM6 o
      let a : Val := if portM7 o then .ofInt (s.pSrc r o.a).toInt else f32Val fz (s.pSrc r o.a)
      let y := a.fma (f32Val fz (s.pSrc r o.b)) (f32Val fz (s.pSrc r o.c))
      let v := convert dst ⟨d.1, none, fz⟩ y.1
      d.2.pPut r o.d (dst.hold v.1) (v.2 ||| y.2)
    | none => s.pFault r 4 (some o.d))

/-! ## Data movement (R423-R425) -/

/-- get (R423): zero in the epilogue (R411). -/
def execPortGet (o : PortF) (s : State) : Res :=
  s.pDo (fun r => s.pPut r o.d (if r.epi then 0 else (r.ins[o.x % 4]?).getD 0) 0)

/-- out (R410, R423): no effect in the epilogue (R411). -/
def execPortOut (o : PortF) (s : State) : Res :=
  s.pDo (fun r =>
    let r' := if r.epi then r else { r with outs := Map.put r.outs (o.x % 4) (s.pSrc r o.a) }
    { s with portRun := some (r'.next 0) })

/-- drop (R423): mask 0 means all four; no effect in the epilogue (R411). -/
def execPortDrop (o : PortF) (s : State) : Res :=
  s.pDo (fun r =>
    let mask : BitVec 4 := if o.x % 16 = 0 then 15 else BitVec.ofNat 4 o.x
    let r' := if r.epi || s.pSrc r o.a == 0 then r else { r with drops := r.drops ||| mask }
    { s with portRun := some (r'.next 0) })

/-- par (R423). -/
def execPortPar (o : PortF) (s : State) : Res := s.pDo (fun r => s.pPut r o.d (s.par r.cid (o.x % 16)) 0)

/-- parx (R423). -/
def execPortParx (o : PortF) (s : State) : Res :=
  s.pDo (fun r => s.pPut r o.d (s.par r.cid ((s.pSrc r o.a).toNat % 16)) 0)

/-- cget (R423). -/
def execPortCget (o : PortF) (s : State) : Res :=
  s.pDo (fun r =>
    let l := s.slot r.cid r.slot
    let v :=
      if r.epi then Map.getD r.atEnd (4 * ((s.pSrc r o.a).toNat % 128 % l.laneCount) + o.x % 4) 0
      else Map.getD l.carried (4 * r.lane + o.x % 4) 0
    s.pPut r o.d v 0)

/-- cset (R423). -/
def execPortCset (o : PortF) (s : State) : Res :=
  s.pDo (fun r =>
    let b := s.pSrc r o.b
    let s' := if s.pSrc r o.a = 0 then s
      else s.modSlot r.cid r.slot (fun l => { l with carried := Map.put l.carried (4 * r.lane + o.x % 4) b })
    { s' with portRun := some (r.next 0) })

/-- prev (R423): zero in the epilogue (R411). -/
def execPortPrev (o : PortF) (s : State) : Res :=
  s.pDo (fun r =>
    let l := s.slot r.cid r.slot
    let j := min (o.x % 4 + 1) 3
    let v :=
      if r.epi then 0
      else
        match l.prev.find? (fun h => decide (h.1 + j = l.base + r.ix)) with
        | some h => h.2.2
        | none => s.par r.cid 15
    s.pPut r o.d v 0)

/-- lut (R423). -/
def execPortLut (o : PortF) (s : State) : Res :=
  s.pDo (fun r =>
    let l := s.slot r.cid r.slot
    let a := s.pSrc r o.a
    let i : Int := if portM7 o then satI a.toInt 0 ((l.tsz : Int) - 1) else bitsOf a 6 0
    if i < 0 ∨ (l.tsz : Int) ≤ i then s.pPut r o.d 0 fOOR
    else
      let e := word (l.entry i.toNat)
      s.pPut r o.d (if portM6 o then sextN 32 e else e) 0)

/-- The point-local address of ldl and stl, and the size (R424). -/
def lpmAddr (a : Word) (o : PortF) : Nat := (bitsOf a 9 0 + o.x) % 1024
def lpmSize (o : PortF) : Nat := 2 ^ (o.m % 4)

/-- The address in a context's lane-private memory of a lane's byte (R408). -/
def lpmBase (point lane : Nat) : Nat := 131072 * point + 1024 * lane

/-- ldl (R424). -/
def execPortLdl (o : PortF) (s : State) : Res :=
  s.pDo (fun r =>
    let A := lpmAddr (s.pSrc r o.a) o
    if A % lpmSize o ≠ 0 then s.pFault r 3 (some o.d)
    else
      let v := leWord (Mem.read (s.ctx r.cid).ports.lpm (lpmBase r.point r.lane + A) (lpmSize o))
      s.pPut r o.d (if portM8 o then sextN (8 * lpmSize o) v else v) 0)

/-- stl (R424). -/
def execPortStl (o : PortF) (s : State) : Res :=
  s.pDo (fun r =>
    let A := lpmAddr (s.pSrc r o.a) o
    if A % lpmSize o ≠ 0 then s.pFault r 3 none
    else
      let bs := leBytes (lpmSize o) (s.pSrc r o.b).toNat
      let s' := s.modCtx r.cid (fun c => c.modPorts (fun p =>
        { p with lpm := Mem.write p.lpm (lpmBase r.point r.lane + A) bs, lpmW := insertNat r.point p.lpmW }))
      { s' with portRun := some (r.next 0) })

/-- flag (R425): bits 1 to 14; codes 0 and 15 set nothing. -/
def execPortFlag (o : PortF) (s : State) : Res :=
  s.pDo (fun r =>
    let n := o.x % 16
    let fl : Fl := if s.pSrc r o.a = 0 ∨ n = 0 ∨ n = 15 then 0 else BitVec.ofNat 15 (2 ^ n)
    { s with portRun := some (r.next fl) })

/-- hint (R425): nothing, and one word. -/
def execPortHint (_n : Nat) (_o : PortF) (s : State) : Res := s.pDo (fun r => { s with portRun := some (r.next 0) })

end Sys2Proof.Machine
end

