-- ==== Sys2Proof/Machine/Nest.lean ====
section
/-! DEFINITION. What the engines share: nests (R344-R350), stream formats and their conversions (R345, R351, R192, R203,
R204), the spaces (R347), engine reads (R173, R174), writes gathered by granule (R173), and the start of an engine
instruction (R92, R106, R353). -/

namespace Sys2Proof.Machine

/-! ## Nests (R344, R348) -/

/-- The count of level l. -/
def NestSet.count (n : NestSet) (l : Nat) : Nat := Map.getD n.cnt l 0 + 1

/-- Elements of a run. -/
def NestSet.runLen (n : NestSet) : Nat := n.run + 1

/-- The stride of level l for stream j. -/
def NestSet.stride (n : NestSet) (l j : Nat) : Int := Map.getD n.str (8 * l + j) 0

/-- The number of runs. -/
def NestSet.runs (n : NestSet) : Nat := (List.range 6).foldl (fun a l => a * n.count l) 1

/-- The indices i0 to i5 of run number n, for counts given level by level (R348). -/
def runIdx : List Nat → Nat → List Nat
  | [], _ => []
  | c :: cs, n => n % c :: runIdx cs (n / c)

def NestSet.idx (n : NestSet) (r : Nat) : List Nat := runIdx ((List.range 6).map n.count) r

/-- A base word's space and address. -/
def spaceOf (w : Word) : Nat := bitsOf w 63 61
def addrOf (w : Word) : Nat := bitsOf w 56 0

def NestSet.baseW (n : NestSet) (j : Nat) : Word := Map.getD n.base j 0
def NestSet.sbaseW (n : NestSet) (j : Nat) : Word := Map.getD n.sbase j 0
def NestSet.fmtW (n : NestSet) (j : Nat) : Word := Map.getD n.fmt j 0

/-- Σ i_l × STR[l][j] over the levels from `lo` on (R348). -/
def NestSet.off (n : NestSet) (lo j : Nat) (idx : List Nat) : Int :=
  (List.range 6).foldl (fun a l => if l < lo then a else a + ((idx[l]?).getD 0 : Int) * n.stride l j) 0

/-- An address modulo 2^64. -/
def addr64 (i : Int) : Nat := (i % 2 ^ 64).toNat

/-! ## Formats (R345) -/

def fType (w : Word) : Option ETy := tyOf (bitsOf w 3 0)
def fPt (w : Word) : Option ETy := tyOf (bitsOf w 7 4)
def fGeo (w : Word) : Nat := bitsOf w 10 8
def fBlk (w : Word) : Bool := bitOf w 11
def fRow0 (w : Word) : Nat := bitsOf w 16 12
def fCol0 (w : Word) : Nat := bitsOf w 21 17
def fRnd (w : Word) : Bool := bitOf w 24
def fSuben (w : Word) : Bool := bitOf w 25
def fFz (w : Word) : Bool := bitOf w 26

/-- Reserved bits of FMT. -/
def fReserved (w : Word) : Bool := bitsOf w 63 30 != 0 || bitsOf w 23 22 != 0

/-- The size in bytes of a stream's elements. -/
def fSize (w : Word) : Nat := match fType w with | some t => t.bytes | none => 1

/-- Block shapes h × w (R202). -/
def geoShape : Nat → Nat × Nat
  | 0 => (1, 32) | 1 => (2, 16) | 2 => (4, 8) | 3 => (8, 4) | 4 => (16, 2) | 5 => (32, 1)
  | _ => (32, 32)

/-- A type may be block-scaled (R350). -/
def blkType (t : ETy) : Bool := t == .e4m3 || t == .e5m2 || t == .l6

/-- The value that an E8M0 code gives an exact value (R188, R204). -/
def expand (code : Nat) (v : Val) : Val := if code = 255 then .nan else v.scale ((code : Int) - 127)

/-- A source element from TYPE to PT (R351 step 1), after block expansion under a code: bits unchanged where they are equal,
else one RoundNE. -/
def decodeSrc (f subv : Word) (code : Option Nat) (raw : Nat) : Word × Fl :=
  match fType f, fPt f with
  | some t, some p =>
    let raw := if t = .l6 then raw % 64 else raw
    if t = p ∧ code = none then (word raw, 0)
    else
      let v := t.value (fFz f) (word raw)
      let v := match code with | some c => expand c v | none => v
      let r := convert p ⟨none, if fSuben f then some subv else none, fFz f⟩ v
      (p.hold r.1, r.2)
  | some _, none => (word raw, 0)
  | none, _ => (word raw, 0)

/-- A destination element from a type to TYPE (R351 step 5), with its draw if it rounds stochastically. -/
def encodeDst (f subv : Word) (pt : ETy) (draw : Option Nat) (w : Word) : Nat × Fl :=
  match fType f with
  | some t =>
    if t = pt then (w.toNat % 2 ^ (if t = .l6 then 6 else t.bits), 0)
    else convert t ⟨draw, if fSuben f then some subv else none, fFz f⟩ (pt.value (fFz f) w)
  | none => (0, 0)

/-- The draw of a destination encode at a point, where it rounds stochastically (R209, R426): lane ix mod L of the program, or
ix mod 128. -/
def State.encDraw (s : State) (cid point : Nat) (rnd : Bool) (ix : Nat) : Option Nat × State :=
  if rnd then
    let l := match s.program cid point with | some n => (s.slot cid n).laneCount | none => 128
    let d := s.draw cid point (ix % l)
    (some d.1, d.2)
  else (none, s)

/-! ## Block compression (R203) -/

/-- The largest finite magnitude of a block-scaled type as M × 2^E. -/
def blkLargest (t : ETy) : Nat × Int :=
  match t.fmt with
  | some f => (f.maxM, f.maxE)
  | none => (6889, -9)

/-- The larger of two magnitudes. -/
def magMax (a : Nat × Int) (v : Val) : Nat × Int :=
  match v with
  | .fin _ m e => if m = 0 then a else if a.1 = 0 ∨ magLt a.1 a.2 m e then (m, e) else a
  | .nan => a
  | .inf _ => a

/-- The code of a block's scale: the smallest exponent that holds the largest finite magnitude, clamped (R203). -/
def blkCode (t : ETy) (vs : List Val) : Nat :=
  let a := vs.foldl magMax (0, 0)
  if a.1 = 0 then 127
  else
    let l := blkLargest t
    let s0 : Int := (Nat.log2 a.1 : Int) + a.2 - (Nat.log2 l.1 : Int) - l.2
    let s := if magLt l.1 (l.2 + s0) a.1 a.2 then s0 + 1 else s0
    ((satI s (-127) 127) + 127).toNat

/-- The elements of a block encoded under a code: bits and flags, an element not emitted as zero (R351). -/
def blkEncode (t : ETy) (sub : Option Word) (fz : Bool) (code : Nat) (x : Option Val × Option Nat) : Nat × Fl :=
  convert t ⟨x.2, sub, fz⟩ ((x.1.getD (.fin false 0 0)).scale (127 - (code : Int)))

/-! ## Exact sums and folds (R197, R362) -/

def Fold.zero : Fold :=
  { n := 0, sum := .fin true 0 0, nan := false, pinf := false, ninf := false, inv := false, w := 0 }

/-- One more term. -/
def Fold.add (f : Fold) (v : Val × Fl) : Fold :=
  let f := { f with n := f.n + 1, inv := f.inv || v.2 &&& fINV != 0 }
  match v.1 with
  | .nan => { f with nan := true }
  | .inf true => { f with ninf := true }
  | .inf false => { f with pinf := true }
  | .fin a m e => { f with sum := (f.sum.add (.fin a m e)).1 }

/-- The exact sum, with INV for opposite infinities and for 0 × ∞ (R197). A sum of nothing is +0. -/
def Fold.total (f : Fold) : Val × Fl :=
  let inv := flIf (f.inv || (f.pinf && f.ninf)) fINV
  if f.nan || (f.pinf && f.ninf) then (.nan, inv)
  else if f.pinf then (.inf false, inv)
  else if f.ninf then (.inf true, inv)
  else if f.n = 0 then (.fin false 0 0, inv)
  else (f.sum, inv)

/-! ## Spaces (R347, R90) -/

/-- Why an iteration cannot go on: a fault before it (R138), a byte of another device that is still to be read (R169), or a scratchpad
granule to which only a part of the S path's stores before the command has been performed (R179). -/
inductive Stop
  | fault (code detail : Nat) (fa : Word)
  | need (dev pa key : Nat) (va : Word)
  | wait
  deriving DecidableEq, Repr

/-- The translation of an address that a command names: its pre-translation where it holds one (R137), else the one of any access. -/
def State.xlatPre (s : State) (cid : Nat) (pre : Map PreX) (want : Want) (a : Nat) : XRes :=
  match (if a < 0x1C0 * 2 ^ 48 then Map.find pre (a / 65536) else none) with
  | some (.leaf e size) => s.leafPlace want a e size
  | some (.fault c d) => .fault c d
  | none => s.xlat cid false want (word a)

/-- The place of n bytes at an address of a space, for a read or a write. -/
def State.spacePlace (s : State) (cid : Nat) (pre : Map PreX) (want : Want) (sp a n : Nat) : Except Stop Place :=
  let c := s.ctx cid
  let bad : Except Stop Place := .error (.fault 7 1 (word a))
  match sp with
  | 0 =>
    if 0x1C0 * 2 ^ 48 ≤ a ∧ a < 0x1E0 * 2 ^ 48 then .error (.fault 6 5 (word a))
    else
      match s.xlatPre cid pre want a with
      | .ok p => .ok p
      | .fault cd d => .error (.fault cd d (word a))
  | 1 => if a + n ≤ 4096 * c.hdr.spad then .ok (.spad cid a) else bad
  | 2 =>
    match c.task with
    | some t => if t.member ∧ a + n ≤ 2 ^ 23 then .ok (.clus (clusterOf (cid / 2)) a) else bad
    | none => bad
  | 3 => if a + n ≤ 48 * 2 ^ 20 then .ok (.chip (posOf (cid / 2)) a) else bad
  | 4 => if a + n ≤ 4096 * c.hdr.wst then .ok (.wst cid a) else bad
  | 5 => .ok (.flash a)
  | _ => .error (.fault 1 0 0)

/-- Engine reads of translated or host-mapped memory, and the writes (R347, R67). -/
def Want.eread : Want := ⟨true, false, true, false⟩
def Want.ewrite : Want := ⟨false, true, true, false⟩

/-! ## The addresses of an iteration (R135, R138) -/

/-- A run of bytes that an iteration names. -/
structure Range where
  (want : Want) (sp a n : Nat)
  deriving DecidableEq, Repr

/-- The 64 KiB pages of n bytes of a space that translation by a walk covers. -/
def pagesOf (sp a n : Nat) : List Nat :=
  if sp = 0 ∧ a < 0x1C0 * 2 ^ 48 then (List.range ((a + (n - 1)) / 65536 + 1 - a / 65536)).map (fun i => a / 65536 + i) else []

/-- Where a range is checked: at its first byte, and at the start of every further page. -/
def Range.stops (r : Range) : List Nat := r.a :: ((pagesOf r.sp r.a r.n).tail).map (fun p => p * 65536)

/-- Every address of an iteration is checked before any of its accesses (R138). -/
def State.touch (s : State) (cid : Nat) (pre : Map PreX) (rs : List Range) : Except Stop Unit :=
  rs.foldlM (fun _ r => r.stops.foldlM (fun _ a => do
    let _ ← s.spacePlace cid pre r.want r.sp a (if r.sp = 0 then 1 else r.n)
    pure ()) ()) ()

/-- What the iteration's translations leave in the core's TLB (R135). -/
def State.noteRanges (s : State) (cid : Nat) (rs : List Range) : State :=
  ((rs.flatMap (fun r => pagesOf r.sp r.a r.n)).eraseDups).foldl (fun s p => s.noteXlat cid (word (p * 65536))) s

/-- The pre-translations of a command for the pages of its next 64 iterations: those it holds, and new ones from the TLB or by walks, which
enter the TLB (R135, R137). -/
def State.preFill (s : State) (cid : Nat) (pages : List Nat) (pre : Map PreX) : State × Map PreX :=
  (pages.eraseDups).foldl (fun x p =>
    match Map.find pre p with
    | some v => (x.1, Map.put x.2 p v)
    | none =>
      let v : PreX := match x.1.leafFor (cid / 2) (x.1.ptroot (x.1.ctx cid).launch) (p * 65536) with
        | .leaf e size => .leaf e size
        | .fault c d => .fault c d
      (x.1.noteXlat cid (word (p * 65536)), Map.put x.2 p v)) (s, [])

/-! ## Reads (R173, R174, R225, R434) -/

/-- The byte that the path's write queue holds for a place, the latest first (R174). -/
def wqByte (ws : List WEnt) (p : Place) : Option Byte :=
  ws.foldl (fun acc w => w.parts.foldl (fun acc x =>
    match (List.range x.2.length).find? (fun j => (x.1.add j).same p) with
    | some j => x.2[j]?
    | none => acc) acc) none

/-- The key of a byte of another device. -/
def remKey (dev pa : Nat) : Nat := dev * 2 ^ 45 + pa

/-- The writes of its path's queue that a command's read of a place sees. A granule that one of the command's 64 runs before has written
is seen old or new (R359): a free choice for each granule and run. -/
def Engines.seen (g : Engines) (free path : Nat) (m : Cmd) (p : Place) : List WEnt :=
  let ws := g.wqOf path
  if (path = 0 ∨ path = 2) && Config.freeBool ((free + 1) * 2 ^ 80 + p.coord.2.2.1 / 32) then
    ws.filter (fun w => !(w.seq == m.ent.seq && decide (m.iter < w.run + 65)))
  else ws

/-- Some but not all stores of the S path to the place's granule that come before the command have been performed (R179). -/
def SPath.torn (q : SPath) (m : Cmd) (p : Place) : Bool :=
  match p.granBase with
  | none => false
  | some g => q.stored.contains g && q.stores.any (fun e => decide (e.seq < m.ent.seq) && e.place.meets e.size g 32)

/-- One byte as an engine command reads it, with the error met: an uncorrectable one gives zero (R225, R434), a corrected one is flagged
(R128). -/
def State.engByte (s : State) (cid path : Nat) (m : Cmd) (p : Place) (va : Word) : Except Stop (Byte × Fl) :=
  match wqByte ((s.ctx cid).eng.seen s.free path m p) p with
  | some b => .ok (b, 0)
  | none =>
    match p.dev? with
    | some (dev, pa, key) =>
      (match Map.find m.rgot (remKey dev pa) with
       | some b => .ok (b, flIf (m.rbad.contains (remKey dev pa)) fUEC)
       | none => .error (.need dev pa key va))
    | none =>
      if s.poisoned p 1 then .ok (0, fUEC)
      else if (s.ctx cid).path.torn m p then .error .wait
      else .ok (s.rd1 (s.ctx cid).launch p, flIf (s.mem.weak.contains p.unit) fCEC)

/-- n bytes of a space with the errors met. Bytes of translated memory are translated one by one, so that a run may cross pages. -/
def State.engRead (s : State) (cid path : Nat) (m : Cmd) (want : Want) (sp a n : Nat) :
    Except Stop (List Byte × Fl) :=
  (List.range n).foldlM (fun (acc : List Byte × Fl) i => do
    let p ← s.spacePlace cid m.pre want sp ((a + i) % 2 ^ 64) 1
    let b ← s.engByte cid path m p (word ((a + i) % 2 ^ 64))
    pure (acc.1 ++ [b.1], acc.2 ||| b.2)) ([], 0)

/-! ## Writes by granule (R173) -/

/-- The aligned 32-byte granule of a place. -/
def Place.granule (p : Place) : Nat × Nat × Nat :=
  let (l, o, a, _) := p.coord
  (l, o, a / 32)

/-- Adds a write to an iteration's writes: the bytes of one granule form one entry. -/
def addPart (u : EUnit) (seq run : Nat) (ws : List WEnt) (p : Place) (va : Word) (bs : List Byte) : List WEnt :=
  let here : WEnt → Bool := fun w => match w.parts.head? with | some x => x.1.granule == p.granule | none => false
  if ws.any here then updFirst here (fun w => { w with parts := w.parts ++ [(p, bs)] }) ws
  else ws ++ [⟨[(p, bs)], va, u, seq, run, none, []⟩]

def Cmd.put (m : Cmd) (u : EUnit) (p : Place) (va : Word) (bs : List Byte) : Cmd :=
  { m with wr := addPart u m.ent.seq m.iter m.wr p va bs }

/-- The write has a part that covers a byte, given by kind, owner and address of its place. -/
def WEnt.has (w : WEnt) (l o a : Nat) : Bool :=
  w.parts.any (fun x =>
    let c := x.1.coord
    c.1 == l && c.2.1 == o && decide (c.2.2.1 ≤ a) && decide (a < c.2.2.1 + x.2.length))

/-- The containment units that a write touches and the writes of its iteration cover whole. -/
def WEnt.wholes (ws : List WEnt) (w : WEnt) : List Nat :=
  w.parts.filterMap (fun x =>
    let c := x.1.coord
    let u := c.2.2.1 / c.2.2.2 * c.2.2.2
    if (List.range c.2.2.2).all (fun i => ws.any (fun y => y.has c.1 c.2.1 (u + i))) then some x.1.unit else none)

/-- Marks in an iteration's writes which of them completes a containment unit (R225): the last that touches it. -/
def markHeals (all : List WEnt) : List WEnt → List WEnt
  | [] => []
  | w :: ws =>
    let later := ws.foldl (fun a y => a ++ y.parts.map (fun x => x.1.unit)) []
    { w with heals := (w.wholes all).filter (fun u => !later.contains u) } :: markHeals all ws

/-! ## Commands of a unit -/

/-- The path of a unit (R139). -/
def unitPath : EUnit → Nat
  | .ch _ => 0 | .array => 1 | .drainU => 1 | .red => 2 | .coll _ => 3

/-- The channel of a unit. -/
def unitChan : EUnit → Nat
  | .ch n => n | .array => 0 | .drainU => 0 | .red => 0 | .coll _ => 0

def Engines.cmd (g : Engines) : EUnit → Option Cmd
  | .ch n => Map.find g.chans n
  | .array => g.array
  | .drainU => g.drain
  | .red => g.red
  | .coll n => g.coll[n]?

def Engines.setCmd (g : Engines) (u : EUnit) (m : Cmd) : Engines :=
  match u with
  | .ch n => { g with chans := Map.put g.chans n m }
  | .array => { g with array := some m }
  | .drainU => { g with drain := some m }
  | .red => { g with red := some m }
  | .coll n => { g with coll := g.coll.set n m }

def Engines.dropCmd (g : Engines) : EUnit → Engines
  | .ch n => { g with chans := Map.del g.chans n }
  | .array => { g with array := none }
  | .drainU => { g with drain := none }
  | .red => { g with red := none }
  | .coll n => { g with coll := g.coll.eraseIdx n }

def State.cmd (s : State) (cid : Nat) (u : EUnit) : Option Cmd := (s.ctx cid).eng.cmd u

def State.setCmd (s : State) (cid : Nat) (u : EUnit) (m : Cmd) : State :=
  s.modCtx cid (fun c => c.modEng (fun g => g.setCmd u m))

/-- A command that starts. -/
def Cmd.fresh (ent : QEnt) (clk : Nat) (nest : NestSet) (mat : MatSet) : Cmd :=
  { ent := ent, start := clk, iter := 0, status := 0, promise := 0, nest := nest, mat := mat, todo := [], stage := 0,
    fold := .zero, wr := [], vals := [], blk := [], opens := [], dec := ⟨0, [], 0, 0⟩, tab := none, mi := 0, mj := 0,
    ended := false, pfault := none, efault := none, rgot := [], rbad := [], rwait := none, buckets := [],
    nextBucket := 0, elems := 0, numBase := 0, die := 0, pre := [], acks := [], undo := none }

/-- The frame of a cause that an engine command raises (R219, R437). -/
def Cmd.frame (m : Cmd) (u : EUnit) (code detail : Nat) (fa : Word) : Frame :=
  { Frame.of code detail (engOf (unitPath u)) fa m.ent.w m.ent.addr with ch := unitChan u, esw := m.status }

/-! ## Starting an instruction of a trailing stream (R92, R106) -/

/-- The wait field of the instruction is satisfied. -/
def State.waitOk (s : State) (sy : Sync) : Bool :=
  match sy.wait with
  | none => true
  | some n => decide (1 ≤ (s.sem n).count)

/-- The wait takes its unit (R326, R327). -/
def State.takeWait (s : State) (sy : Sync) : State :=
  match sy.wait with
  | none => s
  | some n => s.setSem s.cur.cid n ((s.sem n).take 1).1

/-- An instruction of a trailing stream: on another stream it waits, on the trap core it is a handler fault (R214). It starts
once its wait is satisfied and its unit is free, one on a clk (R92). -/
def State.engineOp (s : State) (path : Nat) (sy : Sync) (ready : Bool) (k : Res) : Res :=
  s.mainOnly
    (if s.cur.agent != agentOf path then .next s
     else if !s.me.eng.canStart path s.clk || !s.waitOk sy || !ready then .next s
     else k)

/-- A cause raised when an engine instruction starts: it stays at the head of its stream, and nothing of it is performed. -/
def State.trapStart (s : State) (u : EUnit) (code detail : Nat) (fa : Word) : Res :=
  .next (s.raise s.cur.cid
    { Frame.of code detail (engOf (unitPath u)) fa s.head.w s.head.addr with ch := unitChan u })

/-- The instruction starts: its wait is taken and it leaves the queue. -/
def State.start (s : State) (sy : Sync) : State := (s.takeWait sy).started

/-- The signal of an instruction that is complete, with its status word (R325). -/
def State.signalOf (s : State) (cid : Nat) (sy : Sync) (path : Nat) (w : Word) (iword fpc : Word) : State :=
  match sy.sig with
  | none => s
  | some (n, mask) => s.signal cid n 1 w mask (engOf path) iword fpc

/-- A setup instruction (R346, R379): it writes one field when it starts and signals then; a value outside its range is an
illegal instruction. -/
def State.setupOp (s : State) (path : Nat) (sy : Sync) (f : Word → Engines → Option Engines) : Res :=
  s.engineOp path sy true
    (match f s.head.a s.me.eng with
     | none => s.trapStart (match path with | 0 => .ch 0 | 1 => .array | 2 => .red | _ => .coll 0) 1 0 0
     | some g =>
       .next (((s.modMe (fun c => c.modEng (fun _ => g))).start sy).signalOf s.cur.cid sy path 0 s.head.w s.head.addr))

/-- A value within a range. -/
def inRange (v : Word) (lo hi : Nat) : Bool := decide (lo ≤ v.toNat) && decide (v.toNat ≤ hi)

/-- The setups of a nest set (R346). -/
def NestSet.setCount (n : NestSet) (l : Nat) (v : Word) : Option NestSet :=
  if inRange v 1 65536 then some { n with cnt := Map.put n.cnt l (v.toNat - 1) } else none

def NestSet.setStride (n : NestSet) (l j : Nat) (v : Word) : Option NestSet :=
  if -(2 ^ 39) ≤ v.toInt ∧ v.toInt < 2 ^ 39 then some { n with str := Map.put n.str (8 * l + j) v.toInt } else none

def NestSet.setRun (n : NestSet) (v : Word) : Option NestSet :=
  if inRange v 1 4096 then some { n with run := v.toNat - 1 } else none

/-- A base word of a space and an address below 2^57. -/
def baseWord (sp : Nat) (v : Word) : Word := word (sp * 2 ^ 61 + v.toNat)

def NestSet.setBase (n : NestSet) (j sp : Nat) (v : Word) : Option NestSet :=
  if v.toNat < 2 ^ 57 then some { n with base := Map.put n.base j (baseWord sp v) } else none

def NestSet.setSbase (n : NestSet) (j sp : Nat) (v : Word) : Option NestSet :=
  if v.toNat < 2 ^ 57 then some { n with sbase := Map.put n.sbase j (baseWord sp v) } else none

/-- FMT: reserved bits are zero, and geometry code 7 is trapped by the instruction that sets it (R202). -/
def NestSet.setFmt (n : NestSet) (j : Nat) (v : Word) : Option NestSet :=
  if fReserved v ∨ fGeo v = 7 then none else some { n with fmt := Map.put n.fmt j v }

/-! ## The checks of a nest command at its start (R347, R350) -/

/-- One stream of the active set. `src` says that it is a source, `copyEng` that the nest is the copy engine's, `listed` that
its level-0 addresses come from an index list, `dec` that it is a DECOMP source. -/
def NestSet.streamOk (n : NestSet) (j : Nat) (src copyEng listed dec : Bool) : Bool :=
  let f := n.fmtW j
  let b := n.baseW j
  match fType f, fPt f with
  | some t, some p =>
    decide (spaceOf b ≤ 5) && !(spaceOf b == 4 && (src || !copyEng)) &&
    !fReserved f && fGeo f != 7 && (p == t || p == .f32 || p == .i32 || p == .i64 || p == .ui64) &&
    decide (n.runLen * t.bytes ≤ 4096) &&
    (if dec then addrOf b % 8 == 0
     else addrOf b % t.bytes == 0 && (List.range 6).all (fun l => n.stride l j % (t.bytes : Int) == 0)) &&
    (!fBlk f || (blkType t && !listed && !dec && decide (spaceOf (n.sbaseW j) ≤ 3)))
  | some _, none => false
  | none, _ => false

/-- A stream in space 5 other than a DECOMP source within the flash tier is a translation fault (R347, R4). -/
def State.flashBad (s : State) (b : Word) (dec : Bool) : Bool :=
  spaceOf b == 5 && (!dec || decide (bitsOf (s.variant.caps 2) 43 32 * 8000000000 ≤ addrOf b))

end Sys2Proof.Machine
end

