-- ==== Sys2Proof/Machine/Sems.lean ====
section
/-! DEFINITION. Semaphores, promises and time (R326-R331). -/

namespace Sys2Proof.Machine

/-- semw (R326): where S was in the visibility set, L1 is written back and invalidated before any later load (R177). -/
def execSemw (o : SemN) (s : State) : Res :=
  s.mainOnly
    (if (s.sem o.sem).count < o.n.toNat then .next s
     else
       let r := (s.sem o.sem).take o.n.toNat
       let s1 := s.setSem s.cur.cid o.sem r.1
       .next ((if r.2 then s1.wbInv s1.myCore else s1).adv o.st))

/-- sems (R326): the increment of R325 with no flags; an overflow names the sems, which is done. -/
def execSems (o : SemN) (s : State) : Res :=
  s.mainOnly (.next ((s.adv o.st).signal s.cur.cid o.sem o.n.toNat 0 0 0 s.curWord s.pc))

/-- semi (R326). -/
def execSemi (o : SemI) (s : State) : Res :=
  s.mainOnly
    (.next ((s.setSem s.cur.cid o.sem
      { count := o.v.toNat, status := if o.keep then (s.sem o.sem).status else 0, vis := 0 }).adv o.st))

/-- semr (R326). -/
def execSemr (o : SemR) (s : State) : Res :=
  s.mainOnly (s.resultVar o.st [] o.rd (if o.sw then (s.sem o.sem).status else word (s.sem o.sem).count))

/-- A command of the context on a channel, promised by a clk, has not completed (R329); CPREF promises nothing (R358). -/
def State.late (s : State) (cid ch t : Nat) : Bool :=
  match Map.find (s.ctx cid).eng.chans ch with
  | some c => bitOf c.promise 0 && decide (bitsOf c.promise 63 4 ≤ t)
  | none => false

/-- The wake of a sleepu that has issued (R329): a late command raises the missed promise, else S goes on. -/
def State.sleepWake (s : State) (t ch : Nat) : State :=
  if s.late s.cur.cid ch t then (s.setSca { s.sca with hold := .none }).trapS 9 ch 0 else s.go

/-- sleepu (R329). -/
def execSleepu (o : R1a) (s : State) : Res :=
  s.mainOnly
    (s.issue [o.ra] none
      (let p := s.r o.ra
       if bitOf p 0 = false then .next (s.adv o.st)
       else
         let u := s.park (.sleepu (bitsOf p 63 4) (bitsOf p 3 1)) o.st
         .next (if bitsOf p 63 4 ≤ s.clk then u.sleepWake (bitsOf p 63 4) (bitsOf p 3 1) else u)))

/-- cyc (R330). -/
def execCyc (o : R1d) (s : State) : Res := s.mainOnly (s.result o.st [] o.rd (word s.clk) 1)

/-- The context gives the next issue slot in which both are ready to the other (R331). -/
def State.give (s : State) : State := s.modCore s.myCore (fun k => { k with gives := some (s.cur.cid % 2) })

/-- yield (R331): with a count, the context issues nothing for that many clks after the issue. -/
def execYield (o : R1a) (s : State) : Res :=
  s.mainOnly
    (s.issue [o.ra] none
      (let n := bitsOf (s.r o.ra) 15 0
       let s1 := s.adv o.st
       .next (if n = 0 then s1.give else s1.setSca { s1.sca with hold := .yield (s.clk + n + 1) })))

end Sys2Proof.Machine
end

