-- ==== Sys2Proof/Machine/Lz.lean ====
section
/-! DEFINITION. The codecs of DECOMP (R356, R357): LZ4 blocks, FOR-delta and stored payloads. -/

namespace Sys2Proof.Machine

/-! ## LZ4 blocks -/

/-- The further bytes of a length: each 255 goes on. The length, and the bytes after it; nothing at the payload's end. -/
def lzLen : List Byte → Nat → Option (Nat × List Byte)
  | [], _ => none
  | b :: bs, acc => if b.toNat = 255 then lzLen bs (acc + 255) else some (acc + b.toNat, bs)

/-- A length whose nibble is 15 goes on in further bytes. -/
def lzNib (n : Nat) (bs : List Byte) : Option (Nat × List Byte) := if n = 15 then lzLen bs 15 else some (n, bs)

/-- Copies n bytes of the output from a distance back, byte by byte; the output stands latest byte first. -/
def lzCopy (dist : Nat) : Nat → List Byte → List Byte
  | 0, out => out
  | n + 1, out => lzCopy dist n ((out[dist - 1]?).getD 0 :: out)

/-- The sequences of a block; the output stands latest byte first. -/
def lzSeqs : Nat → List Byte → List Byte → Option (List Byte)
  | 0, _, _ => none
  | _ + 1, [], out => some out
  | f + 1, t :: bs, out =>
    match lzNib (t.toNat / 16) bs with
    | none => none
    | some (n, bs) =>
      if bs.length < n then none
      else
        let out := (bs.take n).reverse ++ out
        match bs.drop n with
        | [] => some out
        | [_] => none
        | o0 :: o1 :: rest =>
          let dist := o0.toNat + 256 * o1.toNat
          match lzNib (t.toNat % 16) rest with
          | none => none
          | some (l, rest) =>
            if dist = 0 ∨ out.length < dist then none else lzSeqs f rest (lzCopy dist (l + 4) out)

/-- An LZ4 block decompressed, if it is well formed. -/
def lz4 (bs : List Byte) : Option (List Byte) := (lzSeqs (bs.length + 1) bs []).map List.reverse

/-! ## FOR-delta (R357) -/

/-- Bits lo to lo + n of a byte list read as one little-endian number. -/
def bitsAt (bs : List Byte) (lo n : Nat) : Nat := leNat bs / 2 ^ lo % 2 ^ n

/-- The deltas of a group: minimum plus the packed values. -/
def forGroup (m : Int) (b n : Nat) (bs : List Byte) : List Int :=
  (List.range n).map (fun i => m + (bitsAt bs (b * i) b : Int))

/-- The deltas of `left` elements, group by group; nothing where the payload does not match. -/
def forDeltas : Nat → Nat → List Byte → Option (List Int)
  | 0, _, _ => none
  | f + 1, left, bs =>
    if left = 0 then (if bs = [] then some [] else none)
    else if bs.length < 9 then none
    else
      let m := (BitVec.ofNat 64 (leNat (bs.take 8))).toInt
      let b := leNat ((bs.drop 8).take 1)
      let n := min 128 left
      let z := (b * n + 7) / 8
      let rest := bs.drop 9
      if 64 < b ∨ rest.length < z then none
      else (forDeltas f (left - n) (rest.drop z)).map (fun ds => forGroup m b n (rest.take z) ++ ds)

/-- The running sums modulo 2^w. -/
def forSums (w : Nat) : Int → List Int → List Int
  | x, [] => [x]
  | x, d :: ds => x :: forSums w ((x + d) % 2 ^ w) ds

/-- A FOR-delta payload of U bytes at w bits. -/
def forDelta (w u : Nat) (bs : List Byte) : Option (List Byte) :=
  let e := w / 8
  if u % e ≠ 0 ∨ bs.length < 8 then none
  else
    match forDeltas (u / e + 1) (u / e - 1) (bs.drop 8) with
    | none => none
    | some ds =>
      let b : Int := (leNat (bs.take 8) % 2 ^ w : Nat)
      some ((forSums w b ds).flatMap (fun x => leBytes e x.toNat))

/-! ## Chunks (R356) -/

/-- The fields of a chunk header: payload length, decompressed length, codec, width; nothing where it is malformed. -/
def chunkHead (bs : List Byte) : Option (Nat × Nat × Nat × Nat) :=
  let c := leNat (bs.take 4)
  let u := leNat ((bs.drop 4).take 4)
  let k := leNat ((bs.drop 8).take 1)
  let w := leNat ((bs.drop 9).take 1)
  if 1 ≤ c ∧ c ≤ 65536 ∧ 1 ≤ u ∧ u ≤ 65536 ∧ k ≤ 2 ∧ (w = 0 ∨ (k = 1 ∧ w = 1)) ∧ leNat (bs.drop 10) = 0 then
    some (c, u, k, w)
  else none

/-- The bytes of a chunk's payload, if it is well formed. -/
def chunkBytes (c u k w : Nat) (bs : List Byte) : Option (List Byte) :=
  let out := match k with
    | 0 => lz4 bs
    | 1 => forDelta (if w = 0 then 32 else 64) u bs
    | _ => if c = u then some bs else none
  match out with
  | some o => if o.length = u then some o else none
  | none => none

end Sys2Proof.Machine
end

