-- ==== Sys2Proof/Machine/CopyFlow.lean ====
section
/-! DEFINITION. One iteration of the copy engine: its accesses (R138, R347-R349, R355, R356), the decoding of its elements
and the encoding of what the port programs emit (R351, R203). -/

namespace Sys2Proof.Machine

/-! ## Addresses -/

/-- The address of element e of stream j in the run of the indices given (R348). -/
def NestSet.elemAddr (n : NestSet) (j : Nat) (idx : List Nat) (e : Nat) : Nat :=
  addr64 ((addrOf (n.baseW j) : Int) + n.off 0 j idx + (e * fSize (n.fmtW j) : Nat))

/-- The overlap of a block's span with the stream's: places lo to lo + size, the stream from `at0` on, `cnt` long. -/
def overlap (lo size at0 cnt : Nat) : Nat := min (lo + size) (at0 + cnt) - max lo at0

/-- The block of an element (R349): its number in the scale array, and how many elements of the stream it holds. -/
def NestSet.blockOf (n : NestSet) (j : Nat) (idx : List Nat) (e : Nat) : Nat × Nat :=
  let f := n.fmtW j
  let g := geoShape (fGeo f)
  let i := fun l => (idx[l]?).getD 0
  let row := i 1 + fRow0 f
  let col := e + n.runLen * i 0 + fCol0 f
  let p := i 2 + n.count 2 * (i 3 + n.count 3 * (i 4 + n.count 4 * i 5))
  let nbi := (fRow0 f + n.count 1 + g.1 - 1) / g.1
  let nbj := (fCol0 f + n.runLen * n.count 0 + g.2 - 1) / g.2
  let bi := row / g.1
  let bj := col / g.2
  (p * nbi * nbj + bi * nbj + bj,
   overlap (bi * g.1) g.1 (fRow0 f) (n.count 1) * overlap (bj * g.2) g.2 (fCol0 f) (n.runLen * n.count 0))

/-- The address of an element's block code (R349). -/
def NestSet.codeAddr (n : NestSet) (j : Nat) (idx : List Nat) (e : Nat) : Nat :=
  (addrOf (n.sbaseW j) + (n.blockOf j idx e).1) % 2 ^ 64

/-! ## A source element and a destination -/

/-- Element e of source stream j, decoded to its PT (R351 step 1, R204), with its flags. -/
def State.srcElem (s : State) (cid path : Nat) (m : Cmd) (j : Nat) (idx : List Nat) (e : Nat) :
    Except Stop (Word × Fl) := do
  let n := m.nest
  let f := n.fmtW j
  let raw ← s.engRead cid path m .eread (spaceOf (n.baseW j)) (n.elemAddr j idx e) (fSize f)
  if fBlk f then
    let c ← s.engRead cid path m .eread (spaceOf (n.sbaseW j)) (n.codeAddr j idx e) 1
    let v := decodeSrc f n.subv (some (leNat c.1)) (leNat raw.1)
    pure (v.1, v.2 ||| raw.2 ||| c.2)
  else
    let v := decodeSrc f n.subv none (leNat raw.1)
    pure (v.1, v.2 ||| raw.2)

/-- The bytes that element e of stream j names, with its block code where it has one. -/
def NestSet.ranges (n : NestSet) (want : Want) (blk : Bool) (j : Nat) (idx : List Nat) (e : Nat) : List Range :=
  let f := n.fmtW j
  ⟨want, spaceOf (n.baseW j), n.elemAddr j idx e, fSize f⟩ ::
    (if blk && fBlk f then [⟨want, spaceOf (n.sbaseW j), n.codeAddr j idx e, 1⟩] else [])

/-- The 64 KiB pages that stream j names in the run of the indices given. -/
def NestSet.pages (n : NestSet) (blk : Bool) (j : Nat) (idx : List Nat) : List Nat :=
  let f := n.fmtW j
  let c := n.codeAddr j idx 0
  pagesOf (spaceOf (n.baseW j)) (n.elemAddr j idx 0) (n.runLen * fSize f) ++
    (if blk && fBlk f then pagesOf (spaceOf (n.sbaseW j)) c (n.codeAddr j idx (n.runLen - 1) + 1 - c) else [])

/-- Where element e of destination stream j goes, checked (R347). `copyEng` says that the stream may be block-scaled. -/
def State.dstElem (s : State) (cid : Nat) (m : Cmd) (copyEng : Bool) (j : Nat) (idx : List Nat) (e : Nat) :
    Except Stop Dst := do
  let n := m.nest
  let f := n.fmtW j
  let a := n.elemAddr j idx e
  let p ← s.spacePlace cid m.pre .ewrite (spaceOf (n.baseW j)) a (fSize f)
  if copyEng && fBlk f then
    let ca := n.codeAddr j idx e
    let c ← s.spacePlace cid m.pre .ewrite (spaceOf (n.sbaseW j)) ca 1
    let b := n.blockOf j idx e
    pure ⟨j, p, word a, some ⟨b.1 * 8 + j, b.2, c, word ca⟩⟩
  else pure ⟨j, p, word a, none⟩

/-! ## The streams of a copy-family command (R353, R354) -/

/-- The sources and the destinations. -/
def Cmd.srcs (m : Cmd) : List Nat := if m.op = 4 then List.range (bitsOf m.ent.w 25 24 + 1) else [0]
def Cmd.dsts (m : Cmd) : List Nat :=
  if m.op = 4 then (List.range (bitsOf m.ent.w 27 26 + 1)).map (fun j => 4 + j) else [4]

/-- Four inputs, the missing ones zero. -/
def pad4 (ws : List Word) : List Word := (List.range 4).map (fun i => (ws[i]?).getD 0)

/-- The element indices of the run in progress. -/
def Cmd.ixs (m : Cmd) : List (Nat × Nat) :=
  (List.range m.nest.runLen).map (fun e => (e, e + m.nest.runLen * m.iter))

/-- What a copy-family iteration has read: its elements, DECOMP's position after it, the errors met in reading an index-list entry that
moves nothing, and the ranges that it names. -/
structure CopyIn where
  (els : List Elem) (dec : DecSt) (fl : Fl) (rs : List Range)

/-- The ranges of a run, element by element: its sources at one set of indices, its destinations at another. -/
def Cmd.runRanges (m : Cmd) (si di : Option (List Nat)) : List Range :=
  (List.range m.nest.runLen).flatMap (fun e =>
    (match si with | some idx => m.srcs.flatMap (fun j => m.nest.ranges .eread true j idx e) | none => []) ++
    (match di with | some idx => m.dsts.flatMap (fun j => m.nest.ranges .ewrite true j idx e) | none => []))

/-- The elements of a run: its sources at one set of indices, if they are read, and its destinations at another, if they are
written; FILL and a flag otherwise. Every address is checked before a source is read (R138). -/
def State.runElems (s : State) (cid : Nat) (m : Cmd) (si di : Option (List Nat)) (fl : Fl) : Except Stop CopyIn := do
  let rs := m.runRanges si di
  s.touch cid m.pre rs
  let es ← m.ixs.mapM (fun x => do
    let ins ← match si with
      | some idx => m.srcs.mapM (fun j => s.srcElem cid 0 m j idx x.1)
      | none => pure [(m.nest.fill, 0)]
    let ds ← match di with
      | some idx => m.dsts.mapM (fun j => s.dstElem cid m true j idx x.1)
      | none => pure []
    pure (⟨x.2, pad4 (ins.map Prod.fst), ins.foldl (fun f i => f ||| i.2) fl, ds⟩ : Elem))
  pure ⟨es, m.dec, 0, rs⟩

/-! ## DECOMP (R356) -/

/-- The end of the flash tier. -/
def State.flashEnd (s : State) : Nat := bitsOf (s.variant.caps 2) 43 32 * 8000000000

/-- Reads chunks until enough bytes stand ready, or nothing more is read. An uncorrectable byte reads as zero, and the elements that its
chunk gives are affected (R225). -/
def State.chunks (s : State) (cid : Nat) (m : Cmd) (want : Nat) : Nat → DecSt → Except Stop DecSt
  | 0, d => pure d
  | fuel + 1, d =>
    if want ≤ d.buf.length ∨ d.bad ≠ 0 then pure d
    else do
      let sp := spaceOf (m.nest.baseW 0)
      if sp = 5 ∧ s.flashEnd < d.pos + 16 then pure { d with bad := 2 }
      else
        let h ← s.engRead cid 0 m .eread sp d.pos 16
        match chunkHead h.1 with
        | none => pure { d with bad := 1, fl := h.2 }
        | some (c, u, k, w) =>
          if sp = 5 ∧ s.flashEnd < d.pos + 16 + c then pure { d with bad := 2, fl := h.2 }
          else
            s.touch cid m.pre [⟨.eread, sp, d.pos + 16, c⟩]
            let p ← s.engRead cid 0 m .eread sp (d.pos + 16) c
            match chunkBytes c u k w p.1 with
            | none => pure { d with bad := 1, fl := h.2 ||| p.2 }
            | some out =>
              s.chunks cid m want fuel
                ⟨(d.pos + 16 + c + 7) / 8 * 8, d.buf ++ out.map (fun b => (b, h.2 ||| p.2)), 0, 0⟩

/-- Element e of a DECOMP run: its word and flags (R356). FILL stands for what no chunk gives, and the errors of the read that ended the
chunk stream are the first such element's. -/
def DecSt.elem (d : DecSt) (n : NestSet) (e : Nat) : Word × Fl :=
  let z := fSize (n.fmtW 0)
  if z * (e + 1) ≤ d.buf.length then
    let bs := (d.buf.drop (z * e)).take z
    let v := decodeSrc (n.fmtW 0) n.subv none (leNat (bs.map Prod.fst))
    (v.1, bs.foldl (fun f b => f ||| b.2) v.2)
  else (n.fill, (if d.bad = 2 then fOOR else fINV) ||| (if d.buf.length / z = e then d.fl else 0))

/-- The elements of a DECOMP run and the position after it: TYPE[0] elements in order, FILL once nothing is left. -/
def State.decElems (s : State) (cid : Nat) (m : Cmd) : Except Stop CopyIn := do
  let idx := m.nest.idx m.iter
  let rs := m.runRanges none (some idx)
  s.touch cid m.pre rs
  let z := fSize (m.nest.fmtW 0)
  let d ← s.chunks cid m (z * m.nest.runLen) (z * m.nest.runLen + 1) m.dec
  let es ← m.ixs.mapM (fun x => do
    let ds ← m.dsts.mapM (fun j => s.dstElem cid m true j idx x.1)
    let v := d.elem m.nest x.1
    pure (⟨x.2, pad4 [v.1], v.2, ds⟩ : Elem))
  let out : Bool := decide (d.buf.length < z * m.nest.runLen)
  pure ⟨es, { d with buf := d.buf.drop (z * m.nest.runLen), fl := if out then 0 else d.fl }, 0,
    ⟨.eread, spaceOf (m.nest.baseW 0), m.dec.pos, d.pos - m.dec.pos⟩ :: rs⟩

/-! ## The iteration -/

/-- The index list of a GATHER or SCATTER. -/
def Cmd.list? (m : Cmd) : Option Word := if m.op = 5 then some m.ent.a else if m.op = 6 then some m.ent.b else none

/-- The address of a run's index-list entry (R355). -/
def listAddr (a : Word) (run : Nat) : Nat := (a.toNat + 8 * run) % 2 ^ 64

/-- The index-list entry of the run (R355), with the errors met. -/
def State.listEntry (s : State) (cid : Nat) (m : Cmd) (a : Word) : Except Stop (Word × Fl) := do
  let b ← s.engRead cid 0 m .eread 0 (listAddr a m.iter) 8
  pure (leWord b.1, b.2)

/-- The pages that a run of a copy-family command names, as far as its nest and its list alone give them (R137). -/
def Cmd.copyPages (m : Cmd) (run : Nat) : List Nat :=
  let idx := m.nest.idx run
  (match m.list? with | some a => pagesOf 0 (listAddr a run) 8 | none => []) ++
    (if m.op = 5 ∨ m.op = 7 then [] else m.srcs.flatMap (fun j => m.nest.pages true j idx)) ++
    (if m.op = 6 then [] else m.dsts.flatMap (fun j => m.nest.pages true j idx))

/-- The elements of a copy-family command's next run, its accesses all checked and its sources read (R138, R430). -/
def State.copyPrep (s : State) (cid : Nat) (m : Cmd) : Except Stop CopyIn := do
  let idx := m.nest.idx m.iter
  if m.op = 5 then
    let g ← s.listEntry cid m m.ent.a
    if g.1 = BitVec.allOnes 64 then pure ⟨[], m.dec, g.2, []⟩
    else if m.nest.limit.toNat ≤ g.1.toNat then s.runElems cid m none (some idx) (fOOR ||| g.2)
    else s.runElems cid m (some (idx.set 0 g.1.toNat)) (some idx) g.2
  else if m.op = 6 then
    let g ← s.listEntry cid m m.ent.b
    if g.1 = BitVec.allOnes 64 then s.runElems cid m (some idx) none g.2
    else if m.nest.limit.toNat ≤ g.1.toNat then s.runElems cid m (some idx) none (fOOR ||| g.2)
    else s.runElems cid m (some idx) (some (idx.set 0 g.1.toNat)) g.2
  else if m.op = 7 then s.decElems cid m
  else s.runElems cid m (some idx) (some idx) 0

/-! ## Elements that leave the ports -/

/-- A status word after an element's flags, the index of the first flagged element being the least (R324): a quantiser
finishes elements out of order. -/
def stElemMin (w : Word) (ix : Nat) (fl : Fl) : Word :=
  if fl.toNat / 2 = 0 then w
  else
    stWord (min 0xFFFF (stCnt w + 1)) (if stFlagged w then min (stIdx w) ix else ix) (stFlags w ||| (fl.toNat / 2 * 2))

/-- The elements of a block encoded, with its code (R203). -/
def blkQuant (t : ETy) (sub : Option Word) (fz : Bool) (es : List BlkEl) : Nat × List (BlkEl × Nat × Fl) :=
  let code := blkCode t (es.map (fun x => x.val.getD (.fin false 0 0)))
  (code, es.map (fun x => (x, blkEncode t sub fz code (x.val, x.draw))))

/-- A quantised element of a copy leaves: its byte, and its flags once no other block holds it. -/
def Cmd.blkOut (m : Cmd) (u : EUnit) (x : BlkEl × Nat × Fl) : Cmd :=
  let m := m.put u x.1.dst.place x.1.dst.va [byte x.2.1]
  let fl := x.1.fl ||| x.2.2
  if m.blk.any (fun y => y.ix == x.1.ix) then
    { m with blk := updFirst (fun y => y.ix == x.1.ix) (fun y => { y with fl := y.fl ||| fl }) m.blk }
  else { m with status := stElemMin m.status x.1.ix fl }

/-- Writes the block of a key: its elements and its code together (R203, R349). -/
def Cmd.quant (m : Cmd) (u : EUnit) (key : Nat) : Cmd :=
  let es := m.blk.filter (fun x => x.at_.key == key)
  match es with
  | [] => m
  | x :: _ =>
    let f := m.nest.fmtW x.dst.stream
    let q := blkQuant ((fType f).getD .e4m3) (if fSuben f then some m.nest.subv else none) (fFz f) es
    let m := { m with blk := m.blk.filter (fun y => y.at_.key != key) }
    (q.2.foldl (fun m y => m.blkOut u y) m).put u x.at_.code x.at_.codeVa [byte q.1]

/-- Writes every block that is complete. -/
def Cmd.quantFull (m : Cmd) (u : EUnit) : Cmd :=
  (m.blk.map (fun x => (x.at_.key, x.at_.need))).eraseDups.foldl (fun m k =>
    if (m.blk.filter (fun x => x.at_.key == k.1)).length = k.2 then m.quant u k.1 else m) m

/-- Writes every block that is held, cut short as it is (R202). -/
def Cmd.quantAll (m : Cmd) (u : EUnit) : Cmd :=
  ((m.blk.map (fun x => x.at_.key)).eraseDups).foldl (fun m k => m.quant u k) m

/-- What one destination does with an element: the command, the flags, and the machine after its draw (R351 step 5). -/
def State.copyDst (s : State) (cid : Nat) (u : EUnit) (e : Elem) (outs : List (Option Word)) (m : Cmd) (fl : Fl)
    (d : Dst) : State × Cmd × Fl :=
  let f := m.nest.fmtW d.stream
  let pt := (fPt f).getD .f32
  let w := ((outs[d.stream - 4]?).getD none)
  match d.blk with
  | some b =>
    let r := s.encDraw cid 1 (fRnd f) e.ix
    (r.2, { m with blk := m.blk ++ [⟨e.ix, 0, 0, d, b, w.map (pt.value (fFz f)), r.1, 0⟩] }, fl)
  | none =>
    match w with
    | none => (s, m, fl)
    | some w =>
      let r := s.encDraw cid 1 (fRnd f && fType f != fPt f) e.ix
      let v := encodeDst f m.nest.subv pt r.1 w
      (r.2, m.put u d.place d.va (leBytes (fSize f) v.1), fl ||| v.2)

/-- An element of a copy leaves the ports (R351, R410). -/
def State.copyFinal (s : State) (cid : Nat) (u : EUnit) (e : Elem) (outs : List (Option Word)) (fl : Fl) : State :=
  match s.cmd cid u with
  | none => s
  | some m =>
    let r := e.dsts.foldl (fun x d => x.1.copyDst cid u e outs x.2.1 x.2.2 d) (s, m, e.fl ||| fl)
    let m := r.2.1
    let m := if m.blk.any (fun y => y.ix == e.ix) then
        { m with blk := updFirst (fun y => y.ix == e.ix) (fun y => { y with fl := y.fl ||| r.2.2 }) m.blk }
      else { m with status := stElem m.status e.ix r.2.2 }
    r.1.setCmd cid u (m.quantFull u)

/-- A run of exactly 4,096 bytes from translated memory into a whole granule of the weight store, with no port program and no
conversion, leaves the granule clean (R231): the granule and the source address. -/
def State.cleanRun (s : State) (cid : Nat) (m : Cmd) (j : Nat) : Option (Nat × Word) :=
  let n := m.nest
  let idx := n.idx m.iter
  let src := n.fmtW (j - 4)
  let dst := n.fmtW j
  let da := n.elemAddr j idx 0
  let sidx := if m.op = 5 then
      (match s.listEntry cid m m.ent.a with
       | .ok g => if m.nest.limit.toNat ≤ g.1.toNat then none else some (idx.set 0 g.1.toNat)
       | .error _ => none)
    else some idx
  match sidx with
  | none => none
  | some si =>
    let sa := n.elemAddr (j - 4) si 0
    if spaceOf (n.baseW j) = 4 ∧ spaceOf (n.baseW (j - 4)) = 0 ∧ sa < 0x1C0 * 2 ^ 48 ∧ m.op ≠ 6 ∧ m.op ≠ 7 ∧
        da % 4096 = 0 ∧ n.runLen * fSize dst = 4096 ∧ fType src = fType dst ∧ fType src = fPt src ∧
        fType dst = fPt dst ∧ !fBlk src ∧ !fBlk dst ∧ (s.program cid 0).isNone ∧ (s.program cid 1).isNone then
      some (da / 4096, word sa)
    else none

/-- The write goes to a granule of the weight store. -/
def WEnt.inWst (w : WEnt) (g : Nat) : Bool :=
  match w.parts.head? with
  | some (.wst _ off, _) => off / 4096 == g
  | _ => false

/-- Marks the last write of a clean run. -/
def markClean (ws : List WEnt) (c : Nat × Word) : List WEnt :=
  (updFirst (fun w => w.inWst c.1) (fun w => { w with clean := some c }) ws.reverse).reverse

end Sys2Proof.Machine
end

