-- ==== Sys2Proof/Machine/RedFlow.lean ====
section
/-! DEFINITION. One iteration of the reduction engine (R361-R364): its accesses, the folds in the fold type and the results. -/

namespace Sys2Proof.Machine

/-! ## Folds (R362) -/

/-- The kind of the fold that a port-side type gives. -/
def foldTy : ETy → ETy
  | .f32 => .f32 | .bf16 => .f32 | .f16 => .f32 | .e4m3 => .f32 | .e5m2 => .f32 | .l6 => .f32
  | .i8 => .i32 | .i16 => .i32 | .i32 => .i32 | .ui8 => .i32
  | .i64 => .i64 | .ui64 => .ui64

/-- A value of the port-side type in its fold type, after an exact widening. -/
def foldIn (p : ETy) (w : Word) : Word :=
  let t := foldTy p
  if p = .f32 then zextN 32 w else t.hold (convert t .plain (p.value false w)).1

/-- The fold operation of a code: 0 sum, 1 max, 2 min, 3 and, 4 or. -/
def foldPick (mx : Bool) (t : ETy) (a b : Word) : Word :=
  if t = .f32 then (f32MinMax mx false a b).1
  else
    let x := t.intOf a
    let y := t.intOf b
    if (if mx then decide (x < y) else decide (y < x)) then b else a

/-- One more element. -/
def Fold.step (f : Fold) (op : Nat) (t : ETy) (w : Word) : Fold :=
  if op = 0 then
    if t = .f32 then f.add (f32Val false w, 0) else { f with n := f.n + 1, w := t.hold (f.w + w).toNat }
  else
    let v := if f.n = 0 then w
      else match op with
        | 1 => foldPick true t f.w w
        | 2 => foldPick false t f.w w
        | 3 => f.w &&& w
        | _ => f.w ||| w
    { f with n := f.n + 1, w := v }

/-- The identity of an operation (R362). -/
def foldId (op : Nat) (t : ETy) : Word :=
  match op with
  | 1 => if t = .f32 then 0xFF800000 else t.hold (t.ofInt t.range.1)
  | 2 => if t = .f32 then 0x7F800000 else t.hold (t.ofInt t.range.2)
  | 3 => if t = .f32 then 0xFFFFFFFF else BitVec.allOnes 64
  | _ => 0

/-- The result of a fold, with the flags of its one rounding. All NaN gives the canonical NaN. -/
def Fold.result (f : Fold) (op : Nat) (t : ETy) : Word × Fl :=
  if f.n = 0 then (foldId op t, 0)
  else if op = 0 ∧ t = .f32 then f32Res false f.total
  else if t = .f32 ∧ (op = 1 ∨ op = 2) ∧ (f32Val false f.w).isNan then (word FFmt.f32.canon, 0)
  else (f.w, 0)

/-! ## RED and SCAN -/

def Cmd.rop (m : Cmd) : Nat := bitsOf m.ent.w 26 24
def Cmd.rd (m : Cmd) : Nat := bitsOf m.ent.w 28 27

/-- Runs of a group: levels 0 to D − 1. -/
def Cmd.groupRuns (m : Cmd) : Nat := (List.range m.rd).foldl (fun a l => a * m.nest.count l) 1

/-- The run in progress is the last of its group. -/
def Cmd.groupEnds (m : Cmd) : Bool := (m.iter + 1) % m.groupRuns == 0

/-- The group of the run in progress, in nest order. -/
def Cmd.group (m : Cmd) : Nat := m.iter / m.groupRuns

/-- The PT of stream 0, and the fold type. -/
def Cmd.pt0 (m : Cmd) : ETy := (fPt (m.nest.fmtW 0)).getD .f32
def Cmd.ft (m : Cmd) : ETy := foldTy m.pt0

/-- The body words of the program at a point. -/
def State.bodyAt (s : State) (cid point : Nat) : List Nat :=
  match s.program cid point with
  | some n => (List.range (s.slot cid n).blen).map (s.slot cid n).word
  | none => []

/-- The body holds a get of in1, so that stream 1 is read (R400). -/
def State.riReads1 (s : State) (cid : Nat) : Bool :=
  (s.bodyAt cid 4).any (fun w => w / 2 ^ 26 == 0x24 && w % 4 == 1)

/-- The streams 5 to 7 that the program at ri may write (R361). -/
def State.riOuts (s : State) (cid : Nat) : List Nat :=
  [5, 6, 7].filter (fun j => (s.bodyAt cid 4).any (fun w => w / 2 ^ 26 == 0x25 && w % 4 + 4 == j))

/-- The address of a RED result: levels from D on (R362). -/
def Cmd.redAddr (m : Cmd) : Nat :=
  addr64 ((addrOf (m.nest.baseW 4) : Int) + m.nest.off m.rd 4 (m.nest.idx m.iter))

/-- Where the result of the group in progress goes, checked. -/
def State.redDst (s : State) (cid : Nat) (m : Cmd) : Except Stop Dst := do
  let p ← s.spacePlace cid m.pre .ewrite (spaceOf (m.nest.baseW 4)) m.redAddr (fSize (m.nest.fmtW 4))
  pure ⟨4, p, word m.redAddr, none⟩

/-- The source streams of RED and SCAN, and those that each element of a run is written to (R361, R363). -/
def State.redSrcs (s : State) (cid : Nat) : List Nat := if s.riReads1 cid then [0, 1] else [0]
def State.redDsts (s : State) (cid : Nat) (m : Cmd) : List Nat := (if m.op = 4 then [4] else []) ++ s.riOuts cid

/-- The ranges of the run in progress of RED or SCAN: RED's result first where its group ends. -/
def State.redRanges (s : State) (cid : Nat) (m : Cmd) : List Range :=
  let idx := m.nest.idx m.iter
  (if m.op = 3 ∧ m.groupEnds then [⟨.ewrite, spaceOf (m.nest.baseW 4), m.redAddr, fSize (m.nest.fmtW 4)⟩] else []) ++
    (List.range m.nest.runLen).flatMap (fun e =>
      (s.redSrcs cid).flatMap (fun j => m.nest.ranges .eread true j idx e) ++
      (s.redDsts cid m).flatMap (fun j => m.nest.ranges .ewrite false j idx e))

/-- The pages that a run of RED or SCAN names (R137). -/
def State.redPages (s : State) (cid : Nat) (m : Cmd) (run : Nat) : List Nat :=
  let idx := m.nest.idx run
  let x := { m with iter := run }
  (if m.op = 3 ∧ x.groupEnds then pagesOf (spaceOf (m.nest.baseW 4)) x.redAddr (fSize (m.nest.fmtW 4)) else []) ++
    (s.redSrcs cid).flatMap (fun j => m.nest.pages true j idx) ++ (s.redDsts cid m).flatMap (fun j => m.nest.pages false j idx)

/-- The elements of the next run of RED (OP 3) or SCAN (OP 4), its accesses checked and its inputs read. -/
def State.redPrep (s : State) (cid : Nat) (m : Cmd) : Except Stop (List Elem) := do
  let idx := m.nest.idx m.iter
  s.touch cid m.pre (s.redRanges cid m)
  m.ixs.mapM (fun x => do
    let a ← s.srcElem cid 2 m 0 idx x.1
    let b ← if s.riReads1 cid then s.srcElem cid 2 m 1 idx x.1 else pure (0, 0)
    let ds ← (s.redDsts cid m).mapM (fun j => s.dstElem cid m false j idx x.1)
    pure ⟨x.2, [a.1, b.1, 0, 0], a.2 ||| b.2, ds⟩)

/-- Encodes a word of a type into a destination at a point (R362). -/
def State.redPut (s : State) (cid : Nat) (u : EUnit) (point ix : Nat) (m : Cmd) (d : Dst) (pt : ETy) (w : Word) :
    State × Cmd × Fl :=
  let f := m.nest.fmtW d.stream
  let r := s.encDraw cid point (fRnd f && fType f != some pt) ix
  let v := encodeDst f m.nest.subv pt r.1 w
  (r.2, m.put u d.place d.va (leBytes (fSize f) v.1), v.2)

/-- What ri emits for an element: out1 to out3 go to streams 5 to 7, out0 joins the fold (R361). The machine, the command
and the flags. -/
def State.redMid (s : State) (cid : Nat) (u : EUnit) (m : Cmd) (e : Elem) (outs : List (Option Word)) :
    State × Cmd × Fl :=
  let bound := (s.program cid 4).isSome
  let r := e.dsts.foldl (fun (x : State × Cmd × Fl) d =>
    match d.stream, (outs[d.stream - 4]?).getD none with
    | 4, _ => x
    | _, none => x
    | _, some w =>
      if bound then
        let r := x.1.redPut cid u 4 e.ix x.2.1 d ((fPt (m.nest.fmtW d.stream)).getD .f32) w
        (r.1, r.2.1, x.2.2 ||| r.2.2)
      else x) (s, m, (0 : Fl))
  match (outs[0]?).getD none with
  | none => r
  | some w => (r.1, { r.2.1 with fold := r.2.1.fold.step m.rop m.ft (foldIn m.pt0 w) }, r.2.2)

/-- What ro emits for a SCAN's prefix is written at the element's place (R363). -/
def State.scanPut (s : State) (cid : Nat) (u : EUnit) (m : Cmd) (e : Elem) (outs : List (Option Word)) :
    State × Cmd × Fl :=
  match e.dsts.find? (fun d => d.stream == 4), (outs[0]?).getD none with
  | some d, some w => s.redPut cid u 5 e.ix m d m.ft w
  | _, _ => (s, m, 0)

/-- What ro emits for a RED's group is written; the group's flags carry its number (R362). -/
def State.groupPut (s : State) (cid : Nat) (u : EUnit) (m : Cmd) (outs : List (Option Word)) (fl : Fl) : State × Cmd :=
  match (outs[0]?).getD none, s.redDst cid m with
  | some w, .ok d =>
    let r := s.redPut cid u 5 m.group m d m.ft w
    (r.1, { r.2.1 with status := stElem r.2.1.status m.group (fl ||| r.2.2) })
  | _, _ => (s, { m with status := stElem m.status m.group fl })

/-! ## MERGE (R364) -/

/-- The address of record i of a stream of MERGE. -/
def Cmd.recAddr (m : Cmd) (j i : Nat) : Nat := (addrOf (m.nest.baseW j) + 16 * i) % 2 ^ 64

/-- The ranges of MERGE's next step: the records of A and B that it compares, and where the one taken goes. -/
def Cmd.mergeRanges (m : Cmd) : List Range :=
  let at_ := fun (want : Want) j i => (⟨want, spaceOf (m.nest.baseW j), m.recAddr j i, 16⟩ : Range)
  (if m.mi < m.ent.a.toNat then [at_ .eread 0 m.mi] else []) ++ (if m.mj < m.ent.b.toNat then [at_ .eread 1 m.mj] else []) ++
    [at_ .ewrite 4 (m.mi + m.mj)]

/-- A record of MERGE: its key and its bytes. -/
def State.mergeRec (s : State) (cid : Nat) (m : Cmd) (j i : Nat) : Except Stop (List Byte × Fl) :=
  s.engRead cid 2 m .eread (spaceOf (m.nest.baseW j)) (m.recAddr j i) 16

/-- A takes a key before B's. -/
def mergeLe (signed : Bool) (a b : List Byte) : Bool :=
  let x := leWord (a.take 8)
  let y := leWord (b.take 8)
  if signed then decide (x.toInt ≤ y.toInt) else decide (x.toNat ≤ y.toNat)

/-- One record of MERGE: the command after it. -/
def State.mergeStep (s : State) (cid : Nat) (u : EUnit) (m : Cmd) : Except Stop Cmd := do
  let nA := m.ent.a.toNat
  let nB := m.ent.b.toNat
  s.touch cid m.pre m.mergeRanges
  let none2 : List Byte × Fl := ([], 0)
  let a ← if m.mi < nA then s.mergeRec cid m 0 m.mi else pure none2
  let b ← if m.mj < nB then s.mergeRec cid m 1 m.mj else pure none2
  let takeA : Bool := m.mj == nB || (decide (m.mi < nA) && mergeLe (bitOf m.ent.w 24) a.1 b.1)
  let k := m.mi + m.mj
  let ad := m.recAddr 4 k
  let p ← s.spacePlace cid m.pre .ewrite (spaceOf (m.nest.baseW 4)) ad 16
  let x := if takeA then a else b
  let m := m.put u p (word ad) x.1
  pure { m with mi := if takeA then m.mi + 1 else m.mi, mj := if takeA then m.mj else m.mj + 1,
                status := stElem m.status k x.2 }

end Sys2Proof.Machine
end

