-- ==== Sys2Proof/Machine/MatFlow.lean ====
section
/-! DEFINITION. The matrix engine's iterations (R373-R399): operand fetches, K steps (R385, R197-R200), the drain (R389-R391,
R201), MZERO, MINIT, MSPARSE and the branches of DGO (R396-R399). -/

namespace Sys2Proof.Machine

/-! ## The matrix set (R378, R381, R382) -/

def MatSet.count (n : MatSet) (l : Nat) : Nat := Map.getD n.cnt l 0 + 1
def MatSet.stride (n : MatSet) (l j : Nat) : Int := Map.getD n.str (4 * l + j) 0
def MatSet.baseW (n : MatSet) (j : Nat) : Word := Map.getD n.base j 0
def MatSet.sbaseW (n : MatSet) (j : Nat) : Word := Map.getD n.sbase j 0
def MatSet.runs (n : MatSet) : Nat := (List.range 6).foldl (fun a l => a * n.count l) 1
def MatSet.idx (n : MatSet) (r : Nat) : List Nat := runIdx ((List.range 6).map n.count) r

/-- Σ i_l × STR[l][j] over the levels from `lo` on. -/
def MatSet.off (n : MatSet) (lo j : Nat) (idx : List Nat) : Int :=
  (List.range 6).foldl (fun a l => if l < lo then a else a + ((idx[l]?).getD 0 : Int) * n.stride l j) 0

def mAType (w : Word) : Option ETy := tyOf (bitsOf w 3 0)
def mBType (w : Word) : Option ETy := tyOf (bitsOf w 7 4)
def mSp (w : Word) : Bool := bitOf w 8
def mSati (w : Word) : Bool := bitOf w 9
def mFz (w : Word) : Bool := bitOf w 10
def mTa (w : Word) : Bool := bitOf w 11
def mAblk (w : Word) : Bool := bitOf w 12
def mAgeo (w : Word) : Nat := bitsOf w 15 13
def mBblk (w : Word) : Bool := bitOf w 16
def mBgeo (w : Word) : Nat := bitsOf w 19 17

def isIntTy (t : ETy) : Bool := t == .i8 || t == .ui8

/-- A type that MCTL may name (R381). -/
def matTy (t : ETy) : Bool :=
  t == .bf16 || t == .f16 || t == .e4m3 || t == .e5m2 || t == .l6 || t == .i8 || t == .ui8

/-- MCTL selects nothing that R381 reserves. -/
def mctlOk (w : Word) : Bool :=
  match mAType w, mBType w with
  | some a, some b =>
    bitsOf w 63 20 == 0 && matTy a && matTy b && (isIntTy a == isIntTy b) && ((a == .l6) == (b == .l6)) &&
    !(mSp w && (a.bits == 16 || b.bits == 16 || a == .l6 || mTa w)) &&
    !(mAblk w && !blkType a) && !(mBblk w && !blkType b) && mAgeo w != 7 && mBgeo w != 7
  | some _, none => false
  | none, _ => false

/-- MCTL selects L6 (R380). -/
def mctlL6 (w : Word) : Bool := mAType w == some .l6 || mBType w == some .l6

/-- The shape of one iteration: A's rows and K positions, tiles (R374, R375). -/
def MatSet.pair (n : MatSet) : Bool := mAType n.mctl == some .l6
def MatSet.rows (n : MatSet) : Nat := if n.pair then 32 else 16
def MatSet.kn (n : MatSet) : Nat := if mSp n.mctl then 64 else 32
def MatSet.tilesPer (n : MatSet) : Nat := if n.pair then 2 else 1
def MatSet.aT (n : MatSet) : ETy := (mAType n.mctl).getD .e4m3
def MatSet.bT (n : MatSet) : ETy := (mBType n.mctl).getD .e4m3
def MatSet.pitch (n : MatSet) : Nat := bitsOf n.apitch 31 0

/-! ## Operands (R375-R377) -/

/-- Reads of the array: the scratchpad and space W only. -/
def Want.efetch : Want := ⟨true, false, false, false⟩

def State.matRead (s : State) (cid : Nat) (m : Cmd) (sp : Nat) (a : Int) (n : Nat) : Except Stop (List Byte × Fl) :=
  s.engRead cid 1 m .efetch sp (addr64 a) n

/-- The offset of A's element (row, k), from BASE[0] (R375). -/
def MatSet.aOff (n : MatSet) (idx : List Nat) (row k : Nat) : Int :=
  n.off 0 0 idx + (if mTa n.mctl then k * n.pitch + row * n.aT.bytes else row * n.pitch + k * n.aT.bytes : Nat)

/-- A's elements of an iteration, row by row: raw bits, and the errors met in reading them. -/
def State.aRaw (s : State) (cid : Nat) (m : Cmd) (idx : List Nat) : Except Stop (List (Nat × Fl)) :=
  let n := m.mat
  (List.range (n.rows * n.kn)).mapM (fun i => do
    let r ← s.matRead cid m 1 ((addrOf (n.baseW 0) : Int) + n.aOff idx (i / n.kn) (i % n.kn)) n.aT.bytes
    pure (leNat r.1, r.2))

/-- The stored row, and the offset within it, of an offset under a row pitch (R377, R391): a pitch of 0, by which nothing is divided,
gives free ones (log entry 35). -/
def storedAt (o : Int) (pitch : Nat) : Int × Nat :=
  if pitch = 0 then Config.zeroPitch o else (o / (pitch : Int), (o % (pitch : Int)).toNat)

/-- A's scale codes of an iteration, row by row (R377). -/
def State.aScale (s : State) (cid : Nat) (m : Cmd) (idx : List Nat) : Except Stop (List (Nat × Fl)) :=
  let n := m.mat
  let g := geoShape (mAgeo n.mctl)
  (List.range (n.rows * n.kn)).mapM (fun i => do
    let o := storedAt (n.aOff idx (i / n.kn) (i % n.kn)) n.pitch
    let a := (addrOf (n.sbaseW 0) : Int) + o.1 / (g.1 : Int) * (bitsOf n.apitch 63 32 : Nat) + (o.2 / n.aT.bytes / g.2 : Nat)
    let r ← s.matRead cid m 1 a 1
    pure (leNat r.1, r.2))

/-- The offset in space W of logical byte q of column n's run at base c (R376). -/
def colRun (c q : Int) (n : Nat) : Int := c + 3072 * (q / 32) + 32 * n + q % 32

/-- Where B's stored element (k, column) of an iteration stands, from its offset b (R375). -/
def MatSet.bOff (n : MatSet) (k col : Nat) : Nat :=
  if n.bT.bits = 16 then 3072 * (k / 16) + 32 * col + 2 * (k % 16) else 32 * col + k

/-- B's 32 stored elements of each column, column by column. -/
def State.bRaw (s : State) (cid : Nat) (m : Cmd) (idx : List Nat) : Except Stop (List (Nat × Fl)) :=
  let n := m.mat
  let b := (addrOf (n.baseW 1) : Int) + n.off 0 1 idx
  (List.range 3072).mapM (fun i => do
    let r ← s.matRead cid m 4 (b + (n.bOff (i % 32) (i / 32) : Nat)) n.bT.bytes
    pure (leNat r.1, r.2))

/-- B's scale codes for every K position of each column (R376), column by column. -/
def State.bScale (s : State) (cid : Nat) (m : Cmd) (idx : List Nat) : Except Stop (List (Nat × Fl)) :=
  let n := m.mat
  let h := (geoShape (mBgeo n.mctl)).1
  let k0 : Int := n.kn * (n.off 0 1 idx / 3072)
  (List.range (96 * n.kn)).mapM (fun i => do
    let r ← s.matRead cid m 4 (colRun (addrOf (n.sbaseW 1)) ((k0 + (i % n.kn : Nat)) / (h : Int)) (i / n.kn)) 1
    pure (leNat r.1, r.2))

/-- The sparse codes of the sixteen groups of each column (R376), column by column. -/
def State.metaCodes (s : State) (cid : Nat) (m : Cmd) (idx : List Nat) : Except Stop (List (Nat × Fl)) :=
  let n := m.mat
  let q := n.off 0 2 idx
  (List.range (96 * 16)).mapM (fun i => do
    let g := i % 16
    let r ← s.matRead cid m 4 (colRun (addrOf (n.baseW 2)) (q + (g / 2 : Nat)) (i / 16)) 1
    pure (leNat r.1 / 2 ^ (4 * (g % 2)) % 16, r.2))

/-! ## K steps (R197-R200) -/

/-- An operand: its type, raw bits and scale code. -/
structure Opd where
  (raw : Nat) (code : Option Nat)
  deriving DecidableEq, Repr

/-- The value of an operand (R191, R204); not for L6. -/
def Opd.val (x : Opd) (t : ETy) (fz : Bool) : Val :=
  let v := t.value fz (word x.raw)
  match x.code with | some c => expand c v | none => v

/-- The product of an A and a B operand (R197, R198): L6 by the linearising table, with a zero operand +0. -/
def opdMul (n : MatSet) (a b : Opd) : Val × Fl :=
  if n.pair then
    if a.code = some 255 ∨ b.code = some 255 then (.nan, 0)
    else
      let v := l6Prod (a.raw % 64) (b.raw % 64)
      let v := match a.code with | some c => expand c v | none => v
      (match b.code with | some c => expand c v | none => v, 0)
  else (a.val n.aT (mFz n.mctl)).mul (b.val n.bT (mFz n.mctl))

/-- The positions that a sparse code names, and its flag (R200). -/
def sparsePos : Nat → Option (Nat × Nat) × Fl
  | 0 => (some (0, 1), 0) | 1 => (some (0, 2), 0) | 2 => (some (0, 3), 0)
  | 3 => (some (1, 2), 0) | 4 => (some (1, 3), 0) | 5 => (some (2, 3), 0)
  | 6 => (some (0, 0), fMETA) | 7 => (some (1, 1), fMETA) | 8 => (some (2, 2), fMETA) | 9 => (some (3, 3), fMETA)
  | _ => (none, fRSV)

/-- What one K step reads. -/
structure KIn where
  (a asc b bsc mt : Array (Nat × Fl))

/-- The K positions that B's 32 stored values of a column multiply: none where a group's code is reserved. -/
def KIn.pos (x : KIn) (n : MatSet) (col j : Nat) : Option Nat :=
  if mSp n.mctl then
    let g := j / 2
    match (sparsePos (x.mt.getD (16 * col + g) (0, 0)).1).1 with
    | some (p, q) => some (4 * g + (if j % 2 = 0 then p else q))
    | none => none
  else some j

/-- The exact sum of the 32 products for a row of A and a column of B, with its flags (R197, R200, R225). -/
def KIn.sum (x : KIn) (n : MatSet) (row col : Nat) : Val × Fl :=
  let f := (List.range 32).foldl (fun (f : Fold) j =>
    match x.pos n col j with
    | none => f.add (.fin false 0 0, 0)
    | some k =>
      let ai := row * n.kn + k
      let a : Opd := ⟨(x.a.getD ai (0, 0)).1, if mAblk n.mctl then some (x.asc.getD ai (0, 0)).1 else none⟩
      let b : Opd := ⟨(x.b.getD (32 * col + j) (0, 0)).1,
        if mBblk n.mctl then some (x.bsc.getD (n.kn * col + k) (0, 0)).1 else none⟩
      f.add (opdMul n a b)) Fold.zero
  let met : Array (Nat × Fl) → Nat → Nat → Fl := fun xs lo cnt =>
    (List.range cnt).foldl (fun fl i => fl ||| (xs.getD (lo + i) (0, 0)).2) 0
  let bad := met x.a (row * n.kn) n.kn ||| met x.asc (row * n.kn) n.kn ||| met x.bsc (n.kn * col) n.kn |||
    met x.b (32 * col) 32 ||| met x.mt (16 * col) 16
  let sp := if mSp n.mctl then
      (List.range 16).foldl (fun (fl : Fl) g => fl ||| (sparsePos (x.mt.getD (16 * col + g) (0, 0)).1).2) 0
    else 0
  (f.total.1, f.total.2 ||| sp ||| bad)

/-- The operands of a K step; A's elements as the program at ma gives them, where one is bound (R386). -/
def State.kIn (s : State) (cid : Nat) (m : Cmd) (idx : List Nat) (ma : Option (List Word)) : Except Stop KIn := do
  let n := m.mat
  let a ← s.aRaw cid m idx
  let a : List (Nat × Fl) := match ma with
    | some (ws : List Word) => (List.range a.length).map (fun i =>
        (((ws[i]?).getD (0 : Word)).toNat % 2 ^ n.aT.bits, ((a[i]?).getD (0, 0)).2))
    | none => a
  let asc ← if mAblk n.mctl then s.aScale cid m idx else pure []
  let b ← s.bRaw cid m idx
  let bsc ← if mBblk n.mctl then s.bScale cid m idx else pure []
  let mt ← if mSp n.mctl then s.metaCodes cid m idx else pure []
  pure ⟨a.toArray, asc.toArray, b.toArray, bsc.toArray, mt.toArray⟩

/-! ## Accumulators (R122, R385) -/

def Parts.accAt (p : Parts) (i : Nat) : BitVec 32 := Map.getD p.acc i 0

/-- An exact integer value. -/
def Val.int : Val → Int
  | .fin n k e => (if n then -1 else 1) * ((k * 2 ^ e.toNat : Nat) : Int)
  | .nan => 0
  | .inf _ => 0

/-- One accumulator element after a K step (R197, R199). -/
def accStep (n : MatSet) (old : BitVec 32) (v : Val × Fl) : BitVec 32 × Fl :=
  if isIntTy n.aT then
    let x := old.toInt + v.1.int
    if mSati n.mctl then
      let y := satI x (-(2 ^ 31)) (2 ^ 31 - 1)
      (BitVec.ofInt 32 y, v.2 ||| flIf (y != x) fSAT)
    else (BitVec.ofInt 32 x, v.2)
  else
    let r := f32Res (mFz n.mctl) ((f32Val false (old.setWidth 64)).add v.1)
    (r.1.setWidth 32, v.2 ||| r.2)

/-- The tile becomes written, and INT32 or FP32 (R124, R385). -/
def Parts.markTile (p : Parts) (t : Nat) (i32 : Bool) : Parts :=
  { p with accW := insertNat t p.accW,
           accInt := if i32 then insertNat t p.accInt else p.accInt.filter (fun x => x != t) }

/-- The tile of an iteration (R378). -/
def MatSet.tile (n : MatSet) (lo : Nat) (idx : List Nat) : Nat := ((addrOf (n.baseW 3) : Int) + n.off lo 3 idx).toNat

/-- MGO's iteration on its tiles: the partition and the status word (R385, R387). -/
def mgoStep (n : MatSet) (x : KIn) (iter t0 : Nat) (p : Parts) (st : Word) : Parts × Word :=
  (List.range n.tilesPer).foldl (fun ps u =>
    let t := t0 + u
    let ps := (List.range 1536).foldl (fun (ps : Parts × Word) e =>
      let r := accStep n (ps.1.accAt (1536 * t + e)) (x.sum n (16 * u + e / 96) (e % 96))
      ({ ps.1 with acc := Map.put ps.1.acc (1536 * t + e) r.1 },
       stElem ps.2 (1536 * (n.tilesPer * iter + u) + e) r.2)) ps
    (ps.1.markTile t (isIntTy n.aT), ps.2)) (p, st)

/-! ## The tiles a command names (R373, R384) -/

/-- The tiles that the nest reaches, over the levels from `lo` on; a set beyond the tile numbers is cut at ±1,000. -/
def MatSet.tileSet (n : MatSet) (lo : Nat) : List Int :=
  (List.range 6).foldl (fun (ts : List Int) l =>
    if l < lo ∨ n.stride l 3 = 0 then ts
    else
      ((ts.flatMap (fun t => (List.range (min (n.count l) 1001)).map (fun (i : Nat) => t + (i : Int) * n.stride l 3))).map
        (fun t => satI t (-1000) 1000)).eraseDups) [(addrOf (n.baseW 3) : Int)]

/-- The tiles of MGO and DGO, with the second tiles of pairs. -/
def MatSet.tiles (n : MatSet) (lo : Nat) : List Int :=
  let ts := n.tileSet lo
  if n.pair then (ts ++ ts.map (· + 1)).eraseDups else ts

/-- The tiles of a running command of the array or the drain unit. -/
def Cmd.tiles (m : Cmd) : List Int :=
  match m.op with
  | 3 => m.mat.tiles 0
  | 0x0B => m.mat.tiles 1
  | 4 => (List.range m.ent.b.toNat).map (fun i => ((m.ent.a.toNat + i : Nat) : Int))
  | 5 => (List.range m.ent.c.toNat).map (fun i => ((m.ent.a.toNat + i : Nat) : Int))
  | 6 => (List.range m.ent.c.toNat).map (fun i => ((m.ent.a.toNat + i : Nat) : Int))
  | _ => []

/-- A command performs no access to a tile until the other unit's earlier command on it is done (R373). -/
def Cmd.waitsFor (m o : Cmd) : Bool := decide (o.ent.seq < m.ent.seq) && m.tiles.any (fun t => o.tiles.contains t)

/-! ## MGO's elements at ma (R386) -/

/-- The elements that the program at ma sees in an iteration with number p. -/
def maElems (n : MatSet) (p : Nat) (raws : List (Nat × Fl)) : List Elem :=
  let big := n.pair || mSp n.mctl
  (List.range raws.length).map (fun i =>
    ⟨(if big then 1024 * p + 64 * (i / n.kn) else 512 * p + 32 * (i / n.kn)) + i % n.kn,
     [word ((raws[i]?).getD (0, 0)).1, 0, 0, 0], 0, []⟩)

/-- The checks of an MGO iteration, and its elements at ma where a program is bound (R138). -/
def State.mgoPrep (s : State) (cid : Nat) (m : Cmd) : Except Stop (List Elem) := do
  let idx := m.mat.idx m.iter
  let _ ← s.kIn cid m idx none
  if (s.program cid 2).isSome then
    let raws ← s.aRaw cid m idx
    pure (maElems m.mat m.iter raws)
  else pure []

/-- The values that the program at ma has given, if one is bound. -/
def State.maVals (s : State) (cid : Nat) (m : Cmd) (from_ n : Nat) : Option (List Word) :=
  if (s.program cid 2).isSome then some ((m.vals.drop from_).take n) else none

/-- MGO's iteration is performed (R385). -/
def State.mgoEnd (s : State) (cid : Nat) (u : EUnit) (m : Cmd) : State :=
  let idx := m.mat.idx m.iter
  match s.kIn cid m idx (s.maVals cid m 0 (m.mat.rows * m.mat.kn)) with
  | .error _ => s
  | .ok x =>
    let r := mgoStep m.mat x m.iter (m.mat.tile 0 idx) (s.ctx cid).parts m.status
    (s.modCtx cid (fun c => { c with parts := r.1 })).setCmd cid u { m with status := r.2, vals := [] }

/-! ## DGO (R396-R399) -/

/-- N of DGO: the K blocks of a sweep. -/
def MatSet.blocks (n : MatSet) : Nat := n.count 0

/-- The branches of a map: entries with their END bits, gathered (R396). -/
def mapBranches : Nat → Nat → List Nat → Option (List Branch)
  | _, _, [] => some []
  | first, e, x :: xs =>
    if x / 2048 ≠ 0 then none
    else if x / 1024 % 2 = 1 then
      (mapBranches (e + 1) (e + 1) xs).map (fun bs => ⟨first, e, x % 64, x / 64 % 16⟩ :: bs)
    else
      match xs with
      | [] => none
      | y :: _ => if y % 1024 = x % 1024 then mapBranches first (e + 1) xs else none

/-- A curve's 132 words are legal (R396, R397). -/
def curveOk (ws : List Word) : Bool :=
  let v := fun i => f32Val false ((ws[i]?).getD 0)
  let finite := fun (x : Val) => !x.isNan && !x.isInf
  finite (v 0) && finite (v 1) && finite (v 2) && (v 0).lt (v 1) && (Val.fin false 0 0).lt (v 2) &&
    (ws[3]?).getD 0 == 0

/-- n 4-byte words of a byte list. -/
def words4 (bs : List Byte) (n : Nat) : List Word := (List.range n).map (fun i => word (leNat (sliceB bs (4 * i) 4)))

/-- DGO's tables as read: its branches, its curves by number, and whether a correctable error was met. -/
abbrev DgoTab := List Branch × Map (List Word) × Fl

/-- n bytes of a table at a scratchpad offset; an uncorrectable error is the data error at the table's start (R397). -/
def State.tabRead (s : State) (cid : Nat) (m : Cmd) (off n : Nat) : Except Stop (List Byte × Fl) := do
  let x ← s.matRead cid m 1 (off : Int) n
  if x.2 &&& fUEC ≠ 0 then .error (.fault 0x0B (Place.spad cid off).errDetail (word off)) else pure x

/-- Reads one curve that the branches name. -/
def State.readCurve (s : State) (cid : Nat) (m : Cmd) (t : DgoTab) (c : Nat) : Except Stop DgoTab :=
  let d := Map.getD m.mat.dcrv c 0
  if !bitOf d 31 then .error (.fault 1 0 0)
  else do
    let x ← s.tabRead cid m (bitsOf d 22 0) 528
    let ws := words4 x.1 132
    if curveOk ws then pure (t.1, Map.put t.2.1 c ws, t.2.2 ||| x.2) else .error (.fault 1 0 0)

/-- DGO reads its map and every curve the map names (R397). -/
def State.dgoTables (s : State) (cid : Nat) (m : Cmd) : Except Stop DgoTab :=
  let n := m.mat
  let cnt := bitsOf n.dmapw 43 32
  let illegal : Except Stop DgoTab := .error (.fault 1 0 0)
  if cnt ≠ n.blocks then illegal
  else do
    let x ← s.tabRead cid m (bitsOf n.dmapw 22 0) (2 * cnt)
    match mapBranches 0 0 ((List.range cnt).map (fun i => leNat (sliceB x.1 (2 * i) 2))) with
    | none => illegal
    | some bs =>
      if (bs.map Branch.br).eraseDups.length ≠ bs.length then illegal
      else (bs.map Branch.curve).eraseDups.foldlM (fun t c => s.readCurve cid m t c) (bs, [], x.2)

/-- The branch that an iteration of DGO runs, and its sweep (R399): the command stands at the branch's first K block. -/
def Cmd.branch (m : Cmd) : Nat × Branch :=
  let at_ := m.iter % m.mat.blocks
  let bs := match m.tab with | some t => t.1 | none => []
  (m.iter / m.mat.blocks, (bs.find? (fun b => b.first == at_)).getD ⟨at_, at_, 0, 0⟩)

/-- The numbers, over the whole nest, of the K blocks of the branch in progress. -/
def Cmd.branchSteps (m : Cmd) : List Nat :=
  let b := m.branch
  (List.range (b.2.last + 1 - b.2.first)).map (fun i => b.1 * m.mat.blocks + b.2.first + i)

/-- Tap mode, offset and stride (R395). -/
def MatSet.tapMode (n : MatSet) : Nat := bitsOf n.dtapw 25 24

/-- The scratchpad offset of a branch's tap for tile position p of a sweep (R398). -/
def MatSet.tapAt (n : MatSet) (sweep p br : Nat) : Nat :=
  bitsOf n.dtapw 22 0 + (sweep * n.tilesPer + p) * bitsOf n.dtapw 63 32 + 6144 * br

/-- The checks of a DGO branch, its elements at ma (R138, R399). -/
def State.dgoPrep (s : State) (cid : Nat) (m : Cmd) : Except Stop (List Elem) := do
  let b := m.branch
  let _ ← m.branchSteps.mapM (fun p => s.kIn cid m (m.mat.idx p) none)
  if m.mat.tapMode ≠ 0 then
    let _ ← (List.range m.mat.tilesPer).mapM (fun p => s.spacePlace cid m.pre .ewrite 1 (m.mat.tapAt b.1 p b.2.br) 6144)
  if (s.program cid 2).isSome then
    let es ← m.branchSteps.mapM (fun p => do
      let raws ← s.aRaw cid m (m.mat.idx p)
      pure (maElems m.mat p raws))
    pure es.flatten
  else pure []

/-- floor of an exact finite value. -/
def valFloor : Val → Int
  | .fin n k e =>
    let i : Int := if 0 ≤ e then ((k * 2 ^ e.toNat : Nat) : Int) else 0
    if 0 ≤ e then (if n then -i else i)
    else
      let d := 2 ^ (-e).toNat
      if n then -(((k + d - 1) / d : Nat) : Int) else ((k / d : Nat) : Int)
  | .nan => 0
  | .inf _ => 0

/-- The curve step of one branch sum (R398): y, the segment's slope, flags. -/
def curveStep (ws : List Word) (x : Word) : Word × Word × Fl :=
  let c := fun i => (ws[i]?).getD 0
  let a := f32Sub false x (c 0)
  let t := f32Mul false a.1 (c 2)
  let j : Nat := match f32Val false t.1 with
    | .nan => 0
    | .inf true => 0
    | .inf false => 63
    | .fin n k e => (satI (valFloor (.fin n k e)) 0 63).toNat
  let y := f32Fma false (c (4 + 2 * j)) x (c (5 + 2 * j))
  (y.1, c (4 + 2 * j), a.2 ||| t.2 ||| y.2)

/-- The branch sum of tile position u of a sweep's element, over the branch's K blocks, with each block's index and flags, the
last first (R387, R398). -/
def branchSum (n : MatSet) (ks : List (Nat × KIn)) (u e : Nat) : Word × List (Nat × Fl) :=
  ks.foldl (fun (x : Word × List (Nat × Fl)) k =>
    let v := k.2.sum n (16 * u + e / 96) (e % 96)
    let r := accStep n (x.1.setWidth 32) v
    (r.1.setWidth 64, (1536 * (n.tilesPer * k.1 + u) + e, r.2) :: x.2)) (0, [])

/-- The status word after a branch's element: the flags of the branch's end join its last block's, one element an index. -/
def branchSt (st : Word) (l : List (Nat × Fl)) (fl : Fl) : Word :=
  match l with
  | [] => st
  | x :: xs => xs.foldl (fun st y => stElemMin st y.1 y.2) (stElemMin st x.1 (x.2 ||| fl))

/-- DGO's branch is performed: sums, curve, taps and accumulation (R398). -/
def State.dgoEnd (s : State) (cid : Nat) (u : EUnit) (m : Cmd) : State :=
  let n := m.mat
  let b := m.branch
  let per := n.rows * n.kn
  let steps := m.branchSteps
  let ks := (List.range steps.length).filterMap (fun i =>
    let p := (steps[i]?).getD 0
    match s.kIn cid m (n.idx p) (s.maVals cid m (per * i) per) with
    | .ok x => some (p, x)
    | .error _ => none)
  let curve := match m.tab with | some (_, cs) => Map.getD cs b.2.curve [] | none => []
  let t0 := n.tile 1 (n.idx (b.1 * n.blocks))
  let r := (List.range n.tilesPer).foldl (fun (x : Parts × Word × Cmd) q =>
    let x := (List.range 1536).foldl (fun (x : Parts × Word × Cmd) e =>
      let xs := branchSum n ks q e
      let y := curveStep curve xs.1
      let old := x.1.accAt (1536 * (t0 + q) + e)
      let a := f32Res (mFz n.mctl) ((f32Val false (old.setWidth 64)).add (f32Val false y.1))
      let st := branchSt x.2.1 xs.2 (y.2.2 ||| a.2)
      let off := n.tapAt b.1 q b.2.br + 4 * e
      let mc := if n.tapMode = 0 then x.2.2
        else x.2.2.put u (.spad cid off) (word off) (leBytes 4 (if n.tapMode = 1 then xs.1 else y.2.1).toNat)
      ({ x.1 with acc := Map.put x.1.acc (1536 * (t0 + q) + e) (a.1.setWidth 32) }, st, mc)) x
    (x.1.markTile (t0 + q) false, x.2.1, x.2.2)) ((s.ctx cid).parts, m.status, m)
  (s.modCtx cid (fun c => { c with parts := r.1 })).setCmd cid u { r.2.2 with status := r.2.1, vals := [] }

/-! ## MZERO and MINIT (R388) -/

/-- MZERO's tile. -/
def Parts.zeroTile (p : Parts) (t : Nat) (i32 : Bool) : Parts :=
  ({ p with acc := p.acc.filter (fun x => x.1 / 1536 != t) }).markTile t i32

def Cmd.i32 (m : Cmd) : Bool := bitOf m.ent.w 27
def Cmd.sp (m : Cmd) : Nat := bitsOf m.ent.w 25 24

/-- The range of MINIT's tile image. -/
def Cmd.minitRange (m : Cmd) : Range := ⟨.efetch, m.sp, (m.ent.b.toNat + 6144 * m.iter) % 2 ^ 64, 6144⟩

/-- MINIT's tile: its image loaded, UEC with the first affected element. -/
def State.minitTile (s : State) (cid : Nat) (m : Cmd) : Except Stop (Parts × Word) := do
  s.touch cid m.pre [m.minitRange]
  let t := m.ent.a.toNat + m.iter
  let p0 := ((s.ctx cid).parts).zeroTile t m.i32
  (List.range 1536).foldlM (fun (x : Parts × Word) e => do
    let r ← s.engRead cid 1 m .efetch m.sp ((m.ent.b.toNat + 6144 * m.iter + 4 * e) % 2 ^ 64) 4
    let v : BitVec 32 := BitVec.ofNat 32 (leNat r.1)
    pure ({ x.1 with acc := Map.put x.1.acc (1536 * t + e) v },
          stElem x.2 (1536 * m.iter + e) r.2)) (p0, m.status)

/-! ## MDRAIN (R389-R391, R201, R428) -/

def dType (w : Word) : Option ETy := tyOf (bitsOf w 3 0)
def dRnd (w : Word) : Bool := bitOf w 4
def dSuben (w : Word) : Bool := bitOf w 5
def dFz (w : Word) : Bool := bitOf w 6
def dBlk (w : Word) : Bool := bitOf w 7
def dGeo (w : Word) : Nat := bitsOf w 10 8
def dTd (w : Word) : Bool := bitOf w 11
def dCols (w : Word) : Nat := bitsOf w 18 12 + 1
def dZa (w : Word) : Bool := bitOf w 19
def dSpitch (w : Word) : Nat := bitsOf w 63 32

/-- A DCTL value that R382 and R202 allow. -/
def dctlOk (w : Word) : Bool :=
  bitsOf w 31 20 == 0 && decide (dCols w ≤ 96) && decide (bitsOf w 3 0 < 10) && dGeo w != 7

def MatSet.rp (n : MatSet) : Nat := bitsOf n.rowp 31 0
def MatSet.tstr (n : MatSet) : Int := (BitVec.ofNat 32 (bitsOf n.rowp 63 32)).toInt
def MatSet.dT (n : MatSet) : ETy := (dType n.dctl).getD .f32

/-- The offset of element (row, col) of tile i of a drain from s[rb] (R389). -/
def MatSet.drainOff (n : MatSet) (i row col : Nat) : Int :=
  n.tstr * i + (if dTd n.dctl then col * n.rp + row * n.dT.bytes else row * n.rp + col * n.dT.bytes : Nat)

/-- The block of an offset from s[rb] (R391). -/
def MatSet.drainBlock (n : MatSet) (o : Int) : Int × Nat :=
  let g := geoShape (dGeo n.dctl)
  let x := storedAt o n.rp
  (x.1 / (g.1 : Int), x.2 / n.dT.bytes / g.2)

/-- A number for a block, whose row may lie before the base. -/
def blockKey (k : Int × Nat) : Nat := (if k.1 < 0 then 2 * k.1.natAbs - 1 else 2 * k.1.natAbs) * 2 ^ 64 + k.2

/-- The elements of the whole command that lie in a block (R203). -/
def Cmd.drainNeed (m : Cmd) (k : Nat) : Nat :=
  ((List.range (m.ent.c.toNat * 16 * dCols m.mat.dctl)).filter (fun x =>
    let c := dCols m.mat.dctl
    blockKey (m.mat.drainBlock (m.mat.drainOff (x / (16 * c)) (x / c % 16) (x % c))) == k)).length

/-- The offset of a tile's status word from s[rb] (R390). -/
def MatSet.statusOff (n : MatSet) (i : Nat) : Int :=
  let c := dCols n.dctl
  let o : Nat := if dTd n.dctl then (c - 1) * n.rp + 16 * n.dT.bytes else 15 * n.rp + c * n.dT.bytes
  n.tstr * i + (o : Int)

/-- Rounds an address up to a multiple of 8. -/
def up8 (a : Nat) : Nat := (a + 7) / 8 * 8

/-- A tile of a drain: where its status word goes, and its elements with their places (R138, R389). -/
def State.drainPrep (s : State) (cid : Nat) (m : Cmd) : Except Stop (List Elem × OpenTile) := do
  let n := m.mat
  let c := dCols n.dctl
  let i := m.iter
  let t := m.ent.a.toNat + i
  let int := (s.ctx cid).parts.accInt.contains t
  let sa := up8 (addr64 ((m.ent.b.toNat : Int) + n.statusOff i)) % 2 ^ 64
  let sp ← s.spacePlace cid m.pre .ewrite m.sp sa 8
  let es ← (List.range (16 * c)).mapM (fun x => do
    let row := x / c
    let col := x % c
    let o := n.drainOff i row col
    let a := addr64 ((m.ent.b.toNat : Int) + o)
    let p ← s.spacePlace cid m.pre .ewrite m.sp a n.dT.bytes
    let blk ← if dBlk n.dctl then do
        let k := n.drainBlock o
        let ca := addr64 ((addrOf (n.sbaseW 2) : Int) + k.1 * (dSpitch n.dctl : Nat) + (k.2 : Nat))
        let q ← s.spacePlace cid m.pre .ewrite (spaceOf (n.sbaseW 2)) ca 1
        pure (some (⟨blockKey k, 0, q, word ca⟩ : BlkAt))
      else pure none
    let v := (s.ctx cid).parts.accAt (1536 * t + 96 * row + col)
    let w : Word := if int then v.signExtend 64 else v.setWidth 64
    pure (⟨16 * c * i + x, [w, word col, word row, 0], 0, [⟨0, p, word a, blk⟩]⟩ : Elem))
  pure (es, ⟨i, 16 * c, 0, sp, word sa⟩)

/-- One element of a tile is done: its flags in the tile's status word, which is written after the last one (R390). -/
def Cmd.tileElem (m : Cmd) (u : EUnit) (tile tix : Nat) (fl : Fl) : Cmd :=
  match m.opens.find? (fun t => t.tile == tile) with
  | none => m
  | some t =>
    let t := { t with left := t.left - 1, st := stElemMin t.st tix fl }
    if t.left = 0 then
      ({ m with opens := m.opens.filter (fun x => x.tile != tile) }).put u t.place t.va
        (leBytes 8 (t.st ||| 1).toNat)
    else { m with opens := updFirst (fun x => x.tile == tile) (fun _ => t) m.opens }

/-- Scale, bias and clip on the exact value (R201). -/
def drainVal (n : MatSet) (v sc bi : Val) : Val × Fl :=
  let y := v.fma sc bi
  let lo := f32Val false (word (bitsOf n.dclip 31 0))
  let hi := f32Val false (word (bitsOf n.dclip 63 32))
  let z := if !lo.isNan && !y.1.isNan && y.1.lt lo then lo else y.1
  let z := if !hi.isNan && !z.isNan && hi.lt z then hi else z
  (z, y.2)

def MatSet.dSub (n : MatSet) : Option Word := if dSuben n.dctl then some n.subv else none

/-- A quantised element of a drain leaves. -/
def Cmd.drainBlkOut (m : Cmd) (u : EUnit) (x : BlkEl × Nat × Fl) : Cmd :=
  let m := m.put u x.1.dst.place x.1.dst.va [byte x.2.1]
  let fl := x.1.fl ||| x.2.2
  ({ m with status := stElemMin m.status x.1.ix fl }).tileElem u x.1.tile x.1.tix fl

/-- Writes the complete block of a key (R391). -/
def Cmd.drainQuant (m : Cmd) (u : EUnit) (key : Nat) : Cmd :=
  let es := m.blk.filter (fun x => x.at_.key == key)
  match es with
  | [] => m
  | x :: _ =>
    if es.length ≠ x.at_.need then m
    else
      let q := blkQuant m.mat.dT m.mat.dSub (dFz m.mat.dctl) es
      let m := { m with blk := m.blk.filter (fun y => y.at_.key != key) }
      (q.2.foldl (fun m y => m.drainBlkOut u y) (m.put u x.at_.code x.at_.codeVa [byte q.1]))

/-- An element of a drained tile leaves md (R389, R428): `outs` as the program emits them, or the value itself. -/
def State.drainFinal (s : State) (cid : Nat) (u : EUnit) (e : Elem) (outs : List (Option Word)) (fl : Fl) : State :=
  match s.cmd cid u, e.dsts with
  | some m, d :: _ =>
    let n := m.mat
    let c := dCols n.dctl
    let i := m.iter
    let tix := e.ix - 16 * c * i
    let int := (s.ctx cid).parts.accInt.contains (m.ent.a.toNat + i)
    let o := fun j => (outs[j]?).getD none
    let fp := fun (w : Word) => f32Val false (word (bitsOf w 31 0))
    let sc := match o 1 with | some w => fp w | none => fp n.dsb
    let bi := match o 2 with | some w => fp w | none => f32Val false (word (bitsOf n.dsb 63 32))
    let v := (o 0).map (fun w =>
      if int then Val.ofInt (sextN 32 w).toInt else f32Val (dFz n.dctl) (word (bitsOf w 31 0)))
    let y := v.map (fun v => drainVal n v sc bi)
    let fl := fl ||| (match y with | some y => y.2 | none => 0)
    (match d.blk with
     | some b =>
       let r := s.encDraw cid 3 (dRnd n.dctl) e.ix
       let need := match m.blk.find? (fun x => x.at_.key == b.key) with
         | some x => x.at_.need
         | none => m.drainNeed b.key
       let b := { b with need := need }
       let m := { m with blk := m.blk ++ [(⟨e.ix, i, tix, d, b, y.map Prod.fst, r.1, fl⟩ : BlkEl)] }
       r.2.setCmd cid u (m.drainQuant u b.key)
     | none =>
       match y with
       | none => s.setCmd cid u (({ m with status := stElem m.status e.ix fl }).tileElem u i tix fl)
       | some y =>
         let r := s.encDraw cid 3 (dRnd n.dctl) e.ix
         let z := convert n.dT (⟨r.1, n.dSub, dFz n.dctl⟩ : Conv) (y.1 : Val)
         let fl := fl ||| z.2
         let m := m.put u d.place d.va (leBytes n.dT.bytes z.1)
         r.2.setCmd cid u (({ m with status := stElem m.status e.ix fl }).tileElem u i tix fl))
  | _, _ => s

/-- The ranges that a drained tile's writes name: status word, elements and their codes. -/
def Cmd.drainRanges (m : Cmd) (es : List Elem) (t : OpenTile) : List Range :=
  ⟨.ewrite, m.sp, t.va.toNat, 8⟩ :: es.flatMap (fun e => e.dsts.flatMap (fun d =>
    ⟨.ewrite, m.sp, d.va.toNat, m.mat.dT.bytes⟩ ::
      (match d.blk with | some b => [⟨.ewrite, spaceOf (m.mat.sbaseW 2), b.codeVa.toNat, 1⟩] | none => [])))

/-- The tile is drained: ZA zeroes it (R382). -/
def State.drainEnd (s : State) (cid : Nat) (m : Cmd) : State :=
  if dZa m.mat.dctl then
    s.modCtx cid (fun c => c.modParts (fun p =>
      { p with acc := p.acc.filter (fun x => x.1 / 1536 != m.ent.a.toNat + m.iter) }))
  else s

/-! ## MSPARSE (R392) -/

/-- The magnitude of an 8-bit element as MSPARSE orders it: NaN largest, zeros equal. -/
def sparseMag (t : ETy) (raw : Nat) : Nat :=
  if t = .i8 then (sextN 8 (word raw)).toInt.natAbs
  else if t = .ui8 then raw
  else if (t.value false (word raw)).isNan then 256
  else raw % 128

/-- The two positions kept of four, in ascending order: the largest magnitudes, ties to the lower position. -/
def sparsePick (ks : List Nat) : Nat × Nat :=
  let k := fun i => (ks[i]?).getD 0
  let best := fun (no : Nat) => (List.range 4).foldl (fun (b : Nat) i =>
    if i = no then b else if b = 4 ∨ k b < k i then i else b) 4
  let a := best 4
  let b := best a
  (min a b, max a b)

/-- The code of two positions (R200). -/
def sparseCode : Nat × Nat → Nat
  | (0, 1) => 0 | (0, 2) => 1 | (0, 3) => 2 | (1, 2) => 3 | (1, 3) => 4 | _ => 5

/-- One step of MSPARSE: the command with its writes. A reserved zero stands for an uncorrectable byte. -/
def State.sparseStep (s : State) (cid : Nat) (u : EUnit) (m : Cmd) : Except Stop Cmd := do
  let t := m.mat.bT
  let j := m.iter
  let src := m.ent.a.toNat + 6144 * j
  let dst := m.ent.b.toNat + 3072 * j
  let _ ← s.spacePlace cid m.pre .ewrite 4 dst 3072
  (List.range 96).foldlM (fun (m : Cmd) col => do
    let r ← (List.range 16).foldlM (fun (x : Cmd × List Nat) g => do
      let d ← s.matRead cid m 4 ((src + 3072 * (g / 8) + 32 * col + 4 * (g % 8) : Nat) : Int) 4
      let v := d.1.map BitVec.toNat
      let p := sparsePick (v.map (sparseMag t))
      let o := dst + 32 * col + 2 * g
      let ix := 1536 * j + 16 * col + g
      let mc := x.1.put u (.wst cid o) (word o)
        [byte ((v[p.1]?).getD 0), byte ((v[p.2]?).getD 0)]
      pure ({ mc with status := stElem mc.status ix d.2 }, x.2 ++ [sparseCode p])) (m, ([] : List Nat))
    (List.range 8).foldlM (fun (mc : Cmd) q => do
      let a := addr64 (colRun (addrOf (m.mat.baseW 2)) (8 * j + q : Nat) col)
      let p ← s.spacePlace cid m.pre .ewrite 4 a 1
      pure (mc.put u p (word a) [byte ((r.2[2 * q]?).getD 0 + 16 * (r.2[2 * q + 1]?).getD 0)])) r.1) m

end Sys2Proof.Machine
end

