-- ==== Sys2Proof/Machine/Flow.lean ====
section
/-! DEFINITION. The flow of an iteration's elements through the port programs (R351, R361, R386, R389, R400-R412, log entry 12),
the end of an iteration (R215) and the completion of a command (R177, R411, R427). -/

namespace Sys2Proof.Machine

/-! ## Points and streams -/

/-- The points that a command passes, in order (R400). -/
def Cmd.points (m : Cmd) (u : EUnit) : List Nat :=
  match u with
  | .ch _ => if 3 ≤ m.op ∧ m.op ≤ 7 then [0, 1] else []
  | .red => if m.op = 5 then [] else [4, 5]
  | .array => if m.op = 3 ∨ m.op = 0x0B then [2] else []
  | .drainU => if m.op = 6 then [3] else []
  | .coll _ => []

/-- A stream begins at a slot (R406): the counts go to zero, and without KEEP the carried registers and the history too. -/
def Slot.begin (l : Slot) : Slot :=
  if l.keep then { l with count := 0, lanes := [], base := l.base + l.span, span := 0 }
  else { l with count := 0, lanes := [], carried := [], prev := [], base := 0, span := 0 }

/-- The streams of a command begin (R401). -/
def State.beginStreams (s : State) (cid : Nat) (u : EUnit) (m : Cmd) : State :=
  (m.points u).foldl (fun s p =>
    match s.program cid p with
    | some n => s.modSlot cid n Slot.begin
    | none => s) s

def State.modCmd (s : State) (cid : Nat) (u : EUnit) (f : Cmd → Cmd) : State :=
  match s.cmd cid u with
  | some m => s.setCmd cid u (f m)
  | none => s

/-- The lane of an element starts its program (R401, R406). -/
def State.portStart (s : State) (cid : Nat) (u : EUnit) (point slot ix : Nat) (ins : List Word) : State :=
  { s with portRun := some { cid := cid, slot := slot, point := point, unit := u, epi := false, pc := 0, ix := ix,
                             lane := ix % (s.slot cid slot).laneCount, v := [], ins := ins, outs := [], drops := 0,
                             flags := 0, atEnd := [], pf := none } }

/-- The outputs of a point without a program: out j := in j (R351). -/
def passOuts (u : EUnit) (ins : List Word) : List (Option Word) :=
  match u with
  | .ch _ => ins.map some
  | .array => [ins.head?] | .drainU => [ins.head?] | .red => [ins.head?] | .coll _ => [ins.head?]

/-! ## One element -/

/-- An element after the command's first point, with that point's outputs and flags; it may enter the second point's
program. -/
def State.afterFirst (s : State) (cid : Nat) (u : EUnit) (e : Elem) (outs : List (Option Word)) (fl : Fl) : State :=
  match s.cmd cid u with
  | none => s
  | some m =>
    match u with
    | .ch _ =>
      (match s.program cid 1 with
       | none => s.copyFinal cid u e outs fl
       | some n =>
         (s.setCmd cid u { m with todo := { e with fl := e.fl ||| fl } :: m.todo.tail, stage := 2 }).portStart cid u 1 n
           e.ix (outs.map (fun o => o.getD 0)))
    | .red =>
      let r := s.redMid cid u m e outs
      let fl := e.fl ||| fl ||| r.2.2
      if m.op = 4 ∧ ((outs[0]?).getD none).isSome then
        let p := r.2.1.fold.result m.rop m.ft
        let fl := fl ||| p.2
        (match s.program cid 5 with
         | none =>
           let q := r.1.scanPut cid u r.2.1 e [some p.1]
           q.1.setCmd cid u { q.2.1 with status := stElem q.2.1.status e.ix (fl ||| q.2.2) }
         | some n =>
           (r.1.setCmd cid u { r.2.1 with todo := { e with fl := fl } :: m.todo.tail, stage := 2 }).portStart cid u 5 n e.ix
             [p.1, 0, 0, 0])
      else r.1.setCmd cid u { r.2.1 with status := stElem r.2.1.status e.ix fl }
    | .array =>
      s.setCmd cid u { m with vals := m.vals ++ [((outs[0]?).getD none).getD 0], status := stElem m.status e.ix (e.fl ||| fl) }
    | .drainU => s.drainFinal cid u e outs fl
    | .coll _ => s

/-- An element after the command's second point. -/
def State.afterSecond (s : State) (cid : Nat) (u : EUnit) (e : Elem) (outs : List (Option Word)) (fl : Fl) : State :=
  match u with
  | .ch _ => s.copyFinal cid u e outs fl
  | .red =>
    (match s.cmd cid u with
     | none => s
     | some m =>
       let q := s.scanPut cid u m e outs
       q.1.setCmd cid u { q.2.1 with status := stElem q.2.1.status e.ix (e.fl ||| fl ||| q.2.2) })
  | .array => s | .drainU => s | .coll _ => s

/-! ## The end of an iteration -/

/-- Iterations of a command. -/
def Cmd.total (m : Cmd) (u : EUnit) : Nat :=
  match u with
  | .ch _ => m.nest.runs
  | .red => if m.op = 5 then m.ent.a.toNat + m.ent.b.toNat else m.nest.runs
  | .array =>
    if m.op = 3 ∨ m.op = 0x0B then m.mat.runs else m.ent.c.toNat
  | .drainU => if m.op = 4 then m.ent.b.toNat else m.ent.c.toNat
  | .coll _ => if m.op = 4 then (m.ent.c.toNat + 4095) / 4096 else m.ent.b.toNat

/-- The number of element indices that a point's stream has come to when the iteration in progress is done. -/
def Cmd.reach (m : Cmd) (point : Nat) : Nat :=
  match point with
  | 2 =>
    m.mat.rows * m.mat.kn *
      (if m.op = 3 then m.iter + 1 else m.branch.1 * m.mat.blocks + m.branch.2.last + 1)
  | 3 => 16 * dCols m.mat.dctl * (m.iter + 1)
  | 5 => if m.op = 3 then (m.iter + 1) / m.groupRuns else m.nest.runLen * (m.iter + 1)
  | _ => m.nest.runLen * (m.iter + 1)

/-- Where the command stands after the iteration in progress: DGO's is a branch (R399). -/
def Cmd.after (m : Cmd) (u : EUnit) : Nat :=
  match u with
  | .array => if m.op = 0x0B then m.iter + (m.branch.2.last + 1 - m.branch.2.first) else m.iter + 1
  | .ch _ => m.iter + 1 | .red => m.iter + 1 | .drainU => m.iter + 1 | .coll _ => m.iter + 1

/-- Notes how far the streams of the command have come (R423). -/
def State.reached (s : State) (cid : Nat) (u : EUnit) (m : Cmd) : State :=
  (m.points u).foldl (fun s p =>
    match s.program cid p with
    | some n => s.modSlot cid n (fun l => { l with span := max l.span (m.reach p) })
    | none => s) s

/-- The frame of a port fault (R219, R412). -/
def Cmd.portFrame (m : Cmd) (u : EUnit) (f : PFault) : Frame :=
  { m.frame u 0x0A f.kind 0 with pelem := f.ix, pins := f.pins, pslot := f.slot, pbind := f.point }

/-- Raises the port fault that the command has met, if any (R412). -/
def State.raisePort (s : State) (cid : Nat) (u : EUnit) (m : Cmd) : State :=
  match m.pfault with
  | some f => s.raise cid (m.portFrame u f)
  | none => s

/-- A drained tile that ZA zeroes (R382). -/
def State.drained (s : State) (cid : Nat) (u : EUnit) (m : Cmd) : State :=
  match u with
  | .drainU => if m.op = 6 then s.drainEnd cid m else s
  | .ch _ => s | .array => s | .red => s | .coll _ => s

/-- The iteration is done: its writes enter the path's write queue (R173), and a port fault met in it is raised (R412). -/
def State.settleIter (s : State) (cid : Nat) (u : EUnit) (m : Cmd) : State :=
  let p := unitPath u
  let s := (s.reached cid u m).drained cid u m
  let s := s.modCtx cid (fun c => c.modEng (fun g => { g with wq := Map.put g.wq p (g.wqOf p ++ markHeals m.wr m.wr) }))
  let s := s.setCmd cid u
    { m with wr := [], todo := [], stage := 0, vals := [], iter := m.after u, ended := decide (m.total u ≤ m.after u),
             pfault := none, rgot := [], rbad := [], acks := [], undo := none }
  s.raisePort cid u m

/-- The elements of an iteration are done. Its writes to other devices are sent, and the iteration is done once they are acknowledged: the
boundary before it is where a refusal stops the command (R127). -/
def State.commit (s : State) (cid : Nat) (u : EUnit) : State :=
  match s.cmd cid u with
  | none => s
  | some m =>
    let far := m.wr.filter (fun w => w.dev?.isSome)
    if far.isEmpty then s.settleIter cid u m
    else
      let x := far.foldl (fun (x : List Nat × State) e => (x.1 ++ [x.2.reqId], x.2.wrEnt cid (unitPath u) e)) ([], s)
      x.2.setCmd cid u { m with wr := m.wr.filter (fun w => w.dev?.isNone), todo := [], stage := 4, acks := x.1 }

/-- The write of an iteration with a number is acknowledged. -/
def State.iterAcked (s : State) (cid : Nat) (u : EUnit) (m : Cmd) (id : Nat) : State :=
  let m := { m with acks := m.acks.erase id }
  if m.acks.isEmpty then s.settleIter cid u m else s.setCmd cid u m

/-- What a command stands at before an iteration. -/
def State.undoOf (s : State) (cid : Nat) (u : EUnit) (m : Cmd) : Undo :=
  let c := s.ctx cid
  let ps := m.points u
  { status := m.status, fold := m.fold, blk := m.blk, opens := m.opens, dec := m.dec, mi := m.mi, mj := m.mj
    slots := c.ports.slots.filter (fun x => match x.2.bound with | some p => ps.contains p | none => false)
    lpm := c.ports.lpm.filter (fun x => ps.contains (x.1 / 131072))
    seeds := c.sys.seeds.filter (fun x => ps.contains (x.1 / 128)) }

/-- Keys of a map replaced by those of another where a test holds. -/
def Map.over {α : Type} (m old : Map α) (ok : Nat → Bool) : Map α :=
  old.foldl (fun m x => Map.put m x.1 x.2) (m.filter (fun x => !ok x.1))

/-- The command stands before the iteration in progress again: nothing of the iteration has happened in it, its slots and its generators. -/
def State.undoIter (s : State) (cid : Nat) (u : EUnit) (m : Cmd) : State :=
  match m.undo with
  | none => s
  | some x =>
    let ps := m.points u
    let s := s.modCtx cid (fun c =>
      (c.modPorts (fun p =>
        { p with slots := x.slots.foldl (fun q y => Map.put q y.1 y.2) p.slots
                 lpm := x.lpm.foldl (fun q y => Mem.set q y.1 y.2) (p.lpm.filter (fun y => !ps.contains (y.1 / 131072))) })).modSys
        (fun y => { y with seeds := Map.over y.seeds x.seeds (fun k => ps.contains (k / 128)) }))
    s.setCmd cid u
      { m with status := x.status, fold := x.fold, blk := x.blk, opens := x.opens, dec := x.dec, mi := x.mi, mj := x.mj, wr := [],
               todo := [], stage := 0, vals := [], pfault := none, rgot := [], rbad := [], acks := [], undo := none }

/-- What an engine does when the last element of an iteration has left its ports. A RED's group may still pass ro. -/
def State.endIter (s : State) (cid : Nat) (u : EUnit) : State :=
  match s.cmd cid u with
  | none => s
  | some m =>
    match u with
    | .ch _ =>
      let m := if m.iter + 1 = m.total u then m.quantAll u else m
      let m := { m with wr := (m.dsts.filterMap (s.cleanRun cid m)).foldl markClean m.wr }
      (s.setCmd cid u m).commit cid u
    | .red =>
      if !m.groupEnds then s.commit cid u
      else if m.op = 4 then (s.setCmd cid u { m with fold := .zero }).commit cid u
      else
        let p := m.fold.result m.rop m.ft
        let m := { m with fold := .zero }
        (match s.program cid 5 with
         | none =>
           let r := s.groupPut cid u m [some p.1] p.2
           (r.1.setCmd cid u r.2).commit cid u
         | some n =>
           (s.setCmd cid u { m with todo := [⟨m.group, [p.1, 0, 0, 0], p.2, []⟩], stage := 3 }).portStart cid u 5 n m.group
             [p.1, 0, 0, 0])
    | .array => (if m.op = 3 then s.mgoEnd cid u m else s.dgoEnd cid u m).commit cid u
    | .drainU => s.commit cid u
    | .coll _ => s.commit cid u

/-- The elements of an iteration pass the ports one after another (R348, R409). Where a program is bound, the flow stops and
goes on when the program has run. -/
def State.flow (cid : Nat) (u : EUnit) : List Elem → State → State
  | [], s => s.endIter cid u
  | e :: es, s =>
    let first := match s.cmd cid u with | some m => (m.points u).head? | none => none
    match first.bind (s.program cid) with
    | some n =>
      (s.modCmd cid u (fun m => { m with todo := e :: es, stage := 1 })).portStart cid u (first.getD 0) n e.ix e.ins
    | none =>
      let s := (s.modCmd cid u (fun m => { m with todo := e :: es, stage := 0 })).afterFirst cid u e (passOuts u e.ins) 0
      if s.portRun.isSome then s else State.flow cid u es s

/-! ## The end of a program -/

/-- The folds of COMB (R411). -/
def combOp (c : Nat) (a b : Word) : Word :=
  match c with
  | 1 => a + b
  | 2 => if a.toInt < b.toInt then b else a
  | 3 => if b.toInt < a.toInt then b else a
  | 4 => a &&& b
  | 5 => a ||| b
  | 6 => a ^^^ b
  | _ => a

/-- Neighbours folded in pairs. -/
def combPairs (c : Nat) : List Word → List Word
  | a :: b :: ws => combOp c a b :: combPairs c ws
  | ws => ws

/-- n halvings. -/
def combine (c : Nat) : Nat → List Word → Word
  | 0, ws => ws.headD 0
  | n + 1, ws => combine c n (combPairs c ws)

/-- The slot's result register at stream end (R411). -/
def Slot.fold (l : Slot) : Slot :=
  let w := (List.range l.laneCount).map (fun i => Map.getD l.carried (4 * i) 0)
  { l with result := if l.comb = 0 then w.headD 0 else combine l.comb l.lg w }

/-- A lane's epilogue starts; `atEnd` are the carried registers at stream end (R411). -/
def State.epiStart (s : State) (cid : Nat) (u : EUnit) (point slot lane : Nat) (atEnd : Map Word) : State :=
  { s with portRun := some { cid := cid, slot := slot, point := point, unit := u, epi := true, pc := 32,
                             ix := (s.slot cid slot).count, lane := lane, v := [], ins := [], outs := [], drops := 0,
                             flags := 0, atEnd := atEnd, pf := none } }

/-- The synchronisation fields of an engine word (R271). -/
def syncOf (w : Word) : Sync :=
  { wait := if bitOf w 49 then some (bitsOf w 48 41) else none
    sig := if bitOf w 40 then some (bitsOf w 39 32, BitVec.ofNat 5 (bitsOf w 5 1)) else none }

/-- The writes of a path that stand in its queue are performed in order (R173). -/
def State.flushPath (s : State) (cid path : Nat) : State :=
  let ws := (s.ctx cid).eng.wqOf path
  let s := s.modCtx cid (fun c => c.modEng (fun g => { g with wq := Map.put g.wq path [] }))
  ws.foldl (fun s e => s.wrEnt cid path e) s

/-- The visibility step of a signal (R177): with a mask, the path's writes are performed, and one that has failed is reported
(R434). -/
def State.visible (s : State) (cid path : Nat) (sy : Sync) (w fpc : Word) : State :=
  match sy.sig with
  | none => s
  | some (_, x) =>
    if x = 0 then s
    else
      let s := s.flushPath cid path
      (s.reportFails cid (fun p => p == path) w fpc).getD s

/-- The command is complete: its visibility step, its signal (R177, R325), and its unit is free. -/
def State.complete (s : State) (cid : Nat) (u : EUnit) : State :=
  match s.cmd cid u with
  | none => s
  | some m =>
    let sy := syncOf m.ent.w
    let s := s.visible cid (unitPath u) sy m.ent.w m.ent.addr
    let s := s.signalOf cid sy (unitPath u) m.status m.ent.w m.ent.addr
    (s.modCtx cid (fun c => c.modEng (fun g => { g.dropCmd u with doneAt := some s.clk }))).raisePort cid u m

/-- The stream ends at the points left: epilogues, combine (R411), then the command is complete. -/
def State.endPoints (cid : Nat) (u : EUnit) : List Nat → State → State
  | [], s => s.complete cid u
  | p :: ps, s =>
    match s.program cid p with
    | none => State.endPoints cid u ps s
    | some n =>
      let l := s.slot cid n
      if l.elen = 0 then State.endPoints cid u ps (s.modSlot cid n Slot.fold)
      else s.epiStart cid u p n 0 l.carried

/-- The points of a command after one of them. -/
def State.laterPoints (s : State) (cid : Nat) (u : EUnit) (point : Nat) : List Nat :=
  match s.cmd cid u with
  | some m => (m.points u).filter (fun p => decide (point < p))
  | none => []

/-- A lane's epilogue is done: its flags count as one element's (R427); the next lane, or the combine. -/
def State.epiDone (s : State) (r : PortRun) : State :=
  let l := s.slot r.cid r.slot
  let s := s.modCmd r.cid r.unit (fun m =>
    { m with status := stElem m.status l.count r.flags,
             pfault := (match m.pfault with | some f => some f | none => r.pf) })
  if r.lane + 1 < l.laneCount then s.epiStart r.cid r.unit r.point r.slot (r.lane + 1) r.atEnd
  else State.endPoints r.cid r.unit (s.laterPoints r.cid r.unit r.point) (s.modSlot r.cid r.slot Slot.fold)

/-- The outputs that an element emits (R410). -/
def PortRun.emitted (r : PortRun) : List (Option Word) :=
  (List.range 4).map (fun j => if r.drops.toNat / 2 ^ j % 2 = 1 then none else Map.find r.outs j)

/-- The element has entered the point: counts and history (R406). -/
def Slot.enter (l : Slot) (ix lane : Nat) (in0 : Word) : Slot :=
  { l with count := (l.count + 1) % 2 ^ 32, lanes := Map.put l.lanes lane ((Map.getD l.lanes lane 0 + 1) % 2 ^ 32),
           prev := ((l.base + ix, ix, in0) :: l.prev).take 3 }

/-- The body of an element's program is done; the element goes on, and the elements after it (R409, R410). -/
def State.bodyDone (s : State) (r : PortRun) : State :=
  let s := s.modSlot r.cid r.slot (fun l => l.enter r.ix r.lane ((r.ins[0]?).getD 0))
  let s := s.modCmd r.cid r.unit (fun m =>
    { m with pfault := (match m.pfault with | some f => some f | none => r.pf) })
  match s.cmd r.cid r.unit with
  | none => s
  | some m =>
    match m.todo with
    | [] => s
    | e :: es =>
      if m.stage = 3 then
        let q := s.groupPut r.cid r.unit m r.emitted (e.fl ||| r.flags)
        (q.1.setCmd r.cid r.unit q.2).commit r.cid r.unit
      else
        let s := if m.stage = 1 then s.afterFirst r.cid r.unit e r.emitted r.flags
          else s.afterSecond r.cid r.unit e r.emitted r.flags
        if s.portRun.isSome then s else State.flow r.cid r.unit es s

/-- The program that runs has come to its end. -/
def State.portDone (s : State) : State :=
  match s.portRun with
  | none => s
  | some r => if r.epi then ({ s with portRun := none }).epiDone r else ({ s with portRun := none }).bodyDone r

/-! ## One iteration -/

/-- The pages that a run of a command's nest names (R137). -/
def State.runPages (s : State) (cid : Nat) (u : EUnit) (m : Cmd) (run : Nat) : List Nat :=
  match u with
  | .ch _ => m.copyPages run
  | .red => if m.op = 5 then [] else s.redPages cid m run
  | .array => [] | .drainU => [] | .coll _ => []

/-- The nest's generator translates for the command's next 64 iterations (R137). -/
def State.preTranslate (s : State) (cid : Nat) (u : EUnit) (m : Cmd) : State × Cmd :=
  let runs := ((List.range 64).map (fun i => m.iter + i)).filter (fun i => decide (i < m.total u))
  let x := s.preFill cid (runs.flatMap (s.runPages cid u m)) m.pre
  (x.1, { m with pre := x.2 })

/-- The next iteration of a command other than a collective one: its checks and reads, then the flow of its elements (R138,
R430). -/
def State.iterate (s : State) (cid : Nat) (u : EUnit) (m : Cmd) : Except Stop State :=
  let m := { m with undo := some (s.undoOf cid u m) }
  match u with
  | .ch _ => do
    let x ← s.copyPrep cid m
    let m := { m with dec := x.dec, status := stElem m.status (m.nest.runLen * m.iter) x.fl }
    pure (State.flow cid u x.els ((s.noteRanges cid x.rs).bump.setCmd cid u m))
  | .red =>
    if m.op = 5 then do
      let rs := m.mergeRanges
      let m ← s.mergeStep cid u m
      pure (((s.noteRanges cid rs).bump.setCmd cid u m).commit cid u)
    else do
      let es ← s.redPrep cid m
      pure (State.flow cid u es ((s.noteRanges cid (s.redRanges cid m)).bump.setCmd cid u m))
  | .array =>
    if m.op = 3 then do
      let es ← s.mgoPrep cid m
      pure (State.flow cid u es s)
    else if m.op = 0x0B then do
      let es ← s.dgoPrep cid m
      pure (State.flow cid u es s)
    else do
      let m ← s.sparseStep cid u m
      pure ((s.setCmd cid u m).commit cid u)
  | .drainU =>
    if m.op = 4 then
      pure ((s.modCtx cid (fun c => c.modParts (fun p => p.zeroTile (m.ent.a.toNat + m.iter) m.i32))).commit cid u)
    else if m.op = 5 then do
      let x ← s.minitTile cid m
      pure ((((s.noteRanges cid [m.minitRange]).modCtx cid (fun c => { c with parts := x.1 })).setCmd cid u { m with status := x.2 }).commit cid u)
    else do
      let x ← s.drainPrep cid m
      pure (State.flow cid u x.1 ((s.noteRanges cid (m.drainRanges x.1 x.2)).setCmd cid u { m with opens := m.opens ++ [x.2] }))
  | .coll _ => pure s

end Sys2Proof.Machine
end

