-- ==== Sys2Proof/Machine/CollFlow.lean ====
section
/-! DEFINITION. What the collective engines do between the starts of K commands (R365-R372, R430-R432): rings, bucket-list
entries, segments and KPUT's pieces. -/

namespace Sys2Proof.Machine

/-- n bytes of virtual memory as a K command reads them. -/
def State.kRead (s : State) (cid : Nat) (m : Cmd) (a : Word) (n : Nat) : Except Stop (List Byte × Fl) :=
  s.engRead cid 3 m .eread 0 a.toNat n

/-- The errors met in reading n bytes of virtual memory. -/
def State.kErr (s : State) (cid : Nat) (m : Cmd) (a : Word) (n : Nat) : Fl :=
  match s.kRead cid m a n with
  | .ok b => b.2
  | .error _ => 0

/-- The offset of the first of n bytes in which an error is met. -/
def State.firstBad (s : State) (cid : Nat) (m : Cmd) (a : Word) (n : Nat) : Nat :=
  ((List.range n).find? (fun i => s.kErr cid m (a + word i) 1 != 0)).getD 0

/-! ## KRING (R366, R432) -/

/-- The members of a ring descriptor, with bit 7 of the own device's bytes set to the engine's die; an illegal one stops the
command. -/
def State.kringMembers (s : State) (cid : Nat) (m : Cmd) : Except Stop (List Nat) := do
  let bad : Except Stop (List Nat) := .error (.fault 1 0 0)
  let h ← s.kRead cid m m.ent.a 8
  let v := h.1.map BitVec.toNat
  let n := (v[0]?).getD 0
  if n < 2 ∨ 128 < n ∨ (v.drop 1).any (fun x => x != 0) then bad
  else
    let b ← s.kRead cid m (m.ent.a + 8) n
    let own := s.net.devid + 128 * m.die
    let ms := b.1.map (fun x => if x.toNat % 128 = s.net.devid then own else x.toNat)
    let routed : Nat → Bool := fun x => x % 128 == s.net.devid || (Map.getD s.net.routes (x % 128) .fresh).v
    if ms.contains own && ms.eraseDups.length == ms.length && ms.all routed then pure ms else bad

/-- KRING's id may be entered now: no KALLRED or KBCAST of the launch runs on it in this engine (R366). -/
def State.kringFree (s : State) (cid g : Nat) : Bool :=
  s.ctxs.all (fun x => x.2.launch != (s.ctx cid).launch ||
    x.2.eng.coll.all (fun m => !((m.op == 2 || m.op == 3) && m.ring == g && m.die == dieAt cid)))

/-- Enters a ring under its id; an id of another active launch is a protection fault (R366). -/
def State.kringEnter (s : State) (cid : Nat) (m : Cmd) (ms : List Nat) : Except Stop State :=
  let d := m.die
  let l := (s.ctx cid).launch
  let put := fun (next : Nat) => { s.coll d with rings := Map.put (s.coll d).rings m.ring ⟨l, ms, next⟩ }
  match Map.find (s.coll d).rings m.ring with
  | some r => if r.launch = l then .ok (s.setColl d (put r.next)) else .error (.fault 7 1 0)
  | none => .ok (s.setColl d (put 0))

/-- KRING's whole effect. -/
def State.kringDo (s : State) (cid : Nat) (m : Cmd) : Except Stop State := do
  let ms ← s.kringMembers cid m
  s.kringEnter cid m ms

/-! ## Bucket-list entries (R368, R431) -/

def Bucket.word (b : Bucket) (i : Nat) : Word := (b.words[i]?).getD 0
def Bucket.base (b : Bucket) : Word := b.word 0
def Bucket.len (b : Bucket) : Nat := (b.word 1).toNat
def Bucket.root (b : Bucket) : Nat := bitsOf (b.word 5) 22 16
def Bucket.op (b : Bucket) : Nat := bitsOf (b.word 5) 7 4
def Bucket.ty (b : Bucket) : ETy := (tyOf (bitsOf (b.word 5) 3 0)).getD .f32
def Bucket.n (b : Bucket) : Nat := b.ring.length

/-- Granules of a segment (R369). -/
def Bucket.q (b : Bucket) : Nat := (b.len / 32 + b.n - 1) / b.n

/-- A type that KALLRED reduces. -/
def collTy (t : ETy) : Bool := t == .f32 || t == .bf16 || t == .f16 || t == .i32 || t == .i64

/-- A bucket-list entry is legal (R368); `cast` says that it is KBCAST's, `n` the members. -/
def State.entryOk (s : State) (ws : List Word) (cast : Bool) (n : Nat) : Bool :=
  let w := fun i => (ws[i]?).getD 0
  let core := bitsOf (w 4) 15 8
  let ty := match tyOf (bitsOf (w 5) 3 0) with | some t => collTy t | none => false
  (w 0).toNat % 32 == 0 && (w 1).toNat % 32 == 0 && inRange (w 1) 32 (2 ^ 32) && (w 2).toNat % 8 == 0 &&
  bitsOf (w 4) 63 23 == 0 && (!bitOf (w 4) 22 || core == 0xFF || s.variant.hasCore core) &&
  bitsOf (w 5) 63 23 == 0 && bitsOf (w 5) 15 8 == 0 && w 6 == 0 && w 7 == 0 &&
  (if cast then decide (bitsOf (w 5) 22 16 < n) else ty && decide (bitsOf (w 5) 7 4 ≤ 2))

/-! ## Folding (R369) -/

/-- One fold of two elements of a type: a float sum is one arithmetic operation in the type, so that an overflow gives an infinity (R190). -/
def collFold (op : Nat) (t : ETy) (a b : Word) : Word × Fl :=
  if op = 0 then
    match t.fmt with
    | some f =>
      let y := (t.value false a).add (t.value false b)
      let r := f.arith false y.1
      (word r.1, r.2 ||| y.2)
    | none => (t.hold (a + b).toNat, 0)
  else
    match t.fmt with
    | some _ =>
      let m := (f32MinMax (op == 1) false (foldIn t a) (foldIn t b)).1
      (word (convert t .plain (f32Val false m)).1, 0)
    | none => (foldPick (op == 1) t a b, 0)

/-- n-byte elements of bytes. -/
def chunksOf (z : Nat) (bs : List Byte) : List Word :=
  (List.range (bs.length / z)).map (fun i => leWord (sliceB bs (z * i) z))

/-- Folds a segment's piece with the member's own bytes: the bytes after, and each element's flags. -/
def Bucket.foldPiece (b : Bucket) (off : Nat) (bs : List Byte) : List Byte × List Fl :=
  let z := b.ty.bytes
  let own := chunksOf z (sliceB b.own off bs.length)
  let rs := (List.range (bs.length / z)).map (fun i =>
    collFold b.op b.ty (leWord (sliceB bs (z * i) z)) ((own[i]?).getD 0))
  ((rs.map (fun r => leBytes z r.1.toNat)).flatten, rs.map Prod.snd)

/-! ## Sending -/

/-- Sends a piece to the next member of a bucket's ring. -/
def State.sendSeg (s : State) (b : Bucket) (g stepNo off : Nat) (bs : List Byte) (fs : List Fl) : State :=
  let next := (b.ring[(b.pos + 1) % b.n]?).getD 0
  s.post (next % 128) (.seg (next % 128) (next / 128) ⟨g, b.pos, b.num, stepNo, off, bs, fs⟩)

/-- The pieces of 4 KiB of a run of a bucket's bytes: offset and length. -/
def pieces (lo hi : Nat) : List (Nat × Nat) :=
  (List.range ((hi - lo + 4095) / 4096)).map (fun i => (lo + 4096 * i, min 4096 (hi - (lo + 4096 * i))))

/-- The bytes of segment k of a bucket. -/
def Bucket.seg (b : Bucket) (k : Nat) : Nat × Nat := (min (32 * k * b.q) b.len, min (32 * (k + 1) * b.q) b.len)

/-- What a member sends when a bucket starts on it: its own values of the segment it begins, or, as the root of a KBCAST, the
whole bucket as final values. -/
def State.firstSends (s : State) (b : Bucket) (g : Nat) (cast : Bool) : State :=
  let r := if cast then (if b.pos = b.root then (0, b.len) else (0, 0)) else b.seg ((b.pos + b.n - 1) % b.n)
  (pieces r.1 r.2).foldl (fun s p => s.sendSeg b g (if cast then b.n else 1) p.1 (sliceB b.own p.1 p.2) []) s

/-! ## Starting a bucket (R182, R369) -/

/-- The elements of z bytes, of n bytes from an address on, in which an error is met, with it. -/
def State.badElems (s : State) (cid : Nat) (m : Cmd) (a : Word) (n z : Nat) : Map Fl :=
  ((List.range (n / z)).map (fun i => (i, s.kErr cid m (a + word (z * i)) z))).filter (fun x => x.2 != 0)

/-- The element size that a bucket's indices count; KBCAST ignores TYPE and counts bytes (log entry 20). -/
def bucketElem (cast : Bool) (ws : List Word) : Nat :=
  if cast then 1 else ((tyOf (bitsOf ((ws[5]?).getD 0) 3 0)).getD .f32).bytes

/-- The next bucket of a command may start by its place in the list: four in flight at most, and the one four before done. -/
def Cmd.turn (m : Cmd) : Bool :=
  decide (m.nextBucket < m.ent.b.toNat) && decide (m.buckets.length < 4) &&
    m.buckets.all (fun b => decide (m.nextBucket < b.idx + 4))

/-- Reads the next bucket's entry and its ready word; once that is at least RVAL the bucket starts: its bytes are read and its
first segments sent. A ready word below RVAL leaves the machine as it is. -/
def State.pollReady (s : State) (cid n : Nat) (m : Cmd) : Except Stop State := do
  let cast := m.op == 3
  match Map.find (s.coll m.die).rings m.ring with
  | none => .error (.fault 1 0 0)
  | some r =>
    let e ← s.kRead cid m (m.ent.a + word (64 * m.nextBucket)) 64
    let ws := chunksOf 8 e.1
    if !s.entryOk ws cast r.members.length then .error (.fault 1 0 0)
    else
      let w := fun i => (ws[i]?).getD 0
      let rw ← s.kRead cid m (w 2) 8
      if (leWord rw.1).toNat < (w 3).toNat then pure (s.setCmd cid (.coll n) { m with rgot := [] })
      else
        let rs : List Range := [⟨.eread, 0, (m.ent.a + word (64 * m.nextBucket)).toNat, 64⟩, ⟨.eread, 0, (w 2).toNat, 8⟩,
          ⟨.eread, 0, (w 0).toNat, (w 1).toNat⟩]
        s.touch cid m.pre rs
        let own ← s.kRead cid m (w 0) (w 1).toNat
        let pos := (r.members.findIdx? (fun x => x == s.net.devid + 128 * m.die)).getD 0
        let root := cast && pos == bitsOf (w 5) 22 16
        let b : Bucket := { idx := m.nextBucket, num := m.numBase + m.nextBucket, words := ws, own := own.1, ring := r.members, pos := pos,
                            ebase := m.elems, got := if root then (w 1).toNat else 0,
                            fl := if own.2 = 0 then [] else s.badElems cid m (w 0) (w 1).toNat (bucketElem cast ws) }
        let m := { m with nextBucket := m.nextBucket + 1, elems := m.elems + b.len / bucketElem cast ws,
                          buckets := m.buckets ++ [b], rgot := [], rbad := [] }
        let m := { m with status := stElem m.status b.ebase (e.2 ||| rw.2) }
        pure (((s.noteRanges cid rs).setCmd cid (.coll n) m).firstSends b m.ring cast)

/-! ## Segments (R369, R370) -/

/-- Writes final bytes of a bucket, granule by granule. -/
def State.finalWrites (s : State) (cid : Nat) (u : EUnit) (b : Bucket) (off : Nat) (bs : List Byte) (m : Cmd) :
    Except Stop Cmd :=
  (List.range (bs.length / 32)).foldlM (fun (m : Cmd) i => do
    let a := (b.base.toNat + off + 32 * i) % 2 ^ 64
    let p ← s.spacePlace cid m.pre .ewrite 0 a 32
    pure (m.put u p (word a) (sliceB bs (32 * i) 32))) m

/-- What an arrived piece does to a bucket: the bytes, whether they are final here, and the flags of their folds so far. -/
def Bucket.take (b : Bucket) (cast : Bool) (x : Segment) : List Byte × Bool × List Fl :=
  if cast ∨ b.n ≤ x.stepNo then (x.bytes, true, x.flags)
  else
    let r := b.foldPiece x.off x.bytes
    (r.1, x.stepNo + 1 == b.n, (List.range r.2.length).map (fun i => (x.flags[i]?).getD 0 ||| (r.2[i]?).getD 0))

/-- The flags of a piece's elements join those of a bucket. -/
def Bucket.addFlags (b : Bucket) (off : Nat) (fs : List Fl) : Bucket :=
  { b with fl := (List.range fs.length).foldl (fun m i =>
      let e := off / b.ty.bytes + i
      let f := (fs[i]?).getD 0
      if f = 0 then m else Map.put m e (Map.getD m e 0 ||| f)) b.fl }

/-- The piece goes on to the next member, unless this member is the last to get it. -/
def State.passOn (s : State) (b : Bucket) (g : Nat) (x : Segment) (bs : List Byte) (fs : List Fl) : State :=
  if x.stepNo < b.n ∨ x.stepNo - b.n < b.n - 2 then s.sendSeg b g (x.stepNo + 1) x.off bs fs else s

/-- The context of a done target, if its task belongs to the launch (R369, R431). -/
def State.doneTarget (s : State) (cid : Nat) (b : Bucket) : Option Nat :=
  let w := b.word 4
  if !bitOf w 22 then none
  else
    let t := if bitsOf w 15 8 = 0xFF then cid else 2 * bitsOf w 15 8 + bitsOf w 16 16
    if (s.ctx t).task.isSome && (s.ctx t).launch == (s.ctx cid).launch then some t else none

/-- A bucket that has all its final values completes: they are performed, the command's status word takes the flags of its elements in
their order (R324, R369), and its done target is signalled (R178). -/
def State.bucketDone (s : State) (cid n : Nat) (b : Bucket) : State :=
  let s := s.flushPath cid 3
  let s := s.modCmd cid (.coll n) (fun m =>
    let bs := m.buckets.filter (fun x => x.idx != b.idx)
    { m with buckets := bs, ended := bs.isEmpty && decide (m.ent.b.toNat ≤ m.nextBucket),
             status := b.fl.foldl (fun st e => stElem st (b.ebase + e.1) e.2) m.status })
  match s.doneTarget cid b with
  | none => s
  | some t =>
    let mask := BitVec.ofNat 5 (bitsOf (b.word 4) 21 17)
    let s := if mask = 0 then s else (s.reportFails cid (fun p => p == 3) 0 (s.ctx cid).sc.pc).getD s
    s.signal t (bitsOf (b.word 4) 7 0) 1 0 mask (engOf 3) 0 (s.ctx t).sc.pc

/-- The first piece that has arrived for a bucket in flight of a command. -/
def State.nextPiece (s : State) (m : Cmd) : Option (Segment × Bucket) :=
  (s.coll m.die).early.findSome? (fun x =>
    if x.ring = m.ring then (m.buckets.find? (fun b => b.num == x.bucket)).map (fun b => (x, b)) else none)

/-- One arrived piece is folded or written, and passed on. -/
def State.pieceStep (s : State) (cid n : Nat) (m : Cmd) (x : Segment) (b : Bucket) : Except Stop State := do
  let d := m.die
  let t := b.take (m.op == 3) x
  let m ← if t.2.1 then s.finalWrites cid (.coll n) b x.off t.1 m else pure m
  let got := if t.2.1 then b.got + t.1.length else b.got
  let b := { b with got := got }
  let b := if t.2.1 && m.op == 2 then b.addFlags x.off t.2.2 else b
  let s := if t.2.1 then s.noteRanges cid [⟨.ewrite, 0, b.base.toNat + x.off, t.1.length⟩] else s
  let s := s.setColl d { s.coll d with early := (s.coll d).early.erase x }
  let s := s.modCtx cid (fun c => c.modEng (fun g => { g with wq := Map.put g.wq 3 (g.wqOf 3 ++ markHeals m.wr m.wr) }))
  let s := s.setCmd cid (.coll n)
    { m with wr := [], buckets := updFirst (fun y => y.idx == b.idx) (fun _ => b) m.buckets }
  let s := s.passOn b m.ring x t.1 t.2.2
  pure (if b.len ≤ got then s.bucketDone cid n b else s)

/-- A bucket that is complete without a further piece: the root's of a KBCAST. -/
def Cmd.rootDone (m : Cmd) : Option Bucket := m.buckets.find? (fun b => decide (b.len ≤ b.got))

/-! ## KPUT (R371) -/

/-- The length of KPUT's piece of at most 32 bytes at an offset, within an aligned granule of the destination. -/
def putLen (dst off len : Nat) : Nat := min (32 - (dst + off) % 32) (len - off)

/-- Sends the writes of KPUT from an offset up to a limit. -/
def State.putSends (s : State) (cid : Nat) (m : Cmd) (lim : Nat) : Nat → Nat → Except Stop (State × Word)
  | 0, _ => .ok (s, m.status)
  | fuel + 1, off =>
    if lim ≤ off then .ok (s, m.status)
    else do
      let k := min (putLen m.ent.b.toNat off m.ent.c.toNat) (lim - off)
      let src ← s.kRead cid m (m.ent.a + word off) k
      let va := m.ent.b + word off
      let p ← s.spacePlace cid m.pre .ewrite 0 va.toNat k
      match p.dev? with
      | none => .error (.fault 7 3 va)
      | some (dev, pa, key) =>
        let st := if src.2.toNat &&& stFlags m.status ≠ src.2.toNat then stElem m.status (off + s.firstBad cid m (m.ent.a + word off) k) src.2 else m.status
        (s.send dev key (.store pa src.1) ⟨cid, dev, .kput, va, m.ent.addr, m.ent.seq, 0⟩).putSends cid { m with status := st }
          lim fuel (off + k)

/-- One 4 KiB segment of KPUT. -/
def State.putStep (s : State) (cid n : Nat) (m : Cmd) : Except Stop State := do
  let lo := 4096 * m.iter
  let hi := min (lo + 4096) m.ent.c.toNat
  let rs : List Range := [⟨.eread, 0, m.ent.a.toNat + lo, hi - lo⟩, ⟨.ewrite, 0, m.ent.b.toNat + lo, hi - lo⟩]
  s.touch cid m.pre rs
  let r ← s.putSends cid m hi 4097 lo
  pure (((r.1.noteRanges cid rs).setCmd cid (.coll n) { m with status := r.2 }).commit cid (.coll n))

/-- The writes of a KPUT that await their acknowledgement. -/
def State.putPending (s : State) (cid seq : Nat) : Bool :=
  s.net.reqs.any (fun x => x.2.cid == cid && x.2.kind == .kput && x.2.seq == seq)

/-! ## One step of a collective command -/

/-- What a collective command does next, apart from polling a ready word: a KRING that waited for its descriptor, a piece that
has arrived, a bucket that is whole, or a segment of KPUT. -/
def State.collStep (s : State) (cid n : Nat) (m : Cmd) : Except Stop State :=
  if m.op = 0 then do
    let s ← s.kringDo cid m
    pure (s.setCmd cid (.coll n) { m with ended := true })
  else if m.op = 4 then s.putStep cid n m
  else
    match m.rootDone with
    | some b => .ok (s.bucketDone cid n b)
    | none =>
      match s.nextPiece m with
      | some (x, b) => s.pieceStep cid n m x b
      | none => .ok s

end Sys2Proof.Machine
end

