-- ==== Sys2Proof/Machine/View.lean ====
section
/-! DEFINITION. The frozen image view (R343): the sections of the canonical context image (R228-R231, R344, R378, R393), each part
at the place it would have if every part were written; and the image itself (R227), in which only the parts written have a place. -/

namespace Sys2Proof.Machine

/-- A field of an image: its offset, its length in bytes and its value. -/
abbrev Field := Nat × Nat × Nat

/-- The byte at an offset, of fields that do not overlap; zero where there is none. -/
def fieldByte (fs : List Field) (o : Nat) : Nat :=
  match fs.find? (fun f => decide (f.1 ≤ o) && decide (o < f.1 + f.2.1)) with
  | some f => f.2.2 / 256 ^ (o - f.1) % 256
  | none => 0

/-- The 8 bytes at an offset, of a function that gives the bytes. -/
def viewWord8 (f : Nat → Nat) (o : Nat) : Word :=
  word ((List.range 8).foldl (fun a i => a + f (o + i) * 256 ^ i) 0)

/-- Fields moved by an offset. -/
def shiftFields (n : Nat) (fs : List Field) : List Field := fs.map (fun f => (f.1 + n, f.2.1, f.2.2))

/-- A run of 8-byte words from an offset on. -/
def wordsAt (o : Nat) (ws : List Word) : List Field :=
  (List.range ws.length).map (fun i => (o + 8 * i, 8, ((ws[i]?).getD 0).toNat))

/-- A bitmap of the numbers listed. -/
def bitmap (ns : List Nat) : Nat := ns.foldl (fun b n => b + 2 ^ n) 0

/-! ## Nest images (R344, R378) -/

/-- The 512-byte image of a copy or reduction set. -/
def NestSet.fields (n : NestSet) : List Field :=
  (List.range 6).map (fun l => (2 * l, 2, Map.getD n.cnt l 0)) ++ [(0x0C, 2, n.run)] ++
  ((List.range 6).map (fun l => (List.range 8).map (fun j =>
    (0x10 + 40 * l + 5 * j, 5, (n.stride l j % 2 ^ 40).toNat)))).flatten ++
  wordsAt 0x100 ((List.range 8).map n.baseW) ++ wordsAt 0x140 ((List.range 8).map n.sbaseW) ++
  wordsAt 0x180 ((List.range 8).map n.fmtW) ++ wordsAt 0x1C0 [n.fill, n.limit, n.subv]

/-- The 512-byte image of a matrix set. -/
def MatSet.fields (n : MatSet) : List Field :=
  (List.range 6).map (fun l => (2 * l, 2, Map.getD n.cnt l 0)) ++
  ((List.range 6).map (fun l => (List.range 4).map (fun j =>
    (0x10 + 20 * l + 5 * j, 5, (n.stride l j % 2 ^ 40).toNat)))).flatten ++
  wordsAt 0x90 ((List.range 4).map n.baseW) ++ wordsAt 0xB0 ((List.range 3).map n.sbaseW) ++
  wordsAt 0xC8 [n.mctl, n.apitch, n.dctl, n.dsb, n.dclip, n.subv, n.rowp, n.dmapw, n.dtapw] ++
  (List.range 16).map (fun c => (0x110 + 4 * c, 4, (Map.getD n.dcrv c 0).toNat))

/-! ## Section 0: the trap frame (R219) -/

/-- The queue entries of C, M, R and K in order. -/
def Engines.queues (g : Engines) : List QEnt := g.qC ++ g.qM ++ g.qR ++ g.qK

/-- The address of the next instruction of a stream: the head of its queue, or the next decode. -/
def nextAddr (q : List QEnt) (pc : Word) : Word := match q.head? with | some e => e.addr | none => pc

def Ctx.frameFields (c : Ctx) : List Field :=
  let g := c.eng
  let t := c.trap
  let fr := fun (f : Frame) =>
    [(0x00, 8, f.detail % 2 ^ 32 * 2 ^ 32 + f.ch % 8 * 2 ^ 16 + f.eng % 256 * 256 + f.code % 256), (0x38, 8, f.esw.toNat),
     (0x40, 8, f.faddr.toNat), (0x48, 8, f.pelem % 2 ^ 32 * 2 ^ 16 + f.pins * 256 + f.pslot * 16 + f.pbind),
     (0x50, 8, f.iword.toNat), (0x68, 8, f.fpc.toNat)]
  (match t.frame with | some f => fr f | none => []) ++
  [(0x08, 4, t.pend.toNat), (0x10, 8, c.sc.pc.toNat), (0x58, 8, t.ssw.toNat),
   (0x60, 8, g.qC.length + g.qM.length * 2 ^ 9 + g.qR.length * 2 ^ 18 + g.qK.length * 2 ^ 27)] ++
  wordsAt 0x18 ([g.qC, g.qM, g.qR, g.qK].map (fun q => nextAddr q c.sc.pc)) ++
  wordsAt 0x80 ((g.queues.map (fun e => [e.addr, e.a, e.b, e.c])).flatten)

/-! ## Sections 1 and 2 -/

/-- The per-context system registers 0x020 to 0x025 (R341). -/
def SysRegs.list (y : SysRegs) : List Word :=
  [word y.window, if y.check then 1 else 0, word y.est, word y.misses, word y.migcount, y.ilock]

def Ctx.scalarFields (c : Ctx) (clk : Nat) : List Field :=
  wordsAt 0 ((List.range 64).map (c.sc.reg clk)) ++
  wordsAt 0x200 ((List.range 8).map (fun k => if c.sc.pred clk k then 1 else 0)) ++ wordsAt 0x240 c.sys.list

def Ctx.semFields (c : Ctx) : List Field :=
  (c.sems.map (fun x => [(16 * x.1, 8, x.2.status.toNat), (16 * x.1 + 8, 3, x.2.count + x.2.vis.toNat * 2 ^ 16)])).flatten

/-! ## Sections 3 to 5: nests and engine commands (R229, R393) -/

def Engines.nestFields (g : Engines) : List Field :=
  g.copyNest.fields ++ shiftFields 512 g.matActive.fields ++ shiftFields 1024 g.matNest.fields ++
  shiftFields 1536 g.redActive.fields ++ shiftFields 2048 g.redNest.fields

/-- The six resume indices of a number of runs done, for the counts of the levels. -/
def resumeIdx (cnt : Nat → Nat) (n : Nat) : List Field :=
  let is := runIdx ((List.range 6).map cnt) n
  (List.range 6).map (fun l => (0x230 + 4 * l, 4, (is[l]?).getD 0))

/-- The element count that a command has reached. -/
def Cmd.elemsAt (m : Cmd) (u : EUnit) : Nat :=
  match u with
  | .ch _ => m.nest.runLen * m.iter
  | .red => if m.op = 5 then m.mi + m.mj else m.nest.runLen * m.iter
  | .array => if m.op = 7 then m.iter else m.mat.rows * m.mat.kn * m.iter
  | .drainU => m.iter
  | .coll _ => m.elems

/-- The entry of a command but for its nest image: state, word, address, captured values, indices, counts and flags. -/
def Cmd.entryFields (m : Cmd) (u : EUnit) (cnt : Nat → Nat) : List Field :=
  [(0x200, 8, 1)] ++ wordsAt 0x208 [m.ent.w, m.ent.addr, m.ent.a, m.ent.b, m.ent.c] ++ resumeIdx cnt m.iter ++
  [(0x248, 8, m.elemsAt u), (0x250, 8, m.status.toNat), (0x258, 8, m.promise.toNat)]

/-- The drain unit's command in the continuation of the matrix entry (R393). -/
def Cmd.drainFields (m : Cmd) : List Field :=
  [(0x260, 8, 1)] ++ wordsAt 0x268 [m.ent.w, m.ent.addr, m.ent.a, m.ent.b, m.ent.c] ++
  [(0x290, 8, m.iter), (0x298, 8, m.status.toNat)] ++
  wordsAt 0x2A0 [m.mat.dctl, m.mat.dsb, m.mat.dclip, m.mat.subv, m.mat.rowp, m.mat.sbaseW 2]

def Engines.cmdFields (g : Engines) : List Field :=
  ((List.range 8).map (fun ch => shiftFields (1024 * ch)
    ((Map.getD g.copyActive ch .fresh).fields ++
     (match Map.find g.chans ch with | some m => m.entryFields (.ch ch) m.nest.count | none => [])))).flatten ++
  shiftFields 8192 (g.matActive.fields ++
    (match g.array with
     | some m => m.entryFields .array m.mat.count ++
         (if m.op = 7 then wordsAt 0x2D0 [m.mat.baseW 2, m.mat.mctl] else [])
     | none => []) ++
    (match g.drain with | some m => m.drainFields | none => [])) ++
  shiftFields 9216 (g.redActive.fields ++ (match g.red with | some m => m.entryFields .red m.nest.count | none => []))

/-- A collective entry: the bucket is the first still in flight, or the next. -/
def Cmd.collWords (m : Cmd) : List Word :=
  let b := m.buckets.head?
  let ix := match b with | some x => x.idx | none => m.nextBucket
  let off := if m.op = 4 then 4096 * m.iter else (match b with | some x => x.got | none => 0)
  [m.ent.w, m.ent.addr, m.ent.a, m.ent.b, m.ent.c, word ix, word off, 1]

def Engines.collFields (g : Engines) : List Field := wordsAt 0 ((g.coll.map Cmd.collWords).flatten)

/-! ## Sections 6 to 9 -/

/-- Tiles by byte: the maps of tiles written and of INT32 tiles, then every tile in its canonical layout (R122, R230). -/
def Parts.accByte (p : Parts) (o : Nat) : Nat :=
  if o < 64 then fieldByte [(0, 8, bitmap p.accW), (8, 8, bitmap p.accInt)] o
  else
    let i := o - 64
    (p.accAt (i / 6144 * 1536 + i % 6144 / 384 * 96 + i % 384 / 4)).toNat / 256 ^ (i % 4) % 256

/-- A slot's entry of 7,936 bytes (R230). -/
def Slot.byte (l : Slot) (o : Nat) : Nat :=
  if o < 0x2C0 then (Mem.get l.img o).toNat
  else if o < 0x300 then fieldByte [(0x2C0, 8, l.bound.getD 7), (0x2C8, 8, l.count), (0x2D0, 8, l.result.toNat)] o
  else if o < 0x1300 then
    let i := o - 0x300
    (Map.getD l.carried (i / 32 * 4 + i % 32 / 8) 0).toNat / 256 ^ (i % 8) % 256
  else if o < 0x1400 then
    fieldByte ((List.range l.prev.length).map (fun d => match l.prev[d]? with
      | some h => [(0x1300 + 16 * d, 8, h.2.2.toNat), (0x1308 + 16 * d, 8, 2 ^ 63 + h.2.1 % 2 ^ 63)]
      | none => [])).flatten o
  else if o < 0x1600 then Map.getD l.lanes ((o - 0x1400) / 4) 0 / 256 ^ ((o - 0x1400) % 4) % 256
  else 0

def Ctx.portByte (c : Ctx) (o : Nat) : Nat :=
  if o < 0x80 then (Map.getD c.ports.par (o / 8) 0).toNat / 256 ^ (o % 8) % 256
  else
    let n := (o - 0x80) / 7936
    if n < c.hdr.slots then (c.ports.slot n).byte ((o - 0x80) % 7936) else 0

def Ports.lpmByte (p : Ports) (o : Nat) : Nat :=
  if o < 64 then fieldByte [(0, 8, bitmap p.savedPts)] o
  else if p.savedPts.contains ((o - 64) / 131072) then (Mem.get p.lpm (o - 64)).toNat
  else 0

def SysRegs.seedByte (y : SysRegs) (o : Nat) : Nat :=
  if o < 3072 then (y.seed (o / 512) (o % 512 / 4)).toNat / 256 ^ (o % 4) % 256 else 0

/-! ## Sections 10 to 13 -/

/-- A bitmap of granules, by byte. -/
def mapByte (ns : List Nat) (o : Nat) : Nat := bitmap ((ns.filter (fun n => n / 8 == o)).map (fun n => n % 8))

def Ctx.spadByte (c : Ctx) (o : Nat) : Nat :=
  if o < 256 then mapByte c.parts.spadW o
  else if o - 256 < 4096 * c.hdr.spad then (Mem.get c.parts.spad (o - 256)).toNat else 0

/-- The entry of a weight-store granule (R231). -/
def Parts.wstEntry (p : Parts) (g : Nat) : Nat :=
  match Map.find p.wstW g with
  | none => 0
  | some none => 2 ^ 63
  | some (some va) => 2 ^ 63 + 2 ^ 62 + va.toNat % 2 ^ 57

def Ctx.wstByte (c : Ctx) (o : Nat) : Nat :=
  let n := c.hdr.wst
  if o < 8 * n then c.parts.wstEntry (o / 8) / 256 ^ (o % 8) % 256
  else if o - 8 * n < 4096 * n then (Mem.get c.parts.wst (o - 8 * n)).toNat else 0

/-- The context is the first member of its bunch (R228). -/
def State.isMember0 (s : State) (cid : Nat) : Bool :=
  match (s.ctx cid).task with
  | some t => t.member && (s.standsFor cid).all (fun m => decide (memberIdx cid ≤ memberIdx m))
  | none => false

/-- The bytes of section 12 for a cluster memory and its written granules. -/
def clusBytes (clus : Mem) (w : List Nat) (o : Nat) : Nat :=
  if o < 256 then mapByte w o else if o - 256 < 2 ^ 23 then (Mem.get clus (o - 256)).toNat else 0

def State.clusByte (s : State) (cid o : Nat) : Nat :=
  if !s.isMember0 cid then 0
  else
    let cl := clusterOf (cid / 2)
    clusBytes ((s.mem.clus.filter (fun x => decide (x.1 / 2 ^ 26 = cl))).map (fun x => (x.1 % 2 ^ 26, x.2)))
      ((s.mem.clusW.filter (fun g => decide (g / 2 ^ 14 = cl))).map (fun g => g % 2 ^ 14)) o

def Ctx.lockFields (c : Ctx) : List Field := wordsAt 0 ((c.locks.map (fun x => [x.1, x.2])).flatten)

/-! ## The view -/

/-- A byte of a section of a context; `clus` gives section 12. -/
def Ctx.secByte (c : Ctx) (clk : Nat) (clus : Nat → Nat) (id : Nat) : Nat → Nat :=
  match id with
  | 0 => fieldByte c.frameFields
  | 1 => fieldByte (c.scalarFields clk)
  | 2 => fieldByte c.semFields
  | 3 => fieldByte c.eng.nestFields
  | 4 => fieldByte c.eng.cmdFields
  | 5 => fieldByte c.eng.collFields
  | 6 => c.parts.accByte
  | 7 => c.portByte
  | 8 => c.ports.lpmByte
  | 9 => c.sys.seedByte
  | 10 => c.spadByte
  | 11 => c.wstByte
  | 12 => clus
  | _ => fieldByte c.lockFields

/-- The 8 bytes at an offset of a section of the frozen context. -/
def State.viewWord (s : State) (cid id o : Nat) : Word :=
  viewWord8 ((s.ctx cid).secByte s.clk (s.clusByte cid) id) o

/-- The continuation bytes of a stopped copy or reduction command, which the spec names but does not lay out (R229). -/
def State.openWord (s : State) (cid id o : Nat) : Bool :=
  id == 4 && decide (0x260 ≤ o % 1024) &&
    (if o < 8192 then (Map.find (s.ctx cid).eng.chans (o / 1024)).isSome
     else decide (9216 ≤ o) && decide (o < 10240) && (s.ctx cid).eng.red.isSome)

/-! ## The image (R227, R228) -/

/-- The weight-store granules whose bytes an image holds (R231). -/
def Parts.dirtyWst (p : Parts) : List Nat := (p.wstW.filter (fun x => x.2.isNone)).map Prod.fst

/-- The parts of a section that have a place in the image only if they are written: the length of what stands before them, the size of one,
and those written, in ascending order. -/
def Saved.parts (im : Saved) (id : Nat) : Option (Nat × Nat × List Nat) :=
  match id with
  | 6 => some (64, 6144, im.ctx.parts.accW)
  | 8 => some (64, 131072, im.ctx.ports.savedPts)
  | 10 => some (256, 4096, im.ctx.parts.spadW)
  | 11 => some (8 * im.ctx.hdr.wst, 4096, im.ctx.parts.dirtyWst)
  | 12 => some (256, 4096, im.clusW)
  | _ => none

/-- The length of a section (R228). Section 12 is absent but in the image that holds the cluster memory. -/
def Saved.secLen (im : Saved) (id : Nat) : Nat :=
  match im.parts id with
  | some (head, z, ns) => if id = 12 ∧ ns = [] then 0 else head + z * ns.length
  | none =>
    match id with
    | 0 => 128 + 32 * im.ctx.eng.queues.length
    | 1 => 1024 | 2 => 4096 | 3 => 2560 | 4 => 10240 | 5 => 1024
    | 7 => 128 + 7936 * im.ctx.hdr.slots
    | 9 => 3072 | 13 => 512
    | _ => 0

/-- An offset rounded up to a multiple of 256. -/
def up256 (n : Nat) : Nat := (n + 255) / 256 * 256

/-- The section table (R227): offset and length of the sections from `id` on, and the end of the image. -/
def secTable (len : Nat → Nat) : Nat → Nat → Nat → List (Nat × Nat) × Nat
  | 0, _, o => ([], o)
  | n + 1, id, o =>
    let r := secTable len n (id + 1) (up256 (o + len id))
    ((o, len id) :: r.1, r.2)

/-- The header of a complete image (R227): the record with the current EST and QREQ, and the table of 16 entries. -/
def Saved.header (im : Saved) (launch : Nat) : ImgHeader :=
  let t := secTable im.secLen 16 0 256
  let b := match im.ctx.task with | some t => if t.member then t.bunch % 2 ^ 16 + im.index * 2 ^ 16 else 0 | none => 0
  { magic := 0x5A3C0001, version := 1, cls := if im.cls then 1 else 0, reason := im.reason, total := t.2
    record := match im.ctx.task with | some t => t.record | none => ⟨0, 0, 0, 0⟩
    launch := launch, bunch := b, secs := t.1 }

def ImgHeader.fields (h : ImgHeader) : List Field :=
  [(0x00, 4, h.magic), (0x04, 2, h.version), (0x06, 1, h.cls), (0x07, 1, h.reason), (0x08, 8, h.total), (0x30, 8, h.launch),
   (0x38, 8, h.bunch)] ++ wordsAt 0x10 [h.record.w0, h.record.w1, h.record.w2, h.record.w3] ++
  wordsAt 0x40 (h.secs.map (fun x => word (x.1 * 2 ^ 32 + x.2)))

/-- A byte of a section in the image: of the parts that only the written ones have a place of, the n-th stands n-th. -/
def Saved.secByte (im : Saved) (id o : Nat) : Nat :=
  let f := im.ctx.secByte 0 (clusBytes im.clus im.clusW) id
  match im.parts id with
  | none => f o
  | some (head, z, ns) =>
    if o < head then f o
    else
      match ns[(o - head) / z]? with
      | some n => f (head + z * n + (o - head) % z)
      | none => 0

/-- A byte of a complete image; padding is zero. -/
def Saved.byte (im : Saved) (o : Nat) : Nat :=
  match im.hdr with
  | none => 0
  | some h =>
    if o < 256 then fieldByte h.fields o
    else
      match (List.range 16).find? (fun i => match h.secs[i]? with | some x => decide (x.1 ≤ o) && decide (o < x.1 + x.2) | none => false) with
      | some i => im.secByte i (o - ((h.secs[i]?).getD (0, 0)).1)
      | none => 0

end Sys2Proof.Machine
end

