-- ==== Sys2Proof/Machine/System.lean ====
section
/-! DEFINITION. System instructions (R335-R343): rdsys and wrsys over the whole register map, svc, trap, tret, iclk, iulk, tlbi
and caps. -/

namespace Sys2Proof.Machine

/-! ## The system register map (R341) -/

/-- QCFG of a queue (R74). -/
def Queue.cfg (q : Queue) : Word := word (q.cap * 2 ^ 32 + q.rate * 2 ^ 16 + q.prio)

/-- QSTAT of a queue (R74). -/
def State.qstat (s : State) (q : Nat) : Word :=
  let n := (s.sched.store.filter (fun x => x.2.st == .ready && x.2.record.queue == q)).length
  word (min n 0xFFFFFF * 2 ^ 16 + (s.queue q).tok)

/-- A number of the frozen image view: its section and offset (R343). -/
def viewNum (n : Nat) : Option (Nat × Nat) :=
  if 0x10000000 ≤ n ∧ n < 0x1E000000 then some ((n - 0x10000000) / 0x1000000, 8 * ((n - 0x10000000) % 0x1000000)) else none

/-- The value that rdsys reads, for a number that the map assigns and the agent may name (R335, R341). -/
def State.sysRead (s : State) (n : Nat) : Option Word :=
  let y := s.me.sys
  if n < 0x10 then some (s.variant.caps n)
  else if n = 0x10 then some (word s.net.devid)
  else if 0x20 ≤ n ∧ n < 0x30 then some ((y.list[n - 0x20]?).getD 0)
  else if n = 0x30 then some (word (s.core s.myCore).softerr)
  else if n = 0x80 then some (s.tvecOf s.myCore)
  else if 0x100 ≤ n ∧ n < 0x140 then some (s.queue (n - 0x100)).cfg
  else if 0x140 ≤ n ∧ n < 0x180 then some (s.qstat (n - 0x140))
  else if 0x400 ≤ n ∧ n < 0x700 then some (word (y.seed ((n - 0x400) / 128) ((n - 0x400) % 128)).toNat)
  else if !s.onTrapCore then none
  else if n = 0x800 then some (s.core s.myCore).trap.tact
  else
    match viewNum n with
    | none => none
    | some (id, o) =>
      some (if s.openWord s.cur.cid id o then Config.freeWord s.free else s.viewWord s.cur.cid id o)

/-- A read of an open value takes a fresh one. -/
def State.sysBump (s : State) (n : Nat) : State :=
  match viewNum n with
  | some (id, o) => if s.onTrapCore && s.openWord s.cur.cid id o then s.bump else s
  | none => s

/-- rdsys (R335). -/
def execRdsys (o : RdsysF) (s : State) : Res :=
  match s.cur.agent with
  | .helper => .next (s.endHelper s.myCore)
  | .S | .trapCore | .C | .M | .R | .K =>
    s.issueVar [] [o.rd]
      (match s.sysRead o.num.toNat with
       | none => .next (s.trapS 1 0 0)
       | some v => .next (((s.sysBump o.num.toNat).resVar o.rd v).adv o.st))

/-- Updates the system registers of the context at the cursor. -/
def State.modMySys (s : State) (f : SysRegs → SysRegs) : State := s.modMe (fun c => c.modSys f)

/-- Writes through the frozen image view (R220, R343): the registers s1 to s63 and k0 to k7, semaphore counts and SSW; every other
number of the view ignores the write. -/
def State.viewWrite (s : State) (id o : Nat) (v : Word) : State :=
  match id with
  | 0 => if o = 0x58 then s.modMe (fun c => c.modTrap (fun t => { t with ssw := v })) else s
  | 1 =>
    if 8 ≤ o ∧ o < 0x200 then
      s.modMe (fun c => c.modSc (fun q => (q.settle s.clk).put (o / 8) v))
    else if 0x200 ≤ o ∧ o < 0x240 then
      s.modMe (fun c => c.modSc (fun q => (q.settle s.clk).put (64 + (o - 0x200) / 8) (v &&& 1)))
    else s
  | 2 =>
    if o % 16 = 8 ∧ o < 4096 then
      let n := o / 16
      s.setSem s.cur.cid n { s.sem n with count := bitsOf v 15 0 }
    else s
  | _ => s

/-- What wrsys does to a register that the map assigns (R335, R341); writes to fields that are read-only are ignored. -/
def State.sysWrite (s : State) (n : Nat) (v : Word) : State :=
  if n = 0x20 then s.modMySys (fun y => { y with window := min 256 (max 8 (bitsOf v 8 0)) })
  else if n = 0x21 then s.modMySys (fun y => { y with check := bitOf v 0 })
  else if n = 0x23 then s.modMySys (fun y => { y with misses := bitsOf v 31 0 })
  else if n = 0x80 then s.modCore s.myCore (fun k => { k with tvec := some (word (bitsOf v 56 8 * 256)) })
  else if 0x100 ≤ n ∧ n < 0x140 then
    let q := s.queue (n - 0x100)
    -- a write that lowers CAP lowers TOK with it (R81)
    let w : Queue := { cap := bitsOf v 47 32, rate := bitsOf v 31 16, prio := bitsOf v 2 0, tok := min q.tok (bitsOf v 47 32) }
    s.modSched (fun q => { q with queues := Map.put q.queues (n - 0x100) w })
  else if 0x400 ≤ n ∧ n < 0x700 then
    let d : Nat := if bitsOf v 31 0 = 0 then 1 else bitsOf v 31 0
    s.modMySys (fun y => { y with seeds := Map.put y.seeds (n - 0x400) (BitVec.ofNat 32 d) })
  else if n = 0x800 then
    s.modCore s.myCore (fun k => { k with trap := { k.trap with tact := v } })
  else
    match viewNum n with
    | some (id, o) => s.viewWrite id o v
    | none => s

/-- The register is written by system tasks only: TVEC and QCFG (R74, R223). -/
def sysOnly (n : Nat) : Bool := n == 0x80 || (decide (0x100 ≤ n) && decide (n < 0x140))

/-- wrsys (R335). -/
def execWrsys (o : WrsysF) (s : State) : Res :=
  match s.cur.agent with
  | .helper => .next (s.endHelper s.myCore)
  | .S | .trapCore | .C | .M | .R | .K =>
    s.issue [o.ra] none
      (match s.sysRead o.num.toNat with
       | none => .next (s.trapS 1 0 0)
       | some _ =>
         if sysOnly o.num.toNat && !s.me.isSys then .next (s.trapS 7 0 0)
         else .next ((s.sysWrite o.num.toNat (s.r o.ra)).adv o.st))

/-! ## svc, trap and tret (R336, R337, R221) -/

/-- The argument registers of a service (R336). -/
def svcArgs : List Nat := [4, 5, 6, 7]

/-- svc (R336): a fence .ar at .dom, then S is parked until the reply, which writes s4 and s5. -/
def execSvc (o : ImmF) (s : State) : Res :=
  s.mainOnly
    (s.issueVar svcArgs [4, 5]
      (s.whenDrained true
        (let as := svcArgs.map s.r
         .next ((s.wbInv s.myCore).park (.svc o.imm.toNat as) o.st))))

/-- trap (R337). -/
def execTrap (o : ImmF) (s : State) : Res := s.mainOnly (.next (s.trapS 0x0E o.imm.toNat 0))

/-- tret (R221): on a main stream it is an illegal instruction (R222). -/
def execTret (_o : R0) (s : State) : Res :=
  match s.cur.agent with
  | .trapCore => .next (s.tret s.myCore)
  | .helper => .next (s.endHelper s.myCore)
  | .S | .C | .M | .R | .K => .next (s.trapS 1 0 0)

/-! ## iclk and iulk (R338, R339) -/

/-- The 256-byte units of a range that is not empty. -/
def lockUnits (a n : Nat) : List Nat := (List.range ((a + n - 1) / 256 + 1 - a / 256)).map (fun i => a / 256 + i)

/-- The units that a core has locked, once each. -/
def State.lockedOf (s : State) (core : Nat) : List Nat :=
  (((s.ctx (2 * core)).locks ++ (s.ctx (2 * core + 1)).locks).map (fun x => lockUnits x.1.toNat x.2.toNat)).flatten.eraseDups

/-- The units of a range that the core would lock anew. -/
def State.newUnits (s : State) (core a n : Nat) : List Nat :=
  (lockUnits a n).filter (fun u => !(s.lockedOf core).contains u)

/-- The object that wholly holds a range, if it is registered and not revoked. -/
def State.objOf (s : State) (a n : Nat) : Option (Nat × CodeObj) :=
  match s.objAt a with
  | some (h, o) => if !o.revoked && decide (a + n ≤ o.base + 65536 * o.pages) then some (h, o) else none
  | none => none

/-- A page of the range that is still to be loaded. -/
def CodeObj.unloaded (o : CodeObj) (a n : Nat) : Bool :=
  (List.range ((a + n - 1 - o.base) / 65536 + 1 - (a - o.base) / 65536)).any
    (fun i => !o.loaded.contains ((a - o.base) / 65536 + i))

/-- The lock is refused: nothing is locked and rd gets 0. -/
def State.lockRefused (s : State) (a n : Nat) : Bool :=
  n == 0 || decide (128 < (s.lockedOf s.myCore).length + (s.newUnits s.myCore a n).length) || decide (32 ≤ s.me.locks.length)

/-- An iclk that has issued goes on once the pages of its range are there (R338): its object may have been revoked or released meanwhile, which
is the code-integrity fault, or the room taken by the other context. -/
def State.iclkWait (s : State) (rd h : Nat) (a n : Word) : State :=
  let lift := s.setSca { s.sca with hold := .none }
  match s.objOf a.toNat n.toNat with
  | none => lift.trapS 8 h 0
  | some (k, ob) =>
    if k ≠ h then lift.trapS 8 h 0
    else if s.lockRefused a.toNat n.toNat then (s.resVar rd 0).go
    else if ob.unloaded a.toNat n.toNat then s
    else
      let s1 := s.modMe (fun c => { c with locks := c.locks ++ [(a, n)] })
      (s1.resVar rd (word (256 * (lockUnits a.toNat n.toNat).length))).go

/-- iclk (R338). An empty range lies in no object, and is refused. -/
def execIclk (o : R3) (s : State) : Res :=
  s.mainOnly
    (s.issueVar [o.ra, o.rb] [o.rd]
      (let a := s.r o.ra
       let n := s.r o.rb
       if n = 0 then .next ((s.resVar o.rd 0).adv o.st)
       else
         match s.objOf a.toNat n.toNat with
         | none => .next (s.trapS 7 3 a)
         | some (h, _) => .next ((s.park (.iclk o.rd h a n) o.st).iclkWait o.rd h a n)))

/-- iulk (R339): with ra and rb both s0 it removes every entry. -/
def execIulk (o : Rab) (s : State) : Res :=
  s.mainOnly
    (s.issue [o.ra, o.rb] none
      (let a := (s.r o.ra).toNat
       let n := (s.r o.rb).toNat
       let gone : Word × Word → Bool := fun x =>
         (o.ra == 0 && o.rb == 0) || (decide (a ≤ x.1.toNat) && decide (x.1.toNat + x.2.toNat ≤ a + n))
       .next ((s.modMe (fun c => { c with locks := c.locks.filter (fun x => !gone x) })).adv o.st)))

/-! ## tlbi and caps (R340, R136) -/

/-- The TLB entries that a tlbi of a task discards. -/
def TlbEnt.discarded (e : TlbEnt) (range : Option (Nat × Nat)) (g : Bool) (root : Nat) : Bool :=
  (e.ptroot == root || (g && bitOf e.leaf 5)) &&
    (match range with
     | none => true
     | some (a, n) => decide (0 < n) && decide (e.va < a + n) && decide (a < e.va + e.size))

/-- The virtual addresses of a command's accesses that are translated and still to be performed: the destinations of the iteration in progress,
its writes, and what a block's quantiser holds. -/
def Cmd.pendingVas (m : Cmd) : List Word :=
  (m.todo.map (fun e => e.dsts.map Dst.va)).flatten ++ m.wr.map WEnt.va ++
    (m.blk.map (fun b => [b.dst.va, b.at_.codeVa])).flatten ++ m.opens.map OpenTile.va

/-- The virtual address of the access in progress that holds an agent. -/
def holdVa : Hold → List Word
  | .sc a => [a.va]
  | .waita w => [w.va]
  | .none => [] | .xfence _ _ => [] | .sleepu _ _ => [] | .yield _ => [] | .svc _ _ => [] | .bbar _ => []
  | .remote _ => [] | .iclk _ _ _ _ => [] | .spawn _ _ => []

/-- The virtual addresses of a context's accesses that are translated and still to be performed (R136): those queued, held, of running
commands, and of requests to other devices. -/
def State.pendingVas (s : State) (cid : Nat) : List Word :=
  let c := s.ctx cid
  let trap := (s.core (cid / 2)).trap
  c.path.loads.map LdEnt.va ++ c.path.stores.map StEnt.va ++ (c.eng.wq.map (fun q => q.2.map WEnt.va)).flatten ++
    (c.eng.cmds.map Cmd.pendingVas).flatten ++ holdVa c.sc.hold ++ (if trap.serving = some cid then holdVa trap.sc.hold else []) ++
    (s.net.reqs.filter (fun x => x.2.cid == cid && x.2.kind != .notice)).map (fun x => x.2.va)

/-- A tlbi covers an address of a context: the task's page table, or an entry of the core that it discards (R340). -/
def State.covers (s : State) (range : Option (Nat × Nat)) (g : Bool) (root cid : Nat) (va : Word) : Bool :=
  let r := s.ptroot (s.ctx cid).launch
  let z := s.pageSize cid va.toNat
  let page : TlbEnt := { va := va.toNat / z * z, size := z, leaf := 0, ptroot := r }
  page.discarded range false root || (s.core (cid / 2)).tlb.any (fun e => e.discarded range g root && e.hits r va.toNat)

/-- Some access that a tlbi covers is translated and still to be performed (log entry 61). -/
def State.usesOld (s : State) (range : Option (Nat × Nat)) (g : Bool) (root : Nat) : Bool :=
  s.ctxs.any (fun x => (s.pendingVas x.1).any (s.covers range g root x.1))

/-- Discards entries on every core. -/
def State.dropTlb (s : State) (bad : TlbEnt → Bool) : State :=
  { s with cores := s.cores.map (fun x => (x.1, { x.2 with tlb := x.2.tlb.filter (fun e => !bad e) })) }

/-- Discards the pre-translations of a page table (R137, R340): they are made anew. -/
def State.dropPre (s : State) (root : Nat) : State :=
  { s with ctxs := s.ctxs.map (fun x =>
      (x.1, if s.ptroot x.2.launch = root then x.2.modEng (fun g => g.mapCmds (fun m => { m with pre := [] })) else x.2)) }

/-- tlbi (R340, R136): a release at .dev, then S waits until no access that used a discarded translation is still to be
performed. -/
def execTlbi (o : TlbiF) (s : State) : Res :=
  s.mainOnly
    (let srcs := match o.range with | some (a, b) => [a, b] | none => []
     s.issue srcs none
       (if o.g && !s.me.isSys then .next (s.trapS 7 0 0)
        else
          s.whenDrained true
            (let s := s.wbAll s.myCore
             let rg := o.range.map (fun x => ((s.r x.1).toNat, (s.r x.2).toNat))
             let root := s.ptroot s.me.launch
             if s.usesOld rg o.g root then .next s
             else .next (((s.dropTlb (fun e => e.discarded rg o.g root)).dropPre root).adv o.st))))

/-- caps (R340). -/
def execCaps (o : R2) (s : State) : Res :=
  s.mainOnly
    (let n := (s.r o.ra).toNat
     s.resultVar o.st [o.ra] o.rd (if n < 16 then s.variant.caps n else 0))

end Sys2Proof.Machine
end

