-- ==== Sys2Proof/Machine/SchedEvents.lean ====
section
/-! DEFINITION. The scheduler's events (R75-R81, R85): dispatch, aging, tokens, reserving, the completion of a save with the
restore that may follow it (R231-R238), the start of a handler (R216), and the firmware's default handlers (R217). -/

namespace Sys2Proof.Machine

/-! ## Restoring an image (R231, R233, R234) -/

/-- Puts the bytes read from an address on into the granule of the weight store whose source starts at `src` (R231). -/
def Parts.refill (q : Parts) (g src a : Nat) (bs : List Byte) : Parts :=
  let mine := (List.range bs.length).filter (fun i => decide (src ≤ a + i) && decide (a + i < src + 4096))
  { q with wst := mine.foldl (fun m i => Mem.set m (4096 * g + (a + i - src)) ((bs[i]?).getD 0)) q.wst }

/-- The source of a clean granule of a context. -/
def Ctx.sourceOf (c : Ctx) (g : Nat) : Nat := ((Map.find c.parts.wstW g).join.getD 0).toNat

/-- Refetches the aligned 32 bytes at an address for a clean granule, through the launch page table: at once, or by a request to another
device. A fault in the refetch ends the task fatally with that cause (R231). -/
def State.refetchUnit (s : State) (cid g a : Nat) : State :=
  let pc := (s.ctx cid).sc.pc
  if (s.ctx cid).task.isNone then s
  else
    match s.spacePlace cid [] .eread 0 a 32 with
    | .error (.fault c _ _) => s.fatal cid c pc
    | .error (.need _ _ _ _) => s
    | .error .wait => s
    | .ok p =>
      match p.dev? with
      | some (dev, pa, key) => s.send dev key (.load pa 32) ⟨cid, dev, .refetch g, word a, pc, 0, 0⟩
      | none =>
        if s.poisoned p 32 then s.fatal cid 0x0B pc
        else
          let bs := s.rd (s.ctx cid).launch p 32
          s.modCtx cid (fun x => x.modParts (fun q => q.refill g (x.sourceOf g) a bs))

/-- Refetches the clean granules of a restored context (R231). -/
def State.refetch (cid : Nat) : List (Nat × Option Word) → State → State
  | [], s => s
  | (_, none) :: gs, s => State.refetch cid gs s
  | (g, some va) :: gs, s =>
    let first := va.toNat / 32
    let n := (va.toNat + 4095) / 32 - first + 1
    let s := s.modCtx cid (fun x => x.modParts (fun q => { q with wst := Mem.clear q.wst (4096 * g) 4096 }))
    State.refetch cid gs ((List.range n).foldl (fun s i => s.refetchUnit cid g ((first + i) * 32 % 2 ^ 64)) s)

/-- A refetch of the context awaits its answer. -/
def State.refetching (s : State) (cid : Nat) : Bool :=
  s.net.reqs.any (fun x => x.2.cid == cid && RemKind.isRefetch x.2.kind)

/-- A restored context stands frozen until its refetches are answered; it then goes on, first with the causes that its image held. -/
def State.settleRefetch (s : State) (cid : Nat) : State :=
  s.modCtx cid (fun c => c.modTrap (fun t =>
    { t with phase := if s.refetching cid then .frozen else if t.causes = [] then .none else .freezing }))

/-- Requests the entries of a lock list again, in order (R234): kept while the core's 32 KiB have room and the range still lies in a
registered, unrevoked object. -/
def State.relockAll (cid : Nat) : List (Word × Word) → State → State
  | [], s => s
  | x :: xs, s =>
    let a := x.1.toNat
    let n := x.2.toNat
    let room := decide ((s.lockedOf (cid / 2)).length + (s.newUnits (cid / 2) a n).length ≤ 128)
    let there := (s.objOf a n).isSome
    State.relockAll cid xs (if room && there then s.modCtx cid (fun c => { c with locks := c.locks ++ [x] }) else s)

/-- The re-request of the lock list, reported in ILOCK (R234, R342). -/
def State.relock (s : State) (cid : Nat) : State :=
  let want := (s.ctx cid).locks
  let s := State.relockAll cid want (s.modCtx cid (fun c => { c with locks := [] }))
  let kept := (s.ctx cid).locks.length
  s.modCtx cid (fun c => c.modSys (fun y => { y with ilock := word (2 ^ 31 + (want.length - kept) * 2 ^ 16 + kept * 2 ^ 8) }))

/-- Gives a record its context: a start, or a restore with its refetches and locks (R69, R233). -/
def State.placeTask (s : State) (e cid : Nat) (member : Bool) : State :=
  let saved := (Map.find s.images e).isSome
  let s := s.place e cid member
  if saved && (s.ctx cid).task.isSome then
    let s := s.refetch cid (s.ctx cid).parts.wstW
    if (s.ctx cid).task.isSome then (s.relock cid).settleRefetch cid else s
  else s

/-! ## Bunches (R78, R110, R238) -/

/-- Entries in the order of their sequence numbers. -/
def addByNum (x : Nat × Entry) : List (Nat × Entry) → List (Nat × Entry)
  | [] => [x]
  | y :: ys => if x.2.num < y.2.num then x :: y :: ys else y :: addByNum x ys

/-- The members of a bunch that are ready to be placed together, in order of sequence number, if they are complete: the saved ones
once all of them are ready (R238), else as many fresh records as BMAKE's count (R78, R110). -/
def State.bunchGroup (s : State) (h : Nat) : List (Nat × Entry) :=
  match s.bunch h with
  | none => []
  | some b =>
    let saved := s.savedMembers h
    let of : (Nat → Entry → Bool) → List (Nat × Entry) := fun ok =>
      (s.sched.store.filter (fun x => x.2.st == .ready && x.2.hdr.isSome && ok x.1 x.2)).foldl (fun l x => addByNum x l) []
    if b.members ≠ [] then []
    else if saved ≠ [] then
      let g := of (fun e _ => saved.contains e)
      if g.length = saved.length then g else []
    else
      let g := of (fun e v => v.record.bunch == h && (Map.find s.images e).isNone)
      if b.count ≤ g.length then g.take b.count else []

/-- The context of member i on a cluster (R78). -/
def memberCid (cluster i : Nat) : Nat := 2 * (4 * cluster + i % 4) + i / 4

/-- The members fit on a cluster's cores (R77). -/
def State.groupFits (s : State) (g : List (Nat × Entry)) (cluster : Nat) : Bool :=
  let hdr : Nat → Header := fun i => match g[i]? with | some x => x.2.hdr.getD .zero | none => .zero
  (List.range 4).all (fun j =>
    let core := 4 * cluster + j
    s.variant.hasCore core && fitsWith core (hdr j) (hdr (j + 4))) &&
    (List.range g.length).all (fun i =>
      match g[i]? with
      | some x => s.capable x.2.record.qreq (4 * cluster + i % 4)
      | none => true)

/-- No context of the cluster holds a task, and no mark of another record holds it off (R78, R79). -/
def State.clusterFree (s : State) (g : List (Nat × Entry)) (cluster : Nat) : Bool :=
  (List.range 8).all (fun i => (s.ctx (8 * cluster + i)).task.isNone) &&
    !s.sched.marks.any (fun m => m.2.2 / 4 == cluster && !g.any (fun x => x.1 == m.2.1))

/-- The cluster's memory is scrubbed at the placement (R107), or written from the image (R238). -/
def State.loadClus (s : State) (g : List (Nat × Entry)) (cluster : Nat) : State :=
  let im := g.findSome? (fun x =>
    match Map.find s.images x.1 with
    | some im => if im.clus ≠ [] ∨ im.clusW ≠ [] then some im else none
    | none => none)
  let kept := s.mem.clus.filter (fun c => decide (c.1 / 2 ^ 26 ≠ cluster))
  let keptW := s.mem.clusW.filter (fun w => decide (w / 2 ^ 14 ≠ cluster))
  match im with
  | none => { s with mem := { s.mem with clus := kept, clusW := keptW } }
  | some im =>
    { s with mem := { s.mem with
        clus := im.clus.foldl (fun m c => Mem.set m (bigAddr cluster c.1) c.2) kept
        clusW := im.clusW.foldl (fun l w => insertNat (cluster * 2 ^ 14 + w) l) keptW } }

/-- Places a bunch's members together on a cluster (R78): they are the members until it dissolves, and an arrival that a restored
member made in the open generation stands (R111, R436). -/
def State.placeBunch (s : State) (h : Nat) (g : List (Nat × Entry)) (cluster : Nat) : State :=
  let cids := (List.range g.length).map (memberCid cluster)
  let s := s.loadClus g cluster
  let s := (g.zip cids).foldl (fun s x => s.placeTask x.1.1 x.2 true) s
  match s.bunch h with
  | none => s
  | some b =>
    let live := cids.filter (fun c => match (s.ctx c).task with | some t => t.member && t.bunch == h | none => false)
    let came := live.filter (fun c => (s.ctx c).sc.hold == .bbar b.gen)
    if live = [] then s
    else s.settleBunch h { b with placed := some cluster, members := live, arrived := came }

/-! ## DISPATCH (R76, R78) -/

/-- What a dispatcher may give a context: a single record, or a bunch with the cluster it goes to. -/
inductive Pick
  | one (e : Nat) (v : Entry)
  | bunch (h : Nat) (g : List (Nat × Entry)) (v : Entry)
  deriving DecidableEq, Repr

/-- The entry by which a choice is ordered (R76): for a bunch, the one of its members that precedes the others. -/
def Pick.key : Pick → Entry
  | .one _ v => v
  | .bunch _ _ v => v

/-- The bunch that may be placed on the cluster of a context and would give the context a member. -/
def State.bunchPick (s : State) (cid h : Nat) : Option Pick :=
  let g := s.bunchGroup h
  let cluster := clusterOf (cid / 2)
  match g with
  | [] => none
  | x :: xs =>
    if (List.range g.length).any (fun i => memberCid cluster i == cid) && s.clusterFree g cluster && s.groupFits g cluster then
      some (.bunch h g (xs.foldl (fun b y => if s.precedes y.2 b then y.2 else b) x.2))
    else none

/-- The choice for a free context (R76): the newcomer to which a pre-emption offers it first (R85), else the record or bunch that
precedes the others. -/
def State.pick (s : State) (cid : Nat) : Option Pick :=
  let singles := (s.sched.store.filter (fun x => s.canPlace x.1 x.2 cid)).map (fun x => Pick.one x.1 x.2)
  let bunches := s.sched.bunches.filterMap (fun x => s.bunchPick cid x.1)
  let best := (singles ++ bunches).foldl (fun b p =>
    match b with
    | none => some p
    | some q => if s.precedes p.key q.key then some p else b) none
  match Map.find s.sched.offers cid with
  | none => best
  | some n =>
    match s.entry n with
    | none => best
    | some v =>
      if s.canPlace n v cid then some (.one n v)
      -- the other victims of the newcomer's pre-emption still hold their contexts: this one is kept for it
      else if v.st = .ready ∧ s.sched.preempts.any (fun p => p.newcomer == n) then none
      else best

/-- The free contexts of a chiplet in the order of R76. -/
def State.freeCids (s : State) (pos : Nat) : List Nat :=
  ((List.range 64).map (fun i => 64 * pos + i)).filter (fun cid => s.isFree cid)

/-- Places a choice. -/
def State.placePick (s : State) (cid : Nat) : Pick → State
  | .one e _ => s.placeTask e cid false
  | .bunch h g _ => s.placeBunch h g (clusterOf (cid / 2))

/-- DISPATCH (R76): a chiplet's dispatcher fills the first free context for which there is a record. -/
def execDispatch (chiplet : Nat) (s : State) : Res :=
  match (s.freeCids chiplet).findSome? (fun cid => (s.pick cid).map (fun p => (cid, p))) with
  | none => .next s
  | some (cid, p) => .next (s.placePick cid p)

/-! ## Aging, tokens and reserving (R75, R79, R81) -/

/-- The priority of a record before aging (R75). -/
def State.basePri (s : State) (v : Entry) : Nat := min v.record.pri (s.queue v.record.queue).prio

/-- An aging step of a ready record is due: its priority has risen a level since the last one (R75). -/
def State.ageDue (s : State) (v : Entry) : Bool :=
  v.st == .ready && decide (v.aged < (s.clk - v.since) / msClk) && decide (s.basePri v + v.aged < 7)

/-- Entries in the order of R76. -/
def State.addByPri (s : State) (x : Nat × Entry) : List (Nat × Entry) → List (Nat × Entry)
  | [] => [x]
  | y :: ys => if s.precedes x.2 y.2 then x :: y :: ys else y :: s.addByPri x ys

/-- The ready entries in the order of R76. -/
def State.readyList (s : State) : List (Nat × Entry) :=
  (s.sched.store.filter (fun x => x.2.st == .ready)).foldl (fun l x => s.addByPri x l) []

/-- The newcomers of a clk are evaluated one at a time, in the order of R76 (R80); the aging steps that are due are taken with it. -/
def State.evaluate (s : State) (es : List (Nat × Entry)) : State :=
  let aged := s.modSched (fun q =>
    { q with store := q.store.map (fun x => if s.ageDue x.2 then (x.1, { x.2 with aged := (s.clk - x.2.since) / msClk }) else x) })
  es.foldl (fun s x => s.decision x.1) aged

/-- AGING_STEP (R75, R80): the priority has risen one level; the record may be a newcomer. Of several that are due at once, those that
precede it come first. -/
def execAgingStep (e : Nat) (s : State) : Res :=
  match s.entry e with
  | none => .next s
  | some v =>
    if s.ageDue v && !s.sched.store.any (fun x => x.1 != e && s.ageDue x.2 && s.precedes x.2 v) then
      .next ((s.setEntry e { v with aged := v.aged + 1 }).decision e)
    else .next s

/-- The aging steps that are due on a clk. -/
def State.ageNow (s : State) : State :=
  let es := s.readyList.filter (fun x => s.ageDue x.2)
  if es = [] then s else s.evaluate es

/-- TOK of a queue after a tick (R81). -/
def Queue.tick (q : Queue) : Queue := { q with tok := min q.cap (q.tok + q.rate) }

/-- TOKEN_TICK (R81): at each millisecond every queue gains its tokens; each newcomer is then evaluated (R80). -/
def execTokenTick (s : State) : Res :=
  if s.clk / msClk ≤ s.sched.ticks then .next s
  else
    let s1 := s.modSched (fun q => { q with ticks := q.ticks + 1, queues := q.queues.map (fun x => (x.1, x.2.tick)) })
    .next (s1.evaluate s1.readyList)

/-- The group of records for which an entry would reserve: its complete bunch, or itself (R79). -/
def State.reserveGroup (s : State) (e : Nat) (v : Entry) : List (Nat × Entry) :=
  if s.groupOf e v = 0 then [(e, v)]
  else
    let g := s.bunchGroup (s.groupOf e v)
    if g.any (fun x => x.1 == e) then g else []

/-- The first core of a chiplet that could hold the record alone, or the first core of the first such cluster. -/
def State.reserveCore (s : State) (e : Nat) (v : Entry) (g : List (Nat × Entry)) (pos : Nat) : Option Nat :=
  if s.groupOf e v = 0 then
    ((List.range 32).map (fun i => 32 * pos + i)).find? (fun k =>
      s.variant.hasCore k && s.capable v.record.qreq k && fitsWith k (v.hdr.getD .zero) .zero)
  else (((List.range 8).map (fun i => 8 * pos + i)).find? (fun cl => s.groupFits g cl)).map (fun cl => 4 * cl)

/-- RESERVING (R79): a record that has been ready for 16 ms, or a bunch whose last member has, marks the lowest core or cluster that
could hold it alone, on the lowest chiplet that has one and holds no mark; without one it waits. -/
def execReserving (entry : Nat) (s : State) : Res :=
  match s.entry entry with
  | none => .next s
  | some v =>
    let g := s.reserveGroup entry v
    let last := g.foldl (fun a x => max a x.2.since) 0
    if v.st ≠ .ready ∨ v.hdr.isNone ∨ v.resv ∨ g = [] ∨ s.clk < last + 16 * msClk ∨ g.any (fun x => x.2.resv) then .next s
    else
      match (List.range 8).findSome? (fun pos =>
          if (Map.find s.sched.marks pos).isSome then none else (s.reserveCore entry v g pos).map (fun k => (pos, k))) with
      | none => .next s
      | some (pos, k) =>
        .next ((s.modSched (fun q => { q with marks := Map.put q.marks pos (entry, k) })).setEntry entry { v with resv := true })

/-! ## SAVE_COMPLETE (R85, R237, R238) -/

/-- The first free class-Q context where a migrating task fits (R237). -/
def State.migTarget (s : State) (v : Entry) : Option Nat :=
  (List.range 256).find? (fun cid => s.isFree cid && classQ (cid / 2) && s.fits (v.hdr.getD .zero) cid)

/-- The first class-Q cluster for a migrating bunch (R238). -/
def State.migCluster (s : State) (g : List (Nat × Entry)) : Option Nat :=
  (List.range 32).find? (fun cl => s.groupFits g cl && (List.range 8).all (fun i => (s.ctx (8 * cl + i)).task.isNone))

/-- A task that a migration restores keeps the priority it was dispatched with (R75). -/
def State.keepPri (s : State) (old : List (Nat × Entry)) : State :=
  old.foldl (fun s x => s.modEntry x.1 (fun v => { v with prio := x.2.prio })) s

/-- The header is written last, and makes the image complete (R233). -/
def State.sealImage (s : State) (e : Nat) : State :=
  match s.entry e, Map.find s.images e with
  | some v, some im => { s with images := Map.put s.images e { im with hdr := some (im.header v.launch) } }
  | some _, none => s
  | none, _ => s

/-- The context that the image of an entry still holds. -/
def State.huskOf (s : State) (e : Nat) : Option Nat :=
  (s.ctxs.find? (fun x => x.2.entry == some e)).map Prod.fst

/-- The image is complete, and releases its context, which a pre-emption offers to its newcomer (R85, R233). -/
def State.finishSave (s : State) (e : Nat) : State :=
  let s := (s.modEntry e (fun v => { v with saveDone := true })).sealImage e
  match s.huskOf e with
  | some cid => (s.vacate cid).victimGone e cid
  | none => s

/-- A complete image of a task alone: a migration restores it at once where a class-Q context is free, else the record is ready again
(R85, R237). -/
def State.savedOne (s : State) (e : Nat) (v : Entry) (reason : Nat) : State :=
  if reason = 1 then
    match s.migTarget v with
    | some cid => (s.placeTask e cid false).keepPri [(e, v)]
    | none => s.ready e
  else s.ready e

/-- The complete images of a bunch (R238): with the cluster memory in it, the header of member 0's image is written last. -/
def State.savedBunch (s : State) (h : Nat) (mig : Bool) : State :=
  let es := s.savedMembers h
  let s := es.foldl State.sealImage s
  let g := (s.sched.store.filter (fun x => es.contains x.1)).foldl (fun l x => addByNum x l) []
  match (if mig then s.migCluster g else none) with
  | some cl => (s.placeBunch h g cl).keepPri g
  | none => es.foldl (fun s e => s.ready e) s

/-- A bunch has members that hold contexts. -/
def State.bunchHeld (s : State) (h : Nat) : Bool := match s.bunch h with | some b => !b.members.isEmpty | none => false

/-- A saved bunch goes on once no member holds its context and every image is complete (R238). -/
def State.settleSaved (s : State) (h : Nat) : State :=
  let es := s.savedMembers h
  let done := es.all (fun e => match s.entry e with | some x => x.st == .saved && x.saveDone | none => false)
  let mig := es.any (fun e => match Map.find s.images e with | some i => i.reason == 1 | none => false)
  if es = [] || s.bunchHeld h || !done then s else s.savedBunch h mig

/-- Member 0's image of a bunch is complete only with the cluster memory, which waits until every member has stopped (R238). -/
def State.awaitsClus (s : State) (im : Saved) : Bool :=
  match im.ctx.task with
  | none => false
  | some t =>
    t.member && s.bunchHeld t.bunch &&
      (match s.bunch t.bunch with | some b => b.members.all (fun m => decide (im.index < memberIdx m)) | none => false) &&
      (s.savedMembers t.bunch).all (fun e => match Map.find s.images e with | some i => decide (im.index ≤ i.index) | none => true)

/-- SAVE_COMPLETE (R85, R233, R237, R238): an image is complete, and its record is ready again, or restored by its migration, a member's
once that of its whole bunch is. -/
def execSaveComplete (entry : Nat) (s : State) : Res :=
  match s.entry entry, Map.find s.images entry with
  | some v, some im =>
    if v.st ≠ .saved || v.saveDone || s.awaitsClus im then .next s
    else
      let t := s.finishSave entry
      match im.ctx.task with
      | none => .next (t.ready entry)
      | some k => if k.member then .next (t.settleSaved k.bunch) else .next (t.savedOne entry { v with saveDone := true } im.reason)
  | some _, none => .next s
  | none, _ => .next s

/-! ## HANDLER_START (R216) -/

/-- Context 0 raised its cause on the same clk and is served first (R216). -/
def State.yieldsTo (s : State) (cid : Nat) : Bool :=
  let o := (s.ctx (cid - 1)).trap
  cid % 2 == 1 && (o.phase == .freezing || o.phase == .migrating) && o.frozenAt == (s.ctx cid).trap.frozenAt

/-- HANDLER_START (R216): the context at the cursor has frozen and its trap core is free. -/
def execHandlerStart (s : State) : Res :=
  let cid := s.cur.cid
  if s.stopped cid && (s.core (cid / 2)).trap.serving.isNone && !s.yieldsTo cid then .next (s.startHandler cid) else .next s

/-! ## The default handlers (R217) -/

/-- The promise that a missed-promise frame's SLEEPU names: its clk and channel. -/
def State.missedPromise (s : State) (cid : Nat) (f : Frame) : Nat × Nat :=
  let p := (s.ctx cid).sc.reg s.clk (bitsOf f.iword 43 38)
  (bitsOf p 63 4, f.detail)

/-- The action of the firmware's handler for the frame's cause, and whether it resumes after the instruction. A missed promise is
waited for: none while the work up to the promised request is still to complete. -/
def State.defaultAction (s : State) (cid : Nat) (f : Frame) : Option (Nat × Bool) :=
  if f.code = 3 then some (2, false)
  else if f.code = 9 then
    let p := s.missedPromise cid f
    if s.late cid p.2 p.1 then none else some (0, true)
  else if f.code = 0x0F then some (1, false)
  else some (3, false)

/-- One step of the firmware's default handler on a trap core (R217, log entry 7): it sets TACT and SSW and performs TRET. -/
def State.firmwareStep (s : State) (core : Nat) : State :=
  match (s.core core).trap.serving with
  | none => s
  | some cid =>
    match (s.ctx cid).trap.frame with
    | none => s
    | some f =>
      match s.defaultAction cid f with
      | none => s
      | some (act, skip) =>
        let s := s.modCore core (fun k => { k with trap := { k.trap with tact := word act } })
        let s := s.modCtx cid (fun c => c.modTrap (fun t => { t with ssw := if skip then 1 else 0 }))
        -- MISSES saturates (R342)
        let counted := s.modCtx cid (fun c => c.modSys (fun y => { y with misses := min 0xFFFFFFFF (y.misses + 1) }))
        let t := if f.code = 9 then counted.tret core else s.tret core
        -- a TRET that waits has not been performed
        if (t.core core).trap.serving = some cid then s.tret core else t

end Sys2Proof.Machine
end

