-- ==== Sys2Proof/Machine/Launches.lean ====
section
/-! DEFINITION. Launches from descriptor to completion record (R49-R57, R66, R136, R321, R366), and what a device reset leaves
(R30), which the stop of R37 needs too. -/

namespace Sys2Proof.Machine

/-! ## A device reset (R30, R31) -/

/-- The device with everything cleared that does not outlive a device reset: the always-on domain, the SPI NOR, the fuses and the flash
tier stay, and so does what lies outside the device. Slot 0 gets the random key of the new start (R58). A COMMIT that verifies or writes is
dropped and leaves the SPI NOR as it was: R32 states a broken image for a power loss only (log entry 60). -/
def State.cleared (s : State) (starts : Nat) : State :=
  let z := State.reset
  let b := { s.boot with sver := 0, busy := false, writing := false, stage := 0, staging := [], running := [], image := [], fwSince := 0,
                         rstWait := none, starts := starts, off := false, therm := none }
  { z with
    variant := s.variant, agenda := s.agenda, cur := s.cur, free := s.free, boot := b
    hports := s.hports.map (fun x => (x.1, { PortSt.fresh with cxl := x.2.cxl }))
    host := { s.host with exports := [], codeKeys := [], objs := [], nextBase := z.host.nextBase }
    net := { z.net with sent := s.net.sent, nextReq := s.net.nextReq }
    mem := { MemSt.fresh starts with flash := s.mem.flash } }

/-- Records a failure in BOOT.WHY (R33). -/
def Boot.why (b : Boot) (stage reason detail : Nat) : Boot :=
  { b with whyV := true, whyStage := stage, whyReason := reason, whyDetail := detail }

/-- A device reset: minimal mode after three failed starts or on request, else a new start attempt (R30). -/
def State.restart (s : State) : State :=
  let s := s.cleared (s.boot.starts + 1)
  let b := s.boot
  if 3 ≤ b.tries ∨ b.fminPending then { s with boot := { b with fminPending := false, stage := 15 } }
  else
    let b := if b.attemptOpen then b.why b.lastStage 0x0D 0 else b
    { s with boot := { b with tries := b.tries + 1, attemptOpen := true, lastStage := 0, stage := 0 } }

/-! ## Completion records (R54-R57) -/

/-- Words 0 to 3 of a completion record (R55). -/
def recordWords (tag : Word) (fcnt core cause status : Nat) (fa : Word) (time : Nat) : List Word :=
  [tag, word (fcnt * 2 ^ 48 + core * 2 ^ 40 + cause * 2 ^ 24 + status), fa, word (2 ^ 63 + time % 2 ^ 63)]

/-- Writes a completion record, then raises the vector unless NOINT is set (R55, R57). -/
def State.writeRecord (s : State) (port caddr : Nat) (ws : List Word) (noint : Bool) (vec : Nat) : State :=
  { s with host := { s.host with
      mem := Mem.write s.host.mem (hostAddr port caddr) (ws.map (fun w => leBytes 8 w.toNat)).flatten
      msix := if noint then s.host.msix else s.host.msix ++ [(port, vec)] } }

/-- The record of a completed launch. CORE is 0xFF where there was no fatal fault. -/
def Launch.words (l : Launch) : List Word :=
  recordWords l.tag l.fcnt (if l.fcnt = 0 then 0xFF else l.fcore) l.fcause (l.stat.getD 0) l.faddr l.doneAt

/-- A request that R54 waits for: a store, an atomic or an engine write. -/
def RemKind.writes : RemKind → Bool
  | .store => true | .atomic _ _ _ _ => true | .vamo _ _ _ _ _ _ _ _ => true | .engineStore _ _ _ => true | .kput => true
  | .load => false | .waita _ _ _ _ => false | .spawn _ => false | .pload _ _ _ => false | .notice => false
  | .tstb _ _ _ => false | .engine _ _ _ => false | .refetch _ => false

/-- Every write of the launch is performed (R54). -/
def State.settled (s : State) (l : Nat) : Bool := s.net.reqs.all (fun x => x.2.launch != l || !x.2.kind.writes)

/-- The chip-scratchpad granules of a launch have no owner any more (R120). -/
def State.dropTags (s : State) (l : Nat) : State :=
  { s with mem := { s.mem with tags := s.mem.tags.filter (fun t => t.2 != l) } }

/-- The ring entries of a launch are free (R366). -/
def State.dropRings (s : State) (l : Nat) : State :=
  { s with colls := s.colls.map (fun c => (c.1, { c.2 with rings := c.2.rings.filter (fun r => r.2.launch != l) })) }

/-- What goes with a completed launch: its owner tags (R120), its mappings (R66), its bunch handles (R321), its ring entries (R366), and, where it was the last
one under its PTROOT, that root's TLB entries that are not global (R136). -/
def State.dropLaunch (s : State) (l : Nat) : State :=
  match s.launch l with
  | none => s
  | some v =>
    let s := s.modSched (fun q => { q with launches := Map.del q.launches l, bunches := q.bunches.filter (fun b => b.2.launch != l) })
    let s := (s.dropRings l).dropTags l
    if s.sched.launches.any (fun x => x.2.ptroot == v.ptroot) then s
    else s.dropTlb (fun e => e.ptroot == v.ptroot && !bitOf e.leaf 5)

/-- The completion record of a launch that has completed and whose writes are performed. -/
def State.complete1 (s : State) (l : Nat) : State :=
  match s.launch l with
  | none => s
  | some v =>
    if v.done && s.settled l then (s.writeRecord v.port v.caddr v.words v.noint v.vec).dropLaunch l else s

/-- The stop of R37 is over once every launch has its record: the record in BOOT.WHY, then the reset. -/
def State.thermEnd (s : State) : State :=
  match s.boot.therm with
  | none => s
  | some die =>
    if s.sched.launches = [] then
      let b := { s.boot.why s.boot.stage 0x0C die with attemptOpen := false }
      let t := State.restart { s with boot := b }
      { t with power := { t.power with trip := s.power.trip } }
    else s

/-- COMPLETION_RECORD_WRITE (R54-R57). -/
def execCompletionRecordWrite (launch : Nat) (s : State) : Res := .next (s.complete1 launch).thermEnd

/-- TLIM (R53): the launch's time limit has run out. -/
def execTlim (launch : Nat) (s : State) : Res :=
  match s.launch launch with
  | none => .next s
  | some v => if v.tlim ≠ 0 ∧ v.accepted + v.tlim * msClk ≤ s.clk then .next (s.abortLaunch launch 5) else .next s

/-! ## THERM (R37) -/

/-- THERM: a die reaches 110 °C (`temp`), or a supply leaves its range. Every task stops, the launches get THERM records, then the device
resets. -/
def execTherm (die : Nat) (temp : Bool) (s : State) : Res :=
  if s.boot.therm.isSome then .next s
  else
    let s := { s with power := { s.power with trip := s.power.trip || temp }, boot := { s.boot with therm := some die } }
    let ls := s.sched.launches.map Prod.fst
    let s := ls.foldl (fun s l => s.abortLaunch l 6) s
    .next (ls.foldl (fun s l => s.complete1 l) s).thermEnd

/-! ## The launch window (R49-R51) -/

/-- Descriptors published and not yet taken, modulo 2^16. -/
def ringGap (prod cons : Nat) : Nat := (prod + 65536 - cons) % 65536

/-- A write to LW.PROD (R49). -/
def State.prodWrite (s : State) (port : Nat) (v : Word) : State :=
  let p := s.hport port
  let n := bitsOf v 15 0
  if 64 < ringGap n p.cons then s.setHport port { p with ovr := true } else s.setHport port { p with prod := n }

/-- LW_PROD_WRITE (R49). -/
def execLwProdWrite (port : Nat) (v : Word) (s : State) : Res := .next (s.prodWrite port v)

/-- Word i of a descriptor (R50). -/
def descWord (d : List Byte) (i : Nat) : Word := leWord (sliceB d (8 * i) 8)

/-- The reserved fields of a descriptor and of its record are zero (R50, R68). -/
def descClean (d : List Byte) : Bool :=
  (Record.ofBytes d).clean && bitsOf (descWord d 6) 63 52 == 0 && bitsOf (descWord d 6) 11 0 == 0 && bitsOf (descWord d 7) 40 0 == 0

/-- The status with which a descriptor is rejected, if any check fails; the alignment of CADDR is checked before (R51). -/
def State.descFault (s : State) (d : List Byte) : Option Nat :=
  let r := Record.ofBytes d
  if !descClean d then some 7
  else if r.join ≠ 0 then some 7
  else if r.bunch ≠ 0 then some 7
  else if bitsOf (descWord d 6) 51 45 ≠ s.net.devid then some 7
  else if (s.slotKey r.key).isNone then some 7
  else
    match s.objAt r.code with
    | some (_, o) => if o.revoked then some 8 else none
    | none => some 8

/-- LW.CONS goes on. -/
def State.consume (s : State) (port : Nat) : State :=
  let p := s.hport port
  s.setHport port { p with cons := (p.cons + 1) % 65536 }

/-- A launch that starts from a descriptor, with its root record (R52, R72). -/
def State.startLaunch (s : State) (port : Nat) (d : List Byte) : State :=
  let l := s.sched.nextLaunch
  let w7 := descWord d 7
  let v : Launch :=
    { port := port, tag := descWord d 5, caddr := (descWord d 4).toNat, ptroot := bitsOf (descWord d 6) 51 12 * 4096,
      tlim := bitsOf w7 63 48, accepted := s.clk, vec := bitsOf w7 47 42, noint := bitOf w7 41, joins := 1, stat := none,
      done := false, doneAt := 0, fcnt := 0, fcore := 0xFF, fcause := 0, faddr := 0, maps := [] }
  let s := s.modSched (fun q => { q with launches := Map.put q.launches l v, nextLaunch := l + 1 })
  s.enter (freeIdx s.sched.store 0) (Record.ofBytes d) l

/-- The active launches of a port. -/
def State.portLaunches (s : State) (port : Nat) : Nat := (s.sched.launches.filter (fun x => x.2.port == port)).length

/-- The port may take its next descriptor: the device is READY, one is published, a launch slot and an entry are free, no stop of R37 is under
way, and port 1 has not accepted one on this clk, whose place in the queues is after port 0's (R42, R49, R72). -/
def State.mayAccept (s : State) (port : Nat) : Bool :=
  let p := s.hport port
  s.boot.stage == 7 && p.prod != p.cons && decide (s.portLaunches port < 1024) && !s.storeFull && s.boot.therm.isNone &&
    !(port == 0 && s.sched.launches.any (fun x => x.2.port == 1 && x.2.accepted == s.clk))

/-- DESCRIPTOR_ACCEPT (R51): the port of the cursor takes the descriptor at LW.CONS. -/
def execDescriptorAccept (s : State) : Res :=
  let port := s.cur.port
  let p := s.hport port
  if !s.mayAccept port then .next s
  else
    let slot := p.cons % 64
    let d := Mem.read p.ring (64 * slot) 64
    if bitsOf (descWord d 4) 4 0 ≠ 0 then
      let s := s.consume port
      .next (s.setHport port { s.hport port with misal := true, errSlot := slot })
    else
      match s.descFault d with
      | some st =>
        .next ((s.consume port).writeRecord port (descWord d 4).toNat (recordWords (descWord d 5) 0 0xFF 0 st 0 s.clk)
          (bitOf (descWord d 7) 41) (bitsOf (descWord d 7) 47 42))
      | none => .next ((s.consume port).startLaunch port d)

end Sys2Proof.Machine
end

