-- ==== Sys2Proof/Machine/EngineEvents.lean ====
section
/-! DEFINITION. The decode of engine instructions by S (R92, R93, R264) and what the engines do between the start and the end of
their commands (R106, R138, R173, R177, R369-R371, R433, R434). -/

namespace Sys2Proof.Machine

/-! ## ENGINE_INSTRUCTION_DECODE (R92, R93, R264) -/

/-- The stream of a TAG (R261). -/
def tagAgent (w : Word) : Option Agent :=
  match bitsOf w 63 61 with
  | 1 => some .C | 2 => some .M | 3 => some .R | 4 => some .K
  | _ => none

/-- The register fields ra, rb and rc of an engine word: EI has ra only (R272, R273). -/
def engRegs (w : Word) : Nat × Nat × Nat :=
  let ei := bitsOf w 63 61 != 4 && decide (bitsOf w 57 50 ≤ 2)
  (bitsOf w 23 18, if ei then 0 else bitsOf w 17 12, if ei then 0 else bitsOf w 11 6)

/-- rc names a promise destination: COPY, COPYZ, GATHER, SCATTER and DECOMP (R96, R272). -/
def promises (w : Word) : Bool :=
  bitsOf w 63 61 == 1 && decide (3 ≤ bitsOf w 57 50) && decide (bitsOf w 57 50 ≤ 7)

/-- The word's opcode belongs to class Q (R264, R383). -/
def classQOp (w : Word) : Bool := bitsOf w 63 61 == 2 && decide (8 ≤ bitsOf w 57 50) && decide (bitsOf w 57 50 ≤ 0x0B)

/-- The word is mfmt.ctl. -/
def isMctl (w : Word) : Bool := bitsOf w 63 61 == 2 && bitsOf w 57 50 == 2 && bitsOf w 28 24 == 0

/-- Checks 3 to 6 of R264 that depend on the context, the core and the variant: the cause, or nothing. `v` is the captured ra. -/
def State.decodeCause (s : State) (w v : Word) : Option Nat :=
  let bad := isMctl w && !mctlOk v
  let chan := bitsOf w 63 61 == 1 && decide (s.me.hdr.chan ≤ bitsOf w 31 29) && decide (3 ≤ bitsOf w 57 50)
  let q := classQOp w || (isMctl w && mctlL6 v)
  if bad || chan then some 1
  else if q && !classQ s.myCore then some (if s.variant.quinces = 0 then 2 else 3)
  else if bitsOf w 63 61 == 1 && bitsOf w 57 50 == 7 && !s.variant.flash then some 2
  else none

/-- Puts an entry at the end of a stream's operand queue. -/
def State.enqueue (s : State) (a : Agent) (e : QEnt) : State :=
  s.modMe (fun c => c.modEng (fun g => g.setQ a (g.q a ++ [e])))

/-- The sources that S captures from a word. -/
def engSrcs (w : Word) : List Nat :=
  let r := engRegs w
  if promises w then [r.1, r.2.1] else [r.1, r.2.1, r.2.2]

/-- The captured entry of a word at the cursor. -/
def State.capture (s : State) (w : Word) : QEnt :=
  let r := engRegs w
  ⟨s.sca.seq, s.pc, w, s.r r.1, s.r r.2.1, if promises w then 0 else s.r r.2.2⟩

/-- ENGINE_INSTRUCTION_DECODE (R93): S captures the sources and queues the word for its stream; a promise destination becomes
pending (R96). A word that fails a check of R264 does not issue. -/
def execEngineInstructionDecode (w : Word) (s : State) : Res :=
  s.mainOnly
    (match tagAgent w, decodeMain w.toNat with
     | some a, .ok _ =>
       let rc := (engRegs w).2.2
       let go : Res :=
         let s1 := s.enqueue a (s.capture w)
         .next ((if promises w then s1.setPend rc else s1).adv (bitsOf w 60 58))
       let cause : Option Nat := s.decodeCause w (s.r (engRegs w).1)
       -- the checks of R264 but those of a captured value are made on the word alone, before it waits for its sources
       (match (if isMctl w then none else cause) with
        | some c => .next (s.trapS c 0 0)
        | none =>
          if s.held (if promises w then [rc] else []) then .next s
          else
            s.issue (engSrcs w) none
              (match cause with
               | some c => .next (s.trapS c 0 0)
               | none => go))
     | some _, .error _ => .next (s.trapS 1 0 0)
     | none, _ => .next (s.trapS 1 0 0))

/-! ## When a command may go on -/

/-- The commands of a context run: always while it is not frozen, and while it freezes, or a TRET waits for it, up to the boundary at which the
command may be stopped (R215, R433). A command that has met a fault has stopped (R138). -/
def State.mayRun (s : State) (cid : Nat) (m : Cmd) : Bool :=
  let t := (s.ctx cid).trap
  m.efault.isNone && (t.phase == .none || t.phase == .migrating || t.runOn || ((t.phase == .freezing || t.phase == .handler) && !m.mayStop))

/-- Command o of another context was there first (R106): it started earlier, or on the same clk in context 0. -/
def Cmd.first (o m : Cmd) (octx : Nat) : Bool :=
  decide (o.start < m.start) || (o.start == m.start && octx % 2 == 0)

/-- The other context of a core. -/
def otherCtx (cid : Nat) : Nat := if cid % 2 = 0 then cid + 1 else cid - 1

/-- It is the command's turn on a unit that serves both contexts (R106, R373): no earlier command of the other context runs
there, and on the matrix units none of its own context that started earlier on the other unit and names one of its tiles. -/
def State.unitTurn (s : State) (cid : Nat) (u : EUnit) (m : Cmd) : Bool :=
  let o := otherCtx cid
  let free : Bool := match s.cmd o u with
    | some x => !(s.mayRun o x && x.first m o)
    | none => true
  let tiles : EUnit → Bool := fun v => match s.cmd cid v with
    | some x => !m.waitsFor x
    | none => true
  match u with
  | .array => free && tiles .drainU
  | .drainU => free && tiles .array
  | .red => free
  | .ch _ => true
  | .coll _ => true

/-- The iteration is one whose clocks R37 withholds: MGO, DGO or MDRAIN. -/
def Cmd.matClock (m : Cmd) (u : EUnit) : Bool :=
  match u with
  | .array => m.op == 3 || m.op == 0x0B
  | .drainU => m.op == 6
  | .ch _ => false | .red => false | .coll _ => false

/-- The command stands at an iteration boundary, and nothing but R37 keeps it from going on. -/
def State.stepReady (s : State) (cid : Nat) (u : EUnit) (m : Cmd) : Bool :=
  s.portRun.isNone && s.mayRun cid m && !m.ended && m.todo.isEmpty && m.rwait.isNone && m.acks.isEmpty && s.unitTurn cid u m

/-- The command stands at an iteration boundary and may go on. -/
def State.mayStep (s : State) (cid : Nat) (u : EUnit) (m : Cmd) : Bool :=
  s.stepReady cid u m && !(s.power.withhold && m.matClock u)

/-- A core's matrix issue clock is withheld on a clk (R37): an iteration would be done on it. -/
def State.withheldAt (s : State) (core : Nat) : Bool :=
  s.power.withhold && [2 * core, 2 * core + 1].any (fun cid => [EUnit.array, EUnit.drainU].any (fun u =>
    (s.cmd cid u).any (fun m => m.matClock u && s.stepReady cid u m)))

/-- The command stops at the boundary with a cause (R138); its pre-translations go (R137). -/
def State.stopCmd (s : State) (cid : Nat) (u : EUnit) (m : Cmd) (code detail : Nat) (fa : Word) : State :=
  (s.setCmd cid u { m with efault := some ⟨code, detail, fa⟩, pre := [] }).raise cid (m.frame u code detail fa)

/-- Another device refuses a write of the iteration in progress (R127): the command stops at the boundary before the iteration. -/
def State.iterRefused (s : State) (cid : Nat) (u : EUnit) (m : Cmd) (va : Word) : State :=
  let s := s.undoIter cid u m
  match s.cmd cid u with
  | some m => s.stopCmd cid u m 7 2 va
  | none => s

/-- Requests the aligned 32 bytes that the command needs of another device (R169). -/
def State.askRemote (s : State) (cid : Nat) (u : EUnit) (m : Cmd) (dev pa key : Nat) (va : Word) : State :=
  let p := pa / 32 * 32
  (s.setCmd cid u { m with rwait := some s.reqId }).send dev key (.load p 32)
    ⟨cid, dev, .engine (unitPath u) p 32, va, m.ent.addr, m.ent.seq, 0⟩

/-- What comes of one step of a command. -/
def State.settleStep (s : State) (cid : Nat) (u : EUnit) (m : Cmd) (x : Except Stop State) : State :=
  match x with
  | .ok t => t
  | .error (.fault c d fa) => s.stopCmd cid u m c d fa
  | .error (.need dev pa key va) => s.askRemote cid u m dev pa key va
  | .error .wait => s

/-- A DGO that was restored reads its tables again (R397). -/
def State.dgoTab (s : State) (cid : Nat) (u : EUnit) (m : Cmd) : Except Stop State :=
  if u = .array ∧ m.op = 0x0B ∧ m.tab = none then do
    let t ← s.dgoTables cid m
    pure (s.setCmd cid u { m with tab := some (t.1, t.2.1), status := stElem m.status 0 t.2.2 })
  else .ok s

/-- One iteration, or one step of a collective command. -/
def State.stepCmd (s : State) (cid : Nat) (u : EUnit) : Except Stop State := do
  match s.cmd cid u with
  | none => pure s
  | some m =>
    let s ← s.dgoTab cid u m
    match s.cmd cid u with
    | none => pure s
    | some m =>
      match u with
      | .coll n => s.collStep cid n m
      | .ch _ => s.iterate cid u m
      | .array => s.iterate cid u m
      | .drainU => s.iterate cid u m
      | .red => s.iterate cid u m

/-- A failed write of a command is reported at its boundary, where the command stops (R434); otherwise it goes on as `next` says. -/
def State.reportCmd (s : State) (cid : Nat) (u : EUnit) (m : Cmd) (next : State) : State :=
  match s.reportWhere cid (fun f => f.path == unitPath u && f.seq == m.ent.seq) m.ent.w m.ent.addr with
  | some t => t.setCmd cid u { m with efault := some ⟨0x0B, 0, 0⟩, pre := [] }
  | none => next

/-- The iteration boundary of a command: a failed write of the command is reported there (R434), a fault of the next iteration
stops it (R138), else the iteration is done. The nest's generator has translated ahead (R137). -/
def State.boundary (s : State) (cid : Nat) (u : EUnit) : State :=
  match s.cmd cid u with
  | none => s
  | some m =>
    if !s.mayStep cid u m then s
    else
      let x := s.preTranslate cid u m
      let t := x.1.setCmd cid u x.2
      s.reportCmd cid u m (t.settleStep cid u x.2 (t.stepCmd cid u))

/-- ENGINE_ITERATION_BOUNDARY (R138, R215, R433, R434). -/
def execEngineIterationBoundary (cid : Nat) (u : EUnit) (s : State) : Res := .next (s.boundary cid u)

/-! ## ENGINE_COMMAND_COMPLETE (R177, R411, R433) -/

/-- A KPUT whose signal has a visibility mask signals once its writes are acknowledged (R371). -/
def Cmd.awaitsAck (m : Cmd) (u : EUnit) : Bool :=
  match u with
  | .coll _ => m.op == 4 && (match (syncOf m.ent.w).sig with | some x => x.2 != 0 | none => false)
  | .ch _ => false | .array => false | .drainU => false | .red => false

/-- A command whose last iteration is done may complete: also while its context freezes (R433), not after. -/
def State.mayEnd (s : State) (cid : Nat) (m : Cmd) : Bool :=
  let t := (s.ctx cid).trap
  m.ended && s.portRun.isNone && m.efault.isNone &&
    (t.phase != .frozen)

/-- ENGINE_COMMAND_COMPLETE: the streams of its points end, with epilogues and the combine (R411), then the visibility step, the
signal and the free unit (R177, R325). -/
def execEngineCommandComplete (cid : Nat) (u : EUnit) (s : State) : Res :=
  match s.cmd cid u with
  | none => .next s
  | some m =>
    if s.mayEnd cid m && !m.awaitsAck u then .next (State.endPoints cid u (m.points u) s) else .next s

/-- KPUT_ACK (R371): every write of the KPUT is acknowledged, and its signal fires. -/
def execKputAck (cid n : Nat) (s : State) : Res :=
  match s.cmd cid (.coll n) with
  | none => .next s
  | some m =>
    if s.mayEnd cid m && m.op == 4 && !s.putPending cid m.ent.seq then .next (s.complete cid (.coll n)) else .next s

/-! ## ENGINE_WRITE_PERFORM (R173) -/

/-- ENGINE_WRITE_PERFORM: the oldest write of a path's queue is performed at its point of coherence. -/
def execEngineWritePerform (cid path : Nat) (s : State) : Res :=
  match (s.ctx cid).eng.wqOf path with
  | [] => .next s
  | e :: es =>
    .next ((s.modCtx cid (fun c => c.modEng (fun g => { g with wq := Map.put g.wq path es }))).wrEnt cid path e)

/-! ## The collective engines' events -/

/-- READY_WORD_POLL (R182, R369): the engine reads a bucket's entry and ready word. -/
def execReadyWordPoll (cid n : Nat) (s : State) : Res :=
  match s.cmd cid (.coll n) with
  | none => .next s
  | some m =>
    if (m.op == 2 || m.op == 3) && m.turn && s.mayStep cid (.coll n) m then
      .next (s.reportCmd cid (.coll n) m (s.settleStep cid (.coll n) m (s.pollReady cid n m)))
    else .next s

/-- The command that a segment of a ring and bucket is for, at a die. -/
def State.segTarget (s : State) (die : Nat) (x : Segment) : Option (Nat × Nat × Cmd) :=
  s.ctxs.findSome? (fun c =>
      (List.range c.2.eng.coll.length).findSome? (fun n =>
        match c.2.eng.coll[n]? with
        | some m => if m.die = die ∧ m.ring = x.ring ∧ m.buckets.any (fun b => b.num == x.bucket) then some (c.1, n, m) else none
        | none => none))

/-- SEGMENT_ARRIVAL (R369, R370): a piece arrives on VC2; it is folded or written and passed on at once if its bucket has started
and its command runs, else it stays with the engine until then. -/
def execSegmentArrival (die : Nat) (x : Segment) (s : State) : Res :=
  let s := s.setColl die { s.coll die with early := (s.coll die).early ++ [x] }
  match s.segTarget die x with
  | none => .next s
  | some (cid, n, m) =>
    if s.mayStep cid (.coll n) m then
      .next (s.reportCmd cid (.coll n) m (s.settleStep cid (.coll n) m (s.collStep cid n m)))
    else .next s

end Sys2Proof.Machine
end

