-- ==== Sys2Proof/Machine/PortMgmt.lean ====
section
/-! DEFINITION. The port management instructions of the main stream (R413-R418). -/

namespace Sys2Proof.Machine

/-! ## The port hold (R414) -/

/-- A word that the port hold waits for: COPY, COPYZ, GATHER, SCATTER, DECOMP, RED, SCAN, MGO, DGO and MDRAIN. -/
def holdsPort (w : Word) : Bool :=
  let op := bitsOf w 57 50
  match bitsOf w 63 61 with
  | 1 => decide (3 ≤ op) && decide (op ≤ 7)
  | 2 => op == 3 || op == 6 || op == 0x0B
  | 3 => op == 3 || op == 4
  | _ => false

/-- Every command of the hold that S decoded earlier has completed. -/
def Engines.portFree (g : Engines) : Bool :=
  (g.qC ++ g.qM ++ g.qR).all (fun e => !holdsPort e.w) && g.cmds.all (fun m => !holdsPort m.ent.w)

/-- A port instruction: only on the main stream, after the port hold and with its slot within the partition (R90, R413). -/
def State.portOp (s : State) (slotOk : Bool) (srcs dsts : List Nat) (k : Res) : Res :=
  s.mainOnly
    (if !s.me.eng.portFree then .next s
     else s.issueVar srcs dsts (if slotOk then k else .next (s.trapS 7 1 0)))

/-- The slot is one of the task's. -/
def State.slotOk (s : State) (n : Nat) : Bool := decide (n < s.me.hdr.slots)

/-- Updates the ports of the context at the cursor. -/
def State.modMyPorts (s : State) (f : Ports → Ports) : State := s.modMe (fun c => c.modPorts f)

/-! ## PLOAD (R415) -/

/-- A slot's header is in range (R405). -/
def Slot.headerOk (l : Slot) : Bool :=
  decide (l.tsz ≤ 128) && decide (l.comb ≤ 6) && decide (l.lg ≤ 7) && decide (l.elen ≤ 8) && decide (l.blen ≤ 32)

/-- The words of a slot that PLOAD checks, by index (R282). -/
def Slot.checked (l : Slot) : List Nat := List.range l.blen ++ (List.range l.elen).map (fun i => 32 + i)

/-- The lowest checked word with a reserved op. -/
def Slot.badWord (l : Slot) : Option Nat :=
  l.checked.find? (fun n => match decodePort (l.word n) with | .ok _ => false | .error _ => true)

/-- A port fault taken at PLOAD's issue (R412). -/
def State.ploadFault (s : State) (kind slot pins point : Nat) : State :=
  s.raise s.cur.cid
    { Frame.of 0x0A kind 0 0 s.curWord s.pc with pins := pins, pslot := slot, pbind := point }

/-- PLOAD with its 704 bytes read: the checks of the image, then the slot. The binding stays. -/
def State.ploadDone (s : State) (slot : Nat) (bs : List Byte) : State :=
  let old := s.slot s.cur.cid slot
  let l : Slot := { Slot.fresh with img := Mem.write [] 0 bs, bound := old.bound }
  let s := s.setSca { s.sca with hold := .none }
  if !l.headerOk then s.ploadFault 2 slot 0 (old.bound.getD 0)
  else
    match l.badWord with
    | some n => s.ploadFault 1 slot n (old.bound.getD 0)
    | none => (s.modSlot s.cur.cid slot (fun _ => l)).go

/-- A line of PLOAD's image in the load queue: an .rlx load of 64 bytes (R415). -/
def State.ploadLine (s : State) (p : Place) (va : Word) : LdEnt :=
  { rd := 0, place := p, va := va, size := 64, sx := false, ord := .rlx, scope := .core, hint := .nh, pc := s.pc, seq := s.sca.seq, req := none }

/-- Its bytes, those of the context's earlier stores forwarded (R145). -/
def State.ploadBytes (s : State) (p : Place) (va : Word) : List Byte :=
  let bs := s.loadBytes s.cur.cid p 64 true
  (List.range 64).map (fun i => forward s.me.path.stores (s.ploadLine p va) i ((bs[i]?).getD 0))

/-- PLOAD's read from line j on, each line of 64 bytes at its own translation and as a load reads it; a line of another device is requested
and the read goes on with the answer (R169). -/
def State.ploadGo (s : State) (slot : Nat) (ea : Word) : Nat → Nat → List Byte → State
  | 0, _, acc => s.ploadDone slot acc
  | f + 1, j, acc =>
    let va := ea + word (64 * j)
    match s.xlat s.cur.cid false .load va with
    | .fault c d => (s.setSca { s.sca with hold := .none }).trapS c d va
    | .ok p =>
      match p.dev? with
      | some (dev, pa, key) => s.holdRemote dev key (.load pa 64) (.pload slot j acc) ea
      | none =>
        if s.poisoned p 64 && !(List.range 64).all (forwarded s.me.path.stores (s.ploadLine p va)) then (s.setSca { s.sca with hold := .none }).trapS 0x0B p.errDetail va
        else
          let s := ((s.noteXlat s.cur.cid va).sRead s.myCore p 64).loadL1 s.myCore p .nh true
          s.ploadGo slot ea f (j + 1) (acc ++ s.ploadBytes p va)

/-- The first fault that a line of PLOAD's image meets in translation, with its address (R415). -/
def State.ploadFaults (s : State) (ea : Word) : Option (Nat × Nat × Word) :=
  (List.range 11).findSome? (fun j =>
    match s.xlat s.cur.cid false .load (ea + word (64 * j)) with
    | .fault c d => some (c, d, ea + word (64 * j))
    | .ok _ => none)

/-- PLOAD's lines stand at the head of the load queue (R144), and none must wait for an earlier store (R145). -/
def State.ploadReady (s : State) (ea : Word) : Bool :=
  s.me.path.loads.isEmpty && (List.range 11).all (fun j =>
    let va := ea + word (64 * j)
    match s.xlat s.cur.cid false .load va with
    | .ok p => !loadBlocked s.me.path.stores (s.ploadLine p va)
    | .fault _ _ => true)

/-- pload (R415). -/
def execPload (o : PloadF) (s : State) : Res :=
  s.portOp (s.slotOk o.slot) [o.ra] []
    (let ea := s.r o.ra
     if ea.toNat % 64 ≠ 0 then .next (s.trapS 5 64 ea)
     else
       match s.ploadFaults ea with
       | some (c, d, va) => .next (s.trapS c d va)
       | none => if !s.ploadReady ea then .next s else .next ((s.park .none o.st).ploadGo o.slot ea 11 0 []))

/-! ## PBIND (R416) -/

/-- The number of a binding point (R400). -/
def pointNum : Point → Nat
  | .cin => 0 | .cout => 1 | .ma => 2 | .md => 3 | .ri => 4 | .ro => 5

/-- Nothing is bound at a point. -/
def Ports.unbind (p : Ports) (pt : Nat) : Ports :=
  { p with slots := p.slots.map (fun x => (x.1, if x.2.bound = some pt then { x.2 with bound := none } else x.2)) }

/-- A slot is bound at a point, and only there. -/
def Ports.bind (p : Ports) (slot pt : Nat) : Ports :=
  let q := p.unbind pt
  { q with slots := Map.put q.slots slot { q.slot slot with bound := some pt } }

/-- pbind (R416). -/
def execPbind (o : PbindF) (s : State) : Res :=
  s.portOp (s.slotOk o.slot) [] [] (.next ((s.modMyPorts (fun p => p.bind o.slot (pointNum o.pt))).adv o.st))

/-- pbind.u (R416). -/
def execPbindU (o : PbindUF) (s : State) : Res :=
  s.portOp true [] [] (.next ((s.modMyPorts (fun p => p.unbind (pointNum o.pt))).adv o.st))

/-! ## PPAR, PCLR and PRD (R417, R418) -/

/-- ppar (R417). -/
def execPpar (o : PparF) (s : State) : Res :=
  s.portOp (decide (s.me.hdr.slots ≠ 0)) [o.ra] []
    (.next ((s.modMyPorts (fun p => { p with par := Map.put p.par o.p (s.r o.ra) })).adv o.st))

/-- A slot after PCLR (R417): the carried registers, the history, the counts and the result are zero. -/
def Slot.clear (l : Slot) : Slot :=
  { l with carried := [], prev := [], count := 0, lanes := [], result := 0, base := 0, span := 0 }

/-- pclr (R417); with LPM also the lane-private memory of the point where the slot is bound (R408). -/
def execPclr (o : PclrF) (s : State) : Res :=
  s.portOp (s.slotOk o.slot) [] []
    (.next ((s.modMyPorts (fun p =>
      let lpm := match o.lpm, (p.slot o.slot).bound with
        | true, some pt => Mem.clear p.lpm (lpmBase pt 0) (128 * 1024)
        | true, none => p.lpm
        | false, _ => p.lpm
      { p with slots := Map.put p.slots o.slot (p.slot o.slot).clear, lpm := lpm })).adv o.st))

/-- PRD's read: one result. -/
def State.portRead (s : State) (st slot rd : Nat) (srcs : List Nat) (v : Slot → Word) : Res :=
  s.portOp (s.slotOk slot) srcs [rd] (.next ((s.resVar rd (v (s.slot s.cur.cid slot))).adv st))

/-- prd (R418). -/
def execPrd (o : PrdF) (s : State) : Res := s.portRead o.st o.slot o.rd [] (fun l => l.result)

/-- prd.c (R418). -/
def execPrdC (o : PrdCF) (s : State) : Res :=
  s.portRead o.st o.slot o.rd [o.ra] (fun l =>
    let lane := bitsOf (s.r o.ra) 6 0
    if lane < l.laneCount then Map.getD l.carried (4 * lane + o.ci) 0 else 0)

/-- prd.n (R418). -/
def execPrdN (o : PrdF) (s : State) : Res := s.portRead o.st o.slot o.rd [] (fun l => word l.count)

end Sys2Proof.Machine
end

