-- ==== Sys2Proof/Machine/Tasks.lean ====
section
/-! DEFINITION. Tasks, joins and bunches (R317-R322). -/

namespace Sys2Proof.Machine

/-- A task handle (R318). -/
def handleOf (e gen : Nat) : Word := word (gen % 2 ^ 32 * 2 ^ 20 + e)

/-- The entry that a handle names, if it is live. -/
def State.byHandle (s : State) (h : Word) : Option (Nat × Entry) :=
  match s.entry (bitsOf h 19 0) with
  | some v => if bitsOf h 51 20 = v.gen % 2 ^ 32 ∧ bitsOf h 63 52 = 0 then some (bitsOf h 19 0, v) else none
  | none => none

/-- The entry of a spawn that has issued and read its record (R317): it stands until the store has room. The result and the advance belong to
the spawner, before the entry may cause anything else. -/
def State.spawnEnter (s : State) (rd : Nat) (bs : List Byte) : State :=
  if s.storeFull then s
  else
    let l := s.me.launch
    let e := freeIdx s.sched.store 0
    let h := handleOf e (Map.getD s.sched.gens e 0)
    let s := s.modLaunch l (fun v => { v with joins := v.joins + 1 })
    (s.resVar rd h).go.enter e (Record.ofBytes bs) l

/-- A spawn that has issued has read its record: its checks, then the wait for the store (R72, R317). -/
def State.spawnRec (s : State) (rd : Nat) (bs : List Byte) : State :=
  let r := Record.ofBytes bs
  let badBunch := r.bunch != 0 &&
    (match s.bunch r.bunch with | some b => b.launch != s.me.launch | none => true)
  if !r.clean || badBunch then s.trapS 1 0 0
  else State.spawnEnter (s.setSca { s.sca with hold := .spawn rd bs }) rd bs

/-- What a load of spawn's record needs: host-mapped memory is DETAIL 3 (R317). -/
def Want.spawn : Want := ⟨true, false, false, true⟩

/-- spawn (R317). -/
def execSpawn (o : R2) (s : State) : Res :=
  s.mainOnly
    (s.issueVar [o.ra] [o.rd]
      (s.access .spawn (s.r o.ra) 32 (fun p =>
        s.whenDrained true
          (let s := (s.noteXlat s.cur.cid (s.r o.ra)).wbAll s.myCore
           match p.dev? with
           | some (dev, pa, key) => .next (s.parkRemote o.st dev key (.load pa 32) (.spawn o.rd) (s.r o.ra))
           | none =>
             let s := s.flushPlace s.myCore p
             if s.poisoned p 32 then .next (s.trapAs true 0x0B p.errDetail (s.r o.ra))
             else .next (((s.sRead s.myCore p 32).park .none o.st).spawnRec o.rd (s.rd s.me.launch p 32))))))

/-- ARRIVE's effect at the entry: the result and the state after (R319). -/
def State.arriveAt (s : State) (h : Word) : Nat × State :=
  match s.byHandle h with
  | none => (2, s)
  | some (e, v) =>
    if v.st ≠ .pooled ∨ v.launch ≠ s.me.launch then (2, s)
    else if v.join ≤ 1 then (1, (s.setEntry e { v with join := 0 }).ready e)
    else (0, s.setEntry e { v with join := v.join - 1 })

/-- arrive (R319). -/
def execArrive (o : R2) (s : State) : Res :=
  s.mainOnly
    (s.issueVar [o.ra] [o.rd]
      (s.whenDrained true
        (let s := s.wbAll s.myCore
         let r := s.arriveAt (s.r o.ra)
         let mine := (s.resVar o.rd (word r.1)).adv o.st
         .next (mine.arriveAt (s.r o.ra)).2)))

/-- est (R320). -/
def execEst (o : R1a) (s : State) : Res :=
  s.mainOnly
    (s.issue [o.ra] none
      (.next ((s.modMe (fun c => c.modSys (fun y =>
        { y with est := (satI (s.r o.ra).toInt 0 16777215).toNat, estOld := y.estSeen s.clk, estAt := s.clk }))).adv o.st)))

/-- The next bunch handle: in increasing order modulo 65,536, skipping 0 and those allocated (R321). -/
def bunchHandle (m : Map Bunch) : Nat → Nat → Nat
  | 0, n => n
  | f + 1, n =>
    let n := n % 65536
    if n = 0 ∨ (Map.find m n).isSome then bunchHandle m f (n + 1) else n

/-- bmake (R321). -/
def execBmake (o : R2) (s : State) : Res :=
  s.mainOnly
    (let n := (s.r o.ra).toNat
     if n = 0 ∨ 8 < n ∨ 4096 ≤ s.sched.bunches.length then s.resultVar o.st [o.ra] o.rd 0
     else
       let h := bunchHandle s.sched.bunches 4098 s.sched.nextBunch
       s.issueVar [o.ra] [o.rd]
         (.next (((s.modSched (fun q =>
           { q with bunches := Map.put q.bunches h
                      { launch := s.me.launch, count := n, placed := none, members := [], arrived := [], gen := 0 },
                    nextBunch := (h + 1) % 65536 })).resVar o.rd (word h)).adv o.st)))

/-- JOIN succeeds (R108). -/
def State.canJoin (s : State) (h : Nat) : Bool :=
  match s.bunch h, s.me.task with
  | some b, some t => b.placed == some (clusterOf s.myCore) && !t.member && decide (b.members.length < 8)
  | some _, none => false
  | none, _ => false

/-- join (R108, R322). -/
def execJoin (o : R2) (s : State) : Res :=
  s.mainOnly
    (let h := (s.r o.ra).toNat
     if s.canJoin h then
       s.issueVar [o.ra] [o.rd]
         (let s := s.modMe (fun c => { c with task := c.task.map (fun t => { t with member := true, bunch := h }) })
          let s := s.modSched (fun q =>
            { q with bunches := match Map.find q.bunches h with
                | some b => Map.put q.bunches h { b with members := b.members ++ [s.cur.cid] }
                | none => q.bunches })
          .next ((s.resVar o.rd 1).adv o.st))
     else s.resultVar o.st [o.ra] o.rd 0)

/-- leave (R108, R322). -/
def execLeave (o : R0) (s : State) : Res := s.mainOnly (.next ((s.leaveBunch s.cur.cid).adv o.st))

/-- The generation of the bunch of the context at the cursor, if it is a member. -/
def State.myBunch (s : State) : Option (Nat × Bunch) :=
  match s.me.task with
  | none => none
  | some t => if t.member then (s.bunch t.bunch).map (fun b => (t.bunch, b)) else none

/-- A bbar that has arrived goes on once its generation is complete (R109): the resumption is an acquire at .clus (R161). -/
def State.bbarWait (s : State) (g : Nat) : State :=
  match s.myBunch with
  | some (_, b) => if b.gen = g then s else (s.wbInv s.myCore).go
  | none => (s.wbInv s.myCore).go

/-- bbar (R109, R161, R322): the arrival is a release at .clus. -/
def execBbar (o : R0) (s : State) : Res :=
  s.mainOnly
    (match s.myBunch with
     | none => .next (s.trapS 7 1 0)
     | some (h, b) =>
       s.whenDrained true
         (let s := (s.wbAll s.myCore).park (.bbar b.gen) o.st
          .next ((s.settleBunch h { b with arrived := b.arrived ++ [s.cur.cid] }).bbarWait b.gen)))

end Sys2Proof.Machine
end

