-- ==== Sys2Proof/Machine/PathEvents.lean ====
section
/-! DEFINITION. The events of the S paths: stores, loads and memory reductions that leave their queues (R141-R148), L1 aging
(R143), the slot wheel (R165-R167), parked contexts (R308, R329, R331), the watchdog (R100), and the answers and requests of
other devices (R169-R171). -/

namespace Sys2Proof.Machine

/-! ## The agent of a context's S path -/

/-- The agent of a context that a hold stands in: its S stream, or the trap core that serves it (R214). -/
def State.holder (s : State) (cid : Nat) (ok : Hold → Bool) : Option Agent :=
  let t := (s.core (cid / 2)).trap
  if ok (s.ctx cid).sc.hold then some .S
  else if t.serving == some cid && ok t.sc.hold then some .trapCore
  else none

/-- The cursor on an agent of a context. -/
def State.at_ (s : State) (cid : Nat) (a : Agent) : State := { s with cur := { s.cur with cid := cid, agent := a } }

/-- The hold of the agent at the cursor ends. -/
def State.unhold (s : State) : State := s.setSca { s.sca with hold := .none }

/-- An error for which no retry is needed is raised in a context: an access that is gone met it (R218). -/
def State.raiseAt (s : State) (cid code detail : Nat) (faddr fpc : Word) : State :=
  s.raiseOnce cid (.of code detail 0 faddr (s.wordAt fpc) fpc)

/-! ## STORE_PERFORM and MRED_PERFORM (R141, R144, R146, R148) -/

/-- The first of two stores may merge into the second: the same address and size, and no release between them (R148, R152). -/
def StEnt.sameAs (e f : StEnt) : Bool :=
  e.place == f.place && e.size == f.size &&
    (match e.kind, f.kind with | .store _, .store _ => true | _, _ => false)

/-- The wider of two scopes. -/
def Scope.num : Scope → Nat
  | .core => 0 | .clus => 1 | .chip => 2 | .dev => 3 | .dom => 4

def widerScope (a b : Scope) : Scope := if Scope.num a < Scope.num b then b else a

/-- The merged write is a release if either store was, with the scope of the wider release (R148). -/
def StEnt.merge (e f : StEnt) : StEnt :=
  match e.isRel, f.isRel with
  | true, true => { f with scope := widerScope e.scope f.scope }
  | true, false => { f with ord := e.ord, scope := e.scope }
  | false, _ => f

/-- The queue after its head merges into a later store of it, if it may: no load of its bytes stands between the two, which would then miss
the first (R142, R145, R148). -/
def mergeInto (ls : List LdEnt) (e : StEnt) : List StEnt → Option (List StEnt)
  | [] => none
  | f :: fs =>
    if e.sameAs f then
      if ls.any (fun l => decide (e.seq < l.seq) && decide (l.seq < f.seq) && l.place.meets l.size e.place e.size) then none
      else some (e.merge f :: fs)
    else if f.isRel || (match f.kind with | .store _ => false | .mred _ _ => true | .vmred _ _ => true) then none
    else (mergeInto ls e fs).map (fun r => f :: r)

/-- The head of the store queue that may be performed now, with the rest. -/
def State.storeHead (s : State) (cid : Nat) : Option (StEnt × List StEnt) :=
  match (s.ctx cid).path.stores with
  | [] => none
  | e :: es => if (s.ctx cid).path.mayStore e then some (e, es) else none

def State.setStores (s : State) (cid : Nat) (es : List StEnt) : State :=
  s.modCtx cid (fun c => c.modPath (fun p => { p with stores := es }))

/-- The head of the store queue is performed here, or sent: it then keeps its place until its home has performed it (R144, R169). -/
def State.headGo (s : State) (cid : Nat) (e : StEnt) (es : List StEnt) (lodge : Bool) : State :=
  match e.place.dev? with
  | none => (s.performHere cid e lodge).setStores cid es
  | some (dev, pa, key) =>
    let x := s.sendEnt cid e dev pa key
    x.2.setStores cid ({ e with sent := x.1 } :: es)

/-- The head of the store queue leaves it, or is sent. A release
that must wait for a store that failed takes the error, and is not performed (R171, R225). -/
def State.headDone (s : State) (cid : Nat) (e : StEnt) (es : List StEnt) (lodge : Bool) : State :=
  match e.isRel, s.firstFail cid with
  | true, some f =>
    let s := s.modCtx cid (fun c => c.modPath (fun p => { p with stores := es, fails := p.fails.tail }))
    s.raiseAt cid f.cause f.detail f.faddr e.pc
  | true, none => s.headGo cid e es lodge
  | false, _ => s.headGo cid e es lodge

/-- STORE_PERFORM: the oldest store of a context leaves its queue: it merges with a later one, if that is chosen (a free choice,
log entry 18), or it is performed at its point of coherence or lodged in L1. -/
def execStorePerform (cid : Nat) (lodge : Bool) (s : State) : Res :=
  match s.storeHead cid with
  | none => .next s
  | some (e, es) =>
    match e.kind with
    | .mred _ _ => .next s
    | .vmred _ _ => .next s
    | .store _ =>
      match mergeInto (s.ctx cid).path.loads e es with
      | none => .next (s.headDone cid e es lodge)
      | some ms => if Config.freeBool s.free then .next (s.bump.setStores cid ms) else .next (s.bump.headDone cid e es lodge)

/-- MRED_PERFORM: the memory reduction at the head of the cursor's store queue is applied at its point of coherence (R146,
R210-R213). -/
def execMredPerform (s : State) : Res :=
  let cid := s.cur.cid
  match s.storeHead cid with
  | none => .next s
  | some (e, es) =>
    match e.kind with
    | .store _ => .next s
    | .mred _ _ => .next (s.headDone cid e es false)
    | .vmred _ _ => .next (s.headDone cid e es false)

/-! ## LOAD_RETURN (R144, R145, R303, R225) -/

/-- A load's value reaches the register and it leaves the queue; an acquire beyond .core drops L1 (R151). -/
def State.loadDone (s : State) (cid : Nat) (l : LdEnt) (v : Word) : State :=
  let s := s.modCtx cid (fun c =>
    (c.modPath (fun p => { p with loads := p.loads.tail })).modSc (fun q =>
      if l.rd = 0 then q else q.arrive s.clk l.rd (extend l.sx l.size v)))
  if l.ord = .acq then s.acquire cid l.scope else s

/-- A load whose data is in error: the cause at the context, with the load's address (R171, R225, R437). -/
def State.loadFail (s : State) (cid : Nat) (l : LdEnt) (code detail : Nat) : State :=
  let s := s.modCtx cid (fun c =>
    (c.modPath (fun p => { p with loads := p.loads.tail })).modSc (fun q =>
      { q with pend := q.pend.filter (fun r => r != l.rd) }))
  s.raiseAt cid code detail l.va l.pc

/-- A read of n bytes of a load's place with forwarding: the bytes given and those of the context's queued stores. -/
def State.forwardAll (s : State) (cid : Nat) (l : LdEnt) (bs : List Byte) : Word :=
  leWord ((List.range l.size).map (fun i => forward (s.ctx cid).path.stores l i ((bs[i]?).getD 0)))

/-- The load at the head of the queue is performed: `hit` false evicts the core's L1 copy first, `alloc` lets the line be filled
where the hint admits it (R143, R304). What it reads of the home slice may be in error (R128, R225). -/
def State.loadHere (s : State) (cid : Nat) (l : LdEnt) (hit alloc : Bool) : State :=
  let s := if hit then s else s.flushPlace (cid / 2) l.place
  let inL1 : Bool := l.place.cached && (match l.place.pa? with | some (pa, _) => (s.l1Line (cid / 2) pa).isSome | none => false)
  if s.poisoned l.place l.size && !(List.range l.size).all (forwarded (s.ctx cid).path.stores l) then
    s.loadFail cid l 0x0B l.place.errDetail
  else
    let s := if inL1 then s else s.sRead (cid / 2) l.place l.size
    let s := s.loadL1 (cid / 2) l.place l.hint alloc
    s.loadDone cid l (s.forwardAll cid l (s.loadBytes cid l.place l.size true))

/-- LOAD_RETURN: the oldest load of a context is performed and its value arrives; a load of another device is first sent as a
request (R169), and its answer brings the value. -/
def execLoadReturn (cid : Nat) (hit alloc : Bool) (s : State) : Res :=
  match (s.ctx cid).path.loads with
  | [] => .next s
  | l :: ls =>
    if loadBlocked (s.ctx cid).path.stores l then .next s
    else
      match l.place.dev? with
      | none => .next (s.loadHere cid l hit alloc)
      | some (dev, pa, key) =>
        if l.req.isSome then .next s
        else
          let id := s.reqId
          let s := s.send dev key (.load pa l.size) ⟨cid, dev, .load, l.va, l.pc, l.seq, 0⟩
          .next (s.modCtx cid (fun c => c.modPath (fun p => { p with loads := { l with req := some id } :: ls })))

/-! ## L1_AGE_OUT (R143) -/

/-- L1_AGE_OUT: a line of a core's L1 leaves it, written back if dirty, and no later than 2,000 clk after its fill (an
earlier time is an eviction). -/
def execL1AgeOut (core line : Nat) (s : State) : Res := .next (s.dropLine core line)

/-! ## The slot wheel (R164-R167) -/

/-- The agent of a context holds an .sc access that has not issued. -/
def scWaiting (h : Hold) : Bool := match holdSc? h with | some a => a.issued.isNone | none => false

/-- The access that the agent at the cursor holds for the wheel. -/
def State.scAcc (s : State) : Option ScAcc := holdSc? s.sca.hold

/-- The context takes the wheel clk of its core: the position is the core's, nothing of the core has issued on this clk, and where both
contexts wait, the one that did not take the previous wheel clk does, context 0 at first (R165). -/
def State.wheelTurn (s : State) (cid : Nat) : Bool :=
  let both := (s.holder (otherCtx cid) scWaiting).isSome
  s.clk % 256 == cid / 2 &&
    (match (s.core (cid / 2)).lastWheel with
     | some (t, c) => t != s.clk && (!both || c != cid % 2)
     | none => !both || cid % 2 == 0)

/-- SC_WHEEL_ISSUE: a wheel-ready .sc access of the cursor's context issues at its core's position. -/
def execScWheelIssue (s : State) : Res :=
  let cid := s.cur.cid
  match s.holder cid scWaiting with
  | none => .next s
  | some a =>
    let s1 := s.at_ cid a
    match s1.scAcc with
    | none => .next s
    | some x =>
      if s.wheelTurn cid then
        .next ((s1.setSca { s1.sca with hold := .sc { x with issued := some s.clk } }).modCore (cid / 2)
          (fun k => { k with lastWheel := some (s.clk, cid % 2) }))
      else .next s

/-- The access reads its place. -/
def ScKind.reads : ScKind → Bool
  | .store _ => false
  | .load _ _ => true | .amo _ _ _ => true | .cas _ _ _ => true | .vamo _ _ _ _ _ => true | .waita _ _ _ _ _ => true

/-- An .sc access of the cursor's agent is performed: its effect, then its acquire part (R151, R153, R166). -/
def State.scDo (s : State) (x : ScAcc) : State :=
  let cid := s.cur.cid
  let s := s.flushPlace s.myCore x.place
  let fin := fun (s : State) => (s.acquire cid .dev).go
  let word1 := fun (s : State) => leWord (s.rd (s.ctx cid).launch x.place x.size)
  if x.kind.reads && s.poisoned x.place x.size then s.unhold.trapAs true 0x0B x.place.errDetail x.va
  else
    match x.kind with
    | .store v => fin (s.storeHome cid x.place (leBytes x.size v.toNat))
    | .load rd sx => fin ((s.sRead s.myCore x.place x.size).resVar rd (extend sx x.size (word1 s)))
    | .amo op rt b =>
      let r := s.amoAt cid x.place x.size op b
      fin (r.2.resVar rt (extend true x.size r.1))
    | .cas rt e n =>
      let r := s.casAt cid x.place x.size e n
      fin (r.2.resVar rt (extend true x.size r.1))
    | .vamo op rt _ wide bs =>
      let r := s.vamoAll cid x.place wide op bs
      fin (r.2.res4 rt r.1)
    | .waita rt sx e dl second =>
      let w : WaitaSt := ⟨rt, x.size, sx, .sc, .dev, x.place, x.va, dl, false, x.pc⟩
      (s.sRead s.myCore x.place x.size).waitaGot w e (if dl = 0 then 0 else 1) second (word1 s)

/-- SC_PERFORM: the .sc access of the cursor's context is performed exactly 96 clk after its wheel clk (R166). -/
def execScPerform (s : State) : Res :=
  let cid := s.cur.cid
  let mine : Hold → Bool := fun h => match holdSc? h with | some a => a.issued.any (fun t => s.clk == t + 96) | none => false
  match s.holder cid mine with
  | none => .next s
  | some a =>
    let s1 := s.at_ cid a
    match s1.scAcc with
    | none => .next s
    | some x => .next (s1.scDo x)

/-! ## Parked contexts -/

/-- The notices that a context awaits are of no use to it any more. -/
def State.dropNotices (s : State) (cid : Nat) : State :=
  { s with net := { s.net with reqs := s.net.reqs.filter (fun x => !(x.2.cid == cid && x.2.kind == .notice)) } }

/-- The waita that a hold is. -/
def holdWaita? : Hold → Option WaitaSt
  | .waita w => some w
  | .none => none | .xfence _ _ => none | .sleepu _ _ => none | .yield _ => none | .sc _ => none | .svc _ _ => none
  | .bbar _ => none | .remote _ => none | .iclk _ _ _ _ => none | .spawn _ _ => none

/-- WAITA_WAKE (R307, R308): a parked waita that a write, its timeout, a trap or a context switch has woken reads its word again,
on the wheel where it is an .sc load. -/
def execWaitaWake (cid : Nat) (s : State) : Res :=
  match holdWaita? (s.ctx cid).sc.hold with
  | some w =>
    if !(w.woken || decide (w.deadline ≤ s.clk)) then .next s
    else
      let s := (s.at_ cid .S).dropNotices cid
      if w.ord = .sc then
        .next (s.setSca { s.sca with hold := .sc ⟨.waita w.rt w.sx 0 0 true, w.place, w.va, w.size, w.pc, none⟩ })
      else
        match w.place.dev? with
        | some (dev, pa, key) => .next (s.holdRemote dev key (.load pa w.size) (.waita w 0 0 true) w.va)
        | none => .next (s.waitaRead w 0 0 true)
  | none => .next s

/-- SLEEPU_WAKE (R329): the promised time of the cursor's context has come. -/
def execSleepuWake (s : State) : Res :=
  match s.me.sc.hold with
  | .sleepu t ch =>
    if t ≤ s.clk ∧ s.me.trap.phase = .none then .next ((s.at_ s.cur.cid .S).sleepWake t ch) else .next s
  | .none => .next s | .xfence _ _ => .next s | .waita _ => .next s | .yield _ => .next s | .sc _ => .next s
  | .svc _ _ => .next s | .bbar _ => .next s | .remote _ => .next s | .iclk _ _ _ _ => .next s | .spawn _ _ => .next s

/-- YIELD_END (R331): the count of the cursor's context has run out. -/
def execYieldEnd (s : State) : Res :=
  match s.me.sc.hold with
  | .yield t => if t ≤ s.clk then .next (s.at_ s.cur.cid .S).unhold else .next s
  | .none => .next s | .xfence _ _ => .next s | .waita _ => .next s | .sleepu _ _ => .next s | .sc _ => .next s
  | .svc _ _ => .next s | .bbar _ => .next s | .remote _ => .next s | .iclk _ _ _ _ => .next s | .spawn _ _ => .next s

/-! ## The window and the watchdog (R97, R100) -/

/-- The position of a trailing stream, if it has instructions to start (R92). -/
def posOf? (q : List QEnt) : List Nat := (q.head?.map QEnt.seq).toList

/-- S stands at the bound of R97: the slowest stream is WINDOW.N or more instructions behind the next decode. -/
def Ctx.atBound (c : Ctx) : Bool :=
  let ps := posOf? c.eng.qC ++ posOf? c.eng.qM ++ posOf? c.eng.qR ++ posOf? c.eng.qK
  ps.any (fun p => decide (p + c.sys.window ≤ c.sc.seq))

/-- 10 ms in clks. -/
def watchClk : Nat := 10 * msClk

/-- WATCHDOG (R100): S of the cursor's context has stood at the bound for 10 ms in which no stream started an instruction. -/
def execWatchdog (s : State) : Res :=
  let c := s.me
  match c.sc.boundSince with
  | none => .next s
  | some t =>
    if c.atBound && c.trap.phase == .none && decide (t + watchClk ≤ s.clk) then
      .next (s.raise s.cur.cid (.of 0x0D 0 0 0 0 c.sc.pc))
    else .next s

/-! ## SVC_REPLY (R336, R66) -/

/-- The first free address of a launch's host-map region for a length, beyond its present mappings. -/
def Launch.nextMap (l : Launch) : Nat := l.maps.foldl (fun a m => max a (m.va + m.len)) (0x1E0 * 2 ^ 48)

/-- MAPX (R66): the address and the status, with the launch after it. -/
def State.mapx (s : State) (l : Launch) (h off len flags : Word) : Nat × Nat × Launch :=
  match Map.find s.host.exports h.toNat with
  | none => (0, 1, l)
  | some x =>
    if off.toNat % 65536 ≠ 0 ∨ len.toNat % 65536 ≠ 0 ∨ len = 0 ∨ x.len < off.toNat + len.toNat ∨ 2 ≤ flags.toNat then (0, 2, l)
    else if bitOf flags 0 && !x.wr then (0, 3, l)
    else if 64 ≤ l.maps.length then (0, 4, l)
    else
      let va := l.nextMap
      (va, 0, { l with maps := l.maps ++ [⟨va, len.toNat, h.toNat, off.toNat, bitOf flags 0⟩] })

/-- SVC_REPLY (R336): the service's results, from the arguments that the svc read, then an acquire at .dom, and the context goes on after
the svc. -/
def execSvcReply (s : State) : Res :=
  match s.me.sc.hold with
  | .svc n as =>
    let s := s.at_ s.cur.cid .S
    let arg : Nat → Word := fun i => (as[i]?).getD 0
    let out := fun (s : State) (a b : Word) => (((s.resVar 4 a).resVar 5 b).acquire s.cur.cid .dom).go
    if n = 0x10 then
      match s.launch s.me.launch with
      | none => .next (out s 0 1)
      | some l =>
        let r := s.mapx l (arg 0) (arg 1) (arg 2) (arg 3)
        .next (out (s.modLaunch s.me.launch (fun _ => r.2.2)) (word r.1) (word r.2.1))
    else .next (out s 0 0xFF)
  | .none => .next s | .xfence _ _ => .next s | .waita _ => .next s | .sleepu _ _ => .next s | .sc _ => .next s
  | .yield _ => .next s | .bbar _ => .next s | .remote _ => .next s | .iclk _ _ _ _ => .next s | .spawn _ _ => .next s

/-! ## REMOTE_REQUEST (R127, R169) -/

/-- Sends a VC1 answer. -/
def State.answer (s : State) (src : Nat) (a : RemoteAns) : State :=
  s.post src (.ans src a)

/-- The address and the size of a request. -/
def remoteSpan : RemoteReq → Nat × Nat
  | .load a n => (a, n)
  | .store a bs => (a, bs.length)
  | .granule a _ => (a, 32)
  | .amo _ a wide _ => (a, amoBytes wide)
  | .cas a wide _ _ => (a, amoBytes wide)
  | .mred m a _ => (a, mredBytes m)
  | .watch a n => (a, n)

/-- The request is performed at its home slice: the answer and the state after. -/
def State.remoteDo (s : State) (src key : Nat) (r : RemoteReq) : RemoteAns × State :=
  let p := fun a => Place.loc a key 2 0
  match r with
  | .load a n => (.data (s.hbmRead key a n), s)
  | .store a bs => (.done, s.wr 0 (p a) bs)
  | .granule _ ps => (.done, ps.foldl (fun s (x : Nat × List Byte) => s.wr 0 (p x.1) x.2) s)
  | .amo op a wide b =>
    let old := leWord (s.hbmRead key a (amoBytes wide))
    (.data (leBytes (amoBytes wide) old.toNat),
     s.wr 0 (p a) (leBytes (amoBytes wide) (amoNew op (amoBytes wide) old b).toNat))
  | .cas a wide e n =>
    let old := leWord (s.hbmRead key a (amoBytes wide))
    (.data (leBytes (amoBytes wide) old.toNat),
     if old = zextN (8 * amoBytes wide) e then s.wr 0 (p a) (leBytes (amoBytes wide) n.toNat) else s)
  | .mred m a v =>
    let old := leWord (s.hbmRead key a (mredBytes m))
    (.done, s.wr 0 (p a) (leBytes (mredBytes m) (mredApply m old v).toNat))
  | .watch a n =>
    (.data (s.hbmRead key a n), { s with net := { s.net with watch := s.net.watch ++ [(src, (p a).line)] } })

/-- REMOTE_REQUEST: a VC0 request of another device is performed under this device's key slot of its number; an empty slot is
refused (R127), and so is an address outside the usable HBM (log entry 15). A request that reads a poisoned unit fails (R225). -/
def execRemoteRequest (src key : Nat) (r : RemoteReq) (s : State) : Res :=
  let sp := remoteSpan r
  let reads : Bool := match r with
    | .store _ _ => false | .granule _ _ => false
    | .load _ _ => true | .amo _ _ _ _ => true | .cas _ _ _ _ => true | .mred _ _ _ => true | .watch _ _ => true
  if (s.slotKey key).isNone || decide (s.variant.usable < sp.1 + sp.2) then .next (s.answer src .refused)
  else if reads && s.poisoned (.loc sp.1 key 2 0) sp.2 then .next (s.answer src .failed)
  else
    let x := s.remoteDo src key r
    .next (x.2.answer src x.1)

/-! ## REMOTE_RESPONSE (R127, R169-R171, R434) -/

/-- The message is the request of a number. -/
def Msg.isReq (id : Nat) : Msg → Bool
  | .req n _ _ _ => n == id
  | .ans _ _ => false | .seg _ _ _ => false | .notice _ _ => false

/-- Takes a request out of those that await an answer; one that waits for a route is not sent any more. -/
def State.dropReq (s : State) (id : Nat) : State :=
  { s with net := { s.net with reqs := Map.del s.net.reqs id, waiting := s.net.waiting.filter (fun x => !x.2.isReq id) } }

/-- The request still waits for a route (R21): no answer can have come. -/
def State.unsent (s : State) (id : Nat) : Bool := s.net.waiting.any (fun x => x.2.isReq id)

/-- The link that a fault's DETAIL names: the port of the last route to a device (R21), and port 0 where there never was one (DESIGN CHOICE,
log entry 60). -/
def State.linkTo (s : State) (dev : Nat) : Nat := (s.route dev).port

/-- The cause and DETAIL of an answer that is no data: a refusal is the protection fault with DETAIL 2 (R127), a failure the
data error of a link (R171). -/
def State.ansCause (s : State) (dev : Nat) : RemoteAns → Option (Nat × Nat)
  | .refused => some (7, 2)
  | .failed => some (0x0B, 2 + s.linkTo dev * 256)
  | .data _ => none
  | .done => none

/-- The bytes of an answer. -/
def ansBytes : RemoteAns → List Byte
  | .data bs => bs
  | .done => [] | .refused => [] | .failed => []

/-- The held request of a vector atomic on another device: one element's old value, then the next element's request (R312). -/
def State.vamoNext (s : State) (q : RemReq) (op : AmoOp) (rt : Nat) (wide : Bool) (j pa key : Nat) (bs : List Word)
    (acq : Option Scope) (v : Word) : State :=
  let r := rt + (if wide then j else j / 2)
  let w := if wide then v
    else if j % 2 = 0 then zextN 32 v else word ((s.r r).toNat % 2 ^ 32 + v.toNat % 2 ^ 32 * 2 ^ 32)
  let s := if rt = 0 then s else s.setSca (s.sca.putVar r w)
  if j + 1 < vamoCount wide then
    s.holdRemote q.dev key (.amo op (pa + amoBytes wide * (j + 1)) wide (vamoOperand wide bs (j + 1)))
      (.vamo op rt wide (j + 1) pa key bs acq) q.va
  else
    let s := match acq with | some sc => s.acquire s.cur.cid sc | none => s
    s.go

/-- The hold of an agent for a request of a number. -/
def holdsReq (id : Nat) (h : Hold) : Bool := holdReq? h == some id

/-- An answer to a request for which an agent of the context is held: `k` continues with its bytes. -/
def State.heldAnswer (s : State) (id : Nat) (q : RemReq) (a : RemoteAns) (k : List Byte → State → State) : State :=
  match s.holder q.cid (holdsReq id) with
  | none => s
  | some ag =>
    let s := (s.at_ q.cid ag).unhold
    match s.ansCause q.dev a with
    | some (c, d) => s.trapS c d q.va
    | none => k (ansBytes a) s

/-- The answer to a request of the store queue's head: it is performed once its last one is acknowledged, and leaves the queue (R169). -/
def SPath.acked1 (p : SPath) (id : Nat) : SPath :=
  { p with remStores := p.remStores.filter (fun n => n != id)
           stores := match p.stores with
             | [] => []
             | e :: es =>
               let rest := e.sent.filter (fun n => n != id)
               if e.sent.contains id then (if rest = [] then es else { e with sent := rest } :: es) else e :: es }

/-- The answer to a store of the S path: an acknowledgement, or an error kept for the waiting instruction (R171). -/
def State.storeAnswer (s : State) (id : Nat) (q : RemReq) (a : RemoteAns) : State :=
  let s := s.modCtx q.cid (fun c => c.modPath (fun p => p.acked1 id))
  match s.ansCause q.dev a with
  | some (c, d) => s.addFail q.cid ⟨c, d, q.va⟩
  | none => s

/-- The units of a context's path. -/
def unitsOf (g : Engines) : List EUnit :=
  g.chans.map (fun x => EUnit.ch x.1) ++ [.array, .drainU, .red] ++ (List.range g.coll.length).map EUnit.coll

/-- The unit of a context whose command satisfies a test, with the command. -/
def Engines.findCmd (g : Engines) (ok : Cmd → Bool) : Option (EUnit × Cmd) :=
  (unitsOf g).findSome? (fun u => (g.cmd u).bind (fun m => if ok m then some (u, m) else none))

/-- An engine's write has failed, with a cause: it is kept for the points of R434. -/
def State.noteWFail (s : State) (q : RemReq) (path : Nat) (u : EUnit) (seq code : Nat) : State :=
  let f : WFail := { u := u, path := path, seq := seq, va := q.va, link := s.linkTo q.dev, key := code == 7 }
  s.modCtx q.cid (fun x => x.modEng (fun g => { g with wfails := g.wfails ++ [f] }))

/-- The answer to an engine's write. The iteration that awaits it ends with its last acknowledgement; a refusal stops its command at the
boundary before the iteration (R127), and an access that failed is kept for the points of R434. -/
def State.writeAnswer (s : State) (id : Nat) (q : RemReq) (path : Nat) (u : EUnit) (seq : Nat) (a : RemoteAns) : State :=
  match (s.ctx q.cid).eng.findCmd (fun m => m.acks.contains id), s.ansCause q.dev a with
  | some (v, m), none => s.iterAcked q.cid v m id
  | some (v, m), some (c, _) =>
    if c = 7 then s.iterRefused q.cid v m q.va else (s.noteWFail q path v seq c).iterAcked q.cid v m id
  | none, none => s
  | none, some (c, _) => s.noteWFail q path u seq c

/-- The answer to an engine's read: the bytes, zeros for a failure (R434), or the fault of a refusal at the boundary (R127). -/
def State.readAnswer (s : State) (id : Nat) (q : RemReq) (pa n : Nat) (a : RemoteAns) : State :=
  match (s.ctx q.cid).eng.findCmd (fun m => m.rwait == some id) with
  | none => s
  | some (u, m) =>
    let m := { m with rwait := none }
    let put := fun (m : Cmd) (bs : List Byte) =>
      { m with rgot := (List.range n).foldl (fun r i => Map.put r (remKey q.dev (pa + i)) ((bs[i]?).getD 0)) m.rgot }
    match a with
    | .data bs => s.setCmd q.cid u (put m bs)
    | .done => s.setCmd q.cid u (put m [])
    | .failed =>
      s.setCmd q.cid u { put m [] with rbad := (List.range n).foldl (fun r i => insertNat (remKey q.dev (pa + i)) r) m.rbad }
    | .refused => s.stopCmd q.cid u m 7 2 q.va

/-- The answer to a refetch: the bytes go into the granule, or the task ends fatally with the cause; the context goes on once none is awaited
(R231). -/
def State.refetchAnswer (s : State) (g : Nat) (q : RemReq) (a : RemoteAns) : State :=
  match s.ansCause q.dev a with
  | some (c, _) => s.fatal q.cid c q.pc
  | none =>
    (s.modCtx q.cid (fun x => x.modParts (fun p => p.refill g (x.sourceOf g) q.va.toNat (ansBytes a)))).settleRefetch q.cid

/-- A notice wakes the waita that awaits it (R308). -/
def Ctx.noticed (c : Ctx) (q : RemReq) : Ctx :=
  match holdWaita? c.sc.hold with
  | some w => if w.pc = q.pc ∧ w.va = q.va then c.wakeNow else c
  | none => c

/-- REMOTE_RESPONSE: an answer on VC1 reaches the requester. -/
def execRemoteResponse (id : Nat) (a : RemoteAns) (s : State) : Res :=
  match Map.find s.net.reqs id with
  | none => .next s
  | some q =>
    let waits := s.unsent id && a != .failed
    let s := if waits then s else s.dropReq id
    if waits || decide (512 ≤ q.cid) then .next s
    else
      match q.kind with
      | .load =>
        (match (s.ctx q.cid).path.loads with
         | [] => .next s
         | l :: _ =>
           if l.req ≠ some id then .next s
           else
             match s.ansCause q.dev a with
             | some (c, d) => .next (s.loadFail q.cid l c d)
             | none => .next (s.loadDone q.cid l (s.forwardAll q.cid l (ansBytes a))))
      | .store => .next (s.storeAnswer id q a)
      | .atomic rt n sx acq =>
        .next (s.heldAnswer id q a (fun bs s =>
          let s := match acq with | some sc => s.acquire s.cur.cid sc | none => s
          (s.resVar rt (extend sx n (leWord bs))).go))
      | .vamo op rt wide j pa key vs acq =>
        .next (s.heldAnswer id q a (fun bs s => s.vamoNext q op rt wide j pa key vs acq (leWord bs)))
      | .waita w e tmo second =>
        .next (s.heldAnswer id q a (fun bs s =>
          let v := leWord bs
          let t := s.waitaGot w e tmo second v
          if !second && v == e && tmo != 0 then
            -- parked: the home device's notice wakes it (R308)
            { t with net := { t.net with reqs := Map.put t.net.reqs id { q with kind := .notice } } }
          else t))
      | .notice => .next (s.modCtx q.cid (fun c => c.noticed q))
      | .spawn rt => .next (s.heldAnswer id q a (fun bs s => s.spawnRec rt bs))
      | .tstb mask sense target =>
        .next (s.heldAnswer id q a (fun bs s => s.branchLate (((leWord bs &&& mask) != 0) != sense) target))
      | .pload slot j acc =>
        .next (s.heldAnswer id q a (fun bs s => s.ploadGo slot q.va (10 - j) (j + 1) (acc ++ sliceB bs 0 64)))
      | .engine _ pa n => .next (s.readAnswer id q pa n a)
      | .engineStore path u seq => .next (s.writeAnswer id q path u seq a)
      | .kput => .next (s.writeAnswer id q 3 (.coll 0) q.seq a)
      | .refetch g => .next (s.refetchAnswer g q a)

end Sys2Proof.Machine
end

