-- ==== Sys2Proof/Machine/BootEvents.lean ====
section
/-! DEFINITION. The management window (R26), its ownership (R43-R45), boot (R27-R34), power (R36-R38) and the links (R18-R25): the
registers and the events that change them. -/

namespace Sys2Proof.Machine

/-! ## Ownership (R43, R44) -/

/-- The port owns MGMT.OWN. -/
def State.owns (s : State) (port : Nat) : Bool := s.mgmt.held && s.mgmt.owner == port

/-- What a read of MGMT.OWN by a port returns (R43, R44). While it is not held, PORT is the last owner, as R43's pseudocode has it; its
comment would have the whole word 0 (DESIGN CHOICE, log entry 60). -/
def State.ownWord (s : State) (port : Nat) : Word :=
  if s.mgmt.held then word (1 + 2 * s.mgmt.owner + if s.mgmt.owner = port then 4 else 0) else word (2 * s.mgmt.owner)

/-- The lapse period, in milliseconds (R43). -/
def lapseMs : Nat := 10000

/-- MGMT_OWN_READ (R43): the port of the cursor reads, and is granted ownership if it is free. -/
def execMgmtOwnRead (s : State) : Res :=
  let p := s.cur.port
  let s1 := { s with host := { s.host with rdata := leBytes 8 (s.ownWord p).toNat, poison := false } }
  if s.mgmt.held then .next s1
  else .next { s1 with mgmt := { s.mgmt with held := true, owner := p, leftMs := lapseMs } }

/-- A write of MGMT.OWN: the owner writes 1 (R43). -/
def State.ownWrite (s : State) (port : Nat) (v : Word) : State :=
  if s.owns port && v == 1 then { s with mgmt := { s.mgmt with held := false } } else s

/-- MGMT_OWN_WRITE (R43). -/
def execMgmtOwnWrite (port : Nat) (v : Word) (s : State) : Res := .next (s.ownWrite port v)

/-- A write of MGMT.HB: by the owner it restarts the period (R43). -/
def State.hbWrite (s : State) (port : Nat) : State :=
  if s.owns port then { s with mgmt := { s.mgmt with leftMs := lapseMs } } else s

/-- MGMT_HB_WRITE (R43) by the port of the cursor. -/
def execMgmtHbWrite (s : State) : Res := .next (s.hbWrite s.cur.port)

/-- One millisecond of the lapse timer (R43). -/
def Mgmt.tick (m : Mgmt) : Mgmt :=
  if m.held then { m with ticks := m.ticks + 1, leftMs := m.leftMs - 1, held := m.leftMs - 1 != 0 }
  else { m with ticks := m.ticks + 1 }

/-- OWNERSHIP_LAPSE (R43): a millisecond tick of the timer; at zero the ownership is dropped. -/
def execOwnershipLapse (s : State) : Res :=
  if s.clk / msClk ≤ s.mgmt.ticks then .next s else .next { s with mgmt := s.mgmt.tick }

/-! ## Boot stages (R27-R31) -/

/-- A failed stage ends the attempt and resets the device (R30). -/
def State.bootFail (s : State) (stage reason detail : Nat) : State :=
  State.restart { s with boot := { s.boot.why stage reason detail with attemptOpen := false } }

/-- What VERIFY finds wrong with an image, as a reason and its detail (R28, R29, R34). -/
def verifyFail (img : Mem) (fuse : Nat) : Option (Nat × Nat) :=
  let kr := Config.imgRsaKeyOk img
  let ks := Config.imgSlhKeyOk img
  let sr := Config.imgRsaSigOk img
  let ss := Config.imgSlhSigOk img
  if !kr && !ks then some (4, 2)
  else if !kr then some (4, 0)
  else if !ks then some (4, 1)
  else if !sr && !ss then some (7, 0)
  else if !sr then some (5, 0)
  else if !ss then some (6, 0)
  else if Config.imgVersion img < fuse then some (8, fuse)
  else none

/-- 30 s in clks. -/
def fwLimit : Nat := 30000 * msClk

/-- Routes whose first link satisfies a test are no longer in force: the destination has none until the next ROUTE_CHANGE (R21). -/
def State.dropRoutes (s : State) (p : Nat → Bool) : State :=
  { s with net := { s.net with routes := s.net.routes.map (fun x =>
      (x.1, if x.2.v && p x.2.port then { x.2 with v := false, h := 0, cdm := 0, lost := s.clk } else x.2)) } }

/-- The links whose EN is set begin to train (stage LINK of R27). -/
def State.trainAll (s : State) : State :=
  State.dropRoutes { s with net := { s.net with links := s.net.links.map (fun x =>
      (x.1, if x.2.en then { x.2 with state := 1, lanes := 0 } else x.2)) } } (fun n => (Map.getD s.net.links n .fresh).en)

/-- Every memory is scrubbed (stage CHIP of R27). -/
def State.scrub (s : State) : State :=
  { s with mem := { s.mem with hbm := [], unitKey := [], poison := [], weak := [], clus := [], clusW := [], chip := [], tags := [] } }

/-- The start is READY (R27, R30); the firmware raises the fused count if the image asks for it (R29). -/
def State.ready7 (s : State) : State :=
  let v := Config.imgVersion s.boot.running
  let fuse := if Config.imgRaise s.boot.running && decide (s.boot.fuse < v) then min 64 v else s.boot.fuse
  { s with boot := { s.boot with stage := 7, tries := 0, attemptOpen := false, fuse := fuse } }

/-- The next stage starts (R30). -/
def State.nextStage (s : State) : State :=
  let n := s.boot.stage + 1
  let b := { s.boot with stage := n, lastStage := n }
  if n = 2 then { s with boot := { b with running := b.nor } }
  else if n = 3 then { s with boot := { b with fwSince := s.clk, sver := Config.imgVersion b.running } }
  else if n = 6 then State.trainAll (State.scrub { s with boot := b })
  else { s with boot := b }

/-- A write to the SPI NOR that was cut short fails at FETCH, or else at VERIFY: which is open (R32). -/
def State.brokenFetch (s : State) : Bool := s.boot.norBroken && Config.freeBool s.boot.starts

/-- The links still training fail. -/
def State.failTraining (s : State) : State :=
  { s with net := { s.net with links := s.net.links.map (fun x =>
      (x.1, if x.2.state == 1 then { x.2 with state := 3, lanes := 0 } else x.2)) } }

/-- The 30 s mark of R27 is past. -/
def State.pastMark (s : State) : Bool := decide (s.boot.fwSince + fwLimit ≤ s.clk)

/-- BOOT_STAGE (R27, R30, R34): the current stage runs to its end. `fail` is what a stage that drives hardware reports: the reason and detail of
its failure; FETCH's header and VERIFY are computed. VERIFY checks the image that FETCH read. An image that a power loss cut short fails at
FETCH with HDR or at VERIFY with SIGBOTH: R32 says only that the start fails there (DESIGN CHOICE, log entry 60). Stage 6 ends at the 30 s
mark at the latest. -/
def execBootStage (fail : Option (Nat × Nat)) (s : State) : Res :=
  let b := s.boot
  match b.stage, fail with
  | 0, none => .next s.nextStage
  | 0, some (1, _) => .next (s.bootFail 0 1 0)
  | 1, some (2, d) => .next (s.bootFail 1 2 (d % 65536))
  | 1, none =>
    if s.brokenFetch || !Config.imgHeaderOk b.nor || decide (64 < Config.imgVersion b.nor) then .next (s.bootFail 1 3 0)
    else .next s.nextStage
  | 2, none =>
    if b.norBroken then .next (s.bootFail 2 7 0)
    else
      match verifyFail b.running b.fuse with
      | some (r, d) => .next (s.bootFail 2 r d)
      | none => .next s.nextStage
  | 3, none => if b.fwSince + fwLimit < s.clk then .next (s.bootFail 3 9 3) else .next s.nextStage
  | 4, none => if b.fwSince + fwLimit < s.clk then .next (s.bootFail 4 9 4) else .next s.nextStage
  | 4, some (0x0A, d) => .next (s.bootFail 4 0x0A (d % 65536))
  | 5, none => if b.fwSince + fwLimit < s.clk then .next (s.bootFail 5 9 5) else .next s.nextStage
  | 5, some (0x0B, d) => .next (s.bootFail 5 0x0B (d % 65536))
  | 6, none =>
    if s.pastMark then .next s.failTraining.ready7
    else if s.net.links.any (fun x => x.2.state == 1) then .next s else .next s.ready7
  | _, _ => .next s

/-- FWDOG (R27): stages 3 to 5 are not complete 30 s after stage 3 began. -/
def execFwdog (s : State) : Res :=
  let n := s.boot.stage
  if 3 ≤ n ∧ n ≤ 5 ∧ s.boot.fwSince + fwLimit ≤ s.clk then .next (s.bootFail n 9 n) else .next s

/-- LINK_STAGE_END (R27): at the 30 s mark the links still training fail, and the start goes on to READY. -/
def execLinkStageEnd (s : State) : Res :=
  if s.boot.stage = 6 ∧ s.boot.fwSince + fwLimit ≤ s.clk then .next s.failTraining.ready7
  else .next s

/-- Minimal mode (R31). -/
def State.minimal (s : State) : Bool := s.boot.stage == 15

/-! ## BOOT.CTL (R30, R32, R33) -/

/-- BOOT.CTL.RST by a port (R30): a start attempt that is open is recorded as HOSTRS; while BUSY is set the reset waits (R32). -/
def State.rstBy (s : State) (port : Nat) : State :=
  if s.boot.busy then { s with boot := { s.boot with rstWait := some ((s.boot.rstWait).getD port) } }
  else if s.boot.attemptOpen then s.bootFail s.boot.lastStage 0x0E port
  else s.restart

/-- The write of BOOT.CTL.COMMIT (R32): the staged image is taken for verification as it stands at the write, so that later writes of the
staging buffer do not matter; a COMMIT during a start is taken too (DESIGN CHOICE, log entry 60). -/
def State.commitBy (s : State) : State :=
  if s.boot.busy then s else { s with boot := { s.boot with busy := true, writing := false, image := s.boot.staging } }

/-- BOOT_COMMIT (R32) by the port of the cursor. -/
def execBootCommit (s : State) : Res := if s.owns s.cur.port then .next s.commitBy else .next s

/-- BOOT_CLRT (R33). -/
def execBootClrt (s : State) : Res :=
  if s.owns s.cur.port then .next { s with boot := { s.boot with tries := 0 } } else .next s

/-- BOOT_FMIN (R33). -/
def execBootFmin (s : State) : Res :=
  if s.owns s.cur.port then .next { s with boot := { s.boot with fminPending := true } } else .next s

/-- BOOT_RST (R30, R32). -/
def execBootRst (s : State) : Res := if s.owns s.cur.port then .next (s.rstBy s.cur.port) else .next s

/-- A reset that waited for BUSY is carried out. -/
def State.afterBusy (s : State) : State :=
  match s.boot.rstWait with
  | some p => s.rstBy p
  | none => s

/-- COMMIT_VERIFY_DONE (R32). -/
def execCommitVerifyDone (s : State) : Res :=
  if !s.boot.busy || s.boot.writing then .next s
  else
    match verifyFail s.boot.image s.boot.fuse with
    | some (r, d) => .next (State.afterBusy { s with boot := { s.boot.why 2 r d with busy := false } })
    | none => .next { s with boot := { s.boot with writing := true } }

/-- FIRMWARE_WRITE_DONE (R32): in minimal mode the device resets itself. -/
def execFirmwareWriteDone (s : State) : Res :=
  if !s.boot.busy || !s.boot.writing then .next s
  else
    let b := { s.boot with nor := s.boot.image, norBroken := false, busy := false, writing := false, tries := 0 }
    let s1 := { s with boot := b }
    if b.stage = 15 then .next s1.restart else .next s1.afterBusy

/-- DEVICE_RESET (R30): a reset that the device did not request itself, or the return of power. -/
def execDeviceReset (s : State) : Res := .next s.restart

/-- AUX_POWER_LOSS (R30, R33). -/
def execAuxPowerLoss (s : State) : Res :=
  .next { s with boot := { s.boot with tries := 0, attemptOpen := false, fminPending := false, whyV := false, whyStage := 0,
                                       whyReason := 0, whyDetail := 0 } }

/-- POWER_LOSS (R30, R32): all but the always-on domain, the SPI NOR, the fuses and the flash is lost until the next reset; a write under way
leaves a broken image. -/
def execPowerLoss (s : State) : Res :=
  let broken := s.boot.norBroken || s.boot.writing
  let s := s.cleared s.boot.starts
  .next { s with boot := { s.boot with norBroken := broken, off := true } }

/-! ## Power (R37, R38) -/

/-- What the sensors report: PWR.NOW, PWR.TEMP.TMAX and HOT. -/
def Power.sense (p : Power) (watt tmax : Nat) : Power :=
  { p with now := min 4095 watt, tmax := min 255 tmax, hot := decide (100 < tmax) }

/-- POWER_THROTTLE (R37): the sensors report power above PWR.CAP or a die above 100 °C; while it lasts matrix issue clocks are withheld
(`Power.withhold`) and counted as the clock goes on. -/
def execPowerThrottle (watt tmax : Nat) (s : State) : Res := .next { s with power := s.power.sense watt tmax }

/-- THROTTLE_CAUSE_CLEARS (R37): the sensors report again. -/
def execThrottleCauseClears (watt tmax : Nat) (s : State) : Res := .next { s with power := s.power.sense watt tmax }

/-- A write of PWR.CAP (R38). Only bits 11:0 of the value are looked at (DESIGN CHOICE, log entry 60). -/
def State.capWrite (s : State) (v : Word) : State :=
  { s with power := { s.power with cap := min 3200 (max 1000 (bitsOf v 11 0)) } }

/-! ## Links (R18-R25) -/

def State.link (s : State) (n : Nat) : Link := Map.getD s.net.links n .fresh

def State.setLink (s : State) (n : Nat) (l : Link) : State := { s with net := { s.net with links := Map.put s.net.links n l } }

/-- A link in state down. -/
def Link.down (l : Link) : Link := { l with state := 0, lanes := 0 }

/-- TRAIN by the owner (R25): the link is taken down and trains, and its routes are gone (R21); ignored while EN is 0. Links are not powered
in minimal mode (R31). -/
def State.trainLink (s : State) (n : Nat) : State :=
  if (s.link n).en && !s.minimal then
    (s.setLink n { (s.link n) with state := 1, lanes := 0 }).dropRoutes (fun p => p == n)
  else s

/-- A write of EN (R25). -/
def State.enLink (s : State) (n : Nat) (v : Bool) : State :=
  if v then s.setLink n { (s.link n) with en := true }
  else (s.setLink n { (s.link n).down with en := false }).dropRoutes (fun p => p == n)

/-- TRAIN (R25). -/
def execTrain (port link : Nat) (s : State) : Res := if s.owns port && decide (link < 24) then .next (s.trainLink link) else .next s

/-- EN (R25). -/
def execEn (port link : Nat) (v : Bool) (s : State) : Res :=
  if s.owns port && decide (link < 24) then .next (s.enLink link v) else .next s

/-- A write of LNK.CFG (R25): CLEN and LOOP, then EN, then TRAIN. An enabled link enters or leaves loopback with LOOP (log entry 19). -/
def State.cfgWrite (s : State) (n : Nat) (v : Word) : State :=
  let l := s.link n
  let loop := bitOf v 1
  let l := { l with clen := bitsOf v 23 16, loop := loop }
  let l := if loop && l.en && !s.minimal then { l with state := 4, lanes := 0 } else if !loop && l.state == 4 then l.down else l
  let s := s.setLink n l
  let s := if loop then s.dropRoutes (fun p => p == n) else s
  let s := s.enLink n (bitOf v 0)
  if bitOf v 2 then s.trainLink n else s

/-- LINK_TRAINING_DONE (R18, R22): `low` and `high` say whether lanes 0-3 and 4-7 work; with neither the link has failed. `reach` is what
the training learns of the paths beyond the link. At the 30 s mark of a start the link stage ends instead (R27). -/
def execLinkTrainingDone (link : Nat) (low high : Bool) (mdm peer pport : Nat) (reach : List Reach) (s : State) : Res :=
  let l := s.link link
  if l.state ≠ 1 then .next s
  else if s.boot.stage = 6 ∧ s.pastMark then .next s.failTraining.ready7
  else if !low && !high then .next (s.setLink link { l with state := 3, lanes := 0 })
  else
    .next (s.setLink link { l with state := if l.loop then 4 else 2, lanes := if low && high then 8 else 4, mdm := mdm % 256,
                                   peer := peer % 128, pport := pport % 32, reach := reach })

/-- LINK_DOWN (R21). -/
def execLinkDown (link : Nat) (s : State) : Res :=
  .next ((s.setLink link (s.link link).down).dropRoutes (fun p => p == link))

/-- A path to a destination (R20): its hops, its total cable length in dm and the port of its first link. -/
structure Path where
  (hops dm port : Nat)
  deriving DecidableEq, Repr

/-- A link's length in the route computation (R22): the larger of CLEN and MDM. -/
def Link.length (l : Link) : Nat := max l.clen l.mdm

/-- The paths to a destination that the trained links have learned (R22). -/
def State.paths (s : State) (dest : Nat) : List Path :=
  (s.net.links.map (fun x => (x.2.reach.filter (fun r => r.dest == dest)).map (fun r => ⟨r.hops, r.beyond + x.2.length, x.1⟩))).flatten

/-- A path is admissible (R20): at most 3 hops and 6.0 m of cable, its first link up and not in loopback. -/
def State.admissible (s : State) (p : Path) : Bool :=
  decide (p.hops ≤ 3) && decide (p.dm ≤ 60) && (s.link p.port).state == 2 && !(s.link p.port).loop

/-- Path a is chosen before path b (R20). -/
def pathBefore (a b : Path) : Bool :=
  if a.hops ≠ b.hops then decide (a.hops < b.hops)
  else if a.dm ≠ b.dm then decide (a.dm < b.dm)
  else decide (a.port < b.port)

/-- The route among candidate paths (R20). -/
def State.bestPath (s : State) (cands : List Path) : Option Path :=
  (cands.filter s.admissible).foldl (fun b p =>
    match b with
    | none => some p
    | some q => if pathBefore p q then some p else b) none

/-- One line of the route table. -/
def State.setRoute (s : State) (dest : Nat) (r : Route) : State :=
  { s with net := { s.net with routes := Map.put s.net.routes dest r } }

/-- The messages that waited for a destination are carried, in order (R21). -/
def State.carry (s : State) (dest : Nat) : State :=
  { s with net := { s.net with sent := s.net.sent ++ (s.net.waiting.filter (fun x => x.1 == dest)).map Prod.snd,
                               waiting := s.net.waiting.filter (fun x => x.1 != dest) } }

/-- ROUTE_CHANGE (R20-R22): the route to a destination that the computation gives takes effect, and what waited for one is carried; or there
is none. In minimal mode no route is valid (R31). -/
def execRouteChange (dest : Nat) (s : State) : Res :=
  let old := s.route dest
  if s.minimal then .next s
  else
    match s.bestPath (s.paths dest) with
    | some p =>
      .next ((s.setRoute dest { v := true, h := p.hops, port := p.port, cdm := p.dm, lost := 0 }).carry dest)
    | none => .next (s.setRoute dest { v := false, h := 0, port := old.port, cdm := 0, lost := if old.v then s.clk else old.lost })

/-- A request fails (R21, R171, R434). -/
def State.failReq (s : State) (id : Nat) : State :=
  match execRemoteResponse id .failed s with
  | .next t => t
  | .fault _ => s
  | .refused _ => s

/-- NO_ROUTE_TIMEOUT (R21): the destination has had no route for 1 ms; every request to it fails. -/
def execNoRouteTimeout (dest : Nat) (s : State) : Res :=
  let r := Map.getD s.net.routes dest .fresh
  if r.v ∨ s.clk < r.lost + msClk then .next s
  else .next (((s.net.reqs.filter (fun x => x.2.dev == dest)).map Prod.fst).foldl (fun s id => s.failReq id) s)

/-- FLIT_CRC_REPLAY (R19, R25): a flit fails its CRC and is replayed; the receiver counts it in CRCE, the sender in RETRY. -/
def execFlitCrcReplay (link : Nat) (received : Bool) (s : State) : Res :=
  let l := s.link link
  .next (s.setLink link (if received then { l with crce := min 0xFFFF (l.crce + 1) } else { l with retry := min 0xFFFF (l.retry + 1) }))

/-! ## The registers of the window (R25, R26, R33, R38, R44) -/

def Link.cfg (l : Link) : Word :=
  word (l.clen * 2 ^ 16 + (if l.loop then 2 else 0) + (if l.en then 1 else 0))

def Link.stat (l : Link) : Word :=
  word (l.retry * 2 ^ 48 + l.crce * 2 ^ 32 + l.mdm * 2 ^ 24 + l.peer * 2 ^ 17 + l.pport * 2 ^ 12 + l.lanes * 2 ^ 8 + l.state)

/-- LNK.RT[d]: a valid route's fields; zero for the own id (R25). While V is 0 the other fields read 0 too (DESIGN CHOICE, log entry 60). -/
def State.rtWord (s : State) (d : Nat) : Word :=
  let r := Map.getD s.net.routes d .fresh
  if r.v && d != s.net.devid then word (2 ^ 15 + r.h * 2 ^ 13 + r.port * 2 ^ 8 + r.cdm) else 0

def Boot.stat (b : Boot) : Word := word (b.sver * 2 ^ 32 + (if b.busy then 16 else 0) + b.stage)

def Boot.whyWord (b : Boot) : Word :=
  word ((if b.whyV then 2 ^ 31 else 0) + b.whyStage * 2 ^ 24 + b.whyReason * 2 ^ 16 + b.whyDetail)

def Power.temp (p : Power) : Word := word ((if p.trip then 2 ^ 9 else 0) + (if p.hot then 2 ^ 8 else 0) + p.tmax)

/-- The staging buffer's place in the window. -/
def stagingBase : Nat := 0x1000000

/-- The register or buffer word at an offset of the management window as a port sees it (R26). -/
def State.mgmtWord (s : State) (port off : Nat) : Word :=
  if off % 8 ≠ 0 then 0
  else if off < 0x80 then s.variant.caps (off / 8)
  else if off = 0x100 then s.ownWord port
  else if off = 0x108 then word (if s.mgmt.held then s.mgmt.leftMs else 0)
  else if off = 0x200 then s.boot.stat
  else if off = 0x208 then s.boot.whyWord
  else if off = 0x210 then word s.boot.tries
  else if off = 0x300 then word s.net.devid
  else if 0x400 ≤ off ∧ off < 0x400 + 8 * 24 then (s.link ((off - 0x400) / 8)).cfg
  else if 0x500 ≤ off ∧ off < 0x500 + 8 * 24 then (s.link ((off - 0x500) / 8)).stat
  else if 0x1000 ≤ off ∧ off < 0x1000 + 8 * 128 then s.rtWord ((off - 0x1000) / 8)
  else if off = 0x2000 then word s.power.cap
  else if off = 0x2008 then word s.power.now
  else if off = 0x2010 then s.power.thr
  else if off = 0x2018 then s.power.temp
  else if stagingBase ≤ off ∧ off < stagingBase + 2 ^ 25 then leWord (Mem.read s.boot.staging (off - stagingBase) 8)
  else 0

/-- A read of the management window by a port, but for the effect of a read of MGMT.OWN (R26): an aligned read of 8 bytes, or of 4, which
gives either half; any other reads 0. -/
def State.mgmtRead (s : State) (port off size : Nat) : Word :=
  if size = 8 then s.mgmtWord port off
  else if size = 4 ∧ off % 4 = 0 then zextN 32 (s.mgmtWord port (off - off % 8) >>> (8 * (off % 8)))
  else 0

/-- A write of BOOT.CTL (R33): COMMIT, CLRT and FMIN, then RST. -/
def State.ctlWrite (s : State) (port : Nat) (v : Word) : State :=
  let s := if bitOf v 3 then s.commitBy else s
  let s := if bitOf v 2 then { s with boot := { s.boot with tries := 0 } } else s
  let s := if bitOf v 1 then { s with boot := { s.boot with fminPending := true } } else s
  if bitOf v 0 then s.rstBy port else s

/-- An aligned 8-byte write of the management window by a port (R26), with the ownership checks of R45. -/
def State.mgmtWrite (s : State) (port off : Nat) (v : Word) : State :=
  if off % 8 ≠ 0 then s
  else if off = 0x100 then s.ownWrite port v
  else if off = 0x108 then s.hbWrite port
  else if off = 0x2018 then (if bitOf v 9 then { s with power := { s.power with trip := false } } else s)
  else if !s.owns port then s
  else if off = 0x208 then (if bitOf v 31 then { s with boot := { s.boot with whyV := false } } else s)
  else if off = 0x218 then s.ctlWrite port v
  else if off = 0x300 then
    (if s.net.links.any (fun x => x.2.state == 1 || x.2.state == 2) then s
     else { s with net := { s.net with devid := bitsOf v 6 0 } })
  else if 0x400 ≤ off ∧ off < 0x400 + 8 * 24 then s.cfgWrite ((off - 0x400) / 8) v
  else if off = 0x2000 then s.capWrite v
  else if stagingBase ≤ off ∧ off < stagingBase + 2 ^ 25 then
    { s with boot := { s.boot with staging := Mem.write s.boot.staging (off - stagingBase) (leBytes 8 v.toNat) } }
  else s

/-! ## BAR2 (R41, R46, R49) -/

/-- MB.STAT and LW.ERR (R46, R49). -/
def PortSt.mbStat (p : PortSt) : Word := word (p.err * 2 ^ 8 + (if p.done then 2 else 0) + (if p.busy then 1 else 0))

def PortSt.lwErr (p : PortSt) : Word := word (p.errSlot * 2 ^ 16 + (if p.misal then 2 else 0) + (if p.ovr then 1 else 0))

/-- An aligned 8-byte read of BAR2 (R41): the launch window, the mailbox, the MSI-X table and the PBA, in which nothing is ever pending
(log entry 48). -/
def State.bar2Read (s : State) (port off : Nat) : Word :=
  let p := s.hport port
  if off % 8 ≠ 0 then 0
  else if off < 0x1000 then leWord (Mem.read p.ring off 8)
  else if off = 0x1000 then word p.prod
  else if off = 0x1008 then word p.cons
  else if off = 0x1010 then p.lwErr
  else if 0x2000 ≤ off ∧ off < 0x3000 then leWord (Mem.read p.mbuf (off - 0x2000) 8)
  else if off = 0x3008 then p.mbStat
  else if 0x4000 ≤ off ∧ off < 0x4400 then leWord (Mem.read p.msixTab (off - 0x4000) 8)
  else 0

/-- A read of BAR4 (R41): it is present while CXL is negotiated, and its registers are CXL's own, of which the spec gives none: the model
keeps the bytes written (log entry 48). -/
def State.bar4Read (s : State) (port off n : Nat) : List Byte :=
  if (s.hport port).cxl then Mem.read (s.hport port).bar4 off n else List.replicate n 0

/-- MB.DOOR (R46): the command starts at the mailbox contents of this moment, and with the ownership of this moment (R43, R45). -/
def State.door (s : State) (port : Nat) : State :=
  let p := s.hport port
  if p.busy then s else s.setHport port { p with busy := true, done := false, cmd := p.mbuf, owned := s.owns port, ans := none, xdel := none }

/-- A write of BAR2 (R41, R46, R49): buffers take writes of 1 to 8 bytes, registers aligned writes of 8. -/
def State.bar2Write (s : State) (port off size : Nat) (v : Word) : State :=
  let p := s.hport port
  if size = 0 ∨ 8 < size then s
  else if off + size ≤ 0x1000 then s.setHport port { p with ring := Mem.write p.ring off (leBytes size v.toNat) }
  else if 0x2000 ≤ off ∧ off + size ≤ 0x3000 then
    (if p.busy then s else s.setHport port { p with mbuf := Mem.write p.mbuf (off - 0x2000) (leBytes size v.toNat) })
  else if 0x4000 ≤ off ∧ off + size ≤ 0x4400 then
    s.setHport port { p with msixTab := Mem.write p.msixTab (off - 0x4000) (leBytes size v.toNat) }
  else if size ≠ 8 then s
  else if off = 0x1000 then s.prodWrite port v
  else if off = 0x1010 then s.setHport port { p with misal := p.misal && !bitOf v 1, ovr := p.ovr && !bitOf v 0 }
  else if off = 0x3000 then (if bitOf v 0 then s.door port else s)
  else if off = 0x3008 then s.setHport port { p with done := p.done && !bitOf v 1 }
  else s

/-- A write of BAR4 (R41). -/
def State.bar4Write (s : State) (port off size : Nat) (v : Word) : State :=
  let p := s.hport port
  if p.cxl && decide (size ≤ 8) && decide (off + size ≤ 65536) then
    s.setHport port { p with bar4 := Mem.write p.bar4 off (leBytes size v.toNat) }
  else s

/-- REGISTER_WRITE (R26, R41): a write of a port to a register or buffer of BAR0, BAR2 or BAR4. -/
def execRegisterWrite (port bar off size : Nat) (v : Word) (s : State) : Res :=
  if bar = 0 then (if size = 8 then .next (s.mgmtWrite port off v) else .next s)
  else if bar = 2 then .next (s.bar2Write port off size v)
  else if bar = 4 then .next (s.bar4Write port off size v)
  else .next s

end Sys2Proof.Machine
end

