-- ==== Sys2Proof/Machine/Collective.lean ====
section
/-! DEFINITION. The K instructions (R365-R371). -/

namespace Sys2Proof.Machine

/-- No KRING of the context waits in its engine (R366). -/
def State.noRing (s : State) : Bool := !s.me.eng.coll.any (fun m => m.op == 0)

/-- The K command at the head of its stream, in the engine of the core's die (R365). -/
def State.kCmd (s : State) : Cmd :=
  { Cmd.fresh s.head s.clk s.me.eng.copyNest s.me.eng.matNest with die := dieAt s.cur.cid }

/-- The command joins those that its context has in the engine, of which there are at most 16 (R228). -/
def State.kStart (s : State) (sy : Sync) (m : Cmd) : State :=
  (s.start sy).modMe (fun c => c.modEng (fun g => { g with coll := g.coll ++ [m] }))

/-- A K command that runs in the engine, after its checks. -/
def State.kGo (s : State) (sy : Sync) (ok : Bool) : Res :=
  s.engineOp 3 sy (s.noRing && decide (s.me.eng.coll.length < 16))
    (if ok then .next (s.kStart sy s.kCmd) else s.trapStart (.coll 0) 1 0 0)

/-- An instruction that has its whole effect when it starts. -/
def State.kDone (s : State) (sy : Sync) : Res :=
  .next (((s.start sy).visible s.cur.cid 3 sy s.head.w s.head.addr).signalOf s.cur.cid sy 3 0 s.head.w s.head.addr)

/-- kring (R366, R432): it waits for the launch's commands on the ring. Where its descriptor lies on another device it starts
and its request is sent; else the ring is entered at once. -/
def execKring (o : EIdx) (s : State) : Res :=
  s.engineOp 3 o.sy (s.noRing && decide (s.me.eng.coll.length < 16) && s.kringFree s.cur.cid o.g)
    (match s.kringDo s.cur.cid s.kCmd with
     | .ok s' => s'.kDone o.sy
     | .error (.fault c d fa) => s.trapStart (.coll 0) c d fa
     | .error (.need _ _ _ _) => .next (s.kStart o.sy s.kCmd)
     | .error .wait => .next s)

/-- kbw (R367). -/
def execKbw (o : EReg) (s : State) : Res :=
  s.engineOp 3 o.sy s.noRing
    (let v := s.head.a
     let wc := bitsOf v 7 0
     let wl := bitsOf v 15 8
     if bitsOf v 63 16 ≠ 0 ∨ wc = 0 ∨ wl = 0 then s.trapStart (.coll 0) 1 0 0
     else
       let d := dieAt s.cur.cid
       (s.setColl d { s.coll d with wc := wc, wl := wl }).kDone o.sy)

/-- The launch of the context holds a ring id on its engine. -/
def State.holdsRing (s : State) (g : Nat) : Bool :=
  match Map.find (s.coll (dieAt s.cur.cid)).rings g with
  | some r => r.launch == s.me.launch
  | none => false

/-- The checks of kallred and kbcast at their start (R365, R368, R369). -/
def State.karOk (s : State) (g : Nat) : Bool :=
  inRange s.head.b 1 1024 && s.head.a.toNat % 8 == 0 && s.holdsRing g

/-- A KALLRED or KBCAST that starts: its buckets take the next numbers of its ring, in list order (R369). -/
def State.karGo (s : State) (sy : Sync) (g : Nat) : Res :=
  s.engineOp 3 sy (s.noRing && decide (s.me.eng.coll.length < 16))
    (if s.karOk g then
      let d := dieAt s.cur.cid
      match Map.find (s.coll d).rings g with
      | some r =>
        let m := { s.kCmd with numBase := r.next }
        let s := s.setColl d { s.coll d with rings := Map.put (s.coll d).rings g { r with next := r.next + s.head.b.toNat } }
        .next (s.kStart sy m)
      | none => s.trapStart (.coll 0) 1 0 0
     else s.trapStart (.coll 0) 1 0 0)

/-- kallred (R369): s[ra] the bucket list, s[rb] its entries. -/
def execKallred (o : KarF) (s : State) : Res := s.karGo o.sy o.g

/-- kbcast (R370). -/
def execKbcast (o : KarF) (s : State) : Res := s.karGo o.sy o.g

/-- kput (R371): s[ra] the source, s[rb] the destination, s[rc] the length. -/
def execKput (o : E3) (s : State) : Res := s.kGo o.sy (inRange s.head.c 1 (2 ^ 32))

end Sys2Proof.Machine
end

