-- ==== Sys2Proof/Machine/CopyEng.lean ====
section
/-! DEFINITION. The instructions of the copy engine (R346, R353-R360). -/

namespace Sys2Proof.Machine

/-! ## Setups (R346) -/

/-- A setup of the copy nest's shadow set. -/
def State.copySetup (s : State) (sy : Sync) (f : Word → NestSet → Option NestSet) : Res :=
  s.setupOp 0 sy (fun v g => (f v g.copyNest).map (fun n => { g with copyNest := n }))

/-- cnest.count (R346). -/
def execCnestCount (o : ELvl) (s : State) : Res := s.copySetup o.sy (fun v n => n.setCount o.lvl v)

/-- cnest.stride (R346). -/
def execCnestStride (o : EStr) (s : State) : Res := s.copySetup o.sy (fun v n => n.setStride o.lvl o.j v)

/-- cnest.run (R346). -/
def execCnestRun (o : EReg) (s : State) : Res := s.copySetup o.sy (fun v n => n.setRun v)

/-- cbase.addr (R346). -/
def execCbaseAddr (o : EBase) (s : State) : Res := s.copySetup o.sy (fun v n => n.setBase o.j o.sp v)

/-- cbase.scale (R346). -/
def execCbaseScale (o : EBase) (s : State) : Res := s.copySetup o.sy (fun v n => n.setSbase o.j o.sp v)

/-- cfmt.fmt (R345, R346). -/
def execCfmtFmt (o : EFmt) (s : State) : Res := s.copySetup o.sy (fun v n => n.setFmt o.j v)

/-- cfmt.fill (R346). -/
def execCfmtFill (o : EReg) (s : State) : Res := s.copySetup o.sy (fun v n => some { n with fill := v })

/-- cfmt.limit (R346). -/
def execCfmtLimit (o : EReg) (s : State) : Res := s.copySetup o.sy (fun v n => some { n with limit := v })

/-- cfmt.subv (R346). -/
def execCfmtSubv (o : EReg) (s : State) : Res := s.copySetup o.sy (fun v n => some { n with subv := v })

/-- cfmt.clear (R346): every field to its reset value. -/
def execCfmtClear (o : ENone) (s : State) : Res := s.copySetup o.sy (fun _ _ => some .fresh)

/-! ## Promises (R360) -/

/-- The path width and the distance of the space that a base word names. -/
def State.spaceWH (s : State) (cid : Nat) (b : Word) : Nat × Nat :=
  match spaceOf b with
  | 0 =>
    let a := addrOf b
    if 0x1E0 * 2 ^ 48 ≤ a ∧ a < 0x1F0 * 2 ^ 48 then (32, 1880)
    else
      (match s.leafFor (cid / 2) (s.ptroot (s.ctx cid).launch) a with
       | .leaf e _ => if bitsOf e 51 45 ≠ s.net.devid then (128, 564) else (256, 96)
       | .fault _ _ => (256, 96))
  | 1 => (1024, 0)
  | 2 => (256, 24)
  | 3 => (512, 24)
  | 4 => (512, 0)
  | _ => (16, 47000)

/-- The promise of a copy-family command that starts now (R328, R360). -/
def State.promiseOf (s : State) (cid ch : Nat) (n : NestSet) (src dst : List Nat) (list : Option Word) (dec : Bool) : Word :=
  let sz := fun j => fSize (n.fmtW j)
  let per := n.runs * n.runLen
  let rd := if dec then 0
    else (src.map (fun j => per * sz j)).foldl (· + ·) 0 + (if list.isSome then 8 * n.runs else 0)
  let wr := (dst.map (fun j => per * sz j)).foldl (· + ·) 0
  let whs := (src ++ dst).map (fun j => s.spaceWH cid (n.baseW j)) ++
    (match list with | some a => [s.spaceWH cid (word (a.toNat % 2 ^ 57))] | none => [])
  let w := (whs.map Prod.fst).foldl min 1024
  let h := (whs.map Prod.snd).foldl max 0
  let e := ((src ++ dst).map sz).foldl min 8
  let w := [0, 1].foldl (fun w p =>
    match s.program cid p with | some k => min w ((s.slot cid k).laneCount * e) | none => w) w
  let t := s.clk + 48 + (max rd wr + w - 1) / w + h
  word (t * 16 + ch % 8 * 2 + 1)

/-! ## Starting a command (R350-R353, R359) -/

/-- What a copy-family command names. -/
structure CopyGo where
  (sy : Sync) (ch rc : Nat) (os od : Bool) (src dst : List Nat) (list : Option Word) (listed : Option Nat) (dec : Bool)
  deriving DecidableEq, Repr

/-- The active set: the shadow set with the base overrides, unless one has a bit of 63:57 set (R353). -/
def CopyGo.nest (c : CopyGo) (n : NestSet) (h : QEnt) : Option NestSet :=
  if (c.os && decide (2 ^ 57 ≤ h.a.toNat)) || (c.od && decide (2 ^ 57 ≤ h.b.toNat)) then none
  else
    let n := if c.os then { n with base := Map.put n.base 0 (baseWord (spaceOf (n.baseW 0)) h.a) } else n
    some (if c.od then { n with base := Map.put n.base 4 (baseWord (spaceOf (n.baseW 4)) h.b) } else n)

/-- The checks of R347 and R350: nothing, or a cause with DETAIL and FADDR. -/
def State.copyCheck (s : State) (c : CopyGo) (n : NestSet) : Option (Nat × Nat × Word) :=
  let ok : Nat → Bool := fun j => n.streamOk j (decide (j < 4)) true (c.listed == some j) (c.dec && j == 0)
  let list8 := match c.list with | some a => a.toNat % 8 == 0 | none => true
  if !((c.src ++ c.dst).all ok && list8) then some (1, 0, 0)
  else
    match (c.src ++ c.dst).find? (fun j => s.flashBad (n.baseW j) (c.dec && j == 0)) with
    | some j => some (6, 5, word (addrOf (n.baseW j)))
    | none => none

/-- The channel is free, and with a program at cin or cout no other copy-family command of the context runs (R352, R359). -/
def State.copyFree (s : State) (cid ch : Nat) : Bool :=
  let g := (s.ctx cid).eng
  let bound := (s.program cid 0).isSome || (s.program cid 1).isSome
  (Map.find g.chans ch).isNone && !(bound && g.chans.any (fun x => decide (3 ≤ x.2.op) && decide (x.2.op ≤ 7)))

/-- A copy-family command starts: the active set, the streams of its points, and the promise, which lands in rc on the next
clk (R96), before which S does not issue. -/
def State.copyStart (s : State) (c : CopyGo) (n : NestSet) : State :=
  let cid := s.cur.cid
  let p := s.promiseOf cid c.ch n c.src c.dst c.list c.dec
  let m : Cmd := { Cmd.fresh s.head s.clk n s.me.eng.matNest with promise := p, dec := ⟨addrOf (n.baseW 0), [], 0, 0⟩ }
  let s := s.start c.sy
  let s := s.modMe (fun x => x.modEng (fun g =>
    ({ g with copyActive := Map.put g.copyActive c.ch n }).setCmd (.ch c.ch) m))
  let s := s.beginStreams cid (.ch c.ch) m
  if c.rc = 0 then s
  else
    s.modMe (fun x => x.modSc (fun q =>
      { q.arrive (s.clk + 1) c.rc p with nextIssue := max q.nextIssue (s.clk + 1) }))

/-- A copy-family command at the head of C. -/
def State.copyGo (s : State) (c : CopyGo) : Res :=
  s.engineOp 0 c.sy (s.copyFree s.cur.cid c.ch)
    (match c.nest s.me.eng.copyNest s.head with
     | none => s.trapStart (.ch c.ch) 1 0 0
     | some n =>
       match s.copyCheck c n with
       | some (code, d, fa) => s.trapStart (.ch c.ch) code d fa
       | none => .next (s.copyStart c n))

/-- copy (R353, R354). -/
def execCopy (o : CopyF) (s : State) : Res :=
  s.copyGo ⟨o.sy, o.ch, o.rc, o.os.isSome, o.od.isSome, [0], [4], none, none, false⟩

/-- copyz (R353, R354). -/
def execCopyz (o : CopyzF) (s : State) : Res :=
  s.copyGo ⟨o.sy, o.ch, o.rc, false, false, List.range o.ns, (List.range o.nd).map (fun j => 4 + j), none, none, false⟩

/-- gather (R353, R355): s[ra] is the list, s[rb] the destination base if OD. -/
def execGather (o : GatherF) (s : State) : Res :=
  s.copyGo ⟨o.sy, o.ch, o.rc, false, o.od.isSome, [0], [4], some s.head.a, some 0, false⟩

/-- scatter (R353, R355): s[rb] is the list, s[ra] the source base if OS. -/
def execScatter (o : ScatterF) (s : State) : Res :=
  s.copyGo ⟨o.sy, o.ch, o.rc, o.os.isSome, false, [0], [4], some s.head.b, some 4, false⟩

/-- decomp (R353, R356). -/
def execDecomp (o : CopyF) (s : State) : Res :=
  s.copyGo ⟨o.sy, o.ch, o.rc, o.os.isSome, o.od.isSome, [0], [4], none, none, true⟩

/-! ## drain and cpref (R180, R358) -/

/-- Every write of a channel is performed at .dom: none stands in the C path's queue, none awaits its acknowledgement. -/
def State.chanDone (s : State) (cid ch : Nat) : Bool :=
  (Map.find (s.ctx cid).eng.chans ch).isNone && ((s.ctx cid).eng.wqOf 0).all (fun w => w.u != .ch ch) &&
  s.net.reqs.all (fun x => x.2.cid != cid ||
    match x.2.kind with
    | .engineStore 0 u _ => u != .ch ch
    | .engineStore _ _ _ => true | .kput => true | .load => true | .store => true | .atomic _ _ _ _ => true
    | .vamo _ _ _ _ _ _ _ _ => true | .waita _ _ _ _ => true | .engine _ _ _ => true | .tstb _ _ _ => true
    | .spawn _ => true | .pload _ _ _ => true | .notice => true | .refetch _ => true)

/-- The shadow set becomes the active set of a channel (R353). -/
def State.takeNest (s : State) (ch : Nat) : State :=
  s.modMe (fun x => x.modEng (fun g => { g with copyActive := Map.put g.copyActive ch g.copyNest }))

/-- drain (R180, R358): held at the head of C until its channel's commands have completed and their writes are performed; a
write of the channel that failed is reported here, and the drain is not performed (R434). -/
def execDrain (o : DrainF) (s : State) : Res :=
  s.engineOp 0 o.sy (s.chanDone s.cur.cid o.ch)
    (match s.reportWhere s.cur.cid (fun f => f.u == .ch o.ch) s.head.w s.head.addr with
     | some s' => .next s'
     | none =>
       .next ((((s.takeNest o.ch).start o.sy).visible s.cur.cid 0 o.sy s.head.w s.head.addr).signalOf s.cur.cid o.sy 0 0 s.head.w
         s.head.addr))

/-- cpref (R358): a command of its channel that reads at most 16 MiB into L2, whose contents are not visible, and writes nothing; its walks
enter the TLB (R135). A length of 0 completes at once. -/
def execCpref (o : CprefF) (s : State) : Res :=
  s.engineOp 0 o.sy ((Map.find s.me.eng.chans o.ch).isNone)
    (let m : Cmd := { Cmd.fresh s.head s.clk s.me.eng.copyNest s.me.eng.matNest with ended := true }
     let s1 := ((s.takeNest o.ch).start o.sy).setCmd s.cur.cid (.ch o.ch) m
     .next (if s.head.b = 0 then s1.complete s.cur.cid (.ch o.ch)
       else s1.noteRanges s.cur.cid [⟨.eread, 0, s.head.a.toNat, min s.head.b.toNat (2 ^ 24)⟩]))

end Sys2Proof.Machine
end

