-- ==== Sys2Proof/Machine/Matrix.lean ====
section
/-! DEFINITION. The instructions of the matrix engine but for the dendritic ones (R373-R393). -/

namespace Sys2Proof.Machine

/-! ## Setups (R379-R382) -/

/-- A setup of the matrix shadow set. -/
def State.matSetup (s : State) (sy : Sync) (f : Word → MatSet → Option MatSet) : Res :=
  s.setupOp 1 sy (fun v g => (f v g.matNest).map (fun n => { g with matNest := n }))

def MatSet.setCount (n : MatSet) (l : Nat) (v : Word) : Option MatSet :=
  if inRange v 1 65536 then some { n with cnt := Map.put n.cnt l (v.toNat - 1) } else none

def MatSet.setStride (n : MatSet) (l j : Nat) (v : Word) : Option MatSet :=
  if j < 4 ∧ -(2 ^ 39) ≤ v.toInt ∧ v.toInt < 2 ^ 39 then some { n with str := Map.put n.str (4 * l + j) v.toInt } else none

/-- BASE[j]: the pairs (j, sp) of R379, and a tile number below 64. -/
def MatSet.setBase (n : MatSet) (j sp : Nat) (v : Word) : Option MatSet :=
  let ok : Bool := match j, sp with
    | 0, 1 => true | 1, 4 => true | 2, 4 => true
    | 3, 0 => decide (v.toNat < 64)
    | _, _ => false
  if ok ∧ v.toNat < 2 ^ 57 then some { n with base := Map.put n.base j (baseWord sp v) } else none

/-- SBASE: A, B and the drain's, with their spaces (R379). -/
def MatSet.setSbase (n : MatSet) (j sp : Nat) (v : Word) : Option MatSet :=
  let key : Option Nat := match j, sp with
    | 0, 1 => some 0 | 1, 4 => some 1
    | 4, 0 => some 2 | 4, 1 => some 2 | 4, 2 => some 2 | 4, 3 => some 2
    | _, _ => none
  match key with
  | some k => if v.toNat < 2 ^ 57 then some { n with sbase := Map.put n.sbase k (baseWord sp v) } else none
  | none => none

/-- mnest.count (R379). -/
def execMnestCount (o : ELvl) (s : State) : Res := s.matSetup o.sy (fun v n => n.setCount o.lvl v)

/-- mnest.stride (R379). -/
def execMnestStride (o : EStr) (s : State) : Res := s.matSetup o.sy (fun v n => n.setStride o.lvl o.j v)

/-- mbase.addr (R379). -/
def execMbaseAddr (o : EBase) (s : State) : Res := s.matSetup o.sy (fun v n => n.setBase o.j o.sp v)

/-- mbase.scale (R379). -/
def execMbaseScale (o : EBase) (s : State) : Res := s.matSetup o.sy (fun v n => n.setSbase o.j o.sp v)

/-- mbase.pitch (R379). -/
def execMbasePitch (o : EReg) (s : State) : Res := s.matSetup o.sy (fun v n => some { n with apitch := v })

/-- mbase.dpitch (R379). -/
def execMbaseDpitch (o : EReg) (s : State) : Res := s.matSetup o.sy (fun v n => some { n with rowp := v })

/-- mfmt.ctl (R379): S has checked the value at decode (R380). -/
def execMfmtCtl (o : EReg) (s : State) : Res := s.matSetup o.sy (fun v n => some { n with mctl := v })

/-- mfmt.dctl (R379, R382). -/
def execMfmtDctl (o : EReg) (s : State) : Res :=
  s.matSetup o.sy (fun v n => if dctlOk v then some { n with dctl := v } else none)

/-- mfmt.dsb (R379). -/
def execMfmtDsb (o : EReg) (s : State) : Res := s.matSetup o.sy (fun v n => some { n with dsb := v })

/-- mfmt.clip (R379). -/
def execMfmtClip (o : EReg) (s : State) : Res := s.matSetup o.sy (fun v n => some { n with dclip := v })

/-- mfmt.subv (R379). -/
def execMfmtSubv (o : EReg) (s : State) : Res := s.matSetup o.sy (fun v n => some { n with subv := v })

/-- mfmt.clear (R379). -/
def execMfmtClear (o : ENone) (s : State) : Res := s.matSetup o.sy (fun _ _ => some .fresh)

/-! ## Starts -/

/-- A command of a matrix unit starts. `active` says that the shadow set becomes the active set. -/
def State.matStart (s : State) (sy : Sync) (u : EUnit) (active : Bool) (m : Cmd) : Res :=
  let s1 := (s.start sy).modMe (fun x => x.modEng (fun g =>
    (if active then { g with matActive := m.mat } else g).setCmd u m))
  .next (s1.beginStreams s.cur.cid u m)

/-- A command of a matrix unit at the head of M: once the unit's previous command of the context has completed (R373), its
checks, then its start. -/
def State.matGo (s : State) (sy : Sync) (u : EUnit) (check : Option (Nat × Nat × Word)) (active : Bool) (m : Cmd) : Res :=
  s.engineOp 1 sy ((s.cmd s.cur.cid u).isNone)
    (match check with
     | some (code, d, fa) => s.trapStart u code d fa
     | none => s.matStart sy u active m)

/-- The command that the head of M would start. -/
def State.matCmd (s : State) : Cmd := .fresh s.head s.clk s.me.eng.copyNest s.me.eng.matNest

/-- The strides of a stream, over all levels, and its base are multiples of a number. -/
def MatSet.aligned (n : MatSet) (j z : Nat) : Bool :=
  addrOf (n.baseW j) % z == 0 && (List.range 6).all (fun l => n.stride l j % (z : Int) == 0)

/-- The checks of R384 that raise the illegal instruction; `lo` is the lowest level whose tile stride counts. -/
def MatSet.goOk (n : MatSet) (lo : Nat) : Bool :=
  mctlOk n.mctl && spaceOf (n.baseW 0) == 1 && spaceOf (n.baseW 1) == 4 && spaceOf (n.baseW 3) == 0 &&
  (!mSp n.mctl || (spaceOf (n.baseW 2) == 4 && n.aligned 2 8)) && n.aligned 0 n.aT.bytes &&
  n.aligned 1 (if n.bT.bits = 16 then 6144 else 3072) && !(n.pair && (n.tileSet lo).contains 63) &&
  (!mAblk n.mctl || spaceOf (n.sbaseW 0) == 1) && (!mBblk n.mctl || spaceOf (n.sbaseW 1) == 4)

/-- Tiles from t on, c of them, are tiles of the partition (R90). -/
def State.tilesIn (s : State) (t c : Nat) : Bool := decide (t + c ≤ s.me.hdr.acc)

/-- The checks of MGO: illegal, or a tile outside the partition (R384). -/
def State.mgoCheck (s : State) (n : MatSet) (lo : Nat) : Option (Nat × Nat × Word) :=
  if !n.goOk lo then some (1, 0, 0)
  else if (n.tiles lo).all (fun t => decide (0 ≤ t) && decide (t < (s.me.hdr.acc : Int))) then none
  else some (7, 1, 0)

/-- mgo (R384, R385). -/
def execMgo (o : ENone) (s : State) : Res := s.matGo o.sy .array (s.mgoCheck s.me.eng.matNest 0) true s.matCmd

/-- A tile range: its count is 1 to 64 and its last tile at most 63 (R388, R390); then its tiles are in the partition. -/
def State.rangeCheck (s : State) (t c : Word) (ok : Bool) : Option (Nat × Nat × Word) :=
  if !(inRange c 1 64 && decide (t.toNat + c.toNat ≤ 64) && ok) then some (1, 0, 0)
  else if s.tilesIn t.toNat c.toNat then none
  else some (7, 1, 0)

/-- mzero (R388): s[ra] the first tile, s[rb] the count. -/
def execMzero (o : MzeroF) (s : State) : Res := s.matGo o.sy .drainU (s.rangeCheck s.head.a s.head.b true) false s.matCmd

/-- minit (R388): s[ra] the first tile, s[rb] the source, s[rc] the count. -/
def execMinit (o : MinitF) (s : State) : Res :=
  s.matGo o.sy .drainU (s.rangeCheck s.head.a s.head.c (s.head.b.toNat % 32 == 0)) false s.matCmd

/-- The checks of MDRAIN (R390): every D and RP a multiple of 8, a legal DCTL, and a type that may be block-scaled. -/
def MatSet.drainOk (n : MatSet) (b c : Word) : Bool :=
  b.toNat % 8 == 0 && (c == 1 || n.tstr % 8 == 0) && n.rp % 8 == 0 && dctlOk n.dctl && (!dBlk n.dctl || blkType n.dT)

/-- mdrain (R389, R390): s[ra] the first tile, s[rb] the destination, s[rc] the count; the drain fields of the shadow set are
snapshot in the command. -/
def execMdrain (o : MdrainF) (s : State) : Res :=
  s.matGo o.sy .drainU (s.rangeCheck s.head.a s.head.c (s.me.eng.matNest.drainOk s.head.b s.head.c)) false s.matCmd

/-- The checks of MSPARSE (R392). -/
def MatSet.sparseOk (n : MatSet) (h : QEnt) : Bool :=
  (mBType n.mctl == some .e4m3 || mBType n.mctl == some .e5m2 || mBType n.mctl == some .i8 || mBType n.mctl == some .ui8) &&
  h.a.toNat % 3072 == 0 && h.b.toNat % 3072 == 0 && inRange h.c 1 65536

/-- msparse (R392): s[ra] the dense offset, s[rb] the sparse one, s[rc] the steps; BTYPE and BASE[2] are snapshot. -/
def execMsparse (o : E3) (s : State) : Res :=
  s.matGo o.sy .array (if s.me.eng.matNest.sparseOk s.head then none else some (1, 0, 0)) false s.matCmd

end Sys2Proof.Machine
end

