-- ==== Sys2Proof/Machine/Dendritic.lean ====
section
/-! DEFINITION. The dendritic instructions (R395-R399), which S decodes on class-Q cores only (R264). -/

namespace Sys2Proof.Machine

/-- A setup of the matrix shadow set that takes two operands. -/
def State.denSetup (s : State) (sy : Sync) (f : QEnt → MatSet → Option MatSet) : Res :=
  s.setupOp 1 sy (fun _ g => (f s.head g.matNest).map (fun n => { g with matNest := n }))

/-- An offset that its field of 23 bits holds. -/
def fits23 (v : Word) : Bool := decide (v.toNat < 2 ^ 23)

/-- dmap (R395): s[ra] the map's offset, s[rb] its entries. -/
def execDmap (o : E2) (s : State) : Res :=
  s.denSetup o.sy (fun h n =>
    if h.a.toNat % 2 = 0 ∧ fits23 h.a ∧ inRange h.b 1 2048 then
      some { n with dmapw := word (h.b.toNat * 2 ^ 32 + h.a.toNat) }
    else none)

/-- dcurve (R395): s[ra] the table's offset. -/
def execDcurve (o : EIdx) (s : State) : Res :=
  s.denSetup o.sy (fun h n =>
    if h.a.toNat % 16 = 0 ∧ fits23 h.a then some { n with dcrv := Map.put n.dcrv o.g (word (2 ^ 31 + h.a.toNat)) }
    else none)

/-- dtap (R395): s[ra] the tap offset, s[rb] TTS; mode 3 is refused here, and mode 0 names no register. -/
def execDtap (o : DtapF) (s : State) : Res :=
  s.denSetup o.sy (fun h n =>
    if o.mode = 0 then (if o.ra = 0 ∧ o.rb = 0 then some { n with dtapw := 0 } else none)
    else if o.mode = 3 ∨ h.a.toNat % 4 ≠ 0 ∨ h.b.toNat % 4 ≠ 0 ∨ !fits23 h.a ∨ 2 ^ 32 ≤ h.b.toNat then none
    else some { n with dtapw := word (h.b.toNat * 2 ^ 32 + o.mode * 2 ^ 24 + h.a.toNat) })

/-- The end of the last tap of a DGO (R398). -/
def MatSet.tapEnd (n : MatSet) (bs : List Branch) : Nat :=
  n.tapAt (n.runs / n.count 0 - 1) (n.tilesPer - 1) ((bs.map Branch.br).foldl max 0) + 6144

/-- The checks of DGO and its tables (R397): the checks of R384, no sparse mode and no integers, the map and its curves, and
the taps within the partition. -/
def State.dgoCheck (s : State) (m : Cmd) : Except Stop Cmd :=
  let n := m.mat
  match s.mgoCheck n 1 with
  | some (c, d, fa) => .error (.fault c d fa)
  | none =>
    if mSp n.mctl || isIntTy n.aT then .error (.fault 1 0 0)
    else do
      let t ← s.dgoTables s.cur.cid m
      if n.tapMode ≠ 0 ∧ 4096 * s.me.hdr.spad < n.tapEnd t.1 then .error (.fault 7 1 (word (bitsOf n.dtapw 22 0)))
      else pure { m with tab := some (t.1, t.2.1), status := stElem m.status 0 t.2.2 }

/-- dgo (R397, R398): it starts once its tables are read. -/
def execDgo (o : ENone) (s : State) : Res :=
  s.engineOp 1 o.sy ((s.cmd s.cur.cid .array).isNone)
    (match s.dgoCheck s.matCmd with
     | .ok m => s.matStart o.sy .array true m
     | .error (.fault c d fa) => s.trapStart .array c d fa
     | .error (.need _ _ _ _) => .next s
     | .error .wait => .next s)

end Sys2Proof.Machine
end

