-- ==== Sys2Proof/Machine/Float.lean ====
section
/-! DEFINITION. Scalar floating point (R294-R298). No status flags are recorded (R287). -/

namespace Sys2Proof.Machine

/-- fadd (R295). -/
def execFadd (o : F3) (s : State) : Res :=
  s.result o.st [o.ra, o.rb] o.rd (f32Add o.fz (s.r o.ra) (s.r o.rb)).1 4

/-- fsub (R295). -/
def execFsub (o : F3) (s : State) : Res :=
  s.result o.st [o.ra, o.rb] o.rd (f32Sub o.fz (s.r o.ra) (s.r o.rb)).1 4

/-- fmul (R295). -/
def execFmul (o : F3) (s : State) : Res :=
  s.result o.st [o.ra, o.rb] o.rd (f32Mul o.fz (s.r o.ra) (s.r o.rb)).1 4

/-- ffma (R295): one rounding. -/
def execFfma (o : F4) (s : State) : Res :=
  s.result o.st [o.ra, o.rb, o.rc] o.rd (f32Fma o.fz (s.r o.ra) (s.r o.rb) (s.r o.rc)).1 4

/-- fmin (R295). -/
def execFmin (o : F3) (s : State) : Res :=
  s.result o.st [o.ra, o.rb] o.rd (f32MinMax false o.fz (s.r o.ra) (s.r o.rb)).1 2

/-- fmax (R295). -/
def execFmax (o : F3) (s : State) : Res :=
  s.result o.st [o.ra, o.rb] o.rd (f32MinMax true o.fz (s.r o.ra) (s.r o.rb)).1 2

/-- fcvt (R297, R298). -/
def execFcvt (o : FcvtF) (s : State) : Res :=
  s.result o.st [o.ra] o.rd (fcvtRes o.src o.dst o.fz (s.r o.ra)) 4

/-- fcmp (R296). -/
def execFcmp (o : FcmpF) (s : State) : Res :=
  s.result o.st [o.ra, o.rb] (dstPk o.pk o.rd) (boolWord (f32Cmp o.cond o.fz (s.r o.ra) (s.r o.rb))) 2

/-- frcp (R295). -/
def execFrcp (o : F2) (s : State) : Res := s.result o.st [o.ra] o.rd (f32Rcp o.fz (s.r o.ra)).1 8

/-- frsq (R295). -/
def execFrsq (o : F2) (s : State) : Res := s.result o.st [o.ra] o.rd (f32Rsq o.fz (s.r o.ra)).1 8

end Sys2Proof.Machine
end

