-- ==== Sys2Proof/Machine/HostEvents.lean ====
section
/-! DEFINITION. The mailbox commands (R46-R48), code objects and their pages (R60-R64), exports (R65), attestation (R35), and the host's
accesses to device memory (R39, R40). -/

namespace Sys2Proof.Machine

/-! ## The mailbox (R46-R48) -/

/-- The error codes of MB.STAT (R46). -/
def eBadCmd : Nat := 1
def eNotOwn : Nat := 2
def eBadArg : Nat := 3
def eAuth : Nat := 4
def eBusy : Nat := 5
def eNoSpace : Nat := 6
def eNotFound : Nat := 7

/-- Argument word at an offset of the running command. -/
def PortSt.arg (p : PortSt) (off : Nat) : Word := leWord (Mem.read p.cmd off 8)

/-- The opcode of the running command (R46). -/
def PortSt.op (p : PortSt) : Nat := bitsOf (p.arg 0) 7 0

/-- The command ends with an error and no effect; MAILBOX_COMMAND_END publishes it. -/
def State.fail (s : State) (port err : Nat) : State := s.setHport port { s.hport port with ans := some (err, []) }

/-- The command ends well, with result words at 0x800. -/
def State.done (s : State) (port : Nat) (ws : List Word) : State :=
  s.setHport port { s.hport port with ans := some (0, ws) }

/-- A command of the port of the cursor: it runs once, while BUSY is set and its opcode stands in the mailbox; the reserved bits of the
opcode word are zero, and a command that needs ownership ends with NOTOWN where the port did not have it when the command started (R43, R45,
R47). -/
def State.command (s : State) (op : Nat) (owner : Bool) (k : Nat → PortSt → State) : Res :=
  let port := s.cur.port
  let p := s.hport port
  if !p.busy || p.ans.isSome || p.op != op then .next s
  else if bitsOf (p.arg 0) 63 8 ≠ 0 then .next (s.fail port eBadCmd)
  else if owner && !p.owned then .next (s.fail port eNotOwn)
  else .next (k port p)

/-- The opcodes of R47. -/
def knownOps : List Nat := [1, 2, 3, 4, 0x10, 0x11, 0x12, 0x20, 0x21, 0x30, 0x40]

/-- The place lies outside a range of host memory, given as port, bus address and length. -/
def Place.clear (r : Nat × Nat × Nat) (p : Place) : Bool :=
  match p with
  | .host port bus => port != r.1 || decide (bus < r.2.1) || decide (r.2.1 + r.2.2 ≤ bus)
  | .spad _ _ => true | .clus _ _ => true | .chip _ _ => true | .wst _ _ => true | .flash _ => true | .loc _ _ _ _ => true
  | .remote _ _ _ => true | .trapMem _ _ => true

/-- A running command's iteration has no translated destination left in a range of host memory. -/
def Cmd.clear (r : Nat × Nat × Nat) (m : Cmd) : Bool :=
  m.todo.all (fun e => e.dsts.all (fun d => d.place.clear r)) && m.wr.all (fun w => w.parts.all (fun x => x.1.clear r)) &&
    m.blk.all (fun b => b.dst.place.clear r && b.at_.code.clear r) && m.opens.all (fun o => o.place.clear r)

/-- No access already issued is still on its way to a range of host memory (R65). An access through another export of the same bytes
counts too, so that XDEL may end later than it must (log entry 60). -/
def State.rangeQuiet (s : State) (r : Nat × Nat × Nat) : Bool :=
  s.ctxs.all (fun c =>
    c.2.path.loads.all (fun l => l.place.clear r) && c.2.path.stores.all (fun e => e.place.clear r) &&
      c.2.eng.wq.all (fun q => q.2.all (fun w => w.parts.all (fun x => x.1.clear r))) && c.2.eng.cmds.all (fun m => m.clear r))

/-- The accesses that a running XDEL waits for are completed. -/
def State.exportsQuiet (s : State) (p : PortSt) : Bool :=
  match p.xdel with
  | some r => s.rangeQuiet r
  | none => true

/-- MAILBOX_COMMAND_END (R46): BUSY clears; DONE, ERR and the command's result words are set. An unknown opcode ends with BADCMD. XDEL ends once the accesses
already issued are completed (R65). -/
def execMailboxCommandEnd (s : State) : Res :=
  let port := s.cur.port
  let p := s.hport port
  if !p.busy then .next s
  else
    match p.ans with
    | none =>
      if knownOps.contains p.op then .next s
      else .next (s.setHport port { p with busy := false, done := true, err := eBadCmd })
    | some (err, res) =>
      if !s.exportsQuiet p then .next s
      else
        let mbuf := Mem.write p.mbuf 0x800 (res.map (fun w => leBytes 8 w.toNat)).flatten
        .next (s.setHport port { p with busy := false, done := true, err := err, ans := none, xdel := none, mbuf := mbuf })

/-! ## Keys (R58, R59) -/

/-- Sets or empties a key slot. -/
def State.setKey (s : State) (slot : Nat) (k : Option KeyName) : State :=
  { s with mem := { s.mem with keys := match k with
      | some n => Map.put s.mem.keys slot n
      | none => Map.del s.mem.keys slot } }

/-- The slot argument is 1 to 511. -/
def slotArg (w : Word) : Bool := decide (1 ≤ w.toNat) && decide (w.toNat ≤ 511)

/-- KEYLD (R58). -/
def execKeyld (s : State) : Res :=
  s.command 1 true (fun port p =>
    if !slotArg (p.arg 8) then s.fail port eBadArg
    else
      match Config.keyUnwrap (Mem.read p.cmd 0x40 72) with
      | none => s.fail port eAuth
      | some k => (s.setKey (p.arg 8).toNat (some (.loaded k))).done port [])

/-- KEYCLR (R48, R59). -/
def execKeyclr (s : State) : Res :=
  s.command 2 true (fun port p =>
    if !slotArg (p.arg 8) then s.fail port eBadArg
    else if (s.slotKey (p.arg 8).toNat).isNone then s.fail port eNotFound
    else (s.setKey (p.arg 8).toNat none).done port [])

/-- HKEY (R48, R58). -/
def execHkey (s : State) : Res :=
  s.command 3 true (fun port p =>
    let dec := (p.arg 8).toNat
    let slot := (p.arg 0x10).toNat
    if 7 < dec ∨ 511 < slot then s.fail port eBadArg
    else if slot ≠ 0 ∧ (s.slotKey slot).isNone then s.fail port eNotFound
    else (s.setHport port { p with hdm := Map.put p.hdm dec slot }).done port [])

/-- CODEKEY (R47). -/
def execCodekey (s : State) : Res :=
  s.command 4 true (fun port p =>
    if 7 < (p.arg 8).toNat then s.fail port eBadArg
    else
      State.done { s with host := { s.host with codeKeys := Map.put s.host.codeKeys (p.arg 8).toNat (Mem.read p.cmd 0x40 388) } } port [])

/-! ## Code objects (R60-R64) -/

/-- n bytes of host memory from a bus address of a port on. -/
def State.hostRead (s : State) (port bus n : Nat) : List Byte := Mem.read s.host.mem (hostAddr port bus) n

/-- The 64-byte header passes the checks of R61. -/
def signedOk (h : List Byte) : Bool :=
  let n := leNat (sliceB h 8 4)
  let len := leNat (sliceB h 0xC 4)
  leNat (sliceB h 0 4) == 0x4E595242 && leNat (sliceB h 4 2) == 1 && leNat (sliceB h 0x18 40) == 0 &&
    decide (1 ≤ n) && decide (n ≤ 4096) && decide (65536 * (n - 1) < len) && decide (len ≤ 65536 * n)

/-- The bytes of a page of an object as the host holds them, zero-filled to 64 KiB (R60). -/
def State.pageBytes (s : State) (o : CodeObj) (page : Nat) : List Byte :=
  let n := min 65536 (o.len - 65536 * page)
  s.hostRead o.port (o.bus + 65536 * page) n ++ List.replicate (65536 - n) 0

/-- The page's bytes match its hash (R62). -/
def CodeObj.pageOk (o : CodeObj) (page : Nat) (bs : List Byte) : Bool := o.hashes[page]? == some (Config.sha384 bs)

/-- The object with a page loaded. -/
def CodeObj.load (o : CodeObj) (page : Nat) (bs : List Byte) : CodeObj :=
  { o with loaded := insertNat page o.loaded, bytes := Mem.write o.bytes (65536 * page) bs }

/-- All pages of an object, or nothing where one fails its hash (EAGER, R62, R63). -/
def State.loadAll (s : State) : List Nat → CodeObj → Option CodeObj
  | [], o => some o
  | p :: ps, o =>
    let bs := s.pageBytes o p
    if o.pageOk p bs then s.loadAll ps (o.load p bs) else none

/-- The object that CODEREG's signed part describes, at the next virtual base. -/
def State.newObj (s : State) (port hdr bus : Nat) : CodeObj :=
  let h := s.hostRead port hdr 64
  let n := leNat (sliceB h 8 4)
  { base := s.host.nextBase, len := leNat (sliceB h 0xC 4), pages := n
    hashes := (List.range n).map (fun i => BitVec.ofNat 384 (leNat (s.hostRead port (hdr + 0x40 + 48 * i) 48)))
    port := port, bus := bus, keyIdx := leNat (sliceB h 6 2), loaded := [], bytes := [], revoked := false }

/-- The first index below 2^16 that no object holds. -/
def freeHandle : Map CodeObj → Nat → Nat
  | [], n => n
  | (k, _) :: m, n => if k = n then freeHandle m (n + 1) else n

/-- 64 KiB pages of all registered objects. The limit of 4 GiB in all (R61) counts whole pages, which is what an object takes in HBM (DESIGN
CHOICE, log entry 60). -/
def State.codePages (s : State) : Nat := s.host.objs.foldl (fun a x => a + x.2.pages) 0

/-- CODEREG (R61). -/
def execCodereg (s : State) : Res :=
  s.command 0x10 false (fun port p =>
    let hdr := (p.arg 8).toNat
    let eager := bitOf (p.arg 0x18) 0
    let h := s.hostRead port hdr 64
    let n := leNat (sliceB h 8 4)
    if bitsOf (p.arg 0x18) 63 1 ≠ 0 ∨ !signedOk h then s.fail port eBadArg
    else
      let signed := s.hostRead port hdr (0x40 + 48 * n)
      let sig := s.hostRead port (hdr + 0x40 + 48 * n) 384
      match Map.find s.host.codeKeys (leNat (sliceB h 6 2)) with
      | none => s.fail port eAuth
      | some key =>
        if !Config.rsaVerify (key.take 384) (key.drop 384) signed sig then s.fail port eAuth
        else if 1024 ≤ s.host.objs.length ∨ 65536 < s.codePages + n then s.fail port eNoSpace
        else
          let o := s.newObj port hdr (p.arg 0x10).toNat
          match (if eager then s.loadAll (List.range n) o else some o) with
          | none => s.fail port eAuth
          | some o =>
            let id := freeHandle s.host.objs 0
            State.done { s with host := { s.host with objs := Map.put s.host.objs id o, nextBase := s.host.nextBase + 65536 * n } } port
              [word id, word o.base])

/-- Some record of an active launch has its code pointer in the object (R64). -/
def State.objUsed (s : State) (o : CodeObj) : Bool :=
  s.sched.store.any (fun x => decide (o.base ≤ x.2.record.code) && decide (x.2.record.code < o.base + 65536 * o.pages))

/-- CODEREL (R48, R64). -/
def execCoderel (s : State) : Res :=
  s.command 0x11 false (fun port p =>
    if bitsOf (p.arg 8) 63 16 ≠ 0 then s.fail port eBadArg
    else
      match Map.find s.host.objs (p.arg 8).toNat with
      | none => s.fail port eNotFound
      | some o =>
        if s.objUsed o then s.fail port eBusy
        else State.done { s with host := { s.host with objs := Map.del s.host.objs (p.arg 8).toNat } } port [])

/-- CODEST (R47, R48). -/
def execCodest (s : State) : Res :=
  s.command 0x12 false (fun port p =>
    if bitsOf (p.arg 8) 63 16 ≠ 0 then s.fail port eBadArg
    else
      match Map.find s.host.objs (p.arg 8).toNat with
      | none => s.fail port eNotFound
      | some o => s.done port [if o.revoked then 1 else 0, word o.loaded.length])

/-- S of the context waits to lock a range with the page in it (R338). -/
def State.iclkWants (s : State) (c : Ctx) (h page : Nat) : Bool :=
  match c.sc.hold, Map.find s.host.objs h with
  | .iclk _ x a n, some o =>
    x == h && decide ((a.toNat - o.base) / 65536 ≤ page) && decide (page ≤ (a.toNat + n.toNat - 1 - o.base) / 65536)
  | _, _ => false

/-- The pages that a fetch waits for (R62): the next words of contexts and of the trap cores, the handler of a frozen context, the headers of
ready records, and the ranges that S waits to lock. -/
def State.pageWanted (s : State) (h page : Nat) : Bool :=
  let is : FRes → Bool := fun r => r == .wait h page
  s.ctxs.any (fun c =>
      (c.2.task.isSome && is (s.fetch c.2.sc.pc.toNat 8)) || s.iclkWants c.2 h page ||
      (c.2.trap.phase == .freezing && (chooseCause c.2.trap.causes).any (fun x => is (s.handlerAt (c.1 / 2) x.f.code)))) ||
    s.cores.any (fun k => k.2.trap.serving.isSome && is (s.fetch k.2.trap.sc.pc.toNat 8)) ||
    s.sched.store.any (fun e => e.2.st == .ready && e.2.hdr.isNone && is (s.fetch (e.2.record.code - 32) 32))

/-- The ready records whose headers are still to be read. -/
def State.unread (s : State) : List Nat := (s.sched.store.filter (fun x => x.2.st == .ready && x.2.hdr.isNone)).map Prod.fst

/-- The headers whose pages are there are read (R70). -/
def State.readHdrs (s : State) : State := s.unread.foldl State.readHdr s

/-- A revoked object's instruction-cache locks leave every core (R63). -/
def State.revoke (s : State) (h : Nat) (o : CodeObj) : State :=
  let gone : Word × Word → Bool := fun x =>
    decide (o.base < x.1.toNat + x.2.toNat) && decide (x.1.toNat < o.base + 65536 * o.pages)
  { s with host := { s.host with objs := Map.put s.host.objs h { o with revoked := true } }
           ctxs := s.ctxs.map (fun c => (c.1, { c.2 with locks := c.2.locks.filter (fun x => !gone x) })) }

/-- A page fails its hash: the object is revoked, and a record whose header was to be read there fails with cause code integrity (R63, R71). -/
def State.pageFails (s : State) (h : Nat) (o : CodeObj) (page : Nat) : State :=
  let es := s.unread.filter (fun e => (s.entry e).any (fun v => s.fetch (v.record.code - 32) 32 == .wait h page))
  (es.foldl (fun s e => s.failRecord e 8) (s.revoke h o)).readHdrs

/-- A page is read from host memory and verified (R62): it is held, or the object is revoked. -/
def State.loadPage (s : State) (h : Nat) (o : CodeObj) (page : Nat) : State :=
  let bs := s.pageBytes o page
  if o.pageOk page bs then State.readHdrs { s with host := { s.host with objs := Map.put s.host.objs h (o.load page bs) } }
  else s.pageFails h o page

/-- PAGE_LOAD (R62, R63): a service core finishes loading a page that a fetch or an iclk named. -/
def execPageLoad (handle page : Nat) (s : State) : Res :=
  match Map.find s.host.objs handle with
  | none => .next s
  | some o =>
    if o.revoked ∨ o.loaded.contains page ∨ o.pages ≤ page ∨ !s.pageWanted handle page then .next s
    else .next (s.loadPage handle o page)

/-! ## Soft errors (R128, R225, R226) -/

/-- An uncorrectable error strikes device-reserved HBM (R226): a loaded code page is loaded anew; the launch of a store entry aborts, with a
FADDR that the spec leaves open; an image can no longer be read. -/
def State.softError (s : State) (x : Soft) : State :=
  match x with
  | .unit p hard => s.strike p hard
  | .codePage h page =>
    (match Map.find s.host.objs h with
     | some o => if o.revoked || !o.loaded.contains page then s else s.loadPage h { o with loaded := o.loaded.filter (fun i => i != page) } page
     | none => s)
  | .entry e =>
    (match s.entry e with
     | some v => ((s.countFault v.launch 0xFF 0x0B (Config.freeWord s.free)).abortLaunch v.launch (statOf 0x0B)).bump
     | none => s)
  | .image e =>
    (match Map.find s.images e with
     | some im => { s with images := Map.put s.images e { im with bad := true } }
     | none => s)

/-! ## Exports (R65) -/

/-- The first index below 256 that no export of a port holds. -/
def freeExport (m : Map Export) (port : Nat) : Option Nat :=
  (List.range 256).find? (fun i => (Map.find m (port * 2 ^ 15 + i)).isNone)

/-- XREG (R65). -/
def execXreg (s : State) : Res :=
  s.command 0x20 false (fun port p =>
    let bus := (p.arg 8).toNat
    let len := (p.arg 0x10).toNat
    let fl := p.arg 0x18
    if bus % 65536 ≠ 0 ∨ len % 65536 ≠ 0 ∨ len < 65536 ∨ 2 ^ 40 < len ∨ bitsOf fl 63 2 ≠ 0 then s.fail port eBadArg
    else
      match freeExport s.host.exports port with
      | none => s.fail port eNoSpace
      | some i =>
        let h := port * 2 ^ 15 + i
        State.done { s with host := { s.host with exports := Map.put s.host.exports h ⟨port, bus, len, bitOf fl 0, bitOf fl 1⟩ } } port
          [word h])

/-- The mappings of an export are gone (R65). -/
def State.unmap (s : State) (h : Nat) : State :=
  s.modSched (fun q =>
    { q with launches := q.launches.map (fun x => (x.1, { x.2 with maps := x.2.maps.filter (fun m => m.exp != h) })) })

/-- XDEL (R48, R65). -/
def execXdel (s : State) : Res :=
  s.command 0x21 false (fun port p =>
    let h := (p.arg 8).toNat
    if bitsOf (p.arg 8) 63 16 ≠ 0 ∨ bitsOf (p.arg 8) 14 8 ≠ 0 then s.fail port eBadArg
    else
      match Map.find s.host.exports h with
      | none => s.fail port eNotFound
      | some x =>
      let s := (s.unmap h).setHport port { p with xdel := some (x.port, x.bus, x.len) }
      State.done { s with host := { s.host with exports := Map.del s.host.exports h } } port [])

/-! ## Attestation and abort (R35, R47) -/

/-- Bytes 0x0000-0x006F of an attestation report (R35). -/
def State.report (s : State) (nonce : List Byte) : List Byte :=
  nonce ++ leBytes 48 (Config.sha384 (Config.imgSigned s.boot.running)).toNat ++ leBytes 8 (s.variant.caps 0).toNat ++
    leBytes 8 s.boot.stat.toNat ++ leBytes 8 s.net.devid ++ leBytes 8 0

/-- ATTEST (R35). -/
def execAttest (s : State) : Res :=
  s.command 0x30 false (fun port p =>
    let bus := (p.arg 8).toNat
    if bus % 64 ≠ 0 then s.fail port eBadArg
    else
      let r := s.report (Mem.read p.cmd 0x40 32)
      let all := r ++ sliceB (Config.attestRsa r) 0 384 ++ sliceB (Config.attestSlh r) 0 16224
      State.done { s with host := { s.host with mem := Mem.write s.host.mem (hostAddr port bus) all } } port [])

/-- ABORT (R47, R53). -/
def execAbort (s : State) : Res :=
  s.command 0x40 false (fun port p =>
    let ls := (s.sched.launches.filter (fun x => x.2.port == port && x.2.tag == p.arg 8 && !x.2.done)).map Prod.fst
    (ls.foldl (fun s l => s.abortLaunch l 4) s).done port [word ls.length])

/-! ## The host's accesses (R39, R40, R59) -/

/-- The place of a host access: the address under the decoder's slot, if it lies in the usable HBM, the slot holds a key, and the HBM is
powered (R31). An access outside the usable HBM is treated as one through an empty slot: poison on a read, and a write is dropped (DESIGN
CHOICE, log entry 60). -/
def State.hdmPlace (s : State) (port dec addr size : Nat) : Option Place :=
  let slot := Map.getD (s.hport port).hdm dec 0
  if s.minimal || decide (s.variant.usable < addr + size) || (s.slotKey slot).isNone then none else some (.loc addr slot 0 0)

/-- CXL_MEM_READ (R40, R59): poison where the decoder's slot is empty or the unit is poisoned. The host has the access only with CXL (R41). -/
def execCxlMemRead (port dec addr size : Nat) (s : State) : Res :=
  if !(s.hport port).cxl then .next s
  else match s.hdmPlace port dec addr size with
  | none => .next { s with host := { s.host with rdata := List.replicate size 0, poison := true } }
  | some p => .next { s with host := { s.host with rdata := s.rd 0 p size, poison := s.poisoned p size } }

/-- CXL_MEM_WRITE (R40, R59): dropped where the decoder's slot is empty. -/
def execCxlMemWrite (port dec addr : Nat) (bytes : List Byte) (s : State) : Res :=
  if !(s.hport port).cxl then .next s
  else match s.hdmPlace port dec addr bytes.length with
  | none => .next s
  | some p => .next (s.wr 0 p bytes)

/-- The value a PCIe AtomicOp leaves (R39). -/
def hostNew (op : HostAtomic) (n : Nat) (old a b : Word) : Word :=
  match op with
  | .fetchAdd => zextN (8 * n) (old + a)
  | .swap => a
  | .cas => if old = zextN (8 * n) a then b else old

/-- HOST_ATOMICOP (R39): the device completes a PCIe AtomicOp with the old value. It completes operands of 4 and 8 bytes and no CAS of 128
bits, and one through an empty slot or outside the usable HBM returns 0 with poison (DESIGN CHOICE, log entry 60). -/
def execHostAtomicop (port dec : Nat) (op : HostAtomic) (addr : Nat) (wide : Bool) (a b : Word) (s : State) : Res :=
  let n := if wide then 8 else 4
  if !(s.hport port).cxl then .next s
  else match s.hdmPlace port dec addr n with
  | none => .next { s with host := { s.host with rdata := List.replicate n 0, poison := true } }
  | some p =>
    let old := leWord (s.rd 0 p n)
    let s1 := { s with host := { s.host with rdata := leBytes n old.toNat, poison := s.poisoned p n } }
    .next (s1.wr 0 p (leBytes n (hostNew op n old a b).toNat))

end Sys2Proof.Machine
end

