-- ==== Sys2Proof/Machine/Immediate.lean ====
section
/-! DEFINITION. The immediate instructions (R293). -/

namespace Sys2Proof.Machine

/-- addi (R293). -/
def execAddi (o : RIw) (s : State) : Res := s.result o.st [o.ra] o.rd (o.w.out (s.r o.ra + immX o.imm)) 1

/-- andi (R293). -/
def execAndi (o : RIw) (s : State) : Res := s.result o.st [o.ra] o.rd (o.w.out (s.r o.ra &&& immX o.imm)) 1

/-- ori (R293). -/
def execOri (o : RIw) (s : State) : Res := s.result o.st [o.ra] o.rd (o.w.out (s.r o.ra ||| immX o.imm)) 1

/-- xori (R293). -/
def execXori (o : RIw) (s : State) : Res := s.result o.st [o.ra] o.rd (o.w.out (s.r o.ra ^^^ immX o.imm)) 1

/-- shli (R293): the count is imm32 itself. -/
def execShli (o : RIw) (s : State) : Res := s.result o.st [o.ra] o.rd (shlW o.w (s.r o.ra) o.imm.toNat) 1

/-- shri (R293). -/
def execShri (o : RIw) (s : State) : Res := s.result o.st [o.ra] o.rd (shrW o.w (s.r o.ra) o.imm.toNat) 1

/-- srai (R293). -/
def execSrai (o : RIw) (s : State) : Res := s.result o.st [o.ra] o.rd (sraW o.w (s.r o.ra) o.imm.toNat) 1

/-- cmpi (R293): at width 64, into a scalar register. -/
def execCmpi (o : CmpiF) (s : State) : Res :=
  s.result o.st [o.ra] o.rd (boolWord (o.cond.holds .d (s.r o.ra) (immX o.imm))) 1

/-- li (R293). -/
def execLi (o : RI0) (s : State) : Res := s.result o.st [] o.rd (immX o.imm) 1

/-- lih (R293): reads its own destination. -/
def execLih (o : RI0) (s : State) : Res := s.result o.st [o.rd] o.rd (lihVal (s.r o.rd) o.imm) 1

/-- muli (R293). -/
def execMuli (o : RIw) (s : State) : Res := s.result o.st [o.ra] o.rd (o.w.out (s.r o.ra * immX o.imm)) 3

end Sys2Proof.Machine
end

