-- ==== Sys2Proof/Machine/Integer.lean ====
section
/-! DEFINITION. The integer register instructions (R289-R292), each one result after the latency of R285. A
variable-latency result (div, divu, rem, remu) makes its register pending until it is written, on the clk after the issue, which the bound of
R285 allows and R96 makes indistinguishable (log entry 13). -/

namespace Sys2Proof.Machine

/-- add (R289). -/
def execAdd (o : R3w) (s : State) : Res :=
  s.result o.st [o.ra, o.rb] o.rd (o.w.out (s.r o.ra + s.r o.rb)) 1

/-- sub (R289). -/
def execSub (o : R3w) (s : State) : Res :=
  s.result o.st [o.ra, o.rb] o.rd (o.w.out (s.r o.ra - s.r o.rb)) 1

/-- mul (R289). -/
def execMul (o : R3w) (s : State) : Res :=
  s.result o.st [o.ra, o.rb] o.rd (o.w.out (s.r o.ra * s.r o.rb)) 3

/-- mulh (R289): the high half of the signed product. -/
def execMulh (o : R3w) (s : State) : Res :=
  s.result o.st [o.ra, o.rb] o.rd (o.w.ofInt (o.w.sgn (s.r o.ra) * o.w.sgn (s.r o.rb) / 2 ^ o.w.bits)) 3

/-- mulhu (R289): the high half of the unsigned product. -/
def execMulhu (o : R3w) (s : State) : Res :=
  s.result o.st [o.ra, o.rb] o.rd (o.w.nat (o.w.uns (s.r o.ra) * o.w.uns (s.r o.rb) / 2 ^ o.w.bits)) 3

/-- div (R290). -/
def execDiv (o : R3w) (s : State) : Res :=
  s.resultVar o.st [o.ra, o.rb] o.rd (divS o.w (s.r o.ra) (s.r o.rb))

/-- divu (R290). -/
def execDivu (o : R3w) (s : State) : Res :=
  s.resultVar o.st [o.ra, o.rb] o.rd (divU o.w (s.r o.ra) (s.r o.rb))

/-- rem (R290). -/
def execRem (o : R3w) (s : State) : Res :=
  s.resultVar o.st [o.ra, o.rb] o.rd (remS o.w (s.r o.ra) (s.r o.rb))

/-- remu (R290). -/
def execRemu (o : R3w) (s : State) : Res :=
  s.resultVar o.st [o.ra, o.rb] o.rd (remU o.w (s.r o.ra) (s.r o.rb))

/-- and (R289). -/
def execAnd (o : R3w) (s : State) : Res :=
  s.result o.st [o.ra, o.rb] o.rd (o.w.out (s.r o.ra &&& s.r o.rb)) 1

/-- or (R289). -/
def execOr (o : R3w) (s : State) : Res :=
  s.result o.st [o.ra, o.rb] o.rd (o.w.out (s.r o.ra ||| s.r o.rb)) 1

/-- xor (R289). -/
def execXor (o : R3w) (s : State) : Res :=
  s.result o.st [o.ra, o.rb] o.rd (o.w.out (s.r o.ra ^^^ s.r o.rb)) 1

/-- shl (R289). -/
def execShl (o : R3w) (s : State) : Res :=
  s.result o.st [o.ra, o.rb] o.rd (shlW o.w (s.r o.ra) (o.w.count (s.r o.rb))) 1

/-- shr (R289). -/
def execShr (o : R3w) (s : State) : Res :=
  s.result o.st [o.ra, o.rb] o.rd (shrW o.w (s.r o.ra) (o.w.count (s.r o.rb))) 1

/-- sra (R289). -/
def execSra (o : R3w) (s : State) : Res :=
  s.result o.st [o.ra, o.rb] o.rd (sraW o.w (s.r o.ra) (o.w.count (s.r o.rb))) 1

/-- min (R289). -/
def execMin (o : R3w) (s : State) : Res :=
  s.result o.st [o.ra, o.rb] o.rd (o.w.ofInt (min (o.w.sgn (s.r o.ra)) (o.w.sgn (s.r o.rb)))) 1

/-- max (R289). -/
def execMax (o : R3w) (s : State) : Res :=
  s.result o.st [o.ra, o.rb] o.rd (o.w.ofInt (max (o.w.sgn (s.r o.ra)) (o.w.sgn (s.r o.rb)))) 1

/-- minu (R289). -/
def execMinu (o : R3w) (s : State) : Res :=
  s.result o.st [o.ra, o.rb] o.rd (o.w.nat (min (o.w.uns (s.r o.ra)) (o.w.uns (s.r o.rb)))) 1

/-- maxu (R289). -/
def execMaxu (o : R3w) (s : State) : Res :=
  s.result o.st [o.ra, o.rb] o.rd (o.w.nat (max (o.w.uns (s.r o.ra)) (o.w.uns (s.r o.rb)))) 1

/-- clz (R289). -/
def execClz (o : R2w) (s : State) : Res :=
  s.result o.st [o.ra] o.rd (word (clzN o.w.bits (o.w.uns (s.r o.ra)))) 1

/-- popc (R289). -/
def execPopc (o : R2w) (s : State) : Res :=
  s.result o.st [o.ra] o.rd (word (popcN o.w.bits (o.w.uns (s.r o.ra)))) 1

/-- bext (R291). -/
def execBext (o : R3) (s : State) : Res :=
  s.result o.st [o.ra, o.rb] o.rd (bextVal (s.r o.ra) (s.r o.rb)) 1

/-- bins (R291). -/
def execBins (o : R4) (s : State) : Res :=
  s.result o.st [o.ra, o.rb, o.rc] o.rd (binsVal (s.r o.ra) (s.r o.rb) (s.r o.rc)) 1

/-- sel (R292). -/
def execSel (o : SelF) (s : State) : Res :=
  let cond := if o.pk then s.k o.ra else s.r o.ra != 0
  s.result o.st [dstPk o.pk o.ra, o.rb, o.rc] o.rd (if cond then s.r o.rb else s.r o.rc) 1

/-- cmp (R292). -/
def execCmp (o : CmpF) (s : State) : Res :=
  s.result o.st [o.ra, o.rb] (dstPk o.pk o.rd) (boolWord (o.cond.holds o.w (s.r o.ra) (s.r o.rb))) 1

/-- madd (R289). -/
def execMadd (o : R4w) (s : State) : Res :=
  s.result o.st [o.ra, o.rb, o.rc] o.rd (o.w.out (s.r o.ra * s.r o.rb + s.r o.rc)) 3

end Sys2Proof.Machine
end

