-- ==== Sys2Proof/Machine/RedEng.lean ====
section
/-! DEFINITION. The instructions of the reduction engine (R346, R361-R364). -/

namespace Sys2Proof.Machine

/-- A setup of the reduction nest's shadow set (R346). -/
def State.redSetup (s : State) (sy : Sync) (f : Word → NestSet → Option NestSet) : Res :=
  s.setupOp 2 sy (fun v g => (f v g.redNest).map (fun n => { g with redNest := n }))

/-- rnest.count (R346). -/
def execRnestCount (o : ELvl) (s : State) : Res := s.redSetup o.sy (fun v n => n.setCount o.lvl v)

/-- rnest.stride (R346). -/
def execRnestStride (o : EStr) (s : State) : Res := s.redSetup o.sy (fun v n => n.setStride o.lvl o.j v)

/-- rnest.run (R346). -/
def execRnestRun (o : EReg) (s : State) : Res := s.redSetup o.sy (fun v n => n.setRun v)

/-- rbase.addr (R346). -/
def execRbaseAddr (o : EBase) (s : State) : Res := s.redSetup o.sy (fun v n => n.setBase o.j o.sp v)

/-- rbase.scale (R346). -/
def execRbaseScale (o : EBase) (s : State) : Res := s.redSetup o.sy (fun v n => n.setSbase o.j o.sp v)

/-- rfmt.fmt (R345, R346). -/
def execRfmtFmt (o : EFmt) (s : State) : Res := s.redSetup o.sy (fun v n => n.setFmt o.j v)

/-- rfmt.fill (R346). -/
def execRfmtFill (o : EReg) (s : State) : Res := s.redSetup o.sy (fun v n => some { n with fill := v })

/-- rfmt.limit (R346). -/
def execRfmtLimit (o : EReg) (s : State) : Res := s.redSetup o.sy (fun v n => some { n with limit := v })

/-- rfmt.subv (R346). -/
def execRfmtSubv (o : EReg) (s : State) : Res := s.redSetup o.sy (fun v n => some { n with subv := v })

/-- rfmt.clear (R346). -/
def execRfmtClear (o : ENone) (s : State) : Res := s.redSetup o.sy (fun _ _ => some .fresh)

/-- The context's reduction command has gone: its active set is free (R106). -/
def State.redFree (s : State) : Bool := s.me.eng.red.isNone

/-- The streams of RED and SCAN: inputs, then outputs (R361). -/
def State.redStreams (s : State) (cid : Nat) : List Nat :=
  (if s.riReads1 cid then [0, 1] else [0]) ++ 4 :: s.riOuts cid

/-- The checks of R347 and R350 on the streams of a reduction command: nothing, or a cause with DETAIL and FADDR. -/
def State.redCheck (s : State) (n : NestSet) (js : List Nat) : Option (Nat × Nat × Word) :=
  if !js.all (fun j => n.streamOk j (decide (j < 4)) false false false) then some (1, 0, 0)
  else
    match js.find? (fun j => s.flashBad (n.baseW j) false) with
    | some j => some (6, 5, word (addrOf (n.baseW j)))
    | none => none

/-- The format of a stream of MERGE is one that R345 and R350 allow, though MERGE ignores TYPE, run and strides (R364; log entry 62). -/
def NestSet.mergeOk (n : NestSet) (j : Nat) : Bool :=
  let f := n.fmtW j
  match fType f, fPt f with
  | some t, some p =>
    !fReserved f && fGeo f != 7 && (p == t || p == .f32 || p == .i32 || p == .i64 || p == .ui64) &&
      (!fBlk f || (blkType t && decide (spaceOf (n.sbaseW j) ≤ 3)))
  | some _, none => false
  | none, _ => false

/-- The checks of MERGE (R350, R364). -/
def State.mergeCheck (s : State) (n : NestSet) (h : QEnt) : Option (Nat × Nat × Word) :=
  if !(decide (h.a.toNat < 2 ^ 32) && decide (h.b.toNat < 2 ^ 32) &&
      [0, 1, 4].all (fun j => n.mergeOk j && addrOf (n.baseW j) % 16 == 0 && decide (spaceOf (n.baseW j) ≤ 5) &&
        spaceOf (n.baseW j) != 4)) then some (1, 0, 0)
  else
    match [0, 1, 4].find? (fun j => s.flashBad (n.baseW j) false) with
    | some j => some (6, 5, word (addrOf (n.baseW j)))
    | none => none

/-- A reduction command at the head of R: its checks, then its start with the shadow set as active set. -/
def State.redGo (s : State) (sy : Sync) (check : Option (Nat × Nat × Word)) (ended : Bool) : Res :=
  s.engineOp 2 sy s.redFree
    (match check with
     | some (code, d, fa) => s.trapStart .red code d fa
     | none =>
       let n := s.me.eng.redNest
       let m : Cmd := { Cmd.fresh s.head s.clk n s.me.eng.matNest with ended := ended }
       let s1 := (s.start sy).modMe (fun x => x.modEng (fun g => ({ g with redActive := n }).setCmd .red m))
       .next (s1.beginStreams s.cur.cid .red m))

/-- red (R361, R362). -/
def execRed (o : RedF) (s : State) : Res := s.redGo o.sy (s.redCheck s.me.eng.redNest (s.redStreams s.cur.cid)) false

/-- scan (R361, R363). -/
def execScan (o : RedF) (s : State) : Res := s.redGo o.sy (s.redCheck s.me.eng.redNest (s.redStreams s.cur.cid)) false

/-- merge (R364): with no record at all it has no iteration. -/
def execMerge (o : MergeF) (s : State) : Res :=
  s.redGo o.sy (s.mergeCheck s.me.eng.redNest s.head) (s.head.a.toNat + s.head.b.toNat == 0)

end Sys2Proof.Machine
end

