-- ==== Sys2Proof/Machine/Dispatch.lean ====
section
/-! DEFINITION. The dispatcher: one arm per constructor of Instr. -/

namespace Sys2Proof.Machine

open Sys2Proof

def exec (i : Instr) (s : State) : Host.Outcome State Fault Refusal :=
  match i with
  | .mgmtOwnWrite port v => Sys2Proof.Machine.execMgmtOwnWrite port v s
  | .registerWrite port bar off size v => Sys2Proof.Machine.execRegisterWrite port bar off size v s
  | .bootStage fail => Sys2Proof.Machine.execBootStage fail s
  | .therm die temp => Sys2Proof.Machine.execTherm die temp s
  | .powerThrottle watt tmax => Sys2Proof.Machine.execPowerThrottle watt tmax s
  | .train port link => Sys2Proof.Machine.execTrain port link s
  | .en port link v => Sys2Proof.Machine.execEn port link v s
  | .linkTrainingDone link low high mdm peer pport reach => Sys2Proof.Machine.execLinkTrainingDone link low high mdm peer pport reach s
  | .linkDown link => Sys2Proof.Machine.execLinkDown link s
  | .routeChange dest => Sys2Proof.Machine.execRouteChange dest s
  | .noRouteTimeout dest => Sys2Proof.Machine.execNoRouteTimeout dest s
  | .flitCrcReplay link received => Sys2Proof.Machine.execFlitCrcReplay link received s
  | .remoteRequest src key req => Sys2Proof.Machine.execRemoteRequest src key req s
  | .remoteResponse id ans => Sys2Proof.Machine.execRemoteResponse id ans s
  | .lwProdWrite port v => Sys2Proof.Machine.execLwProdWrite port v s
  | .completionRecordWrite launch => Sys2Proof.Machine.execCompletionRecordWrite launch s
  | .tlim launch => Sys2Proof.Machine.execTlim launch s
  | .pageLoad handle page => Sys2Proof.Machine.execPageLoad handle page s
  | .cxlMemRead port dec addr size => Sys2Proof.Machine.execCxlMemRead port dec addr size s
  | .cxlMemWrite port dec addr bytes => Sys2Proof.Machine.execCxlMemWrite port dec addr bytes s
  | .hostAtomicop port dec op addr wide a b => Sys2Proof.Machine.execHostAtomicop port dec op addr wide a b s
  | .dispatch chiplet => Sys2Proof.Machine.execDispatch chiplet s
  | .agingStep entry => Sys2Proof.Machine.execAgingStep entry s
  | .reserving entry => Sys2Proof.Machine.execReserving entry s
  | .saveComplete entry => Sys2Proof.Machine.execSaveComplete entry s
  | .engineInstructionDecode w => Sys2Proof.Machine.execEngineInstructionDecode w s
  | .engineCommandComplete cid u => Sys2Proof.Machine.execEngineCommandComplete cid u s
  | .engineWritePerform cid path => Sys2Proof.Machine.execEngineWritePerform cid path s
  | .storePerform cid lodge => Sys2Proof.Machine.execStorePerform cid lodge s
  | .loadReturn cid hit alloc => Sys2Proof.Machine.execLoadReturn cid hit alloc s
  | .l1AgeOut core line => Sys2Proof.Machine.execL1AgeOut core line s
  | .waitaWake cid => Sys2Proof.Machine.execWaitaWake cid s
  | .readyWordPoll cid n => Sys2Proof.Machine.execReadyWordPoll cid n s
  | .segmentArrival die seg => Sys2Proof.Machine.execSegmentArrival die seg s
  | .kputAck cid n => Sys2Proof.Machine.execKputAck cid n s
  | .add o => Sys2Proof.Machine.execAdd o s
  | .sub o => Sys2Proof.Machine.execSub o s
  | .mul o => Sys2Proof.Machine.execMul o s
  | .mulh o => Sys2Proof.Machine.execMulh o s
  | .mulhu o => Sys2Proof.Machine.execMulhu o s
  | .div o => Sys2Proof.Machine.execDiv o s
  | .divu o => Sys2Proof.Machine.execDivu o s
  | .rem o => Sys2Proof.Machine.execRem o s
  | .remu o => Sys2Proof.Machine.execRemu o s
  | .and o => Sys2Proof.Machine.execAnd o s
  | .or o => Sys2Proof.Machine.execOr o s
  | .xor o => Sys2Proof.Machine.execXor o s
  | .shl o => Sys2Proof.Machine.execShl o s
  | .shr o => Sys2Proof.Machine.execShr o s
  | .sra o => Sys2Proof.Machine.execSra o s
  | .min o => Sys2Proof.Machine.execMin o s
  | .max o => Sys2Proof.Machine.execMax o s
  | .minu o => Sys2Proof.Machine.execMinu o s
  | .maxu o => Sys2Proof.Machine.execMaxu o s
  | .clz o => Sys2Proof.Machine.execClz o s
  | .popc o => Sys2Proof.Machine.execPopc o s
  | .bext o => Sys2Proof.Machine.execBext o s
  | .bins o => Sys2Proof.Machine.execBins o s
  | .sel o => Sys2Proof.Machine.execSel o s
  | .cmp o => Sys2Proof.Machine.execCmp o s
  | .madd o => Sys2Proof.Machine.execMadd o s
  | .addi o => Sys2Proof.Machine.execAddi o s
  | .andi o => Sys2Proof.Machine.execAndi o s
  | .ori o => Sys2Proof.Machine.execOri o s
  | .xori o => Sys2Proof.Machine.execXori o s
  | .shli o => Sys2Proof.Machine.execShli o s
  | .shri o => Sys2Proof.Machine.execShri o s
  | .srai o => Sys2Proof.Machine.execSrai o s
  | .cmpi o => Sys2Proof.Machine.execCmpi o s
  | .li o => Sys2Proof.Machine.execLi o s
  | .lih o => Sys2Proof.Machine.execLih o s
  | .muli o => Sys2Proof.Machine.execMuli o s
  | .ld o => Sys2Proof.Machine.execLd o s
  | .st o => Sys2Proof.Machine.execSt o s
  | .ldx o => Sys2Proof.Machine.execLdx o s
  | .stx o => Sys2Proof.Machine.execStx o s
  | .pref o => Sys2Proof.Machine.execPref o s
  | .waita o => Sys2Proof.Machine.execWaita o s
  | .mark o => Sys2Proof.Machine.execMark o s
  | .fence o => Sys2Proof.Machine.execFence o s
  | .amo o => Sys2Proof.Machine.execAmo o s
  | .cas o => Sys2Proof.Machine.execCas o s
  | .mred o => Sys2Proof.Machine.execMred o s
  | .vamo o => Sys2Proof.Machine.execVamo o s
  | .vmred o => Sys2Proof.Machine.execVmred o s
  | .fadd o => Sys2Proof.Machine.execFadd o s
  | .fsub o => Sys2Proof.Machine.execFsub o s
  | .fmul o => Sys2Proof.Machine.execFmul o s
  | .ffma o => Sys2Proof.Machine.execFfma o s
  | .fmin o => Sys2Proof.Machine.execFmin o s
  | .fmax o => Sys2Proof.Machine.execFmax o s
  | .fcvt o => Sys2Proof.Machine.execFcvt o s
  | .fcmp o => Sys2Proof.Machine.execFcmp o s
  | .frcp o => Sys2Proof.Machine.execFrcp o s
  | .frsq o => Sys2Proof.Machine.execFrsq o s
  | .spawn o => Sys2Proof.Machine.execSpawn o s
  | .arrive o => Sys2Proof.Machine.execArrive o s
  | .est o => Sys2Proof.Machine.execEst o s
  | .bmake o => Sys2Proof.Machine.execBmake o s
  | .join o => Sys2Proof.Machine.execJoin o s
  | .leave o => Sys2Proof.Machine.execLeave o s
  | .bbar o => Sys2Proof.Machine.execBbar o s
  | .semw o => Sys2Proof.Machine.execSemw o s
  | .sems o => Sys2Proof.Machine.execSems o s
  | .semi o => Sys2Proof.Machine.execSemi o s
  | .semr o => Sys2Proof.Machine.execSemr o s
  | .sleepu o => Sys2Proof.Machine.execSleepu o s
  | .cyc o => Sys2Proof.Machine.execCyc o s
  | .yield o => Sys2Proof.Machine.execYield o s
  | .rdsys o => Sys2Proof.Machine.execRdsys o s
  | .wrsys o => Sys2Proof.Machine.execWrsys o s
  | .svc o => Sys2Proof.Machine.execSvc o s
  | .trap o => Sys2Proof.Machine.execTrap o s
  | .tret o => Sys2Proof.Machine.execTret o s
  | .iclk o => Sys2Proof.Machine.execIclk o s
  | .iulk o => Sys2Proof.Machine.execIulk o s
  | .tlbi o => Sys2Proof.Machine.execTlbi o s
  | .caps o => Sys2Proof.Machine.execCaps o s
  | .pload o => Sys2Proof.Machine.execPload o s
  | .pbind o => Sys2Proof.Machine.execPbind o s
  | .pbindU o => Sys2Proof.Machine.execPbindU o s
  | .ppar o => Sys2Proof.Machine.execPpar o s
  | .pclr o => Sys2Proof.Machine.execPclr o s
  | .prd o => Sys2Proof.Machine.execPrd o s
  | .prdC o => Sys2Proof.Machine.execPrdC o s
  | .prdN o => Sys2Proof.Machine.execPrdN o s
  | .br o => Sys2Proof.Machine.execBr o s
  | .bk o => Sys2Proof.Machine.execBk o s
  | .jr o => Sys2Proof.Machine.execJr o s
  | .call o => Sys2Proof.Machine.execCall o s
  | .ret o => Sys2Proof.Machine.execRet o s
  | .loop o => Sys2Proof.Machine.execLoop o s
  | .tstb o => Sys2Proof.Machine.execTstb o s
  | .xfence o => Sys2Proof.Machine.execXfence o s
  | .endTask o => Sys2Proof.Machine.execEndTask o s
  | .sync o => Sys2Proof.Machine.execSync o s
  | .nop o => Sys2Proof.Machine.execNop o s
  | .cnestCount o => Sys2Proof.Machine.execCnestCount o s
  | .cnestStride o => Sys2Proof.Machine.execCnestStride o s
  | .cnestRun o => Sys2Proof.Machine.execCnestRun o s
  | .cbaseAddr o => Sys2Proof.Machine.execCbaseAddr o s
  | .cbaseScale o => Sys2Proof.Machine.execCbaseScale o s
  | .cfmtFmt o => Sys2Proof.Machine.execCfmtFmt o s
  | .cfmtFill o => Sys2Proof.Machine.execCfmtFill o s
  | .cfmtLimit o => Sys2Proof.Machine.execCfmtLimit o s
  | .cfmtSubv o => Sys2Proof.Machine.execCfmtSubv o s
  | .cfmtClear o => Sys2Proof.Machine.execCfmtClear o s
  | .copy o => Sys2Proof.Machine.execCopy o s
  | .copyz o => Sys2Proof.Machine.execCopyz o s
  | .gather o => Sys2Proof.Machine.execGather o s
  | .scatter o => Sys2Proof.Machine.execScatter o s
  | .decomp o => Sys2Proof.Machine.execDecomp o s
  | .drain o => Sys2Proof.Machine.execDrain o s
  | .cpref o => Sys2Proof.Machine.execCpref o s
  | .rnestCount o => Sys2Proof.Machine.execRnestCount o s
  | .rnestStride o => Sys2Proof.Machine.execRnestStride o s
  | .rnestRun o => Sys2Proof.Machine.execRnestRun o s
  | .rbaseAddr o => Sys2Proof.Machine.execRbaseAddr o s
  | .rbaseScale o => Sys2Proof.Machine.execRbaseScale o s
  | .rfmtFmt o => Sys2Proof.Machine.execRfmtFmt o s
  | .rfmtFill o => Sys2Proof.Machine.execRfmtFill o s
  | .rfmtLimit o => Sys2Proof.Machine.execRfmtLimit o s
  | .rfmtSubv o => Sys2Proof.Machine.execRfmtSubv o s
  | .rfmtClear o => Sys2Proof.Machine.execRfmtClear o s
  | .red o => Sys2Proof.Machine.execRed o s
  | .scan o => Sys2Proof.Machine.execScan o s
  | .merge o => Sys2Proof.Machine.execMerge o s
  | .kring o => Sys2Proof.Machine.execKring o s
  | .kbw o => Sys2Proof.Machine.execKbw o s
  | .kallred o => Sys2Proof.Machine.execKallred o s
  | .kbcast o => Sys2Proof.Machine.execKbcast o s
  | .kput o => Sys2Proof.Machine.execKput o s
  | .mnestCount o => Sys2Proof.Machine.execMnestCount o s
  | .mnestStride o => Sys2Proof.Machine.execMnestStride o s
  | .mbaseAddr o => Sys2Proof.Machine.execMbaseAddr o s
  | .mbaseScale o => Sys2Proof.Machine.execMbaseScale o s
  | .mbasePitch o => Sys2Proof.Machine.execMbasePitch o s
  | .mbaseDpitch o => Sys2Proof.Machine.execMbaseDpitch o s
  | .mfmtCtl o => Sys2Proof.Machine.execMfmtCtl o s
  | .mfmtDctl o => Sys2Proof.Machine.execMfmtDctl o s
  | .mfmtDsb o => Sys2Proof.Machine.execMfmtDsb o s
  | .mfmtClip o => Sys2Proof.Machine.execMfmtClip o s
  | .mfmtSubv o => Sys2Proof.Machine.execMfmtSubv o s
  | .mfmtClear o => Sys2Proof.Machine.execMfmtClear o s
  | .mgo o => Sys2Proof.Machine.execMgo o s
  | .mzero o => Sys2Proof.Machine.execMzero o s
  | .minit o => Sys2Proof.Machine.execMinit o s
  | .mdrain o => Sys2Proof.Machine.execMdrain o s
  | .msparse o => Sys2Proof.Machine.execMsparse o s
  | .dmap o => Sys2Proof.Machine.execDmap o s
  | .dcurve o => Sys2Proof.Machine.execDcurve o s
  | .dtap o => Sys2Proof.Machine.execDtap o s
  | .dgo o => Sys2Proof.Machine.execDgo o s
  | .portFadd o => Sys2Proof.Machine.execPortFadd o s
  | .portFsub o => Sys2Proof.Machine.execPortFsub o s
  | .portFmul o => Sys2Proof.Machine.execPortFmul o s
  | .portFfma o => Sys2Proof.Machine.execPortFfma o s
  | .portFmin o => Sys2Proof.Machine.execPortFmin o s
  | .portFmax o => Sys2Proof.Machine.execPortFmax o s
  | .portFabs o => Sys2Proof.Machine.execPortFabs o s
  | .portFneg o => Sys2Proof.Machine.execPortFneg o s
  | .portFrcp o => Sys2Proof.Machine.execPortFrcp o s
  | .portFrsq o => Sys2Proof.Machine.execPortFrsq o s
  | .portFex2 o => Sys2Proof.Machine.execPortFex2 o s
  | .portFlg2 o => Sys2Proof.Machine.execPortFlg2 o s
  | .portFcmp o => Sys2Proof.Machine.execPortFcmp o s
  | .portIadd o => Sys2Proof.Machine.execPortIadd o s
  | .portIsub o => Sys2Proof.Machine.execPortIsub o s
  | .portImul o => Sys2Proof.Machine.execPortImul o s
  | .portImulh o => Sys2Proof.Machine.execPortImulh o s
  | .portImin o => Sys2Proof.Machine.execPortImin o s
  | .portImax o => Sys2Proof.Machine.execPortImax o s
  | .portIminu o => Sys2Proof.Machine.execPortIminu o s
  | .portImaxu o => Sys2Proof.Machine.execPortImaxu o s
  | .portAnd o => Sys2Proof.Machine.execPortAnd o s
  | .portOr o => Sys2Proof.Machine.execPortOr o s
  | .portXor o => Sys2Proof.Machine.execPortXor o s
  | .portShl o => Sys2Proof.Machine.execPortShl o s
  | .portShr o => Sys2Proof.Machine.execPortShr o s
  | .portSra o => Sys2Proof.Machine.execPortSra o s
  | .portIcmp o => Sys2Proof.Machine.execPortIcmp o s
  | .portSel o => Sys2Proof.Machine.execPortSel o s
  | .portCvt o => Sys2Proof.Machine.execPortCvt o s
  | .portRnd o => Sys2Proof.Machine.execPortRnd o s
  | .portQsr o => Sys2Proof.Machine.execPortQsr o s
  | .portGet o => Sys2Proof.Machine.execPortGet o s
  | .portOut o => Sys2Proof.Machine.execPortOut o s
  | .portDrop o => Sys2Proof.Machine.execPortDrop o s
  | .portPar o => Sys2Proof.Machine.execPortPar o s
  | .portParx o => Sys2Proof.Machine.execPortParx o s
  | .portCget o => Sys2Proof.Machine.execPortCget o s
  | .portCset o => Sys2Proof.Machine.execPortCset o s
  | .portPrev o => Sys2Proof.Machine.execPortPrev o s
  | .portLut o => Sys2Proof.Machine.execPortLut o s
  | .portLdl o => Sys2Proof.Machine.execPortLdl o s
  | .portStl o => Sys2Proof.Machine.execPortStl o s
  | .portFlag o => Sys2Proof.Machine.execPortFlag o s
  | .portHint n o => Sys2Proof.Machine.execPortHint n o s
  | .engineIterationBoundary cid u => Sys2Proof.Machine.execEngineIterationBoundary cid u s
  | .throttleCauseClears watt tmax => Sys2Proof.Machine.execThrottleCauseClears watt tmax s
  | .mgmtOwnRead => Sys2Proof.Machine.execMgmtOwnRead s
  | .mgmtHbWrite => Sys2Proof.Machine.execMgmtHbWrite s
  | .bootCommit => Sys2Proof.Machine.execBootCommit s
  | .bootClrt => Sys2Proof.Machine.execBootClrt s
  | .bootFmin => Sys2Proof.Machine.execBootFmin s
  | .bootRst => Sys2Proof.Machine.execBootRst s
  | .keyld => Sys2Proof.Machine.execKeyld s
  | .keyclr => Sys2Proof.Machine.execKeyclr s
  | .hkey => Sys2Proof.Machine.execHkey s
  | .codekey => Sys2Proof.Machine.execCodekey s
  | .codereg => Sys2Proof.Machine.execCodereg s
  | .coderel => Sys2Proof.Machine.execCoderel s
  | .codest => Sys2Proof.Machine.execCodest s
  | .xreg => Sys2Proof.Machine.execXreg s
  | .xdel => Sys2Proof.Machine.execXdel s
  | .attest => Sys2Proof.Machine.execAttest s
  | .abort => Sys2Proof.Machine.execAbort s
  | .mailboxCommandEnd => Sys2Proof.Machine.execMailboxCommandEnd s
  | .descriptorAccept => Sys2Proof.Machine.execDescriptorAccept s
  | .scWheelIssue => Sys2Proof.Machine.execScWheelIssue s
  | .scPerform => Sys2Proof.Machine.execScPerform s
  | .mredPerform => Sys2Proof.Machine.execMredPerform s
  | .handlerStart => Sys2Proof.Machine.execHandlerStart s
  | .watchdog => Sys2Proof.Machine.execWatchdog s
  | .sleepuWake => Sys2Proof.Machine.execSleepuWake s
  | .yieldEnd => Sys2Proof.Machine.execYieldEnd s
  | .svcReply => Sys2Proof.Machine.execSvcReply s
  | .ownershipLapse => Sys2Proof.Machine.execOwnershipLapse s
  | .commitVerifyDone => Sys2Proof.Machine.execCommitVerifyDone s
  | .firmwareWriteDone => Sys2Proof.Machine.execFirmwareWriteDone s
  | .deviceReset => Sys2Proof.Machine.execDeviceReset s
  | .fwdog => Sys2Proof.Machine.execFwdog s
  | .linkStageEnd => Sys2Proof.Machine.execLinkStageEnd s
  | .auxPowerLoss => Sys2Proof.Machine.execAuxPowerLoss s
  | .powerLoss => Sys2Proof.Machine.execPowerLoss s
  | .tokenTick => Sys2Proof.Machine.execTokenTick s

end Sys2Proof.Machine
end

