-- ==== Sys2Proof/Machine/Agents.lean ====
section
/-! DEFINITION. The agents' steps: fetching and issuing on the S stream (R62, R92, R97, R101, R102), the trailing streams' starts (R92, R215),
the trap core (R214), the helper (R112, R113), a port word (R409), and what falls due when the clock goes on. -/

namespace Sys2Proof.Machine

open Sys2Proof

/-- The state of an outcome; the state before where the machine stopped. -/
def resState (s : State) : Res → State
  | .next t => t
  | .fault _ => s
  | .refused _ => s

/-! ## S -/

/-- S of a context may try to issue on a clk (R101, R102): it runs a task, is not frozen, its stall count has elapsed, it does not stand
at the bound of R97, and no instruction that has issued holds it. -/
def Ctx.canTry (c : Ctx) (clk : Nat) : Bool :=
  c.task.isSome && c.trap.phase == .none && decide (c.sc.nextIssue ≤ clk) && !c.atBound && c.sc.hold == .none

/-- A failed fetch (R63, R217, R437). -/
def State.fetchFault (s : State) (code detail : Nat) : State := s.trapS code detail (if code = 6 then s.pc else 0)

/-- What S does with the word at its program counter: an engine's word is decoded and queued for its stream (R93), another is executed, and
one that is no instruction is illegal (R264). -/
def State.runWord (s : State) (w : Word) : Res :=
  match tagAgent w with
  | some _ => exec (.engineInstructionDecode w) s
  | none =>
    match decodeMain w.toNat with
    | .ok i => exec i s
    | .error _ => .next (s.trapS 1 0 0)

/-- S of a context fetches and executes its next instruction (R62, R263). -/
def State.tryS (s : State) (cid : Nat) : Res :=
  match (s.at_ cid .S).fetchNext with
  | (.wait _ _, u) => .next u
  | (.fault c d, u) => .next (u.fetchFault c d)
  | (.bytes b, u) => u.runWord (leWord b)

/-- S of a context would leave its instruction now: it issues, or traps, or ends its task. It is then ready in the sense of R101. -/
def State.wouldIssue (s : State) (cid : Nat) : Bool :=
  (s.ctx cid).canTry s.clk &&
    (let t := resState s (s.tryS cid)
     (t.core (cid / 2)).lastIssue == some (s.clk, cid % 2) || (t.ctx cid).trap.phase != .none || (t.ctx cid).task.isNone)

/-- Which of two ready contexts the core's issue slot goes to (R101, R331): after a yield to the other one, else to the one that did not issue
most recently. Before either has issued the agenda chooses. -/
def Core.slotIs (k : Core) (x : Nat) : Bool :=
  match k.gives with
  | some g => g != x
  | none => match k.lastIssue with | some (_, y) => y != x | none => true

/-- The core's issue slot of this clk is the context's (R101): nothing has issued on this clk, and the other context is not ready, or the slot
is not that one's. -/
def State.issueTurn (s : State) (cid : Nat) : Bool :=
  let k := s.core (cid / 2)
  !k.lastIssue.any (fun l => l.1 == s.clk) && (k.slotIs (cid % 2) || !s.wouldIssue (otherCtx cid))

/-- A step of S. A slot for which both contexts were ready ends what a yield gave (R331). -/
def State.runS (s : State) (cid : Nat) : Res :=
  if (s.ctx cid).canTry s.clk && s.issueTurn cid then
    if (s.core (cid / 2)).gives.isSome && s.wouldIssue (otherCtx cid) then
      (s.modCore (cid / 2) (fun k => { k with gives := none })).tryS cid
    else s.tryS cid
  else .next s

/-! ## The trailing streams -/

/-- A trailing stream may start instructions: its context is not frozen, or runs on (R215, R236). -/
def Ctx.mayStart (c : Ctx) : Bool :=
  c.task.isSome && (c.trap.phase == .none || c.trap.phase == .migrating || c.trap.runOn)

/-- A trailing stream executes the oldest instruction of its queue, one on a clk at the most; control flow that S has resolved is passed
(R92, R95). -/
def State.runX (s : State) (cid : Nat) (a : Agent) : Res :=
  let s := s.at_ cid a
  match (s.ctx cid).eng.q a with
  | [] => .next s
  | e :: _ =>
    if !(s.ctx cid).mayStart || !(s.ctx cid).eng.canStart (pathOf a) s.clk then .next s
    else if isFlow e.w then .next s.started
    else
      match decodeMain e.w.toNat with
      | .ok i => exec i s
      | .error _ => .next s

/-! ## The trap core -/

/-- A step of the trap core of a context's core (R214, R217, R222). -/
def State.runTrap (s : State) (core : Nat) : Res :=
  let k := (s.core core).trap
  match k.serving with
  | none => .next s
  | some cid =>
    if k.firmware then .next (s.firmwareStep core)
    else if s.clk < k.sc.nextIssue ∨ k.sc.hold ≠ .none then .next s
    else
      match (s.at_ cid .trapCore).fetchNext with
      | (.wait _ _, u) => .next u
      | (.fault c _, u) => .next (u.serviceKill core 0x11 c)
      | (.bytes b, u) =>
        match tagAgent (leWord b), decodeMain (leWord b).toNat with
        | some _, _ => .next (u.serviceKill core 0x11 1)
        | none, .ok i => exec i u
        | none, .error _ => .next (u.serviceKill core 0x11 1)

/-! ## The helper -/

/-- A step of the helper of a core (R112, R113): on a clk on which neither context issues. -/
def State.runHelper (s : State) (core : Nat) : Res :=
  match (s.core core).helper with
  | none => .next s
  | some h =>
    let busy := match (s.core core).lastIssue with | some (t, _) => t == s.clk | none => false
    if busy || s.wouldIssue (2 * core) || s.wouldIssue (2 * core + 1) || decide (s.clk < h.sc.nextIssue) then .next s
    else if h.sc.pc.toNat < h.lo ∨ h.hi ≤ h.sc.pc.toNat then .next (s.endHelper core)
    else
      match (s.at_ h.cid .helper).fetchNext with
      | (.wait _ _, u) => .next (u.endHelper core)
      | (.fault _ _, u) => .next (u.endHelper core)
      | (.bytes b, u) =>
        match tagAgent (leWord b), decodeMain (leWord b).toNat with
        | some _, _ => .next (u.endHelper core)
        | none, .ok i => exec i u
        | none, .error _ => .next (u.endHelper core)

/-- A step of an agent of a context. -/
def State.runAgent (s : State) (cid : Nat) (a : Agent) : Res :=
  match a with
  | .S => s.runS cid
  | .C => s.runX cid .C
  | .M => s.runX cid .M
  | .R => s.runX cid .R
  | .K => s.runX cid .K
  | .trapCore => s.runTrap (cid / 2)
  | .helper => s.runHelper (cid / 2)

/-! ## A port program (R409, R411) -/

/-- The end of the program that runs: the body's words, or the epilogue's, which stand from word 32 on (R404). -/
def Slot.endOf (l : Slot) (epi : Bool) : Nat := if epi then 32 + l.elen else l.blen

/-- One word of the running port program, or its end. -/
def State.runPort (s : State) (r : PortRun) : Res :=
  let l := s.slot r.cid r.slot
  if l.endOf r.epi ≤ r.pc then .next s.portDone
  else
    match decodePort (l.word r.pc) with
    | .ok i => exec i s
    | .error _ => .next s.portDone

/-! ## The clock -/

/-- Carries out an event of a context. -/
def State.due (s : State) (cid : Nat) (f : State → Res) : State := resState s (f (s.at_ cid .S))

/-- An instruction at which a trailing stream may have to wait for others: xfence, sync or end, a DRAIN, or one whose wait field is not
satisfied. -/
def State.atWait (s : State) (e : QEnt) : Bool :=
  match decodeMain e.w.toNat with
  | .ok (.xfence _) => true
  | .ok (.sync _) => true
  | .ok (.endTask _) => true
  | .ok (.drain _) => true
  | _ => bitsOf e.w 63 61 != 5 && !s.waitOk (syncOf e.w)

/-- A trailing stream of a migrating context stands at the trapping instruction or at a wait that is not satisfied (R236). -/
def State.stands (s : State) (cid : Nat) (a : Agent) : Bool :=
  match (s.ctx cid).eng.q a with
  | [] => true
  | e :: q =>
    (s.ctx cid).eng.canStart (pathOf a) s.clk && (s.at_ cid a).atWait e && ((resState s (s.runX cid a)).ctx cid).eng.q a == e :: q

/-- The freeze of a migrate trap begins once every trailing stream stands (R236). -/
def State.freezeMig (s : State) (cid : Nat) : State :=
  if (s.ctx cid).trap.phase == .migrating && [Agent.C, .M, .R, .K].all (s.stands cid) then
    s.modCtx cid (fun c => c.modTrap (fun t => { t with phase := .freezing }))
  else s

/-- The watchdog's time starts when S comes to the bound of R97, and ends when it leaves it (R100); a parked context does not stand there. -/
def Ctx.watchBound (c : Ctx) (clk : Nat) : Ctx :=
  if c.trap.phase != .none then c
  else if c.atBound && c.sc.hold == .none then c.modSc (fun q => { q with boundSince := some (q.boundSince.getD clk) })
  else c.modSc (fun q => { q with boundSince := none })

/-- An instruction that has issued and waits for a condition goes on if it is met: an xfence, a bbar or a spawn while the context is not
frozen, an iclk also while it freezes (R436). -/
def State.retryHold (s : State) (cid : Nat) : State :=
  let s := s.at_ cid .S
  let free := s.me.trap.phase == .none
  match s.me.sc.hold with
  | .xfence n o => if free then s.xfenceWait n o else s
  | .bbar g => if free then s.bbarWait g else s
  | .spawn rd bs => if free then s.spawnEnter rd bs else s
  | .iclk rd h a n => if free || s.me.trap.phase == .freezing then s.iclkWait rd h a n else s
  | .none => s | .sleepu _ _ => s | .yield _ => s | .waita _ => s | .sc _ => s | .svc _ _ => s | .remote _ => s

/-- What a clk ends with in one context: a waita that a write has woken, then the slot wheel (R165, R307). -/
def State.endCtx (s : State) (cid : Nat) : State := (s.due cid (execWaitaWake cid)).due cid execScWheelIssue

/-- What falls due in one context as a clk begins: the waits that end by time or by a condition (R307, R329, R331), the freeze of a migrate
trap, and the watchdog (R100). -/
def State.dueCtx (s : State) (cid : Nat) : State :=
  let s := s.due cid (execWaitaWake cid)
  let s := s.due cid execSleepuWake
  let s := s.due cid execYieldEnd
  let s := (s.retryHold cid).freezeMig cid
  (s.modCtx cid (fun c => c.watchBound s.clk)).due cid execWatchdog

/-- The scheduler's work that falls due on a clk: the ticks (R43, R81), the aging steps (R80), reserving (R79), time limits (R53) and the
images of bunches (R238). -/
def State.dueSched (s : State) : State :=
  let s := resState s (execOwnershipLapse s)
  let s := State.ageNow (resState s (execTokenTick s))
  let s := s.readyList.foldl (fun s x => resState s (execReserving x.1 s)) s
  let s := (s.sched.launches.map Prod.fst).foldl (fun s l => resState s (execTlim l s)) s
  (s.sched.bunches.map Prod.fst).foldl State.settleSaved s

/-- The device's own time limits (R21, R27). -/
def State.dueDevice (s : State) : State :=
  let s := resState s (execFwdog s)
  let s := resState s (execLinkStageEnd s)
  ((s.net.reqs.map (fun x => x.2.dev)).eraseDups).foldl (fun s d => resState s (execNoRouteTimeout d s)) s

/-- What a clk ends with: the wheel, and the matrix clocks withheld on it (R37). -/
def State.clkEnd (s : State) : State :=
  let s := (s.ctxs.map Prod.fst).foldl State.endCtx s
  let n := ((s.cores.map Prod.fst).filter s.withheldAt).length
  { s with power := { s.power with thr := s.power.thr + word n } }

/-- What a clk begins with: the .sc accesses of R166 before any other access, then all that falls due, and the age of L1 lines (R143). -/
def State.clkStart (s : State) : State :=
  let s := (s.ctxs.map Prod.fst).foldl (fun s c => s.due c execScPerform) s
  let s := s.dueSched.dueDevice
  let s := (s.ctxs.map Prod.fst).foldl State.dueCtx s
  (s.cores.map Prod.fst).foldl State.ageL1 s

/-- The clock goes on by one clk. Without main power nothing else happens. -/
def State.tick (s : State) : State :=
  let next : State → State := fun t => { t with clk := t.clk + 1, turn := ⟨0, 0, 0⟩ }
  if s.boot.off then next s else (next s.clkEnd).clkStart

/-! ## Events -/

/-- The events that an unpowered device takes. -/
def powerEvent : Instr → Bool
  | .deviceReset => true | .auxPowerLoss => true | .powerLoss => true
  | _ => false

/-- An instruction that an agent executes from a word; such a one is no event. -/
def agentsOwn : Instr → Bool
  | .engineInstructionDecode _ => true
  | i => (encode i).isSome

/-- An event: it names a port and a context by the cursor. -/
def State.runEvent (s : State) (port cid : Nat) (i : Instr) : Res :=
  if agentsOwn i || s.boot.off && !powerEvent i then .next s
  else exec i { s with cur := { port := port, cid := cid, agent := .S } }

/-! ## The order on a clk -/

/-- The place of a mover in the order that the spec gives the agents of one clk: a host port (R42, R43), a context by its core's slot-wheel
position, its engines before its S (R211, R313, R327), a collective engine, whose position is after the cores' (R164), or a dispatcher by its
chiplet (R76). The others have no place in it. -/
inductive Rank
  | free
  | port (n : Nat)
  | agent (n : Nat)
  | chiplet (n : Nat)
  deriving DecidableEq, Repr

/-- The engines of a context, and its S, or its trap core (R327). -/
def engRank (cid : Nat) : Rank := .agent (4 * cid)
def sRank (cid : Nat) : Rank := .agent (4 * cid + 1)

/-- A collective engine. -/
def collRank (die : Nat) : Rank := .agent (4 * 512 + die)

/-- The rank of an event. -/
def eventRank (port cid : Nat) : Instr → Rank
  | .mgmtOwnRead => .port port
  | .descriptorAccept => .port port
  | .dispatch c => .chiplet c
  | .engineCommandComplete c _ => engRank c
  | .kputAck c _ => engRank c
  | .engineIterationBoundary c (.coll _) => collRank (dieAt c)
  | .engineIterationBoundary c _ => engRank c
  | .engineWritePerform c p => if p = 3 then collRank (dieAt c) else engRank c
  | .readyWordPoll c _ => collRank (dieAt c)
  | .segmentArrival die _ => collRank die
  | .storePerform c _ => sRank c
  | .loadReturn c _ _ => sRank c
  | .mredPerform => sRank cid
  | _ => .free

/-- The rank of a mover. The helper comes after both contexts of its core (R101). -/
def Mover.rank : Mover → Rank
  | .idle => .free
  | .soft _ => .free
  | .event port cid i => eventRank port cid i
  | .stream cid .S => sRank cid
  | .stream cid .trapCore => sRank cid
  | .stream cid .helper => .agent (4 * (cid / 2 * 2 + 1) + 2)
  | .stream cid .C => engRank cid
  | .stream cid .M => engRank cid
  | .stream cid .R => engRank cid
  | .stream cid .K => engRank cid

/-- The rank has been passed on this clk: the mover's turn comes on the next one. -/
def Turn.passed (t : Turn) : Rank → Bool
  | .free => false
  | .port n => decide (n < t.port)
  | .agent n => decide (n < t.agent)
  | .chiplet n => decide (n < t.chiplet)

/-- The clk has come to a rank. -/
def Turn.reach (t : Turn) : Rank → Turn
  | .free => t
  | .port n => { t with port := n }
  | .agent n => { t with agent := n }
  | .chiplet n => { t with chiplet := n }

/-- The agents' rank up to which every ready context must have issued before a mover acts: all of them before the clk ends (R101, R115). -/
def Mover.limit (m : Mover) : Nat :=
  match m, m.rank with
  | .idle, _ => 4 * 512
  | _, .agent n => n
  | _, .free => 0
  | _, .port _ => 0
  | _, .chiplet _ => 0

/-- A context whose S is ready and issues before a mover acts. -/
def State.forced (s : State) (m : Mover) : Option Nat :=
  (s.ctxs.map Prod.fst).find? (fun cid =>
    decide (s.turn.agent ≤ 4 * cid + 1) && decide (4 * cid + 1 < m.limit) && s.issueTurn cid && s.wouldIssue cid)

/-- A mover acts (log entry 1). -/
def State.runMover (s : State) (m : Mover) : Res :=
  let s := { s with turn := s.turn.reach m.rank }
  match m with
  | .idle => .next s.tick
  | .soft x => .next (s.softError x)
  | .event port cid i => s.runEvent port cid i
  | .stream cid a => s.runAgent cid a

/-- The next mover of an agenda. One whose turn has passed waits for the next clk, so that this one ends first. The contexts that must issue
before do so, and it acts once there is none. -/
def State.advance (s : State) (m : Mover) (rest : List Mover) : Res :=
  let late := s.turn.passed m.rank
  match s.forced (if late then .idle else m) with
  | some cid => s.runMover (.stream cid .S)
  | none => if late then .next s.tick else { s with agenda := rest }.runMover m

/-! ## Placing one word for the next step -/

/-- The virtual base of the code object that `withWord` uses. -/
def fetchBase : Nat := 0x01F0000000010000

/-- A task whose next word is w, in context 0 of core 0. -/
def State.withMain (s : State) (w : Nat) : State :=
  let o : CodeObj := { base := fetchBase, len := 65536, pages := 1, hashes := [], port := 0, bus := 0, keyIdx := 0, loaded := [0],
                       bytes := Mem.write [] 0x20 (leBytes 8 w), revoked := false }
  let a := fetchBase + 0x20
  let r : Record := ⟨word a, 0, 0, 0⟩
  let t : Task := { entry := 0, launch := 0, record := r, hdr := .zero, sys := true, bunch := 0, member := false }
  let s1 := { s with host := { s.host with objs := Map.put s.host.objs 0 o } }
  let c := { Ctx.start t with task := some t }
  match tagAgent (word w) with
  | none => { s1.setCtx 0 c with agenda := [.stream 0 .S] }
  | some x =>
    let e : QEnt := ⟨1, word a, word w, 0, 0, 0⟩
    { s1.setCtx 0 (c.modEng (fun g => g.setQ x [e])) with agenda := [.stream 0 x] }

/-- An element of lane 0 in slot 0 of context 0, whose program is the word w. -/
def State.withPort (s : State) (w : Nat) : State :=
  let l : Slot := { Slot.fresh with img := Mem.write (Mem.write [] 0 [1]) 32 (leBytes 4 w), bound := some 0 }
  let s1 := s.modCtx 0 (fun c => c.modPorts (fun p => { p with slots := Map.put p.slots 0 l }))
  { s1 with portRun := some { cid := 0, slot := 0, point := 0, unit := .ch 0, epi := false, pc := 0, ix := 0, lane := 0, v := [],
                              ins := [0, 0, 0, 0], outs := [], drops := 0, flags := 0, atEnd := [], pf := none } }

/-- The state in which the very next step runs the instruction of a table word: port rows have 32 bits, main-stream words 64. -/
def State.withWord (s : State) (nbits w : Nat) : State :=
  if nbits ≤ 32 then s.withPort (w % 2 ^ 32) else State.withMain { s with portRun := none } (w % 2 ^ 64)

end Sys2Proof.Machine
end

