-- ==== Sys2Proof/Machine/Step.lean ====
section
/-! DEFINITION. One step of the device: a word of a port program that runs, else the next mover of the agenda, else the clock. -/

namespace Sys2Proof.Machine

/-- One step (log entries 1 and 12). -/
def step (s : State) : Host.Outcome State Fault Refusal :=
  match s.portRun with
  | some r => s.runPort r
  | none =>
    match s.agenda with
    | [] => s.advance .idle []
    | m :: rest => s.advance m rest

/-- The state in which the next step runs the instruction of a word (log entry 2). -/
def State.withFetchWord (s : State) (nbits w : Nat) : State := s.withWord nbits w

end Sys2Proof.Machine
end

