-- ==== Sys2Proof/Safety.lean ====
section
/-! DEFINITION. What counts as a safe step, and the terms in which the statements speak of one instruction: when it may issue, what it
gives, and what it leaves alone. -/

namespace Sys2Proof.Machine

open Sys2Proof

/-- The machine's next step gives a next state: it neither faults nor is refused. -/
def State.Goes (s : State) : Prop := ∃ t, step s = .next t

/-! ## When an instruction issues -/

/-- The agent at the cursor exists: a context always does, the trap core always does, the helper while it runs. -/
def State.HasAgent (s : State) : Prop := s.cur.agent = .helper → (s.core s.myCore).helper.isSome = true

/-- None of the registers is pending: no access, and no result of variable latency, is still to give one its value (R96, R103). -/
def State.Here (s : State) (rs : List Nat) : Prop :=
  ∀ r ∈ rs, r ≠ 0 → r ∉ s.sca.pend ∧ ∀ l ∈ s.sca.land, l.reg = r → l.var = true → l.clk ≤ s.clk

/-- An instruction that reads `srcs` and writes `dst` after a latency issues: none of its registers is pending (R96), and with
CHECK.EN the scoreboard finds every source landed and no earlier result that reaches the destination as late as this one
(R104). -/
structure State.Ready (s : State) (srcs : List Nat) (dst : Option (Nat × Nat)) : Prop where
  agent : s.HasAgent
  srcs_here : s.Here srcs
  dst_free : ∀ d, dst = some d → s.Here [d.1]
  srcs_landed : s.checking = true → ∀ r ∈ srcs, r ≠ 0 → ∀ l ∈ s.sca.land, l.reg = r → l.clk ≤ s.clk
  dst_last : s.checking = true → ∀ d, dst = some d → d.1 ≠ 0 → ∀ l ∈ s.sca.land, l.reg = d.1 →
    l.clk ≤ s.clk ∨ l.clk < s.clk + d.2

/-- The agent at the cursor is the main S stream of the cursor's context. -/
def State.OnMain (s : State) : Prop := s.cur.agent = .S

/-! ## What an instruction leaves alone -/

/-- Everything of the device that is not a context or a core: the clock, the host ports, the scheduler, all of memory and the
rest. -/
def State.outside (s : State) : State := { s with ctxs := [], cores := [] }

/-- A context without what an instruction of an agent changes by issuing: S changes its own scalar part. -/
def Ctx.restFor (a : Agent) (c : Ctx) : Ctx :=
  match a with
  | .trapCore => c
  | .helper => c
  | .S => { c with sc := .fresh }
  | .C => { c with sc := .fresh }
  | .M => { c with sc := .fresh }
  | .R => { c with sc := .fresh }
  | .K => { c with sc := .fresh }

/-- A core without what an instruction of an agent changes by issuing: the agent's scalar part where the core holds it, and
which context issued last (R101). -/
def Core.restFor (a : Agent) (k : Core) : Core :=
  match a with
  | .trapCore => { k with trap := { k.trap with sc := .fresh } }
  | .helper => { k with lastIssue := none, helper := k.helper.map (fun h => { h with sc := .fresh }) }
  | .S => { k with lastIssue := none }
  | .C => k
  | .M => k
  | .R => k
  | .K => k

/-- THE FRAME of an instruction that only issues: t is s but for the scalar part of the agent at the cursor. Every other
context and core, every queue, semaphore, system register and byte of memory is the same. -/
structure State.Keeps (s t : State) : Prop where
  outside : t.outside = s.outside
  others : ∀ c, c ≠ s.cur.cid → t.ctx c = s.ctx c
  mine : t.me.restFor s.cur.agent = s.me.restFor s.cur.agent
  otherCores : ∀ k, k ≠ s.myCore → t.core k = s.core k
  myCore : (t.core s.myCore).restFor s.cur.agent = (s.core s.myCore).restFor s.cur.agent

/-! ## What an instruction gives -/

/-- The results on their way after one more: register, value, latency; s0 discards it (R103, R265). -/
def Scalar.landAfter (sc : Scalar) (clk rd : Nat) (v : Word) (lat : Nat) : List Landing :=
  if rd = 0 then sc.land else addLanding ⟨clk + lat, sc.seq, rd, v, false⟩ sc.land

/-- The results on their way after one of variable latency, whose register is pending until it is written: no earlier result reaches the
register after it (R103, R285). -/
def Scalar.landVar (sc : Scalar) (clk rd : Nat) (v : Word) : List Landing :=
  if rd = 0 then sc.land else addLanding ⟨clk + 1, sc.seq, rd, v, true⟩ (sc.land.filter (fun l => l.reg != rd))

/-- The scalar part after an issue that goes on to `next`, with the next issue `st + extra` clk later than it could be. A jump leaves the
bundle of instructions that was fetched (R263). -/
def Scalar.issued (sc : Scalar) (clk st extra : Nat) (next : Word) : Scalar :=
  { sc with pc := next, seq := sc.seq + 1, nextIssue := clk + 1 + st + extra, boundSince := none,
            bundle := if next = sc.pc + 8 then sc.bundle else none }

/-- From s the instruction goes on to `next` and gives nothing else: its frame. -/
structure State.GoesTo (s t : State) (st extra : Nat) (next : Word) : Prop where
  scalar : t.sca = s.sca.issued s.clk st extra next
  frame : s.Keeps t

/-- From s the instruction goes on to the one after it (8 bytes on) and gives nothing else. -/
def State.Passes (s t : State) (st : Nat) : Prop := s.GoesTo t st 0 (s.pc + 8)

/-- From s the instruction goes on to `next` with these results on their way, and gives nothing else. -/
structure State.LandsTo (s t : State) (land : List Landing) (st extra : Nat) (next : Word) : Prop where
  scalar : t.sca = { s.sca with land := land }.issued s.clk st extra next
  frame : s.Keeps t

/-- From s the instruction puts one result on its way to a register, goes on to `next`, and gives nothing else. -/
def State.GivesTo (s t : State) (rd : Nat) (v : Word) (lat st extra : Nat) (next : Word) : Prop :=
  s.LandsTo t (s.sca.landAfter s.clk rd v lat) st extra next

/-- From s the instruction puts one result on its way to a register, goes on to the one after it, and gives nothing else. -/
def State.Gives (s t : State) (rd : Nat) (v : Word) (lat st : Nat) : Prop := s.GivesTo t rd v lat st 0 (s.pc + 8)

/-- The same for a result of variable latency. -/
def State.GivesVar (s t : State) (rd : Nat) (v : Word) (st : Nat) : Prop := s.LandsTo t (s.sca.landVar s.clk rd v) st 0 (s.pc + 8)

end Sys2Proof.Machine

namespace Sys2Proof

/-! ## Values of the integer instructions, from R288 to R292 -/

/-- An exact integer as a result at a width: its low w bits, sign-extended (R288). -/
def Width.wrap (wd : Width) (i : Int) : Word :=
  match wd with
  | .d => BitVec.ofInt 64 i
  | .w => (BitVec.ofInt 32 i).signExtend 64

/-- The low w bits of a word as a result at a width. -/
def Width.low (wd : Width) (x : Word) : Word :=
  match wd with
  | .d => x
  | .w => (x.setWidth 32).signExtend 64

namespace Machine

/-- The two-source integer instructions with their value and latency (R285, R289, R290). -/
def intRows : List ((R3w → Instr) × (Width → Word → Word → Word) × Nat) :=
  [ (.add, fun z a b => z.wrap (z.uns a + z.uns b), 1),
    (.sub, fun z a b => z.wrap ((z.uns a : Int) - z.uns b), 1),
    (.mul, fun z a b => z.wrap (z.uns a * z.uns b), 3),
    (.mulh, fun z a b => z.wrap (z.sgn a * z.sgn b / 2 ^ z.bits), 3),
    (.mulhu, fun z a b => z.wrap (z.uns a * z.uns b / 2 ^ z.bits), 3),
    (.and, fun z a b => z.low (a &&& b), 1),
    (.or, fun z a b => z.low (a ||| b), 1),
    (.xor, fun z a b => z.low (a ^^^ b), 1),
    (.shl, fun z a b => z.wrap (z.uns a * 2 ^ (z.uns b % z.bits)), 1),
    (.shr, fun z a b => z.wrap (z.uns a / 2 ^ (z.uns b % z.bits)), 1),
    (.sra, fun z a b => z.wrap (z.sgn a / 2 ^ (z.uns b % z.bits)), 1),
    (.min, fun z a b => z.wrap (if z.sgn a ≤ z.sgn b then z.sgn a else z.sgn b), 1),
    (.max, fun z a b => z.wrap (if z.sgn a ≤ z.sgn b then z.sgn b else z.sgn a), 1),
    (.minu, fun z a b => z.wrap (if z.uns a ≤ z.uns b then z.uns a else z.uns b), 1),
    (.maxu, fun z a b => z.wrap (if z.uns a ≤ z.uns b then z.uns b else z.uns a), 1) ]

/-- The divisions with their value (R285, R290): their results are of variable latency. -/
def divRows : List ((R3w → Instr) × (Width → Word → Word → Word)) :=
  [ (.div, fun z a b => if z.uns b = 0 then z.wrap (-1) else z.wrap ((z.sgn a).tdiv (z.sgn b))),
    (.divu, fun z a b => if z.uns b = 0 then z.wrap (-1) else z.wrap (z.uns a / z.uns b)),
    (.rem, fun z a b => if z.uns b = 0 then z.wrap (z.sgn a) else z.wrap (z.sgn a - z.sgn b * (z.sgn a).tdiv (z.sgn b))),
    (.remu, fun z a b => if z.uns b = 0 then z.wrap (z.uns a) else z.wrap ((z.uns a : Int) - z.uns b * (z.uns a / z.uns b))) ]

/-- The immediate instructions of a width with their value and latency (R285, R293): x is the immediate sign-extended, and the
shifts take imm32 as their count. -/
def immRows : List ((RIw → Instr) × (Width → Word → BitVec 32 → Word) × Nat) :=
  [ (.addi, fun z a x => z.wrap (z.uns a + x.toInt), 1),
    (.andi, fun z a x => z.low (a &&& x.signExtend 64), 1),
    (.ori, fun z a x => z.low (a ||| x.signExtend 64), 1),
    (.xori, fun z a x => z.low (a ^^^ x.signExtend 64), 1),
    (.shli, fun z a x => z.wrap (z.uns a * 2 ^ x.toNat), 1),
    (.shri, fun z a x => z.wrap (z.uns a / 2 ^ x.toNat), 1),
    (.srai, fun z a x => z.wrap (z.sgn a / 2 ^ x.toNat), 1),
    (.muli, fun z a x => z.wrap (z.uns a * x.toInt), 3) ]

end Machine
end Sys2Proof

namespace Sys2Proof

/-! ## Conditions and floating point, from R266 and R292 to R298 -/

/-- A condition compares its operands unsigned (R292). -/
def Cond.unsigned : Cond → Bool
  | .ltu => true | .leu => true | .gtu => true | .geu => true
  | .eq => false | .ne => false | .lt => false | .le => false | .gt => false | .ge => false

/-- The relation that a condition names. -/
def Cond.relates : Cond → Int → Int → Prop
  | .eq, x, y => x = y
  | .ne, x, y => x ≠ y
  | .lt, x, y => x < y
  | .le, x, y => x ≤ y
  | .gt, x, y => y < x
  | .ge, x, y => y ≤ x
  | .ltu, x, y => x < y
  | .leu, x, y => x ≤ y
  | .gtu, x, y => y < x
  | .geu, x, y => y ≤ x

/-- A condition on two register values at a width (R292). -/
def Cond.meets (c : Cond) (z : Width) (a b : Word) : Prop :=
  if c.unsigned then c.relates (z.uns a) (z.uns b) else c.relates (z.sgn a) (z.sgn b)

namespace Machine

/-- The number that an exact value stands for; NaN and the infinities stand for none and give 0. -/
def Val.rat : Val → ℚ
  | .nan => 0
  | .inf _ => 0
  | .fin n m e => (if n then -1 else 1) * (m : ℚ) * 2 ^ e

/-- An exact value is a number. -/
def Val.isFin : Val → Bool
  | .fin _ _ _ => true
  | .nan => false
  | .inf _ => false

/-- The two-source scalar float instructions that round an exact result, with that result (R295). -/
def floatRows : List ((F3 → Instr) × (Val → Val → Val)) :=
  [(.fadd, fun x y => (x.add y).1), (.fsub, fun x y => (x.add y.neg).1), (.fmul, fun x y => (x.mul y).1)]

/-- The FP32 value in a register as a scalar float instruction reads it (R294, R191). -/
def f32Of (fz : Bool) (a : Word) : Val := FFmt.f32.decodeFz fz (a.toNat % 2 ^ 32)

/-- An exact value as a scalar float result: rounded once, bits 63:32 zero (R294). -/
def f32Out (fz : Bool) (v : Val) : Word := word (FFmt.f32.arith fz v).1

end Machine
end Sys2Proof

namespace Sys2Proof.Machine

/-! ## What taking an exception does (R215, R217, R219) -/

/-- The trap state of a context that a first cause freezes (R215): the cause is held with its frame, its bit of PEND is set, S is
frozen, and the trailing streams with it but for a missed promise; a migrate trap lets them go on first (R236). `once` says that no retry
raises it again. -/
def TrapSt.entered (x : TrapSt) (clk : Nat) (once : Bool) (f : Frame) : TrapSt :=
  { x with phase := if f.code = 3 then .migrating else .freezing, causes := x.causes ++ [⟨f, once⟩],
           pend := x.pend ||| BitVec.ofNat 32 (2 ^ f.code), runOn := f.code == 9, frozenAt := clk }

/-- A trap wakes a parked waita of its core (R308) and changes no other hold. -/
def Hold.wokenBy (before after : Hold) : Prop :=
  after = before ∨ ∃ w, before = .waita w ∧ after = .waita { w with woken := true }

/-- From s a context takes an exception with a frame and nothing else happens: its registers, queues, semaphores and commands
stand as they were, the program counter stays at the instruction, and of the rest only a helper of the context ends (R113) and a
parked waita of the core wakes. -/
structure State.Traps (s t : State) (cid : Nat) (once : Bool) (f : Frame) : Prop where
  trap : (t.ctx cid).trap = (s.ctx cid).trap.entered s.clk once f
  mine : { t.ctx cid with trap := .fresh, sc := { (t.ctx cid).sc with hold := .none } } =
    { s.ctx cid with trap := .fresh, sc := { (s.ctx cid).sc with hold := .none } }
  others : ∀ c, c ≠ cid → { t.ctx c with sc := { (t.ctx c).sc with hold := .none } } =
    { s.ctx c with sc := { (s.ctx c).sc with hold := .none } }
  holds : ∀ c, Hold.wokenBy (s.ctx c).sc.hold (t.ctx c).sc.hold
  elsewhere : ∀ c, c / 2 ≠ cid / 2 → t.ctx c = s.ctx c
  outside : t.outside = s.outside
  cores : ∀ k, { t.core k with helper := none } = { s.core k with helper := none }

/-- The frame of a cause that S raises at its program counter (R217, R219): ENG 0, the instruction word and its address. -/
def State.frameS (s : State) (code detail : Nat) (faddr : Word) : Frame :=
  { code := code, detail := detail, eng := 0, ch := 0, esw := 0, faddr := faddr, pelem := 0, pins := 0, pslot := 0, pbind := 0,
    iword := s.curWord, fpc := s.pc }

/-- S takes an exception at its instruction, which it raises again when it is retried: cause, DETAIL and FADDR. -/
def State.TrapsS (s t : State) (code detail : Nat) (faddr : Word) : Prop := s.Traps t s.cur.cid false (s.frameS code detail faddr)

/-- S takes an exception of an access that has been made: it is held until it is taken (R218). -/
def State.TrapsOnce (s t : State) (code detail : Nat) (faddr : Word) : Prop := s.Traps t s.cur.cid true (s.frameS code detail faddr)


/-! ## Control flow (R92, R94) -/

/-- The entry that an instruction of S leaves in a trailing stream's queue: its sequence number, address and word. -/
def State.trail (s : State) : QEnt := ⟨s.sca.seq, s.pc, s.curWord, 0, 0, 0⟩

/-- A context without the operand queues of its trailing streams. -/
def Ctx.unqueued (c : Ctx) : Ctx := { c with eng := { c.eng with qC := [], qM := [], qR := [], qK := [] } }

/-- From s the trailing streams that have instructions still to start get one entry each, and nothing else changes (R92, R94). -/
structure State.Follows (s t : State) : Prop where
  queues : ∀ a ∈ [Agent.C, .M, .R, .K],
    t.me.eng.q a = if s.me.eng.q a = [] then [] else s.me.eng.q a ++ [s.trail]
  mine : t.me.unqueued = s.me.unqueued
  others : ∀ c, c ≠ s.cur.cid → t.ctx c = s.ctx c
  outside : t.outside = s.outside
  cores : ∀ k, t.core k = s.core k

/-- Where a relative branch goes: the instruction's address plus 8 times its signed offset (R299). -/
def State.rel (s : State) (off : BitVec 26) : Word := BitVec.ofInt 64 (s.pc.toInt + 8 * off.toInt)


/-! ## Waits of S -/

/-- The S path of the cursor's context has drained, its remote stores are acknowledged, and no failure is to be reported: an
instruction that waits for these has its effect now (R146, R170, R171). -/
structure State.Drained (s : State) : Prop where
  loads : s.me.path.loads = []
  stores : s.me.path.stores = []
  acks : s.me.path.remStores = []
  fails : s.me.path.fails = []

/-- A line of a core's L1 holds no byte that its home slice lacks. -/
def Core.clean (k : Core) : Prop := ∀ n l, Map.find k.l1 n = some l → l.dirty.any id = false

/-- Everything before has been passed on the clk before, so that SYNC and END are complete on this one (R95): no stream has an instruction still
to start and none started one on this clk, no command runs and none completed on this clk. -/
structure State.Met (s : State) : Prop where
  queues : ∀ a ∈ [Agent.C, .M, .R, .K], s.me.eng.q a = []
  commands : s.me.eng.cmds = []
  began : ∀ x ∈ s.me.eng.began, x.2 < s.clk
  done : ∀ c, s.me.eng.doneAt = some c → c < s.clk

/-- t is s but for what is stored in HBM, its watchers and the L1 of one core: no register, queue, semaphore or system register differs, and
no key, tag or other memory. -/
structure State.MovesData (s t : State) (core : Nat) : Prop where
  rest : { t with mem := s.mem, net := s.net, ctxs := [], cores := [] } = { s with ctxs := [], cores := [] }
  mem : { t.mem with hbm := [], unitKey := [], poison := [], weak := [] } = { s.mem with hbm := [], unitKey := [], poison := [], weak := [] }
  net : { t.net with sent := [], waiting := [], watch := [] } = { s.net with sent := [], waiting := [], watch := [] }
  ctxs : ∀ c, { t.ctx c with sc := { (t.ctx c).sc with hold := .none } } = { s.ctx c with sc := { (s.ctx c).sc with hold := .none } }
  holds : ∀ c, Hold.wokenBy (s.ctx c).sc.hold (t.ctx c).sc.hold
  cores : ∀ k, k ≠ core → t.core k = s.core k
  mine : { t.core core with l1 := [] } = { s.core core with l1 := [] }

/-- From s the lines of a core's L1 that `out` names have been written back: each dirty byte of them reads at its home under the line's key, and
every other byte reads as before, through a slot that holds the same key (R59, R125). -/
structure State.WritesBack (s t : State) (core : Nat) (out : Nat → Prop) : Prop where
  moves : s.MovesData t core
  home : ∀ n l, out n → Map.find (s.core core).l1 n = some l → ∀ i < 64, l.dirty[i]? = some true →
    some (t.rd1 0 (.loc (n * 64 + i) l.key 0 0)) = l.bytes[i]?
  others : ∀ (launch : Nat) (q : Place), (∀ pa key cl wp, q = .loc pa key cl wp → ∀ l, out (pa / 64) → Map.find (s.core core).l1 (pa / 64) = some l →
    l.dirty.any id = true → s.slotKey key = s.slotKey l.key ∧ l.dirty[pa % 64]? ≠ some true) → t.rd1 launch q = s.rd1 launch q

/-- Every line of a core's L1 is of 64 bytes, under a slot that holds a key. -/
def State.Lined (s : State) (core : Nat) : Prop :=
  ∀ n l, Map.find (s.core core).l1 n = some l → l.bytes.length = 64 ∧ l.dirty.length = 64 ∧ (s.slotKey l.key).isSome = true


/-! ## Handing an instruction to trailing streams (R93) -/

/-- From s the trailing streams that `ok` names get one entry each at the end of their queues, and nothing else changes. -/
structure State.Hands (s t : State) (e : QEnt) (ok : Agent → Prop) : Prop where
  given : ∀ a ∈ [Agent.C, .M, .R, .K], ok a → t.me.eng.q a = s.me.eng.q a ++ [e]
  kept : ∀ a ∈ [Agent.C, .M, .R, .K], ¬ ok a → t.me.eng.q a = s.me.eng.q a
  mine : t.me.unqueued = s.me.unqueued
  others : ∀ c, c ≠ s.cur.cid → t.ctx c = s.ctx c
  outside : t.outside = s.outside
  cores : ∀ k, t.core k = s.core k

/-- The place of a stream in the sets of xfence, which list S, C, M, R, K from bit 0 (R274). -/
def Agent.bit : Agent → Nat
  | .S => 0 | .C => 1 | .M => 2 | .R => 3 | .K => 4 | .trapCore => 5 | .helper => 5

/-- A stream stands at an instruction and its accesses before it are done: its commands completed, its queued writes performed, and for
.dom every write to another device acknowledged (R176). -/
def State.doneBefore (s : State) (cid : Nat) (a : Agent) (sc : Scope) : Prop :=
  let g := (s.ctx cid).eng
  (match a with
   | .C => g.chans = []
   | .M => g.array = none ∧ g.drain = none
   | .R => g.red = none
   | .K => g.coll = []
   | .S => True | .trapCore => True | .helper => True) ∧
  Map.getD g.wq (pathOf a) [] = [] ∧ (sc = .dom → s.pathAcked cid (pathOf a) = true)


/-- Every stream of the cursor's context stands at the same instruction, every command has completed, and every access of every path is
done: what END waits for (R95, R180, R334). -/
structure State.AtEnd (s : State) : Prop where
  met : s.Met
  writes : ∀ a ∈ [Agent.C, .M, .R, .K], Map.getD s.me.eng.wq (pathOf a) [] = [] ∧ s.pathAcked s.cur.cid (pathOf a) = true
  failed : s.me.eng.wfails = []
  path : s.Drained

end Sys2Proof.Machine

namespace Sys2Proof

/-- Bytes of an access by its SIZE (R267). -/
def Size.bytes : Size → Nat
  | .b => 1 | .h => 2 | .w => 4 | .d => 8

end Sys2Proof

namespace Sys2Proof.Machine

/-! ## Accesses of the S path (R140, R144, R302-R309) -/

/-- t is s but for what a translation leaves: the TLB of the core, and a free value drawn (R135, R136). -/
structure State.Walks (s t : State) : Prop where
  rest : { t with cores := [], free := 0 } = { s with cores := [], free := 0 }
  others : ∀ k, k ≠ s.myCore → t.core k = s.core k
  mine : { t.core s.myCore with tlb := [] } = { s.core s.myCore with tlb := [] }

/-- A base register plus a signed offset (R302, R309). -/
def State.based (s : State) (ra : Nat) {n : Nat} (off : BitVec n) : Word := BitVec.ofInt 64 ((s.r ra).toInt + off.toInt)

/-- The loads of the cursor's context with one more at the end. -/
def Ctx.plusLoad (c : Ctx) (e : LdEnt) : Ctx := { c with path := { c.path with loads := c.path.loads ++ [e] } }

/-- The stores of the cursor's context with one more at the end. -/
def Ctx.plusStore (c : Ctx) (e : StEnt) : Ctx := { c with path := { c.path with stores := c.path.stores ++ [e] } }

/-- A register becomes pending; s0 never does (R103, R265). -/
def Scalar.owing (sc : Scalar) (r : Nat) : Scalar := { sc with pend := if r = 0 then sc.pend else sc.pend ++ [r] }

/-- From s a load has entered the load queue and its register is pending; S goes on, and nothing else changes but what the translation
leaves. -/
def State.QueuesLoad (s t : State) (st : Nat) (e : LdEnt) : Prop :=
  ((s.noteXlat s.cur.cid e.va).modMe (fun c => { c.plusLoad e with sc := c.sc.owing e.rd })).Passes t st

/-- From s a store or reduction has entered the store queue; S goes on, and nothing else changes but what the translation leaves. -/
def State.QueuesStore (s t : State) (st : Nat) (e : StEnt) : Prop :=
  ((s.noteXlat s.cur.cid e.va).modMe (fun c => c.plusStore e)).Passes t st

/-- Where an access of S is turned away before it is made: a misaligned address raises cause 5 with the alignment as DETAIL, a failed
translation its own cause and DETAIL, both with the address in FADDR (R140, R217, R309). -/
def State.TurnsAway (s : State) (i : Instr) (ea : Word) (align : Nat) (want : Want) : Prop :=
  (ea.toNat % align ≠ 0 → ∃ t, exec i s = .next t ∧ s.TrapsS t 5 align ea) ∧
  (∀ c d, ea.toNat % align = 0 → s.xlat s.cur.cid false want ea = .fault c d → ∃ t, exec i s = .next t ∧ s.TrapsS t c d ea)

end Sys2Proof.Machine

namespace Sys2Proof

/-- The new value of an atomic, from R310's words: add wraps, the logical operations are bitwise, min and max compare signed, minu and
maxu unsigned, swap takes the register. -/
def AmoOp.result (op : AmoOp) (z : Width) (old b : Word) : Word :=
  match op with
  | .add => z.wrap (z.uns old + z.uns b)
  | .and => z.low (old &&& b)
  | .or => z.low (old ||| b)
  | .xor => z.low (old ^^^ b)
  | .min => if z.sgn old ≤ z.sgn b then z.low old else z.low b
  | .max => if z.sgn old ≤ z.sgn b then z.low b else z.low old
  | .minu => if z.uns old ≤ z.uns b then z.low old else z.low b
  | .maxu => if z.uns old ≤ z.uns b then z.low b else z.low old
  | .swap => z.low b

/-- An ordering has an acquire part, or a release part (R149). -/
def Ord.acquires : Ord → Bool
  | .rlx => false | .acq => true | .rel => false | .ar => true | .sc => true

def Ord.releases : Ord → Bool
  | .rlx => false | .acq => false | .rel => true | .ar => true | .sc => true

end Sys2Proof

namespace Sys2Proof.Machine

/-! ## Atomics (R309-R312) -/

/-- t is s but for memory and its watchers, the L1 and the TLB of one core, and a free value drawn: what making the caches ready for an
access at its point of coherence may change. -/
structure State.Readies (s t : State) (core : Nat) : Prop where
  rest : { t with mem := s.mem, net := s.net, ctxs := [], cores := [], free := 0 } = { s with ctxs := [], cores := [], free := 0 }
  mem : { t.mem with hbm := [], unitKey := [], poison := [], weak := [] } = { s.mem with hbm := [], unitKey := [], poison := [], weak := [] }
  net : { t.net with sent := [], waiting := [], watch := [] } = { s.net with sent := [], waiting := [], watch := [] }
  ctxs : ∀ c, { t.ctx c with sc := { (t.ctx c).sc with hold := .none } } = { s.ctx c with sc := { (s.ctx c).sc with hold := .none } }
  holds : ∀ c, Hold.wokenBy (s.ctx c).sc.hold (t.ctx c).sc.hold
  cores : ∀ k, k ≠ core → t.core k = s.core k
  mine : { t.core core with l1 := [], tlb := [] } = { s.core core with l1 := [], tlb := [] }

/-- The width of an atomic by its wide bit (R310). -/
def atomWidth (wide : Bool) : Width := if wide then .d else .w

/-- The release part of an ordering: beyond .core the dirty lines of L1 are written back (R152). -/
def State.released (s : State) (od : Ord) (scope : Scope) : State := if od.releases = true ∧ scope ≠ .core then s.wbAll s.myCore else s

/-- The acquire part of an ordering: beyond .core L1 is written back and emptied (R151). -/
def State.acquired (s : State) (od : Ord) (scope : Scope) : State := if od.acquires = true ∧ scope ≠ .core then s.wbInv s.myCore else s

/-- s made ready for an access at a place's point of coherence: what the translation leaves, the release part, and the place's line out of
L1 (R135, R146, R152). -/
def State.atPoint (s : State) (ea : Word) (od : Ord) (scope : Scope) (p : Place) : State :=
  ((s.noteXlat s.cur.cid ea).released od scope).flushPlace s.myCore p

/-- The hypotheses under which an atomic on the own device is performed at once: not .sc, its checks passed, the S path drained, no unit of
it poisoned. -/
structure State.AtomReady (s : State) (srcs dsts : List Nat) (ea : Word) (align : Nat) (want : Want) (p : Place) : Prop where
  main : s.OnMain
  ready : s.Ready srcs none
  here : s.Here dsts
  aligned : ea.toNat % align = 0
  place : s.xlat s.cur.cid false want ea = .ok p
  near : p.isRemote = false
  drained : s.Drained
  sound : s.poisoned p align = false


/-! ## Memory -/

/-- Every memory of the device is in canonical form. -/
structure State.MemOk (s : State) : Prop where
  hbm : Mem.wf s.mem.hbm = true
  clus : Mem.wf s.mem.clus = true
  chip : Mem.wf s.mem.chip = true
  flash : Mem.wf s.mem.flash = true
  host : Mem.wf s.host.mem = true
  spad : ∀ c, Mem.wf (s.ctx c).parts.spad = true
  wst : ∀ c, Mem.wf (s.ctx c).parts.wst = true
  trap : ∀ k, Mem.wf (s.core k).trap.mem = true

/-- A run of n bytes from a place on stays within its memory: 64 MiB for a cluster memory or a chip scratchpad, 2^64 for a host bus. -/
def Place.fits (p : Place) (n : Nat) : Prop :=
  match p with
  | .clus _ off => off + n ≤ 2 ^ 26
  | .chip _ off => off + n ≤ 2 ^ 26
  | .host _ bus => bus + n ≤ 2 ^ 64
  | .spad _ _ => True | .wst _ _ => True | .flash _ => True | .loc _ _ _ _ => True | .remote _ _ _ => True | .trapMem _ _ => True

/-- The place is of this device, and its key slot is filled. -/
def State.Home (s : State) (p : Place) : Prop :=
  match p with
  | .loc _ key _ _ => (s.slotKey key).isSome = true
  | .remote _ _ _ => False
  | .spad _ _ => True | .clus _ _ => True | .chip _ _ => True | .wst _ _ => True | .flash _ => True | .host _ _ => True
  | .trapMem _ _ => True

/-- Two places of HBM are named through slots that hold the same key; of other places nothing is asked. -/
def State.sameKey (s : State) (p q : Place) : Prop :=
  match p, q with
  | .loc _ k _ _, .loc _ k' _ _ => s.slotKey k = s.slotKey k'
  | _, _ => True


/-- A store-queue entry that stands at the head of a context's store queue and may be performed: no acquire and no load of its bytes stands
before it, a release has the loads that it waits for, and every earlier store is performed, those of other devices acknowledged (R144, R145,
R151, R152, R170). It has not been sent itself. -/
structure State.AtHead (s : State) (cid : Nat) (e : StEnt) (es : List StEnt) : Prop where
  queue : (s.ctx cid).path.stores = e :: es
  loads : ∀ l ∈ (s.ctx cid).path.loads, e.seq < l.seq ∨
    (l.ord ≠ .acq ∧ l.ord ≠ .sc ∧ l.place.meets l.size e.place e.size = false ∧ e.isRel = false)
  acks : (s.ctx cid).path.remStores = []
  here : e.sent = []

/-- A loaded value extended to 64 bits (R303): n bytes, signed or not. -/
def loaded (sx : Bool) (bs : List Byte) : Word :=
  if sx ∧ 2 * leNat bs ≥ 256 ^ bs.length then BitVec.ofInt 64 ((leNat bs : Int) - 256 ^ bs.length) else BitVec.ofNat 64 (leNat bs)


/-- A pending register gets its value on a clk: it is pending no longer, and no earlier result reaches it any more (R103, R285). -/
def Scalar.got (sc : Scalar) (clk r : Nat) (v : Word) : Scalar :=
  if r = 0 then sc
  else { sc with land := addLanding ⟨clk, sc.seq, r, v, true⟩ (sc.land.filter (fun l => l.reg != r)), pend := sc.pend.filter (fun p => p != r) }

/-- s after the load at the head of a context's queue has got its bytes: it leaves the queue, its register its value, and an acquire beyond
.core writes L1 back and empties it (R103, R151, R303). -/
def State.loadedFrom (s : State) (cid : Nat) (l : LdEnt) (bs : List Byte) : State :=
  let x := s.modCtx cid (fun c => { c with path := { c.path with loads := c.path.loads.tail }, sc := c.sc.got s.clk l.rd (loaded l.sx bs) })
  if l.ord = .acq ∧ l.scope ≠ .core then x.wbInv (cid / 2) else x

/-- The frame of an error that an access of a context's S path met after it issued: FPC is its instruction (R225, R437). -/
def State.pathFrame (s : State) (code detail : Nat) (faddr pc : Word) : Frame :=
  { code := code, detail := detail, eng := 0, ch := 0, esw := 0, faddr := faddr, pelem := 0, pins := 0, pslot := 0, pbind := 0,
    iword := s.wordAt pc, fpc := pc }


/-! ## Semaphores and holds of S -/

/-- The agent held by an instruction that issued earlier ends it and goes on to the next one, on the next clk at the earliest and not before
its stall count has run out (R102). -/
def Scalar.ended (sc : Scalar) (clk : Nat) : Scalar :=
  { sc with pc := sc.pc + 8, seq := sc.seq + 1, nextIssue := max sc.nextIssue (clk + 1), boundSince := none, hold := .none }

/-- The agent at the cursor, held by an instruction, ends it with these results on their way. Nothing else changes. -/
structure State.EndsHold (s t : State) (land : List Landing) : Prop where
  scalar : t.sca = { s.sca with land := land }.ended s.clk
  frame : s.Keeps t

/-- It ends with one result of variable latency on its way, or with none. -/
def State.EndsWith (s t : State) (rd : Nat) (v : Word) : Prop := s.EndsHold t (s.sca.landVar s.clk rd v)
def State.EndsFree (s t : State) : Prop := s.EndsHold t s.sca.land

/-- The agent at the cursor issues an instruction that then holds it, its stall count running (R101, R102). Nothing else changes. -/
structure State.Parks (s t : State) (h : Hold) (st : Nat) : Prop where
  scalar : t.sca = { s.sca with hold := h, nextIssue := s.clk + 1 + st }
  frame : s.Keeps t

/-- The hold of the agent at the cursor changes, and nothing else. -/
structure State.Holds (s t : State) (h : Hold) : Prop where
  scalar : t.sca = { s.sca with hold := h }
  frame : s.Keeps t

/-- The command on a channel is late for a promised time: it has promised and not completed, and its time is no later (R329). -/
def State.LateOn (s : State) (ch time : Nat) : Prop :=
  ∃ m, Map.find s.me.eng.chans ch = some m ∧ m.promise.getLsbD 0 = true ∧ m.promise.toNat / 16 ≤ time

/-- An .sc access of S has issued and holds S for the wheel: what its translation leaves is in the TLB, and its release part has written L1 back
(R152, R165). -/
def State.WaitsForWheel (s t : State) (ea : Word) (st : Nat) (a : ScAcc) : Prop :=
  ((s.noteXlat s.cur.cid ea).wbAll s.myCore).Parks t (.sc a) st

/-- The hypotheses under which an .sc access waits for the wheel: its registers there, its checks passed, the S path drained. -/
structure State.ScReady (s : State) (srcs dsts : List Nat) (ea : Word) (align : Nat) (want : Want) (p : Place) : Prop where
  main : s.OnMain
  ready : s.Ready srcs none
  here : s.Here dsts
  aligned : ea.toNat % align = 0
  place : s.xlat s.cur.cid false want ea = .ok p
  near : p.isRemote = false
  drained : s.Drained

/-- The context at the cursor takes the wheel clk of its core (R165): the core's position has come, no access of the core has issued on this
clk, and where the other context waits too, it was the other that took the last one, context 0 taking the first. -/
def State.TakesWheel (s : State) : Prop :=
  let both := (s.holder (otherCtx s.cur.cid) scWaiting).isSome = true
  s.clk % 256 = s.myCore ∧ (∀ t c, (s.core s.myCore).lastWheel = some (t, c) → t ≠ s.clk ∧ (both → c ≠ s.cur.cid % 2)) ∧
    ((s.core s.myCore).lastWheel = none → both → s.cur.cid % 2 = 0)


/-! ## Tasks and bunches -/

/-- A handle names an entry with its generation (R318): index in bits 19:0, generation in bits 51:20, zeros above. -/
def State.names (s : State) (h : Word) (e : Nat) (v : Entry) : Prop :=
  Map.find s.sched.store e = some v ∧ h.toNat = v.gen % 2 ^ 32 * 2 ^ 20 + e ∧ e < 2 ^ 20

/-- The entry that spawn makes of a record (R72, R73, R317). -/
def State.newEntry (s : State) (r : Record) (gen : Nat) : Entry :=
  { gen := gen, record := r, first := r, join := r.join, launch := s.me.launch, st := .pooled, hdr := none, saveDone := false, since := s.clk, num := 0,
    prio := 0, disp := 0, aged := 0, resv := false, qforce := false }


/-- From s, held by a spawn that has issued and read its record, the spawn goes on: the record gets the lowest free entry, whose handle goes to
rd, the launch's root join counter grows by one, and with JOIN 0 the record is ready at once (R72, R73, R317). -/
def State.Enters (s t : State) (rd : Nat) (r : Record) : Prop :=
  let e := freeIdx s.sched.store 0
  let gen := Map.getD s.sched.gens e 0
  ∃ x, (s.modLaunch s.me.launch (fun l => { l with joins := l.joins + 1 })).EndsWith x rd (word (gen % 2 ^ 32 * 2 ^ 20 + e)) ∧
    (r.join ≠ 0 → t = x.setEntry e (s.newEntry r gen)) ∧ (r.join = 0 → t = (x.setEntry e (s.newEntry r gen)).ready e)

/-- No record can enter the store: it holds 2^20 (R72). -/
def State.NoRoom (s : State) : Prop := 2 ^ 20 ≤ freeIdx s.sched.store 0

/-- From s, held by an iclk of a range that lies in the object h, the lock is refused with 0, waits for a page of the range, or stands and gives the
bytes of its units (R338). -/
def State.Locks (s t : State) (rd : Nat) (ob : CodeObj) (a n : Word) : Prop :=
  let refused := 128 < (s.lockedOf s.myCore).length + (s.newUnits s.myCore a.toNat n.toNat).length ∨ 32 ≤ s.me.locks.length
  (refused → s.EndsWith t rd 0) ∧
  (¬ refused → ob.unloaded a.toNat n.toNat = true → t = s) ∧
  (¬ refused → ob.unloaded a.toNat n.toNat = false → (s.modMe (fun c => { c with locks := c.locks ++ [(a, n)] })).EndsWith t rd
    (word (256 * ((a.toNat + n.toNat - 1) / 256 + 1 - a.toNat / 256))))


/-! ## System registers (R335, R341) -/

/-- What a main stream reads at a system register number, where the map assigns it. -/
def State.sysNamed (s : State) (n : Nat) : Option Word :=
  let y := s.me.sys
  if n < 0x10 then some (s.variant.caps n)
  else if n = 0x10 then some (word s.net.devid)
  else if n = 0x20 then some (word y.window)
  else if n = 0x21 then some (if y.check then 1 else 0)
  else if n = 0x22 then some (word y.est)
  else if n = 0x23 then some (word y.misses)
  else if n = 0x24 then some (word y.migcount)
  else if n = 0x25 then some y.ilock
  else if 0x26 ≤ n ∧ n < 0x30 then some 0
  else if n = 0x30 then some (word (s.core s.myCore).softerr)
  else if n = 0x80 then some ((s.core s.myCore).tvec.getD firmwareTvec)
  else if 0x100 ≤ n ∧ n < 0x140 then
    let q := Map.getD s.sched.queues (n - 0x100) (.fresh (n - 0x100))
    some (word (q.cap * 2 ^ 32 + q.rate * 2 ^ 16 + q.prio))
  else if 0x140 ≤ n ∧ n < 0x180 then some (s.qstat (n - 0x140))
  else if 0x400 ≤ n ∧ n < 0x700 then
    some (word (Map.getD y.seeds (n - 0x400) (lfsrSeed ((n - 0x400) / 128) ((n - 0x400) % 128))).toNat)
  else none

/-- What a write of a main stream to an assigned number does: WINDOW saturates to 8 to 256, a SEED of 0 becomes 1, a CAP
that is lowered lowers TOK (R81), a read-only register ignores it. -/
def State.sysPut (s : State) (n : Nat) (v : Word) : State :=
  let mine := fun (f : SysRegs → SysRegs) => s.modMe (fun c => { c with sys := f c.sys })
  if n = 0x20 then mine (fun y => { y with window := max 8 (min 256 (v.toNat % 512)) })
  else if n = 0x21 then mine (fun y => { y with check := v.getLsbD 0 })
  else if n = 0x23 then mine (fun y => { y with misses := v.toNat % 2 ^ 32 })
  else if n = 0x80 then s.modCore s.myCore (fun k => { k with tvec := some (word (v.toNat / 256 % 2 ^ 49 * 256)) })
  else if 0x100 ≤ n ∧ n < 0x140 then
    let tok := (Map.getD s.sched.queues (n - 0x100) (.fresh (n - 0x100))).tok
    let c : Queue := ⟨v.toNat / 2 ^ 32 % 2 ^ 16, v.toNat / 2 ^ 16 % 2 ^ 16, v.toNat % 8, min tok (v.toNat / 2 ^ 32 % 2 ^ 16)⟩
    s.modSched (fun q => { q with queues := Map.put q.queues (n - 0x100) c })
  else if 0x400 ≤ n ∧ n < 0x700 then
    mine (fun y => { y with seeds := Map.put y.seeds (n - 0x400) (BitVec.ofNat 32 (max 1 (v.toNat % 2 ^ 32))) })
  else s

/-- An entry of a TLB that a tlbi discards (R340): its PTROOT is the task's, or with .g it is global, and its page meets the range. -/
def TlbEnt.goes (e : TlbEnt) (range : Option (Nat × Nat)) (g : Bool) (root : Nat) : Prop :=
  (e.ptroot = root ∨ (g = true ∧ e.leaf.getLsbD 5 = true)) ∧
  ∀ a n, range = some (a, n) → 0 < n ∧ e.va < a + n ∧ a < e.va + e.size


/-! ## Engine instructions (R92, R106, R325, R346) -/

/-- The trailing stream of a path acts (C 0, M 1, R 2, K 3), it has started nothing on this clk (R92), and the wait field of the instruction at
its head is satisfied. -/
structure State.AtStart (s : State) (path : Nat) (sy : Sync) : Prop where
  agent : s.cur.agent = agentOf path
  fresh : Map.find s.me.eng.began path ≠ some s.clk
  path : path < 4
  wait : ∀ n, sy.wait = some n → 1 ≤ (s.semOf s.cur.cid n).count

/-- s after the head of the acting stream has started: the wait takes one unit, the head leaves the queue, the stream starts nothing more on
this clk, and the watchdog's time begins anew. -/
def State.headGone (s : State) (sy : Sync) : State :=
  s.modMe (fun c => { c with
    sems := match sy.wait with
      | none => c.sems
      | some n =>
        let m := Map.getD c.sems n .fresh
        Map.put c.sems n { count := m.count - 1, status := m.status, vis := if m.count ≤ 1 then 0 else m.vis }
    eng := { c.eng.setQ s.cur.agent (c.eng.q s.cur.agent).tail with began := Map.put c.eng.began (pathOf s.cur.agent) s.clk }
    sc := { c.sc with boundSince := none } })

/-- From s the signal field of a completed instruction takes effect (R325): the count goes up by 1, the status merges and the mask is added to
the visibility set; at 65,535 it stays, SOV is set and cause 0x0C is raised with the frame f. -/
def State.Signals (s t : State) (cid : Nat) (sy : Sync) (w : Word) (f : Nat → Frame) : Prop :=
  (sy.sig = none → t = s) ∧
  ∀ n mask, sy.sig = some (n, mask) →
    let m := s.semOf cid n
    (m.count < 65535 → t = s.setSem cid n ⟨m.count + 1, stMerge m.status w, m.vis ||| mask⟩) ∧
    (m.count = 65535 → (s.ctx cid).trap.phase = .none →
      (s.setSem cid n ⟨65535, stMerge m.status w ||| 0x2000, m.vis ||| mask⟩).Traps t cid true (f n))

/-- The frame of a cause at the head of a trailing stream: ENG is the path's number plus 1. -/
def State.headFrame (s : State) (path ch code detail : Nat) (fa : Word) : Frame :=
  { code := code, detail := detail, eng := path + 1, ch := ch, esw := 0, faddr := fa, pelem := 0, pins := 0, pslot := 0, pbind := 0,
    iword := s.head.w, fpc := s.head.addr }

end Sys2Proof.Machine

namespace Sys2Proof

open Machine

/-- What the setups of the copy and reduction nests write for the captured value, where it is in range (R345, R346). -/
def Instr.nestWrite (i : Instr) (v : Word) (n : NestSet) : Option NestSet :=
  match i with
  | .cnestCount o | .rnestCount o =>
    if 1 ≤ v.toNat ∧ v.toNat ≤ 65536 then some { n with cnt := Map.put n.cnt o.lvl (v.toNat - 1) } else none
  | .cnestStride o | .rnestStride o =>
    if -549755813888 ≤ v.toInt ∧ v.toInt ≤ 549755813887 then some { n with str := Map.put n.str (8 * o.lvl + o.j) v.toInt } else none
  | .cnestRun _ | .rnestRun _ => if 1 ≤ v.toNat ∧ v.toNat ≤ 4096 then some { n with run := v.toNat - 1 } else none
  | .cbaseAddr o | .rbaseAddr o =>
    if v.toNat < 2 ^ 57 then some { n with base := Map.put n.base o.j (word (o.sp * 2 ^ 61 + v.toNat)) } else none
  | .cbaseScale o | .rbaseScale o =>
    if v.toNat < 2 ^ 57 then some { n with sbase := Map.put n.sbase o.j (word (o.sp * 2 ^ 61 + v.toNat)) } else none
  | .cfmtFmt o | .rfmtFmt o =>
    if v.toNat / 2 ^ 30 = 0 ∧ v.toNat / 2 ^ 22 % 4 = 0 ∧ v.toNat / 2 ^ 8 % 8 ≠ 7 then some { n with fmt := Map.put n.fmt o.j v } else none
  | .cfmtFill _ | .rfmtFill _ => some { n with fill := v }
  | .cfmtLimit _ | .rfmtLimit _ => some { n with limit := v }
  | .cfmtSubv _ | .rfmtSubv _ => some { n with subv := v }
  | .cfmtClear _ | .rfmtClear _ => some .fresh
  | _ => none

/-- The path and the fields of a copy or reduction setup (R346). -/
def Instr.nestSetup : Instr → Option (Nat × Sync)
  | .cnestCount o => some (0, o.sy) | .cnestStride o => some (0, o.sy) | .cnestRun o => some (0, o.sy) | .cbaseAddr o => some (0, o.sy)
  | .cbaseScale o => some (0, o.sy) | .cfmtFmt o => some (0, o.sy) | .cfmtFill o => some (0, o.sy) | .cfmtLimit o => some (0, o.sy)
  | .cfmtSubv o => some (0, o.sy) | .cfmtClear o => some (0, o.sy)
  | .rnestCount o => some (2, o.sy) | .rnestStride o => some (2, o.sy) | .rnestRun o => some (2, o.sy) | .rbaseAddr o => some (2, o.sy)
  | .rbaseScale o => some (2, o.sy) | .rfmtFmt o => some (2, o.sy) | .rfmtFill o => some (2, o.sy) | .rfmtLimit o => some (2, o.sy)
  | .rfmtSubv o => some (2, o.sy) | .rfmtClear o => some (2, o.sy)
  | _ => none

/-- What the matrix and dendritic setups write for the captured operands, where they are in range (R379, R382, R395). -/
def Instr.matWrite (i : Instr) (h : QEnt) (n : MatSet) : Option MatSet :=
  let v := h.a
  match i with
  | .mnestCount o => if 1 ≤ v.toNat ∧ v.toNat ≤ 65536 then some { n with cnt := Map.put n.cnt o.lvl (v.toNat - 1) } else none
  | .mnestStride o =>
    if o.j ≤ 3 ∧ -549755813888 ≤ v.toInt ∧ v.toInt ≤ 549755813887 then some { n with str := Map.put n.str (4 * o.lvl + o.j) v.toInt } else none
  | .mbaseAddr o =>
    if ((o.j, o.sp) = (0, 1) ∨ (o.j, o.sp) = (1, 4) ∨ (o.j, o.sp) = (2, 4)) ∧ v.toNat < 2 ^ 57 ∨ (o.j, o.sp) = (3, 0) ∧ v.toNat ≤ 63 then
      some { n with base := Map.put n.base o.j (word (o.sp * 2 ^ 61 + v.toNat)) } else none
  | .mbaseScale o =>
    if ((o.j, o.sp) = (0, 1) ∨ (o.j, o.sp) = (1, 4) ∨ o.j = 4 ∧ o.sp ≤ 3) ∧ v.toNat < 2 ^ 57 then
      some { n with sbase := Map.put n.sbase (if o.j = 4 then 2 else o.j) (word (o.sp * 2 ^ 61 + v.toNat)) } else none
  | .mbasePitch _ => some { n with apitch := v }
  | .mbaseDpitch _ => some { n with rowp := v }
  | .mfmtCtl _ => some { n with mctl := v }
  | .mfmtDctl _ =>
    if v.toNat / 2 ^ 20 % 2 ^ 12 = 0 ∧ v.toNat / 2 ^ 12 % 128 ≤ 95 ∧ v.toNat / 2 ^ 8 % 8 ≠ 7 ∧ v.toNat % 16 ≤ 9 then some { n with dctl := v }
    else none
  | .mfmtDsb _ => some { n with dsb := v }
  | .mfmtClip _ => some { n with dclip := v }
  | .mfmtSubv _ => some { n with subv := v }
  | .mfmtClear _ => some .fresh
  | .dmap _ =>
    if v.toNat % 2 = 0 ∧ v.toNat < 2 ^ 23 ∧ 1 ≤ h.b.toNat ∧ h.b.toNat ≤ 2048 then
      some { n with dmapw := word (h.b.toNat * 2 ^ 32 + v.toNat) } else none
  | .dcurve o =>
    if v.toNat % 16 = 0 ∧ v.toNat < 2 ^ 23 then some { n with dcrv := Map.put n.dcrv o.g (word (2 ^ 31 + v.toNat)) } else none
  | .dtap o =>
    if o.mode = 0 then (if o.ra = 0 ∧ o.rb = 0 then some { n with dtapw := 0 } else none)
    else if o.mode ≠ 3 ∧ v.toNat % 4 = 0 ∧ h.b.toNat % 4 = 0 ∧ v.toNat < 2 ^ 23 ∧ h.b.toNat < 2 ^ 32 then
      some { n with dtapw := word (h.b.toNat * 2 ^ 32 + o.mode * 2 ^ 24 + v.toNat) }
    else none
  | _ => none

/-- The fields of a matrix or dendritic setup. -/
def Instr.matSetup : Instr → Option Sync
  | .mnestCount o => some o.sy | .mnestStride o => some o.sy | .mbaseAddr o => some o.sy | .mbaseScale o => some o.sy
  | .mbasePitch o => some o.sy | .mbaseDpitch o => some o.sy | .mfmtCtl o => some o.sy | .mfmtDctl o => some o.sy
  | .mfmtDsb o => some o.sy | .mfmtClip o => some o.sy | .mfmtSubv o => some o.sy | .mfmtClear o => some o.sy
  | .dmap o => some o.sy | .dcurve o => some o.sy | .dtap o => some o.sy
  | _ => none

end Sys2Proof

namespace Sys2Proof.Machine

/-! ## Commands of the engines (R347, R350, R353-R360, R373) -/

/-- A stream of a nest passes the checks of R347 and R350 that raise the illegal instruction: its space is 0 to 5 and a weight store only
where `wst`, FMT has no reserved bit and no GEO 7, PT is TYPE or .f32, .i32, .i64, .ui64, a run has at most 4,096 bytes, base and strides are
multiples of the element size (of 8 for the base of a `packed` source), and BLK only for a block type where `grid`. -/
structure NestSet.Fits (n : NestSet) (j : Nat) (wst grid packed : Bool) : Prop where
  space : spaceOf (n.baseW j) ≤ 5 ∧ (spaceOf (n.baseW j) = 4 → wst = true)
  bits : bitsOf (n.fmtW j) 63 30 = 0 ∧ bitsOf (n.fmtW j) 23 22 = 0 ∧ bitsOf (n.fmtW j) 10 8 ≠ 7
  types : ∃ t p, tyOf (bitsOf (n.fmtW j) 3 0) = some t ∧ tyOf (bitsOf (n.fmtW j) 7 4) = some p ∧ (p = t ∨ p = .f32 ∨ p = .i32 ∨ p = .i64 ∨ p = .ui64) ∧
    (n.run + 1) * t.bytes ≤ 4096 ∧
    (packed = true → addrOf (n.baseW j) % 8 = 0) ∧
    (packed = false → addrOf (n.baseW j) % t.bytes = 0 ∧ ∀ l < 6, n.stride l j % (t.bytes : Int) = 0) ∧
    ((n.fmtW j).getLsbD 11 = true → (t = .e4m3 ∨ t = .e5m2 ∨ t = .l6) ∧ grid = true ∧ packed = false ∧ spaceOf (n.sbaseW j) ≤ 3)

/-- What a copy-family word names (R353): its fields, whether OS and OD are set, its sources and destinations, its index list with the stream
that it addresses, and whether its source is compressed. -/
structure CopyRow where
  (sy : Sync) (ch rc : Nat) (os od : Bool) (src dst : List Nat) (list : Option (Word × Nat)) (packed : Bool)

/-- s after the head has started on a channel as the command m: the head has gone, the channel's active set is the nest, its streams begin, and
with rc a promise comes in on the next clk, before which S does not issue (R96, R106, R353). -/
def State.onChannel (s : State) (sy : Sync) (ch rc : Nat) (m : Cmd) : State :=
  let u := (s.headGone sy).modMe (fun x => { x with eng := { x.eng with
    copyActive := Map.put x.eng.copyActive ch m.nest, chans := Map.put x.eng.chans ch m } })
  let v := u.beginStreams s.cur.cid (.ch ch) m
  if rc = 0 then v
  else v.modMe (fun x => { x with sc := { x.sc with
    land := x.sc.landVar s.clk rc m.promise, pend := x.sc.pend.filter (fun p => p != rc),
    nextIssue := max x.sc.nextIssue (s.clk + 1) } })

end Sys2Proof.Machine

namespace Sys2Proof

open Machine

/-- The copy family with the captured operands (R353). -/
def Instr.copyRow (i : Instr) (h : QEnt) : Option CopyRow :=
  match i with
  | .copy o => some ⟨o.sy, o.ch, o.rc, o.os.isSome, o.od.isSome, [0], [4], none, false⟩
  | .copyz o => some ⟨o.sy, o.ch, o.rc, false, false, List.range o.ns, (List.range o.nd).map (4 + ·), none, false⟩
  | .gather o => some ⟨o.sy, o.ch, o.rc, false, o.od.isSome, [0], [4], some (h.a, 0), false⟩
  | .scatter o => some ⟨o.sy, o.ch, o.rc, o.os.isSome, false, [0], [4], some (h.b, 4), false⟩
  | .decomp o => some ⟨o.sy, o.ch, o.rc, o.os.isSome, o.od.isSome, [0], [4], none, true⟩
  | _ => none

end Sys2Proof

namespace Sys2Proof.Machine

/-! ## Port instructions (R413-R418) -/

/-- A port instruction may have its effect: the main stream, the port hold over, its sources there (R413, R414). -/
structure State.AtPort (s : State) (srcs : List Nat) : Prop where
  main : s.OnMain
  free : s.me.eng.portFree = true
  ready : s.Ready srcs none

/-- The first n lines of a PLOAD of this device's memory, each at its own translation and read as a load reads it: the state after them and
their bytes (R415). -/
def State.pulled (s : State) (ea : Word) : Nat → State × List Byte
  | 0 => (s, [])
  | n + 1 =>
    let x := s.pulled ea n
    let va := ea + word (64 * n)
    match x.1.xlat s.cur.cid false .load va with
    | .fault _ _ => x
    | .ok p =>
      let y := ((x.1.noteXlat s.cur.cid va).sRead s.myCore p 64).loadL1 s.myCore p .nh true
      (y, x.2 ++ y.ploadBytes p va)

/-- Every line of a PLOAD translates to this device's memory, and no unit of it is poisoned. -/
def State.Pullable (s : State) (ea : Word) : Prop :=
  ∀ j < 11, ∃ p, (s.pulled ea j).1.xlat s.cur.cid false .load (ea + word (64 * j)) = .ok p ∧ p.dev? = none ∧
    (s.pulled ea j).1.poisoned p 64 = false


/-! ## Collective commands (R365-R371) -/

/-- A K instruction stands at the head of K, its wait is satisfied, and no KRING of the context waits (R366). -/
structure State.AtK (s : State) (sy : Sync) : Prop where
  start : s.AtStart 3 sy
  noRing : ∀ m ∈ s.me.eng.coll, m.op ≠ 0

/-- s after the shadow set of the copy nest has become the active set of a channel (R353). -/
def State.nested (s : State) (ch : Nat) : State :=
  s.modMe (fun x => { x with eng := { x.eng with copyActive := Map.put x.eng.copyActive ch x.eng.copyNest } })

/-- s after a collective command has started: the head has gone and m is the last of the context's commands. -/
def State.joined (s : State) (sy : Sync) (m : Cmd) : State :=
  (s.headGone sy).modMe (fun c => { c with eng := { c.eng with coll := c.eng.coll ++ [m] } })

/-- From s an instruction that has its whole effect at its start ends: the head has gone, and its signal, where it names no visibility set,
takes effect. -/
def State.EndsAtStart (s t : State) (sy : Sync) (path : Nat) : Prop :=
  (∀ n x, sy.sig = some (n, x) → x = 0) → (s.headGone sy).Signals t s.cur.cid sy 0 (fun k => s.headFrame path 0 0x0C k 0)

/-- The tile a row's element belongs to reads zero (R388). -/
def Parts.tileZero (p : Parts) (t : Nat) : Prop := ∀ e < 1536, Map.find p.acc (1536 * t + e) = none


/-! ## Port programs (R275, R406, R412, R419-R426) -/

/-- A source operand of a port word on a running lane (R275): 0 to 7 the lane's registers, 8 to 11 its carried registers, 12 the element's
index (in an epilogue the lane's element count), 13 the lane, 14 zero, 15 the FP32 number 1. -/
def State.laneReg (s : State) (r : PortRun) (code : Nat) : Word :=
  if code ≤ 7 then Map.getD r.v code 0
  else if code ≤ 11 then Map.getD (s.slot r.cid r.slot).carried (4 * r.lane + (code - 8)) 0
  else if code = 12 then word (if r.epi then Map.getD (s.slot r.cid r.slot).lanes r.lane 0 else r.ix)
  else if code = 13 then word r.lane
  else if code = 14 then 0
  else 0x3F800000

/-- From s the lane r goes on as r', one slot's carried registers change as `f` says, and nothing else changes. -/
structure State.LaneGoes (s t : State) (r r' : PortRun) (f : Map Word → Map Word) : Prop where
  run : t.portRun = some r'
  slots : ∀ c k, t.slot c k = if c = r.cid ∧ k = r.slot then { s.slot c k with carried := f (s.slot c k).carried } else s.slot c k
  mine : ∀ c, { t.ctx c with ports := { (t.ctx c).ports with slots := [] } } = { s.ctx c with ports := { (s.ctx c).ports with slots := [] } }
  outside : { t.outside with portRun := none } = { s.outside with portRun := none }
  cores : ∀ k, t.core k = s.core k

/-- From s the lane r puts v in a destination (0 to 7 its own registers, 8 to 11 its carried ones, 12 to 15 discard), raises flags, and
goes on to the next word. -/
def State.LaneGives (s t : State) (r : PortRun) (d : Nat) (v : Word) (fl : Fl) : Prop :=
  s.LaneGoes t r { r with pc := r.pc + 1, flags := r.flags ||| fl, v := if d ≤ 7 then Map.put r.v d v else r.v }
    (fun m => if 8 ≤ d ∧ d ≤ 11 then Map.put m (4 * r.lane + (d - 8)) v else m)

/-- From s the lane r meets a port fault: the first one is kept, PFT is raised, and the destination, if any, gets zero (R412). -/
def State.LaneFaults (s t : State) (r : PortRun) (kind : Nat) (d : Option Nat) : Prop :=
  s.LaneGives t { r with pf := if r.pf = none then some ⟨kind, r.pc, r.ix, r.slot, r.point⟩ else r.pf } (d.getD 15) 0 (2 ^ 12)

/-- The port float ops that round an exact result, with that result and the flags of forming it (R420). -/
def portFloatRows : List ((PortF → Instr) × (Val → Val → Val → Val × Fl)) :=
  [ (.portFadd, fun x y _ => x.add y), (.portFsub, fun x y _ => x.add y.neg), (.portFmul, fun x y _ => x.mul y),
    (.portFfma, fun x y z => (((x.mul y).1.add z).1, (x.mul y).2 ||| ((x.mul y).1.add z).2)) ]

/-- The port integer ops with their value (R421). -/
def portIntRows : List ((PortF → Instr) × (Width → Word → Word → Word)) :=
  [ (.portIadd, fun z a b => z.wrap (z.uns a + z.uns b)), (.portIsub, fun z a b => z.wrap ((z.uns a : Int) - z.uns b)),
    (.portImul, fun z a b => z.wrap (z.uns a * z.uns b)), (.portImulh, fun z a b => z.wrap (z.sgn a * z.sgn b / 2 ^ z.bits)),
    (.portImin, fun z a b => z.wrap (if z.sgn a ≤ z.sgn b then z.sgn a else z.sgn b)),
    (.portImax, fun z a b => z.wrap (if z.sgn a ≤ z.sgn b then z.sgn b else z.sgn a)),
    (.portIminu, fun z a b => z.wrap (if z.uns a ≤ z.uns b then z.uns a else z.uns b)),
    (.portImaxu, fun z a b => z.wrap (if z.uns a ≤ z.uns b then z.uns b else z.uns a)),
    (.portAnd, fun z a b => z.low (a &&& b)), (.portOr, fun z a b => z.low (a ||| b)), (.portXor, fun z a b => z.low (a ^^^ b)),
    (.portShl, fun z a b => z.wrap (z.uns a * 2 ^ (z.uns b % z.bits))), (.portShr, fun z a b => z.wrap (z.uns a / 2 ^ (z.uns b % z.bits))),
    (.portSra, fun z a b => z.wrap (z.sgn a / 2 ^ (z.uns b % z.bits))) ]


/-! ## The host's registers, boot, power and links -/

/-- A port holds MGMT.OWN. -/
abbrev State.Owner (s : State) (port : Nat) : Prop := s.mgmt.held = true ∧ s.mgmt.owner = port

/-- The state with one host port changed. -/
def State.withPortSt (s : State) (port : Nat) (f : PortSt → PortSt) : State :=
  { s with hports := Map.put s.hports port (f (Map.getD s.hports port .fresh)) }


/-- The mailbox of the port at the cursor runs a command of an opcode whose work is not done (R46). -/
def State.Runs (s : State) (op : Nat) : Prop :=
  (s.hport s.cur.port).busy = true ∧ (s.hport s.cur.port).ans = none ∧ ((s.hport s.cur.port).arg 0).toNat % 256 = op

/-- It runs with the reserved bits of its opcode word zero, started by the owner where that is needed (R43, R45, R47). -/
def State.RunsWell (s : State) (op : Nat) (owner : Bool) : Prop :=
  s.Runs op ∧ ((s.hport s.cur.port).arg 0).toNat < 256 ∧ (owner = true → (s.hport s.cur.port).owned = true)

/-- The command's answer stands: its error and its result words. -/
def State.answered (s : State) (err : Nat) (ws : List Word) : State :=
  s.withPortSt s.cur.port (fun p => { p with ans := some (err, ws) })

/-- The mailbox commands: the event, the opcode and whether it needs ownership (R47). -/
def mailRows : List (Instr × Nat × Bool) :=
  [ (.keyld, 0x01, true), (.keyclr, 0x02, true), (.hkey, 0x03, true), (.codekey, 0x04, true), (.codereg, 0x10, false), (.coderel, 0x11, false),
    (.codest, 0x12, false), (.xreg, 0x20, false), (.xdel, 0x21, false), (.attest, 0x30, false), (.abort, 0x40, false) ]


/-- BOOT.WHY holds a record (R33). -/
def Boot.recorded (b : Boot) (stage reason detail : Nat) : Boot :=
  { b with whyV := true, whyStage := stage, whyReason := reason, whyDetail := detail }

/-- The boot state after a device reset (R30): what the always-on domain, the SPI NOR and the fuses keep, and the new start or the minimal
mode. -/
def Boot.again (b : Boot) : Boot :=
  let c := { b with sver := 0, busy := false, writing := false, staging := [], running := [], image := [], fwSince := 0, rstWait := none, starts := b.starts + 1, off := false, therm := none }
  if 3 ≤ b.tries ∨ b.fminPending = true then { c with fminPending := false, stage := 15 }
  else { (if b.attemptOpen = true then c.recorded b.lastStage 0x0D 0 else c) with tries := b.tries + 1, attemptOpen := true, lastStage := 0, stage := 0 }

/-- From s, with the boot state b before it, the device resets: everything is as State.reset has it but the boot state, the flash tier, whether
a port has negotiated CXL, what lies outside the device, and the model's own fields. -/
def State.Resets (s t : State) (b : Boot) : Prop :=
  t = { State.reset with variant := s.variant, agenda := s.agenda, cur := s.cur, free := s.free, boot := b.again, hports := s.hports.map (fun x => (x.1, { PortSt.fresh with cxl := x.2.cxl })), host := { s.host with exports := [], codeKeys := [], objs := [], nextBase := State.reset.host.nextBase }, net := { State.reset.net with sent := s.net.sent, nextReq := s.net.nextReq }, mem := { MemSt.fresh (b.starts + 1) with flash := s.mem.flash } }

/-- From s the open start attempt ends with a record, and the device resets (R30). -/
def State.StartFails (s t : State) (stage reason detail : Nat) : Prop :=
  s.Resets t { s.boot.recorded stage reason detail with attemptOpen := false }

/-- The start goes on to READY (R27, R29, R30). -/
def State.readied (s : State) : State :=
  { s with boot := { s.boot with stage := 7, tries := 0, attemptOpen := false, fuse := if Config.imgRaise s.boot.running = true ∧ s.boot.fuse < Config.imgVersion s.boot.running then min 64 (Config.imgVersion s.boot.running) else s.boot.fuse } }

/-- A reset that waited for BUSY is carried out now (R32). -/
def State.FreesBusy (s t : State) : Prop :=
  (s.boot.rstWait = none → t = s) ∧
  (∀ p, s.boot.rstWait = some p → (s.boot.attemptOpen = true → s.StartFails t s.boot.lastStage 0x0E p) ∧ (s.boot.attemptOpen = false → s.Resets t s.boot))


/-- The state with one link changed. -/
def State.withLink (s : State) (n : Nat) (f : Link → Link) : State :=
  { s with net := { s.net with links := Map.put s.net.links n (f (Map.getD s.net.links n .fresh)) } }

/-- Routes whose first link satisfies a test are no longer in force from this clk on (R21). -/
def State.unrouted (s : State) (p : Nat → Bool) : State :=
  { s with net := { s.net with routes := s.net.routes.map (fun x : Nat × Route =>
      (x.1, if x.2.v = true ∧ p x.2.port = true then { x.2 with v := false, h := 0, cdm := 0, lost := s.clk } else x.2)) } }

/-- The links still training fail (R27). -/
def State.untrained (s : State) : State :=
  { s with net := { s.net with links := s.net.links.map (fun x : Nat × Link => (x.1, if x.2.state = 1 then { x.2 with state := 3, lanes := 0 } else x.2)) } }

/-- A path that a route may take (R20): at most 3 hops and 6.0 m, its first link up and not in loopback. -/
def State.Admits (s : State) (p : Path) : Prop :=
  p.hops ≤ 3 ∧ p.dm ≤ 60 ∧ (Map.getD s.net.links p.port .fresh).state = 2 ∧ (Map.getD s.net.links p.port .fresh).loop = false

/-- No admissible path precedes q by hops, then length, then first link (R20). -/
def State.Chooses (s : State) (cands : List Path) (q : Path) : Prop :=
  q ∈ cands ∧ s.Admits q ∧ ∀ p ∈ cands, s.Admits p →
    q.hops < p.hops ∨ (q.hops = p.hops ∧ (q.dm < p.dm ∨ (q.dm = p.dm ∧ q.port ≤ p.port)))


/-- A message goes to the link of its destination's route, or waits for a route, in order (R19, R21). -/
def State.sends (s : State) (dev : Nat) (m : Msg) : State :=
  if dev = s.net.devid ∨ (Map.getD s.net.routes dev .fresh).v = true then { s with net := { s.net with sent := s.net.sent ++ [m] } }
  else { s with net := { s.net with waiting := s.net.waiting ++ [(dev, m)] } }

/-- Another device's request is answered (R19, R169). -/
def State.replies (s : State) (src : Nat) (a : RemoteAns) : State := s.sends src (.ans src a)

/-- A place of HBM that a request from outside names under a key slot: the slot holds a key and the bytes lie in the usable HBM (R59, R127). -/
def State.Opens (s : State) (key addr n : Nat) : Prop := (Map.find s.mem.keys key).isSome = true ∧ addr + n ≤ s.variant.usable

/-- The same for the host, while the HBM is powered (R31). -/
def State.Powers (s : State) (key addr n : Nat) : Prop := s.Opens key addr n ∧ s.boot.stage ≠ 15

/-- The cause and DETAIL of an answer that brings no data (R127, R171). -/
def State.badAnswer (s : State) (dev : Nat) (a : RemoteAns) : Option (Nat × Nat) :=
  match a with
  | .refused => some (7, 2)
  | .failed => some (0x0B, 2 + (Map.getD s.net.routes dev .fresh).port * 256)
  | .data _ => none
  | .done => none

/-- The message of a request still waits for a route to its destination (R21). -/
def State.Unsent (s : State) (id : Nat) : Prop := ∃ x ∈ s.net.waiting, ∃ d k r, x.2 = .req id d k r

/-- The store queue after the answer to a request: its head is performed with the last answer that it awaits, and leaves (R169). -/
def acknowledged (id : Nat) : List StEnt → List StEnt
  | [] => []
  | e :: es => if id ∉ e.sent then e :: es else if e.sent.filter (fun n => n != id) = [] then es else { e with sent := e.sent.filter (fun n => n != id) } :: es

/-- The state without a request that awaited its answer. -/
def State.closed (s : State) (id : Nat) : State :=
  { s with net := { s.net with reqs := Map.del s.net.reqs id, waiting := s.net.waiting.filter (fun x => !x.2.isReq id) } }


/-- A port may take its next descriptor (R42, R49, R72): the device is READY, one is published, the port has fewer than 1,024 launches, the record
store is not full, no stop of R37 is under way, and port 0 comes before port 1 on a clk. -/
def State.MayTake (s : State) (port : Nat) : Prop :=
  s.boot.stage = 7 ∧ (s.hport port).prod ≠ (s.hport port).cons ∧ (s.sched.launches.filter (fun x => x.2.port == port)).length < 1024 ∧ s.storeFull = false ∧
    s.boot.therm = none ∧ ¬ (port = 0 ∧ ∃ x ∈ s.sched.launches, x.2.port = 1 ∧ x.2.accepted = s.clk)

/-- A descriptor that a check of R51 rejects with BADDESC. -/
def State.BadDesc (s : State) (d : List Byte) : Prop :=
  descClean d = false ∨ (Record.ofBytes d).join ≠ 0 ∨ (Record.ofBytes d).bunch ≠ 0 ∨ (descWord d 6).toNat / 2 ^ 45 % 128 ≠ s.net.devid ∨
    Map.find s.mem.keys (Record.ofBytes d).key = none

/-- The code pointer of a descriptor lies in no registered object that is not revoked. -/
def State.NoCode (s : State) (d : List Byte) : Prop := ∀ h o, s.objAt (Record.ofBytes d).code = some (h, o) → o.revoked = true

/-- A completion record as the host finds it (R55), with the interrupt of R57. -/
def State.recorded (s : State) (port caddr : Nat) (ws : List Word) (noint : Bool) (vec : Nat) : State :=
  { s with host := { s.host with mem := Mem.write s.host.mem (hostAddr port caddr) (ws.map (fun w => leBytes 8 w.toNat)).flatten, msix := if noint then s.host.msix else s.host.msix ++ [(port, vec)] } }

/-- Words 0 to 3 of a completion record from its fields (R55). -/
def recordOf (tag : Word) (fcnt core cause status : Nat) (fa : Word) (time : Nat) : List Word :=
  [tag, word (fcnt * 2 ^ 48 + core * 2 ^ 40 + cause * 2 ^ 24 + status), fa, word (2 ^ 63 + time % 2 ^ 63)]


/-- P of a record (R75). -/
def State.level (s : State) (v : Entry) : Nat :=
  min 7 (min (v.record.w2.toNat / 2 ^ 32 % 8) (Map.getD s.sched.queues v.record.queue (.fresh v.record.queue)).prio + (s.clk - v.since) / 940000)

/-- Record a precedes record b (R76). -/
def State.Ahead (s : State) (a b : Entry) : Prop :=
  s.level b < s.level a ∨ s.level a = s.level b ∧ (a.since < b.since ∨ a.since = b.since ∧
    (a.record.queue < b.record.queue ∨ a.record.queue = b.record.queue ∧ a.num < b.num))

/-- A single record may be given a context (R76, R77, R79). -/
def State.MayPlace (s : State) (e : Nat) (v : Entry) (cid : Nat) : Prop :=
  v.st = .ready ∧ s.groupOf e v = 0 ∧ s.heldOff e (cid / 2) = false ∧ s.markWaits e (cid / 2) = false ∧ s.capable v.record.qreq (cid / 2) = true ∧
    ∃ h, v.hdr = some h ∧ s.fits h cid = true

/-- An aging step of a record is due (R75): it has been ready for a millisecond more than its steps count, and its level is below 7. -/
def State.AgeDue (s : State) (v : Entry) : Prop :=
  v.st = .ready ∧ v.aged < (s.clk - v.since) / 940000 ∧
    min (v.record.w2.toNat / 2 ^ 32 % 8) (Map.getD s.sched.queues v.record.queue (.fresh v.record.queue)).prio + v.aged < 7

/-- The context that a record without an image starts in (R69): FRAME in s1, every other register 0, and S at CODE × 8. -/
def State.startOf (s : State) (e : Nat) (v : Entry) (h : Header) (member : Bool) : Ctx :=
  { Ctx.fresh with
    task := some ⟨e, v.launch, v.record, h, s.isSysCode v.record.code, v.record.bunch, member⟩
    sc := { Scalar.fresh with pc := word (v.record.w0.toNat / 8 * 8), s := [(1, v.record.w1)] }
    sys := { SysRegs.fresh with est := v.record.w3.toNat % 2 ^ 24, estOld := v.record.w3.toNat % 2 ^ 24 } }


/-- The agent at the cursor has the bundle of its next word, and s' is the state after it was fetched, once where it was not held (R263). -/
def State.Fetches (s s' : State) (bs : List Byte) : Prop :=
  (s.bundle = some bs ∧ s' = s) ∨ (s.bundle = none ∧ s.fetch (s.pc.toNat / 32 * 32) 32 = .bytes bs ∧
    s' = s.setSca { s.sca with bundle := some (s.pc.toNat / 32, bs) })

/-- The word at the program counter in the bundle. -/
def State.wordIn (s : State) (bs : List Byte) : Word := leWord (sliceB bs (s.pc.toNat % 32) 8)

/-- A mover stands at the head of the agenda, its turn has not passed on this clk, and no ready context issues before it (R101, R115, R327). -/
structure State.Moves (s : State) (m : Mover) (rest : List Mover) : Prop where
  noRun : s.portRun = none
  head : s.agenda = m :: rest
  turn : s.turn.passed m.rank = false
  first : s.forced m = none

/-- s as the mover at the head of its agenda finds it. -/
def State.moved (s : State) (m : Mover) (rest : List Mover) : State := { s with agenda := rest, turn := s.turn.reach m.rank }

/-- The step invariant of the model's memories: all of them, and those that an image holds, are in canonical form. -/
def State.Canonical (s : State) : Prop :=
  s.MemOk ∧ ∀ e im, Map.find s.images e = some im → Mem.wf im.ctx.parts.spad = true ∧ Mem.wf im.ctx.parts.wst = true

end Sys2Proof.Machine
end

