-- ==== Sys2Proof/Certificates/Slice0/Obligations.lean ====
section
/-! DEFINITION. The statements about the model, each a rule of spec/ or what follows from its rules. -/

open Sys2Proof Sys2Proof.Machine

/-- R285, R288, R289, R290: each two-source integer instruction, issued, puts the value its rule gives on its way to rd and goes on; its
frame is that of `Gives`: every other register, flag, queue and byte of memory is unchanged, and with rd = 0 nothing is written. The divisions
are of variable latency. -/
def Obligations.IntegerResults : Prop :=
  (∀ row ∈ intRows, ∀ (o : R3w) (s : State), s.Ready [o.ra, o.rb] (some (o.rd, row.2.2)) →
    ∃ t, exec (row.1 o) s = .next t ∧ s.Gives t o.rd (row.2.1 o.w (s.r o.ra) (s.r o.rb)) row.2.2 o.st) ∧
  (∀ row ∈ divRows, ∀ (o : R3w) (s : State), s.Ready [o.ra, o.rb] none → s.Here [o.rd] →
    ∃ t, exec (row.1 o) s = .next t ∧ s.GivesVar t o.rd (row.2 o.w (s.r o.ra) (s.r o.rb)) o.st)

/-- R285, R289, R293: the immediate instructions, li and lih, madd, clz and popc. -/
def Obligations.ImmediateResults : Prop :=
  (∀ row ∈ immRows, ∀ (o : RIw) (s : State), s.Ready [o.ra] (some (o.rd, row.2.2)) →
    ∃ t, exec (row.1 o) s = .next t ∧ s.Gives t o.rd (row.2.1 o.w (s.r o.ra) o.imm) row.2.2 o.st) ∧
  (∀ (o : RI0) (s : State), s.Ready [] (some (o.rd, 1)) →
    ∃ t, exec (.li o) s = .next t ∧ s.Gives t o.rd (BitVec.ofInt 64 o.imm.toInt) 1 o.st) ∧
  (∀ (o : RI0) (s : State), s.Ready [o.rd] (some (o.rd, 1)) →
    ∃ t, exec (.lih o) s = .next t ∧ s.Gives t o.rd (o.imm ++ (s.r o.rd).setWidth 32) 1 o.st) ∧
  (∀ (o : R4w) (s : State), s.Ready [o.ra, o.rb, o.rc] (some (o.rd, 3)) →
    ∃ t, exec (.madd o) s = .next t ∧
      s.Gives t o.rd (o.w.wrap (o.w.uns (s.r o.ra) * o.w.uns (s.r o.rb) + o.w.uns (s.r o.rc))) 3 o.st)

/-- R289, R291: clz counts the zero bits above the highest set bit of w bits, popc the set bits; bext moves a field down and bins moves
one up, bit by bit. -/
def Obligations.BitResults : Prop :=
  (∀ (o : R2w) (s : State), s.Ready [o.ra] (some (o.rd, 1)) →
    ∃ t n, exec (.clz o) s = .next t ∧ s.Gives t o.rd (word n) 1 o.st ∧ n ≤ o.w.bits ∧
      o.w.uns (s.r o.ra) < 2 ^ (o.w.bits - n) ∧ (n < o.w.bits → 2 ^ (o.w.bits - n - 1) ≤ o.w.uns (s.r o.ra))) ∧
  (∀ (o : R2w) (s : State), s.Ready [o.ra] (some (o.rd, 1)) →
    ∃ t, exec (.popc o) s = .next t ∧
      s.Gives t o.rd (word ((List.range o.w.bits).countP (fun i => (s.r o.ra).getLsbD i))) 1 o.st) ∧
  (∀ (o : R3) (s : State), s.Ready [o.ra, o.rb] (some (o.rd, 1)) →
    ∃ t v, exec (.bext o) s = .next t ∧ s.Gives t o.rd v 1 o.st ∧
      ∀ i < 64, v.getLsbD i =
        (decide (i < ((s.r o.rb).extractLsb' 8 7).toNat) && (s.r o.ra).getLsbD (((s.r o.rb).extractLsb' 0 6).toNat + i))) ∧
  (∀ (o : R4) (s : State), s.Ready [o.ra, o.rb, o.rc] (some (o.rd, 1)) →
    ∃ t v, exec (.bins o) s = .next t ∧ s.Gives t o.rd v 1 o.st ∧
      ∀ i < 64, v.getLsbD i =
        let lo := ((s.r o.rc).extractLsb' 0 6).toNat
        if lo ≤ i ∧ i < lo + ((s.r o.rc).extractLsb' 8 7).toNat then (s.r o.rb).getLsbD (i - lo) else (s.r o.ra).getLsbD i)

/-- R266, R285, R292, R293, R296: cmp and cmpi write 1 where the condition holds and 0 where not, cmp to a scalar or a predicate register;
sel takes rb or rc; fcmp compares FP32 values, a NaN making ne alone true. -/
def Obligations.SelectAndCompare : Prop :=
  (∀ (o : SelF) (s : State), s.Ready [if o.pk then 64 + o.ra else o.ra, o.rb, o.rc] (some (o.rd, 1)) →
    ∃ t v, exec (.sel o) s = .next t ∧ s.Gives t o.rd v 1 o.st ∧
      ((if o.pk then s.k o.ra = true else s.r o.ra ≠ 0) → v = s.r o.rb) ∧
      (¬ (if o.pk then s.k o.ra = true else s.r o.ra ≠ 0) → v = s.r o.rc)) ∧
  (∀ (o : CmpF) (s : State), s.Ready [o.ra, o.rb] (some (if o.pk then 64 + o.rd else o.rd, 1)) →
    ∃ t v, exec (.cmp o) s = .next t ∧ s.Gives t (if o.pk then 64 + o.rd else o.rd) v 1 o.st ∧
      (o.cond.meets o.w (s.r o.ra) (s.r o.rb) → v = 1) ∧ (¬ o.cond.meets o.w (s.r o.ra) (s.r o.rb) → v = 0)) ∧
  (∀ (o : CmpiF) (s : State), s.Ready [o.ra] (some (o.rd, 1)) →
    ∃ t v, exec (.cmpi o) s = .next t ∧ s.Gives t o.rd v 1 o.st ∧
      (o.cond.meets .d (s.r o.ra) (BitVec.ofInt 64 o.imm.toInt) → v = 1) ∧
      (¬ o.cond.meets .d (s.r o.ra) (BitVec.ofInt 64 o.imm.toInt) → v = 0)) ∧
  (∀ (o : FcmpF) (s : State), s.Ready [o.ra, o.rb] (some (if o.pk then 64 + o.rd else o.rd, 2)) →
    ∃ t v, exec (.fcmp o) s = .next t ∧ s.Gives t (if o.pk then 64 + o.rd else o.rd) v 2 o.st ∧ (v = 0 ∨ v = 1) ∧
      let x := f32Of o.fz (s.r o.ra)
      let y := f32Of o.fz (s.r o.rb)
      (x.isNan || y.isNan → (v = 1 ↔ o.cond = .ne)) ∧
      (x.isFin && y.isFin → (v = 1 ↔
        match o.cond with
        | .eq => x.rat = y.rat | .ne => x.rat ≠ y.rat | .lt => x.rat < y.rat | .le => x.rat ≤ y.rat
        | .gt => y.rat < x.rat | .ge => y.rat ≤ x.rat | .ltu => False | .leu => False | .gtu => False | .geu => False)))

/-- R285, R294, R295: the scalar float instructions give their exact result rounded once, with the latencies of the table; fmin and fmax
order −0 below +0 and let one NaN yield the other operand; frcp and frsq give their special values, and otherwise one rounding of a
value that agrees with 1 / a or 1 / √a to 61 bits. -/
def Obligations.FloatResults : Prop :=
  (∀ row ∈ floatRows, ∀ (o : F3) (s : State), s.Ready [o.ra, o.rb] (some (o.rd, 4)) →
    ∃ t, exec (row.1 o) s = .next t ∧
      s.Gives t o.rd (f32Out o.fz (row.2 (f32Of o.fz (s.r o.ra)) (f32Of o.fz (s.r o.rb)))) 4 o.st) ∧
  (∀ (o : F4) (s : State), s.Ready [o.ra, o.rb, o.rc] (some (o.rd, 4)) →
    ∃ t, exec (.ffma o) s = .next t ∧
      s.Gives t o.rd (f32Out o.fz
        (((f32Of o.fz (s.r o.ra)).mul (f32Of o.fz (s.r o.rb))).1.add (f32Of o.fz (s.r o.rc))).1) 4 o.st) ∧
  (∀ (mx : Bool) (o : F3) (s : State), s.Ready [o.ra, o.rb] (some (o.rd, 2)) →
    ∃ t v, exec (if mx then .fmax o else .fmin o) s = .next t ∧ s.Gives t o.rd v 2 o.st ∧
      let x := f32Of o.fz (s.r o.ra)
      let y := f32Of o.fz (s.r o.rb)
      (x.isNan = true → v = f32Out o.fz y) ∧ (y.isNan = true → v = f32Out o.fz x) ∧
      (x.lt y = true → v = f32Out o.fz (if mx then y else x)) ∧ (y.lt x = true → v = f32Out o.fz (if mx then x else y)) ∧
      (∀ e f, x = .fin true 0 e → y = .fin false 0 f → v = f32Out o.fz (.fin (!mx) 0 0)) ∧
      (∀ e f, x = .fin false 0 e → y = .fin true 0 f → v = f32Out o.fz (.fin (!mx) 0 0))) ∧
  (∀ (o : F2) (s : State), s.Ready [o.ra] (some (o.rd, 8)) →
    ∃ t v, exec (.frcp o) s = .next t ∧ s.Gives t o.rd v 8 o.st ∧
      let x := f32Of o.fz (s.r o.ra)
      (∀ n e, x = .fin n 0 e → v = word (FFmt.f32.infBits n)) ∧ (∀ n, x = .inf n → v = f32Out o.fz (.fin n 0 0)) ∧
      (x = .nan → v = word FFmt.f32.canon) ∧
      (x.isFin = true → x.rat ≠ 0 → ∃ w, v = f32Out o.fz w ∧ |w.rat * x.rat - 1| ≤ 2 ^ (-64 : ℤ))) ∧
  (∀ (o : F2) (s : State), s.Ready [o.ra] (some (o.rd, 8)) →
    ∃ t v, exec (.frsq o) s = .next t ∧ s.Gives t o.rd v 8 o.st ∧
      let x := f32Of o.fz (s.r o.ra)
      (∀ n e, x = .fin n 0 e → v = word (FFmt.f32.infBits n)) ∧ (x = .inf false → v = 0) ∧
      (x = .nan ∨ x = .inf true ∨ (∃ m e, x = .fin true m e ∧ m ≠ 0) → v = word FFmt.f32.canon) ∧
      (x.isFin = true → 0 < x.rat → ∃ w, v = f32Out o.fz w ∧ |w.rat ^ 2 * x.rat - 1| ≤ 2 ^ (-61 : ℤ)))

/-- R190, R191, R298: the exact sums and products are exact; rounding goes to the nearest multiple and on a tie to the even one; fcvt between
integer types saturates, and NaN becomes 0 in an integer and the canonical NaN in a float. -/
def Obligations.ExactThenRound : Prop :=
  (∀ x y : Val, x.isFin = true → y.isFin = true → (x.add y).1.isFin = true ∧ (x.add y).1.rat = x.rat + y.rat) ∧
  (∀ x y : Val, x.isFin = true → y.isFin = true → (x.mul y).1.isFin = true ∧ (x.mul y).1.rat = x.rat * y.rat) ∧
  (∀ (m : Nat) (e q : Int),
    let k := (roundAt m e q).1
    |(k : ℚ) * 2 ^ q - (m : ℚ) * 2 ^ e| ≤ 2 ^ q / 2 ∧
    (|(k : ℚ) * 2 ^ q - (m : ℚ) * 2 ^ e| = 2 ^ q / 2 → k % 2 = 0) ∧
    ((roundAt m e q).2 = true ↔ (k : ℚ) * 2 ^ q = (m : ℚ) * 2 ^ e)) ∧
  (∀ (o : FcvtF) (s : State), s.Ready [o.ra] (some (o.rd, 4)) →
    ∃ t v, exec (.fcvt o) s = .next t ∧ s.Gives t o.rd v 4 o.st ∧
      (o.src.fmt = none → o.dst.fmt = none → o.src ≠ .l6 → o.dst ≠ .l6 →
        v = o.dst.hold (o.dst.ofInt (max o.dst.range.1 (min o.dst.range.2 (o.src.intOf (s.r o.ra)))))) ∧
      (o.src.value o.fz (s.r o.ra) = .nan → o.dst ≠ .l6 →
        v = match o.dst.fmt with | some f => o.dst.hold f.canon | none => 0))

/-- R103, R104, R265: a result is read from its clk on and not before, every other register reads as before on every clk, a result to s0
is discarded and s0 reads zero. The results on their way stand in the order in which they land, which every result keeps. A result of variable
latency makes its register pending until its clk, and no earlier result reaches the register after it (R285). -/
def Obligations.ResultsLand : Prop :=
  (∀ (s t : State) (rd : Nat) (v : Word) (lat st extra : Nat) (next : Word), s.GivesTo t rd v lat st extra next →
    s.sca.land.Pairwise (fun a b => a.clk ≤ b.clk) → (∀ l ∈ s.sca.land, l.reg = rd → l.clk ≤ s.clk + lat) →
    t.sca.land.Pairwise (fun a b => a.clk ≤ b.clk) ∧
    (∀ c, t.sca.reg c 0 = 0) ∧
    (∀ c, s.clk + lat ≤ c → rd ≠ 0 → t.sca.reg c rd = v) ∧
    (∀ c p, s.clk + lat ≤ c → rd = 64 + p → t.sca.pred c p = (v != 0)) ∧
    (∀ c r, r < 64 → (r ≠ rd ∨ c < s.clk + lat) → t.sca.reg c r = s.sca.reg c r) ∧
    (∀ c p, (64 + p ≠ rd ∨ c < s.clk + lat) → t.sca.pred c p = s.sca.pred c p)) ∧
  (∀ (s t : State) (rd : Nat) (v : Word) (st : Nat), s.GivesVar t rd v st → s.sca.land.Pairwise (fun a b => a.clk ≤ b.clk) →
    t.sca.land.Pairwise (fun a b => a.clk ≤ b.clk) ∧
    (∀ c, t.sca.reg c 0 = 0) ∧
    (∀ c, s.clk + 1 ≤ c → rd ≠ 0 → t.sca.reg c rd = v) ∧
    (∀ c, c ≤ s.clk → rd ≠ 0 → t.sca.pending c rd = true) ∧
    (∀ c r, r < 64 → r ≠ rd → t.sca.reg c r = s.sca.reg c r) ∧
    (∀ c p, 64 + p ≠ rd → t.sca.pred c p = s.sca.pred c p))

/-- R287, R337, R217, R222: trap raises cause 0x0E with its immediate as DETAIL; tret on a main stream is an illegal instruction. -/
def Obligations.TrapInstruction : Prop :=
  (∀ (o : ImmF) (s : State), s.OnMain → s.me.trap.phase = .none →
    ∃ t, exec (.trap o) s = .next t ∧ s.TrapsS t 0x0E o.imm.toNat 0) ∧
  (∀ (o : R0) (s : State), s.OnMain → s.me.trap.phase = .none →
    ∃ t, exec (.tret o) s = .next t ∧ s.TrapsS t 1 0 0)

/-- R92, R94: an instruction of control flow that S executes alone is followed by each trailing stream that has instructions still to
start; on the trap core and in the helper there is no stream to follow it. -/
def Obligations.ControlFlowFollows : Prop :=
  (∀ s : State, s.OnMain → s.Follows s.follow) ∧
  (∀ s : State, s.cur.agent = .trapCore ∨ s.cur.agent = .helper → s.follow = s)

/-- R286, R299, R300, R301: where br, bk, jr, call, ret, loop and nop go, and what they write. A taken branch costs one clk more. -/
def Obligations.BranchesGo : Prop :=
  (∀ (o : BrF) (s : State), s.Ready [] none →
    ∃ t, exec (.br o) s = .next t ∧ s.follow.GoesTo t o.st 1 (s.rel o.off)) ∧
  (∀ (o : BkF) (s : State), s.Ready [o.ra, o.rb] none → ∃ t, exec (.bk o) s = .next t ∧
    (o.cond.meets .d (s.r o.ra) (s.r o.rb) → s.follow.GoesTo t o.st 1 (s.rel o.off)) ∧
    (¬ o.cond.meets .d (s.r o.ra) (s.r o.rb) → s.follow.Passes t o.st)) ∧
  (∀ (o : JrF) (s : State), s.Ready [o.ra] none → (s.r o.ra).toNat % 8 = 0 →
    ∃ t, exec (.jr o) s = .next t ∧ s.follow.GoesTo t o.st 1 (s.r o.ra)) ∧
  (∀ (o : BrF) (s : State), s.Ready [] (some (2, 1)) → s.cur.agent ≠ .helper →
    ∃ t, exec (.call o) s = .next t ∧ s.follow.GivesTo t 2 (s.pc + 8) 1 o.st 1 (s.rel o.off)) ∧
  (∀ (o : R0) (s : State), s.Ready [2] none → s.cur.agent ≠ .helper → (s.r 2).toNat % 8 = 0 →
    ∃ t, exec (.ret o) s = .next t ∧ s.follow.GoesTo t o.st 1 (s.r 2)) ∧
  (∀ (o : LoopF) (s : State), s.Ready [o.ra] (some (o.ra, 1)) → ∃ t, exec (.loop o) s = .next t ∧
    (s.r o.ra ≠ 1 → s.follow.GivesTo t o.ra (s.r o.ra - 1) 1 o.st 1 (s.rel o.off)) ∧
    (s.r o.ra = 1 → s.follow.Gives t o.ra 0 1 o.st)) ∧
  (∀ (o : R0) (s : State), s.Ready [] none → ∃ t, exec (.nop o) s = .next t ∧ s.follow.Passes t o.st)

/-- R301: an indirect target that is not a multiple of 8 raises cause 5 with DETAIL 8 and the target in FADDR. -/
def Obligations.MisalignedTargets : Prop :=
  (∀ (o : JrF) (s : State), s.OnMain → s.me.trap.phase = .none → s.Ready [o.ra] none → (s.r o.ra).toNat % 8 ≠ 0 →
    ∃ t, exec (.jr o) s = .next t ∧ s.TrapsS t 5 8 (s.r o.ra)) ∧
  (∀ (o : R0) (s : State), s.OnMain → s.me.trap.phase = .none → s.Ready [2] none → (s.r 2).toNat % 8 ≠ 0 →
    ∃ t, exec (.ret o) s = .next t ∧ s.TrapsS t 5 8 (s.r 2))

/-- R225, R332: tstb on a semaphore's status word, or on 8 bytes of memory as a load reads them, goes to its target by the bits that the mask
selects. Memory of another device is asked for, and S is held for the answer; bytes in error raise the data error. -/
def Obligations.TestBranches : Prop :=
  (∀ (o : TstbF) (s : State) (n : Nat), o.src = .sem n → s.cur.agent ≠ .helper → s.Ready [o.mask] none →
    ∃ t, exec (.tstb o) s = .next t ∧
      let any := ((s.semOf s.cur.cid n).status &&& s.r o.mask) ≠ 0
      ((if o.none then ¬ any else any) → s.follow.GoesTo t o.st 1 (s.rel o.off)) ∧
      (¬ (if o.none then ¬ any else any) → s.follow.Passes t o.st)) ∧
  (∀ (o : TstbF) (s : State) (ra : Nat) (p : Place), o.src = .mem ra → s.cur.agent ≠ .helper → s.Ready [o.mask, ra] none →
    (s.r ra).toNat % 8 = 0 → s.xlat s.cur.cid s.onTrapCore .load (s.r ra) = .ok p → s.me.path.loads = [] → s.me.path.stores = [] →
    (s.poisoned p 8 = true → s.OnMain → s.me.trap.phase = .none → ∃ t, exec (.tstb o) s = .next t ∧ s.TrapsOnce t 0x0B p.errDetail (s.r ra)) ∧
    (s.poisoned p 8 = false → p.isRemote = false → ∃ t, exec (.tstb o) s = .next t ∧
      let u := (s.noteXlat s.cur.cid (s.r ra)).sRead s.myCore p 8
      let any := (leWord (s.loadBytes s.cur.cid p 8 true) &&& s.r o.mask) ≠ 0
      ((if o.none then ¬ any else any) → u.follow.GoesTo t o.st 1 (s.rel o.off)) ∧
      (¬ (if o.none then ¬ any else any) → u.follow.Passes t o.st)) ∧
    (∀ dev pa key, p = .remote dev pa key →
      exec (.tstb o) s = .next (s.parkRemote o.st dev key (.load pa 8) (.tstb (s.r o.mask) o.none (s.rel o.off)) (s.r ra))))

/-- R96, R103: an instruction that reads or writes a register that is pending waits, and nothing changes: the integer, immediate and float
rows, loads and stores, and svc, whose arguments are s4 to s7 (R336). -/
def Obligations.PendingRegistersWait : Prop :=
  (∀ row ∈ intRows, ∀ (o : R3w) (s : State), ¬ s.Here [o.ra, o.rb, o.rd] → exec (row.1 o) s = .next s) ∧
  (∀ row ∈ divRows, ∀ (o : R3w) (s : State), ¬ s.Here [o.ra, o.rb, o.rd] → exec (row.1 o) s = .next s) ∧
  (∀ row ∈ immRows, ∀ (o : RIw) (s : State), ¬ s.Here [o.ra, o.rd] → exec (row.1 o) s = .next s) ∧
  (∀ row ∈ floatRows, ∀ (o : F3) (s : State), ¬ s.Here [o.ra, o.rb, o.rd] → exec (row.1 o) s = .next s) ∧
  (∀ (o : LdF) (s : State), ¬ s.Here [o.ra, o.rt] → exec (.ld o) s = .next s) ∧
  (∀ (o : StF) (s : State), s.OnMain → ¬ s.Here [o.ra, o.rt] → exec (.st o) s = .next s) ∧
  (∀ (o : ImmF) (s : State), s.OnMain → ¬ s.Here [4, 5, 6, 7] → exec (.svc o) s = .next s)

/-- R104, R217: with CHECK.EN an integer instruction whose source has not landed, or whose destination an earlier result reaches as late,
raises cause 4 with the register as DETAIL. -/
def Obligations.CheckedIssueTraps : Prop :=
  ∀ row ∈ intRows, ∀ (o : R3w) (s : State), s.OnMain → s.me.trap.phase = .none → s.me.sys.check = true → s.Here [o.ra, o.rb, o.rd] →
    ((∃ r ∈ [o.ra, o.rb], r ≠ 0 ∧ ∃ l ∈ s.sca.land, l.reg = r ∧ s.clk < l.clk) ∨
      (o.rd ≠ 0 ∧ ∃ l ∈ s.sca.land, l.reg = o.rd ∧ s.clk < l.clk ∧ s.clk + row.2.2 ≤ l.clk)) →
    ∃ t r, exec (row.1 o) s = .next t ∧ r ∈ [o.ra, o.rb, o.rd] ∧ s.TrapsS t 4 r 0

/-- R95, R147, R306: sync goes on on the clk after the one on which the five streams stand together and every command has completed, and waits
before; mark once every earlier access is performed; pref gives no result, is dropped where it would fault or names no HBM of the own device,
and else changes the TLB and, with .nh or .lu, L1. -/
def Obligations.SyncMarkPref : Prop :=
  (∀ (o : R0) (s : State), s.OnMain → s.Met → ∃ t, exec (.sync o) s = .next t ∧ s.Passes t o.st) ∧
  (∀ (o : R0) (s : State), s.OnMain → ¬ s.Met → exec (.sync o) s = .next s) ∧
  (∀ (o : R0) (s : State), s.OnMain → s.me.path.loads = [] → s.me.path.stores = [] → s.me.path.remStores = [] →
    ∃ t, exec (.mark o) s = .next t ∧ s.Passes t o.st) ∧
  (∀ (o : R0) (s : State), s.OnMain → s.me.path.loads ≠ [] ∨ s.me.path.stores ≠ [] ∨ s.me.path.remStores ≠ [] →
    exec (.mark o) s = .next s) ∧
  (∀ (o : PrefF) (s : State), s.OnMain → s.Ready [o.ra] none →
    ∃ t u : State, exec (.pref o) s = .next t ∧ u.Passes t o.st ∧ s.Readies u s.myCore ∧
      (∀ c d, s.xlat s.cur.cid false .load (s.based o.ra o.off) = .fault c d → u = s) ∧
      (∀ p, s.xlat s.cur.cid false .load (s.based o.ra o.off) = .ok p → p.pa? = none → u = s) ∧
      (∀ p, s.xlat s.cur.cid false .load (s.based o.ra o.off) = .ok p → p.pa?.isSome = true → p.cached = false ∨ o.hint = .st ∨ o.hint = .na →
        u = s.noteXlat s.cur.cid (s.based o.ra o.off)) ∧
      (∀ pa key, s.xlat s.cur.cid false .load (s.based o.ra o.off) = .ok (.loc pa key 0 0) → o.size = .b → o.hint = .nh →
        (s.core s.myCore).tlb = [] → u = ((s.noteXlat s.cur.cid (s.based o.ra o.off)).l1Fill s.myCore (pa / 64 * 64) key).l1Mark s.myCore (pa / 64 * 64) false))

/-- R151, R152, R153: a fence that finds the S path drained goes on; beyond .core its release part leaves no dirty byte in L1, its acquire
part leaves L1 empty, and neither changes anything but memory, its watchers and L1. -/
def Obligations.FenceOrders : Prop :=
  ∀ (o : FenceF) (s : State), s.OnMain → s.Drained → ∃ t, exec (.fence o) s = .next t ∧
    let u := (s.released o.ord o.scope).acquired o.ord o.scope
    u.Passes t o.st ∧ s.MovesData u s.myCore ∧
    (o.scope ≠ .core → o.ord.releases = true → (u.core s.myCore).clean) ∧
    (o.scope ≠ .core → o.ord.acquires = true → (u.core s.myCore).l1 = [])

/-- R95, R176, R333: S executes its part of an xfence. In the from-set it waits for the S path and writes L1 back; then the streams named
get the instruction; in the to-set S is held, at each clk anew, until the streams of the from-set have passed, and then L1 is emptied and S goes on. A trailing stream in the
from-set stands at the xfence until its earlier accesses are done; one that is only in the to-set until every stream of the from-set has passed. -/
def Obligations.CrossFences : Prop :=
  (∀ (o : XfenceF) (s : State), s.OnMain → (o.fromSet.getLsbD 0 = true → s.Drained) →
    ∃ t v : State, exec (.xfence o) s = .next t ∧
      (if o.fromSet.getLsbD 0 = true then s.wbAll s.myCore else s).Hands v ⟨s.sca.seq, s.pc, word ((encode (.xfence o)).getD 0), 0, 0, 0⟩
        (fun a => o.fromSet.getLsbD a.bit = true ∨ o.toSet.getLsbD a.bit = true) ∧
      (o.toSet.getLsbD 0 = false → v.Passes t o.st) ∧
      (o.toSet.getLsbD 0 = true → ∃ w, v.Parks w (.xfence s.sca.seq o) o.st ∧
        (w.fromPassed s.cur.cid s.sca.seq o = true → (w.wbInv s.myCore).EndsFree t) ∧
        (w.fromPassed s.cur.cid s.sca.seq o = false → t = w))) ∧
  (∀ (o : XfenceF) (s : State) (n : Nat), s.OnMain → s.sca.hold = .xfence n o → s.me.trap.phase = .none →
    (s.fromPassed s.cur.cid n o = true → (s.wbInv s.myCore).EndsFree (s.retryHold s.cur.cid)) ∧
    (s.fromPassed s.cur.cid n o = false → s.retryHold s.cur.cid = s)) ∧
  (∀ (o : XfenceF) (s : State), s.cur.agent ∈ [Agent.C, .M, .R, .K] → (∀ f ∈ s.me.eng.wfails, f.path ≠ pathOf s.cur.agent) →
    (o.fromSet.getLsbD s.cur.agent.bit = true → ¬ s.doneBefore s.cur.cid s.cur.agent o.scope → exec (.xfence o) s = .next s) ∧
    (o.toSet.getLsbD s.cur.agent.bit = true → s.fromPassed s.cur.cid s.head.seq o = false → exec (.xfence o) s = .next s) ∧
    ((o.fromSet.getLsbD s.cur.agent.bit = true → s.doneBefore s.cur.cid s.cur.agent o.scope) →
      (o.toSet.getLsbD s.cur.agent.bit = true → s.fromPassed s.cur.cid s.head.seq o = true) → exec (.xfence o) s = .next s.started))

/-- R52, R95, R318, R334: end releases the context, frees the entry of the task, whose generation goes on, and counts the launch's root
join counter down; at zero the launch is complete. Memory gets the dirty lines of L1 and no other context changes, but that a parked
waita wakes. On the clk of the last completion and before it waits. -/
def Obligations.TaskEnds : Prop :=
  (∀ (o : R0) (s : State) (k : Task), s.OnMain → s.AtEnd → s.me.task = some k →
    ∃ t, exec (.endTask o) s = .next t ∧ t.ctx s.cur.cid = .fresh ∧
      Map.find t.sched.store k.entry = none ∧
      Map.getD t.sched.gens k.entry 0 = Map.getD s.sched.gens k.entry 0 + 1 ∧
      (∀ v, Map.find s.sched.launches k.launch = some v → ∃ v', Map.find t.sched.launches k.launch = some v' ∧
        v'.joins = v.joins - 1 ∧ (v.joins ≤ 1 → v'.done = true) ∧ (1 < v.joins → v'.done = v.done)) ∧
      (∀ l, l ≠ k.launch → Map.find t.sched.launches l = Map.find s.sched.launches l) ∧
      (∀ e, e ≠ k.entry → Map.find t.sched.store e = Map.find s.sched.store e) ∧
      t.mem = (s.wbInv s.myCore).mem ∧
      (∀ c, c ≠ s.cur.cid → { t.ctx c with sc := { (t.ctx c).sc with hold := .none } } = { s.ctx c with sc := { (s.ctx c).sc with hold := .none } }) ∧
      (∀ c, c ≠ s.cur.cid → Hold.wokenBy (s.ctx c).sc.hold (t.ctx c).sc.hold)) ∧
  (∀ (o : R0) (s : State), s.OnMain → ¬ s.Met → exec (.endTask o) s = .next s)

/-- R103, R135, R140, R144, R302, R303: ld and ldx, aligned and translated, enter the load queue; their register is pending until the value
arrives. What a translation leaves is in the TLB of the core alone, and a free value drawn. -/
def Obligations.LoadsQueue : Prop :=
  (∀ (s : State) (va : Word), s.Walks (s.noteXlat s.cur.cid va)) ∧
  (∀ (o : LdF) (s : State) (p : Place), s.OnMain → s.Ready [o.ra] none → s.Here [o.rt] → o.ord ≠ .sc →
    (s.based o.ra o.off).toNat % o.size.bytes = 0 → s.xlat s.cur.cid false .load (s.based o.ra o.off) = .ok p →
    ∃ t, exec (.ld o) s = .next t ∧ s.QueuesLoad t o.st
      { rd := o.rt, place := p, va := s.based o.ra o.off, size := o.size.bytes, sx := o.sx, ord := o.ord, scope := o.scope,
        hint := o.hint, pc := s.pc, seq := s.sca.seq, req := none }) ∧
  (∀ (o : LdxF) (s : State) (p : Place), s.OnMain → s.Ready [o.ra, o.rb] none → s.Here [o.rt] → o.ord ≠ .sc →
    (s.r o.ra + s.r o.rb).toNat % o.size.bytes = 0 → s.xlat s.cur.cid false .load (s.r o.ra + s.r o.rb) = .ok p →
    ∃ t, exec (.ldx o) s = .next t ∧ s.QueuesLoad t o.st
      { rd := o.rt, place := p, va := s.r o.ra + s.r o.rb, size := o.size.bytes, sx := o.sx, ord := o.ord, scope := o.scope,
        hint := o.hint, pc := s.pc, seq := s.sca.seq, req := none })

/-- R140, R144, R146, R302, R303, R309, R314, R315: st, stx, mred and vmred, aligned and translated, enter the store queue with the bytes
of their value as captured. -/
def Obligations.StoresQueue : Prop :=
  (∀ (o : StF) (s : State) (p : Place), s.OnMain → s.Ready [o.ra, o.rt] none → o.ord ≠ .sc →
    (s.based o.ra o.off).toNat % o.size.bytes = 0 → s.xlat s.cur.cid false .store (s.based o.ra o.off) = .ok p →
    ∃ t, exec (.st o) s = .next t ∧ s.QueuesStore t o.st
      { kind := .store (word ((s.r o.rt).toNat % 256 ^ o.size.bytes)), place := p, va := s.based o.ra o.off, size := o.size.bytes,
        ord := o.ord, scope := o.scope, hint := o.hint, pc := s.pc, seq := s.sca.seq, sent := [] }) ∧
  (∀ (o : StxF) (s : State) (p : Place), s.OnMain → s.Ready [o.ra, o.rb, o.rt] none → o.ord ≠ .sc →
    (s.r o.ra + s.r o.rb).toNat % o.size.bytes = 0 → s.xlat s.cur.cid false .store (s.r o.ra + s.r o.rb) = .ok p →
    ∃ t, exec (.stx o) s = .next t ∧ s.QueuesStore t o.st
      { kind := .store (word ((s.r o.rt).toNat % 256 ^ o.size.bytes)), place := p, va := s.r o.ra + s.r o.rb, size := o.size.bytes,
        ord := o.ord, scope := o.scope, hint := o.hint, pc := s.pc, seq := s.sca.seq, sent := [] }) ∧
  (∀ (o : MredF) (s : State) (p : Place), s.OnMain → s.Ready [o.ra, o.rb] none →
    (s.based o.ra o.off).toNat % mredBytes o.mode = 0 → s.xlat s.cur.cid false .vector (s.based o.ra o.off) = .ok p →
    ∃ t, exec (.mred o) s = .next t ∧ s.QueuesStore t o.st
      { kind := .mred o.mode (s.r o.rb), place := p, va := s.based o.ra o.off, size := mredBytes o.mode,
        ord := o.ord, scope := o.scope, hint := .nh, pc := s.pc, seq := s.sca.seq, sent := [] }) ∧
  (∀ (o : MredF) (s : State) (p : Place), s.OnMain → s.Ready [o.ra, o.rb, o.rb + 1, o.rb + 2, o.rb + 3] none →
    (s.based o.ra o.off).toNat % 32 = 0 → s.xlat s.cur.cid false .vector (s.based o.ra o.off) = .ok p →
    ∃ t, exec (.vmred o) s = .next t ∧ s.QueuesStore t o.st
      { kind := .vmred o.mode [s.r o.rb, s.r (o.rb + 1), s.r (o.rb + 2), s.r (o.rb + 3)], place := p, va := s.based o.ra o.off, size := 32,
        ord := o.ord, scope := o.scope, hint := .nh, pc := s.pc, seq := s.sca.seq, sent := [] })

/-- R118, R140, R217, R302, R307, R309, R317: the accesses of S, at every ordering, that are turned away: the form, its address, its
alignment and what it asks of the page. -/
def Obligations.AccessesTurnedAway : Prop :=
  ∀ s : State, s.OnMain → s.me.trap.phase = .none →
    (∀ o : LdF, s.Ready [o.ra] none → s.Here [o.rt] →
      s.TurnsAway (.ld o) (s.based o.ra o.off) o.size.bytes (if o.ord = .sc then .scLoad else .load)) ∧
    (∀ o : LdxF, s.Ready [o.ra, o.rb] none → s.Here [o.rt] →
      s.TurnsAway (.ldx o) (s.r o.ra + s.r o.rb) o.size.bytes (if o.ord = .sc then .scLoad else .load)) ∧
    (∀ o : StF, s.Ready [o.ra, o.rt] none →
      s.TurnsAway (.st o) (s.based o.ra o.off) o.size.bytes (if o.ord = .sc then .scStore else .store)) ∧
    (∀ o : StxF, s.Ready [o.ra, o.rb, o.rt] none →
      s.TurnsAway (.stx o) (s.r o.ra + s.r o.rb) o.size.bytes (if o.ord = .sc then .scStore else .store)) ∧
    (∀ o : AmoF, s.Ready [o.ra, o.rb] none → s.Here [o.rt] →
      s.TurnsAway (.amo o) (s.based o.ra o.off) (if o.wide then 8 else 4) (if o.ord = .sc then .scAtomic else .atomic)) ∧
    (∀ o : CasF, s.Ready [o.ra, o.rb, o.rc] none → s.Here [o.rt] →
      s.TurnsAway (.cas o) (s.based o.ra o.off) (if o.wide then 8 else 4) (if o.ord = .sc then .scAtomic else .atomic)) ∧
    (∀ o : AmoF, s.Ready [o.ra, o.rb, o.rb + 1, o.rb + 2, o.rb + 3] none → (o.rt ≠ 0 → s.Here [o.rt, o.rt + 1, o.rt + 2, o.rt + 3]) →
      s.TurnsAway (.vamo o) (s.based o.ra o.off) 32 (if o.ord = .sc then .scAtomic else .vector)) ∧
    (∀ o : MredF, s.Ready [o.ra, o.rb] none → s.TurnsAway (.mred o) (s.based o.ra o.off) (mredBytes o.mode) .vector) ∧
    (∀ o : MredF, s.Ready [o.ra, o.rb, o.rb + 1, o.rb + 2, o.rb + 3] none → s.TurnsAway (.vmred o) (s.based o.ra o.off) 32 .vector) ∧
    (∀ o : WaitaF, s.Ready [o.ra, o.rb, o.rt] none →
      s.TurnsAway (.waita o) (s.based o.ra o.off) o.size.bytes (if o.ord = .sc then .scLoad else .wait)) ∧
    (∀ (o : TstbF) (ra : Nat), o.src = .mem ra → s.Ready [o.mask, ra] none → s.TurnsAway (.tstb o) (s.r ra) 8 .load) ∧
    (∀ o : R2, s.Ready [o.ra] none → s.Here [o.rd] → s.TurnsAway (.spawn o) (s.r o.ra) 32 .spawn)

/-- R146, R151, R152, R310, R311, R312: amo and cas on the own device, with the caches ready, read the old value at the point of coherence, write
the new one there, and put the old value, sign-extended, on its way to rt; a cas whose comparison fails writes nothing; vamo does its elements in
turn. Then S goes on, with the acquire part of the ordering. Nothing else changes, but for the count of corrected errors. -/
def Obligations.AtomicsPerform : Prop :=
  (∀ (o : AmoF) (s : State) (p : Place), o.ord ≠ .sc →
    s.AtomReady [o.ra, o.rb] [o.rt] (s.based o.ra o.off) ((atomWidth o.wide).bits / 8) .atomic p →
    let n := (atomWidth o.wide).bits / 8
    let u := (s.atPoint (s.based o.ra o.off) o.ord o.scope p).sRead s.myCore p n
    let old := leWord (u.rd s.me.launch p n)
    ∃ x : State, exec (.amo o) s = .next (x.acquired o.ord o.scope) ∧
      (u.wr s.me.launch p (leBytes n (o.op.result (atomWidth o.wide) old (s.r o.rb)).toNat)).GivesVar x o.rt ((atomWidth o.wide).low old) o.st) ∧
  (∀ (o : CasF) (s : State) (p : Place), o.ord ≠ .sc →
    s.AtomReady [o.ra, o.rb, o.rc] [o.rt] (s.based o.ra o.off) ((atomWidth o.wide).bits / 8) .atomic p →
    let n := (atomWidth o.wide).bits / 8
    let u := (s.atPoint (s.based o.ra o.off) o.ord o.scope p).sRead s.myCore p n
    let old := leWord (u.rd s.me.launch p n)
    ∃ x : State, exec (.cas o) s = .next (x.acquired o.ord o.scope) ∧
      (if (atomWidth o.wide).uns old = (atomWidth o.wide).uns (s.r o.rc) then u.wr s.me.launch p (leBytes n (s.r o.rb).toNat) else u).GivesVar x o.rt
        ((atomWidth o.wide).low old) o.st) ∧
  (∀ (o : AmoF) (s : State) (p : Place), o.ord ≠ .sc →
    s.AtomReady [o.ra, o.rb, o.rb + 1, o.rb + 2, o.rb + 3] (if o.rt = 0 then [] else [o.rt, o.rt + 1, o.rt + 2, o.rt + 3])
      (s.based o.ra o.off) 32 .vector p →
    let v := (s.atPoint (s.based o.ra o.off) o.ord o.scope p).vamoAll s.cur.cid p o.wide o.op
      [s.r o.rb, s.r (o.rb + 1), s.r (o.rb + 2), s.r (o.rb + 3)]
    ∃ x : State, exec (.vamo o) s = .next (x.acquired o.ord o.scope) ∧ (v.2.res4 o.rt v.1).Passes x o.st) ∧
  (∀ (s : State) (cid : Nat) (p : Place) (wide : Bool) (op : AmoOp) (bs : List Word),
    let n := (atomWidth wide).bits / 8
    let x := fun j => (List.range j).foldl (fun (u : State) i =>
      (u.sRead (cid / 2) (p.add (n * i)) n).wr (u.ctx cid).launch (p.add (n * i))
        (leBytes n (op.result (atomWidth wide) (leWord ((u.sRead (cid / 2) (p.add (n * i)) n).rd (u.ctx cid).launch (p.add (n * i)) n))
          (if wide then (bs[i]?).getD 0 else BitVec.ofNat 64 (((bs[i / 2]?).getD 0).toNat / 2 ^ (32 * (i % 2)) % 2 ^ 32))).toNat)) s
    (s.vamoAll cid p wide op bs).2 = x (32 / n) ∧
    (∀ j < 4, wide = true → (s.vamoAll cid p wide op bs).1[j]? = some (leWord ((x j).rd (s.ctx cid).launch (p.add (8 * j)) 8))) ∧
    (∀ j < 8, wide = false → ∃ w, (s.vamoAll cid p wide op bs).1[j / 2]? = some w ∧
      w.toNat / 2 ^ (32 * (j % 2)) % 2 ^ 32 = (leWord ((x j).rd (s.ctx cid).launch (p.add (4 * j)) 4)).toNat))

/-- R59, R120, R141: what is written at a place is read there. For HBM the read is through a slot that holds the same key. -/
def Obligations.MemoryReadsBack : Prop :=
  ∀ (s : State) (l : Nat) (p : Place) (bs : List Byte), s.MemOk → s.Home p → p.fits bs.length →
    ∀ (i : Nat) (h : i < bs.length), (s.wr l p bs).rd1 l (p.add i) = bs[i]

/-- R59, R120, R141: a write leaves every other byte that its task can read as it was: a task reads a chip-scratchpad granule of another
launch as zeros before it takes it over, and HBM under one key reads the same after a write under that key. -/
def Obligations.MemoryKeepsOthers : Prop :=
  ∀ (s : State) (l : Nat) (p q : Place) (bs : List Byte), s.MemOk → s.Home p → p.fits bs.length → q.fits 1 → s.sameKey p q →
    (∀ i < bs.length, (p.add i).same q = false) → (s.wr l p bs).rd1 l q = s.rd1 l q

/-- R141, R144, R152, R169, R171: a store at the head of its queue, of a place that L1 does not cache, is performed: its bytes, low byte first, read
at its place, every other byte that its task reads is as before, and the queue is one shorter. A release beyond .core first leaves no dirty byte
in L1; one that must wait for an access that failed takes the error instead, and is not performed. A store of another device is sent, and keeps
its place in the queue until it is acknowledged. -/
def Obligations.StoresPerform : Prop :=
  (∀ (s : State) (cid : Nat) (e : StEnt) (es : List StEnt) (v : Word) (lodge : Bool), s.AtHead cid e es → e.kind = .store v →
    (∀ f ∈ es, f.place ≠ e.place ∨ f.size ≠ e.size) → (e.isRel = true → (s.ctx cid).path.fails = []) →
    s.MemOk → s.Home e.place → e.place.fits e.size → e.place.cached = false →
    ∃ t, exec (.storePerform cid lodge) s = .next t ∧ (t.ctx cid).path.stores = es ∧
      (∀ i < e.size, t.rd1 (s.ctx cid).launch (e.place.add i) = BitVec.ofNat 8 (v.toNat / 256 ^ i % 256)) ∧
      ((e.isRel = false ∨ e.scope = .core) →
        (∀ pa key cl wp, e.place = .loc pa key cl wp → Map.find (s.core (cid / 2)).l1 (pa / 64) = none) → ∀ q : Place, q.fits 1 → s.sameKey e.place q → (∀ i < e.size, (e.place.add i).same q = false) →
        t.rd1 (s.ctx cid).launch q = s.rd1 (s.ctx cid).launch q) ∧
      (e.isRel = true → e.scope ≠ .core → (t.core (cid / 2)).clean)) ∧
  (∀ (s : State) (cid : Nat) (e : StEnt) (es : List StEnt) (v : Word) (lodge : Bool) (f : EFault) (fs : List EFault), s.AtHead cid e es →
    e.kind = .store v → (∀ f ∈ es, f.place ≠ e.place ∨ f.size ≠ e.size) → e.isRel = true → (s.ctx cid).path.fails = f :: fs →
    (s.ctx cid).trap.phase = .none →
    ∃ t, exec (.storePerform cid lodge) s = .next t ∧
      (s.modCtx cid (fun c => { c with path := { c.path with stores := es, fails := fs } })).Traps t cid true
        { code := f.cause, detail := f.detail, eng := 0, ch := 0, esw := 0, faddr := f.faddr, pelem := 0, pins := 0, pslot := 0, pbind := 0,
          iword := s.wordAt e.pc, fpc := e.pc }) ∧
  (∀ (s : State) (cid : Nat) (e : StEnt) (es : List StEnt) (v : Word) (lodge : Bool) (dev pa key : Nat), s.AtHead cid e es → e.kind = .store v →
    (∀ f ∈ es, f.place ≠ e.place ∨ f.size ≠ e.size) → e.isRel = false → e.place = .remote dev pa key →
    exec (.storePerform cid lodge) s = .next ((s.send dev key (.store pa (leBytes e.size v.toNat)) ⟨cid, dev, .store, e.va, e.pc, e.seq, 0⟩).modCtx cid
      (fun c => { c with path := { c.path with stores := { e with sent := [s.net.nextReq] } :: es } })))

/-- R125, R141, R143, R304: a store of a page cached in L1 with write-back may lodge there, unless it is a release beyond .core, or its hint
allocates no line and the line is not there: memory is not written, the line holds the store's bytes and they are dirty, and with .lu it is the
first to leave. -/
def Obligations.StoresLodge : Prop :=
  ∀ (s : State) (cid : Nat) (e : StEnt) (es : List StEnt) (v : Word) (pa key : Nat), s.AtHead cid e es → e.kind = .store v →
    (∀ f ∈ es, f.place ≠ e.place ∨ f.size ≠ e.size) → e.place = .loc pa key 0 0 → pa % 64 + e.size ≤ 64 →
    (e.isRel = true → e.scope = .core ∧ (s.ctx cid).path.fails = []) → (Map.find (s.core (cid / 2)).l1 (pa / 64) = none → e.hint = .nh ∨ e.hint = .lu) →
    ((s.core (cid / 2)).l1.filter (fun x => x.1 % 256 = pa / 64 % 256)).length < 8 →
    (∀ l, Map.find (s.core (cid / 2)).l1 (pa / 64) = some l → l.bytes.length = 64 ∧ l.dirty.length = 64) →
    ∃ t l, exec (.storePerform cid true) s = .next t ∧ (t.ctx cid).path.stores = es ∧ t.mem = s.mem ∧
      Map.find (t.core (cid / 2)).l1 (pa / 64) = some l ∧
      (l.lu = true ↔ e.hint = .lu) ∧
      ∀ i < e.size, l.bytes[pa % 64 + i]? = some (BitVec.ofNat 8 (v.toNat / 256 ^ i % 256)) ∧ l.dirty[pa % 64 + i]? = some true

/-- R142, R144, R145, R151, R169, R225, R303: the load at the head of its queue, of a place of the own device, takes its value: the bytes at its
place; those of the latest earlier store in the queue that holds them; or those of its line, where it is in L1. The register is pending no
longer, an acquire beyond .core leaves L1 empty, and nothing else changes but the count of corrected errors. Bytes in error raise the data
error. A load of another device is asked for, once no earlier store of its bytes is queued. -/
def Obligations.LoadsReturn : Prop :=
  (∀ (s : State) (cid : Nat) (l : LdEnt) (ls : List LdEnt) (hit alloc : Bool), (s.ctx cid).path.loads = l :: ls →
    (∀ e ∈ (s.ctx cid).path.stores, l.place.meets l.size e.place e.size = false) → l.place.isRemote = false → l.size ∈ [1, 2, 4, 8] →
    (s.poisoned l.place l.size = false → l.place.cached = false → (hit = true ∨ l.place.pa? = none) →
      exec (.loadReturn cid hit alloc) s = .next
        ((s.sRead (cid / 2) l.place l.size).loadedFrom cid l (s.rd (s.ctx cid).launch l.place l.size))) ∧
    (∀ pa key wp line, s.poisoned l.place l.size = false → l.place = .loc pa key 0 wp → Map.find (s.core (cid / 2)).l1 (pa / 64) = some line →
      pa % 64 + l.size ≤ line.bytes.length →
      exec (.loadReturn cid true alloc) s = .next
        ((s.l1Mark (cid / 2) pa (l.hint == .lu)).loadedFrom cid l ((line.bytes.drop (pa % 64)).take l.size))) ∧
    (s.poisoned l.place l.size = true → (hit = true ∨ l.place.pa? = none) → (s.ctx cid).trap.phase = .none →
      ∃ t, exec (.loadReturn cid hit alloc) s = .next t ∧
        (s.modCtx cid (fun c => { c with path := { c.path with loads := ls }, sc := { c.sc with pend := c.sc.pend.filter (fun r => r != l.rd) } })).Traps t
          cid true (s.pathFrame 0x0B l.place.errDetail l.va l.pc))) ∧
  (∀ (s : State) (cid : Nat) (l : LdEnt) (ls : List LdEnt) (es fs : List StEnt) (e : StEnt) (v : Word) (hit alloc : Bool),
    (s.ctx cid).path.loads = l :: ls → (s.ctx cid).path.stores = es ++ e :: fs → e.kind = .store v → e.seq < l.seq → e.place = l.place →
    e.size = l.size → (∀ f ∈ fs, l.place.meets l.size f.place f.size = false) →
    (∀ f ∈ es, l.place.meets l.size f.place f.size = true → ∃ w, f.kind = .store w) →
    l.place.isRemote = false → l.place.cached = false → (hit = true ∨ l.place.pa? = none) → l.size ∈ [1, 2, 4, 8] →
    exec (.loadReturn cid hit alloc) s = .next ((s.sRead (cid / 2) l.place l.size).loadedFrom cid l (leBytes l.size v.toNat))) ∧
  (∀ (s : State) (cid : Nat) (l : LdEnt) (ls : List LdEnt) (hit alloc : Bool) (dev pa key : Nat), (s.ctx cid).path.loads = l :: ls →
    l.place = .remote dev pa key → l.req = none →
    ((∀ e ∈ (s.ctx cid).path.stores, e.seq < l.seq → l.place.meets l.size e.place e.size = false) →
      exec (.loadReturn cid hit alloc) s = .next ((s.send dev key (.load pa l.size) ⟨cid, dev, .load, l.va, l.pc, l.seq, 0⟩).modCtx cid
        (fun c => { c with path := { c.path with loads := { l with req := some s.net.nextReq } :: ls } }))) ∧
    ((∃ e ∈ (s.ctx cid).path.stores, e.seq < l.seq ∧ l.place.meets l.size e.place e.size = true) →
      exec (.loadReturn cid hit alloc) s = .next s))

/-- R142, R146, R152, R169, R171, R210-R213, R225: a memory reduction at the head of the store queue combines the element at its place with its
addend there, a vector one each of its elements in turn, L1 holding no copy of the line; an element on a poisoned unit is not performed, and the
error is kept. A release beyond .core first writes L1 back, and one that must wait for an access that failed takes the error instead. A
reduction of another device is sent there. -/
def Obligations.ReductionsPerform : Prop :=
  (∀ (s : State) (e : StEnt) (es : List StEnt) (m : MredMode), s.AtHead s.cur.cid e es → e.place.isRemote = false →
    (e.isRel = true → s.me.path.fails = []) →
    let u := (s.released e.ord e.scope).flushPlace s.myCore e.place
    (∀ v, e.kind = .mred m v → exec .mredPerform s = .next ((u.mredAt s.cur.cid m e.place e.va v).setStores s.cur.cid es)) ∧
    (∀ vs, e.kind = .vmred m vs → exec .mredPerform s = .next (((List.range (32 / mredBytes m)).foldl (fun x j =>
        x.mredAt s.cur.cid m (e.place.add (j * mredBytes m)) (e.va + word (j * mredBytes m)) (mredVal m vs j)) u).setStores s.cur.cid es))) ∧
  (∀ (s : State) (cid : Nat) (m : MredMode) (p : Place) (va a : Word),
    let x := s.sRead (cid / 2) p (mredBytes m)
    (s.poisoned p (mredBytes m) = false → s.mredAt cid m p va a =
      x.wr (s.ctx cid).launch p (leBytes (mredBytes m) (mredApply m (leWord (s.rd (s.ctx cid).launch p (mredBytes m))) a).toNat)) ∧
    (s.poisoned p (mredBytes m) = true → s.mredAt cid m p va a =
      s.modCtx cid (fun c => { c with path := { c.path with fails := c.path.fails ++ [⟨0x0B, p.errDetail, va⟩] } }))) ∧
  (∀ (s : State) (e : StEnt) (es : List StEnt) (f : EFault) (fs : List EFault), s.AtHead s.cur.cid e es → (∀ v, e.kind ≠ .store v) → e.isRel = true →
    s.me.path.fails = f :: fs → s.me.trap.phase = .none →
    ∃ t, exec .mredPerform s = .next t ∧ (s.modMe (fun c => { c with path := { c.path with stores := es, fails := fs } })).Traps t s.cur.cid true
      (s.pathFrame f.cause f.detail f.faddr e.pc)) ∧
  (∀ (s : State) (e : StEnt) (es : List StEnt) (m : MredMode) (v : Word) (dev pa key : Nat), s.AtHead s.cur.cid e es → e.kind = .mred m v →
    (e.isRel = true → s.me.path.fails = []) → e.place = .remote dev pa key →
    let u := s.released e.ord e.scope
    exec .mredPerform s = .next ((u.send dev key (.mred m pa v) ⟨s.cur.cid, dev, .store, e.va, e.pc, e.seq, 0⟩).modMe
      (fun c => { c with path := { c.path with stores := { e with sent := [u.net.nextReq] } :: es } })))

/-- R125, R143, R146, R151, R152: a line that leaves L1 is gone from it, each of its dirty bytes reads at its home under the line's key, and
every other byte of memory reads as before; the write-back of all of L1 leaves every line, with no dirty byte; that of an acquire leaves no line,
and that before an access at its point of coherence takes the line of the place alone. -/
def Obligations.LinesLeave : Prop :=
  ∀ (s : State) (core : Nat), s.MemOk → s.Lined core →
    (∀ n, ∃ t, exec (.l1AgeOut core n) s = .next t ∧ s.WritesBack t core (· = n) ∧ Map.find (t.core core).l1 n = none ∧
      ∀ m, m ≠ n → Map.find (t.core core).l1 m = Map.find (s.core core).l1 m) ∧
    (s.WritesBack (s.wbAll core) core (fun _ => True) ∧ ((s.wbAll core).core core).clean ∧
      ∀ n, (Map.find ((s.wbAll core).core core).l1 n).map (fun l => { l with dirty := [] }) =
        (Map.find (s.core core).l1 n).map (fun l => { l with dirty := [] })) ∧
    (s.WritesBack (s.wbInv core) core (fun _ => True) ∧ ((s.wbInv core).core core).l1 = []) ∧
    (∀ p : Place, p.pa? = none → s.flushPlace core p = s) ∧
    (∀ p pa key, p.pa? = some (pa, key) → s.WritesBack (s.flushPlace core p) core (· = pa / 64) ∧
      Map.find ((s.flushPlace core p).core core).l1 (pa / 64) = none ∧
      ∀ m, m ≠ pa / 64 → Map.find ((s.flushPlace core p).core core).l1 m = Map.find (s.core core).l1 m)

/-- R177, R325, R326: semw takes its units once they are there and then, if S was in the visibility set, writes L1 back and empties it; before
that it waits. semi sets a semaphore, semr reads one, sems adds to one and sets DONE; a sum beyond 65,535 stops there, with SOV, and raises cause
0x0C with the semaphore as DETAIL, the sems being done. -/
def Obligations.SemaphoresCount : Prop :=
  (∀ (o : SemN) (s : State), s.OnMain → o.n.toNat ≤ (s.semOf s.cur.cid o.sem).count →
    let m := s.semOf s.cur.cid o.sem
    let c := m.count - o.n.toNat
    let u := s.setSem s.cur.cid o.sem { count := c, status := m.status, vis := if c = 0 then 0 else m.vis }
    ∃ t, exec (.semw o) s = .next t ∧ (if m.vis.getLsbD 0 = true then u.wbInv s.myCore else u).Passes t o.st) ∧
  (∀ (o : SemN) (s : State), s.OnMain → (s.semOf s.cur.cid o.sem).count < o.n.toNat → exec (.semw o) s = .next s) ∧
  (∀ (o : SemI) (s : State), s.OnMain → ∃ t, exec (.semi o) s = .next t ∧
    (s.setSem s.cur.cid o.sem ⟨o.v.toNat, if o.keep then (s.semOf s.cur.cid o.sem).status else 0, 0⟩).Passes t o.st) ∧
  (∀ (o : SemR) (s : State), s.OnMain → s.Ready [] none → s.Here [o.rd] → ∃ t, exec (.semr o) s = .next t ∧
    s.GivesVar t o.rd (if o.sw then (s.semOf s.cur.cid o.sem).status else word (s.semOf s.cur.cid o.sem).count) o.st) ∧
  (∀ (o : SemN) (s : State), s.OnMain → (s.semOf s.cur.cid o.sem).count + o.n.toNat ≤ 65535 → ∃ t u, exec (.sems o) s = .next t ∧ s.Passes u o.st ∧
      t = u.setSem s.cur.cid o.sem ⟨(s.semOf s.cur.cid o.sem).count + o.n.toNat, (s.semOf s.cur.cid o.sem).status &&& ~~~ 0x8000 ||| 1,
        (s.semOf s.cur.cid o.sem).vis⟩) ∧
  (∀ (o : SemN) (s : State), s.OnMain → s.me.trap.phase = .none → 65535 < (s.semOf s.cur.cid o.sem).count + o.n.toNat → ∃ t u v : State, exec (.sems o) s = .next t ∧ s.Passes u o.st ∧
      v = u.setSem s.cur.cid o.sem ⟨65535, (s.semOf s.cur.cid o.sem).status &&& ~~~ 0x8000 ||| 1 ||| 0x2000, (s.semOf s.cur.cid o.sem).vis⟩ ∧
      v.Traps t s.cur.cid true (s.frameS 0x0C o.sem 0))

/-- R307, R308, R329, R330, R331: sleepu holds S until the promised clk, and a command that is late then raises cause 9 with its channel; yield
holds S for its count, or gives the next issue slot away; cyc gives the clk. waita reads its word at the point of coherence and holds S while that is
the expected value, with the acquire part of its ordering; the event that a write, its time, a trap or a switch brings reads once more and ends the hold.
A word of another device is watched for, and one in error raises the data error. -/
def Obligations.ParkedStreams : Prop :=
  (∀ (o : R1a) (s : State), s.OnMain → s.Ready [o.ra] none → (s.r o.ra).getLsbD 0 = false →
    ∃ t, exec (.sleepu o) s = .next t ∧ s.Passes t o.st) ∧
  (∀ (o : R1a) (s : State), s.OnMain → s.Ready [o.ra] none → (s.r o.ra).getLsbD 0 = true →
    let time := (s.r o.ra).toNat / 16
    let ch := (s.r o.ra).toNat / 2 % 8
    ∃ t u, exec (.sleepu o) s = .next t ∧ s.Parks u (.sleepu time ch) o.st ∧ (s.clk < time → t = u) ∧
      (time ≤ s.clk → ¬ s.LateOn ch time → u.EndsFree t) ∧
      (time ≤ s.clk → s.LateOn ch time → s.me.trap.phase = .none → ∃ v, u.Holds v .none ∧ v.TrapsS t 9 ch 0)) ∧
  (∀ (s : State) (c ch : Nat), s.OnMain → s.sca.hold = .sleepu c ch → c ≤ s.clk → s.me.trap.phase = .none →
    ∃ t, exec .sleepuWake s = .next t ∧ (¬ s.LateOn ch c → s.EndsFree t) ∧ (s.LateOn ch c → ∃ u, s.Holds u .none ∧ u.TrapsS t 9 ch 0)) ∧
  (∀ (o : R1a) (s : State), s.OnMain → s.Ready [o.ra] none → ∃ t u, exec (.yield o) s = .next t ∧ s.Passes u o.st ∧
    ((s.r o.ra).toNat % 65536 = 0 → t = u.modCore s.myCore (fun k => { k with gives := some (s.cur.cid % 2) })) ∧
    ((s.r o.ra).toNat % 65536 ≠ 0 → u.Holds t (.yield (s.clk + (s.r o.ra).toNat % 65536 + 1)))) ∧
  (∀ (s : State) (c : Nat), s.OnMain → s.sca.hold = .yield c → c ≤ s.clk → ∃ t, exec .yieldEnd s = .next t ∧ s.Holds t .none) ∧
  (∀ (o : R1d) (s : State), s.OnMain → s.Ready [] (some (o.rd, 1)) → ∃ t, exec (.cyc o) s = .next t ∧ s.Gives t o.rd (word s.clk) 1 o.st) ∧
  (∀ (o : WaitaF) (s : State) (p : Place), s.OnMain → s.Ready [o.ra, o.rb, o.rt] none → o.ord ≠ .sc →
    let ea := s.based o.ra o.off
    let n := o.size.bytes
    let w : WaitaSt := ⟨o.rt, n, o.sx, o.ord, o.scope, p, ea, s.clk + (s.r o.rt).toNat, false, s.pc⟩
    let u := s.noteXlat s.cur.cid ea
    ea.toNat % n = 0 → s.xlat s.cur.cid false .wait ea = .ok p → s.me.path.loads = [] → (∀ e ∈ s.me.path.stores, p.meets n e.place e.size = false) →
    (p.isRemote = false → ∃ t v : State, exec (.waita o) s = .next t ∧ u.Parks v .none o.st ∧
      let x := v.flushPlace s.myCore p
      let y := (x.sRead s.myCore p n).acquired o.ord o.scope
      let bs := x.rd s.me.launch p n
      (x.poisoned p n = true → s.me.trap.phase = .none → x.TrapsOnce t 0x0B p.errDetail ea) ∧
      (x.poisoned p n = false → bs = leBytes n (s.r o.rb).toNat → s.r o.rt ≠ 0 → y.Holds t (.waita w)) ∧
      (x.poisoned p n = false → bs ≠ leBytes n (s.r o.rb).toNat ∨ s.r o.rt = 0 → y.EndsWith t o.rt (loaded o.sx bs))) ∧
    (∀ dev pa key, p = .remote dev pa key → exec (.waita o) s = .next
      (u.parkRemote o.st dev key (.watch pa n) (.waita w (zextN (8 * n) (s.r o.rb)) (s.r o.rt) false) ea))) ∧
  (∀ (s : State) (w : WaitaSt), s.OnMain → s.sca.hold = .waita w →
    let u : State := { s with net := { s.net with reqs := s.net.reqs.filter (fun x => !(x.2.cid == s.cur.cid && x.2.kind == .notice)) } }
    let x := u.flushPlace s.myCore w.place
    let bs := x.rd s.me.launch w.place w.size
    (w.woken = false → s.clk < w.deadline → exec (.waitaWake s.cur.cid) s = .next s) ∧
    (w.woken = true ∨ w.deadline ≤ s.clk →
      (w.ord = .sc → ∃ t, exec (.waitaWake s.cur.cid) s = .next t ∧ u.Holds t (.sc ⟨.waita w.rt w.sx 0 0 true, w.place, w.va, w.size, w.pc, none⟩)) ∧
      (∀ dev pa key, w.ord ≠ .sc → w.place = .remote dev pa key →
        exec (.waitaWake s.cur.cid) s = .next (u.holdRemote dev key (.load pa w.size) (.waita w 0 0 true) w.va)) ∧
      (w.ord ≠ .sc → w.place.isRemote = false → w.size ∈ [1, 2, 4, 8] → ∃ t, exec (.waitaWake s.cur.cid) s = .next t ∧
        (x.poisoned w.place w.size = false → ((x.sRead s.myCore w.place w.size).acquired w.ord w.scope).EndsWith t w.rt (loaded w.sx bs)) ∧
        (x.poisoned w.place w.size = true → s.me.trap.phase = .none → ∃ v, x.Holds v .none ∧ v.TrapsOnce t 0x0B w.place.errDetail w.va))))

/-- R151, R152, R165, R166, R307: an .sc access of S that has its checks passed and the S path drained writes L1 back and holds S for the wheel; it
issues at its core's position when its context takes that clk, and 96 clk later it is performed at its point of coherence: a load gives its
value, a store's bytes are at their place, an atomic does both, a waita gives its value or waits; L1 is emptied, and S goes on. -/
def Obligations.SlotWheel : Prop :=
  (∀ (s : State) (p : Place),
    (∀ o : LdF, o.ord = .sc → s.ScReady [o.ra] [o.rt] (s.based o.ra o.off) o.size.bytes .scLoad p → ∃ t, exec (.ld o) s = .next t ∧
      s.WaitsForWheel t (s.based o.ra o.off) o.st ⟨.load o.rt o.sx, p, s.based o.ra o.off, o.size.bytes, s.pc, none⟩) ∧
    (∀ o : LdxF, o.ord = .sc → s.ScReady [o.ra, o.rb] [o.rt] (s.r o.ra + s.r o.rb) o.size.bytes .scLoad p → ∃ t, exec (.ldx o) s = .next t ∧
      s.WaitsForWheel t (s.r o.ra + s.r o.rb) o.st ⟨.load o.rt o.sx, p, s.r o.ra + s.r o.rb, o.size.bytes, s.pc, none⟩) ∧
    (∀ o : StF, o.ord = .sc → s.ScReady [o.ra, o.rt] [] (s.based o.ra o.off) o.size.bytes .scStore p → ∃ t, exec (.st o) s = .next t ∧
      s.WaitsForWheel t (s.based o.ra o.off) o.st
        ⟨.store (word ((s.r o.rt).toNat % 256 ^ o.size.bytes)), p, s.based o.ra o.off, o.size.bytes, s.pc, none⟩) ∧
    (∀ o : StxF, o.ord = .sc → s.ScReady [o.ra, o.rb, o.rt] [] (s.r o.ra + s.r o.rb) o.size.bytes .scStore p → ∃ t, exec (.stx o) s = .next t ∧
      s.WaitsForWheel t (s.r o.ra + s.r o.rb) o.st
        ⟨.store (word ((s.r o.rt).toNat % 256 ^ o.size.bytes)), p, s.r o.ra + s.r o.rb, o.size.bytes, s.pc, none⟩) ∧
    (∀ o : AmoF, o.ord = .sc → s.ScReady [o.ra, o.rb] [o.rt] (s.based o.ra o.off) ((atomWidth o.wide).bits / 8) .scAtomic p →
      ∃ t, exec (.amo o) s = .next t ∧ s.WaitsForWheel t (s.based o.ra o.off) o.st
        ⟨.amo o.op o.rt (s.r o.rb), p, s.based o.ra o.off, (atomWidth o.wide).bits / 8, s.pc, none⟩) ∧
    (∀ o : CasF, o.ord = .sc → s.ScReady [o.ra, o.rb, o.rc] [o.rt] (s.based o.ra o.off) ((atomWidth o.wide).bits / 8) .scAtomic p →
      ∃ t, exec (.cas o) s = .next t ∧ s.WaitsForWheel t (s.based o.ra o.off) o.st
        ⟨.cas o.rt (s.r o.rc) (s.r o.rb), p, s.based o.ra o.off, (atomWidth o.wide).bits / 8, s.pc, none⟩) ∧
    (∀ o : AmoF, o.ord = .sc → s.ScReady [o.ra, o.rb, o.rb + 1, o.rb + 2, o.rb + 3] (if o.rt = 0 then [] else [o.rt, o.rt + 1, o.rt + 2, o.rt + 3])
      (s.based o.ra o.off) 32 .scAtomic p → ∃ t, exec (.vamo o) s = .next t ∧ s.WaitsForWheel t (s.based o.ra o.off) o.st
        ⟨.vamo o.op o.rt o.rb o.wide [s.r o.rb, s.r (o.rb + 1), s.r (o.rb + 2), s.r (o.rb + 3)], p, s.based o.ra o.off, 32, s.pc, none⟩) ∧
    (∀ o : WaitaF, o.ord = .sc → s.ScReady [o.ra, o.rb, o.rt] [o.rt] (s.based o.ra o.off) o.size.bytes .scLoad p → ∃ t, exec (.waita o) s = .next t ∧
      s.WaitsForWheel t (s.based o.ra o.off) o.st ⟨.waita o.rt o.sx (word ((s.r o.rb).toNat % 256 ^ o.size.bytes))
        (if s.r o.rt = 0 then 0 else s.clk + (s.r o.rt).toNat) false, p, s.based o.ra o.off, o.size.bytes, s.pc, none⟩)) ∧
  (∀ (s : State) (a : ScAcc), s.OnMain → s.sca.hold = .sc a → a.issued = none →
    (s.TakesWheel → ∃ t u, exec .scWheelIssue s = .next t ∧ s.Holds u (.sc { a with issued := some s.clk }) ∧
      t = u.modCore s.myCore (fun k => { k with lastWheel := some (s.clk, s.cur.cid % 2) })) ∧
    (¬ s.TakesWheel → exec .scWheelIssue s = .next s)) ∧
  (∀ (s : State) (a : ScAcc) (c : Nat), s.OnMain → s.sca.hold = .sc a → a.issued = some c → s.clk = c + 96 →
    let u := s.flushPlace s.myCore a.place
    let x := u.sRead s.myCore a.place a.size
    let bs := u.rd s.me.launch a.place a.size
    let z : Width := if a.size = 8 then .d else .w
    (∀ v, a.kind = .store v → ∃ t, exec .scPerform s = .next t ∧
      ((u.storeHome s.cur.cid a.place (leBytes a.size v.toNat)).wbInv s.myCore).EndsFree t) ∧
    (u.poisoned a.place a.size = true → (∀ v, a.kind ≠ .store v) → s.me.trap.phase = .none →
      ∃ t v, exec .scPerform s = .next t ∧ u.Holds v .none ∧ v.TrapsOnce t 0x0B a.place.errDetail a.va) ∧
    (u.poisoned a.place a.size = false →
      (∀ rd sx, a.kind = .load rd sx → a.size ∈ [1, 2, 4, 8] → ∃ t, exec .scPerform s = .next t ∧ ((x.resVar rd (loaded sx bs)).wbInv s.myCore).EndsFree t) ∧
      (∀ op rt b, a.kind = .amo op rt b → a.size = 4 ∨ a.size = 8 → ∃ t, exec .scPerform s = .next t ∧
        (((x.wr s.me.launch a.place (leBytes a.size (op.result z (leWord bs) b).toNat)).resVar rt (z.low (leWord bs))).wbInv s.myCore).EndsFree t) ∧
      (∀ rt e n, a.kind = .cas rt e n → a.size = 4 ∨ a.size = 8 → ∃ t, exec .scPerform s = .next t ∧
        (((if z.uns (leWord bs) = z.uns e then x.wr s.me.launch a.place (leBytes a.size n.toNat) else x).resVar rt (z.low (leWord bs))).wbInv
          s.myCore).EndsFree t) ∧
      (∀ op rt rb wide vs, a.kind = .vamo op rt rb wide vs → ∃ t, exec .scPerform s = .next t ∧
        (((u.vamoAll s.cur.cid a.place wide op vs).2.res4 rt (u.vamoAll s.cur.cid a.place wide op vs).1).wbInv s.myCore).EndsFree t) ∧
      (∀ rt sx e dl second, a.kind = .waita rt sx e dl second → a.size ∈ [1, 2, 4, 8] → ∃ t, exec .scPerform s = .next t ∧
        (second = false → leWord bs = e → dl ≠ 0 → (x.wbInv s.myCore).Holds t (.waita ⟨rt, a.size, sx, .sc, .dev, a.place, a.va, dl, false, a.pc⟩)) ∧
        (second = true ∨ leWord bs ≠ e ∨ dl = 0 → (x.wbInv s.myCore).EndsWith t rt (loaded sx bs)))))

/-- R52, R72, R73, R225, R317, R318: spawn, with the S path drained and L1 written back, reads its record at the point of coherence. A reserved bit
that is set, or a bunch of another launch, is an illegal instruction. Else the record enters the store, and the spawn waits while that is full, its
record read. A record of another device is asked for, and one in error raises the data error. -/
def Obligations.SpawnEnters : Prop :=
  (∀ (o : R2) (s : State) (p : Place), s.OnMain → s.Ready [o.ra] none → s.Here [o.rd] → (s.r o.ra).toNat % 32 = 0 →
    s.xlat s.cur.cid false .spawn (s.r o.ra) = .ok p → s.Drained →
    let u := (s.noteXlat s.cur.cid (s.r o.ra)).wbAll s.myCore
    let x := u.flushPlace s.myCore p
    let bs := x.rd s.me.launch p 32
    let r := Record.ofBytes bs
    let bad := r.clean = false ∨ r.bunch ≠ 0 ∧ ∀ b, Map.find s.sched.bunches r.bunch = some b → b.launch ≠ s.me.launch
    (∀ dev pa key, p = .remote dev pa key →
      exec (.spawn o) s = .next (u.parkRemote o.st dev key (.load pa 32) (.spawn o.rd) (s.r o.ra))) ∧
    (p.isRemote = false → x.poisoned p 32 = true → s.me.trap.phase = .none →
      ∃ t, exec (.spawn o) s = .next t ∧ x.TrapsOnce t 0x0B p.errDetail (s.r o.ra)) ∧
    (p.isRemote = false → x.poisoned p 32 = false → ∃ t v : State, exec (.spawn o) s = .next t ∧ (x.sRead s.myCore p 32).Parks v .none o.st ∧
      (bad → s.me.trap.phase = .none → v.TrapsS t 1 0 0) ∧
      (¬ bad → v.NoRoom → v.Holds t (.spawn o.rd bs)) ∧ (¬ bad → ¬ v.NoRoom → v.Enters t o.rd r))) ∧
  (∀ (s : State) (rd : Nat) (bs : List Byte), s.OnMain → s.sca.hold = .spawn rd bs → s.me.trap.phase = .none →
    (s.NoRoom → s.retryHold s.cur.cid = s) ∧ (¬ s.NoRoom → s.Enters (s.retryHold s.cur.cid) rd (Record.ofBytes bs)))

/-- R73, R87, R319, R320: arrive, with the S path drained, writes L1 back, counts the pooled record of its handle down and gives 0, or 1 where the
record becomes ready; for any other handle it gives 2 and does nothing. est saturates its operand into EST, and a decision of the same clk still sees
the EST before. -/
def Obligations.ArriveAndEst : Prop :=
  (∀ (o : R2) (s : State), s.OnMain → s.Ready [o.ra] none → s.Here [o.rd] → s.Drained →
    ∃ t x : State, ∃ n : Nat, exec (.arrive o) s = .next t ∧ (s.wbAll s.myCore).GivesVar x o.rd (word n) o.st ∧
      (∀ e v, s.names (s.r o.ra) e v → v.st = .pooled → v.launch = s.me.launch →
        (2 ≤ v.join → n = 0 ∧ t = x.setEntry e { v with join := v.join - 1 }) ∧
        (v.join ≤ 1 → n = 1 ∧ t = (x.setEntry e { v with join := 0 }).ready e)) ∧
      ((∀ e v, s.names (s.r o.ra) e v → v.st ≠ .pooled ∨ v.launch ≠ s.me.launch) → n = 2 ∧ t = x)) ∧
  (∀ (o : R1a) (s : State), s.OnMain → s.Ready [o.ra] none → ∃ t, exec (.est o) s = .next t ∧
    (s.modMe (fun c => { c with sys := { c.sys with est := (max 0 (min 16777215 (s.r o.ra).toInt)).toNat, estOld := if c.sys.estAt = s.clk then c.sys.estOld else c.sys.est, estAt := s.clk } })).Passes t o.st)

/-- R108, R110, R321, R322: bmake gives a new handle, not 0 and not in use, to a count of 1 to 8, and 0 otherwise; join makes the task a member of
a bunch that is placed on its cluster and has room, and gives 1, else 0; leave takes it out. -/
def Obligations.BunchesForm : Prop :=
  (∀ (o : R2) (s : State), s.OnMain → s.Ready [o.ra] none → s.Here [o.rd] →
    (1 ≤ (s.r o.ra).toNat ∧ (s.r o.ra).toNat ≤ 8 ∧ s.sched.bunches.length < 4096 → ∃ t h, exec (.bmake o) s = .next t ∧
      h ≠ 0 ∧ h < 65536 ∧ Map.find s.sched.bunches h = none ∧
      (s.modSched (fun q => { q with
        bunches := Map.put q.bunches h ⟨s.me.launch, (s.r o.ra).toNat, none, [], [], 0⟩, nextBunch := (h + 1) % 65536 })).GivesVar t o.rd (word h) o.st) ∧
    (¬ (1 ≤ (s.r o.ra).toNat ∧ (s.r o.ra).toNat ≤ 8 ∧ s.sched.bunches.length < 4096) →
      ∃ t, exec (.bmake o) s = .next t ∧ s.GivesVar t o.rd 0 o.st)) ∧
  (∀ (o : R2) (s : State), s.OnMain → s.Ready [o.ra] none → s.Here [o.rd] →
    (∀ b k, Map.find s.sched.bunches (s.r o.ra).toNat = some b → s.me.task = some k → b.placed = some (s.myCore / 4) → k.member = false →
      b.members.length < 8 → ∃ t, exec (.join o) s = .next t ∧
        ((s.modMe (fun c => { c with task := some { k with member := true, bunch := (s.r o.ra).toNat } })).modSched (fun q => { q with
          bunches := Map.put q.bunches (s.r o.ra).toNat { b with members := b.members ++ [s.cur.cid] } })).GivesVar t o.rd 1 o.st) ∧
    ((∀ b, Map.find s.sched.bunches (s.r o.ra).toNat = some b → b.placed ≠ some (s.myCore / 4) ∨ 8 ≤ b.members.length ∨
        (∀ k, s.me.task = some k → k.member = true)) → ∃ t, exec (.join o) s = .next t ∧ s.GivesVar t o.rd 0 o.st)) ∧
  (∀ (o : R0) (s : State), s.OnMain → ∃ t, exec (.leave o) s = .next t ∧
    (∀ k, s.me.task = some k → k.member = false → s.Passes t o.st) ∧
    (∀ k b, s.me.task = some k → k.member = true → Map.find s.sched.bunches k.bunch = some b →
      (∃ m ∈ b.members, m ≠ s.cur.cid) → (∀ x ∈ s.images, ∀ j, x.2.ctx.task = some j → j.member = false) →
      ∃ b', ((s.modMe (fun c => { c with task := some { k with member := false } })).setBunch k.bunch b').Passes t o.st ∧
        b'.members = b.members.filter (· ≠ s.cur.cid) ∧
        (b'.gen = b.gen ∧ b'.arrived = b.arrived.filter (· ≠ s.cur.cid) ∨
         b'.gen = b.gen + 1 ∧ b'.arrived = [] ∧ ∀ m ∈ b'.members, m ∈ b.arrived)))

/-- R109, R161, R322: bbar of no member takes a protection fault with DETAIL 1. A member, its S path drained, arrives with L1 written back and is
held; the last arrival opens the generation and goes on, and an open generation lets a held task go on, both with L1 written back and emptied. -/
def Obligations.BarriersHold : Prop :=
  (∀ (o : R0) (s : State), s.OnMain → s.me.trap.phase = .none → (∀ k, s.me.task = some k → k.member = false) →
    ∃ t, exec (.bbar o) s = .next t ∧ s.TrapsS t 7 1 0) ∧
  (∀ (o : R0) (s : State) (k : Task) (b : Bunch), s.OnMain → s.Drained → s.me.task = some k → k.member = true →
    Map.find s.sched.bunches k.bunch = some b → (∀ x ∈ s.images, ∀ j, x.2.ctx.task = some j → j.member = false) →
    ∃ t v, exec (.bbar o) s = .next t ∧ (s.wbAll s.myCore).Parks v (.bbar b.gen) o.st ∧
      ((∀ m ∈ b.members, m = s.cur.cid ∨ m ∈ b.arrived) → b.members ≠ [] →
        ((v.setBunch k.bunch { b with arrived := [], gen := b.gen + 1 }).wbInv s.myCore).EndsFree t) ∧
      ((∃ m ∈ b.members, m ≠ s.cur.cid ∧ m ∉ b.arrived) → t = v.setBunch k.bunch { b with arrived := b.arrived ++ [s.cur.cid] })) ∧
  (∀ (s : State) (k : Task) (b : Bunch) (g : Nat), s.OnMain → s.sca.hold = .bbar g → s.me.trap.phase = .none → s.me.task = some k → k.member = true →
    Map.find s.sched.bunches k.bunch = some b →
    (b.gen ≠ g → (s.wbInv s.myCore).EndsFree (s.retryHold s.cur.cid)) ∧ (b.gen = g → s.retryHold s.cur.cid = s))

/-- R81, R335, R340, R341: rdsys gives each register of the map, wrsys writes it, both raise the illegal-instruction trap for any other number, and TVEC
and QCFG, written by a task that is no system task, raise cause 7 with DETAIL 0. caps gives CAPSn, and 0 from 4 on. -/
def Obligations.SystemRegisters : Prop :=
  (∀ (o : RdsysF) (s : State), s.OnMain → s.Ready [] none → s.Here [o.rd] →
    (∀ v, s.sysNamed o.num.toNat = some v → ∃ t, exec (.rdsys o) s = .next t ∧ s.GivesVar t o.rd v o.st) ∧
    (s.sysNamed o.num.toNat = none → s.me.trap.phase = .none → ∃ t, exec (.rdsys o) s = .next t ∧ s.TrapsS t 1 0 0)) ∧
  (∀ (o : WrsysF) (s : State), s.OnMain → s.Ready [o.ra] none →
    let guarded := o.num.toNat = 0x80 ∨ (0x100 ≤ o.num.toNat ∧ o.num.toNat < 0x140)
    let sys := ∃ k, s.me.task = some k ∧ k.sys = true
    ((s.sysNamed o.num.toNat).isSome = true → (guarded → sys) → ∃ t, exec (.wrsys o) s = .next t ∧ (s.sysPut o.num.toNat (s.r o.ra)).Passes t o.st) ∧
    (guarded → ¬ sys → s.me.trap.phase = .none → ∃ t, exec (.wrsys o) s = .next t ∧ s.TrapsS t 7 0 0) ∧
    (s.sysNamed o.num.toNat = none → s.me.trap.phase = .none → ∃ t, exec (.wrsys o) s = .next t ∧ s.TrapsS t 1 0 0)) ∧
  (∀ (o : R2) (s : State), s.OnMain → s.Ready [o.ra] none → s.Here [o.rd] → ∃ t v, exec (.caps o) s = .next t ∧ s.GivesVar t o.rd v o.st ∧
    ((s.r o.ra).toNat < 4 → v = s.variant.caps (s.r o.ra).toNat) ∧ (4 ≤ (s.r o.ra).toNat → v = 0))

/-- R66, R96, R336: svc, with s4 to s7 there and the S path drained, writes L1 back and empties it, and holds S for its service with those four as
arguments; the reply gives s4 and s5, empties L1 and lets S go on. A service that is not MAPX gives 0 and 0xFF; MAPX gives a new mapping above every
other of the launch, or a status that says why not. -/
def Obligations.ServicesReply : Prop :=
  (∀ (o : ImmF) (s : State), s.OnMain → s.Ready [4, 5, 6, 7] none → s.Drained → ∃ t, exec (.svc o) s = .next t ∧
    (s.wbInv s.myCore).Parks t (.svc o.imm.toNat [s.r 4, s.r 5, s.r 6, s.r 7]) o.st) ∧
  (∀ (s : State) (n : Nat) (a4 a5 a6 a7 : Word), s.OnMain → s.sca.hold = .svc n [a4, a5, a6, a7] → ∃ t v : State, ∃ a c : Nat,
    exec .svcReply s = .next t ∧ (((v.resVar 4 (word a)).resVar 5 (word c)).wbInv s.myCore).EndsFree t ∧
    (n ≠ 0x10 → v = s ∧ a = 0 ∧ c = 0xFF) ∧
    (n = 0x10 → Map.find s.sched.launches s.me.launch = none → v = s ∧ a = 0 ∧ c = 1) ∧
    (n = 0x10 → ∀ l, Map.find s.sched.launches s.me.launch = some l →
      let off := a5.toNat
      let len := a6.toNat
      (c ≠ 0 → a = 0 ∧ v = s.modLaunch s.me.launch (fun _ => l)) ∧
      (Map.find s.host.exports a4.toNat = none → c = 1) ∧
      (∀ x, Map.find s.host.exports a4.toNat = some x →
        let bad := off % 65536 ≠ 0 ∨ len % 65536 ≠ 0 ∨ len = 0 ∨ x.len < off + len ∨ 2 ≤ a7.toNat
        let asked := a7.getLsbD 0 = true
        (bad → c = 2) ∧
        (¬ bad → asked → x.wr = false → c = 3) ∧
        (¬ bad → (asked → x.wr = true) → 64 ≤ l.maps.length → c = 4) ∧
        (¬ bad → (asked → x.wr = true) → l.maps.length < 64 → c = 0 ∧ 0x01E0 * 2 ^ 48 ≤ a ∧ (∀ m ∈ l.maps, m.va + m.len ≤ a) ∧
          v = s.modLaunch s.me.launch (fun _ => { l with maps := l.maps ++ [⟨a, len, a4.toNat, off, a7.getLsbD 0⟩] })))))

/-- R136, R137, R338, R339, R340, R436: tlbi, with the S path drained and no access that used an old translation still to be performed, writes L1 back,
leaves in every TLB exactly the entries that it does not cover, and no pre-translation of the page table; iclk locks a range of loaded pages of one
object, is refused with 0, waits for a page, or takes a protection fault with DETAIL 3, and the code-integrity fault where its object goes
while it waits; iulk removes the entries that its range covers. -/
def Obligations.TranslationAndLocks : Prop :=
  (∀ (o : TlbiF) (s : State), s.OnMain → s.Ready (match o.range with | some (a, b) => [a, b] | none => []) none → s.Drained →
    (o.g = true → ∃ k, s.me.task = some k ∧ k.sys = true) → (∀ x ∈ s.ctxs, s.pendingVas x.1 = []) →
    let u := s.wbAll s.myCore
    let root := s.ptroot s.me.launch
    ∃ t v : State, exec (.tlbi o) s = .next t ∧ v.outside = u.outside ∧
      (∀ c, v.ctx c = if s.ptroot (u.ctx c).launch = root then { u.ctx c with eng := (u.ctx c).eng.mapCmds (fun m => { m with pre := [] }) } else u.ctx c) ∧
      (∀ k, { v.core k with tlb := [] } = { u.core k with tlb := [] }) ∧
      (∀ k e, e ∈ (v.core k).tlb ↔ e ∈ (u.core k).tlb ∧ ¬ e.goes (o.range.map (fun x => ((s.r x.1).toNat, (s.r x.2).toNat))) o.g root) ∧ v.Passes t o.st) ∧
  (∀ (o : TlbiF) (s : State), s.OnMain → s.me.trap.phase = .none → s.Ready (match o.range with | some (a, b) => [a, b] | none => []) none →
    o.g = true → (∀ k, s.me.task = some k → k.sys = false) → ∃ t, exec (.tlbi o) s = .next t ∧ s.TrapsS t 7 0 0) ∧
  (∀ (o : R3) (s : State), s.OnMain → s.Ready [o.ra, o.rb] none → s.Here [o.rd] →
    let a := s.r o.ra
    let n := s.r o.rb
    (n = 0 → ∃ t, exec (.iclk o) s = .next t ∧ s.GivesVar t o.rd 0 o.st) ∧
    (n ≠ 0 → s.objOf a.toNat n.toNat = none → s.me.trap.phase = .none → ∃ t, exec (.iclk o) s = .next t ∧ s.TrapsS t 7 3 a) ∧
    (n ≠ 0 → ∀ h ob, s.objOf a.toNat n.toNat = some (h, ob) → ∃ t u, exec (.iclk o) s = .next t ∧ s.Parks u (.iclk o.rd h a n) o.st ∧
      u.Locks t o.rd ob a n)) ∧
  (∀ (s : State) (rd h : Nat) (a n : Word), s.OnMain → s.sca.hold = .iclk rd h a n → n ≠ 0 →
    (∀ ob, s.objOf a.toNat n.toNat = some (h, ob) → s.me.trap.phase = .none ∨ s.me.trap.phase = .freezing → s.Locks (s.retryHold s.cur.cid) rd ob a n) ∧
    ((∀ ob, s.objOf a.toNat n.toNat ≠ some (h, ob)) → s.me.trap.phase = .none → ∃ u, s.Holds u .none ∧ u.TrapsS (s.retryHold s.cur.cid) 8 h 0)) ∧
  (∀ (o : Rab) (s : State), s.OnMain → s.Ready [o.ra, o.rb] none → ∃ t u, exec (.iulk o) s = .next t ∧ u.Passes t o.st ∧
    u = s.modMe (fun c => { c with locks := u.me.locks }) ∧
    ∀ x, x ∈ u.me.locks ↔ x ∈ s.me.locks ∧ ¬ (o.ra = 0 ∧ o.rb = 0) ∧
      ¬ ((s.r o.ra).toNat ≤ x.1.toNat ∧ x.1.toNat + x.2.toNat ≤ (s.r o.ra).toNat + (s.r o.rb).toNat))

/-- R346, R379, R382, R395: a setup writes the one field of its engine's shadow set when it starts, leaves its queue and signals then; with an
operand out of range it takes the illegal-instruction trap with its stream's ENG, and nothing of it is done. -/
def Obligations.SetupsWrite : Prop :=
  (∀ (i : Instr) (s : State) (path : Nat) (sy : Sync), i.nestSetup = some (path, sy) → s.AtStart path sy →
    let n := if path = 0 then s.me.eng.copyNest else s.me.eng.redNest
    (∀ m, i.nestWrite s.head.a n = some m → ∃ t, exec i s = .next t ∧
      ((s.modMe (fun c => { c with eng := if path = 0 then { c.eng with copyNest := m } else { c.eng with redNest := m } })).headGone sy).Signals t
        s.cur.cid sy 0 (fun k => s.headFrame path 0 0x0C k 0)) ∧
    (i.nestWrite s.head.a n = none → s.me.trap.phase = .none → ∃ t, exec i s = .next t ∧ s.Traps t s.cur.cid false (s.headFrame path 0 1 0 0))) ∧
  (∀ (i : Instr) (s : State) (sy : Sync), i.matSetup = some sy → s.AtStart 1 sy →
    (∀ m, i.matWrite s.head s.me.eng.matNest = some m → ∃ t, exec i s = .next t ∧
      ((s.modMe (fun c => { c with eng := { c.eng with matNest := m } })).headGone sy).Signals t s.cur.cid sy 0
        (fun k => s.headFrame 1 0 0x0C k 0)) ∧
    (i.matWrite s.head s.me.eng.matNest = none → s.me.trap.phase = .none → ∃ t, exec i s = .next t ∧
      s.Traps t s.cur.cid false (s.headFrame 1 0 1 0 0)))

/-- R347, R350, R353, R354, R355, R356, R360: a copy-family command at the head of C starts on its free channel: its streams pass the checks, the
shadow set with its base overrides is the active set, and rc gets the promise, which is later by 48 clk and the clks of the larger of the bytes
read and written. A check that fails raises the illegal instruction, and a space 5 that is no source of DECOMP the translation fault with
DETAIL 5; nothing of the command is then performed. -/
def Obligations.CopyCommandsStart : Prop :=
  ∀ (i : Instr) (s : State) (c : CopyRow), i.copyRow s.head = some c → s.AtStart 0 c.sy → Map.find s.me.eng.chans c.ch = none →
    ((s.program s.cur.cid 0 = none ∧ s.program s.cur.cid 1 = none) ∨ ∀ x ∈ s.me.eng.chans, x.2.op < 3 ∨ 7 < x.2.op) →
    let h := s.head
    let n0 := s.me.eng.copyNest
    let n1 := if c.os = true then { n0 with base := Map.put n0.base 0 (word (spaceOf (n0.baseW 0) * 2 ^ 61 + h.a.toNat)) } else n0
    let n := if c.od = true then { n1 with base := Map.put n1.base 4 (word (spaceOf (n1.baseW 4) * 2 ^ 61 + h.b.toNat)) } else n1
    let wide := (c.os = true ∧ 2 ^ 57 ≤ h.a.toNat) ∨ (c.od = true ∧ 2 ^ 57 ≤ h.b.toNat)
    let good := (∀ j ∈ c.src ++ c.dst, n.Fits j (decide (4 ≤ j)) (decide (c.list.map Prod.snd ≠ some j)) (c.packed && decide (j = 0))) ∧
      ∀ x ∈ c.list, x.1.toNat % 8 = 0
    let flash := fun j => spaceOf (n.baseW j) = 5 ∧ ¬ (c.packed = true ∧ j = 0 ∧ addrOf (n.baseW j) < bitsOf (s.variant.caps 2) 43 32 * 8000000000)
    (wide ∨ ¬ good → s.me.trap.phase = .none → ∃ t, exec i s = .next t ∧ s.Traps t s.cur.cid false (s.headFrame 0 c.ch 1 0 0)) ∧
    (¬ wide → good → (∃ j ∈ c.src ++ c.dst, flash j) → s.me.trap.phase = .none → ∃ t j, exec i s = .next t ∧ flash j ∧
      s.Traps t s.cur.cid false (s.headFrame 0 c.ch 6 5 (word (addrOf (n.baseW j))))) ∧
    (¬ wide → good → (∀ j ∈ c.src ++ c.dst, ¬ flash j) → ∃ t m clk, exec i s = .next t ∧ t = s.onChannel c.sy c.ch c.rc m ∧
      m.ent = h ∧ m.start = s.clk ∧ m.nest = n ∧ m.iter = 0 ∧ m.status = 0 ∧ m.wr = [] ∧ m.ended = false ∧
      s.clk + 48 ≤ clk ∧ m.promise = word (clk * 16 + c.ch % 8 * 2 + 1) ∧
      ((∀ j ∈ c.src ++ c.dst, spaceOf (n.baseW j) = 1) → c.list = none → c.packed = false → s.program s.cur.cid 0 = none →
        s.program s.cur.cid 1 = none →
        clk = s.clk + 48 + (max ((c.src.map (fun j => n.runs * (n.run + 1) * fSize (n.fmtW j))).sum)
          ((c.dst.map (fun j => n.runs * (n.run + 1) * fSize (n.fmtW j))).sum) + 1023) / 1024))

/-- R180, R358, R361-R364, R373, R384, R388-R392, R397: a command of the reduction engine, the array or the drain unit at the head of its stream
starts once its unit's previous command of the context has completed: it leaves the queue, its wait is taken, its streams begin, and GO-type
commands make the shadow set the active set. A check of R347, R350, R384, R388, R390, R392 or R397 that fails raises its cause with the
stream's ENG instead. drain, with its channel's commands complete and writes performed, signals at once; cpref is a command that writes
nothing; both make the shadow set the active set of their channel (R353). -/
def Obligations.EngineCommandsStart : Prop :=
  (∀ (i : Instr) (s : State) (sy : Sync) (check : Option (Nat × Nat × Word)) (wide : Bool),
    ((∃ o, (i = .red o ∨ i = .scan o) ∧ sy = o.sy ∧ check = s.redCheck s.me.eng.redNest (s.redStreams s.cur.cid) ∧ wide = false) ∨
     (∃ o, i = .merge o ∧ sy = o.sy ∧ check = s.mergeCheck s.me.eng.redNest s.head ∧ wide = decide (s.head.a.toNat = 0 ∧ s.head.b.toNat = 0))) →
    s.AtStart 2 sy → s.me.eng.red = none →
    (∀ c d fa, check = some (c, d, fa) → s.me.trap.phase = .none → ∃ t, exec i s = .next t ∧ s.Traps t s.cur.cid false (s.headFrame 2 0 c d fa)) ∧
    (check = none → ∃ t m, exec i s = .next t ∧ m.ent = s.head ∧ m.start = s.clk ∧ m.nest = s.me.eng.redNest ∧ m.iter = 0 ∧ m.status = 0 ∧
      m.ended = wide ∧
      t = ((s.headGone sy).modMe (fun x => { x with eng := { x.eng with redActive := m.nest, red := some m } })).beginStreams s.cur.cid .red m)) ∧
  (∀ (o : ENone) (s : State), s.AtStart 1 o.sy → s.me.eng.array = none →
    let n := s.me.eng.matNest
    let starts := fun m : Cmd => ((s.headGone o.sy).modMe (fun x => { x with eng := { x.eng with matActive := n, array := some m } })).beginStreams
      s.cur.cid .array m
    let fresh := fun m : Cmd => m.ent = s.head ∧ m.start = s.clk ∧ m.mat = n ∧ m.iter = 0 ∧ m.ended = false
    (∀ c d fa, s.mgoCheck n 0 = some (c, d, fa) → s.me.trap.phase = .none →
      ∃ t, exec (.mgo o) s = .next t ∧ s.Traps t s.cur.cid false (s.headFrame 1 0 c d fa)) ∧
    (s.mgoCheck n 0 = none → ∃ m, exec (.mgo o) s = .next (starts m) ∧ fresh m ∧ m.status = 0) ∧
    (∀ c d fa, s.dgoCheck s.matCmd = .error (.fault c d fa) → s.me.trap.phase = .none →
      ∃ t, exec (.dgo o) s = .next t ∧ s.Traps t s.cur.cid false (s.headFrame 1 0 c d fa)) ∧
    (∀ m, s.dgoCheck s.matCmd = .ok m → exec (.dgo o) s = .next (starts m) ∧ fresh m ∧ m.tab ≠ none)) ∧
  (∀ (i : Instr) (s : State) (sy : Sync) (count : Word) (ok : Bool),
    let n := s.me.eng.matNest
    let h := s.head
    ((∃ o, i = .mzero o ∧ sy = o.sy ∧ count = h.b ∧ ok = true) ∨
     (∃ o, i = .minit o ∧ sy = o.sy ∧ count = h.c ∧ ok = decide (h.b.toNat % 32 = 0)) ∨
     (∃ o, i = .mdrain o ∧ sy = o.sy ∧ count = h.c ∧ ok = n.drainOk h.b h.c)) →
    s.AtStart 1 sy → s.me.eng.drain = none →
    let good := 1 ≤ count.toNat ∧ h.a.toNat + count.toNat ≤ 64 ∧ ok = true
    (¬ good → s.me.trap.phase = .none → ∃ t, exec i s = .next t ∧ s.Traps t s.cur.cid false (s.headFrame 1 0 1 0 0)) ∧
    (good → s.me.hdr.acc < h.a.toNat + count.toNat → s.me.trap.phase = .none → ∃ t, exec i s = .next t ∧ s.Traps t s.cur.cid false (s.headFrame 1 0 7 1 0)) ∧
    (good → h.a.toNat + count.toNat ≤ s.me.hdr.acc → ∃ t m, exec i s = .next t ∧ m.ent = h ∧ m.start = s.clk ∧ m.mat = n ∧ m.iter = 0 ∧ m.status = 0 ∧
      m.ended = false ∧
      t = ((s.headGone sy).modMe (fun x => { x with eng := { x.eng with drain := some m } })).beginStreams s.cur.cid .drainU m)) ∧
  (∀ (o : E3) (s : State), s.AtStart 1 o.sy → s.me.eng.array = none →
    let n := s.me.eng.matNest
    let h := s.head
    let good := (mBType n.mctl = some .e4m3 ∨ mBType n.mctl = some .e5m2 ∨ mBType n.mctl = some .i8 ∨ mBType n.mctl = some .ui8) ∧
      h.a.toNat % 3072 = 0 ∧ h.b.toNat % 3072 = 0 ∧ 1 ≤ h.c.toNat ∧ h.c.toNat ≤ 65536
    (¬ good → s.me.trap.phase = .none → ∃ t, exec (.msparse o) s = .next t ∧ s.Traps t s.cur.cid false (s.headFrame 1 0 1 0 0)) ∧
    (good → ∃ t m, exec (.msparse o) s = .next t ∧ m.ent = h ∧ m.start = s.clk ∧ m.mat = n ∧ m.iter = 0 ∧ m.status = 0 ∧ m.ended = false ∧
      t = ((s.headGone o.sy).modMe (fun x => { x with eng := { x.eng with array := some m } })).beginStreams s.cur.cid .array m)) ∧
  (∀ (o : DrainF) (s : State), s.AtStart 0 o.sy → s.chanDone s.cur.cid o.ch = true →
    (∀ u, (∀ f ∈ s.me.eng.wfails, f.u ≠ .ch o.ch) →
      ((∀ n x, o.sy.sig = some (n, x) → x = 0) ∧ u = (s.nested o.ch).headGone o.sy ∨
        (∃ n x, o.sy.sig = some (n, x) ∧ x ≠ 0) ∧ u = ((s.nested o.ch).headGone o.sy).flushPath s.cur.cid 0 ∧ ∀ f ∈ (u.ctx s.cur.cid).eng.wfails, f.path ≠ 0) →
      ∃ t, exec (.drain o) s = .next t ∧ u.Signals t s.cur.cid o.sy 0 (fun k => s.headFrame 0 0 0x0C k 0)) ∧
    ((∃ f ∈ s.me.eng.wfails, f.u = .ch o.ch) → s.me.trap.phase = .none → ∃ t f, exec (.drain o) s = .next t ∧ f ∈ s.me.eng.wfails ∧ f.u = .ch o.ch ∧
      (s.modMe (fun c => { c with eng := { c.eng with wfails := c.eng.wfails.filter (fun x => x.u != .ch o.ch) } })).Traps t s.cur.cid true
        (f.frame s.head.w s.head.addr))) ∧
  (∀ (o : CprefF) (s : State), s.AtStart 0 o.sy → Map.find s.me.eng.chans o.ch = none → ∃ t u m, exec (.cpref o) s = .next t ∧
    m.ent = s.head ∧ m.start = s.clk ∧ m.status = 0 ∧ m.wr = [] ∧ m.ended = true ∧
    u = ((s.nested o.ch).headGone o.sy).modMe (fun x => { x with eng := { x.eng with chans := Map.put x.eng.chans o.ch m } }) ∧
    (s.head.b ≠ 0 → t = u.noteRanges s.cur.cid [⟨.eread, 0, s.head.a.toNat, min s.head.b.toNat (2 ^ 24)⟩]) ∧ (s.head.b = 0 → t = u.complete s.cur.cid (.ch o.ch)))

/-- R93, R96, R264, R272, R273: S hands an engine word of stream C, M, R or K to its stream with the captured values of its registers, and a promise
destination becomes pending. A word that the decoder refuses, a channel that the task has not, or a malformed mfmt.ctl value is an illegal
instruction; a class-Q word or value on another core is a migrate trap, on a 9M the unsupported instruction, as is DECOMP without a flash tier. The
checks of the word alone come before it waits for its registers. -/
def Obligations.EngineWordsQueue : Prop :=
  ∀ (w : Word) (s : State), s.OnMain →
    (tagAgent w = none ∨ (∃ e, decodeMain w.toNat = .error e) → s.me.trap.phase = .none →
      ∃ t, exec (.engineInstructionDecode w) s = .next t ∧ s.TrapsS t 1 0 0) ∧
    (∀ a i, tagAgent w = some a → decodeMain w.toNat = .ok i →
      let op := w.toNat / 2 ^ 50 % 256
      let v := s.r (engRegs w).1
      let ctl := a = .M ∧ op = 2 ∧ w.toNat / 2 ^ 24 % 32 = 0
      let illegal := (a = .C ∧ 3 ≤ op ∧ s.me.hdr.chan ≤ w.toNat / 2 ^ 29 % 8) ∨ (ctl ∧ mctlOk v = false)
      let quince := (a = .M ∧ 8 ≤ op ∧ op ≤ 11) ∨ (ctl ∧ mctlL6 v = true)
      let cause := if illegal then some 1
        else if quince ∧ classQ s.myCore = false then some (if s.variant.quinces = 0 then 2 else 3)
        else if a = .C ∧ op = 7 ∧ s.variant.flash = false then some 2
        else none
      (∀ c, cause = some c → (ctl → s.Ready (engSrcs w) none) → s.me.trap.phase = .none →
        ∃ t, exec (.engineInstructionDecode w) s = .next t ∧ s.TrapsS t c 0 0) ∧
      (cause = none → s.Ready (engSrcs w) none → (promises w = true → s.Here [(engRegs w).2.2]) →
        ∃ t u x : State, exec (.engineInstructionDecode w) s = .next t ∧
        s.Hands u ⟨s.sca.seq, s.pc, w, v, s.r (engRegs w).2.1, if promises w then 0 else s.r (engRegs w).2.2⟩ (· = a) ∧
        x = u.modMe (fun c => { c with sc := if promises w then c.sc.owing (engRegs w).2.2 else c.sc }) ∧ x.Passes t (w.toNat / 2 ^ 58 % 8)))

/-- R90, R404-R408, R412-R418: the port instructions wait for the port hold, and a slot beyond the task's is a protection fault with DETAIL 1.
pload reads 704 bytes, 64-byte aligned, line by line at once, checks the header (port fault 2) and the words (port fault 1, the lowest bad one), and replaces the slot
but for its binding; pbind binds a slot at a point and only there, pbind.u leaves the point without one; ppar sets a parameter; pclr zeroes the
slot's results; prd, prd.c and prd.n give the result, a carried register and the count. -/
def Obligations.PortInstructions : Prop :=
  (∀ (i : Instr) (slot : Nat) (srcs dsts : List Nat) (s : State),
    ((∃ o, i = .pload o ∧ slot = o.slot ∧ srcs = [o.ra] ∧ dsts = []) ∨ (∃ o, i = .pbind o ∧ slot = o.slot ∧ srcs = [] ∧ dsts = []) ∨
     (∃ o, i = .ppar o ∧ slot = 0 ∧ srcs = [o.ra] ∧ dsts = []) ∨ (∃ o, i = .pclr o ∧ slot = o.slot ∧ srcs = [] ∧ dsts = []) ∨
     (∃ o, i = .prd o ∧ slot = o.slot ∧ srcs = [] ∧ dsts = [o.rd]) ∨ (∃ o, i = .prdC o ∧ slot = o.slot ∧ srcs = [o.ra] ∧ dsts = [o.rd]) ∨
     (∃ o, i = .prdN o ∧ slot = o.slot ∧ srcs = [] ∧ dsts = [o.rd])) →
    s.AtPort srcs → s.Here dsts → s.me.hdr.slots ≤ slot → s.me.trap.phase = .none → ∃ t, exec i s = .next t ∧ s.TrapsS t 7 1 0) ∧
  (∀ (o : PloadF) (s : State), s.AtPort [o.ra] → o.slot < s.me.hdr.slots →
    let ea := s.r o.ra
    let old := s.slot s.cur.cid o.slot
    let x := (s.park .none o.st).pulled ea 11
    let new : Slot := { Slot.fresh with img := Mem.write [] 0 x.2, bound := old.bound }
    let legal := fun n => ∃ i, decodePort (new.word n) = .ok i
    let header := new.tsz ≤ 128 ∧ new.comb ≤ 6 ∧ new.lg ≤ 7 ∧ new.elen ≤ 8 ∧ new.blen ≤ 32
    let used := fun n => n < new.blen ∨ 32 ≤ n ∧ n < 32 + new.elen
    (ea.toNat % 64 ≠ 0 → s.me.trap.phase = .none → ∃ t, exec (.pload o) s = .next t ∧ s.TrapsS t 5 64 ea) ∧
    (∀ j c d, ea.toNat % 64 = 0 → j < 11 → s.xlat s.cur.cid false .load (ea + word (64 * j)) = .fault c d →
      (∀ k < j, ∃ p, s.xlat s.cur.cid false .load (ea + word (64 * k)) = .ok p) → s.me.trap.phase = .none →
      ∃ t, exec (.pload o) s = .next t ∧ s.TrapsS t c d (ea + word (64 * j))) ∧
    (ea.toNat % 64 = 0 → s.me.path.loads = [] →
      (∀ j < 11, ∃ p, s.xlat s.cur.cid false .load (ea + word (64 * j)) = .ok p ∧
        ∀ e ∈ s.me.path.stores, p.meets 64 e.place e.size = true → p.isRemote = false ∧ ∃ v, e.kind = .store v) →
      (s.park .none o.st).Pullable ea →
      (header → (∀ n, used n → legal n) → ∃ t, exec (.pload o) s = .next t ∧
        (x.1.modMe (fun c => { c with ports := { c.ports with slots := Map.put c.ports.slots o.slot new } })).EndsFree t) ∧
      (¬ header → s.me.trap.phase = .none → ∃ t, exec (.pload o) s = .next t ∧
        x.1.Traps t s.cur.cid false { x.1.frameS 0x0A 2 0 with pslot := o.slot, pbind := old.bound.getD 0 }) ∧
      (∀ n, header → used n → ¬ legal n → (∀ m < n, used m → legal m) → s.me.trap.phase = .none → ∃ t, exec (.pload o) s = .next t ∧
        x.1.Traps t s.cur.cid false { x.1.frameS 0x0A 1 0 with pslot := o.slot, pins := n, pbind := old.bound.getD 0 }))) ∧
  (∀ (o : PbindF) (s : State), s.AtPort [] → o.slot < s.me.hdr.slots → ∃ t u, exec (.pbind o) s = .next t ∧
    (∀ k,
      let b := (s.slot s.cur.cid k).bound
      let b' := if k = o.slot then some (pointNum o.pt) else if b = some (pointNum o.pt) then none else b
      u.slot s.cur.cid k = { s.slot s.cur.cid k with bound := b' }) ∧
    u = s.modMe (fun c => { c with ports := { c.ports with slots := u.me.ports.slots } }) ∧ u.Passes t o.st) ∧
  (∀ (o : PbindUF) (s : State), s.AtPort [] → ∃ t u, exec (.pbindU o) s = .next t ∧
    (∀ k,
      let b := (s.slot s.cur.cid k).bound
      let b' := if b = some (pointNum o.pt) then none else b
      u.slot s.cur.cid k = { s.slot s.cur.cid k with bound := b' }) ∧
    u = s.modMe (fun c => { c with ports := { c.ports with slots := u.me.ports.slots } }) ∧ u.Passes t o.st) ∧
  (∀ (o : PparF) (s : State), s.AtPort [o.ra] → s.me.hdr.slots ≠ 0 → ∃ t, exec (.ppar o) s = .next t ∧
    (s.modMe (fun c => { c with ports := { c.ports with par := Map.put c.ports.par o.p (s.r o.ra) } })).Passes t o.st) ∧
  (∀ (o : PclrF) (s : State), s.AtPort [] → o.slot < s.me.hdr.slots → ∃ t u v : State, exec (.pclr o) s = .next t ∧
    let l := s.slot s.cur.cid o.slot
    u = s.modMe (fun c => { c with ports := { c.ports with slots := Map.put c.ports.slots o.slot { Slot.fresh with img := l.img, bound := l.bound } } }) ∧
    v = u.modMe (fun c => { c with ports := { c.ports with lpm := v.me.ports.lpm } }) ∧
    (∀ pt, o.lpm = true → l.bound = some pt → ∀ a, Map.find v.me.ports.lpm a =
      if 131072 * pt ≤ a ∧ a < 131072 * pt + 131072 then none else Map.find s.me.ports.lpm a) ∧
    (o.lpm = false ∨ l.bound = none → v.me.ports.lpm = s.me.ports.lpm) ∧ v.Passes t o.st) ∧
  (∀ (o : PrdF) (s : State), s.AtPort [] → s.Here [o.rd] → o.slot < s.me.hdr.slots →
    (∃ t, exec (.prd o) s = .next t ∧ s.GivesVar t o.rd (s.slot s.cur.cid o.slot).result o.st) ∧
    (∃ t, exec (.prdN o) s = .next t ∧ s.GivesVar t o.rd (word (s.slot s.cur.cid o.slot).count) o.st)) ∧
  (∀ (o : PrdCF) (s : State), s.AtPort [o.ra] → s.Here [o.rd] → o.slot < s.me.hdr.slots →
    let l := s.slot s.cur.cid o.slot
    let lane := (s.r o.ra).toNat % 128
    ∃ t, exec (.prdC o) s = .next t ∧ s.GivesVar t o.rd (if lane < l.laneCount then Map.getD l.carried (4 * lane + o.ci) 0 else 0) o.st)

/-- R365-R371: the K instructions. kbw sets the weights WC and WL; kring enters a ring of the launch under its id, or starts a read of its
descriptor on another device; kallred and kbcast start on a ring that the launch holds, with the next bucket numbers; kput starts with a length
of 1 to 2^32. A value out of range, or an id that the launch does not hold, is an illegal instruction, an id of another launch a protection
fault with DETAIL 1. -/
def Obligations.CollectivesStart : Prop :=
  (∀ (o : EReg) (s : State), s.AtK o.sy →
    let v := s.head.a.toNat
    let d := dieAt s.cur.cid
    let good := v / 65536 = 0 ∧ v % 256 ≠ 0 ∧ v / 256 % 256 ≠ 0
    (¬ good → s.me.trap.phase = .none → ∃ t, exec (.kbw o) s = .next t ∧ s.Traps t s.cur.cid false (s.headFrame 3 0 1 0 0)) ∧
    (good → ∃ t, exec (.kbw o) s = .next t ∧ (s.setColl d { s.coll d with wc := v % 256, wl := v / 256 }).EndsAtStart t o.sy 3)) ∧
  (∀ (o : E3) (s : State), s.AtK o.sy → s.me.eng.coll.length < 16 →
    let n := s.head.c.toNat
    (n = 0 ∨ 2 ^ 32 < n → s.me.trap.phase = .none → ∃ t, exec (.kput o) s = .next t ∧ s.Traps t s.cur.cid false (s.headFrame 3 0 1 0 0)) ∧
    (1 ≤ n → n ≤ 2 ^ 32 → ∃ m, exec (.kput o) s = .next (s.joined o.sy m) ∧ m.ent = s.head ∧ m.start = s.clk ∧ m.iter = 0 ∧ m.status = 0 ∧
      m.ended = false ∧ m.die = dieAt s.cur.cid)) ∧
  (∀ (i : Instr) (o : KarF) (s : State), i = .kallred o ∨ i = .kbcast o → s.AtK o.sy → s.me.eng.coll.length < 16 →
    let d := dieAt s.cur.cid
    let n := s.head.b.toNat
    let mine := fun r : Machine.Ring => Map.find (s.coll d).rings o.g = some r ∧ r.launch = s.me.launch
    (n = 0 ∨ 1024 < n ∨ s.head.a.toNat % 8 ≠ 0 ∨ (¬ ∃ r, mine r) → s.me.trap.phase = .none →
      ∃ t, exec i s = .next t ∧ s.Traps t s.cur.cid false (s.headFrame 3 0 1 0 0)) ∧
    (∀ r, mine r → 1 ≤ n → n ≤ 1024 → s.head.a.toNat % 8 = 0 → ∃ m,
      exec i s = .next ((s.setColl d { s.coll d with rings := Map.put (s.coll d).rings o.g { r with next := r.next + n } }).joined o.sy m) ∧
      m.ent = s.head ∧ m.start = s.clk ∧ m.iter = 0 ∧ m.status = 0 ∧ m.ended = false ∧ m.die = d ∧ m.numBase = r.next ∧ m.nextBucket = 0 ∧
      m.buckets = [])) ∧
  (∀ (o : EIdx) (s : State), s.AtK o.sy → s.me.eng.coll.length < 16 → s.kringFree s.cur.cid o.g = true →
    let d := dieAt s.cur.cid
    let m := s.kCmd
    let l := s.me.launch
    let own := s.net.devid + 128 * d
    (∀ c x fa, s.kRead s.cur.cid m s.head.a 8 = .error (.fault c x fa) → s.me.trap.phase = .none →
      ∃ t, exec (.kring o) s = .next t ∧ s.Traps t s.cur.cid false (s.headFrame 3 0 c x fa)) ∧
    (∀ dev pa key va, s.kRead s.cur.cid m s.head.a 8 = .error (.need dev pa key va) → exec (.kring o) s = .next (s.joined o.sy m)) ∧
    (∀ (n : Nat) (bs : List Byte) (e e' : Fl), s.kRead s.cur.cid m s.head.a 8 = .ok (BitVec.ofNat 8 n :: List.replicate 7 0, e) → 2 ≤ n → n ≤ 128 →
      s.kRead s.cur.cid m (s.head.a + 8) n = .ok (bs, e') →
      let ms := bs.map (fun x => if x.toNat % 128 = s.net.devid then own else x.toNat)
      (ms.Nodup ∧ own ∈ ms ∧ (∀ x ∈ ms, x % 128 = s.net.devid ∨ (Map.getD s.net.routes (x % 128) .fresh).v = true) →
        (∀ r, Map.find (s.coll d).rings m.ring = some r → r.launch ≠ l → s.me.trap.phase = .none →
          ∃ t, exec (.kring o) s = .next t ∧ s.Traps t s.cur.cid false (s.headFrame 3 0 7 1 0)) ∧
        ((∀ r, Map.find (s.coll d).rings m.ring = some r → r.launch = l) → ∃ t k, exec (.kring o) s = .next t ∧
          (s.setColl d { s.coll d with rings := Map.put (s.coll d).rings m.ring { launch := l, members := ms, next := k } }).EndsAtStart t o.sy 3 ∧
          (∀ r, Map.find (s.coll d).rings m.ring = some r → k = r.next) ∧ (Map.find (s.coll d).rings m.ring = none → k = 0))) ∧
      (¬ (ms.Nodup ∧ own ∈ ms ∧ ∀ x ∈ ms, x % 128 = s.net.devid ∨ (Map.getD s.net.routes (x % 128) .fresh).v = true) → s.me.trap.phase = .none →
        ∃ t, exec (.kring o) s = .next t ∧ s.Traps t s.cur.cid false (s.headFrame 3 0 1 0 0))))

/-- R127, R137, R138, R173, R177, R182, R325, R369, R371, R388, R430, R433: the engines' own steps. A fault of the next iteration stops the command there,
its pre-translations gone, and is raised with its unit's frame; an iteration of mzero zeroes one tile and no other; the oldest write of a path's queue
is performed, byte by byte, or sent as one granule, and a unit that it completes is poisoned no longer; a command whose iterations are done signals
with its status word and frees its unit, a kput with a visibility set after its acknowledgements; a bucket starts once its ready word is at
least RVAL; a segment for no running command stays with the engine, and one of a reduction goes on, folded, to the next member. -/
def Obligations.EngineEvents : Prop :=
  (∀ (s : State) (cid : Nat) (u : EUnit), (∀ m, s.cmd cid u = some m → s.mayStep cid u m = false) →
    exec (.engineIterationBoundary cid u) s = .next s) ∧
  (∀ (s : State) (cid : Nat) (u : EUnit) (m : Cmd) (c d : Nat) (fa : Word), s.cmd cid u = some m → s.mayStep cid u m = true →
    (∀ f ∈ (s.ctx cid).eng.wfails, f.path = unitPath u → f.seq ≠ m.ent.seq) → (u = .array → m.op = 0x0B → m.tab ≠ none) →
    (∀ n, u ≠ .coll n) →
    let x := s.preTranslate cid u m
    let w := x.1.setCmd cid u x.2
    w.iterate cid u x.2 = .error (.fault c d fa) → (s.ctx cid).trap.phase = .none →
    ∃ t, exec (.engineIterationBoundary cid u) s = .next t ∧
      (w.setCmd cid u { x.2 with efault := some ⟨c, d, fa⟩, pre := [] }).Traps t cid false (m.frame u c d fa)) ∧
  (∀ (s : State) (cid : Nat) (m : Cmd), s.cmd cid .drainU = some m → m.op = 4 → s.mayStep cid .drainU m = true → m.pfault = none → m.wr = [] →
    (∀ f ∈ (s.ctx cid).eng.wfails, f.path = 1 → f.seq ≠ m.ent.seq) → ∃ t n, exec (.engineIterationBoundary cid .drainU) s = .next t ∧
      (t.ctx cid).eng.drain = some n ∧ n.iter = m.iter + 1 ∧ (n.ended = true ↔ m.ent.b.toNat ≤ m.iter + 1) ∧ n.ent = m.ent ∧ n.status = m.status ∧
      (t.ctx cid).parts.tileZero (m.ent.a.toNat + m.iter) ∧
      (∀ k, k / 1536 ≠ m.ent.a.toNat + m.iter → Map.find (t.ctx cid).parts.acc k = Map.find (s.ctx cid).parts.acc k) ∧
      (t.ctx cid).sc = (s.ctx cid).sc ∧ (t.ctx cid).sems = (s.ctx cid).sems ∧ (∀ c, c ≠ cid → t.ctx c = s.ctx c) ∧ t.outside = s.outside) ∧
  (∀ (s : State) (cid path : Nat), Map.getD (s.ctx cid).eng.wq path [] = [] → exec (.engineWritePerform cid path) s = .next s) ∧
  (∀ (s : State) (cid path : Nat) (e : WEnt) (es : List WEnt), Map.getD (s.ctx cid).eng.wq path [] = e :: es → e.clean = none →
    let u := s.modCtx cid (fun c => { c with eng := { c.eng with wq := Map.put c.eng.wq path es } })
    ∃ v, exec (.engineWritePerform cid path) s = .next { v with mem := { v.mem with poison := v.mem.poison.filter (fun k => !e.heals.contains k) } } ∧
      ((∀ x ∈ e.parts, x.1.dev? = none) → v = e.parts.foldl (fun x p => x.wr (x.ctx cid).launch p.1 p.2) u) ∧
      (∀ dev pa key, e.dev? = some (dev, pa, key) → ∃ bs, v = u.send dev key (.granule (pa / 32 * 32) bs) ⟨cid, dev, .engineStore path e.u e.seq, e.va, 0, e.seq, 0⟩ ∧
        ∀ x, x ∈ bs ↔ ∃ p ∈ e.parts, ∃ d k, p.1 = .remote d x.1 k ∧ p.2 = x.2)) ∧
  (∀ (s : State) (cid : Nat) (u : EUnit) (m : Cmd), s.cmd cid u = some m → m.ended = true → s.portRun = none → m.efault = none → m.pfault = none →
    (s.ctx cid).trap.phase ≠ .frozen → (∀ p ∈ m.points u, s.program cid p = none) → (∀ n x, (syncOf m.ent.w).sig = some (n, x) → x = 0) →
    ∃ t v, exec (.engineCommandComplete cid u) s = .next t ∧
      s.Signals v cid (syncOf m.ent.w) m.status (fun k => .of 0x0C k (unitPath u + 1) 0 m.ent.w m.ent.addr) ∧
      t = v.modCtx cid (fun c => { c with eng := { c.eng.dropCmd u with doneAt := some s.clk } }) ∧
      (∀ n, u = .coll n → m.op = 4 → s.putPending cid m.ent.seq = false → exec (.kputAck cid n) s = .next t)) ∧
  (∀ (s : State) (cid n : Nat) (m : Cmd), s.cmd cid (.coll n) = some m → s.putPending cid m.ent.seq = true → exec (.kputAck cid n) s = .next s) ∧
  (∀ (s : State) (cid n : Nat) (m : Cmd) (r : Machine.Ring), s.cmd cid (.coll n) = some m → m.op = 2 → m.turn = true → s.mayStep cid (.coll n) m = true →
    (∀ f ∈ (s.ctx cid).eng.wfails, f.path = 3 → f.seq ≠ m.ent.seq) → Map.find (s.coll m.die).rings m.ring = some r →
    let a := m.ent.a + word (64 * m.nextBucket)
    (∀ c d fa, s.kRead cid m a 64 = .error (.fault c d fa) → (s.ctx cid).trap.phase = .none → ∃ t, exec (.readyWordPoll cid n) s = .next t ∧
      (s.setCmd cid (.coll n) { m with efault := some ⟨c, d, fa⟩, pre := [] }).Traps t cid false (m.frame (.coll n) c d fa)) ∧
    (∀ bs e rw e', s.kRead cid m a 64 = .ok (bs, e) → s.entryOk (chunksOf 8 bs) false r.members.length = true →
      let at_ := (chunksOf 8 bs)[2]?.getD 0
      let base := (chunksOf 8 bs)[0]?.getD 0
      let len := ((chunksOf 8 bs)[1]?.getD 0).toNat
      s.kRead cid m at_ 8 = .ok (rw, e') →
      ((leWord rw).toNat < ((chunksOf 8 bs)[3]?.getD 0).toNat → exec (.readyWordPoll cid n) s = .next (s.setCmd cid (.coll n) { m with rgot := [] })) ∧
      (∀ own f rs, ((chunksOf 8 bs)[3]?.getD 0).toNat ≤ (leWord rw).toNat →
        rs = [Range.mk .eread 0 a.toNat 64, ⟨.eread, 0, at_.toNat, 8⟩, ⟨.eread, 0, base.toNat, len⟩] → s.touch cid m.pre rs = .ok () →
        s.kRead cid m base len = .ok (own, f) → ∃ b k, exec (.readyWordPoll cid n) s = .next (((s.noteRanges cid rs).setCmd cid (.coll n) k).firstSends b m.ring false) ∧
          k.buckets = m.buckets ++ [b] ∧ k.nextBucket = m.nextBucket + 1 ∧ k.ent = m.ent ∧ b.num = m.numBase + m.nextBucket ∧ b.own = own ∧
          b.words = chunksOf 8 bs ∧ b.ring = r.members ∧ b.got = 0))) ∧
  (∀ (s : State) (die : Nat) (x : Segment),
    ((∀ c ∈ s.ctxs, ∀ m ∈ c.2.eng.coll, m.die = die → m.ring = x.ring → ∀ b ∈ m.buckets, b.num ≠ x.bucket) →
      exec (.segmentArrival die x) s = .next (s.setColl die { s.coll die with early := (s.coll die).early ++ [x] })) ∧
    (∀ cid n m b, s.segTarget die x = some (cid, n, m) → s.mayStep cid (.coll n) m = true → m.op = 2 → (s.coll die).early = [] →
      (∀ f ∈ (s.ctx cid).eng.wfails, f.path = 3 → f.seq ≠ m.ent.seq) → (∀ y ∈ m.buckets, y.got < y.len) →
      m.buckets.find? (fun y => y.num = x.bucket) = some b → x.stepNo + 1 < b.n →
      let next := (b.ring[(b.pos + 1) % b.n]?).getD 0
      (next % 128 = s.net.devid ∨ (Map.getD s.net.routes (next % 128) .fresh).v = true) →
      ∃ t fs, exec (.segmentArrival die x) s = .next t ∧
        t.net.sent = s.net.sent ++ [.seg (next % 128) (next / 128) ⟨m.ring, b.pos, b.num, x.stepNo + 1, x.off, (b.foldPiece x.off x.bytes).1, fs⟩] ∧
        (t.coll die).early = [] ∧ t.mem = s.mem ∧ t.sched = s.sched ∧ t.host = s.host ∧
        ∀ c, (t.ctx c).sc = (s.ctx c).sc ∧ (t.ctx c).sems = (s.ctx c).sems ∧ (t.ctx c).parts = (s.ctx c).parts))

/-- R266, R275, R412, R420, R421, R422: the arithmetic of a port program on a running lane. fadd, fsub, fmul and ffma round their exact result once
and raise its flags; the other float ops give what the scalar ones give, fex2 and flg2 the powers and logarithms of two; the integer ops work at
the width of W with an immediate where it is set; icmp and fcmp give 0 for a code of no condition; cvt and qsr convert, with a draw where they
round stochastically, and a reserved type is port fault 4; rnd gives the lane's generator state and advances it. -/
def Obligations.PortArithmetic : Prop :=
  (∀ row ∈ portFloatRows, ∀ (o : PortF) (s : State) (r : PortRun), s.portRun = some r →
    let fz := decide (o.m % 2 = 1)
    let x := row.2 (f32Of fz (s.laneReg r o.a)) (f32Of fz (s.laneReg r o.b)) (f32Of fz (s.laneReg r o.c))
    ∃ t, exec (row.1 o) s = .next t ∧ s.LaneGives t r o.d (f32Out fz x.1) ((FFmt.f32.arith fz x.1).2 ||| x.2)) ∧
  (∀ (o : PortF) (s : State) (r : PortRun), s.portRun = some r →
    let fz := decide (o.m % 2 = 1)
    let a := s.laneReg r o.a
    let b := s.laneReg r o.b
    let x := f32Of fz a
    (∃ t, exec (.portFmin o) s = .next t ∧ s.LaneGives t r o.d (f32MinMax false fz a b).1 (f32MinMax false fz a b).2) ∧
    (∃ t, exec (.portFmax o) s = .next t ∧ s.LaneGives t r o.d (f32MinMax true fz a b).1 (f32MinMax true fz a b).2) ∧
    (∃ t, exec (.portFrcp o) s = .next t ∧ s.LaneGives t r o.d (f32Rcp fz a).1 (f32Rcp fz a).2) ∧
    (∃ t, exec (.portFrsq o) s = .next t ∧ s.LaneGives t r o.d (f32Rsq fz a).1 (f32Rsq fz a).2) ∧
    (∃ t, exec (.portFabs o) s = .next t ∧ s.LaneGives t r o.d (word (a.toNat % 2 ^ 31)) 0) ∧
    (∃ t, exec (.portFneg o) s = .next t ∧ s.LaneGives t r o.d (word ((a.toNat + 2 ^ 31) % 2 ^ 32)) 0) ∧
    (∃ t v, exec (.portFcmp o) s = .next t ∧ s.LaneGives t r o.d v 0 ∧ (6 ≤ o.x → v = 0) ∧
      ∀ c, [Cond.eq, .ne, .lt, .le, .gt, .ge][o.x]? = some c → v = if f32Cmp c fz a b then 1 else 0) ∧
    (∃ t v fl, exec (.portFex2 o) s = .next t ∧ s.LaneGives t r o.d v fl ∧ (x = .nan → v = word FFmt.f32.canon) ∧
      (x = .inf false → v = f32Out fz (.inf false)) ∧ (x = .inf true → v = 0) ∧ (∀ n e, x = .fin n 0 e → v = f32Out fz (.fin false 1 0)) ∧
      (∀ n m (k : Nat), x = .fin n m (k : Int) → m ≠ 0 → m * 2 ^ k ≤ 4096 → v = f32Out fz (.fin false 1 (if n then -((m * 2 ^ k : Nat) : Int) else (m * 2 ^ k : Nat))))) ∧
    (∃ t v fl, exec (.portFlg2 o) s = .next t ∧ s.LaneGives t r o.d v fl ∧
      (x = .nan ∨ x = .inf true ∨ (∃ m e, x = .fin true m e ∧ m ≠ 0) → v = word FFmt.f32.canon) ∧ (x = .inf false → v = f32Out fz (.inf false)) ∧
      (∀ n e, x = .fin n 0 e → v = f32Out fz (.inf true)) ∧ (∀ (k : Nat) e, x = .fin false (2 ^ k) e → v = f32Out fz (.ofInt (e + k))))) ∧
  (∀ row ∈ portIntRows, ∀ (o : PortF) (s : State) (r : PortRun), s.portRun = some r →
    let b := if o.m / 2 % 2 = 1 then (BitVec.ofNat 6 o.x).signExtend 64 else s.laneReg r o.b
    ∃ t, exec (row.1 o) s = .next t ∧ s.LaneGives t r o.d (row.2 (if o.m % 2 = 1 then .w else .d) (s.laneReg r o.a) b) 0) ∧
  (∀ (o : PortF) (s : State) (r : PortRun), s.portRun = some r →
    let a := s.laneReg r o.a
    let b := s.laneReg r o.b
    let z : Width := if o.m % 2 = 1 then .w else .d
    (∃ t v, exec (.portIcmp o) s = .next t ∧ s.LaneGives t r o.d v 0 ∧ (10 ≤ o.x → v = 0) ∧
      ∀ c, [Cond.eq, .ne, .lt, .le, .gt, .ge, .ltu, .leu, .gtu, .geu][o.x]? = some c → (c.meets z a b → v = 1) ∧ (¬ c.meets z a b → v = 0)) ∧
    (∃ t, exec (.portSel o) s = .next t ∧ s.LaneGives t r o.d (if a ≠ 0 then b else s.laneReg r o.c) 0) ∧
    (∃ t u : State, exec (.portRnd o) s = .next t ∧
      u = s.modCtx r.cid (fun c => { c with sys := { c.sys with seeds := Map.put c.sys.seeds (128 * r.point + r.lane) (lfsrNext (c.sys.seed r.point r.lane)) } }) ∧
      u.LaneGives t r o.d (word ((s.ctx r.cid).sys.seed r.point r.lane).toNat) 0) ∧
    (∀ draw u, (draw, u) = (if o.x / 16 % 2 = 1 then (some ((s.ctx r.cid).sys.seed r.point r.lane).toNat, s.modCtx r.cid (fun c => { c with sys :=
          { c.sys with seeds := Map.put c.sys.seeds (128 * r.point + r.lane) (lfsrNext (c.sys.seed r.point r.lane)) } })) else (none, s)) →
      (∀ src dst, tyOf o.m = some src → tyOf (o.x % 16) = some dst →
        let v := convert dst ⟨draw, if o.x / 32 % 2 = 1 then some (s.laneReg r o.c) else none, false⟩ (src.value false a)
        ∃ t, exec (.portCvt o) s = .next t ∧ u.LaneGives t r o.d (dst.hold v.1) v.2) ∧
      (∀ dst, tyOf (o.x % 16) = some dst →
        let fz := decide (o.m % 2 = 1)
        let x : Val := if o.m / 2 % 2 = 1 then .ofInt a.toInt else f32Of fz a
        let p := x.mul (f32Of fz b)
        let y := p.1.add (f32Of fz (s.laneReg r o.c))
        let v := convert dst ⟨draw, none, fz⟩ y.1
        ∃ t, exec (.portQsr o) s = .next t ∧ u.LaneGives t r o.d (dst.hold v.1) (v.2 ||| (p.2 ||| y.2)))) ∧
    (tyOf o.m = none ∨ tyOf (o.x % 16) = none → ∃ t, exec (.portCvt o) s = .next t ∧ s.LaneFaults t r 4 (some o.d)) ∧
    (tyOf (o.x % 16) = none → ∃ t, exec (.portQsr o) s = .next t ∧ s.LaneFaults t r 4 (some o.d)))

/-- R406, R408, R410, R411, R412, R423, R424, R425: the data ops of a port program on a running lane. get reads an input, out gives an output, drop
drops outputs, par and parx read parameters, cget, cset and prev the carried registers and the history, lut the table, ldl and stl the lane's
private memory (misaligned: port fault 3), flag raises a flag, hint does nothing; in an epilogue get and prev give zero and out and drop do
nothing. -/
def Obligations.PortData : Prop :=
  ∀ (o : PortF) (s : State) (r : PortRun), s.portRun = some r →
    let a := s.laneReg r o.a
    let b := s.laneReg r o.b
    let l := s.slot r.cid r.slot
    (∃ t, exec (.portGet o) s = .next t ∧ s.LaneGives t r o.d (if r.epi then 0 else (r.ins[o.x % 4]?).getD 0) 0) ∧
    (∃ t, exec (.portOut o) s = .next t ∧ s.LaneGoes t r { r with pc := r.pc + 1, outs := if r.epi then r.outs else Map.put r.outs (o.x % 4) a } id) ∧
    (∃ t, exec (.portDrop o) s = .next t ∧ s.LaneGoes t r { r with pc := r.pc + 1, drops := if r.epi = true ∨ a = 0 then r.drops
      else r.drops ||| (if o.x % 16 = 0 then 15 else BitVec.ofNat 4 o.x) } id) ∧
    (∃ t, exec (.portPar o) s = .next t ∧ s.LaneGives t r o.d (Map.getD (s.ctx r.cid).ports.par (o.x % 16) 0) 0) ∧
    (∃ t, exec (.portParx o) s = .next t ∧ s.LaneGives t r o.d (Map.getD (s.ctx r.cid).ports.par (a.toNat % 16) 0) 0) ∧
    (∃ t, exec (.portCget o) s = .next t ∧ s.LaneGives t r o.d
      (if r.epi then Map.getD r.atEnd (4 * (a.toNat % 128 % l.laneCount) + o.x % 4) 0 else Map.getD l.carried (4 * r.lane + o.x % 4) 0) 0) ∧
    (∃ t, exec (.portCset o) s = .next t ∧ s.LaneGoes t r { r with pc := r.pc + 1 }
      (fun m => if a = 0 then m else Map.put m (4 * r.lane + o.x % 4) b)) ∧
    (∃ t v, exec (.portPrev o) s = .next t ∧ s.LaneGives t r o.d v 0 ∧ (r.epi = true → v = 0) ∧
      (r.epi = false → (∀ h ∈ l.prev, h.1 + min (o.x % 4 + 1) 3 ≠ l.base + r.ix) → v = Map.getD (s.ctx r.cid).ports.par 15 0) ∧
      (r.epi = false → ∀ h, l.prev.find? (fun h => h.1 + min (o.x % 4 + 1) 3 = l.base + r.ix) = some h → v = h.2.2)) ∧
    (∃ t v fl, exec (.portLut o) s = .next t ∧ s.LaneGives t r o.d v fl ∧
      let i : Int := if o.m / 2 % 2 = 1 then max 0 (min a.toInt (l.tsz - 1)) else (a.toNat % 128 : Nat)
      (l.tsz ≤ i → v = 0 ∧ fl = 2 ^ 9) ∧
      (i < l.tsz → 0 < l.tsz → fl = 0 ∧ v = if o.m % 2 = 1 then (BitVec.ofNat 32 (l.entry i.toNat)).signExtend 64 else word (l.entry i.toNat))) ∧
    (let n := 2 ^ (o.m % 4)
     let at_ := (a.toNat % 1024 + o.x) % 1024
     let base := 131072 * r.point + 1024 * r.lane + at_
     (at_ % n ≠ 0 → (∃ t, exec (.portLdl o) s = .next t ∧ s.LaneFaults t r 3 (some o.d)) ∧ (∃ t, exec (.portStl o) s = .next t ∧ s.LaneFaults t r 3 none)) ∧
     (at_ % n = 0 →
       (∃ t, exec (.portLdl o) s = .next t ∧ s.LaneGives t r o.d (loaded (decide (o.m / 4 % 2 = 1)) (Mem.read (s.ctx r.cid).ports.lpm base n)) 0) ∧
       (∃ t u : State, exec (.portStl o) s = .next t ∧ u = s.modCtx r.cid (fun c => { c with ports := { c.ports with
          lpm := Mem.write c.ports.lpm base (leBytes n b.toNat), lpmW := insertNat r.point c.ports.lpmW } }) ∧
        u.LaneGoes t r { r with pc := r.pc + 1 } id))) ∧
    (∃ t, exec (.portFlag o) s = .next t ∧ s.LaneGoes t r { r with pc := r.pc + 1, flags := r.flags |||
      (if a ≠ 0 ∧ 1 ≤ o.x % 16 ∧ o.x % 16 ≤ 14 then BitVec.ofNat 15 (2 ^ (o.x % 16)) else 0) } id) ∧
    (∀ n, ∃ t, exec (.portHint n o) s = .next t ∧ s.LaneGoes t r { r with pc := r.pc + 1 } id)

/-- R26, R33, R38, R41, R43, R44, R45, R46, R49: the registers that a host port reads and writes. A read of MGMT.OWN gives its fields and
grants it where it is free; its owner releases it by writing 1; any write of MGMT.HB by the owner restarts the 10 s; each millisecond tick takes
one off, and at 0 the ownership lapses. A write to the management window from a port that does not own it changes at most PWR.TEMP.TRIP; the
owner's writes act by register; the launch window and the mailbox of BAR2 take writes without ownership. An aligned read of 4 bytes of the window
gives either half of its register; BAR4 takes writes only while CXL is negotiated (its plain storage is the model's, log entry 48). -/
def Obligations.ManagementRegisters : Prop :=
  ∀ s : State,
    (exec .mgmtOwnRead s = .next { s with
      host := { s.host with poison := false, rdata := leBytes 8 (if s.mgmt.held then 1 + 2 * s.mgmt.owner + (if s.mgmt.owner = s.cur.port then 4 else 0) else 2 * s.mgmt.owner) }
      mgmt := if s.mgmt.held then s.mgmt else { s.mgmt with held := true, owner := s.cur.port, leftMs := 10000 } }) ∧
    (∀ port v, exec (.mgmtOwnWrite port v) s = .next (if s.Owner port ∧ v = 1 then { s with mgmt := { s.mgmt with held := false } } else s)) ∧
    (exec .mgmtHbWrite s = .next (if s.Owner s.cur.port then { s with mgmt := { s.mgmt with leftMs := 10000 } } else s)) ∧
    (s.clk < (s.mgmt.ticks + 1) * msClk → exec .ownershipLapse s = .next s) ∧
    ((s.mgmt.ticks + 1) * msClk ≤ s.clk → exec .ownershipLapse s = .next { s with
      mgmt := { s.mgmt with ticks := s.mgmt.ticks + 1, leftMs := if s.mgmt.held then s.mgmt.leftMs - 1 else s.mgmt.leftMs,
                            held := if s.mgmt.leftMs - 1 = 0 then false else s.mgmt.held } }) ∧
    (∀ port off, off % 8 = 0 → s.mgmtRead port off 8 = s.mgmtWord port off ∧
      s.mgmtRead port off 4 = word ((s.mgmtWord port off).toNat % 2 ^ 32) ∧ s.mgmtRead port (off + 4) 4 = word ((s.mgmtWord port off).toNat / 2 ^ 32)) ∧
    (∀ port bar off size v, bar ≠ 0 → bar ≠ 2 → bar ≠ 4 → exec (.registerWrite port bar off size v) s = .next s) ∧
    (∀ port off size v, exec (.registerWrite port 4 off size v) s = .next (if (s.hport port).cxl = true ∧ size ≤ 8 ∧ off + size ≤ 65536 then
      s.withPortSt port (fun p => { p with bar4 := Mem.write p.bar4 off (leBytes size v.toNat) }) else s)) ∧
    (∀ port off size v, size ≠ 8 ∨ off % 8 ≠ 0 → exec (.registerWrite port 0 off size v) s = .next s) ∧
    (∀ port v, exec (.registerWrite port 0 0x100 8 v) s = exec (.mgmtOwnWrite port v) s) ∧
    (∀ port v, exec (.registerWrite port 0 0x108 8 v) s = .next (if s.Owner port then { s with mgmt := { s.mgmt with leftMs := 10000 } } else s)) ∧
    (∀ port v, exec (.registerWrite port 0 0x2018 8 v) s = .next (if v.getLsbD 9 then { s with power := { s.power with trip := false } } else s)) ∧
    (∀ port off v, ¬ s.Owner port → off ≠ 0x2018 → exec (.registerWrite port 0 off 8 v) s = .next s) ∧
    (∀ port v, s.Owner port →
      exec (.registerWrite port 0 0x208 8 v) s = .next (if v.getLsbD 31 then { s with boot := { s.boot with whyV := false } } else s) ∧
      exec (.registerWrite port 0 0x300 8 v) s = .next (if ∃ x ∈ s.net.links, x.2.state = 1 ∨ x.2.state = 2 then s
        else { s with net := { s.net with devid := v.toNat % 128 } }) ∧
      exec (.registerWrite port 0 0x2000 8 v) s = .next { s with power := { s.power with cap := min 3200 (max 1000 (v.toNat % 4096)) } } ∧
      (∀ off, 0x1000000 ≤ off → off < 0x3000000 → off % 8 = 0 → exec (.registerWrite port 0 off 8 v) s = .next { s with
        boot := { s.boot with staging := Mem.write s.boot.staging (off - 0x1000000) (leBytes 8 v.toNat) } })) ∧
    (∀ port v, s.Owner port → s.cur.port = port →
      (v = 8 → exec (.registerWrite port 0 0x218 8 v) s = exec .bootCommit s) ∧ (v = 4 → exec (.registerWrite port 0 0x218 8 v) s = exec .bootClrt s) ∧
      (v = 2 → exec (.registerWrite port 0 0x218 8 v) s = exec .bootFmin s) ∧ (v = 1 → exec (.registerWrite port 0 0x218 8 v) s = exec .bootRst s)) ∧
    (∀ port off size v, size = 0 ∨ 8 < size → exec (.registerWrite port 2 off size v) s = .next s) ∧
    (∀ port off size v, 1 ≤ size → size ≤ 8 →
      (off + size ≤ 0x1000 → exec (.registerWrite port 2 off size v) s = .next (s.withPortSt port (fun p => { p with ring := Mem.write p.ring off (leBytes size v.toNat) }))) ∧
      (0x2000 ≤ off → off + size ≤ 0x3000 → exec (.registerWrite port 2 off size v) s = .next (if (s.hport port).busy then s
        else s.withPortSt port (fun p => { p with mbuf := Mem.write p.mbuf (off - 0x2000) (leBytes size v.toNat) }))) ∧
      (0x4000 ≤ off → off + size ≤ 0x4400 → exec (.registerWrite port 2 off size v) s = .next (s.withPortSt port (fun p =>
        { p with msixTab := Mem.write p.msixTab (off - 0x4000) (leBytes size v.toNat) })))) ∧
    (∀ port v,
      exec (.registerWrite port 2 0x1000 8 v) s = exec (.lwProdWrite port v) s ∧
      exec (.registerWrite port 2 0x1010 8 v) s = .next (s.withPortSt port (fun p =>
        { p with misal := p.misal && !v.getLsbD 1, ovr := p.ovr && !v.getLsbD 0 })) ∧
      exec (.registerWrite port 2 0x3000 8 v) s = .next (if v.getLsbD 0 = true ∧ (s.hport port).busy = false then
        s.withPortSt port (fun p => { p with busy := true, done := false, cmd := p.mbuf, owned := decide (s.Owner port), ans := none, xdel := none }) else s) ∧
      exec (.registerWrite port 2 0x3008 8 v) s = .next (s.withPortSt port (fun p => { p with done := p.done && !v.getLsbD 1 })))

/-- R45, R46, R47: a mailbox command acts only while it runs; with a reserved bit of its opcode word set it ends with BADCMD, and one that needs
ownership ends with NOTOWN where its port did not have it at MB.DOOR, both with no other effect. MAILBOX_COMMAND_END publishes the answer, that of
XDEL once the accesses of its range are completed. R48, R53, R58, R59, R60, R61, R64, R65,
R35: what each command does once it runs well. -/
def Obligations.MailboxCommands : Prop :=
  (∀ row ∈ mailRows, ∀ s : State,
    (¬ s.Runs row.2.1 → exec row.1 s = .next s) ∧
    (s.Runs row.2.1 → 256 ≤ ((s.hport s.cur.port).arg 0).toNat → exec row.1 s = .next (s.answered 1 [])) ∧
    (s.Runs row.2.1 → ((s.hport s.cur.port).arg 0).toNat < 256 → row.2.2 = true → (s.hport s.cur.port).owned = false → exec row.1 s = .next (s.answered 2 []))) ∧
  (∀ s : State,
    let p := s.hport s.cur.port
    let a := (p.arg 8).toNat
    (s.RunsWell 1 true →
      (a = 0 ∨ 511 < a → exec .keyld s = .next (s.answered 3 [])) ∧
      (1 ≤ a → a ≤ 511 → Config.keyUnwrap (Mem.read p.cmd 0x40 72) = none → exec .keyld s = .next (s.answered 4 [])) ∧
      (∀ k, 1 ≤ a → a ≤ 511 → Config.keyUnwrap (Mem.read p.cmd 0x40 72) = some k →
        exec .keyld s = .next ({ s with mem := { s.mem with keys := Map.put s.mem.keys a (.loaded k) } }.answered 0 []))) ∧
    (s.RunsWell 2 true →
      (a = 0 ∨ 511 < a → exec .keyclr s = .next (s.answered 3 [])) ∧
      (1 ≤ a → a ≤ 511 → Map.find s.mem.keys a = none → exec .keyclr s = .next (s.answered 7 [])) ∧
      (∀ k, 1 ≤ a → a ≤ 511 → Map.find s.mem.keys a = some k →
        exec .keyclr s = .next ({ s with mem := { s.mem with keys := Map.del s.mem.keys a } }.answered 0 []))) ∧
    (s.RunsWell 3 true →
      let b := (p.arg 0x10).toNat
      (7 < a ∨ 511 < b → exec .hkey s = .next (s.answered 3 [])) ∧
      (a ≤ 7 → b ≤ 511 → b ≠ 0 → Map.find s.mem.keys b = none → exec .hkey s = .next (s.answered 7 [])) ∧
      (a ≤ 7 → b ≤ 511 → (b = 0 ∨ Map.find s.mem.keys b ≠ none) →
        exec .hkey s = .next ((s.withPortSt s.cur.port (fun q => { q with hdm := Map.put q.hdm a b })).answered 0 []))) ∧
    (s.RunsWell 4 true →
      (7 < a → exec .codekey s = .next (s.answered 3 [])) ∧
      (a ≤ 7 → exec .codekey s = .next ({ s with host := { s.host with codeKeys := Map.put s.host.codeKeys a (Mem.read p.cmd 0x40 388) } }.answered 0 []))) ∧
    (s.RunsWell 0x11 false →
      (65536 ≤ a → exec .coderel s = .next (s.answered 3 [])) ∧
      (a < 65536 → Map.find s.host.objs a = none → exec .coderel s = .next (s.answered 7 [])) ∧
      (∀ o, a < 65536 → Map.find s.host.objs a = some o →
        let used := ∃ x ∈ s.sched.store, o.base ≤ x.2.record.code ∧ x.2.record.code < o.base + 65536 * o.pages
        (used → exec .coderel s = .next (s.answered 5 [])) ∧
        (¬ used → exec .coderel s = .next ({ s with host := { s.host with objs := Map.del s.host.objs a } }.answered 0 [])))) ∧
    (s.RunsWell 0x12 false →
      (65536 ≤ a → exec .codest s = .next (s.answered 3 [])) ∧
      (a < 65536 → Map.find s.host.objs a = none → exec .codest s = .next (s.answered 7 [])) ∧
      (∀ o, a < 65536 → Map.find s.host.objs a = some o →
        exec .codest s = .next (s.answered 0 [if o.revoked then 1 else 0, word o.loaded.length]))) ∧
    (s.RunsWell 0x30 false →
      (a % 64 ≠ 0 → exec .attest s = .next (s.answered 3 [])) ∧
      (a % 64 = 0 → ∃ r rest, r = Mem.read p.cmd 0x40 32 ++ leBytes 48 (Config.sha384 (Config.imgSigned s.boot.running)).toNat ++
          leBytes 8 (s.variant.caps 0).toNat ++ leBytes 8 s.boot.stat.toNat ++ leBytes 8 s.net.devid ++ leBytes 8 0 ∧
        exec .attest s = .next ({ s with host := { s.host with mem := Mem.write s.host.mem (hostAddr s.cur.port a) (r ++ rest) } }.answered 0 []))) ∧
    (s.RunsWell 0x40 false → exec .abort s = .next
      ((((s.sched.launches.filter (fun x => x.2.port == s.cur.port && x.2.tag == p.arg 8 && !x.2.done)).map Prod.fst).foldl (fun t l => t.abortLaunch l 4) s).done
        s.cur.port [word ((s.sched.launches.filter (fun x => x.2.port == s.cur.port && x.2.tag == p.arg 8 && !x.2.done)).map Prod.fst).length]))) ∧
  (∀ s : State,
    let p := s.hport s.cur.port
    s.RunsWell 0x20 false →
      let bus := (p.arg 8).toNat
      let len := (p.arg 0x10).toNat
      let fl := p.arg 0x18
      let bad := bus % 65536 ≠ 0 ∨ len % 65536 ≠ 0 ∨ len = 0 ∨ 2 ^ 40 < len ∨ 4 ≤ fl.toNat
      let free := fun i => Map.find s.host.exports (s.cur.port * 2 ^ 15 + i) = none
      (bad → exec .xreg s = .next (s.answered 3 [])) ∧
      (¬ bad → (∀ i < 256, ¬ free i) → exec .xreg s = .next (s.answered 6 [])) ∧
      (∀ i, ¬ bad → i < 256 → free i → (∀ j < i, ¬ free j) → exec .xreg s = .next ({ s with host := { s.host with
        exports := Map.put s.host.exports (s.cur.port * 2 ^ 15 + i) ⟨s.cur.port, bus, len, fl.getLsbD 0, fl.getLsbD 1⟩ } }.answered 0 [word (s.cur.port * 2 ^ 15 + i)]))) ∧
  (∀ s : State,
    let a := (s.hport s.cur.port).arg 8
    let bad := 65536 ≤ a.toNat ∨ a.toNat / 256 % 128 ≠ 0
    s.RunsWell 0x21 false →
      (bad → exec .xdel s = .next (s.answered 3 [])) ∧
      (¬ bad → Map.find s.host.exports a.toNat = none → exec .xdel s = .next (s.answered 7 [])) ∧
      (∀ x, ¬ bad → Map.find s.host.exports a.toNat = some x → exec .xdel s = .next ((State.withPortSt { s with
        host := { s.host with exports := Map.del s.host.exports a.toNat }
        sched := { s.sched with launches := s.sched.launches.map (fun l : Nat × Launch => (l.1, { l.2 with maps := l.2.maps.filter (fun m => m.exp != a.toNat) })) } }
          s.cur.port (fun q => { q with xdel := some (x.port, x.bus, x.len) })).answered 0 []))) ∧
  (∀ s : State,
    let port := s.cur.port
    let p := s.hport port
    let h := Mem.read s.host.mem (hostAddr port (p.arg 8).toNat) 64
    let n := leNat (sliceB h 8 4)
    let signed := Mem.read s.host.mem (hostAddr port (p.arg 8).toNat) (0x40 + 48 * n)
    let sig := Mem.read s.host.mem (hostAddr port ((p.arg 8).toNat + 0x40 + 48 * n)) 384
    s.RunsWell 0x10 false →
      (2 ≤ (p.arg 0x18).toNat ∨ signedOk h = false → exec .codereg s = .next (s.answered 3 [])) ∧
      ((p.arg 0x18).toNat < 2 → signedOk h = true →
        (Map.find s.host.codeKeys (leNat (sliceB h 6 2)) = none → exec .codereg s = .next (s.answered 4 [])) ∧
        (∀ key, Map.find s.host.codeKeys (leNat (sliceB h 6 2)) = some key →
          (Config.rsaVerify (key.take 384) (key.drop 384) signed sig = false → exec .codereg s = .next (s.answered 4 [])) ∧
          (Config.rsaVerify (key.take 384) (key.drop 384) signed sig = true →
            (1024 ≤ s.host.objs.length ∨ 65536 < s.codePages + n → exec .codereg s = .next (s.answered 6 [])) ∧
            (s.host.objs.length < 1024 → s.codePages + n ≤ 65536 →
              let o := s.newObj port (p.arg 8).toNat (p.arg 0x10).toNat
              let id := freeHandle s.host.objs 0
              let put := fun o : CodeObj => ({ s with host := { s.host with
                objs := Map.put s.host.objs id o, nextBase := s.host.nextBase + 65536 * n } } : State).answered 0 [word id, word s.host.nextBase]
              (p.arg 0x18 = 0 → exec .codereg s = .next (put o)) ∧
              (p.arg 0x18 = 1 → (∃ i < n, o.hashes[i]? ≠ some (Config.sha384 (s.pageBytes o i))) → exec .codereg s = .next (s.answered 4 [])) ∧
              (p.arg 0x18 = 1 → (∀ i < n, o.hashes[i]? = some (Config.sha384 (s.pageBytes o i))) →
                ∃ o', (∀ i < n, i ∈ o'.loaded) ∧ o'.hashes = o.hashes ∧ exec .codereg s = .next (put o'))))))) ∧
  (∀ s : State,
    let p := s.hport s.cur.port
    (p.busy = false → exec .mailboxCommandEnd s = .next s) ∧
    (p.busy = true → p.ans = none → (∃ row ∈ mailRows, row.2.1 = p.op) → exec .mailboxCommandEnd s = .next s) ∧
    (p.busy = true → p.ans = none → (¬ ∃ row ∈ mailRows, row.2.1 = p.op) → exec .mailboxCommandEnd s = .next (s.withPortSt s.cur.port (fun q =>
      { q with busy := false, done := true, err := 1 }))) ∧
    (∀ err res, p.busy = true → p.ans = some (err, res) → (∀ r, p.xdel = some r → s.rangeQuiet r = true) →
      exec .mailboxCommandEnd s = .next (s.withPortSt s.cur.port (fun q => { q with busy := false, done := true, err := err, ans := none, xdel := none, mbuf := Mem.write p.mbuf 0x800 (res.flatMap (fun w => leBytes 8 w.toNat)) }))) ∧
    (∀ err res r, p.busy = true → p.ans = some (err, res) → p.xdel = some r → s.rangeQuiet r = false → exec .mailboxCommandEnd s = .next s))

/-- R27, R28, R29, R30, R32, R33, R34: the boot. What VERIFY finds; a device reset; each stage's end, its failure and the next stage; the watchdogs of
stages 3 to 5 and of LINK; and the bits of BOOT.CTL with the end of a COMMIT. The choice between FETCH and VERIFY for a write that was cut short, and
the byte layout of an image (functions of Config), are the model's (log entries 6 and 18). -/
def Obligations.BootAndReset : Prop :=
  (∀ img fuse,
    let ks := (Config.imgRsaKeyOk img, Config.imgSlhKeyOk img)
    let ss := (Config.imgRsaSigOk img, Config.imgSlhSigOk img)
    (verifyFail img fuse = none ↔ ks = (true, true) ∧ ss = (true, true) ∧ fuse ≤ Config.imgVersion img) ∧
    (ks = (false, true) → verifyFail img fuse = some (4, 0)) ∧ (ks = (true, false) → verifyFail img fuse = some (4, 1)) ∧
    (ks = (false, false) → verifyFail img fuse = some (4, 2)) ∧
    (ks = (true, true) → ss = (false, true) → verifyFail img fuse = some (5, 0)) ∧ (ks = (true, true) → ss = (true, false) → verifyFail img fuse = some (6, 0)) ∧
    (ks = (true, true) → ss = (false, false) → verifyFail img fuse = some (7, 0)) ∧
    (ks = (true, true) → ss = (true, true) → Config.imgVersion img < fuse → verifyFail img fuse = some (8, fuse))) ∧
  (∀ s : State, ∃ t, exec .deviceReset s = .next t ∧ s.Resets t s.boot) ∧
  (∀ s : State, s.boot.stage = 0 →
    exec (.bootStage none) s = .next { s with boot := { s.boot with stage := 1, lastStage := 1 } } ∧
    ∀ d, ∃ t, exec (.bootStage (some (1, d))) s = .next t ∧ s.StartFails t 0 1 0) ∧
  (∀ s : State, s.boot.stage = 1 →
    let next := { s with boot := { s.boot with stage := 2, lastStage := 2, running := s.boot.nor } }
    (∀ d, ∃ t, exec (.bootStage (some (2, d))) s = .next t ∧ s.StartFails t 1 2 (d % 65536)) ∧
    (Config.imgHeaderOk s.boot.nor = false ∨ 64 < Config.imgVersion s.boot.nor → ∃ t, exec (.bootStage none) s = .next t ∧ s.StartFails t 1 3 0) ∧
    (Config.imgHeaderOk s.boot.nor = true → Config.imgVersion s.boot.nor ≤ 64 → s.boot.norBroken = false → exec (.bootStage none) s = .next next) ∧
    (Config.imgHeaderOk s.boot.nor = true → Config.imgVersion s.boot.nor ≤ 64 → s.boot.norBroken = true →
      (∃ t, exec (.bootStage none) s = .next t ∧ s.StartFails t 1 3 0) ∨ exec (.bootStage none) s = .next next)) ∧
  (∀ s : State, s.boot.stage = 2 →
    (s.boot.norBroken = true → ∃ t, exec (.bootStage none) s = .next t ∧ s.StartFails t 2 7 0) ∧
    (∀ r d, s.boot.norBroken = false → verifyFail s.boot.running s.boot.fuse = some (r, d) → ∃ t, exec (.bootStage none) s = .next t ∧ s.StartFails t 2 r d) ∧
    (s.boot.norBroken = false → verifyFail s.boot.running s.boot.fuse = none → exec (.bootStage none) s = .next { s with boot :=
      { s.boot with stage := 3, lastStage := 3, fwSince := s.clk, sver := Config.imgVersion s.boot.running } })) ∧
  (∀ s : State, 3 ≤ s.boot.stage → s.boot.stage ≤ 5 →
    let late := s.boot.fwSince + 30000 * msClk
    (late < s.clk → ∃ t, exec (.bootStage none) s = .next t ∧ s.StartFails t s.boot.stage 9 s.boot.stage) ∧
    (s.clk ≤ late → s.boot.stage ≠ 5 → exec (.bootStage none) s = .next { s with boot := { s.boot with stage := s.boot.stage + 1, lastStage := s.boot.stage + 1 } }) ∧
    (s.clk ≤ late → s.boot.stage = 5 → exec (.bootStage none) s = .next (State.unrouted { s with
      boot := { s.boot with stage := 6, lastStage := 6 }
      mem := { s.mem with hbm := [], unitKey := [], poison := [], weak := [], clus := [], clusW := [], chip := [], tags := [] }
      net := { s.net with links := s.net.links.map (fun x : Nat × Link => (x.1, if x.2.en = true then { x.2 with state := 1, lanes := 0 } else x.2)) } }
      (fun n => (s.link n).en))) ∧
    (∀ d, s.boot.stage = 4 → ∃ t, exec (.bootStage (some (0x0A, d))) s = .next t ∧ s.StartFails t 4 0x0A (d % 65536)) ∧
    (∀ d, s.boot.stage = 5 → ∃ t, exec (.bootStage (some (0x0B, d))) s = .next t ∧ s.StartFails t 5 0x0B (d % 65536)) ∧
    (s.clk < late → exec .fwdog s = .next s) ∧
    (late ≤ s.clk → ∃ t, exec .fwdog s = .next t ∧ s.StartFails t s.boot.stage 9 s.boot.stage)) ∧
  (∀ s : State, s.boot.stage = 6 →
    let late := s.boot.fwSince + 30000 * msClk
    (s.clk < late → (∃ x ∈ s.net.links, x.2.state = 1) → exec (.bootStage none) s = .next s) ∧
    (s.clk < late → (∀ x ∈ s.net.links, x.2.state ≠ 1) → exec (.bootStage none) s = .next s.readied) ∧
    (late ≤ s.clk → exec (.bootStage none) s = .next s.untrained.readied) ∧
    (s.clk < late → exec .linkStageEnd s = .next s) ∧
    (late ≤ s.clk → exec .linkStageEnd s = .next s.untrained.readied)) ∧
  (∀ s : State,
    (¬ s.Owner s.cur.port → ∀ i ∈ [Instr.bootCommit, .bootClrt, .bootFmin, .bootRst], exec i s = .next s) ∧
    (s.Owner s.cur.port →
      exec .bootCommit s = .next (if s.boot.busy then s else { s with boot := { s.boot with busy := true, writing := false, image := s.boot.staging } }) ∧
      exec .bootClrt s = .next { s with boot := { s.boot with tries := 0 } } ∧
      exec .bootFmin s = .next { s with boot := { s.boot with fminPending := true } } ∧
      (s.boot.busy = true → exec .bootRst s = .next { s with boot := { s.boot with rstWait := some (s.boot.rstWait.getD s.cur.port) } }) ∧
      (s.boot.busy = false → s.boot.attemptOpen = true → ∃ t, exec .bootRst s = .next t ∧ s.StartFails t s.boot.lastStage 0x0E s.cur.port) ∧
      (s.boot.busy = false → s.boot.attemptOpen = false → ∃ t, exec .bootRst s = .next t ∧ s.Resets t s.boot))) ∧
  (∀ s : State,
    (s.boot.busy = false → exec .commitVerifyDone s = .next s ∧ exec .firmwareWriteDone s = .next s) ∧
    (s.boot.busy = true → s.boot.writing = false →
      (∀ r d, verifyFail s.boot.image s.boot.fuse = some (r, d) → ∃ t, exec .commitVerifyDone s = .next t ∧
        State.FreesBusy { s with boot := { s.boot.recorded 2 r d with busy := false } } t) ∧
      (verifyFail s.boot.image s.boot.fuse = none → exec .commitVerifyDone s = .next { s with boot := { s.boot with writing := true } }) ∧
      exec .firmwareWriteDone s = .next s) ∧
    (s.boot.busy = true → s.boot.writing = true →
      exec .commitVerifyDone s = .next s ∧
      let b := { s.boot with nor := s.boot.image, norBroken := false, busy := false, writing := false, tries := 0 }
      (s.boot.stage = 15 → ∃ t, exec .firmwareWriteDone s = .next t ∧ s.Resets t b) ∧
      (s.boot.stage ≠ 15 → ∃ t, exec .firmwareWriteDone s = .next t ∧ State.FreesBusy { s with boot := b } t)))

/-- R21, R30, R32, R33, R37, R38: power. POWER_THROTTLE and THROTTLE_CAUSE_CLEARS report the sensors; while the power is above PWR.CAP or a die above 100 °C no
iteration of MGO, DGO or MDRAIN goes on; THERM stops every launch, and with none left records THERM and resets; the loss of auxiliary power clears what the always-on domain
holds, the loss of main power the rest. R18, R19, R20, R21, R25: links. TRAIN and EN act for the owner; training ends with the lanes that work; a link
that is down or trains carries no route; a route is the first admissible path by hops, length (each link at the larger of CLEN and MDM) and port, and
what waited for it is carried; after 1 ms without a route every request to the destination fails; a replayed flit is counted
at both ends. -/
def Obligations.PowerAndLinks : Prop :=
  (∀ (s : State) (watt tmax : Nat) (i : Instr), i = .powerThrottle watt tmax ∨ i = .throttleCauseClears watt tmax →
    exec i s = .next { s with power := { s.power with now := min 4095 watt, tmax := min 255 tmax, hot := decide (100 < tmax) } }) ∧
  (∀ (s : State) (cid : Nat) (u : EUnit) (m : Cmd), s.power.cap < s.power.now ∨ s.power.hot = true → s.cmd cid u = some m →
    u = .drainU ∧ m.op = 6 ∨ u = .array ∧ (m.op = 3 ∨ m.op = 0x0B) → exec (.engineIterationBoundary cid u) s = .next s) ∧
  (∀ (s : State) (die : Nat) (temp : Bool),
    (∀ d, s.boot.therm = some d → exec (.therm die temp) s = .next s) ∧
    (s.boot.therm = none → s.sched.launches = [] → ∃ t u : State, exec (.therm die temp) s = .next t ∧
      u = { s with power := { s.power with trip := s.power.trip || temp }, boot := { s.boot with therm := some die } } ∧
      ∃ r, u.StartFails r s.boot.stage 0x0C die ∧ t = { r with power := { r.power with trip := u.power.trip } }) ∧
    (s.boot.therm = none → ∃ t u v : State, exec (.therm die temp) s = .next t ∧
      u = { s with power := { s.power with trip := s.power.trip || temp }, boot := { s.boot with therm := some die } } ∧
      v = (s.sched.launches.map Prod.fst).foldl (fun x l => x.complete1 l) ((s.sched.launches.map Prod.fst).foldl (fun x l => x.abortLaunch l 6) u) ∧
      (v.sched.launches ≠ [] → t = v) ∧ (∀ d, v.sched.launches = [] → v.boot.therm = some d →
        ∃ r, v.StartFails r v.boot.stage 0x0C d ∧ t = { r with power := { r.power with trip := v.power.trip } }))) ∧
  (∀ s : State,
    exec .auxPowerLoss s = .next { s with boot := { s.boot with tries := 0, attemptOpen := false, fminPending := false, whyV := false, whyStage := 0, whyReason := 0, whyDetail := 0 } } ∧
    exec .powerLoss s = .next { State.reset with variant := s.variant, agenda := s.agenda, cur := s.cur, free := s.free, boot := { s.boot with sver := 0, busy := false, writing := false, stage := 0, staging := [], running := [], image := [], fwSince := 0, rstWait := none, off := true, therm := none, norBroken := s.boot.norBroken || s.boot.writing }, hports := s.hports.map (fun x => (x.1, { PortSt.fresh with cxl := x.2.cxl })), host := { s.host with exports := [], codeKeys := [], objs := [], nextBase := State.reset.host.nextBase }, net := { State.reset.net with sent := s.net.sent, nextReq := s.net.nextReq }, mem := { MemSt.fresh s.boot.starts with flash := s.mem.flash } }) ∧
  (∀ (s : State) (port link : Nat) (v : Bool),
    (¬ s.Owner port ∨ 24 ≤ link → exec (.train port link) s = .next s ∧ exec (.en port link v) s = .next s) ∧
    (s.Owner port → link < 24 →
      exec (.train port link) s = .next (if (s.link link).en = true ∧ s.boot.stage ≠ 15 then
        (s.withLink link (fun l => { l with state := 1, lanes := 0 })).unrouted (· == link) else s) ∧
      exec (.en port link true) s = .next (s.withLink link (fun l => { l with en := true })) ∧
      exec (.en port link false) s = .next ((s.withLink link (fun l => { l with en := false, state := 0, lanes := 0 })).unrouted (· == link)))) ∧
  (∀ (s : State) (link mdm peer pport : Nat) (low high : Bool) (reach : List Reach),
    let mark := s.boot.stage = 6 ∧ s.boot.fwSince + 30000 * msClk ≤ s.clk
    ((s.link link).state ≠ 1 → exec (.linkTrainingDone link low high mdm peer pport reach) s = .next s) ∧
    ((s.link link).state = 1 → mark → exec (.linkTrainingDone link low high mdm peer pport reach) s = .next s.untrained.readied) ∧
    ((s.link link).state = 1 → ¬ mark → exec (.linkTrainingDone link low high mdm peer pport reach) s = .next (s.withLink link (fun l =>
      if low = false ∧ high = false then { l with state := 3, lanes := 0 }
      else { l with state := if l.loop then 4 else 2, lanes := if low = true ∧ high = true then 8 else 4, mdm := mdm % 256, peer := peer % 128, pport := pport % 32, reach := reach }))) ∧
    exec (.linkDown link) s = .next ((s.withLink link (fun l => { l with state := 0, lanes := 0 })).unrouted (· == link)) ∧
    exec (.flitCrcReplay link true) s = .next (s.withLink link (fun l => { l with crce := min 0xFFFF (l.crce + 1) })) ∧
    exec (.flitCrcReplay link false) s = .next (s.withLink link (fun l => { l with retry := min 0xFFFF (l.retry + 1) }))) ∧
  (∀ (s : State) (dest : Nat) (p : Path), p ∈ s.paths dest ↔
    ∃ x ∈ s.net.links, ∃ r ∈ x.2.reach, r.dest = dest ∧ p = ⟨r.hops, r.beyond + max x.2.clen x.2.mdm, x.1⟩) ∧
  (∀ (s : State) (dest : Nat),
    let cands := s.paths dest
    let old := Map.getD s.net.routes dest .fresh
    (s.boot.stage = 15 → exec (.routeChange dest) s = .next s) ∧
    (s.boot.stage ≠ 15 → (∀ p ∈ cands, ¬ s.Admits p) → exec (.routeChange dest) s = .next { s with net := { s.net with
      routes := Map.put s.net.routes dest (Route.mk false 0 old.port 0 (if old.v then s.clk else old.lost)) } }) ∧
    (s.boot.stage ≠ 15 → (∃ p ∈ cands, s.Admits p) → ∃ q, s.Chooses cands q ∧ exec (.routeChange dest) s = .next { s with net := { s.net with
      routes := Map.put s.net.routes dest (Route.mk true q.hops q.port q.dm 0)
      sent := s.net.sent ++ (s.net.waiting.filter (fun x : Nat × Msg => x.1 == dest)).map Prod.snd
      waiting := s.net.waiting.filter (fun x => x.1 != dest) } })) ∧
  (∀ (s : State) (dest : Nat),
    let r := Map.getD s.net.routes dest .fresh
    (r.v = true ∨ s.clk < r.lost + msClk → exec (.noRouteTimeout dest) s = .next s) ∧
    (r.v = false → r.lost + msClk ≤ s.clk → exec (.noRouteTimeout dest) s = .next
      (((s.net.reqs.filter (fun x => x.2.dev == dest)).map Prod.fst).foldl (fun x id => resState x (exec (.remoteResponse id .failed) x)) s)))

/-- R127, R169, R225, R308, R310: a request of another device is performed at its address under the key slot it names and answered; an empty slot or an
address outside is refused and reading a poisoned unit fails, with no effect; the writes of one granule are performed together (R173). R39, R40, R41, R59:
the host's reads, writes and AtomicOps of device memory, which it has with CXL, go through a decoder's slot; without a key a read is poison and a write is
dropped (for an AtomicOp, and for an address outside the usable HBM, that is the model's choice, log entry 60). -/
def Obligations.OutsideAccesses : Prop :=
  (∀ (s : State) (src key : Nat) (r : RemoteReq), ¬ s.Opens key (remoteSpan r).1 (remoteSpan r).2 → exec (.remoteRequest src key r) s = .next (s.replies src .refused)) ∧
  (∀ (s : State) (src key a : Nat) (bs : List Byte), s.Opens key a bs.length →
    exec (.remoteRequest src key (.store a bs)) s = .next ((s.wr 0 (.loc a key 2 0) bs).replies src .done)) ∧
  (∀ (s : State) (src key a : Nat) (ps : List (Nat × List Byte)), s.Opens key a 32 →
    exec (.remoteRequest src key (.granule a ps)) s = .next ((ps.foldl (fun x p => x.wr 0 (.loc p.1 key 2 0) p.2) s).replies src .done)) ∧
  (∀ (s : State) (src key a n : Nat), s.Opens key a n →
    (s.poisoned (.loc a key 2 0) n = true → exec (.remoteRequest src key (.load a n)) s = .next (s.replies src .failed) ∧
      exec (.remoteRequest src key (.watch a n)) s = .next (s.replies src .failed)) ∧
    (s.poisoned (.loc a key 2 0) n = false →
      exec (.remoteRequest src key (.load a n)) s = .next (s.replies src (.data (s.rd 0 (.loc a key 2 0) n))) ∧
      exec (.remoteRequest src key (.watch a n)) s = .next (State.replies { s with net := { s.net with watch := s.net.watch ++ [(src, (Place.loc a key 2 0).line)] } } src (.data (s.rd 0 (.loc a key 2 0) n))))) ∧
  (∀ (s : State) (src key a : Nat) (wide : Bool) (op : AmoOp) (b e : Word), s.Opens key a (if wide then 8 else 4) →
    let n := if wide then 8 else 4
    let p := Place.loc a key 2 0
    let old := leWord (s.rd 0 p n)
    (s.poisoned p n = true → exec (.remoteRequest src key (.amo op a wide b)) s = .next (s.replies src .failed)) ∧
    (s.poisoned p n = false →
      exec (.remoteRequest src key (.amo op a wide b)) s = .next ((s.wr 0 p (leBytes n (op.result (atomWidth wide) old b).toNat)).replies src (.data (leBytes n old.toNat))) ∧
      (old.toNat = e.toNat % 2 ^ (8 * n) → exec (.remoteRequest src key (.cas a wide e b)) s = .next ((s.wr 0 p (leBytes n b.toNat)).replies src (.data (leBytes n old.toNat)))) ∧
      (old.toNat ≠ e.toNat % 2 ^ (8 * n) → exec (.remoteRequest src key (.cas a wide e b)) s = .next (s.replies src (.data (leBytes n old.toNat)))))) ∧
  (∀ (s : State) (src key a : Nat) (m : MredMode) (v : Word), s.Opens key a (mredBytes m) → s.poisoned (.loc a key 2 0) (mredBytes m) = false →
    exec (.remoteRequest src key (.mred m a v)) s = .next ((s.wr 0 (.loc a key 2 0)
      (leBytes (mredBytes m) (mredApply m (leWord (s.rd 0 (.loc a key 2 0) (mredBytes m))) v).toNat)).replies src .done)) ∧
  (∀ (s : State) (port dec addr size : Nat) (bs : List Byte) (op : HostAtomic) (wide : Bool) (a b : Word), (s.hport port).cxl = false →
    exec (.cxlMemRead port dec addr size) s = .next s ∧ exec (.cxlMemWrite port dec addr bs) s = .next s ∧
    exec (.hostAtomicop port dec op addr wide a b) s = .next s) ∧
  (∀ (s : State) (port dec addr size : Nat), (s.hport port).cxl = true →
    let slot := Map.getD (Map.getD s.hports port .fresh).hdm dec 0
    (¬ s.Powers slot addr size → exec (.cxlMemRead port dec addr size) s = .next { s with host := { s.host with rdata := List.replicate size 0, poison := true } }) ∧
    (s.Powers slot addr size → exec (.cxlMemRead port dec addr size) s = .next { s with host := { s.host with rdata := s.rd 0 (.loc addr slot 0 0) size, poison := s.poisoned (.loc addr slot 0 0) size } })) ∧
  (∀ (s : State) (port dec addr : Nat) (bs : List Byte), (s.hport port).cxl = true →
    let slot := Map.getD (Map.getD s.hports port .fresh).hdm dec 0
    (¬ s.Powers slot addr bs.length → exec (.cxlMemWrite port dec addr bs) s = .next s) ∧
    (s.Powers slot addr bs.length → exec (.cxlMemWrite port dec addr bs) s = .next (s.wr 0 (.loc addr slot 0 0) bs))) ∧
  (∀ (s : State) (port dec addr : Nat) (wide : Bool) (a b : Word), (s.hport port).cxl = true →
    let n := if wide then 8 else 4
    let slot := Map.getD (Map.getD s.hports port .fresh).hdm dec 0
    let p := Place.loc addr slot 0 0
    let old := leWord (s.rd 0 p n)
    let u : State := { s with host := { s.host with rdata := leBytes n old.toNat, poison := s.poisoned p n } }
    (¬ s.Powers slot addr n → ∀ op, exec (.hostAtomicop port dec op addr wide a b) s = .next { s with host := { s.host with rdata := List.replicate n 0, poison := true } }) ∧
    (s.Powers slot addr n →
      exec (.hostAtomicop port dec .fetchAdd addr wide a b) s = .next (u.wr 0 p (leBytes n (old.toNat + a.toNat))) ∧
      exec (.hostAtomicop port dec .swap addr wide a b) s = .next (u.wr 0 p (leBytes n a.toNat)) ∧
      (old.toNat = a.toNat % 2 ^ (8 * n) → exec (.hostAtomicop port dec .cas addr wide a b) s = .next (u.wr 0 p (leBytes n b.toNat))) ∧
      (old.toNat ≠ a.toNat % 2 ^ (8 * n) → exec (.hostAtomicop port dec .cas addr wide a b) s = .next (u.wr 0 p (leBytes n old.toNat))))) ∧
  (∀ (s : State) (id : Nat) (a : RemoteAns),
    (Map.find s.net.reqs id = none ∨ s.Unsent id ∧ a ≠ .failed → exec (.remoteResponse id a) s = .next s) ∧
    (∀ q, Map.find s.net.reqs id = some q → ¬ (s.Unsent id ∧ a ≠ .failed) → 512 ≤ q.cid → exec (.remoteResponse id a) s = .next (s.closed id)) ∧
    (∀ q, Map.find s.net.reqs id = some q → ¬ (s.Unsent id ∧ a ≠ .failed) → q.cid < 512 →
      let u := s.closed id
      (∀ l ls, q.kind = .load → (u.ctx q.cid).path.loads = l :: ls → l.req = some id →
        (∀ bs, a = .data bs → exec (.remoteResponse id a) s = .next (u.loadDone q.cid l (u.forwardAll q.cid l bs))) ∧
        (∀ c d, s.badAnswer q.dev a = some (c, d) → exec (.remoteResponse id a) s = .next (u.loadFail q.cid l c d))) ∧
      (q.kind = .store → exec (.remoteResponse id a) s = .next (u.modCtx q.cid (fun c => { c with path := { c.path with
        remStores := c.path.remStores.filter (fun n => n != id)
        stores := acknowledged id c.path.stores
        fails := c.path.fails ++ (match s.badAnswer q.dev a with | some (x, d) => [⟨x, d, q.va⟩] | none => []) } }))) ∧
      (∀ path unit seq, q.kind = .engineStore path unit seq → (∀ m ∈ (s.ctx q.cid).eng.cmds, id ∉ m.acks) →
        (s.badAnswer q.dev a = none → exec (.remoteResponse id a) s = .next u) ∧
        (∀ c d, s.badAnswer q.dev a = some (c, d) → exec (.remoteResponse id a) s = .next (u.modCtx q.cid (fun x => { x with eng := { x.eng with
          wfails := x.eng.wfails ++ [⟨unit, path, seq, q.va, (Map.getD s.net.routes q.dev .fresh).port, decide (c = 7)⟩] } })))) ∧
      (∀ w, q.kind = .notice → (s.ctx q.cid).sc.hold = .waita w → w.pc = q.pc → w.va = q.va → ∃ t,
        exec (.remoteResponse id a) s = .next t ∧ (t.ctx q.cid).sc.hold = .waita { w with woken := true }) ∧
      (∀ rt n sx acq, q.kind = .atomic rt n sx acq → (s.ctx q.cid).sc.hold = .remote id →
        let v := u.at_ q.cid .S
        (∀ c d, s.badAnswer q.dev a = some (c, d) → (s.ctx q.cid).trap.phase = .none → ∃ t, exec (.remoteResponse id a) s = .next t ∧ v.unhold.TrapsS t c d q.va) ∧
        (∀ bs, a = .data bs → acq = none → ∃ t, exec (.remoteResponse id a) s = .next t ∧ v.EndsWith t rt (extend sx n (leWord bs))) ∧
        (∀ bs sc, a = .data bs → acq = some sc → ∃ t, exec (.remoteResponse id a) s = .next t ∧
          (v.acquire q.cid sc).EndsWith t rt (extend sx n (leWord bs))))))

/-- R49, R50, R51, R52, R55, R57: the launch window: a write of PROD beyond 64 descriptors is ignored and sets OVR; the next descriptor is dropped with MISAL,
rejected with its record, or accepted as a launch with its root record. R53, R54: an expired time limit aborts a launch; the record of a launch that
has completed is written once its writes are performed, and its owner tags go (R120). R62, R63, R71: a page that is waited for is loaded where its hash
matches; otherwise its object is revoked, and a record whose header was to be read there fails with cause integrity. -/
def Obligations.LaunchWindow : Prop :=
  (∀ (s : State) (port : Nat) (v : Word),
    let n := v.toNat % 65536
    let c := (Map.getD s.hports port .fresh).cons
    (64 < (n + 65536 - c) % 65536 → exec (.lwProdWrite port v) s = .next (s.withPortSt port (fun p => { p with ovr := true }))) ∧
    ((n + 65536 - c) % 65536 ≤ 64 → exec (.lwProdWrite port v) s = .next (s.withPortSt port (fun p => { p with prod := n })))) ∧
  (∀ s : State, ¬ s.MayTake s.cur.port → exec .descriptorAccept s = .next s) ∧
  (∀ s : State, s.MayTake s.cur.port →
    let port := s.cur.port
    let slot := (s.hport port).cons % 64
    let d := Mem.read (s.hport port).ring (64 * slot) 64
    let u := s.withPortSt port (fun p => { p with cons := (p.cons + 1) % 65536 })
    let rejected := fun st => u.recorded port (descWord d 4).toNat (recordOf (descWord d 5) 0 0xFF 0 st 0 s.clk) ((descWord d 7).getLsbD 41) ((descWord d 7).toNat / 2 ^ 42 % 64)
    ((descWord d 4).toNat % 32 ≠ 0 → exec .descriptorAccept s = .next (s.withPortSt port (fun p => { p with cons := (p.cons + 1) % 65536, misal := true, errSlot := slot }))) ∧
    ((descWord d 4).toNat % 32 = 0 →
      (s.BadDesc d → exec .descriptorAccept s = .next (rejected 7)) ∧
      (¬ s.BadDesc d → s.NoCode d → exec .descriptorAccept s = .next (rejected 8)) ∧
      (¬ s.BadDesc d → ¬ s.NoCode d → exec .descriptorAccept s = .next (State.enter
        { u with sched := { u.sched with nextLaunch := s.sched.nextLaunch + 1, launches := Map.put u.sched.launches s.sched.nextLaunch { port := port, tag := descWord d 5, caddr := (descWord d 4).toNat, ptroot := (descWord d 6).toNat / 2 ^ 12 % 2 ^ 40 * 4096, tlim := (descWord d 7).toNat / 2 ^ 48, accepted := s.clk, vec := (descWord d 7).toNat / 2 ^ 42 % 64, noint := (descWord d 7).getLsbD 41, joins := 1, stat := none, done := false, doneAt := 0, fcnt := 0, fcore := 0xFF, fcause := 0, faddr := 0, maps := [] } } }
        (freeIdx s.sched.store 0) (Record.ofBytes d) s.sched.nextLaunch)))) ∧
  (∀ (s : State) (l : Nat), s.boot.therm = none →
    (Map.find s.sched.launches l = none → exec (.completionRecordWrite l) s = .next s) ∧
    (∀ v, Map.find s.sched.launches l = some v →
      let owed := ∃ x ∈ s.net.reqs, x.2.launch = l ∧ x.2.kind.writes = true
      (v.done = false ∨ owed → exec (.completionRecordWrite l) s = .next s) ∧
      (v.done = true → ¬ owed → ∃ t u : State, exec (.completionRecordWrite l) s = .next t ∧
        u = s.recorded v.port v.caddr (recordOf v.tag v.fcnt (if v.fcnt = 0 then 0xFF else v.fcore) v.fcause (v.stat.getD 0) v.faddr v.doneAt) v.noint v.vec ∧
        t.sched.launches = Map.del s.sched.launches l ∧ t.sched.bunches = s.sched.bunches.filter (fun b => b.2.launch != l) ∧ t.host = u.host ∧
        t.colls = s.colls.map (fun c : Nat × Coll => (c.1, { c.2 with rings := c.2.rings.filter (fun r => r.2.launch != l) })) ∧
        t.ctxs = s.ctxs ∧ t.mem = { s.mem with tags := s.mem.tags.filter (fun x => x.2 != l) } ∧ t.net = s.net))) ∧
  (∀ (s : State) (l : Nat),
    (Map.find s.sched.launches l = none → exec (.tlim l) s = .next s) ∧
    (∀ v, Map.find s.sched.launches l = some v →
      (v.tlim = 0 ∨ s.clk < v.accepted + v.tlim * msClk → exec (.tlim l) s = .next s) ∧
      (v.tlim ≠ 0 → v.accepted + v.tlim * msClk ≤ s.clk → exec (.tlim l) s = .next (s.abortLaunch l 5)))) ∧
  (∀ (s : State) (h page : Nat),
    (Map.find s.host.objs h = none → exec (.pageLoad h page) s = .next s) ∧
    (∀ o, Map.find s.host.objs h = some o →
      (o.revoked = true ∨ page ∈ o.loaded ∨ o.pages ≤ page ∨ s.pageWanted h page = false → exec (.pageLoad h page) s = .next s) ∧
      (o.revoked = false → page ∉ o.loaded → page < o.pages → s.pageWanted h page = true →
        let n := min 65536 (o.len - 65536 * page)
        let bs := Mem.read s.host.mem (hostAddr o.port (o.bus + 65536 * page)) n ++ List.replicate (65536 - n) 0
        (o.hashes[page]? = some (Config.sha384 bs) → exec (.pageLoad h page) s = .next (State.readHdrs { s with host := { s.host with objs := Map.put s.host.objs h { o with loaded := insertNat page o.loaded, bytes := Mem.write o.bytes (65536 * page) bs } } })) ∧
        (o.hashes[page]? ≠ some (Config.sha384 bs) →
          let u := { s with
            host := { s.host with objs := Map.put s.host.objs h { o with revoked := true } }
            ctxs := s.ctxs.map (fun c : Nat × Ctx => (c.1, { c.2 with locks := c.2.locks.filter (fun x : Word × Word =>
              decide (¬ (o.base < x.1.toNat + x.2.toNat ∧ x.1.toNat < o.base + 65536 * o.pages))) })) }
          let waiting := s.unread.filter (fun e => (Map.find s.sched.store e).any (fun v => s.fetch (v.record.code - 32) 32 == .wait h page))
          exec (.pageLoad h page) s = .next (State.readHdrs (waiting.foldl (fun y e => y.failRecord e 8) u))))))

/-- R69, R76: a dispatcher fills the first free context of its chiplet for which there is a choice; without bunches and without an offer the
choice is a record that may be placed and that no other such record precedes; a record without an image starts its task, with an acquire of its core
(R73). R75, R80, R81: an aging step and a token tick, with the decisions they bring in the order of R76. R79: reserving. -/
def Obligations.DispatchAndAging : Prop :=
  (∀ (s : State) (pos : Nat), (∀ cid, cid / 64 = pos → s.isFree cid = true → s.pick cid = none) → exec (.dispatch pos) s = .next s) ∧
  (∀ (s : State) (pos cid : Nat) (p : Pick), cid / 64 = pos → s.isFree cid = true → s.pick cid = some p →
    (∀ c, c / 64 = pos → c < cid → s.isFree c = true → s.pick c = none) → exec (.dispatch pos) s = .next (s.placePick cid p)) ∧
  (∀ (s : State) (cid : Nat), Map.find s.sched.offers cid = none → s.sched.bunches = [] →
    ((∀ x ∈ s.sched.store, ¬ s.MayPlace x.1 x.2 cid) → s.pick cid = none) ∧
    (∀ x ∈ s.sched.store, s.MayPlace x.1 x.2 cid → ∃ y ∈ s.sched.store, s.pick cid = some (.one y.1 y.2) ∧ s.MayPlace y.1 y.2 cid ∧
      ∀ z ∈ s.sched.store, s.MayPlace z.1 z.2 cid → ¬ s.Ahead z.2 y.2)) ∧
  (∀ (s : State) (e cid : Nat) (v : Entry) (h : Header), Map.find s.sched.store e = some v → Map.find s.images e = none → v.hdr = some h →
    h.slLen = 0 → (Map.find s.mem.keys v.record.key).isSome = true →
    let t := s.placePick cid (.one e v)
    let w := s.wbInv (cid / 2)
    t.ctx cid = s.startOf e v h false ∧ Map.find t.sched.store e = some { v with st := .running cid, prio := s.level v, disp := s.clk } ∧
    (∀ x, x ≠ e → Map.find t.sched.store x = Map.find s.sched.store x) ∧ (∀ c, c / 2 ≠ cid / 2 → t.ctx c = w.ctx c) ∧ t.mem = w.mem ∧
    (t.core (cid / 2)).l1 = []) ∧
  (∀ (s : State) (e : Nat),
    (Map.find s.sched.store e = none → exec (.agingStep e) s = .next s) ∧
    (∀ v, Map.find s.sched.store e = some v →
      let due := s.AgeDue v ∧ ∀ x ∈ s.sched.store, x.1 ≠ e → s.AgeDue x.2 → ¬ s.Ahead x.2 v
      (due → exec (.agingStep e) s = .next ((s.setEntry e { v with aged := v.aged + 1 }).decision e)) ∧
      (¬ due → exec (.agingStep e) s = .next s))) ∧
  (∀ s : State,
    (s.clk / 940000 ≤ s.sched.ticks → exec .tokenTick s = .next s) ∧
    (s.sched.ticks < s.clk / 940000 → ∃ u v : State, exec .tokenTick s = .next (v.readyList.foldl (fun s x => s.decision x.1) u) ∧
      v = { s with sched := { s.sched with ticks := s.sched.ticks + 1, queues := v.sched.queues } } ∧
      (∀ q, let a := Map.getD s.sched.queues q (.fresh q)
        Map.getD v.sched.queues q (.fresh q) = { a with tok := min a.cap (a.tok + a.rate) }) ∧
      u = { v with sched := { v.sched with store := u.sched.store } } ∧
      ∀ e, Map.find u.sched.store e = (Map.find s.sched.store e).map (fun x =>
        { x with aged := if s.ageDue x then (s.clk - x.since) / 940000 else x.aged }))) ∧
  (∀ (s : State) (e : Nat),
    (Map.find s.sched.store e = none → exec (.reserving e) s = .next s) ∧
    (∀ v, Map.find s.sched.store e = some v →
      (v.st ≠ .ready ∨ v.hdr = none ∨ v.resv = true ∨ s.groupOf e v = 0 ∧ s.clk < v.since + 16 * 940000 → exec (.reserving e) s = .next s) ∧
      (∀ h pos k, v.st = .ready → v.hdr = some h → v.resv = false → s.groupOf e v = 0 → v.since + 16 * 940000 ≤ s.clk → pos < 8 → k / 32 = pos →
        let could := fun c => s.variant.hasCore c = true ∧ s.capable v.record.qreq c = true ∧ fitsWith c h .zero = true
        could k → Map.find s.sched.marks pos = none → (∀ c, c / 32 = pos → c < k → ¬ could c) →
        (∀ p, p < pos → (Map.find s.sched.marks p).isSome = true ∨ ∀ c, c / 32 = p → ¬ could c) →
        exec (.reserving e) s = .next { s with sched := { s.sched with marks := Map.put s.sched.marks pos (e, k), store := Map.put s.sched.store e { v with resv := true } } })))

/-- R85, R227, R233, R237, R238: the completion of an image: its header is formed, its context released, and the record ready again or restored. R216,
R218, R219: the start of a handler, with the vector of its cause; a cause that no retry raises again is kept. R100: the watchdog. -/
def Obligations.SavesAndHandlers : Prop :=
  (∀ (s : State) (e : Nat),
    (Map.find s.sched.store e = none ∨ Map.find s.images e = none → exec (.saveComplete e) s = .next s) ∧
    (∀ v im, Map.find s.sched.store e = some v → Map.find s.images e = some im →
      let done := { v with saveDone := true }
      let u := s.finishSave e
      (v.st ≠ .saved ∨ v.saveDone = true ∨ s.awaitsClus im = true → exec (.saveComplete e) s = .next s) ∧
      (∃ h, Map.find u.images e = some { im with hdr := some h } ∧ h.magic = 0x5A3C0001 ∧ h.version = 1 ∧ h.reason = im.reason ∧ h.launch = v.launch) ∧
      (Map.find u.sched.store e = some done ∧ ∀ cid, s.huskOf e = some cid → u.ctx cid = .fresh) ∧
      (v.st = .saved → v.saveDone = false → s.awaitsClus im = false →
        (∀ t, im.ctx.task = some t → t.member = false → im.reason ≠ 1 ∨ u.migTarget done = none → exec (.saveComplete e) s = .next (u.ready e)) ∧
        (∀ t cid, im.ctx.task = some t → t.member = false → im.reason = 1 → u.migTarget done = some cid →
          exec (.saveComplete e) s = .next ((u.placeTask e cid false).modEntry e (fun x => { x with prio := v.prio }))) ∧
        (∀ t, im.ctx.task = some t → t.member = true → (∃ b, Map.find u.sched.bunches t.bunch = some b ∧ b.members ≠ []) →
          exec (.saveComplete e) s = .next u)))) ∧
  (∀ s : State,
    let cid := s.cur.cid
    let mayStart := s.stopped cid = true ∧ (s.core (cid / 2)).trap.serving = none ∧ s.yieldsTo cid = false
    (¬ mayStart → exec .handlerStart s = .next s) ∧
    (∀ ch b, mayStart → (s.ctx cid).leaving = false → chooseCause (s.ctx cid).trap.causes = some ch → s.handlerAt (cid / 2) ch.f.code = .bytes b →
      ∃ t : State, exec .handlerStart s = .next t ∧
        t.ctx cid = { s.ctx cid with trap := { (s.ctx cid).trap with phase := .handler, causes := ((s.ctx cid).trap.causes.erase ch).filter (fun x => x.once), frame := some ch.f, pend := pendOf (s.ctx cid).trap.causes, ssw := 0 } } ∧
        (t.core (cid / 2)).trap.serving = some cid ∧ (t.core (cid / 2)).trap.tact = 0 ∧ (t.core (cid / 2)).trap.sc.pc = leWord b ∧
        (t.core (cid / 2)).trap.sc.hold = .none ∧ (t.core (cid / 2)).trap.sc.nextIssue = s.clk + 1 ∧
        ((t.core (cid / 2)).trap.firmware = true ↔ ((s.core (cid / 2)).tvec.getD firmwareTvec) = firmwareTvec) ∧ t.mem = s.mem ∧ t.sched = s.sched ∧ ∀ c, c ≠ cid → t.ctx c = s.ctx c)) ∧
  (∀ s : State,
    let c := s.ctx s.cur.cid
    let due := ∃ t, c.sc.boundSince = some t ∧ c.atBound = true ∧ c.trap.phase = .none ∧ t + 9400000 ≤ s.clk
    (¬ due → exec .watchdog s = .next s) ∧
    (due → ∃ t, exec .watchdog s = .next t ∧ s.Traps t s.cur.cid false (.of 0x0D 0 0 0 0 c.sc.pc)))

/-- R261, R264-R279: every well-formed instruction that has a word decodes from it, and a word that decodes to an instruction is that instruction's
word: no bit of an encoding is dropped. -/
def Obligations.DecodeEncode : Prop :=
  (∀ (i : Instr) (w : Nat), i.wf = true → encode i = some w → ∃ n, (n = 32 ∨ n = 64) ∧ w < 2 ^ n ∧ decodeTableWord n w = some i) ∧
  (∀ (i : Instr) (w : Nat), w < 2 ^ 64 → decodeMain w = .ok i → i.wf = true ∧ encode i = some w) ∧
  (∀ (i : Instr) (w : Nat), w < 2 ^ 32 → decodePort w = .ok i → i.wf = true ∧ encode i = some w)

/-- A step runs the decoded instruction: S its word at the program counter (R92; an engine's word is decoded and queued, R93; a word that is no
instruction is illegal, R264), a trailing stream the head of its queue, the trap core its word, a port its word, and an event itself. A ready
context issues before a mover whose turn comes after its own, and the clk ends where no mover is left or the next one's turn has passed (R101, R115;
the order is the model's where the spec gives none, log entry 1). Some words of the spec's examples decode
to the instructions they stand for. -/
def Obligations.StepRunsDecoded : Prop :=
  (∀ (s : State) (cid : Nat) (rest : List Mover) (bs : List Byte) (w : State), s.Moves (.stream cid .S) rest →
    let x := s.moved (.stream cid .S) rest
    let y := if (x.core (cid / 2)).gives.isSome = true ∧ x.wouldIssue (otherCtx cid) = true then x.modCore (cid / 2) (fun k => { k with gives := none }) else x
    let u := { y with cur := { s.cur with cid := cid, agent := .S } }
    let word := u.wordIn bs
    (s.ctx cid).canTry s.clk = true → x.issueTurn cid = true → u.Fetches w bs →
      (tagAgent word ≠ none → step s = exec (.engineInstructionDecode word) w) ∧
      (∀ i, tagAgent word = none → decodeMain word.toNat = .ok i → step s = exec i w) ∧
      (∀ e, tagAgent word = none → decodeMain word.toNat = .error e → step s = .next (w.trapS 1 0 0))) ∧
  (∀ (s : State) (cid : Nat) (a : Agent) (rest : List Mover) (e : QEnt) (q : List QEnt) (i : Instr), s.Moves (.stream cid a) rest →
    a = .C ∨ a = .M ∨ a = .R ∨ a = .K →
    let u := { s.moved (.stream cid a) rest with cur := { s.cur with cid := cid, agent := a } }
    (s.ctx cid).eng.q a = e :: q → (s.ctx cid).mayStart = true → Map.find (s.ctx cid).eng.began (pathOf a) ≠ some s.clk →
      (isFlow e.w = true → step s = .next u.started) ∧
      (isFlow e.w = false → decodeMain e.w.toNat = .ok i → step s = exec i u)) ∧
  (∀ (s : State) (c cid : Nat) (rest : List Mover) (bs : List Byte) (w : State) (i : Instr), s.Moves (.stream c .trapCore) rest →
    let k := (s.core (c / 2)).trap
    let u := { s.moved (.stream c .trapCore) rest with cur := { s.cur with cid := cid, agent := .trapCore } }
    k.serving = some cid → k.firmware = false → k.sc.nextIssue ≤ s.clk → k.sc.hold = .none → u.Fetches w bs → tagAgent (u.wordIn bs) = none →
      decodeMain (u.wordIn bs).toNat = .ok i → step s = exec i w) ∧
  (∀ (s : State) (r : PortRun) (i : Instr), s.portRun = some r → r.pc < (s.slot r.cid r.slot).endOf r.epi →
    decodePort ((s.slot r.cid r.slot).word r.pc) = .ok i → step s = exec i s) ∧
  (∀ (s : State) (port cid : Nat) (i : Instr) (rest : List Mover), s.Moves (.event port cid i) rest → s.boot.off = false →
    encode i = none → (∀ w, i ≠ .engineInstructionDecode w) →
    step s = exec i { s.moved (.event port cid i) rest with cur := { port := port, cid := cid, agent := .S } }) ∧
  (∀ (s : State) (m : Mover) (rest : List Mover) (cid : Nat), s.portRun = none → s.agenda = m :: rest → s.turn.passed m.rank = false →
    s.forced m = some cid → step s = s.runMover (.stream cid .S)) ∧
  (∀ s : State, s.portRun = none → (s.agenda = [] ∨ ∃ m rest, s.agenda = m :: rest ∧ s.turn.passed m.rank = true) → s.forced .idle = none →
    (s.boot.off = false → step s = .next (State.clkStart { s.clkEnd with clk := s.clkEnd.clk + 1, turn := ⟨0, 0, 0⟩ })) ∧
    (s.boot.off = true → step s = .next { s with clk := s.clk + 1, turn := ⟨0, 0, 0⟩ })) ∧
  decodeMain 0x0101404080000000 = .ok (.ld ⟨0, 20, 1, .w, .rlx, .core, false, .nh, 0⟩) ∧
  decodeMain 0x0DC9651500000000 = .ok (.fmul ⟨3, 22, 20, 21, false⟩) ∧
  decodeMain 0x0081960000000004 = .ok (.addi ⟨0, 25, 24, .d, 4⟩) ∧
  decodeMain 0xA014000053FFFFFD = .ok (.loop ⟨0, 20, 0x3FFFFFD⟩) ∧
  decodeMain 0x200C0101012802C8 = .ok (.copy ⟨0, ⟨none, some (1, 4)⟩, 0, some 10, none, 11⟩) ∧
  decodeMain 0x4018010500515582 = .ok (.mdrain ⟨0, ⟨none, some (5, 1)⟩, .mem, 20, 21, 22⟩) ∧
  decodeMain 0x600C010101000000 = .ok (.red ⟨0, ⟨none, some (1, 0)⟩, .max, 0⟩) ∧
  decodeMain 0x8008000001624000 = .ok (.kallred ⟨0, ⟨none, none⟩, 1, 24, 36⟩) ∧
  decodeMain 0xC000000000000000 = .error .badTag

/-- What reset leaves (R30, R38, R69, R74, R98, R123, R223, R342, R367): the device stands at stage ROM with PWR.CAP 3,200; no context runs a task, and
every register of it is at its reset value; no core has a vector table of its own, a line in L1 or a translation; every queue's priority is its number
divided by 8. That the memories list nothing, and so are in canonical form, and that a host port's window is empty are the model's choices (log entries
3 and 4). -/
def Obligations.ResetState : Prop :=
  State.reset.Canonical ∧ State.reset.boot.stage = 0 ∧ State.reset.power.cap = 3200 ∧ State.reset.sched.store = [] ∧ State.reset.images = [] ∧
  (∀ cid, let c := State.reset.ctx cid
    c.task = none ∧ (∀ clk r, c.sc.reg clk r = 0) ∧ (∀ clk r, c.sc.pred clk r = false) ∧ (∀ n, Map.getD c.sems n .fresh = ⟨0, 0, 0⟩) ∧
    c.sys.window = 64 ∧ c.trap.phase = .none ∧ c.trap.causes = [] ∧ c.locks = [] ∧ c.eng.chans = [] ∧ c.eng.array = none) ∧
  (∀ k, (State.reset.core k).tvec = none ∧ (State.reset.core k).helper = none ∧ (State.reset.core k).l1 = [] ∧ (State.reset.core k).tlb = [] ∧
    (State.reset.core k).trap.serving = none) ∧
  (∀ q, State.reset.queue q = ⟨0, 0, q / 8, 0⟩) ∧
  (∀ p, State.reset.hport p = .fresh) ∧
  (∀ m a, m ∈ [State.reset.mem.hbm, State.reset.mem.clus, State.reset.mem.chip, State.reset.mem.flash, State.reset.host.mem] → Mem.get m a = 0)

/-- Every step keeps every memory of the device, and those of the images, in canonical form: addresses rise, and no byte is listed that an unlisted
address reads as. So equal memories are equal data. That unlisted bytes read as zero is the model's choice (log entry 4). -/
def Obligations.StepKeepsMemories : Prop :=
  ∀ s t : State, s.Canonical → step s = .next t → t.Canonical
end

