-- ==== Sys2Proof/Laws/Map.lean ====
section
/-! SUPPORT. The laws of finite maps: reading what was put, what was removed, and the rising order of the keys. -/

namespace Sys2Proof.Machine

variable {α : Type}

theorem Map.find_put (m : Map α) (k : Nat) (v : α) (n : Nat) :
    Map.find (Map.put m k v) n = if n = k then some v else Map.find m n := by
  fun_induction Map.put m k v <;> grind [Map.find]

@[simp] theorem Map.find_put_same (m : Map α) (k : Nat) (v : α) : Map.find (Map.put m k v) k = some v := by
  simp [Map.find_put]

theorem Map.find_put_other (m : Map α) {k n : Nat} (v : α) (h : n ≠ k) :
    Map.find (Map.put m k v) n = Map.find m n := by simp [Map.find_put, h]

theorem Map.getD_put (m : Map α) (k : Nat) (v d : α) (n : Nat) :
    Map.getD (Map.put m k v) n d = if n = k then v else Map.getD m n d := by grind [Map.getD, Map.find_put]

@[simp] theorem Map.getD_put_same (m : Map α) (k : Nat) (v d : α) : Map.getD (Map.put m k v) k d = v := by
  simp [Map.getD_put]

theorem Map.getD_put_other (m : Map α) {k n : Nat} (v d : α) (h : n ≠ k) :
    Map.getD (Map.put m k v) n d = Map.getD m n d := by simp [Map.getD_put, h]

@[simp] theorem Map.put_put (m : Map α) (k : Nat) (v w : α) : Map.put (Map.put m k v) k w = Map.put m k w := by
  fun_induction Map.put m k v <;> grind [Map.put]

theorem Map.find_del (m : Map α) (k n : Nat) : Map.find (Map.del m k) n = if n = k then none else Map.find m n := by
  fun_induction Map.del m k <;> grind [Map.find]

/-- A function of the values leaves the keys. -/
theorem Map.find_map {β : Type} (f : α → β) (m : Map α) (n : Nat) :
    Map.find (m.map (fun x => (x.1, f x.2))) n = (Map.find m n).map f := by
  fun_induction Map.find m n <;> grind [Map.find]

theorem Map.key_mem_of_find {m : Map α} {n : Nat} {v : α} (h : Map.find m n = some v) : n ∈ m.map Prod.fst := by
  fun_induction Map.find m n <;> grind

theorem Map.wf_cons {a : Nat} {v : α} {m : Map α} :
    Map.wf ((a, v) :: m) = true ↔ (∀ x ∈ m, a < x.1) ∧ Map.wf m = true := by
  induction m generalizing a v with
  | nil => simp [Map.wf]
  | cons x m ih => simp only [Map.wf]; grind

theorem Map.key_of_mem_put {m : Map α} {k : Nat} {v : α} {x : Nat × α} (h : x ∈ Map.put m k v) : x.1 = k ∨ x ∈ m := by
  fun_induction Map.put m k v <;> grind

/-- Putting a value keeps the keys rising. -/
theorem Map.wf_put {m : Map α} (h : Map.wf m = true) (k : Nat) (v : α) : Map.wf (Map.put m k v) = true := by
  have key := fun x (y : Map α) (h : x ∈ Map.put y k v) => Map.key_of_mem_put h
  fun_induction Map.put m k v <;> simp only [Map.wf_cons] at * <;> grind

theorem Map.mem_of_mem_del {m : Map α} {k : Nat} {x : Nat × α} (h : x ∈ Map.del m k) : x ∈ m := by
  fun_induction Map.del m k <;> grind

/-- Removing a key keeps the keys rising. -/
theorem Map.wf_del {m : Map α} (h : Map.wf m = true) (k : Nat) : Map.wf (Map.del m k) = true := by
  have key := fun x (y : Map α) (h : x ∈ Map.del y k) => Map.mem_of_mem_del h
  induction m with
  | nil => rfl
  | cons x m ih => obtain ⟨hm, hw⟩ := Map.wf_cons.mp h; simp only [Map.del]; grind [Map.wf_cons]

end Sys2Proof.Machine
end

