-- ==== Sys2Proof/Laws/State.lean ====
section
/-! SUPPORT. Each update of the state against each part of it: one lemma per field per update, so that no later proof unfolds a
record update; and what issuing an instruction does (issue, res, retire). -/

namespace Sys2Proof.Machine

open Sys2Proof

/-! ## Contexts and cores -/

theorem State.ctx_setCtx (s : State) (a : Nat) (c : Ctx) (b : Nat) :
    (s.setCtx a c).ctx b = if b = a then c else s.ctx b := by
  simp [State.setCtx, State.ctx, Map.getD_put]

@[simp] theorem State.ctx_setCtx_same (s : State) (a : Nat) (c : Ctx) : (s.setCtx a c).ctx a = c := by
  simp [State.ctx_setCtx]

theorem State.ctx_modCtx (s : State) (a : Nat) (f : Ctx → Ctx) (b : Nat) :
    (s.modCtx a f).ctx b = if b = a then f (s.ctx a) else s.ctx b := by
  simp [State.modCtx, State.ctx_setCtx]

@[simp] theorem State.ctx_modCtx_same (s : State) (a : Nat) (f : Ctx → Ctx) : (s.modCtx a f).ctx a = f (s.ctx a) := by
  simp [State.modCtx]

theorem State.core_setCore (s : State) (a : Nat) (c : Core) (b : Nat) :
    (s.setCore a c).core b = if b = a then c else s.core b := by
  simp [State.setCore, State.core, Map.getD_put]

@[simp] theorem State.core_setCore_same (s : State) (a : Nat) (c : Core) : (s.setCore a c).core a = c := by
  simp [State.core_setCore]

theorem State.core_modCore (s : State) (a : Nat) (f : Core → Core) (b : Nat) :
    (s.modCore a f).core b = if b = a then f (s.core a) else s.core b := by
  simp [State.modCore, State.core_setCore]

@[simp] theorem State.core_modCore_same (s : State) (a : Nat) (f : Core → Core) :
    (s.modCore a f).core a = f (s.core a) := by simp [State.modCore]

@[simp] theorem State.core_setCtx (s : State) (a : Nat) (c : Ctx) (k : Nat) : (s.setCtx a c).core k = s.core k := rfl
@[simp] theorem State.core_modCtx (s : State) (a : Nat) (f : Ctx → Ctx) (k : Nat) : (s.modCtx a f).core k = s.core k := rfl
@[simp] theorem State.ctx_setCore (s : State) (a : Nat) (c : Core) (k : Nat) : (s.setCore a c).ctx k = s.ctx k := rfl
@[simp] theorem State.ctx_modCore (s : State) (a : Nat) (f : Core → Core) (k : Nat) : (s.modCore a f).ctx k = s.ctx k := rfl
@[simp] theorem State.outside_setCtx (s : State) (a : Nat) (c : Ctx) : (s.setCtx a c).outside = s.outside := rfl
@[simp] theorem State.outside_modCtx (s : State) (a : Nat) (f : Ctx → Ctx) : (s.modCtx a f).outside = s.outside := rfl
@[simp] theorem State.outside_setCore (s : State) (a : Nat) (c : Core) : (s.setCore a c).outside = s.outside := rfl
@[simp] theorem State.outside_modCore (s : State) (a : Nat) (f : Core → Core) : (s.modCore a f).outside = s.outside := rfl

/-! ## Fields

For each field of the state, the updates that leave it alone. -/

section Fields

variable (s : State) (a : Nat) (c : Ctx) (f : Ctx → Ctx) (k : Core) (g : Core → Core) (p : PortSt) (l : Coll) (q : Sched → Sched)

@[simp] theorem State.clk_setCtx : (s.setCtx a c).clk = s.clk := rfl
@[simp] theorem State.clk_modCtx : (s.modCtx a f).clk = s.clk := rfl
@[simp] theorem State.clk_modMe : (s.modMe f).clk = s.clk := rfl
@[simp] theorem State.clk_setCore : (s.setCore a k).clk = s.clk := rfl
@[simp] theorem State.clk_modCore : (s.modCore a g).clk = s.clk := rfl
@[simp] theorem State.clk_setHport : (s.setHport a p).clk = s.clk := rfl
@[simp] theorem State.clk_setColl : (s.setColl a l).clk = s.clk := rfl
@[simp] theorem State.clk_modSched : (s.modSched q).clk = s.clk := rfl
@[simp] theorem State.clk_bump : (s.bump).clk = s.clk := rfl

@[simp] theorem State.variant_setCtx : (s.setCtx a c).variant = s.variant := rfl
@[simp] theorem State.variant_modCtx : (s.modCtx a f).variant = s.variant := rfl
@[simp] theorem State.variant_modMe : (s.modMe f).variant = s.variant := rfl
@[simp] theorem State.variant_setCore : (s.setCore a k).variant = s.variant := rfl
@[simp] theorem State.variant_modCore : (s.modCore a g).variant = s.variant := rfl
@[simp] theorem State.variant_setHport : (s.setHport a p).variant = s.variant := rfl
@[simp] theorem State.variant_setColl : (s.setColl a l).variant = s.variant := rfl
@[simp] theorem State.variant_modSched : (s.modSched q).variant = s.variant := rfl
@[simp] theorem State.variant_bump : (s.bump).variant = s.variant := rfl

@[simp] theorem State.agenda_setCtx : (s.setCtx a c).agenda = s.agenda := rfl
@[simp] theorem State.agenda_modCtx : (s.modCtx a f).agenda = s.agenda := rfl
@[simp] theorem State.agenda_modMe : (s.modMe f).agenda = s.agenda := rfl
@[simp] theorem State.agenda_setCore : (s.setCore a k).agenda = s.agenda := rfl
@[simp] theorem State.agenda_modCore : (s.modCore a g).agenda = s.agenda := rfl
@[simp] theorem State.agenda_setHport : (s.setHport a p).agenda = s.agenda := rfl
@[simp] theorem State.agenda_setColl : (s.setColl a l).agenda = s.agenda := rfl
@[simp] theorem State.agenda_modSched : (s.modSched q).agenda = s.agenda := rfl
@[simp] theorem State.agenda_bump : (s.bump).agenda = s.agenda := rfl

@[simp] theorem State.turn_setCtx : (s.setCtx a c).turn = s.turn := rfl
@[simp] theorem State.turn_modCtx : (s.modCtx a f).turn = s.turn := rfl
@[simp] theorem State.turn_modMe : (s.modMe f).turn = s.turn := rfl
@[simp] theorem State.turn_setCore : (s.setCore a k).turn = s.turn := rfl
@[simp] theorem State.turn_modCore : (s.modCore a g).turn = s.turn := rfl
@[simp] theorem State.turn_setHport : (s.setHport a p).turn = s.turn := rfl
@[simp] theorem State.turn_setColl : (s.setColl a l).turn = s.turn := rfl
@[simp] theorem State.turn_modSched : (s.modSched q).turn = s.turn := rfl
@[simp] theorem State.turn_bump : (s.bump).turn = s.turn := rfl

@[simp] theorem State.cur_setCtx : (s.setCtx a c).cur = s.cur := rfl
@[simp] theorem State.cur_modCtx : (s.modCtx a f).cur = s.cur := rfl
@[simp] theorem State.cur_modMe : (s.modMe f).cur = s.cur := rfl
@[simp] theorem State.cur_setCore : (s.setCore a k).cur = s.cur := rfl
@[simp] theorem State.cur_modCore : (s.modCore a g).cur = s.cur := rfl
@[simp] theorem State.cur_setHport : (s.setHport a p).cur = s.cur := rfl
@[simp] theorem State.cur_setColl : (s.setColl a l).cur = s.cur := rfl
@[simp] theorem State.cur_modSched : (s.modSched q).cur = s.cur := rfl
@[simp] theorem State.cur_bump : (s.bump).cur = s.cur := rfl

@[simp] theorem State.free_setCtx : (s.setCtx a c).free = s.free := rfl
@[simp] theorem State.free_modCtx : (s.modCtx a f).free = s.free := rfl
@[simp] theorem State.free_modMe : (s.modMe f).free = s.free := rfl
@[simp] theorem State.free_setCore : (s.setCore a k).free = s.free := rfl
@[simp] theorem State.free_modCore : (s.modCore a g).free = s.free := rfl
@[simp] theorem State.free_setHport : (s.setHport a p).free = s.free := rfl
@[simp] theorem State.free_setColl : (s.setColl a l).free = s.free := rfl
@[simp] theorem State.free_modSched : (s.modSched q).free = s.free := rfl

@[simp] theorem State.portRun_setCtx : (s.setCtx a c).portRun = s.portRun := rfl
@[simp] theorem State.portRun_modCtx : (s.modCtx a f).portRun = s.portRun := rfl
@[simp] theorem State.portRun_modMe : (s.modMe f).portRun = s.portRun := rfl
@[simp] theorem State.portRun_setCore : (s.setCore a k).portRun = s.portRun := rfl
@[simp] theorem State.portRun_modCore : (s.modCore a g).portRun = s.portRun := rfl
@[simp] theorem State.portRun_setHport : (s.setHport a p).portRun = s.portRun := rfl
@[simp] theorem State.portRun_setColl : (s.setColl a l).portRun = s.portRun := rfl
@[simp] theorem State.portRun_modSched : (s.modSched q).portRun = s.portRun := rfl
@[simp] theorem State.portRun_bump : (s.bump).portRun = s.portRun := rfl

@[simp] theorem State.mgmt_setCtx : (s.setCtx a c).mgmt = s.mgmt := rfl
@[simp] theorem State.mgmt_modCtx : (s.modCtx a f).mgmt = s.mgmt := rfl
@[simp] theorem State.mgmt_modMe : (s.modMe f).mgmt = s.mgmt := rfl
@[simp] theorem State.mgmt_setCore : (s.setCore a k).mgmt = s.mgmt := rfl
@[simp] theorem State.mgmt_modCore : (s.modCore a g).mgmt = s.mgmt := rfl
@[simp] theorem State.mgmt_setHport : (s.setHport a p).mgmt = s.mgmt := rfl
@[simp] theorem State.mgmt_setColl : (s.setColl a l).mgmt = s.mgmt := rfl
@[simp] theorem State.mgmt_modSched : (s.modSched q).mgmt = s.mgmt := rfl
@[simp] theorem State.mgmt_bump : (s.bump).mgmt = s.mgmt := rfl

@[simp] theorem State.boot_setCtx : (s.setCtx a c).boot = s.boot := rfl
@[simp] theorem State.boot_modCtx : (s.modCtx a f).boot = s.boot := rfl
@[simp] theorem State.boot_modMe : (s.modMe f).boot = s.boot := rfl
@[simp] theorem State.boot_setCore : (s.setCore a k).boot = s.boot := rfl
@[simp] theorem State.boot_modCore : (s.modCore a g).boot = s.boot := rfl
@[simp] theorem State.boot_setHport : (s.setHport a p).boot = s.boot := rfl
@[simp] theorem State.boot_setColl : (s.setColl a l).boot = s.boot := rfl
@[simp] theorem State.boot_modSched : (s.modSched q).boot = s.boot := rfl
@[simp] theorem State.boot_bump : (s.bump).boot = s.boot := rfl

@[simp] theorem State.power_setCtx : (s.setCtx a c).power = s.power := rfl
@[simp] theorem State.power_modCtx : (s.modCtx a f).power = s.power := rfl
@[simp] theorem State.power_modMe : (s.modMe f).power = s.power := rfl
@[simp] theorem State.power_setCore : (s.setCore a k).power = s.power := rfl
@[simp] theorem State.power_modCore : (s.modCore a g).power = s.power := rfl
@[simp] theorem State.power_setHport : (s.setHport a p).power = s.power := rfl
@[simp] theorem State.power_setColl : (s.setColl a l).power = s.power := rfl
@[simp] theorem State.power_modSched : (s.modSched q).power = s.power := rfl
@[simp] theorem State.power_bump : (s.bump).power = s.power := rfl

@[simp] theorem State.hports_setCtx : (s.setCtx a c).hports = s.hports := rfl
@[simp] theorem State.hports_modCtx : (s.modCtx a f).hports = s.hports := rfl
@[simp] theorem State.hports_modMe : (s.modMe f).hports = s.hports := rfl
@[simp] theorem State.hports_setCore : (s.setCore a k).hports = s.hports := rfl
@[simp] theorem State.hports_modCore : (s.modCore a g).hports = s.hports := rfl
@[simp] theorem State.hports_setColl : (s.setColl a l).hports = s.hports := rfl
@[simp] theorem State.hports_modSched : (s.modSched q).hports = s.hports := rfl
@[simp] theorem State.hports_bump : (s.bump).hports = s.hports := rfl

@[simp] theorem State.host_setCtx : (s.setCtx a c).host = s.host := rfl
@[simp] theorem State.host_modCtx : (s.modCtx a f).host = s.host := rfl
@[simp] theorem State.host_modMe : (s.modMe f).host = s.host := rfl
@[simp] theorem State.host_setCore : (s.setCore a k).host = s.host := rfl
@[simp] theorem State.host_modCore : (s.modCore a g).host = s.host := rfl
@[simp] theorem State.host_setHport : (s.setHport a p).host = s.host := rfl
@[simp] theorem State.host_setColl : (s.setColl a l).host = s.host := rfl
@[simp] theorem State.host_modSched : (s.modSched q).host = s.host := rfl
@[simp] theorem State.host_bump : (s.bump).host = s.host := rfl

@[simp] theorem State.net_setCtx : (s.setCtx a c).net = s.net := rfl
@[simp] theorem State.net_modCtx : (s.modCtx a f).net = s.net := rfl
@[simp] theorem State.net_modMe : (s.modMe f).net = s.net := rfl
@[simp] theorem State.net_setCore : (s.setCore a k).net = s.net := rfl
@[simp] theorem State.net_modCore : (s.modCore a g).net = s.net := rfl
@[simp] theorem State.net_setHport : (s.setHport a p).net = s.net := rfl
@[simp] theorem State.net_setColl : (s.setColl a l).net = s.net := rfl
@[simp] theorem State.net_modSched : (s.modSched q).net = s.net := rfl
@[simp] theorem State.net_bump : (s.bump).net = s.net := rfl

@[simp] theorem State.sched_setCtx : (s.setCtx a c).sched = s.sched := rfl
@[simp] theorem State.sched_modCtx : (s.modCtx a f).sched = s.sched := rfl
@[simp] theorem State.sched_modMe : (s.modMe f).sched = s.sched := rfl
@[simp] theorem State.sched_setCore : (s.setCore a k).sched = s.sched := rfl
@[simp] theorem State.sched_modCore : (s.modCore a g).sched = s.sched := rfl
@[simp] theorem State.sched_setHport : (s.setHport a p).sched = s.sched := rfl
@[simp] theorem State.sched_setColl : (s.setColl a l).sched = s.sched := rfl
@[simp] theorem State.sched_bump : (s.bump).sched = s.sched := rfl

@[simp] theorem State.cores_setCtx : (s.setCtx a c).cores = s.cores := rfl
@[simp] theorem State.cores_modCtx : (s.modCtx a f).cores = s.cores := rfl
@[simp] theorem State.cores_modMe : (s.modMe f).cores = s.cores := rfl
@[simp] theorem State.cores_setHport : (s.setHport a p).cores = s.cores := rfl
@[simp] theorem State.cores_setColl : (s.setColl a l).cores = s.cores := rfl
@[simp] theorem State.cores_modSched : (s.modSched q).cores = s.cores := rfl
@[simp] theorem State.cores_bump : (s.bump).cores = s.cores := rfl

@[simp] theorem State.mem_setCtx : (s.setCtx a c).mem = s.mem := rfl
@[simp] theorem State.mem_modCtx : (s.modCtx a f).mem = s.mem := rfl
@[simp] theorem State.mem_modMe : (s.modMe f).mem = s.mem := rfl
@[simp] theorem State.mem_setCore : (s.setCore a k).mem = s.mem := rfl
@[simp] theorem State.mem_modCore : (s.modCore a g).mem = s.mem := rfl
@[simp] theorem State.mem_setHport : (s.setHport a p).mem = s.mem := rfl
@[simp] theorem State.mem_setColl : (s.setColl a l).mem = s.mem := rfl
@[simp] theorem State.mem_modSched : (s.modSched q).mem = s.mem := rfl
@[simp] theorem State.mem_bump : (s.bump).mem = s.mem := rfl

@[simp] theorem State.colls_setCtx : (s.setCtx a c).colls = s.colls := rfl
@[simp] theorem State.colls_modCtx : (s.modCtx a f).colls = s.colls := rfl
@[simp] theorem State.colls_modMe : (s.modMe f).colls = s.colls := rfl
@[simp] theorem State.colls_setCore : (s.setCore a k).colls = s.colls := rfl
@[simp] theorem State.colls_modCore : (s.modCore a g).colls = s.colls := rfl
@[simp] theorem State.colls_setHport : (s.setHport a p).colls = s.colls := rfl
@[simp] theorem State.colls_modSched : (s.modSched q).colls = s.colls := rfl
@[simp] theorem State.colls_bump : (s.bump).colls = s.colls := rfl

@[simp] theorem State.images_setCtx : (s.setCtx a c).images = s.images := rfl
@[simp] theorem State.images_modCtx : (s.modCtx a f).images = s.images := rfl
@[simp] theorem State.images_modMe : (s.modMe f).images = s.images := rfl
@[simp] theorem State.images_setCore : (s.setCore a k).images = s.images := rfl
@[simp] theorem State.images_modCore : (s.modCore a g).images = s.images := rfl
@[simp] theorem State.images_setHport : (s.setHport a p).images = s.images := rfl
@[simp] theorem State.images_setColl : (s.setColl a l).images = s.images := rfl
@[simp] theorem State.images_modSched : (s.modSched q).images = s.images := rfl
@[simp] theorem State.images_bump : (s.bump).images = s.images := rfl

@[simp] theorem State.ctxs_setCore : (s.setCore a k).ctxs = s.ctxs := rfl
@[simp] theorem State.ctxs_modCore : (s.modCore a g).ctxs = s.ctxs := rfl
@[simp] theorem State.ctxs_setHport : (s.setHport a p).ctxs = s.ctxs := rfl
@[simp] theorem State.ctxs_setColl : (s.setColl a l).ctxs = s.ctxs := rfl
@[simp] theorem State.ctxs_modSched : (s.modSched q).ctxs = s.ctxs := rfl
@[simp] theorem State.ctxs_bump : (s.bump).ctxs = s.ctxs := rfl

end Fields

end Sys2Proof.Machine
end

