-- ==== Sys2Proof/Laws/Issue.lean ====
section
/-! SUPPORT. What issuing an instruction does: the conditions of `Ready` let it issue, and a retirement or a result changes the
scalar part of its agent and nothing else. -/

namespace Sys2Proof.Machine

open Sys2Proof

/-! ## Frames -/

theorem State.Keeps.cur {s t : State} (h : s.Keeps t) : t.cur = s.cur := by
  have := congrArg State.cur h.outside; exact this

theorem State.Keeps.clk {s t : State} (h : s.Keeps t) : t.clk = s.clk := by
  have := congrArg State.clk h.outside; exact this

theorem State.Keeps.mem {s t : State} (h : s.Keeps t) : t.mem = s.mem := by
  have := congrArg State.mem h.outside; exact this

theorem State.Keeps.refl (s : State) : s.Keeps s := ⟨rfl, fun _ _ => rfl, rfl, fun _ _ => rfl, rfl⟩

theorem State.Keeps.trans {s t u : State} (h : s.Keeps t) (h' : t.Keeps u) : s.Keeps u := by
  have hc := h.cur
  obtain ⟨a1, a2, a3, a4, a5⟩ := h
  obtain ⟨b1, b2, b3, b4, b5⟩ := h'
  have hm : t.myCore = s.myCore := by unfold State.myCore; rw [hc]
  rw [hc] at b2 b3 b5
  rw [hm] at b4 b5
  exact ⟨b1.trans a1, fun c h => (b2 c h).trans (a2 c h), b3.trans a3, fun k h => (b4 k h).trans (a4 k h), b5.trans a5⟩

/-- Replacing the scalar part of the agent at the cursor. -/
theorem State.setSca_frame (s : State) (sc : Scalar) : s.Keeps (s.setSca sc) := by
  unfold State.setSca
  cases h : s.cur.agent
  case trapCore | helper =>
    refine ⟨rfl, fun _ _ => rfl, rfl, fun k hk => by simp [State.core_modCore, hk], ?_⟩
    rw [State.core_modCore_same, h]
    first
    | rfl
    | (simp only [Core.restFor]
       cases (s.core s.myCore).helper <;> rfl)
  all_goals
    refine ⟨rfl, fun c hc => by simp [State.modMe, State.ctx_modCtx, hc], ?_, fun _ _ => rfl, rfl⟩
    simp [State.me, State.modMe, h, Ctx.restFor]

theorem State.sca_setSca {s : State} (h : s.HasAgent) (sc : Scalar) : (s.setSca sc).sca = sc := by
  unfold State.setSca State.sca
  cases ha : s.cur.agent
  case helper =>
    have hh := h ha
    obtain ⟨x, hx⟩ := Option.isSome_iff_exists.mp hh
    simp [ha, State.modCore, State.setCore, State.myCore, State.core] at hx ⊢
    simp [hx]
  case trapCore =>
    simp [ha, State.modCore, State.setCore, State.myCore, State.core]
  all_goals simp [ha, State.modMe, State.me, State.modCtx, State.setCtx, State.ctx]

@[simp] theorem State.cur_setSca (s : State) (sc : Scalar) : (s.setSca sc).cur = s.cur := (s.setSca_frame sc).cur
@[simp] theorem State.clk_setSca (s : State) (sc : Scalar) : (s.setSca sc).clk = s.clk := (s.setSca_frame sc).clk
@[simp] theorem State.myCore_setSca (s : State) (sc : Scalar) : (s.setSca sc).myCore = s.myCore := by
  unfold State.myCore; rw [s.cur_setSca]

theorem State.hasAgent_setSca {s : State} (h : s.HasAgent) (sc : Scalar) : (s.setSca sc).HasAgent := by
  intro ha
  rw [s.cur_setSca] at ha
  have hh := h ha
  rw [s.myCore_setSca]
  obtain ⟨x, hx⟩ := Option.isSome_iff_exists.mp hh
  simp [State.setSca, ha, hx]

/-! ## Issuing -/

theorem State.Here.not_held {s : State} {rs : List Nat} (h : s.Here rs) : s.held rs = false := by
  unfold State.held Scalar.pending
  rw [List.any_eq_false]
  intro r hr
  have hh := h r hr
  simp only [Bool.and_eq_true, Bool.or_eq_true, List.any_eq_true, bne_iff_ne, List.contains_eq_mem, decide_eq_true_eq, beq_iff_eq, not_and]
  intro h0 hp
  obtain ⟨a, b⟩ := hh h0
  rcases hp with hp | ⟨l, hl, ⟨hv, hr⟩, hc⟩
  · exact a hp
  · have := b l hl hr hv; omega

theorem State.Here.append {s : State} {rs qs : List Nat} (h : s.Here rs) (h' : s.Here qs) : s.Here (rs ++ qs) :=
  fun r hr => (List.mem_append.mp hr).elim (h r) (h' r)

theorem State.here_nil (s : State) : s.Here [] := fun _ hr => by cases hr

theorem State.Ready.no_stall {s : State} {srcs : List Nat} {dst : Option (Nat × Nat)} (h : s.Ready srcs dst)
    (hc : s.checking = true) : s.sca.stallReg s.clk srcs dst = none := by
  unfold Scalar.stallReg
  have h1 : srcs.find? (fun r => r != 0 && s.sca.land.any (fun l => decide (l.reg = r) && decide (s.clk < l.clk))) = none := by
    rw [List.find?_eq_none]
    intro r hr
    simp only [Bool.and_eq_true, bne_iff_ne, ne_eq, List.any_eq_true, decide_eq_true_eq, not_and, not_exists]
    intro h0 l hl hlr
    have := h.srcs_landed hc r hr h0 l hl hlr
    omega
  rw [h1]
  cases dst with
  | none => rfl
  | some d =>
    obtain ⟨r, lat⟩ := d
    simp only
    rw [if_neg]
    simp only [Bool.and_eq_true, bne_iff_ne, ne_eq, List.any_eq_true, decide_eq_true_eq, not_and, not_exists]
    intro h0 l hl hlr
    have := h.dst_last hc _ rfl h0 l hl hlr.1
    simp only at this
    omega

/-- A ready instruction issues: its effect is what happens. -/
theorem State.Ready.issue {s : State} {srcs : List Nat} {dst : Option (Nat × Nat)} (h : s.Ready srcs dst) (k : Res) :
    s.issue srcs dst k = k := by
  have hk : (if s.checking then
      (match s.sca.stallReg s.clk srcs dst with
       | some r => (.next (s.trapS 4 r 0) : Res)
       | none => k)
    else k) = k := by
    cases hc : s.checking
    · rfl
    · rw [h.no_stall hc]; rfl
  unfold State.issue
  cases dst with
  | none => rw [(h.srcs_here.append s.here_nil).not_held]; exact hk
  | some d => rw [(h.srcs_here.append (h.dst_free d rfl)).not_held]; exact hk

/-- One of variable latency issues too, where its own results are not pending. -/
theorem State.Ready.issueVar {s : State} {srcs dsts : List Nat} (h : s.Ready srcs none) (hd : s.Here dsts) (k : Res) :
    s.issueVar srcs dsts k = k := by
  unfold State.issueVar
  rw [hd.not_held, h.issue]; rfl

/-- Nothing is pending or on its way and the scoreboard is off: every instruction may issue. -/
theorem State.ready_of_quiet {s : State} (ha : s.HasAgent) (hp : s.sca.pend = []) (hl : s.sca.land = []) (hc : s.checking = false)
    (srcs : List Nat) (dst : Option (Nat × Nat)) : s.Ready srcs dst :=
  ⟨ha, fun _ _ _ => by simp [hp, hl], fun _ _ _ _ _ => by simp [hp, hl], fun h => by simp [hc] at h, fun h => by simp [hc] at h⟩

/-! ## Retiring -/

/-- Taking the issue slot leaves everything but the core's last issue. -/
theorem State.takeSlot_frame (u : State) : u.Keeps u.takeSlot ∧ u.takeSlot.sca = u.sca := by
  unfold State.takeSlot
  cases ha : u.cur.agent
  case helper =>
    refine ⟨⟨rfl, fun _ _ => rfl, rfl, fun k hk => by simp [State.core_modCore, hk], ?_⟩, ?_⟩
    · rw [State.core_modCore_same, ha]; rfl
    · simp only [State.sca, State.cur_modCore, ha, State.myCore]; simp
  case S =>
    refine ⟨⟨rfl, fun _ _ => rfl, rfl, fun k hk => by simp [State.core_modCore, hk], ?_⟩, ?_⟩
    · rw [State.core_modCore_same, ha]; rfl
    · simp only [State.sca, State.cur_modCore, ha]; rfl
  all_goals exact ⟨State.Keeps.refl u, rfl⟩

theorem State.retire_goesTo {s : State} (h : s.HasAgent) (st extra : Nat) (next : Word) :
    s.GoesTo (s.retire st extra next) st extra next := by
  have hs := State.sca_setSca h (s.sca.issued s.clk st extra next)
  obtain ⟨hf, he⟩ := (s.setSca (s.sca.issued s.clk st extra next)).takeSlot_frame
  exact ⟨he.trans hs, (s.setSca_frame _).trans hf⟩

/-- Parking holds the agent and runs its stall count. -/
theorem State.park_parks {s : State} (h : s.HasAgent) (k : Hold) (st : Nat) : s.Parks (s.park k st) k st := by
  have hs := State.sca_setSca h { s.sca with hold := k, nextIssue := s.clk + 1 + st }
  obtain ⟨hf, he⟩ := (s.setSca { s.sca with hold := k, nextIssue := s.clk + 1 + st }).takeSlot_frame
  exact ⟨he.trans hs, (s.setSca_frame _).trans hf⟩

/-- An instruction that waited goes on. -/
theorem State.go_endsFree {s : State} (h : s.HasAgent) : s.EndsFree s.go :=
  ⟨State.sca_setSca h _, s.setSca_frame _⟩

theorem State.adv_passes {s : State} (h : s.HasAgent) (st : Nat) : s.Passes (s.adv st) st :=
  State.retire_goesTo h st 0 (s.pc + 8)

theorem State.res_eq (s : State) (rd : Nat) (v : Word) (lat : Nat) :
    s.res rd v lat = s.setSca { s.sca with land := s.sca.landAfter s.clk rd v lat } := by
  unfold State.res Scalar.result Scalar.landAfter
  split <;> rfl

theorem State.resVar_eq (s : State) (rd : Nat) (v : Word) :
    s.resVar rd v = s.setSca { s.sca with land := s.sca.landVar s.clk rd v } := by
  unfold State.resVar Scalar.resultVar Scalar.landVar
  split <;> rfl

theorem State.pc_setSca {s : State} (h : s.HasAgent) (sc : Scalar) : (s.setSca sc).pc = sc.pc := by
  unfold State.pc; rw [State.sca_setSca h]

/-- Results on their way, then the issue: what the instruction gives. -/
theorem State.land_retire {s : State} (h : s.HasAgent) (land : List Landing) (st extra : Nat) (next : Word) :
    s.LandsTo ((s.setSca { s.sca with land := land }).retire st extra next) land st extra next := by
  have g := State.retire_goesTo (State.hasAgent_setSca h { s.sca with land := land }) st extra next
  exact ⟨by rw [g.scalar, State.sca_setSca h]; simp, (s.setSca_frame _).trans g.frame⟩

theorem State.resVar_adv_gives {s : State} (h : s.HasAgent) (rd : Nat) (v : Word) (st : Nat) :
    s.GivesVar ((s.resVar rd v).adv st) rd v st := by
  rw [State.resVar_eq]
  unfold State.adv
  rw [State.pc_setSca h]
  exact State.land_retire h _ st 0 _

/-- The same for an instruction that waited. -/
theorem State.resVar_go_ends {s : State} (h : s.HasAgent) (rd : Nat) (v : Word) : s.EndsWith (s.resVar rd v).go rd v := by
  rw [State.resVar_eq]
  have g := State.go_endsFree (State.hasAgent_setSca h { s.sca with land := s.sca.landVar s.clk rd v })
  exact ⟨by rw [g.scalar, State.sca_setSca h]; simp, (s.setSca_frame _).trans g.frame⟩

@[simp] theorem State.clk_res (s : State) (rd : Nat) (v : Word) (lat : Nat) : (s.res rd v lat).clk = s.clk := by
  rw [State.res_eq]; simp

@[simp] theorem State.cur_res (s : State) (rd : Nat) (v : Word) (lat : Nat) : (s.res rd v lat).cur = s.cur := by
  rw [State.res_eq]; simp

theorem State.pc_res {s : State} (h : s.HasAgent) (rd : Nat) (v : Word) (lat : Nat) : (s.res rd v lat).pc = s.pc := by
  rw [State.res_eq, State.pc_setSca h]; rfl

theorem State.hasAgent_res {s : State} (h : s.HasAgent) (rd : Nat) (v : Word) (lat : Nat) : (s.res rd v lat).HasAgent := by
  rw [State.res_eq]; exact State.hasAgent_setSca h _

theorem State.res_retire_givesTo {s : State} (h : s.HasAgent) (rd : Nat) (v : Word) (lat st extra : Nat) (next : Word) :
    s.GivesTo ((s.res rd v lat).retire st extra next) rd v lat st extra next := by
  rw [State.res_eq]
  exact State.land_retire h _ st extra next

theorem State.res_adv_gives {s : State} (h : s.HasAgent) (rd : Nat) (v : Word) (lat st : Nat) :
    s.Gives ((s.res rd v lat).adv st) rd v lat st := by
  have g := State.res_retire_givesTo h rd v lat st 0 (s.pc + 8)
  unfold State.adv
  rw [State.pc_res h]
  exact g

/-- An instruction whose whole effect is one result gives it. -/
theorem State.result_gives {s : State} {srcs : List Nat} {rd lat : Nat} (h : s.Ready srcs (some (rd, lat))) (v : Word)
    (st : Nat) : ∃ t, s.result st srcs rd v lat = .next t ∧ s.Gives t rd v lat st := by
  refine ⟨_, ?_, State.res_adv_gives h.agent rd v lat st⟩
  unfold State.result
  rw [h.issue]

/-- The same for one of variable latency. -/
theorem State.resultVar_gives {s : State} {srcs : List Nat} {rd : Nat} (h : s.Ready srcs none) (hd : s.Here [rd]) (v : Word)
    (st : Nat) : ∃ t, s.resultVar st srcs rd v = .next t ∧ s.GivesVar t rd v st := by
  refine ⟨_, ?_, State.resVar_adv_gives h.agent rd v st⟩
  unfold State.resultVar
  rw [h.issueVar hd]

end Sys2Proof.Machine
end

