-- ==== Sys2Proof/Laws/Trap.lean ====
section
/-! SUPPORT. Taking an exception: what `raise` and `trapS` do (R215, R217), and how results on their way land (R103, R104). -/

namespace Sys2Proof.Machine

open Sys2Proof

theorem wakeNow_woken (c : Ctx) : Hold.wokenBy c.sc.hold c.wakeNow.sc.hold := by
  unfold Ctx.wakeNow Hold.wokenBy
  cases h : c.sc.hold <;> simp [h]

theorem wokenBy_refl (h : Hold) : Hold.wokenBy h h := .inl rfl

theorem wakeNow_rest (c : Ctx) : { c.wakeNow with sc := { c.wakeNow.sc with hold := .none } } = { c with sc := { c.sc with hold := .none } } := by
  unfold Ctx.wakeNow
  cases h : c.sc.hold <;> rfl

theorem wakeNow_trap (c : Ctx) : c.wakeNow.trap = c.trap := by
  unfold Ctx.wakeNow; cases h : c.sc.hold <;> rfl

theorem ctx_wakeCore (s : State) (cid c : Nat) :
    (s.wakeCore cid).ctx c = if c / 2 = cid / 2 then (s.ctx c).wakeNow else s.ctx c := by
  unfold State.wakeCore
  rw [State.ctx_modCtx, State.ctx_modCtx, State.ctx_modCtx]
  by_cases h1 : c = cid / 2 * 2 + 1
  · subst h1
    have h2 : ¬ cid / 2 * 2 + 1 = cid / 2 * 2 := by omega
    have h3 : (cid / 2 * 2 + 1) / 2 = cid / 2 := by omega
    simp [h3]
  · by_cases h2 : c = cid / 2 * 2
    · subst h2
      have h3 : (cid / 2 * 2) / 2 = cid / 2 := by omega
      simp [h3]
    · have h3 : ¬ c / 2 = cid / 2 := by omega
      simp [h1, h2, h3]

theorem ctx_endHelper (s : State) (k c : Nat) : (s.endHelper k).ctx c = s.ctx c := rfl

theorem ctx_endHelperOf (s : State) (k c : Nat) : (s.endHelperOf k).ctx c = s.ctx c := by
  unfold State.endHelperOf
  cases (s.core (k / 2)).helper with
  | none => rfl
  | some h => dsimp only; split <;> rfl

theorem outside_endHelperOf (s : State) (k : Nat) : (s.endHelperOf k).outside = s.outside := by
  unfold State.endHelperOf
  cases (s.core (k / 2)).helper with
  | none => rfl
  | some h => dsimp only; split <;> rfl

theorem core_endHelperOf (s : State) (k c : Nat) : { (s.endHelperOf k).core c with helper := none } = { s.core c with helper := none } := by
  unfold State.endHelperOf
  cases (s.core (k / 2)).helper with
  | none => rfl
  | some h =>
    dsimp only
    split
    · unfold State.endHelper; rw [State.core_modCore]; split
      · rename_i e; subst e; rfl
      · rfl
    · rfl

/-- A first cause freezes its context as R215 says, and nothing else happens. -/
theorem detect_traps (s : State) (cid : Nat) (once : Bool) (f : Frame) (h : (s.ctx cid).trap.phase = .none) :
    s.Traps (s.detect cid ⟨f, once⟩) cid once f := by
  have hctx : ∀ c, (s.detect cid ⟨f, once⟩).ctx c =
      if c = cid then { (s.ctx cid).wakeNow with trap := (s.ctx cid).trap.entered s.clk once f }
      else if c / 2 = cid / 2 then (s.ctx c).wakeNow else s.ctx c := by
    intro c
    unfold State.detect
    rw [State.ctx_modCtx, ctx_endHelperOf, ctx_endHelperOf, ctx_wakeCore, ctx_wakeCore]
    by_cases hc : c = cid
    · subst hc
      simp [Ctx.modTrap, wakeNow_trap, TrapSt.entered, TrapSt.detect, h]
    · simp [hc]
  constructor
  · rw [hctx]; simp
  · rw [hctx]; simp only [if_true]
    have := wakeNow_rest (s.ctx cid)
    rw [Ctx.mk.injEq] at this ⊢
    simp only [] at this ⊢
    tauto
  · intro c hc
    rw [hctx]; simp only [hc, if_false]
    split
    · exact wakeNow_rest _
    · rfl
  · intro c
    rw [hctx]
    split
    · rename_i e; subst e; exact wakeNow_woken _
    · split
      · exact wakeNow_woken _
      · exact wokenBy_refl _
  · intro c hc
    rw [hctx]
    have : c ≠ cid := fun e => hc (by rw [e])
    simp [this, hc]
  · unfold State.detect
    rw [State.outside_modCtx, outside_endHelperOf]; rfl
  · intro k
    unfold State.detect
    rw [State.core_modCtx, core_endHelperOf]; rfl

theorem raise_traps (s : State) (cid : Nat) (f : Frame) (h : (s.ctx cid).trap.phase = .none) : s.Traps (s.raise cid f) cid false f :=
  detect_traps s cid false f h

theorem raiseOnce_traps (s : State) (cid : Nat) (f : Frame) (h : (s.ctx cid).trap.phase = .none) : s.Traps (s.raiseOnce cid f) cid true f :=
  detect_traps s cid true f h

theorem trapAs_main {s : State} (hm : s.OnMain) (once : Bool) (code detail : Nat) (fa : Word) :
    s.trapAs once code detail fa = s.detect s.cur.cid ⟨s.frameS code detail fa, once⟩ := by
  unfold State.trapAs; rw [hm]; rfl

theorem trapS_traps {s : State} (hm : s.OnMain) (h : s.me.trap.phase = .none) (code detail : Nat) (fa : Word) :
    s.TrapsS (s.trapS code detail fa) code detail fa := by
  unfold State.trapS; rw [trapAs_main hm]; exact detect_traps s s.cur.cid false _ h

theorem trapAs_traps {s : State} (hm : s.OnMain) (h : s.me.trap.phase = .none) (code detail : Nat) (fa : Word) :
    s.TrapsOnce (s.trapAs true code detail fa) code detail fa := by
  rw [trapAs_main hm]; exact detect_traps s s.cur.cid true _ h

theorem mainOnly_main {s : State} (hm : s.OnMain) (k : Res) : s.mainOnly k = k := by unfold State.mainOnly; rw [hm]

theorem mem_addLanding (n x : Landing) (ls : List Landing) : x ∈ addLanding n ls ↔ x = n ∨ x ∈ ls := by
  induction ls with
  | nil => simp [addLanding]
  | cons l ls ih =>
    simp only [addLanding]
    split
    · simp
    · simp [ih]; tauto

theorem sorted_addLanding (n : Landing) (ls : List Landing) (h : ls.Pairwise (fun a b => a.clk ≤ b.clk)) :
    (addLanding n ls).Pairwise (fun a b => a.clk ≤ b.clk) := by
  induction ls with
  | nil => simp [addLanding]
  | cons l ls ih =>
    rw [List.pairwise_cons] at h
    simp only [addLanding]
    split
    · rename_i hlt
      rw [List.pairwise_cons, List.pairwise_cons]
      refine ⟨fun x hx => ?_, h⟩
      rcases List.mem_cons.mp hx with rfl | hx
      · omega
      · have := h.1 x hx; omega
    · rename_i hlt
      rw [List.pairwise_cons]
      refine ⟨fun x hx => ?_, ih h.2⟩
      rcases (mem_addLanding n x ls).mp hx with rfl | hx
      · omega
      · exact h.1 x hx

theorem landedVal_add_other (n : Landing) (ls : List Landing) (c r : Nat) (h : r ≠ n.reg ∨ c < n.clk) :
    landedVal (addLanding n ls) c r = landedVal ls c r := by
  have hn : ¬ (n.reg = r ∧ n.clk ≤ c) := by rintro ⟨a, b⟩; rcases h with h | h; exact h a.symm; omega
  induction ls with
  | nil => simp [addLanding, landedVal, hn]
  | cons l ls ih =>
    simp only [addLanding]
    split
    · simp only [landedVal, hn, if_false]; split <;> simp_all
    · simp only [landedVal, ih]

theorem landedVal_none (ls : List Landing) (c r : Nat) (h : ∀ l ∈ ls, ¬ (l.reg = r ∧ l.clk ≤ c)) : landedVal ls c r = none := by
  induction ls with
  | nil => rfl
  | cons l ls ih =>
    rw [landedVal, ih (fun x hx => h x (List.mem_cons_of_mem _ hx))]
    simp only [h l List.mem_cons_self, if_false]

theorem landedVal_add_same (n : Landing) (ls : List Landing) (c : Nat) (hs : ls.Pairwise (fun a b => a.clk ≤ b.clk))
    (hl : ∀ l ∈ ls, l.reg = n.reg → l.clk ≤ n.clk) (hc : n.clk ≤ c) : landedVal (addLanding n ls) c n.reg = some n.val := by
  induction ls with
  | nil => simp [addLanding, landedVal, hc]
  | cons l ls ih =>
    rw [List.pairwise_cons] at hs
    simp only [addLanding]
    split
    · rename_i hlt
      have : landedVal (l :: ls) c n.reg = none := by
        apply landedVal_none
        rintro x hx ⟨h1, h2⟩
        have := hl x hx h1
        rcases List.mem_cons.mp hx with rfl | hx
        · omega
        · have := hs.1 x hx; omega
      rw [landedVal, this]; simp [hc]
    · rw [landedVal, ih hs.2 (fun x hx => hl x (List.mem_cons_of_mem _ hx))]

end Sys2Proof.Machine
end

