-- ==== Sys2Proof/Laws/Operands.lean ====
section
/-! SUPPORT. Operand forms: conditions (R266, R292), branch targets (R299), and the agents that an instruction excludes. -/

namespace Sys2Proof.Machine

open Sys2Proof

theorem holds_iff_meets (c : Cond) (z : Width) (a b : Word) : c.holds z a b = true ↔ c.meets z a b := by
  have e : z.uns a = z.uns b ↔ z.sgn a = z.sgn b := by
    cases z
    · simp only [Width.uns, Width.sgn, Width.bits, BitVec.toInt_eq_toNat_cond]; have := a.isLt; have := b.isLt
      split <;> split <;> omega
    · simp only [Width.uns, Width.sgn, Width.bits, sextN]
      have h1 : ∀ x : Word, (if x.toNat % 2 ^ 32 < 2 ^ (32 - 1) then BitVec.ofNat 64 (x.toNat % 2 ^ 32)
        else BitVec.ofNat 64 (x.toNat % 2 ^ 32) - BitVec.ofNat 64 (2 ^ 32)).toInt =
        (if x.toNat % 2 ^ 32 < 2 ^ 31 then (x.toNat % 2 ^ 32 : Int) else (x.toNat % 2 ^ 32 : Int) - 2 ^ 32) := by
        intro x
        split
        · rw [BitVec.toInt_eq_toNat_cond]; simp only [BitVec.toNat_ofNat]; split <;> omega
        · rw [BitVec.toInt_eq_toNat_cond]; simp only [BitVec.toNat_sub, BitVec.toNat_ofNat]; split <;> omega
      rw [h1, h1]
      split <;> split <;> omega
  cases c <;> simp [Cond.holds, Cond.meets, Cond.unsigned, Cond.relates, e]

/-- A relative target is the address plus 8 times the offset (R299). -/
theorem State.target_eq_rel (s : State) (off : BitVec 26) : s.target off = s.rel off := by
  have h1 := off.toInt_le
  have h2 := off.le_toInt
  have hb : off.toInt.bmod 67108864 = off.toInt := by
    rw [Int.bmod_eq_of_le] <;> omega
  unfold State.target State.rel
  apply BitVec.eq_of_toInt_eq
  simp only [BitVec.toInt_ofInt, BitVec.toInt_add, BitVec.toInt_mul, BitVec.toInt_signExtend]
  simp [hb]

theorem State.notHelper_eq {s : State} (h : s.cur.agent ≠ .helper) (k : Res) : s.notHelper k = k := by
  unfold State.notHelper
  cases ha : s.cur.agent <;> first | rfl | exact absurd ha h

theorem State.hasAgent_follow {s : State} (h : s.HasAgent) : s.follow.HasAgent := by
  unfold State.follow
  split
  case h_1 hs => intro ha; rw [State.modMe, State.cur_modCtx, hs] at ha; cases ha
  all_goals exact h

theorem State.branch_taken {s : State} (h : s.HasAgent) (st : Nat) (t : Word) : s.follow.GoesTo (s.branch st true t) st 1 t :=
  State.retire_goesTo (State.hasAgent_follow h) _ _ _

theorem State.branch_not {s : State} (h : s.HasAgent) (st : Nat) (t : Word) : s.follow.Passes (s.branch st false t) st :=
  State.adv_passes (State.hasAgent_follow h) _

/-- A conditional branch goes to its target exactly where its condition holds. -/
theorem State.branch_iff {s : State} (h : s.HasAgent) (st : Nat) (t : Word) {b : Bool} {P : Prop} (hb : b = true ↔ P) :
    (P → s.follow.GoesTo (s.branch st b t) st 1 t) ∧ (¬ P → s.follow.Passes (s.branch st b t) st) := by
  cases b
  · exact ⟨fun p => absurd (hb.mpr p) (by simp), fun _ => State.branch_not h _ _⟩
  · exact ⟨fun _ => State.branch_taken h _ _, fun p => absurd (hb.mp rfl) p⟩

end Sys2Proof.Machine
end

