-- ==== Sys2Proof/Laws/Cache.lean ====
section
/-! SUPPORT. What writes and the L1 cache do: a write to local memory, a write-back and an invalidation move data and wake monitors, and
change nothing else (R125, R143, R308). -/

namespace Sys2Proof.Machine

open Sys2Proof

theorem Hold.wokenBy_trans {a b c : Hold} (h : Hold.wokenBy a b) (h' : Hold.wokenBy b c) : Hold.wokenBy a c := by
  rcases h with rfl | ⟨w, rfl, rfl⟩
  · exact h'
  · rcases h' with rfl | ⟨w', h1, rfl⟩
    · exact .inr ⟨w, rfl, rfl⟩
    · cases h1; exact .inr ⟨w, rfl, rfl⟩

theorem State.MovesData.cur {s t : State} {k : Nat} (h : s.MovesData t k) : t.cur = s.cur := by
  have := congrArg State.cur h.rest; exact this
theorem State.MovesData.clk {s t : State} {k : Nat} (h : s.MovesData t k) : t.clk = s.clk := by
  have := congrArg State.clk h.rest; exact this
theorem State.MovesData.sched {s t : State} {k : Nat} (h : s.MovesData t k) : t.sched = s.sched := by
  have := congrArg State.sched h.rest; exact this
theorem State.MovesData.keys {s t : State} {k : Nat} (h : s.MovesData t k) : t.mem.keys = s.mem.keys := by
  have := congrArg MemSt.keys h.mem; exact this

theorem State.MovesData.refl (s : State) (k : Nat) : s.MovesData s k :=
  ⟨rfl, rfl, rfl, fun _ => rfl, fun _ => .inl rfl, fun _ _ => rfl, rfl⟩

theorem State.MovesData.trans {s t u : State} {k : Nat} (h : s.MovesData t k) (h' : t.MovesData u k) : s.MovesData u k := by
  refine ⟨?_, h'.mem.trans h.mem, h'.net.trans h.net, fun c => (h'.ctxs c).trans (h.ctxs c),
    fun c => Hold.wokenBy_trans (h.holds c) (h'.holds c), fun c hc => (h'.cores c hc).trans (h.cores c hc), h'.mine.trans h.mine⟩
  have a := h.rest
  have b := congrArg (fun x : State => { x with mem := s.mem, net := s.net }) h'.rest
  exact b.trans a

/-- A change of what is stored in HBM, and of the messages that follow from it, moves data. -/
theorem State.MovesData.of_parts {s t : State} (k : Nat) (hr : { t with mem := s.mem, net := s.net } = s)
    (hm : { t.mem with hbm := [], unitKey := [], poison := [], weak := [] } = { s.mem with hbm := [], unitKey := [], poison := [], weak := [] })
    (hn : { t.net with sent := [], waiting := [], watch := [] } = { s.net with sent := [], waiting := [], watch := [] }) : s.MovesData t k := by
  have h4 : t.ctxs = s.ctxs := by have := congrArg State.ctxs hr; exact this
  have h5 : t.cores = s.cores := by have := congrArg State.cores hr; exact this
  have hc : ∀ c, t.ctx c = s.ctx c := fun c => by unfold State.ctx; rw [h4]
  have hk : ∀ c, t.core c = s.core c := fun c => by unfold State.core; rw [h5]
  have h0 := congrArg (fun x : State => { x with ctxs := [], cores := [] }) hr
  exact ⟨h0, hm, hn, fun c => by rw [hc], fun c => by rw [hc]; exact .inl rfl, fun c _ => hk c, by rw [hk]⟩

theorem Ctx.wakeOn_rest (c : Ctx) (p : Place) (n : Nat) :
    { c.wakeOn p n with sc := { (c.wakeOn p n).sc with hold := .none } } = { c with sc := { c.sc with hold := .none } } := by
  unfold Ctx.wakeOn
  cases c.sc.hold
  case waita w => dsimp only; split <;> rfl
  all_goals rfl

theorem Ctx.wakeOn_woken (c : Ctx) (p : Place) (n : Nat) : Hold.wokenBy c.sc.hold (c.wakeOn p n).sc.hold := by
  unfold Ctx.wakeOn
  cases h : c.sc.hold
  case waita w =>
    dsimp only
    split
    · exact .inr ⟨w, rfl, rfl⟩
    · exact .inl h
  all_goals exact .inl h

theorem State.ctx_wakeOn (s : State) (p : Place) (n c : Nat) : (s.wakeOn p n).ctx c = (s.ctx c).wakeOn p n := by
  unfold State.wakeOn State.ctx Map.getD
  dsimp only
  rw [Map.find_map (fun x : Ctx => x.wakeOn p n) s.ctxs c]
  cases Map.find s.ctxs c <;> rfl

theorem State.wakeOn_moves (s : State) (p : Place) (n k : Nat) : s.MovesData (s.wakeOn p n) k :=
  ⟨rfl, rfl, rfl, fun c => by rw [State.ctx_wakeOn]; exact Ctx.wakeOn_rest _ _ _,
    fun c => by rw [State.ctx_wakeOn]; exact Ctx.wakeOn_woken _ _ _, fun _ _ => rfl, rfl⟩

theorem State.hbmSet_moves (s : State) (slot pa : Nat) (b : Byte) (k : Nat) : s.MovesData (s.hbmSet slot pa b) k := by
  unfold State.hbmSet
  cases s.slotKey slot with
  | none => exact .refl _ _
  | some kr => exact .of_parts k rfl rfl rfl

theorem State.wrBytes_loc_moves (bs : List Byte) : ∀ (s : State) (l pa key cl wp k : Nat),
    s.MovesData (s.wrBytes l (.loc pa key cl wp) bs) k := by
  induction bs with
  | nil => intro s l pa key cl wp k; exact .refl _ _
  | cons b bs ih =>
    intro s l pa key cl wp k
    exact (State.hbmSet_moves s key pa b k).trans (ih _ _ _ _ _ _ _)

theorem State.post_only (s : State) (d : Nat) (m : Msg) : { s.post d m with net := s.net } = s ∧
    { (s.post d m).net with sent := [], waiting := [], watch := [] } = { s.net with sent := [], waiting := [], watch := [] } := by
  unfold State.post; split <;> exact ⟨rfl, rfl⟩

/-- Notices are messages: nothing but the queues of the network changes. -/
theorem State.notices_only (s : State) (p : Place) (n : Nat) : { s.notices p n with net := s.net } = s ∧
    { (s.notices p n).net with sent := [], waiting := [], watch := [] } = { s.net with sent := [], waiting := [], watch := [] } := by
  unfold State.notices
  dsimp only
  generalize s.net.watch.filter (fun w => (List.range n).any (fun i => (p.add i).line == w.2)) = ws
  have step : ∀ (ws : List (Nat × Nat)) (u : State), { u with net := s.net } = s →
      { u.net with sent := [], waiting := [], watch := [] } = { s.net with sent := [], waiting := [], watch := [] } →
      { ws.foldl (fun s w => s.post w.1 (.notice w.1 w.2)) u with net := s.net } = s ∧
      { (ws.foldl (fun s w => s.post w.1 (.notice w.1 w.2)) u).net with sent := [], waiting := [], watch := [] } =
        { s.net with sent := [], waiting := [], watch := [] } := by
    intro ws
    induction ws with
    | nil => intro u h h'; exact ⟨h, h'⟩
    | cons w ws ih =>
      intro u h h'
      obtain ⟨a, b⟩ := u.post_only w.1 (.notice w.1 w.2)
      refine ih _ ?_ (b.trans h')
      have := congrArg (fun x : State => { x with net := s.net }) a
      exact this.trans h
  exact step ws _ rfl rfl

theorem State.notices_moves (s : State) (p : Place) (n k : Nat) : s.MovesData (s.notices p n) k :=
  .of_parts k (by have := congrArg (fun x : State => { x with mem := s.mem }) (s.notices_only p n).1; exact this)
    (by have := congrArg (fun x : State => { x.mem with hbm := [], unitKey := [], poison := [], weak := [] }) (s.notices_only p n).1; exact this)
    (s.notices_only p n).2

@[simp] theorem State.mem_notices (s : State) (p : Place) (n : Nat) : (s.notices p n).mem = s.mem := by
  have := congrArg State.mem (s.notices_only p n).1; exact this
@[simp] theorem State.cores_notices (s : State) (p : Place) (n : Nat) : (s.notices p n).cores = s.cores := by
  have := congrArg State.cores (s.notices_only p n).1; exact this
@[simp] theorem State.ctxs_notices (s : State) (p : Place) (n : Nat) : (s.notices p n).ctxs = s.ctxs := by
  have := congrArg State.ctxs (s.notices_only p n).1; exact this
@[simp] theorem State.host_notices (s : State) (p : Place) (n : Nat) : (s.notices p n).host = s.host := by
  have := congrArg State.host (s.notices_only p n).1; exact this
@[simp] theorem State.cur_notices (s : State) (p : Place) (n : Nat) : (s.notices p n).cur = s.cur := by
  have := congrArg State.cur (s.notices_only p n).1; exact this

/-- A write to local memory moves data and wakes monitors, and changes nothing else. -/
theorem State.wr_loc_moves (s : State) (l pa key cl wp : Nat) (bs : List Byte) (k : Nat) : s.MovesData (s.wr l (.loc pa key cl wp) bs) k := by
  unfold State.wr
  refine (State.wrBytes_loc_moves bs s l pa key cl wp k).trans ?_
  refine State.MovesData.trans (t := (s.wrBytes l (.loc pa key cl wp) bs).heal (.loc pa key cl wp) bs.length) (.of_parts k rfl rfl rfl) ?_
  exact (State.wakeOn_moves _ _ _ k).trans (State.notices_moves _ _ _ k)

theorem State.wr_loc_cores (s : State) (l pa key cl wp : Nat) (bs : List Byte) : (s.wr l (.loc pa key cl wp) bs).cores = s.cores := by
  unfold State.wr
  have : ∀ (bs : List Byte) (s : State) (pa : Nat), (s.wrBytes l (.loc pa key cl wp) bs).cores = s.cores := by
    intro bs
    induction bs with
    | nil => intro s pa; rfl
    | cons b bs ih =>
      intro s pa
      have := ih (s.wr1 l (.loc pa key cl wp) b) (pa + 1)
      refine this.trans ?_
      change (s.hbmSet key pa b).cores = _
      unfold State.hbmSet
      split <;> rfl
  exact (State.cores_notices _ _ _).trans (this bs s pa)

/-- Writing runs of a line back. -/
theorem State.wbRuns (rs : List (Nat × List Byte)) (n key k : Nat) : ∀ s : State,
    s.MovesData (rs.foldl (fun s r => s.wr 0 (.loc (n * 64 + r.1) key 0 0) r.2) s) k ∧
    (rs.foldl (fun s r => s.wr 0 (.loc (n * 64 + r.1) key 0 0) r.2) s).cores = s.cores := by
  induction rs with
  | nil => intro s; exact ⟨.refl _ _, rfl⟩
  | cons r rs ih =>
    intro s
    have h := ih (s.wr 0 (.loc (n * 64 + r.1) key 0 0) r.2)
    exact ⟨(State.wr_loc_moves s _ _ _ _ _ _ k).trans h.1, h.2.trans (State.wr_loc_cores s _ _ _ _ _ _)⟩

theorem State.modCore_l1_moves (s : State) (k : Nat) (f : Map Line → Map Line) : s.MovesData (s.modCore k (fun c => { c with l1 := f c.l1 })) k :=
  ⟨rfl, rfl, rfl, fun _ => rfl, fun _ => .inl rfl, fun c hc => by simp [State.core_modCore, hc], by simp⟩

/-- Writing a line back moves data. -/
theorem State.wbLine_moves (s : State) (k n : Nat) : s.MovesData (s.wbLine k n) k := by
  unfold State.wbLine
  cases Map.find (s.core k).l1 n with
  | none => exact .refl _ _
  | some l =>
    dsimp only
    split
    · exact (State.wbRuns l.runs n l.key k s).1.trans (State.modCore_l1_moves _ k (fun m => Map.put m n _))
    · exact .refl _ _

/-- A line written back is clean, with its bytes, and the other lines stand as before. -/
theorem State.find_wbLine (s : State) (k n m : Nat) : Map.find ((s.wbLine k n).core k).l1 m =
    if m = n then (Map.find (s.core k).l1 n).map (fun l => if l.dirty.any id then { l with dirty := List.replicate 64 false } else l)
    else Map.find (s.core k).l1 m := by
  unfold State.wbLine
  cases h : Map.find (s.core k).l1 n with
  | none => dsimp only; split <;> simp_all
  | some l =>
    dsimp only
    split
    · have hk := (State.wbRuns l.runs n l.key k s).2
      have hc : (l.runs.foldl (fun s r => s.wr 0 (.loc (n * 64 + r.1) l.key 0 0) r.2) s).core k = s.core k := by unfold State.core; rw [hk]
      rw [State.core_modCore_same, hc, Option.map_some]
      dsimp only
      rw [Map.find_put]
      rename_i hx
      simp only [hx, if_true]
    · split <;> simp_all

theorem State.wbFold (ns : List Nat) (k : Nat) : ∀ s : State,
    s.MovesData (ns.foldl (fun s n => s.wbLine k n) s) k ∧
    (∀ n, (Map.find ((ns.foldl (fun s n => s.wbLine k n) s).core k).l1 n).isSome = (Map.find (s.core k).l1 n).isSome) ∧
    (∀ n l, Map.find ((ns.foldl (fun s n => s.wbLine k n) s).core k).l1 n = some l →
      (n ∈ ns ∨ ∀ l, Map.find (s.core k).l1 n = some l → l.dirty.any id = false) → l.dirty.any id = false) := by
  induction ns with
  | nil => intro s; exact ⟨.refl _ _, fun _ => rfl, fun n l h h' => by rcases h' with h' | h'; cases h'; exact h' l h⟩
  | cons a ns ih =>
    intro s
    obtain ⟨i1, i2, i3⟩ := ih (s.wbLine k a)
    refine ⟨(State.wbLine_moves s k a).trans i1, fun n => (i2 n).trans ?_, fun n l h h' => i3 n l h ?_⟩
    · rw [State.find_wbLine]; split
      · rename_i e; subst e; simp
      · rfl
    · by_cases hn : n = a
      · right
        intro l' hl'
        rw [State.find_wbLine, if_pos hn] at hl'
        cases hf : Map.find (s.core k).l1 a with
        | none => rw [hf] at hl'; cases hl'
        | some x =>
          rw [hf] at hl'
          simp only [Option.map_some, Option.some.injEq] at hl'
          subst hl'
          split
          · simp
          · rename_i hx; simpa using hx
      · rcases h' with h' | h'
        · exact .inl ((List.mem_cons.mp h').resolve_left hn)
        · right; intro l' hl'; rw [State.find_wbLine, if_neg hn] at hl'; exact h' l' hl'

/-- Writing L1 back moves data and leaves no dirty byte (R152). -/
theorem State.wbAll_moves (s : State) (k : Nat) : s.MovesData (s.wbAll k) k ∧ ((s.wbAll k).core k).clean := by
  obtain ⟨h1, h2, h3⟩ := State.wbFold ((s.core k).l1.map Prod.fst) k s
  refine ⟨h1, fun n l h => h3 n l h (.inl ?_)⟩
  have := h2 n
  unfold State.wbAll at h
  rw [h] at this
  obtain ⟨x, hx⟩ := Option.isSome_iff_exists.mp this.symm
  exact Map.key_mem_of_find hx

/-- Writing L1 back and emptying it moves data and leaves it empty (R151). -/
theorem State.wbInv_moves (s : State) (k : Nat) : s.MovesData (s.wbInv k) k ∧ ((s.wbInv k).core k).l1 = [] := by
  refine ⟨(State.wbAll_moves s k).1.trans (State.modCore_l1_moves _ k (fun _ => [])), ?_⟩
  unfold State.wbInv
  simp

/-- The L1 part of a release at a scope (R152). -/
theorem State.release_moves (s : State) (cid : Nat) (sc : Scope) : s.MovesData (s.release cid sc) (cid / 2) ∧
    (sc = .core → s.release cid sc = s) ∧ (sc ≠ .core → ((s.release cid sc).core (cid / 2)).clean) := by
  unfold State.release
  split
  · exact ⟨.refl _ _, fun _ => rfl, fun h => absurd ‹_› h⟩
  · exact ⟨(State.wbAll_moves s _).1, fun h => absurd h ‹_›, fun _ => (State.wbAll_moves s _).2⟩

/-- The acquire of R151 at a scope. -/
theorem State.acquire_moves (s : State) (cid : Nat) (sc : Scope) : s.MovesData (s.acquire cid sc) (cid / 2) ∧
    (sc = .core → s.acquire cid sc = s) ∧ (sc ≠ .core → ((s.acquire cid sc).core (cid / 2)).l1 = []) := by
  unfold State.acquire
  split
  · exact ⟨.refl _ _, fun _ => rfl, fun h => absurd ‹_› h⟩
  · exact ⟨(State.wbInv_moves s _).1, fun h => absurd h ‹_›, fun _ => (State.wbInv_moves s _).2⟩

theorem State.dropLine_moves (s : State) (k n : Nat) : s.MovesData (s.dropLine k n) k :=
  (State.wbLine_moves s k n).trans (State.modCore_l1_moves _ k (fun m => Map.del m n))

theorem State.flushPlace_moves (s : State) (k : Nat) (p : Place) : s.MovesData (s.flushPlace k p) k := by
  unfold State.flushPlace; split
  · exact State.dropLine_moves _ _ _
  · exact .refl _ _

theorem State.l1Room_moves (s : State) (k n : Nat) : s.MovesData (s.l1Room k n) k := by
  unfold State.l1Room; (repeat' split) <;> first | exact .refl _ _ | exact State.dropLine_moves _ _ _

/-- Filling, changing or marking a line moves data (R143, R304). -/
theorem State.l1Fill_moves (s : State) (k pa key : Nat) : s.MovesData (s.l1Fill k pa key) k := by
  unfold State.l1Fill; split
  · exact .refl _ _
  · exact (State.l1Room_moves _ _ _).trans (State.modCore_l1_moves _ k (fun m => Map.put m _ _))

theorem State.l1Put_moves (s : State) (k pa : Nat) (bs : List Byte) (d : Bool) : s.MovesData (s.l1Put k pa bs d) k := by
  unfold State.l1Put; split
  · exact .refl _ _
  · exact State.modCore_l1_moves _ k (fun m => Map.put m _ _)

theorem State.l1Mark_moves (s : State) (k pa : Nat) (b : Bool) : s.MovesData (s.l1Mark k pa b) k := by
  unfold State.l1Mark; split
  · exact State.modCore_l1_moves _ k (fun m => Map.put m _ _)
  · exact .refl _ _

theorem State.loadL1_moves (s : State) (k : Nat) (p : Place) (h : Hint) (b : Bool) : s.MovesData (s.loadL1 k p h b) k := by
  unfold State.loadL1
  split
  · split
    · refine State.MovesData.trans (t := if (b && h.allocL1) = true then s.l1Fill k _ _ else s) ?_ (State.l1Mark_moves _ _ _ _)
      split
      · exact State.l1Fill_moves _ _ _ _
      · exact .refl _ _
    · exact .refl _ _
  · exact .refl _ _

theorem Core.clean_of_empty {k : Core} (h : k.l1 = []) : k.clean := fun n l hf => by rw [h] at hf; cases hf

theorem State.hasAgent_main {s : State} (hm : s.OnMain) : s.HasAgent := fun h => by rw [hm] at h; cases h

theorem State.MovesData.onMain {s t : State} {k : Nat} (h : s.MovesData t k) (hm : s.OnMain) : t.OnMain := by
  unfold State.OnMain; rw [h.cur]; exact hm

theorem State.whenDrained_eq {s : State} (h : s.Drained) (ack : Bool) (k : Res) : s.whenDrained ack k = k := by
  unfold State.whenDrained
  simp [SPath.drained, h.loads, h.stores, h.acks, h.fails]

theorem inSet_eq (x : BitVec 5) (n : Nat) : inSet x n = x.getLsbD n := by
  unfold inSet BitVec.getLsbD Nat.testBit
  rw [Nat.shiftRight_eq_div_pow, Nat.and_comm, Nat.and_one_is_mod]
  cases h : x.toNat / 2 ^ n % 2 with
  | zero => rfl
  | succ m =>
    have := Nat.mod_lt (x.toNat / 2 ^ n) (show 0 < 2 by omega)
    have : m = 0 := by omega
    subst this; rfl

theorem hands_push (s : State) (e : QEnt) (ok : Nat → Bool) (st : Agent → Prop)
    (h : ∀ a ∈ [Agent.C, .M, .R, .K], ok (pathOf a) = true ↔ st a) :
    s.Hands (s.modMe (fun c => c.modEng (fun g => g.pushAll e ok))) e st := by
  have q : ∀ a ∈ [Agent.C, .M, .R, .K], (s.modMe (fun c => c.modEng (fun g => g.pushAll e ok))).me.eng.q a =
      if ok (pathOf a) then s.me.eng.q a ++ [e] else s.me.eng.q a := by
    intro a ha
    simp only [State.me, State.modMe, State.cur_modCtx, State.ctx_modCtx_same]
    generalize s.ctx s.cur.cid = c
    simp only [List.mem_cons, List.mem_nil_iff, or_false] at ha
    simp only [Ctx.modEng, Engines.pushAll, List.range, List.range.loop, List.foldl, agentOf]
    rcases ha with rfl | rfl | rfl | rfl <;> cases h0 : ok 0 <;> cases h1 : ok 1 <;> cases h2 : ok 2 <;> cases h3 : ok 3 <;>
      simp [h0, h1, h2, h3, Engines.q, Engines.setQ, pathOf]
  constructor
  · intro a ha ht; rw [q a ha, (h a ha).mpr ht]; rfl
  · intro a ha ht; rw [q a ha, if_neg (fun x => ht ((h a ha).mp x))]
  · simp only [State.me, State.modMe, State.cur_modCtx, State.ctx_modCtx_same]
    generalize s.ctx s.cur.cid = c
    simp only [Ctx.modEng, Engines.pushAll, List.range, List.range.loop, List.foldl, agentOf]
    cases ok 0 <;> cases ok 1 <;> cases ok 2 <;> cases ok 3 <;> rfl
  · intro c hc; simp [State.modMe, State.ctx_modCtx, hc]
  · rfl
  · intro k; rfl

/-- The scalar part of the main stream is the same but for a hold that may have woken. -/
theorem State.MovesData.sca {s t : State} {k : Nat} (h : s.MovesData t k) (hm : s.OnMain) :
    ({ t.sca with hold := .none } : Scalar) = { s.sca with hold := .none } := by
  unfold State.sca; rw [h.cur, hm]
  have := congrArg Ctx.sc (h.ctxs s.cur.cid)
  simpa [State.me, h.cur] using this

theorem State.MovesData.pc {s t : State} {k : Nat} (h : s.MovesData t k) (hm : s.OnMain) : t.pc = s.pc := by
  have := congrArg Scalar.pc (h.sca hm); simpa [State.pc] using this

theorem State.MovesData.task {s t : State} {k : Nat} (h : s.MovesData t k) (c : Nat) : (t.ctx c).task = (s.ctx c).task := by
  have := congrArg Ctx.task (h.ctxs c); simpa using this

end Sys2Proof.Machine
end

