-- ==== Sys2Proof/Laws/Task.lean ====
section
/-! SUPPORT. The end of a task's hold on its context: what a release leaves of the context, the scheduler's store and the launches (R334). -/

namespace Sys2Proof.Machine

open Sys2Proof

theorem State.sched_fold {α : Type} (f : State → α → State) (h : ∀ s a, (f s a).sched = s.sched) (l : List α) :
    ∀ s : State, (l.foldl f s).sched = s.sched := by
  induction l with
  | nil => intro s; rfl
  | cons a l ih => intro s; exact (ih _).trans (h _ _)

theorem State.sched_hbmSet (s : State) (slot pa : Nat) (b : Byte) : (s.hbmSet slot pa b).sched = s.sched := by
  unfold State.hbmSet; split <;> rfl

theorem State.sched_wr1 (s : State) (l : Nat) (p : Place) (b : Byte) : (s.wr1 l p b).sched = s.sched := by
  cases p <;> first | rfl | exact State.sched_hbmSet _ _ _ _

theorem State.sched_wrBytes (l : Nat) (bs : List Byte) : ∀ (s : State) (p : Place), (s.wrBytes l p bs).sched = s.sched := by
  induction bs with
  | nil => intro s p; rfl
  | cons b bs ih => intro s p; exact (ih _ _).trans (State.sched_wr1 _ _ _ _)

/-- A write leaves the scheduler alone. -/
@[simp] theorem State.sched_wr (s : State) (l : Nat) (p : Place) (bs : List Byte) : (s.wr l p bs).sched = s.sched := by
  unfold State.wr
  exact (State.notices_moves _ _ _ 0).sched.trans ((State.wakeOn_moves _ _ _ 0).sched.trans (State.sched_wrBytes l bs s p))

@[simp] theorem State.sched_post (s : State) (dev : Nat) (m : Msg) : (s.post dev m).sched = s.sched := by
  unfold State.post; split <;> rfl

@[simp] theorem State.sched_send (s : State) (dev key : Nat) (r : RemoteReq) (q : RemReq) : (s.send dev key r q).sched = s.sched := by
  unfold State.send; exact State.sched_post _ _ _

@[simp] theorem State.sched_sRead (s : State) (k : Nat) (p : Place) (n : Nat) : (s.sRead k p n).sched = s.sched := by
  unfold State.sRead; split <;> rfl

@[simp] theorem State.sched_wbAll (s : State) (k : Nat) : (s.wbAll k).sched = s.sched := (State.wbAll_moves s k).1.sched
@[simp] theorem State.sched_wbInv (s : State) (k : Nat) : (s.wbInv k).sched = s.sched := (State.wbInv_moves s k).1.sched

@[simp] theorem State.sched_dropLine (s : State) (k n : Nat) : (s.dropLine k n).sched = s.sched := (State.wbLine_moves s k n).sched

@[simp] theorem State.sched_l1Put (s : State) (k pa : Nat) (bs : List Byte) (d : Bool) : (s.l1Put k pa bs d).sched = s.sched := by
  unfold State.l1Put; split <;> rfl

theorem State.sched_lodge (s : State) (cid pa key : Nat) (h : Hint) (bs : List Byte) : (s.lodge cid pa key h bs).sched = s.sched :=
  ((State.l1Fill_moves _ _ _ _).trans ((State.l1Put_moves _ _ _ _ _).trans (State.l1Mark_moves _ _ _ _))).sched

theorem State.sched_storeHome (s : State) (cid : Nat) (p : Place) (bs : List Byte) : (s.storeHome cid p bs).sched = s.sched := by
  unfold State.storeHome
  cases p <;> dsimp only <;> (try split) <;> simp

theorem State.sched_mredAt (s : State) (cid : Nat) (m : MredMode) (p : Place) (va a : Word) : (s.mredAt cid m p va a).sched = s.sched := by
  unfold State.mredAt; split
  · rfl
  · exact (State.sched_wr _ _ _ _).trans (State.sched_sRead _ _ _ _)

theorem State.sched_flushPlace (s : State) (k : Nat) (p : Place) : (s.flushPlace k p).sched = s.sched := by
  unfold State.flushPlace; split <;> simp

theorem State.sched_performHere (s : State) (cid : Nat) (e : StEnt) (l : Bool) : (s.performHere cid e l).sched = s.sched := by
  have h0 : (if (e.isRel && e.scope != .core) = true then s.wbAll (cid / 2) else s).sched = s.sched := by split <;> simp
  unfold State.performHere
  refine Eq.trans ?_ h0
  generalize (if (e.isRel && e.scope != .core) = true then s.wbAll (cid / 2) else s) = u
  dsimp only
  have note : ∀ n, (u.noteStored cid e.place n).sched = u.sched := fun n => by
    unfold State.noteStored; (repeat' split) <;> rfl
  have red : ∀ m, (e.elems.foldl (fun s x => s.mredAt cid m (e.place.add x.1) (e.va + word x.1) x.2) (u.flushPlace (cid / 2) e.place)).sched = u.sched :=
    fun m => (State.sched_fold _ (fun _ _ => State.sched_mredAt _ _ _ _ _ _) _ _).trans (State.sched_flushPlace _ _ _)
  split
  · split
    · split
      · exact (State.sched_lodge _ _ _ _ _ _).trans (note _)
      · exact note _
    · exact (State.sched_storeHome _ _ _ _).trans (note _)
  · exact red _
  · exact red _

theorem State.sched_perform (s : State) (cid : Nat) (e : StEnt) (l : Bool) : (s.perform cid e l).sched = s.sched := by
  unfold State.perform State.sendEnt
  split
  · exact State.sched_performHere _ _ _ _
  · split
    · rfl
    · rename_i dev pa key _ _
      have : ∀ (rs : List RemoteReq) (x : List Nat × State), (rs.foldl (fun x r =>
          (x.1 ++ [x.2.reqId], x.2.send dev key r ⟨cid, dev, .store, e.va, e.pc, e.seq, 0⟩)) x).2.sched = x.2.sched := by
        intro rs
        induction rs with
        | nil => intro x; rfl
        | cons r rs ih => intro x; exact (ih _).trans (State.sched_send _ _ _ _ _)
      refine (this (e.reqs pa) _).trans ?_
      dsimp only
      split <;> simp

/-- Performing queued stores leaves the scheduler alone. -/
theorem State.sched_flushStores (s : State) (cid : Nat) : (s.flushStores cid).sched = s.sched :=
  State.sched_fold _ (fun _ _ => State.sched_perform _ _ _ _) _ _

theorem State.sched_wrEnt (s : State) (cid path : Nat) (e : WEnt) : (s.wrEnt cid path e).sched = s.sched := by
  have h : (e.parts.foldl (fun s x => s.wr (s.ctx cid).launch x.1 x.2) s).sched = s.sched :=
    State.sched_fold _ (fun _ _ => State.sched_wr _ _ _ _) _ _
  unfold State.wrEnt
  cases e.dev? <;> cases e.clean <;> first | exact h | exact State.sched_send _ _ _ _ _

/-- Performing an engine's queued writes leaves the scheduler alone. -/
theorem State.sched_flushWq (s : State) (cid : Nat) : (s.flushWq cid).sched = s.sched :=
  State.sched_fold _ (fun _ _ => State.sched_fold _ (fun _ _ => State.sched_wrEnt _ _ _ _) _ _) _ _

/-- The part of the scheduler that a departure from a bunch leaves alone. -/
def Sched.unbunched (q : Sched) : Sched := { q with bunches := [] }

theorem State.sched_parkClus (s : State) (c h : Nat) : (s.parkClus c h).sched = s.sched := by
  unfold State.parkClus; split
  · rfl
  · dsimp only; split <;> rfl

theorem State.sched_leaveBunch (s : State) (cid : Nat) : (s.leaveBunch cid).sched.unbunched = s.sched.unbunched := by
  unfold State.leaveBunch
  cases (s.ctx cid).task with
  | none => rfl
  | some t =>
    dsimp only
    split
    · rfl
    · split
      · rfl
      · split
        · split
          · rfl
          · unfold State.setBunch State.modSched Sched.unbunched; dsimp only; rw [State.sched_parkClus]; rfl
        · rfl

theorem State.sched_setCtx_detach_wake (u : State) (cid : Nat) : (((u.setCtx cid .fresh).detach cid).wakeCore cid).sched = u.sched := rfl

theorem State.ctx_setCtx_detach_wake (u : State) (cid : Nat) : (((u.setCtx cid .fresh).detach cid).wakeCore cid).ctx cid = .fresh := by
  have h : ((u.setCtx cid .fresh).detach cid).ctx cid = .fresh := State.ctx_setCtx_same u cid .fresh
  rw [ctx_wakeCore, if_pos rfl, h]; rfl

theorem State.sched_vacate (s : State) (cid : Nat) : (s.vacate cid).sched = s.sched := by
  rw [← State.sched_setCtx_detach_wake s cid]
  unfold State.vacate
  generalize ((s.setCtx cid .fresh).detach cid).wakeCore cid = x
  rfl

theorem State.ctx_vacate (s : State) (cid : Nat) : (s.vacate cid).ctx cid = .fresh := by
  have h := State.ctx_setCtx_detach_wake s cid
  unfold State.vacate
  generalize ((s.setCtx cid .fresh).detach cid).wakeCore cid = x at h
  exact h

/-- A release leaves the store and the launches alone (R334). -/
theorem State.sched_releaseCtx (s : State) (cid : Nat) : (s.releaseCtx cid).sched.unbunched = s.sched.unbunched := by
  have h1 : (((s.flushStores cid).flushWq cid).leaveBunch cid).sched.unbunched = s.sched.unbunched :=
    (State.sched_leaveBunch _ _).trans (by rw [State.sched_flushWq, State.sched_flushStores])
  unfold State.releaseCtx
  rw [State.sched_vacate, State.sched_wbInv, h1]

/-- A released context is as after reset (R123, R334). -/
theorem State.ctx_releaseCtx (s : State) (cid : Nat) : (s.releaseCtx cid).ctx cid = .fresh := State.ctx_vacate _ _

theorem State.victimEnded_spec (s : State) (e cid : Nat) : (s.victimEnded e cid).ctxs = s.ctxs ∧ (s.victimEnded e cid).sched.store = s.sched.store ∧
    (s.victimEnded e cid).sched.gens = s.sched.gens ∧ (s.victimEnded e cid).sched.launches = s.sched.launches := by
  unfold State.victimEnded
  split
  · simp
  · dsimp only; unfold State.offer; (repeat' split) <;> exact ⟨rfl, rfl, rfl, rfl⟩

theorem State.joinDown_spec (s : State) (l : Nat) : (s.joinDown l).ctxs = s.ctxs ∧ (s.joinDown l).sched.store = s.sched.store ∧
    (s.joinDown l).sched.gens = s.sched.gens ∧ (∀ m, m ≠ l → Map.find (s.joinDown l).sched.launches m = Map.find s.sched.launches m) ∧
    (∀ v, Map.find s.sched.launches l = some v → Map.find (s.joinDown l).sched.launches l = some
      { v with joins := v.joins - 1, done := v.done || decide (v.joins ≤ 1), doneAt := if v.done then v.doneAt else s.clk }) := by
  unfold State.joinDown State.modLaunch State.launch
  cases h : Map.find s.sched.launches l with
  | none => simp [h]
  | some v =>
    refine ⟨rfl, rfl, rfl, fun m hm => ?_, fun v' hv => ?_⟩
    · exact Map.find_put_other _ _ hm
    · cases hv; exact Map.find_put_same _ _ _

theorem State.dropEntry_spec (s : State) (e : Nat) : (s.dropEntry e).ctxs = s.ctxs ∧ (s.dropEntry e).sched.store = Map.del s.sched.store e ∧
    (s.dropEntry e).sched.gens = Map.put s.sched.gens e (Map.getD s.sched.gens e 0 + 1) ∧ (s.dropEntry e).sched.launches = s.sched.launches := by
  unfold State.dropEntry; exact ⟨rfl, rfl, rfl, rfl⟩

end Sys2Proof.Machine
end

