-- ==== Sys2Proof/Laws/Access.lean ====
section
/-! SUPPORT. Accesses of S: what a translation leaves, the checks before an access, and the queues (R140, R144, R302-R309). -/

namespace Sys2Proof.Machine

open Sys2Proof

theorem noteXlat_data (s : State) (cid : Nat) (va : Word) : (s.noteXlat cid va).ctxs = s.ctxs ∧ (s.noteXlat cid va).mem = s.mem ∧
    (s.noteXlat cid va).cur = s.cur ∧ (s.noteXlat cid va).clk = s.clk := by
  unfold State.noteXlat
  dsimp only
  split
  · split
    · simp
    · split <;> simp
  · simp

theorem noteXlat_walks (s : State) (va : Word) : s.Walks (s.noteXlat s.cur.cid va) := by
  unfold State.noteXlat
  dsimp only
  split
  · split
    · exact ⟨rfl, fun _ _ => rfl, rfl⟩
    · split
      · exact ⟨rfl, fun _ _ => rfl, rfl⟩
      · refine ⟨rfl, fun k hk => ?_, ?_⟩
        · have : k ≠ s.cur.cid / 2 := hk
          simp [State.core_modCore, this]
        · unfold State.myCore; rw [State.core_modCore_same]
  · exact ⟨rfl, fun _ _ => rfl, rfl⟩

theorem State.Walks.ctxs {s t : State} (h : s.Walks t) : t.ctxs = s.ctxs := by have := congrArg State.ctxs h.rest; exact this
theorem State.Walks.cur {s t : State} (h : s.Walks t) : t.cur = s.cur := by have := congrArg State.cur h.rest; exact this
theorem State.Walks.clk {s t : State} (h : s.Walks t) : t.clk = s.clk := by have := congrArg State.clk h.rest; exact this
theorem State.Walks.me {s t : State} (h : s.Walks t) : t.me = s.me := by unfold State.me State.ctx; rw [h.ctxs, h.cur]
theorem State.Walks.sca {s t : State} (h : s.Walks t) (hm : s.OnMain) : t.sca = s.sca := by
  unfold State.sca; rw [h.cur, hm, h.me]
theorem State.Walks.onMain {s t : State} (h : s.Walks t) (hm : s.OnMain) : t.OnMain := by unfold State.OnMain; rw [h.cur]; exact hm

theorem based_eq (s : State) (ra : Nat) {n : Nat} (off : BitVec n) (hn : n ≤ 64) : s.r ra + off.signExtend 64 = s.based ra off := by
  unfold State.based
  apply BitVec.eq_of_toInt_eq
  simp only [BitVec.toInt_ofInt, BitVec.toInt_add]
  rw [BitVec.toInt_signExtend_of_le hn]

theorem access_ok {s : State} {want : Want} {ea : Word} {a : Nat} {k : Place → Res} {p : Place} (hm : s.OnMain) (ha : ea.toNat % a = 0)
    (hx : s.xlat s.cur.cid false want ea = .ok p) : s.access want ea a k = k p := by
  unfold State.access
  rw [if_neg (by simp [ha])]
  have : s.onTrapCore = false := by unfold State.onTrapCore; rw [hm]; rfl
  rw [this, hx]

theorem turns {s : State} {i : Instr} {ea : Word} {a : Nat} {want : Want} {k : Place → Res} (hm : s.OnMain) (ht : s.me.trap.phase = .none)
    (he : exec i s = s.access want ea a k) : s.TurnsAway i ea a want := by
  have ho : s.onTrapCore = false := by unfold State.onTrapCore; rw [hm]; rfl
  refine ⟨fun h => ⟨_, ?_, trapS_traps hm ht _ _ _⟩, fun c d h hx => ⟨_, ?_, trapS_traps hm ht _ _ _⟩⟩
  · rw [he]; unfold State.access; rw [if_pos h]
  · rw [he]; unfold State.access; rw [if_neg (by simp [h]), ho, hx]

theorem size_eq (z : Size) : sizeBytes z = z.bytes := by cases z <;> rfl
theorem size_pos (z : Size) : 8 * z.bytes ≤ 64 := by cases z <;> decide

theorem zext_eq (z : Size) (v : Word) : zextN (8 * sizeBytes z) v = word (v.toNat % 256 ^ z.bytes) := by
  cases z <;> rfl

theorem loadOp_queues {s : State} (hm : s.OnMain) {o : LoadOp} {srcs : List Nat} {ea : Word} {p : Place} (hr : s.Ready srcs none)
    (ht : s.Here [o.rt]) (ho : o.ord ≠ .sc) (ha : ea.toNat % sizeBytes o.z = 0) (hx : s.xlat s.cur.cid false .load ea = .ok p) :
    ∃ t, s.loadOp o srcs ea = .next t ∧ s.QueuesLoad t o.st (LdEnt.mk o.rt p ea (sizeBytes o.z) o.sx o.ord o.scope o.hint s.pc s.sca.seq none) := by
  have w := noteXlat_walks s ea
  unfold State.QueuesLoad
  dsimp only
  generalize hu : s.noteXlat s.cur.cid ea = u at w
  have hum : u.cur.agent = .S := w.onMain hm
  have hp : u.pc = s.pc := by unfold State.pc; rw [w.sca hm]
  have hq : u.sca.seq = s.sca.seq := by rw [w.sca hm]
  refine ⟨u.queueLoad o p ea, ?_, ?_⟩
  · unfold State.loadOp
    rw [hr.issueVar ht, if_neg ho, access_ok hm ha hx]
    simp [hu, ho, hum, State.onTrapCore]
  · have e : u.queueLoad o p ea = (u.modMe (fun c => { c.plusLoad
        { rd := o.rt, place := p, va := ea, size := sizeBytes o.z, sx := o.sx, ord := o.ord, scope := o.scope,
          hint := o.hint, pc := s.pc, seq := s.sca.seq, req := none } with sc := c.sc.owing o.rt })).adv o.st := by
      unfold State.queueLoad
      dsimp only
      rw [hp, hq]
      congr 1
      unfold State.setPend
      by_cases h0 : o.rt = 0
      · simp [h0, Scalar.owing, Ctx.plusLoad, State.modMe, Ctx.modPath]
      · simp only [h0, if_false, Scalar.owing, Ctx.plusLoad]
        unfold State.setSca
        rw [show (u.modMe (fun c => c.modPath (fun q => { q with loads := q.loads ++ [
          { rd := o.rt, place := p, va := ea, size := sizeBytes o.z, sx := o.sx, ord := o.ord, scope := o.scope,
            hint := o.hint, pc := s.pc, seq := s.sca.seq, req := none }] }))).cur.agent = .S from hum]
        simp only [State.modMe, State.modCtx, State.setCtx, State.ctx, Map.getD_put_same, Map.put_put, State.sca, State.me]
        simp [hum, Ctx.modPath]
    rw [e]
    exact State.adv_passes (State.hasAgent_main (by exact hum)) _

theorem storeOp_queues {s : State} (hm : s.OnMain) {o : StoreOp} {srcs : List Nat} {ea : Word} {p : Place} (hr : s.Ready srcs none)
    (ho : o.ord ≠ .sc) (ha : ea.toNat % sizeBytes o.z = 0) (hx : s.xlat s.cur.cid false .store ea = .ok p) :
    ∃ t, s.storeOp o srcs ea = .next t ∧
      s.QueuesStore t o.st (StEnt.mk (.store (zextN (8 * sizeBytes o.z) o.v)) p ea (sizeBytes o.z) o.ord o.scope o.hint s.pc s.sca.seq []) := by
  have w := noteXlat_walks s ea
  unfold State.QueuesStore
  dsimp only
  generalize hu : s.noteXlat s.cur.cid ea = u at w
  have hum : u.cur.agent = .S := w.onMain hm
  refine ⟨u.queueStore o p ea, ?_, ?_⟩
  · unfold State.storeOp State.notHelperSt
    rw [if_neg (by rw [hm]; simp), hr.issue, if_neg ho, access_ok hm ha hx]
    simp [hu, ho, hum, State.onTrapCore]
  · have hp : u.pc = s.pc := by unfold State.pc; rw [w.sca hm]
    have hq : u.sca.seq = s.sca.seq := by rw [w.sca hm]
    unfold State.queueStore State.storeEnt
    rw [hp, hq]
    exact State.adv_passes (s := u.modMe (fun c => c.plusStore _)) (State.hasAgent_main (by exact hum)) _

theorem mredOp_queues {s : State} (hm : s.OnMain) {st : Nat} {srcs : List Nat} {ea : Word} {a : Nat} {od : Ord} {sc : Scope} {kind : StKind} {p : Place} (hr : s.Ready srcs none)
    (ha : ea.toNat % a = 0) (hx : s.xlat s.cur.cid false .vector ea = .ok p) :
    ∃ t, s.mredOp st srcs ea a od sc kind = .next t ∧ s.QueuesStore t st (StEnt.mk kind p ea a od sc .nh s.pc s.sca.seq []) := by
  have w := noteXlat_walks s ea
  unfold State.QueuesStore
  dsimp only
  generalize hu : s.noteXlat s.cur.cid ea = u at w
  have hum := w.onMain hm
  have hp : u.pc = s.pc := by unfold State.pc; rw [w.sca hm]
  have hq : u.sca.seq = s.sca.seq := by rw [w.sca hm]
  refine ⟨_, ?_, State.adv_passes (s := u.modMe (fun c => c.plusStore ⟨kind, p, ea, a, od, sc, .nh, s.pc, s.sca.seq, []⟩))
    (State.hasAgent_main (by exact hum)) st⟩
  unfold State.mredOp
  rw [mainOnly_main hm, hr.issue, access_ok hm ha hx]
  simp only [hu, hp, hq]
  rfl

theorem atomic_turns {s : State} {i : Instr} {want : Want} {srcs dsts : List Nat} {ea : Word} {a : Nat} {od : Ord} {scp : Scope} {st : Nat}
    {sc : ScKind} {rem : Nat → Nat → Nat → State → State} {here : Place → State → State} (hm : s.OnMain) (ht : s.me.trap.phase = .none)
    (hr : s.Ready srcs none) (hh : s.Here dsts) (he : exec i s = s.atomicOp want srcs dsts ea a od scp st sc rem here) :
    s.TurnsAway i ea a want := by
  obtain ⟨k, hk⟩ : ∃ k, s.atomicOp want srcs dsts ea a od scp st sc rem here = s.access want ea a k := by
    unfold State.atomicOp
    rw [mainOnly_main hm, hr.issueVar hh]
    exact ⟨_, rfl⟩
  exact turns hm ht (he.trans hk)

end Sys2Proof.Machine
end

