-- ==== Sys2Proof/Laws/Atomic.lean ====
section
/-! SUPPORT. Atomics: making the caches ready, performing at the point of coherence, and the values of R310. -/

namespace Sys2Proof.Machine

open Sys2Proof

theorem State.Readies.cur {s t : State} {k : Nat} (h : s.Readies t k) : t.cur = s.cur := by have := congrArg State.cur h.rest; exact this
theorem State.Readies.clk {s t : State} {k : Nat} (h : s.Readies t k) : t.clk = s.clk := by have := congrArg State.clk h.rest; exact this
theorem State.Readies.sched {s t : State} {k : Nat} (h : s.Readies t k) : t.sched = s.sched := by
  have := congrArg State.sched h.rest; exact this

theorem State.Readies.refl (s : State) (k : Nat) : s.Readies s k :=
  ⟨rfl, rfl, rfl, fun _ => rfl, fun _ => .inl rfl, fun _ _ => rfl, rfl⟩

theorem State.Readies.trans {s t u : State} {k : Nat} (h : s.Readies t k) (h' : t.Readies u k) : s.Readies u k := by
  refine ⟨?_, h'.mem.trans h.mem, h'.net.trans h.net, fun c => (h'.ctxs c).trans (h.ctxs c),
    fun c => Hold.wokenBy_trans (h.holds c) (h'.holds c), fun c hc => (h'.cores c hc).trans (h.cores c hc), h'.mine.trans h.mine⟩
  have a := congrArg (fun x : State => { x with mem := s.mem, net := s.net }) h'.rest
  have b := congrArg (fun x : State => { x with mem := s.mem, net := s.net }) h.rest
  exact a.trans b

theorem State.MovesData.readies {s t : State} {k : Nat} (h : s.MovesData t k) : s.Readies t k :=
  ⟨by have := congrArg (fun x : State => { x with free := 0 }) h.rest; exact this, h.mem, h.net, h.ctxs, h.holds, h.cores,
    by have := congrArg (fun c : Core => { c with tlb := [] }) h.mine; exact this⟩

theorem State.Walks.readies {s t : State} (h : s.Walks t) : s.Readies t s.myCore := by
  have hc : t.ctxs = s.ctxs := h.ctxs
  have hm : t.mem = s.mem := by have := congrArg State.mem h.rest; exact this
  have hn : t.net = s.net := by have := congrArg State.net h.rest; exact this
  refine ⟨?_, by rw [hm], by rw [hn], fun c => by unfold State.ctx; rw [hc], fun c => by unfold State.ctx; rw [hc]; exact .inl rfl, h.others,
    by have := congrArg (fun c : Core => { c with l1 := [] }) h.mine; exact this⟩
  have := congrArg (fun x : State => { x with mem := s.mem, net := s.net, ctxs := [] }) h.rest
  exact this

/-- The units poisoned are among those before: no write poisons one. -/
theorem State.poison_wr_sub (s : State) (l : Nat) (p : Place) (bs : List Byte) : (s.wr l p bs).mem.poison ⊆ s.mem.poison := by
  have h1 : ∀ (s : State) (p : Place) (b : Byte), (s.wr1 l p b).mem.poison = s.mem.poison := by
    intro s p b
    cases p <;> first | rfl | (unfold State.wr1 State.hbmSet; dsimp only; split <;> rfl)
  have h2 : ∀ (bs : List Byte) (s : State) (p : Place), (s.wrBytes l p bs).mem.poison = s.mem.poison := by
    intro bs
    induction bs with
    | nil => intro s p; rfl
    | cons b bs ih => intro s p; exact (ih _ _).trans (h1 _ _ _)
  intro u hu
  unfold State.wr at hu
  rw [State.mem_notices] at hu
  have : u ∈ ((s.wrBytes l p bs).heal p bs.length).mem.poison := hu
  unfold State.heal at this
  exact (h2 bs s p) ▸ (List.mem_filter.mp this).1

theorem State.poison_wbLine_sub (s : State) (k n : Nat) : (s.wbLine k n).mem.poison ⊆ s.mem.poison := by
  unfold State.wbLine
  split
  · exact fun _ h => h
  · rename_i l _
    split
    · have : ∀ (rs : List (Nat × List Byte)) (s : State),
          (rs.foldl (fun s r => s.wr 0 (.loc (n * 64 + r.1) l.key 0 0) r.2) s).mem.poison ⊆ s.mem.poison := by
        intro rs
        induction rs with
        | nil => intro s; exact fun _ h => h
        | cons r rs ih => intro s; exact fun x hx => State.poison_wr_sub _ _ _ _ (ih _ hx)
      exact this _ s
    · exact fun _ h => h

theorem State.poison_wbAll_sub (s : State) (k : Nat) : (s.wbAll k).mem.poison ⊆ s.mem.poison := by
  unfold State.wbAll
  have : ∀ (ns : List Nat) (s : State), (ns.foldl (fun s n => s.wbLine k n) s).mem.poison ⊆ s.mem.poison := by
    intro ns
    induction ns with
    | nil => intro s; exact fun _ h => h
    | cons r rs ih => intro s; exact fun x hx => State.poison_wbLine_sub _ _ _ (ih _ hx)
  exact this _ s

theorem State.poison_flushPlace_sub (s : State) (k : Nat) (p : Place) : (s.flushPlace k p).mem.poison ⊆ s.mem.poison := by
  unfold State.flushPlace; split
  · exact State.poison_wbLine_sub _ _ _
  · exact fun _ h => h

theorem State.poison_release_sub (s : State) (cid : Nat) (sc : Scope) : (s.release cid sc).mem.poison ⊆ s.mem.poison := by
  unfold State.release; split
  · exact fun _ h => h
  · exact State.poison_wbAll_sub _ _

theorem State.not_poisoned_sub {s t : State} {p : Place} {n : Nat} (h : t.mem.poison ⊆ s.mem.poison) (hp : s.poisoned p n = false) :
    t.poisoned p n = false := by
  unfold State.poisoned at *
  rw [List.any_eq_false] at *
  intro i hi hc
  apply hp i hi
  rw [List.contains_iff_mem] at *
  exact h hc

theorem ordAcq_eq (od : Ord) : ordAcq od = od.acquires := by cases od <;> rfl
theorem ordRel_eq (od : Ord) : ordRel od = od.releases := by cases od <;> rfl

theorem State.acquired_eq (s : State) (od : Ord) (sc : Scope) : (if ordAcq od then s.acquire s.cur.cid sc else s) = s.acquired od sc := by
  unfold State.acquired State.acquire State.myCore
  rw [ordAcq_eq]
  cases od.acquires <;> by_cases h : sc = .core <;> simp [h]

theorem State.released_eq (s : State) (od : Ord) (sc : Scope) : (if ordRel od then s.release s.cur.cid sc else s) = s.released od sc := by
  unfold State.released State.release State.myCore
  rw [ordRel_eq]
  cases od.releases <;> by_cases h : sc = .core <;> simp [h]

theorem State.released_moves (s : State) (od : Ord) (sc : Scope) : s.MovesData (s.released od sc) s.myCore := by
  unfold State.released; split
  · exact (State.wbAll_moves s _).1
  · exact .refl _ _

theorem State.poison_released_sub (s : State) (od : Ord) (sc : Scope) : (s.released od sc).mem.poison ⊆ s.mem.poison := by
  unfold State.released; split
  · exact State.poison_wbAll_sub _ _
  · exact fun _ h => h

/-- Making the caches ready changes what `Readies` says. -/
theorem State.atPoint_readies (s : State) (ea : Word) (od : Ord) (scp : Scope) (p : Place) : s.Readies (s.atPoint ea od scp p) s.myCore := by
  have w := noteXlat_walks s ea
  unfold State.atPoint
  have hk : (s.noteXlat s.cur.cid ea).myCore = s.myCore := by unfold State.myCore; rw [w.cur]
  have hv := State.released_moves (s.noteXlat s.cur.cid ea) od scp
  rw [hk] at hv
  exact w.readies.trans (hv.trans (State.flushPlace_moves _ _ _)).readies

/-- An atomic that is ready does what its meaning does at the place, in the state at its point of coherence. -/
theorem State.AtomReady.perform {s : State} {srcs dsts : List Nat} {ea : Word} {a : Nat} {want : Want} {p : Place} {od : Ord} {scp : Scope} {st : Nat}
    {sc : ScKind} {rem : Nat → Nat → Nat → State → State} {here : Place → State → State} (h : s.AtomReady srcs dsts ea a want p)
    (ho : od ≠ .sc) : s.atomicOp want srcs dsts ea a od scp st sc rem here = .next ((here p (s.atPoint ea od scp p)).acquired od scp) := by
  have w := noteXlat_walks s ea
  have hpo : (s.noteXlat s.cur.cid ea).mem = s.mem := (noteXlat_data s s.cur.cid ea).2.1
  unfold State.atPoint
  generalize hu : s.noteXlat s.cur.cid ea = u at w hpo
  have hd : u.Drained := ⟨by rw [w.me]; exact h.drained.loads, by rw [w.me]; exact h.drained.stores, by rw [w.me]; exact h.drained.acks,
    by rw [w.me]; exact h.drained.fails⟩
  have hk : (u.released od scp).myCore = s.myCore := by unfold State.myCore; rw [(State.released_moves u od scp).cur, w.cur]
  have hnear : p.dev? = none := by have := h.near; cases p <;> simp_all [Place.isRemote, Place.dev?]
  have hnp : ((u.released od scp).flushPlace s.myCore p).poisoned p a = false :=
    State.not_poisoned_sub (fun x hx => by have := State.poison_released_sub _ _ _ (State.poison_flushPlace_sub _ _ _ hx); rw [hpo] at this; exact this) h.sound
  unfold State.atomicOp
  rw [mainOnly_main h.main, h.ready.issueVar h.here, access_ok h.main h.aligned h.place]
  simp only [hu, if_neg ho]
  rw [State.whenDrained_eq hd, State.released_eq]
  simp only [hnear, hk, hnp, Bool.false_eq_true, if_false, State.acquired_eq]

theorem leBytes_mod (n : Nat) : ∀ x y : Nat, x % 256 ^ n = y % 256 ^ n → leBytes n x = leBytes n y := by
  induction n with
  | zero => intro x y _; rfl
  | succ n ih =>
    intro x y h
    have h1 : x % 256 = y % 256 := by
      have := congrArg (· % 256) h
      simp only [pow_succ, Nat.mod_mul_left_mod] at this
      exact this
    have h2 : x / 256 % 256 ^ n = y / 256 % 256 ^ n := by
      have := congrArg (· / 256) h
      simp only [pow_succ'] at this
      rw [Nat.mod_mul_right_div_self, Nat.mod_mul_right_div_self] at this
      exact this
    unfold leBytes
    rw [h1, ih _ _ h2]

theorem sextN32 (v : Word) : sextN 32 v = (v.setWidth 32).signExtend 64 := by
  unfold sextN
  apply BitVec.eq_of_toNat_eq
  rw [BitVec.toNat_signExtend]
  simp only [BitVec.msb_eq_decide, BitVec.toNat_setWidth]
  split
  · rename_i h; rw [decide_eq_false (by omega)]; simp
  · rename_i h; rw [decide_eq_true (by omega)]; simp; omega

theorem sextN64 (v : Word) : sextN 64 v = v := by
  unfold sextN
  have := v.isLt
  apply BitVec.eq_of_toNat_eq
  have h : v.toNat % 2 ^ 64 = v.toNat := Nat.mod_eq_of_lt v.isLt
  rw [h]
  split
  · simp
  · rw [BitVec.toNat_sub]; simp; exact v.isLt

theorem zextN64 (v : Word) : zextN 64 v = v := by
  unfold zextN
  apply BitVec.eq_of_toNat_eq; simp; exact v.isLt

theorem low_mod (z : Width) (x : Word) : (z.low x).toNat % 256 ^ (z.bits / 8) = x.toNat % 256 ^ (z.bits / 8) := by
  cases z
  · rfl
  · simp only [Width.low, Width.bits]
    rw [BitVec.toNat_signExtend]
    simp
    split <;> omega

theorem wrap_mod (z : Width) (i : Nat) : (z.wrap i).toNat % 256 ^ (z.bits / 8) = i % 256 ^ (z.bits / 8) := by
  cases z
  · simp only [Width.wrap, Width.bits, BitVec.toNat_ofInt]; omega
  · have h := low_mod .w (word i)
    have e : Width.wrap .w i = Width.low .w (word i) := by
      simp only [Width.wrap, Width.low]
      congr 1
      apply BitVec.eq_of_toNat_eq
      simp [word]
    rw [e, h]
    simp only [Width.bits, word, BitVec.toNat_ofNat]; omega

theorem extend_low (wide : Bool) (v : Word) : extend true (amoBytes wide) v = (atomWidth wide).low v := by
  cases wide
  · exact sextN32 v
  · exact sextN64 v

theorem sgn_eq (wide : Bool) (v : Word) : (sextN (8 * amoBytes wide) v).toInt = (atomWidth wide).sgn v := by
  cases wide
  · rfl
  · exact congrArg BitVec.toInt (sextN64 v)

theorem uns_eq (wide : Bool) (v : Word) : (zextN (8 * amoBytes wide) v).toNat = (atomWidth wide).uns v := by
  cases wide
  · simp only [amoBytes, zextN, atomWidth, Width.uns, Width.bits]; simp; omega
  · simp only [amoBytes, zextN, atomWidth, Width.uns, Width.bits]; simp

theorem bytes_eq (wide : Bool) : amoBytes wide = (atomWidth wide).bits / 8 := by cases wide <;> rfl

theorem amo_bytes (op : AmoOp) (wide : Bool) (old b : Word) :
    leBytes (amoBytes wide) (amoNew op (amoBytes wide) old b).toNat =
      leBytes ((atomWidth wide).bits / 8) (op.result (atomWidth wide) old b).toNat := by
  rw [← bytes_eq]
  apply leBytes_mod
  have l : ∀ x, (((atomWidth wide).low x).toNat) % 256 ^ amoBytes wide = x.toNat % 256 ^ amoBytes wide := by
    intro x; rw [bytes_eq]; exact low_mod _ _
  cases op
  · simp only [amoNew, AmoOp.result]
    have := wrap_mod (atomWidth wide) ((atomWidth wide).uns old + (atomWidth wide).uns b)
    push_cast at this
    rw [← bytes_eq] at this
    rw [this]
    cases wide <;> simp [amoBytes, atomWidth, Width.uns, Width.bits]
  · exact (l _).symm
  · exact (l _).symm
  · exact (l _).symm
  · simp only [amoNew, AmoOp.result, sgn_eq]; split <;> exact (l _).symm
  · simp only [amoNew, AmoOp.result, sgn_eq]; split <;> exact (l _).symm
  · simp only [amoNew, AmoOp.result, uns_eq]; split <;> exact (l _).symm
  · simp only [amoNew, AmoOp.result, uns_eq]; split <;> exact (l _).symm
  · exact (l _).symm

theorem launch_readies {s u : State} {k : Nat} (h : s.Readies u k) : (u.ctx u.cur.cid).launch = s.me.launch := by
  rw [h.cur]
  have := congrArg Ctx.task (h.ctxs s.cur.cid)
  simp only at this
  unfold Ctx.launch; rw [this]; rfl

theorem onMain_readies {s u : State} {k : Nat} (h : s.Readies u k) (hm : s.OnMain) : u.OnMain := by
  unfold State.OnMain; rw [h.cur]; exact hm

theorem cur_wr1 (s : State) (l : Nat) (p : Place) (b : Byte) : (s.wr1 l p b).cur = s.cur := by
  cases p <;> first | rfl | (unfold State.wr1 State.hbmSet; dsimp only; split <;> rfl)

theorem cur_wr (s : State) (l : Nat) (p : Place) (bs : List Byte) : (s.wr l p bs).cur = s.cur := by
  have : ∀ (bs : List Byte) (s : State) (p : Place), (s.wrBytes l p bs).cur = s.cur := by
    intro bs
    induction bs with
    | nil => intro s p; rfl
    | cons b bs ih => intro s p; exact (ih _ _).trans (cur_wr1 _ _ _ _)
  unfold State.wr
  exact (State.cur_notices _ _ _).trans (this bs s p)

end Sys2Proof.Machine
end

