-- ==== Sys2Proof/Laws/Memory.lean ====
section
/-! SUPPORT. The laws of byte memories: a read after a write, what a write leaves alone, and that every operation keeps the
canonical form (addresses strictly rising, no listed byte zero). -/

namespace Sys2Proof.Machine

open Sys2Proof

theorem Mem.wf_cons {a : Nat} {v : Byte} {m : Mem} :
    Mem.wf ((a, v) :: m) = true ↔ v ≠ 0 ∧ (∀ x ∈ m, a < x.1) ∧ Mem.wf m = true := by
  induction m generalizing a v with
  | nil => simp [Mem.wf]
  | cons x m ih => simp only [Mem.wf]; grind

/-- An address below every listed one reads as zero. -/
theorem Mem.get_below {m : Mem} {n : Nat} (h : ∀ x ∈ m, n < x.1) : Mem.get m n = 0 := by
  fun_induction Mem.get m n <;> simp_all

theorem Mem.get_set {m : Mem} (h : Mem.wf m = true) (k : Nat) (v : Byte) (n : Nat) :
    Mem.get (Mem.set m k v) n = if n = k then v else Mem.get m n := by
  have below := fun (y : Mem) => @Mem.get_below y n
  induction m with
  | nil => grind [Mem.get, Mem.set]
  | cons x m ih =>
    obtain ⟨hv, hm, hw⟩ := Mem.wf_cons.mp h
    have low := below m
    have all := below (x :: m)
    simp only [List.forall_mem_cons] at all
    simp only [Mem.set]
    grind [Mem.get]

theorem Mem.key_of_mem_set {m : Mem} {k : Nat} {v : Byte} {x : Host.Cell} (h : x ∈ Mem.set m k v) :
    x.1 = k ∨ x ∈ m := by
  fun_induction Mem.set m k v <;> grind

/-- Setting a byte keeps the canonical form. -/
theorem Mem.wf_set {m : Mem} (h : Mem.wf m = true) (k : Nat) (v : Byte) : Mem.wf (Mem.set m k v) = true := by
  have key := fun x (y : Mem) (h : x ∈ Mem.set y k v) => Mem.key_of_mem_set h
  induction m with
  | nil => grind [Mem.wf, Mem.set]
  | cons x m ih => obtain ⟨hv, hm, hw⟩ := Mem.wf_cons.mp h; simp only [Mem.set]; grind [Mem.wf_cons]

/-- Writing bytes keeps the canonical form. -/
theorem Mem.wf_write {m : Mem} (h : Mem.wf m = true) (a : Nat) (bs : List Byte) : Mem.wf (Mem.write m a bs) = true := by
  induction bs generalizing m a with
  | nil => exact h
  | cons b bs ih => exact ih (Mem.wf_set h a b) (a + 1)

/-- A read after a write: the bytes written inside the range, the bytes before outside it. -/
theorem Mem.get_write {m : Mem} (h : Mem.wf m = true) (a : Nat) (bs : List Byte) (n : Nat) :
    Mem.get (Mem.write m a bs) n = if a ≤ n then (bs[n - a]?).getD (Mem.get m n) else Mem.get m n := by
  induction bs generalizing m a with
  | nil => simp [Mem.write]
  | cons b bs ih =>
    simp only [Mem.write]
    rw [ih (Mem.wf_set h a b), Mem.get_set h]
    by_cases h1 : n = a
    · subst n; simp
    · by_cases h2 : a ≤ n
      · obtain ⟨d, hd⟩ : ∃ d, n - a = d + 1 := ⟨n - a - 1, by omega⟩
        have h3 : n - (a + 1) = d := by omega
        have h4 : a + 1 ≤ n := by omega
        simp [h2, h4, hd, h3, h1]
      · have h4 : ¬ a + 1 ≤ n := by omega
        simp [h2, h4, h1]

theorem Mem.wf_filter {m : Mem} (h : Mem.wf m = true) (p : Host.Cell → Bool) : Mem.wf (m.filter p) = true := by
  induction m with
  | nil => rfl
  | cons x m ih => obtain ⟨hv, hm, hw⟩ := Mem.wf_cons.mp h; grind [Mem.wf_cons]

/-- Clearing a range keeps the canonical form. -/
theorem Mem.wf_clear {m : Mem} (h : Mem.wf m = true) (lo n : Nat) : Mem.wf (Mem.clear m lo n) = true :=
  Mem.wf_filter h _

theorem Mem.get_filter (m : Mem) (p : Nat → Bool) (n : Nat) :
    Mem.get (m.filter (fun c => p c.1)) n = if p n then Mem.get m n else 0 := by
  induction m with
  | nil => simp [Mem.get]
  | cons x m ih => grind [Mem.get]

/-- A cleared range reads as zero, everything else as before. -/
theorem Mem.get_clear (m : Mem) (lo n a : Nat) :
    Mem.get (Mem.clear m lo n) a = if lo ≤ a ∧ a < lo + n then 0 else Mem.get m a := by
  unfold Mem.clear
  rw [Mem.get_filter m (fun x => decide (x < lo) || decide (lo + n ≤ x))]
  grind

/-- Below a canonical memory's first address, and below the rest of it, everything reads as zero. -/
theorem Mem.head_below {a : Nat} {v : Byte} {m : Mem} (h : Mem.wf ((a, v) :: m) = true) :
    v ≠ 0 ∧ Mem.get m a = 0 ∧ ∀ n < a, Mem.get ((a, v) :: m) n = 0 ∧ Mem.get m n = 0 := by
  obtain ⟨hv, hm, -⟩ := Mem.wf_cons.mp h
  refine ⟨hv, Mem.get_below hm, fun n hn => ?_⟩
  have low := Mem.get_below (m := m) (n := n) (fun x hx => Nat.lt_trans hn (hm x hx))
  exact ⟨by simp [Mem.get, Nat.ne_of_gt hn, low], low⟩

/-- Two memories in canonical form that read alike everywhere are the same list. -/
theorem Mem.ext {m m' : Mem} (h : Mem.wf m = true) (h' : Mem.wf m' = true) (e : ∀ n, Mem.get m n = Mem.get m' n) :
    m = m' := by
  induction m generalizing m' with
  | nil => cases m' with
    | nil => rfl
    | cons y m' => have q := e y.1; have := Mem.head_below h'; grind [Mem.get]
  | cons x m ih => cases m' with
    | nil => have q := e x.1; have := Mem.head_below h; grind [Mem.get]
    | cons y m' =>
      obtain ⟨a, v⟩ := x
      obtain ⟨b, w⟩ := y
      have hx := Mem.head_below h
      have hy := Mem.head_below h'
      have first : a = b ∧ v = w := by have p := e a; have q := e b; grind [Mem.get]
      obtain ⟨rfl, rfl⟩ := first
      rw [ih (Mem.wf_cons.mp h).2.2 (Mem.wf_cons.mp h').2.2 (fun n => ?_)]
      have q := e n
      grind [Mem.get]

/-- The memories of the state after reset are in canonical form. -/
theorem Mem.wf_reset : Mem.wf State.reset.mem.hbm = true ∧ Mem.wf State.reset.mem.clus = true ∧
    Mem.wf State.reset.mem.chip = true ∧ Mem.wf State.reset.mem.flash = true ∧ Mem.wf State.reset.host.mem = true :=
  ⟨rfl, rfl, rfl, rfl, rfl⟩

end Sys2Proof.Machine
end

