-- ==== Sys2Proof/Laws/Place.lean ====
section
/-! SUPPORT. Memory by places: every write keeps the canonical form, reads back, and leaves other bytes alone (R59, R120, R141). -/

namespace Sys2Proof.Machine

open Sys2Proof

theorem State.hbmSet_key (s : State) (slot pa k : Nat) (b : Byte) : (s.hbmSet slot pa b).slotKey k = s.slotKey k := by
  unfold State.hbmSet; split <;> rfl

theorem State.slotKey_wr1 (s : State) (l k : Nat) (p : Place) (b : Byte) : (s.wr1 l p b).slotKey k = s.slotKey k := by
  cases p <;> first | rfl | exact State.hbmSet_key _ _ _ _ _

/-- A write under one key, read under the same. -/
theorem State.hbmByte_set (s : State) (h : Mem.wf s.mem.hbm = true) {slot slot' : Nat} (hk : (s.slotKey slot).isSome = true)
    (he : s.slotKey slot' = s.slotKey slot) (pa pa' : Nat) (b : Byte) :
    (s.hbmSet slot pa b).hbmByte slot' pa' = if pa' = pa then b else s.hbmByte slot' pa' := by
  obtain ⟨kr, hkr⟩ := Option.isSome_iff_exists.mp hk
  have hkey' : (s.hbmSet slot pa b).slotKey slot' = some kr := by rw [State.hbmSet_key, he, hkr]
  have hu : Map.find (s.hbmSet slot pa b).mem.unitKey (pa' / 64) = if pa' / 64 = pa / 64 then some kr else Map.find s.mem.unitKey (pa' / 64) := by
    unfold State.hbmSet; rw [hkr]; exact Map.find_put _ _ _ _
  -- the bytes before the write, as the new key reads them
  let hbm := match Map.find s.mem.unitKey (pa / 64) with
    | some kw => if kw = kr then s.mem.hbm else Mem.write s.mem.hbm (pa / 64 * 64) (s.hbmRead slot (pa / 64 * 64) 64)
    | none => Mem.clear s.mem.hbm (pa / 64 * 64) 64
  have hm : (s.hbmSet slot pa b).mem.hbm = Mem.set hbm pa b := by unfold State.hbmSet; rw [hkr]; all_goals rfl
  have hwf : Mem.wf hbm = true := by
    dsimp only [hbm]; split
    · split
      · exact h
      · exact Mem.wf_write h _ _
    · exact Mem.wf_clear h _ _
  have hin : ∀ a, a / 64 = pa / 64 → Mem.get hbm a = s.hbmByte slot' a := by
    intro a ha
    have hb : s.hbmByte slot' a = s.hbmByte slot a := by unfold State.hbmByte; rw [he]
    dsimp only [hbm]
    rw [hb]
    unfold State.hbmByte
    rw [ha, hkr]
    cases hf : Map.find s.mem.unitKey (pa / 64) with
    | none =>
      dsimp only
      rw [Mem.get_clear, if_pos]; omega
    | some kw =>
      dsimp only
      split
      · rfl
      · rename_i hne
        have h0 : pa / 64 * 64 ≤ a := by omega
        rw [Mem.get_write h, if_pos h0]
        have h1 : a - pa / 64 * 64 < 64 := by omega
        have h2 : pa / 64 * 64 + (a - pa / 64 * 64) = a := by omega
        simp only [State.hbmRead, List.getElem?_map, List.getElem?_range h1, Option.map_some, Option.getD_some, h2]
        unfold State.hbmByte
        rw [ha, hf, hkr]
        dsimp only
        rw [if_neg hne]
  have hout : ∀ a, a / 64 ≠ pa / 64 → Mem.get hbm a = Mem.get s.mem.hbm a := by
    intro a ha
    dsimp only [hbm]
    split
    · split
      · rfl
      · rw [Mem.get_write h]
        split
        · rename_i h0
          rw [List.getElem?_eq_none]
          · rfl
          · simp [State.hbmRead]; omega
        · rfl
    · rw [Mem.get_clear, if_neg]; omega
  have hget : ∀ a, Mem.get (s.hbmSet slot pa b).mem.hbm a = if a = pa then b else Mem.get hbm a := by
    intro a; rw [hm, Mem.get_set hwf]
  by_cases hsame : pa' / 64 = pa / 64
  · have : (s.hbmSet slot pa b).hbmByte slot' pa' = Mem.get (s.hbmSet slot pa b).mem.hbm pa' := by
      unfold State.hbmByte
      rw [hu, if_pos hsame, hkey']
      simp
    rw [this, hget]
    split
    · rfl
    · exact hin pa' hsame
  · have hne : pa' ≠ pa := fun e => hsame (by rw [e])
    rw [if_neg hne]
    have hr : Mem.read (s.hbmSet slot pa b).mem.hbm (pa' / 64 * 64) 64 = Mem.read s.mem.hbm (pa' / 64 * 64) 64 := by
      unfold Mem.read
      apply List.map_congr_left
      intro i hi
      rw [List.mem_range] at hi
      rw [hget, if_neg (by omega), hout _ (by omega)]
    have hg : Mem.get (s.hbmSet slot pa b).mem.hbm pa' = Mem.get s.mem.hbm pa' := by
      rw [hget, if_neg hne, hout _ hsame]
    unfold State.hbmByte
    rw [hu, if_neg hsame, hkey', hr, hg, he, hkr]

theorem State.MemOk.wr1 {s : State} (h : s.MemOk) (l : Nat) (p : Place) (b : Byte) : (s.wr1 l p b).MemOk := by
  obtain ⟨h1, h2, h3, h4, h5, h6, h7, h8⟩ := h
  cases p with
  | spad cid off =>
    refine ⟨h1, h2, h3, h4, h5, fun c => ?_, fun c => ?_, h8⟩ <;>
    · unfold State.wr1
      rw [State.ctx_modCtx]
      split
      · first | exact Mem.wf_set (h6 _) _ _ | exact h7 _
      · first | exact h6 _ | exact h7 _
  | clus c off => exact ⟨h1, Mem.wf_set h2 _ _, h3, h4, h5, h6, h7, h8⟩
  | chip pos off =>
    refine ⟨h1, h2, ?_, h4, h5, h6, h7, h8⟩
    apply Mem.wf_set
    split
    · exact h3
    · exact Mem.wf_clear h3 _ _
  | wst cid off =>
    refine ⟨h1, h2, h3, h4, h5, fun c => ?_, fun c => ?_, h8⟩ <;>
    · unfold State.wr1
      rw [State.ctx_modCtx]
      split
      · first | exact Mem.wf_set (h7 _) _ _ | exact h6 _
      · first | exact h6 _ | exact h7 _
  | flash off => exact ⟨h1, h2, h3, Mem.wf_set h4 _ _, h5, h6, h7, h8⟩
  | loc pa key cl wp =>
    unfold State.wr1 State.hbmSet
    dsimp only
    split
    · exact ⟨h1, h2, h3, h4, h5, h6, h7, h8⟩
    · refine ⟨Mem.wf_set ?_ _ _, h2, h3, h4, h5, h6, h7, h8⟩
      split
      · split
        · exact h1
        · exact Mem.wf_write h1 _ _
      · exact Mem.wf_clear h1 _ _
  | remote _ _ _ => exact ⟨h1, h2, h3, h4, h5, h6, h7, h8⟩
  | host port bus => exact ⟨h1, h2, h3, h4, Mem.wf_set h5 _ _, h6, h7, h8⟩
  | trapMem core off =>
    refine ⟨h1, h2, h3, h4, h5, h6, h7, fun k => ?_⟩
    unfold State.wr1
    rw [State.core_modCore]
    split
    · exact Mem.wf_set (h8 _) _ _
    · exact h8 _

theorem State.MemOk.wrBytes (l : Nat) (bs : List Byte) : ∀ {s : State} (p : Place), s.MemOk → (s.wrBytes l p bs).MemOk := by
  induction bs with
  | nil => intro s p h; exact h
  | cons b bs ih => intro s p h; exact ih (p.add 1) (h.wr1 l p b)

/-- Beyond the bytes, a write only heals units, wakes monitors and posts notices. -/
theorem State.ctx_wr (s : State) (l : Nat) (p : Place) (bs : List Byte) (c : Nat) :
    (s.wr l p bs).ctx c = ((s.wrBytes l p bs).ctx c).wakeOn p bs.length := by
  refine Eq.trans ?_ (State.ctx_wakeOn ((s.wrBytes l p bs).heal p bs.length) p bs.length c)
  unfold State.wr State.ctx
  rw [State.ctxs_notices]

theorem State.parts_wr (s : State) (l : Nat) (p : Place) (bs : List Byte) (c : Nat) :
    ((s.wr l p bs).ctx c).parts = ((s.wrBytes l p bs).ctx c).parts := by
  rw [State.ctx_wr]
  have := congrArg Ctx.parts (Ctx.wakeOn_rest ((s.wrBytes l p bs).ctx c) p bs.length)
  exact this

theorem State.mem_wr (s : State) (l : Nat) (p : Place) (bs : List Byte) : (s.wr l p bs).mem = ((s.wrBytes l p bs).heal p bs.length).mem := by
  unfold State.wr; rw [State.mem_notices]; rfl

theorem State.host_wr (s : State) (l : Nat) (p : Place) (bs : List Byte) : (s.wr l p bs).host = (s.wrBytes l p bs).host := by
  unfold State.wr; rw [State.host_notices]; rfl

theorem State.cores_wr (s : State) (l : Nat) (p : Place) (bs : List Byte) : (s.wr l p bs).cores = (s.wrBytes l p bs).cores := by
  unfold State.wr; rw [State.cores_notices]; rfl

theorem State.MemOk.wr {s : State} (h : s.MemOk) (l : Nat) (p : Place) (bs : List Byte) : (s.wr l p bs).MemOk := by
  obtain ⟨h1, h2, h3, h4, h5, h6, h7, h8⟩ := State.MemOk.wrBytes l bs p h
  have hc := s.parts_wr l p bs
  refine ⟨by rw [State.mem_wr]; exact h1, by rw [State.mem_wr]; exact h2, by rw [State.mem_wr]; exact h3, by rw [State.mem_wr]; exact h4,
    by rw [State.host_wr]; exact h5, fun c => by rw [hc]; exact h6 c, fun c => by rw [hc]; exact h7 c, fun k => ?_⟩
  unfold State.core; rw [State.cores_wr]; exact h8 k

theorem Place.same_eq (p q : Place) : p.same q = decide (q.coord.1 = p.coord.1 ∧ q.coord.2.1 = p.coord.2.1 ∧ q.coord.2.2.1 = p.coord.2.2.1) := by
  rw [Bool.eq_iff_iff]
  simp only [Place.same, Bool.and_eq_true, beq_iff_eq, decide_eq_true_eq]
  constructor
  · rintro ⟨⟨h1, h2⟩, h3⟩; exact ⟨h1.symm, h2.symm, h3.symm⟩
  · rintro ⟨h1, h2, h3⟩; exact ⟨⟨h1.symm, h2.symm⟩, h3.symm⟩

/-- One byte written, then read. -/
theorem State.rd1_wr1 {s : State} (h : s.MemOk) {l : Nat} {p q : Place} (b : Byte) (hp : s.Home p) (hf : p.fits 1) (hq : q.fits 1)
    (hk : s.sameKey p q) : (s.wr1 l p b).rd1 l q = if p.same q then b else s.rd1 l q := by
  rw [Place.same_eq]
  cases p with
  | spad cid off =>
    cases q with
    | spad c o =>
      simp only [State.wr1, State.rd1, State.ctx_modCtx, Place.coord]
      by_cases hc : c = cid
      · subst hc; simp [Ctx.modParts, Mem.get_set (h.spad c)]
      · simp [hc]
    | wst c o =>
      simp only [State.wr1, State.rd1, State.ctx_modCtx, Place.coord]
      by_cases hc : c = cid
      · subst hc; simp [Ctx.modParts]
      · simp [hc]
    | _ => rfl
  | clus c off =>
    cases q with
    | clus c' off' =>
      simp only [Place.fits] at hf hq
      simp only [State.wr1, State.rd1, Place.coord, Mem.get_set h.clus]
      have : (bigAddr c' off' = bigAddr c off) ↔ (c' = c ∧ off' = off) := by unfold bigAddr; omega
      simp only [this]
      simp
    | _ => rfl
  | chip pos off =>
    cases q with
    | chip pos' off' =>
      simp only [Place.fits] at hf hq
      have e : (bigAddr pos' off' = bigAddr pos off) ↔ (pos' = pos ∧ off' = off) := by unfold bigAddr; omega
      simp only [State.wr1, State.rd1, Place.coord, Map.find_put, true_and, ← e]
      generalize bigAddr pos off = x
      generalize bigAddr pos' off' = y
      have hwf : Mem.wf (if Map.find s.mem.tags (x / 4096) = some l then s.mem.chip else Mem.clear s.mem.chip (x / 4096 * 4096) 4096) = true := by
        split
        · exact h.chip
        · exact Mem.wf_clear h.chip _ _
      rw [Mem.get_set hwf]
      by_cases hxy : y = x
      · simp [hxy]
      · by_cases hg : y / 4096 = x / 4096
        · rw [hg]
          by_cases ht : Map.find s.mem.tags (x / 4096) = some l
          · simp [hxy, ht]
          · have : x / 4096 * 4096 ≤ y ∧ y < x / 4096 * 4096 + 4096 := by omega
            simp [hxy, ht, Mem.get_clear, this]
        · by_cases ht : Map.find s.mem.tags (x / 4096) = some l
          · simp [hxy, hg, ht]
          · have : ¬ (x / 4096 * 4096 ≤ y ∧ y < x / 4096 * 4096 + 4096) := by omega
            simp only [hxy, hg, ht, Mem.get_clear, this, if_false, decide_false, Bool.false_eq_true]
    | _ => rfl
  | wst cid off =>
    cases q with
    | wst c o =>
      simp only [State.wr1, State.rd1, State.ctx_modCtx, Place.coord]
      by_cases hc : c = cid
      · subst hc; simp [Ctx.modParts, Mem.get_set (h.wst c)]
      · simp [hc]
    | spad c o =>
      simp only [State.wr1, State.rd1, State.ctx_modCtx, Place.coord]
      by_cases hc : c = cid
      · subst hc; simp [Ctx.modParts]
      · simp [hc]
    | _ => rfl
  | flash off =>
    cases q with
    | flash o => simp [State.wr1, State.rd1, Place.coord, Mem.get_set h.flash]
    | _ => rfl
  | loc pa key cl wp =>
    have hother : ∀ (f : State → Byte), (∀ a b, f { s with mem := { s.mem with hbm := a, unitKey := b } } = f s) →
        f (s.hbmSet key pa b) = f s := by
      intro f hf
      unfold State.hbmSet
      split
      · rfl
      · exact hf _ _
    cases q with
    | loc pa' key' cl' wp' =>
      simp only [State.wr1, State.rd1, Place.coord]
      rw [State.hbmByte_set s h.hbm hp (show s.slotKey key' = s.slotKey key from hk.symm)]
      simp
    | spad a o => exact hother (fun s => s.rd1 l (.spad a o)) (fun _ _ => rfl)
    | clus a o => exact hother (fun s => s.rd1 l (.clus a o)) (fun _ _ => rfl)
    | chip a o => exact hother (fun s => s.rd1 l (.chip a o)) (fun _ _ => rfl)
    | wst a o => exact hother (fun s => s.rd1 l (.wst a o)) (fun _ _ => rfl)
    | flash a => exact hother (fun s => s.rd1 l (.flash a)) (fun _ _ => rfl)
    | remote _ _ _ => rfl
    | host a o => exact hother (fun s => s.rd1 l (.host a o)) (fun _ _ => rfl)
    | trapMem a o => exact hother (fun s => s.rd1 l (.trapMem a o)) (fun _ _ => rfl)
  | remote _ _ _ => exact hp.elim
  | host port bus =>
    cases q with
    | host port' bus' =>
      simp only [Place.fits] at hf hq
      simp only [State.wr1, State.rd1, Place.coord, Mem.get_set h.host]
      have : (hostAddr port' bus' = hostAddr port bus) ↔ (port' = port ∧ bus' = bus) := by unfold hostAddr; omega
      simp only [this]
      simp
    | _ => rfl
  | trapMem core off =>
    cases q with
    | trapMem k o =>
      simp only [State.wr1, State.rd1, State.core_modCore, Place.coord]
      by_cases hc : k = core
      · subst hc; simp [Mem.get_set (h.trap k)]
      · simp [hc]
    | _ => rfl

theorem State.rd1_wr (s : State) (l l' : Nat) (p q : Place) (bs : List Byte) : (s.wr l p bs).rd1 l' q = (s.wrBytes l p bs).rd1 l' q := by
  cases q <;> simp only [State.rd1, State.parts_wr, State.mem_wr, State.host_wr, State.hbmByte, State.slotKey, State.core, State.cores_wr] <;> rfl

theorem Place.add_add (p : Place) (m n : Nat) : (p.add m).add n = p.add (m + n) := by
  cases p <;> simp [Place.add, Nat.add_assoc]

theorem Place.add_zero (p : Place) : p.add 0 = p := by cases p <;> rfl

theorem Place.same_add (p : Place) (i j : Nat) : (p.add i).same (p.add j) = decide (i = j) := by
  rw [Place.same_eq]
  cases p <;> simp [Place.add, Place.coord] <;> omega

theorem State.Home.add {s : State} {p : Place} (h : s.Home p) (n : Nat) : s.Home (p.add n) := by cases p <;> exact h
theorem State.Home.wr1 {s : State} {q : Place} (h : s.Home q) (l : Nat) (p : Place) (b : Byte) : (s.wr1 l p b).Home q := by
  cases q <;> first | exact h | (simp only [State.Home, State.slotKey_wr1] at h ⊢; exact h)

theorem Place.fits_add {p : Place} {n i m : Nat} (h : p.fits n) (hi : i + m ≤ n) : (p.add i).fits m := by
  cases p <;> simp only [Place.fits, Place.add] at h ⊢ <;> omega

theorem State.sameKey_add (s : State) (p : Place) (i j : Nat) : s.sameKey (p.add i) (p.add j) := by cases p <;> first | rfl | trivial
theorem State.sameKey_add_left {s : State} {p q : Place} (h : s.sameKey p q) (i : Nat) : s.sameKey (p.add i) q := by
  cases p <;> cases q <;> first | exact h | trivial
theorem State.sameKey_wr1 {s : State} {p q : Place} (h : s.sameKey p q) (l : Nat) (r : Place) (b : Byte) : (s.wr1 l r b).sameKey p q := by
  cases p <;> cases q <;> first | trivial | (simp only [State.sameKey, State.slotKey_wr1] at h ⊢; exact h)

/-- Bytes outside a run are left as they were. -/
theorem State.rd1_wrBytes_other (l : Nat) (bs : List Byte) : ∀ {s : State} {p q : Place}, s.MemOk → s.Home p → p.fits bs.length → q.fits 1 →
    s.sameKey p q → (∀ i < bs.length, (p.add i).same q = false) → (s.wrBytes l p bs).rd1 l q = s.rd1 l q := by
  induction bs with
  | nil => intros; rfl
  | cons b bs ih =>
    intro s p q h hp hf hq hk hn
    have hf1 : p.fits 1 := by have := Place.fits_add (i := 0) (m := 1) hf (by simp); rwa [Place.add_zero] at this
    have h1 : (s.wr1 l p b).rd1 l q = s.rd1 l q := by
      rw [State.rd1_wr1 h b hp hf1 hq hk]
      have := hn 0 (by simp)
      rw [Place.add_zero] at this
      simp [this]
    rw [← h1]
    refine ih (h.wr1 l p b) ((hp.add 1).wr1 l p b) (Place.fits_add hf (by simp; omega)) hq (State.sameKey_wr1 (State.sameKey_add_left hk 1) _ _ _) ?_
    intro i hi
    rw [Place.add_add]
    exact hn (1 + i) (by simp; omega)

/-- Bytes inside a run are what was written. -/
theorem State.rd1_wrBytes_at (l : Nat) (bs : List Byte) : ∀ {s : State} {p : Place}, s.MemOk → s.Home p → p.fits bs.length →
    ∀ (i : Nat) (h : i < bs.length), (s.wrBytes l p bs).rd1 l (p.add i) = bs[i] := by
  induction bs with
  | nil => intro s p _ _ _ i h; simp at h
  | cons b bs ih =>
    intro s p h hp hf i hi
    have hf1 : p.fits 1 := by have := Place.fits_add (i := 0) (m := 1) hf (by simp); rwa [Place.add_zero] at this
    have hfr : (p.add 1).fits bs.length := Place.fits_add hf (by simp; omega)
    cases i with
    | zero =>
      rw [Place.add_zero]
      have h1 : (s.wr1 l p b).rd1 l p = b := by
        have hk : s.sameKey p p := by have := State.sameKey_add s p 0 0; rwa [Place.add_zero] at this
        rw [State.rd1_wr1 h b hp hf1 hf1 hk]
        have := Place.same_add p 0 0
        rw [Place.add_zero] at this
        simp [this]
      refine (State.rd1_wrBytes_other l bs (h.wr1 l p b) ((hp.add 1).wr1 l p b) hfr hf1 ?_ ?_).trans h1
      · have := State.sameKey_wr1 (State.sameKey_add s p 1 0) l p b
        rwa [Place.add_zero] at this
      · intro j _
        rw [Place.add_add]
        have := Place.same_add p (1 + j) 0
        rw [Place.add_zero] at this
        rw [this]; simp
    | succ i =>
      have := ih (h.wr1 l p b) ((hp.add 1).wr1 l p b) hfr i (by simpa using hi)
      rw [Place.add_add, Nat.add_comm 1 i] at this
      exact this

end Sys2Proof.Machine
end

