-- ==== Sys2Proof/Laws/Store.lean ====
section
/-! SUPPORT. Stores and loads that leave their queues: what they do to memory, L1 and the queue (R141-R146). -/

namespace Sys2Proof.Machine

open Sys2Proof

theorem leBytes_length (n x : Nat) : (leBytes n x).length = n := by
  induction n generalizing x with
  | zero => rfl
  | succ n ih => simp [leBytes, ih]

theorem leBytes_get (n : Nat) : ∀ (x i : Nat), i < n → (leBytes n x)[i]? = some (BitVec.ofNat 8 (x / 256 ^ i % 256)) := by
  induction n with
  | zero => intro x i h; omega
  | succ n ih =>
    intro x i h
    cases i with
    | zero => simp [leBytes, byte]
    | succ i =>
      simp only [leBytes, List.getElem?_cons_succ]
      rw [ih _ _ (by omega), Nat.div_div_eq_div_mul, pow_succ']

/-- A write changes of a context only its partition and a hold that it wakes. -/
theorem State.ctx_wr_shape (s : State) (l : Nat) (p : Place) (bs : List Byte) (c : Nat) :
    ∃ x h, (s.wr l p bs).ctx c = { s.ctx c with parts := x, sc := { (s.ctx c).sc with hold := h } } := by
  have h1 : ∀ (s : State) (p : Place) (b : Byte), ∃ x, (s.wr1 l p b).ctx c = { s.ctx c with parts := x } := by
    intro s p b
    cases p with
    | spad cid off =>
      unfold State.wr1; rw [State.ctx_modCtx]
      by_cases h : c = cid
      · subst h; rw [if_pos rfl]; exact ⟨_, rfl⟩
      · rw [if_neg h]; exact ⟨_, rfl⟩
    | wst cid off =>
      unfold State.wr1; rw [State.ctx_modCtx]
      by_cases h : c = cid
      · subst h; rw [if_pos rfl]; exact ⟨_, rfl⟩
      · rw [if_neg h]; exact ⟨_, rfl⟩
    | loc pa key cl wp =>
      refine ⟨(s.ctx c).parts, ?_⟩
      change (s.hbmSet key pa b).ctx c = _
      unfold State.hbmSet; split <;> rfl
    | _ => exact ⟨_, rfl⟩
  have h2 : ∀ (bs : List Byte) (s : State) (p : Place), ∃ x, (s.wrBytes l p bs).ctx c = { s.ctx c with parts := x } := by
    intro bs
    induction bs with
    | nil => intro s p; exact ⟨_, rfl⟩
    | cons b bs ih =>
      intro s p
      obtain ⟨x, hx⟩ := ih (s.wr1 l p b) (p.add 1)
      obtain ⟨y, hy⟩ := h1 s p b
      exact ⟨x, hx.trans (by rw [hy])⟩
  obtain ⟨x, hx⟩ := h2 bs s p
  rw [State.ctx_wr, hx]
  unfold Ctx.wakeOn
  cases hh : (s.ctx c).sc.hold
  case waita w =>
    dsimp only
    split
    · exact ⟨_, _, rfl⟩
    · exact ⟨x, .waita w, by rw [← hh]⟩
  all_goals exact ⟨x, (s.ctx c).sc.hold, rfl⟩

/-- A write changes of a core at most its trap core's memory. -/
theorem State.core_wr (s : State) (l : Nat) (p : Place) (bs : List Byte) (k : Nat) :
    ∃ x, (s.wr l p bs).core k = { s.core k with trap := { (s.core k).trap with mem := x } } := by
  have h1 : ∀ (s : State) (p : Place) (b : Byte), ∃ x, (s.wr1 l p b).core k = { s.core k with trap := { (s.core k).trap with mem := x } } := by
    intro s p b
    cases p with
    | trapMem core off =>
      unfold State.wr1; rw [State.core_modCore]
      by_cases h : k = core
      · subst h; rw [if_pos rfl]; exact ⟨_, rfl⟩
      · rw [if_neg h]; exact ⟨_, rfl⟩
    | loc pa key cl wp =>
      refine ⟨(s.core k).trap.mem, ?_⟩
      change (s.hbmSet key pa b).core k = _
      unfold State.hbmSet; split <;> rfl
    | _ => exact ⟨_, rfl⟩
  have h2 : ∀ (bs : List Byte) (s : State) (p : Place), ∃ x, (s.wrBytes l p bs).core k = { s.core k with trap := { (s.core k).trap with mem := x } } := by
    intro bs
    induction bs with
    | nil => intro s p; exact ⟨_, rfl⟩
    | cons b bs ih =>
      intro s p
      obtain ⟨x, hx⟩ := ih (s.wr1 l p b) (p.add 1)
      obtain ⟨y, hy⟩ := h1 s p b
      exact ⟨x, hx.trans (by rw [hy])⟩
  unfold State.core; rw [State.cores_wr]; exact h2 bs s p

theorem State.path_wr (s : State) (l : Nat) (p : Place) (bs : List Byte) (c : Nat) : ((s.wr l p bs).ctx c).path = (s.ctx c).path := by
  obtain ⟨x, h, e⟩ := s.ctx_wr_shape l p bs c; rw [e]
theorem State.l1_wr (s : State) (l : Nat) (p : Place) (bs : List Byte) (k : Nat) : ((s.wr l p bs).core k).l1 = (s.core k).l1 := by
  obtain ⟨x, e⟩ := s.core_wr l p bs k; rw [e]

theorem State.MovesData.path {s t : State} {k : Nat} (h : s.MovesData t k) (c : Nat) : (t.ctx c).path = (s.ctx c).path := by
  have := congrArg Ctx.path (h.ctxs c); exact this
theorem State.MovesData.launch {s t : State} {k : Nat} (h : s.MovesData t k) (c : Nat) : (t.ctx c).launch = (s.ctx c).launch := by
  unfold Ctx.launch; rw [h.task c]

theorem State.AtHead.storeHead {s : State} {cid : Nat} {e : StEnt} {es : List StEnt} (h : s.AtHead cid e es) :
    s.storeHead cid = some (e, es) := by
  unfold State.storeHead
  rw [h.queue]
  dsimp only
  rw [if_pos]
  unfold SPath.mayStore
  rw [Bool.and_eq_true, Bool.and_eq_true, List.all_eq_true]
  refine ⟨⟨fun l hl => ?_, by rw [h.acks]; rfl⟩, by rw [h.here]; rfl⟩
  · rcases h.loads l hl with h' | ⟨a, b, c, d⟩
    · simp [h']
    · simp [a, b, c, d]

theorem mergeInto_none {ls : List LdEnt} {e : StEnt} {es : List StEnt} (h : ∀ f ∈ es, f.place ≠ e.place ∨ f.size ≠ e.size) : mergeInto ls e es = none := by
  induction es with
  | nil => rfl
  | cons f fs ih =>
    have h1 : e.sameAs f = false := by
      unfold StEnt.sameAs
      rcases h f List.mem_cons_self with h | h
      · have : (e.place == f.place) = false := by rw [beq_eq_false_iff_ne]; exact fun x => h x.symm
        simp [this]
      · have : (e.size == f.size) = false := by rw [beq_eq_false_iff_ne]; exact fun x => h x.symm
        simp [this]
    unfold mergeInto
    rw [h1, ih (fun g hg => h g (List.mem_cons_of_mem _ hg))]
    simp

/-- A store at the head of its queue that merges with none is performed. -/
theorem State.AtHead.storePerform {s : State} {cid : Nat} {e : StEnt} {es : List StEnt} {v : Word} (h : s.AtHead cid e es) (hk : e.kind = .store v)
    (hm : ∀ f ∈ es, f.place ≠ e.place ∨ f.size ≠ e.size) (lodge : Bool) :
    exec (.storePerform cid lodge) s = .next (s.headDone cid e es lodge) := by
  change execStorePerform cid lodge s = _
  unfold execStorePerform
  rw [h.storeHead]
  dsimp only
  rw [hk, mergeInto_none hm]

theorem State.path_setStores (s : State) (cid : Nat) (es : List StEnt) : ((s.setStores cid es).ctx cid).path.stores = es := by
  unfold State.setStores; rw [State.ctx_modCtx_same]; rfl

theorem State.launch_setStores (s : State) (cid c : Nat) (es : List StEnt) : ((s.setStores cid es).ctx c).launch = (s.ctx c).launch := by
  unfold State.setStores; rw [State.ctx_modCtx]; split
  · rename_i h; subst h; rfl
  · rfl

theorem State.MemOk.of_same {s t : State} (h : s.MemOk) (hm : t.mem = s.mem) (hh : t.host = s.host) (hc : ∀ c, (t.ctx c).parts = (s.ctx c).parts)
    (hk : ∀ k, (t.core k).trap = (s.core k).trap) : t.MemOk := by
  obtain ⟨h1, h2, h3, h4, h5, h6, h7, h8⟩ := h
  exact ⟨by rw [hm]; exact h1, by rw [hm]; exact h2, by rw [hm]; exact h3, by rw [hm]; exact h4, by rw [hh]; exact h5,
    fun c => by rw [hc]; exact h6 c, fun c => by rw [hc]; exact h7 c, fun k => by rw [hk]; exact h8 k⟩

theorem State.parts_setStores (s : State) (cid c : Nat) (es : List StEnt) : ((s.setStores cid es).ctx c).parts = (s.ctx c).parts := by
  unfold State.setStores; rw [State.ctx_modCtx]; split
  · rename_i h; subst h; rfl
  · rfl

theorem State.MemOk.setStores {s : State} (h : s.MemOk) (cid : Nat) (es : List StEnt) : (s.setStores cid es).MemOk :=
  h.of_same rfl rfl (fun c => State.parts_setStores s cid c es) (fun _ => rfl)

theorem State.rd1_setStores (s : State) (cid : Nat) (es : List StEnt) (l : Nat) (q : Place) : (s.setStores cid es).rd1 l q = s.rd1 l q := by
  cases q <;> first | rfl | (simp only [State.rd1, State.parts_setStores])

theorem State.MemOk.dropCore {s : State} (h : s.MemOk) (k : Nat) (f : Map Line → Map Line) : (s.modCore k (fun c => { c with l1 := f c.l1 })).MemOk :=
  h.of_same rfl rfl (fun _ => rfl) (fun c => by rw [State.core_modCore]; split; · rename_i h; subst h; rfl
                                                · rfl)

theorem State.MemOk.wbLine {s : State} (h : s.MemOk) (k n : Nat) : (s.wbLine k n).MemOk := by
  unfold State.wbLine
  split
  · exact h
  · rename_i l _
    split
    · have : ∀ (rs : List (Nat × List Byte)) (s : State), s.MemOk → (rs.foldl (fun s r => s.wr 0 (.loc (n * 64 + r.1) l.key 0 0) r.2) s).MemOk := by
        intro rs
        induction rs with
        | nil => intro s h; exact h
        | cons r rs ih => intro s h; exact ih _ (h.wr _ _ _)
      exact (this _ s h).dropCore k (fun m => Map.put m n _)
    · exact h

theorem State.MemOk.wbAll {s : State} (h : s.MemOk) (k : Nat) : (s.wbAll k).MemOk := by
  unfold State.wbAll
  have : ∀ (ns : List Nat) (s : State), s.MemOk → (ns.foldl (fun s n => s.wbLine k n) s).MemOk := by
    intro ns
    induction ns with
    | nil => intro s h; exact h
    | cons r rs ih => intro s h; exact ih _ (h.wbLine k _)
  exact this _ s h

theorem State.slotKey_wrBytes (l k : Nat) (bs : List Byte) : ∀ (s : State) (p : Place), (s.wrBytes l p bs).slotKey k = s.slotKey k := by
  induction bs with
  | nil => intro s p; rfl
  | cons b bs ih => intro s p; exact (ih _ _).trans (State.slotKey_wr1 _ _ _ _ _)

theorem State.slotKey_wr (s : State) (l k : Nat) (p : Place) (bs : List Byte) : (s.wr l p bs).slotKey k = s.slotKey k :=
  (show (s.wr l p bs).slotKey k = (s.wrBytes l p bs).slotKey k by unfold State.slotKey; rw [State.mem_wr]; rfl).trans
    (State.slotKey_wrBytes l k bs s p)

theorem State.slotKey_wbLine (s : State) (k n j : Nat) : (s.wbLine k n).slotKey j = s.slotKey j := by
  unfold State.wbLine
  split
  · rfl
  · rename_i l _
    split
    · have : ∀ (rs : List (Nat × List Byte)) (s : State), (rs.foldl (fun s r => s.wr 0 (.loc (n * 64 + r.1) l.key 0 0) r.2) s).slotKey j = s.slotKey j := by
        intro rs
        induction rs with
        | nil => intro s; rfl
        | cons r rs ih => intro s; exact (ih _).trans (State.slotKey_wr _ _ _ _ _)
      exact this _ s
    · rfl

theorem State.slotKey_wbAll (s : State) (k j : Nat) : (s.wbAll k).slotKey j = s.slotKey j := by
  unfold State.wbAll
  have : ∀ (ns : List Nat) (s : State), (ns.foldl (fun s n => s.wbLine k n) s).slotKey j = s.slotKey j := by
    intro ns
    induction ns with
    | nil => intro s; rfl
    | cons r rs ih => intro s; exact (ih _).trans (State.slotKey_wbLine _ _ _ _)
  exact this _ s

theorem State.Home.of_slotKey {s t : State} {p : Place} (h : s.Home p) (hk : ∀ k, t.slotKey k = s.slotKey k) : t.Home p := by
  cases p <;> first | exact h | (simp only [State.Home] at h ⊢; rw [hk]; exact h)

theorem State.sameKey_of_slotKey {s t : State} {p q : Place} (h : s.sameKey p q) (hk : ∀ k, t.slotKey k = s.slotKey k) : t.sameKey p q := by
  cases p <;> cases q <;> first | trivial | (simp only [State.sameKey, hk] at h ⊢; exact h)

/-- A store of a place that L1 does not cache is a write at its place. -/
theorem State.storeHome_uncached (s : State) (cid : Nat) (p : Place) (bs : List Byte) (hc : p.cached = false) (hh : p.isRemote = false) :
    ∃ u, s.MovesData u (cid / 2) ∧ s.storeHome cid p bs = u.wr (s.ctx cid).launch p bs ∧
      (∀ k, u.slotKey k = s.slotKey k) ∧ (s.MemOk → u.MemOk) ∧ ((s.core (cid / 2)).clean → (u.core (cid / 2)).clean) ∧
      ((∀ pa key cl wp, p = .loc pa key cl wp → Map.find (s.core (cid / 2)).l1 (pa / 64) = none) → ∀ l q, u.rd1 l q = s.rd1 l q) := by
  have same : ∃ u, s.MovesData u (cid / 2) ∧ s.wr (s.ctx cid).launch p bs = u.wr (s.ctx cid).launch p bs ∧
      (∀ k, u.slotKey k = s.slotKey k) ∧ (s.MemOk → u.MemOk) ∧ ((s.core (cid / 2)).clean → (u.core (cid / 2)).clean) ∧
      ((∀ pa key cl wp, p = .loc pa key cl wp → Map.find (s.core (cid / 2)).l1 (pa / 64) = none) → ∀ l q, u.rd1 l q = s.rd1 l q) :=
    ⟨s, .refl _ _, rfl, fun _ => rfl, fun h => h, fun h => h, fun _ _ _ => rfl⟩
  cases p with
  | loc pa key cl wp =>
    refine ⟨s.dropLine (cid / 2) (pa / 64), State.dropLine_moves _ _ _, ?_, ?_, ?_, ?_, ?_⟩
    · have : ¬ (cl = 0 ∧ wp = 1) := by simp [Place.cached] at hc; tauto
      unfold State.storeHome
      dsimp only
      rw [if_neg this]
    · exact fun k => State.slotKey_wbLine s (cid / 2) (pa / 64) k
    · exact fun h => (h.wbLine _ _).dropCore _ (fun m => Map.del m _)
    · intro h n l hf
      unfold State.dropLine at hf
      rw [State.core_modCore_same] at hf
      dsimp only at hf
      rw [Map.find_del, State.find_wbLine] at hf
      split at hf
      · cases hf
      · exact h n l hf
    · intro h l q
      have hn : s.wbLine (cid / 2) (pa / 64) = s := by unfold State.wbLine; rw [h pa key cl wp rfl]
      unfold State.dropLine
      rw [hn]
      cases q <;> first | rfl | skip
      unfold State.rd1
      dsimp only
      rw [State.core_modCore]
      split
      · rename_i e; subst e; rfl
      · rfl
  | remote => cases hh
  | spad => exact same
  | clus => exact same
  | chip => exact same
  | wst => exact same
  | flash => exact same
  | host => exact same
  | trapMem => exact same

/-- Before a release beyond .core is performed, every dirty byte is written back. -/
def State.beforeStore (s : State) (cid : Nat) (e : StEnt) : State := if e.isRel && e.scope != .core then s.wbAll (cid / 2) else s

theorem State.beforeStore_moves (s : State) (cid : Nat) (e : StEnt) : s.MovesData (s.beforeStore cid e) (cid / 2) := by
  unfold State.beforeStore; split
  · exact (State.wbAll_moves s _).1
  · exact .refl _ _
theorem State.beforeStore_key (s : State) (cid : Nat) (e : StEnt) (k : Nat) : (s.beforeStore cid e).slotKey k = s.slotKey k := by
  unfold State.beforeStore; split
  · exact State.slotKey_wbAll _ _ _
  · rfl
theorem State.MemOk.beforeStore {s : State} (h : s.MemOk) (cid : Nat) (e : StEnt) : (s.beforeStore cid e).MemOk := by
  unfold State.beforeStore; split
  · exact h.wbAll _
  · exact h

/-- The head of the queue is performed where no failed access stands in a release's way. -/
theorem State.headDone_here (s : State) (cid : Nat) (e : StEnt) (es : List StEnt) (lodge : Bool) (hf : e.isRel = true → (s.ctx cid).path.fails = [])
    (hd : e.place.dev? = none) : s.headDone cid e es lodge = (s.performHere cid e lodge).setStores cid es := by
  unfold State.headDone State.headGo State.firstFail
  rw [hd]
  cases hr : e.isRel
  · rfl
  · rw [hf hr]; rfl

/-- What a store notes of its granules changes one context's list of them. -/
theorem State.noteStored_same (s : State) (cid : Nat) (p : Place) (n : Nat) :
    { s.noteStored cid p n with ctxs := s.ctxs } = s ∧
    ∀ c, ∃ x, (s.noteStored cid p n).ctx c = { s.ctx c with path := { (s.ctx c).path with stored := x } } := by
  unfold State.noteStored
  cases p.granBase with
  | none => exact ⟨rfl, fun c => ⟨_, rfl⟩⟩
  | some g =>
    refine ⟨rfl, fun c => ?_⟩
    dsimp only
    rw [State.ctx_modCtx]
    split
    · rename_i h; subst h; exact ⟨_, rfl⟩
    · exact ⟨_, rfl⟩

theorem State.performHere_store (s : State) (cid : Nat) (e : StEnt) (v : Word) (lodge : Bool) (hk : e.kind = .store v)
    (hc : e.place.cached = false) : s.performHere cid e lodge =
      ((s.beforeStore cid e).noteStored cid e.place e.seq).storeHome cid e.place (leBytes e.size v.toNat) := by
  have hl : e.place.lodges = false := by
    cases h : e.place <;> first | rfl | (rw [h] at hc; simp only [Place.cached] at hc; simp only [Place.lodges, hc, Bool.false_and])
  unfold State.performHere State.mayLodge
  rw [hk, hl]
  simp only [Bool.false_and, Bool.and_false, Bool.false_eq_true, if_false]
  rfl

theorem getD_putBytes (bs new : List Byte) (off i : Nat) (hi : i < new.length) (hl : off + new.length ≤ bs.length) :
    (putBytes bs off new)[off + i]? = new[i]? := by
  unfold putBytes
  rw [List.getElem?_map, List.getElem?_range (by omega)]
  simp [hi]

theorem getD_putDirty (ds : List Bool) (off n i : Nat) (v : Bool) (hi : i < n) (hl : off + n ≤ ds.length) :
    (putDirty ds off n v)[off + i]? = some v := by
  unfold putDirty
  rw [List.getElem?_map, List.getElem?_range (by omega)]
  simp [hi]

theorem hbmRead_length (s : State) (key a n : Nat) : (s.hbmRead key a n).length = n := by simp [State.hbmRead]

/-- A filled line holds 64 bytes, and memory and the contexts are as before, where its set has room. -/
theorem State.l1Fill_spec (s : State) (core pa key : Nat) (hr : (s.l1Set core (pa / 64)).length < 8)
    (h : ∀ l, Map.find (s.core core).l1 (pa / 64) = some l → l.bytes.length = 64 ∧ l.dirty.length = 64) :
    ∃ l, Map.find ((s.l1Fill core pa key).core core).l1 (pa / 64) = some l ∧ l.bytes.length = 64 ∧ l.dirty.length = 64 ∧
      (s.l1Fill core pa key).mem = s.mem ∧ (s.l1Fill core pa key).ctxs = s.ctxs := by
  unfold State.l1Fill State.l1Line State.l1Room
  cases hf : Map.find (s.core core).l1 (pa / 64) with
  | some l => exact ⟨l, hf, (h l hf).1, (h l hf).2, rfl, rfl⟩
  | none =>
    rw [if_pos hr]
    dsimp only
    rw [State.core_modCore_same]
    dsimp only
    exact ⟨_, Map.find_put_same _ _ _, hbmRead_length _ _ _ _, by simp, rfl, rfl⟩

theorem State.lodge_spec (s : State) (cid pa key : Nat) (hint : Hint) (bs : List Byte) (hb : pa % 64 + bs.length ≤ 64)
    (hr : (s.l1Set (cid / 2) (pa / 64)).length < 8)
    (h : ∀ l, Map.find (s.core (cid / 2)).l1 (pa / 64) = some l → l.bytes.length = 64 ∧ l.dirty.length = 64) :
    (s.lodge cid pa key hint bs).mem = s.mem ∧ (s.lodge cid pa key hint bs).ctxs = s.ctxs ∧
    ∃ l, Map.find ((s.lodge cid pa key hint bs).core (cid / 2)).l1 (pa / 64) = some l ∧ l.lu = (hint == .lu) ∧
      ∀ i < bs.length, l.bytes[pa % 64 + i]? = bs[i]? ∧ l.dirty[pa % 64 + i]? = some true := by
  obtain ⟨l, hf, h1, h2, hm, hc⟩ := s.l1Fill_spec (cid / 2) pa key hr h
  unfold State.lodge State.l1Put State.l1Mark State.l1Line
  rw [hf]
  dsimp only
  rw [State.core_modCore_same, Map.find_put_same]
  dsimp only
  rw [State.core_modCore_same]
  refine ⟨hm, hc, _, Map.find_put_same _ _ _, rfl, fun i hi => ⟨?_, ?_⟩⟩
  · exact getD_putBytes _ _ _ _ hi (by omega)
  · exact getD_putDirty _ _ _ _ _ hi (by omega)

theorem leNat_lt (bs : List Byte) : leNat bs < 256 ^ bs.length := by
  induction bs with
  | nil => simp [leNat]
  | cons b bs ih => simp only [leNat, List.length_cons, pow_succ]; have := b.isLt; omega

theorem extend_loaded (sx : Bool) (n : Nat) (bs : List Byte) (h : bs.length = n) (hn : n ∈ [1, 2, 4, 8]) :
    extend sx n (leWord bs) = loaded sx bs := by
  have hlt := leNat_lt bs
  rw [h] at hlt
  have h8 : n ≤ 8 := by fin_cases hn <;> decide
  have hp : (256 : Nat) ^ n = 2 ^ (8 * n) := by rw [pow_mul]; norm_num
  have h64 : (256 : Nat) ^ n ≤ 2 ^ 64 := by rw [hp]; exact Nat.pow_le_pow_right (by decide) (by omega)
  have e : (leWord bs).toNat = leNat bs := by unfold leWord word; rw [BitVec.toNat_ofNat, Nat.mod_eq_of_lt (by omega)]
  have em : leNat bs % 2 ^ (8 * n) = leNat bs := Nat.mod_eq_of_lt (by rw [← hp]; exact hlt)
  unfold extend loaded
  cases sx
  · simp only [Bool.false_eq_true, if_false, false_and, zextN, e, em]
  · simp only [if_true, true_and, sextN, e, em, h]
    have hhalf : 2 * 2 ^ (8 * n - 1) = 256 ^ n := by
      rw [hp]; fin_cases hn <;> decide
    split
    · rw [if_neg (by omega)]
    · rw [if_pos (by omega), ← hp]
      apply BitVec.eq_of_toInt_eq
      rw [BitVec.toInt_sub, BitVec.toInt_ofInt]
      simp only [BitVec.toInt_ofNat']
      simp only [Int.bmod_sub_bmod, Int.sub_bmod_bmod, Nat.cast_pow, Nat.cast_ofNat]

theorem State.performHere_mred (s : State) (cid : Nat) (e : StEnt) (m : MredMode) (v : Word) (hk : e.kind = .mred m v) :
    s.performHere cid e false = ((s.beforeStore cid e).flushPlace (cid / 2) e.place).mredAt cid m e.place e.va v := by
  have hel : e.elems = [(0, v)] := by unfold StEnt.elems; rw [hk]
  unfold State.performHere
  rw [hk, hel]
  change ((s.beforeStore cid e).flushPlace (cid / 2) e.place).mredAt cid m (e.place.add 0) (e.va + word 0) v = _
  rw [Place.add_zero, show word 0 = 0 from rfl]
  congr 1
  exact BitVec.add_zero _

theorem State.performHere_vmred (s : State) (cid : Nat) (e : StEnt) (m : MredMode) (vs : List Word) (hk : e.kind = .vmred m vs) :
    s.performHere cid e false = (List.range (32 / mredBytes m)).foldl (fun x j =>
      x.mredAt cid m (e.place.add (j * mredBytes m)) (e.va + word (j * mredBytes m)) (mredVal m vs j)) ((s.beforeStore cid e).flushPlace (cid / 2) e.place) := by
  have hel : e.elems = (List.range (32 / (mredBytes m))).map (fun j => (j * (mredBytes m), mredVal m vs j)) := by unfold StEnt.elems; rw [hk]
  unfold State.performHere
  rw [hk, hel]
  dsimp only
  rw [List.foldl_map]
  rfl

theorem State.poison_beforeStore_sub (s : State) (cid : Nat) (e : StEnt) : (s.beforeStore cid e).mem.poison ⊆ s.mem.poison := by
  unfold State.beforeStore; split
  · exact State.poison_wbAll_sub _ _
  · exact fun _ h => h

theorem State.rd1_wr_at {s : State} {l : Nat} {p : Place} {bs : List Byte} (h : s.MemOk) (hh : s.Home p) (hf : p.fits bs.length)
    (i : Nat) (hi : i < bs.length) : (s.wr l p bs).rd1 l (p.add i) = bs[i] := by
  rw [State.rd1_wr]; exact State.rd1_wrBytes_at l bs h hh hf i hi

theorem State.rd1_wr_other {s : State} {l : Nat} {p q : Place} {bs : List Byte} (h : s.MemOk) (hh : s.Home p) (hf : p.fits bs.length) (hq : q.fits 1)
    (hk : s.sameKey p q) (hn : ∀ i < bs.length, (p.add i).same q = false) : (s.wr l p bs).rd1 l q = s.rd1 l q := by
  rw [State.rd1_wr]; exact State.rd1_wrBytes_other l bs h hh hf hq hk hn

/-- Single bytes written back one after another are each there in the end. -/
theorem State.wbSingles (base key : Nat) (f : Nat → Byte) (is : List Nat) : ∀ s : State, s.MemOk → (s.slotKey key).isSome = true →
    (∀ i ∈ is, ((is.map (fun i => (i, [f i]))).foldl (fun s r => s.wr 0 (.loc (base + r.1) key 0 0) r.2) s).rd1 0 (.loc (base + i) key 0 0) = f i) ∧
    (∀ i, i ∉ is → ((is.map (fun i => (i, [f i]))).foldl (fun s r => s.wr 0 (.loc (base + r.1) key 0 0) r.2) s).rd1 0 (.loc (base + i) key 0 0) =
      s.rd1 0 (.loc (base + i) key 0 0)) := by
  induction is with
  | nil => intro s _ _; exact ⟨by simp, fun _ _ => rfl⟩
  | cons a is ih =>
    intro s h hk
    have h1 : (s.wr 0 (.loc (base + a) key 0 0) [f a]).MemOk := h.wr _ _ _
    have hk1 : ((s.wr 0 (.loc (base + a) key 0 0) [f a]).slotKey key).isSome = true := by rw [State.slotKey_wr]; exact hk
    obtain ⟨i1, i2⟩ := ih _ h1 hk1
    have at0 : (s.wr 0 (.loc (base + a) key 0 0) [f a]).rd1 0 (.loc (base + a) key 0 0) = f a :=
      State.rd1_wr_at (p := .loc (base + a) key 0 0) h hk trivial 0 (by simp)
    constructor
    · intro i hi
      by_cases hm : i ∈ is
      · exact i1 i hm
      · have : i = a := (List.mem_cons.mp hi).resolve_right hm
        subst this
        exact (i2 i hm).trans at0
    · intro i hi
      simp only [List.mem_cons, not_or] at hi
      refine (i2 i hi.2).trans (State.rd1_wr_other (p := .loc (base + a) key 0 0) h hk trivial trivial rfl ?_)
      intro j hj
      simp only [List.length_singleton] at hj
      have : j = 0 := by omega
      subst this
      simp [Place.same, Place.add, Place.coord]
      omega

end Sys2Proof.Machine
end

