-- ==== Sys2Proof/Laws/Holds.lean ====
section
/-! SUPPORT. Semaphores and what holds S: the wheel, sleep, yield and waita (R165, R307, R325-R331). -/

namespace Sys2Proof.Machine

open Sys2Proof

theorem stMerge_zero (st : Word) : stMerge st 0 = (st &&& ~~~ 0x8000 ||| 1) := by
  unfold stMerge stWord
  have h0 : stCnt 0 = 0 := rfl
  have hf : stFlagged 0 = false := rfl
  have hg : stFlags 0 = 0 := rfl
  rw [h0, hf, hg, Bool.and_false, if_neg (by decide), Nat.add_zero, Nat.or_zero]
  have hc : stCnt st = st.toNat / 2 ^ 48 % 2 ^ 16 := rfl
  have hi : stIdx st = st.toNat / 2 ^ 16 % 2 ^ 32 := rfl
  have hl : stFlags st = st.toNat % 2 ^ 15 := by unfold stFlags bitsOf; simp
  have h1 : min 65535 (stCnt st) = stCnt st := by rw [hc]; have := Nat.mod_lt (st.toNat / 2 ^ 48) (y := 2 ^ 16) (by decide); omega
  rw [h1, hc, hi, hl]
  have hb : (st.toNat % 2 ^ 15 ||| 1) % 2 ^ 15 < 2 ^ 16 := by have := Nat.mod_lt (st.toNat % 2 ^ 15 ||| 1) (y := 2 ^ 15) (by decide); omega
  have hb2 : 2 ^ 16 * (st.toNat / 2 ^ 16 % 2 ^ 32 % 2 ^ 32) + (st.toNat % 2 ^ 15 ||| 1) % 2 ^ 15 < 2 ^ 48 := by
    have := Nat.mod_lt (st.toNat / 2 ^ 16 % 2 ^ 32) (y := 2 ^ 32) (by decide); omega
  have e : st.toNat / 2 ^ 48 % 2 ^ 16 % 2 ^ 16 * 2 ^ 48 + st.toNat / 2 ^ 16 % 2 ^ 32 % 2 ^ 32 * 2 ^ 16 + (st.toNat % 2 ^ 15 ||| 1) % 2 ^ 15 =
    2 ^ 48 * (st.toNat / 2 ^ 48 % 2 ^ 16 % 2 ^ 16) + (2 ^ 16 * (st.toNat / 2 ^ 16 % 2 ^ 32 % 2 ^ 32) + (st.toNat % 2 ^ 15 ||| 1) % 2 ^ 15) := by omega
  rw [e]
  apply BitVec.eq_of_getLsbD_eq
  intro i hi
  unfold word
  rw [BitVec.getLsbD_ofNat, Nat.testBit_two_pow_mul_add _ hb2, Nat.testBit_two_pow_mul_add _ hb]
  simp only [hi, decide_true, Bool.true_and, BitVec.getLsbD_or, BitVec.getLsbD_and, Nat.testBit_mod_two_pow, Nat.testBit_or, Nat.testBit_div_two_pow]
  have hd : ∀ j, st.toNat.testBit j = st.getLsbD j := fun j => rfl
  simp only [hd]
  interval_cases i <;> simp <;> exact fun h => absurd h (by decide)

theorem Sem.signal_low {m : Sem} {n : Nat} (h : m.count + n ≤ 65535) :
    m.signal n 0 0 = (⟨m.count + n, m.status &&& ~~~ 0x8000 ||| 1, m.vis⟩, false) := by
  unfold Sem.signal; rw [if_neg (by omega), stMerge_zero]; congr 2; exact BitVec.or_zero

theorem Sem.signal_high {m : Sem} {n : Nat} (h : 65535 < m.count + n) :
    m.signal n 0 0 = (⟨65535, m.status &&& ~~~ 0x8000 ||| 1 ||| 0x2000, m.vis⟩, true) := by
  unfold Sem.signal; rw [if_pos h, stMerge_zero]; congr 2; exact BitVec.or_zero

theorem Holds.set {s : State} (h : s.HasAgent) (x : Hold) : s.Holds (s.setSca { s.sca with hold := x }) x :=
  ⟨State.sca_setSca h _, s.setSca_frame _⟩

theorem State.Keeps.hasAgent {s t : State} (h : s.Keeps t) (_ : s.HasAgent) (hs : s.cur.agent ≠ .helper) : t.HasAgent := by
  intro hh; rw [h.cur] at hh; exact absurd hh hs

theorem State.Keeps.onMain {s t : State} (h : s.Keeps t) (hm : s.OnMain) : t.OnMain := by unfold State.OnMain; rw [h.cur]; exact hm

theorem State.Keeps.myCore_eq {s t : State} (h : s.Keeps t) : t.myCore = s.myCore := by unfold State.myCore; rw [h.cur]

theorem bit0_eq (w : Word) : bitOf w 0 = w.getLsbD 0 := by
  unfold bitOf BitVec.getLsbD Nat.testBit
  rw [Nat.shiftRight_eq_div_pow, Nat.and_comm, Nat.and_one_is_mod]
  cases h : (w.toNat / 2 ^ 0 % 2 == 1) <;> simp_all

theorem at_main {s : State} (hm : s.OnMain) : s.at_ s.cur.cid .S = s := by
  unfold State.at_
  have : s.cur.agent = .S := hm
  rw [← this]

theorem sca_main {s : State} (hm : s.OnMain) : s.me.sc = s.sca := by unfold State.sca; rw [hm]

theorem State.Readies.poison_ok {s u : State} {p : Place} {n : Nat} (h : u.mem.poison ⊆ s.mem.poison) (hp : s.poisoned p n = false) :
    u.poisoned p n = false := State.not_poisoned_sub h hp

theorem bits_div (w : Word) : bitsOf w 63 4 = w.toNat / 16 := by
  unfold bitsOf; have := w.isLt; norm_num; omega

theorem bits_ch (w : Word) : bitsOf w 3 1 = w.toNat / 2 % 8 := by unfold bitsOf; norm_num

theorem bits_low16 (w : Word) : bitsOf w 15 0 = w.toNat % 65536 := by unfold bitsOf; norm_num

/-- An .sc access writes L1 back and holds its agent for the wheel, once the S path has drained (R152, R165). -/
theorem holdSc_spec {s : State} (hm : s.OnMain) (hd : s.Drained) (st : Nat) (kind : ScKind) (p : Place) (ea : Word) (n : Nat) :
    ∃ t : State, s.holdSc st kind p ea n = .next t ∧ (s.wbAll s.myCore).Parks t (.sc ⟨kind, p, ea, n, s.pc, none⟩) st := by
  refine ⟨_, by unfold State.holdSc; rw [State.whenDrained_eq hd], State.park_parks (State.hasAgent_main ?_) _ _⟩
  exact (State.wbAll_moves s s.myCore).1.onMain hm

theorem holder_S {s : State} (hm : s.OnMain) {ok : Hold → Bool} (h : ok s.sca.hold = true) : s.holder s.cur.cid ok = some .S := by
  unfold State.holder
  have : (s.ctx s.cur.cid).sc = s.sca := sca_main hm
  rw [this, if_pos h]

theorem Walks.drained {s u : State} (w : s.Walks u) (h : s.Drained) : u.Drained :=
  ⟨by rw [w.me]; exact h.loads, by rw [w.me]; exact h.stores, by rw [w.me]; exact h.acks, by rw [w.me]; exact h.fails⟩

end Sys2Proof.Machine
end

