-- ==== Sys2Proof/Laws/Bunch.lean ====
section
/-! SUPPORT. Spawning, arriving and bunches (R107-R110, R317-R322). -/

namespace Sys2Proof.Machine

open Sys2Proof

theorem myCore_of {s u : State} (h : u.cur = s.cur) : u.myCore = s.myCore := by unfold State.myCore; rw [h]

theorem Keeps.sched {s t : State} (h : s.Keeps t) : t.sched = s.sched := by
  have := congrArg State.sched h.outside; exact this

theorem modLaunch_gens (s : State) (l : Nat) (f : Launch → Launch) : (s.modLaunch l f).sched.gens = s.sched.gens ∧ (s.modLaunch l f).clk = s.clk ∧
    (s.modLaunch l f).cur = s.cur := by
  unfold State.modLaunch; split <;> exact ⟨rfl, rfl, rfl⟩

theorem arriveAt_some {y : State} {h : Word} {e : Nat} {v : Entry} (hb : y.byHandle h = some (e, v)) (hp : v.st = .pooled)
    (hl : v.launch = y.me.launch) : y.arriveAt h = if v.join ≤ 1 then (1, (y.setEntry e { v with join := 0 }).ready e)
      else (0, y.setEntry e { v with join := v.join - 1 }) := by
  unfold State.arriveAt
  rw [hb]
  dsimp only
  rw [if_neg (by simp [hp, hl])]

theorem enter_eq {s x : State} {e gen : Nat} {r : Record} (hg : Map.getD x.sched.gens e 0 = gen) (hc : x.clk = s.clk) :
    x.enter e r s.me.launch = if r.join = 0 then (x.setEntry e (s.newEntry r gen)).ready e else x.setEntry e (s.newEntry r gen) := by
  unfold State.enter; rw [hg, hc]; rfl

theorem Drained.when {s : State} (h : s.Drained) (k : Res) : s.whenDrained true k = k := State.whenDrained_eq h true k

theorem MovesData.drained {s u : State} {k : Nat} (h : s.MovesData u k) (hd : s.Drained) : u.Drained :=
  have e : u.me.path = s.me.path := by unfold State.me; rw [h.cur, h.path]
  ⟨by rw [e]; exact hd.loads, by rw [e]; exact hd.stores, by rw [e]; exact hd.acks, by rw [e]; exact hd.fails⟩

theorem Readies.phase {s u : State} {k c : Nat} (h : s.Readies u k) : (u.ctx c).trap = (s.ctx c).trap := by
  have := congrArg Ctx.trap (h.ctxs c); exact this

theorem Readies.reg {s u : State} {k : Nat} (h : s.Readies u k) (hm : s.OnMain) (r : Nat) : u.r r = s.r r := by
  unfold State.r
  have e := congrArg (fun c : Ctx => c.sc.reg s.clk r) (h.ctxs s.cur.cid)
  have : u.sca.reg u.clk r = s.sca.reg s.clk r := by
    rw [h.clk, ← sca_main hm, ← sca_main (onMain_readies h hm)]
    unfold State.me; rw [h.cur]
    exact e
  exact this

theorem byHandle_iff (s : State) (h : Word) (e : Nat) (v : Entry) : s.byHandle h = some (e, v) ↔ s.names h e v := by
  have hb := h.isLt
  have e1 : bitsOf h 19 0 = h.toNat % 2 ^ 20 := by unfold bitsOf; norm_num
  have e2 : bitsOf h 51 20 = h.toNat / 2 ^ 20 % 2 ^ 32 := by unfold bitsOf; norm_num
  have e3 : bitsOf h 63 52 = h.toNat / 2 ^ 52 := by unfold bitsOf; norm_num; omega
  unfold State.byHandle State.names State.entry
  rw [e1, e2, e3]
  constructor
  · intro hh
    cases hf : Map.find s.sched.store (h.toNat % 2 ^ 20) with
    | none => rw [hf] at hh; cases hh
    | some w =>
      rw [hf] at hh
      dsimp only at hh
      split at hh
      · rename_i hc
        simp only [Option.some.injEq, Prod.mk.injEq] at hh
        obtain ⟨h1, h2⟩ := hh
        subst h1 h2
        exact ⟨hf, by omega, by omega⟩
      · cases hh
  · rintro ⟨h1, h2, h3⟩
    have he : h.toNat % 2 ^ 20 = e := by omega
    rw [he, h1]
    dsimp only
    rw [if_pos]
    have := Nat.mod_lt v.gen (y := 2 ^ 32) (by decide)
    omega

theorem State.images_wr (s : State) (l : Nat) (p : Place) (bs : List Byte) : (s.wr l p bs).images = s.images := by
  have h1 : ∀ (s : State) (p : Place) (b : Byte), (s.wr1 l p b).images = s.images := by
    intro s p b
    cases p <;> first | rfl | skip
    unfold State.wr1
    dsimp only
    unfold State.hbmSet
    split <;> rfl
  have h2 : ∀ (bs : List Byte) (s : State) (p : Place), (s.wrBytes l p bs).images = s.images := by
    intro bs
    induction bs with
    | nil => intro s p; rfl
    | cons b bs ih => intro s p; exact (ih _ _).trans (h1 _ _ _)
  refine Eq.trans ?_ (h2 bs s p)
  have := congrArg State.images (State.notices_only (((s.wrBytes l p bs).heal p bs.length).wakeOn p bs.length) p bs.length).1
  exact this

theorem State.images_wbAll (s : State) (k : Nat) : (s.wbAll k).images = s.images := by
  have fold : ∀ {α : Type} (f : State → α → State) (_ : ∀ s a, (f s a).images = s.images) (l : List α) (s : State),
      (l.foldl f s).images = s.images := by
    intro α f hf l
    induction l with
    | nil => intro s; rfl
    | cons a l ih => intro s; exact (ih _).trans (hf _ _)
  unfold State.wbAll
  refine fold _ (fun s n => ?_) _ _
  unfold State.wbLine
  split
  · rfl
  · split
    · exact fold (fun (s : State) (r : Nat × List Byte) => s.wr 0 (.loc (n * 64 + r.1) _ 0 0) r.2) (fun s a => State.images_wr _ _ _ _) _ _
    · rfl

theorem savedMembers_none {s : State} (h : ∀ x ∈ s.images, ∀ j, x.2.ctx.task = some j → j.member = false) (n : Nat) : s.savedMembers n = [] := by
  unfold State.savedMembers
  rw [List.map_eq_nil_iff, List.filter_eq_nil_iff]
  intro x hx
  cases ht : x.2.ctx.task with
  | none => simp
  | some j => simp [h x hx j ht]

/-- The numbers that bmake skips. -/
def takenHandle (m : Map Bunch) (n : Nat) : Prop := n % 65536 = 0 ∨ (Map.find m (n % 65536)).isSome

theorem bunchHandle_free (m : Map Bunch) : ∀ f n, (∃ i < f, ¬ takenHandle m (n + i)) →
    bunchHandle m f n ≠ 0 ∧ bunchHandle m f n < 65536 ∧ Map.find m (bunchHandle m f n) = none := by
  intro f
  induction f with
  | zero => rintro n ⟨i, hi, _⟩; omega
  | succ f ih =>
    rintro n ⟨i, hi, hn⟩
    unfold bunchHandle
    dsimp only
    split
    · rename_i h
      have h' : takenHandle m n := h
      refine ih (n % 65536 + 1) ⟨i - 1, ?_, ?_⟩
      · cases i with
        | zero => exact absurd h' (by simpa using hn)
        | succ i => omega
      · cases i with
        | zero => exact absurd h' (by simpa using hn)
        | succ i =>
          have e : (n % 65536 + 1 + (i + 1 - 1)) % 65536 = (n + (i + 1)) % 65536 := by omega
          unfold takenHandle at hn ⊢
          rw [e]; exact hn
    · rename_i h
      simp only [not_or] at h
      refine ⟨h.1, Nat.mod_lt _ (by decide), ?_⟩
      cases hf : Map.find m (n % 65536) with
      | none => rfl
      | some x => rw [hf] at h; simp at h

theorem exists_free (m : Map Bunch) (n : Nat) (h : m.length < 4096) : ∃ i < 4098, ¬ takenHandle m (n + i) := by
  by_contra hc
  push Not at hc
  have hsub : (Finset.range 4098).image (fun i => (n + i) % 65536) ⊆ insert 0 (m.map Prod.fst).toFinset := by
    intro x hx
    rw [Finset.mem_image] at hx
    obtain ⟨i, hi, rfl⟩ := hx
    rw [Finset.mem_range] at hi
    rcases hc i hi with h0 | h1
    · simp [h0]
    · obtain ⟨v, hv⟩ := Option.isSome_iff_exists.mp h1
      rw [Finset.mem_insert, List.mem_toFinset]
      exact .inr (Map.key_mem_of_find hv)
  have c1 : ((Finset.range 4098).image (fun i => (n + i) % 65536)).card = 4098 := by
    rw [Finset.card_image_of_injOn, Finset.card_range]
    intro a ha b hb hab
    simp only [Finset.coe_range, Set.mem_Iio] at ha hb
    simp only at hab
    omega
  have c2 := Finset.card_le_card hsub
  have c3 := Finset.card_insert_le 0 (m.map Prod.fst).toFinset
  have c4 := List.toFinset_card_le (m.map Prod.fst)
  rw [List.length_map] at c4
  omega

end Sys2Proof.Machine
end

