-- ==== Sys2Proof/Laws/System.lean ====
section
/-! SUPPORT. System registers, services, translation and locks (R66, R335-R341). -/

namespace Sys2Proof.Machine

open Sys2Proof

theorem sysRead_named {s : State} (hm : s.OnMain) (n : Nat) : s.sysRead n = s.sysNamed n := by
  have ho : s.onTrapCore = false := by unfold State.onTrapCore; rw [hm]; rfl
  unfold State.sysRead State.sysNamed
  dsimp only
  by_cases h1 : n < 0x10
  · simp only [h1, if_true]
  by_cases h2 : n = 0x10
  · simp [h2]
  by_cases h3 : 0x20 ≤ n ∧ n < 0x30
  · obtain ⟨h3a, h3b⟩ := h3
    interval_cases n <;> simp [SysRegs.list]
  by_cases h4 : n = 0x30
  · simp [h4]
  by_cases h5 : n = 0x80
  · simp [h5, State.tvecOf]
  have g : ∀ m, m < 0x30 → 0x20 ≤ m → n ≠ m := fun m a b e => h3 (by omega)
  have d1 : ¬ n = 0x20 := g _ (by omega) (by omega)
  have d2 : ¬ n = 0x21 := g _ (by omega) (by omega)
  have d3 : ¬ n = 0x22 := g _ (by omega) (by omega)
  have d4 : ¬ n = 0x23 := g _ (by omega) (by omega)
  have d5 : ¬ n = 0x24 := g _ (by omega) (by omega)
  have d6 : ¬ n = 0x25 := g _ (by omega) (by omega)
  have d7 : ¬ (0x26 ≤ n ∧ n < 0x30) := by omega
  rw [if_neg h1, if_neg h1, if_neg h2, if_neg h2, if_neg h3, if_neg h4, if_neg h5, if_neg d1, if_neg d2, if_neg d3, if_neg d4, if_neg d5, if_neg d6, if_neg d7,
    if_neg h4, if_neg h5]
  by_cases h6 : 0x100 ≤ n ∧ n < 0x140
  · rw [if_pos h6, if_pos h6]; rfl
  rw [if_neg h6, if_neg h6]
  by_cases h7 : 0x140 ≤ n ∧ n < 0x180
  · rw [if_pos h7, if_pos h7]
  rw [if_neg h7, if_neg h7]
  by_cases h8 : 0x400 ≤ n ∧ n < 0x700
  · rw [if_pos h8, if_pos h8]
    unfold SysRegs.seed
    have : 128 * ((n - 0x400) / 128) + (n - 0x400) % 128 = n - 0x400 := by omega
    rw [this]
  rw [if_neg h8, if_neg h8, ho]
  rfl

/-- Every named special register has a number below 0x700. -/
theorem sysNamed_low {s : State} {n : Nat} (hn : (s.sysNamed n).isSome = true) : n < 0x700 := by
  by_contra h
  unfold State.sysNamed at hn
  dsimp only at hn
  repeat rw [if_neg (by omega)] at hn
  cases hn

theorem sysWrite_put (s : State) (n : Nat) (v : Word) (hn : (s.sysNamed n).isSome = true) : s.sysWrite n v = s.sysPut n v := by
  unfold State.sysWrite State.sysPut
  dsimp only
  by_cases h1 : n = 0x20
  · subst h1
    rw [if_pos rfl, if_pos rfl]
    unfold State.modMySys
    have e : min 256 (max 8 (bitsOf v 8 0)) = max 8 (min 256 (v.toNat % 512)) := by
      have : bitsOf v 8 0 = v.toNat % 512 := by unfold bitsOf; norm_num
      rw [this]; omega
    rw [e]; rfl
  rw [if_neg h1, if_neg h1]
  by_cases h2 : n = 0x21
  · subst h2
    rw [if_pos rfl, if_pos rfl, bit0_eq]; rfl
  rw [if_neg h2, if_neg h2]
  by_cases h3 : n = 0x23
  · subst h3
    rw [if_pos rfl, if_pos rfl]
    have : bitsOf v 31 0 = v.toNat % 2 ^ 32 := by unfold bitsOf; norm_num
    rw [this]; rfl
  rw [if_neg h3, if_neg h3]
  by_cases h4 : n = 0x80
  · subst h4
    rw [if_pos rfl, if_pos rfl]; rfl
  rw [if_neg h4, if_neg h4]
  by_cases h5 : 0x100 ≤ n ∧ n < 0x140
  · rw [if_pos h5, if_pos h5]
    have e1 : bitsOf v 47 32 = v.toNat / 2 ^ 32 % 2 ^ 16 := rfl
    have e2 : bitsOf v 31 16 = v.toNat / 2 ^ 16 % 2 ^ 16 := rfl
    have e3 : bitsOf v 2 0 = v.toNat % 8 := by unfold bitsOf; norm_num
    rw [e1, e2, e3]; rfl
  rw [if_neg h5, if_neg h5]
  by_cases h6 : 0x400 ≤ n ∧ n < 0x700
  · rw [if_pos h6, if_pos h6]
    have e1 : bitsOf v 31 0 = v.toNat % 2 ^ 32 := by unfold bitsOf; norm_num
    have e2 : (if bitsOf v 31 0 = 0 then 1 else bitsOf v 31 0) = max 1 (v.toNat % 2 ^ 32) := by rw [e1]; split <;> omega
    rw [e2]; rfl
  rw [if_neg h6, if_neg h6]
  have h7 : ¬ n = 0x800 := by
    rintro rfl
    unfold State.sysNamed at hn
    simp at hn
  rw [if_neg h7]
  have h8 : viewNum n = none := by
    unfold viewNum
    rw [if_neg]
    intro h
    exact absurd (sysNamed_low hn) (by omega)
  rw [h8]

theorem sysPut_cur (s : State) (n : Nat) (v : Word) : (s.sysPut n v).cur = s.cur := by
  unfold State.sysPut
  dsimp only
  split_ifs <;> rfl

theorem viewNum_main {s : State} (hm : s.OnMain) (n : Nat) : s.sysBump n = s := by
  have ho : s.onTrapCore = false := by unfold State.onTrapCore; rw [hm]; rfl
  unfold State.sysBump
  rw [ho]
  split
  · rfl
  · rfl

theorem isSys_iff (s : State) : s.me.isSys = true ↔ ∃ k, s.me.task = some k ∧ k.sys = true := by
  unfold Ctx.isSys
  cases s.me.task with
  | none => simp
  | some k => simp

theorem sysOnly_iff (n : Nat) : sysOnly n = true ↔ n = 0x80 ∨ (0x100 ≤ n ∧ n < 0x140) := by unfold sysOnly; simp

theorem nextMap_ge (l : Launch) : 0x01E0 * 2 ^ 48 ≤ l.nextMap ∧ ∀ m ∈ l.maps, m.va + m.len ≤ l.nextMap := by
  have : ∀ (ms : List HostMap) (a : Nat), a ≤ ms.foldl (fun a m => max a (m.va + m.len)) a ∧ ∀ m ∈ ms, m.va + m.len ≤ ms.foldl (fun a m => max a (m.va + m.len)) a := by
    intro ms
    induction ms with
    | nil => intro a; simp
    | cons x ms ih =>
      intro a
      have h := ih (max a (x.va + x.len))
      refine ⟨le_trans (le_max_left _ _) h.1, fun m hm => ?_⟩
      rcases List.mem_cons.mp hm with rfl | hm
      · exact le_trans (le_max_right _ _) h.1
      · exact h.2 m hm
  exact this l.maps (0x1E0 * 2 ^ 48)

theorem Holds.reg {s u : State} {h : Hold} (hu : s.Holds u h) (r : Nat) : u.r r = s.r r := by
  unfold State.r; rw [hu.scalar, hu.frame.clk]; rfl

theorem out_passes (v : State) (hm : v.OnMain) (a b : Word) :
    ((v.res 4 a 1).res 5 b 1).MovesData (((v.res 4 a 1).res 5 b 1).acquire v.cur.cid .dom) v.myCore ∧
    ((((v.res 4 a 1).res 5 b 1).acquire v.cur.cid .dom).core v.myCore).l1 = [] ∧
    (((v.res 4 a 1).res 5 b 1).acquire v.cur.cid .dom).Passes ((((v.res 4 a 1).res 5 b 1).acquire v.cur.cid .dom).adv 0) 0 := by
  have h := State.acquire_moves ((v.res 4 a 1).res 5 b 1) v.cur.cid .dom
  refine ⟨h.1, h.2.2 (by decide), State.adv_passes (State.hasAgent_main (h.1.onMain ?_)) 0⟩
  unfold State.OnMain; rw [State.cur_res, State.cur_res]; exact hm

theorem discarded_iff (e : TlbEnt) (rg : Option (Nat × Nat)) (g : Bool) (root : Nat) : e.discarded rg g root = true ↔ e.goes rg g root := by
  have hb : bitOf e.leaf 5 = e.leaf.getLsbD 5 := by
    unfold bitOf BitVec.getLsbD Nat.testBit
    rw [Nat.shiftRight_eq_div_pow, Nat.and_comm, Nat.and_one_is_mod]
    cases h : (e.leaf.toNat / 2 ^ 5 % 2 == 1) <;> simp_all
  unfold TlbEnt.discarded TlbEnt.goes
  rw [hb]
  cases rg with
  | none => simp
  | some x => obtain ⟨a, n⟩ := x; simp [and_assoc]

theorem holdVa_woken {a b : Hold} (h : Hold.wokenBy a b) : holdVa b = holdVa a := by
  rcases h with rfl | ⟨w, rfl, rfl⟩ <;> rfl

/-- Moving data leaves what a context still has to access. -/
theorem pendingVas_moves {s u : State} {k : Nat} (h : s.MovesData u k) (cid : Nat) : u.pendingVas cid = s.pendingVas cid := by
  have hc := h.ctxs cid
  have hp := congrArg Ctx.path hc
  have he := congrArg Ctx.eng hc
  have ht : (u.core (cid / 2)).trap = (s.core (cid / 2)).trap := by
    by_cases hk : cid / 2 = k
    · rw [hk]; have := congrArg Core.trap h.mine; exact this
    · rw [h.cores _ hk]
  have hr : u.net.reqs = s.net.reqs := by have := congrArg Net.reqs h.net; exact this
  dsimp only at hp he
  unfold State.pendingVas
  dsimp only
  rw [hp, he, ht, hr, holdVa_woken (h.holds cid)]

theorem keys_wr_loc (s : State) (l n key : Nat) (bs : List Byte) :
    (s.wr l (.loc n key 0 0) bs).ctxs.map Prod.fst = s.ctxs.map Prod.fst := by
  have h1 : ∀ (bs : List Byte) (s : State) (n : Nat), (s.wrBytes l (.loc n key 0 0) bs).ctxs = s.ctxs := by
    intro bs
    induction bs with
    | nil => intro s n; rfl
    | cons b bs ih =>
      intro s n
      refine (ih _ _).trans ?_
      change (s.hbmSet key n b).ctxs = s.ctxs
      unfold State.hbmSet; split <;> rfl
  unfold State.wr
  rw [State.ctxs_notices]
  change ((s.wrBytes l (.loc n key 0 0) bs).ctxs.map _).map Prod.fst = _
  rw [h1, List.map_map]; rfl

theorem keys_wbAll (s : State) (k : Nat) : (s.wbAll k).ctxs.map Prod.fst = s.ctxs.map Prod.fst := by
  have fold : ∀ {α : Type} (f : State → α → State) (_ : ∀ s a, (f s a).ctxs.map Prod.fst = s.ctxs.map Prod.fst) (l : List α) (s : State),
      (l.foldl f s).ctxs.map Prod.fst = s.ctxs.map Prod.fst := by
    intro α f hf l
    induction l with
    | nil => intro s; rfl
    | cons a l ih => intro s; exact (ih _).trans (hf _ _)
  unfold State.wbAll
  refine fold _ (fun s n => ?_) _ _
  unfold State.wbLine
  split
  · rfl
  · split
    · exact fold (fun (s : State) (r : Nat × List Byte) => s.wr 0 (.loc (n * 64 + r.1) _ 0 0) r.2) (fun s a => keys_wr_loc _ _ _ _ _) _ _
    · rfl

/-- With no access to come, none uses an old translation, before and after L1 is written back (R340). -/
theorem usesOld_wbAll {s : State} (h : ∀ x ∈ s.ctxs, s.pendingVas x.1 = []) (k : Nat) (rg : Option (Nat × Nat)) (g : Bool) (root : Nat) :
    (s.wbAll k).usesOld rg g root = false := by
  unfold State.usesOld
  rw [List.any_eq_false]
  intro x hx
  have hk : x.1 ∈ s.ctxs.map Prod.fst := by rw [← keys_wbAll s k]; exact List.mem_map_of_mem hx
  obtain ⟨y, hy, hxy⟩ := List.mem_map.mp hk
  rw [pendingVas_moves (State.wbAll_moves s k).1, ← hxy, h y hy]
  simp

theorem core_dropTlb (s : State) (bad : TlbEnt → Bool) (k : Nat) : (s.dropTlb bad).core k = { s.core k with tlb := (s.core k).tlb.filter (fun e => !bad e) } := by
  unfold State.dropTlb State.core Map.getD
  dsimp only
  refine (congrArg (fun x => Option.getD x Core.fresh) (Map.find_map (fun c : Core => { c with tlb := c.tlb.filter (fun e => !bad e) }) s.cores k)).trans ?_
  cases Map.find s.cores k <;> rfl

theorem tlbi_eq {o : TlbiF} {s : State} (hm : s.OnMain) (hr : s.Ready (match o.range with | some (a, b) => [a, b] | none => []) none)
    (hd : s.Drained) (hg : (o.g && !s.me.isSys) = false) (hp : ∀ x ∈ s.ctxs, s.pendingVas x.1 = []) :
    execTlbi o s =
      (let u := s.wbAll s.myCore
       let rg := o.range.map (fun x => ((u.r x.1).toNat, (u.r x.2).toNat))
       let root := u.ptroot u.me.launch
       .next (((u.dropTlb (fun e => e.discarded rg o.g root)).dropPre root).adv o.st)) := by
  unfold execTlbi
  rw [mainOnly_main hm]
  refine (hr.issue _).trans ?_
  rw [hg, if_neg (by simp), State.whenDrained_eq hd]
  dsimp only
  rw [usesOld_wbAll hp]
  rfl

theorem dropTlb_spec (u : State) (bad : TlbEnt → Bool) : (u.dropTlb bad).outside = u.outside ∧ (∀ c, (u.dropTlb bad).ctx c = u.ctx c) ∧
    (∀ k, { (u.dropTlb bad).core k with tlb := [] } = { u.core k with tlb := [] }) ∧
    (∀ k e, e ∈ ((u.dropTlb bad).core k).tlb ↔ e ∈ (u.core k).tlb ∧ ¬ (bad e = true)) :=
  ⟨rfl, fun _ => rfl, fun k => by rw [core_dropTlb], fun k e => by rw [core_dropTlb]; simp⟩

theorem ptroot_moves {s u : State} {k : Nat} (h : s.MovesData u k) (l : Nat) : u.ptroot l = s.ptroot l := by
  unfold State.ptroot; rw [h.sched]

end Sys2Proof.Machine
end

