-- ==== Sys2Proof/Laws/Engine.lean ====
section
/-! SUPPORT. Setups of the engines, the start of an engine instruction and its signal (R92, R106, R325, R346). -/

namespace Sys2Proof.Machine

open Sys2Proof

theorem start_eq (s : State) (sy : Sync) : s.start sy = s.headGone sy := by
  unfold State.start State.headGone State.takeWait State.started State.modMe State.modCtx State.setSem State.modCtx
  rcases hw : sy.wait with _ | n
  · rfl
  · have e : ((Map.getD s.me.sems n .fresh).take 1).1 = ⟨(Map.getD s.me.sems n .fresh).count - 1, (Map.getD s.me.sems n .fresh).status,
        if (Map.getD s.me.sems n .fresh).count ≤ 1 then 0 else (Map.getD s.me.sems n .fresh).vis⟩ := by
      unfold Sem.take
      dsimp only
      by_cases h : (Map.getD s.me.sems n .fresh).count ≤ 1
      · rw [if_pos (by omega), if_pos h]
      · rw [if_neg (by omega), if_neg h]
    dsimp only
    unfold State.sem
    rw [e]
    simp only [State.setCtx, State.ctx, State.me, Map.put_put, Map.getD_put_same]
    rfl

theorem engineOp_eq {s : State} {path : Nat} {sy : Sync} (h : s.AtStart path sy) (k : Res) : s.engineOp path sy true k = k := by
  have hm : ∀ k : Res, s.mainOnly k = k := by
    intro k
    have := h.path
    unfold State.mainOnly
    rw [h.agent]
    interval_cases path <;> rfl
  have hc : s.me.eng.canStart path s.clk = true := by unfold Engines.canStart; simpa using h.fresh
  unfold State.engineOp
  rw [hm, h.agent, if_neg (by simp), hc]
  have hw : s.waitOk sy = true := by
    unfold State.waitOk
    split
    · rfl
    · rename_i n hn
      have := h.wait n hn
      unfold State.semOf at this
      unfold State.sem State.me
      simpa using this
  rw [hw]; rfl

theorem signalOf_spec (s : State) (cid : Nat) (sy : Sync) (path : Nat) (w iw fpc : Word) :
    s.Signals (s.signalOf cid sy path w iw fpc) cid sy w (fun k => .of 0x0C k (engOf path) 0 iw fpc) := by
  unfold State.signalOf State.Signals
  rcases hs : sy.sig with _ | ⟨n, mask⟩
  · exact ⟨fun _ => rfl, fun _ _ h => by cases h⟩
  refine ⟨fun h => (by cases h), fun n' m' h => ?_⟩
  cases h
  dsimp only
  refine ⟨fun hc => ?_, fun hc hp => ?_⟩
  · have e : (s.semOf cid n).signal 1 w mask = (⟨(s.semOf cid n).count + 1, stMerge (s.semOf cid n).status w, (s.semOf cid n).vis ||| mask⟩, false) := by
      unfold Sem.signal; rw [if_neg (by omega)]
    unfold State.signal; rw [e]; rfl
  · have e : (s.semOf cid n).signal 1 w mask = (⟨65535, stMerge (s.semOf cid n).status w ||| 0x2000, (s.semOf cid n).vis ||| mask⟩, true) := by
      unfold Sem.signal; rw [if_pos (by omega)]; rfl
    unfold State.signal; rw [e]
    exact raiseOnce_traps _ _ _ (by simpa [State.setSem, State.modCtx, State.ctx_setCtx_same] using hp)

theorem phase_congr {s u : State} {cid : Nat} (h : (u.ctx cid).trap = (s.ctx cid).trap) (hp : (s.ctx cid).trap.phase = .none) :
    (u.ctx cid).trap.phase = .none := by rw [h]; exact hp

theorem trapStart_traps {s : State} (hp : s.me.trap.phase = .none) (u : EUnit) (c d : Nat) (fa : Word) :
    ∃ t, s.trapStart u c d fa = .next t ∧ s.Traps t s.cur.cid false (s.headFrame (unitPath u) (unitChan u) c d fa) :=
  ⟨_, rfl, raise_traps s s.cur.cid _ hp⟩

theorem head_modMe (s : State) (f : Ctx → Ctx) (h : (f s.me).eng.q s.cur.agent = s.me.eng.q s.cur.agent) : (s.modMe f).head = s.head := by
  unfold State.head
  have : (s.modMe f).me = f s.me := by unfold State.modMe State.me; exact State.ctx_modCtx_same s _ f
  rw [this]; show ((f s.me).eng.q s.cur.agent).head?.getD _ = _
  rw [h]

/-- A setup writes the new engines and starts, or traps. -/
theorem setupOp_spec {s : State} {path : Nat} {sy : Sync} (h : s.AtStart path sy) (f : Word → Engines → Option Engines) :
    (∀ g, f s.head.a s.me.eng = some g → ∃ t, s.setupOp path sy f = .next t ∧
      ((s.modMe (fun c => { c with eng := g })).headGone sy).Signals t s.cur.cid sy 0 (fun k => s.headFrame path 0 0x0C k 0)) ∧
    (f s.head.a s.me.eng = none → s.me.trap.phase = .none → ∃ t, s.setupOp path sy f = .next t ∧
      s.Traps t s.cur.cid false (s.headFrame path 0 1 0 0)) := by
  unfold State.setupOp
  rw [engineOp_eq h]
  refine ⟨fun g hg => ?_, fun hg hp => ?_⟩
  · rw [hg]
    refine ⟨_, rfl, ?_⟩
    rw [← start_eq]
    exact signalOf_spec _ _ _ _ _ _ _
  · rw [hg]
    have := h.path
    interval_cases path <;> exact trapStart_traps hp _ _ _ _

theorem nest_path {i : Instr} {path : Nat} {sy : Sync} (h : i.nestSetup = some (path, sy)) : path = 0 ∨ path = 2 := by
  cases i <;> simp [Instr.nestSetup] at h <;> omega

theorem copySetup_spec {s : State} {sy : Sync} (h : s.AtStart 0 sy) (f : Word → NestSet → Option NestSet) :
    (∀ m, f s.head.a s.me.eng.copyNest = some m → ∃ t, s.copySetup sy f = .next t ∧
      ((s.modMe (fun c => { c with eng := { c.eng with copyNest := m } })).headGone sy).Signals t s.cur.cid sy 0 (fun k => s.headFrame 0 0 0x0C k 0)) ∧
    (f s.head.a s.me.eng.copyNest = none → s.me.trap.phase = .none → ∃ t, s.copySetup sy f = .next t ∧
      s.Traps t s.cur.cid false (s.headFrame 0 0 1 0 0)) := by
  have := setupOp_spec h (fun v g => (f v g.copyNest).map (fun n => { g with copyNest := n }))
  refine ⟨fun m hm => this.1 { s.me.eng with copyNest := m } (by rw [hm]; rfl), fun hm => this.2 (by rw [hm]; rfl)⟩

theorem redSetup_spec {s : State} {sy : Sync} (h : s.AtStart 2 sy) (f : Word → NestSet → Option NestSet) :
    (∀ m, f s.head.a s.me.eng.redNest = some m → ∃ t, s.redSetup sy f = .next t ∧
      ((s.modMe (fun c => { c with eng := { c.eng with redNest := m } })).headGone sy).Signals t s.cur.cid sy 0 (fun k => s.headFrame 2 0 0x0C k 0)) ∧
    (f s.head.a s.me.eng.redNest = none → s.me.trap.phase = .none → ∃ t, s.redSetup sy f = .next t ∧
      s.Traps t s.cur.cid false (s.headFrame 2 0 1 0 0)) := by
  have := setupOp_spec h (fun v g => (f v g.redNest).map (fun n => { g with redNest := n }))
  refine ⟨fun m hm => this.1 { s.me.eng with redNest := m } (by rw [hm]; rfl), fun hm => this.2 (by rw [hm]; rfl)⟩

theorem matSetup_spec {s : State} {sy : Sync} (h : s.AtStart 1 sy) (f : Word → MatSet → Option MatSet) :
    (∀ m, f s.head.a s.me.eng.matNest = some m → ∃ t, s.matSetup sy f = .next t ∧
      ((s.modMe (fun c => { c with eng := { c.eng with matNest := m } })).headGone sy).Signals t s.cur.cid sy 0 (fun k => s.headFrame 1 0 0x0C k 0)) ∧
    (f s.head.a s.me.eng.matNest = none → s.me.trap.phase = .none → ∃ t, s.matSetup sy f = .next t ∧
      s.Traps t s.cur.cid false (s.headFrame 1 0 1 0 0)) := by
  have := setupOp_spec h (fun v g => (f v g.matNest).map (fun n => { g with matNest := n }))
  refine ⟨fun m hm => this.1 { s.me.eng with matNest := m } (by rw [hm]; rfl), fun hm => this.2 (by rw [hm]; rfl)⟩

theorem denSetup_eq (s : State) (sy : Sync) (f : QEnt → MatSet → Option MatSet) : s.denSetup sy f = s.matSetup sy (fun _ n => f s.head n) := rfl

theorem inRange_iff (v : Word) (a b : Nat) : inRange v a b = true ↔ a ≤ v.toNat ∧ v.toNat ≤ b := by unfold inRange; simp

theorem setCount_eq (n : NestSet) (l : Nat) (v : Word) :
    n.setCount l v = if 1 ≤ v.toNat ∧ v.toNat ≤ 65536 then some { n with cnt := Map.put n.cnt l (v.toNat - 1) } else none := by
  unfold NestSet.setCount; simp only [inRange_iff]

theorem setStride_eq (n : NestSet) (l j : Nat) (v : Word) :
    n.setStride l j v = if -549755813888 ≤ v.toInt ∧ v.toInt ≤ 549755813887 then some { n with str := Map.put n.str (8 * l + j) v.toInt } else none := by
  unfold NestSet.setStride
  have : (-(2 ^ 39) ≤ v.toInt ∧ v.toInt < 2 ^ 39) ↔ (-549755813888 ≤ v.toInt ∧ v.toInt ≤ 549755813887) := by norm_num; omega
  simp only [this]

theorem setRun_eq (n : NestSet) (v : Word) :
    n.setRun v = if 1 ≤ v.toNat ∧ v.toNat ≤ 4096 then some { n with run := v.toNat - 1 } else none := by
  unfold NestSet.setRun; simp only [inRange_iff]

theorem setFmt_eq (n : NestSet) (j : Nat) (v : Word) :
    n.setFmt j v = if v.toNat / 2 ^ 30 = 0 ∧ v.toNat / 2 ^ 22 % 4 = 0 ∧ v.toNat / 2 ^ 8 % 8 ≠ 7 then some { n with fmt := Map.put n.fmt j v } else none := by
  unfold NestSet.setFmt fReserved fGeo bitsOf
  have hv := v.isLt
  have e1 : v.toNat / 2 ^ 30 % 2 ^ (63 + 1 - 30) = v.toNat / 2 ^ 30 := Nat.mod_eq_of_lt (by norm_num; omega)
  have e2 : v.toNat / 2 ^ 22 % 2 ^ (23 + 1 - 22) = v.toNat / 2 ^ 22 % 4 := rfl
  have e3 : v.toNat / 2 ^ 8 % 2 ^ (10 + 1 - 8) = v.toNat / 2 ^ 8 % 8 := rfl
  rw [e1, e2, e3]
  generalize v.toNat / 2 ^ 30 = x
  generalize v.toNat / 2 ^ 22 % 4 = y
  generalize v.toNat / 2 ^ 8 % 8 = z
  by_cases h1 : x = 0 <;> by_cases h2 : y = 0 <;> by_cases h3 : z = 7 <;> simp [h1, h2, h3]

theorem matCount_eq (n : MatSet) (l : Nat) (v : Word) :
    n.setCount l v = if 1 ≤ v.toNat ∧ v.toNat ≤ 65536 then some { n with cnt := Map.put n.cnt l (v.toNat - 1) } else none := by
  unfold MatSet.setCount; simp only [inRange_iff]

theorem matStride_eq (n : MatSet) (l j : Nat) (v : Word) :
    n.setStride l j v = if j ≤ 3 ∧ -549755813888 ≤ v.toInt ∧ v.toInt ≤ 549755813887 then some { n with str := Map.put n.str (4 * l + j) v.toInt } else none := by
  unfold MatSet.setStride
  have : (j < 4 ∧ -(2 ^ 39) ≤ v.toInt ∧ v.toInt < 2 ^ 39) ↔ (j ≤ 3 ∧ -549755813888 ≤ v.toInt ∧ v.toInt ≤ 549755813887) := by norm_num; omega
  simp only [this]

theorem matBase_eq (n : MatSet) (j sp : Nat) (v : Word) :
    n.setBase j sp v = if ((j, sp) = (0, 1) ∨ (j, sp) = (1, 4) ∨ (j, sp) = (2, 4)) ∧ v.toNat < 2 ^ 57 ∨ (j, sp) = (3, 0) ∧ v.toNat ≤ 63 then
      some { n with base := Map.put n.base j (word (sp * 2 ^ 61 + v.toNat)) } else none := by
  unfold MatSet.setBase baseWord
  dsimp only
  congr 1
  apply propext
  split <;> simp_all
  omega

theorem matSbase_eq (n : MatSet) (j sp : Nat) (v : Word) :
    n.setSbase j sp v = if ((j, sp) = (0, 1) ∨ (j, sp) = (1, 4) ∨ j = 4 ∧ sp ≤ 3) ∧ v.toNat < 2 ^ 57 then
      some { n with sbase := Map.put n.sbase (if j = 4 then 2 else j) (word (sp * 2 ^ 61 + v.toNat)) } else none := by
  unfold MatSet.setSbase baseWord
  by_cases h0 : j = 0 ∧ sp = 1
  · obtain ⟨rfl, rfl⟩ := h0; simp
  by_cases h1 : j = 1 ∧ sp = 4
  · obtain ⟨rfl, rfl⟩ := h1; simp
  by_cases h4 : j = 4 ∧ sp ≤ 3
  · obtain ⟨rfl, h⟩ := h4
    have : sp = 0 ∨ sp = 1 ∨ sp = 2 ∨ sp = 3 := by omega
    rcases this with rfl | rfl | rfl | rfl <;> simp
  rw [if_neg (by simp only [Prod.mk.injEq]; tauto)]
  dsimp only
  split
  · rename_i k hk
    split at hk <;> first | (simp at h0; done) | (simp at h1; done) | (simp at h4; done) | cases hk
  · rfl

theorem dctlOk_iff (v : Word) : dctlOk v = true ↔ v.toNat / 2 ^ 20 % 2 ^ 12 = 0 ∧ v.toNat / 2 ^ 12 % 128 ≤ 95 ∧ v.toNat / 2 ^ 8 % 8 ≠ 7 ∧ v.toNat % 16 ≤ 9 := by
  unfold dctlOk dCols dGeo bitsOf
  norm_num
  omega

theorem fits23_iff (v : Word) : fits23 v = true ↔ v.toNat < 2 ^ 23 := by unfold fits23; simp

theorem nest_of {i : Instr} {s : State} {sy : Sync} (f : Word → NestSet → Option NestSet) (hw : ∀ v n, i.nestWrite v n = f v n) :
    (exec i s = s.copySetup sy f → s.AtStart 0 sy →
      (∀ m, i.nestWrite s.head.a s.me.eng.copyNest = some m → ∃ t, exec i s = .next t ∧
        ((s.modMe (fun c => { c with eng := { c.eng with copyNest := m } })).headGone sy).Signals t s.cur.cid sy 0 (fun k => s.headFrame 0 0 0x0C k 0)) ∧
      (i.nestWrite s.head.a s.me.eng.copyNest = none → s.me.trap.phase = .none → ∃ t, exec i s = .next t ∧
        s.Traps t s.cur.cid false (s.headFrame 0 0 1 0 0))) ∧
    (exec i s = s.redSetup sy f → s.AtStart 2 sy →
      (∀ m, i.nestWrite s.head.a s.me.eng.redNest = some m → ∃ t, exec i s = .next t ∧
        ((s.modMe (fun c => { c with eng := { c.eng with redNest := m } })).headGone sy).Signals t s.cur.cid sy 0 (fun k => s.headFrame 2 0 0x0C k 0)) ∧
      (i.nestWrite s.head.a s.me.eng.redNest = none → s.me.trap.phase = .none → ∃ t, exec i s = .next t ∧
        s.Traps t s.cur.cid false (s.headFrame 2 0 1 0 0))) := by
  refine ⟨fun he h => ?_, fun he h => ?_⟩
  · rw [he, hw]; exact copySetup_spec h f
  · rw [he, hw]; exact redSetup_spec h f

theorem mat_of {i : Instr} {s : State} {sy : Sync} (f : Word → MatSet → Option MatSet) (hw : ∀ n, i.matWrite s.head n = f s.head.a n)
    (he : exec i s = s.matSetup sy f) (h : s.AtStart 1 sy) :
      (∀ m, i.matWrite s.head s.me.eng.matNest = some m → ∃ t, exec i s = .next t ∧
        ((s.modMe (fun c => { c with eng := { c.eng with matNest := m } })).headGone sy).Signals t s.cur.cid sy 0 (fun k => s.headFrame 1 0 0x0C k 0)) ∧
      (i.matWrite s.head s.me.eng.matNest = none → s.me.trap.phase = .none → ∃ t, exec i s = .next t ∧
        s.Traps t s.cur.cid false (s.headFrame 1 0 1 0 0)) := by
  rw [he, hw]; exact matSetup_spec h f

theorem nest_table {i : Instr} {path : Nat} {sy : Sync} (h : i.nestSetup = some (path, sy)) :
    ∃ f : Word → NestSet → Option NestSet, (∀ v n, i.nestWrite v n = f v n) ∧ (path = 0 → ∀ s, exec i s = s.copySetup sy f) ∧
      (path = 2 → ∀ s, exec i s = s.redSetup sy f) := by
  cases i
  case cnestCount o => cases h; exact ⟨fun v n => n.setCount o.lvl v, fun v n => (setCount_eq n _ v).symm, fun _ _ => rfl, fun h => by cases h⟩
  case rnestCount o => cases h; exact ⟨fun v n => n.setCount o.lvl v, fun v n => (setCount_eq n _ v).symm, fun h => (by cases h), fun _ _ => rfl⟩
  case cnestStride o => cases h; exact ⟨fun v n => n.setStride o.lvl o.j v, fun v n => (setStride_eq n _ _ v).symm, fun _ _ => rfl, fun h => by cases h⟩
  case rnestStride o => cases h; exact ⟨fun v n => n.setStride o.lvl o.j v, fun v n => (setStride_eq n _ _ v).symm, fun h => (by cases h), fun _ _ => rfl⟩
  case cnestRun o => cases h; exact ⟨fun v n => n.setRun v, fun v n => (setRun_eq n v).symm, fun _ _ => rfl, fun h => by cases h⟩
  case rnestRun o => cases h; exact ⟨fun v n => n.setRun v, fun v n => (setRun_eq n v).symm, fun h => (by cases h), fun _ _ => rfl⟩
  case cfmtFmt o => cases h; exact ⟨fun v n => n.setFmt o.j v, fun v n => (setFmt_eq n _ v).symm, fun _ _ => rfl, fun h => by cases h⟩
  case rfmtFmt o => cases h; exact ⟨fun v n => n.setFmt o.j v, fun v n => (setFmt_eq n _ v).symm, fun h => (by cases h), fun _ _ => rfl⟩
  case cbaseAddr o => cases h; exact ⟨fun v n => n.setBase o.j o.sp v, fun _ _ => rfl, fun _ _ => rfl, fun h => by cases h⟩
  case rbaseAddr o => cases h; exact ⟨fun v n => n.setBase o.j o.sp v, fun _ _ => rfl, fun h => (by cases h), fun _ _ => rfl⟩
  case cbaseScale o => cases h; exact ⟨fun v n => n.setSbase o.j o.sp v, fun _ _ => rfl, fun _ _ => rfl, fun h => by cases h⟩
  case rbaseScale o => cases h; exact ⟨fun v n => n.setSbase o.j o.sp v, fun _ _ => rfl, fun h => (by cases h), fun _ _ => rfl⟩
  case cfmtFill o => cases h; exact ⟨fun v n => some { n with fill := v }, fun _ _ => rfl, fun _ _ => rfl, fun h => by cases h⟩
  case rfmtFill o => cases h; exact ⟨fun v n => some { n with fill := v }, fun _ _ => rfl, fun h => (by cases h), fun _ _ => rfl⟩
  case cfmtLimit o => cases h; exact ⟨fun v n => some { n with limit := v }, fun _ _ => rfl, fun _ _ => rfl, fun h => by cases h⟩
  case rfmtLimit o => cases h; exact ⟨fun v n => some { n with limit := v }, fun _ _ => rfl, fun h => (by cases h), fun _ _ => rfl⟩
  case cfmtSubv o => cases h; exact ⟨fun v n => some { n with subv := v }, fun _ _ => rfl, fun _ _ => rfl, fun h => by cases h⟩
  case rfmtSubv o => cases h; exact ⟨fun v n => some { n with subv := v }, fun _ _ => rfl, fun h => (by cases h), fun _ _ => rfl⟩
  case cfmtClear o => cases h; exact ⟨fun _ _ => some .fresh, fun _ _ => rfl, fun _ _ => rfl, fun h => by cases h⟩
  case rfmtClear o => cases h; exact ⟨fun _ _ => some .fresh, fun _ _ => rfl, fun h => (by cases h), fun _ _ => rfl⟩
  all_goals cases h

theorem mat_table {i : Instr} {sy : Sync} (h : i.matSetup = some sy) (s : State) :
    ∃ f : Word → MatSet → Option MatSet, (∀ n, i.matWrite s.head n = f s.head.a n) ∧ exec i s = s.matSetup sy f := by
  cases i
  case mnestCount o => cases h; exact ⟨fun v n => n.setCount o.lvl v, fun n => (matCount_eq n _ _).symm, rfl⟩
  case mnestStride o => cases h; exact ⟨fun v n => n.setStride o.lvl o.j v, fun n => (matStride_eq n _ _ _).symm, rfl⟩
  case mbaseAddr o => cases h; exact ⟨fun v n => n.setBase o.j o.sp v, fun n => (matBase_eq n _ _ _).symm, rfl⟩
  case mbaseScale o => cases h; exact ⟨fun v n => n.setSbase o.j o.sp v, fun n => (matSbase_eq n _ _ _).symm, rfl⟩
  case mfmtDctl o =>
    cases h
    refine ⟨fun v n => if dctlOk v then some { n with dctl := v } else none, fun n => ?_, rfl⟩
    simp only [Instr.matWrite, ← dctlOk_iff]
  case dmap o =>
    cases h
    refine ⟨fun _ n => if s.head.a.toNat % 2 = 0 ∧ fits23 s.head.a ∧ inRange s.head.b 1 2048 then
      some { n with dmapw := word (s.head.b.toNat * 2 ^ 32 + s.head.a.toNat) } else none, fun n => ?_, rfl⟩
    simp only [Instr.matWrite, fits23_iff, inRange_iff]
  case dcurve o =>
    cases h
    refine ⟨fun _ n => if s.head.a.toNat % 16 = 0 ∧ fits23 s.head.a then some { n with dcrv := Map.put n.dcrv o.g (word (2 ^ 31 + s.head.a.toNat)) }
      else none, fun n => ?_, rfl⟩
    simp only [Instr.matWrite, fits23_iff]
  case dtap o =>
    cases h
    refine ⟨fun _ n => if o.mode = 0 then (if o.ra = 0 ∧ o.rb = 0 then some { n with dtapw := 0 } else none)
      else if o.mode = 3 ∨ s.head.a.toNat % 4 ≠ 0 ∨ s.head.b.toNat % 4 ≠ 0 ∨ !fits23 s.head.a ∨ 2 ^ 32 ≤ s.head.b.toNat then none
      else some { n with dtapw := word (s.head.b.toNat * 2 ^ 32 + o.mode * 2 ^ 24 + s.head.a.toNat) }, fun n => ?_, rfl⟩
    simp only [Instr.matWrite]
    by_cases h0 : o.mode = 0
    · rw [if_pos h0, if_pos h0]
    rw [if_neg h0, if_neg h0]
    by_cases hc : o.mode ≠ 3 ∧ s.head.a.toNat % 4 = 0 ∧ s.head.b.toNat % 4 = 0 ∧ s.head.a.toNat < 2 ^ 23 ∧ s.head.b.toNat < 2 ^ 32
    · rw [if_pos hc, if_neg]
      have := (fits23_iff s.head.a).2 hc.2.2.2.1
      rw [this]
      simp only [Bool.not_true, Bool.false_eq_true, false_or]
      omega
    · rw [if_neg hc, if_pos]
      by_contra hn
      push Not at hn
      obtain ⟨a, b, c, d, e⟩ := hn
      exact hc ⟨a, b, c, (fits23_iff _).1 (by simpa using d), e⟩
  case mbasePitch o => cases h; exact ⟨fun v n => some { n with apitch := v }, fun _ => rfl, rfl⟩
  case mbaseDpitch o => cases h; exact ⟨fun v n => some { n with rowp := v }, fun _ => rfl, rfl⟩
  case mfmtCtl o => cases h; exact ⟨fun v n => some { n with mctl := v }, fun _ => rfl, rfl⟩
  case mfmtDsb o => cases h; exact ⟨fun v n => some { n with dsb := v }, fun _ => rfl, rfl⟩
  case mfmtClip o => cases h; exact ⟨fun v n => some { n with dclip := v }, fun _ => rfl, rfl⟩
  case mfmtSubv o => cases h; exact ⟨fun v n => some { n with subv := v }, fun _ => rfl, rfl⟩
  case mfmtClear o => cases h; exact ⟨fun _ _ => some .fresh, fun _ => rfl, rfl⟩
  all_goals cases h

end Sys2Proof.Machine
end

