-- ==== Sys2Proof/Laws/Starts.lean ====
section
/-! SUPPORT. Commands of the engines start (R347, R350-R360, R373, R384-R397). -/

namespace Sys2Proof.Machine

open Sys2Proof

/-- An engine instruction whose unit may or may not be ready. -/
theorem engineOp_ready {s : State} {path : Nat} {sy : Sync} (h : s.AtStart path sy) {ready : Bool} (hr : ready = true) (k : Res) :
    s.engineOp path sy ready k = k := by rw [hr]; exact engineOp_eq h k

theorem matGo_spec {s : State} {sy : Sync} (h : s.AtStart 1 sy) (u : EUnit) (hu : u = .array ∨ u = .drainU) (hf : s.me.eng.cmd u = none)
    (check : Option (Nat × Nat × Word)) (active : Bool) (m : Cmd) :
    (∀ c d fa, check = some (c, d, fa) → s.me.trap.phase = .none → ∃ t, s.matGo sy u check active m = .next t ∧ s.Traps t s.cur.cid false (s.headFrame 1 0 c d fa)) ∧
    (check = none → s.matGo sy u check active m = .next
      (((s.headGone sy).modMe (fun x => { x with eng := (if active then { x.eng with matActive := m.mat } else x.eng).setCmd u m })).beginStreams s.cur.cid u m)) := by
  have hr : (s.cmd s.cur.cid u).isNone = true := by
    have : s.cmd s.cur.cid u = s.me.eng.cmd u := rfl
    rw [this, hf]; rfl
  unfold State.matGo
  rw [engineOp_ready h hr]
  refine ⟨fun c d fa hc hp => ?_, fun hc => ?_⟩
  · rw [hc]
    rcases hu with rfl | rfl <;> exact trapStart_traps hp _ c d fa
  · rw [hc]
    dsimp only
    unfold State.matStart
    rw [start_eq]
    rfl

theorem rangeCheck_spec (s : State) (t c : Word) (ok : Bool) :
    (¬ (1 ≤ c.toNat ∧ t.toNat + c.toNat ≤ 64 ∧ ok = true) → s.rangeCheck t c ok = some (1, 0, 0)) ∧
    ((1 ≤ c.toNat ∧ t.toNat + c.toNat ≤ 64 ∧ ok = true) → s.me.hdr.acc < t.toNat + c.toNat → s.rangeCheck t c ok = some (7, 1, 0)) ∧
    ((1 ≤ c.toNat ∧ t.toNat + c.toNat ≤ 64 ∧ ok = true) → t.toNat + c.toNat ≤ s.me.hdr.acc → s.rangeCheck t c ok = none) := by
  unfold State.rangeCheck
  have e : (inRange c 1 64 && decide (t.toNat + c.toNat ≤ 64) && ok) = true ↔ (1 ≤ c.toNat ∧ t.toNat + c.toNat ≤ 64 ∧ ok = true) := by
    simp only [Bool.and_eq_true, inRange_iff, decide_eq_true_eq]
    have hx : ((1 ≤ c.toNat ∧ c.toNat ≤ 64) ∧ t.toNat + c.toNat ≤ 64) ↔ (1 ≤ c.toNat ∧ t.toNat + c.toNat ≤ 64) := by omega
    rw [hx, and_assoc]
  refine ⟨fun h => ?_, fun h ha => ?_, fun h ha => ?_⟩
  · rw [if_pos]
    rw [Bool.not_eq_true']
    exact Bool.eq_false_iff.2 (mt e.1 h)
  · rw [e.2 h, if_neg (by simp), if_neg]
    unfold State.tilesIn; simp; omega
  · rw [e.2 h, if_neg (by simp), if_pos]
    unfold State.tilesIn; simp; omega

theorem drain_of {s : State} {i : Instr} {sy : Sync} {count : Word} {ok : Bool} (h : s.AtStart 1 sy) (hf : s.me.eng.drain = none)
    (he : exec i s = s.matGo sy .drainU (s.rangeCheck s.head.a count ok) false s.matCmd) :
    let good := 1 ≤ count.toNat ∧ s.head.a.toNat + count.toNat ≤ 64 ∧ ok = true
    (¬ good → s.me.trap.phase = .none → ∃ t, exec i s = .next t ∧ s.Traps t s.cur.cid false (s.headFrame 1 0 1 0 0)) ∧
    (good → s.me.hdr.acc < s.head.a.toNat + count.toNat → s.me.trap.phase = .none → ∃ t, exec i s = .next t ∧ s.Traps t s.cur.cid false (s.headFrame 1 0 7 1 0)) ∧
    (good → s.head.a.toNat + count.toNat ≤ s.me.hdr.acc → ∃ t m, exec i s = .next t ∧ m.ent = s.head ∧ m.start = s.clk ∧ m.mat = s.me.eng.matNest ∧ m.iter = 0 ∧
      m.status = 0 ∧ m.ended = false ∧
      t = ((s.headGone sy).modMe (fun x => { x with eng := { x.eng with drain := some m } })).beginStreams s.cur.cid .drainU m) := by
  obtain ⟨h1, h2, h3⟩ := rangeCheck_spec s s.head.a count ok
  obtain ⟨g1, g2⟩ := matGo_spec h .drainU (.inr rfl) hf (s.rangeCheck s.head.a count ok) false s.matCmd
  rw [he]
  refine ⟨fun a hp => g1 _ _ _ (h1 a) hp, fun a b hp => g1 _ _ _ (h2 a b) hp, fun a b => ⟨_, s.matCmd, g2 (h3 a b), rfl, rfl, rfl, rfl, rfl, rfl, rfl⟩⟩

theorem redGo_spec {s : State} {i : Instr} {sy : Sync} (h : s.AtStart 2 sy) (hf : s.me.eng.red = none) (check : Option (Nat × Nat × Word)) (wide : Bool)
    (he : exec i s = s.redGo sy check wide) :
    (∀ c d fa, check = some (c, d, fa) → s.me.trap.phase = .none → ∃ t, exec i s = .next t ∧ s.Traps t s.cur.cid false (s.headFrame 2 0 c d fa)) ∧
    (check = none → ∃ t m, exec i s = .next t ∧ m.ent = s.head ∧ m.start = s.clk ∧ m.nest = s.me.eng.redNest ∧ m.iter = 0 ∧ m.status = 0 ∧
      m.ended = wide ∧
      t = ((s.headGone sy).modMe (fun x => { x with eng := { x.eng with redActive := m.nest, red := some m } })).beginStreams s.cur.cid .red m) := by
  have hr : s.redFree = true := by unfold State.redFree; rw [hf]; rfl
  rw [he]
  unfold State.redGo
  rw [engineOp_ready h hr]
  refine ⟨fun c d fa hc hp => ?_, fun hc => ?_⟩
  · rw [hc]; exact trapStart_traps hp _ c d fa
  · rw [hc]
    dsimp only
    rw [start_eq]
    exact ⟨_, { Cmd.fresh s.head s.clk s.me.eng.redNest s.me.eng.matNest with ended := wide }, rfl, rfl, rfl, rfl, rfl, rfl, rfl, rfl⟩

theorem bit11 (w : Word) : bitOf w 11 = w.getLsbD 11 := by
  unfold bitOf; rw [← BitVec.testBit_toNat, Nat.testBit_eq_decide_div_mod_eq]; rfl

/-- The checks of a copy stream, in the spec's words. -/
theorem streamOk_iff (n : NestSet) (j : Nat) (listed dec : Bool) :
    n.streamOk j (decide (j < 4)) true listed dec = true ↔ n.Fits j (decide (4 ≤ j)) (!listed) dec := by
  have hsp : (!(spaceOf (n.baseW j) == 4 && (decide (j < 4) || !true))) = true ↔ (spaceOf (n.baseW j) = 4 → decide (4 ≤ j) = true) := by
    rw [Bool.not_eq_true', Bool.eq_false_iff]; simp
  have hres : (!fReserved (n.fmtW j)) = true ↔ bitsOf (n.fmtW j) 63 30 = 0 ∧ bitsOf (n.fmtW j) 23 22 = 0 := by unfold fReserved; simp
  have hgeo : (fGeo (n.fmtW j) != 7) = true ↔ bitsOf (n.fmtW j) 10 8 ≠ 7 := by unfold fGeo; simp
  unfold NestSet.streamOk
  dsimp only
  constructor
  · intro h
    split at h
    · rename_i t p ht hp
      simp only [Bool.and_eq_true, decide_eq_true_eq] at h
      obtain ⟨⟨⟨⟨⟨⟨⟨h1, h2⟩, h3⟩, h4⟩, h5⟩, h6⟩, h7⟩, h8⟩ := h
      refine ⟨⟨h1, hsp.1 (by simpa using h2)⟩, ⟨(hres.1 h3).1, (hres.1 h3).2, hgeo.1 h4⟩, t, p, ht, hp, ?_, h6, ?_, ?_, ?_⟩
      · simpa [or_assoc] using h5
      · intro hd; rw [hd, if_pos rfl] at h7; simpa using h7
      · intro hd; rw [hd, if_neg (by simp)] at h7
        simpa using h7
      · intro hb
        have hb' : fBlk (n.fmtW j) = true := by unfold fBlk; rw [bit11]; exact hb
        rw [hb'] at h8
        simp only [Bool.not_true, Bool.false_or, Bool.and_eq_true, Bool.not_eq_true', decide_eq_true_eq] at h8
        obtain ⟨⟨⟨a, b⟩, c⟩, d⟩ := h8
        refine ⟨?_, by simpa using b, c, d⟩
        unfold blkType at a; simpa [or_assoc] using a
    · cases h
    · cases h
  · rintro ⟨⟨h1, h2⟩, ⟨h3, h3', h4⟩, t, p, ht, hp, h5, h6, h7, h7', h8⟩
    have et : fType (n.fmtW j) = some t := ht
    have ep : fPt (n.fmtW j) = some p := hp
    rw [et, ep]
    dsimp only
    simp only [Bool.and_eq_true, decide_eq_true_eq]
    refine ⟨⟨⟨⟨⟨⟨⟨h1, by simpa using hsp.2 h2⟩, hres.2 ⟨h3, h3'⟩⟩, hgeo.2 h4⟩, by simpa [or_assoc] using h5⟩, h6⟩, ?_⟩, ?_⟩
    · cases dec
      · rw [if_neg (by simp)]; simpa using h7' rfl
      · rw [if_pos rfl]; simpa using h7 rfl
    · cases hb : fBlk (n.fmtW j)
      · rfl
      · have hb' : (n.fmtW j).getLsbD 11 = true := by rw [← bit11]; exact hb
        obtain ⟨a, b, c, d⟩ := h8 hb'
        simp only [Bool.not_true, Bool.false_or, Bool.and_eq_true, Bool.not_eq_true', decide_eq_true_eq]
        refine ⟨⟨⟨?_, by simpa using b⟩, c⟩, d⟩
        unfold blkType; simpa [or_assoc] using a

theorem begin_frame (s : State) (cid : Nat) (u : EUnit) (m : Cmd) : (s.beginStreams cid u m).clk = s.clk ∧ (s.beginStreams cid u m).cur = s.cur := by
  unfold State.beginStreams
  suffices ∀ (l : List Nat) (x : State), (l.foldl (fun s p => match s.program cid p with
      | some n => s.modSlot cid n Slot.begin
      | none => s) x).clk = x.clk ∧ (l.foldl (fun s p => match s.program cid p with
      | some n => s.modSlot cid n Slot.begin
      | none => s) x).cur = x.cur from this _ s
  intro l
  induction l with
  | nil => exact fun _ => ⟨rfl, rfl⟩
  | cons p ps ih =>
    intro x
    rw [List.foldl_cons]
    obtain ⟨a, b⟩ := ih (match x.program cid p with | some n => x.modSlot cid n Slot.begin | none => x)
    refine ⟨a.trans ?_, b.trans ?_⟩ <;> split <;> rfl

theorem arrive_eq (q : Scalar) (k r : Nat) (v : Word) (h : r ≠ 0) :
    q.arrive k r v = { q with land := addLanding ⟨k, q.seq, r, v, true⟩ (q.land.filter (fun l => l.reg != r)), pend := q.pend.filter (fun p => p != r) } := by
  unfold Scalar.arrive Scalar.resultVar
  rw [if_neg h]

theorem copyStart_eq (s : State) (c : CopyGo) (n : NestSet) :
    s.copyStart c n = s.onChannel c.sy c.ch c.rc { Cmd.fresh s.head s.clk n s.me.eng.matNest with
      promise := s.promiseOf s.cur.cid c.ch n c.src c.dst c.list c.dec, dec := ⟨addrOf (n.baseW 0), [], 0, 0⟩ } := by
  unfold State.copyStart State.onChannel
  dsimp only
  rw [start_eq]
  generalize s.promiseOf s.cur.cid c.ch n c.src c.dst c.list c.dec = p
  by_cases hrc : c.rc = 0
  · rw [if_pos hrc, if_pos hrc]; rfl
  rw [if_neg hrc, if_neg hrc]
  simp only [arrive_eq _ _ _ _ hrc, Ctx.modSc, Scalar.landVar, if_neg hrc, begin_frame]
  rfl

/-- A row as the model's command. -/
def CopyRow.go (c : CopyRow) : CopyGo := ⟨c.sy, c.ch, c.rc, c.os, c.od, c.src, c.dst, c.list.map Prod.fst, c.list.map Prod.snd, c.packed⟩

theorem copyRow_go {i : Instr} {s : State} {c : CopyRow} (h : i.copyRow s.head = some c) : exec i s = s.copyGo c.go := by
  cases i <;> first | (cases h; rfl) | cases h

theorem foldl_add_sum (l : List Nat) (a : Nat) : l.foldl (· + ·) a = a + l.sum := by
  induction l generalizing a with
  | nil => rfl
  | cons x xs ih => rw [List.foldl_cons, ih, List.sum_cons]; omega

theorem promise_low (s : State) (cid ch : Nat) (n : NestSet) (src dst : List Nat) (list : Option Word) (dec : Bool) :
    ∃ clk, s.clk + 48 ≤ clk ∧ s.promiseOf cid ch n src dst list dec = word (clk * 16 + ch % 8 * 2 + 1) ∧
      ((∀ j ∈ src ++ dst, spaceOf (n.baseW j) = 1) → list = none → dec = false → s.program cid 0 = none → s.program cid 1 = none →
        clk = s.clk + 48 + (max ((src.map (fun j => n.runs * (n.run + 1) * fSize (n.fmtW j))).sum)
          ((dst.map (fun j => n.runs * (n.run + 1) * fSize (n.fmtW j))).sum) + 1023) / 1024) := by
  unfold State.promiseOf
  dsimp only
  refine ⟨_, ?_, rfl, fun hs hl hd h0 h1 => ?_⟩
  · exact Nat.le_add_right_of_le (Nat.le_add_right _ _)
  · subst hl hd
    have hw : ∀ l : List Nat, (∀ j ∈ l, spaceOf (n.baseW j) = 1) → l.map (fun j => s.spaceWH cid (n.baseW j)) = l.map (fun _ => (1024, 0)) := by
      intro l hl
      apply List.map_congr_left
      intro j hj
      unfold State.spaceWH
      rw [hl j hj]
      rfl
    have hf : ∀ (l : List Nat), ((l.map (fun _ => ((1024, 0) : Nat × Nat))).map Prod.fst).foldl min 1024 = 1024 := by
      intro l; induction l with
      | nil => rfl
      | cons x xs ih => exact ih
    have hg : ∀ (l : List Nat), ((l.map (fun _ => ((1024, 0) : Nat × Nat))).map Prod.snd).foldl max 0 = 0 := by
      intro l; induction l with
      | nil => rfl
      | cons x xs ih => exact ih
    simp only [List.append_nil, hw _ hs, hf, hg, Bool.false_eq_true, if_false, Option.isSome_none, Nat.add_zero, List.foldl_cons, List.foldl_nil, h0, h1]
    rw [foldl_add_sum, foldl_add_sum, Nat.zero_add, Nat.zero_add]
    rfl

theorem baseWord_eq (sp : Nat) (v : Word) : baseWord sp v = word (sp * 2 ^ 61 + v.toNat) := rfl

end Sys2Proof.Machine
end

