-- ==== Sys2Proof/Laws/Port.lean ====
section
/-! SUPPORT. Engine words handed to their streams, and the port instructions (R93, R413-R418). -/

namespace Sys2Proof.Machine

open Sys2Proof

theorem portOp_eq {s : State} {srcs dsts : List Nat} (h : s.AtPort srcs) (hd : s.Here dsts) (ok : Bool) (k : Res) :
    s.portOp ok srcs dsts k = if ok then k else .next (s.trapS 7 1 0) := by
  unfold State.portOp
  rw [mainOnly_main h.main, h.free]
  exact h.ready.issueVar hd _

theorem slotOk_iff (s : State) (n : Nat) : s.slotOk n = true ↔ n < s.me.hdr.slots := by unfold State.slotOk; simp

theorem unbind_slot (p : Ports) (pt k : Nat) :
    (p.unbind pt).slot k = { p.slot k with bound := if (p.slot k).bound = some pt then none else (p.slot k).bound } := by
  have e := Map.find_map (fun l : Slot => if l.bound = some pt then { l with bound := none } else l) p.slots k
  have e' : Map.find (p.unbind pt).slots k = (Map.find p.slots k).map (fun l : Slot => if l.bound = some pt then { l with bound := none } else l) := e
  unfold Ports.slot Map.getD
  rw [e']
  rcases Map.find p.slots k with _ | l
  · rfl
  · simp only [Option.map_some, Option.getD_some]
    split <;> simp_all

theorem bind_slot (p : Ports) (n pt k : Nat) :
    (p.bind n pt).slot k = { p.slot k with bound := if k = n then some pt else if (p.slot k).bound = some pt then none else (p.slot k).bound } := by
  unfold Ports.bind
  show Map.getD (Map.put (p.unbind pt).slots n _) k _ = _
  rw [Map.getD_put]
  by_cases h : k = n
  · subst h
    rw [if_pos rfl, if_pos rfl, unbind_slot]
  · rw [if_neg h, if_neg h]
    exact unbind_slot p pt k

theorem modMe_me (s : State) (f : Ctx → Ctx) : (s.modMe f).me = f s.me := by
  unfold State.modMe State.me
  exact State.ctx_modCtx_same s _ f

theorem hands_one {s : State} (a : Agent) (ha : a ∈ [Agent.C, .M, .R, .K]) (e : QEnt) : s.Hands (s.enqueue a e) e (· = a) := by
  have hme : (s.enqueue a e).me = s.me.modEng (fun g => g.setQ a (g.q a ++ [e])) := modMe_me s _
  refine ⟨fun b hb hba => ?_, fun b hb hba => ?_, ?_, fun c hc => ?_, rfl, fun _ => rfl⟩
  · subst hba
    rw [hme]
    cases b <;> simp at hb <;> rfl
  · rw [hme]
    cases a <;> simp at ha <;> cases b <;> simp at hb hba <;> rfl
  · rw [hme]
    cases a <;> simp at ha <;> rfl
  · unfold State.enqueue State.modMe
    rw [State.ctx_modCtx, if_neg hc]

theorem modMe_modMe (s : State) (f g : Ctx → Ctx) : (s.modMe f).modMe g = s.modMe (fun c => g (f c)) := by
  unfold State.modMe State.modCtx State.setCtx
  simp only [State.ctx, Map.getD_put_same, Map.put_put]

/-- A promise destination that becomes pending after an entry is queued. -/
theorem setPend_eq {s : State} (hm : s.OnMain) (f : Ctx → Ctx) (r : Nat) :
    (s.modMe f).setPend r = (s.modMe f).modMe (fun c => { c with sc := c.sc.owing r }) := by
  unfold State.setPend Scalar.owing
  by_cases h : r = 0
  · rw [if_pos h]
    simp only [if_pos h]
    rw [modMe_modMe]
  · rw [if_neg h]
    simp only [if_neg h]
    unfold State.setSca State.sca
    have : (s.modMe f).cur.agent = .S := hm
    rw [this]
    rfl

theorem setPend_none (s : State) (f : Ctx → Ctx) : s.modMe f = (s.modMe f).modMe (fun c => { c with sc := c.sc }) := by rw [modMe_modMe]

theorem pulled_cur (s : State) (ea : Word) (n : Nat) : (s.pulled ea n).1.cur = s.cur := by
  induction n with
  | zero => rfl
  | succ n ih =>
    unfold State.pulled
    dsimp only
    split
    · exact ih
    · rename_i p _
      have h1 : ∀ (u : State) (k : Nat), (u.sRead k p 64).cur = u.cur := fun u k => by unfold State.sRead; split <;> rfl
      rw [(State.loadL1_moves _ _ _ _ _).cur, h1, (noteXlat_data _ _ _).2.2.1, ih]

/-- The lines of a program image are read one after another. -/
theorem ploadGo_near {s : State} {slot : Nat} {ea : Word} (f j : Nat) (h : ∀ i < f + j, ∃ p, (s.pulled ea i).1.xlat s.cur.cid false .load (ea + word (64 * i)) = .ok p ∧
      p.dev? = none ∧ (s.pulled ea i).1.poisoned p 64 = false) :
    (s.pulled ea j).1.ploadGo slot ea f j (s.pulled ea j).2 = (s.pulled ea (f + j)).1.ploadDone slot (s.pulled ea (f + j)).2 := by
  induction f generalizing j with
  | zero => rw [Nat.zero_add]; rfl
  | succ f ih =>
    obtain ⟨p, h1, h2, h3⟩ := h j (by omega)
    have hc := pulled_cur s ea j
    have e : f + 1 + j = f + (j + 1) := by omega
    rw [e, ← ih (j + 1) (fun i hi => h i (by omega))]
    have hs : s.pulled ea (j + 1) = (let y := (((s.pulled ea j).1.noteXlat s.cur.cid (ea + word (64 * j))).sRead s.myCore p 64).loadL1 s.myCore p .nh true
        (y, (s.pulled ea j).2 ++ y.ploadBytes p (ea + word (64 * j)))) := by
      rw [State.pulled, h1]
    rw [hs]
    generalize s.pulled ea j = x at h1 h2 h3 hc ⊢
    have hn : x.1.myCore = s.myCore := by unfold State.myCore; rw [hc]
    rw [State.ploadGo]
    dsimp only
    rw [hc, h1]
    dsimp only
    rw [h2]
    dsimp only
    rw [h3, Bool.false_and, if_neg (by simp), hn]

theorem mem_checked (l : Slot) (n : Nat) : n ∈ l.checked ↔ (n < l.blen ∨ 32 ≤ n ∧ n < 32 + l.elen) := by
  unfold Slot.checked
  simp only [List.mem_append, List.mem_range, List.mem_map]
  constructor
  · rintro (h | ⟨a, h, rfl⟩)
    · exact .inl h
    · exact .inr (by omega)
  · rintro (h | h)
    · exact .inl h
    · exact .inr ⟨n - 32, by omega, by omega⟩

theorem badWord_none (l : Slot) : l.badWord = none ↔ ∀ n, (n < l.blen ∨ 32 ≤ n ∧ n < 32 + l.elen) → ∃ i, decodePort (l.word n) = .ok i := by
  unfold Slot.badWord
  rw [List.find?_eq_none]
  have hm := mem_checked l
  constructor
  · intro h n hn
    have := h n ((hm n).2 hn)
    rcases hd : decodePort (l.word n) with e | i
    · rw [hd] at this; exact absurd rfl this
    · exact ⟨i, rfl⟩
  · intro h n hn
    obtain ⟨i, hi⟩ := h n ((hm n).1 hn)
    rw [hi]; simp

theorem badWord_least (l : Slot) (hb : l.blen ≤ 32) {n : Nat} (hn : n < l.blen ∨ 32 ≤ n ∧ n < 32 + l.elen) (hd : ¬ ∃ i, decodePort (l.word n) = .ok i)
    (hl : ∀ m < n, (m < l.blen ∨ 32 ≤ m ∧ m < 32 + l.elen) → ∃ i, decodePort (l.word m) = .ok i) : l.badWord = some n := by
  have hsome : l.badWord ≠ none := fun h => hd ((badWord_none l).1 h n hn)
  obtain ⟨k, hk⟩ := Option.ne_none_iff_exists'.1 hsome
  have hk' := hk
  unfold Slot.badWord at hk'
  obtain ⟨hq, as, bs, hl', hbef⟩ := List.find?_eq_some_iff_append.1 hk'
  have hbad : ¬ ∃ i, decodePort (l.word k) = .ok i := by
    rintro ⟨i, hi⟩; rw [hi] at hq; cases hq
  have hmem : ∀ n, n ∈ l.checked ↔ (n < l.blen ∨ 32 ≤ n ∧ n < 32 + l.elen) := mem_checked l
  have hkm : k ∈ l.checked := by rw [hl']; simp
  have hnm := (hmem n).2 hn
  have hge : ¬ k < n := fun h => hbad (hl k h ((hmem k).1 hkm))
  rw [hk]
  by_contra hne
  have hne : k ≠ n := fun h => hne (by rw [h])
  have hlt : n < k := by omega
  -- n stands before k in the rising list
  have hs : l.checked.Pairwise (· < ·) := by
    unfold Slot.checked
    rw [List.pairwise_append]
    refine ⟨List.pairwise_lt_range, ?_, ?_⟩
    · rw [List.pairwise_map]; exact List.pairwise_lt_range.imp (by intro a b h; omega)
    · intro a ha b hb'
      rw [List.mem_range] at ha
      rw [List.mem_map] at hb'
      obtain ⟨c, _, rfl⟩ := hb'
      omega
  rw [hl'] at hnm hs
  rcases List.mem_append.1 hnm with h | h
  · have := hbef n h
    rcases hdn : decodePort (l.word n) with e | i
    · rw [hdn] at this; simp at this
    · exact hd ⟨i, hdn⟩
  · rw [List.pairwise_append] at hs
    rcases List.mem_cons.1 h with h | h
    · omega
    · have := (List.pairwise_cons.1 hs.2.1).1 n h; omega

theorem modMyPorts_eq (s : State) (f : Ports → Ports) : s.modMyPorts f = s.modMe (fun c => { c with ports := f c.ports }) := rfl

/-- The ports after a pclr. -/
def Ports.cleared (p : Ports) (o : PclrF) : Ports :=
  let lpm := match o.lpm, (p.slot o.slot).bound with
    | true, some pt => Mem.clear p.lpm (lpmBase pt 0) (128 * 1024)
    | true, none => p.lpm
    | false, _ => p.lpm
  { p with slots := Map.put p.slots o.slot (p.slot o.slot).clear, lpm := lpm }

theorem modMe_congr (s : State) {f g : Ctx → Ctx} (h : f s.me = g s.me) : s.modMe f = s.modMe g := by
  unfold State.modMe State.modCtx
  unfold State.me at h
  rw [h]

theorem modMyPorts_me (s : State) (f : Ports → Ports) : (s.modMyPorts f).me = { s.me with ports := f s.me.ports } := modMe_me s _

theorem ports_slots (s : State) (f : Ports → Ports) (h : f s.me.ports = { s.me.ports with slots := (f s.me.ports).slots }) :
    s.modMyPorts f = s.modMe (fun c => { c with ports := { c.ports with slots := (s.modMyPorts f).me.ports.slots } }) := by
  rw [modMyPorts_me]
  refine modMe_congr s ?_
  show { s.me with ports := f s.me.ports } = _
  rw [h]

/-- A port instruction that changes the ports and goes on. -/
theorem ports_passes {s : State} (hm : s.OnMain) (f : Ctx → Ctx) (st : Nat) : (s.modMe f).Passes ((s.modMe f).adv st) st :=
  State.adv_passes (State.hasAgent_main (s := s.modMe f) hm) st

theorem slot_modMyPorts (s : State) (f : Ports → Ports) (k : Nat) : (s.modMyPorts f).slot s.cur.cid k = (f s.me.ports).slot k := by
  unfold State.slot
  have : (s.modMyPorts f).ctx s.cur.cid = { s.me with ports := f s.me.ports } := State.ctx_modCtx_same s _ _
  rw [this]

theorem bits_lane (w : Word) : bitsOf w 6 0 = w.toNat % 128 := by unfold bitsOf; norm_num

theorem find_clear (m : Mem) (lo n a : Nat) : Map.find (Mem.clear m lo n) a = if lo ≤ a ∧ a < lo + n then none else Map.find m a := by
  unfold Mem.clear
  induction m with
  | nil => simp [Map.find]
  | cons x xs ih =>
    obtain ⟨k, v⟩ := x
    rw [List.filter_cons]
    by_cases hk : (decide (k < lo) || decide (lo + n ≤ k)) = true
    · rw [if_pos hk]
      simp only [Map.find]
      by_cases ha : k = a
      · subst ha
        rw [if_pos rfl, if_pos rfl, if_neg]
        simp at hk; omega
      · rw [if_neg ha, if_neg ha]; exact ih
    · rw [if_neg hk, ih]
      simp only [Map.find]
      by_cases ha : k = a
      · subst ha
        rw [if_pos rfl]
        rw [if_pos, if_pos] <;> (simp at hk; omega)
      · rw [if_neg ha]

end Sys2Proof.Machine
end

