-- ==== Sys2Proof/Laws/Collect.lean ====
section
/-! SUPPORT. Collective commands and the engines' own steps (R138, R173, R365-R371, R388, R430). -/

namespace Sys2Proof.Machine

open Sys2Proof

theorem State.AtK.noRing_eq {s : State} {sy : Sync} (h : s.AtK sy) : s.noRing = true := by
  unfold State.noRing
  rw [Bool.not_eq_true', List.any_eq_false]
  intro m hm
  simpa using h.noRing m hm

theorem kTrap {s : State} (hp : s.me.trap.phase = .none) (c d : Nat) (fa : Word) :
    ∃ t, s.trapStart (.coll 0) c d fa = .next t ∧ s.Traps t s.cur.cid false (s.headFrame 3 0 c d fa) := trapStart_traps hp (.coll 0) c d fa

theorem kDone_ends (u : State) (sy : Sync) : ∃ t, u.kDone sy = .next t ∧ u.EndsAtStart t sy 3 := by
  refine ⟨_, rfl, fun hx => ?_⟩
  have hv : (u.start sy).visible u.cur.cid 3 sy u.head.w u.head.addr = u.headGone sy := by
    rw [start_eq]
    unfold State.visible
    split
    · rfl
    · rename_i n x hs; rw [if_pos (hx n x hs)]
  rw [hv]
  exact signalOf_spec _ _ _ _ _ _ _

theorem eraseDups_nodup {l : List Nat} (h : l.Nodup) : l.eraseDups = l := by
  induction l with
  | nil => rfl
  | cons a l ih =>
    rw [List.eraseDups_cons]
    obtain ⟨ha, hl⟩ := List.nodup_cons.1 h
    have : l.filter (fun b => !b == a) = l := by
      rw [List.filter_eq_self]
      intro b hb
      simp only [Bool.not_eq_true', beq_eq_false_iff_ne]
      rintro rfl; exact ha hb
    rw [this, ih hl]

theorem bits_kbw (v : Word) : (bitsOf v 63 16 = v.toNat / 65536) ∧ bitsOf v 7 0 = v.toNat % 256 ∧ bitsOf v 15 8 = v.toNat / 256 % 256 := by
  have := v.isLt
  unfold bitsOf
  norm_num
  omega

theorem kStart_eq (s : State) (sy : Sync) (m : Cmd) : s.kStart sy m = s.joined sy m := by
  unfold State.kStart State.joined; rw [start_eq]; rfl

theorem kGate {s : State} {sy : Sync} (h : s.AtK sy) (hl : s.me.eng.coll.length < 16) : (s.noRing && decide (s.me.eng.coll.length < 16)) = true := by
  rw [h.noRing_eq]; simp [hl]

theorem reportWhere_none {s : State} {cid : Nat} {ok : WFail → Bool} {w fpc : Word} (h : ∀ f ∈ (s.ctx cid).eng.wfails, ok f = false) :
    s.reportWhere cid ok w fpc = none := by
  unfold State.reportWhere
  have : (s.ctx cid).eng.wfails.find? ok = none := by
    rw [List.find?_eq_none]; intro f hf; rw [h f hf]; simp
  rw [this]

/-- A boundary at which the command goes on: the next iterations are translated, and one is made (R137, R138). -/
theorem boundary_go {s : State} {cid : Nat} {u : EUnit} {m : Cmd} (hm : s.cmd cid u = some m) (hs : s.mayStep cid u m = true)
    (hf : ∀ f ∈ (s.ctx cid).eng.wfails, f.path = unitPath u → f.seq ≠ m.ent.seq) :
    s.boundary cid u = (let x := s.preTranslate cid u m
      let t := x.1.setCmd cid u x.2
      t.settleStep cid u x.2 (t.stepCmd cid u)) := by
  unfold State.boundary State.reportCmd
  rw [hm]
  dsimp only
  rw [hs, if_neg (by simp), reportWhere_none]
  intro f h
  rw [Bool.and_eq_false_iff]
  by_cases hp : f.path = unitPath u
  · right; simpa using hf f h hp
  · left; simpa using hp

theorem stepCmd_iter {s : State} {cid : Nat} {u : EUnit} {m : Cmd} (hm : s.cmd cid u = some m) (ht : u = .array → m.op = 0x0B → m.tab ≠ none)
    (hu : ∀ n, u ≠ .coll n) : s.stepCmd cid u = s.iterate cid u m := by
  unfold State.stepCmd
  rw [hm]
  have hd : s.dgoTab cid u m = .ok s := by
    unfold State.dgoTab
    rw [if_neg]
    rintro ⟨a, b, c⟩
    exact ht a b c
  simp only [hd, bind, Except.bind, hm]
  cases u
  case coll n => exact absurd rfl (hu n)
  all_goals rfl

theorem find_filter_key {α : Type} (m : Map α) (p : Nat → Bool) (k : Nat) : Map.find (m.filter (fun x => p x.1)) k = if p k then Map.find m k else none := by
  induction m with
  | nil => simp [Map.find]
  | cons x xs ih =>
    obtain ⟨a, v⟩ := x
    rw [List.filter_cons]
    by_cases ha : p a = true
    · rw [if_pos ha]
      simp only [Map.find]
      by_cases h : a = k
      · subst h; rw [if_pos rfl, if_pos rfl, if_pos ha]
      · rw [if_neg h, if_neg h]; exact ih
    · rw [if_neg ha, ih]
      simp only [Map.find]
      by_cases h : a = k
      · subst h; rw [if_neg ha, if_neg ha]
      · rw [if_neg h]

theorem zeroTile_acc (p : Parts) (t : Nat) (i : Bool) : (p.zeroTile t i).acc = p.acc.filter (fun x => (fun k => k / 1536 != t) x.1) := rfl

theorem zeroTile_zero (p : Parts) (t : Nat) (i : Bool) {e : Nat} (he : e < 1536) : Map.find (p.zeroTile t i).acc (1536 * t + e) = none := by
  rw [zeroTile_acc, find_filter_key p.acc (fun k => k / 1536 != t), if_neg]
  have : (1536 * t + e) / 1536 = t := by omega
  simp [this]

theorem zeroTile_other (p : Parts) (t : Nat) (i : Bool) {k : Nat} (hk : k / 1536 ≠ t) : Map.find (p.zeroTile t i).acc k = Map.find p.acc k := by
  rw [zeroTile_acc, find_filter_key p.acc (fun k => k / 1536 != t), if_pos]
  simpa using hk

theorem cmd_setCmd_phase (s : State) (cid : Nat) (u : EUnit) (m : Cmd) : ((s.setCmd cid u m).ctx cid).trap = (s.ctx cid).trap := by
  unfold State.setCmd
  rw [State.ctx_modCtx_same]
  rfl

theorem stopCmd_traps {s : State} {cid : Nat} (u : EUnit) (m : Cmd) (c d : Nat) (fa : Word) (hp : (s.ctx cid).trap.phase = .none) :
    (s.setCmd cid u { m with efault := some ⟨c, d, fa⟩, pre := [] }).Traps (s.stopCmd cid u m c d fa) cid false (m.frame u c d fa) :=
  raise_traps _ _ _ (by rw [cmd_setCmd_phase]; exact hp)

end Sys2Proof.Machine
end

