-- ==== Sys2Proof/Laws/PortProg.lean ====
section
/-! SUPPORT. Port programs on a running lane (R275, R406, R412, R419-R426). -/

namespace Sys2Proof.Machine

open Sys2Proof

theorem portSrc_eq (s : State) (r : PortRun) (c : Nat) : s.pSrc r c = s.laneReg r c := by
  unfold State.pSrc State.laneReg
  unfold State.laneElems
  split_ifs <;> first | rfl | omega

/-- Lane steps that leave every slot as it is. -/
theorem goes_same (s : State) (r r' : PortRun) (f : Map Word → Map Word) (hf : ∀ m, f m = m) : s.LaneGoes { s with portRun := some r' } r r' f := by
  refine ⟨rfl, fun c k => ?_, fun _ => rfl, rfl, fun _ => rfl⟩
  rw [hf]
  split <;> rfl

/-- Lane steps that change the carried registers. -/
theorem goes_carried (s : State) (r r' : PortRun) (f : Map Word → Map Word) :
    s.LaneGoes { s.modSlot r.cid r.slot (fun l => { l with carried := f l.carried }) with portRun := some r' } r r' f := by
  have hc : ∀ c, ({ s.modSlot r.cid r.slot (fun l => { l with carried := f l.carried }) with portRun := some r' } : State).ctx c =
      if c = r.cid then (s.ctx r.cid).modPorts (fun p => { p with slots := Map.put p.slots r.slot { p.slot r.slot with carried := f (p.slot r.slot).carried } }) else s.ctx c := by
    intro c
    have e : ∀ x : State, ({ x with portRun := some r' } : State).ctx c = x.ctx c := fun _ => rfl
    rw [e]
    unfold State.modSlot
    rw [State.ctx_modCtx]
  refine ⟨rfl, fun c k => ?_, fun c => ?_, rfl, fun _ => rfl⟩
  · unfold State.slot
    rw [hc]
    by_cases h : c = r.cid
    · subst h
      rw [if_pos rfl]
      show Map.getD (Map.put (s.ctx r.cid).ports.slots r.slot _) k _ = _
      rw [Map.getD_put]
      by_cases hk : k = r.slot
      · subst hk; rw [if_pos rfl, if_pos ⟨rfl, rfl⟩]
      · rw [if_neg hk, if_neg (fun x => hk x.2)]; rfl
    · rw [if_neg h, if_neg (fun x => h x.1)]
  · rw [hc]
    by_cases h : c = r.cid
    · subst h; rw [if_pos rfl]; rfl
    · rw [if_neg h]

theorem put_gives (s : State) (r : PortRun) (d : Nat) (v : Word) (fl : Fl) : s.LaneGives (s.pPut r d v fl) r d v fl := by
  unfold State.pPut State.LaneGives
  by_cases h1 : d < 8
  · rw [if_pos h1]
    have h1' : d ≤ 7 := by omega
    simp only [if_pos h1']
    exact goes_same s r _ _ (fun m => if_neg (by omega))
  rw [if_neg h1]
  have h1' : ¬ d ≤ 7 := by omega
  by_cases h2 : d < 12
  · rw [if_pos h2]
    have h2' : 8 ≤ d ∧ d ≤ 11 := by omega
    simp only [if_neg h1', if_pos h2']
    exact goes_carried s r _ (fun m => Map.put m (4 * r.lane + (d - 8)) v)
  · rw [if_neg h2]
    have h2' : ¬ (8 ≤ d ∧ d ≤ 11) := by omega
    simp only [if_neg h1', if_neg h2']
    exact goes_same s r _ _ (fun _ => rfl)

theorem portDo_eq {s : State} {r : PortRun} (h : s.portRun = some r) (k : PortRun → State) : s.pDo k = .next (k r) := by
  unfold State.pDo; rw [h]

theorem portRes_gives {s : State} {r : PortRun} (h : s.portRun = some r) (o : PortF) (f : Word → Word → Word → Word × Fl) :
    ∃ t, s.pRes o f = .next t ∧ s.LaneGives t r o.d (f (s.laneReg r o.a) (s.laneReg r o.b) (s.laneReg r o.c)).1
      (f (s.laneReg r o.a) (s.laneReg r o.b) (s.laneReg r o.c)).2 := by
  refine ⟨_, portDo_eq h _, ?_⟩
  simp only [portSrc_eq]
  exact put_gives s r o.d _ _

theorem portM6_eq (o : PortF) : portM6 o = decide (o.m % 2 = 1) := by unfold portM6; rw [Bool.eq_iff_iff]; simp

theorem fault_faults (s : State) (r : PortRun) (k : Nat) (d : Option Nat) : s.LaneFaults (s.pFault r k d) r k d := by
  have g : ∀ r1 : PortRun, s.LaneGives (match d with | some d => s.pPut r1 d 0 fPFT | none => { s with portRun := some (r1.next fPFT) }) r1 (d.getD 15) 0 (2 ^ 12) := by
    intro r1
    have hfl : (fPFT : Fl) = 2 ^ 12 := by decide
    rw [← hfl]
    cases d with
    | some d => exact put_gives _ _ _ _ _
    | none =>
      refine goes_same s _ _ _ (fun m => ?_)
      rw [if_neg]
      simp
  unfold State.LaneFaults State.pFault
  cases hp : r.pf with
  | none => rw [if_pos rfl]; exact g _
  | some f => rw [if_neg (by simp)]; exact g _

theorem lut_eq {s : State} {r : PortRun} (h : s.portRun = some r) (o : PortF) (i : Int)
    (hi : (if portM7 o = true then satI (s.pSrc r o.a).toInt 0 (((s.slot r.cid r.slot).tsz : Int) - 1) else (bitsOf (s.pSrc r o.a) 6 0 : Int)) = i) :
    execPortLut o s = .next (if i < 0 ∨ ((s.slot r.cid r.slot).tsz : Int) ≤ i then s.pPut r o.d 0 fOOR
      else s.pPut r o.d (if portM6 o then sextN 32 (word ((s.slot r.cid r.slot).entry i.toNat)) else word ((s.slot r.cid r.slot).entry i.toNat)) 0) := by
  subst hi
  exact portDo_eq h _

theorem sat_pos (x : Int) (n : Nat) (h : 0 < n) : satI x 0 ((n : Int) - 1) = max 0 (min x ((n : Int) - 1)) := by
  unfold satI; split_ifs <;> omega

theorem sat_out (x : Int) (n : Nat) (h : n = 0) : satI x 0 ((n : Int) - 1) < 0 ∨ (n : Int) ≤ satI x 0 ((n : Int) - 1) := by
  unfold satI; split_ifs <;> omega

theorem sext_entry (e : Nat) : sextN 32 (word e) = (BitVec.ofNat 32 e).signExtend 64 := by
  rw [sextN32]
  congr 1
  unfold word
  apply BitVec.eq_of_toNat_eq
  simp

theorem lut_spec {s : State} {r : PortRun} (h : s.portRun = some r) (o : PortF) : ∃ t v fl, exec (.portLut o) s = .next t ∧ s.LaneGives t r o.d v fl ∧
      let i : Int := if o.m / 2 % 2 = 1 then max 0 (min (s.laneReg r o.a).toInt ((s.slot r.cid r.slot).tsz - 1)) else ((s.laneReg r o.a).toNat % 128 : Nat)
      ((s.slot r.cid r.slot).tsz ≤ i → v = 0 ∧ fl = 2 ^ 9) ∧
      (i < (s.slot r.cid r.slot).tsz → 0 < (s.slot r.cid r.slot).tsz → fl = 0 ∧
        v = if o.m % 2 = 1 then (BitVec.ofNat 32 ((s.slot r.cid r.slot).entry i.toNat)).signExtend 64 else word ((s.slot r.cid r.slot).entry i.toNat)) := by
  have h7 : portM7 o = true ↔ o.m / 2 % 2 = 1 := by unfold portM7; simp
  have h6 : portM6 o = true ↔ o.m % 2 = 1 := by unfold portM6; simp
  have he := lut_eq h o _ rfl
  have hx : exec (.portLut o) s = execPortLut o s := rfl
  rw [hx, he, portSrc_eq, bits_lane]
  simp only [h7, h6, sext_entry]
  generalize s.laneReg r o.a = a
  generalize s.slot r.cid r.slot = l
  by_cases ht : l.tsz = 0
  · refine ⟨_, 0, fOOR, rfl, ?_, fun _ => ⟨rfl, by decide⟩, fun _ h0 => by omega⟩
    rw [if_pos]
    · exact put_gives _ _ _ _ _
    · by_cases hm : o.m / 2 % 2 = 1
      · rw [if_pos hm]; exact sat_out _ _ ht
      · right; rw [if_neg hm, ht]; omega
  · rw [sat_pos _ _ (by omega)]
    generalize hI : (if o.m / 2 % 2 = 1 then max 0 (min a.toInt ((l.tsz : Int) - 1)) else ((a.toNat % 128 : Nat) : Int)) = I
    have hI0 : 0 ≤ I := by rw [← hI]; split_ifs <;> omega
    by_cases hc : (l.tsz : Int) ≤ I
    · refine ⟨_, 0, fOOR, rfl, ?_, fun _ => ⟨rfl, by decide⟩, fun h1 _ => ?_⟩
      · rw [if_pos (.inr hc)]; exact put_gives _ _ _ _ _
      · exact absurd hc (not_le.2 h1)
    · refine ⟨_, (if o.m % 2 = 1 then (BitVec.ofNat 32 (l.entry I.toNat)).signExtend 64 else word (l.entry I.toNat)), 0, rfl, ?_, fun h1 => absurd h1 hc, fun _ _ => ⟨rfl, rfl⟩⟩
      rw [if_neg (by omega)]
      exact put_gives _ _ _ _ _

theorem lpm_spec {s : State} {r : PortRun} (h : s.portRun = some r) (o : PortF) :
    let n := 2 ^ (o.m % 4)
    let at_ := ((s.laneReg r o.a).toNat % 1024 + o.x) % 1024
    let base := 131072 * r.point + 1024 * r.lane + at_
    (at_ % n ≠ 0 → (∃ t, exec (.portLdl o) s = .next t ∧ s.LaneFaults t r 3 (some o.d)) ∧ (∃ t, exec (.portStl o) s = .next t ∧ s.LaneFaults t r 3 none)) ∧
    (at_ % n = 0 →
      (∃ t, exec (.portLdl o) s = .next t ∧ s.LaneGives t r o.d (loaded (decide (o.m / 4 % 2 = 1)) (Mem.read (s.ctx r.cid).ports.lpm base n)) 0) ∧
      (∃ t u : State, exec (.portStl o) s = .next t ∧ u = s.modCtx r.cid (fun c => { c with ports := { c.ports with
          lpm := Mem.write c.ports.lpm base (leBytes n (s.laneReg r o.b).toNat), lpmW := insertNat r.point c.ports.lpmW } }) ∧
        u.LaneGoes t r { r with pc := r.pc + 1 } id)) := by
  have ha : s.pSrc r o.a = s.laneReg r o.a := portSrc_eq s r o.a
  have hb : s.pSrc r o.b = s.laneReg r o.b := portSrc_eq s r o.b
  have hz : ∀ f : Fl, f ||| 0 = f := fun _ => BitVec.or_zero
  have hnext : ∀ q : PortRun, q.next 0 = { q with pc := q.pc + 1 } := by intro q; unfold PortRun.next; rw [hz]
  intro n at_ base
  have hA : lpmAddr (s.pSrc r o.a) o = at_ := by
    unfold lpmAddr; rw [ha]
    have : bitsOf (s.laneReg r o.a) 9 0 = (s.laneReg r o.a).toNat % 1024 := by unfold bitsOf; norm_num
    rw [this]
  have hbase : lpmBase r.point r.lane + at_ = base := rfl
  have hn : lpmSize o = n := rfl
  refine ⟨fun hc => ⟨⟨_, portDo_eq h _, ?_⟩, ⟨_, portDo_eq h _, ?_⟩⟩, fun hc => ⟨⟨_, portDo_eq h _, ?_⟩, ?_⟩⟩
  · dsimp only; rw [hA, hn, if_pos hc]; exact fault_faults _ _ _ _
  · dsimp only; rw [hA, hn, if_pos hc]; exact fault_faults _ _ _ _
  · dsimp only
    rw [hA, hn, if_neg (by omega), hbase]
    have hm : n ∈ [1, 2, 4, 8] := by
      have : o.m % 4 < 4 := Nat.mod_lt _ (by decide)
      have hn' : n = 2 ^ (o.m % 4) := rfl
      generalize o.m % 4 = k at this hn'
      rw [hn']
      interval_cases k <;> simp
    have h8 : portM8 o = decide (o.m / 4 % 2 = 1) := by unfold portM8; rw [Bool.eq_iff_iff]; simp
    have hv : (if portM8 o = true then sextN (8 * n) (leWord (Mem.read (s.ctx r.cid).ports.lpm base n)) else leWord (Mem.read (s.ctx r.cid).ports.lpm base n)) =
        loaded (decide (o.m / 4 % 2 = 1)) (Mem.read (s.ctx r.cid).ports.lpm base n) := by
      rw [h8]
      cases hd : decide (o.m / 4 % 2 = 1)
      · rfl
      · rw [if_pos rfl, ← extend_loaded true n _ (by unfold Mem.read; simp) hm]; rfl
    rw [hv]
    exact put_gives _ _ _ _ _
  · refine ⟨_, s.modCtx r.cid (fun c => { c with ports := { c.ports with lpm := Mem.write c.ports.lpm base (leBytes n (s.laneReg r o.b).toNat), lpmW := insertNat r.point c.ports.lpmW } }),
      portDo_eq h _, rfl, ?_⟩
    dsimp only
    rw [hA, hn, if_neg (by omega), hb, hnext]
    exact goes_same _ _ _ _ (fun _ => rfl)

/-! ### Integers of a width -/

theorem out_low (z : Width) (v : Word) : z.out v = z.low v := by
  cases z
  · rfl
  · exact sextN32 v

theorem out_wrap (z : Width) (v : Word) (i : Int) (h : (v.toNat : Int) % 2 ^ z.bits = i % 2 ^ z.bits) : z.out v = z.wrap i := by
  cases z
  · simp only [Width.out, Width.wrap, Width.bits] at h ⊢
    apply BitVec.eq_of_toNat_eq
    rw [BitVec.toNat_ofInt]
    have := v.isLt
    omega
  · simp only [Width.out, Width.wrap, Width.bits, sextN32] at h ⊢
    congr 1
    apply BitVec.eq_of_toNat_eq
    rw [BitVec.toNat_ofInt, BitVec.toNat_setWidth]
    omega

theorem ofInt_wrap (z : Width) (i : Int) : z.ofInt i = z.wrap i := by
  unfold Width.ofInt
  apply out_wrap
  rw [BitVec.toNat_ofInt]
  cases z <;> simp only [Width.bits] <;> omega

theorem nat_wrap (z : Width) (n : Nat) : z.nat n = z.wrap n := by
  unfold Width.nat
  apply out_wrap
  rw [BitVec.toNat_ofNat]
  cases z <;> simp only [Width.bits] <;> omega

theorem uns_emod (z : Width) (a : Word) : ((z.uns a : Nat) : Int) % 2 ^ z.bits = (a.toNat : Int) % 2 ^ z.bits := by
  unfold Width.uns; push_cast; rw [Int.emod_emod_of_dvd]; exact dvd_refl _

theorem emod64 (z : Width) (n : Nat) : ((n % 2 ^ 64 : Nat) : Int) % 2 ^ z.bits = (n : Int) % 2 ^ z.bits := by
  push_cast
  rw [Int.emod_emod_of_dvd]
  cases z
  · exact dvd_refl _
  · exact ⟨2 ^ 32, by norm_num [Width.bits]⟩

theorem count_uns (z : Width) (b : Word) : z.count b = z.uns b % z.bits := by
  unfold Width.count Width.uns
  have := b.isLt
  cases z <;> simp only [Width.bits] <;> omega

theorem out_add (z : Width) (a b : Word) : z.out (a + b) = z.wrap (z.uns a + z.uns b) := by
  apply out_wrap
  rw [BitVec.toNat_add, emod64]; push_cast; exact Int.ModEq.add (uns_emod z a).symm (uns_emod z b).symm

theorem out_sub (z : Width) (a b : Word) : z.out (a - b) = z.wrap ((z.uns a : Int) - z.uns b) := by
  apply out_wrap
  rw [BitVec.toNat_sub, emod64]
  have : (((2 ^ 64 - b.toNat + a.toNat : Nat) : Int)) % 2 ^ z.bits = ((a.toNat : Int) - b.toNat) % 2 ^ z.bits := by
    have := b.isLt
    cases z <;> simp only [Width.bits] <;> omega
  rw [this]; exact Int.ModEq.sub (uns_emod z a).symm (uns_emod z b).symm

theorem out_mul (z : Width) (a b : Word) : z.out (a * b) = z.wrap (z.uns a * z.uns b) := by
  apply out_wrap
  rw [BitVec.toNat_mul, emod64]; push_cast; exact Int.ModEq.mul (uns_emod z a).symm (uns_emod z b).symm

theorem shlW_wrap (z : Width) (a : Word) (n : Nat) : shlW z a n = z.wrap (z.uns a * 2 ^ n) := by
  unfold shlW
  apply out_wrap
  rw [BitVec.toNat_shiftLeft, Nat.shiftLeft_eq, emod64]
  push_cast
  exact Int.ModEq.mul (uns_emod z a).symm rfl

theorem shrW_wrap (z : Width) (a : Word) (n : Nat) : shrW z a n = z.wrap (z.uns a / 2 ^ n) := by
  unfold shrW; rw [nat_wrap]; push_cast; rfl

theorem sraW_wrap (z : Width) (a : Word) (n : Nat) : sraW z a n = z.wrap (z.sgn a / 2 ^ n) := by
  unfold sraW; rw [ofInt_wrap]

/-! ### Port arithmetic -/

theorem sext6 (x : Nat) : sextN 6 (word x) = (BitVec.ofNat 6 x).signExtend 64 := by
  unfold sextN word
  apply BitVec.eq_of_toNat_eq
  rw [BitVec.toNat_signExtend]
  simp only [BitVec.msb_eq_decide, BitVec.toNat_ofNat]
  have : x % 2 ^ 64 % 2 ^ 6 = x % 2 ^ 6 := by omega
  rw [this]
  have := Nat.mod_lt x (show 0 < 2 ^ 6 by decide)
  split
  · rename_i h; rw [decide_eq_false (by omega)]; simp
  · rename_i h; rw [decide_eq_true (by omega)]; simp; omega

theorem portB_eq (o : PortF) (b : Word) : portB o b = if o.m / 2 % 2 = 1 then (BitVec.ofNat 6 o.x).signExtend 64 else b := by
  unfold portB portM7
  rw [sext6]
  simp

theorem portInt_gives {s : State} {r : PortRun} (h : s.portRun = some r) (o : PortF) (f g : Width → Word → Word → Word) (hfg : ∀ z a b, f z a b = g z a b) :
    ∃ t, s.pInt o f = .next t ∧ s.LaneGives t r o.d
      (g (if o.m % 2 = 1 then .w else .d) (s.laneReg r o.a) (if o.m / 2 % 2 = 1 then (BitVec.ofNat 6 o.x).signExtend 64 else s.laneReg r o.b)) 0 := by
  have h1 : s.pInt o f = s.pRes o (fun a b _ => (g (if o.m % 2 = 1 then .w else .d) a (if o.m / 2 % 2 = 1 then (BitVec.ofNat 6 o.x).signExtend 64 else b), 0)) := by
    unfold State.pInt
    congr 1
    funext a b c
    rw [hfg, portB_eq]
    rfl
  rw [h1]
  exact portRes_gives h o _

theorem portFloat_gives {s : State} {r : PortRun} (h : s.portRun = some r) (o : PortF) (f : Word → Word → Word → Word × Fl) (v : Word) (fl : Fl)
    (hf : f (s.laneReg r o.a) (s.laneReg r o.b) (s.laneReg r o.c) = (v, fl)) : ∃ t, s.pRes o f = .next t ∧ s.LaneGives t r o.d v fl := by
  have := portRes_gives h o f
  rw [hf] at this
  exact this

theorem clear31 (a : Word) : a &&& 0x7FFFFFFF = word (a.toNat % 2 ^ 31) := by
  apply BitVec.eq_of_toNat_eq
  rw [BitVec.toNat_and, show (0x7FFFFFFF : Word).toNat = 2 ^ 31 - 1 from rfl, Nat.and_two_pow_sub_one_eq_mod]
  unfold word
  rw [BitVec.toNat_ofNat]
  omega

theorem flip31 (a : Word) : zextN 32 a ^^^ 0x80000000 = word ((a.toNat + 2 ^ 31) % 2 ^ 32) := by
  apply BitVec.eq_of_getLsbD_eq
  intro i hi
  unfold zextN word
  simp only [BitVec.getLsbD_xor, BitVec.getLsbD_ofNat, hi, decide_true, Bool.true_and]
  rw [show (0x80000000 : Word) = BitVec.ofNat 64 (2 ^ 31) from rfl]
  simp only [BitVec.getLsbD_ofNat, hi, decide_true, Bool.true_and, Nat.testBit_mod_two_pow, Nat.testBit_two_pow]
  by_cases h1 : i < 31
  · rw [Nat.add_comm, Nat.testBit_two_pow_add_gt h1]
    simp [show ¬ 31 = i by omega]
  · by_cases h2 : i = 31
    · subst h2
      rw [Nat.add_comm, Nat.testBit_two_pow_add_eq]
      simp
    · simp [show ¬ i < 32 by omega, show ¬ 31 = i by omega]

theorem condOf_none {x : Nat} (h : 10 ≤ x) : condOf x = none := by
  unfold condOf
  split <;> first | omega | rfl

theorem condOf_get (x : Nat) : [Cond.eq, .ne, .lt, .le, .gt, .ge, .ltu, .leu, .gtu, .geu][x]? = condOf x := by
  by_cases h : 10 ≤ x
  · rw [condOf_none h, List.getElem?_eq_none]; simpa using h
  · have : x < 10 := by omega
    interval_cases x <;> rfl

theorem condOf_six (x : Nat) (c : Cond) (h : [Cond.eq, .ne, .lt, .le, .gt, .ge][x]? = some c) : condOf x = some c := by
  by_cases h6 : 6 ≤ x
  · rw [List.getElem?_eq_none (by simpa using h6)] at h; cases h
  · have : x < 6 := by omega
    interval_cases x <;> exact h

theorem boolWord_ite (b : Bool) : boolWord b = if b = true then 1 else 0 := by cases b <;> rfl

theorem cmp_late (x : Nat) (c : Cond) (hx : 6 ≤ x) (h : condOf x = some c) (fz : Bool) (a b : Word) : f32Cmp c fz a b = false := by
  by_cases h10 : 10 ≤ x
  · rw [condOf_none h10] at h; cases h
  · have : x < 10 := by omega
    interval_cases x <;> cases h <;> rfl

theorem f32Res_fst (fz : Bool) (x : Val × Fl) : (f32Res fz x).1 = f32Out fz x.1 := rfl

theorem exp2_facts (fz : Bool) (x : Val) :
    (x = .nan → (f32Res fz x.exp2).1 = word FFmt.f32.canon) ∧ (x = .inf false → (f32Res fz x.exp2).1 = f32Out fz (.inf false)) ∧
    (x = .inf true → (f32Res fz x.exp2).1 = 0) ∧ (∀ n e, x = .fin n 0 e → (f32Res fz x.exp2).1 = f32Out fz (.fin false 1 0)) ∧
    (∀ n m (k : Nat), x = .fin n m (k : Int) → m ≠ 0 → m * 2 ^ k ≤ 4096 →
      (f32Res fz x.exp2).1 = f32Out fz (.fin false 1 (if n then -((m * 2 ^ k : Nat) : Int) else (m * 2 ^ k : Nat)))) := by
  refine ⟨?_, ?_, ?_, ?_, ?_⟩
  · rintro rfl; rfl
  · rintro rfl; rfl
  · rintro rfl; cases fz <;> decide
  · rintro n e rfl; rfl
  · rintro n m k rfl hm hk
    rw [f32Res_fst]
    congr 1
    have hk12 : k ≤ 20 := by
      by_contra hc
      have h1 : 2 ^ 21 ≤ 2 ^ k := Nat.pow_le_pow_right (by decide) (by omega)
      have h2 : 2 ^ k ≤ m * 2 ^ k := Nat.le_mul_of_pos_left _ (Nat.pos_of_ne_zero hm)
      omega
    unfold Val.exp2
    dsimp only
    rw [if_neg hm, if_pos (by omega)]
    dsimp only
    rw [Int.toNat_natCast, min_eq_left hk12, min_eq_left hk]

theorem log2_facts (fz : Bool) (x : Val) :
    (x = .nan ∨ x = .inf true ∨ (∃ m e, x = .fin true m e ∧ m ≠ 0) → (f32Res fz x.log2).1 = word FFmt.f32.canon) ∧
    (x = .inf false → (f32Res fz x.log2).1 = f32Out fz (.inf false)) ∧ (∀ n e, x = .fin n 0 e → (f32Res fz x.log2).1 = f32Out fz (.inf true)) ∧
    (∀ (k : Nat) e, x = .fin false (2 ^ k) e → (f32Res fz x.log2).1 = f32Out fz (.ofInt (e + k))) := by
  refine ⟨?_, ?_, ?_, ?_⟩
  · rintro (rfl | rfl | ⟨m, e, rfl, hm⟩)
    · rfl
    · rfl
    · rw [f32Res_fst]; unfold Val.log2; dsimp only; rw [if_neg hm, if_pos rfl]; rfl
  · rintro rfl; rfl
  · rintro n e rfl; rfl
  · rintro k e rfl
    rw [f32Res_fst]
    congr 1
    unfold Val.log2
    dsimp only
    rw [if_neg (by positivity), if_neg (by simp), Nat.log2_two_pow, if_pos rfl]

theorem draw_pair (s : State) (r : PortRun) (o : PortF) : s.pDraw r o =
    (if o.x / 16 % 2 = 1 then (some ((s.ctx r.cid).sys.seed r.point r.lane).toNat, s.modCtx r.cid (fun c => { c with sys :=
          { c.sys with seeds := Map.put c.sys.seeds (128 * r.point + r.lane) (lfsrNext (c.sys.seed r.point r.lane)) } })) else (none, s)) := by
  have hd : (s.draw r.cid r.point r.lane).2 = s.modCtx r.cid (fun c => { c with sys :=
          { c.sys with seeds := Map.put c.sys.seeds (128 * r.point + r.lane) (lfsrNext (c.sys.seed r.point r.lane)) } }) := rfl
  unfold State.pDraw
  by_cases h : o.x / 16 % 2 = 1
  · rw [if_pos h, if_pos h, ← hd]; rfl
  · rw [if_neg h, if_neg h]

theorem or_zero (f : Fl) : f ||| 0 = f := BitVec.or_zero

theorem next_zero (q : PortRun) : q.next 0 = { q with pc := q.pc + 1 } := by unfold PortRun.next; rw [or_zero]

theorem get_spec {s : State} {r : PortRun} (h : s.portRun = some r) (o : PortF) :
    ∃ t, exec (.portGet o) s = .next t ∧ s.LaneGives t r o.d (if r.epi then 0 else (r.ins[o.x % 4]?).getD 0) 0 :=
  ⟨_, portDo_eq h _, put_gives _ _ _ _ _⟩

theorem out_spec {s : State} {r : PortRun} (h : s.portRun = some r) (o : PortF) : ∃ t, exec (.portOut o) s = .next t ∧
    s.LaneGoes t r { r with pc := r.pc + 1, outs := if r.epi then r.outs else Map.put r.outs (o.x % 4) (s.laneReg r o.a) } id := by
  refine ⟨_, portDo_eq h _, ?_⟩
  dsimp only
  rw [portSrc_eq, next_zero]
  by_cases he : r.epi = true
  · simp only [if_pos he]; exact goes_same s _ _ _ (fun _ => rfl)
  · simp only [if_neg he]; exact goes_same s _ _ _ (fun _ => rfl)

theorem drop_spec {s : State} {r : PortRun} (h : s.portRun = some r) (o : PortF) : ∃ t, exec (.portDrop o) s = .next t ∧
    s.LaneGoes t r { r with pc := r.pc + 1, drops := if r.epi = true ∨ s.laneReg r o.a = 0 then r.drops
      else r.drops ||| (if o.x % 16 = 0 then 15 else BitVec.ofNat 4 o.x) } id := by
  refine ⟨_, portDo_eq h _, ?_⟩
  dsimp only
  rw [portSrc_eq, next_zero]
  by_cases hc : (r.epi || s.laneReg r o.a == 0) = true
  · have hc' : r.epi = true ∨ s.laneReg r o.a = 0 := by simpa using hc
    simp only [if_pos hc, if_pos hc']
    exact goes_same s _ _ _ (fun _ => rfl)
  · have hc' : ¬ (r.epi = true ∨ s.laneReg r o.a = 0) := by simpa using hc
    simp only [if_neg hc, if_neg hc']
    exact goes_same s _ _ _ (fun _ => rfl)

theorem par_spec {s : State} {r : PortRun} (h : s.portRun = some r) (o : PortF) :
    ∃ t, exec (.portPar o) s = .next t ∧ s.LaneGives t r o.d (Map.getD (s.ctx r.cid).ports.par (o.x % 16) 0) 0 :=
  ⟨_, portDo_eq h _, put_gives _ _ _ _ _⟩

theorem parx_spec {s : State} {r : PortRun} (h : s.portRun = some r) (o : PortF) :
    ∃ t, exec (.portParx o) s = .next t ∧ s.LaneGives t r o.d (Map.getD (s.ctx r.cid).ports.par ((s.laneReg r o.a).toNat % 16) 0) 0 := by
  refine ⟨_, portDo_eq h _, ?_⟩
  rw [portSrc_eq]; exact put_gives _ _ _ _ _

theorem cget_spec {s : State} {r : PortRun} (h : s.portRun = some r) (o : PortF) : ∃ t, exec (.portCget o) s = .next t ∧
    s.LaneGives t r o.d (if r.epi then Map.getD r.atEnd (4 * ((s.laneReg r o.a).toNat % 128 % (s.slot r.cid r.slot).laneCount) + o.x % 4) 0
      else Map.getD (s.slot r.cid r.slot).carried (4 * r.lane + o.x % 4) 0) 0 := by
  refine ⟨_, portDo_eq h _, ?_⟩
  rw [portSrc_eq]; exact put_gives _ _ _ _ _

theorem cset_spec {s : State} {r : PortRun} (h : s.portRun = some r) (o : PortF) : ∃ t, exec (.portCset o) s = .next t ∧
    s.LaneGoes t r { r with pc := r.pc + 1 } (fun m => if s.laneReg r o.a = 0 then m else Map.put m (4 * r.lane + o.x % 4) (s.laneReg r o.b)) := by
  refine ⟨_, portDo_eq h _, ?_⟩
  dsimp only
  rw [portSrc_eq, portSrc_eq, next_zero]
  by_cases hc : s.laneReg r o.a = 0
  · rw [if_pos hc]
    exact goes_same s _ _ _ (fun m => if_pos hc)
  · rw [if_neg hc]
    simp only [if_neg hc]
    exact goes_carried s r _ (fun m => Map.put m (4 * r.lane + o.x % 4) (s.laneReg r o.b))

theorem prev_spec {s : State} {r : PortRun} (h : s.portRun = some r) (o : PortF) : ∃ t v, exec (.portPrev o) s = .next t ∧ s.LaneGives t r o.d v 0 ∧
    (r.epi = true → v = 0) ∧
    (r.epi = false → (∀ x ∈ (s.slot r.cid r.slot).prev, x.1 + min (o.x % 4 + 1) 3 ≠ (s.slot r.cid r.slot).base + r.ix) → v = Map.getD (s.ctx r.cid).ports.par 15 0) ∧
    (r.epi = false → ∀ x, (s.slot r.cid r.slot).prev.find? (fun h => h.1 + min (o.x % 4 + 1) 3 = (s.slot r.cid r.slot).base + r.ix) = some x → v = x.2.2) := by
  refine ⟨_, _, portDo_eq h _, put_gives _ _ _ _ _, fun he => if_pos he, fun he hn => ?_, fun he x hx => ?_⟩
  · rw [if_neg (by rw [he]; simp)]
    have : (s.slot r.cid r.slot).prev.find? (fun h => decide (h.1 + min (o.x % 4 + 1) 3 = (s.slot r.cid r.slot).base + r.ix)) = none := by
      rw [List.find?_eq_none]; intro x hx; simpa using hn x hx
    rw [this]; rfl
  · rw [if_neg (by rw [he]; simp)]
    rw [hx]

theorem flag_spec {s : State} {r : PortRun} (h : s.portRun = some r) (o : PortF) : ∃ t, exec (.portFlag o) s = .next t ∧
    s.LaneGoes t r { r with pc := r.pc + 1, flags := r.flags |||
      (if s.laneReg r o.a ≠ 0 ∧ 1 ≤ o.x % 16 ∧ o.x % 16 ≤ 14 then BitVec.ofNat 15 (2 ^ (o.x % 16)) else 0) } id := by
  refine ⟨_, portDo_eq h _, ?_⟩
  rw [portSrc_eq]
  generalize s.laneReg r o.a = a
  dsimp only
  have hf : (if a = 0 ∨ o.x % 16 = 0 ∨ o.x % 16 = 15 then (0 : Fl) else BitVec.ofNat 15 (2 ^ (o.x % 16))) =
      if a ≠ 0 ∧ 1 ≤ o.x % 16 ∧ o.x % 16 ≤ 14 then BitVec.ofNat 15 (2 ^ (o.x % 16)) else 0 := by
    have := Nat.mod_lt o.x (show 0 < 16 by decide)
    by_cases h0 : a = 0
    · rw [if_pos (.inl h0), if_neg (fun x => x.1 h0)]
    · by_cases h1 : o.x % 16 = 0 ∨ o.x % 16 = 15
      · rw [if_pos (.inr h1), if_neg (by rintro ⟨_, x, y⟩; omega)]
      · rw [if_neg (by tauto), if_pos ⟨h0, by omega, by omega⟩]
  rw [← hf]
  exact goes_same s _ _ _ (fun _ => rfl)

theorem hint_spec {s : State} {r : PortRun} (h : s.portRun = some r) (n : Nat) (o : PortF) :
    ∃ t, exec (.portHint n o) s = .next t ∧ s.LaneGoes t r { r with pc := r.pc + 1 } id := by
  refine ⟨_, portDo_eq h _, ?_⟩
  rw [next_zero]
  exact goes_same s _ _ _ (fun _ => rfl)

end Sys2Proof.Machine
end

