-- ==== Sys2Proof/Laws/HostRegs.lean ====
section
/-! SUPPORT. The registers that a host port reads and writes (R26, R33, R38, R41-R46, R49). -/

namespace Sys2Proof.Machine

open Sys2Proof

theorem bitOf_lsb (v : Word) (n : Nat) : bitOf v n = v.getLsbD n := by
  unfold bitOf
  rw [BitVec.getLsbD, Nat.testBit_eq_decide_div_mod_eq]
  rw [Bool.eq_iff_iff]; simp

theorem owns_iff (s : State) (port : Nat) : s.owns port = true ↔ s.Owner port := by
  unfold State.owns State.Owner; simp

theorem ownWrite_eq (s : State) (port : Nat) (v : Word) : s.ownWrite port v = if s.Owner port ∧ v = 1 then { s with mgmt := { s.mgmt with held := false } } else s := by
  unfold State.ownWrite
  have : (s.owns port && v == 1) = true ↔ s.Owner port ∧ v = 1 := by rw [Bool.and_eq_true, owns_iff]; simp
  simp only [this]

theorem hbWrite_eq (s : State) (port : Nat) : s.hbWrite port = if s.Owner port then { s with mgmt := { s.mgmt with leftMs := 10000 } } else s := by
  unfold State.hbWrite
  simp only [owns_iff]
  rfl

theorem ownRead_eq (s : State) : exec .mgmtOwnRead s = .next { s with
      host := { s.host with poison := false, rdata := leBytes 8 (if s.mgmt.held then 1 + 2 * s.mgmt.owner + (if s.mgmt.owner = s.cur.port then 4 else 0) else 2 * s.mgmt.owner) }
      mgmt := if s.mgmt.held then s.mgmt else { s.mgmt with held := true, owner := s.cur.port, leftMs := 10000 } } := by
  have le : ∀ n : Nat, leBytes 8 (word n).toNat = leBytes 8 n := by
    intro n
    exact leBytes_mod 8 _ _ (by unfold word; simp)
  have h1 : leBytes 8 (s.ownWord s.cur.port).toNat = leBytes 8 (if s.mgmt.held then 1 + 2 * s.mgmt.owner + (if s.mgmt.owner = s.cur.port then 4 else 0) else 2 * s.mgmt.owner) := by
    unfold State.ownWord
    by_cases h : s.mgmt.held = true
    · rw [if_pos h, if_pos h, le]
    · rw [if_neg h, if_neg h, le]
  show execMgmtOwnRead s = _
  unfold execMgmtOwnRead
  dsimp only
  rw [h1]
  by_cases h : s.mgmt.held = true
  · rw [if_pos h]; simp only [if_pos h]
  · rw [if_neg h]; simp only [if_neg h]; rfl

theorem lapse_eq (s : State) : (s.clk < (s.mgmt.ticks + 1) * msClk → exec .ownershipLapse s = .next s) ∧
    ((s.mgmt.ticks + 1) * msClk ≤ s.clk → exec .ownershipLapse s = .next { s with
      mgmt := { s.mgmt with ticks := s.mgmt.ticks + 1, leftMs := if s.mgmt.held then s.mgmt.leftMs - 1 else s.mgmt.leftMs,
                            held := if s.mgmt.leftMs - 1 = 0 then false else s.mgmt.held } }) := by
  have hm : 0 < msClk := by decide
  refine ⟨fun h => if_pos ?_, fun h => ?_⟩
  · have := (Nat.div_lt_iff_lt_mul hm).2 h; omega
  · have h1 := (Nat.le_div_iff_mul_le hm).2 h
    show execOwnershipLapse s = _
    unfold execOwnershipLapse Mgmt.tick
    rw [if_neg (by omega)]
    cases s.mgmt.held <;> by_cases hl : s.mgmt.leftMs - 1 = 0 <;> simp [hl]

theorem mgmt_out (s : State) (port off : Nat) (v : Word) (h : ¬ s.Owner port) (ho : off ≠ 0x2018) : s.mgmtWrite port off v = s := by
  have h' : s.owns port = false := by rw [← Bool.not_eq_true, owns_iff]; exact h
  unfold State.mgmtWrite
  rw [ownWrite_eq, hbWrite_eq, if_neg (fun x : s.Owner port ∧ v = 1 => h x.1), if_neg h, if_neg ho, h']
  rw [if_pos (show (!false) = true from rfl)]
  simp only [ite_self]

theorem staged (s : State) (port off : Nat) (v : Word) (h : s.Owner port) (h1 : 0x1000000 ≤ off) (h2 : off < 0x3000000) (h3 : off % 8 = 0) :
    s.mgmtWrite port off v = { s with boot := { s.boot with staging := Mem.write s.boot.staging (off - 0x1000000) (leBytes 8 v.toNat) } } := by
  have h' := (owns_iff s port).2 h
  unfold State.mgmtWrite stagingBase
  simp (disch := omega) only [if_neg, if_pos, h', Bool.not_true, Bool.false_eq_true, if_false]

theorem owned_at (s : State) (port off : Nat) (v : Word) (h : s.Owner port) (h1 : off % 8 = 0) (h2 : off ≠ 0x100) (h3 : off ≠ 0x108) (h4 : off ≠ 0x2018) :
    s.mgmtWrite port off v = (if off = 0x208 then (if bitOf v 31 then { s with boot := { s.boot with whyV := false } } else s)
      else if off = 0x218 then s.ctlWrite port v
      else if off = 0x300 then
        (if s.net.links.any (fun x => x.2.state == 1 || x.2.state == 2) then s
         else { s with net := { s.net with devid := bitsOf v 6 0 } })
      else if 0x400 ≤ off ∧ off < 0x400 + 8 * 24 then s.cfgWrite ((off - 0x400) / 8) v
      else if off = 0x2000 then s.capWrite v
      else if stagingBase ≤ off ∧ off < stagingBase + 2 ^ 25 then
        { s with boot := { s.boot with staging := Mem.write s.boot.staging (off - stagingBase) (leBytes 8 v.toNat) } }
      else s) := by
  have h' := (owns_iff s port).2 h
  unfold State.mgmtWrite
  rw [if_neg (by omega), if_neg h2, if_neg h3, if_neg h4, if_neg (by rw [h']; simp)]

theorem reg_zero (port off : Nat) (v : Word) (s : State) : exec (.registerWrite port 0 off 8 v) s = .next (s.mgmtWrite port off v) := rfl
theorem reg_two (port off size : Nat) (v : Word) (s : State) : exec (.registerWrite port 2 off size v) s = .next (s.bar2Write port off size v) := rfl

end Sys2Proof.Machine
end

