-- ==== Sys2Proof/Laws/Mailbox.lean ====
section
/-! SUPPORT. The mailbox commands (R46-R48, R58-R65). -/

namespace Sys2Proof.Machine

open Sys2Proof

theorem bitsOf_div (w : Word) (n : Nat) (h : n < 64) : bitsOf w 63 n = w.toNat / 2 ^ n := by
  unfold bitsOf
  apply Nat.mod_eq_of_lt
  rw [Nat.div_lt_iff_lt_mul (by positivity), ← pow_add, show 63 + 1 - n + n = 64 by omega]
  exact w.isLt

theorem high_zero (w : Word) (n : Nat) (h : n < 64) : bitsOf w 63 n ≠ 0 ↔ 2 ^ n ≤ w.toNat := by
  rw [bitsOf_div w n h]
  have : 0 < w.toNat / 2 ^ n ↔ 2 ^ n ≤ w.toNat := Nat.div_pos_iff.trans ⟨fun x => x.2, fun x => ⟨by positivity, x⟩⟩
  rw [← this, Nat.pos_iff_ne_zero]

theorem op_eq (p : PortSt) : p.op = (p.arg 0).toNat % 256 := by unfold PortSt.op bitsOf; norm_num

theorem command_gate (s : State) (op : Nat) (k : Nat → PortSt → State) (ow : Bool) (h : ¬ s.Runs op) : s.command op ow k = .next s := by
  unfold State.command
  dsimp only
  rw [if_pos]
  by_contra hc
  apply h
  rw [op_eq] at hc
  simp only [Bool.or_eq_true, Bool.not_eq_true', bne_iff_ne, not_or, Bool.not_eq_false, not_not, Option.isSome_iff_ne_none, ne_eq] at hc
  exact ⟨hc.1.1, hc.1.2, hc.2⟩

theorem command_go {s : State} {op : Nat} (h : s.Runs op) (k : Nat → PortSt → State) (ow : Bool) :
    s.command op ow k = if 256 ≤ ((s.hport s.cur.port).arg 0).toNat then .next (s.answered 1 []) else
      if ow = true ∧ (s.hport s.cur.port).owned = false then .next (s.answered 2 []) else .next (k s.cur.port (s.hport s.cur.port)) := by
  obtain ⟨h1, h2, h3⟩ := h
  unfold State.command
  dsimp only
  rw [if_neg (by rw [op_eq, h1, h2, h3]; simp)]
  have e1 : (bitsOf ((s.hport s.cur.port).arg 0) 63 8 ≠ 0) = (256 ≤ ((s.hport s.cur.port).arg 0).toNat) := propext (high_zero _ 8 (by decide))
  have e2 : ((ow && !(s.hport s.cur.port).owned) = true) = (ow = true ∧ (s.hport s.cur.port).owned = false) := by simp
  simp only [e1, e2]
  rfl

theorem command_bad {s : State} {op : Nat} (h : s.Runs op) (hb : 256 ≤ ((s.hport s.cur.port).arg 0).toNat) (k : Nat → PortSt → State) (ow : Bool) :
    s.command op ow k = .next (s.answered 1 []) := by rw [command_go h, if_pos hb]

theorem command_own {s : State} {op : Nat} (h : s.Runs op) (hb : ((s.hport s.cur.port).arg 0).toNat < 256) (k : Nat → PortSt → State) (ho : (s.hport s.cur.port).owned = false) :
    s.command op true k = .next (s.answered 2 []) := by rw [command_go h, if_neg (by omega), if_pos ⟨rfl, ho⟩]

theorem command_well {s : State} {op : Nat} {ow : Bool} (h : s.RunsWell op ow) (k : Nat → PortSt → State) :
    s.command op ow k = .next (k s.cur.port (s.hport s.cur.port)) := by
  obtain ⟨h1, h2, h3⟩ := h
  rw [command_go h1, if_neg (by omega), if_neg (by rintro ⟨x, y⟩; rw [h3 x] at y; cases y)]

theorem slotArg_iff (w : Word) : slotArg w = true ↔ 1 ≤ w.toNat ∧ w.toNat ≤ 511 := by unfold slotArg; simp

theorem slotKey_find (s : State) (n : Nat) : s.slotKey n = Map.find s.mem.keys n := rfl

theorem keyld_eq {s : State} (h : s.RunsWell 1 true) : exec .keyld s = .next
    (if !slotArg ((s.hport s.cur.port).arg 8) then s.fail s.cur.port eBadArg
     else match Config.keyUnwrap (Mem.read (s.hport s.cur.port).cmd 0x40 72) with
      | none => s.fail s.cur.port eAuth
      | some k => (s.setKey ((s.hport s.cur.port).arg 8).toNat (some (.loaded k))).done s.cur.port []) := by
  show execKeyld s = _; unfold execKeyld; rw [command_well h]; all_goals rfl

theorem keyclr_eq {s : State} (h : s.RunsWell 2 true) : exec .keyclr s = .next
    (if !slotArg ((s.hport s.cur.port).arg 8) then s.fail s.cur.port eBadArg
     else if (s.slotKey ((s.hport s.cur.port).arg 8).toNat).isNone then s.fail s.cur.port eNotFound
     else (s.setKey ((s.hport s.cur.port).arg 8).toNat none).done s.cur.port []) := by
  show execKeyclr s = _; unfold execKeyclr; rw [command_well h]

theorem hkey_eq {s : State} (h : s.RunsWell 3 true) : exec .hkey s = .next
    (if 7 < ((s.hport s.cur.port).arg 8).toNat ∨ 511 < ((s.hport s.cur.port).arg 0x10).toNat then s.fail s.cur.port eBadArg
     else if ((s.hport s.cur.port).arg 0x10).toNat ≠ 0 ∧ (s.slotKey ((s.hport s.cur.port).arg 0x10).toNat).isNone then s.fail s.cur.port eNotFound
     else (s.setHport s.cur.port { s.hport s.cur.port with hdm := Map.put (s.hport s.cur.port).hdm ((s.hport s.cur.port).arg 8).toNat ((s.hport s.cur.port).arg 0x10).toNat }).done s.cur.port []) := by
  show execHkey s = _; unfold execHkey; rw [command_well h]

theorem codekey_eq {s : State} (h : s.RunsWell 4 true) : exec .codekey s = .next
    (if 7 < ((s.hport s.cur.port).arg 8).toNat then s.fail s.cur.port eBadArg
     else State.done { s with host := { s.host with codeKeys := Map.put s.host.codeKeys ((s.hport s.cur.port).arg 8).toNat (Mem.read (s.hport s.cur.port).cmd 0x40 388) } } s.cur.port []) := by
  show execCodekey s = _; unfold execCodekey; rw [command_well h]

theorem coderel_eq {s : State} (h : s.RunsWell 0x11 false) : exec .coderel s = .next
    (if bitsOf ((s.hport s.cur.port).arg 8) 63 16 ≠ 0 then s.fail s.cur.port eBadArg
     else match Map.find s.host.objs ((s.hport s.cur.port).arg 8).toNat with
      | none => s.fail s.cur.port eNotFound
      | some o => if s.objUsed o then s.fail s.cur.port eBusy
        else State.done { s with host := { s.host with objs := Map.del s.host.objs ((s.hport s.cur.port).arg 8).toNat } } s.cur.port []) := by
  show execCoderel s = _; unfold execCoderel; rw [command_well h]; all_goals rfl

theorem codest_eq {s : State} (h : s.RunsWell 0x12 false) : exec .codest s = .next
    (if bitsOf ((s.hport s.cur.port).arg 8) 63 16 ≠ 0 then s.fail s.cur.port eBadArg
     else match Map.find s.host.objs ((s.hport s.cur.port).arg 8).toNat with
      | none => s.fail s.cur.port eNotFound
      | some o => s.done s.cur.port [if o.revoked then 1 else 0, word o.loaded.length]) := by
  show execCodest s = _; unfold execCodest; rw [command_well h]; all_goals rfl

theorem attest_eq {s : State} (h : s.RunsWell 0x30 false) : exec .attest s = .next
    (if ((s.hport s.cur.port).arg 8).toNat % 64 ≠ 0 then s.fail s.cur.port eBadArg
     else State.done { s with host := { s.host with mem := Mem.write s.host.mem (hostAddr s.cur.port ((s.hport s.cur.port).arg 8).toNat) (s.report (Mem.read (s.hport s.cur.port).cmd 0x40 32) ++ sliceB (Config.attestRsa (s.report (Mem.read (s.hport s.cur.port).cmd 0x40 32))) 0 384 ++ sliceB (Config.attestSlh (s.report (Mem.read (s.hport s.cur.port).cmd 0x40 32))) 0 16224) } } s.cur.port []) := by
  show execAttest s = _; unfold execAttest; rw [command_well h]

theorem xreg_eq {s : State} (h : s.RunsWell 0x20 false) : exec .xreg s = .next
    (if ((s.hport s.cur.port).arg 8).toNat % 65536 ≠ 0 ∨ ((s.hport s.cur.port).arg 0x10).toNat % 65536 ≠ 0 ∨ ((s.hport s.cur.port).arg 0x10).toNat < 65536 ∨
        2 ^ 40 < ((s.hport s.cur.port).arg 0x10).toNat ∨ bitsOf ((s.hport s.cur.port).arg 0x18) 63 2 ≠ 0 then s.fail s.cur.port eBadArg
     else match freeExport s.host.exports s.cur.port with
      | none => s.fail s.cur.port eNoSpace
      | some i => State.done { s with host := { s.host with exports := Map.put s.host.exports (s.cur.port * 2 ^ 15 + i) (Export.mk s.cur.port ((s.hport s.cur.port).arg 8).toNat ((s.hport s.cur.port).arg 0x10).toNat (bitOf ((s.hport s.cur.port).arg 0x18) 0) (bitOf ((s.hport s.cur.port).arg 0x18) 1)) } } s.cur.port [word (s.cur.port * 2 ^ 15 + i)]) := by
  show execXreg s = _; unfold execXreg; rw [command_well h]; all_goals rfl

theorem xdel_eq {s : State} (h : s.RunsWell 0x21 false) : exec .xdel s = .next
    (let a := (s.hport s.cur.port).arg 8
     if bitsOf a 63 16 ≠ 0 ∨ bitsOf a 14 8 ≠ 0 then s.fail s.cur.port eBadArg
     else match Map.find s.host.exports a.toNat with
      | none => s.fail s.cur.port eNotFound
      | some x =>
        let u := (s.unmap a.toNat).setHport s.cur.port { s.hport s.cur.port with xdel := some (x.port, x.bus, x.len) }
        State.done { u with host := { u.host with exports := Map.del u.host.exports a.toNat } } s.cur.port []) := by
  show execXdel s = _; unfold execXdel; rw [command_well h]; all_goals rfl

theorem codereg_eq {s : State} (h : s.RunsWell 0x10 false) : exec .codereg s = .next
    (let port := s.cur.port
     let p := s.hport port
     let hd := Mem.read s.host.mem (hostAddr port (p.arg 8).toNat) 64
     let n := leNat (sliceB hd 8 4)
     if bitsOf (p.arg 0x18) 63 1 ≠ 0 ∨ !signedOk hd then s.fail s.cur.port eBadArg
     else match Map.find s.host.codeKeys (leNat (sliceB hd 6 2)) with
      | none => s.fail s.cur.port eAuth
      | some key =>
        if !Config.rsaVerify (key.take 384) (key.drop 384) (Mem.read s.host.mem (hostAddr port (p.arg 8).toNat) (0x40 + 48 * n))
            (Mem.read s.host.mem (hostAddr port ((p.arg 8).toNat + 0x40 + 48 * n)) 384) then s.fail s.cur.port eAuth
        else if 1024 ≤ s.host.objs.length ∨ 65536 < s.codePages + n then s.fail s.cur.port eNoSpace
        else
          match (if bitOf (p.arg 0x18) 0 then s.loadAll (List.range n) (s.newObj port (p.arg 8).toNat (p.arg 0x10).toNat) else some (s.newObj port (p.arg 8).toNat (p.arg 0x10).toNat)) with
          | none => s.fail s.cur.port eAuth
          | some o => State.done { s with host := { s.host with objs := Map.put s.host.objs (freeHandle s.host.objs 0) o, nextBase := s.host.nextBase + 65536 * n } } s.cur.port [word (freeHandle s.host.objs 0), word o.base]) := by
  show execCodereg s = _; unfold execCodereg; rw [command_well h]; all_goals rfl

theorem mem_insertNat (n : Nat) (l : List Nat) : ∀ x, x = n ∨ x ∈ l → x ∈ insertNat n l := by
  induction l with
  | nil => intro x; simp [insertNat]
  | cons y ys ih =>
    intro x hx
    unfold insertNat
    split_ifs with h1 h2
    · subst h1; simp only [List.mem_cons] at hx ⊢; tauto
    · simp only [List.mem_cons] at hx ⊢; exact hx
    · simp only [List.mem_cons] at hx ⊢
      rcases hx with hx | hx | hx
      · exact .inr (ih x (.inl hx))
      · exact .inl hx
      · exact .inr (ih x (.inr hx))

theorem mail_row {s : State} {i : Instr} {op : Nat} {ow : Bool} {k : Nat → PortSt → State} (hx : exec i s = s.command op ow k) :
    (¬ s.Runs op → exec i s = .next s) ∧
    (s.Runs op → 256 ≤ ((s.hport s.cur.port).arg 0).toNat → exec i s = .next (s.answered 1 [])) ∧
    (s.Runs op → ((s.hport s.cur.port).arg 0).toNat < 256 → ow = true → (s.hport s.cur.port).owned = false → exec i s = .next (s.answered 2 [])) := by
  rw [hx]
  refine ⟨fun h => command_gate s _ _ _ h, fun h hb => command_bad h hb _ _, fun h hb ho hn => ?_⟩
  subst ho
  exact command_own h hb _ hn

/-- Loading all pages of an object (EAGER): nothing where one fails its hash. -/
theorem loadAll_none (s : State) (ps : List Nat) : ∀ o : CodeObj, (∃ p ∈ ps, o.hashes[p]? ≠ some (Config.sha384 (s.pageBytes o p))) → s.loadAll ps o = none := by
  induction ps with
  | nil => rintro o ⟨p, hp, _⟩; cases hp
  | cons q qs ih =>
    rintro o ⟨p, hp, hx⟩
    unfold State.loadAll
    dsimp only
    by_cases hq : o.pageOk q (s.pageBytes o q) = true
    · rw [if_pos hq]
      apply ih
      refine ⟨p, ?_, hx⟩
      rcases List.mem_cons.1 hp with rfl | hp
      · exfalso; apply hx; unfold CodeObj.pageOk at hq; simpa using hq
      · exact hp
    · rw [if_neg hq]

theorem loadAll_some (s : State) (ps : List Nat) : ∀ o : CodeObj, (∀ p ∈ ps, o.hashes[p]? = some (Config.sha384 (s.pageBytes o p))) →
    ∃ o', s.loadAll ps o = some o' ∧ (∀ p, p ∈ ps ∨ p ∈ o.loaded → p ∈ o'.loaded) ∧ o'.hashes = o.hashes ∧ o'.base = o.base := by
  induction ps with
  | nil => intro o _; exact ⟨o, rfl, by simp, rfl, rfl⟩
  | cons q qs ih =>
    intro o hx
    obtain ⟨o', h1, h2, h3, h4⟩ := ih (o.load q (s.pageBytes o q)) (fun p hp => hx p (List.mem_cons_of_mem _ hp))
    refine ⟨o', ?_, fun p hp => h2 p ?_, h3, h4⟩
    · unfold State.loadAll
      dsimp only
      rw [if_pos]
      · exact h1
      · unfold CodeObj.pageOk; rw [hx q List.mem_cons_self]; simp
    · rcases hp with hp | hp
      · rcases List.mem_cons.1 hp with rfl | hp
        · exact .inr (mem_insertNat _ _ _ (.inl rfl))
        · exact .inl hp
      · exact .inr (mem_insertNat _ _ _ (.inr hp))

theorem freeExport_some (m : Map Export) (port i : Nat) (hi : i < 256) (hf : Map.find m (port * 2 ^ 15 + i) = none) (hl : ∀ j < i, Map.find m (port * 2 ^ 15 + j) ≠ none) :
    freeExport m port = some i := by
  unfold freeExport
  rw [List.find?_range_eq_some]
  refine ⟨by rw [hf]; rfl, List.mem_range.2 hi, fun j hj => ?_⟩
  have := hl j hj
  cases hx : Map.find m (port * 2 ^ 15 + j)
  · exact absurd hx this
  · rfl

theorem freeExport_none (m : Map Export) (port : Nat) (hl : ∀ j < 256, Map.find m (port * 2 ^ 15 + j) ≠ none) : freeExport m port = none := by
  unfold freeExport
  rw [List.find?_eq_none]
  intro j hj
  have := hl j (List.mem_range.1 hj)
  cases hx : Map.find m (port * 2 ^ 15 + j)
  · exact absurd hx this
  · simp

end Sys2Proof.Machine
end

