-- ==== Sys2Proof/Laws/Boot.lean ====
section
/-! SUPPORT. Boot stages, resets and BOOT.CTL (R27-R34). -/

namespace Sys2Proof.Machine

open Sys2Proof

theorem restart_resets (s : State) : s.Resets s.restart s.boot := by
  unfold State.Resets State.restart State.cleared Boot.again
  dsimp only
  by_cases h : 3 ≤ s.boot.tries ∨ s.boot.fminPending = true
  · rw [if_pos h, if_pos h]
  · rw [if_neg h, if_neg h]
    by_cases ha : s.boot.attemptOpen = true
    · rw [if_pos ha, if_pos ha]; rfl
    · rw [if_neg ha, if_neg ha]

theorem resets_boot (s : State) (b : Boot) : s.Resets (State.restart { s with boot := b }) b := restart_resets { s with boot := b }

theorem bootFail_fails (s : State) (n r d : Nat) : s.StartFails (s.bootFail n r d) n r d :=
  resets_boot s _

theorem afterBusy_frees (s : State) (h : s.boot.busy = false) : s.FreesBusy s.afterBusy := by
  refine ⟨fun hn => ?_, fun p hp => ?_⟩
  · unfold State.afterBusy; rw [hn]
  · have : s.afterBusy = s.rstBy p := by unfold State.afterBusy; rw [hp]
    rw [this]
    unfold State.rstBy
    rw [if_neg (by rw [h]; simp)]
    refine ⟨fun ha => ?_, fun ha => ?_⟩
    · rw [if_pos ha]; exact bootFail_fails _ _ _ _
    · rw [if_neg (by rw [ha]; simp)]; exact restart_resets _

theorem ready7_eq (s : State) : s.ready7 = s.readied := by
  unfold State.ready7 State.readied
  dsimp only
  have : (Config.imgRaise s.boot.running && decide (s.boot.fuse < Config.imgVersion s.boot.running)) = true ↔
      Config.imgRaise s.boot.running = true ∧ s.boot.fuse < Config.imgVersion s.boot.running := by simp
  simp only [this]

/-- BOOT_STAGE by stage. -/
theorem stage0 {s : State} (h : s.boot.stage = 0) : execBootStage none s = .next s.nextStage := by simp only [execBootStage, h]

theorem stage1 {s : State} (h : s.boot.stage = 1) : execBootStage none s = if s.brokenFetch || !Config.imgHeaderOk s.boot.nor || decide (64 < Config.imgVersion s.boot.nor) then .next (s.bootFail 1 3 0) else .next s.nextStage := by
  simp only [execBootStage, h]

theorem stage345 {s : State} (h : s.boot.stage = 3 ∨ s.boot.stage = 4 ∨ s.boot.stage = 5) :
    execBootStage none s = if s.boot.fwSince + fwLimit < s.clk then .next (s.bootFail s.boot.stage 9 s.boot.stage) else .next s.nextStage := by
  rcases h with h | h | h <;> simp only [execBootStage, h]

theorem stage6 {s : State} (h : s.boot.stage = 6) : execBootStage none s = if s.pastMark then .next s.failTraining.ready7 else if s.net.links.any (fun x => x.2.state == 1) then .next s else .next s.ready7 := by
  simp only [execBootStage, h]

theorem stage_two {s : State} (h : s.boot.stage = 2) : execBootStage none s = if s.boot.norBroken then .next (s.bootFail 2 7 0)
    else match verifyFail s.boot.running s.boot.fuse with
      | some (r, d) => .next (s.bootFail 2 r d)
      | none => .next s.nextStage := by
  unfold execBootStage
  dsimp only
  rw [h]
  rfl

theorem stage_some {s : State} {n : Nat} (h : s.boot.stage = n) (d : Nat) : (n = 0 → execBootStage (some (1, d)) s = .next (s.bootFail 0 1 0)) ∧
    (n = 1 → execBootStage (some (2, d)) s = .next (s.bootFail 1 2 (d % 65536))) ∧ (n = 4 → execBootStage (some (0x0A, d)) s = .next (s.bootFail 4 0x0A (d % 65536))) ∧
    (n = 5 → execBootStage (some (0x0B, d)) s = .next (s.bootFail 5 0x0B (d % 65536))) := by
  unfold execBootStage
  dsimp only
  rw [h]
  refine ⟨?_, ?_, ?_, ?_⟩ <;> rintro rfl <;> rfl

theorem dropRoutes_eq (s : State) (p : Nat → Bool) : s.dropRoutes p = s.unrouted p := by
  simp only [State.dropRoutes, State.unrouted, Bool.and_eq_true]

theorem nextStage_eq {s : State} {n : Nat} (h : s.boot.stage = n) : (n ≠ 1 → n ≠ 2 → n ≠ 5 → s.nextStage = { s with boot := { s.boot with stage := n + 1, lastStage := n + 1 } }) ∧
    (n = 1 → s.nextStage = { s with boot := { s.boot with stage := 2, lastStage := 2, running := s.boot.nor } }) ∧
    (n = 2 → s.nextStage = { s with boot := { s.boot with stage := 3, lastStage := 3, fwSince := s.clk, sver := Config.imgVersion s.boot.running } }) ∧
    (n = 5 → s.nextStage = State.unrouted { s with boot := { s.boot with stage := 6, lastStage := 6 }, mem := { s.mem with hbm := [], unitKey := [], poison := [], weak := [], clus := [], clusW := [], chip := [], tags := [] }, net := { s.net with links := s.net.links.map (fun x : Nat × Link => (x.1, if x.2.en = true then { x.2 with state := 1, lanes := 0 } else x.2)) } } (fun n => (s.link n).en)) := by
  unfold State.nextStage
  dsimp only
  rw [h]
  refine ⟨fun h1 h2 h5 => ?_, ?_, ?_, ?_⟩
  · rw [if_neg (by omega), if_neg (by omega), if_neg (by omega)]
  · rintro rfl; rfl
  · rintro rfl; rfl
  · rintro rfl
    rw [if_neg (by decide), if_neg (by decide), if_pos (by decide)]
    unfold State.trainAll State.scrub
    rw [dropRoutes_eq]
    rfl

theorem verify_spec (img : Mem) (fuse : Nat) :
    let ks := (Config.imgRsaKeyOk img, Config.imgSlhKeyOk img)
    let ss := (Config.imgRsaSigOk img, Config.imgSlhSigOk img)
    (verifyFail img fuse = none ↔ ks = (true, true) ∧ ss = (true, true) ∧ fuse ≤ Config.imgVersion img) ∧
    (ks = (false, true) → verifyFail img fuse = some (4, 0)) ∧ (ks = (true, false) → verifyFail img fuse = some (4, 1)) ∧
    (ks = (false, false) → verifyFail img fuse = some (4, 2)) ∧
    (ks = (true, true) → ss = (false, true) → verifyFail img fuse = some (5, 0)) ∧ (ks = (true, true) → ss = (true, false) → verifyFail img fuse = some (6, 0)) ∧
    (ks = (true, true) → ss = (false, false) → verifyFail img fuse = some (7, 0)) ∧
    (ks = (true, true) → ss = (true, true) → Config.imgVersion img < fuse → verifyFail img fuse = some (8, fuse)) := by
  unfold verifyFail
  dsimp only
  generalize Config.imgRsaKeyOk img = a
  generalize Config.imgSlhKeyOk img = b
  generalize Config.imgRsaSigOk img = c
  generalize Config.imgSlhSigOk img = d
  generalize Config.imgVersion img = v
  cases a <;> cases b <;> cases c <;> cases d <;> simp

end Sys2Proof.Machine
end

