-- ==== Sys2Proof/Laws/Decode.lean ====
section
/-! SUPPORT. What packing and unpacking the fields of a word do (R261-R276): a packed word stays inside the sum of its
fields' widths, and unpacking it gives each field modulo its width. -/

namespace Sys2Proof.Laws

/-- A word packed from fields is smaller than two to the sum of their widths. -/
theorem packOf_lt : ∀ (ns vs : List Nat), packOf ns vs < 2 ^ ns.sum
  | [], _ => by simp [packOf]
  | n :: ns, [] => by simp [packOf]
  | n :: ns, v :: vs => by
    have h := packOf_lt ns vs
    have hv : v % 2 ^ n < 2 ^ n := Nat.mod_lt _ (by positivity)
    rw [packOf, List.sum_cons, pow_add]
    calc v % 2 ^ n * 2 ^ ns.sum + packOf ns vs < v % 2 ^ n * 2 ^ ns.sum + 2 ^ ns.sum := by omega
      _ = (v % 2 ^ n + 1) * 2 ^ ns.sum := by ring
      _ ≤ 2 ^ n * 2 ^ ns.sum := Nat.mul_le_mul_right _ hv

/-- What stands above the lowest fields does not change them. -/
theorem fieldsOf_add : ∀ (ns : List Nat) (a p : Nat), fieldsOf ns (a * 2 ^ ns.sum + p) = fieldsOf ns p
  | [], _, _ => rfl
  | n :: ns, a, p => by
    have h : a * 2 ^ (n :: ns).sum + p = a * 2 ^ n * 2 ^ ns.sum + p := by rw [List.sum_cons, pow_add]; ring
    rw [fieldsOf, fieldsOf, h, fieldsOf_add ns (a * 2 ^ n) p]
    congr 1
    rw [Nat.add_comm, Nat.add_mul_div_right _ _ (by positivity), Nat.add_mul_mod_self_right]

/-- Unpacking a packed word gives each field modulo its width. -/
theorem fieldsOf_packOf : ∀ (ns vs : List Nat), vs.length = ns.length → fieldsOf ns (packOf ns vs) = List.zipWith (fun n v => v % 2 ^ n) ns vs
  | [], [], _ => rfl
  | n :: ns, v :: vs, h => by
    rw [packOf, fieldsOf, fieldsOf_add, fieldsOf_packOf ns vs (by simpa using h), List.zipWith_cons_cons]
    congr 1
    have := packOf_lt ns vs
    rw [Nat.add_comm, Nat.add_mul_div_right _ _ (by positivity), Nat.div_eq_of_lt this]
    simp

/-- The fields of a packed SR word. -/
theorem srOf_enc (op st rd ra rb rc fn md : Nat) : srOf (encSR op st rd ra rb rc fn md) = ⟨st % 8, rd % 64, ra % 64, rb % 64, rc % 64, fn % 256, md % 64, 0⟩ := by
  unfold srOf encSR; rw [fieldsOf_packOf]; rfl; rfl

/-- The fields of a packed SI word. -/
theorem siOf_enc (op st rd ra fn imm : Nat) : siOf (encSI op st rd ra fn imm) = ⟨st % 8, rd % 64, ra % 64, fn % 64, imm % 2 ^ 32⟩ := by
  unfold siOf encSI; rw [fieldsOf_packOf]; rfl; rfl

/-- The fields of a packed SM word. -/
theorem smOf_enc (op st rt ra rb size ord scope ext hint off : Nat) : smOf (encSM op st rt ra rb size ord scope ext hint off) = ⟨st % 8, rt % 64, ra % 64, rb % 64, size % 4, ord % 8, scope % 8, ext % 2, hint % 8, off % 2 ^ 20⟩ := by
  unfold smOf encSM; rw [fieldsOf_packOf]; rfl; rfl

/-- The fields of a packed SX word. -/
theorem sxOf_enc (op st rt ra rb size ord scope fn tail : Nat) : sxOf (encSX op st rt ra rb size ord scope fn tail) = ⟨st % 8, rt % 64, ra % 64, rb % 64, size % 4, ord % 8, scope % 8, fn % 16, tail % 2 ^ 20⟩ := by
  unfold sxOf encSX; rw [fieldsOf_packOf]; rfl; rfl

/-- The fields of a packed AB word. -/
theorem abOf_enc (op st f m ra imm : Nat) : abOf (encAB op st f m ra imm) = ⟨st % 8, f % 256, m % 1024, ra % 64, imm % 2 ^ 26⟩ := by
  unfold abOf encAB; rw [fieldsOf_packOf]; rfl; rfl

/-- The fields of a packed EA word. -/
theorem eaOf_enc (tag op st : Nat) (y : Sync) (ch fn ra rb rc : Nat) : eaOf (encEA tag op st y ch fn ra rb rc) =
    ⟨st % 8, y.wBits.1 % 2, y.wBits.2 % 256, y.sBits.1 % 2, y.sBits.2.1 % 256, ch % 8, fn % 32, ra % 64, rb % 64, rc % 64, y.sBits.2.2 % 32, 0⟩ := by
  unfold eaOf encEA; rw [fieldsOf_packOf]; rfl; rfl

/-- The fields of a packed EI word. -/
theorem eiOf_enc (tag op st : Nat) (y : Sync) (fn ra imm : Nat) : eiOf (encEI tag op st y fn ra imm) =
    ⟨st % 8, y.wBits.1 % 2, y.wBits.2 % 256, y.sBits.1 % 2, y.sBits.2.1 % 256, 0, fn % 32, ra % 64, y.sBits.2.2 % 32, imm % 2 ^ 13⟩ := by
  unfold eiOf encEI; rw [fieldsOf_packOf]; rfl; rfl

/-- The tag and the opcode of a packed 64-bit word. -/
theorem head_pack (a b c : Nat) (ns vs : List Nat) (h : ns.sum = 50) : tagOf (packOf (3 :: 3 :: 8 :: ns) (a :: b :: c :: vs)) = a % 8 ∧ opOf (packOf (3 :: 3 :: 8 :: ns) (a :: b :: c :: vs)) = c % 256 := by
  have := packOf_lt ns vs
  rw [h] at this
  simp only [packOf, List.sum_cons, h, tagOf, opOf]
  generalize packOf ns vs = p at *
  norm_num at this ⊢
  omega

end Sys2Proof.Laws
end

