-- ==== Sys2Proof/Laws/Power.lean ====
section
/-! SUPPORT. Power, thermal stops and links (R18-R25, R37). -/

namespace Sys2Proof.Machine

open Sys2Proof

theorem admits_iff (s : State) (p : Path) : s.admissible p = true ↔ s.Admits p := by
  unfold State.admissible State.Admits State.link
  simp only [Bool.and_eq_true, decide_eq_true_eq, beq_iff_eq, Bool.not_eq_true']
  tauto

/-- q comes no later than p. -/
def noLater (q p : Path) : Prop := q.hops < p.hops ∨ (q.hops = p.hops ∧ (q.dm < p.dm ∨ (q.dm = p.dm ∧ q.port ≤ p.port)))

theorem before_le (a b : Path) : (pathBefore a b = true → noLater a b) ∧ (¬ pathBefore a b = true → noLater b a) := by
  unfold pathBefore noLater
  split_ifs <;> simp only [decide_eq_true_eq] <;> omega

theorem le_trans' {a b c : Path} (h1 : noLater a b) (h2 : noLater b c) : noLater a c := by
  unfold noLater at *; omega

theorem fold_best (ps : List Path) : ∀ b : Option Path, ∃ r, ps.foldl (fun b p =>
    match b with
    | none => some p
    | some q => if pathBefore p q then some p else b) b = r ∧ (r = none ↔ b = none ∧ ps = []) ∧
    ∀ q, r = some q → (q ∈ ps ∨ b = some q) ∧ ∀ p, p ∈ ps ∨ b = some p → noLater q p := by
  induction ps with
  | nil => intro b; exact ⟨b, rfl, by simp, fun q hq => ⟨.inr hq, fun p hp => by rcases hp with hp | hp; cases hp; rw [hp] at hq; cases hq; unfold noLater; omega⟩⟩
  | cons x xs ih =>
    intro b
    rw [List.foldl_cons]
    cases b with
    | none =>
      obtain ⟨r, h1, h2, h3⟩ := ih (some x)
      refine ⟨r, h1, ?_, fun q hq => ⟨?_, fun p hp => ?_⟩⟩
      · simp only [h2]; simp
      · rcases (h3 q hq).1 with h | h
        · exact .inl (List.mem_cons_of_mem _ h)
        · cases h; exact .inl List.mem_cons_self
      · rcases hp with hp | hp
        · rcases List.mem_cons.1 hp with rfl | hp
          · exact (h3 q hq).2 _ (.inr rfl)
          · exact (h3 q hq).2 _ (.inl hp)
        · cases hp
    | some y =>
      dsimp only
      obtain ⟨r, h1, h2, h3⟩ := ih (if pathBefore x y = true then some x else some y)
      refine ⟨r, h1, ?_, fun q hq => ⟨?_, fun p hp => ?_⟩⟩
      · rw [h2]; split_ifs <;> simp
      · rcases (h3 q hq).1 with h | h
        · exact .inl (List.mem_cons_of_mem _ h)
        · split_ifs at h with hb
          · cases h; exact .inl List.mem_cons_self
          · exact .inr h
      · obtain ⟨-, hall⟩ := h3 q hq
        have hx : noLater q x ∧ noLater q y := by
          have hb := before_le x y
          split_ifs at hall with hc
          · have := hall x (.inr rfl); exact ⟨this, le_trans' this (hb.1 hc)⟩
          · have := hall y (.inr rfl); exact ⟨le_trans' this (hb.2 hc), this⟩
        rcases hp with hp | hp
        · rcases List.mem_cons.1 hp with rfl | hp
          · exact hx.1
          · exact hall p (.inl hp)
        · cases hp; exact hx.2

theorem bestPath_spec (s : State) (cands : List Path) : ((∀ p ∈ cands, ¬ s.Admits p) → s.bestPath cands = none) ∧
    ((∃ p ∈ cands, s.Admits p) → ∃ q, s.bestPath cands = some q ∧ s.Chooses cands q) := by
  obtain ⟨r, h1, h2, h3⟩ := fold_best (cands.filter s.admissible) none
  have he : s.bestPath cands = r := h1
  have hm : ∀ p, p ∈ cands.filter s.admissible ↔ p ∈ cands ∧ s.Admits p := by intro p; rw [List.mem_filter, admits_iff]
  refine ⟨fun hn => ?_, fun ⟨p, hp, ha⟩ => ?_⟩
  · rw [he, h2]
    refine ⟨rfl, ?_⟩
    rw [List.eq_nil_iff_forall_not_mem]
    intro p hp
    exact hn p ((hm p).1 hp).1 ((hm p).1 hp).2
  · cases hr : r with
    | none =>
      have := (h2.1 hr).2
      have hp' := (hm p).2 ⟨hp, ha⟩
      rw [this] at hp'
      cases hp'
    | some q =>
      refine ⟨q, by rw [he, hr], ?_⟩
      obtain ⟨hq, hl⟩ := h3 q hr
      rcases hq with hq | hq
      · exact ⟨((hm q).1 hq).1, ((hm q).1 hq).2, fun x hx hxa => hl x (.inl ((hm x).2 ⟨hx, hxa⟩))⟩
      · cases hq

theorem thermEnd_spec (s : State) : (s.sched.launches ≠ [] → s.thermEnd = s) ∧
    (∀ d, s.sched.launches = [] → s.boot.therm = some d → ∃ r, s.StartFails r s.boot.stage 0x0C d ∧
      s.thermEnd = { r with power := { r.power with trip := s.power.trip } }) := by
  unfold State.thermEnd
  refine ⟨fun h => ?_, fun d h hd => ?_⟩
  · cases s.boot.therm with
    | none => rfl
    | some d => exact if_neg h
  · rw [hd]
    dsimp only
    rw [if_pos h]
    exact ⟨_, resets_boot s _, rfl⟩

end Sys2Proof.Machine
end

