-- ==== Sys2Proof/Laws/Outside.lean ====
section
/-! SUPPORT. Accesses from outside the device and answers from other devices (R39, R40, R127, R169). -/

namespace Sys2Proof.Machine

open Sys2Proof

theorem opens_iff (s : State) (key a n : Nat) : ((s.slotKey key).isNone || decide (s.variant.usable < a + n)) = true ↔ ¬ s.Opens key a n := by
  unfold State.Opens
  rw [Bool.or_eq_true, decide_eq_true_eq, slotKey_find]
  cases Map.find s.mem.keys key <;> simp

theorem rd_loc (s : State) (key a n cl wp : Nat) : s.hbmRead key a n = s.rd 0 (.loc a key cl wp) n := by
  unfold State.hbmRead State.rd
  rfl

theorem remote_no {s : State} {src key : Nat} {r : RemoteReq} (h : ¬ s.Opens key (remoteSpan r).1 (remoteSpan r).2) :
    exec (.remoteRequest src key r) s = .next (s.replies src .refused) := if_pos ((opens_iff _ _ _ _).2 h)

theorem remote_bad {s : State} {src key : Nat} {r : RemoteReq} (h : s.Opens key (remoteSpan r).1 (remoteSpan r).2)
    (hr : (match r with | .store _ _ => false | .granule _ _ => false | _ => true) = true) (hp : s.poisoned (.loc (remoteSpan r).1 key 2 0) (remoteSpan r).2 = true) :
    exec (.remoteRequest src key r) s = .next (s.replies src .failed) := by
  refine (if_neg (fun x => (opens_iff _ _ _ _).1 x h)).trans (if_pos ?_)
  rw [hp, Bool.and_true]
  cases r <;> first | rfl | cases hr

theorem remote_ok {s : State} {src key : Nat} {r : RemoteReq} (h : s.Opens key (remoteSpan r).1 (remoteSpan r).2)
    (hp : s.poisoned (.loc (remoteSpan r).1 key 2 0) (remoteSpan r).2 = false ∨ (match r with | .store _ _ => false | .granule _ _ => false | _ => true) = false) :
    exec (.remoteRequest src key r) s = .next ((s.remoteDo src key r).2.replies src (s.remoteDo src key r).1) := by
  refine (if_neg (fun x => (opens_iff _ _ _ _).1 x h)).trans (if_neg ?_)
  rw [Bool.and_eq_true]
  rintro ⟨x, y⟩
  rcases hp with hp | hp
  · rw [hp] at y; cases y
  · cases r <;> first | (cases hp; done) | cases x

theorem toNat_eq_zext (n : Nat) (hn : n = 4 ∨ n = 8) (old a : Word) : old = zextN (8 * n) a ↔ old.toNat = a.toNat % 2 ^ (8 * n) := by
  rw [← BitVec.toNat_inj]
  unfold zextN
  rw [BitVec.toNat_ofNat]
  have : a.toNat % 2 ^ (8 * n) % 2 ^ 64 = a.toNat % 2 ^ (8 * n) := by
    rcases hn with rfl | rfl <;> omega
  rw [this]

theorem badAnswer_eq (s : State) (dev : Nat) (a : RemoteAns) (id : Nat) : (s.closed id).ansCause dev a = s.badAnswer dev a := by cases a <;> rfl

theorem hdm_iff (s : State) (slot a n : Nat) :
    (s.minimal || decide (s.variant.usable < a + n) || (s.slotKey slot).isNone) = true ↔ ¬ s.Powers slot a n := by
  have h := opens_iff s slot a n
  have hm : s.minimal = true ↔ s.boot.stage = 15 := by unfold State.minimal; simp
  unfold State.Powers
  rw [not_and_or, ← h, not_not, ← hm]
  simp only [Bool.or_eq_true]
  tauto

theorem hdmPlace_none {s : State} {port dec addr size : Nat} (h : ¬ s.Powers (Map.getD (Map.getD s.hports port .fresh).hdm dec 0) addr size) : s.hdmPlace port dec addr size = none :=
  if_pos ((hdm_iff _ _ _ _).2 h)

theorem hdmPlace_some {s : State} {port dec addr size : Nat} (h : s.Powers (Map.getD (Map.getD s.hports port .fresh).hdm dec 0) addr size) :
    s.hdmPlace port dec addr size = some (.loc addr (Map.getD (Map.getD s.hports port .fresh).hdm dec 0) 0 0) :=
  if_neg (fun x => (hdm_iff _ _ _ _).1 x h)

theorem atom_go (s : State) (port dec addr : Nat) (wide : Bool) (a b : Word) (op : HostAtomic) (n : Nat) (hn : n = if wide then 8 else 4) (p : Place)
    (hx : (s.hport port).cxl = true) (hp : s.hdmPlace port dec addr n = some p) :
    execHostAtomicop port dec op addr wide a b s = .next (State.wr { s with host := { s.host with rdata := leBytes n (leWord (s.rd 0 p n)).toNat, poison := s.poisoned p n } } 0 p
      (leBytes n (hostNew op n (leWord (s.rd 0 p n)) a b).toNat)) := by
  subst hn
  unfold execHostAtomicop
  dsimp only
  rw [hx, hp]
  rfl

theorem modCtx_twice (s : State) (c : Nat) (f g : Ctx → Ctx) : (s.modCtx c f).modCtx c g = s.modCtx c (fun x => g (f x)) := by
  unfold State.modCtx State.setCtx
  simp only [State.ctx, Map.getD_put_same, Map.put_put]

theorem resp_none {s : State} {id : Nat} (h : Map.find s.net.reqs id = none) (a : RemoteAns) : exec (.remoteResponse id a) s = .next s := by
  show execRemoteResponse id a s = _
  unfold execRemoteResponse; rw [h]

/-- The answer is taken: the request was sent, or it fails for want of a route. -/
theorem waits_no {s : State} {id : Nat} {a : RemoteAns} (h : ¬ (s.Unsent id ∧ a ≠ .failed)) : (s.unsent id && a != .failed) = false := by
  rw [Bool.eq_false_iff]
  intro hb
  rw [Bool.and_eq_true, bne_iff_ne] at hb
  refine h ⟨?_, hb.2⟩
  obtain ⟨x, hx, hr⟩ := List.any_eq_true.1 hb.1
  refine ⟨x, hx, ?_⟩
  cases hm : x.2 <;> rw [hm] at hr <;> simp [Msg.isReq] at hr ⊢
  exact hr

/-- What an answer that is taken does, by what it answers. -/
theorem resp_eq {s : State} {id : Nat} {q : RemReq} {a : RemoteAns} (h : Map.find s.net.reqs id = some q) (hn : ¬ (s.Unsent id ∧ a ≠ .failed)) (hc : q.cid < 512) :
    let u := s.closed id
    (q.kind = .store → exec (.remoteResponse id a) s = .next (u.storeAnswer id q a)) ∧
    (∀ path x seq, q.kind = .engineStore path x seq → exec (.remoteResponse id a) s = .next (u.writeAnswer id q path x seq a)) ∧
    (q.kind = .notice → exec (.remoteResponse id a) s = .next (u.modCtx q.cid (fun c => c.noticed q))) ∧
    (∀ rt n sx acq, q.kind = .atomic rt n sx acq → exec (.remoteResponse id a) s = .next (u.heldAnswer id q a (fun bs s =>
      ((match acq with | some sc => s.acquire s.cur.cid sc | none => s).resVar rt (extend sx n (leWord bs))).go))) ∧
    (∀ l ls, q.kind = .load → (u.ctx q.cid).path.loads = l :: ls → l.req = some id → exec (.remoteResponse id a) s =
      match s.badAnswer q.dev a with
      | some (c, d) => .next (u.loadFail q.cid l c d)
      | none => .next (u.loadDone q.cid l (u.forwardAll q.cid l (ansBytes a)))) := by
  have hw := waits_no hn
  have hd : decide (512 ≤ q.cid) = false := by simpa using hc
  have he : s.dropReq id = s.closed id := rfl
  refine ⟨fun hk => ?_, fun path x seq hk => ?_, fun hk => ?_, fun rt n sx acq hk => ?_, fun l ls hk hl hr => ?_⟩
  all_goals
    show execRemoteResponse id a s = _
    unfold execRemoteResponse
    rw [h]
    dsimp only
    rw [hw, hd, hk]
  case refine_5 => simp only [Bool.false_eq_true, if_false, Bool.or_self, he, hl, hr, ne_eq, not_true_eq_false, badAnswer_eq] <;> rfl
  all_goals
    simp only [Bool.false_eq_true, if_false, Bool.or_self, he]
    try rfl

theorem resp_gone {s : State} {id : Nat} {q : RemReq} {a : RemoteAns} (h : Map.find s.net.reqs id = some q) (hn : ¬ (s.Unsent id ∧ a ≠ .failed)) (hc : 512 ≤ q.cid) :
    exec (.remoteResponse id a) s = .next (s.closed id) := by
  show execRemoteResponse id a s = _
  unfold execRemoteResponse
  rw [h]
  dsimp only
  rw [waits_no hn]
  exact if_pos (by simpa using hc)

/-- A held instruction of S gets its answer. -/
theorem heldAnswer_S {s : State} {id : Nat} {q : RemReq} (a : RemoteAns) (k : List Byte → State → State) (hh : (s.ctx q.cid).sc.hold = .remote id) :
    s.heldAnswer id q a k = match s.badAnswer q.dev a with
      | some (c, d) => ((s.at_ q.cid .S).unhold).trapS c d q.va
      | none => k (ansBytes a) (s.at_ q.cid .S).unhold := by
  have hH : s.holder q.cid (holdsReq id) = some .S := by
    unfold State.holder
    dsimp only
    rw [if_pos]
    rw [hh]
    unfold holdsReq holdReq?
    simp
  unfold State.heldAnswer
  rw [hH]
  dsimp only
  have hb : ((s.at_ q.cid .S).unhold).ansCause q.dev a = s.badAnswer q.dev a := by cases a <;> rfl
  exact hb ▸ (by cases s.badAnswer q.dev a <;> rfl)

end Sys2Proof.Machine
end

