-- ==== Sys2Proof/Laws/PerInstr.lean ====
section
/-! SUPPORT. One lemma per instruction: the word the encoder gives an instruction fits the 64 bits a main-stream word has
(R261); a port word, of 32 bits (R275), is far below, and a device event has no word. -/

namespace Sys2Proof.Laws.Enc

/-- The word of the instruction, where it has one, is a number of 64 bits. -/
def Statement (i : Instr) : Prop := ∀ w, encode i = some w → w < 2 ^ 64

/-- An instruction with no word. -/
theorem of_none {i : Instr} (h : encode i = none) : Statement i := fun w e => by rw [h] at e; cases e

/-- An instruction whose word packs fields of 64 bits in all. -/
theorem of_pack {i : Instr} (ns vs : List Nat) (h : encode i = some (packOf ns vs)) (hs : ns.sum = 64) : Statement i :=
  fun w e => by
    rw [h] at e
    cases e
    exact hs ▸ packOf_lt ns vs

/-- A port instruction, whose word packs fields of 32 bits. -/
theorem of_port {i : Instr} (op : Nat) (o : PortF) (h : encode i = some (encPort op o)) : Statement i :=
  fun w e => by
    rw [h] at e
    cases e
    exact lt_trans (packOf_lt fmtPort _) (by decide)

theorem mgmtOwnWrite (port : Nat) (v : Word) : Statement (.mgmtOwnWrite port v) := of_none rfl
theorem registerWrite (port bar off size : Nat) (v : Word) : Statement (.registerWrite port bar off size v) :=
  of_none rfl
theorem bootStage (fail : Option (Nat × Nat)) : Statement (.bootStage fail) := of_none rfl
theorem therm (die : Nat) (temp : Bool) : Statement (.therm die temp) := of_none rfl
theorem powerThrottle (watt tmax : Nat) : Statement (.powerThrottle watt tmax) := of_none rfl
theorem train (port link : Nat) : Statement (.train port link) := of_none rfl
theorem en (port link : Nat) (v : Bool) : Statement (.en port link v) := of_none rfl
theorem linkTrainingDone (link : Nat) (low high : Bool) (mdm peer pport : Nat) (reach : List Reach) : Statement (.linkTrainingDone link low high mdm peer pport reach) :=
  of_none rfl
theorem linkDown (link : Nat) : Statement (.linkDown link) := of_none rfl
theorem routeChange (dest : Nat) : Statement (.routeChange dest) := of_none rfl
theorem noRouteTimeout (dest : Nat) : Statement (.noRouteTimeout dest) := of_none rfl
theorem flitCrcReplay (link : Nat) (received : Bool) : Statement (.flitCrcReplay link received) := of_none rfl
theorem remoteRequest (src key : Nat) (req : RemoteReq) : Statement (.remoteRequest src key req) := of_none rfl
theorem remoteResponse (id : Nat) (ans : RemoteAns) : Statement (.remoteResponse id ans) := of_none rfl
theorem lwProdWrite (port : Nat) (v : Word) : Statement (.lwProdWrite port v) := of_none rfl
theorem completionRecordWrite (launch : Nat) : Statement (.completionRecordWrite launch) := of_none rfl
theorem tlim (launch : Nat) : Statement (.tlim launch) := of_none rfl
theorem pageLoad (handle page : Nat) : Statement (.pageLoad handle page) := of_none rfl
theorem cxlMemRead (port dec addr size : Nat) : Statement (.cxlMemRead port dec addr size) := of_none rfl
theorem cxlMemWrite (port dec addr : Nat) (bytes : List Byte) : Statement (.cxlMemWrite port dec addr bytes) :=
  of_none rfl
theorem hostAtomicop (port dec : Nat) (op : HostAtomic) (addr : Nat) (wide : Bool) (a b : Word) : Statement (.hostAtomicop port dec op addr wide a b) :=
  of_none rfl
theorem dispatch (chiplet : Nat) : Statement (.dispatch chiplet) := of_none rfl
theorem agingStep (entry : Nat) : Statement (.agingStep entry) := of_none rfl
theorem reserving (entry : Nat) : Statement (.reserving entry) := of_none rfl
theorem saveComplete (entry : Nat) : Statement (.saveComplete entry) := of_none rfl
theorem engineInstructionDecode (w : Word) : Statement (.engineInstructionDecode w) := of_none rfl
theorem engineCommandComplete (cid : Nat) (u : EUnit) : Statement (.engineCommandComplete cid u) := of_none rfl
theorem engineWritePerform (cid path : Nat) : Statement (.engineWritePerform cid path) := of_none rfl
theorem storePerform (cid : Nat) (lodge : Bool) : Statement (.storePerform cid lodge) := of_none rfl
theorem loadReturn (cid : Nat) (hit alloc : Bool) : Statement (.loadReturn cid hit alloc) := of_none rfl
theorem l1AgeOut (core line : Nat) : Statement (.l1AgeOut core line) := of_none rfl
theorem waitaWake (cid : Nat) : Statement (.waitaWake cid) := of_none rfl
theorem readyWordPoll (cid n : Nat) : Statement (.readyWordPoll cid n) := of_none rfl
theorem segmentArrival (die : Nat) (seg : Segment) : Statement (.segmentArrival die seg) := of_none rfl
theorem kputAck (cid n : Nat) : Statement (.kputAck cid n) := of_none rfl
theorem add (o : R3w) : Statement (.add o) := of_pack _ _ rfl rfl
theorem sub (o : R3w) : Statement (.sub o) := of_pack _ _ rfl rfl
theorem mul (o : R3w) : Statement (.mul o) := of_pack _ _ rfl rfl
theorem mulh (o : R3w) : Statement (.mulh o) := of_pack _ _ rfl rfl
theorem mulhu (o : R3w) : Statement (.mulhu o) := of_pack _ _ rfl rfl
theorem div (o : R3w) : Statement (.div o) := of_pack _ _ rfl rfl
theorem divu (o : R3w) : Statement (.divu o) := of_pack _ _ rfl rfl
theorem rem (o : R3w) : Statement (.rem o) := of_pack _ _ rfl rfl
theorem remu (o : R3w) : Statement (.remu o) := of_pack _ _ rfl rfl
theorem and (o : R3w) : Statement (.and o) := of_pack _ _ rfl rfl
theorem or (o : R3w) : Statement (.or o) := of_pack _ _ rfl rfl
theorem xor (o : R3w) : Statement (.xor o) := of_pack _ _ rfl rfl
theorem shl (o : R3w) : Statement (.shl o) := of_pack _ _ rfl rfl
theorem shr (o : R3w) : Statement (.shr o) := of_pack _ _ rfl rfl
theorem sra (o : R3w) : Statement (.sra o) := of_pack _ _ rfl rfl
theorem min (o : R3w) : Statement (.min o) := of_pack _ _ rfl rfl
theorem max (o : R3w) : Statement (.max o) := of_pack _ _ rfl rfl
theorem minu (o : R3w) : Statement (.minu o) := of_pack _ _ rfl rfl
theorem maxu (o : R3w) : Statement (.maxu o) := of_pack _ _ rfl rfl
theorem clz (o : R2w) : Statement (.clz o) := of_pack _ _ rfl rfl
theorem popc (o : R2w) : Statement (.popc o) := of_pack _ _ rfl rfl
theorem bext (o : R3) : Statement (.bext o) := of_pack _ _ rfl rfl
theorem bins (o : R4) : Statement (.bins o) := of_pack _ _ rfl rfl
theorem sel (o : SelF) : Statement (.sel o) := of_pack _ _ rfl rfl
theorem cmp (o : CmpF) : Statement (.cmp o) := of_pack _ _ rfl rfl
theorem madd (o : R4w) : Statement (.madd o) := of_pack _ _ rfl rfl
theorem addi (o : RIw) : Statement (.addi o) := of_pack _ _ rfl rfl
theorem andi (o : RIw) : Statement (.andi o) := of_pack _ _ rfl rfl
theorem ori (o : RIw) : Statement (.ori o) := of_pack _ _ rfl rfl
theorem xori (o : RIw) : Statement (.xori o) := of_pack _ _ rfl rfl
theorem shli (o : RIw) : Statement (.shli o) := of_pack _ _ rfl rfl
theorem shri (o : RIw) : Statement (.shri o) := of_pack _ _ rfl rfl
theorem srai (o : RIw) : Statement (.srai o) := of_pack _ _ rfl rfl
theorem cmpi (o : CmpiF) : Statement (.cmpi o) := of_pack _ _ rfl rfl
theorem li (o : RI0) : Statement (.li o) := of_pack _ _ rfl rfl
theorem lih (o : RI0) : Statement (.lih o) := of_pack _ _ rfl rfl
theorem muli (o : RIw) : Statement (.muli o) := of_pack _ _ rfl rfl
theorem ld (o : LdF) : Statement (.ld o) := of_pack _ _ rfl rfl
theorem st (o : StF) : Statement (.st o) := of_pack _ _ rfl rfl
theorem ldx (o : LdxF) : Statement (.ldx o) := of_pack _ _ rfl rfl
theorem stx (o : StxF) : Statement (.stx o) := of_pack _ _ rfl rfl
theorem pref (o : PrefF) : Statement (.pref o) := of_pack _ _ rfl rfl
theorem waita (o : WaitaF) : Statement (.waita o) := of_pack _ _ rfl rfl
theorem mark (o : R0) : Statement (.mark o) := of_pack _ _ rfl rfl
theorem fence (o : FenceF) : Statement (.fence o) := of_pack _ _ rfl rfl
theorem amo (o : AmoF) : Statement (.amo o) := of_pack _ _ rfl rfl
theorem cas (o : CasF) : Statement (.cas o) := of_pack _ _ rfl rfl
theorem mred (o : MredF) : Statement (.mred o) := of_pack _ _ rfl rfl
theorem vamo (o : AmoF) : Statement (.vamo o) := of_pack _ _ rfl rfl
theorem vmred (o : MredF) : Statement (.vmred o) := of_pack _ _ rfl rfl
theorem fadd (o : F3) : Statement (.fadd o) := of_pack _ _ rfl rfl
theorem fsub (o : F3) : Statement (.fsub o) := of_pack _ _ rfl rfl
theorem fmul (o : F3) : Statement (.fmul o) := of_pack _ _ rfl rfl
theorem ffma (o : F4) : Statement (.ffma o) := of_pack _ _ rfl rfl
theorem fmin (o : F3) : Statement (.fmin o) := of_pack _ _ rfl rfl
theorem fmax (o : F3) : Statement (.fmax o) := of_pack _ _ rfl rfl
theorem fcvt (o : FcvtF) : Statement (.fcvt o) := of_pack _ _ rfl rfl
theorem fcmp (o : FcmpF) : Statement (.fcmp o) := of_pack _ _ rfl rfl
theorem frcp (o : F2) : Statement (.frcp o) := of_pack _ _ rfl rfl
theorem frsq (o : F2) : Statement (.frsq o) := of_pack _ _ rfl rfl
theorem spawn (o : R2) : Statement (.spawn o) := of_pack _ _ rfl rfl
theorem arrive (o : R2) : Statement (.arrive o) := of_pack _ _ rfl rfl
theorem est (o : R1a) : Statement (.est o) := of_pack _ _ rfl rfl
theorem bmake (o : R2) : Statement (.bmake o) := of_pack _ _ rfl rfl
theorem join (o : R2) : Statement (.join o) := of_pack _ _ rfl rfl
theorem leave (o : R0) : Statement (.leave o) := of_pack _ _ rfl rfl
theorem bbar (o : R0) : Statement (.bbar o) := of_pack _ _ rfl rfl
theorem semw (o : SemN) : Statement (.semw o) := of_pack _ _ rfl rfl
theorem sems (o : SemN) : Statement (.sems o) := of_pack _ _ rfl rfl
theorem semi (o : SemI) : Statement (.semi o) := of_pack _ _ rfl rfl
theorem semr (o : SemR) : Statement (.semr o) := of_pack _ _ rfl rfl
theorem sleepu (o : R1a) : Statement (.sleepu o) := of_pack _ _ rfl rfl
theorem cyc (o : R1d) : Statement (.cyc o) := of_pack _ _ rfl rfl
theorem yield (o : R1a) : Statement (.yield o) := of_pack _ _ rfl rfl
theorem rdsys (o : RdsysF) : Statement (.rdsys o) := of_pack _ _ rfl rfl
theorem wrsys (o : WrsysF) : Statement (.wrsys o) := of_pack _ _ rfl rfl
theorem svc (o : ImmF) : Statement (.svc o) := of_pack _ _ rfl rfl
theorem trap (o : ImmF) : Statement (.trap o) := of_pack _ _ rfl rfl
theorem tret (o : R0) : Statement (.tret o) := of_pack _ _ rfl rfl
theorem iclk (o : R3) : Statement (.iclk o) := of_pack _ _ rfl rfl
theorem iulk (o : Rab) : Statement (.iulk o) := of_pack _ _ rfl rfl
theorem tlbi (o : TlbiF) : Statement (.tlbi o) := by
  obtain ⟨st, r, g⟩ := o
  cases r
  · exact of_pack fmtSR _ rfl rfl
  · exact of_pack fmtSR _ rfl rfl
theorem caps (o : R2) : Statement (.caps o) := of_pack _ _ rfl rfl
theorem pload (o : PloadF) : Statement (.pload o) := of_pack _ _ rfl rfl
theorem pbind (o : PbindF) : Statement (.pbind o) := of_pack _ _ rfl rfl
theorem pbindU (o : PbindUF) : Statement (.pbindU o) := of_pack _ _ rfl rfl
theorem ppar (o : PparF) : Statement (.ppar o) := of_pack _ _ rfl rfl
theorem pclr (o : PclrF) : Statement (.pclr o) := of_pack _ _ rfl rfl
theorem prd (o : PrdF) : Statement (.prd o) := of_pack _ _ rfl rfl
theorem prdC (o : PrdCF) : Statement (.prdC o) := of_pack _ _ rfl rfl
theorem prdN (o : PrdF) : Statement (.prdN o) := of_pack _ _ rfl rfl
theorem br (o : BrF) : Statement (.br o) := of_pack _ _ rfl rfl
theorem bk (o : BkF) : Statement (.bk o) := of_pack _ _ rfl rfl
theorem jr (o : JrF) : Statement (.jr o) := of_pack _ _ rfl rfl
theorem call (o : BrF) : Statement (.call o) := of_pack _ _ rfl rfl
theorem ret (o : R0) : Statement (.ret o) := of_pack _ _ rfl rfl
theorem loop (o : LoopF) : Statement (.loop o) := of_pack _ _ rfl rfl
theorem tstb (o : TstbF) : Statement (.tstb o) := by
  obtain ⟨st, src, none, mask, off⟩ := o
  cases src
  · exact of_pack fmtAB _ rfl rfl
  · exact of_pack fmtAB _ rfl rfl
theorem xfence (o : XfenceF) : Statement (.xfence o) := of_pack _ _ rfl rfl
theorem endTask (o : R0) : Statement (.endTask o) := of_pack _ _ rfl rfl
theorem sync (o : R0) : Statement (.sync o) := of_pack _ _ rfl rfl
theorem nop (o : R0) : Statement (.nop o) := of_pack _ _ rfl rfl
theorem cnestCount (o : ELvl) : Statement (.cnestCount o) := of_pack _ _ rfl rfl
theorem cnestStride (o : EStr) : Statement (.cnestStride o) := of_pack _ _ rfl rfl
theorem cnestRun (o : EReg) : Statement (.cnestRun o) := of_pack _ _ rfl rfl
theorem cbaseAddr (o : EBase) : Statement (.cbaseAddr o) := of_pack _ _ rfl rfl
theorem cbaseScale (o : EBase) : Statement (.cbaseScale o) := of_pack _ _ rfl rfl
theorem cfmtFmt (o : EFmt) : Statement (.cfmtFmt o) := of_pack _ _ rfl rfl
theorem cfmtFill (o : EReg) : Statement (.cfmtFill o) := of_pack _ _ rfl rfl
theorem cfmtLimit (o : EReg) : Statement (.cfmtLimit o) := of_pack _ _ rfl rfl
theorem cfmtSubv (o : EReg) : Statement (.cfmtSubv o) := of_pack _ _ rfl rfl
theorem cfmtClear (o : ENone) : Statement (.cfmtClear o) := of_pack _ _ rfl rfl
theorem copy (o : CopyF) : Statement (.copy o) := of_pack _ _ rfl rfl
theorem copyz (o : CopyzF) : Statement (.copyz o) := of_pack _ _ rfl rfl
theorem gather (o : GatherF) : Statement (.gather o) := of_pack _ _ rfl rfl
theorem scatter (o : ScatterF) : Statement (.scatter o) := of_pack _ _ rfl rfl
theorem decomp (o : CopyF) : Statement (.decomp o) := of_pack _ _ rfl rfl
theorem drain (o : DrainF) : Statement (.drain o) := of_pack _ _ rfl rfl
theorem cpref (o : CprefF) : Statement (.cpref o) := of_pack _ _ rfl rfl
theorem rnestCount (o : ELvl) : Statement (.rnestCount o) := of_pack _ _ rfl rfl
theorem rnestStride (o : EStr) : Statement (.rnestStride o) := of_pack _ _ rfl rfl
theorem rnestRun (o : EReg) : Statement (.rnestRun o) := of_pack _ _ rfl rfl
theorem rbaseAddr (o : EBase) : Statement (.rbaseAddr o) := of_pack _ _ rfl rfl
theorem rbaseScale (o : EBase) : Statement (.rbaseScale o) := of_pack _ _ rfl rfl
theorem rfmtFmt (o : EFmt) : Statement (.rfmtFmt o) := of_pack _ _ rfl rfl
theorem rfmtFill (o : EReg) : Statement (.rfmtFill o) := of_pack _ _ rfl rfl
theorem rfmtLimit (o : EReg) : Statement (.rfmtLimit o) := of_pack _ _ rfl rfl
theorem rfmtSubv (o : EReg) : Statement (.rfmtSubv o) := of_pack _ _ rfl rfl
theorem rfmtClear (o : ENone) : Statement (.rfmtClear o) := of_pack _ _ rfl rfl
theorem red (o : RedF) : Statement (.red o) := of_pack _ _ rfl rfl
theorem scan (o : RedF) : Statement (.scan o) := of_pack _ _ rfl rfl
theorem merge (o : MergeF) : Statement (.merge o) := of_pack _ _ rfl rfl
theorem kring (o : EIdx) : Statement (.kring o) := of_pack _ _ rfl rfl
theorem kbw (o : EReg) : Statement (.kbw o) := of_pack _ _ rfl rfl
theorem kallred (o : KarF) : Statement (.kallred o) := of_pack _ _ rfl rfl
theorem kbcast (o : KarF) : Statement (.kbcast o) := of_pack _ _ rfl rfl
theorem kput (o : E3) : Statement (.kput o) := of_pack _ _ rfl rfl
theorem mnestCount (o : ELvl) : Statement (.mnestCount o) := of_pack _ _ rfl rfl
theorem mnestStride (o : EStr) : Statement (.mnestStride o) := of_pack _ _ rfl rfl
theorem mbaseAddr (o : EBase) : Statement (.mbaseAddr o) := of_pack _ _ rfl rfl
theorem mbaseScale (o : EBase) : Statement (.mbaseScale o) := of_pack _ _ rfl rfl
theorem mbasePitch (o : EReg) : Statement (.mbasePitch o) := of_pack _ _ rfl rfl
theorem mbaseDpitch (o : EReg) : Statement (.mbaseDpitch o) := of_pack _ _ rfl rfl
theorem mfmtCtl (o : EReg) : Statement (.mfmtCtl o) := of_pack _ _ rfl rfl
theorem mfmtDctl (o : EReg) : Statement (.mfmtDctl o) := of_pack _ _ rfl rfl
theorem mfmtDsb (o : EReg) : Statement (.mfmtDsb o) := of_pack _ _ rfl rfl
theorem mfmtClip (o : EReg) : Statement (.mfmtClip o) := of_pack _ _ rfl rfl
theorem mfmtSubv (o : EReg) : Statement (.mfmtSubv o) := of_pack _ _ rfl rfl
theorem mfmtClear (o : ENone) : Statement (.mfmtClear o) := of_pack _ _ rfl rfl
theorem mgo (o : ENone) : Statement (.mgo o) := of_pack _ _ rfl rfl
theorem mzero (o : MzeroF) : Statement (.mzero o) := of_pack _ _ rfl rfl
theorem minit (o : MinitF) : Statement (.minit o) := of_pack _ _ rfl rfl
theorem mdrain (o : MdrainF) : Statement (.mdrain o) := of_pack _ _ rfl rfl
theorem msparse (o : E3) : Statement (.msparse o) := of_pack _ _ rfl rfl
theorem dmap (o : E2) : Statement (.dmap o) := of_pack _ _ rfl rfl
theorem dcurve (o : EIdx) : Statement (.dcurve o) := of_pack _ _ rfl rfl
theorem dtap (o : DtapF) : Statement (.dtap o) := of_pack _ _ rfl rfl
theorem dgo (o : ENone) : Statement (.dgo o) := of_pack _ _ rfl rfl
theorem portFadd (o : PortF) : Statement (.portFadd o) := of_port _ _ rfl
theorem portFsub (o : PortF) : Statement (.portFsub o) := of_port _ _ rfl
theorem portFmul (o : PortF) : Statement (.portFmul o) := of_port _ _ rfl
theorem portFfma (o : PortF) : Statement (.portFfma o) := of_port _ _ rfl
theorem portFmin (o : PortF) : Statement (.portFmin o) := of_port _ _ rfl
theorem portFmax (o : PortF) : Statement (.portFmax o) := of_port _ _ rfl
theorem portFabs (o : PortF) : Statement (.portFabs o) := of_port _ _ rfl
theorem portFneg (o : PortF) : Statement (.portFneg o) := of_port _ _ rfl
theorem portFrcp (o : PortF) : Statement (.portFrcp o) := of_port _ _ rfl
theorem portFrsq (o : PortF) : Statement (.portFrsq o) := of_port _ _ rfl
theorem portFex2 (o : PortF) : Statement (.portFex2 o) := of_port _ _ rfl
theorem portFlg2 (o : PortF) : Statement (.portFlg2 o) := of_port _ _ rfl
theorem portFcmp (o : PortF) : Statement (.portFcmp o) := of_port _ _ rfl
theorem portIadd (o : PortF) : Statement (.portIadd o) := of_port _ _ rfl
theorem portIsub (o : PortF) : Statement (.portIsub o) := of_port _ _ rfl
theorem portImul (o : PortF) : Statement (.portImul o) := of_port _ _ rfl
theorem portImulh (o : PortF) : Statement (.portImulh o) := of_port _ _ rfl
theorem portImin (o : PortF) : Statement (.portImin o) := of_port _ _ rfl
theorem portImax (o : PortF) : Statement (.portImax o) := of_port _ _ rfl
theorem portIminu (o : PortF) : Statement (.portIminu o) := of_port _ _ rfl
theorem portImaxu (o : PortF) : Statement (.portImaxu o) := of_port _ _ rfl
theorem portAnd (o : PortF) : Statement (.portAnd o) := of_port _ _ rfl
theorem portOr (o : PortF) : Statement (.portOr o) := of_port _ _ rfl
theorem portXor (o : PortF) : Statement (.portXor o) := of_port _ _ rfl
theorem portShl (o : PortF) : Statement (.portShl o) := of_port _ _ rfl
theorem portShr (o : PortF) : Statement (.portShr o) := of_port _ _ rfl
theorem portSra (o : PortF) : Statement (.portSra o) := of_port _ _ rfl
theorem portIcmp (o : PortF) : Statement (.portIcmp o) := of_port _ _ rfl
theorem portSel (o : PortF) : Statement (.portSel o) := of_port _ _ rfl
theorem portCvt (o : PortF) : Statement (.portCvt o) := of_port _ _ rfl
theorem portRnd (o : PortF) : Statement (.portRnd o) := of_port _ _ rfl
theorem portQsr (o : PortF) : Statement (.portQsr o) := of_port _ _ rfl
theorem portGet (o : PortF) : Statement (.portGet o) := of_port _ _ rfl
theorem portOut (o : PortF) : Statement (.portOut o) := of_port _ _ rfl
theorem portDrop (o : PortF) : Statement (.portDrop o) := of_port _ _ rfl
theorem portPar (o : PortF) : Statement (.portPar o) := of_port _ _ rfl
theorem portParx (o : PortF) : Statement (.portParx o) := of_port _ _ rfl
theorem portCget (o : PortF) : Statement (.portCget o) := of_port _ _ rfl
theorem portCset (o : PortF) : Statement (.portCset o) := of_port _ _ rfl
theorem portPrev (o : PortF) : Statement (.portPrev o) := of_port _ _ rfl
theorem portLut (o : PortF) : Statement (.portLut o) := of_port _ _ rfl
theorem portLdl (o : PortF) : Statement (.portLdl o) := of_port _ _ rfl
theorem portStl (o : PortF) : Statement (.portStl o) := of_port _ _ rfl
theorem portFlag (o : PortF) : Statement (.portFlag o) := of_port _ _ rfl
theorem portHint (n : Nat) (o : PortF) : Statement (.portHint n o) := of_port _ _ rfl
theorem engineIterationBoundary (cid : Nat) (u : EUnit) : Statement (.engineIterationBoundary cid u) := of_none rfl
theorem throttleCauseClears (watt tmax : Nat) : Statement (.throttleCauseClears watt tmax) := of_none rfl
theorem mgmtOwnRead : Statement .mgmtOwnRead := of_none rfl
theorem mgmtHbWrite : Statement .mgmtHbWrite := of_none rfl
theorem bootCommit : Statement .bootCommit := of_none rfl
theorem bootClrt : Statement .bootClrt := of_none rfl
theorem bootFmin : Statement .bootFmin := of_none rfl
theorem bootRst : Statement .bootRst := of_none rfl
theorem keyld : Statement .keyld := of_none rfl
theorem keyclr : Statement .keyclr := of_none rfl
theorem hkey : Statement .hkey := of_none rfl
theorem codekey : Statement .codekey := of_none rfl
theorem codereg : Statement .codereg := of_none rfl
theorem coderel : Statement .coderel := of_none rfl
theorem codest : Statement .codest := of_none rfl
theorem xreg : Statement .xreg := of_none rfl
theorem xdel : Statement .xdel := of_none rfl
theorem attest : Statement .attest := of_none rfl
theorem abort : Statement .abort := of_none rfl
theorem mailboxCommandEnd : Statement .mailboxCommandEnd := of_none rfl
theorem descriptorAccept : Statement .descriptorAccept := of_none rfl
theorem scWheelIssue : Statement .scWheelIssue := of_none rfl
theorem scPerform : Statement .scPerform := of_none rfl
theorem mredPerform : Statement .mredPerform := of_none rfl
theorem handlerStart : Statement .handlerStart := of_none rfl
theorem watchdog : Statement .watchdog := of_none rfl
theorem sleepuWake : Statement .sleepuWake := of_none rfl
theorem yieldEnd : Statement .yieldEnd := of_none rfl
theorem svcReply : Statement .svcReply := of_none rfl
theorem ownershipLapse : Statement .ownershipLapse := of_none rfl
theorem commitVerifyDone : Statement .commitVerifyDone := of_none rfl
theorem firmwareWriteDone : Statement .firmwareWriteDone := of_none rfl
theorem deviceReset : Statement .deviceReset := of_none rfl
theorem fwdog : Statement .fwdog := of_none rfl
theorem linkStageEnd : Statement .linkStageEnd := of_none rfl
theorem auxPowerLoss : Statement .auxPowerLoss := of_none rfl
theorem powerLoss : Statement .powerLoss := of_none rfl
theorem tokenTick : Statement .tokenTick := of_none rfl

end Sys2Proof.Laws.Enc
end

