-- ==== Sys2Proof/Laws/Window.lean ====
section
/-! SUPPORT. Launches from descriptor to record, and page loads (R49-R57, R62, R63). -/

namespace Sys2Proof.Machine

open Sys2Proof

theorem mayTake_iff (s : State) (port : Nat) : s.mayAccept port = true ↔ s.MayTake port := by
  unfold State.mayAccept State.MayTake State.portLaunches
  dsimp only
  simp only [Bool.and_eq_true, beq_iff_eq, bne_iff_ne, ne_eq, decide_eq_true_eq, Bool.not_eq_true', Bool.and_eq_false_imp, Option.isNone_iff_eq_none, List.any_eq_false]
  constructor
  · rintro ⟨⟨⟨⟨⟨h1, h2⟩, h3⟩, h4⟩, h5⟩, h6⟩
    refine ⟨h1, h2, h3, h4, h5, ?_⟩
    rintro ⟨hp, x, hx, h7, h8⟩
    have := h6 hp x hx
    simp [h7, h8] at this
  · rintro ⟨h1, h2, h3, h4, h5, h6⟩
    refine ⟨⟨⟨⟨⟨h1, h2⟩, h3⟩, h4⟩, h5⟩, fun hp x hx hy => h6 ⟨hp, x, hx, ?_⟩⟩
    exact ⟨hy.1, hy.2⟩

theorem badDesc_eq (s : State) (d : List Byte) (h : s.BadDesc d) : s.descFault d = some 7 := by
  unfold State.descFault
  dsimp only
  unfold State.BadDesc at h
  have h6 : bitsOf (descWord d 6) 51 45 = (descWord d 6).toNat / 2 ^ 45 % 128 := by unfold bitsOf; norm_num
  by_cases h1 : descClean d = false
  · rw [if_pos (by rw [h1]; rfl)]
  rw [if_neg (by simpa using h1)]
  by_cases h2 : (Record.ofBytes d).join ≠ 0
  · rw [if_pos h2]
  rw [if_neg h2]
  by_cases h3 : (Record.ofBytes d).bunch ≠ 0
  · rw [if_pos h3]
  rw [if_neg h3]
  rw [← h6] at h
  by_cases h4 : bitsOf (descWord d 6) 51 45 ≠ s.net.devid
  · rw [if_pos h4]
  rw [if_neg h4]
  rw [if_pos]
  have h5 : Map.find s.mem.keys (Record.ofBytes d).key = none := by
    rcases h with h | h | h | h | h
    · exact absurd h h1
    · exact absurd h h2
    · exact absurd h h3
    · exact absurd h h4
    · exact h
  rw [slotKey_find, h5]; rfl

theorem goodDesc_eq (s : State) (d : List Byte) (h : ¬ s.BadDesc d) : (s.NoCode d → s.descFault d = some 8) ∧ (¬ s.NoCode d → s.descFault d = none) := by
  unfold State.BadDesc at h
  push Not at h
  obtain ⟨h1, h2, h3, h4, h5⟩ := h
  have h6 : bitsOf (descWord d 6) 51 45 = (descWord d 6).toNat / 2 ^ 45 % 128 := by unfold bitsOf; norm_num
  have he : s.descFault d = match s.objAt (Record.ofBytes d).code with
    | some (_, o) => if o.revoked then some 8 else none
    | none => some 8 := by
    unfold State.descFault
    dsimp only
    rw [if_neg (by simpa using h1), if_neg (by simpa using h2), if_neg (by simpa using h3), if_neg (by rw [h6]; simpa using h4), if_neg (by
      rw [slotKey_find]
      cases hk : Map.find s.mem.keys (Record.ofBytes d).key
      · exact absurd hk h5
      · simp)]
    all_goals rfl
  rw [he]
  unfold State.NoCode
  cases ho : s.objAt (Record.ofBytes d).code with
  | none => exact ⟨fun _ => rfl, fun hn => absurd (fun h o hx => by cases hx) hn⟩
  | some x =>
    obtain ⟨h, o⟩ := x
    dsimp only
    refine ⟨fun hn => if_pos (hn h o rfl), fun hn => if_neg (fun hr => hn (fun h' o' hx => by cases hx; exact hr))⟩

theorem accept_eq {s : State} (h : s.MayTake s.cur.port) : exec .descriptorAccept s =
    (if bitsOf (descWord (Mem.read (s.hport s.cur.port).ring (64 * ((s.hport s.cur.port).cons % 64)) 64) 4) 4 0 ≠ 0 then
      .next ((s.consume s.cur.port).setHport s.cur.port { (s.consume s.cur.port).hport s.cur.port with misal := true, errSlot := (s.hport s.cur.port).cons % 64 })
    else
      match s.descFault (Mem.read (s.hport s.cur.port).ring (64 * ((s.hport s.cur.port).cons % 64)) 64) with
      | some st =>
        .next ((s.consume s.cur.port).writeRecord s.cur.port (descWord (Mem.read (s.hport s.cur.port).ring (64 * ((s.hport s.cur.port).cons % 64)) 64) 4).toNat
          (recordWords (descWord (Mem.read (s.hport s.cur.port).ring (64 * ((s.hport s.cur.port).cons % 64)) 64) 5) 0 0xFF 0 st 0 s.clk)
          (bitOf (descWord (Mem.read (s.hport s.cur.port).ring (64 * ((s.hport s.cur.port).cons % 64)) 64) 7) 41)
          (bitsOf (descWord (Mem.read (s.hport s.cur.port).ring (64 * ((s.hport s.cur.port).cons % 64)) 64) 7) 47 42))
      | none => .next ((s.consume s.cur.port).startLaunch s.cur.port (Mem.read (s.hport s.cur.port).ring (64 * ((s.hport s.cur.port).cons % 64)) 64))) := by
  have h' := (mayTake_iff s s.cur.port).2 h
  show execDescriptorAccept s = _
  unfold execDescriptorAccept
  dsimp only
  rw [if_neg (by rw [h']; simp)]
  all_goals rfl

theorem recordOf_eq (a : Word) (b c d e : Nat) (f : Word) (g : Nat) : recordWords a b c d e f g = recordOf a b c d e f g := by
  unfold recordWords recordOf
  rfl

theorem writeRecord_frame (s : State) (p c : Nat) (ws : List Word) (n : Bool) (k : Nat) : (s.writeRecord p c ws n k).sched = s.sched ∧
    (s.writeRecord p c ws n k).ctxs = s.ctxs ∧ (s.writeRecord p c ws n k).mem = s.mem ∧ (s.writeRecord p c ws n k).net = s.net ∧ (s.writeRecord p c ws n k).boot = s.boot :=
  ⟨rfl, rfl, rfl, rfl, rfl⟩

theorem recorded_eq (s : State) (v : Launch) : s.writeRecord v.port v.caddr v.words v.noint v.vec = s.recorded v.port v.caddr (recordOf v.tag v.fcnt (if v.fcnt = 0 then 0xFF else v.fcore) v.fcause (v.stat.getD 0) v.faddr v.doneAt) v.noint v.vec := by
  unfold Launch.words
  rw [recordOf_eq]
  rfl

theorem hport_put (s : State) (port : Nat) (p : PortSt) : (s.setHport port p).hport port = p := by
  unfold State.hport State.setHport
  exact Map.getD_put_same _ _ _ _

theorem setHport_twice (s : State) (port : Nat) (p q : PortSt) : (s.setHport port p).setHport port q = s.setHport port q := by
  unfold State.setHport
  simp only [Map.put_put]

theorem dropLaunch_spec (s : State) (l : Nat) (v : Launch) (h : Map.find s.sched.launches l = some v) :
    (s.dropLaunch l).sched.launches = Map.del s.sched.launches l ∧ (s.dropLaunch l).sched.bunches = s.sched.bunches.filter (fun b => b.2.launch != l) ∧
    (s.dropLaunch l).host = s.host ∧ (s.dropLaunch l).ctxs = s.ctxs ∧ (s.dropLaunch l).mem = { s.mem with tags := s.mem.tags.filter (fun x => x.2 != l) } ∧
    (s.dropLaunch l).colls = s.colls.map (fun c : Nat × Coll => (c.1, { c.2 with rings := c.2.rings.filter (fun r => r.2.launch != l) })) ∧ (s.dropLaunch l).net = s.net ∧ (s.dropLaunch l).boot = s.boot := by
  unfold State.dropLaunch
  rw [show s.launch l = some v from h]
  dsimp only
  split_ifs <;> exact ⟨rfl, rfl, rfl, rfl, rfl, rfl, rfl, rfl⟩

theorem thermEnd_none (s : State) (h : s.boot.therm = none) : s.thermEnd = s := by
  unfold State.thermEnd; rw [h]

end Sys2Proof.Machine
end

