-- ==== Sys2Proof/Laws/Sched.lean ====
section
/-! SUPPORT. The scheduler's events (R69, R75-R81, R85, R100, R216). -/

namespace Sys2Proof.Machine

open Sys2Proof

theorem level_eq (s : State) (v : Entry) : s.effPri v = s.level v := by
  unfold State.effPri State.level State.queue Record.pri msClk
  have : bitsOf v.record.w2 34 32 = v.record.w2.toNat / 2 ^ 32 % 8 := by unfold bitsOf; norm_num
  rw [this]

theorem ahead_iff (s : State) (a b : Entry) : s.precedes a b = true ↔ s.Ahead a b := by
  unfold State.precedes State.Ahead
  dsimp only
  rw [level_eq, level_eq]
  generalize s.level a = x
  generalize s.level b = y
  split_ifs with h1 h2 h3 <;> simp only [decide_eq_true_eq] <;> omega

theorem ahead_asymm {s : State} {a b : Entry} (h : s.Ahead a b) : ¬ s.Ahead b a := by
  unfold State.Ahead at *; omega

theorem ahead_drop {s : State} {p q x : Entry} (h : s.Ahead p q) (hx : ¬ s.Ahead x q) : ¬ s.Ahead x p := by
  unfold State.Ahead at *; omega

theorem not_ahead_self (s : State) (a : Entry) : ¬ s.Ahead a a := by unfold State.Ahead; omega

theorem mayPlace_iff (s : State) (e : Nat) (v : Entry) (cid : Nat) : s.canPlace e v cid = true ↔ s.MayPlace e v cid := by
  unfold State.canPlace State.MayPlace
  cases hh : v.hdr with
  | none => simp
  | some h =>
    simp
    tauto

/-- One step of the fold that keeps the best of a list. -/
def bestStep {α : Type} (key : α → Entry) (s : State) (b : Option α) (p : α) : Option α :=
  match b with
  | none => some p
  | some q => if s.precedes (key p) (key q) then some p else b

/-- The fold that keeps the best of a list. -/
theorem best_fold {α : Type} (key : α → Entry) (s : State) : ∀ (l : List α) (b : Option α),
    let r := l.foldl (bestStep key s) b
    (b = none → l = [] → r = none) ∧ (∀ q, b = some q → ∃ y, r = some y ∧ (y = q ∨ y ∈ l) ∧ ¬ s.Ahead (key q) (key y) ∧ ∀ z ∈ l, ¬ s.Ahead (key z) (key y)) ∧
      (b = none → l ≠ [] → ∃ y, r = some y ∧ y ∈ l ∧ ∀ z ∈ l, ¬ s.Ahead (key z) (key y)) := by
  intro l
  induction l with
  | nil => intro b; exact ⟨fun h _ => h, fun q h => ⟨q, h, .inl rfl, not_ahead_self _ _, by simp⟩, fun _ h => absurd rfl h⟩
  | cons p l ih =>
    intro b
    refine ⟨fun _ h => (List.cons_ne_nil _ _ h).elim, fun q hb => ?_, fun hb _ => ?_⟩
    · subst hb
      rw [List.foldl_cons]
      unfold bestStep
      dsimp only
      by_cases hp : s.precedes (key p) (key q) = true
      · rw [if_pos hp]
        have hp' := (ahead_iff s _ _).1 hp
        obtain ⟨y, h1, h2, h3, h4⟩ := (ih (some p)).2.1 p rfl
        refine ⟨y, h1, ?_, ?_, ?_⟩
        · rcases h2 with h2 | h2
          · exact .inr (by rw [h2]; simp)
          · exact .inr (by simp [h2])
        · intro hq
          exact ahead_drop (x := key p) (p := key q) (q := key y) hq h3 hp'
        · intro z hz
          rcases List.mem_cons.1 hz with rfl | hz
          · exact h3
          · exact h4 z hz
      · rw [if_neg hp]
        have hp' : ¬ s.Ahead (key p) (key q) := fun x => hp ((ahead_iff s _ _).2 x)
        obtain ⟨y, h1, h2, h3, h4⟩ := (ih (some q)).2.1 q rfl
        refine ⟨y, h1, ?_, h3, ?_⟩
        · rcases h2 with h2 | h2
          · exact .inl h2
          · exact .inr (by simp [h2])
        · intro z hz
          rcases List.mem_cons.1 hz with rfl | hz
          · intro hpy
            -- p < y and not q < y and not p < q
            unfold State.Ahead at *
            omega
          · exact h4 z hz
    · subst hb
      rw [List.foldl_cons]
      unfold bestStep
      dsimp only
      obtain ⟨y, h1, h2, h3, h4⟩ := (ih (some p)).2.1 p rfl
      refine ⟨y, h1, ?_, ?_⟩
      · rcases h2 with h2 | h2
        · rw [h2]; simp
        · simp [h2]
      · intro z hz
        rcases List.mem_cons.1 hz with rfl | hz
        · exact h3
        · exact h4 z hz

theorem pick_eq (s : State) (cid : Nat) (h1 : Map.find s.sched.offers cid = none) (h2 : s.sched.bunches = []) :
    s.pick cid = ((s.sched.store.filter (fun x => s.canPlace x.1 x.2 cid)).map (fun x => Pick.one x.1 x.2)).foldl (bestStep Pick.key s) none := by
  unfold State.pick
  rw [h1, h2]
  dsimp only
  rw [List.filterMap_nil, List.append_nil]
  congr 1
  funext b p
  cases b <;> rfl

theorem freeCids_mem (s : State) (pos cid : Nat) : cid ∈ s.freeCids pos ↔ cid / 64 = pos ∧ s.isFree cid = true := by
  unfold State.freeCids
  rw [List.mem_filter, List.mem_map]
  constructor
  · rintro ⟨⟨i, hi, rfl⟩, h⟩
    rw [List.mem_range] at hi
    exact ⟨by omega, h⟩
  · rintro ⟨h1, h2⟩
    refine ⟨⟨cid % 64, by rw [List.mem_range]; omega, by omega⟩, h2⟩

theorem freeCids_sorted (s : State) (pos : Nat) : (s.freeCids pos).Pairwise (· < ·) := by
  unfold State.freeCids
  apply List.Pairwise.filter
  rw [List.pairwise_map]
  exact List.Pairwise.imp (fun h => by omega) List.pairwise_lt_range

theorem findSome_first {β : Type} (f : Nat → Option β) (l : List Nat) (hs : l.Pairwise (· < ·)) (a : Nat) (b : β) (ha : a ∈ l) (hf : f a = some b)
    (hlt : ∀ x ∈ l, x < a → f x = none) : l.findSome? f = some b := by
  induction l with
  | nil => cases ha
  | cons x l ih =>
    rw [List.findSome?_cons]
    rw [List.pairwise_cons] at hs
    rcases List.mem_cons.1 ha with rfl | ha
    · rw [hf]
    · rw [hlt x (by simp) (hs.1 a ha)]
      exact ih hs.2 ha (fun y hy => hlt y (by simp [hy]))

theorem find_map_val {α β : Type} (f : α → β) : ∀ (m : Map α) (k : Nat), Map.find (m.map (fun x => (x.1, f x.2))) k = (Map.find m k).map f := by
  intro m k
  induction m with
  | nil => rfl
  | cons x m ih =>
    obtain ⟨a, b⟩ := x
    simp only [List.map_cons, Map.find]
    split <;> simp_all

theorem startOf_eq (s : State) (e : Nat) (v : Entry) (h : Header) (hi : Map.find s.images e = none) :
    Ctx.start { entry := e, launch := v.launch, record := v.record, hdr := h, sys := s.isSysCode v.record.code, bunch := s.groupOf e v, member := false } = s.startOf e v h false := by
  unfold Ctx.start State.startOf
  have h1 : v.record.code = v.record.w0.toNat / 8 * 8 := by unfold Record.code; rw [bitsOf_div _ _ (by decide)]; norm_num
  have h2 : v.record.est = v.record.w3.toNat % 2 ^ 24 := by unfold Record.est bitsOf; norm_num
  have h3 : s.groupOf e v = v.record.bunch := by unfold State.groupOf; rw [hi]
  dsimp only
  rw [h1, h2, h3]
  rfl

theorem wakeNow_startOf (s : State) (e : Nat) (v : Entry) (h : Header) (b : Bool) : (s.startOf e v h b).wakeNow = s.startOf e v h b := rfl

theorem place_fresh (s : State) (e cid : Nat) (v : Entry) (h : Header) (h1 : Map.find s.sched.store e = some v) (h2 : Map.find s.images e = none)
    (h3 : v.hdr = some h) (h4 : h.slLen = 0) (h5 : (Map.find s.mem.keys v.record.key).isSome = true) :
    s.placeTask e cid false = (((s.assign e cid v).wbInv (cid / 2)).setCtx cid (s.startOf e v h false)).wakeCore cid := by
  unfold State.placeTask
  have hi : (Map.find s.images e).isSome = false := by rw [h2]; rfl
  dsimp only
  rw [hi]
  rw [if_neg (by simp)]
  unfold State.place
  rw [show s.entry e = some v from h1]
  dsimp only
  have e0 : v.hdr.getD .zero = h := by rw [h3]; rfl
  rw [e0, startOf_eq s e v h h2]
  have hm : Map.find ((s.assign e cid v).wbInv (cid / 2)).images e = none := (congrArg (Map.find · e) (State.images_wbAll (s.assign e cid v) (cid / 2))).trans h2
  have hk : (((s.assign e cid v).wbInv (cid / 2)).slotKey v.record.key).isNone = false := by
    have : ((s.assign e cid v).wbAll (cid / 2)).slotKey v.record.key = s.slotKey v.record.key := State.slotKey_wbAll (s.assign e cid v) _ _
    show (((s.assign e cid v).wbAll (cid / 2)).slotKey v.record.key).isNone = false
    rw [this, slotKey_find]
    cases hf : Map.find s.mem.keys v.record.key
    · rw [hf] at h5; cases h5
    · rfl
  generalize (s.assign e cid v).wbInv (cid / 2) = u at hm hk ⊢
  rw [hm]
  dsimp only
  have hx : ((u.setCtx cid (s.startOf e v h false)).wakeCore cid).slotKey v.record.key = u.slotKey v.record.key := rfl
  rw [hx, hk]
  unfold State.startHelper
  rw [if_neg (by simp), if_neg]
  rintro ⟨x, _⟩
  exact x h4

end Sys2Proof.Machine
end

