-- ==== Sys2Proof/Laws/Step.lean ====
section
/-! SUPPORT. A step and the next mover of the agenda. -/

namespace Sys2Proof.Machine

open Sys2Proof

/-- Outside port programs a step is the advance of the head of the agenda, or of an idle mover. -/
theorem step_agenda (s : State) (m : Mover) (rest : List Mover) (hp : s.portRun = none) (ha : s.agenda = m :: rest) :
    step s = s.advance m rest := by
  unfold step
  rw [hp, ha]

/-- A mover whose turn has not passed, with no context that must issue before it, acts. -/
theorem advance_runs (s : State) (m : Mover) (rest : List Mover) (hl : s.turn.passed m.rank = false) (hf : s.forced m = none) :
    s.advance m rest = State.runMover { s with agenda := rest } m := by
  unfold State.advance
  rw [hl]
  simp [hf]

end Sys2Proof.Machine
end

