-- ==== Sys2Proof/Tests/Slice0.lean ====
section
/-! SUPPORT. The model's own tests: ill-formed terms refused, words of the spec's tables and examples decoded, single steps, and for every
statement with hypotheses a state and operands that meet them. -/

namespace Sys2Proof.Tests

open Sys2Proof Sys2Proof.Machine

set_option Elab.async false

/-! ## A small state -/

/-- A task header that asks for two units of each resource. -/
def hdr2 : Header := { spad := 2, acc := 2, slots := 2, chan := 2, wst := 2, slLen := 0, slOff := 0 }

/-- A launch whose page table stands at 0x1000. -/
def launch1 : Launch :=
  { port := 0, tag := 7, caddr := 0x200, ptroot := 0x1000, tlim := 0, accepted := 0, vec := 1, noint := false, joins := 1, stat := none, done := false,
    doneAt := 0, fcnt := 0, fcore := 0xFF, fcause := 0, faddr := 0, maps := [] }

/-- A task of launch 1 on context 0 of core 0. S stands at its first word; s1 holds the base of the scratchpad window, s4 to s7 small numbers, s20 and
s21 addresses of the two 1 GiB pages that the page table maps to physical address 0: at 0x40000000 uncached, at 0x80000000 cached in L1. -/
def tst : State :=
  let s := State.reset.withWord 64 0
  let s := { s with mem := { s.mem with hbm := [(0x1000, 0x01), (0x1001, 0x10), (0x1008, 0x8F), (0x1010, 0x0F)], unitKey := [(0x40, .random 1)] } }
  let s := { s with sched := { s.sched with launches := [(1, launch1)] } }
  s.modCtx 0 (fun c => { c with
    task := some ⟨0, 1, ⟨word 0x01F0000000010020, 0, 0, 0⟩, hdr2, true, 0, false⟩
    sc := { c.sc with s := [(1, 0x01C0000000000000), (4, 5), (5, 7), (6, 8), (7, 1), (20, 0x40000000), (21, 0x80000000)] } })

/-- The small state with another agent at the cursor. -/
def tstAs (a : Agent) : State := { tst with cur := { tst.cur with agent := a } }

theorem here_any (s : State) (hp : s.sca.pend = []) (hl : s.sca.land = []) (rs : List Nat) : s.Here rs :=
  fun _ _ _ => ⟨by rw [hp]; simp, fun l h => by rw [hl] at h; cases h⟩

theorem ready_any (s : State) (ha : s.cur.agent ≠ .helper) (hp : s.sca.pend = []) (hl : s.sca.land = []) (srcs : List Nat)
    (dst : Option (Nat × Nat)) : s.Ready srcs dst :=
  ⟨fun h => absurd h ha, here_any s hp hl srcs, fun _ _ => here_any s hp hl _, fun _ _ _ _ l h => (by rw [hl] at h; cases h),
    fun _ _ _ _ l h => (by rw [hl] at h; cases h)⟩

/-- The small state is ready for any registers. -/
theorem tst_ready (srcs : List Nat) (dst : Option (Nat × Nat)) : tst.Ready srcs dst := ready_any tst (by decide) rfl rfl srcs dst

theorem tst_here (rs : List Nat) : tst.Here rs := here_any tst rfl rfl rs

theorem tst_main : tst.OnMain := rfl

theorem tst_drained : tst.Drained := ⟨rfl, rfl, rfl, rfl⟩

/-! ## Hypotheses met: integer, float and control flow -/

theorem test_IntegerResults_met : tst.Ready [4, 5] (some (6, 1)) ∧ tst.Ready [0, 0] (some (0, 3)) ∧ tst.Ready [4, 5] none ∧ tst.Here [6] :=
  ⟨tst_ready _ _, tst_ready _ _, tst_ready _ _, tst_here _⟩

theorem test_ImmediateResults_met : tst.Ready [4] (some (6, 1)) ∧ tst.Ready [] (some (6, 1)) ∧ tst.Ready [4, 5, 6] (some (0, 3)) :=
  ⟨tst_ready _ _, tst_ready _ _, tst_ready _ _⟩

theorem test_BitResults_met : tst.Ready [4] (some (6, 1)) ∧ tst.Ready [4, 5, 6] (some (6, 1)) := ⟨tst_ready _ _, tst_ready _ _⟩

theorem test_SelectAndCompare_met : tst.Ready [64 + 1, 4, 5] (some (6, 1)) ∧ tst.Ready [4, 5] (some (64 + 7, 2)) ∧
    Cond.meets .eq .d (tst.r 4) 5 ∧ ¬ Cond.meets .ltu .w (tst.r 5) (tst.r 4) ∧ (f32Of false 0x7FC00000).isNan = true ∧
    (f32Of false 0x3F800000).isFin = true :=
  ⟨tst_ready _ _, tst_ready _ _, by unfold Cond.meets Cond.relates; decide, by unfold Cond.meets Cond.relates; decide, by decide, by decide⟩

theorem test_FloatResults_met : tst.Ready [4, 5, 6] (some (6, 4)) ∧ (f32Of false 0x7FC00000).isNan = true ∧
    f32Of false 0x80000000 = .fin true 0 (-149) ∧ f32Of true 0 = .fin false 0 (-149) ∧ f32Of false 0x7F800000 = .inf false ∧
    (f32Of false 0x3F800000).lt (f32Of false 0x40000000) = true :=
  ⟨tst_ready _ _, by decide, by decide, by decide, by decide, by decide⟩

theorem test_ExactThenRound_met : (Val.fin true 3 (-1)).isFin = true ∧ tst.Ready [4] (some (6, 4)) ∧ ETy.i8.fmt = none ∧ ETy.ui64.fmt = none ∧
    ETy.f32.value false 0x7FC00000 = .nan := ⟨rfl, tst_ready _ _, rfl, rfl, by decide⟩

/-- What `add s6, s4, s5` gives on the small state. -/
def added : State := (resState tst (exec (.add ⟨0, 6, 4, 5, .d⟩) tst))

/-- What `div s6, s5, s4` leaves on the state after it: the quotient takes the place of the sum on its way, and lands after it. -/
def divided : State := (resState tst (exec (.div ⟨0, 6, 5, 4, .d⟩) tst))

theorem test_ResultsLand_met : tst.sca.land.Pairwise (fun a b => a.clk ≤ b.clk) ∧ (∀ l ∈ tst.sca.land, l.reg = 6 → l.clk ≤ tst.clk + 1) ∧
    added.sca.land = [⟨1, 1, 6, 12, false⟩] ∧ divided.sca.land = [⟨1, 1, 6, 1, true⟩] :=
  ⟨List.Pairwise.nil, fun _ h => (List.not_mem_nil h).elim, by decide, by decide +kernel⟩

theorem test_TrapInstruction_met : tst.OnMain ∧ tst.me.trap.phase = .none := ⟨rfl, rfl⟩

theorem test_ControlFlowFollows_met : tst.OnMain ∧ (tstAs .trapCore).cur.agent = .trapCore := ⟨rfl, rfl⟩

theorem test_BranchesGo_met : tst.Ready [4, 5] none ∧ Cond.meets .eq .d (tst.r 4) (tst.r 4) ∧ ¬ Cond.meets .eq .d (tst.r 4) (tst.r 5) ∧
    (tst.r 6).toNat % 8 = 0 ∧ tst.cur.agent ≠ .helper ∧ (tst.r 2).toNat % 8 = 0 ∧ tst.r 4 ≠ 1 ∧ tst.r 7 = 1 :=
  ⟨tst_ready _ _, by unfold Cond.meets Cond.relates; decide, by unfold Cond.meets Cond.relates; decide, by decide, by decide, by decide, by decide, by decide⟩

theorem test_MisalignedTargets_met : tst.OnMain ∧ tst.me.trap.phase = .none ∧ tst.Ready [4] none ∧ (tst.r 4).toNat % 8 ≠ 0 :=
  ⟨rfl, rfl, tst_ready _ _, by decide⟩

theorem test_MisalignedRet_met : ((tst.modMe (fun c => { c with sc := { c.sc with s := [(2, 4)] } })).r 2).toNat % 8 ≠ 0 := by decide

theorem test_TestBranches_met : (⟨0, .sem 255, false, 4, 0⟩ : TstbF).src = .sem 255 ∧ tst.cur.agent ≠ .helper ∧ tst.Ready [4] none :=
  ⟨rfl, by decide, tst_ready _ _⟩

theorem test_TestBranches_mem_met : (⟨0, .mem 20, false, 4, 0⟩ : TstbF).src = .mem 20 ∧ tst.Ready [4, 20] none ∧ (tst.r 20).toNat % 8 = 0 ∧
    tst.xlat 0 false .load (tst.r 20) = .ok (.loc 0 0 2 0) ∧ tst.me.path.loads = [] ∧ tst.me.path.stores = [] ∧ tst.poisoned (.loc 0 0 2 0) 8 = false ∧
    ({ tst with mem := { tst.mem with poison := [5] } } : State).poisoned (.loc 0 0 2 0) 8 = true :=
  ⟨rfl, tst_ready _ _, by decide, by decide, rfl, rfl, by decide, by decide⟩

/-- The small state with s4 pending. -/
def tstPend : State := tst.modMe (fun c => { c with sc := { c.sc with pend := [4] } })

theorem test_PendingRegistersWait_met : tstPend.OnMain ∧ ¬ tstPend.Here [4, 5, 6] ∧ ¬ tstPend.Here [4, 6] ∧ ¬ tstPend.Here [4, 5, 6, 7] ∧ ¬ divided.Here [6] :=
  ⟨rfl, fun h => (h 4 (by decide) (by decide)).1 (by decide), fun h => (h 4 (by decide) (by decide)).1 (by decide),
    fun h => (h 4 (by decide) (by decide)).1 (by decide),
    fun h => absurd ((h 6 (by decide) (by decide)).2 ⟨1, 1, 6, 1, true⟩ (by decide +kernel) rfl rfl) (by decide +kernel)⟩

/-- The small state with CHECK.EN, while a product is on its way to s4. -/
def tstCheck : State := tst.modMe (fun c => { c with sys := { c.sys with check := true }, sc := { c.sc with land := [⟨3, 0, 4, 9, false⟩] } })

theorem test_CheckedIssueTraps_met : tstCheck.OnMain ∧ tstCheck.me.trap.phase = .none ∧ tstCheck.me.sys.check = true ∧ tstCheck.Here [4, 5, 6] ∧
    (∃ l ∈ tstCheck.sca.land, l.reg = 4 ∧ tstCheck.clk < l.clk) ∧ (∃ l ∈ tstCheck.sca.land, l.reg = 4 ∧ tstCheck.clk < l.clk ∧ tstCheck.clk + 3 ≤ l.clk) :=
  ⟨rfl, rfl, rfl, fun r _ _ => ⟨List.not_mem_nil, fun l h _ hv => by cases List.mem_singleton.1 h; cases hv⟩, ⟨_, List.mem_singleton.2 rfl, by decide, by decide⟩, ⟨_, List.mem_singleton.2 rfl, by decide, by decide, by decide⟩⟩

/-- The small state with an instruction that M has still to start. -/
def tstBusy : State := tst.modMe (fun c => c.modEng (fun g => { g with qM := [⟨1, 0, word 0x400C000000000000, 0, 0, 0⟩] }))

/-- The small state with a store in its queue. -/
def tstStore : State :=
  tst.modMe (fun c => c.plusStore { kind := .store 9, place := .spad 0 8, va := word 0x01C0000000000008, size := 8, ord := .rlx, scope := .core, hint := .nh, pc := 0, seq := 0, sent := [] })

theorem tst_met : tst.Met := ⟨by decide, rfl, fun _ h => (List.not_mem_nil h).elim, fun _ h => by cases h⟩

theorem tstBusy_unmet : ¬ tstBusy.Met := fun h => absurd (h.queues .M (by decide)) (by decide)

/-- The small state on the clk of an engine's last completion. -/
def tstEnded : State := tst.modMe (fun c => c.modEng (fun g => { g with doneAt := some 0 }))

theorem test_SyncMarkPref_met : tst.OnMain ∧ tst.Met ∧ ¬ tstBusy.Met ∧ ¬ tstEnded.Met ∧ tst.me.path.loads = [] ∧
    tst.me.path.stores = [] ∧ tst.me.path.remStores = [] ∧ tstStore.me.path.stores ≠ [] :=
  ⟨rfl, tst_met, tstBusy_unmet, fun h => absurd (h.done 0 rfl) (by decide), rfl, rfl, rfl, by decide⟩

theorem test_SyncMarkPref_pref_met : tst.Ready [4] none ∧ tst.xlat 0 false .load (tst.based 21 (64 : BitVec 20)) = .ok (.loc 64 0 0 0) ∧
    (tst.core 0).tlb = [] ∧ tst.xlat 0 false .load (tst.based 1 (8 : BitVec 20)) = .ok (.spad 0 8) ∧ Place.pa? (.spad 0 8) = none ∧
    tst.xlat 0 false .load (tst.based 1 (8192 : BitVec 20)) = .fault 7 1 ∧ Place.cached (.loc 64 0 2 0) = false ∧ (Place.pa? (.loc 64 0 2 0)).isSome = true :=
  ⟨tst_ready _ _, by decide, rfl, by decide, rfl, by decide, rfl, rfl⟩

theorem test_FenceOrders_met : tst.OnMain ∧ tst.Drained := ⟨rfl, tst_drained⟩

/-- S of the small state held at an xfence, with nothing in the streams. -/
def tstHeld : State := tst.modMe (fun c => { c with sc := { c.sc with hold := .xfence 0 ⟨0, .dev, 2, 1⟩, seq := 1 } })

theorem test_CrossFences_met : tst.OnMain ∧ tstHeld.me.trap.phase = .none ∧ tst.Drained ∧ tstHeld.sca.hold = .xfence 0 ⟨0, .dev, 2, 1⟩ ∧
    tstHeld.fromPassed 0 0 ⟨0, .dev, 2, 1⟩ = true ∧ (tstAs .M).cur.agent ∈ [Agent.C, .M, .R, .K] ∧ (tstAs .M).me.eng.wfails = [] ∧
    (tstAs .M).doneBefore 0 .M .dev ∧ (tstAs .M).doneBefore 0 .M .dom :=
  ⟨rfl, rfl, tst_drained, rfl, by decide, by decide, rfl, ⟨⟨rfl, rfl⟩, rfl, fun h => by cases h⟩, ⟨⟨rfl, rfl⟩, rfl, fun _ => by decide⟩⟩

/-- S of the small state held at an xfence that M has still to pass. -/
def tstHeldM : State :=
  tst.modMe (fun c => { c with
    sc := { c.sc with hold := .xfence 2 ⟨0, .dev, 4, 1⟩, seq := 3 }
    eng := { c.eng with qM := [⟨1, 0, word 0x400C000000000000, 0, 0, 0⟩, ⟨2, 8, word 0xA040000000000000, 0, 0, 0⟩] } })

theorem test_CrossFences_wait_met : tstHeldM.sca.hold = .xfence 2 ⟨0, .dev, 4, 1⟩ ∧ tstHeldM.fromPassed 0 2 ⟨0, .dev, 4, 1⟩ = false := ⟨rfl, by decide⟩

theorem test_TaskEnds_met : tst.OnMain ∧ tst.AtEnd ∧ (∃ k, tst.me.task = some k ∧ k.launch = 1) ∧ ¬ tstBusy.Met :=
  ⟨rfl, ⟨tst_met, by decide, rfl, tst_drained⟩, ⟨_, rfl, rfl⟩, tstBusy_unmet⟩

/-! ## Hypotheses met: the S path -/

theorem test_LoadsQueue_met : tst.OnMain ∧ tst.Ready [1] none ∧ tst.Here [6] ∧ (tst.based 1 (8 : BitVec 20)).toNat % Size.bytes .d = 0 ∧
    tst.xlat 0 false .load (tst.based 1 (8 : BitVec 20)) = .ok (.spad 0 8) ∧ tst.xlat 0 false .load (tst.r 1 + tst.r 6) = .ok (.spad 0 8) :=
  ⟨rfl, tst_ready _ _, tst_here _, by decide, by decide, by decide⟩

theorem test_StoresQueue_met : tst.OnMain ∧ tst.Ready [1, 4] none ∧ (tst.based 1 (8191 : BitVec 20)).toNat % Size.bytes .b = 0 ∧
    tst.xlat 0 false .store (tst.based 1 (8191 : BitVec 20)) = .ok (.spad 0 8191) ∧ tst.xlat 0 false .store (tst.r 1 + tst.r 6) = .ok (.spad 0 8) ∧
    tst.xlat 0 false .vector (tst.based 20 (32 : BitVec 8)) = .ok (.loc 32 0 2 0) :=
  ⟨rfl, tst_ready _ _, by decide, by decide, by decide, by decide⟩

theorem test_AccessesTurnedAway_met : tst.OnMain ∧ tst.me.trap.phase = .none ∧ tst.Ready [1, 4] none ∧ tst.Here [6] ∧
    (tst.based 1 (1 : BitVec 20)).toNat % Size.bytes .d ≠ 0 ∧ tst.xlat 0 false .load (tst.based 1 (8192 : BitVec 20)) = .fault 7 1 :=
  ⟨rfl, rfl, tst_ready _ _, tst_here _, by decide, by decide⟩

theorem test_AtomicsPerform_met : tst.AtomReady [1, 4] [6] (tst.based 1 (8 : BitVec 14)) 8 .atomic (.spad 0 8) ∧
    tst.AtomReady [20, 4, 5, 6, 7] [8, 9, 10, 11] (tst.based 20 (32 : BitVec 14)) 32 .vector (.loc 32 0 2 0) :=
  ⟨⟨rfl, tst_ready _ _, tst_here _, by decide, by decide, rfl, tst_drained, by decide⟩,
    ⟨rfl, tst_ready _ _, tst_here _, by decide, by decide, rfl, tst_drained, by decide⟩⟩

/-! ## Hypotheses met: memory -/

theorem ctx_of (s : State) (c0 : Ctx) (h : s.ctxs = [(0, c0)]) (c : Nat) : s.ctx c = if c = 0 then c0 else .fresh := by
  unfold State.ctx Map.getD; rw [h]; by_cases hc : c = 0
  · simp [Map.find, hc]
  · simp [Map.find, hc, Ne.symm hc]

/-- The small state and its changes are in canonical form, where the context's own memories and the trap cores' are empty. -/
theorem memOk_of (s : State) (c0 : Ctx) (h : s.ctxs = [(0, c0)]) (h1 : Mem.wf s.mem.hbm = true) (h2 : s.mem.clus = []) (h3 : s.mem.chip = [])
    (h4 : s.mem.flash = []) (h5 : s.host.mem = []) (h6 : c0.parts.spad = []) (h7 : c0.parts.wst = []) (h8 : ∀ k, (s.core k).trap.mem = []) : s.MemOk where
  hbm := h1
  clus := by rw [h2]; rfl
  chip := by rw [h3]; rfl
  flash := by rw [h4]; rfl
  host := by rw [h5]; rfl
  spad := fun c => by rw [ctx_of s c0 h]; split <;> simp [h6, Ctx.fresh, Mem.wf]
  wst := fun c => by rw [ctx_of s c0 h]; split <;> simp [h7, Ctx.fresh, Mem.wf]
  trap := fun k => by rw [h8]; rfl

theorem tst_memOk : tst.MemOk := memOk_of tst _ rfl (by decide) rfl rfl rfl rfl rfl rfl (fun _ => rfl)

theorem test_MemoryReadsBack_met : tst.MemOk ∧ tst.Home (.spad 0 8) ∧ tst.Home (.loc 64 0 2 0) ∧ Place.fits (.clus 0 (2 ^ 26 - 8)) 8 ∧
    Place.fits (.host 1 (2 ^ 64 - 4)) 4 := ⟨tst_memOk, trivial, by unfold State.Home; decide, by unfold Place.fits; decide, by unfold Place.fits; decide⟩

theorem test_MemoryKeepsOthers_met : tst.MemOk ∧ tst.Home (.loc 64 0 2 0) ∧ tst.sameKey (.loc 64 0 2 0) (.loc 72 0 0 0) ∧
    (∀ i < 8, (Place.add (.loc 64 0 2 0) i).same (.loc 72 0 0 0) = false) :=
  ⟨tst_memOk, by unfold State.Home; decide, rfl, by decide⟩

/-- A store of 8 bytes at a place, with an ordering and a scope. -/
def stEnt (p : Place) (o : Ord) (sc : Scope) : StEnt := ⟨.store 0x0102030405060708, p, 0, 8, o, sc, .nh, 0, 4, []⟩

/-- The small state with a store queue, and with a load queue and the register 8 pending. -/
def tstSt (es : List StEnt) : State := tst.modMe (fun c => { c with path := { c.path with stores := es } })
def tstLd (ls : List LdEnt) (es : List StEnt) : State :=
  tst.modMe (fun c => { c with path := { c.path with loads := ls, stores := es }, sc := { c.sc with pend := [8] } })

theorem tstSt_head (e : StEnt) (es : List StEnt) (h : e.sent = []) : (tstSt (e :: es)).AtHead 0 e es :=
  ⟨rfl, fun _ h => (List.not_mem_nil h).elim, rfl, h⟩

theorem tstSt_memOk (es : List StEnt) : (tstSt es).MemOk := memOk_of _ _ rfl (show Mem.wf tst.mem.hbm = true by decide) rfl rfl rfl rfl rfl rfl (fun _ => rfl)

theorem test_StoresPerform_met :
    (tstSt [stEnt (.loc 64 0 2 0) .rlx .core, stEnt (.spad 0 8) .rlx .core]).AtHead 0 (stEnt (.loc 64 0 2 0) .rlx .core) [stEnt (.spad 0 8) .rlx .core] ∧
    (∀ f ∈ [stEnt (.spad 0 8) .rlx .core], f.place ≠ (.loc 64 0 2 0) ∨ f.size ≠ 8) ∧
    (tstSt [stEnt (.loc 64 0 2 0) .rlx .core, stEnt (.spad 0 8) .rlx .core]).MemOk ∧ (tstSt [stEnt (.spad 0 8) .rlx .core]).Home (.loc 64 0 2 0) ∧
    Place.cached (.loc 64 0 2 0) = false ∧ (stEnt (.loc 64 0 2 0) .rlx .core).isRel = false ∧
    Map.find ((tstSt [stEnt (.loc 64 0 2 0) .rlx .core, stEnt (.spad 0 8) .rlx .core]).core 0).l1 1 = none :=
  ⟨tstSt_head _ _ rfl, by decide, tstSt_memOk _, by unfold State.Home; decide, rfl, rfl, by decide⟩

theorem test_StoresPerform_release_met : (tstSt [stEnt (.spad 0 8) .rel .dev]).AtHead 0 (stEnt (.spad 0 8) .rel .dev) [] ∧
    (tstSt [stEnt (.spad 0 8) .rel .dev]).MemOk ∧ (stEnt (.spad 0 8) .rel .dev).isRel = true ∧ (stEnt (.spad 0 8) .rel .dev).scope ≠ .core ∧
    ((tstSt [stEnt (.spad 0 8) .rel .dev]).ctx 0).path.fails = [] ∧ ((tstSt [stEnt (.spad 0 8) .rel .dev]).ctx 0).trap.phase = .none :=
  ⟨tstSt_head _ _ rfl, tstSt_memOk _, rfl, by decide, rfl, rfl⟩

/-- The small state whose release store stands behind an access that failed. -/
def tstFail (e : StEnt) : State := (tstSt [e]).modMe (fun c => { c with path := { c.path with fails := [⟨7, 2, 0x40⟩] } })

theorem test_StoresPerform_fails_met : (tstFail (stEnt (.spad 0 8) .rel .dev)).AtHead 0 (stEnt (.spad 0 8) .rel .dev) [] ∧
    ((tstFail (stEnt (.spad 0 8) .rel .dev)).ctx 0).path.fails = [⟨7, 2, 0x40⟩] ∧ ((tstFail (stEnt (.spad 0 8) .rel .dev)).ctx 0).trap.phase = .none ∧
    (tstSt [stEnt (.remote 5 64 0) .rlx .dev]).AtHead 0 (stEnt (.remote 5 64 0) .rlx .dev) [] :=
  ⟨⟨rfl, fun _ h => (List.not_mem_nil h).elim, rfl, rfl⟩, rfl, rfl, tstSt_head _ _ rfl⟩

theorem test_StoresLodge_met : (tstSt [stEnt (.loc 56 0 0 0) .rlx .core]).AtHead 0 (stEnt (.loc 56 0 0 0) .rlx .core) [] ∧ 56 % 64 + 8 ≤ 64 ∧
    Map.find ((tstSt [stEnt (.loc 56 0 0 0) .rlx .core]).core 0).l1 (56 / 64) = none ∧ (stEnt (.loc 56 0 0 0) .rlx .core).hint = .nh ∧
    (((tstSt [stEnt (.loc 56 0 0 0) .rlx .core]).core 0).l1.filter (fun x => x.1 % 256 = 56 / 64 % 256)).length < 8 :=
  ⟨tstSt_head _ _ rfl, by decide, by decide, rfl, by decide⟩

/-- A load of 2 bytes into s8 at a place. -/
def ldEnt (p : Place) (o : Ord) (sc : Scope) : LdEnt := ⟨8, p, 0, 2, true, o, sc, .nh, 0, 5, none⟩

theorem test_LoadsReturn_met : ((tstLd [ldEnt (.loc 64 0 2 0) .acq .dev] []).ctx 0).path.loads = [ldEnt (.loc 64 0 2 0) .acq .dev] ∧
    ((tstLd [ldEnt (.loc 64 0 2 0) .acq .dev] []).ctx 0).path.stores = [] ∧ Place.cached (.loc 64 0 2 0) = false ∧
    (tstLd [ldEnt (.loc 64 0 2 0) .acq .dev] []).poisoned (.loc 64 0 2 0) 2 = false ∧
    ((tstLd [ldEnt (.spad 0 8) .rlx .core] [{ stEnt (.spad 0 8) .rlx .core with size := 2 }]).ctx 0).path.stores =
      [{ stEnt (.spad 0 8) .rlx .core with size := 2 }] ∧ Place.pa? (.spad 0 8) = none ∧ (ldEnt (.spad 0 8) .rlx .core).size ∈ [1, 2, 4, 8] :=
  ⟨rfl, rfl, rfl, by decide, rfl, rfl, by decide⟩

theorem test_LoadsReturn_remote_met : ((tstLd [ldEnt (.remote 5 64 0) .rlx .core] []).ctx 0).path.loads = [ldEnt (.remote 5 64 0) .rlx .core] ∧
    (ldEnt (.remote 5 64 0) .rlx .core).req = none ∧ ((tstLd [ldEnt (.remote 5 64 0) .rlx .core] []).ctx 0).path.stores = [] ∧
    (∃ e ∈ ((tstLd [ldEnt (.remote 5 64 0) .rlx .core] [stEnt (.remote 5 64 0) .rlx .core]).ctx 0).path.stores,
      e.seq < (ldEnt (.remote 5 64 0) .rlx .core).seq ∧ Place.meets (.remote 5 64 0) 2 e.place e.size = true) ∧
    (ldEnt (.loc 64 0 2 0) .rlx .core).place.errDetail = Place.errDetail (.loc 64 0 2 0) ∧
    ({ tst with mem := { tst.mem with poison := [8197] } } : State).poisoned (.loc 64 0 2 0) 2 = true :=
  ⟨rfl, rfl, rfl, ⟨_, List.mem_singleton.2 rfl, by decide, by decide⟩, rfl, by decide⟩

/-- A memory reduction, and a vector one, on the page at 0x40000000. -/
def redEnt : StEnt := ⟨.mred (.float .f32 false false false) 0x3F800000, .loc 64 0 2 0, 0x40000040, 4, .rlx, .dev, .nh, 0, 4, []⟩
def vredEnt : StEnt := ⟨.vmred (.fixed 0) [1, 2, 3, 4], .loc 96 0 2 0, 0x40000060, 32, .rlx, .dev, .nh, 0, 4, []⟩

theorem test_ReductionsPerform_met : (tstSt [redEnt]).AtHead 0 redEnt [] ∧ redEnt.place.isRemote = false ∧
    (tstSt [redEnt]).poisoned redEnt.place 4 = false ∧ (tstSt [vredEnt, redEnt]).AtHead 0 vredEnt [redEnt] :=
  ⟨tstSt_head _ _ rfl, rfl, by decide, tstSt_head _ _ rfl⟩

theorem test_ReductionsPerform_other_met : (tstFail { redEnt with ord := .rel }).AtHead 0 { redEnt with ord := .rel } [] ∧
    ({ redEnt with ord := .rel } : StEnt).isRel = true ∧ (∀ v, redEnt.kind ≠ .store v) ∧
    (tstSt [{ redEnt with place := .remote 5 64 0 }]).AtHead 0 { redEnt with place := .remote 5 64 0 } [] :=
  ⟨⟨rfl, fun _ h => (List.not_mem_nil h).elim, rfl, rfl⟩, rfl, (fun v h => by cases h), tstSt_head _ _ rfl⟩

/-- A line of L1 whose last byte is dirty, and the small state with it. -/
def tstLine : Line := ⟨0, 0, false, List.replicate 64 7, List.replicate 63 false ++ [true]⟩
def tstL1 : State := tst.modCore 0 (fun k => { k with l1 := [(1, tstLine)] })

theorem tstL1_memOk : tstL1.MemOk := memOk_of tstL1 _ rfl (by decide) rfl rfl rfl rfl rfl rfl (fun k => by
  unfold tstL1 State.modCore; rw [State.core_setCore]; split <;> rfl)

theorem test_LinesLeave_met : tstL1.MemOk ∧ tstL1.Lined 0 ∧ Map.find (tstL1.core 0).l1 1 = some tstLine ∧ tstLine.dirty[63]? = some true ∧
    Place.pa? (.loc 64 0 0 0) = some (64, 0) := by
  refine ⟨tstL1_memOk, fun n l h => ?_, by decide, by decide, rfl⟩
  have hl : (tstL1.core 0).l1 = [(1, tstLine)] := rfl
  rw [hl] at h
  unfold Map.find Map.find at h
  split at h
  · cases h; decide
  · cases h

/-! ## Hypotheses met: semaphores and holds -/

/-- The small state with a full semaphore 255. -/
def tstSem : State := tst.modMe (fun c => { c with sems := [(255, ⟨65535, 1, 1⟩)] })

theorem test_SemaphoresCount_met : tst.OnMain ∧ (1#16).toNat ≤ (tstSem.semOf tstSem.cur.cid 255).count ∧
    (tstSem.semOf tstSem.cur.cid 255).vis.getLsbD 0 = true ∧ (tst.semOf tst.cur.cid 255).count < (1#16).toNat ∧ tst.Ready [] none ∧ tst.Here [6] ∧
    (tst.semOf tst.cur.cid 0).count + (65535#16).toNat ≤ 65535 ∧ tstSem.me.trap.phase = .none ∧
    65535 < (tstSem.semOf tstSem.cur.cid 255).count + (1#16).toNat :=
  ⟨rfl, by decide, by decide, by decide, tst_ready _ _, tst_here _, by decide, rfl, by decide⟩

/-- The small state with S held. -/
def tstOn (h : Hold) : State := tst.modMe (fun c => { c with sc := { c.sc with hold := h } })

/-- A command on channel 1 that started at the first clk, with a promise. -/
def cmdOf (w promise : Word) : Cmd := { Cmd.fresh ⟨1, 0, w, 0, 0, 0⟩ 0 .fresh .fresh with promise := promise }

/-- S of the small state waits in sleepu for the promise of channel 1. -/
def tstLate (promise : Word) : State := (tstOn (.sleepu 0 1)).modMe (fun c => { c with eng := { c.eng with chans := [(1, cmdOf 0x000C000020000000 promise)] } })

/-- A waita parked at the page of 0x40000000. -/
def waitaAt (d : Nat) (k : Bool) : WaitaSt := ⟨8, 8, false, .acq, .dev, .loc 64 0 2 0, 0x40000040, d, k, 0⟩

theorem test_ParkedStreams_met : tst.OnMain ∧ (tst.r 6).getLsbD 0 = false ∧ (tst.r 5).getLsbD 0 = true ∧
    (tstLate 0x11).sca.hold = .sleepu 0 1 ∧ (tstLate 0x11).me.trap.phase = .none ∧ ¬ (tstLate 0x11).LateOn 1 0 ∧ (tstLate 1).LateOn 1 0 ∧
    (tst.r 0).toNat % 65536 = 0 ∧ (tst.r 4).toNat % 65536 ≠ 0 ∧ (tstOn (.yield 0)).sca.hold = .yield 0 ∧ 0 ≤ (tstOn (.yield 0)).clk :=
  ⟨rfl, by decide, by decide, rfl, rfl, (by rintro ⟨m, h, -, h'⟩; cases h; revert h'; decide), ⟨_, rfl, by decide, by decide⟩, by decide, by decide, rfl, by decide⟩

/-- The small state with a time in s5 that is still to come. -/
def tstSoon : State := tst.modMe (fun c => { c with sc := { c.sc with s := [(5, 0x11)] } })

theorem test_ParkedStreams_sleepu_met : (tstSoon.r 5).getLsbD 0 = true ∧ tstSoon.clk < (tstSoon.r 5).toNat / 16 := by decide

theorem test_ParkedStreams_waita_met : tst.OnMain ∧ tst.Ready [20, 0, 4] none ∧ (tst.based 20 (64 : BitVec 20)).toNat % Size.bytes .d = 0 ∧
    tst.xlat 0 false .wait (tst.based 20 (64 : BitVec 20)) = .ok (.loc 64 0 2 0) ∧ tst.me.path.loads = [] ∧
    (∀ e ∈ tstStore.me.path.stores, Place.meets (.loc 64 0 2 0) 8 e.place e.size = false) ∧ tst.poisoned (.loc 64 0 2 0) 8 = false ∧
    (tstOn (.waita (waitaAt 9 true))).sca.hold = .waita (waitaAt 9 true) ∧ (waitaAt 0 false).deadline ≤ tst.clk ∧ (waitaAt 9 true).ord ≠ .sc ∧
    (waitaAt 9 true).size ∈ [1, 2, 4, 8] ∧ (tstOn (.waita (waitaAt 9 true))).poisoned (waitaAt 9 true).place 8 = false :=
  ⟨rfl, tst_ready _ _, by decide, by decide, rfl, by decide, by decide, rfl, by decide, by decide, by decide, by decide⟩

/-- An .sc access that has not issued, or issued at clk 0; the small state 96 clk later. -/
def scAcc (k : ScKind) (at_ : Option Nat) : ScAcc := ⟨k, .loc 64 0 2 0, 0x40000040, 8, 0, at_⟩
def tstSc (k : ScKind) (at_ : Option Nat) (clk : Nat) : State := { tstOn (.sc (scAcc k at_)) with clk := clk }

theorem test_SlotWheel_met : tst.ScReady [20, 4, 5, 6, 7] [8] (tst.based 20 (64 : BitVec 20)) 8 .scLoad (.loc 64 0 2 0) ∧
    tst.ScReady [20, 4] [] (tst.based 20 (64 : BitVec 20)) 8 .scStore (.loc 64 0 2 0) ∧
    tst.ScReady [20, 4, 5, 6, 7] [8, 9, 10, 11] (tst.based 20 (64 : BitVec 14)) 32 .scAtomic (.loc 64 0 2 0) :=
  ⟨⟨rfl, tst_ready _ _, tst_here _, by decide, by decide, rfl, tst_drained⟩, ⟨rfl, tst_ready _ _, tst_here _, by decide, by decide, rfl, tst_drained⟩,
    ⟨rfl, tst_ready _ _, tst_here _, by decide, by decide, rfl, tst_drained⟩⟩

/-- The small state whose core's position was taken on the same clk. -/
def tstTaken : State := (tstSc (.load 8 true) none 256).modCore 0 (fun k => { k with lastWheel := some (256, 1) })

theorem test_SlotWheel_issue_met : (tstSc (.load 8 true) none 256).sca.hold = .sc (scAcc (.load 8 true) none) ∧ (tstSc (.load 8 true) none 256).TakesWheel ∧
    ¬ tstTaken.TakesWheel ∧ ¬ (tstSc (.load 8 true) none 255).TakesWheel :=
  ⟨rfl, ⟨by decide, (by intro t c h; cases h), fun _ h => absurd h (by decide)⟩, fun h => absurd rfl (h.2.1 256 1 rfl).1, fun h => absurd h.1 (by decide)⟩

theorem test_SlotWheel_perform_met : (tstSc (.load 8 true) (some 256) 352).clk = 256 + 96 ∧
    ((tstSc (.load 8 true) (some 256) 352).flushPlace 0 (.loc 64 0 2 0)).poisoned (.loc 64 0 2 0) 8 = false ∧
    (tstSc (.store 9) (some 256) 352).sca.hold = .sc (scAcc (.store 9) (some 256)) ∧ (tstSc (.load 8 true) (some 256) 352).me.trap.phase = .none ∧
    (tstSc (.waita 8 true 0 0 true) (some 256) 352).sca.hold = .sc (scAcc (.waita 8 true 0 0 true) (some 256)) :=
  ⟨rfl, by decide, rfl, rfl, rfl⟩

/-! ## Hypotheses met: tasks, bunches, the system -/

/-- The small state at the point of coherence of a record at 0x40000000. -/
def tstSpawn : State := ((tst.noteXlat 0 (tst.r 20)).wbAll 0).flushPlace 0 (.loc 0 0 2 0)

theorem test_SpawnEnters_met : tst.OnMain ∧ tst.me.trap.phase = .none ∧ tst.Ready [20] none ∧ tst.Here [6] ∧ (tst.r 20).toNat % 32 = 0 ∧
    tst.xlat 0 false .spawn (tst.r 20) = .ok (.loc 0 0 2 0) ∧ tst.Drained ∧ tstSpawn.poisoned (.loc 0 0 2 0) 32 = false ∧
    (Record.ofBytes (tstSpawn.rd 1 (.loc 0 0 2 0) 32)).clean = true ∧ (Record.ofBytes (tstSpawn.rd 1 (.loc 0 0 2 0) 32)).bunch = 0 ∧
    (Record.ofBytes (List.replicate 32 0xFF)).clean = false ∧ ¬ tst.NoRoom ∧ (tstOn (.spawn 6 [])).sca.hold = .spawn 6 [] :=
  ⟨rfl, rfl, tst_ready _ _, tst_here _, by decide, by decide, tst_drained, by decide, by decide, by decide, by decide, by unfold State.NoRoom; decide, rfl⟩

/-- A pooled entry of launch 1 that still joins n. -/
def pooled (n : Nat) : Entry :=
  { gen := 3, record := ⟨0, 0, 0, 0⟩, first := ⟨0, 0, 0, 0⟩, join := n, launch := 1, st := .pooled, hdr := none, saveDone := false, since := 0, num := 0, prio := 0, disp := 0,
    aged := 0, resv := false, qforce := false }

/-- The small state with a pooled entry 5, whose handle stands in s8. -/
def tstPool (n : Nat) : State :=
  ({ tst with sched := { tst.sched with store := [(5, pooled n)] } } : State).modMe (fun c => { c with sc := { c.sc with s := [(8, 0x300005)] } })

theorem test_ArriveAndEst_met : (tstPool 2).OnMain ∧ (tstPool 2).Drained ∧ (tstPool 2).names ((tstPool 2).r 8) 5 (pooled 2) ∧ (pooled 2).st = .pooled ∧
    (pooled 2).launch = (tstPool 2).me.launch ∧ 2 ≤ (pooled 2).join ∧ (pooled 1).join ≤ 1 ∧ (tstPool 1).names ((tstPool 1).r 8) 5 (pooled 1) ∧
    (∀ e v, tst.names (tst.r 4) e v → v.st ≠ .pooled ∨ v.launch ≠ tst.me.launch) :=
  ⟨rfl, ⟨rfl, rfl, rfl, rfl⟩, ⟨rfl, by decide, by decide⟩, rfl, rfl, by decide, by decide, ⟨rfl, by decide, by decide⟩,
    fun e v h => by have : Map.find tst.sched.store e = none := rfl; rw [h.1] at this; cases this⟩

/-- A bunch of launch 1 placed on cluster 0, and the small state as a member or not of it, its handle 7 in s5. -/
def bunchOf (ms arr : List Nat) : Bunch := ⟨1, 8, some 0, ms, arr, 4⟩
def tstBunch (mem : Bool) (ms arr : List Nat) : State :=
  ({ tst with sched := { tst.sched with bunches := [(7, bunchOf ms arr)] } } : State).modMe (fun c => { c with
    task := c.task.map (fun k => { k with bunch := 7, member := mem }) })

theorem test_BunchesForm_met : tst.OnMain ∧ tst.Ready [6] none ∧ tst.Here [9] ∧ (1 ≤ (tst.r 6).toNat ∧ (tst.r 6).toNat ≤ 8 ∧ tst.sched.bunches.length < 4096) ∧
    ¬ (1 ≤ (tst.r 0).toNat ∧ (tst.r 0).toNat ≤ 8 ∧ tst.sched.bunches.length < 4096) ∧
    (∃ b k, Map.find (tstBunch false [] []).sched.bunches ((tstBunch false [] []).r 5).toNat = some b ∧ (tstBunch false [] []).me.task = some k ∧
      b.placed = some ((tstBunch false [] []).myCore / 4) ∧ k.member = false ∧ b.members.length < 8) ∧
    (∀ b, Map.find tst.sched.bunches (tst.r 5).toNat = some b → b.placed ≠ some (tst.myCore / 4) ∨ 8 ≤ b.members.length ∨
      (∀ k, tst.me.task = some k → k.member = true)) :=
  ⟨rfl, tst_ready _ _, tst_here _, by decide, by decide, ⟨_, _, rfl, rfl, rfl, rfl, by decide⟩, fun b h => by cases h⟩

theorem test_BunchesForm_full_met : 8 ≤ (bunchOf [0, 1, 2, 3, 4, 5, 6, 7] []).members.length ∧
    (∃ k, (tstBunch true [0] []).me.task = some k ∧ k.member = true) ∧ (∃ k, (tstBunch false [] []).me.task = some k ∧ k.member = false) ∧
    (∃ k, (tstBunch true [0, 2] []).me.task = some k ∧ k.member = true ∧ Map.find (tstBunch true [0, 2] []).sched.bunches k.bunch = some (bunchOf [0, 2] [])) ∧
    (∃ m ∈ (bunchOf [0, 2] []).members, m ≠ (tstBunch true [0, 2] []).cur.cid) ∧ (tstBunch true [0, 2] []).images = [] :=
  ⟨by decide, ⟨_, rfl, rfl⟩, ⟨_, rfl, rfl⟩, ⟨_, rfl, rfl, rfl⟩, ⟨2, by decide, by decide⟩, rfl⟩

/-- S of the small state held at a bbar. -/
def tstBbar (g : Nat) : State := (tstBunch true [0, 2] [0]).modMe (fun c => { c with sc := { c.sc with hold := .bbar g } })

theorem test_BarriersHold_met : tst.OnMain ∧ tst.me.trap.phase = .none ∧ (bunchOf [0, 2] [2]).members ≠ [] ∧ (∀ k, tst.me.task = some k → k.member = false) ∧
    (tstBunch true [0, 2] [2]).Drained ∧ (∃ k, (tstBunch true [0, 2] [2]).me.task = some k ∧ k.member = true ∧
      Map.find (tstBunch true [0, 2] [2]).sched.bunches k.bunch = some (bunchOf [0, 2] [2])) ∧
    (∀ m ∈ (bunchOf [0, 2] [2]).members, m = 0 ∨ m ∈ (bunchOf [0, 2] [2]).arrived) ∧
    (∃ m ∈ (bunchOf [0, 2] []).members, m ≠ 0 ∧ m ∉ (bunchOf [0, 2] []).arrived) ∧
    (tstBbar 3).sca.hold = .bbar 3 ∧ (∃ k, (tstBbar 3).me.task = some k ∧ k.member = true) ∧ (bunchOf [0, 2] [0]).gen ≠ 3 ∧ (bunchOf [0, 2] [0]).gen = 4 :=
  ⟨rfl, rfl, by decide, fun k h => by cases h; rfl, ⟨rfl, rfl, rfl, rfl⟩, ⟨_, rfl, rfl, rfl⟩, by decide, ⟨2, by decide, by decide⟩, rfl, ⟨_, rfl, rfl⟩, by decide, rfl⟩

/-- The small state as a task that is no system task. -/
def tstUser : State := tst.modMe (fun c => { c with task := c.task.map (fun k => { k with sys := false }) })

theorem test_SystemRegisters_met : tst.OnMain ∧ tst.Ready [] none ∧ tst.Here [6] ∧ tst.sysNamed (0x20#32).toNat = some (word 64) ∧
    tst.sysNamed (0x6FF#32).toNat ≠ none ∧ tst.sysNamed (0x700#32).toNat = none ∧ tst.me.trap.phase = .none ∧ tst.Ready [4] none ∧
    (tst.sysNamed (0x80#32).toNat).isSome = true ∧ (∃ k, tst.me.task = some k ∧ k.sys = true) ∧ ¬ (∃ k, tstUser.me.task = some k ∧ k.sys = true) ∧
    (tst.r 7).toNat < 4 ∧ 4 ≤ (tst.r 4).toNat :=
  ⟨rfl, tst_ready _ _, tst_here _, by decide, by decide, by decide, rfl, tst_ready _ _, by decide, ⟨_, rfl, rfl⟩,
    (by rintro ⟨k, h, hk⟩; cases h; cases hk), by decide, by decide⟩

/-- The small state held in a service, with an export 7 of 65,536 bytes that may only be read, and its arguments. -/
def tstSvc (n : Nat) (off len rw : Word) (maps : List HostMap) : State :=
  ({ tst with host := { tst.host with exports := [(7, ⟨0, 0, 65536, true, false⟩)] },
              sched := { tst.sched with launches := [(1, { launch1 with maps := maps })] } } : State).modMe (fun c => { c with
    sc := { c.sc with hold := .svc n [7, off, len, rw] } })

theorem test_ServicesReply_met : tst.OnMain ∧ tst.Ready [4, 5, 6, 7] none ∧ tst.Drained ∧ (tstSvc 0x11 0 0 0 []).sca.hold = .svc 0x11 [7, 0, 0, 0] ∧
    (tstSvc 0x10 0 65536 0 []).sca.hold = .svc 0x10 [7, 0, 65536, 0] ∧
    (∃ l, Map.find (tstSvc 0x10 0 65536 0 []).sched.launches 1 = some l ∧ l.maps.length < 64) ∧
    Map.find (tstSvc 0x10 0 65536 0 []).host.exports (7 : Word).toNat = some ⟨0, 0, 65536, true, false⟩ ∧
    Map.find tst.host.exports (7 : Word).toNat = none ∧ (8 : Word).toNat % 65536 ≠ 0 ∧
    ¬ ((0 : Word).toNat % 65536 ≠ 0 ∨ (65536 : Word).toNat % 65536 ≠ 0 ∨ (65536 : Word).toNat = 0 ∨
      65536 < (0 : Word).toNat + (65536 : Word).toNat ∨ 2 ≤ (1 : Word).toNat) ∧
    (1 : Word).getLsbD 0 = true ∧ 64 ≤ (List.replicate 64 (⟨0, 0, 0, 0, false⟩ : HostMap)).length :=
  ⟨rfl, tst_ready _ _, tst_drained, rfl, rfl, ⟨_, rfl, by decide⟩, by decide, by decide, by decide, by decide, by decide, by decide⟩

/-- The small state with two entries in the TLB, one of the launch's page and one of another root. -/
def tstTlb : State := tst.modCore 0 (fun k => { k with tlb := [⟨0x40000000, 2 ^ 30, 0x8F, 0x1000⟩, ⟨0x40000000, 2 ^ 30, 0x8F, 0x2000⟩] })

/-- The small state with a code range in s8 and its length in s9; the object's only loaded page is its first. -/
def tstCode (a n : Word) (locks : List (Word × Word)) (loaded : List Nat) : State :=
  ({ tst with host := { tst.host with objs := tst.host.objs.map (fun x => (x.1, { x.2 with pages := 2, loaded := loaded })) } } : State).modMe (fun c => { c with
    locks := locks, sc := { c.sc with s := [(8, a), (9, n)] } })

theorem test_TranslationAndLocks_met : tstTlb.OnMain ∧ tstTlb.Ready [4, 5] none ∧ tstTlb.Drained ∧ (∃ k, tstTlb.me.task = some k ∧ k.sys = true) ∧
    (∀ x ∈ tstTlb.ctxs, tstTlb.pendingVas x.1 = []) ∧ tst.me.trap.phase = .none ∧ (∀ k, tstUser.me.task = some k → k.sys = false) ∧
    tst.Ready [4, 5] none ∧ tst.Here [6] ∧ (tst.r 5).toNat ≠ 0 ∧ tst.objOf (tst.r 4).toNat (tst.r 5).toNat = none :=
  ⟨rfl, ready_any _ (by decide) rfl rfl _ _, ⟨rfl, rfl, rfl, rfl⟩, ⟨_, rfl, rfl⟩, by decide, rfl, (by intro k h; cases h; rfl), tst_ready _ _,
    tst_here _, by decide, by decide⟩

theorem test_TranslationAndLocks_iclk_met :
    (∃ h o, (tstCode 0x01F0000000010000 512 [] [0]).objOf 0x01F0000000010000 512 = some (h, o) ∧ o.unloaded 0x01F0000000010000 512 = false) ∧
    (∃ h o, (tstCode 0x01F000000001FFFF 2 [] [0]).objOf 0x01F000000001FFFF 2 = some (h, o) ∧ o.unloaded 0x01F000000001FFFF 2 = true) ∧
    ((tstCode 0x01F0000000010000 512 [] [0]).lockedOf 0).length + ((tstCode 0x01F0000000010000 512 [] [0]).newUnits 0 0x01F0000000010000 512).length ≤ 128 ∧
    32 ≤ (tstCode 0 0 (List.replicate 32 (0, 0)) [0]).me.locks.length ∧
    ((0x01F0000000010000, 512) : Word × Word) ∈ (tstCode 0x01F0000000010000 512 [(0x01F0000000010000, 512)] [0]).me.locks ∧
    (tstOn (.iclk 6 0 0x01F0000000010000 512)).sca.hold = .iclk 6 0 0x01F0000000010000 512 ∧
    (∀ ob, (tstOn (.iclk 6 0 5 7)).objOf 5 7 ≠ some (0, ob)) :=
  ⟨⟨_, _, rfl, by decide⟩, ⟨_, _, rfl, by decide⟩, by decide, by decide, by decide, rfl,
    fun ob h => by have : (tstOn (.iclk 6 0 5 7)).objOf 5 7 = none := by decide
                   rw [this] at h; cases h⟩

/-! ## Hypotheses met: engines -/

/-- The small state with an instruction at the head of a trailing stream, which acts. -/
def tstQ (path : Nat) (w a b c : Word) : State :=
  let s := tst.modMe (fun x => { x with eng := x.eng.setQ (agentOf path) [⟨1, 0x40, w, a, b, c⟩], sems := [(0, ⟨1, 0, 0⟩)] })
  { s with cur := { s.cur with agent := agentOf path } }

theorem tstQ_start (path : Nat) (w a b c : Word) (h : path < 4) (sg : Option (Nat × BitVec 5)) :
    (tstQ path w a b c).AtStart path ⟨none, sg⟩ ∧ (tstQ path w a b c).AtStart path ⟨some 0, sg⟩ :=
  have hb : Map.find (tstQ path w a b c).me.eng.began path ≠ some (tstQ path w a b c).clk := by
    interval_cases path <;> exact fun e => by cases e
  ⟨⟨rfl, hb, h, fun _ e => by cases e⟩, ⟨rfl, hb, h, fun _ e => by cases e; exact Nat.le_refl 1⟩⟩

theorem test_SetupsWrite_met : (tstQ 0 0 65536 0 0).AtStart 0 ⟨none, none⟩ ∧ (tstQ 2 0 65536 0 0).AtStart 2 ⟨some 0, none⟩ ∧
    (tstQ 1 0 65537 0 0).AtStart 1 ⟨none, none⟩ ∧ (∃ m, (Instr.cnestCount ⟨0, ⟨none, none⟩, 5, 4⟩).nestWrite (tstQ 0 0 65536 0 0).head.a .fresh = some m) ∧
    (Instr.rnestCount ⟨0, ⟨some 0, none⟩, 0, 4⟩).nestWrite 65537 .fresh = none ∧
    (Instr.mnestCount ⟨0, ⟨none, none⟩, 0, 4⟩).matWrite (tstQ 1 0 65537 0 0).head .fresh = none ∧
    (∃ m, (Instr.dtap ⟨0, ⟨none, none⟩, 0, 0, 0⟩).matWrite (tstQ 1 0 1 0 0).head .fresh = some m) :=
  ⟨(tstQ_start 0 _ _ _ _ (by decide) _).1, (tstQ_start 2 _ _ _ _ (by decide) _).2, (tstQ_start 1 _ _ _ _ (by decide) _).1, ⟨_, rfl⟩, rfl, rfl, ⟨_, rfl⟩⟩

/-- A fresh nest fits: all streams in space 0, FP32, one element. -/
theorem fresh_fits (j : Nat) (w g p : Bool) : NestSet.fresh.Fits j w g p where
  space := by unfold NestSet.baseW Map.getD; simp only [NestSet.fresh, Map.find]; exact ⟨by decide, fun h => absurd h (by decide)⟩
  bits := by unfold NestSet.fmtW Map.getD; simp [NestSet.fresh, Map.find]; decide
  types := ⟨.f32, .f32, by unfold NestSet.fmtW Map.getD; simp [NestSet.fresh, Map.find]; decide, by
    unfold NestSet.fmtW Map.getD; simp [NestSet.fresh, Map.find]; decide, Or.inl rfl, by decide, fun _ => by
    unfold NestSet.baseW Map.getD; simp [NestSet.fresh, Map.find]; decide, fun _ => ⟨by
    unfold NestSet.baseW Map.getD; simp [NestSet.fresh, Map.find]; decide, fun l _ => by
    unfold NestSet.stride Map.getD; simp [NestSet.fresh, Map.find]⟩, fun h => by
    unfold NestSet.fmtW Map.getD at h; simp [NestSet.fresh, Map.find] at h⟩

theorem test_CopyCommandsStart_met : (Instr.copy ⟨0, ⟨none, none⟩, 1, none, none, 9⟩).copyRow (tstQ 0 0 0 0 0).head =
      some ⟨⟨none, none⟩, 1, 9, false, false, [0], [4], none, false⟩ ∧
    (tstQ 0 0 0 0 0).AtStart 0 ⟨none, none⟩ ∧ Map.find (tstQ 0 0 0 0 0).me.eng.chans 1 = none ∧
    ((tstQ 0 0 0 0 0).program 0 0 = none ∧ (tstQ 0 0 0 0 0).program 0 1 = none) ∧ (tstQ 0 0 0 0 0).me.eng.copyNest = .fresh ∧
    (∀ j ∈ [0, 4], NestSet.fresh.Fits j (decide (4 ≤ j)) true false) ∧ spaceOf (NestSet.fresh.baseW 0) ≠ 5 ∧
    spaceOf ({ NestSet.fresh with base := [(0, 0xA000000000000000)] }.baseW 0) = 5 ∧ 2 ^ 57 ≤ (0x0200000000000000 : Word).toNat ∧ (8 : Word).toNat % 8 = 0 :=
  ⟨rfl, (tstQ_start 0 _ _ _ _ (by decide) _).1, rfl, ⟨rfl, rfl⟩, rfl, fun j _ => fresh_fits j _ _ _, by decide, by decide, by decide, by decide⟩

/-- Channel 1 of the small state runs a copy, which a new command of the channel waits for. -/
theorem test_CopyCommandsStart_busy_met : ∀ x ∈ [((1 : Nat), cmdOf 0x2000000020000000 0)], x.2.op < 3 ∨ 7 < x.2.op := by decide

/-- The state of a GO: a matrix set whose A is in the scratchpad and B in the weight store, BF16, and the tables of DGO: a map of one
entry at 0x400, a curve from 0 to 1 at 0. -/
def goSet : MatSet :=
  { MatSet.fresh with mctl := 0x11, base := [(0, 0x2000000000000000), (1, 0x8000000000000000)], dmapw := 0x100000400, dcrv := [(0, 0x80000000)] }
def tstGo : State := (tstQ 1 0 0 0 0).modMe (fun c => { c with
  eng := { c.eng with matNest := goSet }
  parts := { c.parts with spad := [(6, 0x80), (7, 0x3F), (10, 0x80), (11, 0x3F), (0x401, 0x04)] } })

theorem test_EngineCommandsStart_met : (tstQ 2 0 0 0 0).AtStart 2 ⟨none, none⟩ ∧ (tstQ 2 0 0 0 0).me.eng.red = none ∧
    (tstQ 2 0 0 0 0).redCheck .fresh ((tstQ 2 0 0 0 0).redStreams 0) = none ∧
    (tstQ 2 0 0 0 0).redCheck { NestSet.fresh with run := 1024 } ((tstQ 2 0 0 0 0).redStreams 0) = some (1, 0, 0) ∧
    (tstQ 2 0 0 0 0).mergeCheck .fresh (tstQ 2 0 0 0 0).head = none ∧ (tstQ 2 0 0x100000000 0 0).mergeCheck .fresh (tstQ 2 0 0x100000000 0 0).head = some (1, 0, 0) ∧
    tstGo.AtStart 1 ⟨none, none⟩ ∧ tstGo.me.eng.array = none ∧ tstGo.mgoCheck tstGo.me.eng.matNest 0 = none ∧
    (tstQ 1 0 0 0 0).mgoCheck .fresh 0 = some (1, 0, 0) :=
  ⟨(tstQ_start 2 _ _ _ _ (by decide) _).1, rfl, by decide, by decide, by decide, by decide, ⟨rfl, (fun e => by cases e), by decide, fun _ e => by cases e⟩, rfl, by decide, by decide⟩

set_option maxRecDepth 4096 in
theorem test_EngineCommandsStart_dgo_met : (∃ m, tstGo.dgoCheck tstGo.matCmd = .ok m) ∧ (tstQ 1 0 0 0 0).dgoCheck (tstQ 1 0 0 0 0).matCmd = .error (.fault 1 0 0) :=
  ⟨⟨_, rfl⟩, by decide +kernel⟩

theorem test_EngineCommandsStart_tiles_met : (tstQ 1 0 0 1 1).AtStart 1 ⟨none, none⟩ ∧ (tstQ 1 0 0 1 1).me.eng.drain = none ∧
    (1 ≤ (1 : Word).toNat ∧ (0 : Word).toNat + (1 : Word).toNat ≤ 64 ∧ MatSet.fresh.drainOk 8 1 = true) ∧ (1 : Word).toNat + (1 : Word).toNat ≤ tst.me.hdr.acc ∧
    ¬ (1 ≤ (1 : Word).toNat ∧ (64 : Word).toNat + (1 : Word).toNat ≤ 64 ∧ true = true) ∧ tst.me.hdr.acc < (2 : Word).toNat + (1 : Word).toNat ∧
    (mBType 0x30 = some .e4m3 ∧ (3072 : Word).toNat % 3072 = 0 ∧ (65536 : Word).toNat ≤ 65536) :=
  ⟨(tstQ_start 1 _ _ _ _ (by decide) _).1, rfl, by decide, by decide, by decide, by decide, by decide⟩

/-- A write of channel 1 failed at another device. -/
def failOf : WFail := ⟨.ch 1, 0, 1, 0, 3, false⟩

theorem test_EngineCommandsStart_drain_met : (tstQ 0 0 0 0 0).AtStart 0 ⟨none, some (1, 4)⟩ ∧ (tstQ 0 0 0 0 0).chanDone 0 1 = true ∧
    (∀ f ∈ (tstQ 0 0 0 0 0).me.eng.wfails, f.u ≠ .ch 1) ∧ failOf.u = .ch 1 ∧ Map.find (tstQ 0 0 0 0 0).me.eng.chans 1 = none :=
  ⟨(tstQ_start 0 _ _ _ _ (by decide) _).1, by decide, (fun f h => (List.not_mem_nil h).elim), rfl, rfl⟩

theorem test_EngineWordsQueue_met : tst.OnMain ∧ tst.Ready (engSrcs 0x200C000020000240) none ∧ tst.Here [9] ∧ tst.me.trap.phase = .none ∧
    (tagAgent 0x200C000020000240 = some .C ∧ decodeMain (0x200C000020000240 : Word).toNat = .ok (.copy ⟨0, ⟨none, none⟩, 1, none, none, 9⟩)) ∧ tagAgent 0xC000000000000000 = none ∧
    (∃ e, decodeMain 0x402C000000000001 = .error e) ∧ mctlOk 0x22 = true ∧ mctlOk 0xFF = false :=
  ⟨rfl, tst_ready _ _, tst_here _, rfl, ⟨rfl, by decide⟩, rfl, ⟨_, rfl⟩, by decide, by decide⟩

/-- What a word alone decides: a copy on channel 7 of a task that has two; dmap on a core with no dendritic unit; mfmt.ctl, whose value counts. -/
theorem test_EngineWordsQueue_causes_met : ((3 ≤ 0x200C0000E0000240 / 2 ^ 50 % 256 ∧ tst.me.hdr.chan ≤ 0x200C0000E0000240 / 2 ^ 29 % 8) ∧
      ¬ tst.me.hdr.chan ≤ 0x200C000020000240 / 2 ^ 29 % 8) ∧
    (tagAgent 0x4020000000797000 = some .M ∧ 8 ≤ 0x4020000000797000 / 2 ^ 50 % 256 ∧ classQ tst.myCore = true ∧ classQ 200 = false ∧ tst.variant.quinces ≠ 0) ∧
    (tagAgent 0x4008000000A40000 = some .M ∧ 0x4008000000A40000 / 2 ^ 50 % 256 = 2 ∧ 0x4008000000A40000 / 2 ^ 24 % 32 = 0) ∧ tst.variant.flash = true := by
  decide +kernel

/-! ## Hypotheses met: ports -/

theorem test_PortInstructions_met : tst.AtPort [20] ∧ tst.AtPort [] ∧ tst.Here [6] ∧ tst.me.hdr.slots ≤ 2 ∧ 1 < tst.me.hdr.slots ∧ tst.me.trap.phase = .none ∧
    (tst.r 20).toNat % 64 = 0 ∧ (tst.r 4).toNat % 64 ≠ 0 ∧ tst.me.path.loads = [] ∧ tst.me.path.stores = [] :=
  ⟨⟨rfl, rfl, tst_ready _ _⟩, ⟨rfl, rfl, tst_ready _ _⟩, tst_here _, by decide, by decide, rfl, by decide, by decide, rfl, rfl⟩

/-- The small state with the first word of an image at 0x40000000, and with its first program word. -/
def tstImg (h : Mem) : State := { tst with mem := { tst.mem with hbm := h, unitKey := [(0, .random 1)] }, sched := { tst.sched with launches := [] } }

theorem test_PortInstructions_lines_met : (tst.park .none 0).Pullable (tst.r 20) ∧
    (∀ j < 11, ∃ p, tst.xlat tst.cur.cid false .load (tst.r 20 + word (64 * j)) = .ok p ∧
      ∀ e ∈ tst.me.path.stores, p.meets 64 e.place e.size = true → p.isRemote = false ∧ ∃ v, e.kind = .store v) := by
  refine ⟨?_, fun j hj => ⟨.loc (64 * j) 0 2 0, by interval_cases j <;> decide +kernel, fun e h => by cases h⟩⟩
  intro j hj
  exact ⟨.loc (64 * j) 0 2 0, by interval_cases j <;> decide +kernel, rfl, by interval_cases j <;> decide +kernel⟩

/-- A slot with the header and the first word of an image, as PLOAD would read them. -/
def slotOf (h : Byte) (w : Byte) : Slot := { Slot.fresh with img := Mem.write (Mem.write [] 0 [h]) 35 [w] }

theorem test_PortInstructions_headers_met : ((slotOf 1 0).tsz ≤ 128 ∧ (slotOf 1 0).comb ≤ 6 ∧ (slotOf 1 0).lg ≤ 7 ∧ (slotOf 1 0).elen ≤ 8 ∧ (slotOf 1 0).blen ≤ 32) ∧
    ¬ (slotOf 33 0).blen ≤ 32 ∧ (∃ i, decodePort ((slotOf 1 0).word 0) = .ok i) ∧ (∃ e, decodePort ((slotOf 1 0x34).word 0) = .error e) ∧ 0 < (slotOf 1 0x34).blen :=
  ⟨by decide, by decide, ⟨_, rfl⟩, ⟨_, rfl⟩, by decide⟩

/-- The lane that runs word 0 of the slot. -/
def laneOf (epi : Bool) : PortRun :=
  { cid := 0, slot := 0, point := 0, unit := .ch 0, epi := epi, pc := 0, ix := 3, lane := 1, v := [(0, 0x3F800000)], ins := [7, 0, 0, 0], outs := [], drops := 0,
    flags := 0, atEnd := [], pf := none }
def tstLane (epi : Bool) : State := { tst with portRun := some (laneOf epi) }

theorem test_PortArithmetic_met : (tstLane false).portRun = some (laneOf false) ∧ f32Of false ((tstLane false).laneReg (laneOf false) 0) ≠ .nan ∧
    tyOf 0 = some .f32 ∧ tyOf 11 = some .ui64 ∧ tyOf 12 = none ∧ Cond.meets .eq .d (3 : Word) 3 ∧ ¬ Cond.meets .ltu .w (3 : Word) 3 ∧
    f32Of false 0x7FC00000 = .nan ∧ (∃ n e, f32Of false 0 = .fin n 0 e) ∧ (∃ e, f32Of false 0x3F800000 = .fin false (2 ^ 23) e) :=
  ⟨rfl, by decide, rfl, rfl, rfl, by unfold Cond.meets Cond.relates; decide, by unfold Cond.meets Cond.relates; decide, by decide, ⟨false, -149, by decide⟩, ⟨-23, by decide⟩⟩

/-- What fex2 of a whole number asks: FP32's 2^24 and up are read with an exponent of zero or more. -/
theorem test_PortArithmetic_fex2_met : ∃ n m e, f32Of false 0x4B000000 = .fin n m e ∧ e = ((0 : Nat) : Int) := ⟨false, 2 ^ 23, 0, by decide, rfl⟩

theorem test_PortData_met : (tstLane true).portRun = some (laneOf true) ∧ (laneOf true).epi = true ∧ (laneOf false).epi = false ∧
    ((tstLane false).slot 0 0).tsz = 0 ∧ 0 < (({ Slot.fresh with img := [(3, 128)] } : Slot)).tsz ∧ (1023 + 1) % 1024 % 8 = 0 ∧ (1023 + 0) % 1024 % 2 ≠ 0 ∧
    (∀ h ∈ ((tstLane false).slot 0 0).prev, h.1 + 1 ≠ 3) ∧ ([(2, 0, (9 : Word))].find? (fun h => h.1 + 1 = 0 + 3)) = some (2, 0, 9) :=
  ⟨rfl, rfl, rfl, by decide, by decide, by decide, by decide, by decide, by decide⟩

/-! ## Hypotheses met: collectives and the engines' events -/

/-- The small state with another device's page at 0x80000000, a ring descriptor of the members 0 and 1 at 0x40000100, a ring 3 of the launch and a ring 4
of another one, and a K instruction at its head. -/
def tstK (w a b c : Word) : State :=
  let s := tstQ 3 w a b c
  { s with
    mem := { s.mem with
      hbm := [(0x100, 2), (0x109, 1), (0x1000, 0x01), (0x1001, 0x10), (0x1008, 0x8F), (0x1010, 0x0F), (0x1015, 0x20)]
      unitKey := [(4, .random 1), (0x40, .random 1)] }
    net := { s.net with routes := [(1, { Route.fresh with v := true })] }
    colls := [(0, { Coll.fresh with rings := [(3, ⟨1, [0, 1], 5⟩), (4, ⟨2, [0, 1], 0⟩)] })] }

theorem tstK_at (w a b c : Word) (sg : Option (Nat × BitVec 5)) : (tstK w a b c).AtK ⟨none, sg⟩ :=
  ⟨⟨rfl, (fun e => by cases e), by decide, fun _ e => by cases e⟩, fun _ h => (List.not_mem_nil h).elim⟩

theorem test_CollectivesStart_met : (tstK 0 0x0101 0 0).AtK ⟨none, none⟩ ∧ ((0x0101 : Word).toNat / 65536 = 0 ∧ (0x0101 : Word).toNat % 256 ≠ 0) ∧
    ¬ ((0x0100 : Word).toNat % 256 ≠ 0) ∧ (tstK 0 0 0 0).me.eng.coll.length < 16 ∧ (0x100000000 : Word).toNat ≤ 2 ^ 32 ∧ 2 ^ 32 < (0x100000001 : Word).toNat ∧
    Map.find ((tstK 0 0 1024 0).coll 0).rings 3 = some ⟨1, [0, 1], 5⟩ ∧ (tstK 0 0 1024 0).me.launch = 1 ∧ (tstK 0 0 1024 0).head.b.toNat ≤ 1024 ∧
    Map.find ((tstK 0 0 0 0).coll 0).rings 5 = none :=
  ⟨tstK_at _ _ _ _ _, by decide, by decide, by decide, by decide, by decide, rfl, rfl, by decide, rfl⟩

set_option maxRecDepth 4096 in
theorem test_CollectivesStart_kring_met : (tstK 0x8000000003000000 0x40000100 0 0).kringFree 0 3 = true ∧
    (tstK 0x8000000003000000 0x40000100 0 0).kRead 0 (tstK 0x8000000003000000 0x40000100 0 0).kCmd 0x40000100 8 = .ok ([2, 0, 0, 0, 0, 0, 0, 0], 0) ∧
    (tstK 0x8000000003000000 0x40000100 0 0).kRead 0 (tstK 0x8000000003000000 0x40000100 0 0).kCmd 0x40000108 2 = .ok ([0, 1], 0) ∧
    (tstK 0x8000000003000000 0x40000100 0 0).kCmd.ring = 3 ∧ (tstK 0x8000000004000000 0x40000100 0 0).kCmd.ring = 4 ∧
    (tstK 0x8000000003000000 0 0 0).kRead 0 (tstK 0x8000000003000000 0 0 0).kCmd 0 8 = .error (.fault 6 0 0) ∧
    (tstK 0x8000000003000000 0x80000000 0 0).kRead 0 (tstK 0x8000000003000000 0x80000000 0 0).kCmd 0x80000000 8 = .error (.need 1 0 0 0x80000000) := by
  decide +kernel

/-- The small state with a command in a unit. -/
def tstCmd (u : EUnit) (m : Cmd) : State := tst.setCmd 0 u m

/-- An mzero of the tiles 0 and 1, a copy whose source page is not mapped, a copy that has ended, a kput and a kallred. -/
def mzeroCmd : Cmd := Cmd.fresh ⟨1, 0x40, 0x4010000000000000, 0, 2, 0⟩ 0 .fresh .fresh
def copyCmd : Cmd := Cmd.fresh ⟨1, 0x40, 0x200C000020000000, 0, 0, 0⟩ 0 .fresh .fresh
def kputCmd : Cmd := Cmd.fresh ⟨9, 0x40, 0x8010000000000000, 0, 0, 8⟩ 0 .fresh .fresh
def kallCmd (a : Word) : Cmd := Cmd.fresh ⟨9, 0x40, 0x8008000003000000, a, 1, 0⟩ 0 .fresh .fresh

/-- The state in which the copy of channel 1 takes its first iteration. -/
def tstCopy : State × Cmd := (tstCmd (.ch 1) copyCmd).preTranslate 0 (.ch 1) copyCmd

theorem test_EngineEvents_met : (∀ m, tst.cmd 0 .red = some m → tst.mayStep 0 .red m = false) ∧
    (tstCmd (.ch 1) copyCmd).cmd 0 (.ch 1) = some copyCmd ∧ (tstCmd (.ch 1) copyCmd).mayStep 0 (.ch 1) copyCmd = true ∧
    (tstCmd .drainU mzeroCmd).cmd 0 .drainU = some mzeroCmd ∧ mzeroCmd.op = 4 ∧ (tstCmd .drainU mzeroCmd).mayStep 0 .drainU mzeroCmd = true ∧
    mzeroCmd.pfault = none ∧ mzeroCmd.wr = [] ∧ Map.getD (tst.ctx 0).eng.wq 0 [] = [] :=
  ⟨fun m h => (by cases h), rfl, by decide, rfl, by decide, by decide, rfl, rfl, rfl⟩

set_option maxRecDepth 4096 in
theorem test_EngineEvents_faults_met : (tstCmd (.ch 1) copyCmd).me.eng.wfails = [] ∧ (tstCmd (.ch 1) copyCmd).me.trap.phase = .none ∧
    ∃ c d fa, (tstCopy.1.setCmd 0 (.ch 1) tstCopy.2).iterate 0 (.ch 1) tstCopy.2 = .error (.fault c d fa) := ⟨rfl, rfl, _, _, _, rfl⟩

/-- A write of two bytes that an engine has queued, and one of a granule of another device. -/
def wEnt : WEnt := ⟨[(.spad 0 8191, [1]), (.loc 64 0 2 0, [2])], 0, .ch 1, 1, 0, none, [1]⟩
def wRem : WEnt := ⟨[(.remote 5 68 0, [1])], 0, .ch 1, 1, 0, none, []⟩

theorem test_EngineEvents_writes_met : Map.getD ((tst.modCtx 0 (fun c => { c with eng := { c.eng with wq := [(0, [wEnt])] } })).ctx 0).eng.wq 0 [] = [wEnt] ∧
    (∀ x ∈ wEnt.parts, x.1.dev? = none) ∧ wEnt.clean = none ∧ wRem.dev? = some (5, 68, 0) ∧ wRem.clean = none := ⟨rfl, by decide, rfl, by decide, rfl⟩

theorem test_EngineEvents_ends_met : (tstCmd (.ch 1) { copyCmd with ended := true }).cmd 0 (.ch 1) = some { copyCmd with ended := true } ∧
    (tstCmd (.ch 1) { copyCmd with ended := true }).portRun = none ∧ ((tstCmd (.ch 1) { copyCmd with ended := true }).ctx 0).trap.phase ≠ .frozen ∧
    (∀ p ∈ copyCmd.points (.ch 1), tst.program 0 p = none) ∧ (Machine.syncOf copyCmd.ent.w).sig = none ∧ kputCmd.op = 4 ∧
    tst.putPending 0 9 = false ∧ (tstCmd (.coll 0) kputCmd).cmd 0 (.coll 0) = none :=
  ⟨rfl, rfl, by decide, by decide, by decide, by decide, by decide, by decide⟩

/-- The small state with a collective command, a kput that awaits its acknowledgement or a kallred. -/
def tstColl (m : Cmd) (a : Word) : State :=
  let s := tstK 0 a 0 0
  ({ s with net := { s.net with reqs := [(1, ⟨0, 1, .kput, 0, 0, 9, 1⟩)] } } : State).modCtx 0 (fun c => { c with eng := { c.eng with coll := [m] } })

theorem test_EngineEvents_coll_met : (tstColl kputCmd 0).cmd 0 (.coll 0) = some kputCmd ∧ (tstColl kputCmd 0).putPending 0 kputCmd.ent.seq = true ∧
    (tstColl (kallCmd 0) 0).cmd 0 (.coll 0) = some (kallCmd 0) ∧ (kallCmd 0).op = 2 ∧ (kallCmd 0).turn = true ∧
    (tstColl (kallCmd 0) 0).mayStep 0 (.coll 0) (kallCmd 0) = true ∧
    Map.find ((tstColl (kallCmd 0) 0).coll (dieAt 0)).rings (kallCmd 0).ring = some ⟨1, [0, 1], 5⟩ ∧
    (∃ c d fa, (tstColl (kallCmd 0) 0).kRead 0 (kallCmd 0) 0 64 = .error (.fault c d fa)) :=
  ⟨rfl, by decide, rfl, by decide, by decide, by decide, rfl, ⟨_, _, _, rfl⟩⟩

/-- The accesses of S that the page at 0x80000000 takes to another device. -/
theorem test_remote_met : (tstK 0 0 0 0).xlat 0 false .load 0x80000000 = .ok (.remote 1 0 0) ∧ (tstK 0 0 0 0).xlat 0 false .wait 0x80000000 = .ok (.remote 1 0 0) ∧
    (tstK 0 0 0 0).xlat 0 false .spawn 0x80000000 = .ok (.remote 1 0 0) ∧ (tstK 0 0 0 0).r 21 = 0x80000000 := by decide

/-- A bucket-list entry at 0x40000200: length 32 at 0x40000280, its ready word at 0x40000240 below RVAL 1, or at RVAL 0. -/
def tstEntry (rval : Byte) : State :=
  let s := tstColl (kallCmd 0x40000200) 0
  { s with mem := { s.mem with
      hbm := (if rval = 0 then [] else [(0x218, rval)]).foldl (fun m x => Mem.write m x.1 [x.2])
        [(0x200, 0x80), (0x201, 0x02), (0x203, 0x40), (0x208, 32), (0x210, 0x40), (0x211, 0x02), (0x213, 0x40), (0x1000, 0x01), (0x1001, 0x10), (0x1008, 0x8F), (0x1010, 0x0F), (0x1015, 0x20)]
      unitKey := [(8, .random 1), (9, .random 1), (10, .random 1), (0x40, .random 1)] } }

theorem test_EngineEvents_poll_met : ∃ bs e rw e', (tstEntry 1).kRead 0 (kallCmd 0x40000200) 0x40000200 64 = .ok (bs, e) ∧
    (tstEntry 1).entryOk (chunksOf 8 bs) false 2 = true ∧ (tstEntry 1).kRead 0 (kallCmd 0x40000200) ((chunksOf 8 bs)[2]?.getD 0) 8 = .ok (rw, e') ∧
    (leWord rw).toNat < ((chunksOf 8 bs)[3]?.getD 0).toNat := ⟨_, _, _, _, rfl, by decide, rfl, by decide⟩

theorem test_EngineEvents_starts_met : ∃ bs e rw e' own f, (tstEntry 0).kRead 0 (kallCmd 0x40000200) 0x40000200 64 = .ok (bs, e) ∧
    (tstEntry 0).entryOk (chunksOf 8 bs) false 2 = true ∧ (tstEntry 0).kRead 0 (kallCmd 0x40000200) ((chunksOf 8 bs)[2]?.getD 0) 8 = .ok (rw, e') ∧
    ((chunksOf 8 bs)[3]?.getD 0).toNat ≤ (leWord rw).toNat ∧
    (tstEntry 0).touch 0 (kallCmd 0x40000200).pre [⟨.eread, 0, 0x40000200, 64⟩, ⟨.eread, 0, 0x40000240, 8⟩, ⟨.eread, 0, 0x40000280, 32⟩] = .ok () ∧
    (tstEntry 0).kRead 0 (kallCmd 0x40000200) ((chunksOf 8 bs)[0]?.getD 0) ((chunksOf 8 bs)[1]?.getD 0).toNat = .ok (own, f) :=
  ⟨_, _, _, _, _, _, rfl, by decide, rfl, by decide, rfl, rfl⟩

/-- A bucket of 32 bytes of a ring of three members, and a segment of its first step. -/
def bktOf : Bucket := ⟨0, 5, [0x40000280, 32, 0x40000240, 0, 0, 0, 0, 0], List.replicate 32 0, [0, 1, 2], 0, 0, 0, []⟩
def segOf : Segment := ⟨3, 0, 5, 0, 0, List.replicate 32 0, List.replicate 32 0⟩
def tstSeg : State := tstColl { kallCmd 0 with buckets := [bktOf] } 0

theorem test_EngineEvents_segments_met : (∀ c ∈ tst.ctxs, c.2.eng.coll = []) ∧ tstSeg.segTarget 0 segOf = some (0, 0, { kallCmd 0 with buckets := [bktOf] }) ∧
    tstSeg.mayStep 0 (.coll 0) { kallCmd 0 with buckets := [bktOf] } = true ∧ (tstSeg.coll 0).early = [] ∧ bktOf.got < bktOf.len ∧
    [bktOf].find? (fun y => y.num = segOf.bucket) = some bktOf ∧ segOf.stepNo + 1 < bktOf.n ∧
    (Map.getD tstSeg.net.routes (((bktOf.ring[(bktOf.pos + 1) % bktOf.n]?).getD 0) % 128) .fresh).v = true := by decide

/-! ## Hypotheses met: the host, boot, power, links -/

/-- The small state whose port 0 owns the management window. -/
def tstOwn : State := { tst with mgmt := { tst.mgmt with held := true, owner := 0, leftMs := 1 } }

theorem test_ManagementRegisters_met : tstOwn.Owner 0 ∧ ¬ tst.Owner 0 ∧ ¬ tstOwn.Owner 1 ∧ tst.clk < (tst.mgmt.ticks + 1) * msClk ∧
    (({ tst with clk := msClk } : State).mgmt.ticks + 1) * msClk ≤ msClk ∧ 0x2FFFFF8 < 0x3000000 ∧ 0xFF8 + 8 ≤ 0x1000 ∧ 0x2FF8 + 8 ≤ 0x3000 ∧ tstOwn.cur.port = 0 := by
  decide

/-- The small state in which port 0, the owner, runs a mailbox command with its first arguments. -/
def tstMail (op a b c : Nat) : State :=
  tstOwn.withPortSt 0 (fun p => { p with busy := true, owned := true, cmd := Mem.write [] 0 (leBytes 8 op ++ leBytes 8 a ++ leBytes 8 b ++ leBytes 8 c) })

theorem tstMail_runs (op : Nat) (a b c : Nat) (ow : Bool) (h : ((tstMail op a b c).hport 0).arg 0 = word op) (h' : op < 256) :
    (tstMail op a b c).RunsWell op ow := by
  have hn : (word op).toNat = op := by simp only [word, BitVec.toNat_ofNat]; omega
  have hx := congrArg BitVec.toNat h
  rw [hn] at hx
  have hp : (tstMail op a b c).cur.port = 0 := rfl
  refine ⟨⟨?_, ?_, ?_⟩, ?_, fun _ => rfl⟩ <;> rw [hp]
  · simp [tstMail, State.withPortSt, State.hport]
  · simp [tstMail, State.withPortSt, State.hport]; rfl
  · rw [hx]; omega
  · rw [hx]; exact h'

theorem test_MailboxCommands_met : (tstMail 1 511 0 0).RunsWell 1 true ∧ ((tstMail 1 511 0 0).hport 0).arg 8 = 511 ∧ (tstMail 2 0 0 0).RunsWell 2 true ∧
    Map.find (tstMail 2 1 0 0).mem.keys 1 = none ∧ (tstMail 3 7 0 0).RunsWell 3 true ∧ (tstMail 4 8 0 0).RunsWell 4 true ∧
    (tstMail 0x11 0 0 0).RunsWell 0x11 false ∧ (∃ o, Map.find (tstMail 0x11 0 0 0).host.objs 0 = some o) ∧ (tstMail 0x12 65536 0 0).RunsWell 0x12 false ∧
    Map.find (tstMail 0x12 1 0 0).host.objs 1 = none ∧ (tstMail 0x30 64 0 0).RunsWell 0x30 false ∧ (tstMail 0x40 7 0 0).RunsWell 0x40 false ∧
    (tstMail 0x40 7 0 0).sched.launches.length = 1 ∧ ¬ tst.Runs 1 ∧ 256 ≤ (((tstMail 0x101 0 0 0).hport 0).arg 0).toNat :=
  ⟨tstMail_runs 1 _ _ _ _ (by decide) (by decide), by decide, tstMail_runs 2 _ _ _ _ (by decide) (by decide), rfl,
    tstMail_runs 3 _ _ _ _ (by decide) (by decide), tstMail_runs 4 _ _ _ _ (by decide) (by decide), tstMail_runs 0x11 _ _ _ _ (by decide) (by decide), ⟨_, rfl⟩,
    tstMail_runs 0x12 _ _ _ _ (by decide) (by decide), rfl, tstMail_runs 0x30 _ _ _ _ (by decide) (by decide),
    tstMail_runs 0x40 _ _ _ _ (by decide) (by decide), rfl, (fun h => by cases h.1), by decide⟩

/-- The same, of a port that was not the owner at MB.DOOR. -/
theorem test_MailboxCommands_notown_met : ((tstMail 1 0 0 0).withPortSt 0 (fun p => { p with owned := false })).Runs 1 ∧
    (((tstMail 1 0 0 0).withPortSt 0 (fun p => { p with owned := false })).hport 0).owned = false := ⟨⟨rfl, rfl, by decide⟩, rfl⟩

theorem test_MailboxCommands_exports_met : (tstMail 0x20 0 65536 3).RunsWell 0x20 false ∧
    ¬ ((((tstMail 0x20 0 65536 3).hport 0).arg 8).toNat % 65536 ≠ 0 ∨ (((tstMail 0x20 0 65536 3).hport 0).arg 0x10).toNat = 0 ∨
      4 ≤ (((tstMail 0x20 0 65536 3).hport 0).arg 0x18).toNat) ∧ Map.find (tstMail 0x20 0 65536 3).host.exports 0 = none ∧
    (tstMail 0x21 7 0 0).RunsWell 0x21 false ∧ Map.find (tstMail 0x21 7 0 0).host.exports 7 = none ∧
    ¬ (65536 ≤ (7 : Word).toNat ∨ (7 : Word).toNat / 256 % 128 ≠ 0) ∧ Map.find (tstSvc 0 0 0 0 []).host.exports 7 ≠ none :=
  ⟨tstMail_runs 0x20 _ _ _ _ (by decide +kernel) (by decide), by decide +kernel, by decide, tstMail_runs 0x21 _ _ _ _ (by decide) (by decide), by decide, by decide, by decide⟩

/-- A code object's header of one page and 65,536 bytes with code key 0, as the host holds it at address 0 of port 0. -/
def tstReg (fl : Nat) : State :=
  let s := tstMail 0x10 0 0x1000 fl
  { s with host := { s.host with
      mem := Mem.write [] 0 (leBytes 4 0x4E595242 ++ leBytes 2 1 ++ leBytes 2 0 ++ leBytes 4 1 ++ leBytes 4 65536)
      codeKeys := [(0, [])] } }

theorem test_MailboxCommands_codereg_met : (tstReg 1).RunsWell 0x10 false ∧ (((tstReg 1).hport 0).arg 0x18).toNat < 2 ∧
    signedOk (Mem.read (tstReg 1).host.mem (hostAddr 0 0) 64) = true ∧ leNat (sliceB (Mem.read (tstReg 1).host.mem (hostAddr 0 0) 64) 6 2) = 0 ∧
    Map.find (tstReg 1).host.codeKeys 0 = some [] ∧ (tstReg 1).host.objs.length < 1024 ∧ (tstReg 1).codePages + 1 ≤ 65536 :=
  ⟨tstMail_runs 0x10 _ _ _ _ (by decide) (by decide), by decide, by decide, by decide, rfl, by decide, by decide⟩

/-- An answer that stands, of an XDEL and of another command. -/
def tstAns (op : Nat) : State := (tstMail op 0 0 0).withPortSt 0 (fun p => { p with ans := some (0, [1]), xdel := if op = 0x21 then some (0, 0, 65536) else none })

/-- An XDEL whose range a load of the host's memory still has to read. -/
def tstXdel : State := (tstAns 0x21).modMe (fun c => { c with path := { c.path with loads := [ldEnt (.host 0 8) .rlx .core] } })

theorem test_MailboxCommands_end_met : (tst.hport 0).busy = false ∧ ((tstMail 1 0 0 0).hport 0).busy = true ∧ (∃ row ∈ mailRows, row.2.1 = ((tstMail 1 0 0 0).hport 0).op) ∧
    ¬ (∃ row ∈ mailRows, row.2.1 = ((tstMail 0x99 0 0 0).hport 0).op) ∧ ((tstAns 0x21).hport 0).ans = some (0, [1]) ∧
    ((tstAns 0x21).hport 0).xdel = some (0, 0, 65536) ∧ (tstAns 0x21).rangeQuiet (0, 0, 65536) = true ∧ tstXdel.rangeQuiet (0, 0, 65536) = false ∧
    ((tstAns 1).hport 0).xdel = none := by decide

/-- The small state at a stage of the boot, at a clk. -/
def tstBoot (stage clk : Nat) : State := { tst with boot := { tst.boot with stage := stage }, clk := clk }

theorem test_BootAndReset_met : State.reset.boot.stage = 0 ∧ (tstBoot 1 0).boot.stage = 1 ∧ (tstBoot 1 0).boot.norBroken = false ∧
    (3 ≤ (tstBoot 5 0).boot.stage ∧ (tstBoot 5 0).boot.stage ≤ 5) ∧ (tstBoot 3 (30000 * msClk)).clk ≤ (tstBoot 3 0).boot.fwSince + 30000 * msClk ∧
    (tstBoot 3 0).boot.fwSince + 30000 * msClk < (tstBoot 3 (30000 * msClk + 1)).clk ∧ (tstBoot 6 0).boot.stage = 6 ∧
    (∀ x ∈ (tstBoot 6 0).net.links, x.2.state ≠ 1) ∧ tstOwn.Owner tstOwn.cur.port ∧ tstOwn.boot.busy = false ∧ tstOwn.boot.attemptOpen = true ∧
    (tstBoot 15 0).boot.stage = 15 ∧ (tstBoot 2 0).boot.stage = 2 ∧ (tstBoot 4 0).boot.stage = 4 := by decide

/-- The small state with a COMMIT under way, which checks its image or writes it; its link 2 trains. -/
def tstCommit (w : Bool) : State := (({ tst with boot := { tst.boot with busy := true, writing := w, norBroken := w } } : State)).withLink 2 (fun l => { l with state := 1 })

theorem test_BootAndReset_commit_met : (tstCommit false).boot.busy = true ∧ (tstCommit false).boot.writing = false ∧ (tstCommit true).boot.writing = true ∧
    (tstCommit true).boot.norBroken = true ∧ (∃ x ∈ (tstCommit true).net.links, x.2.state = 1) := by decide

theorem test_PowerAndLinks_met : tst.power.cap < 3201 ∧ 3200 ≤ tst.power.cap ∧ (100 : Nat) < 101 ∧ tst.boot.therm = none ∧ State.reset.sched.launches = [] ∧
    tst.sched.launches ≠ [] ∧ tstOwn.Owner 0 ∧ ¬ tstOwn.Owner 1 ∧ (tst.link 23).state ≠ 1 ∧ (Map.getD tst.net.routes 5 .fresh).v = false ∧
    (Map.getD tst.net.routes 5 .fresh).lost + msClk ≤ msClk ∧ tst.boot.stage ≠ 15 := by decide

/-- The small state above its power cap, with a GO in the array. -/
def tstHot : State := (({ tst with power := { tst.power with now := 3201 } } : State)).setCmd 0 .array (Cmd.fresh ⟨1, 0x40, 0x400C000000000000, 0, 0, 0⟩ 0 .fresh .fresh)

theorem test_PowerAndLinks_hot_met : tstHot.power.cap < tstHot.power.now ∧ ∃ m, tstHot.cmd 0 .array = some m ∧ m.op = 3 := ⟨by decide, _, rfl, by decide⟩

/-- The small state with link 2 active or in training, over which device 5 is three hops away, and a message that waits for a route. -/
def tstLink (st : Nat) : State :=
  let s := tst.withLink 2 (fun l => { l with state := st, clen := 20, mdm := 30, reach := [⟨5, 3, 30⟩] })
  { s with net := { s.net with waiting := [(5, .notice 5 0)] } }

theorem test_PowerAndLinks_routes_met : (tstLink 2).paths 5 = [⟨3, 60, 2⟩] ∧ (tstLink 2).Admits ⟨3, 60, 2⟩ ∧ ¬ (tstLink 2).Admits ⟨3, 61, 2⟩ ∧
    ¬ (tstLink 1).Admits ⟨3, 60, 2⟩ ∧ (∃ p ∈ (tstLink 2).paths 5, (tstLink 2).Admits p) ∧ (∀ p ∈ (tstLink 1).paths 5, ¬ (tstLink 1).Admits p) ∧
    ((tstLink 1).link 2).state = 1 := by
  unfold State.Admits; decide

/-- The small state with link 2 in training, past the 30 s of stage LINK. -/
theorem test_PowerAndLinks_mark_met : ({ tstLink 1 with boot := { tst.boot with stage := 6 }, clk := 30000 * msClk } : State).boot.fwSince + 30000 * msClk ≤
    ({ tstLink 1 with boot := { tst.boot with stage := 6 }, clk := 30000 * msClk } : State).clk := by decide

theorem test_OutsideAccesses_met : tst.Opens 0 (tst.variant.usable - 8) 8 ∧ ¬ tst.Opens 0 (tst.variant.usable - 4) 8 ∧ ¬ tst.Opens 1 0 8 ∧
    tst.poisoned (.loc 64 0 2 0) 8 = false ∧ ({ tst with mem := { tst.mem with poison := [8197] } } : State).poisoned (.loc 64 0 2 0) 8 = true ∧
    Map.getD (Map.getD tst.hports 0 .fresh).hdm 0 0 = 0 ∧ leWord (tst.rd 0 (.loc 0x1000 0 2 0) 8) = 0x1001 ∧ Map.find tst.net.reqs 1 = none ∧
    tst.boot.stage ≠ 15 := by
  unfold State.Opens; decide

/-- Port 0 of the small state negotiated CXL, port 1 did not. -/
theorem test_OutsideAccesses_cxl_met : ((tst.withPortSt 0 (fun p => { p with cxl := true })).hport 0).cxl = true ∧
    ((tst.withPortSt 1 (fun p => { p with cxl := false })).hport 1).cxl = false := ⟨rfl, rfl⟩

/-- The small state with a request 1 to device 5 that awaits its answer, of a load at the head of the load queue or another kind. -/
def tstReq (k : RemKind) (h : Hold) : State :=
  ({ tst with net := { tst.net with reqs := [(1, ⟨0, 5, k, 0, 0, 5, 1⟩)] } } : State).modMe (fun c => { c with
    path := { c.path with loads := [{ ldEnt (.remote 5 0 0) .rlx .core with req := some 1 }], remStores := [1] }, sc := { c.sc with hold := h } })

theorem test_OutsideAccesses_answers_met : (∃ q, Map.find (tstReq .load .none).net.reqs 1 = some q ∧ q.kind = .load ∧ q.cid < 512 ∧ q.launch = 1) ∧
    (∃ l ls, (((tstReq .load .none).closed 1).ctx 0).path.loads = l :: ls ∧ l.req = some 1) ∧ tst.badAnswer 5 .refused = some (7, 2) ∧
    tst.badAnswer 5 .done = none ∧ ((tstReq (.atomic 8 8 false none) (.remote 1)).ctx 0).sc.hold = .remote 1 ∧
    (tstReq (.atomic 8 8 false none) (.remote 1)).me.trap.phase = .none ∧ ¬ (tstReq .load .none).Unsent 1 ∧
    ((tstReq .notice (.waita { waitaAt 9 false with va := 0 })).ctx 0).sc.hold = .waita { waitaAt 9 false with va := 0 } ∧ (waitaAt 9 false).pc = 0 ∧
    (tstReq (.engineStore 0 (.ch 1) 1) .none).me.eng.cmds = [] :=
  ⟨⟨_, rfl, rfl, by decide, rfl⟩, ⟨_, _, rfl, rfl⟩, by decide, by decide, rfl, rfl, (by rintro ⟨x, h, -⟩; cases h), rfl, rfl, rfl⟩

/-- A request that waits for a route is not sent. -/
theorem test_OutsideAccesses_unsent_met :
    ({ tst with net := { tst.net with waiting := [(5, .req 1 5 0 (.load 0 8))] } } : State).Unsent 1 :=
  ⟨_, List.mem_singleton.2 rfl, _, _, _, rfl⟩

/-! ## Hypotheses met: the scheduler -/

/-- The small state, READY, with a descriptor in slot 0 of port 0: code at the object's word, CADDR c, PTROOT 0x1000, JOIN j. -/
def tstDesc (code c j : Nat) : State :=
  let d := leBytes 8 code ++ leBytes 8 0 ++ leBytes 8 j ++ leBytes 8 0 ++ leBytes 8 c ++ leBytes 8 9 ++ leBytes 8 0x1000 ++ leBytes 8 0
  ({ tst with boot := { tst.boot with stage := 7 } } : State).withPortSt 0 (fun p => { p with prod := 1, ring := Mem.write [] 0 d })
def descOf (s : State) : List Byte := Mem.read (s.hport 0).ring 0 64

theorem test_LaunchWindow_met : ¬ tst.MayTake tst.cur.port ∧ (tstDesc 0x01F0000000010020 0x40 0).MayTake 0 ∧
    (descWord (descOf (tstDesc 0x01F0000000010020 0x41 0)) 4).toNat % 32 ≠ 0 ∧ (tstDesc 0x01F0000000010020 0x40 1).BadDesc (descOf (tstDesc 0x01F0000000010020 0x40 1)) ∧
    ¬ (tstDesc 0x01F0000000010020 0x40 0).BadDesc (descOf (tstDesc 0x01F0000000010020 0x40 0)) ∧
    (tstDesc 0 0x40 0).NoCode (descOf (tstDesc 0 0x40 0)) ∧ ¬ (tstDesc 0x01F0000000010020 0x40 0).NoCode (descOf (tstDesc 0x01F0000000010020 0x40 0)) := by
  refine ⟨by unfold State.MayTake; decide, by unfold State.MayTake; decide, by decide, Or.inr (Or.inl (by decide)), by unfold State.BadDesc; decide, ?_, ?_⟩
  · intro h o e; have : (tstDesc 0 0x40 0).objAt (Record.ofBytes (descOf (tstDesc 0 0x40 0))).code = none := by decide
    rw [this] at e; cases e
  · intro h
    have : ∃ o, (tstDesc 0x01F0000000010020 0x40 0).objAt (Record.ofBytes (descOf (tstDesc 0x01F0000000010020 0x40 0))).code = some (0, o) ∧ o.revoked = false :=
      ⟨_, by rfl, rfl⟩
    obtain ⟨o, e, r⟩ := this
    rw [h 0 o e] at r; cases r

/-- The small state whose launch has completed, with a time limit of 1 ms. -/
def tstDone : State := { tst with sched := { tst.sched with launches := [(1, { launch1 with done := true, tlim := 1 })] }, clk := msClk }

/-- The small state whose code object's second page S waits to fetch. -/
def tstPage : State :=
  (tstCode 0 0 [] [0]).modMe (fun c => { c with sc := { c.sc with pc := word 0x01F0000000020000 } })

theorem test_LaunchWindow_launches_met : tstDone.boot.therm = none ∧ (∃ v, Map.find tstDone.sched.launches 1 = some v ∧ v.done = true ∧ v.tlim ≠ 0 ∧
      v.accepted + v.tlim * msClk ≤ tstDone.clk) ∧ ¬ (∃ x ∈ tstDone.net.reqs, x.2.launch = 1 ∧ x.2.kind.writes = true) ∧
    (∃ v, Map.find tst.sched.launches 1 = some v ∧ v.done = false ∧ v.tlim = 0) ∧ Map.find tst.sched.launches 2 = none ∧
    (∃ o, Map.find tstPage.host.objs 0 = some o ∧ o.revoked = false ∧ 1 ∉ o.loaded ∧ 1 < o.pages ∧ tstPage.pageWanted 0 1 = true) :=
  ⟨rfl, ⟨_, rfl, rfl, by decide, by decide⟩, by decide, ⟨_, rfl, rfl, rfl⟩, rfl, ⟨_, rfl, rfl, by decide, by decide, by decide⟩⟩

/-- A ready entry for any core, its header read, and the small state with it in the store as entry 5. -/
def readyEnt (bunch : Nat) : Entry :=
  { gen := 0, record := ⟨0x01F0000000010020, 0, 0, word (bunch * 2 ^ 24)⟩, first := ⟨0, 0, 0, 0⟩, join := 0, launch := 1, st := .ready, hdr := some hdr2, saveDone := false, since := 0,
    num := 0, prio := 0, disp := 0, aged := 0, resv := false, qforce := false }
def tstReady (clk : Nat) : State := { tst with sched := { tst.sched with store := [(5, readyEnt 0)] }, clk := clk }

theorem test_DispatchAndAging_met : Map.find (tstReady 0).sched.offers 1 = none ∧ (tstReady 0).sched.bunches = [] ∧ (tstReady 0).MayPlace 5 (readyEnt 0) 1 ∧
    (∀ x ∈ tst.sched.store, ¬ tst.MayPlace x.1 x.2 1) ∧ Map.find (tstReady 0).sched.store 5 = some (readyEnt 0) ∧ Map.find (tstReady 0).images 5 = none ∧
    hdr2.slLen = 0 ∧ (Map.find (tstReady 0).mem.keys (readyEnt 0).record.key).isSome = true ∧ (tstReady 0).isFree 1 = true ∧
    (∃ p, (tstReady 0).pick 1 = some p) ∧ (tst.isFree 1 = true ∧ tst.pick 1 = none) := by
  refine ⟨rfl, rfl, ⟨rfl, by decide, by decide, by decide, by decide, hdr2, rfl, by decide⟩, fun x h => (List.not_mem_nil h).elim, rfl, rfl, rfl, by decide, by decide, ?_, by decide⟩
  exact Option.isSome_iff_exists.1 (by decide)

theorem test_DispatchAndAging_age_met : Map.find tst.sched.store 5 = none ∧ (Map.find (tstReady 940000).sched.store 5 = some (readyEnt 0) ∧ (readyEnt 0).st = .ready ∧
      (readyEnt 0).aged < ((tstReady 940000).clk - (readyEnt 0).since) / 940000) ∧ ¬ (0 < ((tstReady 939999).clk - (readyEnt 0).since) / 940000) ∧
    tst.clk / 940000 ≤ tst.sched.ticks ∧ (tstReady 940000).sched.ticks < (tstReady 940000).clk / 940000 ∧
    ((readyEnt 0).since + 16 * 940000 ≤ (tstReady 15040000).clk ∧ (tstReady 15040000).variant.hasCore 0 = true ∧
      (tstReady 15040000).capable (readyEnt 0).record.qreq 0 = true ∧ fitsWith 0 hdr2 .zero = true ∧ Map.find (tstReady 15040000).sched.marks 0 = none) := by
  decide

/-- A saved entry with its image, of a task that is a member or not. -/
def imgOf (mem : Bool) (reason : Nat) : Saved := ⟨{ Ctx.fresh with task := some ⟨5, 1, ⟨0, 0, 0, 0⟩, hdr2, true, 7, mem⟩ }, reason, true, 0, 0, none, none, false, [], []⟩
def tstSaved (mem : Bool) (reason : Nat) : State :=
  { tstBunch true [0, 2] [] with images := [(5, imgOf mem reason)], sched := { (tstBunch true [0, 2] []).sched with store := [(5, { readyEnt 0 with st := .saved })] } }

theorem test_SavesAndHandlers_met : (Map.find tst.sched.store 5 = none ∨ Map.find tst.images 5 = none) ∧
    Map.find (tstSaved false 2).sched.store 5 = some { readyEnt 0 with st := .saved } ∧ Map.find (tstSaved false 2).images 5 = some (imgOf false 2) ∧
    (imgOf false 2).reason ≠ 1 ∧ (imgOf false 1).reason = 1 ∧ (∃ cid, (tstSaved false 1).migTarget { readyEnt 0 with st := .saved } = some cid) ∧
    (∃ b, Map.find (tstSaved true 2).sched.bunches 7 = some b ∧ b.members ≠ []) := by
  refine ⟨Or.inl rfl, rfl, rfl, by decide, rfl, Option.isSome_iff_exists.1 (by decide), ⟨_, rfl, by decide⟩⟩

/-- The small state frozen by an illegal instruction, on a core that has the firmware's vector table. -/
def tstFroze : State :=
  tst.modMe (fun c => { c with trap := { c.trap with phase := .freezing, causes := [⟨tst.frameS 1 0 0, false⟩], pend := 2 } })

theorem test_SavesAndHandlers_handler_met : tstFroze.stopped 0 = true ∧ (tstFroze.core 0).trap.serving = none ∧ tstFroze.yieldsTo 0 = false ∧
    (tstFroze.ctx 0).leaving = false ∧ ((chooseCause (tstFroze.ctx 0).trap.causes).map (fun ch => ch.f.code) = some 1) ∧
    (∃ b, tstFroze.handlerAt 0 1 = .bytes b) ∧ ¬ (tst.stopped 0 = true) := by
  refine ⟨by decide, by decide, by decide, by decide, by decide +kernel, ⟨_, if_pos ?_⟩, by decide⟩
  show (firmwareTvec == firmwareTvec) = true
  exact beq_self_eq_true _

/-- S of the small state at the bound of R97 since clk 0. -/
def tstBound : State := { tstPend.modMe (fun c => { c with sc := { c.sc with boundSince := some 0 } }) with clk := 9400000 }

theorem test_SavesAndHandlers_watchdog_met : (∃ t, (tstBound.ctx 0).sc.boundSince = some t ∧ t + 9400000 ≤ tstBound.clk) ∧ (tstBound.ctx 0).trap.phase = .none ∧
    (tst.ctx 0).sc.boundSince = none := ⟨⟨0, rfl, by decide⟩, rfl, rfl⟩

/-! ## Hypotheses met: the step -/

/-- The state of the next step for a word at the program counter, on an engine's queue or in a port slot. -/
def placed (n w : Nat) : State := State.reset.withFetchWord n w

/-- The bytes of the bundle in which the word 0x0081960000000004 stands first. -/
def addiBytes : List Byte := [0x04, 0, 0, 0, 0, 0x96, 0x81, 0] ++ List.replicate 24 0

set_option maxRecDepth 4096 in
theorem test_StepRunsDecoded_met : (placed 64 0x0081960000000004).Moves (.stream 0 .S) [] ∧ ((placed 64 0x0081960000000004).ctx 0).canTry 0 = true ∧
    ((placed 64 0x0081960000000004).moved (.stream 0 .S) []).issueTurn 0 = true ∧
    (∃ w, State.Fetches { (placed 64 0x0081960000000004).moved (.stream 0 .S) [] with cur := { (placed 64 0x0081960000000004).cur with cid := 0, agent := .S } } w addiBytes) ∧
    (placed 64 0x0081960000000004).wordIn addiBytes = 0x0081960000000004 ∧ tagAgent 0x0081960000000004 = none ∧
    decodeMain 0x0081960000000004 = .ok (.addi ⟨0, 25, 24, .d, 4⟩) ∧ (∃ e, decodeMain 0x00FC000000000000 = .error e) ∧ tagAgent 0x200C000020000240 ≠ none :=
  ⟨⟨rfl, rfl, rfl, by decide +kernel⟩, by decide +kernel, by decide +kernel, ⟨_, Or.inr ⟨by decide +kernel, by decide +kernel, rfl⟩⟩, by decide +kernel, by decide, by decide,
    ⟨_, rfl⟩, by decide⟩

/-- An agenda whose head comes after the ready context 0, which issues before it; one whose turn has passed; and none. -/
theorem test_StepRunsDecoded_order_met : State.forced { placed 64 0x0081960000000004 with agenda := [.idle] } .idle = some 0 ∧
    State.reset.forced .idle = none ∧ Turn.passed ⟨0, 9, 0⟩ (Mover.rank (.stream 0 .S)) = true ∧
    ({ State.reset with boot := { State.reset.boot with off := true } } : State).forced .idle = none := by decide +kernel

/-- The trap core of core 0 serves context 0 from the object's first bundle. -/
def tstServe : State :=
  ({ placed 64 0x0081960000000004 with agenda := [.stream 0 .trapCore] } : State).modCore 0 (fun k => { k with
    trap := { k.trap with serving := some 0, sc := { k.trap.sc with pc := word 0x01F0000000010020 } } })

theorem test_StepRunsDecoded_trap_met : (tstServe.core 0).trap.serving = some 0 ∧ (tstServe.core 0).trap.firmware = false ∧
    (tstServe.core 0).trap.sc.nextIssue ≤ tstServe.clk ∧ (tstServe.core 0).trap.sc.hold = .none ∧ tstServe.agenda = [.stream 0 .trapCore] ∧
    tstServe.turn.passed (Mover.rank (.stream 0 .trapCore)) = false := by decide +kernel

theorem test_StepRunsDecoded_queue_met : (placed 64 0x600C010101000000).agenda = [.stream 0 .R] ∧
    (((placed 64 0x600C010101000000).ctx 0).eng.q .R).map QEnt.w = [0x600C010101000000] ∧ isFlow 0x600C010101000000 = false ∧
    decodeMain 0x600C010101000000 = .ok (.red ⟨0, ⟨none, some (1, 0)⟩, .max, 0⟩) ∧
    ((placed 64 0x600C010101000000).ctx 0).mayStart = true ∧ isFlow 0xA04C000000000000 = true := by decide +kernel

theorem test_StepRunsDecoded_port_met : ((placed 32 0).portRun.map PortRun.pc = some 0) ∧ ((placed 32 0).slot 0 0).endOf false = 1 ∧
    decodePort (((placed 32 0).slot 0 0).word 0) = .ok (.portFadd ⟨0, 0, 0, 0, 0, 0⟩) ∧ tst.boot.off = false ∧ State.reset.agenda = [] := by decide +kernel

theorem test_DecodeEncode_met : (Instr.addi ⟨7, 63, 63, .w, 0xFFFFFFFF⟩).wf = true ∧ encode (.addi ⟨7, 63, 63, .w, 0xFFFFFFFF⟩) = some 0x1C83FFC1FFFFFFFF ∧
    decodeMain 0x1C83FFC1FFFFFFFF = .ok (.addi ⟨7, 63, 63, .w, 0xFFFFFFFF⟩) ∧ decodePort 0 = .ok (.portFadd ⟨0, 0, 0, 0, 0, 0⟩) := by decide

/-- The reset state is in canonical form, and steps. -/
theorem test_StepKeepsMemories_met : State.reset.Canonical ∧ (∃ t, step State.reset = .next t) :=
  ⟨⟨⟨rfl, rfl, rfl, rfl, rfl, fun _ => rfl, fun _ => rfl, fun _ => rfl⟩, fun _ _ h => by cases h⟩, ⟨_, rfl⟩⟩

/-! ## Words written out from the encoding tables

Each word is written field by field, in the order of its format's table. -/

/-- Format SR: the two-source integer instructions, 0x00 to 0x12 (R267, R276). -/
theorem test_decode_int : ∀ p ∈ ([
    (0b000_000_00000000_000001_010100_101000_000000_00000000_000000_000000000000, .add ⟨0, 1, 20, 40, .d⟩),
    (0b000_001_00000001_000010_010101_101001_000000_00000000_000001_000000000000, .sub ⟨1, 2, 21, 41, .w⟩),
    (0b000_010_00000010_000011_010110_101010_000000_00000000_000000_000000000000, .mul ⟨2, 3, 22, 42, .d⟩),
    (0b000_011_00000011_000100_010111_101011_000000_00000000_000001_000000000000, .mulh ⟨3, 4, 23, 43, .w⟩),
    (0b000_100_00000100_000101_011000_101100_000000_00000000_000000_000000000000, .mulhu ⟨4, 5, 24, 44, .d⟩),
    (0b000_101_00000101_000110_011001_101101_000000_00000000_000001_000000000000, .div ⟨5, 6, 25, 45, .w⟩),
    (0b000_110_00000110_000111_011010_101110_000000_00000000_000000_000000000000, .divu ⟨6, 7, 26, 46, .d⟩),
    (0b000_111_00000111_001000_011011_101111_000000_00000000_000001_000000000000, .rem ⟨7, 8, 27, 47, .w⟩),
    (0b000_000_00001000_001001_011100_110000_000000_00000000_000000_000000000000, .remu ⟨0, 9, 28, 48, .d⟩),
    (0b000_001_00001001_001010_011101_110001_000000_00000000_000001_000000000000, .and ⟨1, 10, 29, 49, .w⟩),
    (0b000_010_00001010_001011_011110_110010_000000_00000000_000000_000000000000, .or ⟨2, 11, 30, 50, .d⟩),
    (0b000_011_00001011_001100_011111_110011_000000_00000000_000001_000000000000, .xor ⟨3, 12, 31, 51, .w⟩),
    (0b000_100_00001100_001101_100000_110100_000000_00000000_000000_000000000000, .shl ⟨4, 13, 32, 52, .d⟩),
    (0b000_101_00001101_001110_100001_110101_000000_00000000_000001_000000000000, .shr ⟨5, 14, 33, 53, .w⟩),
    (0b000_110_00001110_001111_100010_110110_000000_00000000_000000_000000000000, .sra ⟨6, 15, 34, 54, .d⟩),
    (0b000_111_00001111_010000_100011_110111_000000_00000000_000001_000000000000, .min ⟨7, 16, 35, 55, .w⟩),
    (0b000_000_00010000_010001_100100_111000_000000_00000000_000000_000000000000, .max ⟨0, 17, 36, 56, .d⟩),
    (0b000_001_00010001_010010_100101_111001_000000_00000000_000001_000000000000, .minu ⟨1, 18, 37, 57, .w⟩),
    (0b000_010_00010010_010011_100110_111010_000000_00000000_000000_000000000000, .maxu ⟨2, 19, 38, 58, .d⟩)] : List (Nat × Instr)), decodeMain p.1 = .ok p.2 := by decide +kernel

/-- Format SR: the other integer instructions, 0x13 to 0x19 (R267, R276, R292). -/
theorem test_decode_int2 : ∀ p ∈ ([
    (0b000_000_00010011_111111_000001_000000_000000_00000000_000001_000000000000, .clz ⟨0, 63, 1, .w⟩),
    (0b000_111_00010100_000010_111110_000000_000000_00000000_000000_000000000000, .popc ⟨7, 2, 62, .d⟩),
    (0b000_000_00010101_000011_000100_000101_000000_00000000_000000_000000000000, .bext ⟨0, 3, 4, 5⟩),
    (0b000_000_00010110_000110_000111_001000_001001_00000000_000000_000000000000, .bins ⟨0, 6, 7, 8, 9⟩),
    (0b000_000_00010111_001010_000010_001011_001100_00010000_000000_000000000000, .sel ⟨0, 10, 2, 11, 12, true⟩),
    (0b000_000_00010111_001010_100001_001011_001100_00000000_000000_000000000000, .sel ⟨0, 10, 33, 11, 12, false⟩),
    (0b000_000_00011000_001001_000100_000101_000000_00000110_000000_000000000000, .cmp ⟨0, 9, 4, 5, .d, .ltu, false⟩),
    (0b000_000_00011000_000010_000100_000101_000000_00010000_000001_000000000000, .cmp ⟨0, 2, 4, 5, .w, .eq, true⟩),
    (0b000_000_00011001_001101_001110_001111_010000_00000000_000001_000000000000, .madd ⟨0, 13, 14, 15, 16, .w⟩)] : List (Nat × Instr)), decodeMain p.1 = .ok p.2 := by decide +kernel

/-- Format SI: the immediate instructions (R268, R276). -/
theorem test_decode_imm : ∀ p ∈ ([
    (0b000_000_00100000_001010_010100_000000_11111111111111111111111111110000, .addi ⟨0, 10, 20, .d, 0xFFFFFFF0⟩),
    (0b000_000_00100001_001011_010101_000001_11111111111111111111111111110001, .andi ⟨0, 11, 21, .w, 0xFFFFFFF1⟩),
    (0b000_000_00100010_001100_010110_000000_11111111111111111111111111110010, .ori ⟨0, 12, 22, .d, 0xFFFFFFF2⟩),
    (0b000_000_00100011_001101_010111_000001_11111111111111111111111111110011, .xori ⟨0, 13, 23, .w, 0xFFFFFFF3⟩),
    (0b000_000_00100100_001110_011000_000000_00000000000000000000000000011111, .shli ⟨0, 14, 24, .d, 31⟩),
    (0b000_000_00100101_001111_011001_000001_00000000000000000000000000011111, .shri ⟨0, 15, 25, .w, 31⟩),
    (0b000_000_00100110_010000_011010_000000_00000000000000000000000000011111, .srai ⟨0, 16, 26, .d, 31⟩),
    (0b000_000_00100111_000001_000010_000101_10000000000000000000000000000000, .cmpi ⟨0, 1, 2, .ge, 0x80000000⟩),
    (0b000_000_00101000_000110_000000_000000_00000000000000000000000000010000, .li ⟨0, 6, 16⟩),
    (0b000_000_00101001_000111_000000_000000_00010010001101000101011001111000, .lih ⟨0, 7, 0x12345678⟩),
    (0b000_010_00101010_001000_001001_000001_00000000000000000000000000000011, .muli ⟨2, 8, 9, .w, 3⟩)] : List (Nat × Instr)), decodeMain p.1 = .ok p.2 := by decide +kernel

/-- Format SM: loads, stores, prefetch, waita, mark and fence (R269, R302). -/
theorem test_decode_mem : ∀ p ∈ ([
    (0b000_000_01000000_010100_000001_000000_10_000_000_0_000_00000000000000000000, .ld ⟨0, 20, 1, .w, .rlx, .core, false, .nh, 0⟩),
    (0b000_000_01000000_000101_000110_000000_01_001_100_1_011_11111111111111111000, .ld ⟨0, 5, 6, .h, .acq, .dom, true, .na, 0xFFFF8⟩),
    (0b000_000_01000001_000110_000101_000000_11_010_100_0_000_11111111111111111000, .st ⟨0, 6, 5, .d, .rel, .dom, .nh, 0xFFFF8⟩),
    (0b000_000_01000010_010111_000001_010101_10_000_000_1_000_00000000000000000000, .ldx ⟨0, 23, 1, 21, .w, .rlx, .core, true, .nh⟩),
    (0b000_000_01000011_010111_000001_010101_00_100_011_0_000_00000000000000000000, .stx ⟨0, 23, 1, 21, .b, .sc, .dev, .nh⟩),
    (0b000_000_01000100_000000_000101_000000_01_000_000_0_010_00000000010000000000, .pref ⟨0, 5, .h, .core, .st, 0x400⟩),
    (0b000_000_01000101_011000_010101_010110_11_001_011_0_000_00000000000000000100, .waita ⟨0, 24, 21, 22, .d, .acq, .dev, false, .nh, 4⟩),
    (0b000_001_01000110_000000_000000_000000_00_000_000_0_000_00000000000000000000, .mark ⟨1⟩),
    (0b000_000_01000111_000000_000000_000000_00_011_011_0_000_00000000000000000000, .fence ⟨0, .ar, .dev⟩)] : List (Nat × Instr)), decodeMain p.1 = .ok p.2 := by decide +kernel

/-- Format SX: atomics and memory reductions (R270). -/
theorem test_decode_atom : ∀ p ∈ ([
    (0b000_000_01100000_011000_000001_010110_11_011_011_1000_00000000000000010000, .amo ⟨0, 24, 1, 22, true, .ar, .dev, .swap, 16⟩),
    (0b000_000_01100001_011000_000001_010110_10_001_001_0000_01011111111111111100, .cas ⟨0, 24, 1, 22, 23, false, .acq, .clus, 0x3FFC⟩),
    (0b000_000_01100010_000000_010100_010101_01_010_100_0101_00100000000000000100, .mred ⟨0, 20, 21, .rel, .dom, .float .f16 true false true, 4⟩),
    (0b000_000_01100010_000000_010100_010101_11_000_000_1000_00001111000000001000, .mred ⟨0, 20, 21, .rlx, .core, .fixed 0xF0, 8⟩),
    (0b000_000_01100011_001000_010100_001100_10_000_000_0111_00000000000000100000, .vamo ⟨0, 8, 20, 12, false, .rlx, .core, .maxu, 32⟩),
    (0b000_000_01100100_000000_010100_001100_10_000_000_0010_00000000000011100000, .vmred ⟨0, 20, 12, .rlx, .core, .float .f32 false true false, 0xE0⟩)] : List (Nat × Instr)), decodeMain p.1 = .ok p.2 := by decide +kernel

/-- Format SR: scalar floats (R267, R295-R298). -/
theorem test_decode_float : ∀ p ∈ ([
    (0b000_000_01110000_000001_000010_000011_000000_00000000_000010_000000000000, .fadd ⟨0, 1, 2, 3, true⟩),
    (0b000_000_01110001_000100_000101_000110_000000_00000000_000000_000000000000, .fsub ⟨0, 4, 5, 6, false⟩),
    (0b000_011_01110010_010110_010100_010101_000000_00000000_000000_000000000000, .fmul ⟨3, 22, 20, 21, false⟩),
    (0b000_000_01110011_000111_001000_001001_001010_00000000_000010_000000000000, .ffma ⟨0, 7, 8, 9, 10, true⟩),
    (0b000_000_01110100_001011_001100_001101_000000_00000000_000000_000000000000, .fmin ⟨0, 11, 12, 13, false⟩),
    (0b000_000_01110101_001110_001111_010000_000000_00000000_000000_000000000000, .fmax ⟨0, 14, 15, 16, false⟩),
    (0b000_000_01110110_010001_010010_000000_000000_00100110_000010_000000000000, .fcvt ⟨0, 17, 18, .f16, .i8, true⟩),
    (0b000_000_01110111_000111_010100_010101_000000_00010101_000000_000000000000, .fcmp ⟨0, 7, 20, 21, .ge, true, false⟩),
    (0b000_000_01111000_010110_010111_000000_000000_00000000_000000_000000000000, .frcp ⟨0, 22, 23, false⟩),
    (0b000_000_01111001_011000_011001_000000_000000_00000000_000010_000000000000, .frsq ⟨0, 24, 25, true⟩)] : List (Nat × Instr)), decodeMain p.1 = .ok p.2 := by decide +kernel

/-- Tasks, semaphores and time (R316). -/
theorem test_decode_task : ∀ p ∈ ([
    (0b000_000_10000000_010100_000101_000000_000000_00000000_000000_000000000000, .spawn ⟨0, 20, 5⟩),
    (0b000_000_10000001_000001_010110_000000_000000_00000000_000000_000000000000, .arrive ⟨0, 1, 22⟩),
    (0b000_000_10000010_000000_010111_000000_000000_00000000_000000_000000000000, .est ⟨0, 23⟩),
    (0b000_000_10000011_000010_011000_000000_000000_00000000_000000_000000000000, .bmake ⟨0, 2, 24⟩),
    (0b000_000_10000100_000011_011001_000000_000000_00000000_000000_000000000000, .join ⟨0, 3, 25⟩),
    (0b000_000_10000101_000000_000000_000000_000000_00000000_000000_000000000000, .leave ⟨0⟩),
    (0b000_100_10000110_000000_000000_000000_000000_00000000_000000_000000000000, .bbar ⟨4⟩),
    (0b000_000_10000111_000000_000000_000000_00000000000000000000001000000011, .semw ⟨0, 3, 2⟩),
    (0b000_000_10001000_000000_000000_000000_00000000111111111111111111111111, .sems ⟨0, 255, 0xFFFF⟩),
    (0b000_000_10001001_000000_000000_000001_00000000000000000000011100000001, .semi ⟨0, 1, 7, true⟩),
    (0b000_000_10001010_101100_000000_000001_00000000000000000000000000000100, .semr ⟨0, 44, 4, true⟩),
    (0b000_000_10001011_000000_011010_000000_000000_00000000_000000_000000000000, .sleepu ⟨0, 26⟩),
    (0b000_000_10001100_011011_000000_000000_000000_00000000_000000_000000000000, .cyc ⟨0, 27⟩),
    (0b000_000_10001101_000000_011100_000000_000000_00000000_000000_000000000000, .yield ⟨0, 28⟩)] : List (Nat × Instr)), decodeMain p.1 = .ok p.2 := by decide +kernel

/-- System instructions (R316, R340). -/
theorem test_decode_sys : ∀ p ∈ ([
    (0b000_000_10100000_011010_000000_000000_00000000000000000000000000100100, .rdsys ⟨0, 26, 0x24⟩),
    (0b000_000_10100001_000000_011011_000000_00000000000000000000010000000000, .wrsys ⟨0, 27, 0x400⟩),
    (0b000_000_10100010_000000_000000_000000_00000000000000000000000000010000, .svc ⟨0, 0x10⟩),
    (0b000_000_10100011_000000_000000_000000_11111111111111111111111111111111, .trap ⟨0, 0xFFFFFFFF⟩),
    (0b000_000_10100100_000000_000000_000000_000000_00000000_000000_000000000000, .tret ⟨0⟩),
    (0b000_000_10100101_000001_000010_000011_000000_00000000_000000_000000000000, .iclk ⟨0, 1, 2, 3⟩),
    (0b000_000_10100110_000000_000100_000101_000000_00000000_000000_000000000000, .iulk ⟨0, 4, 5⟩),
    (0b000_000_10100111_000000_000110_000111_000000_00000010_000000_000000000000, .tlbi ⟨0, some (6, 7), true⟩),
    (0b000_000_10100111_000000_000000_000000_000000_00000001_000000_000000000000, .tlbi ⟨0, none, false⟩),
    (0b000_000_10101000_001000_001001_000000_000000_00000000_000000_000000000000, .caps ⟨0, 8, 9⟩)] : List (Nat × Instr)), decodeMain p.1 = .ok p.2 := by decide +kernel

/-- The port instructions of S (R413). -/
theorem test_decode_portIns : ∀ p ∈ ([
    (0b000_000_10110000_000000_010101_000000_000000_00000111_000000_000000000000, .pload ⟨0, 7, 21⟩),
    (0b000_000_10110001_000000_000000_000000_000000_00011001_000000_000000000000, .pbind ⟨0, 1, .md⟩),
    (0b000_000_10110001_000000_000000_000000_000000_01101000_000000_000000000000, .pbindU ⟨0, .ro⟩),
    (0b000_000_10110010_000000_010110_000000_000000_00001111_000000_000000000000, .ppar ⟨0, 15, 22⟩),
    (0b000_000_10110011_000000_000000_000000_000000_00001010_000000_000000000000, .pclr ⟨0, 2, true⟩),
    (0b000_000_10110100_011010_000000_000000_000000_00000110_000000_000000000000, .prd ⟨0, 26, 6⟩),
    (0b000_000_10110100_011110_011111_000000_000000_01001001_000000_000000000000, .prdC ⟨0, 30, 1, 2, 31⟩),
    (0b000_000_10110100_100000_000000_000000_000000_00010011_000000_000000000000, .prdN ⟨0, 32, 3⟩)] : List (Nat × Instr)), decodeMain p.1 = .ok p.2 := by decide +kernel

/-- Format AB (R274). -/
theorem test_decode_flow : ∀ p ∈ ([
    (0b101_000_00000000_00000000_0000000000_000000_11111111111111111111111101, .br ⟨0, 0x3FFFFFD⟩),
    (0b101_000_00000001_00000001_0000010101_011000_11111111111111111111111101, .bk ⟨0, .ne, 24, 21, 0x3FFFFFD⟩),
    (0b101_000_00000010_00000000_0000000000_000101_00000000000000000000000000, .jr ⟨0, 5⟩),
    (0b101_001_00000011_00000000_0000000000_000000_01111111111111111111111111, .call ⟨1, 0x1FFFFFF⟩),
    (0b101_000_00000100_00000000_0000000000_000000_00000000000000000000000000, .ret ⟨0⟩),
    (0b101_000_00000101_00000000_0000000000_010100_11111111111111111111111101, .loop ⟨0, 20, 0x3FFFFFD⟩),
    (0b101_000_00000110_00000011_0000000000_001001_00000000000000000000000100, .tstb ⟨0, .sem 3, false, 9, 4⟩),
    (0b101_000_00000110_00100001_1100000000_001001_00000000000000000000000100, .tstb ⟨0, .mem 33, true, 9, 4⟩),
    (0b101_000_00010000_00000011_0001000101_000000_00000000000000000000000000, .xfence ⟨0, .dev, 2, 5⟩),
    (0b101_000_00010001_00000000_0000000000_000000_00000000000000000000000000, .endTask ⟨0⟩),
    (0b101_000_00010010_00000000_0000000000_000000_00000000000000000000000000, .sync ⟨0⟩),
    (0b101_101_00010011_00000000_0000000000_000000_00000000000000000000000000, .nop ⟨5⟩)] : List (Nat × Instr)), decodeMain p.1 = .ok p.2 := by decide +kernel

/-- Format EI, tag C: the setups (R273, R346). -/
theorem test_decode_cSetup : ∀ p ∈ ([
    (0b001_000_00000000_0_00000000_0_00000000_000_00000_010100_00000_0000000000101, .cnestCount ⟨0, ⟨none, none⟩, 5, 20⟩),
    (0b001_000_00000000_1_00000111_0_00000000_000_00001_011000_00000_0000000100000, .cnestStride ⟨0, ⟨some 7, none⟩, 0, 4, 24⟩),
    (0b001_000_00000000_0_00000000_1_11111111_000_00010_010101_00000_0000000000000, .cnestRun ⟨0, ⟨none, some (255, 0)⟩, 21⟩),
    (0b001_000_00000001_1_00000011_1_00000100_000_00000_010110_10101_0000101011000, .cbaseAddr ⟨0, ⟨some 3, some (4, 0x15)⟩, 3, 5, 22⟩),
    (0b001_000_00000001_0_00000000_0_00000000_000_00001_010111_00000_0000001111000, .cbaseScale ⟨0, ⟨none, none⟩, 7, 1, 23⟩),
    (0b001_000_00000010_1_00000111_0_00000000_000_00000_011001_00000_0000000110000, .cfmtFmt ⟨0, ⟨some 7, none⟩, 6, 25⟩),
    (0b001_000_00000010_0_00000000_1_11111111_000_00001_011010_00000_0000000000000, .cfmtFill ⟨0, ⟨none, some (255, 0)⟩, 26⟩),
    (0b001_000_00000010_1_00000011_1_00000100_000_00010_011011_10101_0000000000000, .cfmtLimit ⟨0, ⟨some 3, some (4, 0x15)⟩, 27⟩),
    (0b001_000_00000010_0_00000000_0_00000000_000_00011_011100_00000_0000000000000, .cfmtSubv ⟨0, ⟨none, none⟩, 28⟩),
    (0b001_000_00000010_1_00000111_0_00000000_000_00100_000000_00000_0000000000000, .cfmtClear ⟨0, ⟨some 7, none⟩⟩)] : List (Nat × Instr)), decodeMain p.1 = .ok p.2 := by decide +kernel

/-- Format EI, tag R: the setups (R273, R346). -/
theorem test_decode_rSetup : ∀ p ∈ ([
    (0b011_000_00000000_0_00000000_0_00000000_000_00000_010100_00000_0000000000101, .rnestCount ⟨0, ⟨none, none⟩, 5, 20⟩),
    (0b011_000_00000000_1_00000111_0_00000000_000_00001_011000_00000_0000000100000, .rnestStride ⟨0, ⟨some 7, none⟩, 0, 4, 24⟩),
    (0b011_000_00000000_0_00000000_1_11111111_000_00010_010101_00000_0000000000000, .rnestRun ⟨0, ⟨none, some (255, 0)⟩, 21⟩),
    (0b011_000_00000001_1_00000011_1_00000100_000_00000_010110_10101_0000101011000, .rbaseAddr ⟨0, ⟨some 3, some (4, 0x15)⟩, 3, 5, 22⟩),
    (0b011_000_00000001_0_00000000_0_00000000_000_00001_010111_00000_0000001111000, .rbaseScale ⟨0, ⟨none, none⟩, 7, 1, 23⟩),
    (0b011_000_00000010_1_00000111_0_00000000_000_00000_011001_00000_0000000110000, .rfmtFmt ⟨0, ⟨some 7, none⟩, 6, 25⟩),
    (0b011_000_00000010_0_00000000_1_11111111_000_00001_011010_00000_0000000000000, .rfmtFill ⟨0, ⟨none, some (255, 0)⟩, 26⟩),
    (0b011_000_00000010_1_00000011_1_00000100_000_00010_011011_10101_0000000000000, .rfmtLimit ⟨0, ⟨some 3, some (4, 0x15)⟩, 27⟩),
    (0b011_000_00000010_0_00000000_0_00000000_000_00011_011100_00000_0000000000000, .rfmtSubv ⟨0, ⟨none, none⟩, 28⟩),
    (0b011_000_00000010_1_00000111_0_00000000_000_00100_000000_00000_0000000000000, .rfmtClear ⟨0, ⟨some 7, none⟩⟩)] : List (Nat × Instr)), decodeMain p.1 = .ok p.2 := by decide +kernel

/-- Format EA, tag C: the copy family (R272, R353). -/
theorem test_decode_copy : ∀ p ∈ ([
    (0b001_000_00000011_1_00000011_1_00000100_001_00011_001010_001011_001100_10101_0, .copy ⟨0, ⟨some 3, some (4, 0x15)⟩, 1, some 10, some 11, 12⟩),
    (0b001_000_00000100_0_00000000_0_00000000_111_01001_000000_000000_001101_00000_0, .copyz ⟨0, ⟨none, none⟩, 7, 2, 3, 13⟩),
    (0b001_000_00000101_1_00000111_0_00000000_010_00010_001110_001111_010000_00000_0, .gather ⟨0, ⟨some 7, none⟩, 2, some 15, 14, 16⟩),
    (0b001_000_00000110_0_00000000_1_11111111_011_00001_010001_010010_010011_00000_0, .scatter ⟨0, ⟨none, some (255, 0)⟩, 3, some 17, 18, 19⟩),
    (0b001_000_00000111_1_00000011_1_00000100_100_00010_000000_010100_010101_10101_0, .decomp ⟨0, ⟨some 3, some (4, 0x15)⟩, 4, none, some 20, 21⟩),
    (0b001_000_00001000_0_00000000_0_00000000_101_00000_000000_000000_000000_00000_0, .drain ⟨0, ⟨none, none⟩, 5⟩),
    (0b001_000_00001001_1_00000111_0_00000000_110_00111_010110_010111_000000_00000_0, .cpref ⟨0, ⟨some 7, none⟩, 6, 3, true, 22, 23⟩)] : List (Nat × Instr)), decodeMain p.1 = .ok p.2 := by decide +kernel

/-- Format EA, tags R and K (R272, R361, R364, R365). -/
theorem test_decode_redColl : ∀ p ∈ ([
    (0b011_000_00000011_1_00000011_1_00000100_000_10001_000000_000000_000000_10101_0, .red ⟨0, ⟨some 3, some (4, 0x15)⟩, .max, 2⟩),
    (0b011_000_00000100_0_00000000_0_00000000_000_11100_000000_000000_000000_00000_0, .scan ⟨0, ⟨none, none⟩, .or, 3⟩),
    (0b011_000_00000101_1_00000111_0_00000000_000_00001_011110_011111_000000_00000_0, .merge ⟨0, ⟨some 7, none⟩, true, 30, 31⟩),
    (0b100_000_00000000_0_00000000_0_00000000_000_01111_000001_000000_000000_00000_0, .kring ⟨0, ⟨none, none⟩, 15, 1⟩),
    (0b100_000_00000001_1_00000111_0_00000000_000_00000_000010_000000_000000_00000_0, .kbw ⟨0, ⟨some 7, none⟩, 2⟩),
    (0b100_000_00000010_0_00000000_1_11111111_000_00001_011000_100100_000000_00000_0, .kallred ⟨0, ⟨none, some (255, 0)⟩, 1, 24, 36⟩),
    (0b100_000_00000011_1_00000011_1_00000100_000_00010_011001_100101_000000_10101_0, .kbcast ⟨0, ⟨some 3, some (4, 0x15)⟩, 2, 25, 37⟩),
    (0b100_000_00000100_0_00000000_0_00000000_000_00000_000011_000100_000101_00000_0, .kput ⟨0, ⟨none, none⟩, 3, 4, 5⟩)] : List (Nat × Instr)), decodeMain p.1 = .ok p.2 := by decide +kernel

/-- Format EI, tag M: the setups (R273, R379). -/
theorem test_decode_matSetup : ∀ p ∈ ([
    (0b010_000_00000000_0_00000000_0_00000000_000_00000_010100_00000_0000000000101, .mnestCount ⟨0, ⟨none, none⟩, 5, 20⟩),
    (0b010_000_00000000_1_00000111_0_00000000_000_00001_011000_00000_0000000001000, .mnestStride ⟨0, ⟨some 7, none⟩, 0, 1, 24⟩),
    (0b010_000_00000001_0_00000000_1_11111111_000_00000_010101_00000_0000100010000, .mbaseAddr ⟨0, ⟨none, some (255, 0)⟩, 2, 4, 21⟩),
    (0b010_000_00000001_1_00000011_1_00000100_000_00001_010110_10101_0000001000000, .mbaseScale ⟨0, ⟨some 3, some (4, 0x15)⟩, 0, 1, 22⟩),
    (0b010_000_00000001_0_00000000_0_00000000_000_00010_010111_00000_0000000000000, .mbasePitch ⟨0, ⟨none, none⟩, 23⟩),
    (0b010_000_00000001_1_00000111_0_00000000_000_00011_011000_00000_0000000000000, .mbaseDpitch ⟨0, ⟨some 7, none⟩, 24⟩),
    (0b010_000_00000010_0_00000000_1_11111111_000_00000_011001_00000_0000000000000, .mfmtCtl ⟨0, ⟨none, some (255, 0)⟩, 25⟩),
    (0b010_000_00000010_1_00000011_1_00000100_000_00001_011010_10101_0000000000000, .mfmtDctl ⟨0, ⟨some 3, some (4, 0x15)⟩, 26⟩),
    (0b010_000_00000010_0_00000000_0_00000000_000_00010_011011_00000_0000000000000, .mfmtDsb ⟨0, ⟨none, none⟩, 27⟩),
    (0b010_000_00000010_1_00000111_0_00000000_000_00011_011100_00000_0000000000000, .mfmtClip ⟨0, ⟨some 7, none⟩, 28⟩),
    (0b010_000_00000010_0_00000000_1_11111111_000_00100_011101_00000_0000000000000, .mfmtSubv ⟨0, ⟨none, some (255, 0)⟩, 29⟩),
    (0b010_000_00000010_1_00000011_1_00000100_000_00101_000000_10101_0000000000000, .mfmtClear ⟨0, ⟨some 3, some (4, 0x15)⟩⟩)] : List (Nat × Instr)), decodeMain p.1 = .ok p.2 := by decide +kernel

/-- Format EA, tag M (R272, R383, R394). -/
theorem test_decode_mat : ∀ p ∈ ([
    (0b010_000_00000011_1_00000011_1_00000100_000_00000_000000_000000_000000_10101_0, .mgo ⟨0, ⟨some 3, some (4, 0x15)⟩⟩),
    (0b010_000_00000100_0_00000000_0_00000000_000_01000_000001_000010_000000_00000_0, .mzero ⟨0, ⟨none, none⟩, true, 1, 2⟩),
    (0b010_000_00000101_1_00000111_0_00000000_000_01001_000011_000100_000101_00000_0, .minit ⟨0, ⟨some 7, none⟩, true, .spad, 3, 4, 5⟩),
    (0b010_000_00000110_0_00000000_1_11111111_000_00011_000110_000111_001000_00000_0, .mdrain ⟨0, ⟨none, some (255, 0)⟩, .chip, 6, 7, 8⟩),
    (0b010_000_00000111_1_00000011_1_00000100_000_00000_001001_001010_001011_10101_0, .msparse ⟨0, ⟨some 3, some (4, 0x15)⟩, 9, 10, 11⟩),
    (0b010_000_00001000_0_00000000_0_00000000_000_00000_001100_001101_000000_00000_0, .dmap ⟨0, ⟨none, none⟩, 12, 13⟩),
    (0b010_000_00001001_1_00000111_0_00000000_000_01111_001110_000000_000000_00000_0, .dcurve ⟨0, ⟨some 7, none⟩, 15, 14⟩),
    (0b010_000_00001010_0_00000000_1_11111111_000_00010_001111_010000_000000_00000_0, .dtap ⟨0, ⟨none, some (255, 0)⟩, 2, 15, 16⟩),
    (0b010_000_00001011_1_00000011_1_00000100_000_00000_000000_000000_000000_10101_0, .dgo ⟨0, ⟨some 3, some (4, 0x15)⟩⟩)] : List (Nat × Instr)), decodeMain p.1 = .ok p.2 := by decide +kernel

/-- Port words: op, d, a, b, c, m, x (R275, R279). -/
theorem test_decode_port0 : ∀ p ∈ ([
    (0b000000_0000_0011_0111_1011_0000_000001, .portFadd ⟨0, 3, 7, 11, 0, 1⟩),
    (0b000001_0001_0100_1000_1100_0101_001000, .portFsub ⟨1, 4, 8, 12, 5, 8⟩),
    (0b000010_0010_0101_1001_1101_1010_001111, .portFmul ⟨2, 5, 9, 13, 10, 15⟩),
    (0b000011_0011_0110_1010_1110_1111_010110, .portFfma ⟨3, 6, 10, 14, 15, 22⟩),
    (0b000100_0100_0111_1011_1111_0100_011101, .portFmin ⟨4, 7, 11, 15, 4, 29⟩),
    (0b000101_0101_1000_1100_0000_1001_100100, .portFmax ⟨5, 8, 12, 0, 9, 36⟩),
    (0b000110_0110_1001_1101_0001_1110_101011, .portFabs ⟨6, 9, 13, 1, 14, 43⟩),
    (0b000111_0111_1010_1110_0010_0011_110010, .portFneg ⟨7, 10, 14, 2, 3, 50⟩),
    (0b001000_1000_1011_1111_0011_1000_111001, .portFrcp ⟨8, 11, 15, 3, 8, 57⟩),
    (0b001001_1001_1100_0000_0100_1101_000000, .portFrsq ⟨9, 12, 0, 4, 13, 0⟩),
    (0b001010_1010_1101_0001_0101_0010_000111, .portFex2 ⟨10, 13, 1, 5, 2, 7⟩),
    (0b001011_1011_1110_0010_0110_0111_001110, .portFlg2 ⟨11, 14, 2, 6, 7, 14⟩),
    (0b001100_1100_1111_0011_0111_1100_010101, .portFcmp ⟨12, 15, 3, 7, 12, 21⟩),
    (0b010000_1101_0000_0100_1000_0001_011100, .portIadd ⟨13, 0, 4, 8, 1, 28⟩),
    (0b010001_1110_0001_0101_1001_0110_100011, .portIsub ⟨14, 1, 5, 9, 6, 35⟩)] : List (Nat × Instr)), decodePort p.1 = .ok p.2 := by decide +kernel

/-- Port words: op, d, a, b, c, m, x (R275, R279). -/
theorem test_decode_port1 : ∀ p ∈ ([
    (0b010010_1111_0010_0110_1010_1011_101010, .portImul ⟨15, 2, 6, 10, 11, 42⟩),
    (0b010011_0000_0011_0111_1011_0000_110001, .portImulh ⟨0, 3, 7, 11, 0, 49⟩),
    (0b010100_0001_0100_1000_1100_0101_111000, .portImin ⟨1, 4, 8, 12, 5, 56⟩),
    (0b010101_0010_0101_1001_1101_1010_111111, .portImax ⟨2, 5, 9, 13, 10, 63⟩),
    (0b010110_0011_0110_1010_1110_1111_000110, .portIminu ⟨3, 6, 10, 14, 15, 6⟩),
    (0b010111_0100_0111_1011_1111_0100_001101, .portImaxu ⟨4, 7, 11, 15, 4, 13⟩),
    (0b011000_0101_1000_1100_0000_1001_010100, .portAnd ⟨5, 8, 12, 0, 9, 20⟩),
    (0b011001_0110_1001_1101_0001_1110_011011, .portOr ⟨6, 9, 13, 1, 14, 27⟩),
    (0b011010_0111_1010_1110_0010_0011_100010, .portXor ⟨7, 10, 14, 2, 3, 34⟩),
    (0b011011_1000_1011_1111_0011_1000_101001, .portShl ⟨8, 11, 15, 3, 8, 41⟩),
    (0b011100_1001_1100_0000_0100_1101_110000, .portShr ⟨9, 12, 0, 4, 13, 48⟩),
    (0b011101_1010_1101_0001_0101_0010_110111, .portSra ⟨10, 13, 1, 5, 2, 55⟩),
    (0b011110_1011_1110_0010_0110_0111_111110, .portIcmp ⟨11, 14, 2, 6, 7, 62⟩),
    (0b011111_1100_1111_0011_0111_1100_000101, .portSel ⟨12, 15, 3, 7, 12, 5⟩),
    (0b100000_1101_0000_0100_1000_0001_001100, .portCvt ⟨13, 0, 4, 8, 1, 12⟩)] : List (Nat × Instr)), decodePort p.1 = .ok p.2 := by decide +kernel

/-- Port words: op, d, a, b, c, m, x (R275, R279). -/
theorem test_decode_port2 : ∀ p ∈ ([
    (0b100001_1110_0001_0101_1001_0110_010011, .portRnd ⟨14, 1, 5, 9, 6, 19⟩),
    (0b100010_1111_0010_0110_1010_1011_011010, .portQsr ⟨15, 2, 6, 10, 11, 26⟩),
    (0b100100_0000_0011_0111_1011_0000_100001, .portGet ⟨0, 3, 7, 11, 0, 33⟩),
    (0b100101_0001_0100_1000_1100_0101_101000, .portOut ⟨1, 4, 8, 12, 5, 40⟩),
    (0b100110_0010_0101_1001_1101_1010_101111, .portDrop ⟨2, 5, 9, 13, 10, 47⟩),
    (0b100111_0011_0110_1010_1110_1111_110110, .portPar ⟨3, 6, 10, 14, 15, 54⟩),
    (0b101000_0100_0111_1011_1111_0100_111101, .portParx ⟨4, 7, 11, 15, 4, 61⟩),
    (0b101001_0101_1000_1100_0000_1001_000100, .portCget ⟨5, 8, 12, 0, 9, 4⟩),
    (0b101010_0110_1001_1101_0001_1110_001011, .portCset ⟨6, 9, 13, 1, 14, 11⟩),
    (0b101011_0111_1010_1110_0010_0011_010010, .portPrev ⟨7, 10, 14, 2, 3, 18⟩),
    (0b101100_1000_1011_1111_0011_1000_011001, .portLut ⟨8, 11, 15, 3, 8, 25⟩),
    (0b101101_1001_1100_0000_0100_1101_100000, .portLdl ⟨9, 12, 0, 4, 13, 32⟩),
    (0b101110_1010_1101_0001_0101_0010_100111, .portStl ⟨10, 13, 1, 5, 2, 39⟩),
    (0b101111_1011_1110_0010_0110_0111_101110, .portFlag ⟨11, 14, 2, 6, 7, 46⟩),
    (0b111111_0001_0010_0011_0100_0101_000110, .portHint 7 ⟨1, 2, 3, 4, 5, 6⟩)] : List (Nat × Instr)), decodePort p.1 = .ok p.2 := by decide +kernel
/-! ## Words that the spec prints -/

/-- Words of the spec's worked examples, with the instructions of their full notation. -/
theorem test_decode_examples : ∀ p ∈ ([
    (0x0101504080000004, .ld ⟨0, 21, 1, .w, .rlx, .core, false, .nh, 4⟩), (0x0DC9651500000000, .fmul ⟨3, 22, 20, 21, false⟩),
    (0x0105604080000008, .st ⟨0, 22, 1, .w, .rlx, .core, .nh, 8⟩), (0x00A1800000000010, .li ⟨0, 24, 16⟩), (0x0081960000000004, .addi ⟨0, 25, 24, .d, 4⟩),
    (0xA044000000000000, .endTask ⟨0⟩), (0x0109705580800000, .ldx ⟨0, 23, 1, 21, .w, .rlx, .core, true, .nh⟩), (0x0001659700000000, .add ⟨0, 22, 22, 23, .d⟩),
    (0xA014000053FFFFFD, .loop ⟨0, 20, 0x3FFFFFD⟩), (0x01818056DB000010, .amo ⟨0, 24, 1, 22, true, .ar, .dev, .add, 16⟩),
    (0xA0180C0024000004, .tstb ⟨0, .sem 3, false, 9, 4⟩), (0xA018170024000004, .tstb ⟨0, .mem 5, true, 9, 4⟩), (0x0201404000000000, .spawn ⟨0, 20, 1⟩),
    (0x0204058000000000, .arrive ⟨0, 0, 22⟩), (0x02C0054000000000, .pload ⟨0, 0, 21⟩), (0x02C80580003C0000, .ppar ⟨0, 15, 22⟩),
    (0x02D1A00000000000, .prd ⟨0, 26, 0⟩), (0x02C4000000800000, .pbind ⟨0, 0, .ri⟩), (0x02D1E00000A40000, .prdC ⟨0, 30, 1, 1, 0⟩),
    (0x022AC00100000004, .semr ⟨0, 44, 4, true⟩), (0x011565188B000004, .waita ⟨0, 22, 20, 24, .w, .acq, .dev, false, .nh, 4⟩),
    (0xA004041563FFFFFD, .bk ⟨0, .ne, 24, 21, 0x3FFFFFD⟩), (0x0091D54000000002, .shli ⟨0, 29, 21, .d, 2⟩), (0x0009E10500000000, .mul ⟨0, 30, 4, 5, .d⟩),
    (0x1DE5E78000000000, .frsq ⟨7, 30, 30, false⟩), (0x0282A00000000024, .rdsys ⟨0, 42, 0x24⟩), (0x021C000000000203, .semw ⟨0, 3, 2⟩),
    (0xA0400C8100000000, .xfence ⟨0, .dev, 4, 1⟩), (0x00A6B00042FE0000, .lih ⟨0, 43, 0x42FE0000⟩), (0, .add ⟨0, 0, 0, 0, .d⟩)] : List (Nat × Instr)),
    decodeMain p.1 = .ok p.2 := by decide +kernel

/-- The same, for the trailing streams and the ports. -/
theorem test_decode_examples_engines : ∀ p ∈ ([
    (0x6000000002640000, .rnestRun ⟨0, ⟨none, none⟩, 25⟩), (0x6004000000680068, .rbaseAddr ⟨0, ⟨none, none⟩, 5, 1, 26⟩),
    (0x2010010105000010, .copyz ⟨0, ⟨none, some (1, 8)⟩, 0, 2, 2, 0⟩), (0x2020010200000008, .drain ⟨0, ⟨none, some (2, 4)⟩, 0⟩),
    (0x600E030300000002, .red ⟨0, ⟨some 1, some (3, 1)⟩, .sum, 0⟩), (0x40140000080166C0, .minit ⟨0, ⟨none, none⟩, true, .mem, 0, 22, 27⟩),
    (0x4008000000A40000, .mfmtCtl ⟨0, ⟨none, none⟩, 41⟩), (0x400E050400000000, .mgo ⟨0, ⟨some 2, some (4, 0)⟩⟩),
    (0x20120F080F0002C2, .copyz ⟨0, ⟨some 7, some (8, 1)⟩, 0, 4, 4, 11⟩), (0x8000000001640000, .kring ⟨0, ⟨none, none⟩, 1, 25⟩),
    (0x80040000008C0000, .kbw ⟨0, ⟨none, none⟩, 35⟩), (0x401202000001D000, .mzero ⟨0, ⟨some 1, none⟩, false, 0, 29⟩),
    (0x4020000000797000, .dmap ⟨0, ⟨none, none⟩, 30, 23⟩), (0x40240000017C0000, .dcurve ⟨0, ⟨none, none⟩, 1, 31⟩),
    (0x4028000002821000, .dtap ⟨0, ⟨none, none⟩, 2, 32, 33⟩), (0x402E030200000002, .dgo ⟨0, ⟨some 1, some (2, 1)⟩⟩),
    (0x2000000001600020, .cnestStride ⟨0, ⟨none, none⟩, 0, 4, 24⟩), (0x20140102205402C2, .gather ⟨0, ⟨none, some (2, 1)⟩, 1, none, 21, 11⟩),
    (0x4000000001600008, .mnestStride ⟨0, ⟨none, none⟩, 0, 1, 24⟩), (0x2020010520000002, .drain ⟨0, ⟨none, some (5, 1)⟩, 1⟩)] : List (Nat × Instr)),
    decodeMain p.1 = .ok p.2 := by decide +kernel

theorem test_decode_examples_ports : decodePort 0x90000000 = .ok (.portGet ⟨0, 0, 0, 0, 0, 0⟩) ∧ decodePort 0x940C0001 = .ok (.portOut ⟨0, 3, 0, 0, 0, 1⟩) ∧
    decodePort 0x08804000 = .ok (.portFmul ⟨2, 0, 1, 0, 0, 0⟩) := by decide

/-- Words that are no instruction: the table of R281's chapter, then an unassigned opcode of each tag (R276-R278), the reserved codes and combinations of
R150, R265, R267-R274, R316, R346, R353, R361, R383 and R413, and the reserved port ops (R279). -/
theorem test_decode_refuses : ∀ w ∈ ([0x0009E10500000020, 0x0068000000000000, 0xC000000000000000, 0xE000000000000000, 0x402C000000000001, 0x2020000520000002,
    0xA050000000000000, 0x2028000000000000, 0x4030000000000000, 0x6018000000000000, 0x8014000000000000,
    0b000_000_00000000_000001_000010_000011_000001_00000000_000000_000000000000, 0b000_000_00011000_000001_000010_000011_000000_00001010_000000_000000000000,
    0b000_000_00011000_001000_000010_000011_000000_00010000_000000_000000000000, 0b000_000_00010111_000001_001000_000011_000000_00010000_000000_000000000000,
    0b000_000_00100100_000001_000010_000000_00000000000000000000000001000000, 0b000_000_00101000_000001_000010_000000_00000000000000000000000000000000,
    0b000_000_01000000_000001_000010_000000_11_000_000_1_000_00000000000000000000, 0b000_000_01000000_000001_000010_000000_00_010_000_0_000_00000000000000000000,
    0b000_000_01000000_000001_000010_000000_00_100_010_0_000_00000000000000000000, 0b000_000_01000000_000001_000010_000000_00_000_000_0_100_00000000000000000000,
    0b000_000_01000001_000001_000010_000000_00_000_000_1_000_00000000000000000000, 0b000_000_01000101_000001_000010_000011_01_000_000_0_000_00000000000000000000,
    0b000_000_01000111_000000_000000_000000_00_000_011_0_000_00000000000000000000, 0b000_000_01100000_000001_000010_000011_01_000_000_0000_00000000000000000000,
    0b000_000_01100000_000001_000010_000011_10_000_000_1001_00000000000000000000, 0b000_000_01100010_000000_000010_000011_10_001_000_0000_00000000000000000000,
    0b000_000_01100010_000000_000010_000011_01_000_000_0000_00000000000000000000, 0b000_000_01100011_000001_000010_000100_10_000_000_0000_00000000000000000000,
    0b000_000_01110110_000001_000010_000000_000000_01010000_000000_000000000000, 0b000_000_01110111_000001_000010_000011_000000_00000110_000000_000000000000,
    0b000_000_10000111_000000_000000_000000_00000000000000000000000000000011, 0b000_000_10110001_000000_000000_000000_000000_00110000_000000_000000000000,
    0b000_000_10110100_000001_000000_000000_000000_00011000_000000_000000000000, 0b101_000_00000101_00000000_0000000000_000000_00000000000000000000000001,
    0b101_000_00010000_00000011_0000000001_000000_00000000000000000000000000, 0b001_000_00000000_0_00000001_0_00000000_000_00000_000001_00000_0000000000000,
    0b001_000_00000000_0_00000000_0_00000000_000_00000_000001_00000_0000000000110, 0b010_000_00000011_0_00000000_0_00000000_001_00000_000000_000000_000000_00000_0,
    0b001_000_00001001_0_00000000_1_00000001_000_00000_000001_000001_000000_00001_0, 0b011_000_00000011_0_00000000_0_00000000_000_00101_000000_000000_000000_00000_0] : List Nat),
    (decodeMain w).toOption = none := by decide +kernel

theorem test_decode_refuses_ports : ∀ op ∈ [0x0D, 0x0E, 0x0F, 0x23, 0x30, 0x31, 0x32, 0x33, 0x34, 0x35, 0x36, 0x37], (decodePort (op * 2 ^ 26)).toOption = none := by
  decide +kernel

/-! ## Terms that are no instruction -/

/-- An ill-formed term for every check of the operand shapes of S: a field out of its range, or a combination that is reserved. -/
theorem test_wf_refuses : ∀ i ∈ ([.add ⟨8, 0, 0, 0, .d⟩, .add ⟨0, 64, 0, 0, .d⟩, .add ⟨0, 0, 64, 0, .d⟩, .add ⟨0, 0, 0, 64, .d⟩, .clz ⟨0, 64, 0, .d⟩, .bext ⟨0, 0, 0, 64⟩,
    .bins ⟨0, 0, 0, 0, 64⟩, .sel ⟨0, 1, 8, 0, 0, true⟩, .sel ⟨0, 1, 64, 0, 0, false⟩, .cmp ⟨0, 8, 0, 0, .d, .eq, true⟩, .madd ⟨0, 0, 0, 0, 64, .d⟩, .addi ⟨0, 0, 64, .d, 0⟩,
    .shli ⟨0, 0, 0, .d, 64⟩, .shri ⟨0, 0, 0, .w, 32⟩, .srai ⟨8, 0, 0, .d, 0⟩, .cmpi ⟨0, 64, 0, .eq, 0⟩, .li ⟨0, 64, 0⟩, .ld ⟨0, 0, 0, .b, .rel, .core, false, .nh, 0⟩,
    .ld ⟨0, 0, 0, .b, .sc, .dom, false, .nh, 0⟩, .ld ⟨0, 0, 0, .d, .rlx, .core, true, .nh, 0⟩, .st ⟨0, 0, 0, .b, .acq, .core, .nh, 0⟩, .ldx ⟨0, 0, 0, 64, .b, .rlx, .core, false, .nh⟩,
    .stx ⟨0, 0, 0, 0, .b, .ar, .core, .nh⟩, .pref ⟨0, 64, .b, .core, .nh, 0⟩, .waita ⟨0, 0, 0, 0, .b, .rlx, .core, false, .nh, 0⟩, .fence ⟨0, .rlx, .core⟩, .fence ⟨0, .sc, .dev⟩,
    .amo ⟨0, 0, 0, 0, true, .sc, .core, .add, 0⟩, .vamo ⟨0, 2, 0, 0, true, .rlx, .core, .add, 0⟩, .vamo ⟨0, 0, 0, 2, true, .rlx, .core, .add, 0⟩,
    .cas ⟨0, 0, 0, 0, 64, true, .rlx, .core, 0⟩, .mred ⟨0, 0, 0, .acq, .core, .fixed 0, 0⟩, .mred ⟨0, 0, 0, .rlx, .core, .float .i8 false false false, 0⟩,
    .vmred ⟨0, 0, 1, .rlx, .core, .fixed 0, 0⟩, .fadd ⟨0, 64, 0, 0, false⟩, .ffma ⟨0, 0, 0, 0, 64, false⟩, .frcp ⟨0, 0, 64, false⟩, .fcvt ⟨0, 0, 0, .l6, .f32, false⟩,
    .fcvt ⟨0, 0, 0, .f32, .l6, false⟩, .fcmp ⟨0, 0, 0, 0, .ltu, false, false⟩, .fcmp ⟨0, 8, 0, 0, .eq, true, false⟩, .semw ⟨0, 256, 1⟩, .sems ⟨0, 0, 0⟩, .semi ⟨0, 256, 0, false⟩,
    .semr ⟨0, 0, 256, false⟩, .rdsys ⟨0, 64, 0⟩, .wrsys ⟨0, 64, 0⟩, .svc ⟨8, 0⟩, .iulk ⟨0, 64, 0⟩, .tlbi ⟨0, some (64, 0), false⟩, .est ⟨0, 64⟩, .cyc ⟨0, 64⟩, .leave ⟨8⟩,
    .spawn ⟨0, 64, 0⟩, .iclk ⟨0, 0, 0, 64⟩] : List Instr), i.wf = false := by decide +kernel

/-- The same for the port instructions, the control flow, the engines, the port words and the events. -/
theorem test_wf_refuses_more : ∀ i ∈ ([.pload ⟨0, 8, 0⟩, .pbind ⟨0, 8, .cin⟩, .pbindU ⟨8, .cin⟩, .ppar ⟨0, 16, 0⟩, .pclr ⟨0, 8, false⟩, .prd ⟨0, 64, 0⟩, .prdN ⟨0, 0, 8⟩,
    .prdC ⟨0, 0, 0, 4, 0⟩, .br ⟨8, 0⟩, .bk ⟨0, .eq, 0, 64, 0⟩, .jr ⟨0, 64⟩, .loop ⟨0, 0, 0⟩, .tstb ⟨0, .sem 256, false, 0, 0⟩, .tstb ⟨0, .mem 64, false, 0, 0⟩,
    .xfence ⟨0, .core, 0, 1⟩, .xfence ⟨0, .core, 1, 0⟩, .cnestCount ⟨0, ⟨none, none⟩, 6, 0⟩, .cnestCount ⟨0, ⟨some 256, none⟩, 0, 0⟩, .cnestCount ⟨0, ⟨none, some (256, 0)⟩, 0, 0⟩,
    .cnestStride ⟨0, ⟨none, none⟩, 0, 8, 0⟩, .cnestRun ⟨0, ⟨none, none⟩, 64⟩, .cbaseAddr ⟨0, ⟨none, none⟩, 0, 8, 0⟩, .cfmtFmt ⟨0, ⟨none, none⟩, 8, 0⟩, .cfmtClear ⟨8, ⟨none, none⟩⟩,
    .copy ⟨0, ⟨none, none⟩, 8, none, none, 0⟩, .copy ⟨0, ⟨none, none⟩, 0, some 64, none, 0⟩, .copyz ⟨0, ⟨none, none⟩, 0, 0, 1, 0⟩, .copyz ⟨0, ⟨none, none⟩, 0, 1, 5, 0⟩,
    .gather ⟨0, ⟨none, none⟩, 0, none, 64, 0⟩, .scatter ⟨0, ⟨none, none⟩, 0, none, 64, 0⟩, .drain ⟨0, ⟨none, none⟩, 8⟩, .cpref ⟨0, ⟨none, none⟩, 0, 4, false, 0, 0⟩,
    .cpref ⟨0, ⟨none, some (0, 1)⟩, 0, 0, false, 0, 0⟩, .red ⟨0, ⟨none, none⟩, .sum, 4⟩, .merge ⟨0, ⟨none, none⟩, false, 64, 0⟩, .kring ⟨0, ⟨none, none⟩, 16, 0⟩,
    .kallred ⟨0, ⟨none, none⟩, 16, 0, 0⟩, .kput ⟨0, ⟨none, none⟩, 0, 0, 64⟩, .dmap ⟨0, ⟨none, none⟩, 0, 64⟩, .mzero ⟨0, ⟨none, none⟩, false, 64, 0⟩,
    .minit ⟨0, ⟨none, none⟩, false, .mem, 0, 0, 64⟩, .mdrain ⟨0, ⟨none, none⟩, .mem, 0, 64, 0⟩, .dtap ⟨0, ⟨none, none⟩, 4, 0, 0⟩, .portFadd ⟨16, 0, 0, 0, 0, 0⟩,
    .portSel ⟨0, 0, 0, 16, 0, 0⟩, .portIadd ⟨0, 0, 0, 0, 16, 64⟩, .portHint 8 ⟨0, 0, 0, 0, 0, 0⟩, .mgmtOwnWrite 2 0, .registerWrite 0 6 0 8 0, .therm 10 false,
    .powerThrottle 4096 0, .train 0 24, .linkTrainingDone 0 true true 0 128 0 [], .linkTrainingDone 0 true true 0 0 0 [⟨128, 1, 0⟩], .linkDown 24, .routeChange 128, .noRouteTimeout 128, .flitCrcReplay 24 true,
    .remoteRequest 128 0 (.load 0 1), .cxlMemRead 0 8 0 8, .cxlMemWrite 0 0 0 (List.replicate 65 0), .hostAtomicop 2 0 .swap 0 true 0 0, .dispatch 8,
    .engineCommandComplete 512 .red, .engineCommandComplete 0 (.ch 8), .engineWritePerform 0 4, .storePerform 512 false, .loadReturn 512 true true, .l1AgeOut 256 0,
    .waitaWake 512, .readyWordPoll 0 16, .segmentArrival 2 ⟨0, 0, 0, 0, 0, [], []⟩, .kputAck 512 0, .engineIterationBoundary 512 .array, .throttleCauseClears 0 256] : List Instr),
    i.wf = false := by decide +kernel

/-! ## Single steps, with results from the spec's rules and examples -/

/-- The small state with other registers. -/
def tstRegs (rs : Map Word) : State := tst.modMe (fun c => { c with sc := { c.sc with s := rs } })

/-- The one result that an instruction puts on its way: its clk, register and value. -/
def oneResult (i : Instr) (rs : Map Word) : List (Nat × Nat × Word) :=
  (resState tst (exec i (tstRegs rs))).sca.land.map (fun l => (l.clk, l.reg, l.val))

/-- R290: divu.w of 0x80000000 by 1 sign-extends; division by 0 gives all ones and the dividend; the most negative number by -1 wraps. -/
theorem test_div_edges : oneResult (.divu ⟨0, 3, 1, 2, .w⟩) [(1, 0x80000000), (2, 1)] = [(1, 3, 0xFFFFFFFF80000000)] ∧
    oneResult (.div ⟨0, 3, 1, 2, .d⟩) [(1, 7)] = [(1, 3, 0xFFFFFFFFFFFFFFFF)] ∧ oneResult (.rem ⟨0, 3, 1, 2, .d⟩) [(1, 7)] = [(1, 3, 7)] ∧
    oneResult (.div ⟨0, 3, 1, 2, .d⟩) [(1, 0x8000000000000000), (2, 0xFFFFFFFFFFFFFFFF)] = [(1, 3, 0x8000000000000000)] ∧
    oneResult (.rem ⟨0, 3, 1, 2, .d⟩) [(1, 0xFFFFFFFFFFFFFFF9), (2, 2)] = [(1, 3, 0xFFFFFFFFFFFFFFFF)] := by decide +kernel

/-- The worked example of mulab: 2.0 × 3.0 is 6.0, four clk later; fcvt.i32.f32 of 2^32 gives 0x7FFFFFFF. -/
theorem test_float_examples : oneResult (.fmul ⟨3, 22, 20, 21, false⟩) [(20, 0x40000000), (21, 0x40400000)] = [(4, 22, 0x40C00000)] ∧
    oneResult (.fcvt ⟨0, 9, 4, .f32, .i32, false⟩) [(4, 0x4F800000)] = [(4, 9, 0x7FFFFFFF)] := by decide +kernel

/-- R291: a field of 8 bits at 4; R292: a predicate; R265: s0 discards its result. -/
theorem test_fields : oneResult (.bext ⟨0, 3, 1, 2⟩) [(1, 0xABCD), (2, 0x0804)] = [(1, 3, 0xBC)] ∧
    oneResult (.bins ⟨0, 3, 1, 4, 2⟩) [(1, 0xFFFF), (4, 0x12), (2, 0x0804)] = [(1, 3, 0xF12F)] ∧
    oneResult (.cmp ⟨0, 2, 1, 4, .w, .ltu, true⟩) [(1, 1), (4, 0xFFFFFFFF)] = [(1, 66, 1)] ∧ oneResult (.add ⟨0, 0, 1, 1, .d⟩) [(1, 1)] = [] := by decide +kernel

/-- R299, R300: loop counts down and goes back while its counter is not 1; a taken branch costs one clk more. -/
theorem test_loop : (resState tst (exec (.loop ⟨0, 20, 0x3FFFFFD⟩) (tstRegs [(20, 2)]))).sca.pc = tst.pc - 24 ∧
    (resState tst (exec (.loop ⟨0, 20, 0x3FFFFFD⟩) (tstRegs [(20, 1)]))).sca.pc = tst.pc + 8 ∧
    (resState tst (exec (.loop ⟨0, 20, 0x3FFFFFD⟩) (tstRegs [(20, 2)]))).sca.nextIssue = 2 := by decide +kernel

/-- R215, R217: `trap 5` freezes S with cause 0x0E, DETAIL 5 and its own address. -/
theorem test_trap : ((resState tst (exec (.trap ⟨0, 5⟩) tst)).me.trap.causes.map (fun c => (c.f.code, c.f.detail, c.f.fpc))) = [(0x0E, 5, tst.pc)] ∧
    (resState tst (exec (.trap ⟨0, 5⟩) tst)).me.trap.phase = .freezing := by decide +kernel

/-- R310: an atomic add at 0x40000008 gives the old word to its register and the sum to memory. -/
theorem test_amo : (resState tst (exec (.amo ⟨0, 9, 20, 5, true, .rlx, .dev, .add, 0x1000⟩) tst)).sca.land.map (fun l => (l.reg, l.val)) = [(9, 0x1001)] ∧
    (resState tst (exec (.amo ⟨0, 9, 20, 5, true, .rlx, .dev, .add, 0x1000⟩) tst)).rd 1 (.loc 0x1000 0 2 0) 8 = leBytes 8 0x1008 := by decide +kernel

/-- R325, R326: sems adds 2 and sets DONE, semw takes them again; at 65,535 one more saturates and raises cause 0x0C. -/
theorem test_sems : (resState tst (exec (.sems ⟨0, 3, 2⟩) tst)).semOf 0 3 = ⟨2, 1, 0⟩ ∧
    ((resState tst (exec (.sems ⟨0, 255, 1⟩) tstSem)).me.trap.causes.map (fun c => (c.f.code, c.f.detail))) = [(0x0C, 255)] := by decide +kernel

end Sys2Proof.Tests
end

section
/-! PROOF. The registers of a host port (R26, R33, R38, R41-R46, R49): what a write of each does, by bar. -/

namespace Sys2Proof.Machine

open Sys2Proof

/-! ## Reads of the management window (R26) -/

theorem mgmtRead_low_half (s : State) (port : Nat) {off : Nat} (h : off % 8 = 0) :
    s.mgmtRead port off 4 = word ((s.mgmtWord port off).toNat % 2 ^ 32) := by
  unfold State.mgmtRead zextN
  rw [if_neg (by decide), if_pos ⟨rfl, by omega⟩, h]
  rfl

theorem mgmtRead_high_half (s : State) (port : Nat) {off : Nat} (h : off % 8 = 0) :
    s.mgmtRead port (off + 4) 4 = word ((s.mgmtWord port off).toNat / 2 ^ 32) := by
  have hbit : (off + 4) % 8 = 4 := by omega
  have hlow : ((s.mgmtWord port off) >>> 32).toNat = (s.mgmtWord port off).toNat / 2 ^ 32 := by
    rw [BitVec.toNat_ushiftRight, Nat.shiftRight_eq_div_pow]
  unfold State.mgmtRead zextN
  rw [if_neg (by decide), if_pos ⟨rfl, by omega⟩, hbit, Nat.add_sub_cancel, hlow, Nat.mod_eq_of_lt (by omega)]

/-! ## Writes of the management window (R26, R45) -/

theorem registerWrite_mgmt_ignored (s : State) (port : Nat) {off size : Nat} (v : Word) (h : size ≠ 8 ∨ off % 8 ≠ 0) :
    exec (.registerWrite port 0 off size v) s = .next s := by
  show execRegisterWrite port 0 off size v s = _
  unfold execRegisterWrite
  by_cases h8 : size = 8
  · rw [if_pos rfl, if_pos h8]
    unfold State.mgmtWrite
    rw [if_pos (h.resolve_left (not_not_intro h8))]
  · rw [if_pos rfl, if_neg h8]

theorem mgmtWrite_temp (s : State) (port : Nat) (v : Word) :
    s.mgmtWrite port 0x2018 v = if v.getLsbD 9 then { s with power := { s.power with trip := false } } else s := by
  rw [← bitOf_lsb]; rfl

theorem mgmtWrite_why {s : State} {port : Nat} (h : s.Owner port) (v : Word) :
    s.mgmtWrite port 0x208 v = if v.getLsbD 31 then { s with boot := { s.boot with whyV := false } } else s := by
  rw [owned_at s port 0x208 v h (by decide) (by decide) (by decide) (by decide), ← bitOf_lsb]; rfl

/-- A link of the device is up or trains, so that DEVID keeps its value (R18). -/
theorem links_busy_iff (s : State) : s.net.links.any (fun x => x.2.state == 1 || x.2.state == 2) = true ↔
    ∃ x ∈ s.net.links, x.2.state = 1 ∨ x.2.state = 2 := by
  simp only [List.any_eq_true, Bool.or_eq_true, beq_iff_eq]

theorem mgmtWrite_devid {s : State} {port : Nat} (h : s.Owner port) (v : Word) :
    s.mgmtWrite port 0x300 v = if ∃ x ∈ s.net.links, x.2.state = 1 ∨ x.2.state = 2 then s
      else { s with net := { s.net with devid := v.toNat % 128 } } := by
  rw [owned_at s port 0x300 v h (by decide) (by decide) (by decide) (by decide), if_neg (by decide), if_neg (by decide), if_pos rfl, bits_lane]
  simp only [links_busy_iff]

theorem mgmtWrite_cap {s : State} {port : Nat} (h : s.Owner port) (v : Word) :
    s.mgmtWrite port 0x2000 v = { s with power := { s.power with cap := min 3200 (max 1000 (v.toNat % 4096)) } } := by
  have hbits : bitsOf v 11 0 = v.toNat % 4096 := by unfold bitsOf; norm_num
  rw [owned_at s port 0x2000 v h (by decide) (by decide) (by decide) (by decide), ← hbits]; rfl

theorem mgmtWrite_ctl {s : State} {port : Nat} (h : s.Owner port) (v : Word) : s.mgmtWrite port 0x218 v = s.ctlWrite port v := by
  rw [owned_at s port 0x218 v h (by decide) (by decide) (by decide) (by decide)]; rfl

/-! ## BOOT.CTL by one bit (R33) -/

theorem exec_bootCommit {s : State} (h : s.Owner s.cur.port) : exec .bootCommit s = .next s.commitBy := if_pos ((owns_iff _ _).2 h)

theorem exec_bootClrt {s : State} (h : s.Owner s.cur.port) : exec .bootClrt s = .next { s with boot := { s.boot with tries := 0 } } :=
  if_pos ((owns_iff _ _).2 h)

theorem exec_bootFmin {s : State} (h : s.Owner s.cur.port) :
    exec .bootFmin s = .next { s with boot := { s.boot with fminPending := true } } := if_pos ((owns_iff _ _).2 h)

theorem exec_bootRst {s : State} (h : s.Owner s.cur.port) : exec .bootRst s = .next (s.rstBy s.cur.port) := if_pos ((owns_iff _ _).2 h)

/-- BOOT.CTL needs ownership (R45). -/
theorem bootCtl_unowned {s : State} (h : ¬ s.Owner s.cur.port) {i : Instr} (hi : i ∈ [Instr.bootCommit, .bootClrt, .bootFmin, .bootRst]) :
    exec i s = .next s := by
  have ho : ¬ s.owns s.cur.port = true := fun hs => h ((owns_iff _ _).1 hs)
  simp only [List.mem_cons, List.not_mem_nil, or_false] at hi
  rcases hi with rfl | rfl | rfl | rfl <;> exact if_neg ho

/-- A write of BOOT.CTL with one bit set is that bit's event. -/
theorem registerWrite_bootCtl {s : State} (h : s.Owner s.cur.port) :
    exec (.registerWrite s.cur.port 0 0x218 8 8) s = exec .bootCommit s ∧ exec (.registerWrite s.cur.port 0 0x218 8 4) s = exec .bootClrt s ∧
    exec (.registerWrite s.cur.port 0 0x218 8 2) s = exec .bootFmin s ∧ exec (.registerWrite s.cur.port 0 0x218 8 1) s = exec .bootRst s := by
  simp only [reg_zero, mgmtWrite_ctl h, exec_bootCommit h, exec_bootClrt h, exec_bootFmin h, exec_bootRst h]
  exact ⟨rfl, rfl, rfl, rfl⟩

/-! ## BAR2 and BAR4 (R41, R46, R49) -/

theorem registerWrite_bar4 (s : State) (port off size : Nat) (v : Word) : exec (.registerWrite port 4 off size v) s =
    .next (if (s.hport port).cxl = true ∧ size ≤ 8 ∧ off + size ≤ 65536 then
      s.withPortSt port (fun p => { p with bar4 := Mem.write p.bar4 off (leBytes size v.toNat) }) else s) := by
  show Host.Outcome.next (s.bar4Write port off size v) = _
  unfold State.bar4Write
  simp only [Bool.and_eq_true, decide_eq_true_eq, and_assoc]
  rfl

theorem registerWrite_no_bar (s : State) (port : Nat) {bar : Nat} (off size : Nat) (v : Word) (h0 : bar ≠ 0) (h2 : bar ≠ 2) (h4 : bar ≠ 4) :
    exec (.registerWrite port bar off size v) s = .next s := by
  show execRegisterWrite port bar off size v s = _
  unfold execRegisterWrite
  rw [if_neg h0, if_neg h2, if_neg h4]

theorem bar2Write_size (s : State) (port off : Nat) {size : Nat} (v : Word) (h : size = 0 ∨ 8 < size) : s.bar2Write port off size v = s := by
  unfold State.bar2Write; rw [if_pos h]

theorem bar2Write_ring (s : State) (port : Nat) {off size : Nat} (v : Word) (h1 : 1 ≤ size) (h8 : size ≤ 8) (h : off + size ≤ 0x1000) :
    s.bar2Write port off size v = s.withPortSt port (fun p => { p with ring := Mem.write p.ring off (leBytes size v.toNat) }) := by
  unfold State.bar2Write
  rw [if_neg (by omega), if_pos h]; rfl

theorem bar2Write_mailbox (s : State) (port : Nat) {off size : Nat} (v : Word) (h1 : 1 ≤ size) (h8 : size ≤ 8) (hlo : 0x2000 ≤ off)
    (hhi : off + size ≤ 0x3000) : s.bar2Write port off size v = if (s.hport port).busy then s
      else s.withPortSt port (fun p => { p with mbuf := Mem.write p.mbuf (off - 0x2000) (leBytes size v.toNat) }) := by
  unfold State.bar2Write
  rw [if_neg (by omega), if_neg (by omega), if_pos ⟨hlo, hhi⟩]; rfl

theorem bar2Write_msix (s : State) (port : Nat) {off size : Nat} (v : Word) (h1 : 1 ≤ size) (h8 : size ≤ 8) (hlo : 0x4000 ≤ off)
    (hhi : off + size ≤ 0x4400) : s.bar2Write port off size v =
      s.withPortSt port (fun p => { p with msixTab := Mem.write p.msixTab (off - 0x4000) (leBytes size v.toNat) }) := by
  unfold State.bar2Write
  rw [if_neg (by omega), if_neg (by omega), if_neg (by omega), if_pos ⟨hlo, hhi⟩]; rfl

theorem bar2Write_lwErr (s : State) (port : Nat) (v : Word) : s.bar2Write port 0x1010 8 v =
    s.withPortSt port (fun p => { p with misal := p.misal && !v.getLsbD 1, ovr := p.ovr && !v.getLsbD 0 }) := by
  rw [← bitOf_lsb, ← bitOf_lsb]; rfl

theorem bar2Write_mbStat (s : State) (port : Nat) (v : Word) : s.bar2Write port 0x3008 8 v =
    s.withPortSt port (fun p => { p with done := p.done && !v.getLsbD 1 }) := by
  rw [← bitOf_lsb]; rfl

/-- MB.DOOR starts a command where the mailbox is free, with the ownership of this moment. -/
theorem bar2Write_door (s : State) (port : Nat) (v : Word) : s.bar2Write port 0x3000 8 v =
    if v.getLsbD 0 = true ∧ (s.hport port).busy = false then
      s.withPortSt port (fun p => { p with busy := true, done := false, cmd := p.mbuf, owned := decide (s.Owner port), ans := none, xdel := none })
    else s := by
  have hown : s.owns port = decide (s.Owner port) := by rw [Bool.eq_iff_iff, owns_iff, decide_eq_true_eq]
  have hdoor : s.bar2Write port 0x3000 8 v = if bitOf v 0 then s.door port else s := rfl
  rw [hdoor, bitOf_lsb]
  unfold State.door
  rw [hown]
  cases v.getLsbD 0
  · rfl
  · cases hb : (s.hport port).busy
    · simp only [hb]; rfl
    · simp [hb]

/-- Settles O49: register by register, from what the model's write of each bar does. -/
theorem managementRegisters : Obligations.ManagementRegisters := by
  unfold Obligations.ManagementRegisters
  intro s
  refine ⟨ownRead_eq s, fun port v => congrArg _ (ownWrite_eq s port v), congrArg _ (hbWrite_eq s s.cur.port), (lapse_eq s).1, (lapse_eq s).2,
    fun port off h => ⟨rfl, mgmtRead_low_half s port h, mgmtRead_high_half s port h⟩,
    fun port bar off size v => registerWrite_no_bar s port off size v, registerWrite_bar4 s,
    fun port off size v => registerWrite_mgmt_ignored s port v, fun port v => rfl, fun port v => congrArg _ (hbWrite_eq s port),
    fun port v => congrArg _ (mgmtWrite_temp s port v), fun port off v h ho => congrArg _ (mgmt_out s port off v h ho),
    fun port v h => ⟨?why, ?devid, ?cap, ?staging⟩, ?bootCtl, fun port off size v h => congrArg _ (bar2Write_size s port off v h),
    fun port off size v h1 h8 => ⟨?ring, ?mailbox, ?msix⟩, fun port v => ⟨rfl, ?lwErr, ?door, ?mbStat⟩⟩
  case why => exact congrArg _ (mgmtWrite_why h v)
  case devid => exact congrArg _ (mgmtWrite_devid h v)
  case cap => exact congrArg _ (mgmtWrite_cap h v)
  case staging => exact fun off hlo hhi hal => congrArg _ (staged s port off v h hlo hhi hal)
  case bootCtl =>
    rintro port v h rfl
    obtain ⟨hcommit, hclrt, hfmin, hrst⟩ := registerWrite_bootCtl h
    exact ⟨fun hv => hv ▸ hcommit, fun hv => hv ▸ hclrt, fun hv => hv ▸ hfmin, fun hv => hv ▸ hrst⟩
  case ring => exact fun h => congrArg _ (bar2Write_ring s port v h1 h8 h)
  case mailbox => exact fun hlo hhi => congrArg _ (bar2Write_mailbox s port v h1 h8 hlo hhi)
  case msix => exact fun hlo hhi => congrArg _ (bar2Write_msix s port v h1 h8 hlo hhi)
  case lwErr => exact congrArg _ (bar2Write_lwErr s port v)
  case door => exact congrArg _ (bar2Write_door s port v)
  case mbStat => exact congrArg _ (bar2Write_mbStat s port v)

end Sys2Proof.Machine
end

section
/-! PROOF. The stages of a start, its watchdogs and the end of a COMMIT (R27-R34), after each stage's equation in the model's laws. -/

namespace Sys2Proof.Machine

open Sys2Proof

/-- The limit of stages 3 to 5 and the mark of LINK lie 30 s after the firmware's start (R27). -/
theorem fwLimit_eq : fwLimit = 30000 * msClk := rfl

/-! ## One stage at a time (R27, R30) -/

theorem bootStage_rom {s : State} (h : s.boot.stage = 0) :
    exec (.bootStage none) s = .next { s with boot := { s.boot with stage := 1, lastStage := 1 } } :=
  (stage0 h).trans (congrArg _ ((nextStage_eq h).1 (by decide) (by decide) (by decide)))

theorem bootStage_fetch {s : State} (h : s.boot.stage = 1) (hb : s.brokenFetch = false) (hok : Config.imgHeaderOk s.boot.nor = true)
    (hv : Config.imgVersion s.boot.nor ≤ 64) :
    exec (.bootStage none) s = .next { s with boot := { s.boot with stage := 2, lastStage := 2, running := s.boot.nor } } := by
  refine (stage1 h).trans ?_
  rw [if_neg (by simp [hb, hok, hv]), (nextStage_eq h).2.1 rfl]

theorem bootStage_fetch_fails {s : State} (h : s.boot.stage = 1)
    (hbad : s.brokenFetch = true ∨ Config.imgHeaderOk s.boot.nor = false ∨ 64 < Config.imgVersion s.boot.nor) :
    exec (.bootStage none) s = .next (s.bootFail 1 3 0) :=
  (stage1 h).trans (if_pos (by simpa [or_assoc] using hbad))

theorem bootStage_verify_broken {s : State} (h : s.boot.stage = 2) (hb : s.boot.norBroken = true) :
    exec (.bootStage none) s = .next (s.bootFail 2 7 0) := (stage_two h).trans (if_pos hb)

theorem bootStage_verify_fails {s : State} (h : s.boot.stage = 2) (hb : s.boot.norBroken = false) {r d : Nat}
    (hv : verifyFail s.boot.running s.boot.fuse = some (r, d)) : exec (.bootStage none) s = .next (s.bootFail 2 r d) := by
  refine (stage_two h).trans ?_
  rw [if_neg (by simp [hb]), hv]

theorem bootStage_verify {s : State} (h : s.boot.stage = 2) (hb : s.boot.norBroken = false)
    (hv : verifyFail s.boot.running s.boot.fuse = none) : exec (.bootStage none) s = .next { s with boot :=
      { s.boot with stage := 3, lastStage := 3, fwSince := s.clk, sver := Config.imgVersion s.boot.running } } := by
  refine (stage_two h).trans ?_
  rw [if_neg (by simp [hb]), hv]
  exact congrArg _ ((nextStage_eq h).2.2.1 rfl)

section Firmware

variable {s : State} (h3 : 3 ≤ s.boot.stage) (h5 : s.boot.stage ≤ 5)
include h3 h5

theorem bootStage_firmware_late (hl : s.boot.fwSince + fwLimit < s.clk) :
    exec (.bootStage none) s = .next (s.bootFail s.boot.stage 9 s.boot.stage) :=
  (stage345 (by omega)).trans (if_pos hl)

theorem bootStage_firmware (hl : s.clk ≤ s.boot.fwSince + fwLimit) : exec (.bootStage none) s = .next s.nextStage :=
  (stage345 (by omega)).trans (if_neg (by omega))

theorem fwdog_late (hl : s.boot.fwSince + fwLimit ≤ s.clk) : exec .fwdog s = .next (s.bootFail s.boot.stage 9 s.boot.stage) :=
  if_pos ⟨h3, h5, hl⟩

end Firmware

theorem fwdog_early {s : State} (hl : s.clk < s.boot.fwSince + fwLimit) : exec .fwdog s = .next s :=
  if_neg (fun h => by obtain ⟨-, -, hle⟩ := h; omega)

/-! ## LINK (R27) -/

theorem failTraining_eq (s : State) : s.failTraining = s.untrained := by
  simp only [State.failTraining, State.untrained, beq_iff_eq]

theorem pastMark_iff (s : State) : s.pastMark = true ↔ s.boot.fwSince + fwLimit ≤ s.clk := decide_eq_true_iff

theorem links_training_iff (s : State) : s.net.links.any (fun x => x.2.state == 1) = true ↔ ∃ x ∈ s.net.links, x.2.state = 1 := by
  simp only [List.any_eq_true, beq_iff_eq]

theorem bootStage_link_late {s : State} (h : s.boot.stage = 6) (hl : s.boot.fwSince + fwLimit ≤ s.clk) :
    exec (.bootStage none) s = .next s.untrained.readied := by
  refine (stage6 h).trans ?_
  rw [if_pos ((pastMark_iff s).2 hl), failTraining_eq, ready7_eq]

theorem bootStage_link {s : State} (h : s.boot.stage = 6) (hl : s.clk < s.boot.fwSince + fwLimit) :
    exec (.bootStage none) s = .next (if ∃ x ∈ s.net.links, x.2.state = 1 then s else s.readied) := by
  have hm : ¬ s.pastMark = true := by rw [pastMark_iff]; omega
  refine (stage6 h).trans ?_
  simp only [if_neg hm, links_training_iff, ready7_eq, apply_ite Host.Outcome.next]

theorem linkStageEnd_late {s : State} (h : s.boot.stage = 6) (hl : s.boot.fwSince + fwLimit ≤ s.clk) :
    exec .linkStageEnd s = .next s.untrained.readied := by
  rw [← failTraining_eq, ← ready7_eq]; exact if_pos ⟨h, hl⟩

theorem linkStageEnd_early {s : State} (hl : s.clk < s.boot.fwSince + fwLimit) : exec .linkStageEnd s = .next s :=
  if_neg (fun h => by obtain ⟨-, hle⟩ := h; omega)

/-! ## BOOT.CTL.RST and COMMIT (R30, R32) -/

theorem rstBy_busy {s : State} (h : s.boot.busy = true) (port : Nat) :
    s.rstBy port = { s with boot := { s.boot with rstWait := some (s.boot.rstWait.getD port) } } := if_pos h

theorem rstBy_attempt {s : State} (h : s.boot.busy = false) (ha : s.boot.attemptOpen = true) (port : Nat) :
    s.rstBy port = s.bootFail s.boot.lastStage 0x0E port := by
  unfold State.rstBy; rw [h, if_neg (by decide), if_pos ha]

theorem rstBy_no_attempt {s : State} (h : s.boot.busy = false) (ha : s.boot.attemptOpen = false) (port : Nat) :
    s.rstBy port = s.restart := by
  unfold State.rstBy; rw [h, ha, if_neg (by decide), if_neg (by decide)]

theorem commitVerifyDone_idle {s : State} (h : s.boot.busy = false ∨ s.boot.writing = true) : exec .commitVerifyDone s = .next s :=
  if_pos (by simpa using h)

theorem firmwareWriteDone_idle {s : State} (h : s.boot.busy = false ∨ s.boot.writing = false) : exec .firmwareWriteDone s = .next s :=
  if_pos (by simpa using h)

section Commit

variable {s : State} (hb : s.boot.busy = true)
include hb

/-- The verification of a COMMIT ends: a bad image is recorded and frees BUSY, a good one is written. -/
theorem commitVerifyDone_eq (hw : s.boot.writing = false) : exec .commitVerifyDone s = .next
    (match verifyFail s.boot.image s.boot.fuse with
      | some (r, d) => State.afterBusy { s with boot := { s.boot.recorded 2 r d with busy := false } }
      | none => { s with boot := { s.boot with writing := true } }) := by
  show execCommitVerifyDone s = _
  unfold execCommitVerifyDone
  rw [if_neg (by simp [hb, hw])]
  cases verifyFail s.boot.image s.boot.fuse <;> rfl

/-- The write of a COMMIT ends: in minimal mode the device resets itself, else BUSY is free. -/
theorem firmwareWriteDone_eq (hw : s.boot.writing = true) :
    let u : State := { s with boot := { s.boot with nor := s.boot.image, norBroken := false, busy := false, writing := false, tries := 0 } }
    exec .firmwareWriteDone s = .next (if s.boot.stage = 15 then u.restart else u.afterBusy) := by
  show execFirmwareWriteDone s = _
  unfold execFirmwareWriteDone
  rw [if_neg (by simp [hb, hw])]
  exact (apply_ite _ _ _ _).symm

end Commit

/-- Settles O51: a reset is `State.restart`, a failed stage `State.bootFail`, and each stage has its equation above. -/
theorem bootAndReset : Obligations.BootAndReset := by
  unfold Obligations.BootAndReset
  refine ⟨verify_spec, fun s => ⟨_, rfl, restart_resets s⟩, ?rom, ?fetch, ?verify, ?firmware, ?link, ?ctl, ?commit⟩
  case rom => exact fun s h => ⟨bootStage_rom h, fun d => ⟨_, (stage_some h d).1 rfl, bootFail_fails s 0 1 0⟩⟩
  case fetch =>
    intro s h
    refine ⟨fun d => ⟨_, (stage_some h d).2.1 rfl, bootFail_fails s 1 2 _⟩, fun hbad => ⟨_, bootStage_fetch_fails h (.inr hbad), bootFail_fails s 1 3 0⟩,
      fun hok hv hn => bootStage_fetch h (by simp [State.brokenFetch, hn]) hok hv, fun hok hv _ => ?_⟩
    by_cases hb : s.brokenFetch = true
    · exact .inl ⟨_, bootStage_fetch_fails h (.inl hb), bootFail_fails s 1 3 0⟩
    · exact .inr (bootStage_fetch h (by simpa using hb) hok hv)
  case verify =>
    exact fun s h => ⟨fun hb => ⟨_, bootStage_verify_broken h hb, bootFail_fails s 2 7 0⟩,
      fun r d hb hv => ⟨_, bootStage_verify_fails h hb hv, bootFail_fails s 2 r d⟩, fun hb hv => bootStage_verify h hb hv⟩
  case firmware =>
    intro s h3 h5
    rw [← fwLimit_eq]
    refine ⟨fun hl => ⟨_, bootStage_firmware_late h3 h5 hl, bootFail_fails s _ 9 _⟩, fun hl hn => ?_, fun hl h => ?_,
      fun d h => ⟨_, (stage_some h d).2.2.1 rfl, bootFail_fails s 4 0x0A _⟩, fun d h => ⟨_, (stage_some h d).2.2.2 rfl, bootFail_fails s 5 0x0B _⟩,
      fwdog_early, fun hl => ⟨_, fwdog_late h3 h5 hl, bootFail_fails s _ 9 _⟩⟩
    · rw [bootStage_firmware h3 h5 hl, (nextStage_eq rfl).1 (by omega) (by omega) hn]
    · rw [bootStage_firmware h3 h5 hl, (nextStage_eq h).2.2.2 rfl]
  case link =>
    intro s h
    rw [← fwLimit_eq]
    refine ⟨fun hl ht => (bootStage_link h hl).trans (congrArg _ (if_pos ht)),
      fun hl ht => (bootStage_link h hl).trans (congrArg _ (if_neg fun ⟨x, hx, hs⟩ => ht x hx hs)), bootStage_link_late h, linkStageEnd_early, linkStageEnd_late h⟩
  case ctl =>
    refine fun s => ⟨fun h i hi => bootCtl_unowned h hi, fun h => ⟨exec_bootCommit h, exec_bootClrt h, exec_bootFmin h, fun hb => ?_, fun hb ha => ?_, fun hb ha => ?_⟩⟩
    · rw [exec_bootRst h, rstBy_busy hb]
    · exact ⟨_, (exec_bootRst h).trans (congrArg _ (rstBy_attempt hb ha _)), bootFail_fails s _ 0x0E _⟩
    · exact ⟨_, (exec_bootRst h).trans (congrArg _ (rstBy_no_attempt hb ha _)), restart_resets s⟩
  case commit =>
    refine fun s => ⟨fun hb => ⟨commitVerifyDone_idle (.inl hb), firmwareWriteDone_idle (.inl hb)⟩,
      fun hb hw => ⟨fun r d hv => ?bad, fun hv => ?good, firmwareWriteDone_idle (.inr hw)⟩,
      fun hb hw => ⟨commitVerifyDone_idle (.inr hw), fun h15 => ?minimal, fun h15 => ?normal⟩⟩
    case bad => exact ⟨_, by rw [commitVerifyDone_eq hb hw, hv], afterBusy_frees _ rfl⟩
    case good => rw [commitVerifyDone_eq hb hw, hv]
    case minimal => exact ⟨_, (firmwareWriteDone_eq hb hw).trans (congrArg _ (if_pos h15)), resets_boot s _⟩
    case normal => exact ⟨_, (firmwareWriteDone_eq hb hw).trans (congrArg _ (if_neg h15)), afterBusy_frees _ rfl⟩

end Sys2Proof.Machine
end

section
/-! PROOF. Power, links and routes (R18-R25, R37). -/

namespace Sys2Proof.Machine

open Sys2Proof

/-! ## Power (R37) -/

/-- The model's withheld clocks are those of R37. -/
theorem withhold_iff (p : Power) : p.withhold = true ↔ p.cap < p.now ∨ p.hot = true := by
  simp [Power.withhold]

/-- The commands whose clocks are withheld are MDRAIN, MGO and DGO. -/
theorem matClock_iff (m : Cmd) (u : EUnit) :
    m.matClock u = true ↔ u = .drainU ∧ m.op = 6 ∨ u = .array ∧ (m.op = 3 ∨ m.op = 0x0B) := by
  cases u <;> simp [Cmd.matClock]

theorem mayStep_withheld {s : State} {u : EUnit} {m : Cmd} (cid : Nat) (hp : s.power.withhold = true) (hm : m.matClock u = true) :
    s.mayStep cid u m = false := by simp [State.mayStep, hp, hm]

/-- A command that may not go on stays at its boundary. -/
theorem engineIterationBoundary_stays {s : State} {cid : Nat} {u : EUnit} {m : Cmd} (hc : s.cmd cid u = some m) (h : s.mayStep cid u m = false) :
    exec (.engineIterationBoundary cid u) s = .next s := by
  show Host.Outcome.next (s.boundary cid u) = _
  unfold State.boundary
  rw [hc]
  dsimp only
  rw [h, if_pos (by decide)]

/-- The state with the report of a THERM recorded, before its launches stop (R37). -/
def State.hotStop (s : State) (die : Nat) (temp : Bool) : State :=
  { s with power := { s.power with trip := s.power.trip || temp }, boot := { s.boot with therm := some die } }

/-- Every launch is aborted with status 6, then each whose writes are performed gets its record (R37). -/
def State.stopLaunches (s : State) : State :=
  (s.sched.launches.map Prod.fst).foldl (fun x l => x.complete1 l) ((s.sched.launches.map Prod.fst).foldl (fun x l => x.abortLaunch l 6) s)

theorem exec_therm_under_way {s : State} {die d : Nat} {temp : Bool} (h : s.boot.therm = some d) : exec (.therm die temp) s = .next s :=
  if_pos (by rw [h]; rfl)

theorem exec_therm {s : State} (die : Nat) (temp : Bool) (h : s.boot.therm = none) :
    exec (.therm die temp) s = .next (s.hotStop die temp).stopLaunches.thermEnd :=
  if_neg (by rw [h]; decide)

theorem stopLaunches_none {s : State} (h : s.sched.launches = []) : s.stopLaunches = s := by
  unfold State.stopLaunches; rw [h]; rfl

/-! ## Links (R21, R25) -/

theorem trainLink_eq (s : State) (link : Nat) : s.trainLink link = if (s.link link).en = true ∧ s.boot.stage ≠ 15 then
    (s.withLink link (fun l => { l with state := 1, lanes := 0 })).unrouted (· == link) else s := by
  unfold State.trainLink State.minimal
  rw [dropRoutes_eq]
  simp only [Bool.and_eq_true, Bool.not_eq_true', beq_eq_false_iff_ne]
  rfl

theorem enLink_off (s : State) (link : Nat) :
    s.enLink link false = (s.withLink link (fun l => { l with en := false, state := 0, lanes := 0 })).unrouted (· == link) := by
  rw [← dropRoutes_eq]; rfl

/-- TRAIN and EN of a port that does not own the device, or of no link, do nothing (R25, R45). -/
theorem link_unowned {s : State} {port link : Nat} (v : Bool) (h : ¬ s.Owner port ∨ 24 ≤ link) :
    exec (.train port link) s = .next s ∧ exec (.en port link v) s = .next s := by
  have hno : ¬ (s.owns port && decide (link < 24)) = true := by
    rw [Bool.and_eq_true, owns_iff, decide_eq_true_eq]
    rintro ⟨ho, hl⟩
    exact h.elim (· ho) (by omega)
  exact ⟨if_neg hno, if_neg hno⟩

theorem link_owned {s : State} {port link : Nat} (v : Bool) (h : s.Owner port) (hl : link < 24) :
    exec (.train port link) s = .next (s.trainLink link) ∧ exec (.en port link v) s = .next (s.enLink link v) := by
  have hyes : (s.owns port && decide (link < 24)) = true := by rw [Bool.and_eq_true, owns_iff, decide_eq_true_eq]; exact ⟨h, hl⟩
  exact ⟨if_pos hyes, if_pos hyes⟩

section Training

variable {s : State} {link mdm peer pport : Nat} {low high : Bool} {reach : List Reach}

theorem linkTrainingDone_idle (h : (s.link link).state ≠ 1) : exec (.linkTrainingDone link low high mdm peer pport reach) s = .next s :=
  if_pos h

variable (h : (s.link link).state = 1)
include h

theorem linkTrainingDone_late (hm : s.boot.stage = 6 ∧ s.boot.fwSince + fwLimit ≤ s.clk) :
    exec (.linkTrainingDone link low high mdm peer pport reach) s = .next s.untrained.readied := by
  show execLinkTrainingDone link low high mdm peer pport reach s = _
  unfold execLinkTrainingDone
  rw [if_neg (not_not_intro h), if_pos (by rwa [pastMark_iff]), failTraining_eq, ready7_eq]

/-- Training ends with the lanes that work: none (the link has failed), four, or eight (R18). -/
theorem linkTrainingDone_lanes (hm : ¬ (s.boot.stage = 6 ∧ s.boot.fwSince + fwLimit ≤ s.clk)) :
    exec (.linkTrainingDone link low high mdm peer pport reach) s = .next (s.withLink link (fun l =>
      if low = false ∧ high = false then { l with state := 3, lanes := 0 }
      else { l with state := if l.loop then 4 else 2, lanes := if low = true ∧ high = true then 8 else 4, mdm := mdm % 256,
                    peer := peer % 128, pport := pport % 32, reach := reach })) := by
  show execLinkTrainingDone link low high mdm peer pport reach s = _
  unfold execLinkTrainingDone
  rw [if_neg (not_not_intro h), if_neg (by rwa [pastMark_iff])]
  cases low <;> cases high <;> rfl

end Training

/-! ## Routes (R20-R22) -/

theorem mem_paths (s : State) (dest : Nat) (p : Path) : p ∈ s.paths dest ↔
    ∃ x ∈ s.net.links, ∃ r ∈ x.2.reach, r.dest = dest ∧ p = ⟨r.hops, r.beyond + max x.2.clen x.2.mdm, x.1⟩ := by
  unfold State.paths
  simp only [List.mem_flatten, List.mem_map]
  constructor
  · rintro ⟨ps, ⟨x, hx, rfl⟩, hp⟩
    obtain ⟨r, hr, rfl⟩ := List.mem_map.1 hp
    obtain ⟨hr, hd⟩ := List.mem_filter.1 hr
    exact ⟨x, hx, r, hr, beq_iff_eq.1 hd, rfl⟩
  · rintro ⟨x, hx, r, hr, hd, rfl⟩
    exact ⟨_, ⟨x, hx, rfl⟩, List.mem_map.2 ⟨r, List.mem_filter.2 ⟨hr, beq_iff_eq.2 hd⟩, rfl⟩⟩

theorem routeChange_minimal {s : State} (dest : Nat) (h : s.boot.stage = 15) : exec (.routeChange dest) s = .next s :=
  if_pos (by simp [State.minimal, h])

theorem routeChange_eq {s : State} (dest : Nat) (h : s.boot.stage ≠ 15) : exec (.routeChange dest) s = .next
    (match s.bestPath (s.paths dest) with
      | some q => (s.setRoute dest (Route.mk true q.hops q.port q.dm 0)).carry dest
      | none => s.setRoute dest (Route.mk false 0 (s.route dest).port 0 (if (s.route dest).v then s.clk else (s.route dest).lost))) := by
  show execRouteChange dest s = _
  unfold execRouteChange
  rw [if_neg (by simp [State.minimal, h])]
  cases s.bestPath (s.paths dest) <;> rfl

/-- A request that fails is one answered with a failure (R21). -/
theorem failReq_eq (s : State) (id : Nat) : s.failReq id = resState s (exec (.remoteResponse id .failed) s) := by
  have hexec : exec (.remoteResponse id .failed) s = execRemoteResponse id .failed s := rfl
  unfold State.failReq
  rw [hexec]
  cases execRemoteResponse id .failed s <;> rfl

section NoRoute

variable {s : State} {dest : Nat}

theorem noRouteTimeout_waits (h : (Map.getD s.net.routes dest .fresh).v = true ∨ s.clk < (Map.getD s.net.routes dest .fresh).lost + msClk) :
    exec (.noRouteTimeout dest) s = .next s := if_pos h

/-- After 1 ms without a route every request to the destination fails, in order (R21). -/
theorem noRouteTimeout_fails (hv : (Map.getD s.net.routes dest .fresh).v = false) (hl : (Map.getD s.net.routes dest .fresh).lost + msClk ≤ s.clk) :
    exec (.noRouteTimeout dest) s = .next
      (((s.net.reqs.filter (fun x => x.2.dev == dest)).map Prod.fst).foldl (fun x id => resState x (exec (.remoteResponse id .failed) x)) s) := by
  simp only [← failReq_eq]
  exact if_neg (by rw [hv]; simpa using hl)

end NoRoute

theorem flitCrcReplay_received (s : State) (link : Nat) :
    exec (.flitCrcReplay link true) s = .next (s.withLink link (fun l => { l with crce := min 0xFFFF (l.crce + 1) })) := rfl

theorem flitCrcReplay_sent (s : State) (link : Nat) :
    exec (.flitCrcReplay link false) s = .next (s.withLink link (fun l => { l with retry := min 0xFFFF (l.retry + 1) })) := rfl

/-- Settles O52: power, THERM, the losses of power, the links and the routes, each from its equation above. -/
theorem powerAndLinks : Obligations.PowerAndLinks := by
  unfold Obligations.PowerAndLinks
  refine ⟨?sensors, ?withheld, ?therm, fun s => ⟨rfl, rfl⟩, ?owner, ?training, mem_paths, ?route, fun s dest => ⟨noRouteTimeout_waits, noRouteTimeout_fails⟩⟩
  case sensors => rintro s watt tmax i (rfl | rfl) <;> rfl
  case withheld =>
    exact fun s cid u m hp hc hm =>
      engineIterationBoundary_stays hc (mayStep_withheld cid ((withhold_iff _).2 hp) ((matClock_iff m u).2 hm))
  case therm =>
    refine fun s die temp => ⟨fun d => exec_therm_under_way, fun h hl => ?_, fun h => ?_⟩
    · obtain ⟨r, hr, he⟩ := (thermEnd_spec (s.hotStop die temp)).2 die hl rfl
      refine ⟨_, _, exec_therm die temp h, rfl, r, hr, ?_⟩
      have hstop : (s.hotStop die temp).stopLaunches = s.hotStop die temp := stopLaunches_none hl
      rw [hstop, he]; rfl
    · obtain ⟨hsome, hnone⟩ := thermEnd_spec (s.hotStop die temp).stopLaunches
      exact ⟨_, _, _, exec_therm die temp h, rfl, rfl, hsome, hnone⟩
  case owner =>
    refine fun s port link v => ⟨link_unowned v, fun h hl => ⟨?_, (link_owned true h hl).2, ?_⟩⟩
    · rw [(link_owned v h hl).1, trainLink_eq]
    · rw [(link_owned false h hl).2, enLink_off]
  case training =>
    refine fun s link mdm peer pport low high reach => ⟨linkTrainingDone_idle, linkTrainingDone_late, linkTrainingDone_lanes, ?_,
      flitCrcReplay_received s link, flitCrcReplay_sent s link⟩
    exact congrArg _ (dropRoutes_eq _ _)
  case route =>
    refine fun s dest => ⟨routeChange_minimal dest, fun h hn => ?_, fun h ha => ?_⟩
    · rw [routeChange_eq dest h, (bestPath_spec s _).1 hn]; rfl
    · obtain ⟨q, hq, hc⟩ := (bestPath_spec s (s.paths dest)).2 ha
      refine ⟨q, hc, ?_⟩
      rw [routeChange_eq dest h, hq]; rfl

end Sys2Proof.Machine
end

section
/-! PROOF. The state after reset (R30, R38, R69, R74, R98, R123, R223, R342, R367). -/

namespace Sys2Proof.Machine

open Sys2Proof

/-- No context and no core is listed at reset, so each is fresh. -/
theorem reset_ctx (cid : Nat) : State.reset.ctx cid = .fresh := rfl

theorem reset_core (k : Nat) : State.reset.core k = .fresh := rfl

theorem Scalar.fresh_reg (clk r : Nat) : Scalar.fresh.reg clk r = 0 := by
  unfold Scalar.reg; exact ite_self _

theorem Scalar.fresh_pred (clk r : Nat) : Scalar.fresh.pred clk r = false := rfl

/-- Every memory of the device, and of an image, is empty at reset, and so canonical. -/
theorem reset_canonical : State.reset.Canonical :=
  ⟨⟨rfl, rfl, rfl, rfl, rfl, fun _ => rfl, fun _ => rfl, fun _ => rfl⟩, fun e im h => by cases h⟩

/-- Settles O59: contexts, cores, queues and ports are those that the empty maps of reset give. -/
theorem resetState : Obligations.ResetState := by
  unfold Obligations.ResetState
  refine ⟨reset_canonical, rfl, rfl, rfl, rfl, fun cid => ?ctx, fun k => ?core, fun q => rfl, fun p => rfl, ?memories⟩
  case ctx =>
    rw [reset_ctx]
    exact ⟨rfl, Scalar.fresh_reg, Scalar.fresh_pred, fun n => rfl, rfl, rfl, rfl, rfl, rfl, rfl⟩
  case core =>
    rw [reset_core]
    exact ⟨rfl, rfl, rfl, rfl, rfl⟩
  case memories =>
    intro m a hm
    have hempty : m = [] := by
      simp only [List.mem_cons, List.not_mem_nil, or_false] at hm
      rcases hm with rfl | rfl | rfl | rfl | rfl <;> rfl
    rw [hempty]; rfl

end Sys2Proof.Machine
end

section
/-! PROOF. What is written reads back, and a write leaves other bytes alone (R59, R120, R141). -/

namespace Sys2Proof.Machine

open Sys2Proof

/-- Settles O23: the bytes of a write read back one by one at their places. -/
theorem memoryReadsBack : Obligations.MemoryReadsBack := by
  unfold Obligations.MemoryReadsBack
  exact fun s l p bs hmem hhome hfits i hi => State.rd1_wr_at hmem hhome hfits i hi

/-- Settles O24: a byte that no byte of the write is the same as reads as before. -/
theorem memoryKeepsOthers : Obligations.MemoryKeepsOthers := by
  unfold Obligations.MemoryKeepsOthers
  exact fun s l p q bs hmem hhome hp hq hkey hother => State.rd1_wr_other hmem hhome hp hq hkey hother

end Sys2Proof.Machine
end

section
/-! PROOF. end performs every queued write of its context, and a state may hold one that no stream's path has (R334). -/

namespace Sys2Proof.Machine

open Sys2Proof

/-- A task that has no partition and is no member of a bunch. -/
def strayTask : Task := ⟨0, 1, ⟨0, 0, 0, 0⟩, ⟨0, 0, 0, 0, 0, 0, 0⟩, false, 0, false⟩

/-- A queued write of one byte to the flash tier. -/
def flashWrite : WEnt := { parts := [(.flash 0, [1])], va := 0, u := .red, seq := 0, run := 0, clean := none, heals := [] }

/-- A context at its end whose write queues hold an entry under number 4, which no trailing stream has: `AtEnd` asks that the
queues of the paths 0 to 3 be empty, and says nothing of others. -/
def strayWrite : State :=
  { State.reset with
    ctxs := [(0, { Ctx.fresh with task := some strayTask, eng := { Engines.fresh with wq := [(4, [flashWrite])] } })] }

theorem strayWrite_atEnd : strayWrite.AtEnd where
  met := ⟨by decide, rfl, by decide, by decide⟩
  writes := by decide
  failed := rfl
  path := ⟨rfl, rfl, rfl, rfl⟩

/-- end performs the stray write as it releases the context. -/
theorem endTask_strayWrite : (resState strayWrite (exec (.endTask ⟨0⟩) strayWrite)).mem.flash = [(0, 1)] := rfl

/-- Writing L1 back does not. -/
theorem wbInv_strayWrite : (strayWrite.wbInv strayWrite.myCore).mem.flash = [] := rfl

/-- Refutes O18: the clause that memory after end is that after the write-back of L1 fails in `strayWrite`. No step of the model queues
such a write; the statement lacks the hypothesis that only the four paths have queues. -/
theorem not_taskEnds : ¬ Obligations.TaskEnds := by
  unfold Obligations.TaskEnds
  rintro ⟨hends, -⟩
  obtain ⟨t, hexec, -, -, -, -, -, -, hmem, -⟩ := hends ⟨0⟩ strayWrite strayTask rfl strayWrite_atEnd rfl
  have hflash := endTask_strayWrite
  rw [hexec, show resState strayWrite (.next t) = t from rfl, hmem, wbInv_strayWrite] at hflash
  cases hflash

end Sys2Proof.Machine
end

section
/-! PROOF. spawn: its record, its checks and its entry into the store (R72, R73, R317). -/

namespace Sys2Proof.Machine

open Sys2Proof

/-! ## An entry into the store -/

theorem storeFull_iff (s : State) : s.storeFull = true ↔ s.NoRoom := decide_eq_true_iff

/-- Two states that differ in the scalar part of the agent alone still do so after the same change of a launch. -/
theorem Keeps.modLaunch {v w : State} (h : v.Keeps w) (l : Nat) (f : Launch → Launch) : (v.modLaunch l f).Keeps (w.modLaunch l f) := by
  have hs := Keeps.sched h
  unfold State.modLaunch State.launch
  rw [hs]
  cases Map.find v.sched.launches l with
  | none => exact h
  | some x =>
    obtain ⟨hout, hothers, hmine, hcores, hcore⟩ := h
    refine ⟨?_, hothers, hmine, hcores, hcore⟩
    exact congrArg (fun u : State => u.modSched (fun q => { q with launches := Map.put q.launches l (f x) })) hout

theorem sca_modLaunch (s : State) (l : Nat) (f : Launch → Launch) : (s.modLaunch l f).sca = s.sca := by
  unfold State.modLaunch; split <;> rfl

theorem Keeps.launch {v w : State} (h : v.Keeps w) (hm : v.OnMain) : w.me.launch = v.me.launch := by
  have hmine := h.mine
  rw [show v.cur.agent = .S from hm] at hmine
  have := congrArg Ctx.launch hmine
  exact this

theorem spawnEnter_full {s : State} (h : s.NoRoom) (rd : Nat) (bs : List Byte) : s.spawnEnter rd bs = s :=
  if_pos ((storeFull_iff s).mpr h)

/-- A spawn that finds room enters its record, whatever hold its agent had: w is v but for that hold. -/
theorem spawnEnter_enters {v w : State} (hm : v.OnMain) (hw : v.Keeps w)
    (hsca : ({ w.sca with hold := .none } : Scalar) = { v.sca with hold := .none }) (h : ¬ v.NoRoom) (rd : Nat) (bs : List Byte) :
    v.Enters (w.spawnEnter rd bs) rd (Record.ofBytes bs) := by
  have hsched := Keeps.sched hw
  have hl := Keeps.launch hw hm
  have hroom : w.storeFull = false := by
    rw [Bool.eq_false_iff, Ne, storeFull_iff]; unfold State.NoRoom; rw [hsched]; exact h
  unfold State.spawnEnter State.Enters
  rw [hroom, hsched, hl]
  simp only [Bool.false_eq_true, if_false]
  generalize hgen : Map.getD v.sched.gens (freeIdx v.sched.store 0) 0 = gen
  generalize hd : freeIdx v.sched.store 0 = e at hgen
  generalize hf : (fun l : Launch => { l with joins := l.joins + 1 }) = f
  have hk := Keeps.modLaunch hw v.me.launch f
  have hgo := State.resVar_go_ends (State.hasAgent_main (hk.onMain (by unfold State.OnMain; rw [(modLaunch_gens v _ _).2.2]; exact hm))) rd (handleOf e gen)
  generalize hx : ((w.modLaunch v.me.launch f).resVar rd (handleOf e gen)).go = x at hgo
  refine ⟨x, ⟨?_, hk.trans hgo.frame⟩, ?_⟩
  · have h1 := hgo.scalar
    rw [sca_modLaunch, hk.clk] at h1
    rw [sca_modLaunch, h1, (modLaunch_gens v _ _).2.1]
    exact congrArg (fun sc : Scalar => { sc with land := sc.landVar v.clk rd (handleOf e gen) }.ended v.clk) hsca
  · have he : x.enter e (Record.ofBytes bs) v.me.launch = _ := enter_eq (s := v) (gen := gen) (r := Record.ofBytes bs) ?_ ?_
    · rw [he]
      exact ⟨fun hj => if_neg hj, fun hj => if_pos hj⟩
    · rw [Keeps.sched hgo.frame, Keeps.sched hk, (modLaunch_gens v _ _).1]; exact hgen
    · rw [hgo.frame.clk, hk.clk, (modLaunch_gens v _ _).2.1]

/-! ## What spawn reads before it enters (R317) -/

/-- s with L1 written back after the translation of a record's address. -/
def State.recordOut (s : State) (ea : Word) : State := (s.noteXlat s.cur.cid ea).wbAll s.myCore

/-- The state in which spawn reads its record: the line of the record has left L1. -/
def State.recordAt (s : State) (ea : Word) (p : Place) : State := (s.recordOut ea).flushPlace s.myCore p

theorem recordOut_readies (s : State) (ea : Word) : s.Readies (s.recordOut ea) s.myCore :=
  (noteXlat_walks s ea).readies.trans (State.wbAll_moves _ _).1.readies

theorem recordAt_readies (s : State) (ea : Word) (p : Place) : s.Readies (s.recordAt ea p) s.myCore :=
  (recordOut_readies s ea).trans (State.flushPlace_moves _ _ _).readies

theorem me_launch_readies {s u : State} {k : Nat} (h : s.Readies u k) : u.me.launch = s.me.launch := launch_readies h

section
variable {s : State} {o : R2} {p : Place} (hm : s.OnMain) (hr : s.Ready [o.ra] none) (hd : s.Here [o.rd]) (ha : (s.r o.ra).toNat % 32 = 0)
  (hx : s.xlat s.cur.cid false .spawn (s.r o.ra) = .ok p) (hq : s.Drained)
include hm hr hd ha hx hq

theorem exec_spawn_remote {dev pa key : Nat} (hp : p = .remote dev pa key) : exec (.spawn o) s =
    .next ((s.recordOut (s.r o.ra)).parkRemote o.st dev key (.load pa 32) (.spawn o.rd) (s.r o.ra)) := by
  have hu := Readies.reg (recordOut_readies s (s.r o.ra)) hm o.ra
  subst hp
  have h : execSpawn o s = .next ((s.recordOut (s.r o.ra)).parkRemote o.st dev key (.load pa 32) (.spawn o.rd) ((s.recordOut (s.r o.ra)).r o.ra)) := by
    unfold execSpawn
    rw [mainOnly_main hm, hr.issueVar hd, access_ok hm ha hx, Drained.when hq]
    rfl
  rw [hu] at h
  exact h

theorem exec_spawn_near (hp : p.isRemote = false) :
    let x := s.recordAt (s.r o.ra) p
    exec (.spawn o) s = if x.poisoned p 32 then .next (x.trapAs true 0x0B p.errDetail (s.r o.ra))
      else .next (((x.sRead s.myCore p 32).park .none o.st).spawnRec o.rd (x.rd s.me.launch p 32)) := by
  intro x
  have hreg : x.r o.ra = s.r o.ra := Readies.reg (recordAt_readies s (s.r o.ra) p) hm o.ra
  have hlaunch : x.me.launch = s.me.launch := me_launch_readies (recordAt_readies s (s.r o.ra) p)
  have hdev : p.dev? = none := by cases p <;> first | rfl | cases hp
  have hcore : x.myCore = s.myCore := myCore_of (recordAt_readies s (s.r o.ra) p).cur
  have hout : (s.recordOut (s.r o.ra)).flushPlace (s.recordOut (s.r o.ra)).myCore p = x := by
    rw [myCore_of (recordOut_readies s (s.r o.ra)).cur]; rfl
  have h : execSpawn o s = if x.poisoned p 32 then .next (x.trapAs true 0x0B p.errDetail (x.r o.ra))
      else .next (((x.sRead x.myCore p 32).park .none o.st).spawnRec o.rd (x.rd x.me.launch p 32)) := by
    unfold execSpawn
    rw [mainOnly_main hm, hr.issueVar hd, access_ok hm ha hx, Drained.when hq, hdev, ← hout]
    rfl
  rw [hreg, hlaunch, hcore] at h
  exact h
end

/-! ## The checks of a record (R317) -/

/-- A record that spawn turns away: a reserved bit is set, or its bunch is not one of the launch. -/
def State.BadRecord (s : State) (r : Record) : Prop :=
  r.clean = false ∨ r.bunch ≠ 0 ∧ ∀ b, Map.find s.sched.bunches r.bunch = some b → b.launch ≠ s.me.launch

theorem badRecord_iff (s : State) (r : Record) : (!r.clean || (r.bunch != 0 &&
    (match s.bunch r.bunch with | some b => b.launch != s.me.launch | none => true))) = true ↔ s.BadRecord r := by
  unfold State.BadRecord State.bunch
  cases Map.find s.sched.bunches r.bunch <;> simp

theorem badRecord_congr {s v : State} (hs : v.sched = s.sched) (hl : v.me.launch = s.me.launch) (r : Record) :
    v.BadRecord r ↔ s.BadRecord r := by unfold State.BadRecord; rw [hs, hl]

theorem spawnRec_bad {s : State} (rd : Nat) {bs : List Byte} (h : s.BadRecord (Record.ofBytes bs)) : s.spawnRec rd bs = s.trapS 1 0 0 :=
  if_pos ((badRecord_iff s _).mpr h)

theorem spawnRec_good {s : State} (rd : Nat) {bs : List Byte} (h : ¬ s.BadRecord (Record.ofBytes bs)) :
    s.spawnRec rd bs = (s.setSca { s.sca with hold := .spawn rd bs }).spawnEnter rd bs :=
  if_neg (fun hb => h ((badRecord_iff s _).mp hb))

/-- A record that passes the checks enters, or holds its spawn while the store is full (R72, R317). -/
theorem spawnRec_holds_or_enters {s : State} (hm : s.OnMain) (rd : Nat) {bs : List Byte} (h : ¬ s.BadRecord (Record.ofBytes bs)) :
    (s.NoRoom → s.Holds (s.spawnRec rd bs) (.spawn rd bs)) ∧ (¬ s.NoRoom → s.Enters (s.spawnRec rd bs) rd (Record.ofBytes bs)) := by
  have hh := Holds.set (State.hasAgent_main hm) (.spawn rd bs)
  rw [spawnRec_good rd h]
  refine ⟨fun hfull => ?_, fun hroom => spawnEnter_enters hm hh.frame (by rw [hh.scalar]) hroom rd bs⟩
  rw [spawnEnter_full (by unfold State.NoRoom; rw [Keeps.sched hh.frame]; exact hfull)]
  exact hh

theorem trap_keeps {v w : State} (h : v.Keeps w) (hm : v.OnMain) : w.me.trap = v.me.trap := by
  have hmine := h.mine
  rw [show v.cur.agent = .S from hm] at hmine
  have := congrArg Ctx.trap hmine
  exact this

theorem sRead_facts (s : State) (k : Nat) (p : Place) (n : Nat) : (s.sRead k p n).cur = s.cur ∧ (s.sRead k p n).me = s.me := by
  unfold State.sRead State.me State.ctx; split <;> exact ⟨rfl, rfl⟩

/-- The state in which a spawn that has issued checks its record: launch, bunches and trap are those that it issued with. -/
theorem parked_facts {s : State} (ea : Word) (p : Place) (st : Nat) (hm : s.OnMain) :
    let y := (s.recordAt ea p).sRead s.myCore p 32
    let v := y.park .none st
    y.Parks v .none st ∧ v.OnMain ∧ v.sched = s.sched ∧ v.me.launch = s.me.launch ∧ v.me.trap = s.me.trap := by
  intro y v
  have hreads := recordAt_readies s ea p
  obtain ⟨hcur, hme⟩ := sRead_facts (s.recordAt ea p) s.myCore p 32
  have hy : y.OnMain := by unfold State.OnMain; rw [hcur]; exact onMain_readies hreads hm
  have hp : y.Parks v .none st := State.park_parks (State.hasAgent_main hy) .none st
  refine ⟨hp, hp.frame.onMain hy, ?_, ?_, ?_⟩
  · rw [Keeps.sched hp.frame, State.sched_sRead, hreads.sched]
  · rw [Keeps.launch hp.frame hy, hme, me_launch_readies hreads]
  · rw [trap_keeps hp.frame hy, hme]; unfold State.me; rw [hreads.cur, Readies.phase hreads]

/-- Settles O33: a spawn that issues reads its record in `recordAt`; its checks and its entry follow, at once or when it is retried. -/
theorem spawnEnters : Obligations.SpawnEnters := by
  unfold Obligations.SpawnEnters
  refine ⟨fun o s p hm hr hd ha hx hq => ?issue, fun s rd bs hm hhold hphase => ?retry⟩
  case issue =>
    have hreads : s.Readies (s.recordAt (s.r o.ra) p) s.myCore := recordAt_readies s (s.r o.ra) p
    refine ⟨fun dev pa key hp => exec_spawn_remote hm hr hd ha hx hq hp, fun hp hpoison hphase => ?_, fun hp hsound => ?_⟩
    · refine ⟨_, (exec_spawn_near hm hr hd ha hx hq hp).trans (if_pos hpoison), trapAs_traps (onMain_readies hreads hm) ?_ _ _ _⟩
      unfold State.me
      rw [hreads.cur, Readies.phase hreads]; exact hphase
    · have hexec := (exec_spawn_near hm hr hd ha hx hq hp).trans (if_neg (ne_true_of_eq_false hsound))
      obtain ⟨hpark, hv, hsched, hlaunch, htrap⟩ := parked_facts (s.r o.ra) p o.st hm
      refine ⟨_, _, hexec, hpark, ?_⟩
      have hbad := badRecord_congr hsched hlaunch (Record.ofBytes ((s.recordAt (s.r o.ra) p).rd s.me.launch p 32))
      refine ⟨fun hb hphase => ?_, fun hb => ?_, fun hb => ?_⟩
      · have htraps := spawnRec_bad o.rd (hbad.mpr hb)
        exact htraps ▸ trapS_traps hv (by rw [htrap]; exact hphase) 1 0 0
      · exact (spawnRec_holds_or_enters hv o.rd (hb ∘ hbad.mp)).1
      · exact (spawnRec_holds_or_enters hv o.rd (hb ∘ hbad.mp)).2
  case retry =>
    have hr : s.retryHold s.cur.cid = s.spawnEnter rd bs := by
      have hme : s.me.sc.hold = .spawn rd bs := by rw [sca_main hm]; exact hhold
      unfold State.retryHold
      rw [at_main hm]
      simp only [hme, hphase]
      rfl
    rw [hr]
    exact ⟨fun hfull => spawnEnter_full hfull rd bs, fun hroom => spawnEnter_enters hm (.refl s) rfl hroom rd bs⟩

end Sys2Proof.Machine
end

section
/-! PROOF. svc and its reply, and what MAPX answers (R66, R336). -/

namespace Sys2Proof.Machine

open Sys2Proof

theorem State.Here.mono {s : State} {rs qs : List Nat} (h : s.Here rs) (hq : qs ⊆ rs) : s.Here qs := fun r hr => h r (hq hr)

/-- svc, once it issues, writes L1 back, empties it and holds S (R336). -/
theorem exec_svc {s : State} (o : ImmF) (hm : s.OnMain) (hr : s.Ready [4, 5, 6, 7] none) (hd : s.Drained) :
    exec (.svc o) s = .next ((s.wbInv s.myCore).park (.svc o.imm.toNat [s.r 4, s.r 5, s.r 6, s.r 7]) o.st) := by
  have hdst : s.Here [4, 5] := hr.srcs_here.mono (by decide)
  show execSvc o s = _
  unfold execSvc svcArgs
  rw [mainOnly_main hm, hr.issueVar hdst, Drained.when hd]
  rfl

/-! ## The reply (R336) -/

/-- A reply with two result words: from the state v after the service, a core's L1 is emptied and S goes on. -/
def State.repliesWith (v : State) (core : Nat) (a c : Word) : State := (((v.resVar 4 a).resVar 5 c).wbInv core).go

theorem repliesWith_ends {v : State} (hm : v.OnMain) (core : Nat) (a c : Word) :
    (((v.resVar 4 a).resVar 5 c).wbInv core).EndsFree (v.repliesWith core a c) := by
  refine State.go_endsFree (State.hasAgent_main ((State.wbInv_moves _ _).1.onMain ?_))
  unfold State.OnMain
  rw [State.resVar_eq, State.cur_setSca, State.resVar_eq, State.cur_setSca]
  exact hm

section
variable {s : State} {n : Nat} {a4 a5 a6 a7 : Word} (hm : s.OnMain) (hh : s.sca.hold = .svc n [a4, a5, a6, a7])
include hm hh

theorem exec_svcReply_other (hn : n ≠ 0x10) : exec .svcReply s = .next (s.repliesWith s.myCore 0 0xFF) := by
  have hme : s.me.sc.hold = .svc n [a4, a5, a6, a7] := by rw [sca_main hm]; exact hh
  show execSvcReply s = _
  unfold execSvcReply
  rw [hme]
  dsimp only
  rw [at_main hm, if_neg hn]
  rfl

theorem exec_svcReply_no_launch (hn : n = 0x10) (hl : Map.find s.sched.launches s.me.launch = none) :
    exec .svcReply s = .next (s.repliesWith s.myCore 0 1) := by
  have hme : s.me.sc.hold = .svc n [a4, a5, a6, a7] := by rw [sca_main hm]; exact hh
  have hl' : s.launch s.me.launch = none := hl
  show execSvcReply s = _
  unfold execSvcReply
  rw [hme]
  dsimp only
  rw [at_main hm, if_pos hn, hl']
  rfl

theorem exec_svcReply_mapx (hn : n = 0x10) {l : Launch} (hl : Map.find s.sched.launches s.me.launch = some l) :
    exec .svcReply s = .next ((s.modLaunch s.me.launch (fun _ => (s.mapx l a4 a5 a6 a7).2.2)).repliesWith s.myCore
      (word (s.mapx l a4 a5 a6 a7).1) (word (s.mapx l a4 a5 a6 a7).2.1)) := by
  have hme : s.me.sc.hold = .svc n [a4, a5, a6, a7] := by rw [sca_main hm]; exact hh
  have hl' : s.launch s.me.launch = some l := hl
  show execSvcReply s = _
  unfold execSvcReply
  rw [hme]
  dsimp only
  rw [at_main hm, if_pos hn, hl']
  dsimp only
  rw [(modLaunch_gens s _ _).2.2]
  rfl
end

/-! ## MAPX (R66) -/

theorem mapx_unknown {s : State} {h : Word} (hx : Map.find s.host.exports h.toNat = none) (l : Launch) (off len flags : Word) :
    s.mapx l h off len flags = (0, 1, l) := by unfold State.mapx; rw [hx]

/-- MAPX of a registered range: its checks in their order, then the new mapping beyond the others of the launch. -/
theorem mapx_export {s : State} {h : Word} {x : Export} (hx : Map.find s.host.exports h.toNat = some x) (l : Launch) (off len flags : Word) :
    s.mapx l h off len flags =
      if off.toNat % 65536 ≠ 0 ∨ len.toNat % 65536 ≠ 0 ∨ len.toNat = 0 ∨ x.len < off.toNat + len.toNat ∨ 2 ≤ flags.toNat then (0, 2, l)
      else if flags.getLsbD 0 = true ∧ x.wr = false then (0, 3, l)
      else if 64 ≤ l.maps.length then (0, 4, l)
      else (l.nextMap, 0, { l with maps := l.maps ++ [⟨l.nextMap, len.toNat, h.toNat, off.toNat, flags.getLsbD 0⟩] }) := by
  have hzero : (len = 0) = (len.toNat = 0) := propext ⟨fun e => by rw [e]; rfl, fun e => BitVec.eq_of_toNat_eq e⟩
  unfold State.mapx
  rw [hx]
  dsimp only
  simp only [hzero, bit0_eq, Bool.and_eq_true, Bool.not_eq_true']

/-- Settles O38: svc issues into its hold, and its reply is that of MAPX or of an unknown service. -/
theorem servicesReply : Obligations.ServicesReply := by
  unfold Obligations.ServicesReply
  refine ⟨fun o s hm hr hd => ⟨_, exec_svc o hm hr hd, State.park_parks (State.hasAgent_main ((State.wbInv_moves s _).1.onMain hm)) _ _⟩,
    fun s n a4 a5 a6 a7 hm hh => ?reply⟩
  case reply =>
    by_cases hn : n = 0x10
    · cases hl : Map.find s.sched.launches s.me.launch with
      | none =>
        refine ⟨_, s, 0, 1, exec_svcReply_no_launch hm hh hn hl, repliesWith_ends hm _ _ _, fun h => absurd hn h, fun _ _ => ⟨rfl, rfl, rfl⟩, ?_⟩
        intro _ l h; cases h
      | some l =>
        have hv : (s.modLaunch s.me.launch (fun _ => (s.mapx l a4 a5 a6 a7).2.2)).OnMain := by
          unfold State.OnMain; rw [(modLaunch_gens s _ _).2.2]; exact hm
        refine ⟨_, _, _, _, exec_svcReply_mapx hm hh hn hl, repliesWith_ends hv _ _ _, fun h => absurd hn h, fun _ h => (Option.some_ne_none l h).elim, ?_⟩
        rintro _ _ ⟨⟩
        cases hx : Map.find s.host.exports a4.toNat with
        | none => simp [mapx_unknown hx]
        | some x =>
          refine ⟨?_, fun h => (Option.some_ne_none x h).elim, fun y hy => ?_⟩
          · rw [mapx_export hx]; split_ifs <;> simp
          · cases hy
            rw [mapx_export hx]
            refine ⟨fun hbad => ?_, fun hgood hask hro => ?_, fun hgood hmay hfull => ?_, fun hgood hmay hroom => ?_⟩
            · rw [if_pos hbad]
            · rw [if_neg hgood, if_pos ⟨hask, hro⟩]
            all_goals have hmay' : ¬ (a7.getLsbD 0 = true ∧ x.wr = false) := fun ⟨hask, hro⟩ => by rw [hmay hask] at hro; cases hro
            · rw [if_neg hgood, if_neg hmay', if_pos hfull]
            · rw [if_neg hgood, if_neg hmay', if_neg (by omega)]
              exact ⟨rfl, (nextMap_ge l).1, (nextMap_ge l).2, rfl⟩
    · refine ⟨_, s, 0, 0xFF, exec_svcReply_other hm hh hn, repliesWith_ends hm _ _ _, fun _ => ⟨rfl, rfl, rfl⟩, fun h => absurd h hn, fun h => absurd h hn⟩

end Sys2Proof.Machine
end

section
/-! PROOF. The mailbox commands (R35, R45-R48, R53, R58-R65). -/

namespace Sys2Proof.Machine

open Sys2Proof

/-! ## Which commands there are, and how one ends (R46, R47) -/

/-- The event of a row is the command of its opcode, with the row's need of ownership. -/
theorem mailRow_command {row : Instr × Nat × Bool} (h : row ∈ mailRows) (s : State) :
    ∃ k, exec row.1 s = s.command row.2.1 row.2.2 k := by
  simp only [mailRows, List.mem_cons, List.not_mem_nil, or_false] at h
  rcases h with rfl | rfl | rfl | rfl | rfl | rfl | rfl | rfl | rfl | rfl | rfl
  · exact ⟨_, show execKeyld s = _ by unfold execKeyld; rfl⟩
  · exact ⟨_, show execKeyclr s = _ by unfold execKeyclr; rfl⟩
  · exact ⟨_, show execHkey s = _ by unfold execHkey; rfl⟩
  · exact ⟨_, show execCodekey s = _ by unfold execCodekey; rfl⟩
  · exact ⟨_, show execCodereg s = _ by unfold execCodereg; rfl⟩
  · exact ⟨_, show execCoderel s = _ by unfold execCoderel; rfl⟩
  · exact ⟨_, show execCodest s = _ by unfold execCodest; rfl⟩
  · exact ⟨_, show execXreg s = _ by unfold execXreg; rfl⟩
  · exact ⟨_, show execXdel s = _ by unfold execXdel; rfl⟩
  · exact ⟨_, show execAttest s = _ by unfold execAttest; rfl⟩
  · exact ⟨_, show execAbort s = _ by unfold execAbort; rfl⟩

theorem knownOps_iff (n : Nat) : knownOps.contains n = true ↔ ∃ row ∈ mailRows, row.2.1 = n := by
  rw [show knownOps = mailRows.map (fun row => row.2.1) from rfl, List.contains_iff_mem, List.mem_map]

theorem exportsQuiet_iff (s : State) (p : PortSt) : s.exportsQuiet p = true ↔ ∀ r, p.xdel = some r → s.rangeQuiet r = true := by
  unfold State.exportsQuiet
  cases p.xdel <;> simp

theorem commandEnd_idle {s : State} (h : (s.hport s.cur.port).busy = false) : exec .mailboxCommandEnd s = .next s := by
  show execMailboxCommandEnd s = _
  unfold execMailboxCommandEnd
  simp [h]

theorem commandEnd_working {s : State} (h : (s.hport s.cur.port).busy = true) (ha : (s.hport s.cur.port).ans = none) :
    exec .mailboxCommandEnd s = if ∃ row ∈ mailRows, row.2.1 = (s.hport s.cur.port).op then .next s
      else .next (s.withPortSt s.cur.port (fun q => { q with busy := false, done := true, err := 1 })) := by
  show execMailboxCommandEnd s = _
  unfold execMailboxCommandEnd
  have hend : s.withPortSt s.cur.port (fun q => { q with busy := false, done := true, err := 1 }) =
    s.setHport s.cur.port { s.hport s.cur.port with busy := false, done := true, err := eBadCmd } := rfl
  rw [hend]
  simp only [h, ha, knownOps_iff, Bool.not_true, Bool.false_eq_true, if_false]

theorem commandEnd_answered {s : State} (h : (s.hport s.cur.port).busy = true) {err : Nat} {res : List Word}
    (ha : (s.hport s.cur.port).ans = some (err, res)) :
    exec .mailboxCommandEnd s = if s.exportsQuiet (s.hport s.cur.port) = true then
      .next (s.withPortSt s.cur.port (fun q => { q with busy := false, done := true, err := err, ans := none, xdel := none, mbuf := Mem.write (s.hport s.cur.port).mbuf 0x800 (res.flatMap (fun w => leBytes 8 w.toNat)) }))
      else .next s := by
  show execMailboxCommandEnd s = _
  unfold execMailboxCommandEnd
  simp only [h, ha, Bool.not_true, Bool.false_eq_true, if_false, Bool.not_eq_true']
  cases s.exportsQuiet (s.hport s.cur.port) <;> rfl

/-! ## Their arguments -/

theorem slotArg_false {w : Word} (h : w.toNat = 0 ∨ 511 < w.toNat) : slotArg w = false := by
  rw [Bool.eq_false_iff, Ne, slotArg_iff]; omega

theorem slotArg_true {w : Word} (h1 : 1 ≤ w.toNat) (h2 : w.toNat ≤ 511) : slotArg w = true := (slotArg_iff w).mpr ⟨h1, h2⟩

theorem handle_high {w : Word} : bitsOf w 63 16 ≠ 0 ↔ 65536 ≤ w.toNat := high_zero w 16 (by decide)

theorem objUsed_iff (s : State) (o : CodeObj) : s.objUsed o = true ↔
    ∃ x ∈ s.sched.store, o.base ≤ x.2.record.code ∧ x.2.record.code < o.base + 65536 * o.pages := by
  unfold State.objUsed; simp

theorem done_eq (s : State) (ws : List Word) : s.done s.cur.port ws = s.answered 0 ws := rfl

theorem xregBad_iff {bus len : Nat} {fl : Word} :
    (bus % 65536 ≠ 0 ∨ len % 65536 ≠ 0 ∨ len < 65536 ∨ 2 ^ 40 < len ∨ bitsOf fl 63 2 ≠ 0) ↔
      (bus % 65536 ≠ 0 ∨ len % 65536 ≠ 0 ∨ len = 0 ∨ 2 ^ 40 < len ∨ 4 ≤ fl.toNat) := by
  rw [high_zero fl 2 (by decide)]
  omega

theorem xdelBad_iff {a : Word} : (bitsOf a 63 16 ≠ 0 ∨ bitsOf a 14 8 ≠ 0) ↔ (65536 ≤ a.toNat ∨ a.toNat / 256 % 128 ≠ 0) := by
  rw [handle_high]; rfl

theorem coderegBad_iff {fl : Word} {hd : List Byte} : (bitsOf fl 63 1 ≠ 0 ∨ (!signedOk hd) = true) ↔ (2 ≤ fl.toNat ∨ signedOk hd = false) := by
  rw [high_zero fl 1 (by decide), Bool.not_eq_true', pow_one]

theorem coderegGood {fl : Word} {hd : List Byte} (hf : fl.toNat < 2) (hs : signedOk hd = true) :
    ¬ (bitsOf fl 63 1 ≠ 0 ∨ (!signedOk hd) = true) := by
  rw [coderegBad_iff, hs]; simp; omega

theorem abort_eq {s : State} (h : s.RunsWell 0x40 false) : exec .abort s = .next
    ((((s.sched.launches.filter (fun x => x.2.port == s.cur.port && x.2.tag == (s.hport s.cur.port).arg 8 && !x.2.done)).map Prod.fst).foldl
      (fun t l => t.abortLaunch l 4) s).done s.cur.port
      [word ((s.sched.launches.filter (fun x => x.2.port == s.cur.port && x.2.tag == (s.hport s.cur.port).arg 8 && !x.2.done)).map Prod.fst).length]) := by
  show execAbort s = _
  unfold execAbort
  rw [command_well h]

/-- A row of the mailbox acts only while it runs, and ends with its errors in the order of R47. -/
theorem mailRow_gates {row : Instr × Nat × Bool} (h : row ∈ mailRows) (s : State) :
    (¬ s.Runs row.2.1 → exec row.1 s = .next s) ∧
    (s.Runs row.2.1 → 256 ≤ ((s.hport s.cur.port).arg 0).toNat → exec row.1 s = .next (s.answered 1 [])) ∧
    (s.Runs row.2.1 → ((s.hport s.cur.port).arg 0).toNat < 256 → row.2.2 = true → (s.hport s.cur.port).owned = false →
      exec row.1 s = .next (s.answered 2 [])) := by
  obtain ⟨k, hk⟩ := mailRow_command h s
  exact mail_row hk

/-- Settles O50, command by command: each from its equation in the model's laws, with the arguments as the statement reads them. -/
theorem mailboxCommands : Obligations.MailboxCommands := by
  unfold Obligations.MailboxCommands
  refine ⟨fun row hrow s => mailRow_gates hrow s,
    fun s => ⟨fun h => ?keyld, fun h => ?keyclr, fun h => ?hkey, fun h => ?codekey, fun h => ?coderel, fun h => ?codest, fun h => ?attest,
      fun h => ?abort⟩, fun s h => ?xreg, fun s h => ?xdel, fun s h => ?codereg, fun s => ?commandEnd⟩
  case keyld =>
    rw [keyld_eq h]
    refine ⟨fun ha => ?_, fun h1 h2 hk => ?_, fun k h1 h2 hk => ?_⟩
    · rw [slotArg_false ha]; rfl
    · rw [slotArg_true h1 h2, hk]; rfl
    · rw [slotArg_true h1 h2, hk]; rfl
  case keyclr =>
    rw [keyclr_eq h, slotKey_find]
    refine ⟨fun ha => ?_, fun h1 h2 hk => ?_, fun k h1 h2 hk => ?_⟩
    · rw [slotArg_false ha]; rfl
    · rw [slotArg_true h1 h2, hk]; rfl
    · rw [slotArg_true h1 h2, hk]; rfl
  case hkey =>
    rw [hkey_eq h, slotKey_find]
    refine ⟨fun ha => ?_, fun h1 h2 h3 hk => ?_, fun h1 h2 hk => ?_⟩
    · rw [if_pos ha]; rfl
    · rw [if_neg (by omega), if_pos ⟨h3, by rw [hk]; rfl⟩]; rfl
    · rw [if_neg (by omega), if_neg (fun hc => hk.elim hc.1 (fun hs => hs (Option.isNone_iff_eq_none.mp hc.2)))]; rfl
  case codekey =>
    rw [codekey_eq h]
    exact ⟨fun ha => by rw [if_pos ha]; rfl, fun ha => by rw [if_neg (by omega)]; rfl⟩
  case coderel =>
    rw [coderel_eq h]
    refine ⟨fun ha => ?_, fun ha ho => ?_, fun o ha ho => ⟨fun hu => ?_, fun hu => ?_⟩⟩
    · rw [if_pos (handle_high.mpr ha)]; rfl
    all_goals rw [if_neg (fun hc => absurd (handle_high.mp hc) (by omega)), ho]; dsimp only
    · rfl
    · rw [if_pos ((objUsed_iff s o).mpr hu)]; rfl
    · rw [if_neg (fun hc => hu ((objUsed_iff s o).mp hc))]; rfl
  case codest =>
    rw [codest_eq h]
    refine ⟨fun ha => ?_, fun ha ho => ?_, fun o ha ho => ?_⟩
    · rw [if_pos (handle_high.mpr ha)]; rfl
    all_goals rw [if_neg (fun hc => absurd (handle_high.mp hc) (by omega)), ho]; rfl
  case attest =>
    rw [attest_eq h]
    refine ⟨fun ha => by rw [if_pos ha]; rfl, fun ha => ?_⟩
    exact ⟨s.report (Mem.read (s.hport s.cur.port).cmd 0x40 32), _, rfl, by rw [if_neg (by omega), List.append_assoc, done_eq]⟩
  case abort => exact abort_eq h
  case xreg =>
    rw [xreg_eq h]
    refine ⟨fun hb => ?_, fun hb hf => ?_, fun i hb hi hf hl => ?_⟩
    · rw [if_pos (xregBad_iff.mpr hb)]; rfl
    · rw [if_neg (hb ∘ xregBad_iff.mp), freeExport_none _ _ hf]; rfl
    · rw [if_neg (hb ∘ xregBad_iff.mp), freeExport_some _ _ i hi hf hl, bitOf_lsb, bitOf_lsb]; rfl
  case xdel =>
    rw [xdel_eq h]
    refine ⟨fun hb => ?_, fun hb hx => ?_, fun x hb hx => ?_⟩
    · dsimp only; rw [if_pos (xdelBad_iff.mpr hb)]; rfl
    all_goals dsimp only; rw [if_neg (hb ∘ xdelBad_iff.mp), hx]; rfl
  case codereg =>
    rw [codereg_eq h]
    dsimp only
    refine ⟨fun hb => ?_, fun hfl hok => ⟨fun hk => ?_, fun key hk => ⟨fun hv => ?_, fun hv => ⟨fun hn => ?_, fun hn1 hn2 => ?_⟩⟩⟩⟩
    · rw [if_pos (coderegBad_iff.mpr hb)]; rfl
    all_goals rw [if_neg (coderegGood hfl hok), hk]; dsimp only
    · rfl
    · rw [hv]; rfl
    all_goals rw [hv, Bool.not_true, if_neg Bool.false_ne_true]
    · rw [if_pos hn]; rfl
    · rw [if_neg (by omega)]
      refine ⟨fun he => ?_, fun he hbad => ?_, fun he hgood => ?_⟩
      · rw [he]; rfl
      · obtain ⟨i, hi, hx⟩ := hbad
        rw [he, loadAll_none s _ _ ⟨i, List.mem_range.mpr hi, hx⟩]; rfl
      · obtain ⟨o', hall, hin, hsame, hbase⟩ := loadAll_some s _ _ (fun i hi => hgood i (List.mem_range.mp hi))
        refine ⟨o', fun i hi => hin i (.inl (List.mem_range.mpr hi)), hsame, ?_⟩
        rw [he, hall, if_pos (by decide)]
        dsimp only
        rw [hbase]; rfl
  case commandEnd =>
    refine ⟨commandEnd_idle, fun hb ha hk => ?_, fun hb ha hk => ?_, fun err res hb ha hq => ?_, fun err res r hb ha hx hq => ?_⟩
    · rw [commandEnd_working hb ha, if_pos hk]
    · rw [commandEnd_working hb ha, if_neg hk]
    · rw [commandEnd_answered hb ha, if_pos ((exportsQuiet_iff s _).mpr hq)]
    · rw [commandEnd_answered hb ha, if_neg]
      intro hc
      rw [(exportsQuiet_iff s _).mp hc r hx] at hq
      cases hq

end Sys2Proof.Machine
end

section
/-! PROOF. The launch window: descriptors, launches and their records, time limits and page loads (R49-R57, R62, R63, R71, R120). -/

namespace Sys2Proof.Machine

open Sys2Proof

/-! ## Descriptors (R49-R52) -/

theorem exec_lwProdWrite (s : State) (port : Nat) (v : Word) : exec (.lwProdWrite port v) s = .next
    (if 64 < (v.toNat % 65536 + 65536 - (Map.getD s.hports port .fresh).cons) % 65536 then s.withPortSt port (fun p => { p with ovr := true })
     else s.withPortSt port (fun p => { p with prod := v.toNat % 65536 })) := by
  show (.next ((s.prodWrite port v)) : Res) = _
  unfold State.prodWrite
  rw [bits_low16]
  rfl

theorem exec_descriptorAccept_waits {s : State} (h : ¬ s.MayTake s.cur.port) : exec .descriptorAccept s = .next s := by
  have hno : s.mayAccept s.cur.port = false := by rw [Bool.eq_false_iff, Ne, mayTake_iff]; exact h
  show execDescriptorAccept s = _
  unfold execDescriptorAccept
  simp [hno]

theorem bits_caddr (w : Word) : bitsOf w 4 0 = w.toNat % 32 := by unfold bitsOf; norm_num
theorem bits_vec (w : Word) : bitsOf w 47 42 = w.toNat / 2 ^ 42 % 64 := by unfold bitsOf; norm_num
theorem bits_ptroot (w : Word) : bitsOf w 51 12 = w.toNat / 2 ^ 12 % 2 ^ 40 := by unfold bitsOf; norm_num

/-- The descriptor that a port takes next (R49). -/
def State.descriptor (s : State) (port : Nat) : List Byte := Mem.read (s.hport port).ring (64 * ((s.hport port).cons % 64)) 64

section
variable {s : State} (h : s.MayTake s.cur.port)
include h

theorem accept_misaligned (ha : (descWord (s.descriptor s.cur.port) 4).toNat % 32 ≠ 0) : exec .descriptorAccept s = .next
    (s.withPortSt s.cur.port (fun p => { p with cons := (p.cons + 1) % 65536, misal := true, errSlot := (s.hport s.cur.port).cons % 64 })) := by
  unfold State.descriptor at ha
  rw [accept_eq h, bits_caddr, if_pos ha]
  unfold State.consume
  dsimp only
  rw [hport_put, setHport_twice]
  rfl

theorem accept_rejects (ha : (descWord (s.descriptor s.cur.port) 4).toNat % 32 = 0) {st : Nat}
    (hf : s.descFault (s.descriptor s.cur.port) = some st) : exec .descriptorAccept s = .next
    ((s.withPortSt s.cur.port (fun p => { p with cons := (p.cons + 1) % 65536 })).recorded s.cur.port
      (descWord (s.descriptor s.cur.port) 4).toNat (recordOf (descWord (s.descriptor s.cur.port) 5) 0 0xFF 0 st 0 s.clk)
      ((descWord (s.descriptor s.cur.port) 7).getLsbD 41) ((descWord (s.descriptor s.cur.port) 7).toNat / 2 ^ 42 % 64)) := by
  unfold State.descriptor at *
  rw [accept_eq h, bits_caddr, if_neg (not_not_intro ha), hf]
  dsimp only
  rw [recordOf_eq, bitOf_lsb, bits_vec]
  rfl

theorem accept_starts (ha : (descWord (s.descriptor s.cur.port) 4).toNat % 32 = 0) (hf : s.descFault (s.descriptor s.cur.port) = none) :
    exec .descriptorAccept s = .next ((s.consume s.cur.port).startLaunch s.cur.port (s.descriptor s.cur.port)) := by
  unfold State.descriptor at *
  rw [accept_eq h, bits_caddr, if_neg (not_not_intro ha), hf]
end

/-! ## Completion records and time limits (R53-R57) -/

theorem settled_iff (s : State) (l : Nat) : s.settled l = true ↔ ¬ ∃ x ∈ s.net.reqs, x.2.launch = l ∧ x.2.kind.writes = true := by
  unfold State.settled
  simp only [List.all_eq_true, Bool.or_eq_true, bne_iff_ne, Bool.not_eq_true', not_exists, not_and, Bool.not_eq_true]
  exact forall₂_congr fun x _ => or_iff_not_imp_left.trans (by rw [not_not])

section
variable {s : State} {l : Nat} (h : s.boot.therm = none)
include h

theorem completion_no_launch (hl : Map.find s.sched.launches l = none) : exec (.completionRecordWrite l) s = .next s := by
  have hc : s.complete1 l = s := by unfold State.complete1; rw [show s.launch l = none from hl]
  show (.next ((s.complete1 l).thermEnd) : Res) = _
  rw [hc, thermEnd_none s h]

theorem completion_waits {v : Launch} (hl : Map.find s.sched.launches l = some v)
    (hw : v.done = false ∨ ∃ x ∈ s.net.reqs, x.2.launch = l ∧ x.2.kind.writes = true) : exec (.completionRecordWrite l) s = .next s := by
  have hno : ¬ (v.done && s.settled l) = true := by
    rw [Bool.and_eq_true, settled_iff]
    rintro ⟨hd, hs⟩
    exact hw.elim (fun hf => by rw [hf] at hd; cases hd) hs
  have hc : s.complete1 l = s := by
    unfold State.complete1
    rw [show s.launch l = some v from hl]
    exact if_neg hno
  show (.next ((s.complete1 l).thermEnd) : Res) = _
  rw [hc, thermEnd_none s h]

/-- A launch whose writes are performed gets its record, and goes with all that it holds (R54, R120). -/
theorem completion_writes {v : Launch} (hl : Map.find s.sched.launches l = some v) (hd : v.done = true)
    (hs : ¬ ∃ x ∈ s.net.reqs, x.2.launch = l ∧ x.2.kind.writes = true) :
    exec (.completionRecordWrite l) s = .next ((s.writeRecord v.port v.caddr v.words v.noint v.vec).dropLaunch l) := by
  have hyes : (v.done && s.settled l) = true := by rw [hd, (settled_iff s l).mpr hs]; rfl
  have hc : s.complete1 l = (s.writeRecord v.port v.caddr v.words v.noint v.vec).dropLaunch l := by
    unfold State.complete1
    rw [show s.launch l = some v from hl]
    exact if_pos hyes
  obtain ⟨-, -, -, -, -, -, -, hboot⟩ := dropLaunch_spec (s.writeRecord v.port v.caddr v.words v.noint v.vec) l v hl
  show (.next ((s.complete1 l).thermEnd) : Res) = _
  rw [hc, thermEnd_none _ (by rw [hboot]; exact h)]
end

theorem colls_writeRecord (s : State) (p c : Nat) (ws : List Word) (n : Bool) (k : Nat) : (s.writeRecord p c ws n k).colls = s.colls := rfl

/-- What a launch with its record leaves of the record's state, and of the state before it. -/
theorem complete_frame {s : State} {l : Nat} {v : Launch} (hl : Map.find s.sched.launches l = some v) :
    let u := s.writeRecord v.port v.caddr v.words v.noint v.vec
    let t := u.dropLaunch l
    t.sched.launches = Map.del s.sched.launches l ∧ t.sched.bunches = s.sched.bunches.filter (fun b => b.2.launch != l) ∧ t.host = u.host ∧
      t.colls = s.colls.map (fun c : Nat × Coll => (c.1, { c.2 with rings := c.2.rings.filter (fun r => r.2.launch != l) })) ∧
      t.ctxs = s.ctxs ∧ t.mem = { s.mem with tags := s.mem.tags.filter (fun x => x.2 != l) } ∧ t.net = s.net := by
  intro u t
  obtain ⟨hsched', hctxs', hmem', hnet', -⟩ := writeRecord_frame s v.port v.caddr v.words v.noint v.vec
  obtain ⟨hlaunches, hbunches, hhost, hctxs, hmem, hcolls, hnet, -⟩ := dropLaunch_spec u l v (by rw [hsched']; exact hl)
  rw [hsched'] at hlaunches hbunches
  rw [hctxs'] at hctxs
  rw [hmem'] at hmem
  rw [colls_writeRecord] at hcolls
  rw [hnet'] at hnet
  exact ⟨hlaunches, hbunches, hhost, hcolls, hctxs, hmem, hnet⟩

theorem tlim_no_launch {s : State} {l : Nat} (h : Map.find s.sched.launches l = none) : exec (.tlim l) s = .next s := by
  show execTlim l s = _
  unfold execTlim
  rw [show s.launch l = none from h]

theorem exec_tlim_some {s : State} {l : Nat} {v : Launch} (h : Map.find s.sched.launches l = some v) :
    exec (.tlim l) s = if v.tlim ≠ 0 ∧ v.accepted + v.tlim * msClk ≤ s.clk then .next (s.abortLaunch l 5) else .next s := by
  show execTlim l s = _
  unfold execTlim
  rw [show s.launch l = some v from h]

/-! ## Page loads (R62, R63, R71) -/

/-- A page that nothing waits for, or that cannot be loaded, is left. -/
theorem pageLoad_idle {s : State} {h page : Nat} (hi : ∀ o, Map.find s.host.objs h = some o →
    o.revoked = true ∨ page ∈ o.loaded ∨ o.pages ≤ page ∨ s.pageWanted h page = false) : exec (.pageLoad h page) s = .next s := by
  show execPageLoad h page s = _
  unfold execPageLoad
  cases ho : Map.find s.host.objs h with
  | none => rfl
  | some o => exact if_pos (by simpa using hi o ho)

theorem pageLoad_go {s : State} {h page : Nat} {o : CodeObj} (ho : Map.find s.host.objs h = some o) (hr : o.revoked = false)
    (hl : page ∉ o.loaded) (hp : page < o.pages) (hw : s.pageWanted h page = true) :
    exec (.pageLoad h page) s = .next (s.loadPage h o page) := by
  show execPageLoad h page s = _
  unfold execPageLoad
  rw [ho]
  exact if_neg (by simp [hr, hl, hp, hw])

theorem pageOk_iff (o : CodeObj) (page : Nat) (bs : List Byte) : o.pageOk page bs = true ↔ o.hashes[page]? = some (Config.sha384 bs) := beq_iff_eq

theorem loadPage_ok {s : State} {h page : Nat} {o : CodeObj} (hh : o.hashes[page]? = some (Config.sha384 (s.pageBytes o page))) :
    s.loadPage h o page = State.readHdrs { s with host := { s.host with objs := Map.put s.host.objs h (o.load page (s.pageBytes o page)) } } :=
  if_pos ((pageOk_iff o page _).mpr hh)

theorem loadPage_fails {s : State} {h page : Nat} {o : CodeObj} (hh : o.hashes[page]? ≠ some (Config.sha384 (s.pageBytes o page))) :
    s.loadPage h o page = s.pageFails h o page :=
  if_neg (hh ∘ (pageOk_iff o page _).mp)

/-- The locks that a revocation leaves are those that do not meet the object. -/
theorem revoke_eq (s : State) (h : Nat) (o : CodeObj) : s.revoke h o = { s with
    host := { s.host with objs := Map.put s.host.objs h { o with revoked := true } }
    ctxs := s.ctxs.map (fun c : Nat × Ctx => (c.1, { c.2 with locks := c.2.locks.filter (fun x : Word × Word =>
      decide (¬ (o.base < x.1.toNat + x.2.toNat ∧ x.1.toNat < o.base + 65536 * o.pages))) })) } := by
  have hgone : (fun x : Word × Word => !(decide (o.base < x.1.toNat + x.2.toNat) && decide (x.1.toNat < o.base + 65536 * o.pages))) =
      fun x : Word × Word => decide (¬ (o.base < x.1.toNat + x.2.toNat ∧ x.1.toNat < o.base + 65536 * o.pages)) :=
    funext fun x => by rw [decide_not, Bool.decide_and]
  unfold State.revoke
  dsimp only
  rw [hgone]

/-- Settles O54: the events of the launch window and of page loads, one case each. -/
theorem launchWindow : Obligations.LaunchWindow := by
  unfold Obligations.LaunchWindow
  refine ⟨fun s port v => ?prod, fun s h => exec_descriptorAccept_waits h, fun s h => ?accept, fun s l h => ?record, fun s l => ?limit,
    fun s h page => ?load⟩
  case prod =>
    dsimp only
    rw [exec_lwProdWrite]
    exact ⟨fun h => by rw [if_pos h], fun h => by rw [if_neg (by omega)]⟩
  case accept =>
    refine ⟨accept_misaligned h, fun ha => ⟨fun hb => ?_, fun hb hn => ?_, fun hb hn => ?_⟩⟩
    · exact accept_rejects h ha (badDesc_eq s _ hb)
    · exact accept_rejects h ha ((goodDesc_eq s _ hb).1 hn)
    · refine (accept_starts h ha ((goodDesc_eq s _ hb).2 hn)).trans ?_
      unfold State.startLaunch
      dsimp only
      rw [bits_ptroot, bits_vec, bitsOf_div _ 48 (by decide), bitOf_lsb]
      rfl
  case record =>
    refine ⟨completion_no_launch h, fun v hl => ⟨completion_waits h hl, fun hd hs => ?_⟩⟩
    exact ⟨_, _, completion_writes h hl hd hs, recorded_eq s v, complete_frame hl⟩
  case limit =>
    refine ⟨tlim_no_launch, fun v hl => ?_⟩
    rw [exec_tlim_some hl]
    exact ⟨fun h => if_neg (by omega), fun h1 h2 => if_pos ⟨h1, h2⟩⟩
  case load =>
    refine ⟨fun hn => pageLoad_idle (fun o ho => by rw [hn] at ho; cases ho), fun o ho => ⟨fun hi => ?_, fun hr hl hp hw => ⟨fun hh => ?_, fun hh => ?_⟩⟩⟩
    · exact pageLoad_idle (fun o' ho' => by rw [ho] at ho'; cases ho'; exact hi)
    · rw [pageLoad_go ho hr hl hp hw, loadPage_ok hh]; rfl
    · rw [pageLoad_go ho hr hl hp hw, loadPage_fails hh]
      unfold State.pageFails
      dsimp only
      rw [revoke_eq]
      rfl

end Sys2Proof.Machine
end

section
/-! PROOF. arrive and est, and the system registers (R73, R81, R87, R319, R320, R335, R340, R341). -/

namespace Sys2Proof.Machine

open Sys2Proof

/-! ## arrive and est (R319, R320) -/

theorem names_congr {s t : State} (h : t.sched = s.sched) (a : Word) (e : Nat) (v : Entry) : t.names a e v ↔ s.names a e v := by
  unfold State.names; rw [h]

/-- A handle that names no pooled record of the launch is turned away. -/
theorem arriveAt_turned {y : State} {h : Word} (hn : ∀ e v, y.names h e v → v.st ≠ .pooled ∨ v.launch ≠ y.me.launch) :
    y.arriveAt h = (2, y) := by
  unfold State.arriveAt
  cases hb : y.byHandle h with
  | none => rfl
  | some x =>
    obtain ⟨e, v⟩ := x
    exact if_pos (hn e v ((byHandle_iff y h e v).1 hb))

theorem exec_arrive {s : State} {o : R2} (hm : s.OnMain) (hr : s.Ready [o.ra] none) (hh : s.Here [o.rd]) (hd : s.Drained) :
    let u := s.wbAll s.myCore
    exec (.arrive o) s = .next ((((u.resVar o.rd (word (u.arriveAt (s.r o.ra)).1)).adv o.st).arriveAt (s.r o.ra)).2) := by
  have hreg : (s.wbAll s.myCore).r o.ra = s.r o.ra := Readies.reg (State.wbAll_moves s s.myCore).1.readies hm o.ra
  show execArrive o s = _
  unfold execArrive
  rw [mainOnly_main hm, hr.issueVar hh, Drained.when hd]
  dsimp only
  rw [hreg]

theorem satI_eq (x : Int) : satI x 0 16777215 = max 0 (min 16777215 x) := by
  unfold satI; split_ifs <;> omega

/-- s with the operand saturated into EST (R320); a decision of this clk still sees the EST before. -/
def State.estimated (s : State) (v : Word) : State :=
  s.modMe (fun c => { c with sys := { c.sys with est := (max 0 (min 16777215 v.toInt)).toNat, estOld := c.sys.estSeen s.clk, estAt := s.clk } })

theorem exec_est {s : State} {o : R1a} (hm : s.OnMain) (hr : s.Ready [o.ra] none) :
    exec (.est o) s = .next ((s.estimated (s.r o.ra)).adv o.st) := by
  show execEst o s = _
  unfold execEst
  rw [mainOnly_main hm, hr.issue, satI_eq]
  rfl

theorem estimated_passes {s : State} (hm : s.OnMain) (v : Word) (st : Nat) : (s.estimated v).Passes ((s.estimated v).adv st) st :=
  State.adv_passes (State.hasAgent_main (s := s.estimated v) hm) st

/-- Settles O34: x is the state with the result on its way, in which the handle names what it named before. -/
theorem arriveAndEst : Obligations.ArriveAndEst := by
  unfold Obligations.ArriveAndEst
  refine ⟨fun o s hm hr hh hd => ?arrive, fun o s hm hr => ⟨_, exec_est hm hr, estimated_passes hm _ o.st⟩⟩
  case arrive =>
    generalize hu : s.wbAll s.myCore = u
    have hmoves : s.MovesData u s.myCore := hu ▸ (State.wbAll_moves s s.myCore).1
    have hum : u.OnMain := hmoves.onMain hm
    generalize hn : (u.arriveAt (s.r o.ra)).1 = n
    have hx := State.resVar_adv_gives (State.hasAgent_main hum) o.rd (word n) o.st
    generalize hxe : (u.resVar o.rd (word n)).adv o.st = x at hx
    have hnu : ∀ e v, u.names (s.r o.ra) e v ↔ s.names (s.r o.ra) e v := names_congr hmoves.sched _
    have hnx : ∀ e v, x.names (s.r o.ra) e v ↔ s.names (s.r o.ra) e v := names_congr ((Keeps.sched hx.frame).trans hmoves.sched) _
    have hlu : u.me.launch = s.me.launch := launch_readies hmoves.readies
    have hlx : x.me.launch = s.me.launch := (Keeps.launch hx.frame hum).trans hlu
    refine ⟨(x.arriveAt (s.r o.ra)).2, x, n, ?_, hx, fun e v hv hp hl => ?named, fun hno => ?turned⟩
    · have := exec_arrive hm hr hh hd
      dsimp only at this
      rw [this, hu, hn, hxe]
    case named =>
      have hau := arriveAt_some ((byHandle_iff u _ e v).2 ((hnu e v).2 hv)) hp (hl.trans hlu.symm)
      have hax := arriveAt_some ((byHandle_iff x _ e v).2 ((hnx e v).2 hv)) hp (hl.trans hlx.symm)
      rw [← hn, hau, hax]
      refine ⟨fun hj => ?_, fun hj => ?_⟩
      · rw [if_neg (by omega), if_neg (by omega)]; exact ⟨rfl, rfl⟩
      · rw [if_pos hj, if_pos hj]; exact ⟨rfl, rfl⟩
    case turned =>
      rw [← hn, arriveAt_turned (y := u) (fun e v hv => by rw [hlu]; exact hno e v ((hnu e v).1 hv)),
        arriveAt_turned (y := x) (fun e v hv => by rw [hlx]; exact hno e v ((hnx e v).1 hv))]
      exact ⟨rfl, rfl⟩

/-! ## System registers (R335, R340, R341) -/

/-- The registers that system tasks alone write are named (R341). -/
theorem sysNamed_sysOnly {s : State} {n : Nat} (h : sysOnly n = true) : (s.sysNamed n).isSome = true := by
  unfold State.sysNamed
  dsimp only
  rcases (sysOnly_iff n).1 h with rfl | h
  · rfl
  · repeat rw [if_neg (by omega)]
    rw [if_pos h]
    rfl

theorem exec_rdsys_named {s : State} {o : RdsysF} {v : Word} (hm : s.OnMain) (hr : s.Ready [] none) (hh : s.Here [o.rd])
    (hv : s.sysNamed o.num.toNat = some v) : exec (.rdsys o) s = .next ((s.resVar o.rd v).adv o.st) := by
  show execRdsys o s = _
  unfold execRdsys
  rw [show s.cur.agent = .S from hm]
  dsimp only
  rw [hr.issueVar hh, sysRead_named hm, viewNum_main hm, hv]

theorem exec_rdsys_unnamed {s : State} {o : RdsysF} (hm : s.OnMain) (hr : s.Ready [] none) (hh : s.Here [o.rd])
    (hn : s.sysNamed o.num.toNat = none) : exec (.rdsys o) s = .next (s.trapS 1 0 0) := by
  show execRdsys o s = _
  unfold execRdsys
  rw [show s.cur.agent = .S from hm]
  dsimp only
  rw [hr.issueVar hh, sysRead_named hm, hn]

theorem exec_wrsys_named {s : State} {o : WrsysF} (hm : s.OnMain) (hr : s.Ready [o.ra] none) (hn : (s.sysNamed o.num.toNat).isSome = true) :
    exec (.wrsys o) s = if sysOnly o.num.toNat = true ∧ ¬ s.me.isSys = true then .next (s.trapS 7 0 0)
      else .next ((s.sysPut o.num.toNat (s.r o.ra)).adv o.st) := by
  obtain ⟨v, hv⟩ := Option.isSome_iff_exists.1 hn
  rw [← sysWrite_put s _ _ hn]
  show execWrsys o s = _
  unfold execWrsys
  rw [show s.cur.agent = .S from hm]
  dsimp only
  rw [hr.issue, sysRead_named hm, hv]
  simp only [Bool.and_eq_true, Bool.not_eq_true', Bool.not_eq_true]

theorem exec_wrsys_unnamed {s : State} {o : WrsysF} (hm : s.OnMain) (hr : s.Ready [o.ra] none) (hn : s.sysNamed o.num.toNat = none) :
    exec (.wrsys o) s = .next (s.trapS 1 0 0) := by
  show execWrsys o s = _
  unfold execWrsys
  rw [show s.cur.agent = .S from hm]
  dsimp only
  rw [hr.issue, sysRead_named hm, hn]

theorem caps_beyond (v : Variant) {n : Nat} (h : 4 ≤ n) : v.caps n = 0 := by
  match n, h with
  | n + 4, _ => rfl

theorem exec_caps {s : State} {o : R2} (hm : s.OnMain) :
    exec (.caps o) s = s.resultVar o.st [o.ra] o.rd (s.variant.caps (s.r o.ra).toNat) := by
  show execCaps o s = _
  unfold execCaps
  rw [mainOnly_main hm]
  dsimp only
  split
  · rfl
  · rw [caps_beyond _ (by omega)]

/-- Settles O37: on a main stream the map of rdsys and wrsys is `sysNamed`, and a write of it `sysPut`. -/
theorem systemRegisters : Obligations.SystemRegisters := by
  unfold Obligations.SystemRegisters
  refine ⟨fun o s hm hr hh => ?rdsys, fun o s hm hr => ?wrsys, fun o s hm hr hh => ?caps⟩
  case rdsys =>
    exact ⟨fun v hv => ⟨_, exec_rdsys_named hm hr hh hv, State.resVar_adv_gives (State.hasAgent_main hm) _ _ _⟩,
      fun hn hp => ⟨_, exec_rdsys_unnamed hm hr hh hn, trapS_traps hm hp 1 0 0⟩⟩
  case wrsys =>
    intro guarded sys
    have hg : sysOnly o.num.toNat = true ↔ guarded := sysOnly_iff _
    have hs : s.me.isSys = true ↔ sys := isSys_iff s
    refine ⟨fun hn hok => ?_, fun hgd hns hp => ?_, fun hn hp => ⟨_, exec_wrsys_unnamed hm hr hn, trapS_traps hm hp 1 0 0⟩⟩
    · rw [exec_wrsys_named hm hr hn, if_neg (fun h => h.2 (hs.2 (hok (hg.1 h.1))))]
      exact ⟨_, rfl, State.adv_passes (State.hasAgent_main (by unfold State.OnMain; rw [sysPut_cur]; exact hm)) o.st⟩
    · rw [exec_wrsys_named hm hr (sysNamed_sysOnly (hg.2 hgd)), if_pos ⟨hg.2 hgd, fun h => hns (hs.1 h)⟩]
      exact ⟨_, rfl, trapS_traps hm hp 7 0 0⟩
  case caps =>
    rw [exec_caps hm]
    obtain ⟨t, ht, hg⟩ := State.resultVar_gives hr hh (s.variant.caps (s.r o.ra).toNat) o.st
    exact ⟨t, _, ht, hg, fun _ => rfl, caps_beyond _⟩

end Sys2Proof.Machine
end

section
/-! PROOF. Dispatch, aging, tokens and reserving (R69, R73, R75, R76, R79-R81). -/

namespace Sys2Proof.Machine

open Sys2Proof

/-! ## Moving data does not look at the scheduler

L1 is written back in the same way whatever the scheduler holds. -/

section
variable (f : Sched → Sched)

theorem hbmSet_modSched (s : State) (slot pa : Nat) (b : Byte) : (s.modSched f).hbmSet slot pa b = (s.hbmSet slot pa b).modSched f := by
  have hk : (s.modSched f).slotKey slot = s.slotKey slot := rfl
  unfold State.hbmSet
  rw [hk]
  cases s.slotKey slot <;> rfl

theorem wr1_modSched (s : State) (l : Nat) (p : Place) (b : Byte) : (s.modSched f).wr1 l p b = (s.wr1 l p b).modSched f := by
  cases p
  case loc pa key cl wp => exact hbmSet_modSched f s key pa b
  all_goals rfl

theorem wrBytes_modSched (l : Nat) (bs : List Byte) : ∀ (s : State) (p : Place),
    (s.modSched f).wrBytes l p bs = (s.wrBytes l p bs).modSched f := by
  induction bs with
  | nil => exact fun _ _ => rfl
  | cons b bs ih =>
    intro s p
    unfold State.wrBytes
    rw [wr1_modSched, ih]

theorem post_modSched (s : State) (dev : Nat) (m : Msg) : (s.modSched f).post dev m = (s.post dev m).modSched f := by
  have hr : (s.modSched f).route dev = s.route dev := rfl
  unfold State.post
  rw [hr, State.net_modSched]
  split <;> rfl

theorem notices_modSched (s : State) (p : Place) (n : Nat) : (s.modSched f).notices p n = (s.notices p n).modSched f :=
  List.foldl_hom (State.modSched · f) (init := { s with net := { s.net with
    watch := s.net.watch.filter (fun w => !(List.range n).any (fun i => (p.add i).line == w.2)) } })
    (fun s w => post_modSched f s w.1 (.notice w.1 w.2))

theorem wr_modSched (s : State) (l : Nat) (p : Place) (bs : List Byte) : (s.modSched f).wr l p bs = (s.wr l p bs).modSched f := by
  unfold State.wr
  rw [wrBytes_modSched]
  exact notices_modSched f (((s.wrBytes l p bs).heal p bs.length).wakeOn p bs.length) p bs.length

theorem wbLine_modSched (s : State) (k n : Nat) : (s.modSched f).wbLine k n = (s.wbLine k n).modSched f := by
  have hc : (s.modSched f).core k = s.core k := rfl
  unfold State.wbLine
  rw [hc]
  cases Map.find (s.core k).l1 n with
  | none => rfl
  | some l =>
    dsimp only
    split
    · rw [List.foldl_hom (State.modSched · f) (fun s r => wr_modSched f s 0 _ r.2)]
      rfl
    · rfl

theorem wbInv_modSched (s : State) (k : Nat) : (s.modSched f).wbInv k = (s.wbInv k).modSched f := by
  have hall : (s.modSched f).wbAll k = (s.wbAll k).modSched f :=
    List.foldl_hom (State.modSched · f) (fun s n => wbLine_modSched f s k n)
  unfold State.wbInv
  rw [hall]
  rfl
end

/-- The scheduler after a record has taken its context. -/
def Sched.assigned (e cid : Nat) (v : Entry) (q : Sched) : Sched :=
  { q with store := Map.put q.store e v, marks := q.marks.filter (fun m => m.2.1 != e), offers := q.offers.filter (fun o => o.1 != cid && o.2 != e) }

theorem assign_eq (s : State) (e cid : Nat) (v : Entry) :
    s.assign e cid v = s.modSched (Sched.assigned e cid { v with st := .running cid, prio := s.level v, disp := s.clk }) := by
  rw [← level_eq]; rfl

/-! ## Dispatch (R76) -/

/-- The first free context of a chiplet for which there is a choice, with it. -/
def State.firstPick (s : State) (pos : Nat) : Option (Nat × Pick) :=
  (s.freeCids pos).findSome? (fun cid => (s.pick cid).map (fun p => (cid, p)))

theorem exec_dispatch_none {s : State} {pos : Nat} (h : s.firstPick pos = none) : exec (.dispatch pos) s = .next s := by
  show execDispatch pos s = _
  unfold execDispatch
  rw [show (s.freeCids pos).findSome? (fun cid => (s.pick cid).map (fun p => (cid, p))) = none from h]

theorem exec_dispatch_some {s : State} {pos cid : Nat} {p : Pick} (h : s.firstPick pos = some (cid, p)) :
    exec (.dispatch pos) s = .next (s.placePick cid p) := by
  show execDispatch pos s = _
  unfold execDispatch
  rw [show (s.freeCids pos).findSome? (fun cid => (s.pick cid).map (fun p => (cid, p))) = some (cid, p) from h]

theorem firstPick_none {s : State} {pos : Nat} (h : ∀ cid, cid / 64 = pos → s.isFree cid = true → s.pick cid = none) :
    s.firstPick pos = none := by
  refine List.findSome?_eq_none_iff.2 (fun cid hc => ?_)
  obtain ⟨hpos, hfree⟩ := (freeCids_mem s pos cid).1 hc
  rw [h cid hpos hfree]; rfl

theorem firstPick_some {s : State} {pos cid : Nat} {p : Pick} (hpos : cid / 64 = pos) (hfree : s.isFree cid = true) (hp : s.pick cid = some p)
    (hfirst : ∀ c, c / 64 = pos → c < cid → s.isFree c = true → s.pick c = none) : s.firstPick pos = some (cid, p) := by
  refine findSome_first _ _ (freeCids_sorted s pos) cid _ ((freeCids_mem s pos cid).2 ⟨hpos, hfree⟩) (by rw [hp]; rfl) (fun c hc hlt => ?_)
  obtain ⟨hcpos, hcfree⟩ := (freeCids_mem s pos c).1 hc
  rw [hfirst c hcpos hlt hcfree]; rfl

/-- The single records that may be given a context. -/
def State.singles (s : State) (cid : Nat) : List Pick :=
  (s.sched.store.filter (fun x => s.canPlace x.1 x.2 cid)).map (fun x => .one x.1 x.2)

theorem mem_singles {s : State} {cid : Nat} {p : Pick} :
    p ∈ s.singles cid ↔ ∃ x ∈ s.sched.store, s.MayPlace x.1 x.2 cid ∧ p = .one x.1 x.2 := by
  simp only [State.singles, List.mem_map, List.mem_filter, mayPlace_iff, and_assoc, eq_comm (a := p)]

/-- Without bunches and an offer, no record that may be placed is no choice. -/
theorem pick_none {s : State} {cid : Nat} (ho : Map.find s.sched.offers cid = none) (hb : s.sched.bunches = [])
    (h : ∀ x ∈ s.sched.store, ¬ s.MayPlace x.1 x.2 cid) : s.pick cid = none := by
  have hnil : s.singles cid = [] := by
    refine List.eq_nil_iff_forall_not_mem.2 (fun p hp => ?_)
    obtain ⟨x, hx, hm, -⟩ := mem_singles.1 hp
    exact h x hx hm
  rw [pick_eq s cid ho hb]
  exact (best_fold Pick.key s (s.singles cid) none).1 rfl hnil

/-- Without bunches and an offer, the choice is the record that no other precedes (R76). -/
theorem pick_best {s : State} {cid : Nat} (ho : Map.find s.sched.offers cid = none) (hb : s.sched.bunches = []) {x : Nat × Entry}
    (hx : x ∈ s.sched.store) (hm : s.MayPlace x.1 x.2 cid) : ∃ y ∈ s.sched.store, s.pick cid = some (.one y.1 y.2) ∧ s.MayPlace y.1 y.2 cid ∧
      ∀ z ∈ s.sched.store, s.MayPlace z.1 z.2 cid → ¬ s.Ahead z.2 y.2 := by
  have hne : s.singles cid ≠ [] := List.ne_nil_of_mem (mem_singles.2 ⟨x, hx, hm, rfl⟩)
  obtain ⟨p, hp, hmem, hbest⟩ := (best_fold Pick.key s (s.singles cid) none).2.2 rfl hne
  obtain ⟨y, hy, hym, rfl⟩ := mem_singles.1 hmem
  exact ⟨y, hy, (pick_eq s cid ho hb).trans hp, hym, fun z hz hzm => hbest (.one z.1 z.2) (mem_singles.2 ⟨z, hz, hzm, rfl⟩)⟩

/-! ## The start of a task (R69, R73) -/

section Start
variable {s : State} {e cid : Nat} {v : Entry} {h : Header} (hv : Map.find s.sched.store e = some v) (hi : Map.find s.images e = none)
  (hh : v.hdr = some h) (hl : h.slLen = 0) (hk : (Map.find s.mem.keys v.record.key).isSome = true)
include hv hi hh hl hk

/-- A record without an image starts its task: it takes its context, with L1 written back and emptied. -/
theorem place_starts : s.placePick cid (.one e v) = (((s.wbInv (cid / 2)).modSched
    (Sched.assigned e cid { v with st := .running cid, prio := s.level v, disp := s.clk })).setCtx cid (s.startOf e v h false)).wakeCore cid := by
  refine (place_fresh s e cid v h hv hi hh hl hk).trans ?_
  rw [assign_eq, wbInv_modSched]
end Start

theorem starts_spec (w : State) (f : Sched → Sched) (cid : Nat) (c : Ctx) (hc : c.wakeNow = c) :
    let t := ((w.modSched f).setCtx cid c).wakeCore cid
    t.ctx cid = c ∧ t.sched = f w.sched ∧ (∀ x, x / 2 ≠ cid / 2 → t.ctx x = w.ctx x) ∧ t.mem = w.mem ∧ ∀ k, t.core k = w.core k := by
  refine ⟨?_, rfl, fun x hx => ?_, rfl, fun k => rfl⟩
  · rw [ctx_wakeCore, if_pos rfl, State.ctx_setCtx_same, hc]
  · rw [ctx_wakeCore, if_neg hx, State.ctx_setCtx, if_neg (fun he : x = cid => hx (congrArg (· / 2) he))]
    rfl

/-! ## Aging and token ticks (R75, R80, R81) -/

theorem ageDue_iff (s : State) (v : Entry) : s.ageDue v = true ↔ s.AgeDue v := by
  have hp : bitsOf v.record.w2 34 32 = v.record.w2.toNat / 2 ^ 32 % 8 := by unfold bitsOf; norm_num
  unfold State.ageDue State.AgeDue State.basePri Record.pri State.queue msClk
  rw [hp]
  simp only [Bool.and_eq_true, beq_iff_eq, decide_eq_true_eq, and_assoc]

theorem exec_agingStep_none {s : State} {e : Nat} (h : Map.find s.sched.store e = none) : exec (.agingStep e) s = .next s := by
  show execAgingStep e s = _
  unfold execAgingStep
  rw [show s.entry e = none from h]

/-- The aging step of a record is due, and no record that precedes it has one that is due (R75, R80). -/
def State.AgesNow (s : State) (e : Nat) (v : Entry) : Prop := s.AgeDue v ∧ ∀ x ∈ s.sched.store, x.1 ≠ e → s.AgeDue x.2 → ¬ s.Ahead x.2 v

theorem agesNow_iff (s : State) (e : Nat) (v : Entry) :
    (s.ageDue v && !s.sched.store.any (fun x => x.1 != e && s.ageDue x.2 && s.precedes x.2 v)) = true ↔ s.AgesNow e v := by
  simp only [State.AgesNow, Bool.and_eq_true, Bool.not_eq_true', List.any_eq_false, bne_iff_ne, ageDue_iff, ahead_iff, not_and, and_imp]

theorem exec_agingStep_due {s : State} {e : Nat} {v : Entry} (h : Map.find s.sched.store e = some v) (hd : s.AgesNow e v) :
    exec (.agingStep e) s = .next ((s.setEntry e { v with aged := v.aged + 1 }).decision e) := by
  show execAgingStep e s = _
  unfold execAgingStep
  rw [show s.entry e = some v from h]
  exact if_pos ((agesNow_iff s e v).2 hd)

theorem exec_agingStep_waits {s : State} {e : Nat} {v : Entry} (h : Map.find s.sched.store e = some v) (hd : ¬ s.AgesNow e v) :
    exec (.agingStep e) s = .next s := by
  show execAgingStep e s = _
  unfold execAgingStep
  rw [show s.entry e = some v from h]
  exact if_neg (fun hb => hd ((agesNow_iff s e v).1 hb))

/-- s with the tick counted and the tokens of it in the queues. -/
def State.ticked (s : State) : State :=
  s.modSched (fun q => { q with ticks := q.ticks + 1, queues := q.queues.map (fun x => (x.1, x.2.tick)) })

/-- s with the aging steps that are due taken. -/
def State.aged (s : State) : State :=
  s.modSched (fun q =>
    { q with store := q.store.map (fun x => if s.ageDue x.2 then (x.1, { x.2 with aged := (s.clk - x.2.since) / msClk }) else x) })

theorem exec_tokenTick (s : State) : exec .tokenTick s = if s.clk / 940000 ≤ s.sched.ticks then .next s
    else .next (s.ticked.readyList.foldl (fun s x => s.decision x.1) s.ticked.aged) := rfl

theorem queue_ticked (s : State) (q : Nat) : s.ticked.queue q = (s.queue q).tick := by
  have hfind : Map.find s.ticked.sched.queues q = (Map.find s.sched.queues q).map Queue.tick := Map.find_map Queue.tick _ q
  unfold State.queue Map.getD
  rw [hfind]
  cases Map.find s.sched.queues q with
  | none => exact congrArg (fun n => (⟨0, 0, q / 8, n⟩ : Queue)) (Nat.zero_min _).symm
  | some x => rfl

theorem ageDue_ticked (s : State) (v : Entry) : s.ticked.ageDue v = s.ageDue v := by
  unfold State.ageDue State.basePri
  rw [queue_ticked]
  rfl

theorem find_aged (s : State) (e : Nat) : Map.find s.aged.sched.store e = (Map.find s.sched.store e).map (fun x =>
    { x with aged := if s.ageDue x then (s.clk - x.since) / 940000 else x.aged }) := by
  refine Eq.trans ?_ (Map.find_map _ s.sched.store e)
  refine congrArg (Map.find · e) (List.map_congr_left (fun x _ => ?_))
  split <;> rfl

/-! ## Reserving (R79) -/

theorem exec_reserving_none {s : State} {e : Nat} (h : Map.find s.sched.store e = none) : exec (.reserving e) s = .next s := by
  show execReserving e s = _
  unfold execReserving
  rw [show s.entry e = none from h]

/-- What makes a record wait before it reserves (R79). -/
theorem exec_reserving_waits {s : State} {e : Nat} {v : Entry} (h : Map.find s.sched.store e = some v)
    (hw : v.st ≠ .ready ∨ v.hdr = none ∨ v.resv = true ∨ s.groupOf e v = 0 ∧ s.clk < v.since + 16 * 940000) : exec (.reserving e) s = .next s := by
  show execReserving e s = _
  unfold execReserving
  rw [show s.entry e = some v from h]
  refine if_pos ?_
  rcases hw with hw | hw | hw | ⟨hg, hw⟩
  · exact .inl hw
  · exact .inr (.inl (by rw [hw]; rfl))
  · exact .inr (.inr (.inl hw))
  · have hlast : (s.reserveGroup e v).foldl (fun a x => max a x.2.since) 0 = v.since := by
      unfold State.reserveGroup; rw [if_pos hg]; exact Nat.zero_max _
    refine .inr (.inr (.inr (.inr (.inl ?_))))
    rw [hlast]
    exact hw

/-- Core k could hold a record alone (R79). -/
def State.CouldHold (s : State) (v : Entry) (h : Header) (k : Nat) : Prop :=
  s.variant.hasCore k = true ∧ s.capable v.record.qreq k = true ∧ fitsWith k h .zero = true

theorem couldHold_iff {s : State} {v : Entry} {h : Header} {k : Nat} :
    (s.variant.hasCore k && s.capable v.record.qreq k && fitsWith k h .zero) = true ↔ s.CouldHold v h k := by
  simp only [State.CouldHold, Bool.and_eq_true, and_assoc]

/-- The cores of a chiplet. -/
def coresOf (pos : Nat) : List Nat := (List.range 32).map (fun i => 32 * pos + i)

theorem mem_coresOf {pos k : Nat} : k ∈ coresOf pos ↔ k / 32 = pos := by
  simp only [coresOf, List.mem_map, List.mem_range]
  exact ⟨fun ⟨i, hi, hk⟩ => by omega, fun hk => ⟨k % 32, by omega, by omega⟩⟩

theorem coresOf_sorted (pos : Nat) : (coresOf pos).Pairwise (· < ·) :=
  List.pairwise_map.2 (List.pairwise_lt_range.imp (fun h => by omega))

section Reserve
variable {s : State} {e : Nat} {v : Entry} {h : Header} (hh : v.hdr = some h) (hg : s.groupOf e v = 0)
include hh hg

theorem reserveCore_alone (g : List (Nat × Entry)) (pos : Nat) : s.reserveCore e v g pos =
    (coresOf pos).find? (fun k => s.variant.hasCore k && s.capable v.record.qreq k && fitsWith k h .zero) := by
  unfold State.reserveCore
  rw [if_pos hg, hh]
  rfl

theorem reserveCore_first {g : List (Nat × Entry)} {pos k : Nat} (hk : k / 32 = pos) (hc : s.CouldHold v h k)
    (hfirst : ∀ c, c / 32 = pos → c < k → ¬ s.CouldHold v h c) : s.reserveCore e v g pos = some k := by
  rw [reserveCore_alone hh hg, List.find?_eq_findSome?_guard]
  refine findSome_first _ _ (coresOf_sorted pos) k k (mem_coresOf.2 hk) ?_ (fun c hc hlt => ?_)
  · rw [Option.guard_eq_some_iff, couldHold_iff]; exact ⟨rfl, hc⟩
  · rw [Option.guard_eq_none_iff, Bool.eq_false_iff, Ne, couldHold_iff]
    exact hfirst c (mem_coresOf.1 hc) hlt

theorem reserveCore_none {g : List (Nat × Entry)} {pos : Nat} (hn : ∀ c, c / 32 = pos → ¬ s.CouldHold v h c) : s.reserveCore e v g pos = none := by
  rw [reserveCore_alone hh hg, List.find?_eq_none]
  intro c hc
  rw [couldHold_iff]
  exact hn c (mem_coresOf.1 hc)

/-- A record alone reserves the first core that could hold it, on the first chiplet that has one and no mark (R79). -/
theorem exec_reserving_marks (hv : Map.find s.sched.store e = some v) (hr : v.st = .ready) (hn : v.resv = false)
    (hl : v.since + 16 * 940000 ≤ s.clk) {pos k : Nat} (hp : pos < 8) (hk : k / 32 = pos) (hc : s.CouldHold v h k)
    (hm : Map.find s.sched.marks pos = none) (hfirst : ∀ c, c / 32 = pos → c < k → ¬ s.CouldHold v h c)
    (hlow : ∀ p, p < pos → (Map.find s.sched.marks p).isSome = true ∨ ∀ c, c / 32 = p → ¬ s.CouldHold v h c) :
    exec (.reserving e) s = .next ((s.modSched (fun q => { q with marks := Map.put q.marks pos (e, k) })).setEntry e { v with resv := true }) := by
  have hgrp : s.reserveGroup e v = [(e, v)] := if_pos hg
  have hfind : (List.range 8).findSome? (fun pos => if (Map.find s.sched.marks pos).isSome then none
      else (s.reserveCore e v [(e, v)] pos).map (fun k => (pos, k))) = some (pos, k) := by
    refine findSome_first _ _ List.pairwise_lt_range pos _ (List.mem_range.2 hp) ?_ (fun p _ hlt => ?_)
    · rw [hm, reserveCore_first hh hg hk hc hfirst]; rfl
    · rcases hlow p hlt with hs | hno
      · exact if_pos hs
      · rw [reserveCore_none hh hg hno]; split <;> rfl
  show execReserving e s = _
  unfold execReserving
  rw [show s.entry e = some v from hv]
  dsimp only
  rw [hgrp, if_neg ?waits, hfind]
  case waits =>
    simp only [hr, hh, hn, msClk, List.foldl_cons, List.foldl_nil, Nat.zero_max, List.any_cons, List.any_nil, ne_eq, not_true_eq_false,
      Option.isNone_some, Bool.false_eq_true, reduceCtorEq, Bool.or_false, false_or, or_false]
    omega
end Reserve

/-- Settles O55: each event from its equation, with the tests of the model read as those of the statement. -/
theorem dispatchAndAging : Obligations.DispatchAndAging := by
  unfold Obligations.DispatchAndAging
  refine ⟨fun s pos h => exec_dispatch_none (firstPick_none h), fun s pos cid p hpos hfree hp hfirst =>
    exec_dispatch_some (firstPick_some hpos hfree hp hfirst), fun s cid ho hb => ⟨pick_none ho hb, fun x hx hm => pick_best ho hb hx hm⟩,
    fun s e cid v h hv hi hh hl hk => ?start, fun s e => ⟨exec_agingStep_none, fun v hv => ⟨exec_agingStep_due hv, exec_agingStep_waits hv⟩⟩,
    fun s => ⟨fun ht => ?_, fun ht => ?tick⟩, fun s e => ⟨exec_reserving_none, fun v hv => ⟨exec_reserving_waits hv, ?_⟩⟩⟩
  case start =>
    have hplace := place_starts (cid := cid) hv hi hh hl hk
    obtain ⟨hctx, hsched, hothers, hmem, hcore⟩ := starts_spec (s.wbInv (cid / 2))
      (Sched.assigned e cid { v with st := .running cid, prio := s.level v, disp := s.clk }) cid _ (wakeNow_startOf s e v h false)
    rw [hplace]
    dsimp only at hctx hsched hothers hmem hcore ⊢
    rw [hsched, hctx, hmem, hcore]
    refine ⟨rfl, Map.find_put_same _ _ _, fun x hx => ?_, hothers, rfl, (State.wbInv_moves s _).2⟩
    exact (Map.find_put_other _ _ hx).trans (by rw [State.sched_wbInv])
  case tick =>
    rw [exec_tokenTick, if_neg (by omega)]
    refine ⟨s.ticked.aged, s.ticked, rfl, rfl, fun q => queue_ticked s q, rfl, fun e => ?_⟩
    have h := find_aged s.ticked e
    simp only [ageDue_ticked] at h
    exact h
  · rw [exec_tokenTick, if_pos ht]
  · exact fun h pos k hr hh hn hg hl hp hk hc hm hfirst hlow => exec_reserving_marks hh hg hv hr hn hl hp hk hc hm hfirst hlow

end Sys2Proof.Machine
end

section
/-! PROOF. Saved images, the start of a handler and the watchdog (R85, R100, R216, R218, R219, R227, R233, R237, R238). -/

namespace Sys2Proof.Machine

open Sys2Proof

/-! ## The completion of an image (R85, R227, R233) -/

theorem saveComplete_none {s : State} {e : Nat} (h : Map.find s.sched.store e = none ∨ Map.find s.images e = none) :
    exec (.saveComplete e) s = .next s := by
  show execSaveComplete e s = _
  unfold execSaveComplete
  cases hv : s.entry e with
  | none => rfl
  | some v => rw [h.resolve_left (fun hn => by rw [show s.entry e = none from hn] at hv; cases hv)]

section
variable {s : State} {e : Nat} {v : Entry} {im : Saved} (hv : Map.find s.sched.store e = some v) (hi : Map.find s.images e = some im)
include hv hi

theorem saveComplete_waits (h : v.st ≠ .saved ∨ v.saveDone = true ∨ s.awaitsClus im = true) : exec (.saveComplete e) s = .next s := by
  show execSaveComplete e s = _
  unfold execSaveComplete
  rw [show s.entry e = some v from hv, hi]
  exact if_pos (by simpa [or_assoc] using h)

/-- A complete image of a task goes on with its bunch, or alone. -/
theorem saveComplete_goes {t : Task} (hs : v.st = .saved) (hd : v.saveDone = false) (hc : s.awaitsClus im = false) (ht : im.ctx.task = some t) :
    exec (.saveComplete e) s = .next (if t.member then (s.finishSave e).settleSaved t.bunch
      else (s.finishSave e).savedOne e { v with saveDone := true } im.reason) := by
  show execSaveComplete e s = _
  unfold execSaveComplete
  rw [show s.entry e = some v from hv, hi]
  dsimp only
  rw [if_neg (by simp [hs, hd, hc]), ht]
  dsimp only
  split <;> rfl
end

/-- What a context that a save frees, and its offer to a newcomer, leave of the images, the store and the contexts (R85). -/
theorem victimGone_frame (s : State) (e cid : Nat) : (s.victimGone e cid).images = s.images ∧ (s.victimGone e cid).sched.store = s.sched.store ∧
    (s.victimGone e cid).ctxs = s.ctxs ∧ (s.victimGone e cid).sched.bunches = s.sched.bunches := by
  unfold State.victimGone
  split
  · exact ⟨rfl, rfl, rfl, rfl⟩
  · unfold State.offer; dsimp only; split <;> exact ⟨rfl, rfl, rfl, rfl⟩

theorem images_vacate (s : State) (cid : Nat) : (s.vacate cid).images = s.images := by
  have h : (((s.setCtx cid .fresh).detach cid).wakeCore cid).images = s.images := rfl
  unfold State.vacate
  generalize ((s.setCtx cid .fresh).detach cid).wakeCore cid = x at h
  exact h

/-- Freeing the context that an image still holds leaves the images, the entries and the bunches (R85). -/
theorem freed_frame (w : State) (e cid : Nat) : ((w.vacate cid).victimGone e cid).images = w.images ∧
    ((w.vacate cid).victimGone e cid).sched.store = w.sched.store ∧ ((w.vacate cid).victimGone e cid).sched.bunches = w.sched.bunches ∧
    ((w.vacate cid).victimGone e cid).ctx cid = .fresh := by
  obtain ⟨himg, hstore, hctxs, hbunches⟩ := victimGone_frame (w.vacate cid) e cid
  rw [images_vacate] at himg
  rw [State.sched_vacate] at hstore hbunches
  exact ⟨himg, hstore, hbunches, (congrArg (fun m : Map Ctx => Map.getD m cid Ctx.fresh) hctxs).trans (State.ctx_vacate w cid)⟩

/-- s with an image complete: its header is formed and its entry marked done. -/
def State.sealed (s : State) (e : Nat) (v : Entry) (im : Saved) : State :=
  { s.setEntry e { v with saveDone := true } with images := Map.put s.images e { im with hdr := some (im.header v.launch) } }

section
variable {s : State} {e : Nat} {v : Entry} {im : Saved} (hv : Map.find s.sched.store e = some v) (hi : Map.find s.images e = some im)
include hv hi

theorem sealImage_eq : (s.modEntry e (fun v => { v with saveDone := true })).sealImage e = s.sealed e v im := by
  have hmod : s.modEntry e (fun v => { v with saveDone := true }) = s.setEntry e { v with saveDone := true } := by
    unfold State.modEntry; rw [show s.entry e = some v from hv]
  have hent : (s.setEntry e { v with saveDone := true }).entry e = some { v with saveDone := true } := Map.find_put_same _ _ _
  have him : Map.find (s.setEntry e { v with saveDone := true }).images e = some im := hi
  rw [hmod]
  unfold State.sealImage
  rw [hent, him]
  rfl

theorem finishSave_free (hh : s.huskOf e = none) : s.finishSave e = s.sealed e v im := by
  unfold State.finishSave
  rw [sealImage_eq hv hi]
  dsimp only
  rw [show (s.sealed e v im).huskOf e = none from hh]

theorem finishSave_frees {cid : Nat} (hh : s.huskOf e = some cid) : s.finishSave e = ((s.sealed e v im).vacate cid).victimGone e cid := by
  unfold State.finishSave
  rw [sealImage_eq hv hi]
  dsimp only
  rw [show (s.sealed e v im).huskOf e = some cid from hh]

/-- What the completion of an image leaves of the images, the entries and the bunches. -/
theorem finishSave_frame : (s.finishSave e).images = (s.sealed e v im).images ∧ (s.finishSave e).sched.store = (s.sealed e v im).sched.store ∧
    (s.finishSave e).sched.bunches = s.sched.bunches := by
  cases hh : s.huskOf e with
  | none => rw [finishSave_free hv hi hh]; exact ⟨rfl, rfl, rfl⟩
  | some cid =>
    rw [finishSave_frees hv hi hh]
    obtain ⟨himg, hstore, hbunches, -⟩ := freed_frame (s.sealed e v im) e cid
    exact ⟨himg, hstore, hbunches⟩

theorem finishSave_image : Map.find (s.finishSave e).images e = some { im with hdr := some (im.header v.launch) } := by
  rw [(finishSave_frame hv hi).1]; exact Map.find_put_same _ _ _

theorem finishSave_entry : Map.find (s.finishSave e).sched.store e = some { v with saveDone := true } := by
  rw [(finishSave_frame hv hi).2.1]; exact Map.find_put_same _ _ _

theorem finishSave_ctx {cid : Nat} (hh : s.huskOf e = some cid) : (s.finishSave e).ctx cid = .fresh := by
  rw [finishSave_frees hv hi hh]
  exact (freed_frame (s.sealed e v im) e cid).2.2.2
end

/-- A task alone whose image no migration restores is ready again (R85). -/
theorem savedOne_ready {u : State} {e reason : Nat} {v : Entry} (h : reason ≠ 1 ∨ u.migTarget v = none) : u.savedOne e v reason = u.ready e := by
  unfold State.savedOne
  split
  · rw [h.resolve_left (not_not_intro ‹_›)]
  · rfl

/-- One that migrates is restored on its target, and keeps the priority of its dispatch (R75, R237). -/
theorem savedOne_migrates {u : State} {e cid : Nat} {v : Entry} (h : u.migTarget v = some cid) :
    u.savedOne e v 1 = (u.placeTask e cid false).modEntry e (fun x => { x with prio := v.prio }) := by
  unfold State.savedOne
  rw [if_pos rfl, h]
  rfl

/-- A bunch whose members still hold contexts waits for them (R238). -/
theorem settleSaved_held {u : State} {h : Nat} {b : Bunch} (hb : Map.find u.sched.bunches h = some b) (hm : b.members ≠ []) :
    u.settleSaved h = u := by
  have hheld : u.bunchHeld h = true := by
    unfold State.bunchHeld
    rw [show u.bunch h = some b from hb]
    simpa using hm
  unfold State.settleSaved
  dsimp only
  rw [hheld]
  exact if_pos (by simp)

/-! ## The start of a handler (R216, R218, R219) -/

/-- The handler of the context may start: the context has stopped, its trap core is free, and context 0 is not served first (R216). -/
def State.HandlerMayStart (s : State) (cid : Nat) : Prop := s.stopped cid = true ∧ (s.core (cid / 2)).trap.serving = none ∧ s.yieldsTo cid = false

theorem handlerMayStart_iff (s : State) (cid : Nat) :
    (s.stopped cid && (s.core (cid / 2)).trap.serving.isNone && !s.yieldsTo cid) = true ↔ s.HandlerMayStart cid := by
  simp only [State.HandlerMayStart, Bool.and_eq_true, Bool.not_eq_true', Option.isNone_iff_eq_none, and_assoc]

theorem handlerStart_waits {s : State} (h : ¬ s.HandlerMayStart s.cur.cid) : exec .handlerStart s = .next s :=
  if_neg (fun hb => h ((handlerMayStart_iff s _).1 hb))

theorem handlerStart_goes {s : State} (h : s.HandlerMayStart s.cur.cid) : exec .handlerStart s = .next (s.startHandler s.cur.cid) :=
  if_pos ((handlerMayStart_iff s _).2 h)

/-- The trap state of a context whose handler starts on a cause: the causes that a retry raises again go, and the others are held (R218). -/
def TrapSt.handled (t : TrapSt) (ch : Cause) : TrapSt :=
  { t with phase := .handler, causes := (t.causes.erase ch).filter Cause.once, frame := some ch.f, pend := pendOf t.causes, ssw := 0 }

/-- The trap core that begins to serve a context at an address (R216). -/
def TrapCore.begun (k : TrapCore) (clk cid : Nat) (pc : Word) (fw : Bool) : TrapCore :=
  { k with serving := some cid, tact := 0, firmware := fw,
           sc := { k.sc.settle clk with pc := pc, hold := .none, pend := [], bundle := none, nextIssue := clk + 1 } }

theorem startHandler_begins {s : State} {cid : Nat} {ch : Cause} {b : List Byte} (hl : (s.ctx cid).leaving = false)
    (hc : chooseCause (s.ctx cid).trap.causes = some ch) (hb : s.handlerAt (cid / 2) ch.f.code = .bytes b) :
    s.startHandler cid = (s.modCtx cid (fun c => { c with trap := c.trap.handled ch })).modCore (cid / 2)
      (fun k => { k with trap := k.trap.begun s.clk cid (leWord b) (s.byFirmware (cid / 2)) }) := by
  unfold State.startHandler
  rw [hl]
  dsimp only
  rw [if_neg (by decide), hc]
  dsimp only
  rw [hb]
  rfl

theorem byFirmware_iff (s : State) (k : Nat) : s.byFirmware k = true ↔ (s.core k).tvec.getD firmwareTvec = firmwareTvec := beq_iff_eq

/-! ## The watchdog (R100) -/

/-- S has stood at the bound of R97 for 10 ms, and nothing has frozen it. -/
def State.WatchDue (s : State) (cid : Nat) : Prop :=
  ∃ t, (s.ctx cid).sc.boundSince = some t ∧ (s.ctx cid).atBound = true ∧ (s.ctx cid).trap.phase = .none ∧ t + 9400000 ≤ s.clk

theorem watchDue_iff {s : State} {cid t : Nat} (ht : (s.ctx cid).sc.boundSince = some t) :
    ((s.ctx cid).atBound && (s.ctx cid).trap.phase == .none && decide (t + watchClk ≤ s.clk)) = true ↔ s.WatchDue cid := by
  rw [Bool.and_eq_true, Bool.and_eq_true, decide_eq_true_iff, beq_iff_eq, and_assoc]
  refine ⟨fun h => ⟨t, ht, h⟩, fun ⟨t', ht', h⟩ => ?_⟩
  obtain rfl : t = t' := Option.some.inj (ht.symm.trans ht')
  exact h

theorem exec_watchdog_some {s : State} {t : Nat} (ht : (s.ctx s.cur.cid).sc.boundSince = some t) : exec .watchdog s =
    if ((s.ctx s.cur.cid).atBound && (s.ctx s.cur.cid).trap.phase == .none && decide (t + watchClk ≤ s.clk)) = true
      then .next (s.raise s.cur.cid (.of 0x0D 0 0 0 0 (s.ctx s.cur.cid).sc.pc)) else .next s := by
  show execWatchdog s = _
  unfold execWatchdog State.me
  dsimp only
  rw [ht]

theorem watchdog_raises {s : State} (h : s.WatchDue s.cur.cid) :
    exec .watchdog s = .next (s.raise s.cur.cid (.of 0x0D 0 0 0 0 (s.ctx s.cur.cid).sc.pc)) := by
  obtain ⟨t, ht, -⟩ := id h
  rw [exec_watchdog_some ht, if_pos ((watchDue_iff ht).2 h)]

theorem watchdog_waits {s : State} (h : ¬ s.WatchDue s.cur.cid) : exec .watchdog s = .next s := by
  cases ht : (s.ctx s.cur.cid).sc.boundSince with
  | none =>
    show execWatchdog s = _
    unfold execWatchdog State.me
    dsimp only
    rw [ht]
  | some t => rw [exec_watchdog_some ht, if_neg (fun hb => h ((watchDue_iff ht).1 hb))]

/-- Settles O56: an image's completion by what `finishSave` leaves, the start of a handler by the state it begins in, and the watchdog by its test. -/
theorem savesAndHandlers : Obligations.SavesAndHandlers := by
  unfold Obligations.SavesAndHandlers
  refine ⟨fun s e => ⟨saveComplete_none, fun v im hv hi => ⟨saveComplete_waits hv hi, ⟨im.header v.launch, finishSave_image hv hi, rfl, rfl, rfl, rfl⟩,
    ⟨finishSave_entry hv hi, fun cid hh => finishSave_ctx hv hi hh⟩, fun hs hd hc => ⟨fun t ht hm hr => ?alone, fun t cid ht hm hr hg => ?migrates,
    fun t ht hm ⟨b, hb, hne⟩ => ?member⟩⟩⟩, fun s => ⟨handlerStart_waits, fun ch b hmay hl hc hb => ?handler⟩,
    fun s => ⟨watchdog_waits, fun hdue => ⟨_, watchdog_raises hdue, ?watch⟩⟩⟩
  case alone => rw [saveComplete_goes hv hi hs hd hc ht, hm, savedOne_ready hr]; rfl
  case migrates => rw [saveComplete_goes hv hi hs hd hc ht, hm, hr, savedOne_migrates hg]; rfl
  case member => rw [saveComplete_goes hv hi hs hd hc ht, hm, settleSaved_held hb hne]; rfl
  case handler =>
    refine ⟨_, (handlerStart_goes hmay).trans (congrArg _ (startHandler_begins hl hc hb)), ?_⟩
    simp only [State.core_modCore_same, State.ctx_modCore]
    refine ⟨State.ctx_modCtx_same _ _ _, rfl, rfl, rfl, rfl, rfl, byFirmware_iff s _, rfl, rfl, fun c hc => ?_⟩
    exact (State.ctx_modCtx _ _ _ _).trans (if_neg hc)
  case watch =>
    obtain ⟨t, -, -, hp, -⟩ := hdue
    exact raise_traps s s.cur.cid _ hp

end Sys2Proof.Machine
end

section
/-! PROOF. Results on their way to the scalar registers (R103, R104, R265, R285). -/

namespace Sys2Proof.Machine

open Sys2Proof

/-! ## Reading a register with results on their way -/

theorem reg_of_landed {sc : Scalar} {c r : Nat} {v : Word} (h : landedVal sc.land c r = some v) (h0 : r ≠ 0) : sc.reg c r = v := by
  unfold Scalar.reg; rw [if_neg h0, h]; rfl

theorem pred_of_landed {sc : Scalar} {c p : Nat} {v : Word} (h : landedVal sc.land c (64 + p) = some v) : sc.pred c p = (v != 0) := by
  unfold Scalar.pred; rw [h]

/-- A register file with other results on their way reads the same where these give the register no other value. -/
theorem reg_congr {sc sd : Scalar} (hs : sd.s = sc.s) {c r : Nat} (h : landedVal sd.land c r = landedVal sc.land c r) :
    sd.reg c r = sc.reg c r := by
  unfold Scalar.reg; rw [hs, h]

theorem pred_congr {sc sd : Scalar} (hk : sd.k = sc.k) {c p : Nat} (h : landedVal sd.land c (64 + p) = landedVal sc.land c (64 + p)) :
    sd.pred c p = sc.pred c p := by
  unfold Scalar.pred; rw [hk, h]

/-! ## One more result on its way -/

section LandAfter

variable (sc : Scalar) (clk rd : Nat) (v : Word) (lat : Nat)

theorem landAfter_of_ne (h : rd ≠ 0) : sc.landAfter clk rd v lat = addLanding ⟨clk + lat, sc.seq, rd, v, false⟩ sc.land := if_neg h

theorem landAfter_sorted (h : sc.land.Pairwise (fun a b => a.clk ≤ b.clk)) :
    (sc.landAfter clk rd v lat).Pairwise (fun a b => a.clk ≤ b.clk) := by
  unfold Scalar.landAfter
  split
  · exact h
  · exact sorted_addLanding _ _ h

theorem landAfter_same (hs : sc.land.Pairwise (fun a b => a.clk ≤ b.clk)) (hl : ∀ l ∈ sc.land, l.reg = rd → l.clk ≤ clk + lat) {c : Nat}
    (hc : clk + lat ≤ c) (h0 : rd ≠ 0) : landedVal (sc.landAfter clk rd v lat) c rd = some v := by
  rw [landAfter_of_ne _ _ _ _ _ h0]
  exact landedVal_add_same ⟨clk + lat, sc.seq, rd, v, false⟩ sc.land c hs hl hc

theorem landAfter_other {c r : Nat} (h : r ≠ rd ∨ c < clk + lat) : landedVal (sc.landAfter clk rd v lat) c r = landedVal sc.land c r := by
  unfold Scalar.landAfter
  split
  · rfl
  · exact landedVal_add_other _ _ _ _ h

end LandAfter

/-! ## One of variable latency, which takes the earlier ones off their way (R285) -/

theorem landedVal_filter {ls : List Landing} {c r rd : Nat} (h : r ≠ rd) :
    landedVal (ls.filter (fun l => l.reg != rd)) c r = landedVal ls c r := by
  induction ls with
  | nil => rfl
  | cons l ls ih =>
    rw [List.filter_cons]
    split
    · simp only [landedVal, ih]
    · rename_i hl
      have hr : ¬ (l.reg = r ∧ l.clk ≤ c) := fun hx => hl (by simp [hx.1, h])
      rw [ih, landedVal, if_neg hr]
      cases landedVal ls c r <;> rfl

section LandVar

variable (sc : Scalar) (clk rd : Nat) (v : Word)

theorem landVar_of_ne (h : rd ≠ 0) :
    sc.landVar clk rd v = addLanding ⟨clk + 1, sc.seq, rd, v, true⟩ (sc.land.filter (fun l => l.reg != rd)) := if_neg h

theorem landVar_sorted (h : sc.land.Pairwise (fun a b => a.clk ≤ b.clk)) : (sc.landVar clk rd v).Pairwise (fun a b => a.clk ≤ b.clk) := by
  unfold Scalar.landVar
  split
  · exact h
  · exact sorted_addLanding _ _ (h.filter _)

theorem landVar_same (hs : sc.land.Pairwise (fun a b => a.clk ≤ b.clk)) {c : Nat} (hc : clk + 1 ≤ c) (h0 : rd ≠ 0) :
    landedVal (sc.landVar clk rd v) c rd = some v := by
  have hnone : ∀ l ∈ sc.land.filter (fun l => l.reg != rd), l.reg = rd → l.clk ≤ clk + 1 := fun l hl hr => by simp [hr] at hl
  rw [landVar_of_ne _ _ _ _ h0]
  exact landedVal_add_same ⟨clk + 1, sc.seq, rd, v, true⟩ _ c (hs.filter _) hnone hc

theorem landVar_other {c r : Nat} (h : r ≠ rd) : landedVal (sc.landVar clk rd v) c r = landedVal sc.land c r := by
  unfold Scalar.landVar
  split
  · rfl
  · exact (landedVal_add_other _ _ _ _ (.inl h)).trans (landedVal_filter h)

theorem landVar_mem (h : rd ≠ 0) : ⟨clk + 1, sc.seq, rd, v, true⟩ ∈ sc.landVar clk rd v := by
  rw [landVar_of_ne _ _ _ _ h]; exact (mem_addLanding _ _ _).2 (.inl rfl)

end LandVar

/-- A result of variable latency that has not landed makes its register pending. -/
theorem pending_of_landing {sc : Scalar} {l : Landing} (hl : l ∈ sc.land) (hv : l.var = true) (h0 : l.reg ≠ 0) {c : Nat} (hc : c < l.clk) :
    sc.pending c l.reg = true := by
  have hany : sc.land.any (fun x => x.var && x.reg == l.reg && decide (c < x.clk)) = true :=
    List.any_eq_true.2 ⟨l, hl, by simp [hv, hc]⟩
  unfold Scalar.pending
  rw [hany, Bool.or_true, Bool.and_true]
  exact bne_iff_ne.2 h0

/-- The parts of the register file after an instruction that puts results on their way. -/
theorem LandsTo.registers {s t : State} {land : List Landing} {st extra : Nat} {next : Word} (h : s.LandsTo t land st extra next) :
    t.sca.land = land ∧ t.sca.s = s.sca.s ∧ t.sca.k = s.sca.k := by
  rw [h.scalar]; exact ⟨rfl, rfl, rfl⟩

/-- Settles O7: a result, or one of variable latency, by where it stands among those on their way. -/
theorem resultsLand : Obligations.ResultsLand := by
  unfold Obligations.ResultsLand
  refine ⟨fun s t rd v lat st extra next hg hs hl => ?fixed, fun s t rd v st hg hs => ?varying⟩
  case fixed =>
    obtain ⟨hland, hregs, hpreds⟩ := LandsTo.registers hg
    have hsame : ∀ c, s.clk + lat ≤ c → rd ≠ 0 → landedVal t.sca.land c rd = some v :=
      fun c hc h0 => hland ▸ landAfter_same _ _ _ v _ hs hl hc h0
    have hother : ∀ c r, r ≠ rd ∨ c < s.clk + lat → landedVal t.sca.land c r = landedVal s.sca.land c r :=
      fun c r h => hland ▸ landAfter_other _ _ _ v _ h
    refine ⟨hland ▸ landAfter_sorted _ _ _ _ _ hs, fun _ => rfl, fun c hc h0 => reg_of_landed (hsame c hc h0) h0, fun c p hc hp => ?_,
      fun c r _ h => reg_congr hregs (hother c r h),
      fun c p h => pred_congr hpreds (hother c (64 + p) h)⟩
    subst hp
    exact pred_of_landed (hsame c hc (by omega))
  case varying =>
    obtain ⟨hland, hregs, hpreds⟩ := LandsTo.registers hg
    have hother : ∀ c r, r ≠ rd → landedVal t.sca.land c r = landedVal s.sca.land c r := fun c r h => hland ▸ landVar_other _ _ _ v h
    refine ⟨hland ▸ landVar_sorted _ _ _ _ hs, fun _ => rfl, fun c hc h0 => reg_of_landed (hland ▸ landVar_same _ _ _ v hs hc h0) h0,
      fun c hc h0 => ?_, fun c r _ h => reg_congr hregs (hother c r h),
      fun c p h => pred_congr hpreds (hother c (64 + p) h)⟩
    exact pending_of_landing (hland ▸ landVar_mem _ _ _ v h0) rfl h0 (Nat.lt_succ_of_le hc)

end Sys2Proof.Machine
end

section
/-! PROOF. What follows S, and what waits for registers (R92, R94, R96, R103). -/

namespace Sys2Proof.Machine

open Sys2Proof

/-! ## Trailing streams follow (R92, R94) -/

theorem follow_main {s : State} (hm : s.OnMain) : s.follow = s.modMe (fun c => c.modEng (fun g => g.follow s.trail)) := by
  unfold State.follow; rw [show s.cur.agent = .S from hm]; rfl

/-- Each trailing stream's queue grows by the entry unless it is empty. -/
theorem follow_q (g : Engines) (e : QEnt) {a : Agent} (ha : a ∈ [Agent.C, .M, .R, .K]) :
    (g.follow e).q a = if g.q a = [] then [] else g.q a ++ [e] := by
  have hput : ∀ q : List QEnt, (if q.isEmpty then q else q ++ [e]) = if q = [] then [] else q ++ [e] := fun q => by cases q <;> rfl
  cases a <;> simp at ha <;> exact hput _

theorem follow_follows {s : State} (hm : s.OnMain) : s.Follows s.follow := by
  rw [follow_main hm]
  have hme := modMe_me s (fun c => c.modEng (fun g => g.follow s.trail))
  refine ⟨fun a ha => ?_, ?_, fun c hc => ?_, rfl, fun _ => rfl⟩
  · rw [hme]; exact follow_q s.me.eng s.trail ha
  · rw [hme]; rfl
  · unfold State.modMe; rw [State.ctx_modCtx, if_neg hc]

/-- Settles O9, by the agent at the cursor. -/
theorem controlFlowFollows : Obligations.ControlFlowFollows := by
  unfold Obligations.ControlFlowFollows
  refine ⟨fun s hm => follow_follows hm, fun s ha => ?_⟩
  unfold State.follow
  rcases ha with ha | ha <;> rw [ha]

/-! ## Waiting for a pending register (R96, R103) -/

theorem here_of_not_held {s : State} {rs : List Nat} (h : s.held rs = false) : s.Here rs := by
  unfold State.held at h
  rw [List.any_eq_false] at h
  intro r hr h0
  have hp := h r hr
  unfold Scalar.pending at hp
  simp only [Bool.and_eq_true, Bool.or_eq_true, List.any_eq_true, bne_iff_ne, List.contains_eq_mem, decide_eq_true_eq, beq_iff_eq, not_and, not_or,
    not_exists] at hp
  obtain ⟨hpend, hland⟩ := hp h0
  exact ⟨hpend, fun l hl hreg hvar => Nat.le_of_not_lt (hland l hl ⟨hvar, hreg⟩)⟩

theorem held_of_not_here {s : State} {rs : List Nat} (h : ¬ s.Here rs) : s.held rs = true :=
  Bool.eq_true_of_not_eq_false (fun hf => h (here_of_not_held hf))

theorem issue_waits {s : State} {srcs : List Nat} {dst : Option (Nat × Nat)} (h : ¬ s.Here (srcs ++ dst.toList.map Prod.fst)) (k : Res) :
    s.issue srcs dst k = .next s := by
  unfold State.issue
  cases dst <;> exact if_pos (held_of_not_here h)

theorem issueVar_waits {s : State} {srcs dsts : List Nat} (h : ¬ s.Here (srcs ++ dsts)) (k : Res) : s.issueVar srcs dsts k = .next s := by
  unfold State.issueVar
  cases hd : s.held dsts with
  | true => rfl
  | false =>
    rw [if_neg Bool.false_ne_true]
    refine issue_waits (fun hs => h ?_) k
    rw [Option.toList_none, List.map_nil, List.append_nil] at hs
    exact hs.append (here_of_not_held hd)

theorem result_waits {s : State} {srcs : List Nat} {rd : Nat} (h : ¬ s.Here (srcs ++ [rd])) (st : Nat) (v : Word) (lat : Nat) :
    s.result st srcs rd v lat = .next s := issue_waits (dst := some (rd, lat)) h _

theorem resultVar_waits {s : State} {srcs : List Nat} {rd : Nat} (h : ¬ s.Here (srcs ++ [rd])) (st : Nat) (v : Word) :
    s.resultVar st srcs rd v = .next s := issueVar_waits h _

/-! ### The rows as results of their operands -/

theorem intRows_result : ∀ row ∈ intRows, ∀ (o : R3w) (s : State), ∃ v lat, exec (row.1 o) s = s.result o.st [o.ra, o.rb] o.rd v lat := by
  unfold intRows
  simp only [List.forall_mem_cons, List.not_mem_nil, false_implies, implies_true, and_true]
  and_intros
  all_goals exact fun o s => ⟨_, _, rfl⟩

theorem divRows_result : ∀ row ∈ divRows, ∀ (o : R3w) (s : State), ∃ v, exec (row.1 o) s = s.resultVar o.st [o.ra, o.rb] o.rd v := by
  unfold divRows
  simp only [List.forall_mem_cons, List.not_mem_nil, false_implies, implies_true, and_true]
  and_intros
  all_goals exact fun o s => ⟨_, rfl⟩

theorem immRows_result : ∀ row ∈ immRows, ∀ (o : RIw) (s : State), ∃ v lat, exec (row.1 o) s = s.result o.st [o.ra] o.rd v lat := by
  unfold immRows
  simp only [List.forall_mem_cons, List.not_mem_nil, false_implies, implies_true, and_true]
  and_intros
  all_goals exact fun o s => ⟨_, _, rfl⟩

theorem floatRows_result : ∀ row ∈ floatRows, ∀ (o : F3) (s : State), ∃ v lat, exec (row.1 o) s = s.result o.st [o.ra, o.rb] o.rd v lat := by
  unfold floatRows
  simp only [List.forall_mem_cons, List.not_mem_nil, false_implies, implies_true, and_true]
  and_intros
  all_goals exact fun o s => ⟨_, _, rfl⟩

theorem exec_st_waits {o : StF} {s : State} (hm : s.OnMain) (h : ¬ s.Here [o.ra, o.rt]) : exec (.st o) s = .next s := by
  show execSt o s = _
  unfold execSt State.storeOp State.notHelperSt
  rw [if_neg (by rw [show s.cur.agent = .S from hm]; decide)]
  exact issue_waits (srcs := [o.ra, o.rt]) (dst := none) h _

/-- The registers of svc's results are among its arguments (R336). -/
theorem exec_svc_waits {o : ImmF} {s : State} (hm : s.OnMain) (h : ¬ s.Here [4, 5, 6, 7]) : exec (.svc o) s = .next s := by
  show execSvc o s = _
  unfold execSvc
  rw [mainOnly_main hm]
  refine issueVar_waits (fun hh => h fun r hr => hh r ?_) _
  exact List.mem_append_left _ hr

/-- Settles O13: every row issues with its sources and its destination, of which one is pending. -/
theorem pendingRegistersWait : Obligations.PendingRegistersWait := by
  unfold Obligations.PendingRegistersWait
  refine ⟨fun row hrow o s h => ?int, fun row hrow o s h => ?div, fun row hrow o s h => ?imm, fun row hrow o s h => ?float,
    fun o s h => issueVar_waits (srcs := [o.ra]) (dsts := [o.rt]) h _, fun o s hm h => exec_st_waits hm h, fun o s hm h => exec_svc_waits hm h⟩
  case int => obtain ⟨v, lat, hv⟩ := intRows_result row hrow o s; exact hv.trans (result_waits h o.st v lat)
  case div => obtain ⟨v, hv⟩ := divRows_result row hrow o s; exact hv.trans (resultVar_waits h o.st v)
  case imm => obtain ⟨v, lat, hv⟩ := immRows_result row hrow o s; exact hv.trans (result_waits h o.st v lat)
  case float => obtain ⟨v, lat, hv⟩ := floatRows_result row hrow o s; exact hv.trans (result_waits h o.st v lat)

end Sys2Proof.Machine
end

section
/-! PROOF. sync, mark and pref, and loads that enter their queue (R95, R103, R135, R140, R144, R147, R302-R306). -/

namespace Sys2Proof.Machine

open Sys2Proof

/-! ## sync and mark (R95, R147) -/

theorem idle_iff (g : Engines) : g.idle = true ↔ (∀ a ∈ [Agent.C, .M, .R, .K], g.q a = []) ∧ g.cmds = [] := by
  unfold Engines.idle
  simp only [Bool.and_eq_true, List.isEmpty_iff, List.forall_mem_cons, List.not_mem_nil, false_implies, implies_true, and_true, Engines.q, and_assoc]

/-- The rendezvous of the five streams is complete exactly when nothing is left of the clks before (R95). -/
theorem met_iff (s : State) : s.me.eng.met s.clk = true ↔ s.Met := by
  unfold Engines.met
  rw [Bool.and_eq_true, Bool.and_eq_true, idle_iff, List.all_eq_true]
  simp only [decide_eq_true_eq]
  constructor
  · rintro ⟨⟨⟨hq, hc⟩, hb⟩, hd⟩
    exact ⟨hq, hc, hb, fun c h => by rw [h] at hd; exact of_decide_eq_true hd⟩
  · rintro ⟨hq, hc, hb, hd⟩
    refine ⟨⟨⟨hq, hc⟩, hb⟩, ?_⟩
    cases h : s.me.eng.doneAt with
    | none => rfl
    | some t => exact decide_eq_true (hd t h)

theorem exec_sync {s : State} (hm : s.OnMain) (o : R0) :
    exec (.sync o) s = if s.me.eng.met s.clk then .next (s.adv o.st) else .next s := mainOnly_main hm _

theorem acked_iff (p : SPath) : p.acked = true ↔ p.loads = [] ∧ p.stores = [] ∧ p.remStores = [] := by
  unfold SPath.acked SPath.drained
  rw [Bool.and_eq_true, Bool.and_eq_true, List.isEmpty_iff, List.isEmpty_iff, List.isEmpty_iff, and_assoc]

theorem exec_mark {s : State} (hm : s.OnMain) (o : R0) :
    exec (.mark o) s = if s.me.path.acked then .next (s.adv o.st) else .next s := mainOnly_main hm _

/-! ## pref (R306) -/

theorem onTrapCore_main {s : State} (hm : s.OnMain) : s.onTrapCore = false := by
  unfold State.onTrapCore; rw [show s.cur.agent = .S from hm]; rfl

theorem exec_pref {s : State} (hm : s.OnMain) {o : PrefF} (hr : s.Ready [o.ra] none) :
    exec (.pref o) s = .next ((s.prefetch (s.based o.ra o.off) o.size o.hint).adv o.st) := by
  show execPref o s = _
  unfold execPref
  rw [show s.cur.agent = .S from hm]
  dsimp only
  rw [hr.issue, State.eaOff20, based_eq s o.ra o.off (by decide)]

/-- s with lines of its core's L1 filled from a place on: n of them. -/
def State.prefLines (s : State) (pa key n : Nat) (lu : Bool) : State :=
  (List.range n).foldl (fun s i => (s.l1Fill s.myCore (pa / 64 * 64 + 64 * i) key).l1Mark s.myCore (pa / 64 * 64 + 64 * i) lu) s

/-- The lines of pref's run that lie in the page. -/
def State.prefRun (s : State) (ea : Word) (z : Size) : Nat :=
  let a := ea.toNat / 64 * 64
  let page := s.pageSize s.cur.cid ea.toNat
  (min (a + prefLen z) (a / page * page + page) - a) / 64

section Prefetch

variable {s : State} (hm : s.OnMain) {ea : Word} (z : Size) (h : Hint)
include hm

theorem prefetch_fault {c d : Nat} (hx : s.xlat s.cur.cid false .load ea = .fault c d) : s.prefetch ea z h = s := by
  unfold State.prefetch; rw [onTrapCore_main hm, hx]

theorem prefetch_elsewhere {p : Place} (hx : s.xlat s.cur.cid false .load ea = .ok p) (hp : p.pa? = none) : s.prefetch ea z h = s := by
  unfold State.prefetch
  rw [onTrapCore_main hm, hx]
  dsimp only
  rw [hp]

theorem prefetch_eq {p : Place} {pa key : Nat} (hx : s.xlat s.cur.cid false .load ea = .ok p) (hp : p.pa? = some (pa, key)) :
    s.prefetch ea z h = if (p.cached && h.allocL1) = true then
      (s.noteXlat s.cur.cid ea).prefLines pa key ((s.noteXlat s.cur.cid ea).prefRun ea z) (h == .lu) else s.noteXlat s.cur.cid ea := by
  unfold State.prefetch
  rw [onTrapCore_main hm, hx]
  dsimp only
  rw [hp]
  rfl

end Prefetch

theorem allocL1_false {h : Hint} (hh : h = .st ∨ h = .na) : h.allocL1 = false := by rcases hh with rfl | rfl <;> rfl

theorem prefLines_moves (s : State) (pa key n : Nat) (lu : Bool) : s.MovesData (s.prefLines pa key n lu) s.myCore := by
  unfold State.prefLines
  generalize List.range n = is
  suffices ∀ u : State, s.MovesData u s.myCore → s.MovesData (is.foldl (fun s i => (s.l1Fill s.myCore (pa / 64 * 64 + 64 * i) key).l1Mark s.myCore
      (pa / 64 * 64 + 64 * i) lu) u) s.myCore from this s (.refl _ _)
  induction is with
  | nil => exact fun u hu => hu
  | cons i is ih =>
    intro u hu
    have hk : u.myCore = s.myCore := myCore_of hu.cur
    refine ih _ ?_
    show s.MovesData ((u.l1Fill u.myCore _ key).l1Mark u.myCore _ lu) s.myCore
    rw [hk]
    exact (hu.trans (State.l1Fill_moves _ _ _ _)).trans (State.l1Mark_moves _ _ _ _)

theorem prefetch_readies {s : State} (hm : s.OnMain) (ea : Word) (z : Size) (h : Hint) : s.Readies (s.prefetch ea z h) s.myCore := by
  cases hx : s.xlat s.cur.cid false .load ea with
  | fault c d => rw [prefetch_fault hm z h hx]; exact .refl _ _
  | ok p =>
    have hw := noteXlat_walks s ea
    cases hp : p.pa? with
    | none => rw [prefetch_elsewhere hm z h hx hp]; exact .refl _ _
    | some q =>
      obtain ⟨pa, key⟩ := q
      rw [prefetch_eq hm z h hx hp]
      split
      · have hl := prefLines_moves (s.noteXlat s.cur.cid ea) pa key ((s.noteXlat s.cur.cid ea).prefRun ea z) (h == .lu)
        rw [myCore_of hw.cur] at hl
        exact hw.readies.trans hl.readies
      · exact hw.readies

/-! ### The page of an address that the walk translates (R130, R132) -/

theorem walk_modCore (s : State) (k : Nat) (f : Core → Core) (va : Nat) (lvls : List Nat) :
    ∀ t, (s.modCore k f).walk va lvls t = s.walk va lvls t := by
  induction lvls with
  | nil => intro t; rfl
  | cons lvl ls ih =>
    intro t
    unfold State.walk
    dsimp only
    rw [ih]
    rfl

/-- The walk's pages are of 64 KiB, 2 MiB or 1 GiB. -/
theorem walk_size {s : State} {va : Nat} {lvls : List Nat} {t : Nat} {e : Word} {z : Nat} (h : s.walk va lvls t = .leaf e z) :
    ∃ lvl, z = walkSize lvl := by
  induction lvls generalizing t with
  | nil => cases h
  | cons lvl ls ih =>
    unfold State.walk at h
    dsimp only at h
    split_ifs at h
    · exact ⟨lvl, (Walk.leaf.inj h).2.symm⟩
    · exact ih h

theorem walkSize_lines (lvl : Nat) : ∃ n, 0 < n ∧ walkSize lvl = 64 * n := by
  unfold walkSize
  split_ifs
  · exact ⟨2 ^ 24, by decide, rfl⟩
  · exact ⟨2 ^ 15, by decide, rfl⟩
  · exact ⟨2 ^ 10, by decide, rfl⟩

/-- The windows name no HBM. -/
theorem xlatWin_not_loc {s : State} {cid : Nat} {b : Bool} {want : Want} {va pa key cl wp : Nat} :
    s.xlatWin cid b want va ≠ .ok (.loc pa key cl wp) := by
  grind [State.xlatWin]

/-- Nor does the host map. -/
theorem xlatHost_not_loc {s : State} {cid : Nat} {want : Want} {va pa key cl wp : Nat} :
    s.xlatHost cid want va ≠ .ok (.loc pa key cl wp) := by
  grind [State.xlatHost]

/-- An address that names HBM of the own device is translated by a leaf. -/
theorem xlat_loc_leaf {s : State} {cid : Nat} {b : Bool} {want : Want} {va : Word} {pa key cl wp : Nat}
    (h : s.xlat cid b want va = .ok (.loc pa key cl wp)) : va.toNat < 0x1C0 * 2 ^ 48 ∧
      ∃ e z, s.leafFor (cid / 2) (s.ptroot (s.ctx cid).launch) va.toNat = .leaf e z := by
  unfold State.xlat at h
  dsimp only at h
  split_ifs at h with _ hlow
  · refine ⟨hlow, ?_⟩
    cases hl : s.leafFor (cid / 2) (s.ptroot (s.ctx cid).launch) va.toNat with
    | fault c d => rw [hl] at h; cases h
    | leaf e z => exact ⟨e, z, rfl⟩
  · exact absurd h xlatWin_not_loc
  · exact absurd h xlatHost_not_loc

/-- A translation in a core whose TLB is empty leaves the page that it walked to. -/
theorem pageSize_noteXlat {s : State} {cid : Nat} {va : Word} {want : Want} {b : Bool} {pa key cl wp : Nat} (ht : (s.core (cid / 2)).tlb = [])
    (h : s.xlat cid b want va = .ok (.loc pa key cl wp)) : ∃ lvl, (s.noteXlat cid va).pageSize cid va.toNat = walkSize lvl := by
  obtain ⟨hlow, e, z, hl⟩ := xlat_loc_leaf h
  have hwalk : s.walk va.toNat [4, 3, 2, 1, 0] (s.ptroot (s.ctx cid).launch) = .leaf e z := by
    unfold State.leafFor at hl; rw [ht] at hl; exact hl
  obtain ⟨lvl, rfl⟩ := walk_size hwalk
  refine ⟨lvl, ?_⟩
  generalize hroot : s.ptroot (s.ctx cid).launch = root at hl hwalk
  have hnote : s.noteXlat cid va = s.modCore (cid / 2) (fun c => { c with tlb :=
      (⟨va.toNat / walkSize lvl * walkSize lvl, walkSize lvl, e, root⟩ :: c.tlb).take 2048 }) := by
    unfold State.noteXlat
    dsimp only
    rw [if_pos hlow, ht, hroot, hl]
    rfl
  have hleaf : (s.noteXlat cid va).leafFor (cid / 2) root va.toNat = .leaf e (walkSize lvl) := by
    rw [hnote]
    unfold State.leafFor
    rw [walk_modCore, hwalk, State.core_modCore_same, ht]
    simp [TlbEnt.hits]
  unfold State.pageSize
  rw [show (s.noteXlat cid va).ptroot ((s.noteXlat cid va).ctx cid).launch = root by rw [hnote]; exact hroot, hleaf]

/-- A run of one line lies in its page. -/
theorem prefRun_one {s : State} {ea : Word} {lvl : Nat} (h : s.pageSize s.cur.cid ea.toNat = walkSize lvl) : s.prefRun ea .b = 1 := by
  obtain ⟨n, hn, hz⟩ := walkSize_lines lvl
  unfold State.prefRun
  rw [h, hz]
  show (min (ea.toNat / 64 * 64 + 64) _ - _) / 64 = 1
  have hdiv : ea.toNat / 64 * 64 / (64 * n) = ea.toNat / 64 / n := by
    rw [← Nat.div_div_eq_div_mul, Nat.mul_div_cancel _ (by decide)]
  have hlt : ea.toNat / 64 < ea.toNat / 64 / n * n + n := Nat.lt_div_mul_add hn
  have hend : ea.toNat / 64 * 64 + 64 ≤ ea.toNat / 64 * 64 / (64 * n) * (64 * n) + 64 * n := by
    rw [hdiv]
    calc ea.toNat / 64 * 64 + 64 = 64 * (ea.toNat / 64 + 1) := by omega
      _ ≤ 64 * (ea.toNat / 64 / n * n + n) := Nat.mul_le_mul_left 64 hlt
      _ = ea.toNat / 64 / n * (64 * n) + 64 * n := by ring
  rw [Nat.min_eq_left hend]
  omega

theorem prefLines_one (s : State) (pa key : Nat) (lu : Bool) :
    s.prefLines pa key 1 lu = (s.l1Fill s.myCore (pa / 64 * 64) key).l1Mark s.myCore (pa / 64 * 64) lu := rfl

/-- pref of one line in an empty TLB: the line that the page holds is filled and marked (R306). -/
theorem prefetch_one {s : State} (hm : s.OnMain) {ea : Word} {pa key : Nat} (ht : (s.core s.myCore).tlb = [])
    (hx : s.xlat s.cur.cid false .load ea = .ok (.loc pa key 0 0)) :
    s.prefetch ea .b .nh = ((s.noteXlat s.cur.cid ea).l1Fill s.myCore (pa / 64 * 64) key).l1Mark s.myCore (pa / 64 * 64) false := by
  have hw := noteXlat_walks s ea
  obtain ⟨lvl, hpage⟩ := pageSize_noteXlat ht hx
  have hrun : (s.noteXlat s.cur.cid ea).prefRun ea .b = 1 := prefRun_one (lvl := lvl) (by rw [hw.cur]; exact hpage)
  have hfill : ((Place.loc pa key 0 0).cached && Hint.nh.allocL1) = true := rfl
  rw [prefetch_eq hm .b .nh hx rfl, if_pos hfill, hrun, prefLines_one, myCore_of hw.cur]
  rfl

/-- Settles O15: sync and mark by their waits, pref by what its translation gives. -/
theorem syncMarkPref : Obligations.SyncMarkPref := by
  unfold Obligations.SyncMarkPref
  refine ⟨fun o s hm h => ⟨_, (exec_sync hm o).trans (if_pos ((met_iff s).2 h)), State.adv_passes (State.hasAgent_main hm) _⟩,
    fun o s hm h => (exec_sync hm o).trans (if_neg (fun hb => h ((met_iff s).1 hb))),
    fun o s hm hl hs hr => ⟨_, (exec_mark hm o).trans (if_pos ((acked_iff _).2 ⟨hl, hs, hr⟩)), State.adv_passes (State.hasAgent_main hm) _⟩,
    fun o s hm h => (exec_mark hm o).trans (if_neg (fun hb => ?waits)), fun o s hm hr => ?pref⟩
  case waits => obtain ⟨hl, hs, hr⟩ := (acked_iff _).1 hb; simp [hl, hs, hr] at h
  case pref =>
    generalize hea : s.based o.ra o.off = ea
    have hu := prefetch_readies hm ea o.size o.hint
    refine ⟨_, s.prefetch ea o.size o.hint, hea ▸ exec_pref hm hr, State.adv_passes (State.hasAgent_main (onMain_readies hu hm)) _, hu,
      fun c d hx => prefetch_fault hm _ _ hx, fun p hx hp => prefetch_elsewhere hm _ _ hx hp, fun p hx hp hno => ?_,
      fun pa key hx hz hh ht => by rw [hz, hh]; exact prefetch_one hm ht hx⟩
    obtain ⟨⟨pa, key⟩, hpa⟩ := Option.isSome_iff_exists.1 hp
    rw [prefetch_eq hm _ _ hx hpa, if_neg]
    rcases hno with hc | hh
    · rw [hc]; exact Bool.false_ne_true
    · rw [allocL1_false hh, Bool.and_false]; exact Bool.false_ne_true

/-! ## Loads (R103, R144, R302, R303) -/

/-- Settles O19, by what a load does once it has its place. -/
theorem loadsQueue : Obligations.LoadsQueue := by
  unfold Obligations.LoadsQueue
  refine ⟨noteXlat_walks, fun o s p hm hr ht ho ha hx => ?_, fun o s p hm hr ht ho ha hx => ?_⟩
  · have h := loadOp_queues (o := ⟨o.st, o.rt, o.size, o.ord, o.scope, o.sx, o.hint⟩) hm hr ht ho (by rw [size_eq]; exact ha) hx
    rw [← based_eq s o.ra o.off (by decide), ← size_eq]
    rw [← based_eq s o.ra o.off (by decide)] at h
    exact h
  · rw [← size_eq]
    exact loadOp_queues (o := ⟨o.st, o.rt, o.size, o.ord, o.scope, o.sx, o.hint⟩) hm hr ht ho (by rw [size_eq]; exact ha) hx

end Sys2Proof.Machine
end

section
/-! PROOF. xfence on S and on the trailing streams (R95, R176, R333). -/

namespace Sys2Proof.Machine

open Sys2Proof

/-! ## S's part -/

/-- The entry that an xfence of S puts into the queues. -/
def State.fenceEnt (s : State) (o : XfenceF) : QEnt := ⟨s.sca.seq, s.pc, word ((encode (.xfence o)).getD 0), 0, 0, 0⟩

/-- s with an xfence handed to the streams that it names. -/
def State.fenceHanded (s : State) (o : XfenceF) : State :=
  s.modMe (fun c => c.modEng (fun g => g.pushAll (s.fenceEnt o) (fun p => inSet o.fromSet (p + 1) || inSet o.toSet (p + 1))))

theorem inSet_bit (x : BitVec 5) {a : Agent} (ha : a ∈ [Agent.C, .M, .R, .K]) : inSet x (pathOf a + 1) = x.getLsbD a.bit := by
  rw [inSet_eq]
  cases a <;> simp at ha <;> rfl

theorem fenceHanded_hands (s : State) (o : XfenceF) :
    s.Hands (s.fenceHanded o) (s.fenceEnt o) (fun a => o.fromSet.getLsbD a.bit = true ∨ o.toSet.getLsbD a.bit = true) :=
  hands_push s _ _ _ (fun a ha => by rw [inSet_bit _ ha, inSet_bit _ ha, Bool.or_eq_true])

theorem xfencePush_eq (s : State) (o : XfenceF) : s.xfencePush o =
    if o.toSet.getLsbD 0 = true then ((s.fenceHanded o).park (.xfence s.sca.seq o) o.st).xfenceWait s.sca.seq o else (s.fenceHanded o).adv o.st := by
  rw [← inSet_eq]; rfl

/-- Before its decode S writes L1 back where it is in the from-set, its path drained (R176). -/
theorem exec_xfence_main {s : State} (hm : s.OnMain) {o : XfenceF} (hd : o.fromSet.getLsbD 0 = true → s.Drained) :
    exec (.xfence o) s = .next ((if o.fromSet.getLsbD 0 = true then s.wbAll s.myCore else s).xfencePush o) := by
  show execXfence o s = _
  unfold execXfence
  rw [show s.cur.agent = .S from hm]
  dsimp only
  unfold xfenceS
  rw [inSet_eq]
  split
  · rename_i hf; exact State.whenDrained_eq (hd hf) _ _
  · rfl

/-- An xfence that holds S goes on once the from-set has passed, L1 emptied (R151, R176). -/
theorem xfenceWait_spec {w : State} (hm : w.OnMain) (n : Nat) (o : XfenceF) :
    (w.fromPassed w.cur.cid n o = true → (w.wbInv w.myCore).EndsFree (w.xfenceWait n o)) ∧
    (w.fromPassed w.cur.cid n o = false → w.xfenceWait n o = w) := by
  unfold State.xfenceWait
  refine ⟨fun h => ?_, fun h => if_neg (ne_true_of_eq_false h)⟩
  rw [if_pos h]
  exact State.go_endsFree (State.hasAgent_main ((State.wbInv_moves w w.myCore).1.onMain hm))

theorem retryHold_xfence {s : State} {n : Nat} {o : XfenceF} (hm : s.OnMain) (hh : s.sca.hold = .xfence n o) (hp : s.me.trap.phase = .none) :
    s.retryHold s.cur.cid = s.xfenceWait n o := by
  have hme : s.me.sc.hold = .xfence n o := by rw [sca_main hm]; exact hh
  unfold State.retryHold
  rw [at_main hm]
  simp only [hme, hp]
  rfl

/-- The entry is the same after L1 is written back. -/
theorem fenceEnt_moves {s : State} (hm : s.OnMain) (o : XfenceF) {u : State} (hu : s.MovesData u s.myCore) :
    u.OnMain ∧ u.sca.seq = s.sca.seq ∧ u.fenceEnt o = s.fenceEnt o := by
  have hseq : u.sca.seq = s.sca.seq := by have := congrArg Scalar.seq (hu.sca hm); exact this
  exact ⟨hu.onMain hm, hseq, by unfold State.fenceEnt; rw [hseq, hu.pc hm]⟩

/-! ## A trailing stream's part -/

theorem pathDone_iff (s : State) (cid : Nat) {a : Agent} (ha : a ∈ [Agent.C, .M, .R, .K]) (sc : Scope) :
    s.pathDone cid (pathOf a) sc = true ↔ s.doneBefore cid a sc := by
  have hack : (sc != .dom || s.pathAcked cid (pathOf a)) = true ↔ (sc = .dom → s.pathAcked cid (pathOf a) = true) := by
    rw [Bool.or_eq_true, bne_iff_ne, ← imp_iff_not_or]
  unfold State.pathDone State.doneBefore Engines.wqOf
  dsimp only
  rw [Bool.and_eq_true, Bool.and_eq_true, List.isEmpty_iff, hack, and_assoc]
  refine and_congr ?_ Iff.rfl
  cases a <;> simp at ha <;> simp [Engines.busy, pathOf]

theorem reportFails_none {s : State} {cid p : Nat} (h : ∀ f ∈ (s.ctx cid).eng.wfails, f.path ≠ p) (w a : Word) :
    s.reportFails cid (fun x => x == p) w a = none := by
  have hfind : (s.ctx cid).eng.wfails.find? (fun f => f.path == p) = none := by
    rw [List.find?_eq_none]; exact fun f hf hp => h f hf (beq_iff_eq.1 hp)
  unfold State.reportFails State.reportWhere
  rw [hfind]

/-- A trailing stream without a failed write to report stands at the xfence, or starts it. -/
theorem exec_xfence_trailing {s : State} (ha : s.cur.agent ∈ [Agent.C, .M, .R, .K]) (hf : ∀ f ∈ s.me.eng.wfails, f.path ≠ pathOf s.cur.agent)
    (o : XfenceF) : exec (.xfence o) s =
      if (o.fromSet.getLsbD s.cur.agent.bit && !s.pathDone s.cur.cid (pathOf s.cur.agent) o.scope) = true then .next s
      else if (o.toSet.getLsbD s.cur.agent.bit && !s.fromPassed s.cur.cid s.head.seq o) = true then .next s else .next s.started := by
  have hX : exec (.xfence o) s = xfenceX o s := by
    show execXfence o s = _
    unfold execXfence
    generalize s.cur.agent = a at ha
    cases a <;> simp at ha <;> rfl
  have hnone : (if o.fromSet.getLsbD s.cur.agent.bit = true then
      s.reportFails s.cur.cid (fun x => x == pathOf s.cur.agent) s.head.w s.head.addr else none) = none := by
    rw [reportFails_none hf, ite_self]
  rw [hX]
  unfold xfenceX
  dsimp only
  rw [inSet_bit _ ha, inSet_bit _ ha, hnone]

/-- Settles O17: S's part by its decode and its wait, a trailing stream's by the two tests that it passes. -/
theorem crossFences : Obligations.CrossFences := by
  unfold Obligations.CrossFences
  refine ⟨fun o s hm hd => ?main, fun o s n hm hh hp => ?retry, fun o s ha hf => ?trailing⟩
  case main =>
    generalize hu : (if o.fromSet.getLsbD 0 = true then s.wbAll s.myCore else s) = u
    have hmoves : s.MovesData u s.myCore := by
      rw [← hu]
      split
      · exact (State.wbAll_moves s s.myCore).1
      · exact .refl _ _
    obtain ⟨hum, hseq, hent⟩ := fenceEnt_moves hm o hmoves
    have hvm : (u.fenceHanded o).OnMain := hum
    have hgo : exec (.xfence o) s = .next (u.xfencePush o) := hu ▸ exec_xfence_main hm hd
    have hhands := fenceHanded_hands u o
    rw [hent] at hhands
    refine ⟨u.xfencePush o, u.fenceHanded o, hgo, hhands, fun ht => ?_, fun ht => ?_⟩
    · rw [xfencePush_eq, if_neg (ne_true_of_eq_false ht)]
      exact State.adv_passes (State.hasAgent_main hvm) _
    · rw [xfencePush_eq, if_pos ht, hseq]
      have hpark := State.park_parks (State.hasAgent_main hvm) (.xfence s.sca.seq o) o.st
      have hcur : ((u.fenceHanded o).park (.xfence s.sca.seq o) o.st).cur = s.cur := hpark.frame.cur.trans hmoves.cur
      have hwait := xfenceWait_spec (hpark.frame.onMain hvm) s.sca.seq o
      rw [hcur, myCore_of hcur] at hwait
      exact ⟨_, hpark, hwait⟩
  case retry =>
    rw [retryHold_xfence hm hh hp]
    exact xfenceWait_spec hm n o
  case trailing =>
    have hgo := exec_xfence_trailing ha hf o
    have hdone := pathDone_iff s s.cur.cid ha o.scope
    have hpasses : ∀ {b d : Bool}, (b = true → d = true) → ¬ (b && !d) = true := by decide
    refine ⟨fun hfrom hnot => hgo.trans (if_pos ?_), fun hto hnot => ?_, fun hfrom hto => ?_⟩
    · rw [hfrom, Bool.eq_false_iff.2 (mt hdone.1 hnot)]; rfl
    · rw [hgo, hto, hnot, if_pos (show (true && !false) = true from rfl), ite_self]
    · rw [hgo, if_neg (hpasses fun h => hdone.2 (hfrom h)), if_neg (hpasses hto)]

end Sys2Proof.Machine
end

section
/-! PROOF. Bunches and their barrier (R107-R111, R161, R321, R322, R436). -/

namespace Sys2Proof.Machine

open Sys2Proof

/-! ## bmake (R321) -/

/-- s with a new bunch of a count under a handle. -/
def State.bunchMade (s : State) (n h : Nat) : State :=
  s.modSched (fun q => { q with bunches := Map.put q.bunches h ⟨s.me.launch, n, none, [], [], 0⟩, nextBunch := (h + 1) % 65536 })

/-- The counts that bmake takes while a handle is free. -/
def State.canMake (s : State) (n : Nat) : Prop := 1 ≤ n ∧ n ≤ 8 ∧ s.sched.bunches.length < 4096

section Make

variable {s : State} {o : R2} (hm : s.OnMain)
include hm

theorem exec_bmake_made (hr : s.Ready [o.ra] none) (hh : s.Here [o.rd]) (hn : s.canMake (s.r o.ra).toNat) :
    let h := bunchHandle s.sched.bunches 4098 s.sched.nextBunch
    exec (.bmake o) s = .next (((s.bunchMade (s.r o.ra).toNat h).resVar o.rd (word h)).adv o.st) := by
  obtain ⟨hlow, hhigh, hroom⟩ := hn
  show execBmake o s = _
  unfold execBmake
  rw [mainOnly_main hm]
  dsimp only
  rw [if_neg (by omega), hr.issueVar hh]
  rfl

theorem exec_bmake_refused (hn : ¬ s.canMake (s.r o.ra).toNat) : exec (.bmake o) s = s.resultVar o.st [o.ra] o.rd 0 := by
  unfold State.canMake at hn
  show execBmake o s = _
  unfold execBmake
  rw [mainOnly_main hm]
  dsimp only
  rw [if_pos (by omega)]

end Make

/-! ## join (R108, R322) -/

theorem canJoin_of {s : State} {h : Nat} {b : Bunch} {k : Task} (hb : Map.find s.sched.bunches h = some b) (hk : s.me.task = some k)
    (hp : b.placed = some (s.myCore / 4)) (hn : k.member = false) (hl : b.members.length < 8) : s.canJoin h = true := by
  unfold State.canJoin State.bunch
  rw [hb, hk]
  simp [hp, hn, hl, clusterOf]

theorem canJoin_not {s : State} {h : Nat} (hno : ∀ b, Map.find s.sched.bunches h = some b → b.placed ≠ some (s.myCore / 4) ∨ 8 ≤ b.members.length ∨
    (∀ k, s.me.task = some k → k.member = true)) : s.canJoin h = false := by
  unfold State.canJoin State.bunch
  cases hb : Map.find s.sched.bunches h with
  | none => rfl
  | some b =>
    cases hk : s.me.task with
    | none => rfl
    | some k =>
      rcases hno b hb with hp | hl | hmem
      · simp [clusterOf, hp]
      · simp [Nat.not_lt.2 hl]
      · simp [hmem k hk]

/-- s after its task has joined the bunch of a handle. -/
def State.bunchJoined (s : State) (h : Nat) (k : Task) (b : Bunch) : State :=
  (s.modMe (fun c => { c with task := some { k with member := true, bunch := h } })).modSched (fun q => { q with
    bunches := Map.put q.bunches h { b with members := b.members ++ [s.cur.cid] } })

section Join

variable {s : State} {o : R2} (hm : s.OnMain)
include hm

theorem exec_join_joins (hr : s.Ready [o.ra] none) (hh : s.Here [o.rd]) {b : Bunch} {k : Task} (hb : Map.find s.sched.bunches (s.r o.ra).toNat = some b)
    (hk : s.me.task = some k) (hj : s.canJoin (s.r o.ra).toNat = true) :
    exec (.join o) s = .next (((s.bunchJoined (s.r o.ra).toNat k b).resVar o.rd 1).adv o.st) := by
  show execJoin o s = _
  unfold execJoin
  rw [mainOnly_main hm]
  dsimp only
  rw [if_pos hj, hr.issueVar hh]
  have hmine : s.modMe (fun c => { c with task := c.task.map (fun t => { t with member := true, bunch := (s.r o.ra).toNat }) }) =
      s.modMe (fun c => { c with task := some { k with member := true, bunch := (s.r o.ra).toNat } }) := by
    exact modMe_congr s (by rw [hk]; rfl)
  rw [hmine]
  unfold State.bunchJoined State.modSched
  dsimp only
  rw [show (s.modMe (fun c => { c with task := some { k with member := true, bunch := (s.r o.ra).toNat } })).sched.bunches = s.sched.bunches from rfl, hb]
  rfl

theorem exec_join_refused (hj : s.canJoin (s.r o.ra).toNat = false) : exec (.join o) s = s.resultVar o.st [o.ra] o.rd 0 := by
  show execJoin o s = _
  unfold execJoin
  rw [mainOnly_main hm]
  dsimp only
  rw [if_neg (ne_true_of_eq_false hj)]

end Join

/-! ## leave, and the generation that may open (R108-R110) -/

theorem settle_opens {b : Bunch} (hne : b.members ≠ []) (hall : ∀ m ∈ b.members, m ∈ b.arrived) :
    b.settle = { b with arrived := [], gen := b.gen + 1 } := by
  unfold Bunch.settle
  rw [if_pos ⟨hne, List.all_eq_true.2 (fun m hm => List.contains_iff_mem.2 (hall m hm))⟩]

theorem settle_stays {b : Bunch} (h : ∃ m ∈ b.members, m ∉ b.arrived) : b.settle = b := by
  obtain ⟨m, hm, hn⟩ := h
  unfold Bunch.settle
  rw [if_neg]
  rintro ⟨-, hall⟩
  exact hn (List.contains_iff_mem.1 (List.all_eq_true.1 hall m hm))

theorem settle_cases (b : Bunch) : b.settle.members = b.members ∧
    (b.settle.gen = b.gen ∧ b.settle.arrived = b.arrived ∨ b.settle.gen = b.gen + 1 ∧ b.settle.arrived = [] ∧ ∀ m ∈ b.members, m ∈ b.arrived) := by
  by_cases h : ∃ m ∈ b.members, m ∉ b.arrived
  · rw [settle_stays h]; exact ⟨rfl, .inl ⟨rfl, rfl⟩⟩
  · push Not at h
    by_cases hne : b.members = []
    · unfold Bunch.settle; rw [if_neg (fun hx => hx.1 hne)]; exact ⟨rfl, .inl ⟨rfl, rfl⟩⟩
    · rw [settle_opens hne h]; exact ⟨rfl, .inr ⟨rfl, rfl, h⟩⟩

/-- No saved image holds a member of a bunch. -/
def State.NoneSaved (s : State) : Prop := ∀ x ∈ s.images, ∀ j, x.2.ctx.task = some j → j.member = false

theorem settleBunch_none {s : State} (h : s.NoneSaved) (n : Nat) (b : Bunch) : s.settleBunch n b = s.setBunch n b.settle := by
  unfold State.settleBunch
  rw [savedMembers_none h]
  rfl

theorem leaveBunch_alone {s : State} {cid : Nat} {k : Task} (hk : (s.ctx cid).task = some k) (hn : k.member = false) : s.leaveBunch cid = s := by
  unfold State.leaveBunch
  rw [hk]
  dsimp only
  rw [hn]
  rfl

/-- A bunch after a context has left it. -/
def Bunch.without (b : Bunch) (cid : Nat) : Bunch :=
  { b with members := b.members.filter (fun m => m != cid), arrived := b.arrived.filter (fun m => m != cid) }

/-- s with a task of a context that is no member any more. -/
def State.bunchLeft (s : State) (cid : Nat) (k : Task) : State := s.modCtx cid (fun c => { c with task := some { k with member := false } })

theorem leaveBunch_member {s : State} {cid : Nat} {k : Task} {b : Bunch} (hk : (s.ctx cid).task = some k) (hmem : k.member = true)
    (hb : Map.find s.sched.bunches k.bunch = some b) (hother : ∃ m ∈ b.members, m ≠ cid) (hs : s.NoneSaved) :
    s.leaveBunch cid = (s.bunchLeft cid k).setBunch k.bunch (b.without cid).settle := by
  obtain ⟨m, hm, hne⟩ := hother
  have hms : ¬ b.members.filter (fun m => m != cid) = [] := List.ne_nil_of_mem (List.mem_filter.2 ⟨hm, bne_iff_ne.2 hne⟩)
  have hb' : (s.bunchLeft cid k).bunch k.bunch = some b := hb
  unfold State.leaveBunch
  rw [hk]
  dsimp only
  rw [hmem, if_neg (by decide), show s.modCtx cid (fun c => { c with task := some { k with member := false } }) = s.bunchLeft cid k from rfl,
    hb']
  dsimp only
  rw [if_neg hms]
  exact settleBunch_none (s := s.bunchLeft cid k) hs k.bunch (b.without cid)

theorem exec_leave {s : State} (hm : s.OnMain) (o : R0) : exec (.leave o) s = .next ((s.leaveBunch s.cur.cid).adv o.st) := mainOnly_main hm _

theorem filter_bne (l : List Nat) (c : Nat) : l.filter (fun m => m != c) = l.filter (· ≠ c) :=
  List.filter_congr fun m _ => by rw [Bool.eq_iff_iff, bne_iff_ne, decide_eq_true_iff]

/-- Settles O35: each instruction by the cases that it tests. -/
theorem bunchesForm : Obligations.BunchesForm := by
  unfold Obligations.BunchesForm
  refine ⟨fun o s hm hr hh => ⟨fun hn => ?made, fun hn => ?notMade⟩, fun o s hm hr hh => ⟨fun b k hb hk hp hno hl => ?joins, fun hno => ?notJoined⟩,
    fun o s hm => ⟨_, exec_leave hm o, fun k hk hno => ?alone, fun k b hk hmem hb hother hs => ?leaves⟩⟩
  case made =>
    obtain ⟨h0, hlt, hfree⟩ := bunchHandle_free s.sched.bunches 4098 s.sched.nextBunch (exists_free _ _ hn.2.2)
    exact ⟨_, _, exec_bmake_made hm hr hh hn, h0, hlt, hfree, State.resVar_adv_gives (State.hasAgent_main (s := s.bunchMade _ _) hm) _ _ _⟩
  case notMade => rw [exec_bmake_refused hm hn]; exact State.resultVar_gives hr hh 0 o.st
  case joins =>
    exact ⟨_, exec_join_joins hm hr hh hb hk (canJoin_of hb hk hp hno hl),
      State.resVar_adv_gives (State.hasAgent_main (s := s.bunchJoined _ _ _) hm) _ _ _⟩
  case notJoined => rw [exec_join_refused hm (canJoin_not hno)]; exact State.resultVar_gives hr hh 0 o.st
  case alone => rw [leaveBunch_alone hk hno]; exact State.adv_passes (State.hasAgent_main hm) _
  case leaves =>
    obtain ⟨hmembers, hgen⟩ := settle_cases (b.without s.cur.cid)
    rw [leaveBunch_member hk hmem hb hother hs]
    refine ⟨_, State.adv_passes (State.hasAgent_main (s := (s.bunchLeft s.cur.cid k).setBunch _ _) hm) _,
      hmembers.trans (filter_bne _ _), hgen.imp (fun ⟨hg, ha⟩ => ⟨hg, ha.trans (filter_bne _ _)⟩) (fun ⟨hg, ha, hall⟩ => ⟨hg, ha, fun m hm => ?_⟩)⟩
    rw [hmembers] at hm
    exact (List.mem_filter.1 (hall m hm)).1

/-! ## bbar (R109, R161, R322) -/

theorem myBunch_none {s : State} (h : ∀ k, s.me.task = some k → k.member = false) : s.myBunch = none := by
  unfold State.myBunch
  cases hk : s.me.task with
  | none => rfl
  | some k => simp [h k hk]

theorem myBunch_some {s : State} {k : Task} {b : Bunch} (hk : s.me.task = some k) (hmem : k.member = true)
    (hb : Map.find s.sched.bunches k.bunch = some b) : s.myBunch = some (k.bunch, b) := by
  unfold State.myBunch State.bunch
  rw [hk]
  dsimp only
  rw [if_pos hmem, hb]
  rfl

theorem task_keeps {v w : State} (h : v.Keeps w) (hm : v.OnMain) : w.me.task = v.me.task := by
  have hmine := h.mine
  rw [show v.cur.agent = .S from hm] at hmine
  have := congrArg Ctx.task hmine
  exact this

/-- A member held by a bbar goes on once its generation is open, as an acquire (R161), and stands before. -/
theorem bbarWait_spec {s : State} (hm : s.OnMain) {k : Task} {b : Bunch} (hk : s.me.task = some k) (hmem : k.member = true)
    (hb : Map.find s.sched.bunches k.bunch = some b) (g : Nat) :
    (b.gen ≠ g → (s.wbInv s.myCore).EndsFree (s.bbarWait g)) ∧ (b.gen = g → s.bbarWait g = s) := by
  unfold State.bbarWait
  rw [myBunch_some hk hmem hb]
  refine ⟨fun h => ?_, fun h => if_pos h⟩
  dsimp only
  rw [if_neg h]
  exact State.go_endsFree (State.hasAgent_main ((State.wbInv_moves s s.myCore).1.onMain hm))

theorem retryHold_bbar {s : State} {g : Nat} (hm : s.OnMain) (hh : s.sca.hold = .bbar g) (hp : s.me.trap.phase = .none) :
    s.retryHold s.cur.cid = s.bbarWait g := by
  have hme : s.me.sc.hold = .bbar g := by rw [sca_main hm]; exact hh
  unfold State.retryHold
  rw [at_main hm]
  simp only [hme, hp]
  rfl

theorem exec_bbar_stray {s : State} (hm : s.OnMain) (h : ∀ k, s.me.task = some k → k.member = false) (o : R0) :
    exec (.bbar o) s = .next (s.trapS 7 1 0) := by
  show execBbar o s = _
  unfold execBbar
  rw [mainOnly_main hm, myBunch_none h]

/-- s with L1 written back, its agent held by the bbar of a generation. -/
def State.atBarrier (s : State) (g st : Nat) : State := (s.wbAll s.myCore).park (.bbar g) st

theorem exec_bbar_member {s : State} (hm : s.OnMain) (hd : s.Drained) {k : Task} {b : Bunch} (hk : s.me.task = some k) (hmem : k.member = true)
    (hb : Map.find s.sched.bunches k.bunch = some b) (o : R0) : exec (.bbar o) s =
      .next (((s.atBarrier b.gen o.st).settleBunch k.bunch { b with arrived := b.arrived ++ [(s.atBarrier b.gen o.st).cur.cid] }).bbarWait b.gen) := by
  show execBbar o s = _
  unfold execBbar
  rw [mainOnly_main hm, myBunch_some hk hmem hb]
  exact Drained.when hd _

/-- Settles O36: what an arrival leaves of the bunch, and then the wait that a retry repeats. -/
theorem barriersHold : Obligations.BarriersHold := by
  unfold Obligations.BarriersHold
  refine ⟨fun o s hm hp hno => ⟨_, exec_bbar_stray hm hno o, trapS_traps hm hp 7 1 0⟩, fun o s k b hm hd hk hmem hb hs => ?arrives,
    fun s k b g hm hh hp hk hmem hb => ?retry⟩
  case arrives =>
    have hmoves := (State.wbAll_moves s s.myCore).1
    have hum := hmoves.onMain hm
    have hpark : (s.wbAll s.myCore).Parks (s.atBarrier b.gen o.st) (.bbar b.gen) o.st := State.park_parks (State.hasAgent_main hum) _ _
    have hgo := exec_bbar_member hm hd hk hmem hb o
    generalize s.atBarrier b.gen o.st = v at hpark hgo
    have hvm : v.OnMain := hpark.frame.onMain hum
    have hcur : v.cur = s.cur := hpark.frame.cur.trans hmoves.cur
    have htask : v.me.task = some k := by
      rw [task_keeps hpark.frame hum, ← hk]; unfold State.me; rw [hmoves.cur]; exact hmoves.task _
    have himages : v.images = s.images := (congrArg State.images hpark.frame.outside).trans (State.images_wbAll s s.myCore)
    have hnone : v.NoneSaved := by unfold State.NoneSaved; rw [himages]; exact hs
    rw [settleBunch_none hnone, hcur] at hgo
    refine ⟨_, v, hgo, hpark, fun hall hne => ?_, fun hleft => ?_⟩
    · rw [settle_opens (b := { b with arrived := b.arrived ++ [s.cur.cid] }) hne (fun m hm => List.mem_append.2 ((hall m hm).symm.imp_right List.mem_singleton.2))]
      have := (bbarWait_spec (s := v.setBunch k.bunch { b with arrived := [], gen := b.gen + 1 }) hvm htask hmem (Map.find_put_same _ _ _) b.gen).1
        (Nat.succ_ne_self _)
      rwa [myCore_of (show (v.setBunch k.bunch { b with arrived := [], gen := b.gen + 1 }).cur = s.cur from hcur)] at this
    · obtain ⟨m, hm, hne, hnot⟩ := hleft
      rw [settle_stays (b := { b with arrived := b.arrived ++ [s.cur.cid] }) ⟨m, hm, by simp [hne, hnot]⟩]
      exact (bbarWait_spec (s := v.setBunch k.bunch { b with arrived := b.arrived ++ [s.cur.cid] }) hvm htask hmem (Map.find_put_same _ _ _) b.gen).2 rfl
  case retry =>
    rw [retryHold_bbar hm hh hp]
    exact bbarWait_spec hm hk hmem hb g

end Sys2Proof.Machine
end

section
/-! PROOF. Engine words that S hands to their streams, and those that it refuses (R93, R96, R264, R272, R273). -/

namespace Sys2Proof.Machine

open Sys2Proof

/-! ## The fields of an engine word -/

theorem tagAgent_tag {w : Word} {a : Agent} (h : tagAgent w = some a) :
    a ∈ [Agent.C, .M, .R, .K] ∧ (bitsOf w 63 61 = 1 ↔ a = .C) ∧ (bitsOf w 63 61 = 2 ↔ a = .M) := by
  unfold tagAgent at h
  split at h
  case h_5 => cases h
  all_goals obtain rfl := Option.some.inj h; rename_i e; rw [e]; decide

section Tagged

variable {w : Word} {a : Agent} (ht : tagAgent w = some a)
include ht

theorem isMctl_iff : isMctl w = true ↔ a = .M ∧ w.toNat / 2 ^ 50 % 256 = 2 ∧ w.toNat / 2 ^ 24 % 32 = 0 := by
  obtain ⟨-, -, hM⟩ := tagAgent_tag ht
  unfold isMctl
  rw [Bool.and_eq_true, Bool.and_eq_true, beq_iff_eq, beq_iff_eq, beq_iff_eq, hM, and_assoc]
  rfl

theorem classQOp_iff : classQOp w = true ↔ a = .M ∧ 8 ≤ w.toNat / 2 ^ 50 % 256 ∧ w.toNat / 2 ^ 50 % 256 ≤ 11 := by
  obtain ⟨-, -, hM⟩ := tagAgent_tag ht
  unfold classQOp
  rw [Bool.and_eq_true, Bool.and_eq_true, beq_iff_eq, decide_eq_true_iff, decide_eq_true_iff, hM, and_assoc]
  rfl

/-- mfmt.ctl promises nothing. -/
theorem promises_mctl (h : isMctl w = true) : promises w = false := by
  obtain ⟨-, hC, -⟩ := tagAgent_tag ht
  obtain ⟨rfl, -⟩ := (isMctl_iff ht).1 h
  have hne : bitsOf w 63 61 ≠ 1 := fun e => by cases hC.1 e
  unfold promises
  rw [beq_eq_false_iff_ne.2 hne]
  rfl

/-! ## The checks of R264 -/

/-- A channel that the task has not, or a malformed mfmt.ctl value. -/
theorem illegal_iff (s : State) (v : Word) : ((isMctl w && !mctlOk v) ||
    (bitsOf w 63 61 == 1 && decide (s.me.hdr.chan ≤ bitsOf w 31 29) && decide (3 ≤ bitsOf w 57 50))) = true ↔
    (a = .C ∧ 3 ≤ w.toNat / 2 ^ 50 % 256 ∧ s.me.hdr.chan ≤ w.toNat / 2 ^ 29 % 8) ∨
      ((a = .M ∧ w.toNat / 2 ^ 50 % 256 = 2 ∧ w.toNat / 2 ^ 24 % 32 = 0) ∧ mctlOk v = false) := by
  obtain ⟨-, hC, -⟩ := tagAgent_tag ht
  rw [Bool.or_eq_true, Bool.and_eq_true, isMctl_iff ht, Bool.not_eq_true', Bool.and_eq_true, Bool.and_eq_true, beq_iff_eq, hC,
    decide_eq_true_iff, decide_eq_true_iff, and_assoc (a := a = .C), and_comm (a := s.me.hdr.chan ≤ _), or_comm]
  rfl

/-- A class-Q word, or an mfmt.ctl value of class Q. -/
theorem quince_iff (v : Word) : (classQOp w || (isMctl w && mctlL6 v)) = true ↔
    (a = .M ∧ 8 ≤ w.toNat / 2 ^ 50 % 256 ∧ w.toNat / 2 ^ 50 % 256 ≤ 11) ∨
      ((a = .M ∧ w.toNat / 2 ^ 50 % 256 = 2 ∧ w.toNat / 2 ^ 24 % 32 = 0) ∧ mctlL6 v = true) := by
  rw [Bool.or_eq_true, Bool.and_eq_true, classQOp_iff ht, isMctl_iff ht]

theorem flash_iff (s : State) : (bitsOf w 63 61 == 1 && bitsOf w 57 50 == 7 && !s.variant.flash) = true ↔
    a = .C ∧ w.toNat / 2 ^ 50 % 256 = 7 ∧ s.variant.flash = false := by
  obtain ⟨-, hC, -⟩ := tagAgent_tag ht
  rw [Bool.and_eq_true, Bool.and_eq_true, beq_iff_eq, beq_iff_eq, Bool.not_eq_true', hC, and_assoc]
  rfl

end Tagged

/-! ## The decode (R93) -/

/-- s with an engine word queued for its stream and its promise destination pending. -/
def State.wordQueued (s : State) (a : Agent) (w : Word) : State :=
  if promises w = true then (s.enqueue a (s.capture w)).setPend (engRegs w).2.2 else s.enqueue a (s.capture w)

section Decode

variable {s : State} (hm : s.OnMain) {w : Word}
include hm

theorem exec_decode_refused (h : tagAgent w = none ∨ ∃ e, decodeMain w.toNat = .error e) :
    exec (.engineInstructionDecode w) s = .next (s.trapS 1 0 0) := by
  show execEngineInstructionDecode w s = _
  unfold execEngineInstructionDecode
  rw [mainOnly_main hm]
  rcases h with h | ⟨e, h⟩
  · rw [h]
  · rw [h]; cases tagAgent w <;> rfl

variable {a : Agent} {i : Instr} (ht : tagAgent w = some a) (hd : decodeMain w.toNat = .ok i)
include ht hd

/-- A check of the word fails: before its registers are waited for, but for those of a captured value. -/
theorem exec_decode_traps {c : Nat} (hc : s.decodeCause w (s.r (engRegs w).1) = some c) (hr : isMctl w = true → s.Ready (engSrcs w) none) :
    exec (.engineInstructionDecode w) s = .next (s.trapS c 0 0) := by
  show execEngineInstructionDecode w s = _
  unfold execEngineInstructionDecode
  rw [mainOnly_main hm, ht, hd]
  dsimp only
  rw [hc]
  cases hctl : isMctl w with
  | false => rfl
  | true =>
    rw [promises_mctl ht hctl]
    exact (hr hctl).issue _

theorem exec_decode_queues (hc : s.decodeCause w (s.r (engRegs w).1) = none) (hr : s.Ready (engSrcs w) none)
    (hh : promises w = true → s.Here [(engRegs w).2.2]) :
    exec (.engineInstructionDecode w) s = .next ((s.wordQueued a w).adv (bitsOf w 60 58)) := by
  have hheld : s.held (if promises w then [(engRegs w).2.2] else []) = false := by
    split
    · exact (hh ‹_›).not_held
    · rfl
  show execEngineInstructionDecode w s = _
  unfold execEngineInstructionDecode
  rw [mainOnly_main hm, ht, hd]
  dsimp only
  rw [hc, ite_self, hheld]
  exact hr.issue _

end Decode

theorem wordQueued_eq {s : State} (hm : s.OnMain) (a : Agent) (w : Word) : s.wordQueued a w =
    (s.enqueue a (s.capture w)).modMe (fun c => { c with sc := if promises w then c.sc.owing (engRegs w).2.2 else c.sc }) := by
  unfold State.wordQueued
  cases promises w with
  | true => exact setPend_eq hm _ _
  | false => exact setPend_none s (fun c => c.modEng (fun g => g.setQ a (g.q a ++ [s.capture w])))

/-- Settles O43: the checks of a word give its cause, which the statement names by the word's fields. -/
theorem engineWordsQueue : Obligations.EngineWordsQueue := by
  unfold Obligations.EngineWordsQueue
  refine fun w s hm => ⟨fun h hp => ⟨_, exec_decode_refused hm h, trapS_traps hm hp 1 0 0⟩, fun a i ht hd => ?_⟩
  intro op v ctl illegal quince cause
  have hquince : ((classQOp w || (isMctl w && mctlL6 v)) && !classQ s.myCore) = true ↔ quince ∧ classQ s.myCore = false := by
    rw [Bool.and_eq_true, quince_iff ht, Bool.not_eq_true']
  have hcause : s.decodeCause w v = cause :=
    if_congr (illegal_iff ht s v) rfl (if_congr hquince rfl (if_congr (flash_iff ht s) rfl rfl))
  refine ⟨fun c hc hr hp => ⟨_, exec_decode_traps hm ht hd (hcause.trans hc) (fun h => hr ((isMctl_iff ht).1 h)), trapS_traps hm hp c 0 0⟩,
    fun hc hr hh => ⟨_, _, _, exec_decode_queues hm ht hd (hcause.trans hc) hr hh, hands_one a (tagAgent_tag ht).1 _, rfl, ?_⟩⟩
  rw [wordQueued_eq hm]
  exact State.adv_passes (State.hasAgent_main (s := (s.enqueue a (s.capture w)).modMe _) hm) _

end Sys2Proof.Machine
end

section
/-! PROOF. What a step runs (R62, R92, R93, R101, R115, R214, R263, R264, R276, R278, R406). -/

namespace Sys2Proof.Machine

open Sys2Proof

/-! ## The next mover, a port word and the clock -/

theorem step_moves {s : State} {m : Mover} {rest : List Mover} (h : s.Moves m rest) : step s = State.runMover { s with agenda := rest } m := by
  rw [step_agenda s m rest h.noRun h.head, advance_runs s m rest h.turn h.first]

theorem step_stream {s : State} {cid : Nat} {a : Agent} {rest : List Mover} (h : s.Moves (.stream cid a) rest) :
    step s = (s.moved (.stream cid a) rest).runAgent cid a := step_moves h

/-- A context that must issue before the head of the agenda does so (R101, R115). -/
theorem step_forced {s : State} {m : Mover} {rest : List Mover} {cid : Nat} (hr : s.portRun = none) (ha : s.agenda = m :: rest)
    (ht : s.turn.passed m.rank = false) (hf : s.forced m = some cid) : step s = s.runMover (.stream cid .S) := by
  rw [step_agenda s m rest hr ha]
  unfold State.advance
  dsimp only
  rw [ht, if_neg Bool.false_ne_true, hf]

/-- With no mover left, or none whose turn is still to come, the clk ends. -/
theorem step_ticks {s : State} (hr : s.portRun = none) (ha : s.agenda = [] ∨ ∃ m rest, s.agenda = m :: rest ∧ s.turn.passed m.rank = true)
    (hf : s.forced .idle = none) : step s = .next s.tick := by
  rcases ha with ha | ⟨m, rest, ha, hp⟩
  · have hstep : step s = s.advance .idle [] := by unfold step; rw [hr, ha]
    rw [hstep, advance_runs s .idle [] rfl hf, ← ha]
    rfl
  · rw [step_agenda s m rest hr ha]
    unfold State.advance
    dsimp only
    rw [hp, if_pos rfl, hf]
    rfl

theorem tick_on {s : State} (h : s.boot.off = false) :
    s.tick = State.clkStart { s.clkEnd with clk := s.clkEnd.clk + 1, turn := ⟨0, 0, 0⟩ } := by
  unfold State.tick; rw [h]; rfl

theorem tick_off {s : State} (h : s.boot.off = true) : s.tick = { s with clk := s.clk + 1, turn := ⟨0, 0, 0⟩ } := by
  unfold State.tick; rw [h]; rfl

theorem step_portWord {s : State} {r : PortRun} {i : Instr} (hr : s.portRun = some r) (hlt : r.pc < (s.slot r.cid r.slot).endOf r.epi)
    (hd : decodePort ((s.slot r.cid r.slot).word r.pc) = .ok i) : step s = exec i s := by
  have hstep : step s = s.runPort r := by unfold step; rw [hr]
  rw [hstep]
  unfold State.runPort
  dsimp only
  rw [if_neg (Nat.not_le.2 hlt), hd]

/-! ## S and the trap core: the word at the program counter -/

theorem fetchNext_of {u w : State} {bs : List Byte} (h : u.Fetches w bs) : u.fetchNext = (.bytes (sliceB bs (u.pc.toNat % 32) 8), w) := by
  unfold State.fetchNext
  dsimp only
  rcases h with ⟨hb, rfl⟩ | ⟨hb, hf, rfl⟩
  · rw [hb]
  · rw [hb]; dsimp only; rw [hf]

theorem tryS_of {y w : State} {cid : Nat} {bs : List Byte} (h : (y.at_ cid .S).Fetches w bs) : y.tryS cid = w.runWord ((y.at_ cid .S).wordIn bs) := by
  unfold State.tryS
  rw [fetchNext_of h]
  rfl

theorem runWord_engine {w : State} {x : Word} (h : tagAgent x ≠ none) : w.runWord x = exec (.engineInstructionDecode x) w := by
  obtain ⟨a, ha⟩ := Option.ne_none_iff_exists'.1 h
  unfold State.runWord
  rw [ha]

theorem runWord_instr {w : State} {x : Word} {i : Instr} (h : tagAgent x = none) (hd : decodeMain x.toNat = .ok i) : w.runWord x = exec i w := by
  unfold State.runWord
  rw [h, hd]

theorem runWord_illegal {w : State} {x : Word} {e : Reject} (h : tagAgent x = none) (hd : decodeMain x.toNat = .error e) :
    w.runWord x = .next (w.trapS 1 0 0) := by
  unfold State.runWord
  rw [h, hd]

/-- s as a context that takes the issue slot finds it: what a yield gave ends where the other context is ready too (R331). -/
def State.slotTaken (s : State) (cid : Nat) : State :=
  if (s.core (cid / 2)).gives.isSome = true ∧ s.wouldIssue (otherCtx cid) = true then s.modCore (cid / 2) (fun k => { k with gives := none }) else s

theorem runS_turn {x : State} {cid : Nat} (hc : (x.ctx cid).canTry x.clk = true) (hi : x.issueTurn cid = true) :
    x.runS cid = (x.slotTaken cid).tryS cid := by
  unfold State.runS State.slotTaken
  rw [hc, hi, if_pos (show (true && true) = true from rfl), apply_ite (fun t : State => t.tryS cid)]
  exact if_congr (by rw [Bool.and_eq_true]) rfl rfl

theorem slotTaken_cur (x : State) (cid : Nat) : (x.slotTaken cid).cur = x.cur := by
  unfold State.slotTaken; split <;> rfl

theorem runTrap_word {x w : State} {core cid : Nat} {bs : List Byte} {i : Instr} (hs : (x.core core).trap.serving = some cid)
    (hf : (x.core core).trap.firmware = false) (hn : (x.core core).trap.sc.nextIssue ≤ x.clk) (hh : (x.core core).trap.sc.hold = .none)
    (hw : (x.at_ cid .trapCore).Fetches w bs) (ht : tagAgent ((x.at_ cid .trapCore).wordIn bs) = none)
    (hd : decodeMain ((x.at_ cid .trapCore).wordIn bs).toNat = .ok i) : x.runTrap core = exec i w := by
  unfold State.wordIn at ht hd
  unfold State.runTrap
  dsimp only
  rw [hs]
  dsimp only
  rw [hf, if_neg Bool.false_ne_true, if_neg (by rw [hh]; simp [hn]), fetchNext_of hw]
  dsimp only
  rw [ht, hd]

/-! ## A trailing stream, and an event -/

theorem runAgent_trailing {a : Agent} (ha : a = .C ∨ a = .M ∨ a = .R ∨ a = .K) (x : State) (cid : Nat) : x.runAgent cid a = x.runX cid a := by
  rcases ha with rfl | rfl | rfl | rfl <;> rfl

theorem runX_starts {x : State} {cid : Nat} {a : Agent} {e : QEnt} {q : List QEnt} (hq : (x.ctx cid).eng.q a = e :: q)
    (hm : (x.ctx cid).mayStart = true) (hb : Map.find (x.ctx cid).eng.began (pathOf a) ≠ some x.clk) :
    (isFlow e.w = true → x.runX cid a = .next (x.at_ cid a).started) ∧
    (∀ i, isFlow e.w = false → decodeMain e.w.toNat = .ok i → x.runX cid a = exec i (x.at_ cid a)) := by
  have hcan : (x.ctx cid).eng.canStart (pathOf a) x.clk = true := bne_iff_ne.2 hb
  have hq' : ((x.at_ cid a).ctx cid).eng.q a = e :: q := hq
  have hstop : (!((x.at_ cid a).ctx cid).mayStart || !((x.at_ cid a).ctx cid).eng.canStart (pathOf a) (x.at_ cid a).clk) = false := by
    show (!(x.ctx cid).mayStart || !(x.ctx cid).eng.canStart (pathOf a) x.clk) = false
    rw [hm, hcan]; rfl
  unfold State.runX
  dsimp only
  rw [hq']
  dsimp only
  rw [hstop, if_neg Bool.false_ne_true]
  refine ⟨fun hflow => by rw [hflow]; rfl, fun i hflow hd => ?_⟩
  rw [hflow, if_neg Bool.false_ne_true, hd]

theorem runEvent_on {x : State} (hon : x.boot.off = false) {i : Instr} (he : encode i = none) (hd : ∀ w, i ≠ .engineInstructionDecode w) (port cid : Nat) :
    x.runEvent port cid i = exec i { x with cur := { port := port, cid := cid, agent := .S } } := by
  have hown : agentsOwn i = false := by
    unfold agentsOwn
    split
    · exact absurd rfl (hd _)
    · rw [he]; rfl
  unfold State.runEvent
  rw [hown, hon]
  rfl

/-- Settles O58, by who moves: S, a trailing stream, the trap core, a port program, an event, a context that must issue first, or the clock. -/
theorem stepRunsDecoded : Obligations.StepRunsDecoded := by
  unfold Obligations.StepRunsDecoded
  refine ⟨fun s cid rest bs w h => ?main, fun s cid a rest e q i h ha => ?trailing, fun s c cid rest bs w i h => ?trapCore,
    fun s r i hr hlt hd => step_portWord hr hlt hd,
    fun s port cid i rest h hon he hd => (step_moves h).trans (runEvent_on (x := s.moved (.event port cid i) rest) hon he hd port cid),
    fun s m rest cid hr ha ht hf => step_forced hr ha ht hf, fun s hr ha hf => ⟨fun hon => ?on, fun hoff => ?off⟩, ?words⟩
  case main =>
    intro x y u word hc hi hw
    have hu : u = y.at_ cid .S := by
      have hcur : y.cur = s.cur := slotTaken_cur x cid
      show _ = { y with cur := { y.cur with cid := cid, agent := .S } }
      rw [hcur]
    have hstep : step s = w.runWord word := by
      rw [step_stream h]
      show x.runS cid = _
      rw [runS_turn (x := x) hc hi]
      show y.tryS cid = _
      rw [tryS_of (hu ▸ hw), ← hu]
    exact ⟨fun ht => hstep.trans (runWord_engine ht), fun i ht hd => hstep.trans (runWord_instr ht hd),
      fun e ht hd => hstep.trans (runWord_illegal ht hd)⟩
  case trailing =>
    intro u hq hm hb
    have hstep : step s = (s.moved (.stream cid a) rest).runX cid a := (step_stream h).trans (runAgent_trailing ha _ cid)
    obtain ⟨hflow, hexec⟩ := runX_starts (x := s.moved (.stream cid a) rest) hq hm hb
    exact ⟨fun hf => hstep.trans (hflow hf), fun hf hd => hstep.trans (hexec i hf hd)⟩
  case trapCore =>
    intro k u hs hf hn hh hw ht hd
    exact (step_stream h).trans (runTrap_word (x := s.moved (.stream c .trapCore) rest) (core := c / 2) hs hf hn hh hw ht hd)
  case on => rw [step_ticks hr ha hf, tick_on hon]
  case off => rw [step_ticks hr ha hf, tick_off hoff]
  case words => decide

end Sys2Proof.Machine
end

section
/-! PROOF. The canonical form of every memory (R123, R129): what it says of the state, and the changes that it does not see. -/

namespace Sys2Proof.Machine

open Sys2Proof

/-! ## What a canonical state is made of -/

theorem Mem.wf_foldl_set {α : Type} (k : α → Nat) (v : α → Byte) (l : List α) {m : Mem} (h : Mem.wf m = true) :
    Mem.wf (l.foldl (fun m x => Mem.set m (k x) (v x)) m) = true :=
  List.foldlRecOn (motive := fun m => Mem.wf m = true) l _ h fun _ hm _ _ => Mem.wf_set hm _ _

/-- Both memories of a partition are in canonical form. -/
def Parts.Canonical (p : Parts) : Prop := Mem.wf p.spad = true ∧ Mem.wf p.wst = true

/-- The state of a step's outcome, where there is one, is canonical. -/
def Res.Canonical : Res → Prop
  | .next t => t.Canonical
  | .fault _ => True
  | .refused _ => True

/-- An iteration that does not stop answers a canonical state. -/
def Run.Canonical : Except Stop State → Prop
  | .ok t => t.Canonical
  | .error _ => True

section
-- the default arguments are evaluated one declaration after another
set_option Elab.async false

variable {s t : State}

theorem State.Canonical.parts (h : s.Canonical) (c : Nat) : (s.ctx c).parts.Canonical := ⟨h.1.spad c, h.1.wst c⟩

theorem State.Canonical.image (h : s.Canonical) {e : Nat} {im : Saved} (he : Map.find s.images e = some im) : im.ctx.parts.Canonical := h.2 e im he

/-- Only the memories matter: whatever else differs, the form is kept. -/
theorem State.Canonical.same (h : s.Canonical) (hb : t.mem.hbm = s.mem.hbm := by rfl) (hl : t.mem.clus = s.mem.clus := by rfl)
    (hp : t.mem.chip = s.mem.chip := by rfl) (hf : t.mem.flash = s.mem.flash := by rfl) (hh : t.host.mem = s.host.mem := by rfl)
    (hc : t.ctxs = s.ctxs := by rfl) (hk : t.cores = s.cores := by rfl) (hi : t.images = s.images := by rfl) : t.Canonical := by
  obtain ⟨⟨a, b, c, d, e, f, g, i⟩, j⟩ := h
  have hx : ∀ c, t.ctx c = s.ctx c := fun c => by unfold State.ctx; rw [hc]
  have hy : ∀ k, t.core k = s.core k := fun k => by unfold State.core; rw [hk]
  exact ⟨⟨hb ▸ a, hl ▸ b, hp ▸ c, hf ▸ d, hh ▸ e, fun c => hx c ▸ f c, fun c => hx c ▸ g c, fun k => hy k ▸ i k⟩, hi ▸ j⟩

/-! ## Contexts, cores and images set -/

theorem State.Canonical.setCtx (h : s.Canonical) {cid : Nat} {c : Ctx} (hc : c.parts.Canonical) : (s.setCtx cid c).Canonical := by
  refine ⟨{ h.1 with spad := fun x => ?_, wst := fun x => ?_ }, h.2⟩ <;> rw [State.ctx_setCtx] <;> split
  · exact hc.1
  · exact h.1.spad x
  · exact hc.2
  · exact h.1.wst x

/-- A change of a context; most leave its partition's memories alone. -/
theorem State.Canonical.modCtx (h : s.Canonical) {cid : Nat} {f : Ctx → Ctx}
    (hf : ∀ c, c.parts.Canonical → (f c).parts.Canonical := by exact fun _ h => h) : (s.modCtx cid f).Canonical :=
  h.setCtx (hf _ (h.parts cid))

theorem State.Canonical.setCore (h : s.Canonical) {k : Nat} {c : Core} (hc : Mem.wf c.trap.mem = true) : (s.setCore k c).Canonical := by
  refine ⟨{ h.1 with trap := fun x => ?_ }, h.2⟩
  rw [State.core_setCore]
  split
  · exact hc
  · exact h.1.trap x

/-- A change of a core; most leave the trap core's memory alone. -/
theorem State.Canonical.modCore (h : s.Canonical) {k : Nat} {f : Core → Core} (hf : ∀ c, (f c).trap.mem = c.trap.mem := by exact fun _ => rfl) :
    (s.modCore k f).Canonical := h.setCore (by rw [hf]; exact h.1.trap k)

theorem State.Canonical.putImage (h : s.Canonical) {e : Nat} {im : Saved} (hi : im.ctx.parts.Canonical) :
    State.Canonical { s with images := Map.put s.images e im } :=
  ⟨{ h.1 with }, fun x y hf => by
    rw [Map.find_put] at hf
    split at hf
    · cases hf; exact hi
    · exact h.image hf⟩

theorem State.Canonical.delImage (h : s.Canonical) {e : Nat} : State.Canonical { s with images := Map.del s.images e } :=
  ⟨{ h.1 with }, fun x y hf => by
    rw [Map.find_del] at hf
    split at hf
    · cases hf
    · exact h.image hf⟩

/-- A change of every context that leaves the partitions alone. -/
theorem State.Canonical.mapCtxs (h : s.Canonical) {f : Ctx → Ctx} (hf : ∀ c, (f c).parts = c.parts) :
    State.Canonical { s with ctxs := s.ctxs.map (fun x => (x.1, f x.2)) } := by
  have e : ∀ c, (State.ctx { s with ctxs := s.ctxs.map (fun x => (x.1, f x.2)) } c).parts = (s.ctx c).parts := fun c => by
    unfold State.ctx Map.getD
    rw [Map.find_map]
    cases Map.find s.ctxs c with
    | none => rfl
    | some x => exact hf x
  exact ⟨{ h.1 with spad := fun c => e c ▸ h.1.spad c, wst := fun c => e c ▸ h.1.wst c }, h.2⟩

/-- A change of every core that leaves the trap core's memory alone. -/
theorem State.Canonical.mapCores (h : s.Canonical) {f : Core → Core} (hf : ∀ c, (f c).trap.mem = c.trap.mem) :
    State.Canonical { s with cores := s.cores.map (fun x => (x.1, f x.2)) } := by
  have e : ∀ k, (State.core { s with cores := s.cores.map (fun x => (x.1, f x.2)) } k).trap.mem = (s.core k).trap.mem := fun k => by
    unfold State.core Map.getD
    rw [Map.find_map]
    cases Map.find s.cores k with
    | none => rfl
    | some x => exact hf x
  exact ⟨{ h.1 with trap := fun k => e k ▸ h.1.trap k }, h.2⟩

/-! ## Choices and folds -/

theorem State.Canonical.ite {p : Prop} [Decidable p] (hs : s.Canonical) (ht : t.Canonical) : (if p then s else t).Canonical := by
  split <;> assumption

theorem Res.Canonical.ite {p : Prop} [Decidable p] {a b : Res} (ha : Res.Canonical a) (hb : Res.Canonical b) : Res.Canonical
    (if p then a else b) := by
  split <;> assumption

theorem Run.Canonical.ite {p : Prop} [Decidable p] {a b : Except Stop State} (ha : Run.Canonical a) (hb : Run.Canonical b) :
    Run.Canonical (if p then a else b) := by
  split <;> assumption

theorem State.Canonical.foldl {α : Type} {f : State → α → State} {l : List α} (h : s.Canonical) (hf : ∀ s x, s.Canonical → (f s x).Canonical) :
    (l.foldl f s).Canonical := List.foldlRecOn (motive := State.Canonical) l f h (fun s hs x _ => hf s x hs)

/-- The same where the state is carried in a pair. -/
theorem State.Canonical.foldl_snd {α β : Type} {f : β × State → α → β × State} {l : List α} {x : β × State} (h : x.2.Canonical)
    (hf : ∀ x a, x.2.Canonical → (f x a).2.Canonical) : (l.foldl f x).2.Canonical :=
  List.foldlRecOn (motive := fun x => x.2.Canonical) l f h (fun x hx a _ => hf x a hx)

theorem State.Canonical.foldl_fst {α β : Type} {f : State × β → α → State × β} {l : List α} {x : State × β} (h : x.1.Canonical)
    (hf : ∀ x a, x.1.Canonical → (f x a).1.Canonical) : (l.foldl f x).1.Canonical :=
  List.foldlRecOn (motive := fun x => x.1.Canonical) l f h (fun x hx a _ => hf x a hx)

theorem Parts.Canonical.foldl_fst {α β : Type} {f : Parts × β → α → Parts × β} {l : List α} {x : Parts × β} (h : x.1.Canonical)
    (hf : ∀ x a, x.1.Canonical → (f x a).1.Canonical) : (l.foldl f x).1.Canonical :=
  List.foldlRecOn (motive := fun x => x.1.Canonical) l f h (fun x hx a _ => hf x a hx)

/-! ## Runs that may stop -/

theorem Run.Canonical.pure (h : s.Canonical) : Run.Canonical (pure s) := h

theorem Run.Canonical.bind_run {x : Except Stop State} {f : State → Except Stop State} (hx : Run.Canonical x)
    (hf : ∀ a, a.Canonical → Run.Canonical (f a)) : Run.Canonical (x >>= f) := by
  cases x with
  | error e => trivial
  | ok a => exact hf a hx

theorem Run.Canonical.bind {α : Type} {x : Except Stop α} {f : α → Except Stop State} (hf : ∀ a, x = .ok a → Run.Canonical (f a)) :
    Run.Canonical (x >>= f) := by
  cases x with
  | error e => trivial
  | ok a => exact hf a rfl

theorem State.Canonical.ite_snd {β : Type} {p : Prop} [Decidable p] {a b : β × State} (ha : a.2.Canonical) (hb : b.2.Canonical) :
    (if p then a else b).2.Canonical := by split <;> assumption

theorem State.Canonical.ite_fst {β : Type} {p : Prop} [Decidable p] {a b : State × β} (ha : a.1.Canonical) (hb : b.1.Canonical) :
    (if p then a else b).1.Canonical := by split <;> assumption

/-! ## Changes of a partition -/

theorem Parts.Canonical.wakeNow {c : Ctx} (h : c.parts.Canonical) : c.wakeNow.parts.Canonical := by
  unfold Ctx.wakeNow
  split <;> exact h

theorem Parts.Canonical.wakeOn {c : Ctx} {p : Place} {n : Nat} (h : c.parts.Canonical) : (c.wakeOn p n).parts.Canonical := by
  have e : (c.wakeOn p n).parts = c.parts := by
    have := congrArg Ctx.parts (c.wakeOn_rest p n)
    exact this
  exact e ▸ h

theorem Parts.Canonical.noticed {c : Ctx} {q : RemReq} (h : c.parts.Canonical) : (c.noticed q).parts.Canonical := by
  unfold Ctx.noticed
  split
  · split
    · exact h.wakeNow
    · exact h
  · exact h

theorem Parts.Canonical.refill {p : Parts} {g src a : Nat} {bs : List Byte} (h : p.Canonical) : (p.refill g src a bs).Canonical :=
  ⟨h.1, Mem.wf_foldl_set _ _ _ h.2⟩

theorem State.Canonical.resState {r : Res} (h : s.Canonical) (hr : Res.Canonical r) : (resState s r).Canonical := by
  cases r with
  | next t => exact hr
  | fault c => exact h
  | refused w => exact h

/-- Accumulators are not memories. -/
theorem Parts.Canonical.setAcc {p : Parts} {m : Map (BitVec 32)} (h : p.Canonical) : Parts.Canonical { p with acc := m } := ⟨h.1, h.2⟩

theorem Parts.Canonical.markTile {p : Parts} {t : Nat} {i : Bool} (h : p.Canonical) : (p.markTile t i).Canonical := ⟨h.1, h.2⟩

theorem Parts.Canonical.zeroTile {p : Parts} {t : Nat} {i : Bool} (h : p.Canonical) : (p.zeroTile t i).Canonical := h.setAcc.markTile

theorem Parts.Canonical.watchBound {c : Ctx} {n : Nat} (h : c.parts.Canonical) : (c.watchBound n).parts.Canonical := by
  unfold Ctx.watchBound
  split
  · exact h
  · split <;> exact h

end
end Sys2Proof.Machine
end

section
/-! PROOF. The state's operations keep every memory in canonical form: memory itself, the S path, the scheduler (R68-R88, R117-R153). -/

namespace Sys2Proof.Machine

open Sys2Proof

section
-- the default arguments are evaluated one declaration after another
set_option Elab.async false

variable {s : State} {cid : Nat} {u : EUnit} {m : Cmd}

/-! ## The parts of the state -/

theorem State.Canonical.reset : State.reset.Canonical := reset_canonical

theorem State.Canonical.setHport {p : Nat} {v : PortSt} (h : s.Canonical) : (s.setHport p v).Canonical := h.same

theorem State.Canonical.setColl {die : Nat} {c : Coll} (h : s.Canonical) : (s.setColl die c).Canonical := h.same

theorem State.Canonical.modMe {f : Ctx → Ctx} (h : s.Canonical) (hf : ∀ c, c.parts.Canonical → (f c).parts.Canonical := by exact fun _ h => h) :
    (s.modMe f).Canonical :=
  h.modCtx hf

theorem State.Canonical.bump (h : s.Canonical) : s.bump.Canonical := h.same

theorem State.Canonical.post {dev : Nat} {m : Msg} (h : s.Canonical) : (s.post dev m).Canonical := h.same.ite h.same

theorem State.Canonical.setSca {sc : Scalar} (h : s.Canonical) : (s.setSca sc).Canonical := by
  unfold State.setSca
  split
  case h_1 | h_2 => exact h.modCore
  all_goals exact h.modMe

theorem State.Canonical.res {r : Nat} {v : Word} {lat : Nat} (h : s.Canonical) : (s.res r v lat).Canonical := h.setSca

theorem State.Canonical.resVar {r : Nat} {v : Word} (h : s.Canonical) : (s.resVar r v).Canonical := h.setSca

theorem State.Canonical.takeSlot (h : s.Canonical) : s.takeSlot.Canonical := by
  unfold State.takeSlot
  split
  case h_2 | h_3 => exact h.modCore
  all_goals exact h

theorem State.Canonical.retire {st extra : Nat} {next : Word} (h : s.Canonical) : (s.retire st extra next).Canonical := h.setSca.takeSlot

theorem State.Canonical.adv {st : Nat} (h : s.Canonical) : (s.adv st).Canonical := h.retire

theorem State.Canonical.park {y : Hold} {st : Nat} (h : s.Canonical) : (s.park y st).Canonical := h.setSca.takeSlot

theorem State.Canonical.go (h : s.Canonical) : s.go.Canonical := h.setSca

/-! ## Memory, translation and L1 -/

theorem State.Canonical.hbmSet {slot pa : Nat} {b : Byte} (h : s.Canonical) : (s.hbmSet slot pa b).Canonical := by
  have hi : (s.hbmSet slot pa b).images = s.images := by have := congrArg State.images (s.hbmSet_moves slot pa b 0).rest; exact this
  exact ⟨h.1.wr1 0 (.loc pa slot 0 0) b, by rw [hi]; exact h.2⟩

theorem State.Canonical.setPoison {p : Place} (h : s.Canonical) : (s.setPoison p).Canonical := h.same

theorem State.images_wr1 (s : State) (l : Nat) (p : Place) (b : Byte) : (s.wr1 l p b).images = s.images := by
  cases p
  case loc pa key cl wp => have := congrArg State.images (s.hbmSet_moves key pa b 0).rest; exact this
  all_goals rfl

theorem State.Canonical.wr1 {launch : Nat} {p : Place} {b : Byte} (h : s.Canonical) : (s.wr1 launch p b).Canonical :=
  ⟨h.1.wr1 launch p b, by rw [State.images_wr1]; exact h.2⟩

theorem State.Canonical.wrBytes {launch : Nat} {bs : List Byte} {p : Place} (h : s.Canonical) : (s.wrBytes launch p bs).Canonical := by
  induction bs generalizing s p with
  | nil => exact h
  | cons b bs ih => exact ih h.wr1

theorem State.Canonical.notices {p : Place} {n : Nat} (h : s.Canonical) : (s.notices p n).Canonical := h.same.foldl (fun _ _ h => h.post)

theorem State.Canonical.wakeOn {p : Place} {n : Nat} (h : s.Canonical) : (s.wakeOn p n).Canonical :=
  ⟨{ h.1 with
      spad := fun c => by rw [State.ctx_wakeOn]; exact (h.parts c).wakeOn.1
      wst := fun c => by rw [State.ctx_wakeOn]; exact (h.parts c).wakeOn.2 }, h.2⟩

theorem State.Canonical.wakeCore (h : s.Canonical) : (s.wakeCore cid).Canonical :=
  (h.modCtx (hf := fun _ a => a.wakeNow)).modCtx (hf := fun _ a => a.wakeNow)

theorem State.Canonical.heal {p : Place} {n : Nat} (h : s.Canonical) : (s.heal p n).Canonical := h.same

theorem State.Canonical.wr {launch : Nat} {p : Place} {bs : List Byte} (h : s.Canonical) : (s.wr launch p bs).Canonical :=
  h.wrBytes.heal.wakeOn.notices

theorem State.Canonical.l1Put {core pa : Nat} {bs : List Byte} {dirty : Bool} (h : s.Canonical) : (s.l1Put core pa bs dirty).Canonical := by
  unfold State.l1Put
  split
  · exact h
  · exact h.modCore

theorem State.Canonical.wbLine {core n : Nat} (h : s.Canonical) : (s.wbLine core n).Canonical := by
  unfold State.wbLine
  split
  · exact h
  · exact (h.foldl (fun _ _ h => h.wr)).modCore.ite h

theorem State.Canonical.dropLine {core n : Nat} (h : s.Canonical) : (s.dropLine core n).Canonical := h.wbLine.modCore

theorem State.Canonical.l1Room {core n : Nat} (h : s.Canonical) : (s.l1Room core n).Canonical := by
  unfold State.l1Room
  refine State.Canonical.ite h ?_
  split
  · exact h.dropLine
  · exact h

theorem State.Canonical.l1Fill {core pa key : Nat} (h : s.Canonical) : (s.l1Fill core pa key).Canonical := by
  unfold State.l1Fill
  split
  · exact h
  · exact h.l1Room.modCore

theorem State.Canonical.l1Mark {core pa : Nat} {lu : Bool} (h : s.Canonical) : (s.l1Mark core pa lu).Canonical := by
  unfold State.l1Mark
  split
  · exact h.modCore
  · exact h

theorem State.Canonical.wbAll {core : Nat} (h : s.Canonical) : (s.wbAll core).Canonical := h.foldl (fun _ _ h => h.wbLine)

theorem State.Canonical.wbInv {core : Nat} (h : s.Canonical) : (s.wbInv core).Canonical := h.wbAll.modCore

theorem State.Canonical.flushPlace {core : Nat} {p : Place} (h : s.Canonical) : (s.flushPlace core p).Canonical := by
  unfold State.flushPlace
  split
  · exact h.dropLine
  · exact h

theorem State.Canonical.ageL1 {core : Nat} (h : s.Canonical) : (s.ageL1 core).Canonical := h.foldl (fun _ _ h => h.dropLine)

theorem State.Canonical.strike {p : Place} {hard : Bool} (h : s.Canonical) : (s.strike p hard).Canonical := h.ite (h.setPoison.ite h.same)

theorem State.Canonical.sRead {core : Nat} {p : Place} {n : Nat} (h : s.Canonical) : (s.sRead core p n).Canonical := by
  unfold State.sRead
  split
  · exact h
  · exact h.modCore

theorem State.Canonical.noteXlat {va : Word} (h : s.Canonical) : (s.noteXlat cid va).Canonical := by
  unfold State.noteXlat
  refine State.Canonical.ite ?_ h
  refine State.Canonical.ite h.bump ?_
  split
  · exact h
  · exact h.modCore

/-! ## The S path -/

theorem State.Canonical.send {dev key : Nat} {r : RemoteReq} {q : RemReq} (h : s.Canonical) : (s.send dev key r q).Canonical := h.same.post

theorem State.Canonical.addFail {f : EFault} (h : s.Canonical) : (s.addFail cid f).Canonical := h.modCtx

theorem State.Canonical.mredAt {m : MredMode} {p : Place} {va a : Word} (h : s.Canonical) : (s.mredAt cid m p va a).Canonical :=
  h.addFail.ite h.sRead.wr

theorem State.Canonical.amoAt {p : Place} {n : Nat} {op : AmoOp} {b : Word} (h : s.Canonical) : (s.amoAt cid p n op b).2.Canonical := h.sRead.wr

theorem State.Canonical.casAt {p : Place} {n : Nat} {expect new : Word} (h : s.Canonical) : (s.casAt cid p n expect new).2.Canonical :=
  h.sRead.wr.ite_snd h.sRead

theorem State.Canonical.vamoAll {p : Place} {wide : Bool} {op : AmoOp} {bs : List Word} (h : s.Canonical) :
    (s.vamoAll cid p wide op bs).2.Canonical :=
  h.foldl_snd (fun _ _ h => h.amoAt)

theorem State.Canonical.storeHome {p : Place} {bs : List Byte} (h : s.Canonical) : (s.storeHome cid p bs).Canonical := by
  unfold State.storeHome
  dsimp only
  split
  case h_1 => exact h.l1Put.wr.ite h.dropLine.wr
  case h_7 => exact h
  all_goals exact h.wr

theorem State.Canonical.scWrite {a : ScAcc} (h : s.Canonical) : (s.scWrite cid a).Canonical := by
  unfold State.scWrite
  dsimp only
  split
  · exact h.flushPlace.storeHome
  · exact h.flushPlace.ite h.flushPlace.amoAt
  · exact h.flushPlace.ite h.flushPlace.casAt
  · exact h.flushPlace.ite h.flushPlace.vamoAll
  · exact h.flushPlace
  · exact h.flushPlace

theorem State.Canonical.lodge {pa key : Nat} {y : Hint} {bs : List Byte} (h : s.Canonical) : (s.lodge cid pa key y bs).Canonical :=
  h.l1Fill.l1Put.l1Mark

theorem State.Canonical.noteStored {p : Place} {seq : Nat} (h : s.Canonical) : (s.noteStored cid p seq).Canonical := by
  unfold State.noteStored
  split
  · exact h
  · exact h.modCtx

theorem State.Canonical.performHere {e : StEnt} {lodge : Bool} (h : s.Canonical) : (s.performHere cid e lodge).Canonical := by
  unfold State.performHere
  dsimp only
  split
  · refine State.Canonical.ite ?_ (h.wbAll.ite h).noteStored.storeHome
    split
    · exact (h.wbAll.ite h).noteStored.lodge
    · exact (h.wbAll.ite h).noteStored
  · exact (h.wbAll.ite h).flushPlace.foldl (fun _ _ h => h.mredAt)
  · exact (h.wbAll.ite h).flushPlace.foldl (fun _ _ h => h.mredAt)

theorem State.Canonical.sendEnt {e : StEnt} {dev pa key : Nat} (h : s.Canonical) : (s.sendEnt cid e dev pa key).2.Canonical :=
  (h.wbAll.ite h).foldl_snd (fun _ _ h => h.send)

theorem State.Canonical.perform {e : StEnt} {lodge : Bool} (h : s.Canonical) : (s.perform cid e lodge).Canonical := by
  unfold State.perform
  split
  · exact h.performHere
  · exact h.ite h.sendEnt.modCtx

theorem State.Canonical.acquire {sc : Scope} (h : s.Canonical) : (s.acquire cid sc).Canonical := h.ite h.wbInv

theorem State.Canonical.release {sc : Scope} (h : s.Canonical) : (s.release cid sc).Canonical := h.ite h.wbAll

/-! ## The scheduler -/

theorem State.Canonical.modSched {f : Sched → Sched} (h : s.Canonical) : (s.modSched f).Canonical := h.same

theorem State.Canonical.setEntry {e : Nat} {v : Entry} (h : s.Canonical) : (s.setEntry e v).Canonical := h.modSched

theorem State.Canonical.modEntry {e : Nat} {f : Entry → Entry} (h : s.Canonical) : (s.modEntry e f).Canonical := by
  unfold State.modEntry
  split
  · exact h.setEntry
  · exact h

theorem State.Canonical.dropEntry {e : Nat} (h : s.Canonical) : (s.dropEntry e).Canonical := h.modSched.delImage

theorem State.Canonical.modLaunch {l : Nat} {f : Launch → Launch} (h : s.Canonical) : (s.modLaunch l f).Canonical := by
  unfold State.modLaunch
  split
  · exact h.modSched
  · exact h

theorem State.Canonical.joinDown {l : Nat} (h : s.Canonical) : (s.joinDown l).Canonical := h.modLaunch

theorem State.Canonical.setBunch {b : Nat} {v : Bunch} (h : s.Canonical) : (s.setBunch b v).Canonical := h.modSched

theorem State.Canonical.settleBunch {y : Nat} {b : Bunch} (h : s.Canonical) : (s.settleBunch y b).Canonical := h.setBunch

theorem State.Canonical.parkClus {cluster y : Nat} (h : s.Canonical) : (s.parkClus cluster y).Canonical := by
  unfold State.parkClus
  split
  · exact h
  · split
    · exact h
    · rename_i im he
      exact h.putImage (h.image (im := im) he)

theorem State.Canonical.leaveBunch (h : s.Canonical) : (s.leaveBunch cid).Canonical := by
  unfold State.leaveBunch
  split
  · exact h
  · refine State.Canonical.ite h ?_
    dsimp only
    split
    · exact h.modCtx
    · exact (h.modCtx.setBunch.ite h.modCtx.parkClus.setBunch).ite h.modCtx.settleBunch

theorem State.Canonical.dropPoison {us : List Nat} (h : s.Canonical) : State.Canonical { s with mem := { s.mem with poison := us } } := h.same

theorem State.Canonical.wrEnt {path : Nat} {e : WEnt} (h : s.Canonical) : (s.wrEnt cid path e).Canonical := by
  have hw : (match e.dev? with
    | some (dev, pa, key) =>
      s.send dev key (.granule (pa / 32 * 32) (e.parts.filterMap (fun (x : Place × List Byte) => x.1.dev?.map (fun (d : Nat × Nat × Nat) =>
          (d.2.1, x.2)))))
        ⟨cid, dev, .engineStore path e.u e.seq, e.va, 0, e.seq, 0⟩
    | none => e.parts.foldl (fun s (x : Place × List Byte) => s.wr (s.ctx cid).launch x.1 x.2) s).Canonical := by
    split
    · exact h.send
    · exact h.foldl fun _ _ h => h.wr
  unfold State.wrEnt
  dsimp only
  split
  · exact hw.dropPoison.modCtx
  · exact hw.dropPoison

theorem State.Canonical.flushWq (h : s.Canonical) : (s.flushWq cid).Canonical := by
  unfold State.flushWq
  exact (h.foldl (fun _ _ a => a.foldl (fun _ _ h => h.wrEnt))).modCtx

theorem State.Canonical.flushStores (h : s.Canonical) : (s.flushStores cid).Canonical := by
  unfold State.flushStores
  exact (h.foldl (fun _ _ h => h.perform)).modCtx

theorem State.Canonical.finishHold {y : Hold} (h : s.Canonical) : (s.finishHold cid y).Canonical := by
  unfold State.finishHold
  dsimp only
  split
  · split
    · exact h.scWrite.ite h
    · exact h
  · split
    · refine State.Canonical.foldl ?_ (fun _ _ h => h.send)
      split
      · exact h.scWrite.ite h
      · exact h
    · split
      · exact h.scWrite.ite h
      · exact h
    · split
      · exact h.scWrite.ite h
      · exact h
    · split
      · exact h.scWrite.ite h
      · exact h
    · split
      · exact h.scWrite.ite h
      · exact h
    · split
      · exact h.scWrite.ite h
      · exact h
    · split
      · exact h.scWrite.ite h
      · exact h
    · split
      · exact h.scWrite.ite h
      · exact h
    · split
      · exact h.scWrite.ite h
      · exact h
    · split
      · exact h.scWrite.ite h
      · exact h
    · split
      · exact h.scWrite.ite h
      · exact h
    · split
      · exact h.scWrite.ite h
      · exact h
    · split
      · exact h.scWrite.ite h
      · exact h

theorem State.Canonical.flushSc (h : s.Canonical) : (s.flushSc cid).Canonical := h.finishHold.finishHold.ite h.finishHold

theorem State.Canonical.detach (h : s.Canonical) : (s.detach cid).Canonical := h.same

theorem State.Canonical.setPortRun {r : Option PortRun} (h : s.Canonical) : State.Canonical { s with portRun := r } := h.same

theorem State.Canonical.vacate (h : s.Canonical) : (s.vacate cid).Canonical :=
  (State.Canonical.modCore (h.setCtx ⟨rfl, rfl⟩).detach.wakeCore (hf := fun k => by dsimp only; split <;> rfl)).setPortRun

theorem State.Canonical.releaseCtx (h : s.Canonical) : (s.releaseCtx cid).Canonical := h.flushStores.flushWq.leaveBunch.wbInv.vacate

theorem State.Canonical.refund {q n : Nat} (h : s.Canonical) : (s.refund q n).Canonical := h.modSched

theorem State.Canonical.offer {p : Preempt} (h : s.Canonical) : (s.offer cid p).Canonical := by
  unfold State.offer
  split
  · exact h.modSched
  · exact h

theorem State.Canonical.victimEnded {e : Nat} (h : s.Canonical) : (s.victimEnded e cid).Canonical := by
  unfold State.victimEnded
  split
  · exact h
  · exact h.offer.modSched.refund.ite h.offer.modSched

theorem State.Canonical.stopTask (h : s.Canonical) : (s.stopTask cid).Canonical := by
  unfold State.stopTask
  split
  · exact h
  · exact h.flushSc.releaseCtx.dropEntry.victimEnded

theorem State.Canonical.abortLaunch {l stat : Nat} (h : s.Canonical) : (s.abortLaunch l stat).Canonical := by
  unfold State.abortLaunch
  split
  · exact h
  · exact h.ite ((h.foldl (fun _ _ h => h.stopTask)).foldl (fun _ _ h => h.dropEntry)).modLaunch

theorem State.Canonical.countFault {l core cause : Nat} {fa : Word} (h : s.Canonical) : (s.countFault l core cause fa).Canonical := h.modLaunch

theorem State.Canonical.fatal {cause : Nat} {fpc : Word} (h : s.Canonical) : (s.fatal cid cause fpc).Canonical := by
  unfold State.fatal
  split
  · exact h
  · exact h.countFault.abortLaunch

theorem State.Canonical.failRecord {e cause : Nat} (h : s.Canonical) : (s.failRecord e cause).Canonical := by
  unfold State.failRecord
  split
  · exact h
  · exact h.countFault.dropEntry.abortLaunch

theorem State.Canonical.readHdr {e : Nat} (h : s.Canonical) : (s.readHdr e).Canonical := by
  unfold State.readHdr
  split
  · exact h
  · refine State.Canonical.ite h ?_
    refine State.Canonical.ite h.failRecord ?_
    split
    · exact h.failRecord
    · exact h
    · split
      · exact h.failRecord
      · exact h.setEntry.ite h.failRecord

theorem State.Canonical.endHelper {core : Nat} (h : s.Canonical) : (s.endHelper core).Canonical := h.modCore

theorem State.Canonical.endHelperOf (h : s.Canonical) : (s.endHelperOf cid).Canonical := by
  unfold State.endHelperOf
  split
  · exact h.endHelper.ite h
  · exact h

theorem State.Canonical.detect {c : Cause} (h : s.Canonical) : (s.detect cid c).Canonical := h.wakeCore.endHelperOf.modCtx

theorem State.Canonical.raise {f : Frame} (h : s.Canonical) : (s.raise cid f).Canonical := h.detect

theorem State.Canonical.raiseOnce {f : Frame} (h : s.Canonical) : (s.raiseOnce cid f).Canonical := h.detect

theorem State.Canonical.askStop {kill : Bool} (h : s.Canonical) : (s.askStop cid kill).Canonical := h.wakeCore.endHelperOf.modCtx

theorem State.Canonical.preempt {e : Nat} {n : Entry} {c : Cand} {kill : Bool} {tokens : Nat} (h : s.Canonical) :
    (s.preempt e n c kill tokens).Canonical :=
  h.modSched.foldl (fun _ _ h => h.askStop)

theorem State.Canonical.decision {e : Nat} (h : s.Canonical) : (s.decision e).Canonical := by
  unfold State.decision
  split
  · exact h
  · split
    · exact h
    · refine State.Canonical.ite h ?_
      split
      · exact h
      · exact h.ite (h.preempt.ite (h.preempt.ite h))

theorem State.Canonical.ready {e : Nat} (h : s.Canonical) : (s.ready e).Canonical := h.modEntry.modSched.readHdr.decision

theorem State.Canonical.enter {e : Nat} {r : Record} {l : Nat} (h : s.Canonical) : (s.enter e r l).Canonical := h.setEntry.ready.ite h.setEntry

theorem State.Canonical.doom (h : s.Canonical) : (s.doom cid).Canonical := h.raise.modCtx

theorem State.Canonical.startHelper {t : Task} (h : s.Canonical) : (s.startHelper cid t).Canonical := h.modCore.ite h

theorem State.Canonical.assign {e : Nat} {v : Entry} (h : s.Canonical) : (s.assign e cid v).Canonical := by
  unfold State.assign
  exact h.setEntry.modSched

theorem State.Canonical.place {e : Nat} {member : Bool} (h : s.Canonical) : (s.place e cid member).Canonical := by
  unfold State.place
  split
  · exact h
  · rename_i v _
    have hs : ((s.assign e cid v).wbInv (cid / 2)).Canonical := h.assign.wbInv
    dsimp only
    split
    · rename_i im he
      have hi : im.ctx.parts.Canonical := hs.image he
      have hr := (hs.setCtx (cid := cid) (c := im.ctx.restored ⟨e, v.launch, v.record, v.hdr.getD .zero, s.isSysCode v.record.code, s.groupOf e v,
          member⟩
        ((s.assign e cid v).wbInv (cid / 2)).clk) hi).wakeCore (cid := cid)
      exact (hr.delImage).ite hr.delImage.fatal
    · exact (hs.setCtx ⟨rfl, rfl⟩).wakeCore.doom.ite (hs.setCtx ⟨rfl, rfl⟩).wakeCore.startHelper

end

end Sys2Proof.Machine
end

section
/-! PROOF. The instructions of S and of the port programs keep every memory in canonical form (R299-R343, R400-R426). -/

namespace Sys2Proof.Machine

open Sys2Proof

section
-- the default arguments are evaluated one declaration after another
set_option Elab.async false

variable {s : State} {cid : Nat} {u : EUnit} {m : Cmd}

/-! ## What the instructions share -/

theorem State.Canonical.fetchNext (h : s.Canonical) : (s.fetchNext).2.Canonical := by
  unfold State.fetchNext
  dsimp only
  split
  · exact h
  · split
    · exact h.setSca
    · exact h
    · exact h

theorem State.Canonical.serviceKill {core cause detail : Nat} (h : s.Canonical) : (s.serviceKill core cause detail).Canonical := by
  unfold State.serviceKill
  split
  · exact h
  · exact h.fatal.modCore

theorem State.Canonical.trapAs {once : Bool} {code detail : Nat} {faddr : Word} (h : s.Canonical) : (s.trapAs once code detail faddr).Canonical := by
  unfold State.trapAs
  dsimp only
  split
  case h_1 => exact h.serviceKill
  case h_2 => exact h.endHelper
  all_goals exact h.detect

theorem State.Canonical.trapS {code detail : Nat} {faddr : Word} (h : s.Canonical) : (s.trapS code detail faddr).Canonical := h.trapAs

theorem State.Canonical.issue {srcs : List Nat} {dst : Option (Nat × Nat)} {k : Res} (h : s.Canonical) (hk : Res.Canonical k) : Res.Canonical
    (s.issue srcs dst k) := by
  unfold State.issue
  refine Res.Canonical.ite h ?_
  refine Res.Canonical.ite ?_ hk
  split
  · exact h.trapS
  · exact hk

theorem State.Canonical.result {st : Nat} {srcs : List Nat} {rd : Nat} {v : Word} {lat : Nat} (h : s.Canonical) : Res.Canonical
    (s.result st srcs rd v lat) :=
  h.issue h.res.adv

theorem State.Canonical.issueVar {srcs dsts : List Nat} {k : Res} (h : s.Canonical) (hk : Res.Canonical k) : Res.Canonical (s.issueVar srcs dsts k) :=
  Res.Canonical.ite h (h.issue hk)

theorem State.Canonical.resultVar {st : Nat} {srcs : List Nat} {rd : Nat} {v : Word} (h : s.Canonical) : Res.Canonical (s.resultVar st srcs rd v) :=
  h.issueVar h.resVar.adv

theorem State.Canonical.mainOnly {k : Res} (h : s.Canonical) (hk : Res.Canonical k) : Res.Canonical (s.mainOnly k) := by
  unfold State.mainOnly
  split
  case h_1 => exact h.serviceKill
  case h_2 => exact h.endHelper
  all_goals exact hk

theorem State.Canonical.startHandler (h : s.Canonical) : (s.startHandler cid).Canonical := by
  have hn : (if (s.ctx cid).leaving then s.modCtx cid Ctx.noteFails else s).Canonical := h.modCtx.ite h
  unfold State.startHandler
  dsimp only
  split
  · exact hn
  · split
    · exact hn.modCtx.modCore
    · exact hn
    · exact hn.modCtx.modCore.serviceKill

theorem State.Canonical.parkMember (h : s.Canonical) : (s.parkMember cid).Canonical := by
  unfold State.parkMember
  split
  · exact h
  · refine State.Canonical.ite h ?_
    split
    · exact h
    · exact h.parkClus.setBunch.ite h.setBunch

theorem State.Canonical.save {reason : Nat} (h : s.Canonical) : (s.save cid reason).Canonical := by
  unfold State.save
  split
  · exact h
  · have hs : ((s.flushWq cid).wbInv (cid / 2)).Canonical := h.flushWq.wbInv
    have hc : (((s.flushWq cid).wbInv (cid / 2)).ctx cid).parts.Canonical := hs.parts cid
    generalize (s.flushWq cid).wbInv (cid / 2) = s1 at hs hc
    extract_lets c v mig r0 _ r1 c1 c2 c3 c4 img s2 s3
    have h1 : c1.parts.Canonical := by unfold c1; split <;> exact hc
    have hi : img.ctx.parts.Canonical := h1
    exact State.Canonical.modEntry (State.Canonical.setCtx (hs.putImage hi).parkMember.vacate ⟨rfl, rfl⟩)

theorem State.Canonical.rewindRings (h : s.Canonical) : (s.rewindRings cid).Canonical := by
  unfold State.rewindRings
  refine State.Canonical.foldl h (fun s x a => ?_)
  split
  · exact a.setColl.ite a
  · exact a

theorem State.Canonical.requeue (h : s.Canonical) : (s.requeue cid).Canonical := by
  unfold State.requeue
  split
  · exact h
  · exact h.rewindRings.releaseCtx.modEntry.ready

theorem State.Canonical.victimGone {e : Nat} (h : s.Canonical) : (s.victimGone e cid).Canonical := by
  unfold State.victimGone
  split
  · exact h
  · exact h.offer.modSched

theorem State.Canonical.standTokens {e : Nat} (h : s.Canonical) : (s.standTokens e).Canonical := h.modSched

theorem State.Canonical.voidPreempt {e : Nat} (h : s.Canonical) : (s.voidPreempt e).Canonical := by
  unfold State.voidPreempt
  split
  · exact h
  · exact h.modSched.refund

theorem State.Canonical.endServe {core : Nat} (h : s.Canonical) : (s.endServe core).Canonical := h.modCore

theorem State.Canonical.resume {skip : Bool} (h : s.Canonical) : (s.resume cid skip).Canonical :=
  h.modCtx (hf := fun c hc => by cases skip <;> exact hc)

theorem State.Canonical.stopOthers {mig : Bool} (h : s.Canonical) : (s.stopOthers cid mig).Canonical := by
  unfold State.stopOthers
  refine State.Canonical.foldl h (fun s x a => ?_)
  refine State.Canonical.ite ?_ ?_
  · refine State.Canonical.modCtx ?_
    split
    · exact a.modEntry
    · exact a
  · refine State.Canonical.askStop ?_
    split
    · exact a.modEntry
    · exact a

theorem State.Canonical.migrate (h : s.Canonical) : (s.migrate cid).Canonical := by
  unfold State.migrate
  split
  · exact h
  · exact h.voidPreempt.stopOthers.save

theorem State.Canonical.tret {core : Nat} (h : s.Canonical) : (s.tret core).Canonical := by
  unfold State.tret
  split
  · exact h
  · rename_i cid _
    dsimp only
    split
    · exact h.endServe
    · refine h.serviceKill.ite (h.serviceKill.ite (h.serviceKill.ite (h.ite (h.serviceKill.ite (h.serviceKill.ite
        (h.endServe.resume.ite (h.modCtx.ite ?_)))))))
      obtain ⟨t, ht, he⟩ : ∃ t : State, t.Canonical ∧ t = (if bitOf (s.ctx cid).trap.ssw 0 = true then
        (s.endServe core).modCtx cid (fun c => c.modSc Scalar.skip) else s.endServe core) := ⟨_, h.endServe.modCtx.ite h.endServe, rfl⟩
      rw [← he]
      exact ((ht.ite ht.stopOthers).save.standTokens.ite (ht.ite ht.stopOthers).save.voidPreempt).ite (ht.migrate.ite (ht.fatal.ite
          (ht.modCtx.requeue.victimGone.ite
        ht.modCtx.requeue.voidPreempt)))

theorem State.Canonical.access {want : Want} {ea : Word} {align : Nat} {k : Place → Res} (h : s.Canonical) (hk : ∀ p, Res.Canonical
    (k p)) : Res.Canonical (s.access want ea align k) := by
  unfold State.access
  refine Res.Canonical.ite h.trapS ?_
  split
  · exact h.trapS
  · exact hk _

theorem State.Canonical.setPend {r : Nat} (h : s.Canonical) : (s.setPend r).Canonical := h.ite h.setSca

theorem State.Canonical.whenDrained {ack : Bool} {k : Res} (h : s.Canonical) (hk : Res.Canonical k) : Res.Canonical (s.whenDrained ack k) := by
  unfold State.whenDrained
  refine Res.Canonical.ite h ?_
  split
  · exact hk
  · exact h.modMe.trapAs

/-! ## Loads, stores, prefetch, waita, mark and fence -/

theorem State.Canonical.holdSc {st : Nat} {kind : ScKind} {p : Place} {ea : Word} {n : Nat} (h : s.Canonical) : Res.Canonical
    (s.holdSc st kind p ea n) :=
  h.whenDrained h.wbAll.park

theorem State.Canonical.holdRemote {dev key : Nat} {r : RemoteReq} {kind : RemKind} {ea : Word} (h : s.Canonical) :
    (s.holdRemote dev key r kind ea).Canonical :=
  h.send.setSca

theorem State.Canonical.parkRemote {st dev key : Nat} {r : RemoteReq} {kind : RemKind} {ea : Word} (h : s.Canonical) :
    (s.parkRemote st dev key r kind ea).Canonical :=
  h.park.holdRemote

theorem State.Canonical.queueLoad {o : LoadOp} {p : Place} {ea : Word} (h : s.Canonical) : (s.queueLoad o p ea).Canonical := h.modMe.setPend.adv

theorem State.Canonical.loadL1 {core : Nat} {p : Place} {y : Hint} {fill : Bool} (h : s.Canonical) : (s.loadL1 core p y fill).Canonical := by
  unfold State.loadL1
  split
  · exact (h.l1Fill.ite h).l1Mark.ite h
  · exact h

theorem State.Canonical.loadNow {o : LoadOp} {p : Place} (h : s.Canonical) : (s.loadNow o p).Canonical := (h.loadL1.acquire.ite h.loadL1).resVar.adv

theorem State.Canonical.loadTrap {o : LoadOp} {p : Place} {ea : Word} (h : s.Canonical) : (s.loadTrap o p ea).Canonical := by
  unfold State.loadTrap
  dsimp only
  split
  · exact h.parkRemote
  · exact h.trapS.ite h.sRead.loadNow

theorem State.Canonical.loadHelper {o : LoadOp} {p : Place} (h : s.Canonical) : (s.loadHelper o p).Canonical := h.loadNow.ite h.endHelper

theorem State.Canonical.loadOp {o : LoadOp} {srcs : List Nat} {ea : Word} (h : s.Canonical) : Res.Canonical (s.loadOp o srcs ea) :=
  h.issueVar (h.access (fun _ => Res.Canonical.ite h.noteXlat.loadHelper (Res.Canonical.ite (Res.Canonical.ite h.noteXlat.trapS h.noteXlat.holdSc)
      (Res.Canonical.ite h.noteXlat.loadTrap h.noteXlat.queueLoad))))

theorem State.Canonical.execLd {o : LdF} (h : s.Canonical) : Res.Canonical (execLd o s) := h.loadOp

theorem State.Canonical.execLdx {o : LdxF} (h : s.Canonical) : Res.Canonical (execLdx o s) := h.loadOp

theorem State.Canonical.queueStore {o : StoreOp} {p : Place} {ea : Word} (h : s.Canonical) : (s.queueStore o p ea).Canonical := h.modMe.adv

theorem State.Canonical.notHelperSt {k : Res} (h : s.Canonical) (hk : Res.Canonical k) : Res.Canonical (s.notHelperSt k) :=
  Res.Canonical.ite h.endHelper hk

theorem State.Canonical.storeOp {o : StoreOp} {srcs : List Nat} {ea : Word} (h : s.Canonical) : Res.Canonical (s.storeOp o srcs ea) := by
  refine h.notHelperSt (h.issue (h.access fun p => ?_))
  have hx := h.noteXlat (cid := s.cur.cid) (va := ea)
  exact Res.Canonical.ite (Res.Canonical.ite hx.trapS hx.holdSc)
    (Res.Canonical.ite (Res.Canonical.ite (hx.whenDrained hx.perform.adv) (Res.Canonical.ite hx.perform.adv hx)) hx.queueStore)

theorem State.Canonical.execSt {o : StF} (h : s.Canonical) : Res.Canonical (execSt o s) := h.storeOp

theorem State.Canonical.execStx {o : StxF} (h : s.Canonical) : Res.Canonical (execStx o s) := h.storeOp

theorem State.Canonical.prefetch {ea : Word} {z : Size} {y : Hint} (h : s.Canonical) : (s.prefetch ea z y).Canonical := by
  unfold State.prefetch
  split
  · exact h
  · split
    · exact h
    · exact (h.noteXlat.foldl (fun _ _ h => h.l1Fill.l1Mark)).ite h.noteXlat

theorem State.Canonical.execPref {o : PrefF} (h : s.Canonical) : Res.Canonical (execPref o s) := by
  unfold Machine.execPref
  dsimp only
  split
  case h_1 => exact h.serviceKill
  case h_2 => exact h.issue (Res.Canonical.ite h.endHelper h.prefetch.adv)
  all_goals exact h.issue h.prefetch.adv

theorem State.Canonical.waitaGot {w : WaitaSt} {expect tmo : Word} {second : Bool} {v : Word} (h : s.Canonical) :
    (s.waitaGot w expect tmo second v).Canonical :=
  (h.acquire.ite h).setSca.ite (h.acquire.ite h).resVar.go

theorem State.Canonical.waitaRead {w : WaitaSt} {expect tmo : Word} {second : Bool} (h : s.Canonical) : (s.waitaRead w expect tmo second).Canonical :=
  h.flushPlace.setSca.trapAs.ite h.flushPlace.sRead.waitaGot

theorem State.Canonical.execWaita {o : WaitaF} (h : s.Canonical) : Res.Canonical (execWaita o s) := by
  unfold Machine.execWaita
  refine State.Canonical.mainOnly h ?_
  refine State.Canonical.issueVar h ?_
  refine State.Canonical.access h (fun p => ?_)
  refine Res.Canonical.ite (Res.Canonical.ite h.noteXlat.trapS h.noteXlat.holdSc) ?_
  refine Res.Canonical.ite h.noteXlat ?_
  split
  · exact h.noteXlat.parkRemote
  · exact h.noteXlat.park.waitaRead

theorem State.Canonical.execMark {o : R0} (h : s.Canonical) : Res.Canonical (execMark o s) := h.mainOnly (Res.Canonical.ite h.adv h)

theorem State.Canonical.execFence {o : FenceF} (h : s.Canonical) : Res.Canonical (execFence o s) :=
  h.mainOnly (h.whenDrained ((h.release.ite h).acquire.ite (h.release.ite h)).adv)

/-! ## Atomics and memory reductions -/

theorem State.Canonical.res4 {rt : Nat} {vs : List Word} (h : s.Canonical) : (s.res4 rt vs).Canonical := h.ite (h.foldl (fun _ _ h => h.resVar))

theorem State.Canonical.atomicOp {want : Want} {srcs dsts : List Nat} {ea : Word} {align : Nat} {od : Ord} {scp : Scope} {st : Nat} {sc : ScKind}
    {remote : Nat → Nat → Nat → State → State} {here : Place → State → State} (h : s.Canonical) (hr : ∀ d p k u, u.Canonical →
    (remote d p k u).Canonical) (hh : ∀ p u, u.Canonical → (here p u).Canonical) : Res.Canonical
    (s.atomicOp want srcs dsts ea align od scp st sc remote here) := by
  have hx : (s.noteXlat s.cur.cid ea).Canonical := h.noteXlat
  refine h.mainOnly (h.issueVar (h.access fun p => ?_))
  refine Res.Canonical.ite (Res.Canonical.ite hx.trapS hx.holdSc) (hx.whenDrained ?_)
  have hu : (if ordRel od then (s.noteXlat s.cur.cid ea).release (s.noteXlat s.cur.cid ea).cur.cid scp else s.noteXlat s.cur.cid ea).Canonical :=
    hx.release.ite hx
  dsimp only
  split
  · exact hr _ _ _ _ hu
  · exact Res.Canonical.ite hu.flushPlace.trapAs ((hh _ _ hu.flushPlace).acquire.ite (hh _ _ hu.flushPlace))

theorem State.Canonical.execAmo {o : AmoF} (h : s.Canonical) : Res.Canonical (execAmo o s) := by
  unfold Machine.execAmo
  exact h.atomicOp (fun _ _ _ _ h => h.parkRemote) (fun _ _ h => h.amoAt.resVar.adv)

theorem State.Canonical.execCas {o : CasF} (h : s.Canonical) : Res.Canonical (execCas o s) := by
  unfold Machine.execCas
  exact h.atomicOp (fun _ _ _ _ h => h.parkRemote) (fun _ _ h => h.casAt.resVar.adv)

theorem State.Canonical.execVamo {o : AmoF} (h : s.Canonical) : Res.Canonical (execVamo o s) := by
  unfold Machine.execVamo
  exact h.atomicOp (fun _ _ _ _ h => h.parkRemote) (fun _ _ h => h.vamoAll.res4.adv)

theorem State.Canonical.mredOp {st : Nat} {srcs : List Nat} {ea : Word} {align : Nat} {od : Ord} {scp : Scope} {kind : StKind}
    (h : s.Canonical) : Res.Canonical (s.mredOp st srcs ea align od scp kind) :=
  h.mainOnly (h.issue (h.access (fun _ => h.noteXlat.modMe.adv)))

theorem State.Canonical.execMred {o : MredF} (h : s.Canonical) : Res.Canonical (execMred o s) := h.mredOp

theorem State.Canonical.execVmred {o : MredF} (h : s.Canonical) : Res.Canonical (execVmred o s) := h.mredOp

/-! ## Control flow and xfence, sync and end -/

theorem State.Canonical.follow (h : s.Canonical) : s.follow.Canonical := by
  unfold State.follow
  split
  case h_1 => exact h.modMe
  all_goals exact h

theorem State.Canonical.branch {st : Nat} {taken : Bool} {target : Word} (h : s.Canonical) : (s.branch st taken target).Canonical :=
  h.follow.retire.ite h.follow.adv

theorem State.Canonical.branchLate {taken : Bool} {target : Word} (h : s.Canonical) : (s.branchLate taken target).Canonical :=
  h.follow.setSca.ite h.follow.go

theorem State.Canonical.execBr {o : BrF} (h : s.Canonical) : Res.Canonical (execBr o s) := h.issue h.branch

theorem State.Canonical.execBk {o : BkF} (h : s.Canonical) : Res.Canonical (execBk o s) := h.issue h.branch

theorem State.Canonical.jump {st : Nat} {t : Word} (h : s.Canonical) : (s.jump st t).Canonical := h.trapS.ite h.branch

theorem State.Canonical.execJr {o : JrF} (h : s.Canonical) : Res.Canonical (execJr o s) := h.issue h.jump

theorem State.Canonical.notHelper {k : Res} (h : s.Canonical) (hk : Res.Canonical k) : Res.Canonical (s.notHelper k) := by
  unfold State.notHelper
  split
  case h_1 => exact h.endHelper
  all_goals exact hk

theorem State.Canonical.execCall {o : BrF} (h : s.Canonical) : Res.Canonical (execCall o s) := h.notHelper (h.issue h.follow.res.retire)

theorem State.Canonical.execRet {o : R0} (h : s.Canonical) : Res.Canonical (execRet o s) := h.notHelper (h.issue h.jump)

theorem State.Canonical.execLoop {o : LoopF} (h : s.Canonical) : Res.Canonical (execLoop o s) := by
  unfold Machine.execLoop
  exact h.issue (h.follow.res.adv.ite h.follow.res.retire)

theorem State.Canonical.execNop {o : R0} (h : s.Canonical) : Res.Canonical (execNop o s) := h.issue h.follow.adv

theorem State.Canonical.execTstb {o : TstbF} (h : s.Canonical) : Res.Canonical (execTstb o s) := by
  unfold Machine.execTstb
  refine State.Canonical.notHelper h ?_
  split
  · exact h.issue h.branch
  · refine State.Canonical.issue h ?_
    refine State.Canonical.access h (fun p => ?_)
    refine Res.Canonical.ite h ?_
    refine Res.Canonical.ite h.trapAs ?_
    split
    · exact h.parkRemote
    · exact h.noteXlat.sRead.branch

theorem State.Canonical.started (h : s.Canonical) : s.started.Canonical := h.modMe

theorem State.Canonical.reportWhere {t : State} {ok : WFail → Bool} {w fpc : Word} (h : s.Canonical)
    (ht : s.reportWhere cid ok w fpc = some t) : t.Canonical := by
  unfold State.reportWhere at ht
  split at ht
  · cases ht
  · cases ht; exact h.modCtx.raiseOnce

theorem State.Canonical.reportFails {t : State} {paths : Nat → Bool} {w fpc : Word} (h : s.Canonical)
    (ht : s.reportFails cid paths w fpc = some t) : t.Canonical :=
  h.reportWhere ht

theorem State.Canonical.reported {paths : Nat → Bool} {w fpc : Word} (h : s.Canonical) : ((s.reportFails cid paths w fpc).getD s).Canonical := by
  cases ht : s.reportFails cid paths w fpc with
  | none => exact h
  | some t => exact h.reportFails ht

theorem State.Canonical.xfenceWait {n : Nat} {o : XfenceF} (h : s.Canonical) : (s.xfenceWait n o).Canonical := h.wbInv.go.ite h

theorem State.Canonical.xfencePush {o : XfenceF} (h : s.Canonical) : (s.xfencePush o).Canonical := h.modMe.park.xfenceWait.ite h.modMe.adv

theorem State.Canonical.xfenceS {o : XfenceF} (h : s.Canonical) : Res.Canonical (xfenceS o s) :=
  Res.Canonical.ite (h.whenDrained h.wbAll.xfencePush) h.xfencePush

theorem State.Canonical.xfenceX {o : XfenceF} (h : s.Canonical) : Res.Canonical (xfenceX o s) := by
  refine Res.Canonical.ite h ?_
  split
  case h_1 t ht =>
    split at ht
    · exact h.reportFails ht
    · cases ht
  case h_2 => exact Res.Canonical.ite h h.started

theorem State.Canonical.execXfence {o : XfenceF} (h : s.Canonical) : Res.Canonical (execXfence o s) := by
  unfold Machine.execXfence
  split
  case h_1 => exact h.serviceKill
  case h_2 => exact h.endHelper
  case h_3 => exact h.xfenceS
  all_goals exact h.xfenceX

theorem State.Canonical.execSync {o : R0} (h : s.Canonical) : Res.Canonical (execSync o s) := h.mainOnly (Res.Canonical.ite h.adv h)

theorem State.Canonical.finish (h : s.Canonical) : (s.finish cid).Canonical := by
  unfold State.finish
  split
  · exact h
  · exact h.wbInv.releaseCtx.dropEntry.victimEnded.joinDown

theorem State.Canonical.execEndTask {o : R0} (h : s.Canonical) : Res.Canonical (execEndTask o s) := by
  refine h.mainOnly (Res.Canonical.ite h ?_)
  split
  · rename_i t ht
    exact h.reportFails ht
  · exact h.whenDrained h.finish

/-! ## Semaphores and status words -/

theorem State.Canonical.setSem {n : Nat} {m : Sem} (h : s.Canonical) : (s.setSem cid n m).Canonical := h.modCtx

theorem State.Canonical.signal {sem n : Nat} {w : Word} {mask : BitVec 5} {eng : Nat} {iword fpc : Word} (h : s.Canonical) :
    (s.signal cid sem n w mask eng iword fpc).Canonical :=
  h.setSem.raiseOnce.ite h.setSem

/-! ## The port operations -/

theorem State.Canonical.modSlot {n : Nat} {f : Slot → Slot} (h : s.Canonical) : (s.modSlot cid n f).Canonical := h.modCtx

theorem State.Canonical.draw {point lane : Nat} (h : s.Canonical) : (s.draw cid point lane).2.Canonical := by
  unfold State.draw
  dsimp only
  exact h.modCtx

theorem State.Canonical.pPut {r : PortRun} {d : Nat} {v : Word} {fl : Fl} (h : s.Canonical) : (s.pPut r d v fl).Canonical := by
  unfold State.pPut
  split
  · exact h.setPortRun
  · split
    · exact h.modSlot.setPortRun
    · exact h.setPortRun

theorem State.Canonical.pFault {r : PortRun} {kind : Nat} {d : Option Nat} (h : s.Canonical) : (s.pFault r kind d).Canonical := by
  unfold State.pFault
  dsimp only
  split
  · exact h.pPut
  · exact h.same

theorem State.Canonical.pDo {k : PortRun → State} (h : s.Canonical) (hk : ∀ r, (k r).Canonical) : Res.Canonical (s.pDo k) := by
  unfold State.pDo
  split
  · exact h
  · exact hk _

theorem State.Canonical.pRes {o : PortF} {f : Word → Word → Word → Word × Fl} (h : s.Canonical) : Res.Canonical (s.pRes o f) :=
  h.pDo (fun _ => h.pPut)

theorem State.Canonical.execPortFadd {o : PortF} (h : s.Canonical) : Res.Canonical (execPortFadd o s) := h.pRes

theorem State.Canonical.execPortFsub {o : PortF} (h : s.Canonical) : Res.Canonical (execPortFsub o s) := h.pRes

theorem State.Canonical.execPortFmul {o : PortF} (h : s.Canonical) : Res.Canonical (execPortFmul o s) := h.pRes

theorem State.Canonical.execPortFfma {o : PortF} (h : s.Canonical) : Res.Canonical (execPortFfma o s) := h.pRes

theorem State.Canonical.execPortFmin {o : PortF} (h : s.Canonical) : Res.Canonical (execPortFmin o s) := h.pRes

theorem State.Canonical.execPortFmax {o : PortF} (h : s.Canonical) : Res.Canonical (execPortFmax o s) := h.pRes

theorem State.Canonical.execPortFabs {o : PortF} (h : s.Canonical) : Res.Canonical (execPortFabs o s) := h.pRes

theorem State.Canonical.execPortFneg {o : PortF} (h : s.Canonical) : Res.Canonical (execPortFneg o s) := h.pRes

theorem State.Canonical.execPortFrcp {o : PortF} (h : s.Canonical) : Res.Canonical (execPortFrcp o s) := h.pRes

theorem State.Canonical.execPortFrsq {o : PortF} (h : s.Canonical) : Res.Canonical (execPortFrsq o s) := h.pRes

theorem State.Canonical.execPortFex2 {o : PortF} (h : s.Canonical) : Res.Canonical (execPortFex2 o s) := h.pRes

theorem State.Canonical.execPortFlg2 {o : PortF} (h : s.Canonical) : Res.Canonical (execPortFlg2 o s) := h.pRes

theorem State.Canonical.execPortFcmp {o : PortF} (h : s.Canonical) : Res.Canonical (execPortFcmp o s) := h.pRes

theorem State.Canonical.pInt {o : PortF} {f : Width → Word → Word → Word} (h : s.Canonical) : Res.Canonical (s.pInt o f) := h.pRes

theorem State.Canonical.execPortIadd {o : PortF} (h : s.Canonical) : Res.Canonical (execPortIadd o s) := h.pInt

theorem State.Canonical.execPortIsub {o : PortF} (h : s.Canonical) : Res.Canonical (execPortIsub o s) := h.pInt

theorem State.Canonical.execPortImul {o : PortF} (h : s.Canonical) : Res.Canonical (execPortImul o s) := h.pInt

theorem State.Canonical.execPortImulh {o : PortF} (h : s.Canonical) : Res.Canonical (execPortImulh o s) := h.pInt

theorem State.Canonical.execPortImin {o : PortF} (h : s.Canonical) : Res.Canonical (execPortImin o s) := h.pInt

theorem State.Canonical.execPortImax {o : PortF} (h : s.Canonical) : Res.Canonical (execPortImax o s) := h.pInt

theorem State.Canonical.execPortIminu {o : PortF} (h : s.Canonical) : Res.Canonical (execPortIminu o s) := h.pInt

theorem State.Canonical.execPortImaxu {o : PortF} (h : s.Canonical) : Res.Canonical (execPortImaxu o s) := h.pInt

theorem State.Canonical.execPortAnd {o : PortF} (h : s.Canonical) : Res.Canonical (execPortAnd o s) := h.pInt

theorem State.Canonical.execPortOr {o : PortF} (h : s.Canonical) : Res.Canonical (execPortOr o s) := h.pInt

theorem State.Canonical.execPortXor {o : PortF} (h : s.Canonical) : Res.Canonical (execPortXor o s) := h.pInt

theorem State.Canonical.execPortShl {o : PortF} (h : s.Canonical) : Res.Canonical (execPortShl o s) := h.pInt

theorem State.Canonical.execPortShr {o : PortF} (h : s.Canonical) : Res.Canonical (execPortShr o s) := h.pInt

theorem State.Canonical.execPortSra {o : PortF} (h : s.Canonical) : Res.Canonical (execPortSra o s) := h.pInt

theorem State.Canonical.execPortIcmp {o : PortF} (h : s.Canonical) : Res.Canonical (execPortIcmp o s) := h.pRes

theorem State.Canonical.execPortSel {o : PortF} (h : s.Canonical) : Res.Canonical (execPortSel o s) := h.pRes

theorem State.Canonical.pDraw {r : PortRun} {o : PortF} (h : s.Canonical) : (s.pDraw r o).2.Canonical := by
  unfold State.pDraw
  split
  · exact h.draw
  · exact h

theorem State.Canonical.execPortCvt {o : PortF} (h : s.Canonical) : Res.Canonical (execPortCvt o s) := by
  unfold Machine.execPortCvt
  refine State.Canonical.pDo h (fun r => ?_)
  split
  · exact h.pDraw.pPut
  · exact h.pFault
  · exact h.pFault

theorem State.Canonical.execPortRnd {o : PortF} (h : s.Canonical) : Res.Canonical (execPortRnd o s) := h.pDo (fun _ => h.draw.pPut)

theorem State.Canonical.execPortQsr {o : PortF} (h : s.Canonical) : Res.Canonical (execPortQsr o s) := by
  unfold Machine.execPortQsr
  refine State.Canonical.pDo h (fun r => ?_)
  split
  · exact h.pDraw.pPut
  · exact h.pFault

theorem State.Canonical.execPortGet {o : PortF} (h : s.Canonical) : Res.Canonical (execPortGet o s) := h.pDo (fun _ => h.pPut)

theorem State.Canonical.execPortOut {o : PortF} (h : s.Canonical) : Res.Canonical (execPortOut o s) := h.pDo (fun _ => h.same)

theorem State.Canonical.execPortDrop {o : PortF} (h : s.Canonical) : Res.Canonical (execPortDrop o s) := h.pDo (fun _ => h.same)

theorem State.Canonical.execPortPar {o : PortF} (h : s.Canonical) : Res.Canonical (execPortPar o s) := h.pDo (fun _ => h.pPut)

theorem State.Canonical.execPortParx {o : PortF} (h : s.Canonical) : Res.Canonical (execPortParx o s) := h.pDo (fun _ => h.pPut)

theorem State.Canonical.execPortCget {o : PortF} (h : s.Canonical) : Res.Canonical (execPortCget o s) := h.pDo (fun _ => h.pPut)

theorem State.Canonical.execPortCset {o : PortF} (h : s.Canonical) : Res.Canonical (execPortCset o s) := h.pDo (fun _ => (h.ite h.modSlot).same)

theorem State.Canonical.execPortPrev {o : PortF} (h : s.Canonical) : Res.Canonical (execPortPrev o s) := h.pDo (fun _ => h.pPut)

theorem State.Canonical.execPortLut {o : PortF} (h : s.Canonical) : Res.Canonical (execPortLut o s) := h.pDo (fun _ => h.pPut.ite h.pPut)

theorem State.Canonical.execPortLdl {o : PortF} (h : s.Canonical) : Res.Canonical (execPortLdl o s) := h.pDo (fun _ => h.pFault.ite h.pPut)

theorem State.Canonical.execPortStl {o : PortF} (h : s.Canonical) : Res.Canonical (execPortStl o s) := by
  unfold Machine.execPortStl
  refine h.pDo fun r => ?_
  dsimp only
  split
  · exact h.pFault
  · exact State.Canonical.setPortRun (s := s.modCtx _ _) h.modCtx

theorem State.Canonical.execPortFlag {o : PortF} (h : s.Canonical) : Res.Canonical (execPortFlag o s) := h.pDo (fun _ => h.same)

theorem State.Canonical.execPortHint {_n : Nat} {_o : PortF} (h : s.Canonical) : Res.Canonical (execPortHint _n _o s) := h.pDo (fun _ => h.same)

/-! ## Semaphores, promises and time -/

theorem State.Canonical.execSemw {o : SemN} (h : s.Canonical) : Res.Canonical (execSemw o s) :=
  h.mainOnly (Res.Canonical.ite h (h.setSem.wbInv.ite h.setSem).adv)

theorem State.Canonical.execSems {o : SemN} (h : s.Canonical) : Res.Canonical (execSems o s) := h.mainOnly h.adv.signal

theorem State.Canonical.execSemi {o : SemI} (h : s.Canonical) : Res.Canonical (execSemi o s) := h.mainOnly h.setSem.adv

theorem State.Canonical.execSemr {o : SemR} (h : s.Canonical) : Res.Canonical (execSemr o s) := h.mainOnly h.resultVar

theorem State.Canonical.sleepWake {t ch : Nat} (h : s.Canonical) : (s.sleepWake t ch).Canonical := h.setSca.trapS.ite h.go

theorem State.Canonical.execSleepu {o : R1a} (h : s.Canonical) : Res.Canonical (execSleepu o s) :=
  h.mainOnly (h.issue (Res.Canonical.ite h.adv (h.park.sleepWake.ite h.park)))

theorem State.Canonical.execCyc {o : R1d} (h : s.Canonical) : Res.Canonical (execCyc o s) := h.mainOnly h.result

theorem State.Canonical.give (h : s.Canonical) : s.give.Canonical := h.modCore

theorem State.Canonical.execYield {o : R1a} (h : s.Canonical) : Res.Canonical (execYield o s) := h.mainOnly (h.issue (h.adv.give.ite h.adv.setSca))

end

end Sys2Proof.Machine
end

section
/-! PROOF. The engines' iterations keep every memory in canonical form (R344-R372, R373-R399). -/

namespace Sys2Proof.Machine

open Sys2Proof

section
-- the default arguments are evaluated one declaration after another
set_option Elab.async false

variable {s : State} {cid : Nat} {u : EUnit} {m : Cmd}

/-! ## What the engines share -/

theorem State.Canonical.encDraw {point : Nat} {rnd : Bool} {ix : Nat} (h : s.Canonical) : (s.encDraw cid point rnd ix).2.Canonical := by
  unfold State.encDraw
  split
  · exact h.draw
  · exact h

theorem State.Canonical.noteRanges {rs : List Range} (h : s.Canonical) : (s.noteRanges cid rs).Canonical := h.foldl (fun _ _ h => h.noteXlat)

theorem State.Canonical.preFill {pages : List Nat} {pre : Map PreX} (h : s.Canonical) : (s.preFill cid pages pre).1.Canonical := by
  unfold State.preFill
  refine State.Canonical.foldl_fst h (fun x a a => ?_)
  split
  · exact a
  · exact a.noteXlat

theorem State.Canonical.setCmd (h : s.Canonical) : (s.setCmd cid u m).Canonical := h.modCtx

theorem State.Canonical.takeWait {sy : Sync} (h : s.Canonical) : (s.takeWait sy).Canonical := by
  unfold State.takeWait
  split
  · exact h
  · exact h.setSem

theorem State.Canonical.engineOp {path : Nat} {sy : Sync} {ready : Bool} {k : Res} (h : s.Canonical) (hk : Res.Canonical k) : Res.Canonical
    (s.engineOp path sy ready k) :=
  h.mainOnly (Res.Canonical.ite h (Res.Canonical.ite h hk))

theorem State.Canonical.trapStart {code detail : Nat} {fa : Word} (h : s.Canonical) : Res.Canonical (s.trapStart u code detail fa) := h.raise

theorem State.Canonical.start {sy : Sync} (h : s.Canonical) : (s.start sy).Canonical := h.takeWait.started

theorem State.Canonical.signalOf {sy : Sync} {path : Nat} {w iword fpc : Word} (h : s.Canonical) :
    (s.signalOf cid sy path w iword fpc).Canonical := by
  unfold State.signalOf
  split
  · exact h
  · exact h.signal

theorem State.Canonical.setupOp {path : Nat} {sy : Sync} {f : Word → Engines → Option Engines} (h : s.Canonical) : Res.Canonical
    (s.setupOp path sy f) := by
  unfold State.setupOp
  refine State.Canonical.engineOp h ?_
  split
  · exact h.trapStart
  · exact h.modMe.start.signalOf

/-! ## The copy engine -/

theorem State.Canonical.copyDst {e : Elem} {outs : List (Option Word)} {fl : Fl} {d : Dst} (h : s.Canonical) :
    (s.copyDst cid u e outs m fl d).1.Canonical := by
  unfold State.copyDst
  dsimp only
  split
  · exact h.encDraw
  · split
    · exact h
    · exact h.encDraw

theorem State.Canonical.copyFinal {e : Elem} {outs : List (Option Word)} {fl : Fl} (h : s.Canonical) : (s.copyFinal cid u e outs fl).Canonical := by
  unfold State.copyFinal
  split
  · exact h
  · exact (h.foldl_fst (fun _ _ h => h.copyDst)).setCmd

/-! ## The reduction engine -/

theorem State.Canonical.redPut {point ix : Nat} {d : Dst} {pt : ETy} {w : Word} (h : s.Canonical) : (s.redPut cid u point ix m d pt w).1.Canonical :=
  h.encDraw

theorem State.Canonical.redMid {e : Elem} {outs : List (Option Word)} (h : s.Canonical) : (s.redMid cid u m e outs).1.Canonical := by
  unfold State.redMid
  dsimp only
  split <;> refine h.foldl_fst fun x d hx => ?_ <;> split
  case h_3 | h_3 =>
    split
    · dsimp only
      exact hx.redPut
    · exact hx
  all_goals exact hx

theorem State.Canonical.scanPut {e : Elem} {outs : List (Option Word)} (h : s.Canonical) : (s.scanPut cid u m e outs).1.Canonical := by
  unfold State.scanPut
  split
  · exact h.redPut
  · exact h

theorem State.Canonical.groupPut {outs : List (Option Word)} {fl : Fl} (h : s.Canonical) : (s.groupPut cid u m outs fl).1.Canonical := by
  unfold State.groupPut
  split
  · dsimp only
    exact h.redPut
  · exact h

/-! ## The matrix engine -/

theorem Parts.Canonical.mgoStep {n : MatSet} {x : KIn} {iter t0 : Nat} {p : Parts} {st : Word} (h : p.Canonical) :
    (mgoStep n x iter t0 p st).1.Canonical := by
  unfold Machine.mgoStep
  refine h.foldl_fst fun x u h => ?_
  dsimp only
  exact Parts.Canonical.markTile (h.foldl_fst fun _ _ h => h.setAcc)

theorem State.Canonical.mgoEnd (h : s.Canonical) : (s.mgoEnd cid u m).Canonical := by
  unfold State.mgoEnd
  dsimp only
  split
  · exact h
  · exact (h.modCtx (hf := fun _ _ => (h.parts cid).mgoStep)).setCmd

theorem State.Canonical.dgoEnd (h : s.Canonical) : (s.dgoEnd cid u m).Canonical := by
  unfold State.dgoEnd
  dsimp only
  refine State.Canonical.setCmd (h.modCtx (hf := fun _ _ => ?_))
  refine Parts.Canonical.foldl_fst (h.parts cid) fun _ _ h => ?_
  dsimp only
  exact Parts.Canonical.markTile (h.foldl_fst fun _ _ h => h.setAcc)

theorem State.Canonical.drainFinal {e : Elem} {outs : List (Option Word)} {fl : Fl} (h : s.Canonical) : (s.drainFinal cid u e outs fl).Canonical := by
  unfold State.drainFinal
  split
  · dsimp only
    split
    · exact h.encDraw.setCmd
    · split
      · exact h.setCmd
      · exact h.encDraw.setCmd
  · exact h

theorem State.Canonical.drainEnd (h : s.Canonical) : (s.drainEnd cid m).Canonical := h.modCtx.ite h

/-- What holds of the start and is kept by each step that does not stop holds of the end. -/
theorem foldlM_ok {α β : Type} {P : β → Prop} {f : β → α → Except Stop β} (hf : ∀ b a c, P b → f b a = .ok c → P c) {l : List α} {b c : β}
    (hb : P b) (h : l.foldlM f b = .ok c) : P c := by
  induction l generalizing b with
  | nil => cases h; exact hb
  | cons a l ih =>
    rw [List.foldlM_cons] at h
    cases hx : f b a with
    | error e => rw [hx] at h; cases h
    | ok d => rw [hx] at h; exact ih (hf b a d hb hx) h

theorem State.Canonical.minitTile {x : Parts × Word} (h : s.Canonical) (hx : s.minitTile cid m = .ok x) : x.1.Canonical := by
  unfold State.minitTile at hx
  dsimp only [bind, Except.bind] at hx
  split at hx
  · cases hx
  · refine foldlM_ok (P := fun x : Parts × Word => x.1.Canonical) (fun b a c hb hc => ?_) (h.parts cid).zeroTile hx
    split at hc
    · cases hc
    · cases hc
      exact Parts.Canonical.setAcc hb

/-! ## Elements and their port programs -/

theorem State.Canonical.beginStreams (h : s.Canonical) : (s.beginStreams cid u m).Canonical := by
  unfold State.beginStreams
  refine State.Canonical.foldl h (fun s x a => ?_)
  split
  · exact a.modSlot
  · exact a

theorem State.Canonical.modCmd {f : Cmd → Cmd} (h : s.Canonical) : (s.modCmd cid u f).Canonical := by
  unfold State.modCmd
  split
  · exact h.setCmd
  · exact h

theorem State.Canonical.portStart {point slot ix : Nat} {ins : List Word} (h : s.Canonical) : (s.portStart cid u point slot ix ins).Canonical :=
  h.same

theorem State.Canonical.afterFirst {e : Elem} {outs : List (Option Word)} {fl : Fl} (h : s.Canonical) : (s.afterFirst cid u e outs fl).Canonical := by
  unfold State.afterFirst
  split
  · exact h
  · split
    · split
      · exact h.copyFinal
      · exact h.setCmd.portStart
    · refine State.Canonical.ite ?_ h.redMid.setCmd
      dsimp only
      split
      · exact h.redMid.scanPut.setCmd
      · exact h.redMid.setCmd.portStart
    · exact h.setCmd
    · exact h.drainFinal
    · exact h

theorem State.Canonical.afterSecond {e : Elem} {outs : List (Option Word)} {fl : Fl} (h : s.Canonical) :
    (s.afterSecond cid u e outs fl).Canonical := by
  unfold State.afterSecond
  split
  case h_1 => exact h.copyFinal
  case h_2 =>
    split
    · exact h
    · exact h.scanPut.setCmd
  all_goals exact h

theorem State.Canonical.reached (h : s.Canonical) : (s.reached cid u m).Canonical := by
  unfold State.reached
  refine State.Canonical.foldl h (fun s x a => ?_)
  split
  · exact a.modSlot
  · exact a

theorem State.Canonical.raisePort (h : s.Canonical) : (s.raisePort cid u m).Canonical := by
  unfold State.raisePort
  split
  · exact h.raise
  · exact h

theorem State.Canonical.drained (h : s.Canonical) : (s.drained cid u m).Canonical := by
  unfold State.drained
  split
  case h_1 => exact h.drainEnd.ite h
  all_goals exact h

theorem State.Canonical.settleIter (h : s.Canonical) : (s.settleIter cid u m).Canonical := h.reached.drained.modCtx.setCmd.raisePort

theorem State.Canonical.commit (h : s.Canonical) : (s.commit cid u).Canonical := by
  unfold State.commit
  split
  · exact h
  · exact h.settleIter.ite (h.foldl_snd (fun _ _ h => h.wrEnt)).setCmd

theorem State.Canonical.iterAcked {id : Nat} (h : s.Canonical) : (s.iterAcked cid u m id).Canonical := h.settleIter.ite h.setCmd

theorem State.Canonical.undoIter (h : s.Canonical) : (s.undoIter cid u m).Canonical := by
  unfold State.undoIter
  split
  · exact h
  · exact h.modCtx.setCmd

theorem State.Canonical.endIter (h : s.Canonical) : (s.endIter cid u).Canonical := by
  unfold State.endIter
  split
  · exact h
  · split
    · exact h.setCmd.commit
    · refine State.Canonical.ite h.commit ?_
      refine State.Canonical.ite h.setCmd.commit ?_
      dsimp only
      split
      · exact h.groupPut.setCmd.commit
      · exact h.setCmd.portStart
    · exact (h.mgoEnd.ite h.dgoEnd).commit
    · exact h.commit
    · exact h.commit

theorem State.Canonical.flow {es : List Elem} (h : s.Canonical) : (State.flow cid u es s).Canonical := by
  induction es generalizing s with
  | nil => exact h.endIter
  | cons e es ih =>
    unfold State.flow
    dsimp only
    split
    · exact h.modCmd.portStart
    · exact h.modCmd.afterFirst.ite (ih h.modCmd.afterFirst)

theorem State.Canonical.epiStart {point slot lane : Nat} {atEnd : Map Word} (h : s.Canonical) : (s.epiStart cid u point slot lane atEnd).Canonical :=
  h.same

theorem State.Canonical.flushPath {path : Nat} (h : s.Canonical) : (s.flushPath cid path).Canonical := h.modCtx.foldl (fun _ _ h => h.wrEnt)

theorem State.Canonical.visible {path : Nat} {sy : Sync} {w fpc : Word} (h : s.Canonical) : (s.visible cid path sy w fpc).Canonical := by
  unfold State.visible
  split
  · exact h
  · exact h.ite h.flushPath.reported

theorem State.Canonical.complete (h : s.Canonical) : (s.complete cid u).Canonical := by
  unfold State.complete
  split
  · exact h
  · exact h.visible.signalOf.modCtx.raisePort

theorem State.Canonical.endPoints {ps : List Nat} (h : s.Canonical) : (State.endPoints cid u ps s).Canonical := by
  induction ps generalizing s with
  | nil => exact h.complete
  | cons p ps ih =>
    unfold State.endPoints
    split
    · exact ih h
    · exact (ih h.modSlot).ite h.epiStart

theorem State.Canonical.epiDone {r : PortRun} (h : s.Canonical) : (s.epiDone r).Canonical := h.modCmd.epiStart.ite h.modCmd.modSlot.endPoints

theorem State.Canonical.bodyDone {r : PortRun} (h : s.Canonical) : (s.bodyDone r).Canonical := by
  unfold State.bodyDone
  dsimp only
  split
  · exact h.modSlot.modCmd
  · split
    · exact h.modSlot.modCmd
    · exact h.modSlot.modCmd.groupPut.setCmd.commit.ite ((h.modSlot.modCmd.afterFirst.ite h.modSlot.modCmd.afterSecond).ite
          (h.modSlot.modCmd.afterFirst.ite h.modSlot.modCmd.afterSecond).flow)

theorem State.Canonical.portDone (h : s.Canonical) : s.portDone.Canonical := by
  unfold State.portDone
  split
  · exact h
  · exact h.same.epiDone.ite h.same.bodyDone

theorem State.Canonical.preTranslate (h : s.Canonical) : (s.preTranslate cid u m).1.Canonical := h.preFill

theorem State.Canonical.iterate (h : s.Canonical) : Run.Canonical (s.iterate cid u m) := by
  unfold State.iterate
  dsimp only
  split
  case h_1 => exact Run.Canonical.bind fun _ _ => Run.Canonical.pure h.noteRanges.bump.setCmd.flow
  case h_2 =>
    exact Run.Canonical.ite (Run.Canonical.bind fun _ _ => Run.Canonical.pure h.noteRanges.bump.setCmd.commit)
      (Run.Canonical.bind fun _ _ => Run.Canonical.pure h.noteRanges.bump.setCmd.flow)
  case h_3 =>
    exact Run.Canonical.ite (Run.Canonical.bind fun _ _ => Run.Canonical.pure h.flow)
      (Run.Canonical.ite (Run.Canonical.bind fun _ _ => Run.Canonical.pure h.flow)
        (Run.Canonical.bind fun _ _ => Run.Canonical.pure h.setCmd.commit))
  case h_4 =>
    exact Run.Canonical.ite (Run.Canonical.pure (h.modCtx (f := fun c => c.modParts (fun p => p.zeroTile (m.ent.a.toNat + m.iter) m.i32))
        (fun _ h => Parts.Canonical.zeroTile h)).commit)
      (Run.Canonical.ite
        (Run.Canonical.bind fun _ hx => Run.Canonical.pure (h.noteRanges.modCtx (hf := fun _ _ => h.minitTile hx)).setCmd.commit)
        (Run.Canonical.bind fun _ _ => Run.Canonical.pure h.noteRanges.setCmd.flow))
  case h_5 => exact Run.Canonical.pure h

/-! ## The collective engines -/

theorem State.Canonical.kringEnter {ms : List Nat} (h : s.Canonical) : Run.Canonical (s.kringEnter cid m ms) := by
  unfold State.kringEnter
  dsimp only
  split
  · exact Run.Canonical.ite h.setColl trivial
  · exact h.setColl

theorem State.Canonical.kringDo (h : s.Canonical) : Run.Canonical (s.kringDo cid m) := Run.Canonical.bind (fun _ _ => h.kringEnter)

theorem State.Canonical.sendSeg {b : Bucket} {g stepNo off : Nat} {bs : List Byte} {fs : List Fl} (h : s.Canonical) :
    (s.sendSeg b g stepNo off bs fs).Canonical :=
  h.post

theorem State.Canonical.firstSends {b : Bucket} {g : Nat} {cast : Bool} (h : s.Canonical) : (s.firstSends b g cast).Canonical :=
  h.foldl (fun _ _ h => h.sendSeg)

theorem State.Canonical.pollReady {n : Nat} (h : s.Canonical) : Run.Canonical (s.pollReady cid n m) := by
  unfold State.pollReady
  dsimp only
  split
  · exact trivial
  · exact Run.Canonical.bind (fun _ _ => Run.Canonical.ite trivial (Run.Canonical.bind (fun _ _ => Run.Canonical.ite (Run.Canonical.pure h.setCmd)
        (Run.Canonical.bind (fun _ _ => Run.Canonical.bind (fun _ _ => Run.Canonical.pure h.noteRanges.setCmd.firstSends))))))

theorem State.Canonical.passOn {b : Bucket} {g : Nat} {x : Segment} {bs : List Byte} {fs : List Fl} (h : s.Canonical) :
    (s.passOn b g x bs fs).Canonical :=
  h.sendSeg.ite h

theorem State.Canonical.bucketDone {n : Nat} {b : Bucket} (h : s.Canonical) : (s.bucketDone cid n b).Canonical := by
  unfold State.bucketDone
  dsimp only
  split
  · exact h.flushPath.modCmd
  · exact (h.flushPath.modCmd.ite h.flushPath.modCmd.reported).signal

theorem State.Canonical.pieceStep {n : Nat} {x : Segment} {b : Bucket} (h : s.Canonical) : Run.Canonical (s.pieceStep cid n m x b) :=
  Run.Canonical.ite (Run.Canonical.bind (fun _ _ => Run.Canonical.pure ((h.noteRanges.ite h).setColl.modCtx.setCmd.passOn.bucketDone.ite
      (h.noteRanges.ite h).setColl.modCtx.setCmd.passOn))) (Run.Canonical.bind (fun _ _ => Run.Canonical.pure
      ((h.noteRanges.ite h).setColl.modCtx.setCmd.passOn.bucketDone.ite (h.noteRanges.ite h).setColl.modCtx.setCmd.passOn)))

theorem State.Canonical.putSends {fuel : Nat} {lim off : Nat} {x : State × Word} (h : s.Canonical)
    (hx : s.putSends cid m lim fuel off = .ok x) : x.1.Canonical := by
  induction fuel generalizing s m off with
  | zero => cases hx; exact h
  | succ n ih =>
    unfold State.putSends at hx
    split at hx
    · cases hx; exact h
    · dsimp only [bind, Except.bind] at hx
      split at hx
      · cases hx
      · split at hx
        · cases hx
        · split at hx
          · cases hx
          · exact ih h.send hx

theorem State.Canonical.putStep {n : Nat} (h : s.Canonical) : Run.Canonical (s.putStep cid n m) :=
  Run.Canonical.bind fun _ _ => Run.Canonical.bind fun _ hx => Run.Canonical.pure (h.putSends hx).noteRanges.setCmd.commit

theorem State.Canonical.collStep {n : Nat} (h : s.Canonical) : Run.Canonical (s.collStep cid n m) := by
  unfold State.collStep
  refine Run.Canonical.ite (Run.Canonical.bind_run h.kringDo (fun _ a => Run.Canonical.pure a.setCmd)) ?_
  refine Run.Canonical.ite h.putStep ?_
  split
  · exact h.bucketDone
  · split
    · exact h.pieceStep
    · exact h

end

end Sys2Proof.Machine
end

section
/-! PROOF. The events keep every memory in canonical form (R18-R57, R75-R85, R141-R148, R413-R418). -/

namespace Sys2Proof.Machine

open Sys2Proof

section
-- the default arguments are evaluated one declaration after another
set_option Elab.async false

variable {s : State} {cid : Nat} {u : EUnit} {m : Cmd}

/-! ## System instructions -/

theorem State.Canonical.sysBump {n : Nat} (h : s.Canonical) : (s.sysBump n).Canonical := by
  unfold State.sysBump
  split
  · exact h.bump.ite h
  · exact h

theorem State.Canonical.execRdsys {o : RdsysF} (h : s.Canonical) : Res.Canonical (execRdsys o s) := by
  unfold Machine.execRdsys
  split
  · exact h.endHelper
  · refine State.Canonical.issueVar h ?_
    split
    · exact h.trapS
    · exact h.sysBump.resVar.adv
  · refine State.Canonical.issueVar h ?_
    split
    · exact h.trapS
    · exact h.sysBump.resVar.adv
  · refine State.Canonical.issueVar h ?_
    split
    · exact h.trapS
    · exact h.sysBump.resVar.adv
  · refine State.Canonical.issueVar h ?_
    split
    · exact h.trapS
    · exact h.sysBump.resVar.adv
  · refine State.Canonical.issueVar h ?_
    split
    · exact h.trapS
    · exact h.sysBump.resVar.adv
  · refine State.Canonical.issueVar h ?_
    split
    · exact h.trapS
    · exact h.sysBump.resVar.adv

theorem State.Canonical.modMySys {f : SysRegs → SysRegs} (h : s.Canonical) : (s.modMySys f).Canonical := h.modMe

theorem State.Canonical.viewWrite {id o : Nat} {v : Word} (h : s.Canonical) : (s.viewWrite id o v).Canonical := by
  unfold State.viewWrite
  split
  · exact h.modMe.ite h
  · exact h.modMe.ite (h.modMe.ite h)
  · exact h.setSem.ite h
  · exact h

theorem State.Canonical.sysWrite {n : Nat} {v : Word} (h : s.Canonical) : (s.sysWrite n v).Canonical := by
  unfold State.sysWrite
  refine State.Canonical.ite h.modMySys ?_
  refine State.Canonical.ite h.modMySys ?_
  refine State.Canonical.ite h.modMySys ?_
  refine State.Canonical.ite h.modCore ?_
  refine State.Canonical.ite h.modSched ?_
  refine State.Canonical.ite h.modMySys ?_
  refine State.Canonical.ite h.modCore ?_
  split
  · exact h.viewWrite
  · exact h

theorem State.Canonical.execWrsys {o : WrsysF} (h : s.Canonical) : Res.Canonical (execWrsys o s) := by
  unfold Machine.execWrsys
  split
  · exact h.endHelper
  · refine State.Canonical.issue h ?_
    split
    · exact h.trapS
    · exact Res.Canonical.ite h.trapS h.sysWrite.adv
  · refine State.Canonical.issue h ?_
    split
    · exact h.trapS
    · exact Res.Canonical.ite h.trapS h.sysWrite.adv
  · refine State.Canonical.issue h ?_
    split
    · exact h.trapS
    · exact Res.Canonical.ite h.trapS h.sysWrite.adv
  · refine State.Canonical.issue h ?_
    split
    · exact h.trapS
    · exact Res.Canonical.ite h.trapS h.sysWrite.adv
  · refine State.Canonical.issue h ?_
    split
    · exact h.trapS
    · exact Res.Canonical.ite h.trapS h.sysWrite.adv
  · refine State.Canonical.issue h ?_
    split
    · exact h.trapS
    · exact Res.Canonical.ite h.trapS h.sysWrite.adv

theorem State.Canonical.execSvc {o : ImmF} (h : s.Canonical) : Res.Canonical (execSvc o s) := h.mainOnly (h.issueVar (h.whenDrained h.wbInv.park))

theorem State.Canonical.execTrap {o : ImmF} (h : s.Canonical) : Res.Canonical (execTrap o s) := h.mainOnly h.trapS

theorem State.Canonical.execTret {_o : R0} (h : s.Canonical) : Res.Canonical (execTret _o s) := by
  unfold Machine.execTret
  split
  case h_1 => exact h.tret
  case h_2 => exact h.endHelper
  all_goals exact h.trapS

theorem State.Canonical.iclkWait {rd y : Nat} {a n : Word} (h : s.Canonical) : (s.iclkWait rd y a n).Canonical := by
  unfold State.iclkWait
  dsimp only
  split
  · exact h.setSca.trapS
  · exact h.setSca.trapS.ite (h.resVar.go.ite (h.ite h.modMe.resVar.go))

theorem State.Canonical.execIclk {o : R3} (h : s.Canonical) : Res.Canonical (execIclk o s) := by
  unfold Machine.execIclk
  refine State.Canonical.mainOnly h ?_
  refine State.Canonical.issueVar h ?_
  refine Res.Canonical.ite h.resVar.adv ?_
  split
  · exact h.trapS
  · exact h.park.iclkWait

theorem State.Canonical.execIulk {o : Rab} (h : s.Canonical) : Res.Canonical (execIulk o s) := h.mainOnly (h.issue h.modMe.adv)

theorem State.Canonical.dropTlb {bad : TlbEnt → Bool} (h : s.Canonical) : (s.dropTlb bad).Canonical :=
  h.mapCores (f := fun c => { c with tlb := c.tlb.filter (fun e => !bad e) }) fun _ => rfl

theorem State.Canonical.dropPre {root : Nat} (h : s.Canonical) : (s.dropPre root).Canonical :=
  h.mapCtxs (f := fun c => if s.ptroot c.launch = root then c.modEng (fun g => g.mapCmds (fun m => { m with pre := [] })) else c)
    (fun c => by split <;> rfl)

theorem State.Canonical.execTlbi {o : TlbiF} (h : s.Canonical) : Res.Canonical (execTlbi o s) :=
  h.mainOnly (h.issue (Res.Canonical.ite h.trapS (h.whenDrained (Res.Canonical.ite h.wbAll h.wbAll.dropTlb.dropPre.adv))))

theorem State.Canonical.execCaps {o : R2} (h : s.Canonical) : Res.Canonical (execCaps o s) := h.mainOnly h.resultVar

/-! ## The scheduler's events -/

theorem State.Canonical.refetchUnit {g a : Nat} (h : s.Canonical) : (s.refetchUnit cid g a).Canonical := by
  unfold State.refetchUnit
  dsimp only
  split
  · exact h
  · split
    · exact h.fatal
    · exact h
    · exact h
    · split
      · exact h.send
      · split
        · exact h.fatal
        · exact h.modCtx (fun _ h => Parts.Canonical.refill h)

theorem State.Canonical.refetch {gs : List (Nat × Option Word)} (h : s.Canonical) : (State.refetch cid gs s).Canonical := by
  induction gs generalizing s with
  | nil => exact h
  | cons x gs ih =>
    obtain ⟨g, _ | va⟩ := x
    · exact ih h
    · exact ih ((h.modCtx (f := fun x => x.modParts (fun q => { q with wst := Mem.clear q.wst (4096 * g) 4096 }))
        (fun _ h => ⟨h.1, Mem.wf_clear h.2 _ _⟩)).foldl fun _ _ h => h.refetchUnit)

theorem State.Canonical.settleRefetch (h : s.Canonical) : (s.settleRefetch cid).Canonical := h.modCtx

theorem State.Canonical.relockAll {xs : List (Word × Word)} (h : s.Canonical) : (State.relockAll cid xs s).Canonical := by
  induction xs generalizing s with
  | nil => exact h
  | cons x xs ih => exact ih (h.modCtx.ite h)

theorem State.Canonical.relock (h : s.Canonical) : (s.relock cid).Canonical := by
  unfold State.relock
  exact h.modCtx.relockAll.modCtx

theorem State.Canonical.placeTask {e : Nat} {member : Bool} (h : s.Canonical) : (s.placeTask e cid member).Canonical :=
  (h.place.refetch.relock.settleRefetch.ite h.place.refetch).ite h.place

theorem State.Canonical.loadClus {g : List (Nat × Entry)} {cluster : Nat} (h : s.Canonical) : (s.loadClus g cluster).Canonical := by
  have hk := Mem.wf_filter h.1.clus (fun c => decide (c.1 / 2 ^ 26 ≠ cluster))
  unfold State.loadClus
  dsimp only
  split
  · exact ⟨{ h.1 with clus := hk }, h.2⟩
  · exact ⟨{ h.1 with clus := Mem.wf_foldl_set _ _ _ hk }, h.2⟩

theorem State.Canonical.placeBunch {y : Nat} {g : List (Nat × Entry)} {cluster : Nat} (h : s.Canonical) : (s.placeBunch y g cluster).Canonical := by
  unfold State.placeBunch
  dsimp only
  split
  · exact h.loadClus.foldl (fun _ _ h => h.placeTask)
  · exact (h.loadClus.foldl (fun _ _ h => h.placeTask)).ite (h.loadClus.foldl (fun _ _ h => h.placeTask)).settleBunch

theorem State.Canonical.placePick {p : Pick} (h : s.Canonical) : (s.placePick cid p).Canonical := by
  cases p with
  | one e _ => exact h.placeTask
  | bunch n g _ => exact h.placeBunch

theorem State.Canonical.execDispatch {chiplet : Nat} (h : s.Canonical) : Res.Canonical (execDispatch chiplet s) := by
  unfold Machine.execDispatch
  split
  · exact h
  · exact h.placePick

theorem State.Canonical.evaluate {es : List (Nat × Entry)} (h : s.Canonical) : (s.evaluate es).Canonical := h.modSched.foldl (fun _ _ h => h.decision)

theorem State.Canonical.execAgingStep {e : Nat} (h : s.Canonical) : Res.Canonical (execAgingStep e s) := by
  unfold Machine.execAgingStep
  split
  · exact h
  · exact Res.Canonical.ite h.setEntry.decision h

theorem State.Canonical.ageNow (h : s.Canonical) : s.ageNow.Canonical := h.ite h.evaluate

theorem State.Canonical.execTokenTick (h : s.Canonical) : Res.Canonical (execTokenTick s) := Res.Canonical.ite h h.modSched.evaluate

theorem State.Canonical.execReserving {entry : Nat} (h : s.Canonical) : Res.Canonical (execReserving entry s) := by
  unfold Machine.execReserving
  split
  · exact h
  · refine Res.Canonical.ite h ?_
    split
    · exact h
    · exact h.modSched.setEntry

theorem State.Canonical.keepPri {old : List (Nat × Entry)} (h : s.Canonical) : (s.keepPri old).Canonical := h.foldl (fun _ _ h => h.modEntry)

theorem State.Canonical.sealImage {e : Nat} (h : s.Canonical) : (s.sealImage e).Canonical := by
  unfold State.sealImage
  split
  · rename_i im _ he
    exact h.putImage (h.image (im := im) he)
  · exact h
  · exact h

theorem State.Canonical.finishSave {e : Nat} (h : s.Canonical) : (s.finishSave e).Canonical := by
  unfold State.finishSave
  dsimp only
  split
  · exact h.modEntry.sealImage.vacate.victimGone
  · exact h.modEntry.sealImage

theorem State.Canonical.savedOne {e : Nat} {v : Entry} {reason : Nat} (h : s.Canonical) : (s.savedOne e v reason).Canonical := by
  unfold State.savedOne
  refine State.Canonical.ite ?_ h.ready
  split
  · exact h.placeTask.keepPri
  · exact h.ready

theorem State.Canonical.savedBunch {y : Nat} {mig : Bool} (h : s.Canonical) : (s.savedBunch y mig).Canonical := by
  unfold State.savedBunch
  dsimp only
  split
  · exact (h.foldl (fun _ _ h => h.sealImage)).placeBunch.keepPri
  · exact (h.foldl (fun _ _ h => h.sealImage)).foldl (fun _ _ h => h.ready)

theorem State.Canonical.settleSaved {y : Nat} (h : s.Canonical) : (s.settleSaved y).Canonical := h.ite h.savedBunch

theorem State.Canonical.execSaveComplete {entry : Nat} (h : s.Canonical) : Res.Canonical (execSaveComplete entry s) := by
  unfold Machine.execSaveComplete
  split
  · refine Res.Canonical.ite h ?_
    dsimp only
    split
    · exact h.finishSave.ready
    · exact Res.Canonical.ite h.finishSave.settleSaved h.finishSave.savedOne
  · exact h
  · exact h

theorem State.Canonical.execHandlerStart (h : s.Canonical) : Res.Canonical (execHandlerStart s) := Res.Canonical.ite h.startHandler h

theorem State.Canonical.firmwareStep {core : Nat} (h : s.Canonical) : (s.firmwareStep core).Canonical := by
  unfold State.firmwareStep
  split
  · exact h
  · split
    · exact h
    · split
      · exact h
      · exact h.modCore.modCtx.tret.ite (h.modCore.modCtx.modCtx.tret.ite h.modCore.modCtx.tret)

/-! ## Launches -/

theorem State.Canonical.cleared {starts : Nat} (h : s.Canonical) : (s.cleared starts).Canonical :=
  ⟨{ State.Canonical.reset.1 with flash := h.1.flash, host := h.1.host }, State.Canonical.reset.2⟩

theorem State.Canonical.restart (h : s.Canonical) : s.restart.Canonical := h.cleared.same.ite h.cleared.same

theorem State.Canonical.writeRecord {port caddr : Nat} {ws : List Word} {noint : Bool} {vec : Nat} (h : s.Canonical) :
    (s.writeRecord port caddr ws noint vec).Canonical :=
  ⟨{ h.1 with host := Mem.wf_write h.1.host _ _ }, h.2⟩

theorem State.Canonical.dropTags {l : Nat} (h : s.Canonical) : (s.dropTags l).Canonical := h.same

theorem State.Canonical.dropRings {l : Nat} (h : s.Canonical) : (s.dropRings l).Canonical := h.same

theorem State.Canonical.dropLaunch {l : Nat} (h : s.Canonical) : (s.dropLaunch l).Canonical := by
  unfold State.dropLaunch
  split
  · exact h
  · exact h.modSched.dropRings.dropTags.ite h.modSched.dropRings.dropTags.dropTlb

theorem State.Canonical.complete1 {l : Nat} (h : s.Canonical) : (s.complete1 l).Canonical := by
  unfold State.complete1
  split
  · exact h
  · exact h.writeRecord.dropLaunch.ite h

theorem State.Canonical.thermEnd (h : s.Canonical) : s.thermEnd.Canonical := by
  unfold State.thermEnd
  split
  · exact h
  · split
    · rename_i d _ _
      have hb : State.Canonical { s with boot := { s.boot.why s.boot.stage 0x0C d with attemptOpen := false } } := h.same
      exact hb.restart.same
    · exact h

theorem State.Canonical.execCompletionRecordWrite {launch : Nat} (h : s.Canonical) : Res.Canonical (execCompletionRecordWrite launch s) :=
  h.complete1.thermEnd

theorem State.Canonical.execTlim {launch : Nat} (h : s.Canonical) : Res.Canonical (execTlim launch s) := by
  unfold Machine.execTlim
  split
  · exact h
  · exact Res.Canonical.ite h.abortLaunch h

theorem State.Canonical.execTherm {die : Nat} {temp : Bool} (h : s.Canonical) : Res.Canonical (execTherm die temp s) :=
  Res.Canonical.ite h ((h.same.foldl (fun _ _ h => h.abortLaunch)).foldl (fun _ _ h => h.complete1)).thermEnd

theorem State.Canonical.prodWrite {port : Nat} {v : Word} (h : s.Canonical) : (s.prodWrite port v).Canonical := h.setHport.ite h.setHport

theorem State.Canonical.execLwProdWrite {port : Nat} {v : Word} (h : s.Canonical) : Res.Canonical (execLwProdWrite port v s) := h.prodWrite

theorem State.Canonical.consume {port : Nat} (h : s.Canonical) : (s.consume port).Canonical := h.setHport

theorem State.Canonical.startLaunch {port : Nat} {d : List Byte} (h : s.Canonical) : (s.startLaunch port d).Canonical := h.modSched.enter

theorem State.Canonical.execDescriptorAccept (h : s.Canonical) : Res.Canonical (execDescriptorAccept s) := by
  unfold Machine.execDescriptorAccept
  refine Res.Canonical.ite h ?_
  refine Res.Canonical.ite h.consume.setHport ?_
  split
  · exact h.consume.writeRecord
  · exact h.consume.startLaunch

/-! ## The engines' events -/

theorem State.Canonical.enqueue {a : Agent} {e : QEnt} (h : s.Canonical) : (s.enqueue a e).Canonical := h.modMe

theorem State.Canonical.execEngineInstructionDecode {w : Word} (h : s.Canonical) : Res.Canonical (execEngineInstructionDecode w s) := by
  unfold Machine.execEngineInstructionDecode
  refine State.Canonical.mainOnly h ?_
  split
  · dsimp only
    split
    · exact h.trapS
    · refine Res.Canonical.ite h ?_
      refine State.Canonical.issue h ?_
      split
      · exact h.trapS
      · exact (h.enqueue.setPend.ite h.enqueue).adv
  · exact h.trapS
  · exact h.trapS

theorem State.Canonical.stopCmd {code detail : Nat} {fa : Word} (h : s.Canonical) : (s.stopCmd cid u m code detail fa).Canonical := h.setCmd.raise

theorem State.Canonical.iterRefused {va : Word} (h : s.Canonical) : (s.iterRefused cid u m va).Canonical := by
  unfold State.iterRefused
  dsimp only
  split
  · exact h.undoIter.stopCmd
  · exact h.undoIter

theorem State.Canonical.askRemote {dev pa key : Nat} {va : Word} (h : s.Canonical) : (s.askRemote cid u m dev pa key va).Canonical := h.setCmd.send

theorem State.Canonical.settleStep {x : Except Stop State} (h : s.Canonical) (hx : Run.Canonical x) : (s.settleStep cid u m x).Canonical := by
  unfold State.settleStep
  split
  · exact hx
  · exact h.stopCmd
  · exact h.askRemote
  · exact h

theorem State.Canonical.dgoTab (h : s.Canonical) : Run.Canonical (s.dgoTab cid u m) :=
  Run.Canonical.ite (Run.Canonical.bind (fun _ _ => Run.Canonical.pure h.setCmd)) h

theorem State.Canonical.stepCmd (h : s.Canonical) : Run.Canonical (s.stepCmd cid u) := by
  unfold State.stepCmd
  split
  · exact Run.Canonical.pure h
  · refine Run.Canonical.bind_run h.dgoTab (fun a a => ?_)
    split
    · exact Run.Canonical.pure a
    · split
      case h_1 => exact a.collStep
      all_goals exact a.iterate

theorem State.Canonical.reportCmd {next : State} (h : s.Canonical) (hn : next.Canonical) : (s.reportCmd cid u m next).Canonical := by
  unfold State.reportCmd
  split
  · rename_i t ht
    exact (h.reportWhere ht).setCmd
  · exact hn

theorem State.Canonical.boundary (h : s.Canonical) : (s.boundary cid u).Canonical := by
  unfold State.boundary
  split
  · exact h
  · exact h.ite (h.reportCmd (h.preTranslate.setCmd.settleStep h.preTranslate.setCmd.stepCmd))

theorem State.Canonical.execEngineIterationBoundary (h : s.Canonical) : Res.Canonical (execEngineIterationBoundary cid u s) := h.boundary

theorem State.Canonical.execEngineCommandComplete (h : s.Canonical) : Res.Canonical (execEngineCommandComplete cid u s) := by
  unfold Machine.execEngineCommandComplete
  split
  · exact h
  · exact Res.Canonical.ite h.endPoints h

theorem State.Canonical.execKputAck {n : Nat} (h : s.Canonical) : Res.Canonical (execKputAck cid n s) := by
  unfold Machine.execKputAck
  split
  · exact h
  · exact Res.Canonical.ite h.complete h

theorem State.Canonical.execEngineWritePerform {path : Nat} (h : s.Canonical) : Res.Canonical (execEngineWritePerform cid path s) := by
  unfold Machine.execEngineWritePerform
  split
  · exact h
  · exact h.modCtx.wrEnt

theorem State.Canonical.execReadyWordPoll {n : Nat} (h : s.Canonical) : Res.Canonical (execReadyWordPoll cid n s) := by
  unfold Machine.execReadyWordPoll
  split
  · exact h
  · exact Res.Canonical.ite (h.reportCmd (h.settleStep h.pollReady)) h

theorem State.Canonical.execSegmentArrival {die : Nat} {x : Segment} (h : s.Canonical) : Res.Canonical (execSegmentArrival die x s) := by
  unfold Machine.execSegmentArrival
  dsimp only
  split
  · exact h.setColl
  · exact Res.Canonical.ite (h.setColl.reportCmd (h.setColl.settleStep h.setColl.collStep)) h.setColl

/-! ## Port management -/

theorem State.Canonical.portOp {slotOk : Bool} {srcs dsts : List Nat} {k : Res} (h : s.Canonical) (hk : Res.Canonical k) : Res.Canonical
    (s.portOp slotOk srcs dsts k) :=
  h.mainOnly (Res.Canonical.ite h (h.issueVar (Res.Canonical.ite hk h.trapS)))

theorem State.Canonical.modMyPorts {f : Ports → Ports} (h : s.Canonical) : (s.modMyPorts f).Canonical := h.modMe

theorem State.Canonical.ploadFault {kind slot pins point : Nat} (h : s.Canonical) : (s.ploadFault kind slot pins point).Canonical := h.raise

theorem State.Canonical.ploadDone {slot : Nat} {bs : List Byte} (h : s.Canonical) : (s.ploadDone slot bs).Canonical := by
  unfold State.ploadDone
  refine State.Canonical.ite h.setSca.ploadFault ?_
  split
  · exact h.setSca.ploadFault
  · exact h.setSca.modSlot.go

theorem State.Canonical.ploadGo {slot : Nat} {ea : Word} {f j : Nat} {acc : List Byte} (h : s.Canonical) : (s.ploadGo slot ea f j acc).Canonical := by
  induction f generalizing s j acc with
  | zero => exact h.ploadDone
  | succ f ih =>
    unfold State.ploadGo
    dsimp only
    split
    · exact h.setSca.trapS
    · split
      · exact h.holdRemote
      · split
        · exact h.setSca.trapS
        · exact ih h.noteXlat.sRead.loadL1

theorem State.Canonical.execPload {o : PloadF} (h : s.Canonical) : Res.Canonical (execPload o s) := by
  unfold Machine.execPload
  refine State.Canonical.portOp h ?_
  refine Res.Canonical.ite h.trapS ?_
  split
  · exact h.trapS
  · exact Res.Canonical.ite h h.park.ploadGo

theorem State.Canonical.execPbind {o : PbindF} (h : s.Canonical) : Res.Canonical (execPbind o s) := h.portOp h.modMyPorts.adv

theorem State.Canonical.execPbindU {o : PbindUF} (h : s.Canonical) : Res.Canonical (execPbindU o s) := h.portOp h.modMyPorts.adv

theorem State.Canonical.execPpar {o : PparF} (h : s.Canonical) : Res.Canonical (execPpar o s) := h.portOp h.modMyPorts.adv

theorem State.Canonical.execPclr {o : PclrF} (h : s.Canonical) : Res.Canonical (execPclr o s) := h.portOp h.modMyPorts.adv

theorem State.Canonical.portRead {st slot rd : Nat} {srcs : List Nat} {v : Slot → Word} (h : s.Canonical) : Res.Canonical
    (s.portRead st slot rd srcs v) :=
  h.portOp h.resVar.adv

theorem State.Canonical.execPrd {o : PrdF} (h : s.Canonical) : Res.Canonical (execPrd o s) := h.portRead

theorem State.Canonical.execPrdC {o : PrdCF} (h : s.Canonical) : Res.Canonical (execPrdC o s) := h.portRead

theorem State.Canonical.execPrdN {o : PrdF} (h : s.Canonical) : Res.Canonical (execPrdN o s) := h.portRead

/-! ## Tasks, joins and bunches -/

theorem State.Canonical.spawnEnter {rd : Nat} {bs : List Byte} (h : s.Canonical) : (s.spawnEnter rd bs).Canonical := h.ite h.modLaunch.resVar.go.enter

theorem State.Canonical.spawnRec {rd : Nat} {bs : List Byte} (h : s.Canonical) : (s.spawnRec rd bs).Canonical := h.trapS.ite h.setSca.spawnEnter

theorem State.Canonical.execSpawn {o : R2} (h : s.Canonical) : Res.Canonical (execSpawn o s) := by
  unfold Machine.execSpawn
  refine State.Canonical.mainOnly h ?_
  refine State.Canonical.issueVar h ?_
  refine State.Canonical.access h (fun p => ?_)
  refine State.Canonical.whenDrained h ?_
  dsimp only
  split
  · exact h.noteXlat.wbAll.parkRemote
  · exact Res.Canonical.ite h.noteXlat.wbAll.flushPlace.trapAs h.noteXlat.wbAll.flushPlace.sRead.park.spawnRec

theorem State.Canonical.arriveAt {y : Word} (h : s.Canonical) : (s.arriveAt y).2.Canonical := by
  unfold State.arriveAt
  split
  · exact h
  · exact h.ite_snd (h.setEntry.ready.ite_snd h.setEntry)

theorem State.Canonical.execArrive {o : R2} (h : s.Canonical) : Res.Canonical (execArrive o s) :=
  h.mainOnly (h.issueVar (h.whenDrained h.wbAll.resVar.adv.arriveAt))

theorem State.Canonical.execEst {o : R1a} (h : s.Canonical) : Res.Canonical (execEst o s) := h.mainOnly (h.issue h.modMe.adv)

theorem State.Canonical.execBmake {o : R2} (h : s.Canonical) : Res.Canonical (execBmake o s) :=
  h.mainOnly (Res.Canonical.ite h.resultVar (h.issueVar h.modSched.resVar.adv))

theorem State.Canonical.execJoin {o : R2} (h : s.Canonical) : Res.Canonical (execJoin o s) :=
  h.mainOnly (Res.Canonical.ite (h.issueVar h.modMe.modSched.resVar.adv) h.resultVar)

theorem State.Canonical.execLeave {o : R0} (h : s.Canonical) : Res.Canonical (execLeave o s) := h.mainOnly h.leaveBunch.adv

theorem State.Canonical.bbarWait {g : Nat} (h : s.Canonical) : (s.bbarWait g).Canonical := by
  unfold State.bbarWait
  split
  · exact h.ite h.wbInv.go
  · exact h.wbInv.go

theorem State.Canonical.execBbar {o : R0} (h : s.Canonical) : Res.Canonical (execBbar o s) := by
  unfold Machine.execBbar
  refine State.Canonical.mainOnly h ?_
  split
  · exact h.trapS
  · exact h.whenDrained h.wbAll.park.settleBunch.bbarWait

/-! ## The events of the S path -/

theorem State.Canonical.at_ {a : Agent} (h : s.Canonical) : (s.at_ cid a).Canonical := h.same

theorem State.Canonical.unhold (h : s.Canonical) : s.unhold.Canonical := h.setSca

theorem State.Canonical.raiseAt {code detail : Nat} {faddr fpc : Word} (h : s.Canonical) : (s.raiseAt cid code detail faddr fpc).Canonical :=
  h.raiseOnce

theorem State.Canonical.setStores {es : List StEnt} (h : s.Canonical) : (s.setStores cid es).Canonical := h.modCtx

theorem State.Canonical.headGo {e : StEnt} {es : List StEnt} {lodge : Bool} (h : s.Canonical) : (s.headGo cid e es lodge).Canonical := by
  unfold State.headGo
  split
  · exact h.performHere.setStores
  · exact h.sendEnt.setStores

theorem State.Canonical.headDone {e : StEnt} {es : List StEnt} {lodge : Bool} (h : s.Canonical) : (s.headDone cid e es lodge).Canonical := by
  unfold State.headDone
  split
  · exact h.modCtx.raiseAt
  · exact h.headGo
  · exact h.headGo

theorem State.Canonical.execStorePerform {lodge : Bool} (h : s.Canonical) : Res.Canonical (execStorePerform cid lodge s) := by
  unfold Machine.execStorePerform
  split
  · exact h
  · split
    · exact h
    · exact h
    · split
      · exact h.headDone
      · exact Res.Canonical.ite h.bump.setStores h.bump.headDone

theorem State.Canonical.execMredPerform (h : s.Canonical) : Res.Canonical (execMredPerform s) := by
  unfold Machine.execMredPerform
  dsimp only
  split
  · exact h
  · split
    · exact h
    · exact h.headDone
    · exact h.headDone

theorem State.Canonical.loadDone {l : LdEnt} {v : Word} (h : s.Canonical) : (s.loadDone cid l v).Canonical := h.modCtx.acquire.ite h.modCtx

theorem State.Canonical.loadFail {l : LdEnt} {code detail : Nat} (h : s.Canonical) : (s.loadFail cid l code detail).Canonical := h.modCtx.raiseAt

theorem State.Canonical.loadHere {l : LdEnt} {hit alloc : Bool} (h : s.Canonical) : (s.loadHere cid l hit alloc).Canonical :=
  (h.ite h.flushPlace).loadFail.ite ((h.ite h.flushPlace).ite (h.ite h.flushPlace).sRead).loadL1.loadDone

theorem State.Canonical.execLoadReturn {hit alloc : Bool} (h : s.Canonical) : Res.Canonical (execLoadReturn cid hit alloc s) := by
  unfold Machine.execLoadReturn
  split
  · exact h
  · refine Res.Canonical.ite h ?_
    split
    · exact h.loadHere
    · exact Res.Canonical.ite h h.send.modCtx

theorem State.Canonical.execL1AgeOut {core line : Nat} (h : s.Canonical) : Res.Canonical (execL1AgeOut core line s) := h.dropLine

theorem State.Canonical.execScWheelIssue (h : s.Canonical) : Res.Canonical (execScWheelIssue s) := by
  unfold Machine.execScWheelIssue
  dsimp only
  split
  · exact h
  · split
    · exact h
    · exact Res.Canonical.ite h.at_.setSca.modCore h

theorem State.Canonical.scDo {x : ScAcc} (h : s.Canonical) : (s.scDo x).Canonical := by
  unfold State.scDo
  refine State.Canonical.ite h.flushPlace.unhold.trapAs ?_
  split
  · exact h.flushPlace.storeHome.acquire.go
  · exact h.flushPlace.sRead.resVar.acquire.go
  · exact h.flushPlace.amoAt.resVar.acquire.go
  · exact h.flushPlace.casAt.resVar.acquire.go
  · exact h.flushPlace.vamoAll.res4.acquire.go
  · exact h.flushPlace.sRead.waitaGot

theorem State.Canonical.execScPerform (h : s.Canonical) : Res.Canonical (execScPerform s) := by
  unfold Machine.execScPerform
  dsimp only
  split
  · exact h
  · split
    · exact h
    · exact h.at_.scDo

theorem State.Canonical.dropNotices (h : s.Canonical) : (s.dropNotices cid).Canonical := h.same

theorem State.Canonical.execWaitaWake (h : s.Canonical) : Res.Canonical (execWaitaWake cid s) := by
  unfold Machine.execWaitaWake
  split
  · refine Res.Canonical.ite h ?_
    refine Res.Canonical.ite h.at_.dropNotices.setSca ?_
    split
    · exact h.at_.dropNotices.holdRemote
    · exact h.at_.dropNotices.waitaRead
  · exact h

theorem State.Canonical.execSleepuWake (h : s.Canonical) : Res.Canonical (execSleepuWake s) := by
  unfold Machine.execSleepuWake
  split
  case h_1 => exact Res.Canonical.ite h.at_.sleepWake h
  all_goals exact h

theorem State.Canonical.execYieldEnd (h : s.Canonical) : Res.Canonical (execYieldEnd s) := by
  unfold Machine.execYieldEnd
  split
  case h_1 => exact Res.Canonical.ite h.at_.unhold h
  all_goals exact h

theorem State.Canonical.execWatchdog (h : s.Canonical) : Res.Canonical (execWatchdog s) := by
  unfold Machine.execWatchdog
  dsimp only
  split
  · exact h
  · exact Res.Canonical.ite h.raise h

theorem State.Canonical.execSvcReply (h : s.Canonical) : Res.Canonical (execSvcReply s) := by
  unfold Machine.execSvcReply
  split
  case h_1 =>
    refine Res.Canonical.ite ?_ h.at_.resVar.resVar.acquire.go
    split
    · exact h.at_.resVar.resVar.acquire.go
    · exact h.at_.modLaunch.resVar.resVar.acquire.go
  all_goals exact h

theorem State.Canonical.answer {src : Nat} {a : RemoteAns} (h : s.Canonical) : (s.answer src a).Canonical := h.post

theorem State.Canonical.remoteDo {src key : Nat} {r : RemoteReq} (h : s.Canonical) : (s.remoteDo src key r).2.Canonical := by
  unfold State.remoteDo
  dsimp only
  split
  · exact h
  · exact h.wr
  · exact h.foldl (fun _ _ h => h.wr)
  · exact h.wr
  · exact h.wr.ite h
  · exact h.wr
  · exact h.same

theorem State.Canonical.execRemoteRequest {src key : Nat} {r : RemoteReq} (h : s.Canonical) : Res.Canonical (execRemoteRequest src key r s) :=
  Res.Canonical.ite h.answer (Res.Canonical.ite h.answer h.remoteDo.answer)

theorem State.Canonical.dropReq {id : Nat} (h : s.Canonical) : (s.dropReq id).Canonical := h.same

theorem State.Canonical.vamoNext {q : RemReq} {op : AmoOp} {rt : Nat} {wide : Bool} {j pa key : Nat} {bs : List Word} {acq : Option Scope}
    {v : Word} (h : s.Canonical) : (s.vamoNext q op rt wide j pa key bs acq v).Canonical := by
  unfold State.vamoNext
  refine State.Canonical.ite (h.ite h.setSca).holdRemote ?_
  refine State.Canonical.go ?_
  split
  · exact (h.ite h.setSca).acquire
  · exact h.ite h.setSca

theorem State.Canonical.heldAnswer {id : Nat} {q : RemReq} {a : RemoteAns} {k : List Byte → State → State} (h : s.Canonical)
    (hk : ∀ bs t, t.Canonical → (k bs t).Canonical) : (s.heldAnswer id q a k).Canonical := by
  unfold State.heldAnswer
  split
  · exact h
  · dsimp only
    split
    · exact h.at_.unhold.trapS
    · exact hk _ _ h.at_.unhold

theorem State.Canonical.storeAnswer {id : Nat} {q : RemReq} {a : RemoteAns} (h : s.Canonical) : (s.storeAnswer id q a).Canonical := by
  unfold State.storeAnswer
  dsimp only
  split
  · exact h.modCtx.addFail
  · exact h.modCtx

theorem State.Canonical.noteWFail {q : RemReq} {path : Nat} {seq code : Nat} (h : s.Canonical) : (s.noteWFail q path u seq code).Canonical := by
  unfold State.noteWFail
  exact h.modCtx

theorem State.Canonical.writeAnswer {id : Nat} {q : RemReq} {path : Nat} {seq : Nat} {a : RemoteAns} (h : s.Canonical) :
    (s.writeAnswer id q path u seq a).Canonical := by
  unfold State.writeAnswer
  split
  · exact h.iterAcked
  · exact h.iterRefused.ite h.noteWFail.iterAcked
  · exact h
  · exact h.noteWFail

theorem State.Canonical.readAnswer {id : Nat} {q : RemReq} {pa n : Nat} {a : RemoteAns} (h : s.Canonical) : (s.readAnswer id q pa n a).Canonical := by
  unfold State.readAnswer
  split
  · exact h
  · dsimp only
    split
    case h_4 => exact h.stopCmd
    all_goals exact h.setCmd

theorem State.Canonical.refetchAnswer {g : Nat} {q : RemReq} {a : RemoteAns} (h : s.Canonical) : (s.refetchAnswer g q a).Canonical := by
  unfold State.refetchAnswer
  split
  · exact h.fatal
  · exact (h.modCtx (fun _ h => Parts.Canonical.refill h)).settleRefetch

theorem State.Canonical.execRemoteResponse {id : Nat} {a : RemoteAns} (h : s.Canonical) : Res.Canonical (execRemoteResponse id a s) := by
  unfold Machine.execRemoteResponse
  split
  · exact h
  · refine Res.Canonical.ite (h.ite h.dropReq) ?_
    split
    · split
      · exact h.ite h.dropReq
      · refine Res.Canonical.ite (h.ite h.dropReq) ?_
        split
        · exact (h.ite h.dropReq).loadFail
        · exact (h.ite h.dropReq).loadDone
    · exact (h.ite h.dropReq).storeAnswer
    · show State.Canonical _
      refine State.Canonical.heldAnswer (h.ite h.dropReq) (fun bs t a => ?_)
      refine State.Canonical.go ?_
      refine State.Canonical.resVar ?_
      split
      · exact a.acquire
      · exact a
    · exact (h.ite h.dropReq).heldAnswer (fun _ _ h => h.vamoNext)
    · exact (h.ite h.dropReq).heldAnswer (fun _ _ a => a.waitaGot.same.ite a.waitaGot)
    · exact (h.ite h.dropReq).modCtx (hf := fun _ a => a.noticed)
    · exact (h.ite h.dropReq).heldAnswer (fun _ _ h => h.spawnRec)
    · exact (h.ite h.dropReq).heldAnswer (fun _ _ h => h.branchLate)
    · exact (h.ite h.dropReq).heldAnswer (fun _ _ h => h.ploadGo)
    · exact (h.ite h.dropReq).readAnswer
    · exact (h.ite h.dropReq).writeAnswer
    · exact (h.ite h.dropReq).writeAnswer
    · exact (h.ite h.dropReq).refetchAnswer

/-! ## The management window, boot, power and links -/

theorem State.Canonical.execMgmtOwnRead (h : s.Canonical) : Res.Canonical (execMgmtOwnRead s) := Res.Canonical.ite h.same h.same.same

theorem State.Canonical.ownWrite {port : Nat} {v : Word} (h : s.Canonical) : (s.ownWrite port v).Canonical := h.same.ite h

theorem State.Canonical.execMgmtOwnWrite {port : Nat} {v : Word} (h : s.Canonical) : Res.Canonical (execMgmtOwnWrite port v s) := h.ownWrite

theorem State.Canonical.hbWrite {port : Nat} (h : s.Canonical) : (s.hbWrite port).Canonical := h.same.ite h

theorem State.Canonical.execMgmtHbWrite (h : s.Canonical) : Res.Canonical (execMgmtHbWrite s) := h.hbWrite

theorem State.Canonical.execOwnershipLapse (h : s.Canonical) : Res.Canonical (execOwnershipLapse s) := Res.Canonical.ite h h.same

theorem State.Canonical.bootFail {stage reason detail : Nat} (h : s.Canonical) : (s.bootFail stage reason detail).Canonical := h.same.restart

theorem State.Canonical.dropRoutes {p : Nat → Bool} (h : s.Canonical) : (s.dropRoutes p).Canonical := h.same

theorem State.Canonical.trainAll (h : s.Canonical) : s.trainAll.Canonical := h.same.dropRoutes

theorem State.Canonical.scrub (h : s.Canonical) : s.scrub.Canonical :=
  ⟨{ h.1 with hbm := rfl, clus := rfl, chip := rfl }, h.2⟩

theorem State.Canonical.ready7 (h : s.Canonical) : s.ready7.Canonical := h.same

theorem State.Canonical.nextStage (h : s.Canonical) : s.nextStage.Canonical := h.same.ite (h.same.ite (h.same.scrub.trainAll.ite h.same))

theorem State.Canonical.failTraining (h : s.Canonical) : s.failTraining.Canonical := h.same

theorem State.Canonical.execBootStage {fail : Option (Nat × Nat)} (h : s.Canonical) : Res.Canonical (execBootStage fail s) := by
  unfold Machine.execBootStage
  dsimp only
  split
  case h_1 => exact h.nextStage
  case h_4 | h_6 | h_7 | h_9 => exact Res.Canonical.ite h.bootFail h.nextStage
  case h_5 =>
    refine Res.Canonical.ite h.bootFail ?_
    split
    · exact h.bootFail
    · exact h.nextStage
  case h_11 => exact Res.Canonical.ite h.failTraining.ready7 (Res.Canonical.ite h h.ready7)
  case h_12 => exact h
  all_goals exact h.bootFail

theorem State.Canonical.execFwdog (h : s.Canonical) : Res.Canonical (execFwdog s) := Res.Canonical.ite h.bootFail h

theorem State.Canonical.execLinkStageEnd (h : s.Canonical) : Res.Canonical (execLinkStageEnd s) := Res.Canonical.ite h.failTraining.ready7 h

theorem State.Canonical.rstBy {port : Nat} (h : s.Canonical) : (s.rstBy port).Canonical := h.same.ite (h.bootFail.ite h.restart)

theorem State.Canonical.commitBy (h : s.Canonical) : s.commitBy.Canonical := h.ite h.same

theorem State.Canonical.execBootCommit (h : s.Canonical) : Res.Canonical (execBootCommit s) := Res.Canonical.ite h.commitBy h

theorem State.Canonical.execBootClrt (h : s.Canonical) : Res.Canonical (execBootClrt s) := Res.Canonical.ite h.same h

theorem State.Canonical.execBootFmin (h : s.Canonical) : Res.Canonical (execBootFmin s) := Res.Canonical.ite h.same h

theorem State.Canonical.execBootRst (h : s.Canonical) : Res.Canonical (execBootRst s) := Res.Canonical.ite h.rstBy h

theorem State.Canonical.afterBusy (h : s.Canonical) : s.afterBusy.Canonical := by
  unfold State.afterBusy
  split
  · exact h.rstBy
  · exact h

theorem State.Canonical.execCommitVerifyDone (h : s.Canonical) : Res.Canonical (execCommitVerifyDone s) := by
  unfold Machine.execCommitVerifyDone
  refine Res.Canonical.ite h ?_
  split
  · exact h.same.afterBusy
  · exact h.same

theorem State.Canonical.execFirmwareWriteDone (h : s.Canonical) : Res.Canonical (execFirmwareWriteDone s) :=
  Res.Canonical.ite h (Res.Canonical.ite h.same.restart h.same.afterBusy)

theorem State.Canonical.execDeviceReset (h : s.Canonical) : Res.Canonical (execDeviceReset s) := h.restart

theorem State.Canonical.execAuxPowerLoss (h : s.Canonical) : Res.Canonical (execAuxPowerLoss s) := h.same

theorem State.Canonical.execPowerLoss (h : s.Canonical) : Res.Canonical (execPowerLoss s) := h.cleared.same

theorem State.Canonical.execPowerThrottle {watt tmax : Nat} (h : s.Canonical) : Res.Canonical (execPowerThrottle watt tmax s) := h.same

theorem State.Canonical.execThrottleCauseClears {watt tmax : Nat} (h : s.Canonical) : Res.Canonical (execThrottleCauseClears watt tmax s) := h.same

theorem State.Canonical.capWrite {v : Word} (h : s.Canonical) : (s.capWrite v).Canonical := h.same

theorem State.Canonical.setLink {n : Nat} {l : Link} (h : s.Canonical) : (s.setLink n l).Canonical := h.same

theorem State.Canonical.trainLink {n : Nat} (h : s.Canonical) : (s.trainLink n).Canonical := h.setLink.dropRoutes.ite h

theorem State.Canonical.enLink {n : Nat} {v : Bool} (h : s.Canonical) : (s.enLink n v).Canonical := h.setLink.ite h.setLink.dropRoutes

theorem State.Canonical.execTrain {port link : Nat} (h : s.Canonical) : Res.Canonical (execTrain port link s) := Res.Canonical.ite h.trainLink h

theorem State.Canonical.execEn {port link : Nat} {v : Bool} (h : s.Canonical) : Res.Canonical (execEn port link v s) := Res.Canonical.ite h.enLink h

theorem State.Canonical.cfgWrite {n : Nat} {v : Word} (h : s.Canonical) : (s.cfgWrite n v).Canonical :=
  (h.setLink.dropRoutes.ite h.setLink).enLink.trainLink.ite (h.setLink.dropRoutes.ite h.setLink).enLink

theorem State.Canonical.execLinkTrainingDone {link : Nat} {low high : Bool} {mdm peer pport : Nat} {reach : List Reach}
    (h : s.Canonical) : Res.Canonical (execLinkTrainingDone link low high mdm peer pport reach s) :=
  Res.Canonical.ite h (Res.Canonical.ite h.failTraining.ready7 (Res.Canonical.ite h.setLink h.setLink))

theorem State.Canonical.execLinkDown {link : Nat} (h : s.Canonical) : Res.Canonical (execLinkDown link s) := h.setLink.dropRoutes

theorem State.Canonical.setRoute {dest : Nat} {r : Route} (h : s.Canonical) : (s.setRoute dest r).Canonical := h.same

theorem State.Canonical.carry {dest : Nat} (h : s.Canonical) : (s.carry dest).Canonical := h.same

theorem State.Canonical.execRouteChange {dest : Nat} (h : s.Canonical) : Res.Canonical (execRouteChange dest s) := by
  unfold Machine.execRouteChange
  refine Res.Canonical.ite h ?_
  split
  · exact h.setRoute.carry
  · exact h.setRoute

theorem State.Canonical.failReq {id : Nat} (h : s.Canonical) : (s.failReq id).Canonical := by
  have hr := h.execRemoteResponse (id := id) (a := .failed)
  unfold State.failReq
  split
  · rename_i he
    rw [he] at hr
    exact hr
  · exact h
  · exact h

theorem State.Canonical.execNoRouteTimeout {dest : Nat} (h : s.Canonical) : Res.Canonical (execNoRouteTimeout dest s) :=
  Res.Canonical.ite h (h.foldl (fun _ _ h => h.failReq))

theorem State.Canonical.execFlitCrcReplay {link : Nat} {received : Bool} (h : s.Canonical) : Res.Canonical (execFlitCrcReplay link received s) :=
  h.setLink

theorem State.Canonical.setBoot {b : Boot} (h : s.Canonical) : State.Canonical { s with boot := b } := h.same

theorem State.Canonical.ctlWrite {port : Nat} {v : Word} (h : s.Canonical) : (s.ctlWrite port v).Canonical := by
  have h1 : (if bitOf v 3 then s.commitBy else s).Canonical := h.commitBy.ite h
  unfold State.ctlWrite
  generalize (if bitOf v 3 then s.commitBy else s) = s1 at h1
  have h2 : (if bitOf v 2 then { s1 with boot := { s1.boot with tries := 0 } } else s1).Canonical := h1.setBoot.ite h1
  dsimp only
  generalize (if bitOf v 2 then { s1 with boot := { s1.boot with tries := 0 } } else s1) = s2 at h2
  have h3 : (if bitOf v 1 then { s2 with boot := { s2.boot with fminPending := true } } else s2).Canonical := h2.setBoot.ite h2
  exact h3.rstBy.ite h3

theorem State.Canonical.mgmtWrite {port off : Nat} {v : Word} (h : s.Canonical) : (s.mgmtWrite port off v).Canonical :=
  h.ite (h.ownWrite.ite (h.hbWrite.ite ((h.same.ite h).ite (h.ite ((h.same.ite h).ite (h.ctlWrite.ite ((h.ite h.same).ite (h.cfgWrite.ite
      (h.capWrite.ite (h.same.ite h))))))))))

theorem State.Canonical.door {port : Nat} (h : s.Canonical) : (s.door port).Canonical := h.ite h.setHport

theorem State.Canonical.bar2Write {port off size : Nat} {v : Word} (h : s.Canonical) : (s.bar2Write port off size v).Canonical :=
  h.ite (h.setHport.ite ((h.ite h.setHport).ite (h.setHport.ite (h.ite (h.prodWrite.ite (h.setHport.ite ((h.door.ite h).ite (h.setHport.ite h))))))))

theorem State.Canonical.bar4Write {port off size : Nat} {v : Word} (h : s.Canonical) : (s.bar4Write port off size v).Canonical := h.setHport.ite h

theorem State.Canonical.execRegisterWrite {port bar off size : Nat} {v : Word} (h : s.Canonical) : Res.Canonical
    (execRegisterWrite port bar off size v s) :=
  Res.Canonical.ite (Res.Canonical.ite h.mgmtWrite h) (Res.Canonical.ite h.bar2Write (Res.Canonical.ite h.bar4Write h))

end

end Sys2Proof.Machine
end

section
/-! PROOF. The remaining instructions, the agents and one step keep every memory in canonical form (R123, R129). -/

namespace Sys2Proof.Machine

open Sys2Proof

section
-- the default arguments are evaluated one declaration after another
set_option Elab.async false

variable {s : State} {cid : Nat} {u : EUnit} {m : Cmd}

/-! ## The K instructions -/

theorem State.Canonical.kStart {sy : Sync} (h : s.Canonical) : (s.kStart sy m).Canonical := h.start.modMe

theorem State.Canonical.kGo {sy : Sync} {ok : Bool} (h : s.Canonical) : Res.Canonical (s.kGo sy ok) :=
  h.engineOp (Res.Canonical.ite h.kStart h.trapStart)

theorem State.Canonical.kDone {sy : Sync} (h : s.Canonical) : Res.Canonical (s.kDone sy) := h.start.visible.signalOf

theorem State.Canonical.execKring {o : EIdx} (h : s.Canonical) : Res.Canonical (execKring o s) := by
  refine h.engineOp ?_
  have hk := h.kringDo (cid := s.cur.cid) (m := s.kCmd)
  split
  · rename_i t ht
    rw [ht] at hk
    exact State.Canonical.kDone hk
  · exact h.trapStart
  · exact h.kStart
  · exact h

theorem State.Canonical.execKbw {o : EReg} (h : s.Canonical) : Res.Canonical (execKbw o s) :=
  h.engineOp (Res.Canonical.ite h.trapStart h.setColl.kDone)

theorem State.Canonical.karGo {sy : Sync} {g : Nat} (h : s.Canonical) : Res.Canonical (s.karGo sy g) := by
  unfold State.karGo
  refine State.Canonical.engineOp h ?_
  refine Res.Canonical.ite ?_ h.trapStart
  dsimp only
  split
  · exact h.setColl.kStart
  · exact h.trapStart

theorem State.Canonical.execKallred {o : KarF} (h : s.Canonical) : Res.Canonical (execKallred o s) := h.karGo

theorem State.Canonical.execKbcast {o : KarF} (h : s.Canonical) : Res.Canonical (execKbcast o s) := h.karGo

theorem State.Canonical.execKput {o : E3} (h : s.Canonical) : Res.Canonical (execKput o s) := h.kGo

/-! ## The instructions of the copy engine -/

theorem State.Canonical.copySetup {sy : Sync} {f : Word → NestSet → Option NestSet} (h : s.Canonical) : Res.Canonical (s.copySetup sy f) := h.setupOp

theorem State.Canonical.execCnestCount {o : ELvl} (h : s.Canonical) : Res.Canonical (execCnestCount o s) := h.copySetup

theorem State.Canonical.execCnestStride {o : EStr} (h : s.Canonical) : Res.Canonical (execCnestStride o s) := h.copySetup

theorem State.Canonical.execCnestRun {o : EReg} (h : s.Canonical) : Res.Canonical (execCnestRun o s) := h.copySetup

theorem State.Canonical.execCbaseAddr {o : EBase} (h : s.Canonical) : Res.Canonical (execCbaseAddr o s) := h.copySetup

theorem State.Canonical.execCbaseScale {o : EBase} (h : s.Canonical) : Res.Canonical (execCbaseScale o s) := h.copySetup

theorem State.Canonical.execCfmtFmt {o : EFmt} (h : s.Canonical) : Res.Canonical (execCfmtFmt o s) := h.copySetup

theorem State.Canonical.execCfmtFill {o : EReg} (h : s.Canonical) : Res.Canonical (execCfmtFill o s) := h.copySetup

theorem State.Canonical.execCfmtLimit {o : EReg} (h : s.Canonical) : Res.Canonical (execCfmtLimit o s) := h.copySetup

theorem State.Canonical.execCfmtSubv {o : EReg} (h : s.Canonical) : Res.Canonical (execCfmtSubv o s) := h.copySetup

theorem State.Canonical.execCfmtClear {o : ENone} (h : s.Canonical) : Res.Canonical (execCfmtClear o s) := h.copySetup

theorem State.Canonical.copyStart {c : CopyGo} {n : NestSet} (h : s.Canonical) : (s.copyStart c n).Canonical :=
  h.start.modMe.beginStreams.ite h.start.modMe.beginStreams.modMe

theorem State.Canonical.copyGo {c : CopyGo} (h : s.Canonical) : Res.Canonical (s.copyGo c) := by
  unfold State.copyGo
  refine State.Canonical.engineOp h ?_
  split
  · exact h.trapStart
  · split
    · exact h.trapStart
    · exact h.copyStart

theorem State.Canonical.execCopy {o : CopyF} (h : s.Canonical) : Res.Canonical (execCopy o s) := h.copyGo

theorem State.Canonical.execCopyz {o : CopyzF} (h : s.Canonical) : Res.Canonical (execCopyz o s) := h.copyGo

theorem State.Canonical.execGather {o : GatherF} (h : s.Canonical) : Res.Canonical (execGather o s) := h.copyGo

theorem State.Canonical.execScatter {o : ScatterF} (h : s.Canonical) : Res.Canonical (execScatter o s) := h.copyGo

theorem State.Canonical.execDecomp {o : CopyF} (h : s.Canonical) : Res.Canonical (execDecomp o s) := h.copyGo

theorem State.Canonical.takeNest {ch : Nat} (h : s.Canonical) : (s.takeNest ch).Canonical := h.modMe

theorem State.Canonical.execDrain {o : DrainF} (h : s.Canonical) : Res.Canonical (execDrain o s) := by
  refine h.engineOp ?_
  split
  · rename_i t ht
    exact h.reportWhere ht
  · exact h.takeNest.start.visible.signalOf

theorem State.Canonical.execCpref {o : CprefF} (h : s.Canonical) : Res.Canonical (execCpref o s) :=
  h.engineOp (h.takeNest.start.setCmd.complete.ite h.takeNest.start.setCmd.noteRanges)

/-! ## The instructions of the matrix engine -/

theorem State.Canonical.matSetup {sy : Sync} {f : Word → MatSet → Option MatSet} (h : s.Canonical) : Res.Canonical (s.matSetup sy f) := h.setupOp

theorem State.Canonical.execMnestCount {o : ELvl} (h : s.Canonical) : Res.Canonical (execMnestCount o s) := h.matSetup

theorem State.Canonical.execMnestStride {o : EStr} (h : s.Canonical) : Res.Canonical (execMnestStride o s) := h.matSetup

theorem State.Canonical.execMbaseAddr {o : EBase} (h : s.Canonical) : Res.Canonical (execMbaseAddr o s) := h.matSetup

theorem State.Canonical.execMbaseScale {o : EBase} (h : s.Canonical) : Res.Canonical (execMbaseScale o s) := h.matSetup

theorem State.Canonical.execMbasePitch {o : EReg} (h : s.Canonical) : Res.Canonical (execMbasePitch o s) := h.matSetup

theorem State.Canonical.execMbaseDpitch {o : EReg} (h : s.Canonical) : Res.Canonical (execMbaseDpitch o s) := h.matSetup

theorem State.Canonical.execMfmtCtl {o : EReg} (h : s.Canonical) : Res.Canonical (execMfmtCtl o s) := h.matSetup

theorem State.Canonical.execMfmtDctl {o : EReg} (h : s.Canonical) : Res.Canonical (execMfmtDctl o s) := h.matSetup

theorem State.Canonical.execMfmtDsb {o : EReg} (h : s.Canonical) : Res.Canonical (execMfmtDsb o s) := h.matSetup

theorem State.Canonical.execMfmtClip {o : EReg} (h : s.Canonical) : Res.Canonical (execMfmtClip o s) := h.matSetup

theorem State.Canonical.execMfmtSubv {o : EReg} (h : s.Canonical) : Res.Canonical (execMfmtSubv o s) := h.matSetup

theorem State.Canonical.execMfmtClear {o : ENone} (h : s.Canonical) : Res.Canonical (execMfmtClear o s) := h.matSetup

theorem State.Canonical.matStart {sy : Sync} {active : Bool} (h : s.Canonical) : Res.Canonical (s.matStart sy u active m) :=
  h.start.modMe.beginStreams

theorem State.Canonical.matGo {sy : Sync} {check : Option (Nat × Nat × Word)} {active : Bool} (h : s.Canonical) : Res.Canonical
    (s.matGo sy u check active m) := by
  unfold State.matGo
  refine State.Canonical.engineOp h ?_
  split
  · exact h.trapStart
  · exact h.matStart

theorem State.Canonical.execMgo {o : ENone} (h : s.Canonical) : Res.Canonical (execMgo o s) := h.matGo

theorem State.Canonical.execMzero {o : MzeroF} (h : s.Canonical) : Res.Canonical (execMzero o s) := h.matGo

theorem State.Canonical.execMinit {o : MinitF} (h : s.Canonical) : Res.Canonical (execMinit o s) := h.matGo

theorem State.Canonical.execMdrain {o : MdrainF} (h : s.Canonical) : Res.Canonical (execMdrain o s) := h.matGo

theorem State.Canonical.execMsparse {o : E3} (h : s.Canonical) : Res.Canonical (execMsparse o s) := h.matGo

/-! ## The dendritic instructions -/

theorem State.Canonical.denSetup {sy : Sync} {f : QEnt → MatSet → Option MatSet} (h : s.Canonical) : Res.Canonical (s.denSetup sy f) := h.setupOp

theorem State.Canonical.execDmap {o : E2} (h : s.Canonical) : Res.Canonical (execDmap o s) := h.denSetup

theorem State.Canonical.execDcurve {o : EIdx} (h : s.Canonical) : Res.Canonical (execDcurve o s) := h.denSetup

theorem State.Canonical.execDtap {o : DtapF} (h : s.Canonical) : Res.Canonical (execDtap o s) := h.denSetup

theorem State.Canonical.execDgo {o : ENone} (h : s.Canonical) : Res.Canonical (execDgo o s) := by
  unfold Machine.execDgo
  refine State.Canonical.engineOp h ?_
  split
  · exact h.matStart
  · exact h.trapStart
  · exact h
  · exact h

/-! ## Scalar floating point -/

theorem State.Canonical.execFadd {o : F3} (h : s.Canonical) : Res.Canonical (execFadd o s) := h.result

theorem State.Canonical.execFsub {o : F3} (h : s.Canonical) : Res.Canonical (execFsub o s) := h.result

theorem State.Canonical.execFmul {o : F3} (h : s.Canonical) : Res.Canonical (execFmul o s) := h.result

theorem State.Canonical.execFfma {o : F4} (h : s.Canonical) : Res.Canonical (execFfma o s) := h.result

theorem State.Canonical.execFmin {o : F3} (h : s.Canonical) : Res.Canonical (execFmin o s) := h.result

theorem State.Canonical.execFmax {o : F3} (h : s.Canonical) : Res.Canonical (execFmax o s) := h.result

theorem State.Canonical.execFcvt {o : FcvtF} (h : s.Canonical) : Res.Canonical (execFcvt o s) := h.result

theorem State.Canonical.execFcmp {o : FcmpF} (h : s.Canonical) : Res.Canonical (execFcmp o s) := h.result

theorem State.Canonical.execFrcp {o : F2} (h : s.Canonical) : Res.Canonical (execFrcp o s) := h.result

theorem State.Canonical.execFrsq {o : F2} (h : s.Canonical) : Res.Canonical (execFrsq o s) := h.result

/-! ## Mailbox commands, code objects and the host -/

theorem State.Canonical.fail {port err : Nat} (h : s.Canonical) : (s.fail port err).Canonical := h.setHport

theorem State.Canonical.done {port : Nat} {ws : List Word} (h : s.Canonical) : (s.done port ws).Canonical := h.setHport

theorem State.Canonical.command {op : Nat} {owner : Bool} {k : Nat → PortSt → State} (h : s.Canonical) (hk : ∀ n p,
    (k n p).Canonical) : Res.Canonical (s.command op owner k) := by
  unfold State.command
  dsimp only
  exact Res.Canonical.ite h (Res.Canonical.ite h.fail (Res.Canonical.ite h.fail (hk _ _)))

theorem State.Canonical.execMailboxCommandEnd (h : s.Canonical) : Res.Canonical (execMailboxCommandEnd s) := by
  unfold Machine.execMailboxCommandEnd
  refine Res.Canonical.ite h ?_
  split <;> exact Res.Canonical.ite h h.setHport

theorem State.Canonical.setKey {slot : Nat} {k : Option KeyName} (h : s.Canonical) : (s.setKey slot k).Canonical := h.same

theorem State.Canonical.execKeyld (h : s.Canonical) : Res.Canonical (execKeyld s) := by
  unfold Machine.execKeyld
  refine State.Canonical.command h (fun n p => ?_)
  refine State.Canonical.ite h.fail ?_
  split
  · exact h.fail
  · exact h.setKey.done

theorem State.Canonical.execKeyclr (h : s.Canonical) : Res.Canonical (execKeyclr s) := h.command (fun _ _ => h.fail.ite (h.fail.ite h.setKey.done))

theorem State.Canonical.execHkey (h : s.Canonical) : Res.Canonical (execHkey s) := h.command (fun _ _ => h.fail.ite (h.fail.ite h.setHport.done))

theorem State.Canonical.execCodekey (h : s.Canonical) : Res.Canonical (execCodekey s) := h.command (fun _ _ => h.fail.ite h.same.done)

theorem State.Canonical.execCodereg (h : s.Canonical) : Res.Canonical (execCodereg s) := by
  unfold Machine.execCodereg
  dsimp only
  refine State.Canonical.command h (fun n p => ?_)
  refine State.Canonical.ite h.fail ?_
  split
  · exact h.fail
  · refine State.Canonical.ite h.fail ?_
    refine State.Canonical.ite h.fail ?_
    split
    · exact h.fail
    · exact h.same.done

theorem State.Canonical.execCoderel (h : s.Canonical) : Res.Canonical (execCoderel s) := by
  unfold Machine.execCoderel
  refine State.Canonical.command h (fun n p => ?_)
  refine State.Canonical.ite h.fail ?_
  split
  · exact h.fail
  · exact h.fail.ite h.same.done

theorem State.Canonical.execCodest (h : s.Canonical) : Res.Canonical (execCodest s) := by
  unfold Machine.execCodest
  refine State.Canonical.command h (fun n p => ?_)
  refine State.Canonical.ite h.fail ?_
  split
  · exact h.fail
  · exact h.done

theorem State.Canonical.readHdrs (h : s.Canonical) : s.readHdrs.Canonical := h.foldl (fun _ _ h => h.readHdr)

theorem State.Canonical.revoke {n : Nat} {o : CodeObj} (h : s.Canonical) : (s.revoke n o).Canonical :=
  State.Canonical.mapCtxs (s := { s with host := { s.host with objs := Map.put s.host.objs n { o with revoked := true } } }) h.same
    (f := fun c => { c with locks := c.locks.filter (fun x => !(decide (o.base < x.1.toNat + x.2.toNat) && decide
        (x.1.toNat < o.base + 65536 * o.pages))) })
    fun _ => rfl

theorem State.Canonical.pageFails {y : Nat} {o : CodeObj} {page : Nat} (h : s.Canonical) : (s.pageFails y o page).Canonical :=
  (h.revoke.foldl (fun _ _ h => h.failRecord)).readHdrs

theorem State.Canonical.loadPage {y : Nat} {o : CodeObj} {page : Nat} (h : s.Canonical) : (s.loadPage y o page).Canonical :=
  h.same.readHdrs.ite h.pageFails

theorem State.Canonical.execPageLoad {handle page : Nat} (h : s.Canonical) : Res.Canonical (execPageLoad handle page s) := by
  unfold Machine.execPageLoad
  split
  · exact h
  · exact Res.Canonical.ite h h.loadPage

theorem State.Canonical.softError {x : Soft} (h : s.Canonical) : (s.softError x).Canonical := by
  unfold State.softError
  split
  · exact h.strike
  · split
    · exact h.ite h.loadPage
    · exact h
  · split
    · exact h.countFault.abortLaunch.bump
    · exact h
  · split
    · rename_i im he
      exact h.putImage (h.image (im := im) he)
    · exact h

theorem State.Canonical.execXreg (h : s.Canonical) : Res.Canonical (execXreg s) := by
  unfold Machine.execXreg
  refine State.Canonical.command h (fun n p => ?_)
  refine State.Canonical.ite h.fail ?_
  split
  · exact h.fail
  · exact h.same.done

theorem State.Canonical.unmap {y : Nat} (h : s.Canonical) : (s.unmap y).Canonical := h.modSched

theorem State.Canonical.execXdel (h : s.Canonical) : Res.Canonical (execXdel s) := by
  unfold Machine.execXdel
  refine State.Canonical.command h (fun n p => ?_)
  refine State.Canonical.ite h.fail ?_
  split
  · exact h.fail
  · exact h.unmap.setHport.same.done

theorem State.Canonical.hostWrite {a : Nat} {bs : List Byte} (h : s.Canonical) : State.Canonical { s with host :=
    { s.host with mem := Mem.write s.host.mem a bs } } :=
  ⟨{ h.1 with host := Mem.wf_write h.1.host _ _ }, h.2⟩

theorem State.Canonical.execAttest (h : s.Canonical) : Res.Canonical (execAttest s) := by
  refine h.command fun n p => ?_
  dsimp only
  split
  · exact h.fail
  · exact h.hostWrite.done

theorem State.Canonical.execAbort (h : s.Canonical) : Res.Canonical (execAbort s) :=
  h.command (fun _ _ => (h.foldl (fun _ _ h => h.abortLaunch)).done)

theorem State.Canonical.execCxlMemRead {port dec addr size : Nat} (h : s.Canonical) : Res.Canonical (execCxlMemRead port dec addr size s) := by
  unfold Machine.execCxlMemRead
  refine Res.Canonical.ite h ?_
  split <;> exact h.same

theorem State.Canonical.execCxlMemWrite {port dec addr : Nat} {bytes : List Byte} (h : s.Canonical) : Res.Canonical
    (execCxlMemWrite port dec addr bytes s) := by
  unfold Machine.execCxlMemWrite
  refine Res.Canonical.ite h ?_
  split
  · exact h
  · exact h.wr

theorem State.Canonical.execHostAtomicop {port dec : Nat} {op : HostAtomic} {addr : Nat} {wide : Bool} {a b : Word}
    (h : s.Canonical) : Res.Canonical (execHostAtomicop port dec op addr wide a b s) := by
  unfold Machine.execHostAtomicop
  refine Res.Canonical.ite h ?_
  split
  · exact h.same
  · exact h.same.wr

/-! ## The immediate instructions -/

theorem State.Canonical.execAddi {o : RIw} (h : s.Canonical) : Res.Canonical (execAddi o s) := h.result

theorem State.Canonical.execAndi {o : RIw} (h : s.Canonical) : Res.Canonical (execAndi o s) := h.result

theorem State.Canonical.execOri {o : RIw} (h : s.Canonical) : Res.Canonical (execOri o s) := h.result

theorem State.Canonical.execXori {o : RIw} (h : s.Canonical) : Res.Canonical (execXori o s) := h.result

theorem State.Canonical.execShli {o : RIw} (h : s.Canonical) : Res.Canonical (execShli o s) := h.result

theorem State.Canonical.execShri {o : RIw} (h : s.Canonical) : Res.Canonical (execShri o s) := h.result

theorem State.Canonical.execSrai {o : RIw} (h : s.Canonical) : Res.Canonical (execSrai o s) := h.result

theorem State.Canonical.execCmpi {o : CmpiF} (h : s.Canonical) : Res.Canonical (execCmpi o s) := h.result

theorem State.Canonical.execLi {o : RI0} (h : s.Canonical) : Res.Canonical (execLi o s) := h.result

theorem State.Canonical.execLih {o : RI0} (h : s.Canonical) : Res.Canonical (execLih o s) := h.result

theorem State.Canonical.execMuli {o : RIw} (h : s.Canonical) : Res.Canonical (execMuli o s) := h.result

/-! ## The integer register instructions -/

theorem State.Canonical.execAdd {o : R3w} (h : s.Canonical) : Res.Canonical (execAdd o s) := h.result

theorem State.Canonical.execSub {o : R3w} (h : s.Canonical) : Res.Canonical (execSub o s) := h.result

theorem State.Canonical.execMul {o : R3w} (h : s.Canonical) : Res.Canonical (execMul o s) := h.result

theorem State.Canonical.execMulh {o : R3w} (h : s.Canonical) : Res.Canonical (execMulh o s) := h.result

theorem State.Canonical.execMulhu {o : R3w} (h : s.Canonical) : Res.Canonical (execMulhu o s) := h.result

theorem State.Canonical.execDiv {o : R3w} (h : s.Canonical) : Res.Canonical (execDiv o s) := h.resultVar

theorem State.Canonical.execDivu {o : R3w} (h : s.Canonical) : Res.Canonical (execDivu o s) := h.resultVar

theorem State.Canonical.execRem {o : R3w} (h : s.Canonical) : Res.Canonical (execRem o s) := h.resultVar

theorem State.Canonical.execRemu {o : R3w} (h : s.Canonical) : Res.Canonical (execRemu o s) := h.resultVar

theorem State.Canonical.execAnd {o : R3w} (h : s.Canonical) : Res.Canonical (execAnd o s) := h.result

theorem State.Canonical.execOr {o : R3w} (h : s.Canonical) : Res.Canonical (execOr o s) := h.result

theorem State.Canonical.execXor {o : R3w} (h : s.Canonical) : Res.Canonical (execXor o s) := h.result

theorem State.Canonical.execShl {o : R3w} (h : s.Canonical) : Res.Canonical (execShl o s) := h.result

theorem State.Canonical.execShr {o : R3w} (h : s.Canonical) : Res.Canonical (execShr o s) := h.result

theorem State.Canonical.execSra {o : R3w} (h : s.Canonical) : Res.Canonical (execSra o s) := h.result

theorem State.Canonical.execMin {o : R3w} (h : s.Canonical) : Res.Canonical (execMin o s) := h.result

theorem State.Canonical.execMax {o : R3w} (h : s.Canonical) : Res.Canonical (execMax o s) := h.result

theorem State.Canonical.execMinu {o : R3w} (h : s.Canonical) : Res.Canonical (execMinu o s) := h.result

theorem State.Canonical.execMaxu {o : R3w} (h : s.Canonical) : Res.Canonical (execMaxu o s) := h.result

theorem State.Canonical.execClz {o : R2w} (h : s.Canonical) : Res.Canonical (execClz o s) := h.result

theorem State.Canonical.execPopc {o : R2w} (h : s.Canonical) : Res.Canonical (execPopc o s) := h.result

theorem State.Canonical.execBext {o : R3} (h : s.Canonical) : Res.Canonical (execBext o s) := h.result

theorem State.Canonical.execBins {o : R4} (h : s.Canonical) : Res.Canonical (execBins o s) := h.result

theorem State.Canonical.execSel {o : SelF} (h : s.Canonical) : Res.Canonical (execSel o s) := h.result

theorem State.Canonical.execCmp {o : CmpF} (h : s.Canonical) : Res.Canonical (execCmp o s) := h.result

theorem State.Canonical.execMadd {o : R4w} (h : s.Canonical) : Res.Canonical (execMadd o s) := h.result

/-! ## The instructions of the reduction engine -/

theorem State.Canonical.redSetup {sy : Sync} {f : Word → NestSet → Option NestSet} (h : s.Canonical) : Res.Canonical (s.redSetup sy f) := h.setupOp

theorem State.Canonical.execRnestCount {o : ELvl} (h : s.Canonical) : Res.Canonical (execRnestCount o s) := h.redSetup

theorem State.Canonical.execRnestStride {o : EStr} (h : s.Canonical) : Res.Canonical (execRnestStride o s) := h.redSetup

theorem State.Canonical.execRnestRun {o : EReg} (h : s.Canonical) : Res.Canonical (execRnestRun o s) := h.redSetup

theorem State.Canonical.execRbaseAddr {o : EBase} (h : s.Canonical) : Res.Canonical (execRbaseAddr o s) := h.redSetup

theorem State.Canonical.execRbaseScale {o : EBase} (h : s.Canonical) : Res.Canonical (execRbaseScale o s) := h.redSetup

theorem State.Canonical.execRfmtFmt {o : EFmt} (h : s.Canonical) : Res.Canonical (execRfmtFmt o s) := h.redSetup

theorem State.Canonical.execRfmtFill {o : EReg} (h : s.Canonical) : Res.Canonical (execRfmtFill o s) := h.redSetup

theorem State.Canonical.execRfmtLimit {o : EReg} (h : s.Canonical) : Res.Canonical (execRfmtLimit o s) := h.redSetup

theorem State.Canonical.execRfmtSubv {o : EReg} (h : s.Canonical) : Res.Canonical (execRfmtSubv o s) := h.redSetup

theorem State.Canonical.execRfmtClear {o : ENone} (h : s.Canonical) : Res.Canonical (execRfmtClear o s) := h.redSetup

theorem State.Canonical.redGo {sy : Sync} {check : Option (Nat × Nat × Word)} {ended : Bool} (h : s.Canonical) : Res.Canonical
    (s.redGo sy check ended) := by
  unfold State.redGo
  refine State.Canonical.engineOp h ?_
  split
  · exact h.trapStart
  · exact h.start.modMe.beginStreams

theorem State.Canonical.execRed {o : RedF} (h : s.Canonical) : Res.Canonical (execRed o s) := h.redGo

theorem State.Canonical.execScan {o : RedF} (h : s.Canonical) : Res.Canonical (execScan o s) := h.redGo

theorem State.Canonical.execMerge {o : MergeF} (h : s.Canonical) : Res.Canonical (execMerge o s) := h.redGo

/-! ## Every instruction and event -/

theorem State.Canonical.exec {i : Instr} (h : s.Canonical) : Res.Canonical (exec i s) := by
  unfold Machine.exec
  split
  · exact h.execMgmtOwnWrite
  · exact h.execRegisterWrite
  · exact h.execBootStage
  · exact h.execTherm
  · exact h.execPowerThrottle
  · exact h.execTrain
  · exact h.execEn
  · exact h.execLinkTrainingDone
  · exact h.execLinkDown
  · exact h.execRouteChange
  · exact h.execNoRouteTimeout
  · exact h.execFlitCrcReplay
  · exact h.execRemoteRequest
  · exact h.execRemoteResponse
  · exact h.execLwProdWrite
  · exact h.execCompletionRecordWrite
  · exact h.execTlim
  · exact h.execPageLoad
  · exact h.execCxlMemRead
  · exact h.execCxlMemWrite
  · exact h.execHostAtomicop
  · exact h.execDispatch
  · exact h.execAgingStep
  · exact h.execReserving
  · exact h.execSaveComplete
  · exact h.execEngineInstructionDecode
  · exact h.execEngineCommandComplete
  · exact h.execEngineWritePerform
  · exact h.execStorePerform
  · exact h.execLoadReturn
  · exact h.execL1AgeOut
  · exact h.execWaitaWake
  · exact h.execReadyWordPoll
  · exact h.execSegmentArrival
  · exact h.execKputAck
  · exact h.execAdd
  · exact h.execSub
  · exact h.execMul
  · exact h.execMulh
  · exact h.execMulhu
  · exact h.execDiv
  · exact h.execDivu
  · exact h.execRem
  · exact h.execRemu
  · exact h.execAnd
  · exact h.execOr
  · exact h.execXor
  · exact h.execShl
  · exact h.execShr
  · exact h.execSra
  · exact h.execMin
  · exact h.execMax
  · exact h.execMinu
  · exact h.execMaxu
  · exact h.execClz
  · exact h.execPopc
  · exact h.execBext
  · exact h.execBins
  · exact h.execSel
  · exact h.execCmp
  · exact h.execMadd
  · exact h.execAddi
  · exact h.execAndi
  · exact h.execOri
  · exact h.execXori
  · exact h.execShli
  · exact h.execShri
  · exact h.execSrai
  · exact h.execCmpi
  · exact h.execLi
  · exact h.execLih
  · exact h.execMuli
  · exact h.execLd
  · exact h.execSt
  · exact h.execLdx
  · exact h.execStx
  · exact h.execPref
  · exact h.execWaita
  · exact h.execMark
  · exact h.execFence
  · exact h.execAmo
  · exact h.execCas
  · exact h.execMred
  · exact h.execVamo
  · exact h.execVmred
  · exact h.execFadd
  · exact h.execFsub
  · exact h.execFmul
  · exact h.execFfma
  · exact h.execFmin
  · exact h.execFmax
  · exact h.execFcvt
  · exact h.execFcmp
  · exact h.execFrcp
  · exact h.execFrsq
  · exact h.execSpawn
  · exact h.execArrive
  · exact h.execEst
  · exact h.execBmake
  · exact h.execJoin
  · exact h.execLeave
  · exact h.execBbar
  · exact h.execSemw
  · exact h.execSems
  · exact h.execSemi
  · exact h.execSemr
  · exact h.execSleepu
  · exact h.execCyc
  · exact h.execYield
  · exact h.execRdsys
  · exact h.execWrsys
  · exact h.execSvc
  · exact h.execTrap
  · exact h.execTret
  · exact h.execIclk
  · exact h.execIulk
  · exact h.execTlbi
  · exact h.execCaps
  · exact h.execPload
  · exact h.execPbind
  · exact h.execPbindU
  · exact h.execPpar
  · exact h.execPclr
  · exact h.execPrd
  · exact h.execPrdC
  · exact h.execPrdN
  · exact h.execBr
  · exact h.execBk
  · exact h.execJr
  · exact h.execCall
  · exact h.execRet
  · exact h.execLoop
  · exact h.execTstb
  · exact h.execXfence
  · exact h.execEndTask
  · exact h.execSync
  · exact h.execNop
  · exact h.execCnestCount
  · exact h.execCnestStride
  · exact h.execCnestRun
  · exact h.execCbaseAddr
  · exact h.execCbaseScale
  · exact h.execCfmtFmt
  · exact h.execCfmtFill
  · exact h.execCfmtLimit
  · exact h.execCfmtSubv
  · exact h.execCfmtClear
  · exact h.execCopy
  · exact h.execCopyz
  · exact h.execGather
  · exact h.execScatter
  · exact h.execDecomp
  · exact h.execDrain
  · exact h.execCpref
  · exact h.execRnestCount
  · exact h.execRnestStride
  · exact h.execRnestRun
  · exact h.execRbaseAddr
  · exact h.execRbaseScale
  · exact h.execRfmtFmt
  · exact h.execRfmtFill
  · exact h.execRfmtLimit
  · exact h.execRfmtSubv
  · exact h.execRfmtClear
  · exact h.execRed
  · exact h.execScan
  · exact h.execMerge
  · exact h.execKring
  · exact h.execKbw
  · exact h.execKallred
  · exact h.execKbcast
  · exact h.execKput
  · exact h.execMnestCount
  · exact h.execMnestStride
  · exact h.execMbaseAddr
  · exact h.execMbaseScale
  · exact h.execMbasePitch
  · exact h.execMbaseDpitch
  · exact h.execMfmtCtl
  · exact h.execMfmtDctl
  · exact h.execMfmtDsb
  · exact h.execMfmtClip
  · exact h.execMfmtSubv
  · exact h.execMfmtClear
  · exact h.execMgo
  · exact h.execMzero
  · exact h.execMinit
  · exact h.execMdrain
  · exact h.execMsparse
  · exact h.execDmap
  · exact h.execDcurve
  · exact h.execDtap
  · exact h.execDgo
  · exact h.execPortFadd
  · exact h.execPortFsub
  · exact h.execPortFmul
  · exact h.execPortFfma
  · exact h.execPortFmin
  · exact h.execPortFmax
  · exact h.execPortFabs
  · exact h.execPortFneg
  · exact h.execPortFrcp
  · exact h.execPortFrsq
  · exact h.execPortFex2
  · exact h.execPortFlg2
  · exact h.execPortFcmp
  · exact h.execPortIadd
  · exact h.execPortIsub
  · exact h.execPortImul
  · exact h.execPortImulh
  · exact h.execPortImin
  · exact h.execPortImax
  · exact h.execPortIminu
  · exact h.execPortImaxu
  · exact h.execPortAnd
  · exact h.execPortOr
  · exact h.execPortXor
  · exact h.execPortShl
  · exact h.execPortShr
  · exact h.execPortSra
  · exact h.execPortIcmp
  · exact h.execPortSel
  · exact h.execPortCvt
  · exact h.execPortRnd
  · exact h.execPortQsr
  · exact h.execPortGet
  · exact h.execPortOut
  · exact h.execPortDrop
  · exact h.execPortPar
  · exact h.execPortParx
  · exact h.execPortCget
  · exact h.execPortCset
  · exact h.execPortPrev
  · exact h.execPortLut
  · exact h.execPortLdl
  · exact h.execPortStl
  · exact h.execPortFlag
  · exact h.execPortHint
  · exact h.execEngineIterationBoundary
  · exact h.execThrottleCauseClears
  · exact h.execMgmtOwnRead
  · exact h.execMgmtHbWrite
  · exact h.execBootCommit
  · exact h.execBootClrt
  · exact h.execBootFmin
  · exact h.execBootRst
  · exact h.execKeyld
  · exact h.execKeyclr
  · exact h.execHkey
  · exact h.execCodekey
  · exact h.execCodereg
  · exact h.execCoderel
  · exact h.execCodest
  · exact h.execXreg
  · exact h.execXdel
  · exact h.execAttest
  · exact h.execAbort
  · exact h.execMailboxCommandEnd
  · exact h.execDescriptorAccept
  · exact h.execScWheelIssue
  · exact h.execScPerform
  · exact h.execMredPerform
  · exact h.execHandlerStart
  · exact h.execWatchdog
  · exact h.execSleepuWake
  · exact h.execYieldEnd
  · exact h.execSvcReply
  · exact h.execOwnershipLapse
  · exact h.execCommitVerifyDone
  · exact h.execFirmwareWriteDone
  · exact h.execDeviceReset
  · exact h.execFwdog
  · exact h.execLinkStageEnd
  · exact h.execAuxPowerLoss
  · exact h.execPowerLoss
  · exact h.execTokenTick

/-! ## The agents -/

theorem State.Canonical.fetchFault {code detail : Nat} (h : s.Canonical) : (s.fetchFault code detail).Canonical := h.trapS

theorem State.Canonical.runWord {w : Word} (h : s.Canonical) : Res.Canonical (s.runWord w) := by
  unfold State.runWord
  split
  · exact h.exec
  · split
    · exact h.exec
    · exact h.trapS

theorem State.Canonical.fetched {t : State} {r : FRes} (h : s.Canonical) (he : s.fetchNext = (r, t)) : t.Canonical := by
  have := h.fetchNext
  rw [he] at this
  exact this

theorem State.Canonical.tryS (h : s.Canonical) : Res.Canonical (s.tryS cid) := by
  unfold State.tryS
  split
  · rename_i he
    exact h.at_.fetched he
  · rename_i he
    exact (h.at_.fetched he).fetchFault
  · rename_i he
    exact (h.at_.fetched he).runWord

theorem State.Canonical.runS (h : s.Canonical) : Res.Canonical (s.runS cid) := Res.Canonical.ite (Res.Canonical.ite h.modCore.tryS h.tryS) h

theorem State.Canonical.runX {a : Agent} (h : s.Canonical) : Res.Canonical (s.runX cid a) := by
  unfold State.runX
  dsimp only
  split
  · exact h.at_
  · refine Res.Canonical.ite h.at_ ?_
    refine Res.Canonical.ite h.at_.started ?_
    split
    · exact h.at_.exec
    · exact h.at_

theorem State.Canonical.runTrap {core : Nat} (h : s.Canonical) : Res.Canonical (s.runTrap core) := by
  unfold State.runTrap
  dsimp only
  split
  · exact h
  · split
    · exact h.firmwareStep
    · split
      · exact h
      · split
        · rename_i he
          exact h.at_.fetched he
        · rename_i he
          exact (h.at_.fetched he).serviceKill
        · rename_i he
          split
          · exact (h.at_.fetched he).serviceKill
          · exact (h.at_.fetched he).exec
          · exact (h.at_.fetched he).serviceKill

theorem State.Canonical.runHelper {core : Nat} (h : s.Canonical) : Res.Canonical (s.runHelper core) := by
  unfold State.runHelper
  split
  · exact h
  · refine Res.Canonical.ite h (Res.Canonical.ite h.endHelper ?_)
    split
    · rename_i he
      exact (h.at_.fetched he).endHelper
    · rename_i he
      exact (h.at_.fetched he).endHelper
    · rename_i he
      split
      · exact (h.at_.fetched he).endHelper
      · exact (h.at_.fetched he).exec
      · exact (h.at_.fetched he).endHelper

theorem State.Canonical.runAgent {a : Agent} (h : s.Canonical) : Res.Canonical (s.runAgent cid a) := by
  unfold State.runAgent
  split
  case h_1 => exact h.runS
  case h_6 => exact h.runTrap
  case h_7 => exact h.runHelper
  all_goals exact h.runX

theorem State.Canonical.runPort {r : PortRun} (h : s.Canonical) : Res.Canonical (s.runPort r) := by
  unfold State.runPort
  refine Res.Canonical.ite h.portDone ?_
  split
  · exact h.exec
  · exact h.portDone

theorem State.Canonical.due {f : State → Res} (h : s.Canonical) (hf : ∀ t, t.Canonical → Res.Canonical (f t)) : (s.due cid f).Canonical :=
  h.resState (hf _ h.at_)

theorem State.Canonical.freezeMig (h : s.Canonical) : (s.freezeMig cid).Canonical := h.modCtx.ite h

theorem State.Canonical.retryHold (h : s.Canonical) : (s.retryHold cid).Canonical := by
  unfold State.retryHold
  dsimp only
  split
  case h_1 => exact h.at_.xfenceWait.ite h.at_
  case h_2 => exact h.at_.bbarWait.ite h.at_
  case h_3 => exact h.at_.spawnEnter.ite h.at_
  case h_4 => exact h.at_.iclkWait.ite h.at_
  all_goals exact h.at_

theorem State.Canonical.endCtx (h : s.Canonical) : (s.endCtx cid).Canonical :=
  (h.due (fun _ h => h.execWaitaWake)).due (fun _ h => h.execScWheelIssue)

theorem State.Canonical.dueCtx (h : s.Canonical) : (s.dueCtx cid).Canonical :=
  ((((h.due (fun _ h => h.execWaitaWake)).due (fun _ h => h.execSleepuWake)).due (fun _ h => h.execYieldEnd)).retryHold.freezeMig.modCtx
      (hf := fun _ a => a.watchBound)).due (fun _ h => h.execWatchdog)

theorem State.Canonical.dueSched (h : s.Canonical) : s.dueSched.Canonical :=
  ((((h.resState h.execOwnershipLapse).resState (h.resState h.execOwnershipLapse).execTokenTick).ageNow.foldl
      (fun _ _ a => a.resState a.execReserving)).foldl (fun _ _ a => a.resState a.execTlim)).foldl (fun _ _ h => h.settleSaved)

theorem State.Canonical.dueDevice (h : s.Canonical) : s.dueDevice.Canonical :=
  ((h.resState h.execFwdog).resState (h.resState h.execFwdog).execLinkStageEnd).foldl (fun _ _ a => a.resState a.execNoRouteTimeout)

theorem State.Canonical.clkEnd (h : s.Canonical) : s.clkEnd.Canonical := (h.foldl (fun _ _ h => h.endCtx)).same

theorem State.Canonical.clkStart (h : s.Canonical) : s.clkStart.Canonical :=
  ((h.foldl (fun _ _ a => a.due (fun _ h => h.execScPerform))).dueSched.dueDevice.foldl (fun _ _ h => h.dueCtx)).foldl (fun _ _ h => h.ageL1)

theorem State.Canonical.tick (h : s.Canonical) : s.tick.Canonical := h.same.ite h.clkEnd.same.clkStart

theorem State.Canonical.runEvent {port : Nat} {i : Instr} (h : s.Canonical) : Res.Canonical (s.runEvent port cid i) := Res.Canonical.ite h h.same.exec

theorem State.Canonical.runMover {m : Mover} (h : s.Canonical) : Res.Canonical (s.runMover m) := by
  unfold State.runMover
  dsimp only
  split
  · exact h.same.tick
  · exact h.same.softError
  · exact h.same.runEvent
  · exact h.same.runAgent

theorem State.Canonical.advance {m : Mover} {rest : List Mover} (h : s.Canonical) : Res.Canonical (s.advance m rest) := by
  unfold State.advance
  dsimp only
  split
  · exact h.runMover
  · exact Res.Canonical.ite h.tick h.same.runMover

/-! ## One step -/

theorem State.Canonical.step (h : s.Canonical) : Res.Canonical (step s) := by
  unfold Machine.step
  split
  · exact h.runPort
  · split <;> exact h.advance

end

/-- Settles O60: every operation that a step is made of keeps the form, since it writes memory byte by byte or drops bytes, and otherwise
leaves the memories alone. -/
theorem stepKeepsMemories : Obligations.StepKeepsMemories := by
  unfold Obligations.StepKeepsMemories
  intro s t h hs
  have hr := h.step
  rw [hs] at hr
  exact hr

end Sys2Proof.Machine
end

section
/-! PROOF. Requests of other devices, accesses of the host, and the answers to the device's own requests (R39-R41, R59, R127, R169, R173, R225). -/

namespace Sys2Proof.Machine

open Sys2Proof

/-! ## Ending a hold, before or after a write-back -/

/-- A context whose S holds nothing. -/
def Ctx.freed (c : Ctx) : Ctx := { c with sc := { c.sc with hold := .none } }

/-- A store wakes only what a hold waits for. -/
theorem Ctx.freed_wakeOn (c : Ctx) (p : Place) (n : Nat) : c.freed.wakeOn p n = (c.wakeOn p n).freed := by
  have h := c.wakeOn_rest p n
  exact h.symm

theorem Map.map_put {α β : Type} (f : α → β) (m : Map α) (k : Nat) (v : α) :
    (Map.put m k v).map (fun x => (x.1, f x.2)) = Map.put (m.map (fun x => (x.1, f x.2))) k (f v) := by
  induction m with
  | nil => rfl
  | cons x m ih =>
    obtain ⟨k', w⟩ := x
    simp only [Map.put, List.map_cons]
    split
    · rfl
    · split
      · rfl
      · rw [List.map_cons, ih]

theorem State.wakeOn_freed (s : State) (cid : Nat) (p : Place) (n : Nat) :
    (s.modCtx cid Ctx.freed).wakeOn p n = (s.wakeOn p n).modCtx cid Ctx.freed := by
  have hc : (s.wakeOn p n).modCtx cid Ctx.freed = (s.wakeOn p n).setCtx cid ((s.ctx cid).freed.wakeOn p n) := by
    unfold State.modCtx
    rw [State.ctx_wakeOn, Ctx.freed_wakeOn]
  rw [hc]
  unfold State.wakeOn State.modCtx State.setCtx
  dsimp only
  rw [Map.map_put (fun c : Ctx => c.wakeOn p n)]

theorem State.foldl_freed {α : Type} {cid : Nat} (f : State → α → State) (h : ∀ u x, f (u.modCtx cid Ctx.freed) x = (f u x).modCtx cid Ctx.freed)
    (l : List α) (u : State) : l.foldl f (u.modCtx cid Ctx.freed) = (l.foldl f u).modCtx cid Ctx.freed :=
  List.foldl_hom (fun u : State => u.modCtx cid Ctx.freed) h

theorem State.post_freed (s : State) (cid dev : Nat) (m : Msg) : (s.modCtx cid Ctx.freed).post dev m = (s.post dev m).modCtx cid Ctx.freed := by
  unfold State.post
  rw [apply_ite (fun x : State => x.modCtx cid Ctx.freed)]
  rfl

theorem State.notices_freed (s : State) (cid : Nat) (p : Place) (n : Nat) :
    (s.modCtx cid Ctx.freed).notices p n = (s.notices p n).modCtx cid Ctx.freed := by
  unfold State.notices
  exact State.foldl_freed (fun (s : State) (w : Nat × Nat) => s.post w.1 (.notice w.1 w.2)) (fun u w => u.post_freed cid w.1 (.notice w.1 w.2)) _
    { s with net := { s.net with watch := s.net.watch.filter (fun w => !(List.range n).any (fun i => (p.add i).line == w.2)) } }

theorem State.hbmSet_freed (s : State) (cid slot pa : Nat) (b : Byte) :
    (s.modCtx cid Ctx.freed).hbmSet slot pa b = (s.hbmSet slot pa b).modCtx cid Ctx.freed := by
  have hk : (s.modCtx cid Ctx.freed).slotKey slot = s.slotKey slot := rfl
  unfold State.hbmSet
  rw [hk]
  cases s.slotKey slot <;> rfl

theorem State.wr_freed (s : State) (cid l pa key a b : Nat) (bs : List Byte) :
    (s.modCtx cid Ctx.freed).wr l (.loc pa key a b) bs = (s.wr l (.loc pa key a b) bs).modCtx cid Ctx.freed := by
  have hb : ∀ (bs : List Byte) (pa : Nat) (u : State), (u.modCtx cid Ctx.freed).wrBytes l (.loc pa key a b) bs =
      (u.wrBytes l (.loc pa key a b) bs).modCtx cid Ctx.freed := by
    intro bs
    induction bs with
    | nil => intro pa u; rfl
    | cons x bs ih =>
      intro pa u
      have h1 : (u.modCtx cid Ctx.freed).wr1 l (.loc pa key a b) x = (u.wr1 l (.loc pa key a b) x).modCtx cid Ctx.freed := u.hbmSet_freed cid key pa x
      simp only [State.wrBytes, h1]
      exact ih (pa + 1) _
  unfold State.wr
  rw [hb, show ((s.wrBytes l (.loc pa key a b) bs).modCtx cid Ctx.freed).heal (.loc pa key a b) bs.length =
    ((s.wrBytes l (.loc pa key a b) bs).heal (.loc pa key a b) bs.length).modCtx cid Ctx.freed from rfl, State.wakeOn_freed, State.notices_freed]

theorem State.wbLine_freed (s : State) (cid k n : Nat) : (s.modCtx cid Ctx.freed).wbLine k n = (s.wbLine k n).modCtx cid Ctx.freed := by
  have hc : ((s.modCtx cid Ctx.freed).core k).l1 = (s.core k).l1 := rfl
  unfold State.wbLine
  rw [hc]
  cases Map.find (s.core k).l1 n with
  | none => rfl
  | some x =>
    have hf := State.foldl_freed (fun s r => s.wr 0 (.loc (n * 64 + r.1) x.key 0 0) r.2) (fun u r => u.wr_freed cid 0 (n * 64 + r.1) x.key 0 0 r.2)
      x.runs s
    dsimp only
    rw [hf, apply_ite (fun u : State => u.modCtx cid Ctx.freed)]
    rfl

theorem State.wbInv_freed (s : State) (cid k : Nat) : (s.modCtx cid Ctx.freed).wbInv k = (s.wbInv k).modCtx cid Ctx.freed := by
  have hf := State.foldl_freed (fun s n => s.wbLine k n) (fun u n => u.wbLine_freed cid k n) ((s.core k).l1.map Prod.fst) s
  unfold State.wbInv State.wbAll
  rw [show ((s.modCtx cid Ctx.freed).core k).l1 = (s.core k).l1 from rfl, hf]
  rfl

theorem State.acquire_freed (s : State) (cid c : Nat) (sc : Scope) :
    (s.modCtx cid Ctx.freed).acquire c sc = (s.acquire c sc).modCtx cid Ctx.freed := by
  unfold State.acquire
  rw [State.wbInv_freed, apply_ite (fun u : State => u.modCtx cid Ctx.freed)]

theorem State.unhold_main {s : State} (hm : s.OnMain) : s.unhold = s.modCtx s.cur.cid Ctx.freed := by
  have ha : s.cur.agent = .S := hm
  unfold State.unhold State.setSca
  rw [ha]
  dsimp only
  unfold State.modMe Ctx.freed
  rw [← sca_main hm]
  rfl

/-! ## Requests of other devices -/

theorem requestAmo {s : State} {src key a : Nat} {wide : Bool} {op : AmoOp} {b : Word} {n : Nat} (hn : n = if wide then 8 else 4)
    (h : s.Opens key a n) (hp : s.poisoned (.loc a key 2 0) n = false) :
    exec (.remoteRequest src key (.amo op a wide b)) s =
      .next ((s.wr 0 (.loc a key 2 0) (leBytes n (op.result (atomWidth wide) (leWord (s.rd 0 (.loc a key 2 0) n)) b).toNat)).replies src
        (.data (leBytes n (leWord (s.rd 0 (.loc a key 2 0) n)).toNat))) := by
  subst hn
  rw [remote_ok h (.inl hp)]
  have hb := amo_bytes op wide (leWord (s.hbmRead key a (amoBytes wide))) b
  unfold State.remoteDo
  dsimp only
  rw [hb, rd_loc (cl := 2) (wp := 0), ← bytes_eq]
  rfl

theorem requestCas {s : State} {src key a : Nat} {wide : Bool} {e b : Word} {n : Nat} (hn : n = if wide then 8 else 4)
    (h : s.Opens key a n) (hp : s.poisoned (.loc a key 2 0) n = false) :
    ((leWord (s.rd 0 (.loc a key 2 0) n)).toNat = e.toNat % 2 ^ (8 * n) → exec (.remoteRequest src key (.cas a wide e b)) s =
      .next ((s.wr 0 (.loc a key 2 0) (leBytes n b.toNat)).replies src (.data (leBytes n (leWord (s.rd 0 (.loc a key 2 0) n)).toNat)))) ∧
    ((leWord (s.rd 0 (.loc a key 2 0) n)).toNat ≠ e.toNat % 2 ^ (8 * n) → exec (.remoteRequest src key (.cas a wide e b)) s =
      .next (s.replies src (.data (leBytes n (leWord (s.rd 0 (.loc a key 2 0) n)).toNat)))) := by
  subst hn
  have hz := toNat_eq_zext (amoBytes wide) (by cases wide; exact .inl rfl; exact .inr rfl) (leWord (s.rd 0 (.loc a key 2 0) (amoBytes wide))) e
  refine ⟨fun he => ?_, fun he => ?_⟩ <;> rw [remote_ok h (.inl hp)] <;> unfold State.remoteDo <;> dsimp only <;> rw [rd_loc (cl := 2) (wp := 0)]
  · rw [if_pos (hz.2 he)]; rfl
  · rw [if_neg (fun x => he (hz.1 x))]; rfl

/-! ## The host's accesses -/

theorem fetchAdd_bytes (wide : Bool) (old a b : Word) :
    leBytes (if wide then 8 else 4) (hostNew .fetchAdd (if wide then 8 else 4) old a b).toNat = leBytes (if wide then 8 else 4) (old.toNat + a.toNat) := by
  apply leBytes_mod
  unfold hostNew zextN
  dsimp only
  rw [BitVec.toNat_ofNat, BitVec.toNat_add]
  cases wide <;> norm_num

/-- Without CXL the host has none of these accesses. -/
theorem host_off {s : State} {port : Nat} (h : (s.hport port).cxl = false) (dec addr size : Nat) (bs : List Byte) (op : HostAtomic) (wide : Bool) (a b : Word) :
    exec (.cxlMemRead port dec addr size) s = .next s ∧ exec (.cxlMemWrite port dec addr bs) s = .next s ∧
      exec (.hostAtomicop port dec op addr wide a b) s = .next s := by
  have hn : (!(s.hport port).cxl) = true := by rw [h]; rfl
  exact ⟨if_pos hn, if_pos hn, if_pos hn⟩

theorem host_reads {s : State} {port : Nat} (h : (s.hport port).cxl = true) (dec addr size : Nat) :
    exec (.cxlMemRead port dec addr size) s = match s.hdmPlace port dec addr size with
      | none => .next { s with host := { s.host with rdata := List.replicate size 0, poison := true } }
      | some p => .next { s with host := { s.host with rdata := s.rd 0 p size, poison := s.poisoned p size } } :=
  if_neg (by rw [h]; exact Bool.false_ne_true)

theorem host_writes {s : State} {port : Nat} (h : (s.hport port).cxl = true) (dec addr : Nat) (bs : List Byte) :
    exec (.cxlMemWrite port dec addr bs) s = match s.hdmPlace port dec addr bs.length with
      | none => .next s
      | some p => .next (s.wr 0 p bs) :=
  if_neg (by rw [h]; exact Bool.false_ne_true)

theorem host_atom_none {s : State} {port dec addr : Nat} {wide : Bool} (h : (s.hport port).cxl = true)
    (hp : s.hdmPlace port dec addr (if wide then 8 else 4) = none) (op : HostAtomic) (a b : Word) :
    exec (.hostAtomicop port dec op addr wide a b) s =
      .next { s with host := { s.host with rdata := List.replicate (if wide then 8 else 4) 0, poison := true } } := by
  show execHostAtomicop port dec op addr wide a b s = _
  unfold execHostAtomicop
  dsimp only
  rw [h, hp]
  rfl

/-- An AtomicOp writes its result where it reads (R41). -/
theorem host_atoms {s : State} {port dec addr : Nat} {wide : Bool} {a b : Word} {n : Nat} (hn : n = if wide then 8 else 4) {p : Place}
    (hx : (s.hport port).cxl = true) (hp : s.hdmPlace port dec addr n = some p) :
    let old := leWord (s.rd 0 p n)
    let u : State := { s with host := { s.host with rdata := leBytes n old.toNat, poison := s.poisoned p n } }
    exec (.hostAtomicop port dec .fetchAdd addr wide a b) s = .next (u.wr 0 p (leBytes n (old.toNat + a.toNat))) ∧
      exec (.hostAtomicop port dec .swap addr wide a b) s = .next (u.wr 0 p (leBytes n a.toNat)) ∧
      (old.toNat = a.toNat % 2 ^ (8 * n) → exec (.hostAtomicop port dec .cas addr wide a b) s = .next (u.wr 0 p (leBytes n b.toNat))) ∧
      (old.toNat ≠ a.toNat % 2 ^ (8 * n) → exec (.hostAtomicop port dec .cas addr wide a b) s = .next (u.wr 0 p (leBytes n old.toNat))) := by
  intro old u
  have hz := toNat_eq_zext n (by subst hn; cases wide; exact .inl rfl; exact .inr rfl) old a
  have hg := fun op => atom_go s port dec addr wide a b op n hn p hx hp
  refine ⟨(hg _).trans ?_, hg _, fun he => (hg _).trans ?_, fun he => (hg _).trans ?_⟩
  · rw [show leBytes n (hostNew .fetchAdd n old a b).toNat = leBytes n (old.toNat + a.toNat) from hn ▸ fetchAdd_bytes wide old a b]
  · rw [show hostNew .cas n old a b = b from if_pos (hz.2 he)]
  · rw [show hostNew .cas n old a b = old from if_neg fun x => he (hz.1 x)]

/-! ## Answers -/

theorem acked1_stores (p : SPath) (id : Nat) : p.acked1 id =
    { p with remStores := p.remStores.filter (fun n => n != id), stores := acknowledged id p.stores } := by
  unfold SPath.acked1 acknowledged
  cases p.stores with
  | nil => rfl
  | cons e es =>
    by_cases hc : id ∈ e.sent
    · simp [hc]
    · simp [hc]

theorem cmd_mem {g : Engines} {u : EUnit} {m : Cmd} (h : g.cmd u = some m) : m ∈ g.cmds := by
  unfold Engines.cmds
  simp only [List.mem_append, Option.mem_toList]
  cases u with
  | ch n =>
    have hk : ∀ c : Map Cmd, Map.find c n = some m → m ∈ c.map Prod.snd := by
      intro c hc
      fun_induction Map.find c n <;> simp_all
    exact .inl (.inl (.inl (.inl (hk _ h))))
  | array => exact .inl (.inl (.inl (.inr h)))
  | drainU => exact .inl (.inl (.inr h))
  | red => exact .inl (.inr h)
  | coll n => exact .inr (List.mem_of_getElem? h)

theorem findCmd_none {g : Engines} {ok : Cmd → Bool} (h : ∀ m ∈ g.cmds, ok m = false) : g.findCmd ok = none := by
  unfold Engines.findCmd
  rw [List.findSome?_eq_none_iff]
  intro u _
  cases hc : g.cmd u with
  | none => rfl
  | some m => simp [h m (cmd_mem hc)]

/-- An answer to a request that was not sent is no answer, but the failure for want of a route (R21). -/
theorem resp_unsent {s : State} {id : Nat} {a : RemoteAns} (hu : s.Unsent id) (ha : a ≠ .failed) : exec (.remoteResponse id a) s = .next s := by
  have hw : (s.unsent id && a != .failed) = true := by
    obtain ⟨x, hx, d, k, r, hr⟩ := hu
    rw [Bool.and_eq_true, bne_iff_ne]
    refine ⟨List.any_eq_true.2 ⟨x, hx, ?_⟩, ha⟩
    rw [hr]
    simp [Msg.isReq]
  show execRemoteResponse id a s = _
  unfold execRemoteResponse
  cases Map.find s.net.reqs id with
  | none => rfl
  | some q =>
    dsimp only
    rw [hw]
    rfl

/-- The head of the store queue leaves with its last acknowledgement, and a failure is noted (R169, R171). -/
theorem storeAnswer_eq (s : State) (id : Nat) (q : RemReq) (a : RemoteAns) :
    (s.closed id).storeAnswer id q a = (s.closed id).modCtx q.cid (fun c => { c with path := { c.path with
      remStores := c.path.remStores.filter (fun n => n != id)
      stores := acknowledged id c.path.stores
      fails := c.path.fails ++ (match s.badAnswer q.dev a with | some (x, d) => [⟨x, d, q.va⟩] | none => []) } }) := by
  have hb : ((s.closed id).modCtx q.cid (fun c => c.modPath (fun p => p.acked1 id))).ansCause q.dev a = s.badAnswer q.dev a := by cases a <;> rfl
  unfold State.storeAnswer
  dsimp only
  rw [hb]
  cases s.badAnswer q.dev a with
  | none =>
    dsimp only
    congr 1
    funext c
    simp only [Ctx.modPath, acked1_stores, List.append_nil]
  | some x =>
    dsimp only
    unfold State.addFail
    rw [modCtx_twice]
    congr 1
    funext c
    simp only [Ctx.modPath, acked1_stores]

/-- A write of an engine whose command awaits nothing any more: only its failure is noted (R434). -/
theorem writeAnswer_eq {s : State} {id : Nat} {q : RemReq} (h : ∀ m ∈ (s.ctx q.cid).eng.cmds, id ∉ m.acks) (path : Nat) (unit : EUnit) (seq : Nat)
    (a : RemoteAns) : (s.closed id).writeAnswer id q path unit seq a = match s.badAnswer q.dev a with
      | none => s.closed id
      | some (c, _) => (s.closed id).modCtx q.cid (fun x => { x with eng := { x.eng with
          wfails := x.eng.wfails ++ [⟨unit, path, seq, q.va, (Map.getD s.net.routes q.dev .fresh).port, decide (c = 7)⟩] } }) := by
  have hf : ((s.closed id).ctx q.cid).eng.findCmd (fun m => m.acks.contains id) = none :=
    findCmd_none (g := (s.ctx q.cid).eng) fun m hm => by simpa using h m hm
  unfold State.writeAnswer
  rw [hf, badAnswer_eq]
  cases s.badAnswer q.dev a with
  | none => rfl
  | some x =>
    obtain ⟨c, d⟩ := x
    dsimp only
    unfold State.noteWFail
    rw [show (c == 7) = decide (c = 7) from rfl]
    rfl

/-- What a held instruction of S does with its answer (R127, R169, R171). -/
theorem atomicAnswer {s : State} {id : Nat} {q : RemReq} {a : RemoteAns} (hh : (s.ctx q.cid).sc.hold = .remote id) (rt n : Nat) (sx : Bool)
    (acq : Option Scope) :
    let v := s.at_ q.cid .S
    let t := s.heldAnswer id q a (fun bs s => ((match acq with | some sc => s.acquire s.cur.cid sc | none => s).resVar rt (extend sx n (leWord bs))).go)
    (∀ c d, s.badAnswer q.dev a = some (c, d) → (s.ctx q.cid).trap.phase = .none → v.unhold.TrapsS t c d q.va) ∧
    (∀ bs, a = .data bs → acq = none → v.EndsWith t rt (extend sx n (leWord bs))) ∧
    (∀ bs sc, a = .data bs → acq = some sc → (v.acquire q.cid sc).EndsWith t rt (extend sx n (leWord bs))) := by
  intro v t
  have hm : v.OnMain := rfl
  have hu : ∀ w : State, w.OnMain → ∀ x, w.EndsWith ((w.unhold.resVar rt x).go) rt x := by
    intro w hw x
    have hg := State.resVar_go_ends (State.hasAgent_main ((w.setSca_frame _).onMain hw) : w.unhold.HasAgent) rt x
    have hs : w.unhold.sca = { w.sca with hold := .none } := State.sca_setSca (State.hasAgent_main hw) _
    refine ⟨?_, (w.setSca_frame _).trans hg.frame⟩
    rw [hg.scalar, hs, show w.unhold.clk = w.clk by rw [State.unhold_main hw]; rfl]
    rfl
  refine ⟨fun c d hb hp => ?_, fun bs ha hq => ?_, fun bs sc ha hq => ?_⟩
  · have ht : t = v.unhold.trapS c d q.va := by show s.heldAnswer id q a _ = _; rw [heldAnswer_S a _ hh, hb]
    rw [ht]
    refine trapS_traps (s := v.unhold) ((v.setSca_frame _).onMain hm) ?_ c d q.va
    rw [State.unhold_main hm]
    show ((v.modCtx q.cid Ctx.freed).ctx q.cid).trap.phase = .none
    rw [State.ctx_modCtx_same]
    exact hp
  · subst ha hq
    have ht : t = (v.unhold.resVar rt (extend sx n (leWord bs))).go := by show s.heldAnswer id q _ _ = _; rw [heldAnswer_S _ _ hh]; rfl
    exact ht ▸ hu v hm _
  · subst ha hq
    have hw : (v.acquire q.cid sc).OnMain := (State.acquire_moves v q.cid sc).1.onMain hm
    have he : v.unhold.acquire q.cid sc = (v.acquire q.cid sc).unhold := by
      rw [State.unhold_main hm, State.unhold_main hw, State.acquire_freed, (State.acquire_moves v q.cid sc).1.cur]
    have ht : t = ((v.unhold.acquire q.cid sc).resVar rt (extend sx n (leWord bs))).go := by
      show s.heldAnswer id q _ _ = _; rw [heldAnswer_S _ _ hh]; rfl
    rw [ht, he]
    exact hu _ hw _

/-- A notice wakes the waita that awaits it (R308). -/
theorem notice_wakes {s : State} {q : RemReq} {w : WaitaSt} (h : (s.ctx q.cid).sc.hold = .waita w) (hp : w.pc = q.pc) (hv : w.va = q.va) :
    ((s.modCtx q.cid (fun c => c.noticed q)).ctx q.cid).sc.hold = .waita { w with woken := true } := by
  rw [State.ctx_modCtx_same]
  unfold Ctx.noticed
  rw [h]
  dsimp only [holdWaita?]
  rw [if_pos ⟨hp, hv⟩]
  unfold Ctx.wakeNow
  rw [h]

/-- Settles O53: each access is turned away or performed at its place, and each answer goes to the instruction or command that awaits it. -/
theorem outsideAccesses : Obligations.OutsideAccesses := by
  unfold Obligations.OutsideAccesses
  refine ⟨fun s src key r h => remote_no h, fun s src key a bs h => remote_ok (r := .store a bs) h (.inr rfl),
    fun s src key a ps h => remote_ok (r := .granule a ps) h (.inr rfl),
    fun s src key a n h => ⟨fun hp => ⟨remote_bad (r := .load a n) h rfl hp, remote_bad (r := .watch a n) h rfl hp⟩,
      fun hp => ⟨remote_ok (r := .load a n) h (.inl hp), remote_ok (r := .watch a n) h (.inl hp)⟩⟩,
    fun s src key a wide op b e h => ?_, fun s src key a m v h hp => remote_ok (r := .mred m a v) h (.inl hp),
    fun s port dec addr size bs op wide a b h => host_off h dec addr size bs op wide a b,
    fun s port dec addr size hx => ⟨fun h => ?_, fun h => ?_⟩, fun s port dec addr bs hx => ⟨fun h => ?_, fun h => ?_⟩,
    fun s port dec addr wide a b hx => ⟨fun h op => host_atom_none hx (hdmPlace_none h) op a b, fun h => host_atoms rfl hx (hdmPlace_some h)⟩,
    fun s id a => ⟨?_, fun q hq hn hc => resp_gone hq hn hc, fun q hq hn hc => ?_⟩⟩
  · exact ⟨fun hp => remote_bad (r := .amo op a wide b) h rfl hp, fun hp => ⟨requestAmo rfl h hp, requestCas rfl h hp⟩⟩
  · rw [host_reads hx, hdmPlace_none h]
  · rw [host_reads hx, hdmPlace_some h]
  · rw [host_writes hx, hdmPlace_none h]
  · rw [host_writes hx, hdmPlace_some h]
  · rintro (h | ⟨hu, hf⟩)
    · exact resp_none h a
    · exact resp_unsent hu hf
  · obtain ⟨hst, hew, hno, hat, hld⟩ := resp_eq hq hn hc
    refine ⟨fun l ls hk hl hr => ⟨fun bs ha => ?_, fun c d hb => ?_⟩, fun hk => (hst hk).trans (congrArg _ (storeAnswer_eq s id q a)),
      fun path unit seq hk hm => ⟨fun hb => ?_, fun c d hb => ?_⟩, fun w hk hh hp hv => ⟨_, hno hk, notice_wakes hh hp hv⟩, fun rt n sx acq hk hh => ?_⟩
    · rw [hld l ls hk hl hr, ha]; rfl
    · rw [hld l ls hk hl hr, hb]
    · rw [hew path unit seq hk, writeAnswer_eq hm, hb]
    · rw [hew path unit seq hk, writeAnswer_eq hm, hb]
    · obtain ⟨htr, hnone, hsome⟩ := atomicAnswer (s := s.closed id) (a := a) hh rt n sx acq
      exact ⟨fun c d hb hp => ⟨_, hat rt n sx acq hk, htr c d ((badAnswer_eq s q.dev a id) ▸ hb) hp⟩, fun bs ha hq => ⟨_, hat rt n sx acq hk, hnone bs ha hq⟩,
        fun bs sc ha hq => ⟨_, hat rt n sx acq hk, hsome bs sc ha hq⟩⟩

end Sys2Proof.Machine
end

section
/-! PROOF. The accesses of S that alignment or translation turns away (R118, R140, R217, R302, R307, R309, R317). -/

namespace Sys2Proof.Machine

open Sys2Proof

section
variable {s : State} {i : Instr} {srcs : List Nat} {ea : Word} (hm : s.OnMain) (ht : s.me.trap.phase = .none) (hr : s.Ready srcs none)
include hm ht hr

/-- A load's first act is its access (R302, R303). -/
theorem load_turns {o : LoadOp} (hh : s.Here [o.rt]) (he : exec i s = s.loadOp o srcs ea) :
    s.TurnsAway i ea o.z.bytes (if o.ord = .sc then .scLoad else .load) := by
  rw [← size_eq]
  exact turns hm ht (he.trans (hr.issueVar hh _))

theorem store_turns {o : StoreOp} (he : exec i s = s.storeOp o srcs ea) :
    s.TurnsAway i ea o.z.bytes (if o.ord = .sc then .scStore else .store) := by
  have hn : s.cur.agent ≠ .helper := by rw [hm]; decide
  rw [← size_eq]
  exact turns hm ht (he.trans ((if_neg hn).trans (hr.issue _)))

theorem mred_turns {st align : Nat} {od : Ord} {scp : Scope} {kind : StKind} (he : exec i s = s.mredOp st srcs ea align od scp kind) :
    s.TurnsAway i ea align .vector :=
  turns hm ht (he.trans ((mainOnly_main hm _).trans (hr.issue _)))

end

theorem waita_turns {s : State} {o : WaitaF} (hm : s.OnMain) (ht : s.me.trap.phase = .none) (hr : s.Ready [o.ra, o.rb, o.rt] none) :
    s.TurnsAway (.waita o) (s.based o.ra o.off) o.size.bytes (if o.ord = .sc then .scLoad else .wait) := by
  have hh : s.Here [o.rt] := fun r h => hr.srcs_here r (by simp_all)
  rw [← size_eq, ← based_eq s o.ra o.off (by decide)]
  exact turns hm ht ((mainOnly_main hm _).trans (hr.issueVar hh _))

theorem tstb_turns {s : State} {o : TstbF} {ra : Nat} (hm : s.OnMain) (ht : s.me.trap.phase = .none) (ho : o.src = .mem ra)
    (hr : s.Ready [o.mask, ra] none) : s.TurnsAway (.tstb o) (s.r ra) 8 .load := by
  have hn : s.cur.agent ≠ .helper := by rw [hm]; decide
  obtain ⟨k, hk⟩ : ∃ k, exec (.tstb o) s = s.access .load (s.r ra) 8 k := by
    rw [show exec (.tstb o) s = s.notHelper _ from rfl, State.notHelper_eq hn, ho]
    exact ⟨_, hr.issue _⟩
  exact turns hm ht hk

theorem spawn_turns {s : State} {o : R2} (hm : s.OnMain) (ht : s.me.trap.phase = .none) (hr : s.Ready [o.ra] none) (hh : s.Here [o.rd]) :
    s.TurnsAway (.spawn o) (s.r o.ra) 32 .spawn :=
  turns hm ht ((mainOnly_main hm _).trans (hr.issueVar hh _))

/-- The four words of a vamo's result, where it has one. -/
theorem here_group4 {s : State} {rt : Nat} (h : rt ≠ 0 → s.Here [rt, rt + 1, rt + 2, rt + 3]) : s.Here (if rt = 0 then [] else group4 rt) := by
  split
  · exact fun r hr => nomatch hr
  · exact h ‹_›

theorem amo_turns {s : State} {o : AmoF} (hm : s.OnMain) (ht : s.me.trap.phase = .none) (hr : s.Ready [o.ra, o.rb] none) (hh : s.Here [o.rt]) :
    s.TurnsAway (.amo o) (s.based o.ra o.off) (amoBytes o.wide) (if o.ord = .sc then .scAtomic else .atomic) := by
  have he : exec (.amo o) s = execAmo o s := rfl
  unfold execAmo State.eaOff14 at he
  rw [based_eq s o.ra o.off (by decide)] at he
  exact atomic_turns hm ht hr hh he

theorem cas_turns {s : State} {o : CasF} (hm : s.OnMain) (ht : s.me.trap.phase = .none) (hr : s.Ready [o.ra, o.rb, o.rc] none) (hh : s.Here [o.rt]) :
    s.TurnsAway (.cas o) (s.based o.ra o.off) (amoBytes o.wide) (if o.ord = .sc then .scAtomic else .atomic) := by
  have he : exec (.cas o) s = execCas o s := rfl
  unfold execCas State.eaOff14 at he
  rw [based_eq s o.ra o.off (by decide)] at he
  exact atomic_turns hm ht hr hh he

theorem vamo_turns {s : State} {o : AmoF} (hm : s.OnMain) (ht : s.me.trap.phase = .none) (hr : s.Ready (o.ra :: group4 o.rb) none)
    (hh : o.rt ≠ 0 → s.Here (group4 o.rt)) : s.TurnsAway (.vamo o) (s.based o.ra o.off) 32 (if o.ord = .sc then .scAtomic else .vector) := by
  have he : exec (.vamo o) s = execVamo o s := rfl
  unfold execVamo State.eaOff14 at he
  rw [based_eq s o.ra o.off (by decide)] at he
  exact atomic_turns hm ht hr (here_group4 hh) he

/-- Settles O21: every form makes its access first, and the access is what turns it away. -/
theorem accessesTurnedAway : Obligations.AccessesTurnedAway := by
  unfold Obligations.AccessesTurnedAway
  intro s hm ht
  refine ⟨fun o hr hh => ?_, fun o hr hh => ?_, fun o hr => ?_, fun o hr => ?_, fun o hr hh => amo_turns hm ht hr hh,
    fun o hr hh => cas_turns hm ht hr hh, fun o hr hh => vamo_turns hm ht hr hh, fun o hr => ?_, fun o hr => ?_,
    fun o hr => waita_turns hm ht hr, fun o ra ho hr => tstb_turns hm ht ho hr, fun o hr hh => spawn_turns hm ht hr hh⟩
  · rw [← based_eq s o.ra o.off (by decide)]
    exact load_turns (o := ⟨o.st, o.rt, o.size, o.ord, o.scope, o.sx, o.hint⟩) hm ht hr hh rfl
  · exact load_turns (o := ⟨o.st, o.rt, o.size, o.ord, o.scope, o.sx, o.hint⟩) hm ht hr hh rfl
  · rw [← based_eq s o.ra o.off (by decide)]
    exact store_turns (o := ⟨o.st, s.r o.rt, o.size, o.ord, o.scope, o.hint⟩) hm ht hr rfl
  · exact store_turns (o := ⟨o.st, s.r o.rt, o.size, o.ord, o.scope, o.hint⟩) hm ht hr rfl
  · rw [← based_eq s o.ra o.off (by decide)]
    exact mred_turns hm ht hr rfl
  · rw [← based_eq s o.ra o.off (by decide)]
    exact mred_turns hm ht hr rfl

end Sys2Proof.Machine
end

section
/-! PROOF. Stores that lodge in L1 (R125, R141, R143, R304). -/

namespace Sys2Proof.Machine

open Sys2Proof

theorem notBeyond {e : StEnt} (hr : e.isRel = true → e.scope = .core) : (e.isRel && e.scope != .core) = false := by
  cases hx : e.isRel
  · rfl
  · rw [hr hx]; rfl

section
variable {s : State} {cid pa key : Nat} {e : StEnt} (hp : e.place = .loc pa key 0 0) (hr : e.isRel = true → e.scope = .core)
  (hh : Map.find (s.core (cid / 2)).l1 (pa / 64) = none → e.hint = .nh ∨ e.hint = .lu)
include hp hr hh

/-- Where a store of a write-back page may lodge (R143, R304). -/
theorem mayLodge_of : s.mayLodge cid e = true := by
  have hline : (e.hint.allocL1 || (s.l1Line (cid / 2) pa).isSome) = true := by
    unfold State.l1Line
    cases hf : Map.find (s.core (cid / 2)).l1 (pa / 64) with
    | some l => exact Bool.or_true _
    | none =>
      rcases hh hf with h | h <;> rw [h] <;> rfl
  unfold State.mayLodge
  rw [hp, notBeyond hr]
  exact hline

/-- A store that may lodge, and that the agenda lets lodge, does so; a place of HBM has no granule to note. -/
theorem performHere_lodges {v : Word} (hk : e.kind = .store v) :
    s.performHere cid e true = s.lodge cid pa key e.hint (leBytes e.size v.toNat) := by
  have hn : s.noteStored cid e.place e.seq = s := by rw [hp]; rfl
  unfold State.performHere
  rw [hk, notBeyond hr]
  dsimp only
  rw [if_neg Bool.false_ne_true, hn, mayLodge_of hp hr hh, hp]
  rfl

end

/-- Settles O26: the store is performed by lodging its bytes in its line, which is filled first where it is not there. -/
theorem storesLodge : Obligations.StoresLodge := by
  unfold Obligations.StoresLodge
  intro s cid e es v pa key hhead hk hes hp hfit hrel hhint hroom hline
  have hset : (s.l1Set (cid / 2) (pa / 64)).length < 8 := by
    unfold State.l1Set
    simpa only [beq_eq_decide] using hroom
  have hlen : (leBytes e.size v.toNat).length = e.size := leBytes_length _ _
  obtain ⟨hmem, hctxs, l, hfind, hlu, hbytes⟩ := s.lodge_spec cid pa key e.hint (leBytes e.size v.toNat) (by rw [hlen]; exact hfit) hset hline
  have hgo : exec (.storePerform cid true) s = .next ((s.lodge cid pa key e.hint (leBytes e.size v.toNat)).setStores cid es) := by
    rw [hhead.storePerform hk hes, State.headDone_here _ _ _ _ _ (fun h => (hrel h).2) (by rw [hp]; rfl),
      performHere_lodges hp (fun h => (hrel h).1) hhint hk]
  refine ⟨_, l, hgo, State.path_setStores _ _ _, hmem, hfind, ?_, fun i hi => ?_⟩
  · rw [hlu, beq_iff_eq]
  · obtain ⟨hb, hd⟩ := hbytes i (by rw [hlen]; exact hi)
    exact ⟨hb.trans (leBytes_get _ _ _ hi), hd⟩

end Sys2Proof.Machine
end

section
/-! PROOF. Lines that leave L1 (R59, R125, R143, R146, R151, R152). -/

namespace Sys2Proof.Machine

open Sys2Proof

/-! ## A byte written in a unit leaves the other units, under every key -/

theorem hbmSet_hbm_outside {s : State} (h : Mem.wf s.mem.hbm = true) (slot pa : Nat) (b : Byte) {a : Nat} (ha : a / 64 ≠ pa / 64) :
    Mem.get (s.hbmSet slot pa b).mem.hbm a = Mem.get s.mem.hbm a := by
  have hne : a ≠ pa := fun e => ha (by rw [e])
  have hbase : pa / 64 * 64 ≤ a → 64 ≤ a - pa / 64 * 64 := by omega
  unfold State.hbmSet
  cases s.slotKey slot with
  | none => rfl
  | some kr =>
    dsimp only
    cases Map.find s.mem.unitKey (pa / 64) with
    | none => rw [Mem.get_set (Mem.wf_clear h _ _), if_neg hne, Mem.get_clear, if_neg (by omega)]
    | some kw =>
      dsimp only
      split
      · rw [Mem.get_set h, if_neg hne]
      · rw [Mem.get_set (Mem.wf_write h _ _), if_neg hne, Mem.get_write h]
        split
        · rename_i h0
          rw [List.getElem?_eq_none (by rw [hbmRead_length]; exact hbase h0)]
          rfl
        · rfl

theorem hbmSet_unitKey_outside (s : State) (slot pa : Nat) (b : Byte) {n : Nat} (hn : n ≠ pa / 64) :
    Map.find (s.hbmSet slot pa b).mem.unitKey n = Map.find s.mem.unitKey n := by
  unfold State.hbmSet
  cases s.slotKey slot with
  | none => rfl
  | some kr => exact Map.find_put_other _ _ hn

theorem hbmByte_hbmSet_outside {s : State} (h : Mem.wf s.mem.hbm = true) (slot slot' pa : Nat) (b : Byte) {a : Nat} (ha : a / 64 ≠ pa / 64) :
    (s.hbmSet slot pa b).hbmByte slot' a = s.hbmByte slot' a := by
  have hr : Mem.read (s.hbmSet slot pa b).mem.hbm (a / 64 * 64) 64 = Mem.read s.mem.hbm (a / 64 * 64) 64 :=
    List.map_congr_left fun i hi => hbmSet_hbm_outside h slot pa b (by rw [List.mem_range] at hi; omega)
  unfold State.hbmByte
  rw [State.hbmSet_key, hbmSet_unitKey_outside s slot pa b ha, hr, hbmSet_hbm_outside h slot pa b ha]

/-! ## What a byte of a place reads as -/

/-- Places of HBM other than those of one unit; every other memory is outside it. -/
def Place.offUnit (q : Place) (n : Nat) : Prop := ∀ pa key cl wp, q = .loc pa key cl wp → pa / 64 ≠ n

/-- Moving data changes what is read in HBM alone. -/
theorem State.MovesData.rd1_other {s t : State} {k : Nat} (h : s.MovesData t k) (l : Nat) {q : Place} (hq : ∀ pa key cl wp, q ≠ .loc pa key cl wp) :
    t.rd1 l q = s.rd1 l q := by
  have hp : ∀ c, (t.ctx c).parts = (s.ctx c).parts := fun c => by have := congrArg Ctx.parts (h.ctxs c); exact this
  have hh : t.host = s.host := by have := congrArg State.host h.rest; exact this
  have hm : ∀ c, (t.core c).trap.mem = (s.core c).trap.mem := by
    intro c
    by_cases hc : c = k
    · have := congrArg (fun x : Core => x.trap.mem) h.mine
      rw [hc]
      exact this
    · rw [h.cores c hc]
  cases q with
  | loc pa key cl wp => exact absurd rfl (hq pa key cl wp)
  | spad cid off => unfold State.rd1; dsimp only; rw [hp]
  | wst cid off => unfold State.rd1; dsimp only; rw [hp]
  | host port bus => unfold State.rd1; dsimp only; rw [hh]
  | trapMem core off => unfold State.rd1; dsimp only; rw [hm]
  | remote => rfl
  | clus c off => unfold State.rd1; dsimp only; rw [show t.mem.clus = s.mem.clus by have := congrArg MemSt.clus h.mem; exact this]
  | flash off => unfold State.rd1; dsimp only; rw [show t.mem.flash = s.mem.flash by have := congrArg MemSt.flash h.mem; exact this]
  | chip c off =>
    unfold State.rd1
    dsimp only
    rw [show t.mem.tags = s.mem.tags by have := congrArg MemSt.tags h.mem; exact this,
      show t.mem.chip = s.mem.chip by have := congrArg MemSt.chip h.mem; exact this]

/-- Dropping lines of L1 leaves memory. -/
theorem rd1_setL1 (s : State) (k : Nat) (f : Map Line → Map Line) (l : Nat) (q : Place) :
    (s.modCore k (fun c => { c with l1 := f c.l1 })).rd1 l q = s.rd1 l q := by
  cases q with
  | trapMem core off =>
    unfold State.rd1
    dsimp only
    rw [State.core_modCore]
    split
    · rename_i h; rw [h]
    · rfl
  | _ => rfl

/-- A write within one unit of HBM leaves what is outside it. -/
theorem rd1_wr_offUnit (l n key cl wp : Nat) {q : Place} (hq : q.offUnit n) (l' : Nat) (bs : List Byte) :
    ∀ {s : State} {a : Nat}, s.MemOk → a / 64 = n → a % 64 + bs.length ≤ 64 → (s.wr l (.loc a key cl wp) bs).rd1 l' q = s.rd1 l' q := by
  intro s a h ha hb
  rw [State.rd1_wr]
  induction bs generalizing s a with
  | nil => rfl
  | cons b bs ih =>
    have h1 : (s.wr1 l (.loc a key cl wp) b).rd1 l' q = s.rd1 l' q := by
      by_cases hx : ∃ pa k c w, q = .loc pa k c w
      · obtain ⟨pa, k, c, w, rfl⟩ := hx
        exact hbmByte_hbmSet_outside h.hbm key k a b (by rw [ha]; exact hq pa k c w rfl)
      · exact (State.hbmSet_moves s key a b 0).rd1_other l' (fun pa k c w e => hx ⟨pa, k, c, w, e⟩)
    rw [List.length_cons] at hb
    cases bs with
    | nil => exact h1
    | cons b' bs' =>
      rw [List.length_cons] at hb
      exact (ih (h.wr1 l _ b) (by omega) (by rw [List.length_cons]; omega)).trans h1

/-! ## One line written back -/

/-- The runs of a line lie in it (R125). -/
theorem runs_fit {x : Line} (hb : x.bytes.length = 64) {r : Nat × List Byte} (hr : r ∈ x.runs) : r.1 + r.2.length ≤ 64 := by
  unfold Line.runs at hr
  split at hr
  · rw [List.mem_singleton] at hr
    rw [hr, hb]
  · obtain ⟨i, hi, rfl⟩ := List.mem_map.1 hr
    have := List.mem_range.1 (List.mem_filter.1 hi).1
    show i + 1 ≤ 64
    omega

theorem rd1_runs_offUnit (n key : Nat) {q : Place} (hq : q.offUnit n) (l : Nat) (rs : List (Nat × List Byte)) :
    ∀ {s : State}, s.MemOk → (∀ r ∈ rs, r.1 + r.2.length ≤ 64) →
      (rs.foldl (fun s r => s.wr 0 (.loc (n * 64 + r.1) key 0 0) r.2) s).rd1 l q = s.rd1 l q := by
  induction rs with
  | nil => intros; rfl
  | cons r rs ih =>
    intro s h hr
    have hw : (s.wr 0 (.loc (n * 64 + r.1) key 0 0) r.2).rd1 l q = s.rd1 l q := by
      have hfit := hr r List.mem_cons_self
      cases hbs : r.2 with
      | nil => exact State.rd1_wr s 0 l _ q []
      | cons b bs =>
        rw [hbs, List.length_cons] at hfit
        exact rd1_wr_offUnit 0 n key 0 0 hq l (b :: bs) h (by omega) (by rw [List.length_cons]; omega)
    exact (ih (h.wr 0 _ _) (fun x hx => hr x (List.mem_cons_of_mem _ hx))).trans hw

theorem rd1_wbLine_offUnit {s : State} {k n : Nat} (h : s.MemOk) (hl : s.Lined k) {q : Place} (hq : q.offUnit n) (l : Nat) :
    (s.wbLine k n).rd1 l q = s.rd1 l q := by
  unfold State.wbLine
  cases hf : Map.find (s.core k).l1 n with
  | none => rfl
  | some x =>
    dsimp only
    split
    · exact (rd1_setL1 _ k (fun m => Map.put m n _) l q).trans
        (rd1_runs_offUnit n x.key hq l x.runs h (fun r hr => runs_fit (hl n x hf).1 hr))
    · rfl

/-- What a read of HBM depends on: the key of its slot, and its address. -/
theorem rd1_loc (s : State) (l l' pa cl cl' wp wp' : Nat) {key key' : Nat} (hk : s.slotKey key = s.slotKey key') :
    s.rd1 l (.loc pa key cl wp) = s.rd1 l' (.loc pa key' cl' wp') := by
  show s.hbmByte key pa = s.hbmByte key' pa
  unfold State.hbmByte
  rw [hk]

/-- A dirty line written back: its dirty bytes are at home, the others are what they were. -/
theorem rd1_wbLine_unit {s : State} {k n : Nat} (h : s.MemOk) (hl : s.Lined k) {x : Line} (hf : Map.find (s.core k).l1 n = some x) {i : Nat} (hi : i < 64) :
    (x.dirty[i]? = some true → some ((s.wbLine k n).rd1 0 (.loc (n * 64 + i) x.key 0 0)) = x.bytes[i]?) ∧
    (x.dirty[i]? ≠ some true → (s.wbLine k n).rd1 0 (.loc (n * 64 + i) x.key 0 0) = s.rd1 0 (.loc (n * 64 + i) x.key 0 0)) := by
  obtain ⟨hb, hd, hkey⟩ := hl n x hf
  have hget : some ((x.bytes[i]?).getD 0) = x.bytes[i]? := by rw [List.getElem?_eq_getElem (by omega)]; rfl
  unfold State.wbLine
  rw [hf]
  dsimp only
  by_cases hany : x.dirty.any id = true
  · rw [if_pos hany, rd1_setL1 _ k (fun m => Map.put m n _)]
    unfold Line.runs
    by_cases hall : x.dirty.all id = true
    · rw [if_pos hall]
      have hat := State.rd1_wr_at (l := 0) (p := .loc (n * 64) x.key 0 0) (bs := x.bytes) h hkey trivial i (by omega)
      refine ⟨fun _ => ?_, fun hn => absurd ?_ hn⟩
      · rw [← hget, List.getElem?_eq_getElem (by omega)]
        exact congrArg some hat
      · have hlt : i < x.dirty.length := by omega
        rw [List.getElem?_eq_getElem hlt]
        exact congrArg some (List.all_eq_true.1 hall _ (List.getElem_mem hlt))
    · rw [if_neg hall]
      obtain ⟨hin, hout⟩ := State.wbSingles (n * 64) x.key (fun i => (x.bytes[i]?).getD 0)
        ((List.range 64).filter (fun i => (x.dirty[i]?).getD false)) s h hkey
      have hmem : i ∈ (List.range 64).filter (fun i => (x.dirty[i]?).getD false) ↔ x.dirty[i]? = some true := by
        rw [List.mem_filter, List.mem_range, List.getElem?_eq_getElem (by omega)]
        simp [hi]
      refine ⟨fun ht => ?_, fun hn => hout i (fun x => hn (hmem.1 x))⟩
      rw [← hget]
      exact congrArg some (hin i (hmem.2 ht))
  · rw [if_neg hany]
    refine ⟨fun ht => absurd ?_ hany, fun _ => rfl⟩
    exact List.any_eq_true.2 ⟨true, List.mem_of_getElem? ht, rfl⟩

theorem wbLine_writesBack {s : State} {k : Nat} (h : s.MemOk) (hl : s.Lined k) (n : Nat) : s.WritesBack (s.wbLine k n) k (· = n) := by
  refine ⟨State.wbLine_moves s k n, fun m x hm hf i hi ht => ?_, fun l q hq => ?_⟩
  · subst hm
    exact (rd1_wbLine_unit h hl hf hi).1 ht
  · by_cases hx : ∃ pa key cl wp, q = .loc pa key cl wp ∧ pa / 64 = n
    · obtain ⟨pa, key, cl, wp, rfl, rfl⟩ := hx
      cases hf : Map.find (s.core k).l1 (pa / 64) with
      | none => unfold State.wbLine; rw [hf]
      | some x =>
        by_cases hany : x.dirty.any id = true
        · obtain ⟨hk, hn⟩ := hq pa key cl wp rfl x rfl hf hany
          have ha : pa = pa / 64 * 64 + pa % 64 := by omega
          have hr := (rd1_wbLine_unit h hl hf (Nat.mod_lt pa (by decide))).2 hn
          rw [← ha] at hr
          rw [rd1_loc (s.wbLine k (pa / 64)) l 0 pa cl 0 wp 0 (key' := x.key) (by rw [State.slotKey_wbLine, State.slotKey_wbLine]; exact hk), hr]
          exact rd1_loc s 0 l pa 0 cl 0 wp hk.symm
        · unfold State.wbLine
          rw [hf]
          exact congrArg (fun u : State => u.rd1 l _) (if_neg hany)
    · exact rd1_wbLine_offUnit h hl (fun pa key cl wp e he => hx ⟨pa, key, cl, wp, e, he⟩) l

/-! ## Several lines -/

theorem lined_wbLine {s : State} {k : Nat} (hl : s.Lined k) (n : Nat) : (s.wbLine k n).Lined k := by
  intro m x hf
  rw [State.find_wbLine] at hf
  rw [State.slotKey_wbLine]
  split at hf
  · cases hn : Map.find (s.core k).l1 n with
    | none => rw [hn] at hf; cases hf
    | some y =>
      rw [hn, Option.map_some, Option.some.injEq] at hf
      obtain ⟨hb, hd, hk⟩ := hl n y hn
      subst hf
      split
      · exact ⟨hb, List.length_replicate, hk⟩
      · exact ⟨hb, hd, hk⟩
  · exact hl m x hf

/-- A line written back has no dirty byte. -/
theorem wbLine_clean {s : State} {k n : Nat} {x : Line} (hf : Map.find ((s.wbLine k n).core k).l1 n = some x) : x.dirty.any id = false := by
  rw [State.find_wbLine, if_pos rfl] at hf
  cases hn : Map.find (s.core k).l1 n with
  | none => rw [hn] at hf; cases hf
  | some y =>
    rw [hn, Option.map_some, Option.some.injEq] at hf
    subst hf
    split
    · simp
    · rename_i hy
      exact Bool.eq_false_iff.2 hy

/-- Writing lines back one after another, of which each is written back in its turn. -/
theorem wbFold_writesBack (k : Nat) (ns : List Nat) : ∀ {s : State}, s.MemOk → s.Lined k →
    s.WritesBack (ns.foldl (fun s n => s.wbLine k n) s) k (· ∈ ns) := by
  induction ns with
  | nil => exact fun _ _ => ⟨.refl _ _, fun n l h => (nomatch h), fun _ _ _ => rfl⟩
  | cons a ns ih =>
    intro s h hl
    have h1 := wbLine_writesBack h hl a
    have h2 := ih (h.wbLine k a) (lined_wbLine hl a)
    have hclean : ∀ n x, n ≠ a → Map.find ((s.wbLine k a).core k).l1 n = some x → Map.find (s.core k).l1 n = some x := by
      intro n x hn hf
      rw [State.find_wbLine, if_neg hn] at hf
      exact hf
    refine ⟨h1.moves.trans h2.moves, fun n x hn hf i hi ht => ?_, fun l q hq => ?_⟩
    · by_cases hna : n = a
      · subst hna
        have ha : (n * 64 + i) / 64 = n := by omega
        refine (congrArg some (h2.others 0 _ ?_)).trans (h1.home n x rfl hf i hi ht)
        intro pa key cl wp e y _ hy hany
        cases e
        rw [ha] at hy
        rw [wbLine_clean hy] at hany
        cases hany
      · exact h2.home n x ((List.mem_cons.1 hn).resolve_left hna) (by rw [State.find_wbLine, if_neg hna]; exact hf) i hi ht
    · refine (h2.others l q ?_).trans (h1.others l q fun pa key cl wp e x hx hf hany => hq pa key cl wp e x (List.mem_cons.2 (.inl hx)) hf hany)
      intro pa key cl wp e x hx hf hany
      by_cases hna : pa / 64 = a
      · rw [hna] at hf
        rw [wbLine_clean hf] at hany
        cases hany
      · rw [State.slotKey_wbLine, State.slotKey_wbLine]
        exact hq pa key cl wp e x (List.mem_cons.2 (.inr hx)) (hclean _ x hna hf) hany

theorem wbAll_writesBack {s : State} {k : Nat} (h : s.MemOk) (hl : s.Lined k) : s.WritesBack (s.wbAll k) k (fun _ => True) := by
  obtain ⟨hm, hh, ho⟩ := wbFold_writesBack k ((s.core k).l1.map Prod.fst) h hl
  exact ⟨hm, fun n x _ hf => hh n x (Map.key_mem_of_find hf) hf, fun l q hq => ho l q fun pa key cl wp e x _ hf => hq pa key cl wp e x trivial hf⟩

/-- A write-back changes of a line only its dirty bytes. -/
theorem wbAll_lines (s : State) (k n : Nat) : (Map.find ((s.wbAll k).core k).l1 n).map (fun l => { l with dirty := [] }) =
    (Map.find (s.core k).l1 n).map (fun l => { l with dirty := [] }) := by
  have hf : ∀ (ns : List Nat) (s : State), (Map.find ((ns.foldl (fun s n => s.wbLine k n) s).core k).l1 n).map (fun l => { l with dirty := [] }) =
      (Map.find (s.core k).l1 n).map (fun l => { l with dirty := [] }) := by
    intro ns
    induction ns with
    | nil => intro s; rfl
    | cons a ns ih =>
      intro s
      refine (ih (s.wbLine k a)).trans ?_
      rw [State.find_wbLine]
      split
      · rename_i h
        subst h
        cases Map.find (s.core k).l1 n with
        | none => rfl
        | some x =>
          rw [Option.map_some, Option.map_some, Option.map_some]
          split <;> rfl
      · rfl
  exact hf _ s

/-- The lines that are dropped after a write-back take nothing with them. -/
theorem State.WritesBack.setL1 {s t : State} {k : Nat} {out : Nat → Prop} (h : s.WritesBack t k out) (f : Map Line → Map Line) :
    s.WritesBack (t.modCore k (fun c => { c with l1 := f c.l1 })) k out :=
  ⟨h.moves.trans (State.modCore_l1_moves t k f), fun n x hn hf i hi ht => by rw [rd1_setL1]; exact h.home n x hn hf i hi ht,
    fun l q hq => by rw [rd1_setL1]; exact h.others l q hq⟩

theorem dropLine_writesBack {s : State} {k : Nat} (h : s.MemOk) (hl : s.Lined k) (n : Nat) : s.WritesBack (s.dropLine k n) k (· = n) :=
  (wbLine_writesBack h hl n).setL1 (fun m => Map.del m n)

theorem find_dropLine (s : State) (k n m : Nat) :
    Map.find ((s.dropLine k n).core k).l1 m = if m = n then none else Map.find (s.core k).l1 m := by
  unfold State.dropLine
  rw [State.core_modCore_same]
  dsimp only
  rw [Map.find_del, State.find_wbLine]
  split <;> rfl

theorem flushPlace_drops {s : State} {p : Place} {pa key : Nat} (k : Nat) (hp : p.pa? = some (pa, key)) : s.flushPlace k p = s.dropLine k (pa / 64) := by
  unfold State.flushPlace
  rw [hp]

/-- Settles O29: a write-back writes a line's dirty bytes at home and no other, line by line. -/
theorem linesLeave : Obligations.LinesLeave := by
  unfold Obligations.LinesLeave
  intro s k h hl
  refine ⟨fun n => ⟨_, rfl, dropLine_writesBack h hl n, ?_, fun m hm => ?_⟩, ⟨wbAll_writesBack h hl, (State.wbAll_moves s k).2, wbAll_lines s k⟩,
    ⟨(wbAll_writesBack h hl).setL1 (fun _ => []), (State.wbInv_moves s k).2⟩, fun p hp => ?_, fun p pa key hp => ?_⟩
  · rw [find_dropLine, if_pos rfl]
  · rw [find_dropLine, if_neg hm]
  · unfold State.flushPlace
    rw [hp]
  · rw [flushPlace_drops k hp]
    refine ⟨dropLine_writesBack h hl _, ?_, fun m hm => ?_⟩
    · rw [find_dropLine, if_pos rfl]
    · rw [find_dropLine, if_neg hm]

end Sys2Proof.Machine
end

section
/-! PROOF. tlbi, iclk and iulk (R338-R340). -/

namespace Sys2Proof.Machine

open Sys2Proof

/-! ## tlbi -/

theorem State.MovesData.reg {s u : State} {k : Nat} (h : s.MovesData u k) (hm : s.OnMain) (r : Nat) : u.r r = s.r r := by
  have hregs : u.sca.s = s.sca.s := by have := congrArg Scalar.s (h.sca hm); exact this
  have hland : u.sca.land = s.sca.land := by have := congrArg Scalar.land (h.sca hm); exact this
  unfold State.r Scalar.reg
  rw [hregs, hland, h.clk]

/-- Of the contexts, dropping pre-translations changes those of the page table alone. -/
theorem State.ctx_dropPre (s : State) (root c : Nat) :
    (s.dropPre root).ctx c =
      if s.ptroot (s.ctx c).launch = root then { s.ctx c with eng := (s.ctx c).eng.mapCmds (fun m => { m with pre := [] }) } else s.ctx c := by
  unfold State.dropPre State.ctx Map.getD
  dsimp only
  rw [Map.find_map (fun x : Ctx => if s.ptroot x.launch = root then x.modEng (fun g => g.mapCmds (fun m => { m with pre := [] })) else x)]
  cases Map.find s.ctxs c with
  | none => split <;> rfl
  | some x => rfl

theorem tlbi_drops {o : TlbiF} {s : State} (hm : s.OnMain) (hr : s.Ready (match o.range with | some (a, b) => [a, b] | none => []) none)
    (hd : s.Drained) (hg : o.g = true → ∃ k, s.me.task = some k ∧ k.sys = true) (hp : ∀ x ∈ s.ctxs, s.pendingVas x.1 = []) :
    ∃ bad : TlbEnt → Bool,
      (∀ e, bad e = true ↔ e.goes (o.range.map (fun x => ((s.r x.1).toNat, (s.r x.2).toNat))) o.g (s.ptroot s.me.launch)) ∧
      exec (.tlbi o) s = .next ((((s.wbAll s.myCore).dropTlb bad).dropPre (s.ptroot s.me.launch)).adv o.st) := by
  have hmove := (State.wbAll_moves s s.myCore).1
  have hsys : (o.g && !s.me.isSys) = false := by
    cases hgo : o.g with
    | false => rfl
    | true => rw [(isSys_iff s).mpr (hg hgo)]; rfl
  have hme : (s.wbAll s.myCore).me.launch = s.me.launch := by unfold State.me; rw [hmove.cur, hmove.launch]
  refine ⟨_, fun e => discarded_iff e _ _ _, ?_⟩
  have he : exec (.tlbi o) s = execTlbi o s := rfl
  rw [he, tlbi_eq hm hr hd hsys hp]
  simp only [hmove.reg hm, hme, ptroot_moves hmove]

theorem tlbi_refused {o : TlbiF} {s : State} (hm : s.OnMain) (hp : s.me.trap.phase = .none)
    (hr : s.Ready (match o.range with | some (a, b) => [a, b] | none => []) none) (hg : o.g = true)
    (hk : ∀ k, s.me.task = some k → k.sys = false) : ∃ t, exec (.tlbi o) s = .next t ∧ s.TrapsS t 7 0 0 := by
  refine ⟨_, ?_, trapS_traps hm hp 7 0 0⟩
  have hsys : s.me.isSys = false := by
    rw [← Bool.not_eq_true, isSys_iff]
    rintro ⟨k, hk', hs⟩
    exact Bool.false_ne_true ((hk k hk').symm.trans hs)
  have he : exec (.tlbi o) s = execTlbi o s := rfl
  rw [he]
  unfold execTlbi
  rw [mainOnly_main hm]
  refine (hr.issue _).trans ?_
  rw [hg, hsys]
  rfl

/-! ## iclk and iulk -/

theorem State.Keeps.objOf_eq {s t : State} (h : s.Keeps t) (a n : Nat) : t.objOf a n = s.objOf a n := by
  have hh : t.host = s.host := by have := congrArg State.host h.outside; exact this
  unfold State.objOf State.objAt
  rw [hh]

theorem lockRefused_iff (s : State) (a : Nat) {n : Nat} (hn : n ≠ 0) :
    s.lockRefused a n = true ↔ 128 < (s.lockedOf s.myCore).length + (s.newUnits s.myCore a n).length ∨ 32 ≤ s.me.locks.length := by
  unfold State.lockRefused
  simp [hn]

/-- With its range in its object, an iclk is refused, waits or locks. -/
theorem iclkWait_locks {s : State} (hm : s.OnMain) (rd : Nat) {h : Nat} {a n : Word} {ob : CodeObj} (hn : n ≠ 0)
    (ho : s.objOf a.toNat n.toNat = some (h, ob)) : s.Locks (s.iclkWait rd h a n) rd ob a n := by
  have hn' : n.toNat ≠ 0 := fun e => hn (BitVec.eq_of_toNat_eq e)
  have hiff := lockRefused_iff s a.toNat hn'
  unfold State.iclkWait State.Locks
  rw [ho]
  dsimp only
  rw [if_neg (not_not.mpr rfl), ← hiff]
  refine ⟨fun hr => ?_, fun hr hu => ?_, fun hr hu => ?_⟩
  · rw [if_pos hr]
    exact State.resVar_go_ends (State.hasAgent_main hm) rd 0
  · rw [if_neg hr, if_pos hu]
  · rw [if_neg hr, if_neg (ne_true_of_eq_false hu)]
    have hlen : (lockUnits a.toNat n.toNat).length = (a.toNat + n.toNat - 1) / 256 + 1 - a.toNat / 256 := by simp [lockUnits]
    rw [hlen]
    exact State.resVar_go_ends (s := s.modMe (fun c => { c with locks := c.locks ++ [(a, n)] })) (State.hasAgent_main hm) rd _

/-- With its range in its object no longer, it takes the code-integrity fault. -/
theorem iclkWait_gone {s : State} (hm : s.OnMain) (hp : s.me.trap.phase = .none) (rd : Nat) {h : Nat} {a n : Word}
    (ho : ∀ ob, s.objOf a.toNat n.toNat ≠ some (h, ob)) : ∃ u, s.Holds u .none ∧ u.TrapsS (s.iclkWait rd h a n) 8 h 0 := by
  have hu := Holds.set (State.hasAgent_main hm) Hold.none
  refine ⟨_, hu, ?_⟩
  have htrap := trapS_traps (hu.frame.onMain hm) ((congrArg TrapSt.phase (trap_keeps hu.frame hm)).trans hp) 8 h 0
  unfold State.iclkWait
  cases hob : s.objOf a.toNat n.toNat with
  | none => exact htrap
  | some x =>
    obtain ⟨k, ob⟩ := x
    have hk : k ≠ h := by rintro rfl; exact ho ob hob
    dsimp only
    rw [if_pos hk]
    exact htrap

theorem iclk_issues {o : R3} {s : State} (hm : s.OnMain) (hr : s.Ready [o.ra, o.rb] none) (hh : s.Here [o.rd]) :
    (s.r o.rb = 0 → ∃ t, exec (.iclk o) s = .next t ∧ s.GivesVar t o.rd 0 o.st) ∧
    (s.r o.rb ≠ 0 → s.objOf (s.r o.ra).toNat (s.r o.rb).toNat = none → s.me.trap.phase = .none →
      ∃ t, exec (.iclk o) s = .next t ∧ s.TrapsS t 7 3 (s.r o.ra)) ∧
    (s.r o.rb ≠ 0 → ∀ h ob, s.objOf (s.r o.ra).toNat (s.r o.rb).toNat = some (h, ob) →
      ∃ t u, exec (.iclk o) s = .next t ∧ s.Parks u (.iclk o.rd h (s.r o.ra) (s.r o.rb)) o.st ∧ u.Locks t o.rd ob (s.r o.ra) (s.r o.rb)) := by
  have he : exec (.iclk o) s = execIclk o s := rfl
  rw [he]
  unfold execIclk
  rw [mainOnly_main hm, hr.issueVar hh]
  dsimp only
  refine ⟨fun hn => ?_, fun hn ho hp => ?_, fun hn h ob ho => ?_⟩
  · rw [if_pos hn]
    exact ⟨_, rfl, State.resVar_adv_gives (State.hasAgent_main hm) _ _ _⟩
  · rw [if_neg hn, ho]
    exact ⟨_, rfl, trapS_traps hm hp _ _ _⟩
  · rw [if_neg hn, ho]
    have hpark := State.park_parks (State.hasAgent_main hm) (.iclk o.rd h (s.r o.ra) (s.r o.rb)) o.st
    exact ⟨_, _, rfl, hpark, iclkWait_locks (hpark.frame.onMain hm) o.rd hn ((hpark.frame.objOf_eq _ _).trans ho)⟩

theorem retryHold_iclk {s : State} {rd h : Nat} {a n : Word} (hm : s.OnMain) (hh : s.sca.hold = .iclk rd h a n)
    (hp : s.me.trap.phase = .none ∨ s.me.trap.phase = .freezing) : s.retryHold s.cur.cid = s.iclkWait rd h a n := by
  have hme : s.me.sc.hold = .iclk rd h a n := by rw [sca_main hm]; exact hh
  unfold State.retryHold
  rw [at_main hm]
  simp only [hme]
  rcases hp with hp | hp <;> (rw [hp]; rfl)

theorem iulk_unlocks {o : Rab} {s : State} (hm : s.OnMain) (hr : s.Ready [o.ra, o.rb] none) :
    ∃ t u, exec (.iulk o) s = .next t ∧ u.Passes t o.st ∧ u = s.modMe (fun c => { c with locks := u.me.locks }) ∧
      ∀ x, x ∈ u.me.locks ↔ x ∈ s.me.locks ∧ ¬ (o.ra = 0 ∧ o.rb = 0) ∧
        ¬ ((s.r o.ra).toNat ≤ x.1.toNat ∧ x.1.toNat + x.2.toNat ≤ (s.r o.ra).toNat + (s.r o.rb).toNat) := by
  have he : exec (.iulk o) s = execIulk o s := rfl
  rw [he]
  unfold execIulk
  rw [mainOnly_main hm, hr.issue]
  refine ⟨_, s.modMe _, rfl, State.adv_passes (s := s.modMe _) (State.hasAgent_main hm) o.st, ?_, fun x => ?_⟩
  · rw [modMe_me]; rfl
  · rw [modMe_me, List.mem_filter, Bool.not_eq_true', ← Bool.not_eq_true]
    simp only [Bool.or_eq_true, Bool.and_eq_true, beq_iff_eq, decide_eq_true_eq, not_or]

/-- Settles O39: each instruction by its own lemma, and an iclk that waits by what its retry does. -/
theorem translationAndLocks : Obligations.TranslationAndLocks := by
  unfold Obligations.TranslationAndLocks
  refine ⟨fun o s hm hr hd hg hp => ?_, fun o s hm hp hr hg hk => tlbi_refused hm hp hr hg hk, fun o s hm hr hh => iclk_issues hm hr hh,
    fun s rd h a n hm hh hn => ⟨fun ob ho hp => ?_, fun ho hp => ?_⟩, fun o s hm hr => iulk_unlocks hm hr⟩
  · have hmove := (State.wbAll_moves s s.myCore).1
    obtain ⟨bad, hbad, he⟩ := tlbi_drops hm hr hd hg hp
    obtain ⟨hout, hctx, hcore, htlb⟩ := dropTlb_spec (s.wbAll s.myCore) bad
    refine ⟨_, ((s.wbAll s.myCore).dropTlb bad).dropPre (s.ptroot s.me.launch), he, hout, fun c => ?_, hcore, fun k e => ?_,
      State.adv_passes (s := ((s.wbAll s.myCore).dropTlb bad).dropPre (s.ptroot s.me.launch)) (State.hasAgent_main (hmove.onMain hm)) o.st⟩
    · rw [State.ctx_dropPre, hctx]
      exact if_congr (iff_of_eq (congrArg (· = _) (ptroot_moves hmove _))) rfl rfl
    · rw [← hbad]
      exact htlb k e
  · rw [retryHold_iclk hm hh hp]
    exact iclkWait_locks hm rd hn ho
  · rw [retryHold_iclk hm hh (.inl hp)]
    exact iclkWait_gone hm hp rd ho

end Sys2Proof.Machine
end

section
/-! PROOF. The engines' own steps (R127, R137, R138, R173, R177, R182, R325, R369, R371, R388, R430, R433). -/

namespace Sys2Proof.Machine

open Sys2Proof

/-! ## The iteration boundary -/

theorem iterationBoundary_eq (s : State) (cid : Nat) (u : EUnit) : exec (.engineIterationBoundary cid u) s = .next (s.boundary cid u) := rfl

theorem boundary_waits {s : State} {cid : Nat} {u : EUnit} (h : ∀ m, s.cmd cid u = some m → s.mayStep cid u m = false) : s.boundary cid u = s := by
  unfold State.boundary
  cases hm : s.cmd cid u with
  | none => rfl
  | some m => exact if_pos (by rw [h m hm]; rfl)

theorem cmd_setCmd {u : EUnit} (hu : ∀ n, u ≠ .coll n) (s : State) (cid : Nat) (m : Cmd) : (s.setCmd cid u m).cmd cid u = some m := by
  unfold State.setCmd State.cmd
  rw [State.ctx_modCtx_same]
  cases u with
  | ch n => exact Map.find_put_same _ _ _
  | array => rfl
  | drainU => rfl
  | red => rfl
  | coll n => exact absurd rfl (hu n)

theorem preFill_ctxs (s : State) (cid : Nat) (pages : List Nat) (pre : Map PreX) : (s.preFill cid pages pre).1.ctxs = s.ctxs := by
  unfold State.preFill
  refine List.foldlRecOn (motive := fun x : State × Map PreX => x.1.ctxs = s.ctxs) _ _ rfl fun x hx p _ => ?_
  dsimp only
  split
  · exact hx
  · exact (noteXlat_data _ _ _).1.trans hx

theorem ctx_preTranslate (s : State) (cid : Nat) (u : EUnit) (m : Cmd) (c : Nat) : (s.preTranslate cid u m).1.ctx c = s.ctx c := by
  unfold State.preTranslate State.ctx
  dsimp only
  rw [preFill_ctxs]

/-- The next iteration's fault stops the command there. -/
theorem boundary_faults {s : State} {cid : Nat} {u : EUnit} {m : Cmd} {c d : Nat} {fa : Word} (hm : s.cmd cid u = some m)
    (hs : s.mayStep cid u m = true) (hf : ∀ f ∈ (s.ctx cid).eng.wfails, f.path = unitPath u → f.seq ≠ m.ent.seq)
    (ht : u = .array → m.op = 0x0B → m.tab ≠ none) (hu : ∀ n, u ≠ .coll n) {w : State} {m' : Cmd}
    (hm' : m' = (s.preTranslate cid u m).2) (hw : w = (s.preTranslate cid u m).1.setCmd cid u m')
    (he : w.iterate cid u m' = .error (.fault c d fa)) : s.boundary cid u = w.stopCmd cid u m' c d fa := by
  subst hm' hw
  have hstep := (stepCmd_iter (cmd_setCmd hu (s.preTranslate cid u m).1 cid (s.preTranslate cid u m).2) ht hu).trans he
  rw [boundary_go hm hs hf]
  dsimp only
  rw [hstep]
  rfl

/-! ## mzero -/

theorem preTranslate_drain (s : State) (cid : Nat) (m : Cmd) : s.preTranslate cid .drainU m = (s, { m with pre := [] }) := by
  have hnone : ∀ l : List Nat, l.flatMap (s.runPages cid .drainU m) = [] := fun l => by
    rw [List.flatMap_eq_nil_iff]; intro _ _; rfl
  unfold State.preTranslate
  dsimp only
  rw [hnone]
  rfl

/-- An mzero after an iteration. -/
def Cmd.zeroed (m : Cmd) : Cmd :=
  { m with wr := [], todo := [], stage := 0, vals := [], iter := m.iter + 1, ended := decide (m.ent.b.toNat ≤ m.iter + 1),
           pfault := none, rgot := [], rbad := [], acks := [], undo := none }

theorem commit_settles {s : State} {cid : Nat} {u : EUnit} {m : Cmd} (hm : s.cmd cid u = some m) (hwr : m.wr = []) :
    s.commit cid u = s.settleIter cid u m := by
  unfold State.commit
  rw [hm]
  dsimp only
  rw [hwr]
  rfl

theorem settleIter_zeroed {s : State} {cid : Nat} {m : Cmd} (hop : m.op = 4) (hwr : m.wr = []) (hp : m.pfault = none) :
    s.settleIter cid .drainU m = s.modCtx cid (fun c => { c with eng := { c.eng with
      wq := Map.put c.eng.wq 1 (c.eng.wqOf 1)
      drain := some m.zeroed } }) := by
  have hpts : m.points .drainU = [] := if_neg (by rw [hop]; decide)
  have hdr : s.drained cid .drainU m = s := if_neg (by rw [hop]; decide)
  have htot : m.total .drainU = m.ent.b.toNat := if_pos hop
  have hreach : s.reached cid .drainU m = s := by unfold State.reached; rw [hpts]; rfl
  unfold State.settleIter
  dsimp only
  rw [hreach, hdr, htot, hwr]
  unfold State.raisePort
  rw [hp]
  unfold State.setCmd State.modCtx
  rw [State.ctx_setCtx_same]
  unfold State.setCtx
  dsimp only
  rw [Map.put_put]
  simp only [markHeals, List.append_nil]
  rfl

theorem iterate_mzero {m : Cmd} (hop : m.op = 4) (s : State) (cid : Nat) : s.iterate cid .drainU m =
    .ok ((s.modCtx cid (fun c => c.modParts (fun p => p.zeroTile (m.ent.a.toNat + m.iter) m.i32))).commit cid .drainU) := by
  unfold State.iterate
  exact if_pos hop

theorem modCtx_modCtx (s : State) (cid : Nat) (f g : Ctx → Ctx) : (s.modCtx cid f).modCtx cid g = s.modCtx cid (fun c => g (f c)) := by
  unfold State.modCtx
  rw [State.ctx_setCtx_same]
  unfold State.setCtx
  dsimp only
  rw [Map.put_put]

/-- An iteration of mzero zeroes its tile, and its command counts it. -/
theorem boundary_zeroes {s : State} {cid : Nat} {m : Cmd} (hm : s.cmd cid .drainU = some m) (hop : m.op = 4)
    (hs : s.mayStep cid .drainU m = true) (hp : m.pfault = none) (hwr : m.wr = [])
    (hf : ∀ f ∈ (s.ctx cid).eng.wfails, f.path = 1 → f.seq ≠ m.ent.seq) :
    s.boundary cid .drainU = s.modCtx cid (fun c => { c with
      parts := c.parts.zeroTile (m.ent.a.toNat + m.iter) m.i32
      eng := { c.eng with wq := Map.put c.eng.wq 1 (c.eng.wqOf 1), drain := some { m with pre := [] }.zeroed } }) := by
  have hu : ∀ n, EUnit.drainU ≠ .coll n := fun n h => by cases h
  rw [boundary_go hm hs hf, preTranslate_drain]
  dsimp only
  rw [stepCmd_iter (cmd_setCmd hu s cid { m with pre := [] }) (fun h => by cases h) hu, iterate_mzero (m := { m with pre := [] }) hop]
  unfold State.settleStep State.setCmd
  dsimp only
  rw [modCtx_modCtx, commit_settles (m := { m with pre := [] }) (by unfold State.cmd; rw [State.ctx_modCtx_same]; rfl) hwr,
    settleIter_zeroed (m := { m with pre := [] }) hop hwr hp, modCtx_modCtx]
  rfl

/-! ## The writes of a path -/

/-- The writes that a granule for another device holds. -/
theorem granule_iff (ps : List (Place × List Byte)) (x : Nat × List Byte) :
    x ∈ ps.filterMap (fun p => p.1.dev?.map (fun d => (d.2.1, p.2))) ↔ ∃ p ∈ ps, ∃ d k, p.1 = .remote d x.1 k ∧ p.2 = x.2 := by
  have hdev : ∀ (q : Place) (d pa k : Nat), q.dev? = some (d, pa, k) ↔ q = .remote d pa k := by
    intro q d pa k
    cases q <;> simp [Place.dev?]
  obtain ⟨pa, bs⟩ := x
  rw [List.mem_filterMap]
  refine exists_congr fun p => and_congr_right fun _ => ?_
  constructor
  · intro h
    obtain ⟨⟨d, pa', k⟩, hd, he⟩ := Option.map_eq_some_iff.mp h
    obtain ⟨rfl, rfl⟩ := Prod.mk.inj he
    exact ⟨d, k, (hdev _ _ _ _).mp hd, rfl⟩
  · rintro ⟨d, k, hd, rfl⟩
    rw [(hdev _ _ _ _).mpr hd]
    rfl

theorem wrEnt_performs (u : State) (cid path : Nat) {e : WEnt} (hc : e.clean = none) :
    ∃ v : State, u.wrEnt cid path e = { v with mem := { v.mem with poison := v.mem.poison.filter (fun k => !e.heals.contains k) } } ∧
      ((∀ x ∈ e.parts, x.1.dev? = none) → v = e.parts.foldl (fun x p => x.wr (x.ctx cid).launch p.1 p.2) u) ∧
      (∀ dev pa key, e.dev? = some (dev, pa, key) → ∃ bs,
        v = u.send dev key (.granule (pa / 32 * 32) bs) ⟨cid, dev, .engineStore path e.u e.seq, e.va, 0, e.seq, 0⟩ ∧
        ∀ x, x ∈ bs ↔ ∃ p ∈ e.parts, ∃ d k, p.1 = .remote d x.1 k ∧ p.2 = x.2) := by
  unfold State.wrEnt
  dsimp only
  rw [hc]
  refine ⟨_, rfl, fun h => ?_, fun dev pa key h => ?_⟩
  · have hd : e.dev? = none := List.findSome?_eq_none_iff.mpr h
    rw [hd]
  · rw [h]
    exact ⟨_, rfl, fun x => granule_iff e.parts x⟩

theorem writePerform_none {s : State} {cid path : Nat} (h : Map.getD (s.ctx cid).eng.wq path [] = []) :
    exec (.engineWritePerform cid path) s = .next s := by
  have he : exec (.engineWritePerform cid path) s = execEngineWritePerform cid path s := rfl
  rw [he]
  unfold execEngineWritePerform Engines.wqOf
  rw [h]

theorem writePerform_oldest {s : State} {cid path : Nat} {e : WEnt} {es : List WEnt} (h : Map.getD (s.ctx cid).eng.wq path [] = e :: es) :
    exec (.engineWritePerform cid path) s =
      .next ((s.modCtx cid (fun c => { c with eng := { c.eng with wq := Map.put c.eng.wq path es } })).wrEnt cid path e) := by
  have he : exec (.engineWritePerform cid path) s = execEngineWritePerform cid path s := rfl
  rw [he]
  unfold execEngineWritePerform Engines.wqOf
  rw [h]
  rfl

/-! ## The end of a command -/

theorem clk_signalOf (s : State) (cid : Nat) (sy : Sync) (path : Nat) (w iw fpc : Word) : (s.signalOf cid sy path w iw fpc).clk = s.clk := by
  have hraise : ∀ (u : State) (f : Frame), (u.raiseOnce cid f).clk = u.clk := by
    intro u f
    have hout : (u.raiseOnce cid f).outside = u.outside := by
      unfold State.raiseOnce State.detect
      rw [State.outside_modCtx, outside_endHelperOf]
      rfl
    have := congrArg State.clk hout
    exact this
  unfold State.signalOf
  cases sy.sig with
  | none => rfl
  | some x =>
    dsimp only
    unfold State.signal
    dsimp only
    split
    · exact hraise _ _
    · rfl

theorem endPoints_none {s : State} {cid : Nat} (u : EUnit) {ps : List Nat} (h : ∀ p ∈ ps, s.program cid p = none) :
    State.endPoints cid u ps s = s.complete cid u := by
  induction ps with
  | nil => rfl
  | cons p ps ih =>
    unfold State.endPoints
    rw [h p List.mem_cons_self]
    exact ih fun q hq => h q (List.mem_cons_of_mem _ hq)

/-- A command that signals no visibility signals and frees its unit. -/
theorem complete_signals {s : State} {cid : Nat} {u : EUnit} {m : Cmd} (hm : s.cmd cid u = some m) (hp : m.pfault = none)
    (hsig : ∀ n x, (syncOf m.ent.w).sig = some (n, x) → x = 0) :
    s.complete cid u = (s.signalOf cid (syncOf m.ent.w) (unitPath u) m.status m.ent.w m.ent.addr).modCtx cid
      (fun c => { c with eng := { c.eng.dropCmd u with doneAt := some s.clk } }) := by
  have hvis : s.visible cid (unitPath u) (syncOf m.ent.w) m.ent.w m.ent.addr = s := by
    unfold State.visible
    cases hs : (syncOf m.ent.w).sig with
    | none => rfl
    | some y => exact if_pos (hsig y.1 y.2 hs)
  unfold State.complete
  rw [hm]
  dsimp only
  rw [hvis, clk_signalOf]
  unfold State.raisePort
  rw [hp]
  rfl

theorem mayEnd_of {s : State} {cid : Nat} {m : Cmd} (he : m.ended = true) (hr : s.portRun = none) (hf : m.efault = none)
    (hp : (s.ctx cid).trap.phase ≠ .frozen) : s.mayEnd cid m = true := by
  unfold State.mayEnd
  rw [he, hr, hf]
  simpa using hp

theorem awaitsAck_none {m : Cmd} (u : EUnit) (hsig : ∀ n x, (syncOf m.ent.w).sig = some (n, x) → x = 0) : m.awaitsAck u = false := by
  cases u with
  | coll n =>
    refine Bool.and_eq_false_iff.mpr (.inr ?_)
    cases hs : (syncOf m.ent.w).sig with
    | none => rfl
    | some y => exact bne_eq_false_iff_eq.mpr (hsig y.1 y.2 hs)
  | ch n => rfl
  | array => rfl
  | drainU => rfl
  | red => rfl

theorem commandComplete_eq {s : State} {cid : Nat} {u : EUnit} {m : Cmd} (hm : s.cmd cid u = some m) (he : s.mayEnd cid m = true)
    (ha : m.awaitsAck u = false) (hprog : ∀ p ∈ m.points u, s.program cid p = none) :
    exec (.engineCommandComplete cid u) s = .next (s.complete cid u) := by
  have hx : exec (.engineCommandComplete cid u) s = execEngineCommandComplete cid u s := rfl
  rw [hx]
  unfold execEngineCommandComplete
  rw [hm]
  dsimp only
  rw [he, ha, endPoints_none u hprog]
  rfl

theorem kputAck_eq {s : State} {cid n : Nat} {m : Cmd} (hm : s.cmd cid (.coll n) = some m) :
    exec (.kputAck cid n) s =
      if s.mayEnd cid m && m.op == 4 && !s.putPending cid m.ent.seq then .next (s.complete cid (.coll n)) else .next s := by
  have hx : exec (.kputAck cid n) s = execKputAck cid n s := rfl
  rw [hx]
  unfold execKputAck
  rw [hm]

/-! ## Buckets and segments -/

/-- What a step of a collective command comes to, where no write of it has failed. -/
theorem reportCmd_next {s : State} {cid : Nat} {u : EUnit} {m : Cmd}
    (hf : ∀ f ∈ (s.ctx cid).eng.wfails, f.path = unitPath u → f.seq ≠ m.ent.seq) (next : State) : s.reportCmd cid u m next = next := by
  unfold State.reportCmd
  rw [reportWhere_none]
  intro f h
  rw [Bool.and_eq_false_iff, beq_eq_false_iff_ne, beq_eq_false_iff_ne]
  exact not_and_or.mp fun ⟨hp, hq⟩ => hf f h hp hq

theorem readyWordPoll_eq {s : State} {cid n : Nat} {m : Cmd} (hm : s.cmd cid (.coll n) = some m) (hop : m.op = 2) (ht : m.turn = true)
    (hs : s.mayStep cid (.coll n) m = true) (hf : ∀ f ∈ (s.ctx cid).eng.wfails, f.path = 3 → f.seq ≠ m.ent.seq) :
    exec (.readyWordPoll cid n) s = .next (s.settleStep cid (.coll n) m (s.pollReady cid n m)) := by
  have hx : exec (.readyWordPoll cid n) s = execReadyWordPoll cid n s := rfl
  rw [hx]
  unfold execReadyWordPoll
  rw [hm]
  dsimp only
  rw [hop, ht, hs, reportCmd_next hf]
  rfl

theorem pollReady_fault {s : State} {cid n : Nat} {m : Cmd} {r : Machine.Ring} {e : Stop} (hr : Map.find (s.coll m.die).rings m.ring = some r)
    (he : s.kRead cid m (m.ent.a + word (64 * m.nextBucket)) 64 = .error e) : s.pollReady cid n m = .error e := by
  unfold State.pollReady
  rw [hr]
  dsimp only
  rw [he]
  rfl

section
variable {s : State} {cid n : Nat} {m : Cmd} {r : Machine.Ring} {bs ready : List Byte} {e e' : Fl}

theorem pollReady_waits (hop : m.op = 2) (hr : Map.find (s.coll m.die).rings m.ring = some r)
    (he : s.kRead cid m (m.ent.a + word (64 * m.nextBucket)) 64 = .ok (bs, e)) (hok : s.entryOk (chunksOf 8 bs) false r.members.length = true)
    (hw : s.kRead cid m ((chunksOf 8 bs)[2]?.getD 0) 8 = .ok (ready, e')) (hlt : (leWord ready).toNat < ((chunksOf 8 bs)[3]?.getD 0).toNat) :
    s.pollReady cid n m = .ok (s.setCmd cid (.coll n) { m with rgot := [] }) := by
  unfold State.pollReady
  rw [hr]
  dsimp only
  rw [he, hop]
  change (if (!s.entryOk (chunksOf 8 bs) false r.members.length) = true then _ else _) = _
  rw [hok, if_neg (by decide), hw]
  exact if_pos hlt

/-- The bucket that starts. -/
theorem pollReady_starts (hop : m.op = 2) (hr : Map.find (s.coll m.die).rings m.ring = some r)
    (he : s.kRead cid m (m.ent.a + word (64 * m.nextBucket)) 64 = .ok (bs, e)) (hok : s.entryOk (chunksOf 8 bs) false r.members.length = true)
    (hw : s.kRead cid m ((chunksOf 8 bs)[2]?.getD 0) 8 = .ok (ready, e')) (hle : ((chunksOf 8 bs)[3]?.getD 0).toNat ≤ (leWord ready).toNat)
    {rs : List Range}
    (hrs : rs = [Range.mk .eread 0 (m.ent.a + word (64 * m.nextBucket)).toNat 64, ⟨.eread, 0, ((chunksOf 8 bs)[2]?.getD 0).toNat, 8⟩,
      ⟨.eread, 0, ((chunksOf 8 bs)[0]?.getD 0).toNat, ((chunksOf 8 bs)[1]?.getD 0).toNat⟩])
    (htouch : s.touch cid m.pre rs = .ok ()) {own : List Byte} {f : Fl}
    (hown : s.kRead cid m ((chunksOf 8 bs)[0]?.getD 0) ((chunksOf 8 bs)[1]?.getD 0).toNat = .ok (own, f)) :
    ∃ b k, s.pollReady cid n m = .ok (((s.noteRanges cid rs).setCmd cid (.coll n) k).firstSends b m.ring false) ∧
      k.buckets = m.buckets ++ [b] ∧ k.nextBucket = m.nextBucket + 1 ∧ k.ent = m.ent ∧ b.num = m.numBase + m.nextBucket ∧ b.own = own ∧
      b.words = chunksOf 8 bs ∧ b.ring = r.members ∧ b.got = 0 := by
  unfold State.pollReady
  rw [hr]
  dsimp only
  rw [he, hop]
  change ∃ b k, (if (!s.entryOk (chunksOf 8 bs) false r.members.length) = true then _ else _) = _ ∧ _
  rw [hok, if_neg (by decide), hw]
  change ∃ b k, (if (leWord ready).toNat < ((chunksOf 8 bs)[3]?.getD 0).toNat then _ else _) = _ ∧ _
  rw [if_neg (not_lt.mpr hle)]
  subst hrs
  rw [htouch, hown]
  exact ⟨_, _, rfl, rfl, rfl, rfl, rfl, rfl, rfl, rfl, rfl⟩

end

theorem coll_setColl (s : State) (d : Nat) (c : Coll) : (s.setColl d c).coll d = c := Map.getD_put_same _ _ _ _

theorem segTarget_none {s : State} {die : Nat} {x : Segment}
    (h : ∀ c ∈ s.ctxs, ∀ m ∈ c.2.eng.coll, m.die = die → m.ring = x.ring → ∀ b ∈ m.buckets, b.num ≠ x.bucket) : s.segTarget die x = none := by
  unfold State.segTarget
  rw [List.findSome?_eq_none_iff]
  intro c hc
  rw [List.findSome?_eq_none_iff]
  intro n _
  cases hm : c.2.eng.coll[n]? with
  | none => rfl
  | some m =>
    refine if_neg ?_
    rintro ⟨hd, hr, hb⟩
    obtain ⟨b, hb, hn⟩ := List.any_eq_true.mp hb
    exact h c hc m (List.mem_of_getElem? hm) hd hr b hb (beq_iff_eq.mp hn)

theorem segTarget_some {s : State} {die : Nat} {x : Segment} {cid n : Nat} {m : Cmd} (h : s.segTarget die x = some (cid, n, m)) :
    m.die = die ∧ m.ring = x.ring := by
  unfold State.segTarget at h
  obtain ⟨c, _, hc⟩ := List.exists_of_findSome?_eq_some h
  obtain ⟨k, _, hk⟩ := List.exists_of_findSome?_eq_some hc
  split at hk
  · split at hk
    · rename_i hcond
      cases hk
      exact ⟨hcond.1, hcond.2.1⟩
    · cases hk
  · cases hk

theorem segmentArrival_stays {s : State} {die : Nat} {x : Segment} (h : s.segTarget die x = none) :
    exec (.segmentArrival die x) s = .next (s.setColl die { s.coll die with early := (s.coll die).early ++ [x] }) := by
  have he : exec (.segmentArrival die x) s = execSegmentArrival die x s := rfl
  have ht : (s.setColl die { s.coll die with early := (s.coll die).early ++ [x] }).segTarget die x = none := h
  rw [he]
  unfold execSegmentArrival
  dsimp only
  rw [ht]

theorem segmentArrival_steps {s : State} {die : Nat} {x : Segment} {cid n : Nat} {m : Cmd} (h : s.segTarget die x = some (cid, n, m))
    (hs : s.mayStep cid (.coll n) m = true) (hf : ∀ f ∈ (s.ctx cid).eng.wfails, f.path = 3 → f.seq ≠ m.ent.seq) {u : State}
    (hu : u = s.setColl die { s.coll die with early := (s.coll die).early ++ [x] }) :
    exec (.segmentArrival die x) s = .next (u.settleStep cid (.coll n) m (u.collStep cid n m)) := by
  have he : exec (.segmentArrival die x) s = execSegmentArrival die x s := rfl
  have ht : u.segTarget die x = some (cid, n, m) := by rw [hu]; exact h
  have hs' : u.mayStep cid (.coll n) m = true := by rw [hu]; exact hs
  have hf' : ∀ f ∈ (u.ctx cid).eng.wfails, f.path = 3 → f.seq ≠ m.ent.seq := by rw [hu]; exact hf
  rw [he]
  unfold execSegmentArrival
  dsimp only
  rw [← hu, ht]
  dsimp only
  rw [hs', reportCmd_next hf']
  rfl

/-- With one piece there, for a bucket of the command, and no bucket whole, the piece is taken. -/
theorem collStep_takes {u : State} {cid n : Nat} {m : Cmd} {x : Segment} {b : Bucket} (hop : m.op = 2) (hw : ∀ y ∈ m.buckets, y.got < y.len)
    (hearly : (u.coll m.die).early = [x]) (hring : m.ring = x.ring) (hb : m.buckets.find? (fun y => y.num = x.bucket) = some b) :
    u.collStep cid n m = u.pieceStep cid n m x b := by
  have hroot : m.rootDone = none := by
    unfold Cmd.rootDone
    rw [List.find?_eq_none]
    intro y hy
    rw [decide_eq_true_eq]
    exact not_le.mpr (hw y hy)
  have hpiece : u.nextPiece m = some (x, b) := by
    have hb' : m.buckets.find? (fun y => y.num == x.bucket) = some b := hb
    unfold State.nextPiece
    rw [hearly, List.findSome?_cons, if_pos hring.symm, hb']
    rfl
  unfold State.collStep
  rw [if_neg (by rw [hop]; decide), if_neg (by rw [hop]; decide), hroot, hpiece]

/-- A context of another state that differs in its engines alone. -/
def Ctx.EnginesOnly (c d : Ctx) : Prop := d = { c with eng := d.eng }

/-- Every context differs from that of another state in its engines alone. -/
def State.EnginesOnly (s t : State) : Prop := ∀ c, (s.ctx c).EnginesOnly (t.ctx c)

theorem State.EnginesOnly.modEng (s : State) (cid : Nat) (f : Engines → Engines) : s.EnginesOnly (s.modCtx cid (fun c => c.modEng f)) := by
  intro c
  rw [State.ctx_modCtx]
  split
  · rename_i h; subst h; rfl
  · rfl

theorem Ctx.EnginesOnly.rest {c d : Ctx} (h : c.EnginesOnly d) : d.sc = c.sc ∧ d.sems = c.sems ∧ d.parts = c.parts := by
  rw [h]
  exact ⟨rfl, rfl, rfl⟩

theorem State.EnginesOnly.trans {s t u : State} (h : s.EnginesOnly t) (h' : t.EnginesOnly u) : s.EnginesOnly u := by
  intro c
  unfold Ctx.EnginesOnly
  rw [h' c, h c]

theorem passOn_sends {s : State} {b : Bucket} {x : Segment} (g : Nat) (bs : List Byte) (fs : List Fl) (hstep : x.stepNo < b.n)
    (hroute : ((b.ring[(b.pos + 1) % b.n]?).getD 0) % 128 = s.net.devid ∨
      (Map.getD s.net.routes (((b.ring[(b.pos + 1) % b.n]?).getD 0) % 128) .fresh).v = true) :
    s.passOn b g x bs fs = { s with net := { s.net with sent := s.net.sent ++ [.seg (((b.ring[(b.pos + 1) % b.n]?).getD 0) % 128)
      (((b.ring[(b.pos + 1) % b.n]?).getD 0) / 128) ⟨g, b.pos, b.num, x.stepNo + 1, x.off, bs, fs⟩] } } := by
  unfold State.passOn State.sendSeg
  rw [if_pos (.inl hstep)]
  exact if_pos hroute

/-- A piece of a reduction that is not final here is folded and passed on. -/
theorem pieceStep_passes {u : State} {cid n : Nat} {m : Cmd} {x : Segment} {b : Bucket} (hop : m.op = 2) (hstep : x.stepNo + 1 < b.n)
    (hgot : b.got < b.len) (hroute : ((b.ring[(b.pos + 1) % b.n]?).getD 0) % 128 = u.net.devid ∨
      (Map.getD u.net.routes (((b.ring[(b.pos + 1) % b.n]?).getD 0) % 128) .fresh).v = true) (hearly : (u.coll m.die).early = [x]) :
    ∃ t fs, u.pieceStep cid n m x b = .ok t ∧
      t.net.sent = u.net.sent ++ [.seg (((b.ring[(b.pos + 1) % b.n]?).getD 0) % 128) (((b.ring[(b.pos + 1) % b.n]?).getD 0) / 128)
        ⟨m.ring, b.pos, b.num, x.stepNo + 1, x.off, (b.foldPiece x.off x.bytes).1, fs⟩] ∧
      (t.coll m.die).early = [] ∧ t.mem = u.mem ∧ t.sched = u.sched ∧ t.host = u.host ∧ u.EnginesOnly t := by
  have hcast : ¬ ((m.op == 3) = true ∨ b.n ≤ x.stepNo) := by
    rintro (h | h)
    · rw [hop] at h; cases h
    · omega
  have hfinal : (x.stepNo + 1 == b.n) = false := beq_eq_false_iff_ne.mpr (by omega)
  unfold State.pieceStep Bucket.take
  dsimp only
  rw [if_neg hcast, hfinal]
  simp only [Bool.false_eq_true, if_false, Bool.false_and, pure_bind]
  rw [if_neg (not_le.mpr hgot), passOn_sends, hearly, List.erase_cons_head]
  · refine ⟨_, _, rfl, rfl, ?_, rfl, rfl, rfl, ?_⟩
    · exact congrArg Coll.early (coll_setColl _ _ _)
    · exact (State.EnginesOnly.modEng _ cid _).trans (State.EnginesOnly.modEng _ cid _)
  · exact (by omega : x.stepNo < b.n)
  · exact hroute

/-- Settles O46: each event goes through the equation of its step, a fault through `stopCmd_traps`, and a segment through the pieces' step. -/
theorem engineEvents : Obligations.EngineEvents := by
  unfold Obligations.EngineEvents
  refine ⟨fun s cid u h => by rw [iterationBoundary_eq, boundary_waits h], fun s cid u m c d fa hm hs hf ht hu => ?_,
    fun s cid m hm hop hs hp hwr hf => ?_, fun s cid path h => writePerform_none h, fun s cid path e es h hc => ?_,
    fun s cid u m hm he hr hef hp hph hprog hsig => ?_, fun s cid n m hm h => ?_,
    fun s cid n m r hm hop ht hs hf hr => ?_, fun s die x => ⟨fun h => segmentArrival_stays (segTarget_none h), ?_⟩⟩
  · intro x w he hph
    refine ⟨w.stopCmd cid u x.2 c d fa, by rw [iterationBoundary_eq, boundary_faults hm hs hf ht hu rfl rfl he], stopCmd_traps u x.2 c d fa ?_⟩
    rw [cmd_setCmd_phase, ctx_preTranslate]
    exact hph
  · rw [iterationBoundary_eq, boundary_zeroes hm hop hs hp hwr hf]
    refine ⟨_, { m with pre := [] }.zeroed, rfl, ?_⟩
    rw [State.ctx_modCtx_same]
    exact ⟨rfl, rfl, decide_eq_true_iff, rfl, rfl, fun e he => zeroTile_zero _ _ _ he, fun k hk => zeroTile_other _ _ _ hk, rfl, rfl,
      fun c hc => by rw [State.ctx_modCtx, if_neg hc], State.outside_modCtx _ _ _⟩
  · intro u
    rw [writePerform_oldest h]
    obtain ⟨v, hv, hnear, hfar⟩ := wrEnt_performs u cid path hc
    exact ⟨v, by rw [hv], hnear, hfar⟩
  · have hend := mayEnd_of he hr hef hph
    refine ⟨_, _, commandComplete_eq hm hend (awaitsAck_none u hsig) hprog, signalOf_spec s cid _ (unitPath u) m.status m.ent.w m.ent.addr,
      complete_signals hm hp hsig, ?_⟩
    rintro n rfl hop hput
    rw [kputAck_eq hm, hend, hop, hput]
    rfl
  · rw [kputAck_eq hm, h, if_neg (by simp)]
  · intro a
    rw [readyWordPoll_eq hm hop ht hs hf]
    refine ⟨fun c d fa he hph => ?_, fun bs e ready e' he hok hw => ⟨fun hlt => ?_, fun own f rs hle hrs htouch hown => ?_⟩⟩
    · rw [pollReady_fault hr he]
      exact ⟨_, rfl, stopCmd_traps (.coll n) m c d fa hph⟩
    · rw [pollReady_waits hop hr he hok hw hlt]
      rfl
    · obtain ⟨b, k, hpoll, hk⟩ := pollReady_starts hop hr he hok hw hle hrs htouch hown
      rw [hpoll]
      exact ⟨b, k, rfl, hk⟩
  · intro cid n m b htgt hs hop hearly hf hw hb hstep next hroute
    obtain ⟨rfl, hring⟩ := segTarget_some htgt
    obtain ⟨u, hu⟩ : ∃ u, u = s.setColl m.die { s.coll m.die with early := (s.coll m.die).early ++ [x] } := ⟨_, rfl⟩
    have hearly' : (u.coll m.die).early = [x] := by
      rw [hu, coll_setColl, hearly]
      rfl
    have hroute' : next % 128 = u.net.devid ∨ (Map.getD u.net.routes (next % 128) .fresh).v = true := by
      rw [hu]
      exact hroute
    obtain ⟨t, fs, hpiece, hsent, hnone, hmem, hsched, hhost, honly⟩ :=
      pieceStep_passes (n := n) (cid := cid) hop hstep (hw b (List.mem_of_find?_eq_some hb)) hroute' hearly'
    rw [segmentArrival_steps htgt hs hf hu, collStep_takes hop hw hearly' hring hb, hpiece]
    subst hu
    refine ⟨t, fs, rfl, hsent, hnone, hmem, hsched, hhost, fun c => ?_⟩
    exact (honly c).rest

end Sys2Proof.Machine
end

section
/-! PROOF. fence, and the stores and reductions that enter their queue (R140, R144, R146, R151-R153, R302, R303, R309, R314, R315). -/

namespace Sys2Proof.Machine

open Sys2Proof

/-! ## fence (R151-R153) -/

/-- The acquire part of an ordering moves data, and beyond .core it leaves L1 empty (R151). -/
theorem State.acquired_moves (s : State) (od : Ord) (sc : Scope) : s.MovesData (s.acquired od sc) s.myCore := by
  unfold State.acquired
  split
  · exact (State.wbInv_moves s _).1
  · exact .refl _ _

theorem State.acquired_empty (s : State) {od : Ord} {sc : Scope} (ha : od.acquires = true) (hs : sc ≠ .core) :
    ((s.acquired od sc).core s.myCore).l1 = [] := by
  unfold State.acquired
  rw [if_pos ⟨ha, hs⟩]
  exact (State.wbInv_moves s _).2

theorem State.acquired_none (s : State) {od : Ord} (sc : Scope) (ha : od.acquires = false) : s.acquired od sc = s := by
  unfold State.acquired
  rw [ha]
  exact if_neg (fun h => Bool.false_ne_true h.1)

/-- The release part of an ordering leaves no dirty byte in L1 (R152). -/
theorem State.released_clean (s : State) {od : Ord} {sc : Scope} (hr : od.releases = true) (hs : sc ≠ .core) :
    ((s.released od sc).core s.myCore).clean := by
  unfold State.released
  rw [if_pos ⟨hr, hs⟩]
  exact (State.wbAll_moves s _).2

theorem exec_fence {o : FenceF} {s : State} (hm : s.OnMain) (hd : s.Drained) :
    exec (.fence o) s = .next (((s.released o.ord o.scope).acquired o.ord o.scope).adv o.st) := by
  rw [← State.acquired_eq, ← State.released_eq]
  exact (mainOnly_main hm _).trans (Drained.when hd _)

/-- Settles O16, by what the release part and then the acquire part leave of L1. -/
theorem fenceOrders : Obligations.FenceOrders := by
  unfold Obligations.FenceOrders
  intro o s hm hd
  refine ⟨_, exec_fence hm hd, ?_⟩
  intro u
  have hrel := s.released_moves o.ord o.scope
  have hcore : (s.released o.ord o.scope).myCore = s.myCore := myCore_of hrel.cur
  have hacq := (s.released o.ord o.scope).acquired_moves o.ord o.scope
  have hempty : o.scope ≠ .core → o.ord.acquires = true → (u.core s.myCore).l1 = [] := fun hs ha =>
    hcore ▸ (s.released o.ord o.scope).acquired_empty ha hs
  rw [hcore] at hacq
  have hu : s.MovesData u s.myCore := hrel.trans hacq
  refine ⟨State.adv_passes (State.hasAgent_main (hu.onMain hm)) o.st, hu, fun hs hr => ?clean, hempty⟩
  case clean =>
    cases ha : o.ord.acquires with
    | true => exact Core.clean_of_empty (hempty hs ha)
    | false =>
      have hsame : u = s.released o.ord o.scope := State.acquired_none _ _ ha
      rw [hsame]
      exact s.released_clean hr hs

/-! ## Stores and reductions that enter their queue (R144, R302, R303, R309, R314, R315) -/

/-- The bytes of a store's value as captured (R302, R303). -/
theorem store_queues {s : State} (hm : s.OnMain) {o : StoreOp} {srcs : List Nat} {ea : Word} {p : Place} (hr : s.Ready srcs none)
    (ho : o.ord ≠ .sc) (ha : ea.toNat % o.z.bytes = 0) (hx : s.xlat s.cur.cid false .store ea = .ok p) :
    ∃ t, s.storeOp o srcs ea = .next t ∧ s.QueuesStore t o.st
      { kind := .store (word (o.v.toNat % 256 ^ o.z.bytes)), place := p, va := ea, size := o.z.bytes,
        ord := o.ord, scope := o.scope, hint := o.hint, pc := s.pc, seq := s.sca.seq, sent := [] } := by
  rw [← size_eq] at ha
  have h := storeOp_queues hm hr ho ha hx
  rw [zext_eq, size_eq] at h
  exact h

/-- Settles O20: each form is a store or a reduction at its address, which enters its queue once it has its place. -/
theorem storesQueue : Obligations.StoresQueue := by
  unfold Obligations.StoresQueue
  refine ⟨fun o s p hm hr ho ha hx => ?_, fun o s p hm hr ho ha hx => ?_, fun o s p hm hr ha hx => ?_, fun o s p hm hr ha hx => ?_⟩
  · rw [← based_eq s o.ra o.off (by decide)] at ha hx ⊢
    exact store_queues (o := ⟨o.st, s.r o.rt, o.size, o.ord, o.scope, o.hint⟩) hm hr ho ha hx
  · exact store_queues (o := ⟨o.st, s.r o.rt, o.size, o.ord, o.scope, o.hint⟩) hm hr ho ha hx
  · rw [← based_eq s o.ra o.off (by decide)] at ha hx ⊢
    exact mredOp_queues hm hr ha hx
  · rw [← based_eq s o.ra o.off (by decide)] at ha hx ⊢
    exact mredOp_queues hm hr ha hx

end Sys2Proof.Machine
end

section
/-! PROOF. Atomics at their point of coherence (R146, R151, R152, R310-R312). -/

namespace Sys2Proof.Machine

open Sys2Proof

/-! ## A read that counts its corrected errors (R128) -/

theorem State.ctx_sRead (s : State) (k : Nat) (p : Place) (n c : Nat) : (s.sRead k p n).ctx c = s.ctx c := by
  unfold State.sRead; split <;> rfl

@[simp] theorem State.cur_sRead (s : State) (k : Nat) (p : Place) (n : Nat) : (s.sRead k p n).cur = s.cur := (sRead_facts s k p n).1

theorem State.clk_sRead (s : State) (k : Nat) (p : Place) (n : Nat) : (s.sRead k p n).clk = s.clk := by
  unfold State.sRead; split <;> rfl

/-- Counting corrected errors changes no byte. -/
theorem State.rd1_sRead (s : State) (k : Nat) (p : Place) (n l : Nat) (q : Place) : (s.sRead k p n).rd1 l q = s.rd1 l q := by
  unfold State.sRead
  split
  · rfl
  · cases q with
    | trapMem core off =>
      unfold State.rd1
      dsimp only
      rw [State.core_modCore]
      split
      · rename_i h; rw [h]
      · rfl
    | _ => rfl

@[simp] theorem State.rd_sRead (s : State) (k : Nat) (p : Place) (n l : Nat) (q : Place) (m : Nat) :
    (s.sRead k p n).rd l q m = s.rd l q m := by
  unfold State.rd; simp only [State.rd1_sRead]

theorem State.rd_length (s : State) (l : Nat) (p : Place) (n : Nat) : (s.rd l p n).length = n := by simp [State.rd]

theorem State.launch_wr (s : State) (l : Nat) (p : Place) (bs : List Byte) (c : Nat) : ((s.wr l p bs).ctx c).launch = (s.ctx c).launch := by
  obtain ⟨x, h, e⟩ := s.ctx_wr_shape l p bs c
  rw [e]
  rfl

/-! ## One element (R310, R311) -/

/-- amo on one element gives its old value, and writes the new one of R310. -/
theorem State.amoAt_eq (s : State) (cid : Nat) (p : Place) (wide : Bool) (op : AmoOp) (b : Word) :
    let n := (atomWidth wide).bits / 8
    let u := s.sRead (cid / 2) p n
    let old := leWord (u.rd (s.ctx cid).launch p n)
    s.amoAt cid p n op b = (old, u.wr (s.ctx cid).launch p (leBytes n (op.result (atomWidth wide) old b).toNat)) := by
  intro n u old
  have hbytes := amo_bytes op wide old b
  rw [bytes_eq] at hbytes
  unfold State.amoAt
  dsimp only
  rw [State.ctx_sRead]
  exact congrArg (fun bs => (old, u.wr (s.ctx cid).launch p bs)) hbytes

theorem leWord_lt (bs : List Byte) : (leWord bs).toNat < 256 ^ bs.length := by
  unfold leWord word
  rw [BitVec.toNat_ofNat]
  exact lt_of_le_of_lt (Nat.mod_le _ _) (leNat_lt bs)

/-- An element read is the expected one where the two are equal at the element's width (R311). -/
theorem eq_zext_iff_uns {wide : Bool} {old : Word} (h : old.toNat < 256 ^ ((atomWidth wide).bits / 8)) (e : Word) :
    old = zextN (8 * ((atomWidth wide).bits / 8)) e ↔ (atomWidth wide).uns old = (atomWidth wide).uns e := by
  rw [← bytes_eq] at h ⊢
  have hself : (zextN (8 * amoBytes wide) old).toNat = old.toNat := by
    unfold zextN
    rw [BitVec.toNat_ofNat]
    cases wide <;> simp [amoBytes] at h ⊢ <;> omega
  rw [← uns_eq, ← uns_eq, hself, BitVec.toNat_inj]

/-- cas on one element gives its old value, and writes the new one where the old one is the expected (R311). -/
theorem State.casAt_eq (s : State) (cid : Nat) (p : Place) (wide : Bool) (e b : Word) :
    let n := (atomWidth wide).bits / 8
    let u := s.sRead (cid / 2) p n
    let old := leWord (u.rd (s.ctx cid).launch p n)
    s.casAt cid p n e b = (old, if (atomWidth wide).uns old = (atomWidth wide).uns e
      then u.wr (s.ctx cid).launch p (leBytes n b.toNat) else u) := by
  intro n u old
  have hiff : old = zextN (8 * n) e ↔ (atomWidth wide).uns old = (atomWidth wide).uns e := by
    have hlt := leWord_lt (u.rd (s.ctx cid).launch p n)
    rw [State.rd_length] at hlt
    exact eq_zext_iff_uns hlt e
  unfold State.casAt
  dsimp only
  rw [State.ctx_sRead, if_congr hiff rfl rfl]
  split <;> rfl

theorem State.cur_amoAt (s : State) (cid : Nat) (p : Place) (n : Nat) (op : AmoOp) (b : Word) : (s.amoAt cid p n op b).2.cur = s.cur :=
  (cur_wr _ _ _ _).trans (State.cur_sRead _ _ _ _)

theorem State.cur_casAt (s : State) (cid : Nat) (p : Place) (n : Nat) (e b : Word) : (s.casAt cid p n e b).2.cur = s.cur := by
  unfold State.casAt
  dsimp only
  split
  · exact (cur_wr _ _ _ _).trans (State.cur_sRead _ _ _ _)
  · exact State.cur_sRead _ _ _ _

theorem State.launch_amoAt (s : State) (cid : Nat) (p : Place) (n : Nat) (op : AmoOp) (b : Word) (c : Nat) :
    ((s.amoAt cid p n op b).2.ctx c).launch = (s.ctx c).launch :=
  (State.launch_wr _ _ _ _ _).trans (by rw [State.ctx_sRead])

/-! ## The elements of a vector atomic (R312) -/

/-- Element j of a vector atomic, alone. -/
def State.vamoStep (cid : Nat) (p : Place) (wide : Bool) (op : AmoOp) (bs : List Word) (s : State) (j : Nat) : State :=
  (s.amoAt cid (p.add (amoBytes wide * j)) (amoBytes wide) op (vamoOperand wide bs j)).2

/-- s after the first k elements of a vector atomic. -/
def State.vamoTo (s : State) (cid : Nat) (p : Place) (wide : Bool) (op : AmoOp) (bs : List Word) (k : Nat) : State :=
  (List.range k).foldl (State.vamoStep cid p wide op bs) s

/-- The old value of element j: what stands at its place once the elements before it are performed. -/
def State.vamoOld (s : State) (cid : Nat) (p : Place) (wide : Bool) (op : AmoOp) (bs : List Word) (j : Nat) : Word :=
  leWord ((s.vamoTo cid p wide op bs j).rd (s.ctx cid).launch (p.add (amoBytes wide * j)) (amoBytes wide))

/-- The old values of the first k elements, in the words of the result. -/
def State.vamoOlds (s : State) (cid : Nat) (p : Place) (wide : Bool) (op : AmoOp) (bs : List Word) : Nat → List Word
  | 0 => [0, 0, 0, 0]
  | k + 1 => vamoMerge wide (s.vamoOlds cid p wide op bs k) k (s.vamoOld cid p wide op bs k)

section
variable (s : State) (cid : Nat) (p : Place) (wide : Bool) (op : AmoOp) (bs : List Word)

theorem State.vamoTo_succ (k : Nat) : s.vamoTo cid p wide op bs (k + 1) = State.vamoStep cid p wide op bs (s.vamoTo cid p wide op bs k) k := by
  unfold State.vamoTo
  rw [List.range_succ, List.foldl_append]
  rfl

theorem State.launch_vamoTo (k c : Nat) : ((s.vamoTo cid p wide op bs k).ctx c).launch = (s.ctx c).launch := by
  induction k with
  | zero => rfl
  | succ k ih =>
    rw [State.vamoTo_succ]
    exact (State.launch_amoAt _ _ _ _ _ _ _).trans ih

theorem State.cur_vamoTo (k : Nat) : (s.vamoTo cid p wide op bs k).cur = s.cur := by
  induction k with
  | zero => rfl
  | succ k ih =>
    rw [State.vamoTo_succ]
    exact (State.cur_amoAt _ _ _ _ _ _).trans ih

/-- A vector atomic is its elements in turn, each giving the old value that the ones before it leave. -/
theorem State.vamoAll_eq : s.vamoAll cid p wide op bs = (s.vamoOlds cid p wide op bs (vamoCount wide), s.vamoTo cid p wide op bs (vamoCount wide)) := by
  unfold State.vamoAll
  induction vamoCount wide with
  | zero => rfl
  | succ k ih =>
    rw [List.range_succ, List.foldl_append, ih, State.vamoTo_succ]
    have hold : ((s.vamoTo cid p wide op bs k).amoAt cid (p.add (amoBytes wide * k)) (amoBytes wide) op (vamoOperand wide bs k)).1 =
        s.vamoOld cid p wide op bs k := by
      unfold State.amoAt State.vamoOld
      dsimp only
      rw [State.ctx_sRead, State.rd_sRead, State.launch_vamoTo]
    exact congrArg (fun v => (vamoMerge wide (s.vamoOlds cid p wide op bs k) k v, _)) hold

theorem State.cur_vamoAll : (s.vamoAll cid p wide op bs).2.cur = s.cur := by
  rw [State.vamoAll_eq]
  exact s.cur_vamoTo cid p wide op bs _

end

/-! ### How the old values stand in the result's words -/

theorem vamoMerge_length (wide : Bool) (olds : List Word) (j : Nat) (v : Word) : (vamoMerge wide olds j v).length = olds.length := by
  cases wide <;> exact List.length_set

theorem State.vamoOlds_length (s : State) (cid : Nat) (p : Place) (wide : Bool) (op : AmoOp) (bs : List Word) (k : Nat) :
    (s.vamoOlds cid p wide op bs k).length = 4 := by
  induction k with
  | zero => rfl
  | succ k ih => exact (vamoMerge_length _ _ _ _).trans ih

/-- Wide elements: one word each. -/
theorem State.vamoOlds_wide (s : State) (cid : Nat) (p : Place) (op : AmoOp) (bs : List Word) {k : Nat} (hk : k ≤ 4) :
    ∀ j < k, (s.vamoOlds cid p true op bs k)[j]? = some (s.vamoOld cid p true op bs j) := by
  induction k with
  | zero => intro j hj; omega
  | succ k ih =>
    intro j hj
    have hlen := s.vamoOlds_length cid p true op bs k
    show ((s.vamoOlds cid p true op bs k).set k _)[j]? = _
    by_cases he : j = k
    · subst he
      rw [List.getElem?_set_self (by omega)]
    · rw [List.getElem?_set_ne (by omega)]
      exact ih (by omega) j (by omega)

/-- The low or the high half of a word. -/
def half (w : Word) (i : Nat) : Nat := w.toNat / 2 ^ (32 * i) % 2 ^ 32

/-- A narrow element's old value goes into its half of its word. -/
theorem vamoMerge_half_same {olds : List Word} {k : Nat} (hk : k / 2 < olds.length) {v : Word} (hv : v.toNat < 2 ^ 32) :
    ∃ w, (vamoMerge false olds k v)[k / 2]? = some w ∧ half w (k % 2) = v.toNat := by
  refine ⟨_, List.getElem?_set_self hk, ?_⟩
  have hr := ((olds[k / 2]?).getD 0).isLt
  unfold half word
  rw [BitVec.toNat_ofNat]
  rcases Nat.mod_two_eq_zero_or_one k with h | h <;> rw [h]
  · rw [if_pos rfl]; omega
  · rw [if_neg Nat.one_ne_zero]; omega

/-- The other halves stand as before. -/
theorem vamoMerge_half_other {olds : List Word} {j k : Nat} (hjk : j ≠ k) (v : Word) {w : Word} (hw : olds[j / 2]? = some w) :
    ∃ w', (vamoMerge false olds k v)[j / 2]? = some w' ∧ half w' (j % 2) = half w (j % 2) := by
  by_cases he : j / 2 = k / 2
  · have hlen : k / 2 < olds.length := he ▸ (List.getElem?_eq_some_iff.mp hw).1
    rw [he] at hw ⊢
    refine ⟨_, List.getElem?_set_self hlen, ?_⟩
    rw [hw, Option.getD_some]
    have hr := w.isLt
    unfold half word
    rw [BitVec.toNat_ofNat]
    rcases Nat.mod_two_eq_zero_or_one k with h | h
    · have hj : j % 2 = 1 := by omega
      rw [h, hj, if_pos rfl]
      omega
    · have hj : j % 2 = 0 := by omega
      rw [h, hj, if_neg Nat.one_ne_zero]
      omega
  · exact ⟨w, (List.getElem?_set_ne (fun h => he h.symm)).trans hw, rfl⟩

theorem State.vamoOld_lt (s : State) (cid : Nat) (p : Place) (op : AmoOp) (bs : List Word) (j : Nat) :
    (s.vamoOld cid p false op bs j).toNat < 2 ^ 32 := by
  have h := leWord_lt ((s.vamoTo cid p false op bs j).rd (s.ctx cid).launch (p.add (amoBytes false * j)) (amoBytes false))
  rw [State.rd_length] at h
  exact h

/-- Narrow elements: two to a word, the earlier in its low half. -/
theorem State.vamoOlds_narrow (s : State) (cid : Nat) (p : Place) (op : AmoOp) (bs : List Word) {k : Nat} (hk : k ≤ 8) :
    ∀ j < k, ∃ w, (s.vamoOlds cid p false op bs k)[j / 2]? = some w ∧ half w (j % 2) = (s.vamoOld cid p false op bs j).toNat := by
  induction k with
  | zero => intro j hj; omega
  | succ k ih =>
    intro j hj
    have hlen := s.vamoOlds_length cid p false op bs k
    by_cases he : j = k
    · subst he
      exact vamoMerge_half_same (by omega) (s.vamoOld_lt cid p op bs j)
    · obtain ⟨w, hw, hhalf⟩ := ih (by omega) j (by omega)
      obtain ⟨w', hw', hsame⟩ := vamoMerge_half_other he (s.vamoOld cid p false op bs k) hw
      exact ⟨w', hw', hsame.trans hhalf⟩

/-! ## amo, cas and vamo -/

theorem State.cur_res4 (s : State) (rt : Nat) (vs : List Word) : (s.res4 rt vs).cur = s.cur := by
  unfold State.res4
  split
  · rfl
  · simp [List.range, List.range.loop, State.resVar_eq]

theorem onMain_of_cur {s t : State} (h : t.cur = s.cur) (hm : s.OnMain) : t.OnMain := by unfold State.OnMain; rw [h]; exact hm

/-- The old value goes to rt at its width, and S goes on (R310, R311). -/
theorem atomic_gives {w : State} (hm : w.OnMain) (rt : Nat) (wide : Bool) (v : Word) (st : Nat) :
    w.GivesVar ((w.resVar rt (extend true (amoBytes wide) v)).adv st) rt ((atomWidth wide).low v) st := by
  rw [← extend_low]
  exact State.resVar_adv_gives (State.hasAgent_main hm) _ _ _

section
variable {s : State} {p : Place}

/-- An atomic at its point of coherence is on the main stream, in its context, for its launch. -/
theorem atPoint_facts (hm : s.OnMain) (ea : Word) (od : Ord) (scp : Scope) (p : Place) :
    (s.atPoint ea od scp p).OnMain ∧ (s.atPoint ea od scp p).cur = s.cur ∧ ((s.atPoint ea od scp p).ctx s.cur.cid).launch = s.me.launch := by
  have hr := s.atPoint_readies ea od scp p
  have hl := launch_readies hr
  rw [hr.cur] at hl
  exact ⟨onMain_readies hr hm, hr.cur, hl⟩

/-- An amo performed in w gives what amo gives, and writes what R310 says. -/
theorem amoAt_gives {w : State} (hm : w.OnMain) {l : Nat} (hl : (w.ctx w.cur.cid).launch = l) (p : Place) (wide : Bool) (op : AmoOp) (b : Word)
    (rt st : Nat) :
    let n := (atomWidth wide).bits / 8
    let u := w.sRead w.myCore p n
    let old := leWord (u.rd l p n)
    let r := w.amoAt w.cur.cid p (amoBytes wide) op b
    (u.wr l p (leBytes n (op.result (atomWidth wide) old b).toNat)).GivesVar ((r.2.resVar rt (extend true (amoBytes wide) r.1)).adv st) rt
      ((atomWidth wide).low old) st := by
  intro n u old r
  have hr : r = (old, u.wr l p (leBytes n (op.result (atomWidth wide) old b).toNat)) := by
    show w.amoAt w.cur.cid p (amoBytes wide) op b = _
    rw [bytes_eq, State.amoAt_eq, hl]
    rfl
  rw [hr]
  exact atomic_gives (onMain_of_cur ((cur_wr _ _ _ _).trans (w.cur_sRead _ _ _)) hm) _ _ _ _

theorem casAt_gives {w : State} (hm : w.OnMain) {l : Nat} (hl : (w.ctx w.cur.cid).launch = l) (p : Place) (wide : Bool) (e b : Word)
    (rt st : Nat) :
    let n := (atomWidth wide).bits / 8
    let u := w.sRead w.myCore p n
    let old := leWord (u.rd l p n)
    let r := w.casAt w.cur.cid p (amoBytes wide) e b
    (if (atomWidth wide).uns old = (atomWidth wide).uns e then u.wr l p (leBytes n b.toNat) else u).GivesVar
      ((r.2.resVar rt (extend true (amoBytes wide) r.1)).adv st) rt ((atomWidth wide).low old) st := by
  intro n u old r
  have hr : r = (old, if (atomWidth wide).uns old = (atomWidth wide).uns e then u.wr l p (leBytes n b.toNat) else u) := by
    show w.casAt w.cur.cid p (amoBytes wide) e b = _
    rw [bytes_eq, State.casAt_eq, hl]
    rfl
  have hcur := w.cur_casAt w.cur.cid p (amoBytes wide) e b
  rw [show w.casAt w.cur.cid p (amoBytes wide) e b = r from rfl, hr] at hcur
  rw [hr]
  exact atomic_gives (onMain_of_cur hcur hm) _ _ _ _

theorem amo_performs {o : AmoF} (ho : o.ord ≠ .sc)
    (h : s.AtomReady [o.ra, o.rb] [o.rt] (s.based o.ra o.off) (amoBytes o.wide) .atomic p) :
    let w := s.atPoint (s.based o.ra o.off) o.ord o.scope p
    let r := w.amoAt w.cur.cid p (amoBytes o.wide) o.op (s.r o.rb)
    exec (.amo o) s = .next (((r.2.resVar o.rt (extend true (amoBytes o.wide) r.1)).adv o.st).acquired o.ord o.scope) := by
  show execAmo o s = _
  unfold execAmo State.eaOff14
  dsimp only
  rw [based_eq s o.ra o.off (by decide), if_neg ho, h.perform ho]

theorem cas_performs {o : CasF} (ho : o.ord ≠ .sc)
    (h : s.AtomReady [o.ra, o.rb, o.rc] [o.rt] (s.based o.ra o.off) (amoBytes o.wide) .atomic p) :
    let w := s.atPoint (s.based o.ra o.off) o.ord o.scope p
    let r := w.casAt w.cur.cid p (amoBytes o.wide) (s.r o.rc) (s.r o.rb)
    exec (.cas o) s = .next (((r.2.resVar o.rt (extend true (amoBytes o.wide) r.1)).adv o.st).acquired o.ord o.scope) := by
  show execCas o s = _
  unfold execCas State.eaOff14
  dsimp only
  rw [based_eq s o.ra o.off (by decide), if_neg ho, h.perform ho]

theorem vamo_performs {o : AmoF} (ho : o.ord ≠ .sc)
    (h : s.AtomReady [o.ra, o.rb, o.rb + 1, o.rb + 2, o.rb + 3] (if o.rt = 0 then [] else [o.rt, o.rt + 1, o.rt + 2, o.rt + 3])
      (s.based o.ra o.off) 32 .vector p) :
    let w := s.atPoint (s.based o.ra o.off) o.ord o.scope p
    let r := w.vamoAll w.cur.cid p o.wide o.op [s.r o.rb, s.r (o.rb + 1), s.r (o.rb + 2), s.r (o.rb + 3)]
    exec (.vamo o) s = .next (((r.2.res4 o.rt r.1).adv o.st).acquired o.ord o.scope) := by
  show execVamo o s = _
  unfold execVamo State.eaOff14
  dsimp only
  rw [based_eq s o.ra o.off (by decide), if_neg ho]
  exact h.perform ho

end

/-- A narrow or wide operand of an element, as the statement reads it. -/
theorem vamoStep_eq (cid : Nat) (p : Place) (wide : Bool) (op : AmoOp) (bs : List Word) :
    let n := (atomWidth wide).bits / 8
    State.vamoStep cid p wide op bs = fun (u : State) i =>
      (u.sRead (cid / 2) (p.add (n * i)) n).wr (u.ctx cid).launch (p.add (n * i))
        (leBytes n (op.result (atomWidth wide) (leWord ((u.sRead (cid / 2) (p.add (n * i)) n).rd (u.ctx cid).launch (p.add (n * i)) n))
          (vamoOperand wide bs i)).toNat) := by
  intro n
  funext u i
  unfold State.vamoStep
  rw [bytes_eq, State.amoAt_eq]

theorem vamoCount_eq (wide : Bool) : vamoCount wide = 32 / ((atomWidth wide).bits / 8) := by cases wide <;> rfl

/-- Settles O22: amo and cas by their one element, vamo by its elements in turn. -/
theorem atomicsPerform : Obligations.AtomicsPerform := by
  unfold Obligations.AtomicsPerform
  refine ⟨fun o s p ho h => ?amo, fun o s p ho h => ?cas, fun o s p ho h => ?vamo, fun s cid p wide op bs => ?elements⟩
  case amo =>
    obtain ⟨hm, hcur, hl⟩ := atPoint_facts h.main (s.based o.ra o.off) o.ord o.scope p
    have hg := amoAt_gives hm (hcur ▸ hl) p o.wide o.op (s.r o.rb) o.rt o.st
    rw [myCore_of hcur] at hg
    rw [← bytes_eq] at h
    exact ⟨_, amo_performs ho h, hg⟩
  case cas =>
    obtain ⟨hm, hcur, hl⟩ := atPoint_facts h.main (s.based o.ra o.off) o.ord o.scope p
    have hg := casAt_gives hm (hcur ▸ hl) p o.wide (s.r o.rc) (s.r o.rb) o.rt o.st
    rw [myCore_of hcur] at hg
    rw [← bytes_eq] at h
    exact ⟨_, cas_performs ho h, hg⟩
  case vamo =>
    obtain ⟨hm, hcur, -⟩ := atPoint_facts h.main (s.based o.ra o.off) o.ord o.scope p
    have he := vamo_performs ho h
    dsimp only at he
    rw [hcur] at he
    refine ⟨_, he, State.adv_passes (State.hasAgent_main (onMain_of_cur ?_ hm)) _⟩
    exact (State.cur_res4 _ _ _).trans (State.cur_vamoAll _ _ _ _ _ _)
  case elements =>
    intro n x
    have hx : ∀ j, x j = s.vamoTo cid p wide op bs j := fun j => by
      unfold State.vamoTo
      rw [vamoStep_eq]
      rfl
    rw [State.vamoAll_eq]
    refine ⟨?_, fun j hj hw => ?_, fun j hj hw => ?_⟩
    · rw [hx, vamoCount_eq]
    · subst hw
      rw [hx]
      exact s.vamoOlds_wide cid p op bs le_rfl j hj
    · subst hw
      rw [hx]
      exact s.vamoOlds_narrow cid p op bs le_rfl j hj

end Sys2Proof.Machine
end

section
/-! PROOF. Stores that are performed at their place, and those that are not (R141, R144, R152, R169, R171). -/

namespace Sys2Proof.Machine

open Sys2Proof

theorem State.Home.near {s : State} {p : Place} (h : s.Home p) : p.isRemote = false := by
  cases p <;> first | rfl | exact h.elim

theorem Place.dev?_of_near {p : Place} (h : p.isRemote = false) : p.dev? = none := by
  cases p <;> first | rfl | cases h

/-! ## A note of a granule is no part of memory -/

theorem State.noteStored_ctx_parts (s : State) (cid : Nat) (p : Place) (n c : Nat) : ((s.noteStored cid p n).ctx c).parts = (s.ctx c).parts := by
  obtain ⟨x, hx⟩ := (s.noteStored_same cid p n).2 c
  rw [hx]

theorem State.noteStored_launch (s : State) (cid : Nat) (p : Place) (n c : Nat) : ((s.noteStored cid p n).ctx c).launch = (s.ctx c).launch := by
  obtain ⟨x, hx⟩ := (s.noteStored_same cid p n).2 c
  rw [hx]
  rfl

theorem State.noteStored_outside (s : State) (cid : Nat) (p : Place) (n : Nat) : (s.noteStored cid p n).mem = s.mem ∧
    (s.noteStored cid p n).host = s.host ∧ ∀ k, (s.noteStored cid p n).core k = s.core k := by
  have h := (s.noteStored_same cid p n).1
  refine ⟨?_, ?_, fun k => ?_⟩
  · have := congrArg State.mem h; exact this
  · have := congrArg State.host h; exact this
  · have := congrArg (fun x : State => x.core k) h; exact this

theorem State.noteStored_rd1 (s : State) (cid : Nat) (p : Place) (n l : Nat) (q : Place) : (s.noteStored cid p n).rd1 l q = s.rd1 l q := by
  obtain ⟨hmem, hhost, hcore⟩ := s.noteStored_outside cid p n
  cases q <;> simp only [State.rd1, State.noteStored_ctx_parts, State.hbmByte, State.slotKey, hmem, hhost, hcore]

theorem State.noteStored_slotKey (s : State) (cid : Nat) (p : Place) (n k : Nat) : (s.noteStored cid p n).slotKey k = s.slotKey k := by
  unfold State.slotKey; rw [(s.noteStored_outside cid p n).1]

theorem State.MemOk.noteStored {s : State} (h : s.MemOk) (cid : Nat) (p : Place) (n : Nat) : (s.noteStored cid p n).MemOk :=
  have ⟨hmem, hhost, hcore⟩ := s.noteStored_outside cid p n
  h.of_same hmem hhost (fun c => s.noteStored_ctx_parts cid p n c) (fun k => by rw [hcore])

/-! ## A release beyond .core (R152) -/

theorem State.beforeStore_clean {s : State} {cid : Nat} {e : StEnt} (hr : e.isRel = true) (hs : e.scope ≠ .core) :
    ((s.beforeStore cid e).core (cid / 2)).clean := by
  have h : (e.isRel && e.scope != .core) = true := by rw [hr]; exact bne_iff_ne.mpr hs
  unfold State.beforeStore
  rw [if_pos h]
  exact (State.wbAll_moves s _).2

theorem State.beforeStore_none {s : State} {cid : Nat} {e : StEnt} (h : e.isRel = false ∨ e.scope = .core) : s.beforeStore cid e = s := by
  refine if_neg (ne_true_of_eq_false ?_)
  rcases h with h | h <;> rw [h]
  · rfl
  · exact Bool.and_false _

/-! ## The store at the head of its queue -/

section
variable {s : State} {cid : Nat} {e : StEnt} {v : Word} (hk : e.kind = .store v)
  (hok : s.MemOk) (hhome : s.Home e.place) (hfits : e.place.fits e.size) (hc : e.place.cached = false)
include hk hok hhome hfits hc

/-- A store of a place that L1 does not cache writes its bytes there, and no other; where a release has left no dirty byte in L1, none is there
after it. -/
theorem performHere_stores (lodge : Bool) :
    let t := s.performHere cid e lodge
    (∀ i < e.size, t.rd1 (s.ctx cid).launch (e.place.add i) = BitVec.ofNat 8 (v.toNat / 256 ^ i % 256)) ∧
    ((e.isRel = false ∨ e.scope = .core) → (∀ pa key cl wp, e.place = .loc pa key cl wp → Map.find (s.core (cid / 2)).l1 (pa / 64) = none) →
      ∀ q : Place, q.fits 1 → s.sameKey e.place q → (∀ i < e.size, (e.place.add i).same q = false) →
      t.rd1 (s.ctx cid).launch q = s.rd1 (s.ctx cid).launch q) ∧
    (e.isRel = true → e.scope ≠ .core → (t.core (cid / 2)).clean) := by
  intro t
  obtain ⟨bs, hbs⟩ : ∃ bs, bs = leBytes e.size v.toNat := ⟨_, rfl⟩
  have hlen : bs.length = e.size := by rw [hbs, leBytes_length]
  have hfits' : e.place.fits bs.length := by rw [hlen]; exact hfits
  obtain ⟨w, hw⟩ : ∃ w, w = (s.beforeStore cid e).noteStored cid e.place e.seq := ⟨_, rfl⟩
  have hkey : ∀ k, w.slotKey k = s.slotKey k := fun k => by rw [hw, State.noteStored_slotKey, State.beforeStore_key]
  have hlaunch : (w.ctx cid).launch = (s.ctx cid).launch := by
    rw [hw, State.noteStored_launch, (s.beforeStore_moves cid e).launch]
  obtain ⟨u, -, hstore, hukey, huok, hclean, hrd⟩ := w.storeHome_uncached cid e.place bs hc hhome.near
  have ht : t = u.wr (s.ctx cid).launch e.place bs := by
    rw [← hlaunch, ← hstore, hw, hbs]
    exact State.performHere_store s cid e v lodge hk hc
  have hukey' : ∀ k, u.slotKey k = s.slotKey k := fun k => (hukey k).trans (hkey k)
  have hok' : u.MemOk := huok (hw ▸ (hok.beforeStore cid e).noteStored cid e.place e.seq)
  have hhome' : u.Home e.place := hhome.of_slotKey hukey'
  rw [ht]
  refine ⟨fun i hi => ?bytes, fun hrel hl1 q hq hsame hother => ?others, fun hr hs => ?released⟩
  case bytes =>
    rw [State.rd1_wr_at hok' hhome' hfits' i (by rw [hlen]; exact hi)]
    subst hbs
    exact Option.some.inj ((List.getElem?_eq_getElem _).symm.trans (leBytes_get _ _ _ hi))
  case others =>
    have hw' : w = s.noteStored cid e.place e.seq := by rw [hw, State.beforeStore_none hrel]
    rw [State.rd1_wr_other hok' hhome' hfits' hq (State.sameKey_of_slotKey hsame hukey') (by rw [hlen]; exact hother), hrd ?_, hw', State.noteStored_rd1]
    intro pa key cl wp hp
    rw [hw', (s.noteStored_outside cid e.place e.seq).2.2]
    exact hl1 pa key cl wp hp
  case released =>
    have hl1 : ((u.wr (s.ctx cid).launch e.place bs).core (cid / 2)).l1 = (u.core (cid / 2)).l1 := State.l1_wr _ _ _ _ _
    have hu : (u.core (cid / 2)).clean := hclean (by
      rw [hw, ((s.beforeStore cid e).noteStored_outside cid e.place e.seq).2.2]
      exact State.beforeStore_clean hr hs)
    unfold Core.clean
    rw [hl1]
    exact hu

end

/-- A release that must wait for an access that failed takes the error instead (R171). -/
theorem headDone_fails {s : State} {cid : Nat} {e : StEnt} (es : List StEnt) (lodge : Bool) (hr : e.isRel = true) {f : EFault} {fs : List EFault}
    (hf : (s.ctx cid).path.fails = f :: fs) : s.headDone cid e es lodge =
      (s.modCtx cid (fun c => { c with path := { c.path with stores := es, fails := fs } })).raiseAt cid f.cause f.detail f.faddr e.pc := by
  have hfirst : s.firstFail cid = some f := by unfold State.firstFail; rw [hf]; rfl
  have hctx : ((s.ctx cid).modPath (fun p => { p with stores := es, fails := p.fails.tail })) =
      { s.ctx cid with path := { (s.ctx cid).path with stores := es, fails := fs } } := by
    unfold Ctx.modPath
    dsimp only
    rw [hf]
    rfl
  unfold State.headDone
  rw [hr, hfirst]
  exact congrArg (fun c => (s.setCtx cid c).raiseAt cid f.cause f.detail f.faddr e.pc) hctx

/-- A store of another device is sent, and stays at the head of its queue (R144, R169). -/
theorem headDone_sends {s : State} {cid : Nat} {e : StEnt} {v : Word} (es : List StEnt) (lodge : Bool) (hk : e.kind = .store v) (hr : e.isRel = false)
    {dev pa key : Nat} (hp : e.place = .remote dev pa key) : s.headDone cid e es lodge =
      (s.send dev key (.store pa (leBytes e.size v.toNat)) ⟨cid, dev, .store, e.va, e.pc, e.seq, 0⟩).modCtx cid
        (fun c => { c with path := { c.path with stores := { e with sent := [s.net.nextReq] } :: es } }) := by
  have hreqs : e.reqs pa = [.store pa (leBytes e.size v.toNat)] := by unfold StEnt.reqs; rw [hk]
  have hdev : e.place.dev? = some (dev, pa, key) := by rw [hp]; rfl
  have hsent : s.sendEnt cid e dev pa key =
      ([s.net.nextReq], s.send dev key (.store pa (leBytes e.size v.toNat)) ⟨cid, dev, .store, e.va, e.pc, e.seq, 0⟩) := by
    unfold State.sendEnt
    rw [hr, hreqs]
    rfl
  unfold State.headDone State.headGo
  rw [hr, hdev]
  dsimp only
  rw [hsent]
  rfl

/-- Settles O25: the head of the queue is performed, takes an error or is sent. -/
theorem storesPerform : Obligations.StoresPerform := by
  unfold Obligations.StoresPerform
  refine ⟨fun s cid e es v lodge hhead hk hes hf hok hhome hfits hc => ?performed,
    fun s cid e es v lodge f fs hhead hk hes hr hf hp => ?fails, fun s cid e es v lodge dev pa key hhead hk hes hr hp => ?sent⟩
  case performed =>
    obtain ⟨hbytes, hothers, hclean⟩ := performHere_stores (cid := cid) hk hok hhome hfits hc lodge
    refine ⟨(s.performHere cid e lodge).setStores cid es, ?_, State.path_setStores _ _ _, fun i hi => ?_, fun hrel hl1 q hq hsame hq' => ?_, hclean⟩
    · rw [hhead.storePerform hk hes, State.headDone_here _ _ _ _ _ hf (Place.dev?_of_near hhome.near)]
    · rw [State.rd1_setStores]; exact hbytes i hi
    · rw [State.rd1_setStores]; exact hothers hrel hl1 q hq hsame hq'
  case fails =>
    refine ⟨_, (hhead.storePerform hk hes lodge).trans (congrArg _ (headDone_fails es lodge hr hf)), raiseOnce_traps _ _ _ ?_⟩
    rw [State.ctx_modCtx_same]
    exact hp
  case sent =>
    rw [hhead.storePerform hk hes, headDone_sends es lodge hk hr hp]

end Sys2Proof.Machine
end

section
/-! PROOF. Loads that take their value (R142-R145, R151, R169, R225, R303). -/

namespace Sys2Proof.Machine

open Sys2Proof

/-! ## Runs of bytes that meet -/

theorem Place.coord_add (p : Place) (n : Nat) : (p.add n).coord = (p.coord.1, p.coord.2.1, p.coord.2.2.1 + n, p.coord.2.2.2) := by
  cases p <;> rfl

theorem Place.meets_iff (p q : Place) (n m : Nat) : p.meets n q m = true ↔ p.coord.1 = q.coord.1 ∧ p.coord.2.1 = q.coord.2.1 ∧
    p.coord.2.2.1 < q.coord.2.2.1 + m ∧ q.coord.2.2.1 < p.coord.2.2.1 + n := by
  simp only [Place.meets, Bool.and_eq_true, beq_iff_eq, decide_eq_true_eq, and_assoc]

/-- A byte of a run meets only what the run meets. -/
theorem Place.meets_of_byte {p q : Place} {n m i : Nat} (hi : i < n) (h : (p.add i).meets 1 q m = true) : p.meets n q m = true := by
  rw [Place.meets_iff, Place.coord_add] at h
  obtain ⟨hl, ho, hlo, hhi⟩ := h
  dsimp only at hl ho hlo hhi
  exact (Place.meets_iff _ _ _ _).mpr ⟨hl, ho, by omega, by omega⟩

theorem Place.byte_misses {p q : Place} {n m i : Nat} (h : p.meets n q m = false) (hi : i < n) : (p.add i).meets 1 q m = false := by
  rw [Bool.eq_false_iff] at h ⊢
  exact fun x => h (Place.meets_of_byte hi x)

/-- A run meets each of its own bytes. -/
theorem Place.byte_meets_self (p : Place) {n i : Nat} (hi : i < n) : (p.add i).meets 1 p n = true := by
  rw [Place.meets_iff, Place.coord_add]
  dsimp only
  exact ⟨rfl, rfl, by omega, by omega⟩

/-! ## Slices of bytes -/

theorem sliceB_eq {bs : List Byte} {lo n : Nat} (h : lo + n ≤ bs.length) : sliceB bs lo n = (bs.drop lo).take n := by
  unfold sliceB
  apply List.ext_getElem?
  intro i
  rw [List.getElem?_map, List.getElem?_take, List.getElem?_drop]
  by_cases hi : i < n
  · rw [List.getElem?_range hi, if_pos hi, Option.map_some, List.getElem?_eq_getElem (by omega)]
    rfl
  · rw [List.getElem?_eq_none (by rw [List.length_range]; omega), if_neg hi]
    rfl

theorem sliceB_all (bs : List Byte) : (List.range bs.length).map (fun i => (bs[i]?).getD 0) = bs := by
  have h := sliceB_eq (bs := bs) (lo := 0) (n := bs.length) (by omega)
  rw [List.drop_zero, List.take_length] at h
  unfold sliceB at h
  simpa only [Nat.zero_add] using h

theorem pos_of_size {n : Nat} (h : n ∈ [1, 2, 4, 8]) : 0 < n := by fin_cases h <;> decide

/-! ## Forwarding (R145) -/

/-- Stores that do not meet a byte of the load do not give it. -/
theorem forward_misses {sts : List StEnt} {l : LdEnt} {i : Nat} (hi : i < l.size)
    (h : ∀ e ∈ sts, l.place.meets l.size e.place e.size = false) (b : Byte) : forward sts l i b = b := by
  induction sts generalizing b with
  | nil => rfl
  | cons e sts ih =>
    rw [List.forall_mem_cons] at h
    obtain ⟨he, hs⟩ := h
    have hb := Place.byte_misses he hi
    unfold forward at ih ⊢
    rw [List.foldl_cons, hb, Bool.and_false]
    cases e.kind <;> exact ih hs b

/-- The byte of the latest earlier store that holds it is the load's, whatever stands before that store. -/
theorem forward_of_latest {es fs : List StEnt} {e : StEnt} {l : LdEnt} {v : Word} {i : Nat} (hi : i < l.size) (hk : e.kind = .store v)
    (hseq : e.seq < l.seq) (hp : e.place = l.place) (hn : e.size = l.size) (hfs : ∀ f ∈ fs, l.place.meets l.size f.place f.size = false) (b : Byte) :
    forward (es ++ e :: fs) l i b = byte (v.toNat / 256 ^ i % 256) := by
  have hmeets : (l.place.add i).meets 1 e.place e.size = true := by rw [hp, hn]; exact Place.byte_meets_self _ hi
  have hfind : (List.range e.size).find? (fun j => (e.place.add j).same (l.place.add i)) = some i := by
    rw [List.find?_range_eq_some, hp]
    refine ⟨?_, List.mem_range.mpr (hn ▸ hi), fun j hj => ?_⟩
    · rw [Place.same_add]; exact decide_eq_true rfl
    · rw [Place.same_add, decide_eq_false (by omega)]; rfl
  have hlast := fun b => forward_misses hi hfs b
  unfold forward at hlast ⊢
  rw [List.foldl_append, List.foldl_cons, hlast, hk]
  dsimp only
  rw [hmeets, decide_eq_true hseq, hfind]
  rfl

/-- Every byte of a load of which an earlier store holds them all is forwarded, so that no error of memory reaches it (R225). -/
theorem forwarded_all {es fs : List StEnt} {e : StEnt} {l : LdEnt} {v : Word} (hk : e.kind = .store v)
    (hseq : e.seq < l.seq) (hp : e.place = l.place) (hn : e.size = l.size) : (List.range l.size).all (forwarded (es ++ e :: fs) l) = true := by
  rw [List.all_eq_true]
  intro i hi
  have hmeets : (l.place.add i).meets 1 e.place e.size = true := by rw [hp, hn]; exact Place.byte_meets_self _ (List.mem_range.mp hi)
  unfold forwarded
  rw [List.any_eq_true]
  refine ⟨e, List.mem_append_right _ List.mem_cons_self, ?_⟩
  rw [hk, hmeets, decide_eq_true hseq]
  rfl

/-- A load whose bytes no store of the queue holds has none forwarded. -/
theorem forwarded_none {sts : List StEnt} {l : LdEnt} (h : ∀ e ∈ sts, l.place.meets l.size e.place e.size = false) (hn : 0 < l.size) :
    (List.range l.size).all (forwarded sts l) = false := by
  rw [List.all_eq_false]
  refine ⟨0, List.mem_range.mpr hn, ?_⟩
  unfold forwarded
  rw [Bool.not_eq_true, List.any_eq_false]
  intro e he
  rw [Place.byte_misses (h e he) hn, Bool.and_false, Bool.false_and]
  exact Bool.false_ne_true

/-! ## The load at the head of its queue -/

theorem forwardAll_misses {s : State} {cid : Nat} {l : LdEnt} {bs : List Byte} (hbs : bs.length = l.size)
    (h : ∀ e ∈ (s.ctx cid).path.stores, l.place.meets l.size e.place e.size = false) : s.forwardAll cid l bs = leWord bs := by
  unfold State.forwardAll
  rw [List.map_congr_left (fun i hi => forward_misses (List.mem_range.mp hi) h _), ← hbs, sliceB_all]

theorem forwardAll_latest {s : State} {cid : Nat} {l : LdEnt} {es fs : List StEnt} {e : StEnt} {v : Word}
    (hq : (s.ctx cid).path.stores = es ++ e :: fs) (hk : e.kind = .store v) (hseq : e.seq < l.seq) (hp : e.place = l.place) (hn : e.size = l.size)
    (hfs : ∀ f ∈ fs, l.place.meets l.size f.place f.size = false) (bs : List Byte) :
    s.forwardAll cid l bs = leWord (leBytes l.size v.toNat) := by
  have hbytes : leBytes l.size v.toNat = (List.range l.size).map (fun i => byte (v.toNat / 256 ^ i % 256)) := by
    apply List.ext_getElem?
    intro i
    by_cases hi : i < l.size
    · rw [leBytes_get _ _ _ hi, List.getElem?_map, List.getElem?_range hi]
      rfl
    · rw [List.getElem?_eq_none (by rw [leBytes_length]; omega), List.getElem?_eq_none (by rw [List.length_map, List.length_range]; omega)]
  unfold State.forwardAll
  rw [hq, hbytes]
  exact congrArg leWord (List.map_congr_left (fun i hi => forward_of_latest (List.mem_range.mp hi) hk hseq hp hn hfs _))

/-- A value of the load's size reaches its register, and the load leaves the queue (R103, R151, R303). -/
theorem loadDone_eq (s : State) (cid : Nat) {l : LdEnt} {bs : List Byte} (hbs : bs.length = l.size) (hn : l.size ∈ [1, 2, 4, 8]) :
    s.loadDone cid l (leWord bs) = s.loadedFrom cid l bs := by
  have hgot : ∀ q : Scalar, (if l.rd = 0 then q else q.arrive s.clk l.rd (loaded l.sx bs)) = q.got s.clk l.rd (loaded l.sx bs) := fun q => by
    unfold Scalar.got
    split
    · rfl
    · rename_i h; exact arrive_eq _ _ _ _ h
  unfold State.loadDone State.loadedFrom
  rw [extend_loaded l.sx l.size bs hbs hn]
  unfold Ctx.modSc Ctx.modPath
  simp only [hgot]
  unfold State.acquire
  by_cases ho : l.ord = .acq <;> by_cases hs : l.scope = .core <;> simp [ho, hs]

section
variable {s : State} {cid : Nat} {l : LdEnt} {ls : List LdEnt} (hq : (s.ctx cid).path.loads = l :: ls)
include hq

theorem exec_loadReturn_near (hb : loadBlocked (s.ctx cid).path.stores l = false) (hnear : l.place.isRemote = false) (hit alloc : Bool) :
    exec (.loadReturn cid hit alloc) s = .next (s.loadHere cid l hit alloc) := by
  show execLoadReturn cid hit alloc s = _
  unfold execLoadReturn
  rw [hq]
  dsimp only
  rw [hb, Place.dev?_of_near hnear]
  rfl

theorem exec_loadReturn_blocked (hb : loadBlocked (s.ctx cid).path.stores l = true) (hit alloc : Bool) :
    exec (.loadReturn cid hit alloc) s = .next s := by
  show execLoadReturn cid hit alloc s = _
  unfold execLoadReturn
  rw [hq]
  dsimp only
  rw [hb]
  rfl

theorem exec_loadReturn_asks (hb : loadBlocked (s.ctx cid).path.stores l = false) {dev pa key : Nat} (hp : l.place = .remote dev pa key)
    (hr : l.req = none) (hit alloc : Bool) :
    exec (.loadReturn cid hit alloc) s = .next ((s.send dev key (.load pa l.size) ⟨cid, dev, .load, l.va, l.pc, l.seq, 0⟩).modCtx cid
      (fun c => { c with path := { c.path with loads := { l with req := some s.net.nextReq } :: ls } })) := by
  have hdev : l.place.dev? = some (dev, pa, key) := by rw [hp]; rfl
  show execLoadReturn cid hit alloc s = _
  unfold execLoadReturn
  rw [hq]
  dsimp only
  rw [hb, hdev, hr]
  rfl

end

theorem loadBlocked_misses {sts : List StEnt} {l : LdEnt} (h : ∀ e ∈ sts, e.seq < l.seq → l.place.meets l.size e.place e.size = false) :
    loadBlocked sts l = false := by
  unfold loadBlocked
  rw [List.any_eq_false]
  intro e he
  by_cases hseq : e.seq < l.seq
  · rw [h e he hseq, Bool.and_false, Bool.false_and]
    exact Bool.false_ne_true
  · rw [decide_eq_false hseq, Bool.false_and, Bool.false_and]
    exact Bool.false_ne_true

/-- Stores of the own device do not block a load: it takes their bytes (R145). -/
theorem loadBlocked_stores {sts : List StEnt} {l : LdEnt} (hnear : l.place.isRemote = false)
    (h : ∀ e ∈ sts, l.place.meets l.size e.place e.size = true → ∃ w, e.kind = .store w) : loadBlocked sts l = false := by
  unfold loadBlocked
  rw [List.any_eq_false]
  intro e he
  cases hm : l.place.meets l.size e.place e.size with
  | false =>
    rw [Bool.and_false, Bool.false_and]
    exact Bool.false_ne_true
  | true =>
    obtain ⟨w, hw⟩ := h e he hm
    rw [hw, hnear, Bool.and_false]
    exact Bool.false_ne_true

/-- A load of another device waits for every earlier store of its bytes (R142, R169). -/
theorem loadBlocked_remote {sts : List StEnt} {l : LdEnt} (hfar : l.place.isRemote = true)
    (h : ∃ e ∈ sts, e.seq < l.seq ∧ l.place.meets l.size e.place e.size = true) : loadBlocked sts l = true := by
  obtain ⟨e, he, hseq, hm⟩ := h
  unfold loadBlocked
  rw [List.any_eq_true]
  refine ⟨e, he, ?_⟩
  rw [decide_eq_true hseq, hm, hfar]
  cases e.kind <;> rfl

/-! ## Where its bytes are -/

section
variable {s : State} {cid : Nat} {l : LdEnt} {hit : Bool} (hh : hit = true ∨ l.place.pa? = none)
include hh

/-- The L1 copy stays where the load hits, or where the place has none. -/
theorem keeps_line : (if hit then s else s.flushPlace (cid / 2) l.place) = s := by
  rcases hh with rfl | h
  · rfl
  · split
    · rfl
    · unfold State.flushPlace; rw [h]

/-- A load of a place that L1 does not cache reads its home. -/
theorem loadHere_uncached (hc : l.place.cached = false) (alloc : Bool)
    (hok : s.poisoned l.place l.size = false ∨ (List.range l.size).all (forwarded (s.ctx cid).path.stores l) = true) :
    s.loadHere cid l hit alloc = (s.sRead (cid / 2) l.place l.size).loadDone cid l
      (s.forwardAll cid l (s.rd (s.ctx cid).launch l.place l.size)) := by
  have hbad : (s.poisoned l.place l.size && !(List.range l.size).all (forwarded (s.ctx cid).path.stores l)) = false := by
    rcases hok with h | h <;> rw [h]
    · rfl
    · exact Bool.and_false _
  have hl1 : ∀ u : State, u.loadL1 (cid / 2) l.place l.hint alloc = u := fun u => by
    unfold State.loadL1
    split
    · rw [hc]; rfl
    · rfl
  have hbytes : ∀ u : State, u.loadBytes cid l.place l.size true = u.rd (u.ctx cid).launch l.place l.size := fun u => by
    unfold State.loadBytes
    dsimp only
    split
    · rw [hc]; rfl
    · rfl
  unfold State.loadHere
  rw [keeps_line hh]
  dsimp only
  rw [hbad, hc, Bool.false_and, if_neg Bool.false_ne_true, if_neg Bool.false_ne_true, hl1, hbytes, State.rd_sRead, State.ctx_sRead]
  unfold State.forwardAll
  rw [State.ctx_sRead]

theorem loadHere_fails (alloc : Bool) (hp : s.poisoned l.place l.size = true)
    (hf : (List.range l.size).all (forwarded (s.ctx cid).path.stores l) = false) :
    s.loadHere cid l hit alloc = s.loadFail cid l 0x0B l.place.errDetail := by
  unfold State.loadHere
  rw [keeps_line hh]
  dsimp only
  rw [hp, hf]
  rfl

end

/-- A load that hits in L1 takes its bytes there, and marks the line as its hint says (R143, R304). -/
theorem loadHere_hits {s : State} {cid : Nat} {l : LdEnt} {pa key wp : Nat} {line : Line} (hp : l.place = .loc pa key 0 wp)
    (hl : Map.find (s.core (cid / 2)).l1 (pa / 64) = some line) (hok : s.poisoned l.place l.size = false) (hlen : pa % 64 + l.size ≤ line.bytes.length)
    (alloc : Bool) : s.loadHere cid l true alloc = (s.l1Mark (cid / 2) pa (l.hint == .lu)).loadDone cid l
      (s.forwardAll cid l ((line.bytes.drop (pa % 64)).take l.size)) := by
  have hpa : l.place.pa? = some (pa, key) := by rw [hp]; rfl
  have hc : l.place.cached = true := by rw [hp]; rfl
  have hline : s.l1Line (cid / 2) pa = some line := hl
  have hpresent : (true && (s.l1Line (cid / 2) pa).isSome) = true := by rw [hline]; rfl
  have hfill : s.l1Fill (cid / 2) pa key = s := by unfold State.l1Fill; rw [hline]
  have hl1 : s.loadL1 (cid / 2) l.place l.hint alloc = s.l1Mark (cid / 2) pa (l.hint == .lu) := by
    unfold State.loadL1
    rw [hpa]
    dsimp only
    rw [hc, hfill, if_pos rfl, ite_self]
  have hmark : s.l1Mark (cid / 2) pa (l.hint == .lu) = s.modCore (cid / 2) (fun c => { c with l1 := Map.put c.l1 (pa / 64) { line with lu := l.hint == .lu } }) := by
    unfold State.l1Mark; rw [hline]
  have hmarked : (s.l1Mark (cid / 2) pa (l.hint == .lu)).l1Line (cid / 2) pa = some { line with lu := l.hint == .lu } := by
    rw [hmark]
    unfold State.l1Line
    rw [State.core_modCore_same]
    exact Map.find_put_same _ _ _
  have hbytes : (s.l1Mark (cid / 2) pa (l.hint == .lu)).loadBytes cid l.place l.size true = (line.bytes.drop (pa % 64)).take l.size := by
    unfold State.loadBytes
    rw [hpa]
    dsimp only
    rw [hc, hmarked]
    exact sliceB_eq hlen
  unfold State.loadHere
  dsimp only
  rw [if_pos rfl, hok, hc, hpa, Bool.false_and, if_neg Bool.false_ne_true]
  dsimp only
  rw [if_pos hpresent, hl1, hbytes, hmark]
  rfl

/-- A load that meets an error leaves the queue and raises it (R225). -/
theorem loadFail_traps {s : State} {cid : Nat} {l : LdEnt} {ls : List LdEnt} (hq : (s.ctx cid).path.loads = l :: ls)
    (hp : (s.ctx cid).trap.phase = .none) (code detail : Nat) :
    (s.modCtx cid (fun c => { c with path := { c.path with loads := ls }, sc := { c.sc with pend := c.sc.pend.filter (fun r => r != l.rd) } })).Traps
      (s.loadFail cid l code detail) cid true (s.pathFrame code detail l.va l.pc) := by
  have hctx : ((s.ctx cid).modPath (fun p => { p with loads := p.loads.tail })).modSc (fun q => { q with pend := q.pend.filter (fun r => r != l.rd) }) =
      { s.ctx cid with path := { (s.ctx cid).path with loads := ls }, sc := { (s.ctx cid).sc with pend := (s.ctx cid).sc.pend.filter (fun r => r != l.rd) } } := by
    unfold Ctx.modSc Ctx.modPath
    dsimp only
    rw [hq]
    rfl
  have he : s.loadFail cid l code detail = (s.modCtx cid (fun c => { c with path := { c.path with loads := ls }, sc := { c.sc with pend := c.sc.pend.filter (fun r => r != l.rd) } })).raiseOnce cid (s.pathFrame code detail l.va l.pc) :=
    congrArg (fun c => (s.setCtx cid c).raiseAt cid code detail l.va l.pc) hctx
  rw [he]
  refine raiseOnce_traps _ _ _ ?_
  rw [State.ctx_modCtx_same]
  exact hp

/-- Settles O27, by where the load's bytes are. -/
theorem loadsReturn : Obligations.LoadsReturn := by
  unfold Obligations.LoadsReturn
  refine ⟨fun s cid l ls hit alloc hq hmiss hnear hn => ?alone, fun s cid l ls es fs e v hit alloc hq hst hk hseq hp hsz hfs hes hnear hc hh hn => ?forwarded,
    fun s cid l ls hit alloc dev pa key hq hp hr => ⟨fun hmiss => ?asks, fun hblock => ?waits⟩⟩
  case alone =>
    have hgo := fun hit => exec_loadReturn_near hq (loadBlocked_misses (fun e he _ => hmiss e he)) hnear hit alloc
    refine ⟨fun hok hc hh => ?_, fun pa key wp line hok hp hl hlen => ?_, fun hbad hh hph => ?_⟩
    · have hbs := s.rd_length (s.ctx cid).launch l.place l.size
      rw [hgo, loadHere_uncached hh hc alloc (.inl hok), forwardAll_misses hbs hmiss, loadDone_eq _ _ hbs hn]
    · have hbs : ((line.bytes.drop (pa % 64)).take l.size).length = l.size := by
        rw [List.length_take, List.length_drop]; omega
      rw [hgo, loadHere_hits hp hl hok hlen alloc, forwardAll_misses hbs hmiss, loadDone_eq _ _ hbs hn]
    ·       exact ⟨_, (hgo hit).trans (congrArg _ (loadHere_fails hh alloc hbad (forwarded_none hmiss (pos_of_size hn)))), loadFail_traps hq hph _ _⟩
  case forwarded =>
    have hb : loadBlocked (s.ctx cid).path.stores l = false := by
      rw [hst]
      refine loadBlocked_stores hnear (fun f hf hm => ?_)
      rcases List.mem_append.mp hf with hf | hf
      · exact hes f hf hm
      · rcases List.mem_cons.mp hf with rfl | hf
        · exact ⟨v, hk⟩
        · rw [hfs f hf] at hm; cases hm
    have hall : (List.range l.size).all (forwarded (s.ctx cid).path.stores l) = true := by
      rw [hst]; exact forwarded_all hk hseq hp hsz
    rw [exec_loadReturn_near hq hb hnear, loadHere_uncached hh hc alloc (.inr hall), forwardAll_latest hst hk hseq hp hsz hfs,
      loadDone_eq _ _ (leBytes_length _ _) hn]
  case asks => exact exec_loadReturn_asks hq (loadBlocked_misses hmiss) hp hr hit alloc
  case waits => exact exec_loadReturn_blocked hq (loadBlocked_remote (by rw [hp]; rfl) hblock) hit alloc

end Sys2Proof.Machine
end

section
/-! PROOF. .sc accesses: the wait for the slot wheel, the issue and the performance (R151-R153, R165, R166, R307). -/

namespace Sys2Proof.Machine

open Sys2Proof

/-! ## The wait for the wheel (R152, R165) -/

/-- An .sc access that has its place and finds the S path drained is held for the wheel. -/
theorem State.ScReady.waits {s : State} {srcs dsts : List Nat} {ea : Word} {n : Nat} {want : Want} {p : Place}
    (h : s.ScReady srcs dsts ea n want p) (st : Nat) (kind : ScKind) :
    ∃ t, (s.noteXlat s.cur.cid ea).holdSc st kind p ea n = .next t ∧ s.WaitsForWheel t ea st ⟨kind, p, ea, n, s.pc, none⟩ := by
  have hw := noteXlat_walks s ea
  have hpc : (s.noteXlat s.cur.cid ea).pc = s.pc := by unfold State.pc; rw [hw.sca h.main]
  obtain ⟨t, ht, hparks⟩ := holdSc_spec (hw.onMain h.main) (Walks.drained hw h.drained) st kind p ea n
  rw [hpc, myCore_of hw.cur] at hparks
  exact ⟨t, ht, hparks⟩

section
variable {s : State} {srcs dsts : List Nat} {ea : Word} {n : Nat} {p : Place}

theorem loadOp_sc {o : LoadOp} (ho : o.ord = .sc) (h : s.ScReady srcs [o.rt] ea o.z.bytes .scLoad p) :
    s.loadOp o srcs ea = (s.noteXlat s.cur.cid ea).holdSc o.st (.load o.rt o.sx) p ea o.z.bytes := by
  have hagent : (s.noteXlat s.cur.cid ea).cur.agent ≠ .helper := by
    rw [(noteXlat_walks s ea).onMain h.main]; decide
  have hnear : ¬ p.isRemote = true := by rw [h.near]; exact Bool.false_ne_true
  rw [← size_eq] at h ⊢
  unfold State.loadOp
  rw [h.ready.issueVar h.here, if_pos ho, access_ok h.main h.aligned h.place]
  dsimp only
  rw [if_neg hagent, if_pos ho, if_neg hnear]

theorem storeOp_sc {o : StoreOp} (ho : o.ord = .sc) (h : s.ScReady srcs [] ea o.z.bytes .scStore p) :
    s.storeOp o srcs ea = (s.noteXlat s.cur.cid ea).holdSc o.st (.store (word (o.v.toNat % 256 ^ o.z.bytes))) p ea o.z.bytes := by
  have hagent : s.cur.agent ≠ .helper := by rw [h.main]; decide
  have hnear : ¬ p.isRemote = true := by rw [h.near]; exact Bool.false_ne_true
  rw [← zext_eq, ← size_eq] at *
  unfold State.storeOp State.notHelperSt
  rw [if_neg hagent, h.ready.issue, if_pos ho, access_ok h.main h.aligned h.place]
  dsimp only
  rw [if_pos ho, if_neg hnear]

theorem atomicOp_sc {od : Ord} (ho : od = .sc) (h : s.ScReady srcs dsts ea n .scAtomic p) (scp : Scope) (st : Nat) (kind : ScKind)
    (remote : Nat → Nat → Nat → State → State) (here : Place → State → State) :
    s.atomicOp .scAtomic srcs dsts ea n od scp st kind remote here = (s.noteXlat s.cur.cid ea).holdSc st kind p ea n := by
  have hnear : ¬ p.isRemote = true := by rw [h.near]; exact Bool.false_ne_true
  unfold State.atomicOp
  rw [mainOnly_main h.main, h.ready.issueVar h.here, access_ok h.main h.aligned h.place]
  dsimp only
  rw [if_pos ho, if_neg hnear]

theorem waita_sc {o : WaitaF} (ho : o.ord = .sc) (h : s.ScReady [o.ra, o.rb, o.rt] [o.rt] (s.based o.ra o.off) o.size.bytes .scLoad p) :
    exec (.waita o) s = (s.noteXlat s.cur.cid (s.based o.ra o.off)).holdSc o.st
      (.waita o.rt o.sx (word ((s.r o.rb).toNat % 256 ^ o.size.bytes)) (if s.r o.rt = 0 then 0 else s.clk + (s.r o.rt).toNat) false)
      p (s.based o.ra o.off) o.size.bytes := by
  have hw := noteXlat_walks s (s.based o.ra o.off)
  have hreg : ∀ r, (s.noteXlat s.cur.cid (s.based o.ra o.off)).r r = s.r r := Readies.reg hw.readies h.main
  have hnear : ¬ p.isRemote = true := by rw [h.near]; exact Bool.false_ne_true
  rw [← zext_eq, ← size_eq] at *
  show execWaita o s = _
  unfold execWaita State.eaOff20
  dsimp only
  rw [mainOnly_main h.main, h.ready.issueVar h.here, based_eq s o.ra o.off (by decide), if_pos ho, access_ok h.main h.aligned h.place,
    if_pos ho, if_neg hnear, hreg, hreg, hw.clk]

end

/-! ## The issue at the core's position (R165) -/

theorem wheelTurn_iff (s : State) : s.wheelTurn s.cur.cid = true ↔ s.TakesWheel := by
  unfold State.wheelTurn State.TakesWheel State.myCore
  cases (s.core (s.cur.cid / 2)).lastWheel with
  | none => cases (s.holder (otherCtx s.cur.cid) scWaiting).isSome <;> simp
  | some x =>
    obtain ⟨t, c⟩ := x
    cases (s.holder (otherCtx s.cur.cid) scWaiting).isSome <;> simp

section
variable {s : State} {a : ScAcc} (hm : s.OnMain) (hh : s.sca.hold = .sc a)
include hm hh

theorem exec_scWheelIssue (hi : a.issued = none) : exec .scWheelIssue s = if s.wheelTurn s.cur.cid = true
    then .next ((s.setSca { s.sca with hold := .sc { a with issued := some s.clk } }).modCore s.myCore
      (fun k => { k with lastWheel := some (s.clk, s.cur.cid % 2) }))
    else .next s := by
  have hwait : scWaiting s.sca.hold = true := by rw [hh]; show a.issued.isNone = true; rw [hi]; rfl
  have hacc : s.scAcc = some a := by unfold State.scAcc; rw [hh]; rfl
  show execScWheelIssue s = _
  unfold execScWheelIssue
  dsimp only
  rw [holder_S hm hwait]
  dsimp only
  rw [at_main hm, hacc]
  rfl

theorem exec_scPerform {c : Nat} (hi : a.issued = some c) (hc : s.clk = c + 96) : exec .scPerform s = .next (s.scDo a) := by
  have hmine : (match holdSc? s.sca.hold with | some a => a.issued.any (fun t => s.clk == t + 96) | none => false) = true := by
    rw [hh]
    show a.issued.any (fun t => s.clk == t + 96) = true
    rw [hi, hc]
    exact beq_self_eq_true _
  have hacc : s.scAcc = some a := by unfold State.scAcc; rw [hh]; rfl
  show execScPerform s = _
  unfold execScPerform
  dsimp only
  rw [holder_S hm hmine]
  dsimp only
  rw [at_main hm, hacc]

end

/-! ## The performance 96 clk later (R166) -/

theorem State.cur_storeHome (s : State) (cid : Nat) (p : Place) (bs : List Byte) : (s.storeHome cid p bs).cur = s.cur := by
  unfold State.storeHome
  cases p with
  | loc pa key cl wp =>
    dsimp only
    split
    · exact (cur_wr _ _ _ _).trans (State.l1Put_moves _ _ _ _ _).cur
    · exact (cur_wr _ _ _ _).trans (State.dropLine_moves _ _ _).cur
  | remote => rfl
  | _ => exact cur_wr _ _ _ _

theorem State.cur_resVar (s : State) (rd : Nat) (v : Word) : (s.resVar rd v).cur = s.cur := by rw [State.resVar_eq, State.cur_setSca]

/-- L1 is written back and emptied, and S goes on (R151, R153). -/
theorem wbInv_go_ends {v : State} (hm : v.OnMain) (k : Nat) : (v.wbInv k).EndsFree (v.wbInv k).go :=
  State.go_endsFree (State.hasAgent_main ((State.wbInv_moves v k).1.onMain hm))

section
variable {s : State} {a : ScAcc}

/-- An access that reads its place raises the data error where that is in error (R225). -/
theorem scDo_bad (hr : ∀ v, a.kind ≠ .store v) (hp : (s.flushPlace s.myCore a.place).poisoned a.place a.size = true) :
    s.scDo a = (s.flushPlace s.myCore a.place).unhold.trapAs true 0x0B a.place.errDetail a.va := by
  have hreads : a.kind.reads = true := by
    cases h : a.kind with
    | store v => exact absurd h (hr v)
    | _ => rfl
  unfold State.scDo
  dsimp only
  rw [hreads, hp]
  rfl

theorem scDo_store {v : Word} (hk : a.kind = .store v) :
    s.scDo a = (((s.flushPlace s.myCore a.place).storeHome s.cur.cid a.place (leBytes a.size v.toNat)).wbInv s.myCore).go := by
  unfold State.scDo
  rw [hk]
  rfl

end

section
variable {s : State} {a : ScAcc} (hp : (s.flushPlace s.myCore a.place).poisoned a.place a.size = false)
include hp

/-! ### Where no unit of its place is in error -/

theorem scDo_load {rd : Nat} {sx : Bool} (hk : a.kind = .load rd sx) : s.scDo a =
    let u := s.flushPlace s.myCore a.place
    (((u.sRead u.myCore a.place a.size).resVar rd (extend sx a.size (leWord (u.rd (u.ctx s.cur.cid).launch a.place a.size)))).wbInv s.myCore).go := by
  unfold State.scDo
  dsimp only
  rw [hp, Bool.and_false, if_neg Bool.false_ne_true, hk]
  rfl

theorem scDo_amo {op : AmoOp} {rt : Nat} {b : Word} (hk : a.kind = .amo op rt b) : s.scDo a =
    let r := (s.flushPlace s.myCore a.place).amoAt s.cur.cid a.place a.size op b
    ((r.2.resVar rt (extend true a.size r.1)).wbInv s.myCore).go := by
  unfold State.scDo
  dsimp only
  rw [hp, Bool.and_false, if_neg Bool.false_ne_true, hk]
  rfl

theorem scDo_cas {rt : Nat} {e b : Word} (hk : a.kind = .cas rt e b) : s.scDo a =
    let r := (s.flushPlace s.myCore a.place).casAt s.cur.cid a.place a.size e b
    ((r.2.resVar rt (extend true a.size r.1)).wbInv s.myCore).go := by
  unfold State.scDo
  dsimp only
  rw [hp, Bool.and_false, if_neg Bool.false_ne_true, hk]
  rfl

theorem scDo_vamo {op : AmoOp} {rt rb : Nat} {wide : Bool} {bs : List Word} (hk : a.kind = .vamo op rt rb wide bs) : s.scDo a =
    let r := (s.flushPlace s.myCore a.place).vamoAll s.cur.cid a.place wide op bs
    ((r.2.res4 rt r.1).wbInv s.myCore).go := by
  unfold State.scDo
  dsimp only
  rw [hp, Bool.and_false, if_neg Bool.false_ne_true, hk]
  rfl

theorem scDo_waita {rt dl : Nat} {sx second : Bool} {e : Word} (hk : a.kind = .waita rt sx e dl second) : s.scDo a =
    let u := s.flushPlace s.myCore a.place
    (u.sRead u.myCore a.place a.size).waitaGot ⟨rt, a.size, sx, .sc, .dev, a.place, a.va, dl, false, a.pc⟩ e (if dl = 0 then 0 else 1) second
      (leWord (u.rd (u.ctx s.cur.cid).launch a.place a.size)) := by
  unfold State.scDo
  dsimp only
  rw [hp, Bool.and_false, if_neg Bool.false_ne_true, hk]

end

/-! ### Elements of 4 and 8 bytes (R310, R311) -/

/-- The width of an element by its bytes. -/
def widthOf (n : Nat) : Width := if n = 8 then .d else .w

theorem widthOf_atom (wide : Bool) : widthOf ((atomWidth wide).bits / 8) = atomWidth wide := by cases wide <;> rfl

theorem atom_of_size {n : Nat} (hn : n = 4 ∨ n = 8) : ∃ wide, n = (atomWidth wide).bits / 8 := by
  rcases hn with rfl | rfl
  · exact ⟨false, rfl⟩
  · exact ⟨true, rfl⟩

theorem extend_widthOf {n : Nat} (hn : n = 4 ∨ n = 8) (v : Word) : extend true n v = (widthOf n).low v := by
  obtain ⟨wide, rfl⟩ := atom_of_size hn
  rw [widthOf_atom, ← bytes_eq, extend_low]

section
variable (u : State) (cid : Nat) (p : Place) {n : Nat} (hn : n = 4 ∨ n = 8)
include hn

theorem amoAt_sized (op : AmoOp) (b : Word) :
    let old := leWord (u.rd (u.ctx cid).launch p n)
    u.amoAt cid p n op b = (old, (u.sRead (cid / 2) p n).wr (u.ctx cid).launch p (leBytes n (op.result (widthOf n) old b).toNat)) := by
  obtain ⟨wide, rfl⟩ := atom_of_size hn
  rw [widthOf_atom, State.amoAt_eq, State.rd_sRead]

theorem casAt_sized (e b : Word) :
    let old := leWord (u.rd (u.ctx cid).launch p n)
    u.casAt cid p n e b = (old, if (widthOf n).uns old = (widthOf n).uns e
      then (u.sRead (cid / 2) p n).wr (u.ctx cid).launch p (leBytes n b.toNat) else u.sRead (cid / 2) p n) := by
  obtain ⟨wide, rfl⟩ := atom_of_size hn
  rw [widthOf_atom, State.casAt_eq, State.rd_sRead]

end

/-- A read of an .sc waita holds S where its first read is the expected value and its timeout is not 0, and else gives its value (R307). -/
theorem waitaGot_sc {x : State} (hm : x.OnMain) {w : WaitaSt} (ho : w.ord = .sc) (hs : w.scope = .dev) (e tmo v : Word) (second : Bool) :
    (second = false → v = e → tmo ≠ 0 → (x.wbInv x.myCore).Holds (x.waitaGot w e tmo second v) (.waita w)) ∧
    (second = true ∨ v ≠ e ∨ tmo = 0 → (x.wbInv x.myCore).EndsWith (x.waitaGot w e tmo second v) w.rt (extend w.sx w.size v)) := by
  have hy : (x.wbInv x.myCore).HasAgent := State.hasAgent_main ((State.wbInv_moves x _).1.onMain hm)
  have he : x.waitaGot w e tmo second v = if (!second && v == e && tmo != 0) = true
      then (x.wbInv x.myCore).setSca { (x.wbInv x.myCore).sca with hold := .waita w }
      else ((x.wbInv x.myCore).resVar w.rt (extend w.sx w.size v)).go := by
    unfold State.waitaGot
    rw [ho, hs]
    rfl
  have htest : (!second && v == e && tmo != 0) = true ↔ second = false ∧ v = e ∧ tmo ≠ 0 := by simp [and_assoc]
  rw [he]
  refine ⟨fun h1 h2 h3 => ?_, fun h => ?_⟩
  · rw [if_pos (htest.mpr ⟨h1, h2, h3⟩)]
    exact Holds.set hy _
  · rw [if_neg (fun hc => ?_)]
    · exact State.resVar_go_ends hy _ _
    · obtain ⟨h1, h2, h3⟩ := htest.mp hc
      rcases h with h | h | h
      · rw [h1] at h; cases h
      · exact h h2
      · exact h3 h

section
variable {s : State} {a : ScAcc} (hm : s.OnMain)
include hm

/-- What an access sees once its line has left L1: its stream, its context, its launch. -/
theorem flushPlace_facts (p : Place) : (s.flushPlace s.myCore p).OnMain ∧ (s.flushPlace s.myCore p).cur = s.cur ∧
    (s.flushPlace s.myCore p).myCore = s.myCore ∧ ((s.flushPlace s.myCore p).ctx s.cur.cid).launch = s.me.launch := by
  have h := s.flushPlace_moves s.myCore p
  exact ⟨h.onMain hm, h.cur, myCore_of h.cur, h.launch s.cur.cid⟩

/-- A value goes to rt, L1 is emptied, and S goes on. -/
theorem value_ends {v : State} (hv : v.cur = s.cur) (rt : Nat) (w : Word) :
    ((v.resVar rt w).wbInv s.myCore).EndsFree ((v.resVar rt w).wbInv s.myCore).go :=
  wbInv_go_ends (onMain_of_cur ((State.cur_resVar _ _ _).trans hv) hm) _

theorem scDo_store_ends {v : Word} (hk : a.kind = .store v) :
    (((s.flushPlace s.myCore a.place).storeHome s.cur.cid a.place (leBytes a.size v.toNat)).wbInv s.myCore).EndsFree (s.scDo a) := by
  obtain ⟨-, hcur, -, -⟩ := flushPlace_facts hm a.place
  rw [scDo_store hk]
  exact wbInv_go_ends (onMain_of_cur ((State.cur_storeHome _ _ _ _).trans hcur) hm) _

theorem scDo_traps (hr : ∀ v, a.kind ≠ .store v) (hp : (s.flushPlace s.myCore a.place).poisoned a.place a.size = true)
    (hph : s.me.trap.phase = .none) :
    ∃ v, (s.flushPlace s.myCore a.place).Holds v .none ∧ v.TrapsOnce (s.scDo a) 0x0B a.place.errDetail a.va := by
  obtain ⟨hum, hcur, -, -⟩ := flushPlace_facts hm a.place
  have hholds := Holds.set (State.hasAgent_main hum) .none
  have hkeeps : (s.flushPlace s.myCore a.place).Keeps (s.flushPlace s.myCore a.place).unhold := State.setSca_frame _ _
  have htrap : (s.flushPlace s.myCore a.place).me.trap = s.me.trap := by
    unfold State.me
    rw [hcur]
    exact Readies.phase (s.flushPlace_moves s.myCore a.place).readies
  refine ⟨_, hholds, ?_⟩
  rw [scDo_bad hr hp]
  refine trapAs_traps (onMain_of_cur hkeeps.cur hum) ?_ _ _ _
  rw [trap_keeps hkeeps hum, htrap, hph]

section
variable (hp : (s.flushPlace s.myCore a.place).poisoned a.place a.size = false)
include hp

theorem scDo_load_ends {rd : Nat} {sx : Bool} (hk : a.kind = .load rd sx) (hn : a.size ∈ [1, 2, 4, 8]) :
    let u := s.flushPlace s.myCore a.place
    (((u.sRead s.myCore a.place a.size).resVar rd (loaded sx (u.rd s.me.launch a.place a.size))).wbInv s.myCore).EndsFree (s.scDo a) := by
  intro u
  obtain ⟨-, hcur, hcore, hl⟩ := flushPlace_facts hm a.place
  rw [scDo_load hp hk]
  dsimp only
  rw [hcore, hl, extend_loaded _ _ _ (State.rd_length _ _ _ _) hn]
  exact value_ends hm ((State.cur_sRead _ _ _ _).trans hcur) _ _

theorem scDo_amo_ends {op : AmoOp} {rt : Nat} {b : Word} (hk : a.kind = .amo op rt b) (hn : a.size = 4 ∨ a.size = 8) :
    let u := s.flushPlace s.myCore a.place
    let old := leWord (u.rd s.me.launch a.place a.size)
    ((((u.sRead s.myCore a.place a.size).wr s.me.launch a.place (leBytes a.size (op.result (widthOf a.size) old b).toNat)).resVar rt
      ((widthOf a.size).low old)).wbInv s.myCore).EndsFree (s.scDo a) := by
  intro u old
  obtain ⟨-, hcur, -, hl⟩ := flushPlace_facts hm a.place
  rw [scDo_amo hp hk, amoAt_sized _ _ _ hn]
  dsimp only
  rw [hl, extend_widthOf hn]
  exact value_ends hm ((cur_wr _ _ _ _).trans ((State.cur_sRead _ _ _ _).trans hcur)) _ _

theorem scDo_cas_ends {rt : Nat} {e b : Word} (hk : a.kind = .cas rt e b) (hn : a.size = 4 ∨ a.size = 8) :
    let u := s.flushPlace s.myCore a.place
    let x := u.sRead s.myCore a.place a.size
    let old := leWord (u.rd s.me.launch a.place a.size)
    (((if (widthOf a.size).uns old = (widthOf a.size).uns e then x.wr s.me.launch a.place (leBytes a.size b.toNat) else x).resVar rt
      ((widthOf a.size).low old)).wbInv s.myCore).EndsFree (s.scDo a) := by
  intro u x old
  obtain ⟨-, hcur, -, hl⟩ := flushPlace_facts hm a.place
  have hx : x.cur = s.cur := (State.cur_sRead _ _ _ _).trans hcur
  rw [scDo_cas hp hk, casAt_sized _ _ _ hn]
  dsimp only
  rw [hl, extend_widthOf hn]
  refine value_ends hm ?_ _ _
  split
  · exact (cur_wr _ _ _ _).trans hx
  · exact hx

theorem scDo_vamo_ends {op : AmoOp} {rt rb : Nat} {wide : Bool} {bs : List Word} (hk : a.kind = .vamo op rt rb wide bs) :
    let r := (s.flushPlace s.myCore a.place).vamoAll s.cur.cid a.place wide op bs
    ((r.2.res4 rt r.1).wbInv s.myCore).EndsFree (s.scDo a) := by
  intro r
  obtain ⟨-, hcur, -, -⟩ := flushPlace_facts hm a.place
  rw [scDo_vamo hp hk]
  exact wbInv_go_ends (onMain_of_cur ((State.cur_res4 _ _ _).trans ((State.cur_vamoAll _ _ _ _ _ _).trans hcur)) hm) _

theorem scDo_waita_ends {rt dl : Nat} {sx second : Bool} {e : Word} (hk : a.kind = .waita rt sx e dl second) (hn : a.size ∈ [1, 2, 4, 8]) :
    let u := s.flushPlace s.myCore a.place
    let x := u.sRead s.myCore a.place a.size
    let bs := u.rd s.me.launch a.place a.size
    (second = false → leWord bs = e → dl ≠ 0 →
      (x.wbInv s.myCore).Holds (s.scDo a) (.waita ⟨rt, a.size, sx, .sc, .dev, a.place, a.va, dl, false, a.pc⟩)) ∧
    (second = true ∨ leWord bs ≠ e ∨ dl = 0 → (x.wbInv s.myCore).EndsWith (s.scDo a) rt (loaded sx bs)) := by
  intro u x bs
  obtain ⟨-, hcur, hcore, hl⟩ := flushPlace_facts hm a.place
  have hx : x.cur = s.cur := (State.cur_sRead _ _ _ _).trans hcur
  have htmo : (if dl = 0 then 0 else 1 : Word) = 0 ↔ dl = 0 := by split <;> simp_all
  have hval : extend sx a.size (leWord bs) = loaded sx bs := extend_loaded _ _ _ (State.rd_length _ _ _ _) hn
  have hgot := waitaGot_sc (onMain_of_cur hx hm) (w := ⟨rt, a.size, sx, .sc, .dev, a.place, a.va, dl, false, a.pc⟩) rfl rfl e
    (if dl = 0 then 0 else 1) (leWord bs) second
  rw [scDo_waita hp hk]
  dsimp only
  rw [hcore, hl]
  rw [myCore_of hx, ne_eq, htmo, hval] at hgot
  exact hgot

end

end

/-- Settles O32: the wait by what `holdSc` leaves, the issue by the wheel's turn, the performance by the access's kind. -/
theorem slotWheel : Obligations.SlotWheel := by
  unfold Obligations.SlotWheel
  refine ⟨fun s p => ⟨fun o ho h => ?ld, fun o ho h => ?ldx, fun o ho h => ?st, fun o ho h => ?stx, fun o ho h => ?amo, fun o ho h => ?cas,
    fun o ho h => ?vamo, fun o ho h => ?waita⟩, fun s a hm hh hi => ?issue, fun s a c hm hh hi hc => ?perform⟩
  case ld =>
    have he : exec (.ld o) s = s.loadOp ⟨o.st, o.rt, o.size, o.ord, o.scope, o.sx, o.hint⟩ [o.ra] (s.based o.ra o.off) := by
      rw [← based_eq s o.ra o.off (by decide)]; rfl
    rw [he, loadOp_sc ho h]
    exact h.waits _ _
  case ldx =>
    rw [show exec (.ldx o) s = s.loadOp ⟨o.st, o.rt, o.size, o.ord, o.scope, o.sx, o.hint⟩ [o.ra, o.rb] (s.r o.ra + s.r o.rb) from rfl, loadOp_sc ho h]
    exact h.waits _ _
  case st =>
    have he : exec (.st o) s = s.storeOp ⟨o.st, s.r o.rt, o.size, o.ord, o.scope, o.hint⟩ [o.ra, o.rt] (s.based o.ra o.off) := by
      rw [← based_eq s o.ra o.off (by decide)]; rfl
    rw [he, storeOp_sc ho h]
    exact h.waits _ _
  case stx =>
    rw [show exec (.stx o) s = s.storeOp ⟨o.st, s.r o.rt, o.size, o.ord, o.scope, o.hint⟩ [o.ra, o.rb, o.rt] (s.r o.ra + s.r o.rb) from rfl, storeOp_sc ho h]
    exact h.waits _ _
  case amo =>
    have he := show exec (.amo o) s = execAmo o s from rfl
    unfold execAmo State.eaOff14 at he
    dsimp only at he
    rw [he, bytes_eq, based_eq s o.ra o.off (by decide), if_pos ho, atomicOp_sc ho h]
    exact h.waits _ _
  case cas =>
    have he := show exec (.cas o) s = execCas o s from rfl
    unfold execCas State.eaOff14 at he
    dsimp only at he
    rw [he, bytes_eq, based_eq s o.ra o.off (by decide), if_pos ho, atomicOp_sc ho h]
    exact h.waits _ _
  case vamo =>
    have he := show exec (.vamo o) s = execVamo o s from rfl
    unfold execVamo State.eaOff14 at he
    dsimp only at he
    rw [he, based_eq s o.ra o.off (by decide), if_pos ho]
    obtain ⟨t, ht, hw⟩ := h.waits o.st (.vamo o.op o.rt o.rb o.wide [s.r o.rb, s.r (o.rb + 1), s.r (o.rb + 2), s.r (o.rb + 3)])
    exact ⟨t, (atomicOp_sc ho h _ _ _ _ _).trans ht, hw⟩
  case waita =>
    rw [waita_sc ho h]
    exact h.waits _ _
  case issue =>
    rw [exec_scWheelIssue hm hh hi]
    refine ⟨fun ht => ?_, fun ht => if_neg (fun x => ht ((wheelTurn_iff s).mp x))⟩
    exact ⟨_, _, if_pos ((wheelTurn_iff s).mpr ht), Holds.set (State.hasAgent_main hm) _, rfl⟩
  case perform =>
    have hdo := exec_scPerform hm hh hi hc
    refine ⟨fun v hk => ⟨_, hdo, scDo_store_ends hm hk⟩, fun hp hr hph => ?_, fun hp => ⟨?_, ?_, ?_, ?_, ?_⟩⟩
    · obtain ⟨v, hv, ht⟩ := scDo_traps hm hr hp hph
      exact ⟨_, v, hdo, hv, ht⟩
    · exact fun rd sx hk hn => ⟨_, hdo, scDo_load_ends hm hp hk hn⟩
    · exact fun op rt b hk hn => ⟨_, hdo, scDo_amo_ends hm hp hk hn⟩
    · exact fun rt e n hk hn => ⟨_, hdo, scDo_cas_ends hm hp hk hn⟩
    · exact fun op rt rb wide vs hk => ⟨_, hdo, scDo_vamo_ends hm hp hk⟩
    · exact fun rt sx e dl second hk hn => ⟨_, hdo, scDo_waita_ends hm hp hk hn⟩

end Sys2Proof.Machine
end

section
/-! PROOF. What the semaphore instructions take, set, read and add (R177, R325, R326). -/

namespace Sys2Proof.Machine

open Sys2Proof

/-- An issue of S leaves its context's semaphores. -/
theorem semOf_keeps {v w : State} (h : v.Keeps w) (hm : v.OnMain) (n : Nat) : w.semOf v.cur.cid n = v.semOf v.cur.cid n := by
  have hrest := h.mine
  rw [hm] at hrest
  have hsems : (w.me.restFor .S).sems = (v.me.restFor .S).sems := congrArg Ctx.sems hrest
  unfold State.me at hsems
  rw [h.cur] at hsems
  exact congrArg (fun m => Map.getD m n .fresh) hsems

theorem ctx_trap_keeps {v w : State} (h : v.Keeps w) (hm : v.OnMain) : (w.ctx v.cur.cid).trap = v.me.trap := by
  rw [← trap_keeps h hm]
  unfold State.me
  rw [h.cur]

theorem signal_low {s : State} {cid n k : Nat} (h : (s.semOf cid n).count + k ≤ 65535) (eng : Nat) (iw fpc : Word) :
    s.signal cid n k 0 0 eng iw fpc =
      s.setSem cid n ⟨(s.semOf cid n).count + k, (s.semOf cid n).status &&& ~~~ 0x8000 ||| 1, (s.semOf cid n).vis⟩ := by
  unfold State.signal
  rw [Sem.signal_low h]
  rfl

theorem signal_high {s : State} {cid n k : Nat} (h : 65535 < (s.semOf cid n).count + k) (eng : Nat) (iw fpc : Word) :
    s.signal cid n k 0 0 eng iw fpc =
      (s.setSem cid n ⟨65535, (s.semOf cid n).status &&& ~~~ 0x8000 ||| 1 ||| 0x2000, (s.semOf cid n).vis⟩).raiseOnce cid
        (.of 0x0C n eng 0 iw fpc) := by
  unfold State.signal
  rw [Sem.signal_high h]
  rfl

theorem trap_setSem (s : State) (cid n : Nat) (m : Sem) : ((s.setSem cid n m).ctx cid).trap = (s.ctx cid).trap := by
  unfold State.setSem
  rw [State.ctx_modCtx_same]

section
variable {s : State} (hm : s.OnMain)
include hm

theorem exec_semw_waits {o : SemN} (h : (s.semOf s.cur.cid o.sem).count < o.n.toNat) : exec (.semw o) s = .next s :=
  (mainOnly_main hm _).trans (if_pos h)

theorem exec_semw_takes {o : SemN} (h : o.n.toNat ≤ (s.semOf s.cur.cid o.sem).count) :
    let m := s.semOf s.cur.cid o.sem
    let u := s.setSem s.cur.cid o.sem (m.take o.n.toNat).1
    exec (.semw o) s = .next ((if m.vis.getLsbD 0 = true then u.wbInv s.myCore else u).adv o.st) := by
  intro m u
  rw [← inSet_eq]
  exact (mainOnly_main hm _).trans (if_neg (Nat.not_lt.mpr h))

theorem exec_sems (o : SemN) :
    exec (.sems o) s = .next ((s.adv o.st).signal s.cur.cid o.sem o.n.toNat 0 0 0 s.curWord s.pc) :=
  mainOnly_main hm _

theorem exec_semi (o : SemI) :
    exec (.semi o) s = .next ((s.setSem s.cur.cid o.sem
      ⟨o.v.toNat, if o.keep then (s.semOf s.cur.cid o.sem).status else 0, 0⟩).adv o.st) :=
  mainOnly_main hm _

theorem exec_semr (o : SemR) :
    exec (.semr o) s = s.resultVar o.st [] o.rd
      (if o.sw then (s.semOf s.cur.cid o.sem).status else word (s.semOf s.cur.cid o.sem).count) :=
  mainOnly_main hm _

end

/-- Settles O30: semw by whether its units are there, sems by whether the sum fits. -/
theorem semaphoresCount : Obligations.SemaphoresCount := by
  unfold Obligations.SemaphoresCount
  refine ⟨fun o s hm h => ?takes, fun o s hm h => exec_semw_waits hm h, fun o s hm => ?sets, fun o s hm hr hh => ?reads,
    fun o s hm h => ?adds, fun o s hm hp h => ?overflows⟩
  case takes =>
    refine ⟨_, exec_semw_takes hm h, State.adv_passes (State.hasAgent_main ?_) _⟩
    split
    · exact (State.wbInv_moves _ _).1.onMain hm
    · exact hm
  case sets => exact ⟨_, exec_semi hm o, State.adv_passes (s := s.setSem _ _ _) (State.hasAgent_main hm) _⟩
  case reads =>
    rw [exec_semr hm]
    exact State.resultVar_gives hr hh _ _
  case adds =>
    have hpass := State.adv_passes (State.hasAgent_main hm) o.st
    rw [← semOf_keeps hpass.frame hm] at h ⊢
    exact ⟨_, _, exec_sems hm o, hpass, signal_low h _ _ _⟩
  case overflows =>
    have hpass := State.adv_passes (State.hasAgent_main hm) o.st
    rw [← semOf_keeps hpass.frame hm] at h ⊢
    refine ⟨_, _, _, exec_sems hm o, hpass, rfl, ?_⟩
    rw [signal_high h]
    exact raiseOnce_traps _ _ _ (by rw [trap_setSem, ctx_trap_keeps hpass.frame hm, hp])

end Sys2Proof.Machine
end

section
/-! PROOF. The commands of the reduction engine, the array and the drain unit start, and drain and cpref (R180, R358, R361-R364, R373, R384-R397). -/

namespace Sys2Proof.Machine

open Sys2Proof

/-! ## The checks -/

theorem sparseOk_iff (n : MatSet) (h : QEnt) : n.sparseOk h = true ↔
    (mBType n.mctl = some .e4m3 ∨ mBType n.mctl = some .e5m2 ∨ mBType n.mctl = some .i8 ∨ mBType n.mctl = some .ui8) ∧
      h.a.toNat % 3072 = 0 ∧ h.b.toNat % 3072 = 0 ∧ 1 ≤ h.c.toNat ∧ h.c.toNat ≤ 65536 := by
  unfold MatSet.sparseOk
  simp only [Bool.and_eq_true, Bool.or_eq_true, beq_iff_eq, inRange_iff, and_assoc, or_assoc]

/-- A dgo that passes its checks is the command that the head would start, with its tables. -/
theorem dgoCheck_ok {s : State} {m m' : Cmd} (h : s.dgoCheck m = .ok m') : ∃ t st, m' = { m with tab := some t, status := st } := by
  unfold State.dgoCheck at h
  dsimp only at h
  split at h
  · cases h
  split at h
  · cases h
  cases ht : s.dgoTables s.cur.cid m with
  | error e => rw [ht] at h; cases h
  | ok t =>
    rw [ht] at h
    dsimp only [bind, Except.bind] at h
    split at h
    · cases h
    · cases h
      exact ⟨_, _, rfl⟩

/-! ## dgo -/

section
variable {s : State} {o : ENone} (h : s.AtStart 1 o.sy) (hf : s.me.eng.array = none)
include h hf

theorem exec_dgo_starts {m : Cmd} (hc : s.dgoCheck s.matCmd = .ok m) : exec (.dgo o) s = s.matStart o.sy .array true m := by
  show execDgo o s = _
  unfold execDgo
  rw [engineOp_ready h (show (s.cmd s.cur.cid .array).isNone = true from congrArg Option.isNone hf), hc]

theorem exec_dgo_fails {c d : Nat} {fa : Word} (hc : s.dgoCheck s.matCmd = .error (.fault c d fa)) :
    exec (.dgo o) s = s.trapStart .array c d fa := by
  show execDgo o s = _
  unfold execDgo
  rw [engineOp_ready h (show (s.cmd s.cur.cid .array).isNone = true from congrArg Option.isNone hf), hc]

end

/-! ## drain and cpref -/

/-- A signal without a mask makes nothing visible (R177). -/
theorem visible_unmasked {s : State} {sy : Sync} (h : ∀ n x, sy.sig = some (n, x) → x = 0) (cid path : Nat) (w fpc : Word) :
    s.visible cid path sy w fpc = s := by
  unfold State.visible
  cases hs : sy.sig with
  | none => rfl
  | some y => exact if_pos (h y.1 y.2 hs)

/-- With a mask the path's writes are performed, and where none has failed that is all (R177, R434). -/
theorem visible_masked {s : State} {sy : Sync} {n : Nat} {x : BitVec 5} (hs : sy.sig = some (n, x)) (hx : x ≠ 0) {cid path : Nat}
    (hf : ∀ f ∈ ((s.flushPath cid path).ctx cid).eng.wfails, f.path ≠ path) (w fpc : Word) :
    s.visible cid path sy w fpc = s.flushPath cid path := by
  unfold State.visible State.reportFails
  rw [hs]
  dsimp only
  rw [if_neg hx, reportWhere_none fun f h => beq_eq_false_iff_ne.mpr (hf f h)]
  rfl

/-- A failed write that the test admits is reported, and with it go all that the test admits (R434). -/
theorem reportWhere_some {s : State} {cid : Nat} {ok : WFail → Bool} (h : ∃ f ∈ (s.ctx cid).eng.wfails, ok f = true) (w fpc : Word) :
    ∃ f ∈ (s.ctx cid).eng.wfails, ok f = true ∧ s.reportWhere cid ok w fpc =
      some ((s.modCtx cid (fun c => { c with eng := { c.eng with wfails := c.eng.wfails.filter (fun x => !ok x) } })).raiseOnce cid (f.frame w fpc)) := by
  obtain ⟨f, hf⟩ := Option.isSome_iff_exists.mp (List.find?_isSome.mpr h)
  refine ⟨f, List.mem_of_find?_eq_some hf, List.find?_some hf, ?_⟩
  unfold State.reportWhere
  rw [hf]
  rfl

section
variable {s : State} {o : DrainF} (h : s.AtStart 0 o.sy) (hd : s.chanDone s.cur.cid o.ch = true)
include h hd

theorem exec_drain_clear (hf : ∀ f ∈ s.me.eng.wfails, f.u ≠ .ch o.ch) : exec (.drain o) s =
    .next ((((s.nested o.ch).headGone o.sy).visible s.cur.cid 0 o.sy s.head.w s.head.addr).signalOf s.cur.cid o.sy 0 0 s.head.w s.head.addr) := by
  show execDrain o s = _
  unfold execDrain
  rw [engineOp_ready h hd, reportWhere_none fun f hm => beq_eq_false_iff_ne.mpr (hf f hm), ← start_eq]
  rfl

theorem exec_drain_failed {t : State} (hr : s.reportWhere s.cur.cid (fun f => f.u == .ch o.ch) s.head.w s.head.addr = some t) :
    exec (.drain o) s = .next t := by
  show execDrain o s = _
  unfold execDrain
  rw [engineOp_ready h hd, hr]

/-- A drain with no failed write of its channel signals from the state in which its writes are visible. -/
theorem drain_signals (hf : ∀ f ∈ s.me.eng.wfails, f.u ≠ .ch o.ch) {u : State}
    (hu : ((s.nested o.ch).headGone o.sy).visible s.cur.cid 0 o.sy s.head.w s.head.addr = u) :
    ∃ t, exec (.drain o) s = .next t ∧ u.Signals t s.cur.cid o.sy 0 (fun k => s.headFrame 0 0 0x0C k 0) := by
  rw [exec_drain_clear h hd hf, hu]
  exact ⟨_, rfl, signalOf_spec _ _ _ _ _ _ _⟩

theorem drain_reports (hf : ∃ f ∈ s.me.eng.wfails, f.u = .ch o.ch) (hp : s.me.trap.phase = .none) :
    ∃ t f, exec (.drain o) s = .next t ∧ f ∈ s.me.eng.wfails ∧ f.u = .ch o.ch ∧
      (s.modMe (fun c => { c with eng := { c.eng with wfails := c.eng.wfails.filter (fun x => x.u != .ch o.ch) } })).Traps t s.cur.cid true
        (f.frame s.head.w s.head.addr) := by
  obtain ⟨f, hmem, hu⟩ := hf
  obtain ⟨g, hg, hgu, hr⟩ := reportWhere_some (s := s) (cid := s.cur.cid) (ok := fun f => f.u == .ch o.ch) ⟨f, hmem, beq_iff_eq.mpr hu⟩
    s.head.w s.head.addr
  refine ⟨_, g, exec_drain_failed h hd hr, hg, beq_iff_eq.mp hgu, raiseOnce_traps _ _ _ ?_⟩
  show (s.modMe _).me.trap.phase = _
  rw [modMe_me]
  exact hp

end

/-- A cpref at the head of C is its channel's command, which has ended; one of length 0 completes at once (R358). -/
theorem exec_cpref {s : State} {o : CprefF} (h : s.AtStart 0 o.sy) (hf : Map.find s.me.eng.chans o.ch = none) :
    let m : Cmd := { Cmd.fresh s.head s.clk s.me.eng.copyNest s.me.eng.matNest with ended := true }
    let u := ((s.nested o.ch).headGone o.sy).modMe (fun x => { x with eng := { x.eng with chans := Map.put x.eng.chans o.ch m } })
    exec (.cpref o) s = .next (if s.head.b = 0 then u.complete s.cur.cid (.ch o.ch)
      else u.noteRanges s.cur.cid [⟨.eread, 0, s.head.a.toNat, min s.head.b.toNat (2 ^ 24)⟩]) := by
  show execCpref o s = _
  unfold execCpref
  rw [engineOp_ready h (congrArg Option.isNone hf)]
  dsimp only
  rw [start_eq]
  rfl

/-- Settles O42, unit by unit: each start from the equation of its unit's start, drain by whether a write of its channel has failed. -/
theorem engineCommandsStart : Obligations.EngineCommandsStart := by
  unfold Obligations.EngineCommandsStart
  refine ⟨fun i s sy check wide hi h hf => ?red, fun o s h hf => ?array, fun i s sy count ok => ?drainUnit, fun o s h hf => ?msparse,
    fun o s h hd => ⟨fun u hf hu => ?signals, drain_reports h hd⟩, fun o s h hf => ?cpref⟩
  case red =>
    refine redGo_spec h hf check wide ?_
    rcases hi with ⟨o, rfl | rfl, rfl, rfl, rfl⟩ | ⟨o, rfl, rfl, rfl, rfl⟩
    · rfl
    · rfl
    · have hnone : (s.head.a.toNat + s.head.b.toNat == 0) = decide (s.head.a.toNat = 0 ∧ s.head.b.toNat = 0) := by
        rw [Bool.eq_iff_iff, beq_iff_eq, decide_eq_true_eq]; omega
      rw [← hnone]
      rfl
  case array =>
    intro n starts fresh
    have hgo := matGo_spec h .array (.inl rfl) hf (s.mgoCheck n 0) true s.matCmd
    refine ⟨hgo.1, fun hc => ⟨s.matCmd, hgo.2 hc, ⟨rfl, rfl, rfl, rfl, rfl⟩, rfl⟩, fun c d fa hc hp => ?_, fun m hc => ?_⟩
    · rw [exec_dgo_fails h hf hc]
      exact trapStart_traps hp .array c d fa
    · rw [exec_dgo_starts h hf hc]
      obtain ⟨t, st, rfl⟩ := dgoCheck_ok hc
      refine ⟨?_, ⟨rfl, rfl, rfl, rfl, rfl⟩, Option.some_ne_none _⟩
      unfold State.matStart
      rw [start_eq]
      rfl
  case drainUnit =>
    intro n hd hi h hf
    rcases hi with ⟨o, rfl, rfl, rfl, rfl⟩ | ⟨o, rfl, rfl, rfl, rfl⟩ | ⟨o, rfl, rfl, rfl, rfl⟩ <;> exact drain_of h hf rfl
  case msparse =>
    intro n hd good
    have hgo := matGo_spec h .array (.inl rfl) hf (if n.sparseOk hd then none else some (1, 0, 0)) false s.matCmd
    refine ⟨fun hg hp => hgo.1 _ _ _ (if_neg (mt (sparseOk_iff n hd).mp hg)) hp, fun hg => ?_⟩
    exact ⟨_, s.matCmd, hgo.2 (if_pos ((sparseOk_iff n hd).mpr hg)), rfl, rfl, rfl, rfl, rfl, rfl, rfl⟩
  case signals =>
    refine drain_signals h hd hf ?_
    rcases hu with ⟨hz, rfl⟩ | ⟨⟨n, x, hs, hx⟩, rfl, hw⟩
    · exact visible_unmasked hz _ _ _ _
    · exact visible_masked hs hx hw _ _
  case cpref =>
    exact ⟨_, _, _, exec_cpref h hf, rfl, rfl, rfl, rfl, rfl, rfl, fun hb => if_neg hb, fun hb => if_pos hb⟩

end Sys2Proof.Machine
end

section
/-! PROOF. Exact sums and products, their one rounding, and fcvt's conversions to an integer and of a NaN (R190, R191, R195, R298). -/

namespace Sys2Proof.Machine

open Sys2Proof

/-! ## The number of an exact value -/

/-- A magnitude with its sign, as the exact operations read it. -/
def signedMag (n : Bool) (m : Nat) : Int := if n then -(m : Int) else m

theorem rat_fin (n : Bool) (m : Nat) (e : Int) : (Val.fin n m e).rat = (signedMag n m : ℚ) * 2 ^ e := by
  cases n <;> simp [Val.rat, signedMag]

theorem signedMag_natAbs (z : Int) : signedMag (decide (z < 0)) z.natAbs = z := by
  unfold signedMag
  simp only [decide_eq_true_eq]
  split <;> omega

theorem signedMag_mul (a b : Bool) (m n : Nat) : signedMag (a != b) (m * n) = signedMag a m * signedMag b n := by
  cases a <;> cases b <;> simp [signedMag]

/-- 2 ^ (e - f) as a natural number brings a multiple of 2 ^ f back to one of 2 ^ e. -/
theorem natPow_mul_zpow {e f : Int} (h : f ≤ e) : (2 : ℚ) ^ (e - f).toNat * 2 ^ f = 2 ^ e := by
  rw [← zpow_natCast, Int.toNat_of_nonneg (by omega), ← zpow_add₀ two_ne_zero, sub_add_cancel]

theorem signedMag_scaleTo (n : Bool) (m : Nat) {e f : Int} (h : f ≤ e) :
    (signedMag n (scaleTo m e f) : ℚ) * 2 ^ f = (Val.fin n m e).rat := by
  rw [rat_fin, ← natPow_mul_zpow h]
  cases n <;> simp [signedMag, scaleTo, mul_assoc]

/-! ## Exact sums and products -/

/-- The sum of two numbers is the sum of their multiples of the smaller power, under a sign that matters for zero alone. -/
theorem add_fin (a b : Bool) (m n : Nat) (e f : Int) :
    let g := min e f
    let z := signedMag a (scaleTo m e g) + signedMag b (scaleTo n f g)
    ((Val.fin a m e).add (.fin b n f)).1 =
      if z = 0 then .fin (a && b && m == 0 && n == 0) 0 0 else .fin (decide (z < 0)) z.natAbs g :=
  apply_ite Prod.fst _ _ _

theorem add_exact {x y : Val} (hx : x.isFin = true) (hy : y.isFin = true) :
    (x.add y).1.isFin = true ∧ (x.add y).1.rat = x.rat + y.rat := by
  match x, y, hx, hy with
  | .fin a m e, .fin b n f, _, _ =>
    rw [← signedMag_scaleTo a m (min_le_left e f), ← signedMag_scaleTo b n (min_le_right e f), ← add_mul, ← Int.cast_add, add_fin]
    split
    case isTrue hz => exact ⟨rfl, by rw [hz, rat_fin]; simp [signedMag]⟩
    case isFalse => exact ⟨rfl, by rw [rat_fin, signedMag_natAbs]⟩

theorem mul_exact {x y : Val} (hx : x.isFin = true) (hy : y.isFin = true) :
    (x.mul y).1.isFin = true ∧ (x.mul y).1.rat = x.rat * y.rat := by
  match x, y, hx, hy with
  | .fin a m e, .fin b n f, _, _ =>
    refine ⟨rfl, ?_⟩
    show (Val.fin (a != b) (m * n) (e + f)).rat = _
    rw [rat_fin, rat_fin, rat_fin, signedMag_mul, zpow_add₀ two_ne_zero, Int.cast_mul]
    ring

/-! ## Rounding to nearest, ties to even -/

/-- A finer multiple is kept as it is. -/
theorem roundAt_fine (m : Nat) {e q : Int} (h : q ≤ e) : roundAt m e q = (scaleTo m e q, true) := if_pos h

/-- At a coarser multiple the remainder of the division by their ratio decides. -/
theorem roundAt_coarse (m : Nat) {e q : Int} (h : e < q) :
    let d := 2 ^ (q - e).toNat
    roundAt m e q = if m % d = 0 then (m / d, true) else if 2 * (m % d) < d then (m / d, false)
      else if 2 * (m % d) > d then (m / d + 1, false) else (m / d + m / d % 2, false) := if_neg (Int.not_le.mpr h)

theorem quotient_falls_short (m d : Nat) : ((m / d : Nat) : Int) * d - m = -(m % d : Nat) := by
  have hm : ((d * (m / d) + m % d : Nat) : Int) = m := congrArg Nat.cast (Nat.div_add_mod m d)
  push_cast at hm ⊢
  linarith

theorem quotient_succ_exceeds (m d : Nat) : ((m / d + 1 : Nat) : Int) * d - m = d - (m % d : Nat) := by
  have h := quotient_falls_short m d
  push_cast at h ⊢
  linarith

/-- The rounded count is within half of the ratio, even at just half, and exact without remainder. -/
theorem roundAt_nearest_ratio (m : Nat) {e q : Int} (h : e < q) :
    let d : Int := 2 ^ (q - e).toNat
    let δ : Int := (roundAt m e q).1 * d - m
    2 * |δ| ≤ d ∧ (2 * |δ| = d → (roundAt m e q).1 % 2 = 0) ∧ ((roundAt m e q).2 = true ↔ δ = 0) := by
  rw [roundAt_coarse m h]
  have hpos : 0 < 2 ^ (q - e).toNat := Nat.two_pow_pos _
  have hcast : (2 : Int) ^ (q - e).toNat = ((2 ^ (q - e).toNat : Nat) : Int) := by push_cast; rfl
  rw [hcast]
  generalize 2 ^ (q - e).toNat = d at hpos
  have hr := Nat.mod_lt m hpos
  have hdown := quotient_falls_short m d
  have hup := quotient_succ_exceeds m d
  dsimp only
  split
  case isTrue h0 =>
    rw [hdown, h0]
    exact ⟨by simp, by simp; omega, by simp⟩
  case isFalse h0 =>
    split
    case isTrue hlt =>
      rw [hdown, abs_neg, Nat.abs_cast]
      exact ⟨by omega, by omega, by simp; omega⟩
    case isFalse hge =>
      split
      case isTrue hgt =>
        rw [hup, abs_of_pos (by omega)]
        exact ⟨by omega, by omega, by simp; omega⟩
      case isFalse hle =>
        have hhalf : 2 * (m % d) = d := by omega
        rcases Nat.mod_two_eq_zero_or_one (m / d) with he | ho
        · rw [he, Nat.add_zero, hdown, abs_neg, Nat.abs_cast]
          exact ⟨by omega, fun _ => he, by simp; omega⟩
        · rw [ho, hup, abs_of_pos (by omega)]
          exact ⟨by omega, fun _ => by omega, by simp; omega⟩

theorem roundAt_nearest (m : Nat) (e q : Int) :
    let k := (roundAt m e q).1
    |(k : ℚ) * 2 ^ q - (m : ℚ) * 2 ^ e| ≤ 2 ^ q / 2 ∧
    (|(k : ℚ) * 2 ^ q - (m : ℚ) * 2 ^ e| = 2 ^ q / 2 → k % 2 = 0) ∧
    ((roundAt m e q).2 = true ↔ (k : ℚ) * 2 ^ q = (m : ℚ) * 2 ^ e) := by
  intro k
  rcases le_or_gt q e with h | h
  case inl =>
    have hk : (k : ℚ) * 2 ^ q = m * 2 ^ e := by
      have hs := signedMag_scaleTo false m h
      rw [rat_fin] at hs
      simpa [k, roundAt_fine m h, signedMag] using hs
    have hpos : (0 : ℚ) < 2 ^ q / 2 := by positivity
    rw [hk, sub_self, abs_zero, roundAt_fine m h]
    exact ⟨hpos.le, fun h0 => absurd h0 hpos.ne, by simp⟩
  case inr =>
    obtain ⟨hle, htie, hexact⟩ := roundAt_nearest_ratio m h
    have hpos : (0 : ℚ) < 2 ^ e := by positivity
    have hδ : (k : ℚ) * 2 ^ q - m * 2 ^ e = (((k : Int) * 2 ^ (q - e).toNat - m : Int) : ℚ) * 2 ^ e := by
      rw [← natPow_mul_zpow h.le]; push_cast; ring
    have hhalf : (2 : ℚ) ^ q / 2 = ((2 ^ (q - e).toNat : Int) : ℚ) / 2 * 2 ^ e := by
      rw [← natPow_mul_zpow h.le]; push_cast; ring
    refine ⟨?_, fun h2 => htie ?_, hexact.trans ?_⟩
    · rw [hδ, hhalf, abs_mul, abs_of_pos hpos, mul_le_mul_iff_left₀ hpos, le_div_iff₀ two_pos, mul_comm, ← Int.cast_abs]
      exact_mod_cast hle
    · rw [hδ, hhalf, abs_mul, abs_of_pos hpos, mul_left_inj' hpos.ne', eq_div_iff two_ne_zero, mul_comm, ← Int.cast_abs] at h2
      exact_mod_cast h2
    · rw [← sub_eq_zero (a := (k : ℚ) * 2 ^ q), hδ, mul_eq_zero_iff_right hpos.ne', Int.cast_eq_zero]

/-! ## Conversions -/

theorem value_int {t : ETy} (ht : t.fmt = none) (hl : t ≠ .l6) (fz : Bool) (w : Word) : t.value fz w = .ofInt (t.intOf w) := by
  unfold ETy.value
  rw [ht]
  exact if_neg (by simpa using hl)

theorem range_holds_zero (t : ETy) : t.range.1 ≤ 0 ∧ 0 ≤ t.range.2 := by cases t <;> decide

/-- An integer is converted to an integer type by the bound that it passes, or as it is. -/
theorem convert_ofInt {t : ETy} (ht : t.fmt = none) (hl : t ≠ .l6) (fz : Bool) (i : Int) :
    (convert t ⟨none, none, fz⟩ (.ofInt i)).1 = t.ofInt (max t.range.1 (min t.range.2 i)) := by
  have hl6 : (t == .l6) = false := by simpa using hl
  obtain ⟨hlo, hhi⟩ := range_holds_zero t
  have hsign : (if i < 0 then -(i.natAbs : Int) else i.natAbs) = i := by simpa [signedMag] using signedMag_natAbs i
  unfold convert Val.ofInt
  simp only [ht, hl6, roundAt_fine _ le_rfl, scaleTo, sub_self, Int.toNat_zero, pow_zero, mul_one, decide_eq_true_eq, hsign,
    Conv.orSub, ETy.maxSigned, Bool.false_eq_true, if_false]
  split
  case isTrue hout =>
    dsimp only
    split
    · exact congrArg t.ofInt (by omega)
    · exact congrArg t.ofInt (by omega)
  case isFalse hin => exact congrArg t.ofInt (by omega)

/-- A NaN is converted to the canonical NaN, or to 0 in an integer type. -/
theorem convert_nan {t : ETy} (hl : t ≠ .l6) (fz : Bool) :
    (convert t ⟨none, none, fz⟩ .nan).1 = match t.fmt with | some f => f.canon | none => 0 := by
  have hl6 : (t == .l6) = false := by simpa using hl
  unfold convert
  cases ht : t.fmt with
  | some f => rfl
  | none => simp [Conv.orSub, hl6]

theorem hold_zero (t : ETy) : t.hold 0 = 0 := by cases t <;> decide

theorem fcvtRes_int {src dst : ETy} (hs : src.fmt = none) (hd : dst.fmt = none) (hsl : src ≠ .l6) (hdl : dst ≠ .l6) (fz : Bool) (w : Word) :
    fcvtRes src dst fz w = dst.hold (dst.ofInt (max dst.range.1 (min dst.range.2 (src.intOf w)))) := by
  unfold fcvtRes
  rw [value_int hs hsl, convert_ofInt hd hdl]

theorem fcvtRes_nan {src dst : ETy} {fz : Bool} {w : Word} (hv : src.value fz w = .nan) (hdl : dst ≠ .l6) :
    fcvtRes src dst fz w = match dst.fmt with | some f => dst.hold f.canon | none => 0 := by
  unfold fcvtRes
  rw [hv, convert_nan hdl]
  cases dst.fmt with
  | some f => rfl
  | none => exact hold_zero dst

/-- Settles O6: sums and products over the numbers of their values, rounding by its remainder, fcvt by what the conversion gives. -/
theorem exactThenRound : Obligations.ExactThenRound := by
  unfold Obligations.ExactThenRound
  refine ⟨fun x y => add_exact, fun x y => mul_exact, roundAt_nearest, fun o s h => ?_⟩
  obtain ⟨t, ht, hgives⟩ := State.result_gives h (fcvtRes o.src o.dst o.fz (s.r o.ra)) o.st
  exact ⟨t, _, ht, hgives, fun hs hd hsl hdl => fcvtRes_int hs hd hsl hdl _ _, fun hv hdl => fcvtRes_nan hv hdl⟩

end Sys2Proof.Machine
end

section
/-! PROOF. tstb: the word that it tests, and what stands before the test (R169, R225, R332). -/

namespace Sys2Proof.Machine

open Sys2Proof

/-- The sense bit turns the test of the masked word around (R332). -/
theorem senses_iff (v mask : Word) (none : Bool) :
    (((v &&& mask) != 0) != none) = true ↔ if none then ¬ (v &&& mask) ≠ 0 else (v &&& mask) ≠ 0 := by
  cases none <;> simp

/-- An aligned access that translates is made at its place, by whichever agent. -/
theorem access_place {s : State} {want : Want} {ea : Word} {align : Nat} {p : Place} (ha : ea.toNat % align = 0)
    (hx : s.xlat s.cur.cid s.onTrapCore want ea = .ok p) (k : Place → Res) : s.access want ea align k = k p := by
  unfold State.access
  rw [if_neg (not_not_intro ha), hx]

theorem tstb_cur (s : State) (ea : Word) (p : Place) (n : Nat) : ((s.noteXlat s.cur.cid ea).sRead s.myCore p n).cur = s.cur := by
  rw [State.cur_sRead, (noteXlat_walks s ea).cur]

/-! ## The status word of a semaphore -/

theorem tstb_sem_branches {o : TstbF} {s : State} {n : Nat} (hsrc : o.src = .sem n) (hn : s.cur.agent ≠ .helper) (hr : s.Ready [o.mask] none) :
    ∃ t, exec (.tstb o) s = .next t ∧
      let any := ((s.semOf s.cur.cid n).status &&& s.r o.mask) ≠ 0
      ((if o.none then ¬ any else any) → s.follow.GoesTo t o.st 1 (s.rel o.off)) ∧
      (¬ (if o.none then ¬ any else any) → s.follow.Passes t o.st) := by
  have he : exec (.tstb o) s =
      .next (s.branch o.st ((((s.semOf s.cur.cid n).status &&& s.r o.mask) != 0) != o.none) (s.target o.off)) := by
    rw [show exec (.tstb o) s = s.notHelper _ from rfl, State.notHelper_eq hn, hsrc]
    exact hr.issue _
  rw [← State.target_eq_rel]
  exact ⟨_, he, State.branch_iff hr.agent _ _ (senses_iff _ _ _)⟩

/-! ## A word of memory -/

section
variable {o : TstbF} {s : State} {ra : Nat} {p : Place} (hsrc : o.src = .mem ra) (hn : s.cur.agent ≠ .helper)
  (hr : s.Ready [o.mask, ra] none) (ha : (s.r ra).toNat % 8 = 0) (hx : s.xlat s.cur.cid s.onTrapCore .load (s.r ra) = .ok p)
  (hl : s.me.path.loads = []) (hs : s.me.path.stores = [])
include hsrc hn hr ha hx hl hs

/-- An error is met before the device is looked at; then another device is asked, and the own one reads the word. -/
theorem exec_tstb_mem : exec (.tstb o) s =
    if s.poisoned p 8 then .next (s.trapAs true 0x0B p.errDetail (s.r ra))
    else p.dev?.elim
      (.next (((s.noteXlat s.cur.cid (s.r ra)).sRead s.myCore p 8).branch o.st
        (((leWord (s.loadBytes s.cur.cid p 8 true) &&& s.r o.mask) != 0) != o.none) (s.rel o.off)))
      fun d => .next (s.parkRemote o.st d.1 d.2.2 (.load d.2.1 8) (.tstb (s.r o.mask) o.none (s.rel o.off)) (s.r ra)) := by
  have hdrained : s.me.path.drained = true := by unfold SPath.drained; rw [hl, hs]; rfl
  rw [show exec (.tstb o) s = s.notHelper _ from rfl, State.notHelper_eq hn, hsrc, ← State.target_eq_rel]
  dsimp only
  rw [hr.issue, access_place ha hx, hdrained]
  cases p.dev? <;> rfl

theorem tstb_poisoned_traps (hp : s.poisoned p 8 = true) (hm : s.OnMain) (ht : s.me.trap.phase = .none) :
    ∃ t, exec (.tstb o) s = .next t ∧ s.TrapsOnce t 0x0B p.errDetail (s.r ra) :=
  ⟨_, (exec_tstb_mem hsrc hn hr ha hx hl hs).trans (if_pos hp), trapAs_traps hm ht _ _ _⟩

theorem tstb_near_branches (hp : s.poisoned p 8 = false) (hnear : p.isRemote = false) :
    ∃ t, exec (.tstb o) s = .next t ∧
      let u := (s.noteXlat s.cur.cid (s.r ra)).sRead s.myCore p 8
      let any := (leWord (s.loadBytes s.cur.cid p 8 true) &&& s.r o.mask) ≠ 0
      ((if o.none then ¬ any else any) → u.follow.GoesTo t o.st 1 (s.rel o.off)) ∧
      (¬ (if o.none then ¬ any else any) → u.follow.Passes t o.st) := by
  have hagent : ((s.noteXlat s.cur.cid (s.r ra)).sRead s.myCore p 8).HasAgent :=
    fun h => absurd (tstb_cur s (s.r ra) p 8 ▸ h) hn
  refine ⟨_, ?_, State.branch_iff hagent _ _ (senses_iff _ _ _)⟩
  rw [exec_tstb_mem hsrc hn hr ha hx hl hs, hp, Place.dev?_of_near hnear]
  rfl

theorem tstb_remote_asks (hp : s.poisoned p 8 = false) {dev pa key : Nat} (hfar : p = .remote dev pa key) :
    exec (.tstb o) s = .next (s.parkRemote o.st dev key (.load pa 8) (.tstb (s.r o.mask) o.none (s.rel o.off)) (s.r ra)) := by
  rw [exec_tstb_mem hsrc hn hr ha hx hl hs, hp, hfar]
  rfl

end

/-! ## A unit of another device that this one holds to be poisoned -/

/-- Context 0 with s5 in a page of device 1 whose first unit stands among the poisoned ones. One table at address 0 serves every level: its
entry 0 names the table itself, and its entry 2 is the page. -/
def farPoison : State :=
  { State.reset with
    ctxs := [(0, { Ctx.fresh with sc := { Ctx.fresh.sc with s := [(5, 0x80000000)] } })]
    mem := { State.reset.mem with
      hbm := [(0x00, 0x01), (0x10, 0x0F), (0x15, 0x20)], unitKey := [(0, .random 1)], poison := [(Place.remote 1 0 0).unit] } }

theorem farPoison_ready : farPoison.Ready [4, 5] none :=
  State.ready_of_quiet (State.hasAgent_main (s := farPoison) rfl) rfl rfl rfl _ _

theorem farPoison_xlat : farPoison.xlat farPoison.cur.cid farPoison.onTrapCore .load (farPoison.r 5) = .ok (.remote 1 0 0) := by decide

/-- tstb raises the data error there, and asks the other device for nothing. -/
theorem tstb_farPoison_asks_nothing : (resState farPoison (exec (.tstb ⟨0, .mem 5, false, 4, 0⟩) farPoison)).net.reqs = [] := by
  rw [exec_tstb_mem (p := .remote 1 0 0) rfl (by decide) farPoison_ready rfl farPoison_xlat rfl rfl]
  rfl

/-- Refutes O12: the clause that a tstb of another device's memory asks it has no hypothesis on errors and fails in `farPoison`, where the data
error comes first. No step of the model poisons a unit of another device (`State.strike` leaves them alone); where the unit is healthy the clause
is `tstb_remote_asks`, and the other clauses hold as they stand: `tstb_sem_branches`, `tstb_poisoned_traps`, `tstb_near_branches`. -/
theorem not_testBranches : ¬ Obligations.TestBranches := by
  unfold Obligations.TestBranches
  rintro ⟨-, hmem⟩
  obtain ⟨-, -, hasks⟩ := hmem ⟨0, .mem 5, false, 4, 0⟩ farPoison 5 (.remote 1 0 0) rfl (by decide) farPoison_ready rfl farPoison_xlat rfl rfl
  have hreqs := tstb_farPoison_asks_nothing
  rw [hasks 1 0 0 rfl] at hreqs
  cases hreqs

end Sys2Proof.Machine
end

section
/-! PROOF. Decoding and encoding of main-stream and port words (R261-R279): each operand shape's decoder accepts the words that its encoder
gives its well-formed instructions, and no other. -/

namespace Sys2Proof

open Laws

/-! ## What the steps of a decoder accept -/

@[simp] theorem bind_ok_iff {α β : Type} {x : Except Reject α} {f : α → Except Reject β} {b : β} :
    (x >>= f) = .ok b ↔ ∃ a, x = .ok a ∧ f a = .ok b := by
  cases x <;> simp [bind, Except.bind]

@[simp] theorem zero_ok_iff {n : Nat} {u : Unit} : zero n = .ok u ↔ n = 0 := by
  unfold zero; split <;> simp [*]

@[simp] theorem need_ok_iff {b : Bool} {u : Unit} : need b = .ok u ↔ b = true := by
  unfold need; split <;> simp [*]

@[simp] theorem keep_ok_iff {j i : Instr} : keep j = .ok i ↔ j.wf = true ∧ i = j := by
  unfold keep; split <;> simp [*, eq_comm]

/-! ## Field codes -/

@[simp] theorem Width.ofCode_ok_iff {n : Nat} {x : Width} : Width.ofCode n = .ok x ↔ n = x.code := by
  unfold Width.ofCode; split <;> cases x <;> simp_all [Width.code]

@[simp] theorem Size.ofCode_ok_iff {n : Nat} {x : Size} : Size.ofCode n = .ok x ↔ n = x.code := by
  unfold Size.ofCode; split <;> cases x <;> simp_all [Size.code]

@[simp] theorem Ord.ofCode_ok_iff {n : Nat} {x : Ord} : Ord.ofCode n = .ok x ↔ n = x.code := by
  unfold Ord.ofCode; split <;> cases x <;> simp_all [Ord.code]

@[simp] theorem Scope.ofCode_ok_iff {n : Nat} {x : Scope} : Scope.ofCode n = .ok x ↔ n = x.code := by
  unfold Scope.ofCode; split <;> cases x <;> simp_all [Scope.code]

@[simp] theorem Hint.ofCode_ok_iff {n : Nat} {x : Hint} : Hint.ofCode n = .ok x ↔ n = x.code := by
  unfold Hint.ofCode; split <;> cases x <;> simp_all [Hint.code]

@[simp] theorem Cond.ofCode_ok_iff {n : Nat} {x : Cond} : Cond.ofCode n = .ok x ↔ n = x.code := by
  unfold Cond.ofCode; split <;> cases x <;> simp_all [Cond.code]

@[simp] theorem ETy.ofCode_ok_iff {n : Nat} {x : ETy} : ETy.ofCode n = .ok x ↔ n = x.code := by
  unfold ETy.ofCode; split <;> cases x <;> simp_all [ETy.code]

@[simp] theorem AmoOp.ofCode_ok_iff {n : Nat} {x : AmoOp} : AmoOp.ofCode n = .ok x ↔ n = x.code := by
  unfold AmoOp.ofCode; split <;> cases x <;> simp_all [AmoOp.code]

@[simp] theorem RedOp.ofCode_ok_iff {n : Nat} {x : RedOp} : RedOp.ofCode n = .ok x ↔ n = x.code := by
  unfold RedOp.ofCode; split <;> cases x <;> simp_all [RedOp.code]

@[simp] theorem Point.ofCode_ok_iff {n : Nat} {x : Point} : Point.ofCode n = .ok x ↔ n = x.code := by
  unfold Point.ofCode; split <;> cases x <;> simp_all [Point.code]

@[simp] theorem MSpace.ofCode_ok_iff {n : Nat} {x : MSpace} : MSpace.ofCode n = .ok x ↔ n = x.code := by
  unfold MSpace.ofCode; split <;> cases x <;> simp_all [MSpace.code]

@[simp] theorem wideOf_ok_iff {n : Nat} {x : Bool} : wideOf n = .ok x ↔ n = 2 + bit x := by
  unfold wideOf; split <;> cases x <;> simp_all [bit]

theorem Width.code_lt (x : Width) : x.code < 2 := by cases x <;> decide
theorem Size.code_lt (x : Size) : x.code < 4 := by cases x <;> decide
theorem Ord.code_lt (x : Ord) : x.code < 5 := by cases x <;> decide
theorem Scope.code_lt (x : Scope) : x.code < 5 := by cases x <;> decide
theorem Hint.code_lt (x : Hint) : x.code < 4 := by cases x <;> decide
theorem Cond.code_lt (x : Cond) : x.code < 10 := by cases x <;> decide
theorem ETy.code_lt (x : ETy) : x.code < 12 := by cases x <;> decide
theorem AmoOp.code_lt (x : AmoOp) : x.code < 9 := by cases x <;> decide
theorem RedOp.code_lt (x : RedOp) : x.code < 5 := by cases x <;> decide
theorem Point.code_lt (x : Point) : x.code < 6 := by cases x <;> decide
theorem MSpace.code_lt (x : MSpace) : x.code < 4 := by cases x <;> decide
theorem bit_lt (b : Bool) : bit b < 2 := by cases b <;> decide

@[simp] theorem Width.code_inj {x y : Width} : x.code = y.code ↔ x = y := by cases x <;> cases y <;> simp [Width.code]
@[simp] theorem Size.code_inj {x y : Size} : x.code = y.code ↔ x = y := by cases x <;> cases y <;> simp [Size.code]
@[simp] theorem Ord.code_inj {x y : Ord} : x.code = y.code ↔ x = y := by cases x <;> cases y <;> simp [Ord.code]
@[simp] theorem Scope.code_inj {x y : Scope} : x.code = y.code ↔ x = y := by cases x <;> cases y <;> simp [Scope.code]
@[simp] theorem Hint.code_inj {x y : Hint} : x.code = y.code ↔ x = y := by cases x <;> cases y <;> simp [Hint.code]
@[simp] theorem Cond.code_inj {x y : Cond} : x.code = y.code ↔ x = y := by cases x <;> cases y <;> simp [Cond.code]
@[simp] theorem ETy.code_inj {x y : ETy} : x.code = y.code ↔ x = y := by cases x <;> cases y <;> simp [ETy.code]
@[simp] theorem AmoOp.code_inj {x y : AmoOp} : x.code = y.code ↔ x = y := by cases x <;> cases y <;> simp [AmoOp.code]
@[simp] theorem RedOp.code_inj {x y : RedOp} : x.code = y.code ↔ x = y := by cases x <;> cases y <;> simp [RedOp.code]
@[simp] theorem Point.code_inj {x y : Point} : x.code = y.code ↔ x = y := by cases x <;> cases y <;> simp [Point.code]
@[simp] theorem MSpace.code_inj {x y : MSpace} : x.code = y.code ↔ x = y := by cases x <;> cases y <;> simp [MSpace.code]
@[simp] theorem bit_inj {x y : Bool} : bit x = bit y ↔ x = y := by cases x <;> cases y <;> simp [bit]

@[simp] theorem flag_bit (b : Bool) : flag (bit b) = b := by cases b <;> rfl

theorem bit_flag {n : Nat} (h : n < 2) : bit (flag n) = n := by interval_cases n <;> rfl

theorem flag_mod_iff {n : Nat} {b : Bool} : flag (n % 2) = b ↔ n % 2 = bit b := by
  cases b <;> simp [flag, bit]

@[simp] theorem bit_flag_mod (n : Nat) : bit (flag (n % 2)) = n % 2 := bit_flag (Nat.mod_lt n two_pos)

@[simp] theorem stOk_iff {n : Nat} : stOk n = true ↔ n < 8 := decide_eq_true_iff
@[simp] theorem regOk_iff {n : Nat} : regOk n = true ↔ n < 64 := decide_eq_true_iff
@[simp] theorem predOk_iff {n : Nat} : predOk n = true ↔ n < 8 := decide_eq_true_iff
@[simp] theorem semOk_iff {n : Nat} : semOk n = true ↔ n < 256 := decide_eq_true_iff

@[simp] theorem Cond.code_mod (x : Cond) : x.code % 16 = x.code := Nat.mod_eq_of_lt (x.code_lt.trans_le (by decide))
@[simp] theorem Cond.code_div (x : Cond) : x.code / 16 = 0 := Nat.div_eq_of_lt (x.code_lt.trans_le (by decide))
@[simp] theorem ETy.code_mod (x : ETy) : x.code % 16 = x.code := Nat.mod_eq_of_lt (x.code_lt.trans_le (by decide))
@[simp] theorem ETy.code_div (x : ETy) : x.code / 16 = 0 := Nat.div_eq_of_lt (x.code_lt.trans_le (by decide))
@[simp] theorem Point.code_mod (x : Point) : x.code % 8 = x.code := Nat.mod_eq_of_lt (x.code_lt.trans_le (by decide))
@[simp] theorem Point.code_div (x : Point) : x.code / 8 = 0 := Nat.div_eq_of_lt (x.code_lt.trans_le (by decide))
@[simp] theorem RedOp.code_mod (x : RedOp) : x.code % 8 = x.code := Nat.mod_eq_of_lt (x.code_lt.trans_le (by decide))
@[simp] theorem RedOp.code_div (x : RedOp) : x.code / 8 = 0 := Nat.div_eq_of_lt (x.code_lt.trans_le (by decide))
@[simp] theorem MSpace.code_mod (x : MSpace) : x.code % 4 = x.code := Nat.mod_eq_of_lt (x.code_lt.trans_le (by decide))
@[simp] theorem MSpace.code_div (x : MSpace) : x.code / 4 = 0 := Nat.div_eq_of_lt (x.code_lt.trans_le (by decide))
@[simp] theorem Scope.code_mod (x : Scope) : x.code % 8 = x.code := Nat.mod_eq_of_lt (x.code_lt.trans_le (by decide))
@[simp] theorem Scope.code_div (x : Scope) : x.code / 8 = 0 := Nat.div_eq_of_lt (x.code_lt.trans_le (by decide))
@[simp] theorem bit_mod_two (b : Bool) : bit b % 2 = bit b := Nat.mod_eq_of_lt (bit_lt b)
@[simp] theorem bit_div_two (b : Bool) : bit b / 2 = 0 := Nat.div_eq_of_lt (bit_lt b)

/-- A field that names a predicate where a bit is set, and otherwise a register, is below 64. -/
theorem lt_of_pk {pk : Bool} {r : Nat} (h : (if pk = true then predOk r else regOk r) = true) : r < 64 := by
  split at h
  · exact (predOk_iff.1 h).trans (by decide)
  · exact regOk_iff.1 h

/-! ## Formats -/

/-- A 64-bit word under a TAG and an OP (R261). -/
structure IsMain (tag op v : Nat) : Prop where
  lt : v < 2 ^ 64
  tag_eq : tagOf v = tag
  op_eq : opOf v = op

/-- Packing the fields of a word gives it back. -/
theorem packOf_fieldsOf : ∀ (ns : List Nat) (v : Nat), packOf ns (fieldsOf ns v) = v % 2 ^ ns.sum
  | [], v => by simp [packOf, Nat.mod_one]
  | n :: ns, v => by
    rw [fieldsOf, packOf, packOf_fieldsOf ns v, Nat.mod_mod, List.sum_cons, Nat.add_comm n, pow_add, Nat.mod_mul]
    ring

/-- Values fit the fields of these widths. -/
def Fits (ns vs : List Nat) : Prop := List.Forall₂ (fun n x => x < 2 ^ n) ns vs

theorem fieldsOf_fits : ∀ (ns : List Nat) (v : Nat), Fits ns (fieldsOf ns v)
  | [], _ => .nil
  | n :: ns, v => .cons (Nat.mod_lt _ (Nat.two_pow_pos n)) (fieldsOf_fits ns v)

theorem fieldsOf_packOf_of_fits {ns vs : List Nat} (h : Fits ns vs) : fieldsOf ns (packOf ns vs) = vs := by
  rw [fieldsOf_packOf ns vs h.length_eq.symm]
  induction h with
  | nil => rfl
  | cons hv _ ih => rw [List.zipWith_cons_cons, ih, Nat.mod_eq_of_lt hv]

/-- A word has these fields exactly where it packs them and they fit. -/
theorem fieldsOf_eq_iff {ns vs : List Nat} {v : Nat} (h : v < 2 ^ ns.sum) : fieldsOf ns v = vs ↔ Fits ns vs ∧ v = packOf ns vs := by
  constructor
  · rintro rfl
    exact ⟨fieldsOf_fits ns v, by rw [packOf_fieldsOf, Nat.mod_eq_of_lt h]⟩
  · rintro ⟨hf, rfl⟩
    exact fieldsOf_packOf_of_fits hf

def SRw.vals (tag op : Nat) (f : SRw) : List Nat := [tag, f.st, op, f.rd, f.ra, f.rb, f.rc, f.fn, f.md, f.lo]
def SIw.vals (tag op : Nat) (f : SIw) : List Nat := [tag, f.st, op, f.rd, f.ra, f.fn, f.imm]
def SMw.vals (tag op : Nat) (f : SMw) : List Nat := [tag, f.st, op, f.rt, f.ra, f.rb, f.size, f.ord, f.scope, f.ext, f.hint, f.off]
def SXw.vals (tag op : Nat) (f : SXw) : List Nat := [tag, f.st, op, f.rt, f.ra, f.rb, f.size, f.ord, f.scope, f.fn, f.tail]
def ABw.vals (tag op : Nat) (f : ABw) : List Nat := [tag, f.st, op, f.f, f.m, f.ra, f.imm]
def EAw.vals (tag op : Nat) (f : EAw) : List Nat :=
  [tag, f.st, op, f.wv, f.wsem, f.sv, f.ssem, f.ch, f.fn, f.ra, f.rb, f.rc, f.xv, f.lo]
def EIw.vals (tag op : Nat) (f : EIw) : List Nat := [tag, f.st, op, f.wv, f.wsem, f.sv, f.ssem, f.ch, f.fn, f.ra, f.xv, f.imm]

/-- A reading of a word as fields of these widths below its TAG and OP loses none of them. -/
structure Reads {F : Type} (ns : List Nat) (of : Nat → F) (vals : Nat → Nat → F → List Nat) : Prop where
  sum_eq : ns.sum = 64
  fields : ∀ v, fieldsOf ns v = vals (tagOf v) (opOf v) (of v)
  inj : ∀ {tag op f g}, vals tag op f = vals tag op g → f = g

theorem reads_sr : Reads fmtSR srOf SRw.vals :=
  ⟨rfl, fun _ => rfl, by rintro _ _ ⟨⟩ ⟨⟩; simp +contextual [SRw.vals]⟩

theorem reads_si : Reads fmtSI siOf SIw.vals :=
  ⟨rfl, fun _ => rfl, by rintro _ _ ⟨⟩ ⟨⟩; simp +contextual [SIw.vals]⟩

theorem reads_sm : Reads fmtSM smOf SMw.vals :=
  ⟨rfl, fun _ => rfl, by rintro _ _ ⟨⟩ ⟨⟩; simp +contextual [SMw.vals]⟩

theorem reads_sx : Reads fmtSX sxOf SXw.vals :=
  ⟨rfl, fun _ => rfl, by rintro _ _ ⟨⟩ ⟨⟩; simp +contextual [SXw.vals]⟩

theorem reads_ab : Reads fmtAB abOf ABw.vals :=
  ⟨rfl, fun _ => rfl, by rintro _ _ ⟨⟩ ⟨⟩; simp +contextual [ABw.vals]⟩

theorem reads_ea : Reads fmtEA eaOf EAw.vals :=
  ⟨rfl, fun _ => rfl, by rintro _ _ ⟨⟩ ⟨⟩; simp +contextual [EAw.vals]⟩

theorem reads_ei : Reads fmtEI eiOf EIw.vals :=
  ⟨rfl, fun _ => rfl, by rintro _ _ ⟨⟩ ⟨⟩; simp +contextual [EIw.vals]⟩

theorem IsMain.tag_lt {tag op v : Nat} (h : IsMain tag op v) : tag < 8 := h.tag_eq ▸ Nat.mod_lt _ (by decide)
theorem IsMain.op_lt {tag op v : Nat} (h : IsMain tag op v) : op < 256 := h.op_eq ▸ Nat.mod_lt _ (by decide)

/-- A decoder of a format's fields that accepts just the fields of an operand shape accepts just the words of the shape. -/
theorem Reads.decode_iff {F α : Type} {tag op v : Nat} {ns : List Nat} {of : Nat → F} {vals : Nat → Nat → F → List Nat} (hr : Reads ns of vals)
    (h : IsMain tag op v) {D : F → Except Reject Instr} {k : α → Instr} (g : α → F)
    (hto : ∀ f i, of v = f → Fits ns (vals tag op f) → D f = .ok i → ∃ o, (k o).wf = true ∧ i = k o ∧ f = g o)
    (hback : ∀ o, (k o).wf = true → Fits ns (vals tag op (g o)) ∧ D (g o) = .ok (k o)) {i : Instr} :
    D (of v) = .ok i ↔ ∃ o, (k o).wf = true ∧ i = k o ∧ v = packOf ns (vals tag op (g o)) := by
  have hv : ∀ f, of v = f ↔ Fits ns (vals tag op f) ∧ v = packOf ns (vals tag op f) := by
    intro f
    rw [← fieldsOf_eq_iff (hr.sum_eq ▸ h.lt), hr.fields, h.tag_eq, h.op_eq]
    exact ⟨congrArg _, hr.inj⟩
  obtain ⟨hfits, hpack⟩ := (hv _).1 rfl
  constructor
  · intro hd
    obtain ⟨o, hw, rfl, hf⟩ := hto _ _ rfl hfits hd
    exact ⟨o, hw, rfl, hf ▸ hpack⟩
  · rintro ⟨o, hw, rfl, ho⟩
    obtain ⟨hfit, hd⟩ := hback o hw
    rw [(hv (g o)).2 ⟨hfit, ho⟩, hd]

theorem SRw.fits_iff {tag op : Nat} {f : SRw} : Fits fmtSR (f.vals tag op) ↔
    tag < 8 ∧ f.st < 8 ∧ op < 256 ∧ f.rd < 64 ∧ f.ra < 64 ∧ f.rb < 64 ∧ f.rc < 64 ∧ f.fn < 256 ∧ f.md < 64 ∧ f.lo < 4096 := by
  simp [Fits, fmtSR, SRw.vals]

theorem SIw.fits_iff {tag op : Nat} {f : SIw} : Fits fmtSI (f.vals tag op) ↔
    tag < 8 ∧ f.st < 8 ∧ op < 256 ∧ f.rd < 64 ∧ f.ra < 64 ∧ f.fn < 64 ∧ f.imm < 2 ^ 32 := by
  simp [Fits, fmtSI, SIw.vals]

theorem SMw.fits_iff {tag op : Nat} {f : SMw} : Fits fmtSM (f.vals tag op) ↔
    tag < 8 ∧ f.st < 8 ∧ op < 256 ∧ f.rt < 64 ∧ f.ra < 64 ∧ f.rb < 64 ∧ f.size < 4 ∧ f.ord < 8 ∧ f.scope < 8 ∧ f.ext < 2 ∧ f.hint < 8 ∧ f.off < 2 ^ 20 := by
  simp [Fits, fmtSM, SMw.vals]

theorem SXw.fits_iff {tag op : Nat} {f : SXw} : Fits fmtSX (f.vals tag op) ↔
    tag < 8 ∧ f.st < 8 ∧ op < 256 ∧ f.rt < 64 ∧ f.ra < 64 ∧ f.rb < 64 ∧ f.size < 4 ∧ f.ord < 8 ∧ f.scope < 8 ∧ f.fn < 16 ∧ f.tail < 2 ^ 20 := by
  simp [Fits, fmtSX, SXw.vals]

theorem ABw.fits_iff {tag op : Nat} {f : ABw} : Fits fmtAB (f.vals tag op) ↔
    tag < 8 ∧ f.st < 8 ∧ op < 256 ∧ f.f < 256 ∧ f.m < 1024 ∧ f.ra < 64 ∧ f.imm < 2 ^ 26 := by
  simp [Fits, fmtAB, ABw.vals]

theorem EAw.fits_iff {tag op : Nat} {f : EAw} : Fits fmtEA (f.vals tag op) ↔
    tag < 8 ∧ f.st < 8 ∧ op < 256 ∧ f.wv < 2 ∧ f.wsem < 256 ∧ f.sv < 2 ∧ f.ssem < 256 ∧ f.ch < 8 ∧ f.fn < 32 ∧ f.ra < 64 ∧ f.rb < 64 ∧ f.rc < 64 ∧ f.xv < 32 ∧ f.lo < 2 := by
  simp [Fits, fmtEA, EAw.vals]

theorem EIw.fits_iff {tag op : Nat} {f : EIw} : Fits fmtEI (f.vals tag op) ↔
    tag < 8 ∧ f.st < 8 ∧ op < 256 ∧ f.wv < 2 ∧ f.wsem < 256 ∧ f.sv < 2 ∧ f.ssem < 256 ∧ f.ch < 8 ∧ f.fn < 32 ∧ f.ra < 64 ∧ f.xv < 32 ∧ f.imm < 2 ^ 13 := by
  simp [Fits, fmtEI, EIw.vals]

/-! ## S-tagged words -/

section SWords

variable {op v : Nat} {i : Instr}

theorem SRw.r3w_iff (h : IsMain 0 op v) {k : R3w → Instr} (hk : ∀ o, (k o).wf = true → o.wf = true := by exact fun _ w => w) :
    (srOf v).r3w k = .ok i ↔
    ∃ o : R3w, (k o).wf = true ∧ i = k o ∧ v = o.enc op := by
  refine reads_sr.decode_iff h (D := (·.r3w k)) (fun o : R3w => ⟨o.st, o.rd, o.ra, o.rb, 0, 0, o.w.code, 0⟩) ?_ fun o hw => ?_
  · rintro ⟨⟩ i - - hd
    simp [SRw.r3w] at hd
    obtain ⟨rfl, rfl, rfl, wd, rfl, hw, rfl⟩ := hd
    exact ⟨_, hw, rfl, rfl⟩
  · have ho : o.wf = true := hk o hw
    simp [R3w.wf] at ho
    have := o.w.code_lt
    exact ⟨by simp [SRw.fits_iff, h.op_lt]; omega, by simp [SRw.r3w, hw]⟩

theorem SRw.r2w_iff (h : IsMain 0 op v) {k : R2w → Instr} (hk : ∀ o, (k o).wf = true → o.wf = true := by exact fun _ w => w) :
    (srOf v).r2w k = .ok i ↔
    ∃ o : R2w, (k o).wf = true ∧ i = k o ∧ v = o.enc op := by
  refine reads_sr.decode_iff h (D := (·.r2w k)) (fun o : R2w => ⟨o.st, o.rd, o.ra, 0, 0, 0, o.w.code, 0⟩) ?_ fun o hw => ?_
  · rintro ⟨⟩ i - - hd
    simp [SRw.r2w] at hd
    obtain ⟨rfl, rfl, rfl, rfl, wd, rfl, hw, rfl⟩ := hd
    exact ⟨_, hw, rfl, rfl⟩
  · have ho : o.wf = true := hk o hw
    simp [R2w.wf] at ho
    have := o.w.code_lt
    exact ⟨by simp [SRw.fits_iff, h.op_lt]; omega, by simp [SRw.r2w, hw]⟩

theorem SRw.r4w_iff (h : IsMain 0 op v) {k : R4w → Instr} (hk : ∀ o, (k o).wf = true → o.wf = true := by exact fun _ w => w) :
    (srOf v).r4w k = .ok i ↔
    ∃ o : R4w, (k o).wf = true ∧ i = k o ∧ v = o.enc op := by
  refine reads_sr.decode_iff h (D := (·.r4w k)) (fun o : R4w => ⟨o.st, o.rd, o.ra, o.rb, o.rc, 0, o.w.code, 0⟩) ?_ fun o hw => ?_
  · rintro ⟨⟩ i - - hd
    simp [SRw.r4w] at hd
    obtain ⟨rfl, rfl, wd, rfl, hw, rfl⟩ := hd
    exact ⟨_, hw, rfl, rfl⟩
  · have ho : o.wf = true := hk o hw
    simp [R4w.wf] at ho
    have := o.w.code_lt
    exact ⟨by simp [SRw.fits_iff, h.op_lt]; omega, by simp [SRw.r4w, hw]⟩

theorem SRw.r3_iff (h : IsMain 0 op v) {k : R3 → Instr} (hk : ∀ o, (k o).wf = true → o.wf = true := by exact fun _ w => w) :
    (srOf v).r3 k = .ok i ↔
    ∃ o : R3, (k o).wf = true ∧ i = k o ∧ v = o.enc op := by
  refine reads_sr.decode_iff h (D := (·.r3 k)) (fun o : R3 => ⟨o.st, o.rd, o.ra, o.rb, 0, 0, 0, 0⟩) ?_ fun o hw => ?_
  · rintro ⟨⟩ i - - hd
    simp [SRw.r3] at hd
    obtain ⟨rfl, rfl, rfl, rfl, hw, rfl⟩ := hd
    exact ⟨_, hw, rfl, rfl⟩
  · have ho : o.wf = true := hk o hw
    simp [R3.wf] at ho
    exact ⟨by simp [SRw.fits_iff, h.op_lt]; omega, by simp [SRw.r3, hw]⟩

theorem SRw.r4_iff (h : IsMain 0 op v) {k : R4 → Instr} (hk : ∀ o, (k o).wf = true → o.wf = true := by exact fun _ w => w) :
    (srOf v).r4 k = .ok i ↔
    ∃ o : R4, (k o).wf = true ∧ i = k o ∧ v = o.enc op := by
  refine reads_sr.decode_iff h (D := (·.r4 k)) (fun o : R4 => ⟨o.st, o.rd, o.ra, o.rb, o.rc, 0, 0, 0⟩) ?_ fun o hw => ?_
  · rintro ⟨⟩ i - - hd
    simp [SRw.r4] at hd
    obtain ⟨rfl, rfl, rfl, hw, rfl⟩ := hd
    exact ⟨_, hw, rfl, rfl⟩
  · have ho : o.wf = true := hk o hw
    simp [R4.wf] at ho
    exact ⟨by simp [SRw.fits_iff, h.op_lt]; omega, by simp [SRw.r4, hw]⟩

theorem SRw.r2_iff (h : IsMain 0 op v) {k : R2 → Instr} (hk : ∀ o, (k o).wf = true → o.wf = true := by exact fun _ w => w) :
    (srOf v).r2 k = .ok i ↔
    ∃ o : R2, (k o).wf = true ∧ i = k o ∧ v = o.enc op := by
  refine reads_sr.decode_iff h (D := (·.r2 k)) (fun o : R2 => ⟨o.st, o.rd, o.ra, 0, 0, 0, 0, 0⟩) ?_ fun o hw => ?_
  · rintro ⟨⟩ i - - hd
    simp [SRw.r2] at hd
    obtain ⟨rfl, rfl, rfl, rfl, rfl, hw, rfl⟩ := hd
    exact ⟨_, hw, rfl, rfl⟩
  · have ho : o.wf = true := hk o hw
    simp [R2.wf] at ho
    exact ⟨by simp [SRw.fits_iff, h.op_lt]; omega, by simp [SRw.r2, hw]⟩

theorem SRw.r1a_iff (h : IsMain 0 op v) {k : R1a → Instr} (hk : ∀ o, (k o).wf = true → o.wf = true := by exact fun _ w => w) :
    (srOf v).r1a k = .ok i ↔
    ∃ o : R1a, (k o).wf = true ∧ i = k o ∧ v = o.enc op := by
  refine reads_sr.decode_iff h (D := (·.r1a k)) (fun o : R1a => ⟨o.st, 0, o.ra, 0, 0, 0, 0, 0⟩) ?_ fun o hw => ?_
  · rintro ⟨⟩ i - - hd
    simp [SRw.r1a] at hd
    obtain ⟨rfl, rfl, rfl, rfl, rfl, rfl, hw, rfl⟩ := hd
    exact ⟨_, hw, rfl, rfl⟩
  · have ho : o.wf = true := hk o hw
    simp [R1a.wf] at ho
    exact ⟨by simp [SRw.fits_iff, h.op_lt]; omega, by simp [SRw.r1a, hw]⟩

theorem SRw.r1d_iff (h : IsMain 0 op v) {k : R1d → Instr} (hk : ∀ o, (k o).wf = true → o.wf = true := by exact fun _ w => w) :
    (srOf v).r1d k = .ok i ↔
    ∃ o : R1d, (k o).wf = true ∧ i = k o ∧ v = o.enc op := by
  refine reads_sr.decode_iff h (D := (·.r1d k)) (fun o : R1d => ⟨o.st, o.rd, 0, 0, 0, 0, 0, 0⟩) ?_ fun o hw => ?_
  · rintro ⟨⟩ i - - hd
    simp [SRw.r1d] at hd
    obtain ⟨rfl, rfl, rfl, rfl, rfl, rfl, hw, rfl⟩ := hd
    exact ⟨_, hw, rfl, rfl⟩
  · have ho : o.wf = true := hk o hw
    simp [R1d.wf] at ho
    exact ⟨by simp [SRw.fits_iff, h.op_lt]; omega, by simp [SRw.r1d, hw]⟩

theorem SRw.r0_iff (h : IsMain 0 op v) {k : R0 → Instr} (hk : ∀ o, (k o).wf = true → o.wf = true := by exact fun _ w => w) :
    (srOf v).r0 k = .ok i ↔
    ∃ o : R0, (k o).wf = true ∧ i = k o ∧ v = o.enc op := by
  refine reads_sr.decode_iff h (D := (·.r0 k)) (fun o : R0 => ⟨o.st, 0, 0, 0, 0, 0, 0, 0⟩) ?_ fun o hw => ?_
  · rintro ⟨⟩ i - - hd
    simp [SRw.r0] at hd
    obtain ⟨rfl, rfl, rfl, rfl, rfl, rfl, rfl, hw, rfl⟩ := hd
    exact ⟨_, hw, rfl, rfl⟩
  · have ho : o.wf = true := hk o hw
    simp [R0.wf] at ho
    exact ⟨by simp [SRw.fits_iff, h.op_lt]; omega, by simp [SRw.r0, hw]⟩

theorem SRw.rab_iff (h : IsMain 0 op v) {k : Rab → Instr} (hk : ∀ o, (k o).wf = true → o.wf = true := by exact fun _ w => w) :
    (srOf v).rab k = .ok i ↔
    ∃ o : Rab, (k o).wf = true ∧ i = k o ∧ v = o.enc op := by
  refine reads_sr.decode_iff h (D := (·.rab k)) (fun o : Rab => ⟨o.st, 0, o.ra, o.rb, 0, 0, 0, 0⟩) ?_ fun o hw => ?_
  · rintro ⟨⟩ i - - hd
    simp [SRw.rab] at hd
    obtain ⟨rfl, rfl, rfl, rfl, rfl, hw, rfl⟩ := hd
    exact ⟨_, hw, rfl, rfl⟩
  · have ho : o.wf = true := hk o hw
    simp [Rab.wf] at ho
    exact ⟨by simp [SRw.fits_iff, h.op_lt]; omega, by simp [SRw.rab, hw]⟩

@[simp] theorem fzOf_ok_iff {md : Nat} {fz : Bool} : fzOf md = .ok fz ↔ md = 2 * bit fz := by
  unfold fzOf
  simp [pure, Except.pure]
  cases fz <;> simp [flag, bit] <;> omega

theorem SRw.f3_iff (h : IsMain 0 op v) {k : F3 → Instr} (hk : ∀ o, (k o).wf = true → o.wf = true := by exact fun _ w => w) :
    (srOf v).f3 k = .ok i ↔
    ∃ o : F3, (k o).wf = true ∧ i = k o ∧ v = o.enc op := by
  refine reads_sr.decode_iff h (D := (·.f3 k)) (fun o : F3 => ⟨o.st, o.rd, o.ra, o.rb, 0, 0, 2 * bit o.fz, 0⟩) ?_ fun o hw => ?_
  · rintro ⟨⟩ i - - hd
    simp [SRw.f3, -Bool.exists_bool] at hd
    obtain ⟨rfl, rfl, rfl, fz, rfl, hw, rfl⟩ := hd
    exact ⟨_, hw, rfl, rfl⟩
  · have ho : o.wf = true := hk o hw
    simp [F3.wf] at ho
    have := bit_lt o.fz
    exact ⟨by simp [SRw.fits_iff, h.op_lt]; omega, by simp [SRw.f3, hw]⟩

theorem SRw.f4_iff (h : IsMain 0 op v) {k : F4 → Instr} (hk : ∀ o, (k o).wf = true → o.wf = true := by exact fun _ w => w) :
    (srOf v).f4 k = .ok i ↔
    ∃ o : F4, (k o).wf = true ∧ i = k o ∧ v = o.enc op := by
  refine reads_sr.decode_iff h (D := (·.f4 k)) (fun o : F4 => ⟨o.st, o.rd, o.ra, o.rb, o.rc, 0, 2 * bit o.fz, 0⟩) ?_ fun o hw => ?_
  · rintro ⟨⟩ i - - hd
    simp [SRw.f4, -Bool.exists_bool] at hd
    obtain ⟨rfl, rfl, fz, rfl, hw, rfl⟩ := hd
    exact ⟨_, hw, rfl, rfl⟩
  · have ho : o.wf = true := hk o hw
    simp [F4.wf] at ho
    have := bit_lt o.fz
    exact ⟨by simp [SRw.fits_iff, h.op_lt]; omega, by simp [SRw.f4, hw]⟩

theorem SRw.f2_iff (h : IsMain 0 op v) {k : F2 → Instr} (hk : ∀ o, (k o).wf = true → o.wf = true := by exact fun _ w => w) :
    (srOf v).f2 k = .ok i ↔
    ∃ o : F2, (k o).wf = true ∧ i = k o ∧ v = o.enc op := by
  refine reads_sr.decode_iff h (D := (·.f2 k)) (fun o : F2 => ⟨o.st, o.rd, o.ra, 0, 0, 0, 2 * bit o.fz, 0⟩) ?_ fun o hw => ?_
  · rintro ⟨⟩ i - - hd
    simp [SRw.f2, -Bool.exists_bool] at hd
    obtain ⟨rfl, rfl, rfl, rfl, fz, rfl, hw, rfl⟩ := hd
    exact ⟨_, hw, rfl, rfl⟩
  · have ho : o.wf = true := hk o hw
    simp [F2.wf] at ho
    have := bit_lt o.fz
    exact ⟨by simp [SRw.fits_iff, h.op_lt]; omega, by simp [SRw.f2, hw]⟩

theorem SRw.sel_iff (h : IsMain 0 op v) {k : SelF → Instr} (hk : ∀ o, (k o).wf = true → o.wf = true := by exact fun _ w => w) :
    (srOf v).sel k = .ok i ↔
    ∃ o : SelF, (k o).wf = true ∧ i = k o ∧ v = o.enc op := by
  refine reads_sr.decode_iff h (D := (·.sel k)) (fun o : SelF => ⟨o.st, o.rd, o.ra, o.rb, o.rc, 16 * bit o.pk, 0, 0⟩) ?_ fun o hw => ?_
  · rintro ⟨⟩ i - - hd
    simp [SRw.sel] at hd
    obtain ⟨hlow, hhigh, rfl, rfl, hw, rfl⟩ := hd
    exact ⟨_, hw, rfl, by simp; omega⟩
  · have ho : o.wf = true := hk o hw
    simp only [SelF.wf, Bool.and_eq_true, stOk_iff, regOk_iff] at ho
    obtain ⟨⟨⟨⟨hst, hrd⟩, hpk⟩, hrb⟩, hrc⟩ := ho
    have := lt_of_pk hpk
    have := bit_lt o.pk
    exact ⟨by simp [SRw.fits_iff, h.op_lt]; omega, by simp [SRw.sel, hw]; omega⟩

theorem SRw.cmp_iff (h : IsMain 0 op v) {k : CmpF → Instr} (hk : ∀ o, (k o).wf = true → o.wf = true := by exact fun _ w => w) :
    (srOf v).cmp k = .ok i ↔
    ∃ o : CmpF, (k o).wf = true ∧ i = k o ∧ v = o.enc op := by
  refine reads_sr.decode_iff h (D := (·.cmp k)) (fun o : CmpF => ⟨o.st, o.rd, o.ra, o.rb, 0, o.cond.code + 16 * bit o.pk, o.w.code, 0⟩) ?_ fun o hw => ?_
  · rintro ⟨⟩ i - - hd
    simp [SRw.cmp] at hd
    obtain ⟨rfl, hhigh, rfl, wd, rfl, c, hc, hw, rfl⟩ := hd
    exact ⟨_, hw, rfl, by simp; omega⟩
  · have ho : o.wf = true := hk o hw
    simp only [CmpF.wf, Bool.and_eq_true, stOk_iff, regOk_iff] at ho
    obtain ⟨⟨⟨hst, hpk⟩, hra⟩, hrb⟩ := ho
    have := lt_of_pk hpk
    have := bit_lt o.pk
    have := o.cond.code_lt
    have := o.w.code_lt
    have hcode : (o.cond.code + 16 * bit o.pk) / 16 = bit o.pk := by omega
    exact ⟨by simp [SRw.fits_iff, h.op_lt]; omega, by simp [SRw.cmp, hw, hcode]; omega⟩

theorem SRw.fcvt_iff (h : IsMain 0 op v) {k : FcvtF → Instr} (hk : ∀ o, (k o).wf = true → o.wf = true := by exact fun _ w => w) :
    (srOf v).fcvt k = .ok i ↔
    ∃ o : FcvtF, (k o).wf = true ∧ i = k o ∧ v = o.enc op := by
  refine reads_sr.decode_iff h (D := (·.fcvt k)) (fun o : FcvtF => ⟨o.st, o.rd, o.ra, 0, 0, o.src.code * 16 + o.dst.code, 2 * bit o.fz, 0⟩) ?_ fun o hw => ?_
  · rintro ⟨⟩ i - - hd
    simp [SRw.fcvt, -Bool.exists_bool] at hd
    obtain ⟨rfl, rfl, rfl, fz, rfl, src, hs, dst, hd, hw, rfl⟩ := hd
    exact ⟨_, hw, rfl, by simp; omega⟩
  · have ho : o.wf = true := hk o hw
    simp [FcvtF.wf] at ho
    have := bit_lt o.fz
    have := o.src.code_lt
    have := o.dst.code_lt
    have hsrc : (o.src.code * 16 + o.dst.code) / 16 = o.src.code := by omega
    exact ⟨by simp [SRw.fits_iff, h.op_lt]; omega, by simp [SRw.fcvt, hw, hsrc]⟩

theorem SRw.fcmp_iff (h : IsMain 0 op v) {k : FcmpF → Instr} (hk : ∀ o, (k o).wf = true → o.wf = true := by exact fun _ w => w) :
    (srOf v).fcmp k = .ok i ↔
    ∃ o : FcmpF, (k o).wf = true ∧ i = k o ∧ v = o.enc op := by
  refine reads_sr.decode_iff h (D := (·.fcmp k)) (fun o : FcmpF => ⟨o.st, o.rd, o.ra, o.rb, 0, o.cond.code + 16 * bit o.pk, 2 * bit o.fz, 0⟩) ?_ fun o hw => ?_
  · rintro ⟨⟩ i - - hd
    simp [SRw.fcmp, -Bool.exists_bool] at hd
    obtain ⟨rfl, hhigh, rfl, fz, rfl, c, hc, hw, rfl⟩ := hd
    exact ⟨_, hw, rfl, by simp; omega⟩
  · have ho : o.wf = true := hk o hw
    simp only [FcmpF.wf, Bool.and_eq_true, stOk_iff, regOk_iff] at ho
    obtain ⟨⟨⟨⟨hst, hpk⟩, hra⟩, hrb⟩, -⟩ := ho
    have := lt_of_pk hpk
    have := bit_lt o.pk
    have := o.cond.code_lt
    have := bit_lt o.fz
    have hcode : (o.cond.code + 16 * bit o.pk) / 16 = bit o.pk := by omega
    exact ⟨by simp [SRw.fits_iff, h.op_lt]; omega, by simp [SRw.fcmp, hw, hcode]; omega⟩

theorem SRw.pload_iff (h : IsMain 0 op v) : (srOf v).pload = .ok i ↔
    ∃ o : PloadF, (Instr.pload o).wf = true ∧ i = .pload o ∧ v = o.enc op := by
  refine reads_sr.decode_iff h (D := (·.pload)) (fun o : PloadF => ⟨o.st, 0, o.ra, 0, 0, o.slot, 0, 0⟩) ?_ fun o hw => ?_
  · rintro ⟨⟩ i - - hd
    simp [SRw.pload] at hd
    obtain ⟨rfl, rfl, rfl, hf, rfl, rfl, hw, rfl⟩ := hd
    exact ⟨_, hw, rfl, rfl⟩
  · have ho : o.wf = true := hw
    simp [PloadF.wf] at ho
    exact ⟨by simp [SRw.fits_iff, h.op_lt]; omega, by simp [SRw.pload, hw]; omega⟩

theorem SRw.ppar_iff (h : IsMain 0 op v) : (srOf v).ppar = .ok i ↔
    ∃ o : PparF, (Instr.ppar o).wf = true ∧ i = .ppar o ∧ v = o.enc op := by
  refine reads_sr.decode_iff h (D := (·.ppar)) (fun o : PparF => ⟨o.st, 0, o.ra, 0, 0, o.p, 0, 0⟩) ?_ fun o hw => ?_
  · rintro ⟨⟩ i - - hd
    simp [SRw.ppar] at hd
    obtain ⟨rfl, rfl, rfl, hf, rfl, rfl, hw, rfl⟩ := hd
    exact ⟨_, hw, rfl, rfl⟩
  · have ho : o.wf = true := hw
    simp [PparF.wf] at ho
    exact ⟨by simp [SRw.fits_iff, h.op_lt]; omega, by simp [SRw.ppar, hw]; omega⟩

theorem SRw.pclr_iff (h : IsMain 0 op v) : (srOf v).pclr = .ok i ↔
    ∃ o : PclrF, (Instr.pclr o).wf = true ∧ i = .pclr o ∧ v = o.enc op := by
  refine reads_sr.decode_iff h (D := (·.pclr)) (fun o : PclrF => ⟨o.st, 0, 0, 0, 0, o.slot + 8 * bit o.lpm, 0, 0⟩) ?_ fun o hw => ?_
  · rintro ⟨⟩ i - - hd
    simp [SRw.pclr] at hd
    obtain ⟨rfl, rfl, rfl, rfl, hf, rfl, rfl, hw, rfl⟩ := hd
    exact ⟨_, hw, rfl, by simp; omega⟩
  · have ho : o.wf = true := hw
    simp [PclrF.wf] at ho
    have := bit_lt o.lpm
    have hlpm : (o.slot + 8 * bit o.lpm) / 8 = bit o.lpm := by omega
    have hslot : o.slot % 8 = o.slot := by omega
    exact ⟨by simp [SRw.fits_iff, h.op_lt]; omega, by simp [SRw.pclr, hw, hlpm, hslot]; omega⟩

theorem SIw.riw_iff (h : IsMain 0 op v) {k : RIw → Instr} (hk : ∀ o, (k o).wf = true → o.wf = true := by exact fun _ w => w) :
    (siOf v).riw k = .ok i ↔
    ∃ o : RIw, (k o).wf = true ∧ i = k o ∧ v = o.enc op := by
  refine reads_si.decode_iff h (D := (·.riw k)) (fun o : RIw => ⟨o.st, o.rd, o.ra, o.w.code, o.imm.toNat⟩) ?_ fun o hw => ?_
  · rintro ⟨⟩ i - hf hd
    simp only [SIw.fits_iff] at hf
    simp [SIw.riw] at hd
    obtain ⟨wd, rfl, hw, rfl⟩ := hd
    exact ⟨_, hw, rfl, by simp; omega⟩
  · have ho : o.wf = true := hk o hw
    simp [RIw.wf] at ho
    have := o.w.code_lt
    exact ⟨by simp [SIw.fits_iff, h.op_lt]; omega, by simp [SIw.riw, hw]⟩

theorem SIw.cmpi_iff (h : IsMain 0 op v) : (siOf v).cmpi = .ok i ↔
    ∃ o : CmpiF, (Instr.cmpi o).wf = true ∧ i = .cmpi o ∧ v = o.enc op := by
  refine reads_si.decode_iff h (D := (·.cmpi)) (fun o : CmpiF => ⟨o.st, o.rd, o.ra, o.cond.code, o.imm.toNat⟩) ?_ fun o hw => ?_
  · rintro ⟨⟩ i - hf hd
    simp only [SIw.fits_iff] at hf
    simp [SIw.cmpi] at hd
    obtain ⟨hh, c, hc, hw, rfl⟩ := hd
    exact ⟨_, hw, rfl, by simp; omega⟩
  · have ho : o.wf = true := hw
    simp [CmpiF.wf] at ho
    have := o.cond.code_lt
    exact ⟨by simp [SIw.fits_iff, h.op_lt]; omega, by simp [SIw.cmpi, hw]⟩

theorem SIw.ri0_iff (h : IsMain 0 op v) {k : RI0 → Instr} (hk : ∀ o, (k o).wf = true → o.wf = true := by exact fun _ w => w) :
    (siOf v).ri0 k = .ok i ↔
    ∃ o : RI0, (k o).wf = true ∧ i = k o ∧ v = o.enc op := by
  refine reads_si.decode_iff h (D := (·.ri0 k)) (fun o : RI0 => ⟨o.st, o.rd, 0, 0, o.imm.toNat⟩) ?_ fun o hw => ?_
  · rintro ⟨⟩ i - hf hd
    simp only [SIw.fits_iff] at hf
    simp [SIw.ri0] at hd
    obtain ⟨rfl, rfl, hw, rfl⟩ := hd
    exact ⟨_, hw, rfl, by simp; omega⟩
  · have ho : o.wf = true := hk o hw
    simp [RI0.wf] at ho
    exact ⟨by simp [SIw.fits_iff, h.op_lt]; omega, by simp [SIw.ri0, hw]⟩

theorem SIw.semn_iff (h : IsMain 0 op v) {k : SemN → Instr} (hk : ∀ o, (k o).wf = true → o.wf = true := by exact fun _ w => w) :
    (siOf v).semn k = .ok i ↔
    ∃ o : SemN, (k o).wf = true ∧ i = k o ∧ v = o.enc op := by
  refine reads_si.decode_iff h (D := (·.semn k)) (fun o : SemN => ⟨o.st, 0, 0, 0, o.n.toNat * 256 + o.sem⟩) ?_ fun o hw => ?_
  · rintro ⟨⟩ i - hf hd
    simp only [SIw.fits_iff] at hf
    simp [SIw.semn] at hd
    obtain ⟨rfl, rfl, rfl, hi, hw, rfl⟩ := hd
    exact ⟨_, hw, rfl, by simp; omega⟩
  · have ho : o.wf = true := hk o hw
    simp [SemN.wf] at ho
    have hn : (o.n.toNat * 256 + o.sem) / 256 = o.n.toNat := by omega
    have hsem : o.sem % 256 = o.sem := by omega
    exact ⟨by simp [SIw.fits_iff, h.op_lt]; omega, by simp [SIw.semn, hw, hn, hsem]; omega⟩

theorem SIw.semi_iff (h : IsMain 0 op v) : (siOf v).semi = .ok i ↔
    ∃ o : SemI, (Instr.semi o).wf = true ∧ i = .semi o ∧ v = o.enc op := by
  refine reads_si.decode_iff h (D := (·.semi)) (fun o : SemI => ⟨o.st, 0, 0, bit o.keep, o.v.toNat * 256 + o.sem⟩) ?_ fun o hw => ?_
  · rintro ⟨⟩ i - hf hd
    simp only [SIw.fits_iff] at hf
    simp [SIw.semi] at hd
    obtain ⟨rfl, rfl, hn, hi, hw, rfl⟩ := hd
    exact ⟨_, hw, rfl, by simp [bit_flag (Nat.lt_succ_of_le hn)]; omega⟩
  · have ho : o.wf = true := hw
    simp [SemI.wf] at ho
    have := bit_lt o.keep
    have hv : (o.v.toNat * 256 + o.sem) / 256 = o.v.toNat := by omega
    have hsem : o.sem % 256 = o.sem := by omega
    exact ⟨by simp [SIw.fits_iff, h.op_lt]; omega, by simp [SIw.semi, hw, hv, hsem]; omega⟩

theorem SIw.semr_iff (h : IsMain 0 op v) : (siOf v).semr = .ok i ↔
    ∃ o : SemR, (Instr.semr o).wf = true ∧ i = .semr o ∧ v = o.enc op := by
  refine reads_si.decode_iff h (D := (·.semr)) (fun o : SemR => ⟨o.st, o.rd, 0, bit o.sw, o.sem⟩) ?_ fun o hw => ?_
  · rintro ⟨⟩ i - - hd
    simp [SIw.semr] at hd
    obtain ⟨rfl, hn, hi, hw, rfl⟩ := hd
    exact ⟨_, hw, rfl, by simp [bit_flag (Nat.lt_succ_of_le hn)]⟩
  · have ho : o.wf = true := hw
    simp [SemR.wf] at ho
    have := bit_lt o.sw
    exact ⟨by simp [SIw.fits_iff, h.op_lt]; omega, by simp [SIw.semr, hw]; omega⟩

theorem SIw.rdsys_iff (h : IsMain 0 op v) : (siOf v).rdsys = .ok i ↔
    ∃ o : RdsysF, (Instr.rdsys o).wf = true ∧ i = .rdsys o ∧ v = o.enc op := by
  refine reads_si.decode_iff h (D := (·.rdsys)) (fun o : RdsysF => ⟨o.st, o.rd, 0, 0, o.num.toNat⟩) ?_ fun o hw => ?_
  · rintro ⟨⟩ i - hf hd
    simp only [SIw.fits_iff] at hf
    simp [SIw.rdsys] at hd
    obtain ⟨rfl, rfl, hw, rfl⟩ := hd
    exact ⟨_, hw, rfl, by simp; omega⟩
  · have ho : o.wf = true := hw
    simp [RdsysF.wf] at ho
    exact ⟨by simp [SIw.fits_iff, h.op_lt]; omega, by simp [SIw.rdsys, hw]⟩

theorem SIw.wrsys_iff (h : IsMain 0 op v) : (siOf v).wrsys = .ok i ↔
    ∃ o : WrsysF, (Instr.wrsys o).wf = true ∧ i = .wrsys o ∧ v = o.enc op := by
  refine reads_si.decode_iff h (D := (·.wrsys)) (fun o : WrsysF => ⟨o.st, 0, o.ra, 0, o.num.toNat⟩) ?_ fun o hw => ?_
  · rintro ⟨⟩ i - hf hd
    simp only [SIw.fits_iff] at hf
    simp [SIw.wrsys] at hd
    obtain ⟨rfl, rfl, hw, rfl⟩ := hd
    exact ⟨_, hw, rfl, by simp; omega⟩
  · have ho : o.wf = true := hw
    simp [WrsysF.wf] at ho
    exact ⟨by simp [SIw.fits_iff, h.op_lt]; omega, by simp [SIw.wrsys, hw]⟩

theorem SIw.immf_iff (h : IsMain 0 op v) {k : ImmF → Instr} (hk : ∀ o, (k o).wf = true → o.wf = true := by exact fun _ w => w) :
    (siOf v).immf k = .ok i ↔
    ∃ o : ImmF, (k o).wf = true ∧ i = k o ∧ v = o.enc op := by
  refine reads_si.decode_iff h (D := (·.immf k)) (fun o : ImmF => ⟨o.st, 0, 0, 0, o.imm.toNat⟩) ?_ fun o hw => ?_
  · rintro ⟨⟩ i - hf hd
    simp only [SIw.fits_iff] at hf
    simp [SIw.immf] at hd
    obtain ⟨rfl, rfl, rfl, hw, rfl⟩ := hd
    exact ⟨_, hw, rfl, by simp; omega⟩
  · have ho : o.wf = true := hk o hw
    simp [ImmF.wf] at ho
    exact ⟨by simp [SIw.fits_iff, h.op_lt]; omega, by simp [SIw.immf, hw]⟩

theorem SMw.ld_iff (h : IsMain 0 op v) : (smOf v).ld = .ok i ↔
    ∃ o : LdF, (Instr.ld o).wf = true ∧ i = .ld o ∧ v = o.enc op := by
  refine reads_sm.decode_iff h (D := (·.ld)) (fun o : LdF => ⟨o.st, o.rt, o.ra, 0, o.size.code, o.ord.code, o.scope.code, bit o.sx, o.hint.code, o.off.toNat⟩) ?_ fun o hw => ?_
  · rintro ⟨st, rt, ra, rb, size, ord, scope, ext, hint, off⟩ i - hf hd
    simp only [SMw.fits_iff] at hf
    simp [SMw.ld] at hd
    obtain ⟨rfl, z, rfl, o, rfl, sc, rfl, hint, rfl, hw, rfl⟩ := hd
    exact ⟨_, hw, rfl, by simp [bit_flag (show ext < 2 by omega)]; omega⟩
  · have ho : o.wf = true := hw
    simp [LdF.wf] at ho
    have := o.size.code_lt
    have := o.ord.code_lt
    have := o.scope.code_lt
    have := o.hint.code_lt
    have := bit_lt o.sx
    exact ⟨by simp [SMw.fits_iff, h.op_lt]; omega, by simp [SMw.ld, hw]⟩

theorem SMw.store_iff (h : IsMain 0 op v) : (smOf v).store = .ok i ↔
    ∃ o : StF, (Instr.st o).wf = true ∧ i = .st o ∧ v = o.enc op := by
  refine reads_sm.decode_iff h (D := (·.store)) (fun o : StF => ⟨o.st, o.rt, o.ra, 0, o.size.code, o.ord.code, o.scope.code, 0, o.hint.code, o.off.toNat⟩) ?_ fun o hw => ?_
  · rintro ⟨⟩ i - hf hd
    simp only [SMw.fits_iff] at hf
    simp [SMw.store] at hd
    obtain ⟨rfl, rfl, z, rfl, o, rfl, sc, rfl, hint, rfl, hw, rfl⟩ := hd
    exact ⟨_, hw, rfl, by simp; omega⟩
  · have ho : o.wf = true := hw
    simp [StF.wf] at ho
    have := o.size.code_lt
    have := o.ord.code_lt
    have := o.scope.code_lt
    have := o.hint.code_lt
    exact ⟨by simp [SMw.fits_iff, h.op_lt]; omega, by simp [SMw.store, hw]⟩

theorem SMw.ldx_iff (h : IsMain 0 op v) : (smOf v).ldx = .ok i ↔
    ∃ o : LdxF, (Instr.ldx o).wf = true ∧ i = .ldx o ∧ v = o.enc op := by
  refine reads_sm.decode_iff h (D := (·.ldx)) (fun o : LdxF => ⟨o.st, o.rt, o.ra, o.rb, o.size.code, o.ord.code, o.scope.code, bit o.sx, o.hint.code, 0⟩) ?_ fun o hw => ?_
  · rintro ⟨st, rt, ra, rb, size, ord, scope, ext, hint, off⟩ i - hf hd
    simp only [SMw.fits_iff] at hf
    simp [SMw.ldx] at hd
    obtain ⟨rfl, z, rfl, o, rfl, sc, rfl, hint, rfl, hw, rfl⟩ := hd
    exact ⟨_, hw, rfl, by simp [bit_flag (show ext < 2 by omega)]⟩
  · have ho : o.wf = true := hw
    simp [LdxF.wf] at ho
    have := o.size.code_lt
    have := o.ord.code_lt
    have := o.scope.code_lt
    have := o.hint.code_lt
    have := bit_lt o.sx
    exact ⟨by simp [SMw.fits_iff, h.op_lt]; omega, by simp [SMw.ldx, hw]⟩

theorem SMw.stx_iff (h : IsMain 0 op v) : (smOf v).stx = .ok i ↔
    ∃ o : StxF, (Instr.stx o).wf = true ∧ i = .stx o ∧ v = o.enc op := by
  refine reads_sm.decode_iff h (D := (·.stx)) (fun o : StxF => ⟨o.st, o.rt, o.ra, o.rb, o.size.code, o.ord.code, o.scope.code, 0, o.hint.code, 0⟩) ?_ fun o hw => ?_
  · rintro ⟨⟩ i - - hd
    simp [SMw.stx] at hd
    obtain ⟨rfl, rfl, z, rfl, o, rfl, sc, rfl, hint, rfl, hw, rfl⟩ := hd
    exact ⟨_, hw, rfl, rfl⟩
  · have ho : o.wf = true := hw
    simp [StxF.wf] at ho
    have := o.size.code_lt
    have := o.ord.code_lt
    have := o.scope.code_lt
    have := o.hint.code_lt
    exact ⟨by simp [SMw.fits_iff, h.op_lt]; omega, by simp [SMw.stx, hw]⟩

theorem SMw.pref_iff (h : IsMain 0 op v) : (smOf v).pref = .ok i ↔
    ∃ o : PrefF, (Instr.pref o).wf = true ∧ i = .pref o ∧ v = o.enc op := by
  refine reads_sm.decode_iff h (D := (·.pref)) (fun o : PrefF => ⟨o.st, 0, o.ra, 0, o.size.code, 0, o.scope.code, 0, o.hint.code, o.off.toNat⟩) ?_ fun o hw => ?_
  · rintro ⟨⟩ i - hf hd
    simp only [SMw.fits_iff] at hf
    simp [SMw.pref] at hd
    obtain ⟨rfl, rfl, rfl, rfl, z, rfl, sc, rfl, hint, rfl, hw, rfl⟩ := hd
    exact ⟨_, hw, rfl, by simp; omega⟩
  · have ho : o.wf = true := hw
    simp [PrefF.wf] at ho
    have := o.size.code_lt
    have := o.scope.code_lt
    have := o.hint.code_lt
    exact ⟨by simp [SMw.fits_iff, h.op_lt]; omega, by simp [SMw.pref, hw]⟩

theorem SMw.waita_iff (h : IsMain 0 op v) : (smOf v).waita = .ok i ↔
    ∃ o : WaitaF, (Instr.waita o).wf = true ∧ i = .waita o ∧ v = o.enc op := by
  refine reads_sm.decode_iff h (D := (·.waita)) (fun o : WaitaF => ⟨o.st, o.rt, o.ra, o.rb, o.size.code, o.ord.code, o.scope.code, bit o.sx, o.hint.code, o.off.toNat⟩) ?_ fun o hw => ?_
  · rintro ⟨st, rt, ra, rb, size, ord, scope, ext, hint, off⟩ i - hf hd
    simp only [SMw.fits_iff] at hf
    simp [SMw.waita] at hd
    obtain ⟨z, rfl, o, rfl, sc, rfl, hint, rfl, hw, rfl⟩ := hd
    exact ⟨_, hw, rfl, by simp [bit_flag (show ext < 2 by omega)]; omega⟩
  · have ho : o.wf = true := hw
    simp [WaitaF.wf] at ho
    have := o.size.code_lt
    have := o.ord.code_lt
    have := o.scope.code_lt
    have := o.hint.code_lt
    have := bit_lt o.sx
    exact ⟨by simp [SMw.fits_iff, h.op_lt]; omega, by simp [SMw.waita, hw]⟩

theorem SMw.mark_iff (h : IsMain 0 op v) : (smOf v).mark = .ok i ↔
    ∃ o : R0, (Instr.mark o).wf = true ∧ i = .mark o ∧ v = encSM op o.st 0 0 0 0 0 0 0 0 0 := by
  refine reads_sm.decode_iff h (D := (·.mark)) (fun o : R0 => ⟨o.st, 0, 0, 0, 0, 0, 0, 0, 0, 0⟩) ?_ fun o hw => ?_
  · rintro ⟨⟩ i - - hd
    simp [SMw.mark] at hd
    obtain ⟨rfl, rfl, rfl, rfl, rfl, rfl, rfl, rfl, rfl, hw, rfl⟩ := hd
    exact ⟨_, hw, rfl, rfl⟩
  · have ho : o.wf = true := hw
    simp [R0.wf] at ho
    exact ⟨by simp [SMw.fits_iff, h.op_lt]; omega, by simp [SMw.mark, hw]⟩

theorem SMw.fence_iff (h : IsMain 0 op v) : (smOf v).fence = .ok i ↔
    ∃ o : FenceF, (Instr.fence o).wf = true ∧ i = .fence o ∧ v = o.enc op := by
  refine reads_sm.decode_iff h (D := (·.fence)) (fun o : FenceF => ⟨o.st, 0, 0, 0, 0, o.ord.code, o.scope.code, 0, 0, 0⟩) ?_ fun o hw => ?_
  · rintro ⟨⟩ i - - hd
    simp [SMw.fence] at hd
    obtain ⟨rfl, rfl, rfl, rfl, rfl, rfl, rfl, o, rfl, sc, rfl, hw, rfl⟩ := hd
    exact ⟨_, hw, rfl, rfl⟩
  · have ho : o.wf = true := hw
    simp [FenceF.wf] at ho
    have := o.ord.code_lt
    have := o.scope.code_lt
    exact ⟨by simp [SMw.fits_iff, h.op_lt]; omega, by simp [SMw.fence, hw]⟩

theorem SXw.amo_iff (h : IsMain 0 op v) {k : AmoF → Instr} (hk : ∀ o, (k o).wf = true → o.wf = true := by exact fun _ w => w) :
    (sxOf v).amo k = .ok i ↔
    ∃ o : AmoF, (k o).wf = true ∧ i = k o ∧ v = o.enc op := by
  refine reads_sx.decode_iff h (D := (·.amo k)) (fun o : AmoF => ⟨o.st, o.rt, o.ra, o.rb, 2 + bit o.wide, o.ord.code, o.scope.code, o.op.code, o.off.toNat⟩) ?_ fun o hw => ?_
  · rintro ⟨⟩ i - - hd
    simp [SXw.amo, -Bool.exists_bool] at hd
    obtain ⟨ht, wd, rfl, o, rfl, sc, rfl, a, rfl, hw, rfl⟩ := hd
    exact ⟨_, hw, rfl, by simp; omega⟩
  · have ho : o.wf = true := hk o hw
    simp [AmoF.wf] at ho
    have := bit_lt o.wide
    have := o.ord.code_lt
    have := o.scope.code_lt
    have := o.op.code_lt
    exact ⟨by simp [SXw.fits_iff, h.op_lt]; omega, by simp [SXw.amo, hw]; omega⟩

theorem SXw.cas_iff (h : IsMain 0 op v) : (sxOf v).cas = .ok i ↔
    ∃ o : CasF, (Instr.cas o).wf = true ∧ i = .cas o ∧ v = o.enc op := by
  refine reads_sx.decode_iff h (D := (·.cas)) (fun o : CasF => ⟨o.st, o.rt, o.ra, o.rb, 2 + bit o.wide, o.ord.code, o.scope.code, 0, o.rc * 2 ^ 14 + o.off.toNat⟩) ?_ fun o hw => ?_
  · rintro ⟨⟩ i - hf hd
    simp only [SXw.fits_iff] at hf
    simp [SXw.cas, -Bool.exists_bool] at hd
    obtain ⟨rfl, wd, rfl, o, rfl, sc, rfl, hw, rfl⟩ := hd
    exact ⟨_, hw, rfl, by simp; omega⟩
  · have ho : o.wf = true := hw
    simp [CasF.wf] at ho
    have := bit_lt o.wide
    have := o.ord.code_lt
    have := o.scope.code_lt
    have hrc : (o.rc * 16384 + o.off.toNat) / 16384 = o.rc := by omega
    have hoff : BitVec.ofNat 14 (o.rc * 16384 + o.off.toNat) = o.off := BitVec.eq_of_toNat_eq (by simp; omega)
    exact ⟨by simp [SXw.fits_iff, h.op_lt]; omega, by simp [SXw.cas, hw, hrc, hoff]⟩

/-- The size, fn and upper tail of a memory reduction name one mode (R270, R314). -/
theorem mredModeOf_ok_iff {fn size tail : Nat} (hfn : fn < 16) {m : MredMode} :
    mredModeOf fn size tail = .ok m ↔ size = m.enc.1 ∧ fn = m.enc.2.1 ∧ tail / 256 * 256 = m.enc.2.2 := by
  unfold mredModeOf
  by_cases h8 : fn / 8 = 1
  · simp [h8, pure, Except.pure]
    cases m with
    | float ty satf can fz =>
      have := bit_lt satf
      have := bit_lt can
      have := bit_lt fz
      simp [MredMode.enc]
      omega
    | fixed e =>
      have := e.isLt
      simp [MredMode.enc, ETy.code, ← BitVec.toNat_inj]
      omega
  · simp [h8, pure, Except.pure]
    cases m with
    | float ty satf can fz =>
      have := bit_lt satf
      have := bit_lt can
      have := bit_lt fz
      simp [MredMode.enc, flag_mod_iff]
      omega
    | fixed e =>
      simp [MredMode.enc]
      omega

theorem MredMode.enc_lt {m : MredMode} (h : m.wf = true) : m.enc.1 < 4 ∧ m.enc.2.1 < 16 ∧ m.enc.2.2 % 256 = 0 ∧ m.enc.2.2 < 2 ^ 20 := by
  cases m with
  | float ty satf can fz =>
    have := bit_lt satf
    have := bit_lt can
    have := bit_lt fz
    have := ty.code_lt
    simp only [MredMode.enc]
    split <;> omega
  | fixed e =>
    have := e.isLt
    simp only [MredMode.enc]
    omega

theorem SXw.mred_iff (h : IsMain 0 op v) {k : MredF → Instr} (hk : ∀ o, (k o).wf = true → o.wf = true := by exact fun _ w => w) :
    (sxOf v).mred k = .ok i ↔
    ∃ o : MredF, (k o).wf = true ∧ i = k o ∧ v = o.enc op := by
  refine reads_sx.decode_iff h (D := (·.mred k))
    (fun o : MredF => ⟨o.st, 0, o.ra, o.rb, o.mode.enc.1, o.ord.code, o.scope.code, o.mode.enc.2.1, o.mode.enc.2.2 + o.off.toNat⟩) ?_ fun o hw => ?_
  · rintro ⟨st, rt, ra, rb, size, ord, scope, fn, tail⟩ i - hf hd
    simp only [SXw.fits_iff] at hf
    have hfn : fn < 16 := by omega
    simp [SXw.mred, mredModeOf_ok_iff hfn] at hd
    obtain ⟨rfl, o, rfl, sc, rfl, m, ⟨rfl, rfl, htail⟩, hw, rfl⟩ := hd
    exact ⟨_, hw, rfl, by simp; omega⟩
  · have ho := hk o hw
    simp only [MredF.wf, Bool.and_eq_true] at ho
    obtain ⟨⟨⟨⟨hst, hra⟩, hrb⟩, -⟩, hm⟩ := ho
    simp at hst hra hrb
    have := MredMode.enc_lt hm
    have := o.ord.code_lt
    have := o.scope.code_lt
    have hmode : mredModeOf o.mode.enc.2.1 o.mode.enc.1 (o.mode.enc.2.2 + o.off.toNat) = .ok o.mode :=
      (mredModeOf_ok_iff (by omega)).2 ⟨rfl, rfl, by omega⟩
    have hoff : BitVec.ofNat 8 (o.mode.enc.2.2 + o.off.toNat) = o.off := BitVec.eq_of_toNat_eq (by simp; omega)
    exact ⟨by simp [SXw.fits_iff, h.op_lt]; omega, by simp [SXw.mred, hw, hmode, hoff]⟩

/-- tlbi names its registers where bit 18 is not set (R340). -/
theorem SRw.tlbi_iff (h : IsMain 0 op v) : (srOf v).tlbi = .ok i ↔ ∃ o : TlbiF, (Instr.tlbi o).wf = true ∧ i = .tlbi o ∧ v = o.enc op := by
  have henc : ∀ o : TlbiF, o.enc op = packOf fmtSR (SRw.vals 0 op (match o.range with
      | none => ⟨o.st, 0, 0, 0, 0, 1 + 2 * bit o.g, 0, 0⟩
      | some (a, b) => ⟨o.st, 0, a, b, 0, 2 * bit o.g, 0, 0⟩)) := by
    rintro ⟨st, _ | ⟨a, b⟩, g⟩ <;> rfl
  simp only [henc]
  refine reads_sr.decode_iff h (D := (·.tlbi)) (fun o : TlbiF => _) ?_ fun o hw => ?_
  · rintro ⟨st, rd, ra, rb, rc, fn, md, lo⟩ i - - hd
    simp [SRw.tlbi] at hd
    obtain ⟨rfl, rfl, hfn, rfl, rfl, hd⟩ := hd
    split at hd
    · simp at hd
      obtain ⟨rfl, rfl, hw, rfl⟩ := hd
      exact ⟨_, hw, rfl, by simp; omega⟩
    · simp at hd
      obtain ⟨hw, rfl⟩ := hd
      exact ⟨_, hw, rfl, by simp; omega⟩
  · obtain ⟨st, _ | ⟨a, b⟩, g⟩ := o <;> have := bit_lt g
    · have ho : st < 8 := by simpa [Instr.wf, TlbiF.wf] using hw
      have hg : (1 + 2 * bit g) / 2 = bit g := by omega
      exact ⟨by simp [SRw.fits_iff, h.op_lt]; omega, by simp [SRw.tlbi, hw, hg]; omega⟩
    · have ho : st < 8 ∧ a < 64 ∧ b < 64 := by simpa [Instr.wf, TlbiF.wf] using hw
      exact ⟨by simp [SRw.fits_iff, h.op_lt]; omega, by simp [SRw.tlbi, hw]; omega⟩

/-- pbind and pbind.u share an opcode, and bit 24 tells them apart (R413, R416). -/
theorem SRw.pbind_sum_iff (h : IsMain 0 op v) : (srOf v).pbind = .ok i ↔ ∃ o : PbindF ⊕ PbindUF,
    (Sum.elim Instr.pbind .pbindU o).wf = true ∧ i = Sum.elim .pbind .pbindU o ∧ v = Sum.elim (·.enc op) (·.enc op) o := by
  have henc : ∀ o : PbindF ⊕ PbindUF, Sum.elim (·.enc op) (·.enc op) o = packOf fmtSR (SRw.vals 0 op (Sum.elim
      (fun o => ⟨o.st, 0, 0, 0, 0, o.slot + 8 * o.pt.code, 0, 0⟩) (fun o => ⟨o.st, 0, 0, 0, 0, 8 * o.pt.code + 64, 0, 0⟩) o)) := by
    intro o
    rw [← Function.comp_apply (f := fun f => packOf fmtSR (SRw.vals 0 op f)), Sum.comp_elim]
    rfl
  simp only [henc]
  refine reads_sr.decode_iff h (D := (·.pbind)) (k := Sum.elim .pbind .pbindU) (Sum.elim _ _) ?_ ?_
  · rintro ⟨st, rd, ra, rb, rc, fn, md, lo⟩ i - - hd
    simp [SRw.pbind] at hd
    obtain ⟨rfl, rfl, rfl, rfl, hfn, rfl, rfl, pt, hpt, hd⟩ := hd
    split at hd
    · simp at hd
      obtain ⟨hlow, hw, rfl⟩ := hd
      exact ⟨.inr _, hw, rfl, by simp; omega⟩
    · simp at hd
      obtain ⟨hw, rfl⟩ := hd
      exact ⟨.inl _, hw, rfl, by simp; omega⟩
  · rintro (o | o) hw
    · have ho : o.st < 8 ∧ o.slot < 8 := by simpa [Instr.wf, PbindF.wf] using hw
      have := o.pt.code_lt
      have hslot : o.slot % 8 = o.slot := by omega
      have hpt : (o.slot + 8 * o.pt.code) / 8 % 8 = o.pt.code := by omega
      have hu : ¬ (o.slot + 8 * o.pt.code) / 64 % 2 = 1 := by omega
      exact ⟨by simp [SRw.fits_iff, h.op_lt]; omega, by simp [SRw.pbind, hpt, hslot, hu, show (Instr.pbind o).wf = true from hw]; omega⟩
    · have ho : o.st < 8 := by simpa [Instr.wf, PbindUF.wf] using hw
      have := o.pt.code_lt
      have hpt : (8 * o.pt.code + 64) / 8 % 8 = o.pt.code := by omega
      have hu : (8 * o.pt.code + 64) / 64 % 2 = 1 := by omega
      exact ⟨by simp [SRw.fits_iff, h.op_lt]; omega, by
        simp only [SRw.pbind, Sum.elim_inr, hpt, hu]
        simp [show (Instr.pbindU o).wf = true from hw]; omega⟩

theorem exists_sum_elim_iff {F G : Type} {k : F → Instr} {l : G → Instr} {e : F → Nat} {f : G → Nat} {v : Nat} {i : Instr} :
    (∃ o : F ⊕ G, (Sum.elim k l o).wf = true ∧ i = Sum.elim k l o ∧ v = Sum.elim e f o) ↔
      (∃ o, (k o).wf = true ∧ i = k o ∧ v = e o) ∨ ∃ o, (l o).wf = true ∧ i = l o ∧ v = f o := Sum.exists

theorem SRw.pbind_iff (h : IsMain 0 op v) : (srOf v).pbind = .ok i ↔ (∃ o, (Instr.pbind o).wf = true ∧ i = .pbind o ∧ v = o.enc op) ∨
    ∃ o, (Instr.pbindU o).wf = true ∧ i = .pbindU o ∧ v = o.enc op := (SRw.pbind_sum_iff h).trans exists_sum_elim_iff

/-- The three modes of prd share an opcode (R413). -/
theorem SRw.prd_sum_iff (h : IsMain 0 op v) : (srOf v).prd = .ok i ↔ ∃ o : PrdF ⊕ PrdCF ⊕ PrdF,
    (Sum.elim Instr.prd (Sum.elim .prdC .prdN) o).wf = true ∧ i = Sum.elim .prd (Sum.elim .prdC .prdN) o ∧
      v = Sum.elim (·.enc op 0) (Sum.elim (·.enc op) (·.enc op 2)) o := by
  have henc : ∀ o : PrdF ⊕ PrdCF ⊕ PrdF, Sum.elim (·.enc op 0) (Sum.elim (·.enc op) (·.enc op 2)) o = packOf fmtSR (SRw.vals 0 op (Sum.elim
      (fun o => ⟨o.st, o.rd, 0, 0, 0, o.slot, 0, 0⟩) (Sum.elim (fun o => ⟨o.st, o.rd, o.ra, 0, 0, o.slot + 8 + 32 * o.ci, 0, 0⟩)
        (fun o => ⟨o.st, o.rd, 0, 0, 0, o.slot + 16, 0, 0⟩)) o)) := by
    intro o
    rw [← Function.comp_apply (f := fun f => packOf fmtSR (SRw.vals 0 op f)), Sum.comp_elim, Sum.comp_elim]
    rfl
  simp only [henc]
  refine reads_sr.decode_iff h (D := (·.prd)) (k := Sum.elim .prd (Sum.elim .prdC .prdN)) (Sum.elim _ (Sum.elim _ _)) ?_ ?_
  · rintro ⟨st, rd, ra, rb, rc, fn, md, lo⟩ i - - hd
    simp [SRw.prd] at hd
    obtain ⟨rfl, rfl, hfn, rfl, rfl, hd⟩ := hd
    split at hd
    case h_1 =>
      simp at hd
      obtain ⟨rfl, hci, hw, rfl⟩ := hd
      exact ⟨.inl _, hw, rfl, by simp; omega⟩
    case h_2 =>
      simp at hd
      obtain ⟨hw, rfl⟩ := hd
      exact ⟨.inr (.inl _), hw, rfl, by simp; omega⟩
    case h_3 =>
      simp at hd
      obtain ⟨rfl, hci, hw, rfl⟩ := hd
      exact ⟨.inr (.inr _), hw, rfl, by simp; omega⟩
    case h_4 => cases hd
  · rintro (o | o | o) hw
    · have ho : o.st < 8 ∧ o.rd < 64 ∧ o.slot < 8 := by simpa [Instr.wf, PrdF.wf, and_assoc] using hw
      have hslot : o.slot % 8 = o.slot := by omega
      have hmode : o.slot / 8 % 4 = 0 := by omega
      exact ⟨by simp [SRw.fits_iff, h.op_lt]; omega, by simp [SRw.prd, hmode, hslot, show (Instr.prd o).wf = true from hw]; omega⟩
    · have ho : o.st < 8 ∧ o.rd < 64 ∧ o.slot < 8 ∧ o.ci < 4 ∧ o.ra < 64 := by simpa [Instr.wf, PrdCF.wf, and_assoc] using hw
      have hslot : o.slot % 8 = o.slot := by omega
      have hmode : (o.slot + 8 + 32 * o.ci) / 8 % 4 = 1 := by omega
      have hci : (o.slot + 8 + 32 * o.ci) / 32 % 4 = o.ci := by omega
      have hs : (o.slot + 8 + 32 * o.ci) % 8 = o.slot := by omega
      exact ⟨by simp [SRw.fits_iff, h.op_lt]; omega, by
        simp only [SRw.prd, Sum.elim_inr, Sum.elim_inl, hmode, hci, hs]
        simp [show (Instr.prdC o).wf = true from hw]; omega⟩
    · have ho : o.st < 8 ∧ o.rd < 64 ∧ o.slot < 8 := by simpa [Instr.wf, PrdF.wf, and_assoc] using hw
      have hslot : o.slot % 8 = o.slot := by omega
      have hmode : (o.slot + 16) / 8 % 4 = 2 := by omega
      have hci : (o.slot + 16) / 32 % 4 = 0 := by omega
      have hs : (o.slot + 16) % 8 = o.slot := by omega
      exact ⟨by simp [SRw.fits_iff, h.op_lt]; omega, by
        simp only [SRw.prd, Sum.elim_inr, hmode, hci, hs]
        simp [show (Instr.prdN o).wf = true from hw]; omega⟩

theorem SRw.prd_iff (h : IsMain 0 op v) : (srOf v).prd = .ok i ↔ (∃ o, (Instr.prd o).wf = true ∧ i = .prd o ∧ v = o.enc op 0) ∨
    (∃ o, (Instr.prdC o).wf = true ∧ i = .prdC o ∧ v = o.enc op) ∨ ∃ o, (Instr.prdN o).wf = true ∧ i = .prdN o ∧ v = o.enc op 2 :=
  (SRw.prd_sum_iff h).trans (exists_sum_elim_iff.trans (or_congr_right exists_sum_elim_iff))

end SWords

/-! ## A-tagged words -/

section AWords

variable {op v : Nat} {i : Instr}

theorem ABw.br_iff (h : IsMain 5 op v) {k : BrF → Instr} (hk : ∀ o, (k o).wf = true → o.wf = true := by exact fun _ w => w) :
    (abOf v).br k = .ok i ↔
    ∃ o : BrF, (k o).wf = true ∧ i = k o ∧ v = o.enc op := by
  refine reads_ab.decode_iff h (D := (·.br k)) (fun o : BrF => ⟨o.st, 0, 0, 0, o.off.toNat⟩) ?_ fun o hw => ?_
  · rintro ⟨⟩ i - hf hd
    simp only [ABw.fits_iff] at hf
    simp [ABw.br] at hd
    obtain ⟨rfl, rfl, rfl, hw, rfl⟩ := hd
    exact ⟨_, hw, rfl, by simp; omega⟩
  · have ho : o.wf = true := hk o hw
    simp [BrF.wf] at ho
    exact ⟨by simp [ABw.fits_iff, h.op_lt]; omega, by simp [ABw.br, hw]⟩

theorem ABw.bk_iff (h : IsMain 5 op v) : (abOf v).bk = .ok i ↔
    ∃ o : BkF, (Instr.bk o).wf = true ∧ i = .bk o ∧ v = o.enc op := by
  refine reads_ab.decode_iff h (D := (·.bk)) (fun o : BkF => ⟨o.st, o.cond.code, o.rb, o.ra, o.off.toNat⟩) ?_ fun o hw => ?_
  · rintro ⟨⟩ i - hf hd
    simp only [ABw.fits_iff] at hf
    simp [ABw.bk] at hd
    obtain ⟨hf16, hm, c, hc, hw, rfl⟩ := hd
    exact ⟨_, hw, rfl, by simp; omega⟩
  · have ho : o.wf = true := hw
    simp [BkF.wf] at ho
    have := o.cond.code_lt
    have hrb : o.rb % 64 = o.rb := by omega
    exact ⟨by simp [ABw.fits_iff, h.op_lt]; omega, by simp [ABw.bk, hw, hrb]; omega⟩

theorem ABw.jr_iff (h : IsMain 5 op v) : (abOf v).jr = .ok i ↔
    ∃ o : JrF, (Instr.jr o).wf = true ∧ i = .jr o ∧ v = o.enc op := by
  refine reads_ab.decode_iff h (D := (·.jr)) (fun o : JrF => ⟨o.st, 0, 0, o.ra, 0⟩) ?_ fun o hw => ?_
  · rintro ⟨⟩ i - - hd
    simp [ABw.jr] at hd
    obtain ⟨rfl, rfl, rfl, hw, rfl⟩ := hd
    exact ⟨_, hw, rfl, rfl⟩
  · have ho : o.wf = true := hw
    simp [JrF.wf] at ho
    exact ⟨by simp [ABw.fits_iff, h.op_lt]; omega, by simp [ABw.jr, hw]⟩

theorem ABw.r0_iff (h : IsMain 5 op v) {k : R0 → Instr} (hk : ∀ o, (k o).wf = true → o.wf = true := by exact fun _ w => w) :
    (abOf v).r0 k = .ok i ↔
    ∃ o : R0, (k o).wf = true ∧ i = k o ∧ v = o.encA op := by
  refine reads_ab.decode_iff h (D := (·.r0 k)) (fun o : R0 => ⟨o.st, 0, 0, 0, 0⟩) ?_ fun o hw => ?_
  · rintro ⟨⟩ i - - hd
    simp [ABw.r0] at hd
    obtain ⟨rfl, rfl, rfl, rfl, hw, rfl⟩ := hd
    exact ⟨_, hw, rfl, rfl⟩
  · have ho : o.wf = true := hk o hw
    simp [R0.wf] at ho
    exact ⟨by simp [ABw.fits_iff, h.op_lt]; omega, by simp [ABw.r0, hw]⟩

theorem ABw.loop_iff (h : IsMain 5 op v) : (abOf v).loop = .ok i ↔
    ∃ o : LoopF, (Instr.loop o).wf = true ∧ i = .loop o ∧ v = o.enc op := by
  refine reads_ab.decode_iff h (D := (·.loop)) (fun o : LoopF => ⟨o.st, 0, 0, o.ra, o.off.toNat⟩) ?_ fun o hw => ?_
  · rintro ⟨⟩ i - hf hd
    simp only [ABw.fits_iff] at hf
    simp [ABw.loop] at hd
    obtain ⟨rfl, rfl, hw, rfl⟩ := hd
    exact ⟨_, hw, rfl, by simp; omega⟩
  · have ho : o.wf = true := hw
    simp [LoopF.wf] at ho
    exact ⟨by simp [ABw.fits_iff, h.op_lt]; omega, by simp [ABw.loop, hw]⟩

theorem ABw.xfence_iff (h : IsMain 5 op v) : (abOf v).xfence = .ok i ↔
    ∃ o : XfenceF, (Instr.xfence o).wf = true ∧ i = .xfence o ∧ v = o.enc op := by
  refine reads_ab.decode_iff h (D := (·.xfence)) (fun o : XfenceF => ⟨o.st, o.scope.code, o.fromSet.toNat * 32 + o.toSet.toNat, 0, 0⟩) ?_ fun o hw => ?_
  · rintro ⟨⟩ i - hf hd
    simp only [ABw.fits_iff] at hf
    simp [ABw.xfence] at hd
    obtain ⟨hf8, rfl, rfl, sc, hsc, hw, rfl⟩ := hd
    exact ⟨_, hw, rfl, by simp; omega⟩
  · have ho : o.wf = true := hw
    simp [XfenceF.wf] at ho
    have := o.scope.code_lt
    have hfrom : (o.fromSet.toNat * 32 + o.toSet.toNat) / 32 = o.fromSet.toNat := by omega
    have hto : BitVec.ofNat 5 (o.fromSet.toNat * 32 + o.toSet.toNat) = o.toSet := BitVec.eq_of_toNat_eq (by simp; omega)
    exact ⟨by simp [ABw.fits_iff, h.op_lt]; omega, by simp [ABw.xfence, hw, hfrom, hto]⟩

/-- The mode bit of tstb says whether its field names a semaphore or a register (R274). -/
theorem ABw.tstb_iff (h : IsMain 5 op v) : (abOf v).tstb = .ok i ↔ ∃ o : TstbF, (Instr.tstb o).wf = true ∧ i = .tstb o ∧ v = o.enc op := by
  have henc : ∀ o : TstbF, o.enc op = packOf fmtAB (ABw.vals 5 op (match o.src with
      | .sem n => ⟨o.st, n, 256 * bit o.none, o.mask, o.off.toNat⟩
      | .mem r => ⟨o.st, r, 512 + 256 * bit o.none, o.mask, o.off.toNat⟩)) := by
    rintro ⟨st, _ | _, none, mask, off⟩ <;> rfl
  simp only [henc]
  refine reads_ab.decode_iff h (D := (·.tstb)) (fun o : TstbF => _) ?_ fun o hw => ?_
  · rintro ⟨st, f, m, ra, imm⟩ i - hf hd
    simp only [ABw.fits_iff] at hf
    simp [ABw.tstb] at hd
    obtain ⟨hm, hw, rfl⟩ := hd
    refine ⟨_, hw, rfl, ?_⟩
    by_cases hmode : m / 512 = 1
    · simp [hmode]; omega
    · simp [hmode]; omega
  · obtain ⟨st, n | r, none, mask, off⟩ := o <;> have := bit_lt none
    · have ho : (st < 8 ∧ mask < 64) ∧ n < 256 := by simpa [Instr.wf, TstbF.wf] using hw
      have hmode : ¬ 256 * bit none / 512 = 1 := by omega
      exact ⟨by simp [ABw.fits_iff, h.op_lt]; omega, by simp [ABw.tstb, hmode, hw]⟩
    · have ho : (st < 8 ∧ mask < 64) ∧ r < 64 := by simpa [Instr.wf, TstbF.wf] using hw
      have hmode : (512 + 256 * bit none) / 512 = 1 := by omega
      have hnone : (512 + 256 * bit none) / 256 % 2 = bit none := by omega
      exact ⟨by simp [ABw.fits_iff, h.op_lt]; omega, by simp [ABw.tstb, hmode, hnone, hw]⟩

end AWords

/-! ## Engine-tagged words -/

section EngineWords

variable {tag op fn v : Nat} {i : Instr}

theorem Sync.bits_lt {y : Sync} (h : y.wf = true) :
    y.wBits.1 < 2 ∧ y.wBits.2 < 256 ∧ y.sBits.1 < 2 ∧ y.sBits.2.1 < 256 ∧ y.sBits.2.2 < 32 := by
  obtain ⟨w, s⟩ := y
  simp only [Sync.wf, Bool.and_eq_true] at h
  obtain ⟨hw, hs⟩ := h
  rcases w with _ | n <;> rcases s with _ | ⟨m, x⟩ <;> simp_all [Sync.wBits, Sync.sBits]
  all_goals omega

theorem ovr_ok_iff {b r : Nat} (hb : b < 2) {x : Option Nat} : ovr b r = .ok x ↔ b = (ovrBits x).1 ∧ r = (ovrBits x).2 := by
  unfold ovr
  interval_cases b <;> cases x <;> simp [ovrBits, pure, Except.pure]

@[simp] theorem ovr_bits (x : Option Nat) : ovr (ovrBits x).1 (ovrBits x).2 = .ok x := by
  cases x <;> rfl

theorem ovrBits_lt {x : Option Nat} (h : optReg x = true) : (ovrBits x).1 < 2 ∧ (ovrBits x).2 < 64 := by
  cases x <;> simp_all [optReg, ovrBits]

theorem Sync.wBits_eq (w : Option Nat) (s : Option (Nat × BitVec 5)) : (Sync.mk w s).wBits = ovrBits w := by cases w <;> rfl

/-- The signal fields: a valid bit, or nothing in the other two (R271). -/
theorem signalOf_ok_iff {sv ssem xv : Nat} (hs : sv < 2) (hx : xv < 32) {w : Option Nat} {s : Option (Nat × BitVec 5)} :
    (if sv = 1 then .ok (some (ssem, BitVec.ofNat 5 xv)) else do zero ssem; zero xv; return none : Except Reject (Option (Nat × BitVec 5))) = .ok s ↔
      sv = (Sync.mk w s).sBits.1 ∧ ssem = (Sync.mk w s).sBits.2.1 ∧ xv = (Sync.mk w s).sBits.2.2 := by
  cases s with
  | none =>
    simp only [Sync.sBits]
    split
    case isTrue h1 => simp [h1]
    case isFalse h1 => simp [pure, Except.pure]; omega
  | some p =>
    obtain ⟨m, x⟩ := p
    simp only [Sync.sBits]
    split
    case isTrue h1 => simp [h1, ← BitVec.toNat_inj, Nat.mod_eq_of_lt hx]
    case isFalse h1 => simp [h1, pure, Except.pure]

/-- The synchronisation fields of a word name one synchronisation (R271). -/
theorem syncOf_ok_iff {wv wsem sv ssem xv : Nat} (hw : wv < 2) (hs : sv < 2) (hx : xv < 32) {y : Sync} : syncOf wv wsem sv ssem xv = .ok y ↔
    wv = y.wBits.1 ∧ wsem = y.wBits.2 ∧ sv = y.sBits.1 ∧ ssem = y.sBits.2.1 ∧ xv = y.sBits.2.2 := by
  obtain ⟨w, s⟩ := y
  rw [Sync.wBits_eq, ← and_assoc, ← ovr_ok_iff hw, ← signalOf_ok_iff hs hx]
  simp only [syncOf, bind_ok_iff, pure, Except.pure, Except.ok.injEq, Sync.mk.injEq]
  exact ⟨fun ⟨_, h, _, h', e, e'⟩ => ⟨e ▸ h, e' ▸ h'⟩, fun ⟨h, h'⟩ => ⟨w, h, s, h', rfl, rfl⟩⟩

@[simp] theorem syncOf_bits (y : Sync) : syncOf y.wBits.1 y.wBits.2 y.sBits.1 y.sBits.2.1 y.sBits.2.2 = .ok y := by
  obtain ⟨_ | n, _ | ⟨m, x⟩⟩ := y <;> simp [syncOf, Sync.wBits, Sync.sBits, pure, Except.pure]

theorem eiOf_fn_lt (v : Nat) : (eiOf v).fn < 32 := Nat.mod_lt _ (by decide)

theorem EIw.lvl_iff (h : IsMain tag op v) (hfn : (eiOf v).fn = fn) {k : ELvl → Instr} (hk : ∀ o, (k o).wf = true → o.wf = true := by exact fun _ w => w) :
    (eiOf v).lvl k = .ok i ↔
    ∃ o : ELvl, (k o).wf = true ∧ i = k o ∧ v = o.enc tag op fn := by
  have hfn32 : fn < 32 := hfn ▸ eiOf_fn_lt v
  refine reads_ei.decode_iff h (D := (·.lvl k))
    (fun o : ELvl => ⟨o.st, o.sy.wBits.1, o.sy.wBits.2, o.sy.sBits.1, o.sy.sBits.2.1, 0, fn, o.ra, o.sy.sBits.2.2, o.lvl⟩) ?_ fun o hw => ?_
  · rintro ⟨⟩ i hv hf hd
    obtain rfl : _ = fn := (congrArg EIw.fn hv).symm.trans hfn
    obtain ⟨-, -, -, hwv, -, hsv, -, -, -, -, hxv, -⟩ := EIw.fits_iff.1 hf
    simp [EIw.lvl, EIw.sy, syncOf_ok_iff hwv hsv hxv] at hd
    obtain ⟨rfl, hi, y, ⟨rfl, rfl, rfl, rfl, rfl⟩, hw, rfl⟩ := hd
    exact ⟨_, hw, rfl, by simp; omega⟩
  · have ho : o.wf = true := hk o hw
    simp only [ELvl.wf, Bool.and_eq_true] at ho
    obtain ⟨⟨⟨hst, hsy⟩, hlvl⟩, hra⟩ := ho
    simp at hst hlvl hra
    have := Sync.bits_lt hsy
    have hlow : o.lvl % 8 = o.lvl := by omega
    exact ⟨by simp [EIw.fits_iff, h.tag_lt, h.op_lt]; omega, by simp [EIw.lvl, EIw.sy, hw, hlow]; omega⟩

theorem EIw.str_iff (h : IsMain tag op v) (hfn : (eiOf v).fn = fn) {k : EStr → Instr} (hk : ∀ o, (k o).wf = true → o.wf = true := by exact fun _ w => w) :
    (eiOf v).str k = .ok i ↔
    ∃ o : EStr, (k o).wf = true ∧ i = k o ∧ v = o.enc tag op fn := by
  have hfn32 : fn < 32 := hfn ▸ eiOf_fn_lt v
  refine reads_ei.decode_iff h (D := (·.str k))
    (fun o : EStr => ⟨o.st, o.sy.wBits.1, o.sy.wBits.2, o.sy.sBits.1, o.sy.sBits.2.1, 0, fn, o.ra, o.sy.sBits.2.2, o.lvl + 8 * o.j⟩) ?_ fun o hw => ?_
  · rintro ⟨⟩ i hv hf hd
    obtain rfl : _ = fn := (congrArg EIw.fn hv).symm.trans hfn
    obtain ⟨-, -, -, hwv, -, hsv, -, -, -, -, hxv, -⟩ := EIw.fits_iff.1 hf
    simp [EIw.str, EIw.sy, syncOf_ok_iff hwv hsv hxv] at hd
    obtain ⟨rfl, hi, y, ⟨rfl, rfl, rfl, rfl, rfl⟩, hw, rfl⟩ := hd
    exact ⟨_, hw, rfl, by simp; omega⟩
  · have ho : o.wf = true := hk o hw
    simp only [EStr.wf, Bool.and_eq_true] at ho
    obtain ⟨⟨⟨⟨hst, hsy⟩, hlvl⟩, hj⟩, hra⟩ := ho
    simp at hst hlvl hj hra
    have := Sync.bits_lt hsy
    have hlow : o.lvl % 8 = o.lvl := by omega
    have hj8 : o.j % 8 = o.j := by omega
    have hhigh : (o.lvl + 8 * o.j) / 8 = o.j := by omega
    exact ⟨by simp [EIw.fits_iff, h.tag_lt, h.op_lt]; omega, by simp [EIw.str, EIw.sy, hw, hlow, hj8, hhigh]; omega⟩

theorem EIw.reg_iff (h : IsMain tag op v) (hfn : (eiOf v).fn = fn) {k : EReg → Instr} (hk : ∀ o, (k o).wf = true → o.wf = true := by exact fun _ w => w) :
    (eiOf v).reg k = .ok i ↔
    ∃ o : EReg, (k o).wf = true ∧ i = k o ∧ v = o.enc tag op fn := by
  have hfn32 : fn < 32 := hfn ▸ eiOf_fn_lt v
  refine reads_ei.decode_iff h (D := (·.reg k))
    (fun o : EReg => ⟨o.st, o.sy.wBits.1, o.sy.wBits.2, o.sy.sBits.1, o.sy.sBits.2.1, 0, fn, o.ra, o.sy.sBits.2.2, 0⟩) ?_ fun o hw => ?_
  · rintro ⟨⟩ i hv hf hd
    obtain rfl : _ = fn := (congrArg EIw.fn hv).symm.trans hfn
    obtain ⟨-, -, -, hwv, -, hsv, -, -, -, -, hxv, -⟩ := EIw.fits_iff.1 hf
    simp [EIw.reg, EIw.sy, syncOf_ok_iff hwv hsv hxv] at hd
    obtain ⟨rfl, rfl, y, ⟨rfl, rfl, rfl, rfl, rfl⟩, hw, rfl⟩ := hd
    exact ⟨_, hw, rfl, rfl⟩
  · have ho : o.wf = true := hk o hw
    simp only [EReg.wf, Bool.and_eq_true] at ho
    obtain ⟨⟨hst, hsy⟩, hra⟩ := ho
    simp at hst hra
    have := Sync.bits_lt hsy
    exact ⟨by simp [EIw.fits_iff, h.tag_lt, h.op_lt]; omega, by simp [EIw.reg, EIw.sy, hw]⟩

theorem EIw.base_iff (h : IsMain tag op v) (hfn : (eiOf v).fn = fn) {k : EBase → Instr} (hk : ∀ o, (k o).wf = true → o.wf = true := by exact fun _ w => w) :
    (eiOf v).base k = .ok i ↔
    ∃ o : EBase, (k o).wf = true ∧ i = k o ∧ v = o.enc tag op fn := by
  have hfn32 : fn < 32 := hfn ▸ eiOf_fn_lt v
  refine reads_ei.decode_iff h (D := (·.base k))
    (fun o : EBase => ⟨o.st, o.sy.wBits.1, o.sy.wBits.2, o.sy.sBits.1, o.sy.sBits.2.1, 0, fn, o.ra, o.sy.sBits.2.2, 8 * o.j + 64 * o.sp⟩) ?_ fun o hw => ?_
  · rintro ⟨⟩ i hv hf hd
    obtain rfl : _ = fn := (congrArg EIw.fn hv).symm.trans hfn
    obtain ⟨-, -, -, hwv, -, hsv, -, -, -, -, hxv, -⟩ := EIw.fits_iff.1 hf
    simp [EIw.base, EIw.sy, syncOf_ok_iff hwv hsv hxv] at hd
    obtain ⟨rfl, hlow, hhigh, y, ⟨rfl, rfl, rfl, rfl, rfl⟩, hw, rfl⟩ := hd
    exact ⟨_, hw, rfl, by simp; omega⟩
  · have ho : o.wf = true := hk o hw
    simp only [EBase.wf, Bool.and_eq_true] at ho
    obtain ⟨⟨⟨⟨hst, hsy⟩, hj⟩, hsp⟩, hra⟩ := ho
    simp at hst hj hsp hra
    have := Sync.bits_lt hsy
    have hj8 : (8 * o.j + 64 * o.sp) / 8 % 8 = o.j := by omega
    have hsp8 : (8 * o.j + 64 * o.sp) / 64 % 8 = o.sp := by omega
    exact ⟨by simp [EIw.fits_iff, h.tag_lt, h.op_lt]; omega, by simp [EIw.base, EIw.sy, hw, hj8, hsp8]; omega⟩

theorem EIw.fmt_iff (h : IsMain tag op v) (hfn : (eiOf v).fn = fn) {k : EFmt → Instr} (hk : ∀ o, (k o).wf = true → o.wf = true := by exact fun _ w => w) :
    (eiOf v).fmt k = .ok i ↔
    ∃ o : EFmt, (k o).wf = true ∧ i = k o ∧ v = o.enc tag op fn := by
  have hfn32 : fn < 32 := hfn ▸ eiOf_fn_lt v
  refine reads_ei.decode_iff h (D := (·.fmt k))
    (fun o : EFmt => ⟨o.st, o.sy.wBits.1, o.sy.wBits.2, o.sy.sBits.1, o.sy.sBits.2.1, 0, fn, o.ra, o.sy.sBits.2.2, 8 * o.j⟩) ?_ fun o hw => ?_
  · rintro ⟨⟩ i hv hf hd
    obtain rfl : _ = fn := (congrArg EIw.fn hv).symm.trans hfn
    obtain ⟨-, -, -, hwv, -, hsv, -, -, -, -, hxv, -⟩ := EIw.fits_iff.1 hf
    simp [EIw.fmt, EIw.sy, syncOf_ok_iff hwv hsv hxv] at hd
    obtain ⟨rfl, hlow, hhigh, y, ⟨rfl, rfl, rfl, rfl, rfl⟩, hw, rfl⟩ := hd
    exact ⟨_, hw, rfl, by simp; omega⟩
  · have ho : o.wf = true := hk o hw
    simp only [EFmt.wf, Bool.and_eq_true] at ho
    obtain ⟨⟨⟨hst, hsy⟩, hj⟩, hra⟩ := ho
    simp at hst hj hra
    have := Sync.bits_lt hsy
    have hj8 : o.j % 8 = o.j := by omega
    exact ⟨by simp [EIw.fits_iff, h.tag_lt, h.op_lt]; omega, by simp [EIw.fmt, EIw.sy, hw, hj8]; omega⟩

theorem EIw.none_iff (h : IsMain tag op v) (hfn : (eiOf v).fn = fn) {k : ENone → Instr} (hk : ∀ o, (k o).wf = true → o.wf = true := by exact fun _ w => w) :
    (eiOf v).none k = .ok i ↔
    ∃ o : ENone, (k o).wf = true ∧ i = k o ∧ v = o.encI tag op fn := by
  have hfn32 : fn < 32 := hfn ▸ eiOf_fn_lt v
  refine reads_ei.decode_iff h (D := (·.none k))
    (fun o : ENone => ⟨o.st, o.sy.wBits.1, o.sy.wBits.2, o.sy.sBits.1, o.sy.sBits.2.1, 0, fn, 0, o.sy.sBits.2.2, 0⟩) ?_ fun o hw => ?_
  · rintro ⟨⟩ i hv hf hd
    obtain rfl : _ = fn := (congrArg EIw.fn hv).symm.trans hfn
    obtain ⟨-, -, -, hwv, -, hsv, -, -, -, -, hxv, -⟩ := EIw.fits_iff.1 hf
    simp [EIw.none, EIw.sy, syncOf_ok_iff hwv hsv hxv] at hd
    obtain ⟨rfl, rfl, rfl, y, ⟨rfl, rfl, rfl, rfl, rfl⟩, hw, rfl⟩ := hd
    exact ⟨_, hw, rfl, rfl⟩
  · have ho : o.wf = true := hk o hw
    simp only [ENone.wf, Bool.and_eq_true] at ho
    obtain ⟨hst, hsy⟩ := ho
    simp at hst 
    have := Sync.bits_lt hsy
    exact ⟨by simp [EIw.fits_iff, h.tag_lt, h.op_lt]; omega, by simp [EIw.none, EIw.sy, hw]⟩

theorem EAw.copy_iff (h : IsMain tag op v) {k : CopyF → Instr} (hk : ∀ o, (k o).wf = true → o.wf = true := by exact fun _ w => w) :
    (eaOf v).copy k = .ok i ↔
    ∃ o : CopyF, (k o).wf = true ∧ i = k o ∧ v = o.enc tag op := by
  refine reads_ea.decode_iff h (D := (·.copy k))
    (fun o : CopyF => ⟨o.st, o.sy.wBits.1, o.sy.wBits.2, o.sy.sBits.1, o.sy.sBits.2.1, o.ch, (ovrBits o.os).1 + 2 * (ovrBits o.od).1, (ovrBits o.os).2, (ovrBits o.od).2, o.rc, o.sy.sBits.2.2, 0⟩) ?_ fun o hw => ?_
  · rintro ⟨⟩ i - hf hd
    obtain ⟨-, -, -, hwv, -, hsv, -, -, -, -, -, -, hxv, -⟩ := EAw.fits_iff.1 hf
    simp [EAw.copy, EAw.sy, syncOf_ok_iff hwv hsv hxv, ovr_ok_iff (Nat.mod_lt _ two_pos)] at hd
    obtain ⟨hfn, rfl, y, ⟨rfl, rfl, rfl, rfl, rfl⟩, os, ⟨hos, rfl⟩, od, ⟨hod, rfl⟩, hw, rfl⟩ := hd
    exact ⟨_, hw, rfl, by simp; omega⟩
  · have ho : o.wf = true := hk o hw
    simp only [CopyF.wf, Bool.and_eq_true] at ho
    obtain ⟨⟨⟨⟨⟨hst, hsy⟩, hch⟩, hos⟩, hod⟩, hrc⟩ := ho
    simp at hst hch hrc
    have := Sync.bits_lt hsy
    have := ovrBits_lt hos
    have := ovrBits_lt hod
    have hos2 : (ovrBits o.os).1 % 2 = (ovrBits o.os).1 := by omega
    have hod2 : ((ovrBits o.os).1 + 2 * (ovrBits o.od).1) / 2 % 2 = (ovrBits o.od).1 := by omega
    exact ⟨by simp [EAw.fits_iff, h.tag_lt, h.op_lt]; omega, by simp [EAw.copy, EAw.sy, hw, hos2, hod2]; omega⟩

theorem EAw.copyz_iff (h : IsMain tag op v) : (eaOf v).copyz = .ok i ↔
    ∃ o : CopyzF, (Instr.copyz o).wf = true ∧ i = .copyz o ∧ v = o.enc tag op := by
  refine reads_ea.decode_iff h (D := (·.copyz))
    (fun o : CopyzF => ⟨o.st, o.sy.wBits.1, o.sy.wBits.2, o.sy.sBits.1, o.sy.sBits.2.1, o.ch, o.ns - 1 + 4 * (o.nd - 1), 0, 0, o.rc, o.sy.sBits.2.2, 0⟩) ?_ fun o hw => ?_
  · rintro ⟨⟩ i - hf hd
    obtain ⟨-, -, -, hwv, -, hsv, -, -, -, -, -, -, hxv, -⟩ := EAw.fits_iff.1 hf
    simp [EAw.copyz, EAw.sy, syncOf_ok_iff hwv hsv hxv] at hd
    obtain ⟨hfn, rfl, rfl, rfl, y, ⟨rfl, rfl, rfl, rfl, rfl⟩, hw, rfl⟩ := hd
    exact ⟨_, hw, rfl, by simp; omega⟩
  · have ho : o.wf = true := hw
    simp only [CopyzF.wf, Bool.and_eq_true] at ho
    obtain ⟨⟨⟨⟨⟨hst, hsy⟩, hch⟩, hns⟩, hnd⟩, hrc⟩ := ho
    simp at hst hch hns hnd hrc
    have := Sync.bits_lt hsy
    have hns4 : (o.ns - 1) % 4 + 1 = o.ns := by omega
    have hnd4 : (o.ns - 1 + 4 * (o.nd - 1)) / 4 % 4 + 1 = o.nd := by omega
    exact ⟨by simp [EAw.fits_iff, h.tag_lt, h.op_lt]; omega, by simp [EAw.copyz, EAw.sy, hw, hns4, hnd4]; omega⟩

theorem EAw.gather_iff (h : IsMain tag op v) : (eaOf v).gather = .ok i ↔
    ∃ o : GatherF, (Instr.gather o).wf = true ∧ i = .gather o ∧ v = o.enc tag op := by
  refine reads_ea.decode_iff h (D := (·.gather))
    (fun o : GatherF => ⟨o.st, o.sy.wBits.1, o.sy.wBits.2, o.sy.sBits.1, o.sy.sBits.2.1, o.ch, 2 * (ovrBits o.od).1, o.ra, (ovrBits o.od).2, o.rc, o.sy.sBits.2.2, 0⟩) ?_ fun o hw => ?_
  · rintro ⟨⟩ i - hf hd
    obtain ⟨-, -, -, hwv, -, hsv, -, -, -, -, -, -, hxv, -⟩ := EAw.fits_iff.1 hf
    simp [EAw.gather, EAw.sy, syncOf_ok_iff hwv hsv hxv, ovr_ok_iff (Nat.mod_lt _ two_pos)] at hd
    obtain ⟨hlow, hfn, rfl, y, ⟨rfl, rfl, rfl, rfl, rfl⟩, od, ⟨hod, rfl⟩, hw, rfl⟩ := hd
    exact ⟨_, hw, rfl, by simp; omega⟩
  · have ho : o.wf = true := hw
    simp only [GatherF.wf, Bool.and_eq_true] at ho
    obtain ⟨⟨⟨⟨⟨hst, hsy⟩, hch⟩, hod⟩, hra⟩, hrc⟩ := ho
    simp at hst hch hra hrc
    have := Sync.bits_lt hsy
    have := ovrBits_lt hod
    have hod2 : (ovrBits o.od).1 % 2 = (ovrBits o.od).1 := by omega
    exact ⟨by simp [EAw.fits_iff, h.tag_lt, h.op_lt]; omega, by simp [EAw.gather, EAw.sy, hw, hod2]; omega⟩

theorem EAw.scatter_iff (h : IsMain tag op v) : (eaOf v).scatter = .ok i ↔
    ∃ o : ScatterF, (Instr.scatter o).wf = true ∧ i = .scatter o ∧ v = o.enc tag op := by
  refine reads_ea.decode_iff h (D := (·.scatter))
    (fun o : ScatterF => ⟨o.st, o.sy.wBits.1, o.sy.wBits.2, o.sy.sBits.1, o.sy.sBits.2.1, o.ch, (ovrBits o.os).1, (ovrBits o.os).2, o.rb, o.rc, o.sy.sBits.2.2, 0⟩) ?_ fun o hw => ?_
  · rintro ⟨⟩ i - hf hd
    obtain ⟨-, -, -, hwv, -, hsv, -, -, -, -, -, -, hxv, -⟩ := EAw.fits_iff.1 hf
    simp [EAw.scatter, EAw.sy, syncOf_ok_iff hwv hsv hxv, ovr_ok_iff (Nat.mod_lt _ two_pos)] at hd
    obtain ⟨hfn, rfl, y, ⟨rfl, rfl, rfl, rfl, rfl⟩, os, ⟨hos, rfl⟩, hw, rfl⟩ := hd
    exact ⟨_, hw, rfl, by simp; omega⟩
  · have ho : o.wf = true := hw
    simp only [ScatterF.wf, Bool.and_eq_true] at ho
    obtain ⟨⟨⟨⟨⟨hst, hsy⟩, hch⟩, hos⟩, hrb⟩, hrc⟩ := ho
    simp at hst hch hrb hrc
    have := Sync.bits_lt hsy
    have := ovrBits_lt hos
    have hos2 : (ovrBits o.os).1 % 2 = (ovrBits o.os).1 := by omega
    exact ⟨by simp [EAw.fits_iff, h.tag_lt, h.op_lt]; omega, by simp [EAw.scatter, EAw.sy, hw, hos2]; omega⟩

theorem EAw.drain_iff (h : IsMain tag op v) : (eaOf v).drain = .ok i ↔
    ∃ o : DrainF, (Instr.drain o).wf = true ∧ i = .drain o ∧ v = o.enc tag op := by
  refine reads_ea.decode_iff h (D := (·.drain))
    (fun o : DrainF => ⟨o.st, o.sy.wBits.1, o.sy.wBits.2, o.sy.sBits.1, o.sy.sBits.2.1, o.ch, 0, 0, 0, 0, o.sy.sBits.2.2, 0⟩) ?_ fun o hw => ?_
  · rintro ⟨⟩ i - hf hd
    obtain ⟨-, -, -, hwv, -, hsv, -, -, -, -, -, -, hxv, -⟩ := EAw.fits_iff.1 hf
    simp [EAw.drain, EAw.sy, syncOf_ok_iff hwv hsv hxv] at hd
    obtain ⟨rfl, rfl, rfl, rfl, rfl, y, ⟨rfl, rfl, rfl, rfl, rfl⟩, hw, rfl⟩ := hd
    exact ⟨_, hw, rfl, rfl⟩
  · have ho : o.wf = true := hw
    simp only [DrainF.wf, Bool.and_eq_true] at ho
    obtain ⟨⟨hst, hsy⟩, hch⟩ := ho
    simp at hst hch
    have := Sync.bits_lt hsy
    exact ⟨by simp [EAw.fits_iff, h.tag_lt, h.op_lt]; omega, by simp [EAw.drain, EAw.sy, hw]⟩

theorem EAw.cpref_iff (h : IsMain tag op v) : (eaOf v).cpref = .ok i ↔
    ∃ o : CprefF, (Instr.cpref o).wf = true ∧ i = .cpref o ∧ v = o.enc tag op := by
  refine reads_ea.decode_iff h (D := (·.cpref))
    (fun o : CprefF => ⟨o.st, o.sy.wBits.1, o.sy.wBits.2, o.sy.sBits.1, o.sy.sBits.2.1, o.ch, o.evp + 4 * bit o.evpv, o.ra, o.rb, 0, o.sy.sBits.2.2, 0⟩) ?_ fun o hw => ?_
  · rintro ⟨⟩ i - hf hd
    obtain ⟨-, -, -, hwv, -, hsv, -, -, -, -, -, -, hxv, -⟩ := EAw.fits_iff.1 hf
    simp [EAw.cpref, EAw.sy, syncOf_ok_iff hwv hsv hxv] at hd
    obtain ⟨hfn, rfl, rfl, y, ⟨rfl, rfl, rfl, rfl, rfl⟩, hw, rfl⟩ := hd
    exact ⟨_, hw, rfl, by simp; omega⟩
  · have ho : o.wf = true := hw
    simp only [CprefF.wf, Bool.and_eq_true] at ho
    obtain ⟨⟨⟨⟨⟨⟨hst, hsy⟩, -⟩, hch⟩, hevp⟩, hra⟩, hrb⟩ := ho
    simp at hst hch hevp hra hrb
    have := Sync.bits_lt hsy
    have := bit_lt o.evpv
    have hevp4 : o.evp % 4 = o.evp := by omega
    have hevpv : (o.evp + 4 * bit o.evpv) / 4 = bit o.evpv := by omega
    exact ⟨by simp [EAw.fits_iff, h.tag_lt, h.op_lt]; omega, by simp [EAw.cpref, EAw.sy, hw, hevp4, hevpv]; omega⟩

theorem EAw.red_iff (h : IsMain tag op v) {k : RedF → Instr} (hk : ∀ o, (k o).wf = true → o.wf = true := by exact fun _ w => w) :
    (eaOf v).red k = .ok i ↔
    ∃ o : RedF, (k o).wf = true ∧ i = k o ∧ v = o.enc tag op := by
  refine reads_ea.decode_iff h (D := (·.red k))
    (fun o : RedF => ⟨o.st, o.sy.wBits.1, o.sy.wBits.2, o.sy.sBits.1, o.sy.sBits.2.1, 0, o.op.code + 8 * o.d, 0, 0, 0, o.sy.sBits.2.2, 0⟩) ?_ fun o hw => ?_
  · rintro ⟨⟩ i - hf hd
    obtain ⟨-, -, -, hwv, -, hsv, -, -, -, -, -, -, hxv, -⟩ := EAw.fits_iff.1 hf
    simp [EAw.red, EAw.sy, syncOf_ok_iff hwv hsv hxv] at hd
    obtain ⟨rfl, rfl, rfl, rfl, rfl, y, ⟨rfl, rfl, rfl, rfl, rfl⟩, a, ha, hw, rfl⟩ := hd
    exact ⟨_, hw, rfl, by simp; omega⟩
  · have ho : o.wf = true := hk o hw
    simp only [RedF.wf, Bool.and_eq_true] at ho
    obtain ⟨⟨hst, hsy⟩, hd⟩ := ho
    simp at hst hd
    have := Sync.bits_lt hsy
    have := o.op.code_lt
    have hd8 : (o.op.code + 8 * o.d) / 8 = o.d := by omega
    exact ⟨by simp [EAw.fits_iff, h.tag_lt, h.op_lt]; omega, by simp [EAw.red, EAw.sy, hw, hd8]⟩

theorem EAw.none_iff (h : IsMain tag op v) {k : ENone → Instr} (hk : ∀ o, (k o).wf = true → o.wf = true := by exact fun _ w => w) :
    (eaOf v).none k = .ok i ↔
    ∃ o : ENone, (k o).wf = true ∧ i = k o ∧ v = o.enc tag op := by
  refine reads_ea.decode_iff h (D := (·.none k))
    (fun o : ENone => ⟨o.st, o.sy.wBits.1, o.sy.wBits.2, o.sy.sBits.1, o.sy.sBits.2.1, 0, 0, 0, 0, 0, o.sy.sBits.2.2, 0⟩) ?_ fun o hw => ?_
  · rintro ⟨⟩ i - hf hd
    obtain ⟨-, -, -, hwv, -, hsv, -, -, -, -, -, -, hxv, -⟩ := EAw.fits_iff.1 hf
    simp [EAw.none, EAw.sy, syncOf_ok_iff hwv hsv hxv] at hd
    obtain ⟨rfl, rfl, rfl, rfl, rfl, rfl, y, ⟨rfl, rfl, rfl, rfl, rfl⟩, hw, rfl⟩ := hd
    exact ⟨_, hw, rfl, rfl⟩
  · have ho : o.wf = true := hk o hw
    simp only [ENone.wf, Bool.and_eq_true] at ho
    obtain ⟨hst, hsy⟩ := ho
    simp at hst 
    have := Sync.bits_lt hsy
    exact ⟨by simp [EAw.fits_iff, h.tag_lt, h.op_lt]; omega, by simp [EAw.none, EAw.sy, hw]⟩

theorem EAw.idx_iff (h : IsMain tag op v) {k : EIdx → Instr} (hk : ∀ o, (k o).wf = true → o.wf = true := by exact fun _ w => w) :
    (eaOf v).idx k = .ok i ↔
    ∃ o : EIdx, (k o).wf = true ∧ i = k o ∧ v = o.enc tag op := by
  refine reads_ea.decode_iff h (D := (·.idx k))
    (fun o : EIdx => ⟨o.st, o.sy.wBits.1, o.sy.wBits.2, o.sy.sBits.1, o.sy.sBits.2.1, 0, o.g, o.ra, 0, 0, o.sy.sBits.2.2, 0⟩) ?_ fun o hw => ?_
  · rintro ⟨⟩ i - hf hd
    obtain ⟨-, -, -, hwv, -, hsv, -, -, -, -, -, -, hxv, -⟩ := EAw.fits_iff.1 hf
    simp [EAw.idx, EAw.sy, syncOf_ok_iff hwv hsv hxv] at hd
    obtain ⟨rfl, hg, rfl, rfl, rfl, y, ⟨rfl, rfl, rfl, rfl, rfl⟩, hw, rfl⟩ := hd
    exact ⟨_, hw, rfl, rfl⟩
  · have ho : o.wf = true := hk o hw
    simp only [EIdx.wf, Bool.and_eq_true] at ho
    obtain ⟨⟨⟨hst, hsy⟩, hg⟩, hra⟩ := ho
    simp at hst hg hra
    have := Sync.bits_lt hsy
    exact ⟨by simp [EAw.fits_iff, h.tag_lt, h.op_lt]; omega, by simp [EAw.idx, EAw.sy, hw]; omega⟩

theorem EAw.reg_iff (h : IsMain tag op v) {k : EReg → Instr} (hk : ∀ o, (k o).wf = true → o.wf = true := by exact fun _ w => w) :
    (eaOf v).reg k = .ok i ↔
    ∃ o : EReg, (k o).wf = true ∧ i = k o ∧ v = o.encA tag op := by
  refine reads_ea.decode_iff h (D := (·.reg k))
    (fun o : EReg => ⟨o.st, o.sy.wBits.1, o.sy.wBits.2, o.sy.sBits.1, o.sy.sBits.2.1, 0, 0, o.ra, 0, 0, o.sy.sBits.2.2, 0⟩) ?_ fun o hw => ?_
  · rintro ⟨⟩ i - hf hd
    obtain ⟨-, -, -, hwv, -, hsv, -, -, -, -, -, -, hxv, -⟩ := EAw.fits_iff.1 hf
    simp [EAw.reg, EAw.sy, syncOf_ok_iff hwv hsv hxv] at hd
    obtain ⟨rfl, rfl, rfl, rfl, rfl, y, ⟨rfl, rfl, rfl, rfl, rfl⟩, hw, rfl⟩ := hd
    exact ⟨_, hw, rfl, rfl⟩
  · have ho : o.wf = true := hk o hw
    simp only [EReg.wf, Bool.and_eq_true] at ho
    obtain ⟨⟨hst, hsy⟩, hra⟩ := ho
    simp at hst hra
    have := Sync.bits_lt hsy
    exact ⟨by simp [EAw.fits_iff, h.tag_lt, h.op_lt]; omega, by simp [EAw.reg, EAw.sy, hw]⟩

theorem EAw.kar_iff (h : IsMain tag op v) {k : KarF → Instr} (hk : ∀ o, (k o).wf = true → o.wf = true := by exact fun _ w => w) :
    (eaOf v).kar k = .ok i ↔
    ∃ o : KarF, (k o).wf = true ∧ i = k o ∧ v = o.enc tag op := by
  refine reads_ea.decode_iff h (D := (·.kar k))
    (fun o : KarF => ⟨o.st, o.sy.wBits.1, o.sy.wBits.2, o.sy.sBits.1, o.sy.sBits.2.1, 0, o.g, o.ra, o.rb, 0, o.sy.sBits.2.2, 0⟩) ?_ fun o hw => ?_
  · rintro ⟨⟩ i - hf hd
    obtain ⟨-, -, -, hwv, -, hsv, -, -, -, -, -, -, hxv, -⟩ := EAw.fits_iff.1 hf
    simp [EAw.kar, EAw.sy, syncOf_ok_iff hwv hsv hxv] at hd
    obtain ⟨rfl, hg, rfl, rfl, y, ⟨rfl, rfl, rfl, rfl, rfl⟩, hw, rfl⟩ := hd
    exact ⟨_, hw, rfl, rfl⟩
  · have ho : o.wf = true := hk o hw
    simp only [KarF.wf, Bool.and_eq_true] at ho
    obtain ⟨⟨⟨⟨hst, hsy⟩, hg⟩, hra⟩, hrb⟩ := ho
    simp at hst hg hra hrb
    have := Sync.bits_lt hsy
    exact ⟨by simp [EAw.fits_iff, h.tag_lt, h.op_lt]; omega, by simp [EAw.kar, EAw.sy, hw]; omega⟩

theorem EAw.e3_iff (h : IsMain tag op v) {k : E3 → Instr} (hk : ∀ o, (k o).wf = true → o.wf = true := by exact fun _ w => w) :
    (eaOf v).e3 k = .ok i ↔
    ∃ o : E3, (k o).wf = true ∧ i = k o ∧ v = o.enc tag op := by
  refine reads_ea.decode_iff h (D := (·.e3 k))
    (fun o : E3 => ⟨o.st, o.sy.wBits.1, o.sy.wBits.2, o.sy.sBits.1, o.sy.sBits.2.1, 0, 0, o.ra, o.rb, o.rc, o.sy.sBits.2.2, 0⟩) ?_ fun o hw => ?_
  · rintro ⟨⟩ i - hf hd
    obtain ⟨-, -, -, hwv, -, hsv, -, -, -, -, -, -, hxv, -⟩ := EAw.fits_iff.1 hf
    simp [EAw.e3, EAw.sy, syncOf_ok_iff hwv hsv hxv] at hd
    obtain ⟨rfl, rfl, rfl, y, ⟨rfl, rfl, rfl, rfl, rfl⟩, hw, rfl⟩ := hd
    exact ⟨_, hw, rfl, rfl⟩
  · have ho : o.wf = true := hk o hw
    simp only [E3.wf, Bool.and_eq_true] at ho
    obtain ⟨⟨⟨⟨hst, hsy⟩, hra⟩, hrb⟩, hrc⟩ := ho
    simp at hst hra hrb hrc
    have := Sync.bits_lt hsy
    exact ⟨by simp [EAw.fits_iff, h.tag_lt, h.op_lt]; omega, by simp [EAw.e3, EAw.sy, hw]⟩

theorem EAw.e2_iff (h : IsMain tag op v) {k : E2 → Instr} (hk : ∀ o, (k o).wf = true → o.wf = true := by exact fun _ w => w) :
    (eaOf v).e2 k = .ok i ↔
    ∃ o : E2, (k o).wf = true ∧ i = k o ∧ v = o.enc tag op := by
  refine reads_ea.decode_iff h (D := (·.e2 k))
    (fun o : E2 => ⟨o.st, o.sy.wBits.1, o.sy.wBits.2, o.sy.sBits.1, o.sy.sBits.2.1, 0, 0, o.ra, o.rb, 0, o.sy.sBits.2.2, 0⟩) ?_ fun o hw => ?_
  · rintro ⟨⟩ i - hf hd
    obtain ⟨-, -, -, hwv, -, hsv, -, -, -, -, -, -, hxv, -⟩ := EAw.fits_iff.1 hf
    simp [EAw.e2, EAw.sy, syncOf_ok_iff hwv hsv hxv] at hd
    obtain ⟨rfl, rfl, rfl, rfl, y, ⟨rfl, rfl, rfl, rfl, rfl⟩, hw, rfl⟩ := hd
    exact ⟨_, hw, rfl, rfl⟩
  · have ho : o.wf = true := hk o hw
    simp only [E2.wf, Bool.and_eq_true] at ho
    obtain ⟨⟨⟨hst, hsy⟩, hra⟩, hrb⟩ := ho
    simp at hst hra hrb
    have := Sync.bits_lt hsy
    exact ⟨by simp [EAw.fits_iff, h.tag_lt, h.op_lt]; omega, by simp [EAw.e2, EAw.sy, hw]⟩

theorem EAw.mzero_iff (h : IsMain tag op v) : (eaOf v).mzero = .ok i ↔
    ∃ o : MzeroF, (Instr.mzero o).wf = true ∧ i = .mzero o ∧ v = o.enc tag op := by
  refine reads_ea.decode_iff h (D := (·.mzero))
    (fun o : MzeroF => ⟨o.st, o.sy.wBits.1, o.sy.wBits.2, o.sy.sBits.1, o.sy.sBits.2.1, 0, 8 * bit o.i32, o.ra, o.rb, 0, o.sy.sBits.2.2, 0⟩) ?_ fun o hw => ?_
  · rintro ⟨⟩ i - hf hd
    obtain ⟨-, -, -, hwv, -, hsv, -, -, -, -, -, -, hxv, -⟩ := EAw.fits_iff.1 hf
    simp [EAw.mzero, EAw.sy, syncOf_ok_iff hwv hsv hxv] at hd
    obtain ⟨rfl, hlow, hhigh, rfl, rfl, y, ⟨rfl, rfl, rfl, rfl, rfl⟩, hw, rfl⟩ := hd
    exact ⟨_, hw, rfl, by simp; omega⟩
  · have ho : o.wf = true := hw
    simp only [MzeroF.wf, Bool.and_eq_true] at ho
    obtain ⟨⟨⟨hst, hsy⟩, hra⟩, hrb⟩ := ho
    simp at hst hra hrb
    have := Sync.bits_lt hsy
    have := bit_lt o.i32
    exact ⟨by simp [EAw.fits_iff, h.tag_lt, h.op_lt]; omega, by simp [EAw.mzero, EAw.sy, hw]; omega⟩

theorem EAw.minit_iff (h : IsMain tag op v) : (eaOf v).minit = .ok i ↔
    ∃ o : MinitF, (Instr.minit o).wf = true ∧ i = .minit o ∧ v = o.enc tag op := by
  refine reads_ea.decode_iff h (D := (·.minit))
    (fun o : MinitF => ⟨o.st, o.sy.wBits.1, o.sy.wBits.2, o.sy.sBits.1, o.sy.sBits.2.1, 0, 8 * bit o.i32 + o.sp.code, o.ra, o.rb, o.rc, o.sy.sBits.2.2, 0⟩) ?_ fun o hw => ?_
  · rintro ⟨⟩ i - hf hd
    obtain ⟨-, -, -, hwv, -, hsv, -, -, -, -, -, -, hxv, -⟩ := EAw.fits_iff.1 hf
    simp [EAw.minit, EAw.sy, syncOf_ok_iff hwv hsv hxv] at hd
    obtain ⟨rfl, hmid, hhigh, rfl, y, ⟨rfl, rfl, rfl, rfl, rfl⟩, sp, hsp, hw, rfl⟩ := hd
    exact ⟨_, hw, rfl, by simp; omega⟩
  · have ho : o.wf = true := hw
    simp only [MinitF.wf, Bool.and_eq_true] at ho
    obtain ⟨⟨⟨⟨hst, hsy⟩, hra⟩, hrb⟩, hrc⟩ := ho
    simp at hst hra hrb hrc
    have := Sync.bits_lt hsy
    have := bit_lt o.i32
    have := o.sp.code_lt
    have hi32 : (8 * bit o.i32 + o.sp.code) / 8 = bit o.i32 := by omega
    have hsp4 : (8 * bit o.i32 + o.sp.code) % 4 = o.sp.code := by omega
    exact ⟨by simp [EAw.fits_iff, h.tag_lt, h.op_lt]; omega, by simp [EAw.minit, EAw.sy, hw, hi32, hsp4]; omega⟩

theorem EAw.mdrain_iff (h : IsMain tag op v) : (eaOf v).mdrain = .ok i ↔
    ∃ o : MdrainF, (Instr.mdrain o).wf = true ∧ i = .mdrain o ∧ v = o.enc tag op := by
  refine reads_ea.decode_iff h (D := (·.mdrain))
    (fun o : MdrainF => ⟨o.st, o.sy.wBits.1, o.sy.wBits.2, o.sy.sBits.1, o.sy.sBits.2.1, 0, o.sp.code, o.ra, o.rb, o.rc, o.sy.sBits.2.2, 0⟩) ?_ fun o hw => ?_
  · rintro ⟨⟩ i - hf hd
    obtain ⟨-, -, -, hwv, -, hsv, -, -, -, -, -, -, hxv, -⟩ := EAw.fits_iff.1 hf
    simp [EAw.mdrain, EAw.sy, syncOf_ok_iff hwv hsv hxv] at hd
    obtain ⟨rfl, hhigh, rfl, y, ⟨rfl, rfl, rfl, rfl, rfl⟩, sp, hsp, hw, rfl⟩ := hd
    exact ⟨_, hw, rfl, by simp; omega⟩
  · have ho : o.wf = true := hw
    simp only [MdrainF.wf, Bool.and_eq_true] at ho
    obtain ⟨⟨⟨⟨hst, hsy⟩, hra⟩, hrb⟩, hrc⟩ := ho
    simp at hst hra hrb hrc
    have := Sync.bits_lt hsy
    have := o.sp.code_lt
    exact ⟨by simp [EAw.fits_iff, h.tag_lt, h.op_lt]; omega, by simp [EAw.mdrain, EAw.sy, hw]⟩

theorem EAw.merge_iff (h : IsMain tag op v) : (eaOf v).merge = .ok i ↔
    ∃ o : MergeF, (Instr.merge o).wf = true ∧ i = .merge o ∧ v = o.enc tag op := by
  refine reads_ea.decode_iff h (D := (·.merge))
    (fun o : MergeF => ⟨o.st, o.sy.wBits.1, o.sy.wBits.2, o.sy.sBits.1, o.sy.sBits.2.1, 0, bit o.sgn, o.ra, o.rb, 0, o.sy.sBits.2.2, 0⟩) ?_ fun o hw => ?_
  · rintro ⟨⟩ i - hf hd
    obtain ⟨-, -, -, hwv, -, hsv, -, -, -, -, -, -, hxv, -⟩ := EAw.fits_iff.1 hf
    simp [EAw.merge, EAw.sy, syncOf_ok_iff hwv hsv hxv] at hd
    obtain ⟨rfl, hhigh, rfl, rfl, y, ⟨rfl, rfl, rfl, rfl, rfl⟩, hw, rfl⟩ := hd
    exact ⟨_, hw, rfl, by simp; omega⟩
  · have ho : o.wf = true := hw
    simp only [MergeF.wf, Bool.and_eq_true] at ho
    obtain ⟨⟨⟨hst, hsy⟩, hra⟩, hrb⟩ := ho
    simp at hst hra hrb
    have := Sync.bits_lt hsy
    have := bit_lt o.sgn
    exact ⟨by simp [EAw.fits_iff, h.tag_lt, h.op_lt]; omega, by simp [EAw.merge, EAw.sy, hw]⟩

theorem EAw.dtap_iff (h : IsMain tag op v) : (eaOf v).dtap = .ok i ↔
    ∃ o : DtapF, (Instr.dtap o).wf = true ∧ i = .dtap o ∧ v = o.enc tag op := by
  refine reads_ea.decode_iff h (D := (·.dtap))
    (fun o : DtapF => ⟨o.st, o.sy.wBits.1, o.sy.wBits.2, o.sy.sBits.1, o.sy.sBits.2.1, 0, o.mode, o.ra, o.rb, 0, o.sy.sBits.2.2, 0⟩) ?_ fun o hw => ?_
  · rintro ⟨⟩ i - hf hd
    obtain ⟨-, -, -, hwv, -, hsv, -, -, -, -, -, -, hxv, -⟩ := EAw.fits_iff.1 hf
    simp [EAw.dtap, EAw.sy, syncOf_ok_iff hwv hsv hxv] at hd
    obtain ⟨rfl, hmode, rfl, rfl, y, ⟨rfl, rfl, rfl, rfl, rfl⟩, hw, rfl⟩ := hd
    exact ⟨_, hw, rfl, by simp; omega⟩
  · have ho : o.wf = true := hw
    simp only [DtapF.wf, Bool.and_eq_true] at ho
    obtain ⟨⟨⟨⟨hst, hsy⟩, hmode⟩, hra⟩, hrb⟩ := ho
    simp at hst hmode hra hrb
    have := Sync.bits_lt hsy
    have hmode4 : o.mode % 4 = o.mode := by omega
    exact ⟨by simp [EAw.fits_iff, h.tag_lt, h.op_lt]; omega, by simp [EAw.dtap, EAw.sy, hw, hmode4]; omega⟩

end EngineWords

section WordOf
/-! ## The word of a decoded instruction -/

theorem RIw.wf_of_wfShift {o : RIw} (h : o.wfShift = true) : o.wf = true := (Bool.and_eq_true_iff.1 h).1

theorem AmoF.wf_of_wfVec {o : AmoF} (h : o.wfVec = true) : o.wf = true := by
  simp only [AmoF.wfVec, Bool.and_eq_true] at h
  exact h.1.1

theorem MredF.wf_of_wfVec {o : MredF} (h : o.wfVec = true) : o.wf = true := (Bool.and_eq_true_iff.1 h).1

theorem word_of_reads {F : Type} {v : Nat} {i : Instr} {k : F → Instr} {e : F → Nat} (hs : ∃ o, (k o).wf = true ∧ i = k o ∧ v = e o)
    (he : ∀ o, encode (k o) = some (e o)) : i.wf = true ∧ encode i = some v := by
  obtain ⟨o, hw, rfl, rfl⟩ := hs
  exact ⟨hw, he o⟩

theorem decodeS_word {op v : Nat} {i : Instr} (h : IsMain 0 op v) (hd : decodeS op v = .ok i) : i.wf = true ∧ encode i = some v := by
  unfold decodeS at hd
  split at hd
  case h_1 | h_2 | h_3 | h_4 | h_5 | h_6 | h_7 | h_8 | h_9 | h_10 | h_11 | h_12 | h_13 | h_14 | h_15 | h_16 | h_17 | h_18 | h_19 =>
    exact word_of_reads ((SRw.r3w_iff h).1 hd) fun _ => rfl
  case h_20 | h_21 => exact word_of_reads ((SRw.r2w_iff h).1 hd) fun _ => rfl
  case h_22 | h_80 => exact word_of_reads ((SRw.r3_iff h).1 hd) fun _ => rfl
  case h_23 => exact word_of_reads ((SRw.r4_iff h).1 hd) fun _ => rfl
  case h_24 => exact word_of_reads ((SRw.sel_iff h).1 hd) fun _ => rfl
  case h_25 => exact word_of_reads ((SRw.cmp_iff h).1 hd) fun _ => rfl
  case h_26 => exact word_of_reads ((SRw.r4w_iff h).1 hd) fun _ => rfl
  case h_27 | h_28 | h_29 | h_30 | h_37 => exact word_of_reads ((SIw.riw_iff h).1 hd) fun _ => rfl
  case h_31 | h_32 | h_33 => exact word_of_reads ((SIw.riw_iff h (by exact fun _ w => RIw.wf_of_wfShift w)).1 hd) fun _ => rfl
  case h_34 => exact word_of_reads ((SIw.cmpi_iff h).1 hd) fun _ => rfl
  case h_35 | h_36 => exact word_of_reads ((SIw.ri0_iff h).1 hd) fun _ => rfl
  case h_38 => exact word_of_reads ((SMw.ld_iff h).1 hd) fun _ => rfl
  case h_39 => exact word_of_reads ((SMw.store_iff h).1 hd) fun _ => rfl
  case h_40 => exact word_of_reads ((SMw.ldx_iff h).1 hd) fun _ => rfl
  case h_41 => exact word_of_reads ((SMw.stx_iff h).1 hd) fun _ => rfl
  case h_42 => exact word_of_reads ((SMw.pref_iff h).1 hd) fun _ => rfl
  case h_43 => exact word_of_reads ((SMw.waita_iff h).1 hd) fun _ => rfl
  case h_44 => exact word_of_reads ((SMw.mark_iff h).1 hd) fun _ => rfl
  case h_45 => exact word_of_reads ((SMw.fence_iff h).1 hd) fun _ => rfl
  case h_46 => exact word_of_reads ((SXw.amo_iff h).1 hd) fun _ => rfl
  case h_47 => exact word_of_reads ((SXw.cas_iff h).1 hd) fun _ => rfl
  case h_48 => exact word_of_reads ((SXw.mred_iff h).1 hd) fun _ => rfl
  case h_49 => exact word_of_reads ((SXw.amo_iff h (by exact fun _ w => AmoF.wf_of_wfVec w)).1 hd) fun _ => rfl
  case h_50 => exact word_of_reads ((SXw.mred_iff h (by exact fun _ w => MredF.wf_of_wfVec w)).1 hd) fun _ => rfl
  case h_51 | h_52 | h_53 | h_55 | h_56 => exact word_of_reads ((SRw.f3_iff h).1 hd) fun _ => rfl
  case h_54 => exact word_of_reads ((SRw.f4_iff h).1 hd) fun _ => rfl
  case h_57 => exact word_of_reads ((SRw.fcvt_iff h).1 hd) fun _ => rfl
  case h_58 => exact word_of_reads ((SRw.fcmp_iff h).1 hd) fun _ => rfl
  case h_59 | h_60 => exact word_of_reads ((SRw.f2_iff h).1 hd) fun _ => rfl
  case h_61 | h_62 | h_64 | h_65 | h_83 => exact word_of_reads ((SRw.r2_iff h).1 hd) fun _ => rfl
  case h_63 | h_72 | h_74 => exact word_of_reads ((SRw.r1a_iff h).1 hd) fun _ => rfl
  case h_66 | h_67 | h_79 => exact word_of_reads ((SRw.r0_iff h).1 hd) fun _ => rfl
  case h_68 | h_69 => exact word_of_reads ((SIw.semn_iff h).1 hd) fun _ => rfl
  case h_70 => exact word_of_reads ((SIw.semi_iff h).1 hd) fun _ => rfl
  case h_71 => exact word_of_reads ((SIw.semr_iff h).1 hd) fun _ => rfl
  case h_73 => exact word_of_reads ((SRw.r1d_iff h).1 hd) fun _ => rfl
  case h_75 => exact word_of_reads ((SIw.rdsys_iff h).1 hd) fun _ => rfl
  case h_76 => exact word_of_reads ((SIw.wrsys_iff h).1 hd) fun _ => rfl
  case h_77 | h_78 => exact word_of_reads ((SIw.immf_iff h).1 hd) fun _ => rfl
  case h_81 => exact word_of_reads ((SRw.rab_iff h).1 hd) fun _ => rfl
  case h_82 => exact word_of_reads ((SRw.tlbi_iff h).1 hd) fun _ => rfl
  case h_84 => exact word_of_reads ((SRw.pload_iff h).1 hd) fun _ => rfl
  case h_85 =>
    obtain hp | hp := (SRw.pbind_iff h).1 hd
    all_goals exact word_of_reads hp fun _ => rfl
  case h_86 => exact word_of_reads ((SRw.ppar_iff h).1 hd) fun _ => rfl
  case h_87 => exact word_of_reads ((SRw.pclr_iff h).1 hd) fun _ => rfl
  case h_88 =>
    obtain hp | hp | hp := (SRw.prd_iff h).1 hd
    all_goals exact word_of_reads hp fun _ => rfl
  case h_89 => cases hd

theorem decodeA_word {op v : Nat} {i : Instr} (h : IsMain 5 op v) (hd : decodeA op v = .ok i) : i.wf = true ∧ encode i = some v := by
  unfold decodeA at hd
  split at hd
  case h_1 | h_4 => exact word_of_reads ((ABw.br_iff h).1 hd) fun _ => rfl
  case h_2 => exact word_of_reads ((ABw.bk_iff h).1 hd) fun _ => rfl
  case h_3 => exact word_of_reads ((ABw.jr_iff h).1 hd) fun _ => rfl
  case h_5 | h_9 | h_10 | h_11 => exact word_of_reads ((ABw.r0_iff h).1 hd) fun _ => rfl
  case h_6 => exact word_of_reads ((ABw.loop_iff h).1 hd) fun _ => rfl
  case h_7 => exact word_of_reads ((ABw.tstb_iff h).1 hd) fun _ => rfl
  case h_8 => exact word_of_reads ((ABw.xfence_iff h).1 hd) fun _ => rfl
  case h_12 => cases hd

/-! ## Engine words whose instruction is chosen by fn too (R346, R379) -/

theorem EIw.nest_word {tag v : Nat} {i : Instr} {c : ELvl → Instr} {s : EStr → Instr} {r : EReg → Instr} (h : IsMain tag 0 v)
    (hd : (eiOf v).nest c s r = .ok i)
    (hc : ∀ o, encode (c o) = some (o.enc tag 0 0) := by exact fun _ => rfl) (hs : ∀ o, encode (s o) = some (o.enc tag 0 1) := by exact fun _ => rfl)
    (hr : ∀ o, encode (r o) = some (o.enc tag 0 2) := by exact fun _ => rfl) (wc : ∀ o, (c o).wf = true → o.wf = true := by exact fun _ w => w)
    (ws : ∀ o, (s o).wf = true → o.wf = true := by exact fun _ w => w) (wr : ∀ o, (r o).wf = true → o.wf = true := by exact fun _ w => w) :
    i.wf = true ∧ encode i = some v := by
  unfold EIw.nest at hd
  split at hd
  case h_1 hfn => exact word_of_reads ((EIw.lvl_iff h hfn wc).1 hd) hc
  case h_2 hfn => exact word_of_reads ((EIw.str_iff h hfn ws).1 hd) hs
  case h_3 hfn => exact word_of_reads ((EIw.reg_iff h hfn wr).1 hd) hr
  case h_4 => cases hd

theorem EIw.nbase_word {tag v : Nat} {i : Instr} {a s : EBase → Instr} (h : IsMain tag 1 v) (hd : (eiOf v).nbase a s = .ok i)
    (ha : ∀ o, encode (a o) = some (o.enc tag 1 0) := by exact fun _ => rfl) (hs : ∀ o, encode (s o) = some (o.enc tag 1 1) := by exact fun _ => rfl)
    (wa : ∀ o, (a o).wf = true → o.wf = true := by exact fun _ w => w) (ws : ∀ o, (s o).wf = true → o.wf = true := by exact fun _ w => w) :
    i.wf = true ∧ encode i = some v := by
  unfold EIw.nbase at hd
  split at hd
  case h_1 hfn => exact word_of_reads ((EIw.base_iff h hfn wa).1 hd) ha
  case h_2 hfn => exact word_of_reads ((EIw.base_iff h hfn ws).1 hd) hs
  case h_3 => cases hd

theorem EIw.nfmt_word {tag v : Nat} {i : Instr} {f : EFmt → Instr} {fill limit subv : EReg → Instr} {clear : ENone → Instr} (h : IsMain tag 2 v)
    (hd : (eiOf v).nfmt f fill limit subv clear = .ok i)
    (hf : ∀ o, encode (f o) = some (o.enc tag 2 0) := by exact fun _ => rfl) (hl : ∀ o, encode (fill o) = some (o.enc tag 2 1) := by exact fun _ => rfl)
    (hm : ∀ o, encode (limit o) = some (o.enc tag 2 2) := by exact fun _ => rfl) (hs : ∀ o, encode (subv o) = some (o.enc tag 2 3) := by exact fun _ => rfl)
    (hc : ∀ o, encode (clear o) = some (o.encI tag 2 4) := by exact fun _ => rfl) (wf : ∀ o, (f o).wf = true → o.wf = true := by exact fun _ w => w)
    (wl : ∀ o, (fill o).wf = true → o.wf = true := by exact fun _ w => w) (wm : ∀ o, (limit o).wf = true → o.wf = true := by exact fun _ w => w)
    (ws : ∀ o, (subv o).wf = true → o.wf = true := by exact fun _ w => w) (wc : ∀ o, (clear o).wf = true → o.wf = true := by exact fun _ w => w) :
    i.wf = true ∧ encode i = some v := by
  unfold EIw.nfmt at hd
  split at hd
  case h_1 hfn => exact word_of_reads ((EIw.fmt_iff h hfn wf).1 hd) hf
  case h_2 hfn => exact word_of_reads ((EIw.reg_iff h hfn wl).1 hd) hl
  case h_3 hfn => exact word_of_reads ((EIw.reg_iff h hfn wm).1 hd) hm
  case h_4 hfn => exact word_of_reads ((EIw.reg_iff h hfn ws).1 hd) hs
  case h_5 hfn => exact word_of_reads ((EIw.none_iff h hfn wc).1 hd) hc
  case h_6 => cases hd

theorem EIw.mnest_word {v : Nat} {i : Instr} (h : IsMain 2 0 v) (hd : (eiOf v).mnest = .ok i) : i.wf = true ∧ encode i = some v := by
  unfold EIw.mnest at hd
  split at hd
  case h_1 hfn => exact word_of_reads ((EIw.lvl_iff h hfn).1 hd) fun _ => rfl
  case h_2 hfn => exact word_of_reads ((EIw.str_iff h hfn).1 hd) fun _ => rfl
  case h_3 => cases hd

theorem EIw.mbase_word {v : Nat} {i : Instr} (h : IsMain 2 1 v) (hd : (eiOf v).mbase = .ok i) : i.wf = true ∧ encode i = some v := by
  unfold EIw.mbase at hd
  split at hd
  case h_1 hfn | h_2 hfn => exact word_of_reads ((EIw.base_iff h hfn).1 hd) fun _ => rfl
  case h_3 hfn | h_4 hfn => exact word_of_reads ((EIw.reg_iff h hfn).1 hd) fun _ => rfl
  case h_5 => cases hd

theorem EIw.mfmt_word {v : Nat} {i : Instr} (h : IsMain 2 2 v) (hd : (eiOf v).mfmt = .ok i) : i.wf = true ∧ encode i = some v := by
  unfold EIw.mfmt at hd
  split at hd
  case h_1 hfn | h_2 hfn | h_3 hfn | h_4 hfn | h_5 hfn => exact word_of_reads ((EIw.reg_iff h hfn).1 hd) fun _ => rfl
  case h_6 hfn => exact word_of_reads ((EIw.none_iff h hfn).1 hd) fun _ => rfl
  case h_7 => cases hd

theorem decodeC_word {op v : Nat} {i : Instr} (h : IsMain 1 op v) (hd : decodeC op v = .ok i) : i.wf = true ∧ encode i = some v := by
  unfold decodeC at hd
  split at hd
  case h_1 => exact EIw.nest_word h hd
  case h_2 => exact EIw.nbase_word h hd
  case h_3 => exact EIw.nfmt_word h hd
  case h_4 | h_8 => exact word_of_reads ((EAw.copy_iff h).1 hd) fun _ => rfl
  case h_5 => exact word_of_reads ((EAw.copyz_iff h).1 hd) fun _ => rfl
  case h_6 => exact word_of_reads ((EAw.gather_iff h).1 hd) fun _ => rfl
  case h_7 => exact word_of_reads ((EAw.scatter_iff h).1 hd) fun _ => rfl
  case h_9 => exact word_of_reads ((EAw.drain_iff h).1 hd) fun _ => rfl
  case h_10 => exact word_of_reads ((EAw.cpref_iff h).1 hd) fun _ => rfl
  case h_11 => cases hd

theorem decodeM_word {op v : Nat} {i : Instr} (h : IsMain 2 op v) (hd : decodeM op v = .ok i) : i.wf = true ∧ encode i = some v := by
  unfold decodeM at hd
  split at hd
  case h_1 => exact EIw.mnest_word h hd
  case h_2 => exact EIw.mbase_word h hd
  case h_3 => exact EIw.mfmt_word h hd
  case h_4 | h_12 => exact word_of_reads ((EAw.none_iff h).1 hd) fun _ => rfl
  case h_5 => exact word_of_reads ((EAw.mzero_iff h).1 hd) fun _ => rfl
  case h_6 => exact word_of_reads ((EAw.minit_iff h).1 hd) fun _ => rfl
  case h_7 => exact word_of_reads ((EAw.mdrain_iff h).1 hd) fun _ => rfl
  case h_8 => exact word_of_reads ((EAw.e3_iff h).1 hd) fun _ => rfl
  case h_9 => exact word_of_reads ((EAw.e2_iff h).1 hd) fun _ => rfl
  case h_10 => exact word_of_reads ((EAw.idx_iff h).1 hd) fun _ => rfl
  case h_11 => exact word_of_reads ((EAw.dtap_iff h).1 hd) fun _ => rfl
  case h_13 => cases hd

theorem decodeR_word {op v : Nat} {i : Instr} (h : IsMain 3 op v) (hd : decodeR op v = .ok i) : i.wf = true ∧ encode i = some v := by
  unfold decodeR at hd
  split at hd
  case h_1 => exact EIw.nest_word h hd
  case h_2 => exact EIw.nbase_word h hd
  case h_3 => exact EIw.nfmt_word h hd
  case h_4 | h_5 => exact word_of_reads ((EAw.red_iff h).1 hd) fun _ => rfl
  case h_6 => exact word_of_reads ((EAw.merge_iff h).1 hd) fun _ => rfl
  case h_7 => cases hd

theorem decodeK_word {op v : Nat} {i : Instr} (h : IsMain 4 op v) (hd : decodeK op v = .ok i) : i.wf = true ∧ encode i = some v := by
  unfold decodeK at hd
  split at hd
  case h_1 => exact word_of_reads ((EAw.idx_iff h).1 hd) fun _ => rfl
  case h_2 => exact word_of_reads ((EAw.reg_iff h).1 hd) fun _ => rfl
  case h_3 | h_4 => exact word_of_reads ((EAw.kar_iff h).1 hd) fun _ => rfl
  case h_5 => exact word_of_reads ((EAw.e3_iff h).1 hd) fun _ => rfl
  case h_6 => cases hd

theorem isMain_of_lt {v : Nat} (h : v < 2 ^ 64) : IsMain (tagOf v) (opOf v) v := ⟨h, rfl, rfl⟩

theorem decodeMain_word {v : Nat} {i : Instr} (h : v < 2 ^ 64) (hd : decodeMain v = .ok i) : i.wf = true ∧ encode i = some v := by
  have hm := isMain_of_lt h
  unfold decodeMain at hd
  split at hd
  case h_1 ht => exact decodeS_word (ht ▸ hm) hd
  case h_2 ht => exact decodeC_word (ht ▸ hm) hd
  case h_3 ht => exact decodeM_word (ht ▸ hm) hd
  case h_4 ht => exact decodeR_word (ht ▸ hm) hd
  case h_5 ht => exact decodeK_word (ht ▸ hm) hd
  case h_6 ht => exact decodeA_word (ht ▸ hm) hd
  case h_7 => cases hd

end WordOf

section Decodes
/-! ## The bytes of a word (R7) -/

theorem length_bytesOfNat (n v : Nat) : (bytesOfNat n v).length = n := by
  induction n generalizing v with
  | zero => rfl
  | succ n ih => rw [bytesOfNat, List.length_cons, ih]

/-- The bytes of a number give back its low bytes (R7). -/
theorem natOfBytes_bytesOfNat (n v : Nat) : natOfBytes (bytesOfNat n v) = v % 2 ^ (8 * n) := by
  induction n generalizing v with
  | zero => simp [bytesOfNat, natOfBytes, Nat.mod_one]
  | succ n ih =>
    have hp : 2 ^ (8 * (n + 1)) = 256 * 2 ^ (8 * n) := by rw [Nat.mul_add, pow_add]; ring
    rw [bytesOfNat, natOfBytes, ih, hp, Nat.mod_mul, BitVec.toNat_ofNat]

theorem decodeTableWord_main {w : Nat} {i : Instr} (hw : w < 2 ^ 64) (hd : decodeMain w = .ok i) : decodeTableWord 64 w = some i := by
  have hb : natOfBytes ((bytesOfNat 8 w).take 8) = w := by
    rw [List.take_of_length_le (length_bytesOfNat 8 w).le, natOfBytes_bytesOfNat, Nat.mod_eq_of_lt hw]
  simp [decodeTableWord, decodeMainBytes, length_bytesOfNat, hb, hd, bind, Except.bind, pure, Except.pure]

theorem decodeTableWord_port {w : Nat} {i : Instr} (hw : w < 2 ^ 32) (hd : decodePort w = .ok i) : decodeTableWord 32 w = some i := by
  have hb : natOfBytes ((bytesOfNat 4 w).take 4) = w := by
    rw [List.take_of_length_le (length_bytesOfNat 4 w).le, natOfBytes_bytesOfNat, Nat.mod_eq_of_lt hw]
  simp [decodeTableWord, decodePortBytes, length_bytesOfNat, hb, hd, bind, Except.bind, pure, Except.pure]

/-! ## Port words (R275, R279) -/

theorem PortF.enc_lt (op : Nat) (o : PortF) : encPort op o < 2 ^ 32 := packOf_lt fmtPort _

/-- A port word whose op field is `op` is the word of its own fields. -/
theorem encPort_portOf {op v : Nat} (h : v < 2 ^ 32) (hop : v / 2 ^ 26 % 64 = op) : (portOf v).wf = true ∧ encPort op (portOf v) = v := by
  have hv : portOf v = ⟨v / 2 ^ 22 % 2 ^ 4, v / 2 ^ 18 % 2 ^ 4, v / 2 ^ 14 % 2 ^ 4, v / 2 ^ 10 % 2 ^ 4, v / 2 ^ 6 % 2 ^ 4, v / 2 ^ 0 % 2 ^ 6⟩ := rfl
  constructor
  · simp only [hv, PortF.wf, Bool.and_eq_true, decide_eq_true_eq]
    omega
  · have := packOf_fieldsOf fmtPort v
    rw [show fmtPort.sum = 32 from rfl, Nat.mod_eq_of_lt h] at this
    rw [hv, ← hop]
    exact this

theorem portOf_encPort {op : Nat} {o : PortF} (ho : op < 64) (hw : o.wf = true) :
    encPort op o / 2 ^ 26 % 64 = op ∧ portOf (encPort op o) = o := by
  obtain ⟨d, a, b, c, m, x⟩ := o
  simp only [PortF.wf, Bool.and_eq_true, decide_eq_true_eq] at hw
  have hf : Fits fmtPort [op, d, a, b, c, m, x] := by simp [Fits, fmtPort]; omega
  have := fieldsOf_packOf_of_fits hf
  constructor
  · have h0 : (fieldsOf fmtPort (encPort op ⟨d, a, b, c, m, x⟩))[0]? = some op := by rw [encPort, this]; rfl
    exact Option.some.inj h0
  · rw [portOf, encPort, this]

/-! ## What the packed words are: tag, opcode and fn -/

theorem isMain_packOf {tag st op : Nat} {ns vs : List Nat} (hns : ns.sum = 50) (ht : tag < 8) (ho : op < 256) :
    IsMain tag op (packOf (3 :: 3 :: 8 :: ns) (tag :: st :: op :: vs)) where
  lt := by
    have := packOf_lt (3 :: 3 :: 8 :: ns) (tag :: st :: op :: vs)
    simpa [hns] using this
  tag_eq := (head_pack tag st op ns vs hns).1.trans (Nat.mod_eq_of_lt ht)
  op_eq := (head_pack tag st op ns vs hns).2.trans (Nat.mod_eq_of_lt ho)

section
variable {op st rd ra rb rc fn md imm size ord scope ext hint off tail f m tag ch : Nat} {y : Sync}
theorem isMain_SR (ho : op < 256 := by decide) : IsMain 0 op (encSR op st rd ra rb rc fn md) := isMain_packOf rfl (by decide) ho

theorem isMain_SI (ho : op < 256 := by decide) : IsMain 0 op (encSI op st rd ra fn imm) := isMain_packOf rfl (by decide) ho

theorem isMain_SM (ho : op < 256 := by decide) : IsMain 0 op (encSM op st rd ra rb size ord scope ext hint off) := isMain_packOf rfl (by decide) ho

theorem isMain_SX (ho : op < 256 := by decide) : IsMain 0 op (encSX op st rd ra rb size ord scope fn tail) := isMain_packOf rfl (by decide) ho

theorem isMain_AB (ho : op < 256 := by decide) : IsMain 5 op (encAB op st f m ra imm) := isMain_packOf rfl (by decide) ho

theorem isMain_EA (ht : tag < 8 := by decide) (ho : op < 256 := by decide) : IsMain tag op (encEA tag op st y ch fn ra rb rc) := isMain_packOf rfl ht ho

theorem isMain_EI (ht : tag < 8 := by decide) (ho : op < 256 := by decide) : IsMain tag op (encEI tag op st y fn ra imm) := isMain_packOf rfl ht ho
end

theorem TlbiF.isMain (o : TlbiF) {op : Nat} (ho : op < 256 := by decide) : IsMain 0 op (o.enc op) := by
  unfold TlbiF.enc
  split <;> exact isMain_SR ho

theorem TstbF.isMain (o : TstbF) {op : Nat} (ho : op < 256 := by decide) : IsMain 5 op (o.enc op) := by
  unfold TstbF.enc
  split <;> exact isMain_AB ho

theorem decodeMain_S {op v : Nat} (h : IsMain 0 op v) : decodeMain v = decodeS op v := by
  rw [decodeMain, h.tag_eq, ← h.op_eq]
  rfl

theorem decodeMain_C {op v : Nat} (h : IsMain 1 op v) : decodeMain v = decodeC op v := by
  rw [decodeMain, h.tag_eq, ← h.op_eq]
  rfl

theorem decodeMain_M {op v : Nat} (h : IsMain 2 op v) : decodeMain v = decodeM op v := by
  rw [decodeMain, h.tag_eq, ← h.op_eq]
  rfl

theorem decodeMain_R {op v : Nat} (h : IsMain 3 op v) : decodeMain v = decodeR op v := by
  rw [decodeMain, h.tag_eq, ← h.op_eq]
  rfl

theorem decodeMain_K {op v : Nat} (h : IsMain 4 op v) : decodeMain v = decodeK op v := by
  rw [decodeMain, h.tag_eq, ← h.op_eq]
  rfl

theorem decodeMain_A {op v : Nat} (h : IsMain 5 op v) : decodeMain v = decodeA op v := by
  rw [decodeMain, h.tag_eq, ← h.op_eq]
  rfl

section
variable {e : EIw}

theorem EIw.nest_lvl {c : ELvl → Instr} {s : EStr → Instr} {r : EReg → Instr} (h : e.fn = 0) : e.nest c s r = e.lvl c := by simp only [nest, h]

theorem EIw.nest_str {c : ELvl → Instr} {s : EStr → Instr} {r : EReg → Instr} (h : e.fn = 1) : e.nest c s r = e.str s := by simp only [nest, h]

theorem EIw.nest_reg {c : ELvl → Instr} {s : EStr → Instr} {r : EReg → Instr} (h : e.fn = 2) : e.nest c s r = e.reg r := by simp only [nest, h]

theorem EIw.nbase_addr {a s : EBase → Instr} (h : e.fn = 0) : e.nbase a s = e.base a := by simp only [nbase, h]

theorem EIw.nbase_scale {a s : EBase → Instr} (h : e.fn = 1) : e.nbase a s = e.base s := by simp only [nbase, h]

theorem EIw.nfmt_fmt {f : EFmt → Instr} {l m s : EReg → Instr} {c : ENone → Instr} (h : e.fn = 0) : e.nfmt f l m s c = e.fmt f := by simp only [nfmt, h]

theorem EIw.nfmt_fill {f : EFmt → Instr} {l m s : EReg → Instr} {c : ENone → Instr} (h : e.fn = 1) : e.nfmt f l m s c = e.reg l := by simp only [nfmt, h]

theorem EIw.nfmt_limit {f : EFmt → Instr} {l m s : EReg → Instr} {c : ENone → Instr} (h : e.fn = 2) : e.nfmt f l m s c = e.reg m := by simp only [nfmt, h]

theorem EIw.nfmt_subv {f : EFmt → Instr} {l m s : EReg → Instr} {c : ENone → Instr} (h : e.fn = 3) : e.nfmt f l m s c = e.reg s := by simp only [nfmt, h]

theorem EIw.nfmt_clear {f : EFmt → Instr} {l m s : EReg → Instr} {c : ENone → Instr} (h : e.fn = 4) : e.nfmt f l m s c = e.none c := by simp only [nfmt, h]

theorem EIw.mnest_lvl (h : e.fn = 0) : e.mnest = e.lvl .mnestCount := by simp only [mnest, h]

theorem EIw.mnest_str (h : e.fn = 1) : e.mnest = e.str .mnestStride := by simp only [mnest, h]

theorem EIw.mbase_addr (h : e.fn = 0) : e.mbase = e.base .mbaseAddr := by simp only [mbase, h]

theorem EIw.mbase_scale (h : e.fn = 1) : e.mbase = e.base .mbaseScale := by simp only [mbase, h]

theorem EIw.mbase_pitch (h : e.fn = 2) : e.mbase = e.reg .mbasePitch := by simp only [mbase, h]

theorem EIw.mbase_dpitch (h : e.fn = 3) : e.mbase = e.reg .mbaseDpitch := by simp only [mbase, h]

theorem EIw.mfmt_ctl (h : e.fn = 0) : e.mfmt = e.reg .mfmtCtl := by simp only [mfmt, h]

theorem EIw.mfmt_dctl (h : e.fn = 1) : e.mfmt = e.reg .mfmtDctl := by simp only [mfmt, h]

theorem EIw.mfmt_dsb (h : e.fn = 2) : e.mfmt = e.reg .mfmtDsb := by simp only [mfmt, h]

theorem EIw.mfmt_clip (h : e.fn = 3) : e.mfmt = e.reg .mfmtClip := by simp only [mfmt, h]

theorem EIw.mfmt_subv (h : e.fn = 4) : e.mfmt = e.reg .mfmtSubv := by simp only [mfmt, h]

theorem EIw.mfmt_clear (h : e.fn = 5) : e.mfmt = e.none .mfmtClear := by simp only [mfmt, h]
end

/-! ## A well-formed instruction is decoded from its word -/

/-- The word of the instruction, where it has one, is a main-stream or a port word that decodes to it. -/
def Decodes (i : Instr) : Prop := ∀ w, encode i = some w → (w < 2 ^ 64 ∧ decodeMain w = .ok i) ∨ (w < 2 ^ 32 ∧ decodePort w = .ok i)

theorem decodes_of_main {tag op v : Nat} {i : Instr} (h : IsMain tag op v) (he : encode i = some v) (hd : decodeMain v = .ok i) : Decodes i := by
  intro w e
  rw [he] at e
  cases e
  exact .inl ⟨h.lt, hd⟩

theorem decodes_of_port {op : Nat} {o : PortF} {i : Instr} (ho : op < 64) (hw : o.wf = true) (he : encode i = some (encPort op o))
    (hd : ∀ v, v / 2 ^ 26 % 64 = op → portOf v = o → decodePort v = .ok i) : Decodes i := by
  intro w e
  rw [he] at e
  cases e
  obtain ⟨hop, hf⟩ := portOf_encPort ho hw
  exact .inr ⟨PortF.enc_lt op o, hd _ hop hf⟩

theorem decodes_S {op v : Nat} {i : Instr} (h : IsMain 0 op v) (he : encode i = some v) (hd : IsMain 0 op v → decodeS op v = .ok i) : Decodes i :=
  decodes_of_main h he ((decodeMain_S h).trans (hd h))

theorem decodes_C {op v : Nat} {i : Instr} (h : IsMain 1 op v) (he : encode i = some v) (hd : IsMain 1 op v → decodeC op v = .ok i) : Decodes i :=
  decodes_of_main h he ((decodeMain_C h).trans (hd h))

theorem decodes_M {op v : Nat} {i : Instr} (h : IsMain 2 op v) (he : encode i = some v) (hd : IsMain 2 op v → decodeM op v = .ok i) : Decodes i :=
  decodes_of_main h he ((decodeMain_M h).trans (hd h))

theorem decodes_R {op v : Nat} {i : Instr} (h : IsMain 3 op v) (he : encode i = some v) (hd : IsMain 3 op v → decodeR op v = .ok i) : Decodes i :=
  decodes_of_main h he ((decodeMain_R h).trans (hd h))

theorem decodes_K {op v : Nat} {i : Instr} (h : IsMain 4 op v) (he : encode i = some v) (hd : IsMain 4 op v → decodeK op v = .ok i) : Decodes i :=
  decodes_of_main h he ((decodeMain_K h).trans (hd h))

theorem decodes_A {op v : Nat} {i : Instr} (h : IsMain 5 op v) (he : encode i = some v) (hd : IsMain 5 op v → decodeA op v = .ok i) : Decodes i :=
  decodes_of_main h he ((decodeMain_A h).trans (hd h))

/-- An engine word's fn is the one it was packed with. -/
theorem decodes_EI {tag op st fn ra imm : Nat} {y : Sync} {i : Instr} (he : encode i = some (encEI tag op st y fn ra imm)) (hfn : fn % 32 = fn)
    (hd : ∀ v, v = encEI tag op st y fn ra imm → IsMain tag op v → (eiOf v).fn = fn → decodeMain v = .ok i)
    (ht : tag < 8 := by decide) (ho : op < 256 := by decide) : Decodes i :=
  decodes_of_main (isMain_EI ht ho) he (hd _ rfl (isMain_EI ht ho) (by rw [eiOf_enc]; exact hfn))

theorem decodes_of_wf {i : Instr} (hw : i.wf = true) : Decodes i := by
  cases i
  -- S-tagged words
  case add o | sub o | mul o | mulh o | mulhu o | div o | divu o | rem o | remu o | and o | or o | xor o | shl o | shr o | sra o
      | min o | max o | minu o | maxu o =>
    exact decodes_S isMain_SR rfl fun h => (SRw.r3w_iff h).2 ⟨o, hw, rfl, rfl⟩
  case clz o | popc o =>
    exact decodes_S isMain_SR rfl fun h => (SRw.r2w_iff h).2 ⟨o, hw, rfl, rfl⟩
  case bext o | iclk o =>
    exact decodes_S isMain_SR rfl fun h => (SRw.r3_iff h).2 ⟨o, hw, rfl, rfl⟩
  case bins o =>
    exact decodes_S isMain_SR rfl fun h => (SRw.r4_iff h).2 ⟨o, hw, rfl, rfl⟩
  case sel o =>
    exact decodes_S isMain_SR rfl fun h => (SRw.sel_iff h).2 ⟨o, hw, rfl, rfl⟩
  case cmp o =>
    exact decodes_S isMain_SR rfl fun h => (SRw.cmp_iff h).2 ⟨o, hw, rfl, rfl⟩
  case madd o =>
    exact decodes_S isMain_SR rfl fun h => (SRw.r4w_iff h).2 ⟨o, hw, rfl, rfl⟩
  case addi o | andi o | ori o | xori o | muli o =>
    exact decodes_S isMain_SI rfl fun h => (SIw.riw_iff h).2 ⟨o, hw, rfl, rfl⟩
  case shli o | shri o | srai o =>
    exact decodes_S isMain_SI rfl fun h => (SIw.riw_iff h (by exact fun _ w => RIw.wf_of_wfShift w)).2 ⟨o, hw, rfl, rfl⟩
  case cmpi o =>
    exact decodes_S isMain_SI rfl fun h => (SIw.cmpi_iff h).2 ⟨o, hw, rfl, rfl⟩
  case li o | lih o =>
    exact decodes_S isMain_SI rfl fun h => (SIw.ri0_iff h).2 ⟨o, hw, rfl, rfl⟩
  case ld o =>
    exact decodes_S isMain_SM rfl fun h => (SMw.ld_iff h).2 ⟨o, hw, rfl, rfl⟩
  case st o =>
    exact decodes_S isMain_SM rfl fun h => (SMw.store_iff h).2 ⟨o, hw, rfl, rfl⟩
  case ldx o =>
    exact decodes_S isMain_SM rfl fun h => (SMw.ldx_iff h).2 ⟨o, hw, rfl, rfl⟩
  case stx o =>
    exact decodes_S isMain_SM rfl fun h => (SMw.stx_iff h).2 ⟨o, hw, rfl, rfl⟩
  case pref o =>
    exact decodes_S isMain_SM rfl fun h => (SMw.pref_iff h).2 ⟨o, hw, rfl, rfl⟩
  case waita o =>
    exact decodes_S isMain_SM rfl fun h => (SMw.waita_iff h).2 ⟨o, hw, rfl, rfl⟩
  case mark o =>
    exact decodes_S isMain_SM rfl fun h => (SMw.mark_iff h).2 ⟨o, hw, rfl, rfl⟩
  case fence o =>
    exact decodes_S isMain_SM rfl fun h => (SMw.fence_iff h).2 ⟨o, hw, rfl, rfl⟩
  case amo o =>
    exact decodes_S isMain_SX rfl fun h => (SXw.amo_iff h).2 ⟨o, hw, rfl, rfl⟩
  case vamo o =>
    exact decodes_S isMain_SX rfl fun h => (SXw.amo_iff h (by exact fun _ w => AmoF.wf_of_wfVec w)).2 ⟨o, hw, rfl, rfl⟩
  case cas o =>
    exact decodes_S isMain_SX rfl fun h => (SXw.cas_iff h).2 ⟨o, hw, rfl, rfl⟩
  case mred o =>
    exact decodes_S isMain_SX rfl fun h => (SXw.mred_iff h).2 ⟨o, hw, rfl, rfl⟩
  case vmred o =>
    exact decodes_S isMain_SX rfl fun h => (SXw.mred_iff h (by exact fun _ w => MredF.wf_of_wfVec w)).2 ⟨o, hw, rfl, rfl⟩
  case fadd o | fsub o | fmul o | fmin o | fmax o =>
    exact decodes_S isMain_SR rfl fun h => (SRw.f3_iff h).2 ⟨o, hw, rfl, rfl⟩
  case ffma o =>
    exact decodes_S isMain_SR rfl fun h => (SRw.f4_iff h).2 ⟨o, hw, rfl, rfl⟩
  case fcvt o =>
    exact decodes_S isMain_SR rfl fun h => (SRw.fcvt_iff h).2 ⟨o, hw, rfl, rfl⟩
  case fcmp o =>
    exact decodes_S isMain_SR rfl fun h => (SRw.fcmp_iff h).2 ⟨o, hw, rfl, rfl⟩
  case frcp o | frsq o =>
    exact decodes_S isMain_SR rfl fun h => (SRw.f2_iff h).2 ⟨o, hw, rfl, rfl⟩
  case spawn o | arrive o | bmake o | join o | caps o =>
    exact decodes_S isMain_SR rfl fun h => (SRw.r2_iff h).2 ⟨o, hw, rfl, rfl⟩
  case est o | sleepu o | yield o =>
    exact decodes_S isMain_SR rfl fun h => (SRw.r1a_iff h).2 ⟨o, hw, rfl, rfl⟩
  case leave o | bbar o | tret o =>
    exact decodes_S isMain_SR rfl fun h => (SRw.r0_iff h).2 ⟨o, hw, rfl, rfl⟩
  case semw o | sems o =>
    exact decodes_S isMain_SI rfl fun h => (SIw.semn_iff h).2 ⟨o, hw, rfl, rfl⟩
  case semi o =>
    exact decodes_S isMain_SI rfl fun h => (SIw.semi_iff h).2 ⟨o, hw, rfl, rfl⟩
  case semr o =>
    exact decodes_S isMain_SI rfl fun h => (SIw.semr_iff h).2 ⟨o, hw, rfl, rfl⟩
  case cyc o =>
    exact decodes_S isMain_SR rfl fun h => (SRw.r1d_iff h).2 ⟨o, hw, rfl, rfl⟩
  case rdsys o =>
    exact decodes_S isMain_SI rfl fun h => (SIw.rdsys_iff h).2 ⟨o, hw, rfl, rfl⟩
  case wrsys o =>
    exact decodes_S isMain_SI rfl fun h => (SIw.wrsys_iff h).2 ⟨o, hw, rfl, rfl⟩
  case svc o | trap o =>
    exact decodes_S isMain_SI rfl fun h => (SIw.immf_iff h).2 ⟨o, hw, rfl, rfl⟩
  case iulk o =>
    exact decodes_S isMain_SR rfl fun h => (SRw.rab_iff h).2 ⟨o, hw, rfl, rfl⟩
  case tlbi o =>
    exact decodes_S (TlbiF.isMain o) rfl fun h => (SRw.tlbi_iff h).2 ⟨o, hw, rfl, rfl⟩
  case pload o =>
    exact decodes_S isMain_SR rfl fun h => (SRw.pload_iff h).2 ⟨o, hw, rfl, rfl⟩
  case pbind o => exact decodes_S isMain_SR rfl fun h => (SRw.pbind_iff h).2 (.inl ⟨o, hw, rfl, rfl⟩)
  case pbindU o => exact decodes_S isMain_SR rfl fun h => (SRw.pbind_iff h).2 (.inr ⟨o, hw, rfl, rfl⟩)
  case ppar o =>
    exact decodes_S isMain_SR rfl fun h => (SRw.ppar_iff h).2 ⟨o, hw, rfl, rfl⟩
  case pclr o =>
    exact decodes_S isMain_SR rfl fun h => (SRw.pclr_iff h).2 ⟨o, hw, rfl, rfl⟩
  case prd o => exact decodes_S isMain_SR rfl fun h => (SRw.prd_iff h).2 (.inl ⟨o, hw, rfl, rfl⟩)
  case prdC o => exact decodes_S isMain_SR rfl fun h => (SRw.prd_iff h).2 (.inr (.inl ⟨o, hw, rfl, rfl⟩))
  case prdN o => exact decodes_S isMain_SR rfl fun h => (SRw.prd_iff h).2 (.inr (.inr ⟨o, hw, rfl, rfl⟩))
  -- A-tagged words
  case br o | call o =>
    exact decodes_A isMain_AB rfl fun h => (ABw.br_iff h).2 ⟨o, hw, rfl, rfl⟩
  case bk o =>
    exact decodes_A isMain_AB rfl fun h => (ABw.bk_iff h).2 ⟨o, hw, rfl, rfl⟩
  case jr o =>
    exact decodes_A isMain_AB rfl fun h => (ABw.jr_iff h).2 ⟨o, hw, rfl, rfl⟩
  case ret o | endTask o | sync o | nop o =>
    exact decodes_A isMain_AB rfl fun h => (ABw.r0_iff h).2 ⟨o, hw, rfl, rfl⟩
  case loop o =>
    exact decodes_A isMain_AB rfl fun h => (ABw.loop_iff h).2 ⟨o, hw, rfl, rfl⟩
  case tstb o =>
    exact decodes_A (TstbF.isMain o) rfl fun h => (ABw.tstb_iff h).2 ⟨o, hw, rfl, rfl⟩
  case xfence o =>
    exact decodes_A isMain_AB rfl fun h => (ABw.xfence_iff h).2 ⟨o, hw, rfl, rfl⟩
  -- C-tagged words
  case copy o | decomp o =>
    exact decodes_C isMain_EA rfl fun h => (EAw.copy_iff h).2 ⟨o, hw, rfl, rfl⟩
  case copyz o =>
    exact decodes_C isMain_EA rfl fun h => (EAw.copyz_iff h).2 ⟨o, hw, rfl, rfl⟩
  case gather o =>
    exact decodes_C isMain_EA rfl fun h => (EAw.gather_iff h).2 ⟨o, hw, rfl, rfl⟩
  case scatter o =>
    exact decodes_C isMain_EA rfl fun h => (EAw.scatter_iff h).2 ⟨o, hw, rfl, rfl⟩
  case drain o =>
    exact decodes_C isMain_EA rfl fun h => (EAw.drain_iff h).2 ⟨o, hw, rfl, rfl⟩
  case cpref o =>
    exact decodes_C isMain_EA rfl fun h => (EAw.cpref_iff h).2 ⟨o, hw, rfl, rfl⟩
  case cnestCount o =>
    exact decodes_EI rfl rfl fun _ hv h hfn => (decodeMain_C h).trans ((EIw.nest_lvl hfn).trans ((EIw.lvl_iff h hfn).2 ⟨o, hw, rfl, hv⟩))
  case cnestStride o =>
    exact decodes_EI rfl rfl fun _ hv h hfn => (decodeMain_C h).trans ((EIw.nest_str hfn).trans ((EIw.str_iff h hfn).2 ⟨o, hw, rfl, hv⟩))
  case cnestRun o =>
    exact decodes_EI rfl rfl fun _ hv h hfn => (decodeMain_C h).trans ((EIw.nest_reg hfn).trans ((EIw.reg_iff h hfn).2 ⟨o, hw, rfl, hv⟩))
  case cbaseAddr o =>
    exact decodes_EI rfl rfl fun _ hv h hfn => (decodeMain_C h).trans ((EIw.nbase_addr hfn).trans ((EIw.base_iff h hfn).2 ⟨o, hw, rfl, hv⟩))
  case cbaseScale o =>
    exact decodes_EI rfl rfl fun _ hv h hfn => (decodeMain_C h).trans ((EIw.nbase_scale hfn).trans ((EIw.base_iff h hfn).2 ⟨o, hw, rfl, hv⟩))
  case cfmtFmt o =>
    exact decodes_EI rfl rfl fun _ hv h hfn => (decodeMain_C h).trans ((EIw.nfmt_fmt hfn).trans ((EIw.fmt_iff h hfn).2 ⟨o, hw, rfl, hv⟩))
  case cfmtFill o =>
    exact decodes_EI rfl rfl fun _ hv h hfn => (decodeMain_C h).trans ((EIw.nfmt_fill hfn).trans ((EIw.reg_iff h hfn).2 ⟨o, hw, rfl, hv⟩))
  case cfmtLimit o =>
    exact decodes_EI rfl rfl fun _ hv h hfn => (decodeMain_C h).trans ((EIw.nfmt_limit hfn).trans ((EIw.reg_iff h hfn).2 ⟨o, hw, rfl, hv⟩))
  case cfmtSubv o =>
    exact decodes_EI rfl rfl fun _ hv h hfn => (decodeMain_C h).trans ((EIw.nfmt_subv hfn).trans ((EIw.reg_iff h hfn).2 ⟨o, hw, rfl, hv⟩))
  case cfmtClear o =>
    exact decodes_EI rfl rfl fun _ hv h hfn => (decodeMain_C h).trans ((EIw.nfmt_clear hfn).trans ((EIw.none_iff h hfn).2 ⟨o, hw, rfl, hv⟩))
  -- M-tagged words
  case mgo o | dgo o =>
    exact decodes_M isMain_EA rfl fun h => (EAw.none_iff h).2 ⟨o, hw, rfl, rfl⟩
  case mzero o =>
    exact decodes_M isMain_EA rfl fun h => (EAw.mzero_iff h).2 ⟨o, hw, rfl, rfl⟩
  case minit o =>
    exact decodes_M isMain_EA rfl fun h => (EAw.minit_iff h).2 ⟨o, hw, rfl, rfl⟩
  case mdrain o =>
    exact decodes_M isMain_EA rfl fun h => (EAw.mdrain_iff h).2 ⟨o, hw, rfl, rfl⟩
  case msparse o =>
    exact decodes_M isMain_EA rfl fun h => (EAw.e3_iff h).2 ⟨o, hw, rfl, rfl⟩
  case dmap o =>
    exact decodes_M isMain_EA rfl fun h => (EAw.e2_iff h).2 ⟨o, hw, rfl, rfl⟩
  case dcurve o =>
    exact decodes_M isMain_EA rfl fun h => (EAw.idx_iff h).2 ⟨o, hw, rfl, rfl⟩
  case dtap o =>
    exact decodes_M isMain_EA rfl fun h => (EAw.dtap_iff h).2 ⟨o, hw, rfl, rfl⟩
  case mnestCount o =>
    exact decodes_EI rfl rfl fun _ hv h hfn => (decodeMain_M h).trans ((EIw.mnest_lvl hfn).trans ((EIw.lvl_iff h hfn).2 ⟨o, hw, rfl, hv⟩))
  case mnestStride o =>
    exact decodes_EI rfl rfl fun _ hv h hfn => (decodeMain_M h).trans ((EIw.mnest_str hfn).trans ((EIw.str_iff h hfn).2 ⟨o, hw, rfl, hv⟩))
  case mbaseAddr o =>
    exact decodes_EI rfl rfl fun _ hv h hfn => (decodeMain_M h).trans ((EIw.mbase_addr hfn).trans ((EIw.base_iff h hfn).2 ⟨o, hw, rfl, hv⟩))
  case mbaseScale o =>
    exact decodes_EI rfl rfl fun _ hv h hfn => (decodeMain_M h).trans ((EIw.mbase_scale hfn).trans ((EIw.base_iff h hfn).2 ⟨o, hw, rfl, hv⟩))
  case mbasePitch o =>
    exact decodes_EI rfl rfl fun _ hv h hfn => (decodeMain_M h).trans ((EIw.mbase_pitch hfn).trans ((EIw.reg_iff h hfn).2 ⟨o, hw, rfl, hv⟩))
  case mbaseDpitch o =>
    exact decodes_EI rfl rfl fun _ hv h hfn => (decodeMain_M h).trans ((EIw.mbase_dpitch hfn).trans ((EIw.reg_iff h hfn).2 ⟨o, hw, rfl, hv⟩))
  case mfmtCtl o =>
    exact decodes_EI rfl rfl fun _ hv h hfn => (decodeMain_M h).trans ((EIw.mfmt_ctl hfn).trans ((EIw.reg_iff h hfn).2 ⟨o, hw, rfl, hv⟩))
  case mfmtDctl o =>
    exact decodes_EI rfl rfl fun _ hv h hfn => (decodeMain_M h).trans ((EIw.mfmt_dctl hfn).trans ((EIw.reg_iff h hfn).2 ⟨o, hw, rfl, hv⟩))
  case mfmtDsb o =>
    exact decodes_EI rfl rfl fun _ hv h hfn => (decodeMain_M h).trans ((EIw.mfmt_dsb hfn).trans ((EIw.reg_iff h hfn).2 ⟨o, hw, rfl, hv⟩))
  case mfmtClip o =>
    exact decodes_EI rfl rfl fun _ hv h hfn => (decodeMain_M h).trans ((EIw.mfmt_clip hfn).trans ((EIw.reg_iff h hfn).2 ⟨o, hw, rfl, hv⟩))
  case mfmtSubv o =>
    exact decodes_EI rfl rfl fun _ hv h hfn => (decodeMain_M h).trans ((EIw.mfmt_subv hfn).trans ((EIw.reg_iff h hfn).2 ⟨o, hw, rfl, hv⟩))
  case mfmtClear o =>
    exact decodes_EI rfl rfl fun _ hv h hfn => (decodeMain_M h).trans ((EIw.mfmt_clear hfn).trans ((EIw.none_iff h hfn).2 ⟨o, hw, rfl, hv⟩))
  -- R-tagged words
  case red o | scan o =>
    exact decodes_R isMain_EA rfl fun h => (EAw.red_iff h).2 ⟨o, hw, rfl, rfl⟩
  case merge o =>
    exact decodes_R isMain_EA rfl fun h => (EAw.merge_iff h).2 ⟨o, hw, rfl, rfl⟩
  case rnestCount o =>
    exact decodes_EI rfl rfl fun _ hv h hfn => (decodeMain_R h).trans ((EIw.nest_lvl hfn).trans ((EIw.lvl_iff h hfn).2 ⟨o, hw, rfl, hv⟩))
  case rnestStride o =>
    exact decodes_EI rfl rfl fun _ hv h hfn => (decodeMain_R h).trans ((EIw.nest_str hfn).trans ((EIw.str_iff h hfn).2 ⟨o, hw, rfl, hv⟩))
  case rnestRun o =>
    exact decodes_EI rfl rfl fun _ hv h hfn => (decodeMain_R h).trans ((EIw.nest_reg hfn).trans ((EIw.reg_iff h hfn).2 ⟨o, hw, rfl, hv⟩))
  case rbaseAddr o =>
    exact decodes_EI rfl rfl fun _ hv h hfn => (decodeMain_R h).trans ((EIw.nbase_addr hfn).trans ((EIw.base_iff h hfn).2 ⟨o, hw, rfl, hv⟩))
  case rbaseScale o =>
    exact decodes_EI rfl rfl fun _ hv h hfn => (decodeMain_R h).trans ((EIw.nbase_scale hfn).trans ((EIw.base_iff h hfn).2 ⟨o, hw, rfl, hv⟩))
  case rfmtFmt o =>
    exact decodes_EI rfl rfl fun _ hv h hfn => (decodeMain_R h).trans ((EIw.nfmt_fmt hfn).trans ((EIw.fmt_iff h hfn).2 ⟨o, hw, rfl, hv⟩))
  case rfmtFill o =>
    exact decodes_EI rfl rfl fun _ hv h hfn => (decodeMain_R h).trans ((EIw.nfmt_fill hfn).trans ((EIw.reg_iff h hfn).2 ⟨o, hw, rfl, hv⟩))
  case rfmtLimit o =>
    exact decodes_EI rfl rfl fun _ hv h hfn => (decodeMain_R h).trans ((EIw.nfmt_limit hfn).trans ((EIw.reg_iff h hfn).2 ⟨o, hw, rfl, hv⟩))
  case rfmtSubv o =>
    exact decodes_EI rfl rfl fun _ hv h hfn => (decodeMain_R h).trans ((EIw.nfmt_subv hfn).trans ((EIw.reg_iff h hfn).2 ⟨o, hw, rfl, hv⟩))
  case rfmtClear o =>
    exact decodes_EI rfl rfl fun _ hv h hfn => (decodeMain_R h).trans ((EIw.nfmt_clear hfn).trans ((EIw.none_iff h hfn).2 ⟨o, hw, rfl, hv⟩))
  -- K-tagged words
  case kring o =>
    exact decodes_K isMain_EA rfl fun h => (EAw.idx_iff h).2 ⟨o, hw, rfl, rfl⟩
  case kbw o =>
    exact decodes_K isMain_EA rfl fun h => (EAw.reg_iff h).2 ⟨o, hw, rfl, rfl⟩
  case kallred o | kbcast o =>
    exact decodes_K isMain_EA rfl fun h => (EAw.kar_iff h).2 ⟨o, hw, rfl, rfl⟩
  case kput o =>
    exact decodes_K isMain_EA rfl fun h => (EAw.e3_iff h).2 ⟨o, hw, rfl, rfl⟩
  -- port words
  case portFadd o | portFsub o | portFmul o | portFfma o | portFmin o | portFmax o | portFabs o | portFneg o | portFrcp o
      | portFrsq o | portFex2 o | portFlg2 o | portFcmp o | portIadd o | portIsub o | portImul o | portImulh o | portImin o
      | portImax o | portIminu o | portImaxu o | portAnd o | portOr o | portXor o | portShl o | portShr o | portSra o | portIcmp o
      | portSel o | portCvt o | portRnd o | portQsr o | portGet o | portOut o | portDrop o | portPar o | portParx o | portCget o
      | portCset o | portPrev o | portLut o | portLdl o | portStl o | portFlag o =>
    exact decodes_of_port (by decide) hw rfl fun v hop ho => by simp only [decodePort, hop, ho]
  case portHint n o =>
    simp only [Instr.wf, Bool.and_eq_true, decide_eq_true_eq] at hw
    obtain ⟨hn, hw⟩ := hw
    exact decodes_of_port (by omega) hw rfl fun v hop ho => by interval_cases n <;> simp only [decodePort, hop, ho]
  -- events have no word
  all_goals exact fun w e => by cases e

/-! ## The word of a decoded port instruction -/

theorem decodePort_word {v : Nat} {i : Instr} (h : v < 2 ^ 32) (hd : decodePort v = .ok i) : i.wf = true ∧ encode i = some v := by
  unfold decodePort at hd
  split at hd
  case h_53 => cases hd
  all_goals
    obtain ⟨hw, he⟩ := encPort_portOf h ‹v / 2 ^ 26 % 64 = _›
    cases hd
    exact ⟨hw, congrArg some he⟩

end Decodes

/-- Settles O57: every decoder of an operand shape accepts exactly the words its encoder gives (the `_iff` lemmas above). -/
theorem decodeEncode : Obligations.DecodeEncode := by
  unfold Obligations.DecodeEncode
  refine ⟨fun i w hw he => ?_, fun i w h hd => decodeMain_word h hd, fun i w h hd => decodePort_word h hd⟩
  obtain ⟨hlt, hd⟩ | ⟨hlt, hd⟩ := decodes_of_wf hw w he
  · exact ⟨64, .inr rfl, hlt, decodeTableWord_main hlt hd⟩
  · exact ⟨32, .inl rfl, hlt, decodeTableWord_port hlt hd⟩

end Sys2Proof
end

section
/-! PROOF. Branches (R286, R299, R300): where br, bk, jr, call, ret, loop and nop go, and what they write. -/

namespace Sys2Proof.Machine

open Sys2Proof

/-- An aligned indirect target is branched to (R301). -/
theorem jump_aligned {s : State} {st : Nat} {t : Word} (h : t.toNat % 8 = 0) : s.jump st t = s.branch st true t := by
  unfold State.jump
  rw [if_neg (not_not.2 h)]

/-- The counter of a loop that stands at 1 has run out (R300). -/
theorem sub_one_eq_zero_iff {x : Word} : x - 1 = 0 ↔ x = 1 := sub_eq_zero

theorem exec_call {s : State} (hn : s.cur.agent ≠ .helper) (h : s.Ready [] (some (2, 1))) (o : BrF) :
    exec (.call o) s = .next ((s.follow.res 2 (s.pc + 8) 1).retire o.st 1 (s.rel o.off)) := by
  rw [show exec (.call o) s = s.notHelper _ from rfl, State.notHelper_eq hn, h.issue, State.target_eq_rel]

theorem exec_ret {s : State} (hn : s.cur.agent ≠ .helper) (h : s.Ready [2] none) (ha : (s.r 2).toNat % 8 = 0) (o : R0) :
    exec (.ret o) s = .next (s.branch o.st true (s.r 2)) := by
  rw [show exec (.ret o) s = s.notHelper _ from rfl, State.notHelper_eq hn, h.issue, jump_aligned ha]

theorem exec_loop {s : State} {o : LoopF} (h : s.Ready [o.ra] (some (o.ra, 1))) : exec (.loop o) s = .next
    (if s.r o.ra - 1 = 0 then (s.follow.res o.ra (s.r o.ra - 1) 1).adv o.st else (s.follow.res o.ra (s.r o.ra - 1) 1).retire o.st 1 (s.rel o.off)) := by
  rw [← State.target_eq_rel]
  exact h.issue _

/-- Settles O10: every branch is a retirement of the state that the trailing streams follow, with the address after it, or the counter, on its way
where it writes one. -/
theorem branchesGo : Obligations.BranchesGo := by
  unfold Obligations.BranchesGo
  refine ⟨?br, ?bk, ?jr, ?call, ?ret, ?loop, ?nop⟩
  case br => exact fun o s h => ⟨_, h.issue _, State.target_eq_rel s o.off ▸ State.branch_taken h.agent o.st _⟩
  case bk =>
    exact fun o s h => ⟨_, h.issue _, State.target_eq_rel s o.off ▸ State.branch_iff h.agent o.st _ (holds_iff_meets o.cond .d _ _)⟩
  case jr =>
    intro o s h ha
    exact ⟨_, h.issue _, by rw [jump_aligned ha]; exact State.branch_taken h.agent o.st _⟩
  case call => exact fun o s h hn => ⟨_, exec_call hn h o, State.res_retire_givesTo (State.hasAgent_follow h.agent) 2 _ 1 o.st 1 _⟩
  case ret => exact fun o s h hn ha => ⟨_, exec_ret hn h ha o, State.branch_taken h.agent o.st _⟩
  case loop =>
    intro o s h
    have hf := State.hasAgent_follow h.agent
    refine ⟨_, exec_loop h, fun hne => ?_, fun heq => ?_⟩
    · rw [if_neg (mt sub_one_eq_zero_iff.1 hne)]
      exact State.res_retire_givesTo hf o.ra _ 1 o.st 1 _
    · rw [heq]
      exact State.res_adv_gives hf o.ra _ 1 o.st
  case nop => exact fun o s h => ⟨_, h.issue _, State.adv_passes (State.hasAgent_follow h.agent) o.st⟩

end Sys2Proof.Machine
end

section
/-! PROOF. Immediate instructions, li, lih and madd (R285, R289, R293): what they give. -/

namespace Sys2Proof.Machine

open Sys2Proof

/-- A sign-extended immediate stands for its signed value modulo the width (R293). -/
theorem immX_emod (z : Width) (x : BitVec 32) : ((immX x).toNat : Int) % 2 ^ z.bits = x.toInt % 2 ^ z.bits := by
  rw [show immX x = BitVec.ofInt 64 x.toInt from rfl, BitVec.toNat_ofInt]
  cases z <;> simp only [Width.bits] <;> omega

theorem out_add_immX (z : Width) (a : Word) (x : BitVec 32) : z.out (a + immX x) = z.wrap (z.uns a + x.toInt) := by
  apply out_wrap
  rw [BitVec.toNat_add, emod64]
  push_cast
  exact Int.ModEq.add (uns_emod z a).symm (immX_emod z x)

theorem out_mul_immX (z : Width) (a : Word) (x : BitVec 32) : z.out (a * immX x) = z.wrap (z.uns a * x.toInt) := by
  apply out_wrap
  rw [BitVec.toNat_mul, emod64]
  push_cast
  exact Int.ModEq.mul (uns_emod z a).symm (immX_emod z x)

theorem out_mul_add (z : Width) (a b c : Word) : z.out (a * b + c) = z.wrap (z.uns a * z.uns b + z.uns c) := by
  apply out_wrap
  have hmul : ((a * b).toNat : Int) ≡ z.uns a * z.uns b [ZMOD 2 ^ z.bits] := by
    rw [BitVec.toNat_mul]
    refine (emod64 z _).trans ?_
    push_cast
    exact Int.ModEq.mul (uns_emod z a).symm (uns_emod z b).symm
  rw [BitVec.toNat_add, emod64, Nat.cast_add]
  exact hmul.add (uns_emod z c).symm

/-- lih keeps the low half of its register and puts the immediate above it (R293). -/
theorem lihVal_eq (old : Word) (x : BitVec 32) : lihVal old x = x ++ old.setWidth 32 := by
  apply BitVec.eq_of_toNat_eq
  have hold := Nat.mod_lt old.toNat (show 0 < 2 ^ 32 by decide)
  have hx := x.isLt
  rw [lihVal, word, BitVec.toNat_ofNat, BitVec.toNat_append, BitVec.toNat_setWidth, Nat.shiftLeft_eq, Nat.mul_comm, ← Nat.two_pow_add_eq_or_of_lt hold]
  omega

/-- An immediate instruction gives one result, with the value and the latency of its row. -/
theorem exec_immRow : ∀ row ∈ immRows, ∀ (o : RIw) (s : State),
    exec (row.1 o) s = s.result o.st [o.ra] o.rd (row.2.1 o.w (s.r o.ra) o.imm) row.2.2 := by
  simp only [immRows, List.forall_mem_cons]
  refine ⟨?addi, ?andi, ?ori, ?xori, ?shli, ?shri, ?srai, ?muli, List.forall_mem_nil _⟩ <;> intro o s
  case addi => exact congrArg (s.result o.st [o.ra] o.rd · 1) (out_add_immX _ _ _)
  case andi | ori | xori => exact congrArg (s.result o.st [o.ra] o.rd · 1) (out_low _ _)
  case shli => exact congrArg (s.result o.st [o.ra] o.rd · 1) (shlW_wrap _ _ _)
  case shri => exact congrArg (s.result o.st [o.ra] o.rd · 1) (shrW_wrap _ _ _)
  case srai => exact congrArg (s.result o.st [o.ra] o.rd · 1) (sraW_wrap _ _ _)
  case muli => exact congrArg (s.result o.st [o.ra] o.rd · 3) (out_mul_immX _ _ _)

/-- Settles O2: each of the instructions gives one result, and its value is the exact one modulo the width. -/
theorem immediateResults : Obligations.ImmediateResults := by
  unfold Obligations.ImmediateResults
  refine ⟨?imm, ?li, ?lih, ?madd⟩
  case imm =>
    intro row hrow o s h
    rw [exec_immRow row hrow]
    exact State.result_gives h _ o.st
  case li => exact fun o s h => State.result_gives h _ o.st
  case lih =>
    intro o s h
    rw [← lihVal_eq]
    exact State.result_gives h _ o.st
  case madd =>
    intro o s h
    rw [← out_mul_add]
    exact State.result_gives h _ o.st

end Sys2Proof.Machine
end

section
/-! PROOF. Selections and comparisons (R292, R293, R296): sel, cmp, cmpi and fcmp. -/

namespace Sys2Proof.Machine

open Sys2Proof

/-! ## The order of exact values -/

/-- Numbers are compared as their multiples of the smaller power. -/
theorem Val.lt_iff_rat {x y : Val} (hx : x.isFin = true) (hy : y.isFin = true) : x.lt y = true ↔ x.rat < y.rat := by
  match x, y, hx, hy with
  | .fin a m e, .fin b n f, _, _ =>
    have hpos : (0 : ℚ) < 2 ^ min e f := by positivity
    rw [← signedMag_scaleTo a m (min_le_left e f), ← signedMag_scaleTo b n (min_le_right e f), mul_lt_mul_iff_left₀ hpos, Int.cast_lt]
    exact decide_eq_true_iff

theorem Val.isNan_of_isFin {x : Val} (hx : x.isFin = true) : x.isNan = false := by
  cases x with
  | fin n m e => rfl
  | nan | inf n => cases hx

theorem bnot_iff_not {b : Bool} {P : Prop} (h : b = true ↔ P) : (!b) = true ↔ ¬ P := by rw [Bool.not_eq_true', ← h, Bool.not_eq_true]

/-- Where both operands are numbers, one is at least the other where it is not less. -/
theorem Val.numbers_not_lt_iff {x y u v : Val} (hx : x.isFin = true) (hy : y.isFin = true) (hu : u.isFin = true) (hv : v.isFin = true) :
    (!x.isNan && !y.isNan && !u.lt v) = true ↔ v.rat ≤ u.rat := by
  rw [Val.isNan_of_isFin hx, Val.isNan_of_isFin hy]
  exact (bnot_iff_not (Val.lt_iff_rat hu hv)).trans not_lt

theorem Val.eqv_iff_rat {x y : Val} (hx : x.isFin = true) (hy : y.isFin = true) : x.eqv y = true ↔ x.rat = y.rat := by
  rw [Val.eqv, Bool.and_eq_true, Val.numbers_not_lt_iff hx hy hx hy, bnot_iff_not (Val.lt_iff_rat hy hx), not_lt, and_comm]
  exact le_antisymm_iff.symm

theorem Val.nan_lt (y : Val) : Val.lt .nan y = false := by cases y <;> rfl

theorem Val.lt_nan (x : Val) : x.lt .nan = false := by cases x <;> rfl

theorem Val.eq_nan_of_isNan {x : Val} (h : x.isNan = true) : x = .nan := by
  cases x with
  | nan => rfl
  | inf n | fin n m e => cases h

/-- A NaN makes every condition false but `ne` (R296). -/
theorem f32Cmp_nan (c : Cond) {fz : Bool} {a b : Word} (h : ((f32Of fz a).isNan || (f32Of fz b).isNan) = true) :
    f32Cmp c fz a b = true ↔ c = .ne := by
  have hx : f32Val fz a = f32Of fz a := rfl
  have hy : f32Val fz b = f32Of fz b := rfl
  unfold f32Cmp
  rw [hx, hy]
  rcases Bool.or_eq_true_iff.1 h with h | h
  · rw [Val.eq_nan_of_isNan h]
    cases c <;> simp [Val.eqv, Val.isNan, Val.nan_lt, Val.lt_nan]
  · rw [Val.eq_nan_of_isNan h]
    cases c <;> simp [Val.eqv, Val.isNan, Val.nan_lt, Val.lt_nan]

/-! ## Conditions as results -/

theorem boolWord_eq_one_iff (b : Bool) : boolWord b = 1 ↔ b = true := by cases b <;> decide

theorem boolWord_bit (b : Bool) : boolWord b = 0 ∨ boolWord b = 1 := by cases b <;> decide

theorem boolWord_of_iff {b : Bool} {P : Prop} (h : b = true ↔ P) : (P → boolWord b = 1) ∧ (¬ P → boolWord b = 0) :=
  ⟨fun p => by rw [h.2 p]; rfl, fun p => by rw [Bool.eq_false_iff.2 (mt h.1 p)]; rfl⟩

theorem sel_cond_iff (pk k : Bool) (x : Word) : (if pk then k else x != 0) = true ↔ if pk then k = true else x ≠ 0 := by
  cases pk <;> simp

/-- Settles O4: each instruction gives one result, its value by the condition (`holds_iff_meets`), or by the order of the numbers. -/
theorem selectAndCompare : Obligations.SelectAndCompare := by
  unfold Obligations.SelectAndCompare
  refine ⟨?sel, ?cmp, ?cmpi, ?fcmp⟩
  case sel =>
    intro o s h
    obtain ⟨t, ht, hg⟩ := State.result_gives h _ o.st
    exact ⟨t, _, ht, hg, fun hc => if_pos ((sel_cond_iff _ _ _).2 hc), fun hc => if_neg (mt (sel_cond_iff _ _ _).1 hc)⟩
  case cmp =>
    intro o s h
    obtain ⟨t, ht, hg⟩ := State.result_gives h _ o.st
    exact ⟨t, _, ht, hg, boolWord_of_iff (holds_iff_meets o.cond o.w _ _)⟩
  case cmpi =>
    intro o s h
    obtain ⟨t, ht, hg⟩ := State.result_gives h _ o.st
    exact ⟨t, _, ht, hg, boolWord_of_iff (holds_iff_meets o.cond .d _ _)⟩
  case fcmp =>
    intro o s h
    obtain ⟨t, ht, hg⟩ := State.result_gives h _ o.st
    refine ⟨t, _, ht, hg, boolWord_bit _, fun hnan => (boolWord_eq_one_iff _).trans (f32Cmp_nan o.cond hnan), fun hfin => ?_⟩
    obtain ⟨hx, hy⟩ := Bool.and_eq_true_iff.1 hfin
    rw [boolWord_eq_one_iff]
    cases o.cond with
    | eq => exact Val.eqv_iff_rat hx hy
    | ne => exact bnot_iff_not (Val.eqv_iff_rat hx hy)
    | lt => exact Val.lt_iff_rat hx hy
    | le => exact Val.numbers_not_lt_iff hx hy hy hx
    | gt => exact Val.lt_iff_rat hy hx
    | ge => exact Val.numbers_not_lt_iff hx hy hx hy
    | ltu | leu | gtu | geu => exact iff_of_false Bool.false_ne_true id

end Sys2Proof.Machine
end

section
/-! PROOF. Scalar floating point (R294, R295): one rounding of the exact result, fmin and fmax, and how near the reciprocal and the reciprocal
square root come. -/

namespace Sys2Proof.Machine

open Sys2Proof

/-! ## fmin and fmax -/

theorem Val.lt_asymm {x y : Val} (h : x.lt y = true) : y.lt x = false := by
  match x, y with
  | .nan, y => cases Val.nan_lt y ▸ h
  | x, .nan => cases Val.lt_nan x ▸ h
  | .inf a, .inf b => revert h; cases a <;> cases b <;> decide
  | .inf a, .fin b n f => cases a; cases h; rfl
  | .fin a m e, .inf b => cases b; rfl; cases h
  | .fin a m e, .fin b n f =>
    rw [← Bool.not_eq_true, Val.lt_iff_rat rfl rfl]
    exact not_lt.2 ((Val.lt_iff_rat rfl rfl).1 h).le

theorem Val.not_nan_of_lt {x y : Val} (h : x.lt y = true) : x.isNan = false ∧ y.isNan = false := by
  match x, y with
  | .nan, y => cases Val.nan_lt y ▸ h
  | x, .nan => cases Val.lt_nan x ▸ h
  | .inf a, .inf b | .inf a, .fin b n f | .fin a m e, .inf b | .fin a m e, .fin b n f => exact ⟨rfl, rfl⟩

theorem Val.zero_lt_zero (a b : Bool) (e f : Int) : (Val.fin a 0 e).lt (.fin b 0 f) = false := by
  rw [← Bool.not_eq_true, Val.lt_iff_rat rfl rfl]
  simp [Val.rat]

/-- The sign of an exact value. -/
def Val.isNeg : Val → Bool
  | .fin n _ _ => n
  | .inf n => n
  | .nan => false

/-- What fmin (`mx` false) and fmax take of two exact values. -/
def Val.minMax (mx : Bool) (x y : Val) : Val :=
  if x.isNan then y else if y.isNan then x
  else if x.lt y then (if mx then y else x) else if y.lt x then (if mx then x else y)
  else if x.isNeg = mx then y else x

theorem f32MinMax_fst (mx fz : Bool) (a b : Word) : (f32MinMax mx fz a b).1 = f32Out fz ((f32Of fz a).minMax mx (f32Of fz b)) := rfl

section
variable {mx : Bool} {x y : Val}

theorem Val.minMax_nan_left (h : x.isNan = true) : x.minMax mx y = y := if_pos h

theorem Val.minMax_nan_right (h : y.isNan = true) : x.minMax mx y = x := by
  cases hx : x.isNan with
  | true => rw [minMax_nan_left hx, Val.eq_nan_of_isNan h, Val.eq_nan_of_isNan hx]
  | false => simp [minMax, hx, h]

theorem Val.minMax_lt (h : x.lt y = true) : x.minMax mx y = if mx then y else x := by
  obtain ⟨hx, hy⟩ := Val.not_nan_of_lt h
  simp [minMax, hx, hy, h]

theorem Val.minMax_gt (h : y.lt x = true) : x.minMax mx y = if mx then x else y := by
  obtain ⟨hy, hx⟩ := Val.not_nan_of_lt h
  simp [minMax, hx, hy, h, Val.lt_asymm h]

/-- Of two zeros of different signs fmin takes the negative one and fmax the other. -/
theorem Val.minMax_zeros (n : Bool) (e f : Int) : ∃ g, (Val.fin n 0 e).minMax mx (.fin (!n) 0 f) = .fin (!mx) 0 g := by
  simp only [minMax, Val.zero_lt_zero, isNan, isNeg]
  cases n <;> cases mx <;> simp

end

/-- A zero is packed by its sign alone. -/
theorem f32Out_zero (fz n : Bool) (e : Int) : f32Out fz (.fin n 0 e) = f32Out fz (.fin n 0 0) := by
  simp only [f32Out, FFmt.arith, reduceIte]

theorem exec_minMax (mx : Bool) (o : F3) (s : State) : exec (if mx then .fmax o else .fmin o) s =
    s.result o.st [o.ra, o.rb] o.rd (f32Out o.fz ((f32Of o.fz (s.r o.ra)).minMax mx (f32Of o.fz (s.r o.rb)))) 2 := by
  cases mx <;> exact congrArg (s.result o.st [o.ra, o.rb] o.rd · 2) (f32MinMax_fst _ _ _ _)

/-! ## Integer square roots -/

/-- With n bits to find, the root lies between r and r + 2 ^ n. -/
theorem isqrtGo_spec (n x r : Nat) (hlo : r * r ≤ x) (hhi : x < (r + 2 ^ n) * (r + 2 ^ n)) :
    isqrtGo n x r * isqrtGo n x r ≤ x ∧ x < (isqrtGo n x r + 1) * (isqrtGo n x r + 1) := by
  induction n generalizing r with
  | zero => exact ⟨hlo, hhi⟩
  | succ n ih =>
    rw [isqrtGo]
    split
    case isTrue ht => exact ih _ ht (by rwa [Nat.add_assoc, ← Nat.two_mul, ← Nat.pow_succ'])
    case isFalse ht => exact ih _ hlo (Nat.lt_of_not_le ht)

theorem isqrt_spec (x : Nat) : isqrt x * isqrt x ≤ x ∧ x < (isqrt x + 1) * (isqrt x + 1) := by
  refine isqrtGo_spec _ x 0 (Nat.zero_le x) ?_
  rw [Nat.zero_add, ← pow_add]
  calc x < 2 ^ (Nat.log2 x + 1) := Nat.lt_log2_self
    _ ≤ _ := Nat.pow_le_pow_right two_pos (by omega)

/-! ## How near the reciprocals come -/

/-- Twice the quotient, with a sticky bit below it for a remainder (R295). -/
def stickyQuot (n m : Nat) : Nat := 2 * (n / m) + if n % m = 0 then 0 else 1

theorem stickyQuot_near (n : Nat) {m : Nat} (hm : 0 < m) : |(stickyQuot n m : ℤ) * m - 2 * n| ≤ m := by
  have hn : ((m * (n / m) + n % m : Nat) : ℤ) = n := congrArg Nat.cast (Nat.div_add_mod n m)
  have hr := Nat.mod_lt n hm
  have hs : (stickyQuot n m : ℤ) * m - 2 * n = (if n % m = 0 then 0 else 1) * m - 2 * (n % m : Nat) := by
    rw [← hn, stickyQuot]
    push_cast
    ring
  rw [hs, abs_le]
  split <;> omega

/-- Twice the root of 2 ^ (2 k) / m, with a sticky bit below it where that is not exact (R295). -/
def stickyRoot (k m : Nat) : Nat :=
  2 * isqrt (2 ^ (2 * k) / m) + if isqrt (2 ^ (2 * k) / m) * isqrt (2 ^ (2 * k) / m) * m = 2 ^ (2 * k) then 0 else 1

/-- The root lies within one unit, which is half of its place, of the exact one. -/
theorem stickyRoot_near (k : Nat) {m : Nat} (hm : 0 < m) :
    |(stickyRoot k m : ℤ) ^ 2 * m - 4 * 2 ^ (2 * k)| ≤ ((4 * (isqrt (2 ^ (2 * k) / m) * m) + 3 * m : Nat) : ℤ) := by
  obtain ⟨hlo, hhi⟩ := isqrt_spec (2 ^ (2 * k) / m)
  rw [Nat.le_div_iff_mul_le hm] at hlo
  rw [Nat.div_lt_iff_lt_mul hm] at hhi
  have hp : (2 : ℤ) ^ (2 * k) = ((2 ^ (2 * k) : Nat) : ℤ) := by push_cast; rfl
  rw [stickyRoot, hp]
  generalize isqrt (2 ^ (2 * k) / m) = q at *
  generalize 2 ^ (2 * k) = n at *
  have hhi' : n < q * q * m + 2 * (q * m) + m := by
    calc n < _ := hhi
      _ = _ := by ring
  split
  case isTrue heq =>
    have : ((2 * q + 0 : Nat) : ℤ) ^ 2 * m - 4 * n = 0 := by
      rw [← heq]
      push_cast
      ring
    rw [this, abs_zero]
    positivity
  case isFalse =>
    have : ((2 * q + 1 : Nat) : ℤ) ^ 2 * m - 4 * n = 4 * (q * q * m : Nat) + 4 * (q * m : Nat) + m - 4 * n := by
      push_cast
      ring
    rw [this, abs_le]
    generalize q * q * m = a at *
    generalize q * m = b at *
    omega

/-- The root, 64 places below its operand's highest bit, is short of its operand by more than 60 places. -/
theorem root_mul_lt (m : Nat) (hm : m ≠ 0) :
    4 * (isqrt (2 ^ (2 * (Nat.log2 m + 64)) / m) * m) + 3 * m ≤ 2 ^ (2 * (Nat.log2 m + 64) - 60) := by
  obtain ⟨hlo, -⟩ := isqrt_spec (2 ^ (2 * (Nat.log2 m + 64)) / m)
  rw [Nat.le_div_iff_mul_le (Nat.pos_of_ne_zero hm)] at hlo
  have hm2 : m < 2 ^ (Nat.log2 m + 1) := Nat.lt_log2_self
  generalize isqrt (2 ^ (2 * (Nat.log2 m + 64)) / m) = q at *
  generalize Nat.log2 m = l at *
  have hq : q * m < 2 ^ (2 * l + 65) := by
    by_contra hge
    have hsq := Nat.mul_le_mul (Nat.le_of_not_lt hge) (Nat.le_of_not_lt hge)
    have hle : q * m * (q * m) ≤ 2 ^ (2 * (l + 64)) * m := by
      calc q * m * (q * m) = q * q * m * m := by ring
        _ ≤ _ := Nat.mul_le_mul_right m hlo
    have hlt : 2 ^ (2 * (l + 64)) * m < 2 ^ (2 * (l + 64)) * 2 ^ (l + 1) := Nat.mul_lt_mul_of_pos_left hm2 (by positivity)
    have hpow : 2 ^ (2 * (l + 64)) * 2 ^ (l + 1) ≤ 2 ^ (2 * l + 65) * 2 ^ (2 * l + 65) := by
      rw [← pow_add, ← pow_add]
      exact Nat.pow_le_pow_right two_pos (by omega)
    omega
  have hml : 2 ^ (l + 1) ≤ 2 ^ (2 * l + 65) := Nat.pow_le_pow_right two_pos (by omega)
  have hsum : 2 ^ (2 * (l + 64) - 60) = 8 * 2 ^ (2 * l + 65) := by
    rw [show 2 * (l + 64) - 60 = 3 + (2 * l + 65) by omega, pow_add]
    rfl
  omega

/-! ## frcp and frsq -/

theorem Val.recip_fin (n : Bool) {m : Nat} (hm : m ≠ 0) (e : Int) : (Val.fin n m e).recip.1 =
    .fin n (stickyQuot (2 ^ (Nat.log2 m + 64)) m) (-e - (Nat.log2 m + 64 : Nat) - 1) := congrArg Prod.fst (if_neg hm)

theorem Val.mul_rat_same_sign (n : Bool) (a b : Nat) (e f : Int) : (Val.fin n a e).rat * (Val.fin n b f).rat = a * b * 2 ^ (e + f) := by
  rw [rat_fin, rat_fin, zpow_add₀ two_ne_zero]
  cases n <;> simp [signedMag] <;> ring

/-- A multiple of 2 ^ -p whose count is within 2 ^ j of 2 ^ p is within 2 ^ (j - p) of 1. -/
theorem near_one {z : ℤ} {p j : Nat} (h : |z - 2 ^ p| ≤ 2 ^ j) : |(z : ℚ) * 2 ^ (-(p : ℤ)) - 1| ≤ 2 ^ ((j : ℤ) - p) := by
  have hpos : (0 : ℚ) < 2 ^ (-(p : ℤ)) := by positivity
  have hone : (2 : ℚ) ^ p * 2 ^ (-(p : ℤ)) = 1 := by rw [← zpow_natCast, ← zpow_add₀ two_ne_zero, add_neg_cancel, zpow_zero]
  have hq : |(z : ℚ) - 2 ^ p| ≤ 2 ^ j := by exact_mod_cast h
  calc |(z : ℚ) * 2 ^ (-(p : ℤ)) - 1| = |(z : ℚ) - 2 ^ p| * 2 ^ (-(p : ℤ)) := by
        rw [← hone, ← sub_mul, abs_mul, abs_of_pos hpos]
    _ ≤ 2 ^ j * 2 ^ (-(p : ℤ)) := mul_le_mul_of_nonneg_right hq hpos.le
    _ = 2 ^ ((j : ℤ) - p) := by rw [sub_eq_add_neg, zpow_add₀ two_ne_zero, zpow_natCast]

/-- The reciprocal and its operand multiply to 1 within 2 ^ -64. -/
theorem Val.recip_bound (n : Bool) {m : Nat} (hm : m ≠ 0) (e : Int) :
    |(Val.fin n m e).recip.1.rat * (Val.fin n m e).rat - 1| ≤ 2 ^ (-64 : ℤ) := by
  have hnear : |((stickyQuot (2 ^ (Nat.log2 m + 64)) m * m : Nat) : ℤ) - 2 ^ (Nat.log2 m + 65)| ≤ 2 ^ (Nat.log2 m + 1) := by
    have hm2 : (m : ℤ) ≤ 2 ^ (Nat.log2 m + 1) := by exact_mod_cast (Nat.lt_log2_self (n := m)).le
    refine le_trans ?_ hm2
    have h := stickyQuot_near (2 ^ (Nat.log2 m + 64)) (Nat.pos_of_ne_zero hm)
    rw [pow_succ 2 (Nat.log2 m + 64), mul_comm _ 2]
    exact_mod_cast h
  have hb := near_one hnear
  have hval : (Val.fin n m e).recip.1.rat * (Val.fin n m e).rat =
      ((stickyQuot (2 ^ (Nat.log2 m + 64)) m * m : Nat) : ℤ) * 2 ^ (-((Nat.log2 m + 65 : Nat) : ℤ)) := by
    rw [Val.recip_fin n hm, Val.mul_rat_same_sign]
    push_cast
    congr 2
    ring
  rw [hval]
  exact hb.trans_eq (congrArg _ (by push_cast; ring))

/-- A positive number as a multiple of an even power of two. -/
def evened (m : Nat) (e : Int) : Nat × Int := if e % 2 = 0 then (m, e) else (2 * m, e - 1)

theorem evened_spec {m : Nat} (hm : m ≠ 0) (e : Int) : (evened m e).1 ≠ 0 ∧
    (Val.fin false m e).rat = (evened m e).1 * 2 ^ (2 * ((evened m e).2 / 2)) := by
  unfold evened
  split
  case isTrue h => exact ⟨hm, by rw [show 2 * (e / 2) = e by omega, rat_fin]; rfl⟩
  case isFalse h =>
    refine ⟨by simpa using hm, ?_⟩
    rw [show 2 * ((e - 1) / 2) = e - 1 by omega, rat_fin, zpow_sub_one₀ two_ne_zero]
    simp [signedMag]
    ring

theorem Val.rsqrt_fin {m : Nat} (hm : m ≠ 0) (e : Int) : (Val.fin false m e).rsqrt.1 =
    .fin false (stickyRoot (Nat.log2 (evened m e).1 + 64) (evened m e).1)
      (-((evened m e).2 / 2) - (Nat.log2 (evened m e).1 + 64 : Nat) - 1) := by
  unfold Val.rsqrt evened
  simp only [if_neg hm, Bool.false_eq_true, if_false]
  split <;> rfl

/-- The square of the reciprocal root and its operand multiply to 1 within 2 ^ -62. -/
theorem Val.rsqrt_bound {m : Nat} (hm : m ≠ 0) (e : Int) :
    |(Val.fin false m e).rsqrt.1.rat ^ 2 * (Val.fin false m e).rat - 1| ≤ 2 ^ (-62 : ℤ) := by
  obtain ⟨hm', hrat⟩ := evened_spec hm e
  rw [Val.rsqrt_fin hm, hrat, rat_fin]
  generalize (evened m e).2 / 2 = h at *
  generalize (evened m e).1 = m' at *
  have hnear : |((stickyRoot (Nat.log2 m' + 64) m' ^ 2 * m' : Nat) : ℤ) - 2 ^ (2 * (Nat.log2 m' + 64) + 2)| ≤ 2 ^ (2 * (Nat.log2 m' + 64) - 60) := by
    have hle : ((4 * (isqrt (2 ^ (2 * (Nat.log2 m' + 64)) / m') * m') + 3 * m' : Nat) : ℤ) ≤ 2 ^ (2 * (Nat.log2 m' + 64) - 60) := by
      exact_mod_cast root_mul_lt m' hm'
    refine le_trans ?_ hle
    have hs := stickyRoot_near (Nat.log2 m' + 64) (Nat.pos_of_ne_zero hm')
    rw [pow_add, mul_comm _ (2 ^ 2)]
    exact_mod_cast hs
  have hb := near_one hnear
  have hval : ((signedMag false (stickyRoot (Nat.log2 m' + 64) m') : ℚ) * 2 ^ (-h - (Nat.log2 m' + 64 : Nat) - 1)) ^ 2 * (m' * 2 ^ (2 * h)) =
      ((stickyRoot (Nat.log2 m' + 64) m' ^ 2 * m' : Nat) : ℤ) * 2 ^ (-((2 * (Nat.log2 m' + 64) + 2 : Nat) : ℤ)) := by
    have hexp : (2 : ℚ) ^ (-((2 * (Nat.log2 m' + 64) + 2 : Nat) : ℤ)) = (2 ^ (-h - (Nat.log2 m' + 64 : Nat) - 1)) ^ 2 * 2 ^ (2 * h) := by
      rw [← zpow_natCast, ← zpow_mul, ← zpow_add₀ two_ne_zero]
      congr 1
      push_cast
      ring
    rw [hexp]
    simp only [signedMag]
    push_cast
    ring
  rw [hval]
  exact hb.trans_eq (congrArg _ (by omega))

theorem f32Out_inf (fz n : Bool) : f32Out fz (.inf n) = word (FFmt.f32.infBits n) := rfl

theorem f32Out_nan (fz : Bool) : f32Out fz .nan = word FFmt.f32.canon := rfl

theorem Val.rat_zero (n : Bool) (e : Int) : (Val.fin n 0 e).rat = 0 := by simp [Val.rat]

/-- A number of negative sign is not above zero. -/
theorem Val.rat_neg_le (m : Nat) (e : Int) : (Val.fin true m e).rat ≤ 0 := by
  have : (0 : ℚ) ≤ m * 2 ^ e := by positivity
  rw [rat_fin]
  simpa [signedMag] using this

/-- A number below zero other than zero has no root. -/
theorem Val.rsqrt_negative {m : Nat} (hm : m ≠ 0) (e : Int) : (Val.fin true m e).rsqrt.1 = .nan := congrArg Prod.fst ((if_neg hm).trans (if_pos rfl))

theorem exec_frcp (o : F2) (s : State) : exec (.frcp o) s = s.result o.st [o.ra] o.rd (f32Out o.fz (f32Of o.fz (s.r o.ra)).recip.1) 8 := rfl

theorem exec_frsq (o : F2) (s : State) : exec (.frsq o) s = s.result o.st [o.ra] o.rd (f32Out o.fz (f32Of o.fz (s.r o.ra)).rsqrt.1) 8 := rfl

/-- A two-source instruction that rounds an exact result gives it. -/
theorem exec_floatRow : ∀ row ∈ floatRows, ∀ (o : F3) (s : State),
    exec (row.1 o) s = s.result o.st [o.ra, o.rb] o.rd (f32Out o.fz (row.2 (f32Of o.fz (s.r o.ra)) (f32Of o.fz (s.r o.rb)))) 4 := by
  simp only [floatRows, List.forall_mem_cons]
  exact ⟨fun o s => rfl, fun o s => rfl, fun o s => rfl, List.forall_mem_nil _⟩

/-- Settles O5: each instruction gives one result, the rounding of its exact value; the quotient and the root with their sticky bits come near
enough (`Val.recip_bound`, `Val.rsqrt_bound`). -/
theorem floatResults : Obligations.FloatResults := by
  unfold Obligations.FloatResults
  refine ⟨?rows, ?ffma, ?minmax, ?frcp, ?frsq⟩
  case rows =>
    intro row hrow o s h
    rw [exec_floatRow row hrow]
    exact State.result_gives h _ o.st
  case ffma => exact fun o s h => State.result_gives h _ o.st
  case minmax =>
    intro mx o s h
    obtain ⟨t, ht, hg⟩ := State.result_gives h _ o.st
    refine ⟨t, _, (exec_minMax mx o s).trans ht, hg, ?_⟩
    generalize f32Of o.fz (s.r o.ra) = x
    generalize f32Of o.fz (s.r o.rb) = y
    refine ⟨fun hx => by rw [Val.minMax_nan_left hx], fun hy => by rw [Val.minMax_nan_right hy], fun hlt => by rw [Val.minMax_lt hlt],
      fun hgt => by rw [Val.minMax_gt hgt], ?_, ?_⟩
    · rintro e f rfl rfl
      obtain ⟨g, hz⟩ := Val.minMax_zeros (mx := mx) true e f
      rw [show Val.fin false 0 f = .fin (!true) 0 f from rfl, hz, f32Out_zero]
    · rintro e f rfl rfl
      obtain ⟨g, hz⟩ := Val.minMax_zeros (mx := mx) false e f
      rw [show Val.fin true 0 f = .fin (!false) 0 f from rfl, hz, f32Out_zero]
  case frcp =>
    intro o s h
    obtain ⟨t, ht, hg⟩ := State.result_gives h _ o.st
    refine ⟨t, _, (exec_frcp o s).trans ht, hg, ?_⟩
    generalize f32Of o.fz (s.r o.ra) = x
    refine ⟨?_, ?_, ?_, ?_⟩
    · rintro n e rfl; exact f32Out_inf o.fz n
    · rintro n rfl; rfl
    · rintro rfl; rfl
    · intro hfin hne
      match x, hfin with
      | .fin n m e, _ => exact ⟨_, rfl, Val.recip_bound n (fun hm => hne (by rw [hm, Val.rat_zero])) e⟩
  case frsq =>
    intro o s h
    obtain ⟨t, ht, hg⟩ := State.result_gives h _ o.st
    refine ⟨t, _, (exec_frsq o s).trans ht, hg, ?_⟩
    generalize f32Of o.fz (s.r o.ra) = x
    refine ⟨?_, ?_, ?_, ?_⟩
    · rintro n e rfl; exact f32Out_inf o.fz n
    · rintro rfl; cases o.fz <;> decide
    · rintro (rfl | rfl | ⟨m, e, rfl, hm⟩)
      · rfl
      · rfl
      · rw [Val.rsqrt_negative hm]; exact f32Out_nan o.fz
    · intro hfin hpos
      match x, hfin with
      | .fin true m e, _ => exact absurd hpos (not_lt.2 (Val.rat_neg_le m e))
      | .fin false m e, _ =>
        have hm : m ≠ 0 := fun hm => hpos.ne' (by rw [hm, Val.rat_zero])
        exact ⟨_, rfl, (Val.rsqrt_bound hm e).trans (zpow_le_zpow_right₀ one_le_two (by decide))⟩

end Sys2Proof.Machine
end

section
/-! PROOF. The arithmetic of a port program on a running lane (R420-R422). -/

namespace Sys2Proof.Machine

open Sys2Proof

/-! ## Float ops -/

theorem f32Res_eq (fz : Bool) (x : Val × Fl) : f32Res fz x = (f32Out fz x.1, (FFmt.f32.arith fz x.1).2 ||| x.2) := rfl

/-- A float op that rounds an exact result rounds that of its row. -/
theorem exec_portFloatRow : ∀ row ∈ portFloatRows, ∀ (o : PortF) (s : State), exec (row.1 o) s =
    s.pRes o (fun a b c => f32Res (portM6 o) (row.2 (f32Of (portM6 o) a) (f32Of (portM6 o) b) (f32Of (portM6 o) c))) := by
  simp only [portFloatRows, List.forall_mem_cons]
  exact ⟨fun _ _ => rfl, fun _ _ => rfl, fun _ _ => rfl, fun _ _ => rfl, List.forall_mem_nil _⟩

section
variable {s : State} {r : PortRun} (h : s.portRun = some r) (o : PortF)
include h

theorem portFcmp_spec : ∃ t v, exec (.portFcmp o) s = .next t ∧ s.LaneGives t r o.d v 0 ∧ (6 ≤ o.x → v = 0) ∧
    ∀ c, [Cond.eq, .ne, .lt, .le, .gt, .ge][o.x]? = some c →
      v = if f32Cmp c (decide (o.m % 2 = 1)) (s.laneReg r o.a) (s.laneReg r o.b) then 1 else 0 := by
  obtain ⟨t, ht, hg⟩ := portRes_gives h o (fun a b _ => (match condOf o.x with
    | some c => boolWord (f32Cmp c (portM6 o) a b)
    | none => 0, 0))
  refine ⟨t, _, ht, hg, fun hx => ?late, fun c hc => ?cond⟩
  case late =>
    dsimp only
    split
    case h_1 c hc => rw [cmp_late o.x c hx hc]; rfl
    case h_2 => rfl
  case cond => rw [condOf_six o.x c hc, ← portM6_eq, ← boolWord_ite]

theorem portFex2_spec : ∃ t v fl, exec (.portFex2 o) s = .next t ∧ s.LaneGives t r o.d v fl ∧
    let fz := decide (o.m % 2 = 1)
    let x := f32Of fz (s.laneReg r o.a)
    (x = .nan → v = word FFmt.f32.canon) ∧ (x = .inf false → v = f32Out fz (.inf false)) ∧ (x = .inf true → v = 0) ∧
    (∀ n e, x = .fin n 0 e → v = f32Out fz (.fin false 1 0)) ∧
    (∀ n m (k : Nat), x = .fin n m (k : Int) → m ≠ 0 → m * 2 ^ k ≤ 4096 →
      v = f32Out fz (.fin false 1 (if n then -((m * 2 ^ k : Nat) : Int) else (m * 2 ^ k : Nat)))) := by
  obtain ⟨t, ht, hg⟩ := portRes_gives h o (fun a _ _ => f32Ex2 (portM6 o) a)
  refine ⟨t, _, _, ht, hg, ?_⟩
  rw [portM6_eq]
  exact exp2_facts _ _

theorem portFlg2_spec : ∃ t v fl, exec (.portFlg2 o) s = .next t ∧ s.LaneGives t r o.d v fl ∧
    let fz := decide (o.m % 2 = 1)
    let x := f32Of fz (s.laneReg r o.a)
    (x = .nan ∨ x = .inf true ∨ (∃ m e, x = .fin true m e ∧ m ≠ 0) → v = word FFmt.f32.canon) ∧
    (x = .inf false → v = f32Out fz (.inf false)) ∧ (∀ n e, x = .fin n 0 e → v = f32Out fz (.inf true)) ∧
    (∀ (k : Nat) e, x = .fin false (2 ^ k) e → v = f32Out fz (.ofInt (e + k))) := by
  obtain ⟨t, ht, hg⟩ := portRes_gives h o (fun a _ _ => f32Lg2 (portM6 o) a)
  refine ⟨t, _, _, ht, hg, ?_⟩
  rw [portM6_eq]
  exact log2_facts _ _

theorem portFabs_spec : ∃ t, exec (.portFabs o) s = .next t ∧ s.LaneGives t r o.d (word ((s.laneReg r o.a).toNat % 2 ^ 31)) 0 := by
  rw [← clear31]
  exact portRes_gives h o (fun a _ _ => (a &&& 0x7FFFFFFF, 0))

theorem portFneg_spec : ∃ t, exec (.portFneg o) s = .next t ∧ s.LaneGives t r o.d (word (((s.laneReg r o.a).toNat + 2 ^ 31) % 2 ^ 32)) 0 := by
  rw [← flip31]
  exact portRes_gives h o (fun a _ _ => (zextN 32 a ^^^ 0x80000000, 0))

/-! ## Integer ops -/

theorem portIcmp_spec : ∃ t v, exec (.portIcmp o) s = .next t ∧ s.LaneGives t r o.d v 0 ∧ (10 ≤ o.x → v = 0) ∧
    ∀ c, [Cond.eq, .ne, .lt, .le, .gt, .ge, .ltu, .leu, .gtu, .geu][o.x]? = some c →
      (c.meets (if o.m % 2 = 1 then .w else .d) (s.laneReg r o.a) (s.laneReg r o.b) → v = 1) ∧
      (¬ c.meets (if o.m % 2 = 1 then .w else .d) (s.laneReg r o.a) (s.laneReg r o.b) → v = 0) := by
  obtain ⟨t, ht, hg⟩ := portRes_gives h o (fun a b _ => (match condOf o.x with
    | some c => boolWord (c.holds (portW o) a b)
    | none => 0, 0))
  refine ⟨t, _, ht, hg, fun hx => ?late, fun c hc => ?cond⟩
  case late => rw [condOf_none hx]
  case cond =>
    rw [← condOf_get, hc]
    exact boolWord_of_iff (holds_iff_meets c (portW o) _ _)

/-! ## Draws and conversions -/

theorem portRnd_spec : ∃ t u : State, exec (.portRnd o) s = .next t ∧
    u = s.modCtx r.cid (fun c => { c with sys := { c.sys with seeds := Map.put c.sys.seeds (128 * r.point + r.lane) (lfsrNext (c.sys.seed r.point r.lane)) } }) ∧
    u.LaneGives t r o.d (word ((s.ctx r.cid).sys.seed r.point r.lane).toNat) 0 := by
  refine ⟨_, _, portDo_eq h _, rfl, ?_⟩
  exact put_gives _ r o.d _ 0

theorem portCvt_spec {src dst : ETy} (hs : tyOf o.m = some src) (hd : tyOf (o.x % 16) = some dst) :
    let v := convert dst ⟨(s.pDraw r o).1, if o.x / 32 % 2 = 1 then some (s.laneReg r o.c) else none, false⟩ (src.value false (s.laneReg r o.a))
    ∃ t, exec (.portCvt o) s = .next t ∧ (s.pDraw r o).2.LaneGives t r o.d (dst.hold v.1) v.2 := by
  refine ⟨_, portDo_eq h _, ?_⟩
  simp only [hs, hd, portSrc_eq]
  exact put_gives _ r o.d _ _

theorem portQsr_spec {dst : ETy} (hd : tyOf (o.x % 16) = some dst) :
    let fz := decide (o.m % 2 = 1)
    let x : Val := if o.m / 2 % 2 = 1 then .ofInt (s.laneReg r o.a).toInt else f32Of fz (s.laneReg r o.a)
    let p := x.mul (f32Of fz (s.laneReg r o.b))
    let y := p.1.add (f32Of fz (s.laneReg r o.c))
    let v := convert dst ⟨(s.pDraw r o).1, none, fz⟩ y.1
    ∃ t, exec (.portQsr o) s = .next t ∧ (s.pDraw r o).2.LaneGives t r o.d (dst.hold v.1) (v.2 ||| (p.2 ||| y.2)) := by
  have h7 : portM7 o = true ↔ o.m / 2 % 2 = 1 := by simp [portM7]
  refine ⟨_, portDo_eq h _, ?_⟩
  simp only [hd, portSrc_eq, portM6_eq, h7]
  exact put_gives _ r o.d _ _

theorem portCvt_reserved (ht : tyOf o.m = none ∨ tyOf (o.x % 16) = none) :
    ∃ t, exec (.portCvt o) s = .next t ∧ s.LaneFaults t r 4 (some o.d) := by
  refine ⟨_, portDo_eq h _, ?_⟩
  dsimp only
  split
  case h_1 src dst hs hd => simp [hs, hd] at ht
  case h_2 | h_3 => exact fault_faults s r 4 (some o.d)

theorem portQsr_reserved (ht : tyOf (o.x % 16) = none) : ∃ t, exec (.portQsr o) s = .next t ∧ s.LaneFaults t r 4 (some o.d) := by
  refine ⟨_, portDo_eq h _, ?_⟩
  simp only [ht]
  exact fault_faults s r 4 (some o.d)

end

theorem ofInt_min (z : Width) (a b : Word) : z.ofInt (min (z.sgn a) (z.sgn b)) = z.wrap (if z.sgn a ≤ z.sgn b then z.sgn a else z.sgn b) := by
  rw [ofInt_wrap, min_def]

theorem ofInt_max (z : Width) (a b : Word) : z.ofInt (max (z.sgn a) (z.sgn b)) = z.wrap (if z.sgn a ≤ z.sgn b then z.sgn b else z.sgn a) := by
  rw [ofInt_wrap, max_def]

theorem nat_min (z : Width) (a b : Word) : z.nat (min (z.uns a) (z.uns b)) = z.wrap (if z.uns a ≤ z.uns b then z.uns a else z.uns b) := by
  rw [nat_wrap, min_def, Nat.cast_ite]

theorem nat_max (z : Width) (a b : Word) : z.nat (max (z.uns a) (z.uns b)) = z.wrap (if z.uns a ≤ z.uns b then z.uns b else z.uns a) := by
  rw [nat_wrap, max_def, Nat.cast_ite]

theorem shlW_count (z : Width) (a b : Word) : shlW z a (z.count b) = z.wrap (z.uns a * 2 ^ (z.uns b % z.bits)) := by rw [count_uns, shlW_wrap]

theorem shrW_count (z : Width) (a b : Word) : shrW z a (z.count b) = z.wrap (z.uns a / 2 ^ (z.uns b % z.bits)) := by rw [count_uns, shrW_wrap]

theorem sraW_count (z : Width) (a b : Word) : sraW z a (z.count b) = z.wrap (z.sgn a / 2 ^ (z.uns b % z.bits)) := by rw [count_uns, sraW_wrap]

/-- An integer op gives the value of its row, at the width of W and with the immediate where it is set. -/
theorem portIntRow_spec : ∀ row ∈ portIntRows, ∀ (o : PortF) (s : State) (r : PortRun), s.portRun = some r → ∃ t, exec (row.1 o) s = .next t ∧
    s.LaneGives t r o.d (row.2 (if o.m % 2 = 1 then .w else .d) (s.laneReg r o.a)
      (if o.m / 2 % 2 = 1 then (BitVec.ofNat 6 o.x).signExtend 64 else s.laneReg r o.b)) 0 := by
  simp only [portIntRows, List.forall_mem_cons]
  refine ⟨?iadd, ?isub, ?imul, ?imulh, ?imin, ?imax, ?iminu, ?imaxu, ?and, ?or, ?xor, ?shl, ?shr, ?sra, List.forall_mem_nil _⟩ <;> intro o s r h
  case iadd => exact portInt_gives h o (fun z a b => z.out (a + b)) _ out_add
  case isub => exact portInt_gives h o (fun z a b => z.out (a - b)) _ out_sub
  case imul => exact portInt_gives h o (fun z a b => z.out (a * b)) _ out_mul
  case imulh => exact portInt_gives h o (fun z a b => z.ofInt (z.sgn a * z.sgn b / 2 ^ z.bits)) _ fun z a b => ofInt_wrap z _
  case imin => exact portInt_gives h o (fun z a b => z.ofInt (min (z.sgn a) (z.sgn b))) _ ofInt_min
  case imax => exact portInt_gives h o (fun z a b => z.ofInt (max (z.sgn a) (z.sgn b))) _ ofInt_max
  case iminu => exact portInt_gives h o (fun z a b => z.nat (min (z.uns a) (z.uns b))) _ nat_min
  case imaxu => exact portInt_gives h o (fun z a b => z.nat (max (z.uns a) (z.uns b))) _ nat_max
  case and => exact portInt_gives h o (fun z a b => z.out (a &&& b)) _ fun z a b => out_low z _
  case or => exact portInt_gives h o (fun z a b => z.out (a ||| b)) _ fun z a b => out_low z _
  case xor => exact portInt_gives h o (fun z a b => z.out (a ^^^ b)) _ fun z a b => out_low z _
  case shl => exact portInt_gives h o (fun z a b => shlW z a (z.count b)) _ shlW_count
  case shr => exact portInt_gives h o (fun z a b => shrW z a (z.count b)) _ shrW_count
  case sra => exact portInt_gives h o (fun z a b => sraW z a (z.count b)) _ sraW_count

/-- Settles O47: each op puts the value of its row or of the scalar instruction in its destination, after its draw where it makes one. -/
theorem portArithmetic : Obligations.PortArithmetic := by
  unfold Obligations.PortArithmetic
  refine ⟨?rows, ?float, portIntRow_spec, ?rest⟩
  case rows =>
    intro row hrow o s r h
    dsimp only
    rw [exec_portFloatRow row hrow, ← portM6_eq]
    exact portFloat_gives h o _ _ _ (f32Res_eq _ _)
  case float =>
    intro o s r h
    dsimp only
    refine ⟨?min, ?max, ?rcp, ?rsq, portFabs_spec h o, portFneg_spec h o, portFcmp_spec h o, portFex2_spec h o, portFlg2_spec h o⟩
    all_goals rw [← portM6_eq]
    case min => exact portRes_gives h o (fun a b _ => f32MinMax false (portM6 o) a b)
    case max => exact portRes_gives h o (fun a b _ => f32MinMax true (portM6 o) a b)
    case rcp => exact portRes_gives h o (fun a _ _ => f32Rcp (portM6 o) a)
    case rsq => exact portRes_gives h o (fun a _ _ => f32Rsq (portM6 o) a)
  case rest =>
    intro o s r h
    refine ⟨portIcmp_spec h o, portRes_gives h o (fun a b c => (if a ≠ 0 then b else c, 0)), portRnd_spec h o, fun draw u hu => ?_, portCvt_reserved h o, portQsr_reserved h o⟩
    obtain ⟨rfl, rfl⟩ := Prod.mk.inj (hu.trans (draw_pair s r o).symm)
    exact ⟨fun src dst => portCvt_spec h o, fun dst => portQsr_spec h o⟩

end Sys2Proof.Machine
end

section
/-! PROOF. trap, tret on a main stream, and indirect targets that are not aligned (R217, R222, R301, R337). -/

namespace Sys2Proof.Machine

open Sys2Proof

theorem exec_trap_main {s : State} (hm : s.OnMain) (o : ImmF) : exec (.trap o) s = .next (s.trapS 0x0E o.imm.toNat 0) := mainOnly_main hm _

/-- Only the trap core returns from a handler; on a main stream tret is no instruction (R222). -/
theorem exec_tret_main {s : State} (hm : s.OnMain) (o : R0) : exec (.tret o) s = .next (s.trapS 1 0 0) := by
  have ha : s.cur.agent = .S := hm
  rw [show exec (.tret o) s = execTret o s from rfl]
  unfold execTret
  rw [ha]

/-- Settles O8: each of the two is a trap of S and nothing else. -/
theorem trapInstruction : Obligations.TrapInstruction := by
  unfold Obligations.TrapInstruction
  exact ⟨fun o s hm ht => ⟨_, exec_trap_main hm o, trapS_traps hm ht _ _ _⟩,
    fun o s hm ht => ⟨_, exec_tret_main hm o, trapS_traps hm ht _ _ _⟩⟩

theorem jump_misaligned {s : State} {t : Word} (h : t.toNat % 8 ≠ 0) (st : Nat) : s.jump st t = s.trapS 5 8 t := if_pos h

/-- Settles O11: jr and ret go to their target by `State.jump`, which turns a misaligned one away. -/
theorem misalignedTargets : Obligations.MisalignedTargets := by
  unfold Obligations.MisalignedTargets
  refine ⟨fun o s hm ht hr ha => ⟨_, ?jr, trapS_traps hm ht 5 8 _⟩, fun o s hm ht hr ha => ⟨_, ?ret, trapS_traps hm ht 5 8 _⟩⟩
  case jr => rw [← jump_misaligned ha o.st]; exact hr.issue _
  case ret =>
    have hn : s.cur.agent ≠ .helper := by rw [hm]; decide
    rw [← jump_misaligned ha o.st, show exec (.ret o) s = s.notHelper _ from rfl, State.notHelper_eq hn]
    exact hr.issue _

end Sys2Proof.Machine
end

section
/-! PROOF. The two-source integer instructions and the divisions (R285, R288-R290): the values of their rows, and what they give. -/

namespace Sys2Proof.Machine

open Sys2Proof

/-! ## Signed and unsigned readings of a source (R288) -/

theorem sgn_eq_zero_iff (z : Width) (b : Word) : z.sgn b = 0 ↔ z.uns b = 0 := by
  have h := holds_iff_meets .eq z b 0
  cases z <;> simpa [Cond.holds, Cond.meets, Cond.unsigned, Cond.relates, Width.uns, Width.sgn, sextN] using h.symm

/-- The two readings agree modulo the width. -/
theorem wrap_sgn (z : Width) (a : Word) : z.wrap (z.sgn a) = z.out a := by
  cases z
  · exact BitVec.ofInt_toInt
  · simp only [Width.wrap, Width.sgn, Width.out, sextN32]
    rw [BitVec.toInt_signExtend_of_le (by decide), BitVec.ofInt_toInt]

theorem wrap_uns (z : Width) (a : Word) : z.wrap (z.uns a) = z.out a := (out_wrap z a _ (uns_emod z a).symm).symm

theorem wrap_neg_one (z : Width) : z.wrap (-1) = BitVec.allOnes 64 := by cases z <;> decide

/-! ## Divisions (R290) -/

theorem divS_eq (z : Width) (a b : Word) :
    divS z a b = if z.uns b = 0 then z.wrap (-1) else z.wrap ((z.sgn a).tdiv (z.sgn b)) := by
  unfold divS
  simp only [sgn_eq_zero_iff, ofInt_wrap, wrap_neg_one]

theorem divU_eq (z : Width) (a b : Word) : divU z a b = if z.uns b = 0 then z.wrap (-1) else z.wrap (z.uns a / z.uns b) := by
  unfold divU
  rw [nat_wrap, wrap_neg_one, Int.natCast_ediv]

theorem remS_eq (z : Width) (a b : Word) :
    remS z a b = if z.uns b = 0 then z.wrap (z.sgn a) else z.wrap (z.sgn a - z.sgn b * (z.sgn a).tdiv (z.sgn b)) := by
  unfold remS
  simp only [sgn_eq_zero_iff, ofInt_wrap, wrap_sgn, Int.tmod_def]

theorem remU_eq (z : Width) (a b : Word) :
    remU z a b = if z.uns b = 0 then z.wrap (z.uns a) else z.wrap ((z.uns a : Int) - z.uns b * (z.uns a / z.uns b)) := by
  unfold remU
  rw [nat_wrap, wrap_uns, Int.natCast_emod, Int.emod_def]

/-! ## The rows as results of their operands -/

theorem nat_mulh (z : Width) (a b : Word) : z.nat (z.uns a * z.uns b / 2 ^ z.bits) = z.wrap (z.uns a * z.uns b / 2 ^ z.bits) := by
  rw [nat_wrap]
  push_cast
  rfl

/-- A two-source instruction gives one result, with the value and the latency of its row. -/
theorem exec_intRow : ∀ row ∈ intRows, ∀ (o : R3w) (s : State),
    exec (row.1 o) s = s.result o.st [o.ra, o.rb] o.rd (row.2.1 o.w (s.r o.ra) (s.r o.rb)) row.2.2 := by
  simp only [intRows, List.forall_mem_cons]
  refine ⟨?add, ?sub, ?mul, ?mulh, ?mulhu, ?and, ?or, ?xor, ?shl, ?shr, ?sra, ?min, ?max, ?minu, ?maxu, List.forall_mem_nil _⟩ <;> intro o s
  case add => exact congrArg (s.result o.st [o.ra, o.rb] o.rd · 1) (out_add _ _ _)
  case sub => exact congrArg (s.result o.st [o.ra, o.rb] o.rd · 1) (out_sub _ _ _)
  case mul => exact congrArg (s.result o.st [o.ra, o.rb] o.rd · 3) (out_mul _ _ _)
  case mulh => exact congrArg (s.result o.st [o.ra, o.rb] o.rd · 3) (ofInt_wrap _ _)
  case mulhu => exact congrArg (s.result o.st [o.ra, o.rb] o.rd · 3) (nat_mulh _ _ _)
  case and | or | xor => exact congrArg (s.result o.st [o.ra, o.rb] o.rd · 1) (out_low _ _)
  case shl => exact congrArg (s.result o.st [o.ra, o.rb] o.rd · 1) (shlW_count _ _ _)
  case shr => exact congrArg (s.result o.st [o.ra, o.rb] o.rd · 1) (shrW_count _ _ _)
  case sra => exact congrArg (s.result o.st [o.ra, o.rb] o.rd · 1) (sraW_count _ _ _)
  case min => exact congrArg (s.result o.st [o.ra, o.rb] o.rd · 1) (ofInt_min _ _ _)
  case max => exact congrArg (s.result o.st [o.ra, o.rb] o.rd · 1) (ofInt_max _ _ _)
  case minu => exact congrArg (s.result o.st [o.ra, o.rb] o.rd · 1) (nat_min _ _ _)
  case maxu => exact congrArg (s.result o.st [o.ra, o.rb] o.rd · 1) (nat_max _ _ _)

/-- A division gives one result of variable latency, with the value of its row. -/
theorem exec_divRow : ∀ row ∈ divRows, ∀ (o : R3w) (s : State),
    exec (row.1 o) s = s.resultVar o.st [o.ra, o.rb] o.rd (row.2 o.w (s.r o.ra) (s.r o.rb)) := by
  simp only [divRows, List.forall_mem_cons]
  refine ⟨?div, ?divu, ?rem, ?remu, List.forall_mem_nil _⟩ <;> intro o s
  case div => exact congrArg (s.resultVar o.st [o.ra, o.rb] o.rd) (divS_eq _ _ _)
  case divu => exact congrArg (s.resultVar o.st [o.ra, o.rb] o.rd) (divU_eq _ _ _)
  case rem => exact congrArg (s.resultVar o.st [o.ra, o.rb] o.rd) (remS_eq _ _ _)
  case remu => exact congrArg (s.resultVar o.st [o.ra, o.rb] o.rd) (remU_eq _ _ _)

/-- Settles O1: every row gives one result, whose value is the exact one modulo the width. -/
theorem integerResults : Obligations.IntegerResults := by
  unfold Obligations.IntegerResults
  refine ⟨fun row hrow o s h => ?rows, fun row hrow o s h hd => ?divisions⟩
  case rows =>
    rw [exec_intRow row hrow]
    exact State.result_gives h _ o.st
  case divisions =>
    rw [exec_divRow row hrow]
    exact State.resultVar_gives h hd _ o.st

end Sys2Proof.Machine
end

section
/-! PROOF. clz, popc, bext and bins, bit by bit (R289, R291). -/

namespace Sys2Proof.Machine

open Sys2Proof

/-! ## Counts (R289) -/

theorem uns_lt (z : Width) (a : Word) : z.uns a < 2 ^ z.bits := Nat.mod_lt _ (Nat.two_pow_pos _)

/-- The n leading zeros of a number of w bits stand above its highest set bit. -/
theorem clzN_spec {w v : Nat} (h : v < 2 ^ w) :
    clzN w v ≤ w ∧ v < 2 ^ (w - clzN w v) ∧ (clzN w v < w → 2 ^ (w - clzN w v - 1) ≤ v) := by
  unfold clzN
  split
  case isTrue h0 => subst h0; exact ⟨le_refl w, Nat.two_pow_pos _, fun hlt => absurd hlt (lt_irrefl w)⟩
  case isFalse h0 =>
    have hlog : Nat.log2 v < w := (Nat.log2_lt h0).2 h
    rw [show w - (w - 1 - Nat.log2 v) = Nat.log2 v + 1 by omega]
    exact ⟨by omega, Nat.lt_log2_self, fun _ => Nat.log2_self_le h0⟩

/-- The set bits of a number are those that a bit by bit count finds. -/
theorem popcN_eq_countP (n v : Nat) : popcN n v = (List.range n).countP v.testBit := by
  induction n generalizing v with
  | zero => rfl
  | succ n ih =>
    have hbit : v % 2 = if v.testBit 0 then 1 else 0 := by
      rw [Nat.testBit_zero]; rcases Nat.mod_two_eq_zero_or_one v with h | h <;> simp [h]
    rw [popcN, ih, hbit, List.range_succ_eq_map, List.countP_cons, List.countP_map, Nat.add_comm]
    congr 2
    funext i
    exact Nat.testBit_div_two v i

theorem popcN_uns (z : Width) (a : Word) : popcN z.bits (z.uns a) = (List.range z.bits).countP (fun i => a.getLsbD i) := by
  rw [popcN_eq_countP]
  refine List.countP_congr fun i hi => ?_
  rw [Width.uns, Nat.testBit_mod_two_pow, decide_eq_true (List.mem_range.1 hi), Bool.true_and]
  rfl

/-! ## Fields (R291) -/

theorem fieldLo_eq (d : Word) : fieldLo d = (d.extractLsb' 0 6).toNat := by
  rw [BitVec.extractLsb'_toNat, Nat.shiftRight_zero, fieldLo, bitsOf, Nat.pow_zero, Nat.div_one]

theorem lt_fieldLen_iff {i : Nat} (hi : i < 64) (d : Word) : i < fieldLen d ↔ i < (d.extractLsb' 8 7).toNat := by
  rw [BitVec.extractLsb'_toNat, Nat.shiftRight_eq_div_pow, fieldLen, bitsOf, lt_min_iff, and_iff_left hi]

theorem bextVal_bit (a d : Word) {i : Nat} (hi : i < 64) :
    (bextVal a d).getLsbD i = (decide (i < (d.extractLsb' 8 7).toNat) && a.getLsbD ((d.extractLsb' 0 6).toNat + i)) := by
  rw [bextVal, word, BitVec.getLsbD_ofNat, decide_eq_true hi, Bool.true_and, Nat.testBit_mod_two_pow, Nat.testBit_div_two_pow,
    decide_eq_decide.2 (lt_fieldLen_iff hi d), ← fieldLo_eq, Nat.add_comm]
  rfl

/-- The mask has the bits of the field. -/
theorem fieldMask_bit (d : Word) {i : Nat} (hi : i < 64) : (fieldMask d).getLsbD i =
    decide ((d.extractLsb' 0 6).toNat ≤ i ∧ i < (d.extractLsb' 0 6).toNat + (d.extractLsb' 8 7).toNat) := by
  have hlen := lt_fieldLen_iff (i := i - fieldLo d) (by omega) d
  rw [fieldMask, word, BitVec.getLsbD_ofNat, decide_eq_true hi, Bool.true_and, Nat.testBit_mul_two_pow, Nat.testBit_two_pow_sub_one, ← fieldLo_eq]
  rw [Bool.eq_iff_iff]
  simp only [Bool.and_eq_true, decide_eq_true_eq, hlen]
  omega

theorem binsVal_bit (a b d : Word) {i : Nat} (hi : i < 64) : (binsVal a b d).getLsbD i =
    let lo := (d.extractLsb' 0 6).toNat
    if lo ≤ i ∧ i < lo + (d.extractLsb' 8 7).toNat then b.getLsbD (i - lo) else a.getLsbD i := by
  dsimp only
  rw [binsVal, BitVec.getLsbD_or, BitVec.getLsbD_and, BitVec.getLsbD_and, BitVec.getLsbD_not, BitVec.getLsbD_shiftLeft,
    fieldMask_bit d hi, fieldLo_eq, decide_eq_true hi]
  split
  case isTrue hin => rw [decide_eq_true hin, decide_eq_false (Nat.not_lt.2 hin.1)]; simp
  case isFalse hout => rw [decide_eq_false hout]; simp

/-- Settles O3: each instruction gives one result, and its bits are those of its operands. -/
theorem bitResults : Obligations.BitResults := by
  unfold Obligations.BitResults
  refine ⟨?clz, ?popc, ?bext, ?bins⟩
  case clz =>
    intro o s h
    obtain ⟨t, ht, hg⟩ := State.result_gives h (word (clzN o.w.bits (o.w.uns (s.r o.ra)))) o.st
    exact ⟨t, _, ht, hg, clzN_spec (uns_lt _ _)⟩
  case popc =>
    intro o s h
    rw [← popcN_uns]
    exact State.result_gives h _ o.st
  case bext =>
    intro o s h
    obtain ⟨t, ht, hg⟩ := State.result_gives h (bextVal (s.r o.ra) (s.r o.rb)) o.st
    exact ⟨t, _, ht, hg, fun i hi => bextVal_bit _ _ hi⟩
  case bins =>
    intro o s h
    obtain ⟨t, ht, hg⟩ := State.result_gives h (binsVal (s.r o.ra) (s.r o.rb) (s.r o.rc)) o.st
    exact ⟨t, _, ht, hg, fun i hi => binsVal_bit _ _ _ hi⟩

end Sys2Proof.Machine
end

section
/-! PROOF. sleepu, yield, cyc and waita: what holds S and what ends the hold (R307, R308, R329-R331). -/

namespace Sys2Proof.Machine

open Sys2Proof

/-! ## A hold that ends in an exception -/

/-- S without its hold traps where its context may. -/
theorem unhold_phase {s : State} (hm : s.OnMain) : s.unhold.me.trap.phase = s.me.trap.phase := by
  rw [trap_keeps (w := s.unhold) (s.setSca_frame _) hm]

theorem unhold_holds {s : State} (hm : s.OnMain) : s.Holds s.unhold .none := Holds.set (State.hasAgent_main hm) .none

theorem unhold_traps {s : State} (hm : s.OnMain) (hp : s.me.trap.phase = .none) (code detail : Nat) (fa : Word) :
    s.unhold.TrapsS (s.unhold.trapS code detail fa) code detail fa :=
  trapS_traps ((unhold_holds hm).frame.onMain hm) ((unhold_phase hm).trans hp) _ _ _

theorem unhold_traps_once {s : State} (hm : s.OnMain) (hp : s.me.trap.phase = .none) (code detail : Nat) (fa : Word) :
    s.unhold.TrapsOnce (s.unhold.trapAs true code detail fa) code detail fa :=
  trapAs_traps ((unhold_holds hm).frame.onMain hm) ((unhold_phase hm).trans hp) _ _ _

/-! ## sleepu (R329) -/

/-- An issue of S leaves its context but for the scalar part. -/
theorem rest_keeps {s t : State} (h : s.Keeps t) (hm : s.OnMain) : t.me.restFor .S = s.me.restFor .S := by
  have hrest := h.mine
  rwa [show s.cur.agent = .S from hm] at hrest

theorem eng_keeps {s t : State} (h : s.Keeps t) (hm : s.OnMain) : t.me.eng = s.me.eng :=
  show (t.me.restFor .S).eng = (s.me.restFor .S).eng from congrArg Ctx.eng (rest_keeps h hm)

theorem launch_keeps {s t : State} (h : s.Keeps t) (hm : s.OnMain) : t.me.launch = s.me.launch :=
  show (t.me.restFor .S).launch = (s.me.restFor .S).launch from congrArg Ctx.launch (rest_keeps h hm)

theorem late_iff (s : State) (ch time : Nat) : s.late s.cur.cid ch time = true ↔ s.LateOn ch time := by
  unfold State.late State.LateOn State.me
  cases Map.find (s.ctx s.cur.cid).eng.chans ch <;> simp [bit0_eq, bits_div]

theorem lateOn_keeps {s t : State} (h : s.Keeps t) (hm : s.OnMain) (ch time : Nat) : t.LateOn ch time ↔ s.LateOn ch time := by
  unfold State.LateOn
  rw [eng_keeps h hm]

/-- At the promised clk S goes on, or a late command raises cause 9. -/
theorem sleepWake_spec {s : State} (hm : s.OnMain) (time ch : Nat) :
    (¬ s.LateOn ch time → s.EndsFree (s.sleepWake time ch)) ∧
    (s.LateOn ch time → s.me.trap.phase = .none → ∃ v, s.Holds v .none ∧ v.TrapsS (s.sleepWake time ch) 9 ch 0) := by
  have he : s.sleepWake time ch = if s.late s.cur.cid ch time then s.unhold.trapS 9 ch 0 else s.go := rfl
  rw [he]
  refine ⟨fun hl => ?_, fun hl hp => ⟨s.unhold, unhold_holds hm, ?_⟩⟩
  · rw [if_neg (mt (late_iff s ch time).1 hl)]
    exact State.go_endsFree (State.hasAgent_main hm)
  · rw [if_pos ((late_iff s ch time).2 hl)]
    exact unhold_traps hm hp 9 ch 0

section
variable {s : State} {o : R1a} (hm : s.OnMain) (hr : s.Ready [o.ra] none)
include hm hr

theorem exec_sleepu :
    let time := (s.r o.ra).toNat / 16
    let ch := (s.r o.ra).toNat / 2 % 8
    let u := s.park (.sleepu time ch) o.st
    exec (.sleepu o) s = if bitOf (s.r o.ra) 0 = false then .next (s.adv o.st)
      else .next (if time ≤ s.clk then u.sleepWake time ch else u) := by
  rw [← bits_div, ← bits_ch]
  exact (mainOnly_main hm _).trans (hr.issue _)

theorem sleepu_passes (h : (s.r o.ra).getLsbD 0 = false) : ∃ t, exec (.sleepu o) s = .next t ∧ s.Passes t o.st :=
  ⟨_, (exec_sleepu hm hr).trans (if_pos ((bit0_eq _).trans h)), State.adv_passes hr.agent _⟩

theorem sleepu_parks (h : (s.r o.ra).getLsbD 0 = true) :
    let time := (s.r o.ra).toNat / 16
    let ch := (s.r o.ra).toNat / 2 % 8
    ∃ t u, exec (.sleepu o) s = .next t ∧ s.Parks u (.sleepu time ch) o.st ∧ (s.clk < time → t = u) ∧
      (time ≤ s.clk → ¬ s.LateOn ch time → u.EndsFree t) ∧
      (time ≤ s.clk → s.LateOn ch time → s.me.trap.phase = .none → ∃ v, u.Holds v .none ∧ v.TrapsS t 9 ch 0) := by
  intro time ch
  have hbit : ¬ bitOf (s.r o.ra) 0 = false := by rw [bit0_eq, h]; decide
  have hpark := State.park_parks hr.agent (.sleepu time ch) o.st
  obtain ⟨hfree, hlate⟩ := sleepWake_spec (hpark.frame.onMain hm) time ch
  rw [lateOn_keeps hpark.frame hm, trap_keeps hpark.frame hm] at hlate
  rw [lateOn_keeps hpark.frame hm] at hfree
  refine ⟨_, _, (exec_sleepu hm hr).trans (if_neg hbit), hpark, fun hc => if_neg (Nat.not_le.2 hc), fun hc hl => ?_, fun hc hl hp => ?_⟩
  · rw [if_pos hc]; exact hfree hl
  · rw [if_pos hc]; exact hlate hl hp

end

/-- The wake at the promised clk of a sleepu that holds S. -/
theorem exec_sleepuWake {s : State} {c ch : Nat} (hm : s.OnMain) (hh : s.sca.hold = .sleepu c ch) (hc : c ≤ s.clk) (hp : s.me.trap.phase = .none) :
    exec .sleepuWake s = .next (s.sleepWake c ch) := by
  rw [show exec .sleepuWake s = execSleepuWake s from rfl]
  unfold execSleepuWake
  rw [sca_main hm, hh, at_main hm]
  exact if_pos ⟨hc, hp⟩

/-! ## yield and cyc (R330, R331) -/

section
variable {s : State} {o : R1a} (hm : s.OnMain) (hr : s.Ready [o.ra] none)
include hm hr

theorem exec_yield : exec (.yield o) s = .next (if (s.r o.ra).toNat % 65536 = 0 then (s.adv o.st).give
    else (s.adv o.st).setSca { (s.adv o.st).sca with hold := .yield (s.clk + (s.r o.ra).toNat % 65536 + 1) }) := by
  rw [← bits_low16]
  exact (mainOnly_main hm _).trans (hr.issue _)

theorem yield_spec : ∃ t u, exec (.yield o) s = .next t ∧ s.Passes u o.st ∧
    ((s.r o.ra).toNat % 65536 = 0 → t = u.modCore s.myCore (fun k => { k with gives := some (s.cur.cid % 2) })) ∧
    ((s.r o.ra).toNat % 65536 ≠ 0 → u.Holds t (.yield (s.clk + (s.r o.ra).toNat % 65536 + 1))) := by
  have hpass := State.adv_passes hr.agent o.st
  refine ⟨_, _, exec_yield hm hr, hpass, fun h => ?_, fun h => ?_⟩
  · rw [if_pos h, ← hpass.frame.myCore_eq, ← hpass.frame.cur]; rfl
  · rw [if_neg h]; exact Holds.set (State.hasAgent_main (hpass.frame.onMain hm)) _

end

theorem exec_yieldEnd {s : State} {c : Nat} (hm : s.OnMain) (hh : s.sca.hold = .yield c) (hc : c ≤ s.clk) : exec .yieldEnd s = .next s.unhold := by
  rw [show exec .yieldEnd s = execYieldEnd s from rfl]
  unfold execYieldEnd
  rw [sca_main hm, hh, at_main hm]
  exact if_pos hc

/-! ## A read of waita (R307, R308) -/

/-- The value read holds S while it is the expected one of a first read that may wait, and else ends the waita. -/
theorem waitaGot_spec {x : State} (hm : x.OnMain) (w : WaitaSt) (e tmo v : Word) (second : Bool) :
    (second = false → v = e → tmo ≠ 0 → (x.acquired w.ord w.scope).Holds (x.waitaGot w e tmo second v) (.waita w)) ∧
    (second = true ∨ v ≠ e ∨ tmo = 0 → (x.acquired w.ord w.scope).EndsWith (x.waitaGot w e tmo second v) w.rt (extend w.sx w.size v)) := by
  have hy : (x.acquired w.ord w.scope).HasAgent := State.hasAgent_main ((x.acquired_moves w.ord w.scope).onMain hm)
  have he : x.waitaGot w e tmo second v = if (!second && v == e && tmo != 0) = true
      then (x.acquired w.ord w.scope).setSca { (x.acquired w.ord w.scope).sca with hold := .waita w }
      else ((x.acquired w.ord w.scope).resVar w.rt (extend w.sx w.size v)).go := by
    rw [← State.acquired_eq]; rfl
  have htest : (!second && v == e && tmo != 0) = true ↔ second = false ∧ v = e ∧ tmo ≠ 0 := by simp [and_assoc]
  rw [he]
  refine ⟨fun h1 h2 h3 => ?_, fun h => ?_⟩
  · rw [if_pos (htest.2 ⟨h1, h2, h3⟩)]
    exact Holds.set hy _
  · rw [if_neg (fun hc => ?_)]
    · exact State.resVar_go_ends hy _ _
    · obtain ⟨rfl, rfl, h3⟩ := htest.1 hc
      rcases h with h | h | h
      · cases h
      · exact h rfl
      · exact h3 h

section
variable {s : State} {w : WaitaSt} {k : Nat} (e tmo : Word) (second : Bool) (hk : s.myCore = k)
include hk

theorem waitaRead_bad (hp : (s.flushPlace k w.place).poisoned w.place w.size = true) :
    s.waitaRead w e tmo second = (s.flushPlace k w.place).unhold.trapAs true 0x0B w.place.errDetail w.va := by
  subst hk
  unfold State.waitaRead
  exact if_pos hp

/-- A read at the point of coherence that meets no error: it gives its bytes. -/
theorem waitaRead_sound {l : Nat} (hm : s.OnMain) (hl : s.me.launch = l) (hn : w.size ∈ [1, 2, 4, 8])
    (hp : (s.flushPlace k w.place).poisoned w.place w.size = false) :
    let x := s.flushPlace k w.place
    let y := (x.sRead k w.place w.size).acquired w.ord w.scope
    let bs := x.rd l w.place w.size
    (second = false → leWord bs = e → tmo ≠ 0 → y.Holds (s.waitaRead w e tmo second) (.waita w)) ∧
    (second = true ∨ leWord bs ≠ e ∨ tmo = 0 → y.EndsWith (s.waitaRead w e tmo second) w.rt (loaded w.sx bs)) := by
  intro x y bs
  subst hk hl
  obtain ⟨hxm, hcur, hcore, hl⟩ := flushPlace_facts hm w.place
  have he : s.waitaRead w e tmo second = (x.sRead s.myCore w.place w.size).waitaGot w e tmo second (leWord bs) := by
    unfold State.waitaRead
    dsimp only
    rw [hp, if_neg Bool.false_ne_true, hcur, hcore, hl]
  rw [he, ← extend_loaded w.sx w.size bs (State.rd_length _ _ _ _) hn]
  exact waitaGot_spec (onMain_of_cur (State.cur_sRead _ _ _ _) hxm) w e tmo (leWord bs) second

end

/-! ## The issue of a waita (R307) -/

theorem leBytes_leNat (bs : List Byte) : leBytes bs.length (leNat bs) = bs := by
  induction bs with
  | nil => rfl
  | cons b bs ih =>
    have hb : b.toNat < 256 := b.isLt
    have hlow : (b.toNat + 256 * leNat bs) % 256 = b.toNat := by omega
    have hhigh : (b.toNat + 256 * leNat bs) / 256 = leNat bs := by omega
    rw [leNat, List.length_cons, leBytes, hlow, hhigh, ih, byte, BitVec.ofNat_toNat, BitVec.setWidth_eq]

theorem leNat_leBytes (n x : Nat) : leNat (leBytes n x) = x % 256 ^ n := by
  induction n generalizing x with
  | zero => rw [pow_zero, Nat.mod_one]; rfl
  | succ n ih =>
    have hb : (byte (x % 256)).toNat = x % 256 := by rw [byte, BitVec.toNat_ofNat]; omega
    rw [leBytes, leNat, ih, hb, pow_succ', Nat.mod_mul]

/-- The bytes read are those of the expected value where the two are equal as words. -/
theorem leWord_eq_zext_iff (z : Size) {bs : List Byte} (h : bs.length = z.bytes) (v : Word) :
    leWord bs = zextN (8 * z.bytes) v ↔ bs = leBytes z.bytes v.toNat := by
  have hlt := leNat_lt bs
  have hmod := Nat.mod_lt v.toNat (show 0 < 256 ^ z.bytes by positivity)
  have h64 : 256 ^ z.bytes ≤ 2 ^ 64 := by cases z <;> decide
  rw [h] at hlt
  have hnat : leWord bs = zextN (8 * z.bytes) v ↔ leNat bs = v.toNat % 256 ^ z.bytes := by
    rw [← size_eq z, zext_eq, size_eq, leWord, word, word, ← BitVec.toNat_inj, BitVec.toNat_ofNat, BitVec.toNat_ofNat, Nat.mod_eq_of_lt (by omega),
      Nat.mod_eq_of_lt (by omega)]
  rw [hnat]
  refine ⟨fun he => ?_, fun he => ?_⟩
  · rw [← leBytes_leNat bs, h, he]
    exact leBytes_mod _ _ _ (Nat.mod_mod _ _)
  · rw [he, leNat_leBytes]

/-! ### S holds nothing while an issue reads -/

theorem State.flushPlace_freed (s : State) (cid k : Nat) (p : Place) :
    (s.modCtx cid Ctx.freed).flushPlace k p = (s.flushPlace k p).modCtx cid Ctx.freed := by
  unfold State.flushPlace State.dropLine
  cases p.pa? with
  | none => rfl
  | some x =>
    dsimp only
    rw [State.wbLine_freed]
    rfl

/-- A context that has been set as f leaves it stays as it is under f. -/
theorem modCtx_set_fixed {f : Ctx → Ctx} {c : Ctx} (h : f c = c) (s : State) (cid k : Nat) (g : Core → Core) :
    ((s.setCtx cid c).modCore k g).modCtx cid f = (s.setCtx cid c).modCore k g := by
  have hset : (s.setCtx cid c).setCtx cid c = s.setCtx cid c := by unfold State.setCtx; rw [Map.put_put]
  calc ((s.setCtx cid c).modCore k g).modCtx cid f
      = ((s.setCtx cid c).modCore k g).setCtx cid c := by unfold State.modCtx; rw [State.ctx_modCore, State.ctx_setCtx_same, h]
    _ = ((s.setCtx cid c).setCtx cid c).modCore k g := rfl
    _ = (s.setCtx cid c).modCore k g := by rw [hset]

theorem park_none_freed {s : State} (hm : s.OnMain) (st : Nat) : (s.park .none st).modCtx s.cur.cid Ctx.freed = s.park .none st := by
  have ha : s.cur.agent = .S := hm
  have hpark : s.park .none st = (s.setCtx s.cur.cid { s.me with sc := { s.sca with hold := .none, nextIssue := s.clk + 1 + st } }).modCore s.myCore
      (fun k => { k with lastIssue := some (s.clk, s.cur.cid % 2) }) := by
    unfold State.park State.setSca
    rw [ha]
    dsimp only
    unfold State.takeSlot
    rw [State.cur_modMe, ha]
    rfl
  rw [hpark]
  exact modCtx_set_fixed rfl s s.cur.cid s.myCore _

theorem flushPlace_unhold {s : State} (hm : s.OnMain) (st k : Nat) (p : Place) :
    ((s.park .none st).flushPlace k p).unhold = (s.park .none st).flushPlace k p := by
  have hpark := State.park_parks (State.hasAgent_main hm) .none st
  have hmoves := (s.park .none st).flushPlace_moves k p
  rw [State.unhold_main (hmoves.onMain (hpark.frame.onMain hm)), hmoves.cur, hpark.frame.cur, ← State.flushPlace_freed, park_none_freed hm]

/-- What a waita that issues waits for (R307). -/
def State.waitaOf (s : State) (o : WaitaF) (p : Place) : WaitaSt :=
  ⟨o.rt, o.size.bytes, o.sx, o.ord, o.scope, p, s.based o.ra o.off, s.clk + (s.r o.rt).toNat, false, s.pc⟩

theorem flushPlace_trap (s : State) (k : Nat) (p : Place) : (s.flushPlace k p).me.trap = s.me.trap := by
  unfold State.me
  rw [(s.flushPlace_moves k p).cur]
  exact Readies.phase (s.flushPlace_moves k p).readies

/-- What the read at the issue of a waita of this device's memory does. -/
theorem waitaRead_parked {u : State} (hm : u.OnMain) {w : WaitaSt} {z : Size} (hz : w.size = z.bytes) (st : Nat) (b tmo : Word) :
    let t := (u.park .none st).waitaRead w (zextN (8 * w.size) b) tmo false
    let x := (u.park .none st).flushPlace u.myCore w.place
    let y := (x.sRead u.myCore w.place w.size).acquired w.ord w.scope
    let bs := x.rd u.me.launch w.place w.size
    (x.poisoned w.place w.size = true → u.me.trap.phase = .none → x.TrapsOnce t 0x0B w.place.errDetail w.va) ∧
    (x.poisoned w.place w.size = false → bs = leBytes w.size b.toNat → tmo ≠ 0 → y.Holds t (.waita w)) ∧
    (x.poisoned w.place w.size = false → bs ≠ leBytes w.size b.toNat ∨ tmo = 0 → y.EndsWith t w.rt (loaded w.sx bs)) := by
  intro t x y bs
  have hkeeps := (State.park_parks (State.hasAgent_main hm) .none st).frame
  have hvm := hkeeps.onMain hm
  have hcore := hkeeps.myCore_eq
  have hsize : w.size ∈ [1, 2, 4, 8] := by rw [hz]; cases z <;> decide
  have hexp : leWord bs = zextN (8 * w.size) b ↔ bs = leBytes w.size b.toNat := by
    rw [hz]; exact leWord_eq_zext_iff z ((State.rd_length _ _ _ _).trans hz) b
  have hsound := waitaRead_sound (zextN (8 * w.size) b) tmo false hcore hvm (launch_keeps hkeeps hm) hsize
  refine ⟨fun hp hph => ?bad, fun hp he => (hsound hp).1 rfl (hexp.2 he), fun hp h => (hsound hp).2 (.inr (h.imp_left (mt hexp.1)))⟩
  case bad =>
    have ht : t = x.unhold.trapAs true 0x0B w.place.errDetail w.va := waitaRead_bad _ _ _ hcore hp
    rw [ht, show x.unhold = x from flushPlace_unhold hm st _ _]
    exact trapAs_traps (((u.park .none st).flushPlace_moves _ _).onMain hvm) (by rw [flushPlace_trap, trap_keeps hkeeps hm, hph]) _ _ _

section
variable {s : State} {o : WaitaF} {p : Place} (hm : s.OnMain) (hr : s.Ready [o.ra, o.rb, o.rt] none) (ho : o.ord ≠ .sc)
  (ha : (s.based o.ra o.off).toNat % o.size.bytes = 0) (hx : s.xlat s.cur.cid false .wait (s.based o.ra o.off) = .ok p)
  (hl : s.me.path.loads = []) (hs : ∀ e ∈ s.me.path.stores, p.meets o.size.bytes e.place e.size = false)
include hm hr ho ha hx hl hs

/-- The word of another device is watched for, one of this device is read. -/
theorem exec_waita : exec (.waita o) s =
    let u := s.noteXlat s.cur.cid (s.based o.ra o.off)
    let w := s.waitaOf o p
    let expect := zextN (8 * o.size.bytes) (s.r o.rb)
    p.dev?.elim (.next ((u.park .none o.st).waitaRead w expect (s.r o.rt) false))
      fun d => .next (u.parkRemote o.st d.1 d.2.2 (.watch d.2.1 o.size.bytes) (.waita w expect (s.r o.rt) false) (s.based o.ra o.off)) := by
  have hw := noteXlat_walks s (s.based o.ra o.off)
  have hreg : ∀ r, (s.noteXlat s.cur.cid (s.based o.ra o.off)).r r = s.r r := Readies.reg hw.readies hm
  have hpc : (s.noteXlat s.cur.cid (s.based o.ra o.off)).pc = s.pc := by unfold State.pc; rw [hw.sca hm]
  have hhere : s.Here [o.rt] := fun r h => hr.srcs_here r (List.mem_cons_of_mem _ (List.mem_cons_of_mem _ h))
  have hstores : s.me.path.stores.any (fun e => p.meets o.size.bytes e.place e.size) = false :=
    List.any_eq_false.2 fun e he => by rw [hs e he]; decide
  have hfree : (!s.me.path.loads.isEmpty || s.me.path.stores.any (fun e => p.meets o.size.bytes e.place e.size)) = false := by rw [hl, hstores]; rfl
  rw [← size_eq] at *
  show execWaita o s = _
  unfold execWaita State.eaOff20
  dsimp only
  rw [mainOnly_main hm, hr.issueVar hhere, based_eq s o.ra o.off (by decide), if_neg ho, access_ok hm ha hx,
    if_neg ho, hreg, hreg, hpc, hw.clk, hw.me, hfree, if_neg Bool.false_ne_true]
  unfold State.waitaOf
  rw [← size_eq]
  cases p.dev? <;> rfl

end

/-! ## The wake of a waita (R308) -/

theorem parked_iff (w : WaitaSt) (clk : Nat) : (!(w.woken || decide (w.deadline ≤ clk))) = true ↔ w.woken = false ∧ clk < w.deadline := by
  simp

theorem not_parked {w : WaitaSt} {clk : Nat} (h : w.woken = true ∨ w.deadline ≤ clk) : ¬ (w.woken = false ∧ clk < w.deadline) := by
  rintro ⟨hw, hd⟩
  rcases h with h | h
  · rw [hw] at h; cases h
  · omega

/-- A waita that neither an event nor its time has woken waits on; a woken one reads once more, at the wheel where it is an .sc access. -/
theorem exec_waitaWake {s : State} {w : WaitaSt} (hm : s.OnMain) (hh : s.sca.hold = .waita w) :
    let u := s.dropNotices s.cur.cid
    exec (.waitaWake s.cur.cid) s = if w.woken = false ∧ s.clk < w.deadline then .next s
      else if w.ord = .sc then .next (u.setSca { u.sca with hold := .sc ⟨.waita w.rt w.sx 0 0 true, w.place, w.va, w.size, w.pc, none⟩ })
      else w.place.dev?.elim (.next (u.waitaRead w 0 0 true))
        fun d => .next (u.holdRemote d.1 d.2.2 (.load d.2.1 w.size) (.waita w 0 0 true) w.va) := by
  intro u
  rw [show exec (.waitaWake s.cur.cid) s = execWaitaWake s.cur.cid s from rfl]
  unfold execWaitaWake
  rw [show (s.ctx s.cur.cid).sc = s.sca from sca_main hm, hh, at_main hm]
  dsimp only [holdWaita?]
  simp only [parked_iff]
  cases w.place.dev? <;> rfl

/-- Settles O31: sleepu by its wake, yield by its count, waita by what a read of its word gives, at its issue and at its wake. -/
theorem parkedStreams : Obligations.ParkedStreams := by
  unfold Obligations.ParkedStreams
  refine ⟨fun o s hm hr h => sleepu_passes hm hr h, fun o s hm hr h => sleepu_parks hm hr h, fun s c ch hm hh hc hp => ?sleepuWake,
    fun o s hm hr => yield_spec hm hr, fun s c hm hh hc => ⟨_, exec_yieldEnd hm hh hc, unhold_holds hm⟩, fun o s hm hr => ?cyc,
    fun o s p hm hr ho => ?waita, fun s w hm hh => ?waitaWake⟩
  case sleepuWake =>
    obtain ⟨hfree, hlate⟩ := sleepWake_spec hm c ch
    exact ⟨_, exec_sleepuWake hm hh hc hp, hfree, fun hl => hlate hl hp⟩
  case cyc =>
    rw [show exec (.cyc o) s = s.mainOnly _ from rfl, mainOnly_main hm]
    exact State.result_gives hr _ o.st
  case waita =>
    intro ea n w u ha hx hl hs
    have he := exec_waita hm hr ho ha hx hl hs
    refine ⟨fun hnear => ?near, fun dev pa key hp => ?far⟩
    case near =>
      rw [Place.dev?_of_near hnear] at he
      have hw := noteXlat_walks s ea
      have hum := hw.onMain hm
      have hread := waitaRead_parked hum (w := w) (z := o.size) rfl o.st (s.r o.rb) (s.r o.rt)
      rw [myCore_of hw.cur, hw.me] at hread
      exact ⟨_, _, he, State.park_parks (State.hasAgent_main hum) .none o.st, hread⟩
    case far => subst hp; exact he
  case waitaWake =>
    intro u x bs
    have he := exec_waitaWake hm hh
    have hxm : x.OnMain := (u.flushPlace_moves s.myCore w.place).onMain hm
    refine ⟨fun hw hd => ?early, fun hdue => ⟨fun hsc => ?wheel, fun dev pa key hsc hp => ?far, fun hsc hnear hn => ?near⟩⟩
    case early => exact he.trans (if_pos ⟨hw, hd⟩)
    all_goals replace he := he.trans (if_neg (not_parked hdue))
    case wheel => exact ⟨_, he.trans (if_pos hsc), Holds.set (State.hasAgent_main (s := u) hm) _⟩
    case far =>
      rw [if_neg hsc, hp] at he
      exact he
    case near =>
      rw [if_neg hsc, Place.dev?_of_near hnear] at he
      have hsound := waitaRead_sound (s := u) 0 0 true rfl hm rfl hn
      refine ⟨u.waitaRead w 0 0 true, he, fun hp => (hsound hp).2 (.inl rfl), fun hp hph => ⟨x.unhold, unhold_holds hxm, ?_⟩⟩
      rw [waitaRead_bad 0 0 true rfl hp]
      exact unhold_traps_once hxm ((congrArg TrapSt.phase (flushPlace_trap u s.myCore w.place)).trans hph) _ _ _

end Sys2Proof.Machine
end

section
/-! PROOF. The setups of the engines, and the start of the copy-family commands (R346, R347, R350, R353-R356, R360, R379, R382, R395). -/

namespace Sys2Proof.Machine

open Sys2Proof

/-- Settles O40: each setup is its engine's setup operation with the write of `nest_table` or `mat_table`. -/
theorem setupsWrite : Obligations.SetupsWrite := by
  unfold Obligations.SetupsWrite
  refine ⟨fun i s path sy hi h => ?nest, fun i s sy hi h => ?mat⟩
  case nest =>
    obtain ⟨f, hwrite, hcopy, hred⟩ := nest_table hi
    rcases nest_path hi with rfl | rfl
    · exact (nest_of f hwrite).1 (hcopy rfl s) h
    · exact (nest_of f hwrite).2 (hred rfl s) h
  case mat =>
    obtain ⟨f, hwrite, he⟩ := mat_table hi s
    exact mat_of f hwrite he h

/-! ## The active set and the checks of a copy-family command -/

/-- A base override has one of the bits 63:57 set (R353). -/
def CopyRow.Wide (c : CopyRow) (h : QEnt) : Prop := (c.os = true ∧ 2 ^ 57 ≤ h.a.toNat) ∨ (c.od = true ∧ 2 ^ 57 ≤ h.b.toNat)

/-- The shadow set with the base overrides of a command (R353). -/
def CopyRow.active (c : CopyRow) (h : QEnt) (n : NestSet) : NestSet :=
  let n1 := if c.os = true then { n with base := Map.put n.base 0 (word (spaceOf (n.baseW 0) * 2 ^ 61 + h.a.toNat)) } else n
  if c.od = true then { n1 with base := Map.put n1.base 4 (word (spaceOf (n1.baseW 4) * 2 ^ 61 + h.b.toNat)) } else n1

/-- The streams of a command and its index list pass the checks that raise the illegal instruction (R347, R350). -/
def CopyRow.Good (c : CopyRow) (n : NestSet) : Prop :=
  (∀ j ∈ c.src ++ c.dst, n.Fits j (decide (4 ≤ j)) (decide (c.list.map Prod.snd ≠ some j)) (c.packed && decide (j = 0))) ∧
    ∀ x ∈ c.list, x.1.toNat % 8 = 0

/-- A stream of a command stands in space 5 and is no source of DECOMP within the flash tier (R347). -/
def State.InFlash (s : State) (c : CopyRow) (n : NestSet) (j : Nat) : Prop :=
  spaceOf (n.baseW j) = 5 ∧ ¬ (c.packed = true ∧ j = 0 ∧ addrOf (n.baseW j) < bitsOf (s.variant.caps 2) 43 32 * 8000000000)

theorem goNest_none {c : CopyRow} {h : QEnt} (hw : c.Wide h) (n : NestSet) : c.go.nest n h = none := by
  unfold CopyGo.nest
  rw [if_pos]
  simpa [CopyRow.Wide, CopyRow.go] using hw

theorem goNest_some {c : CopyRow} {h : QEnt} (hw : ¬ c.Wide h) (n : NestSet) : c.go.nest n h = some (c.active h n) := by
  unfold CopyGo.nest
  rw [if_neg]
  · rfl
  · simpa [CopyRow.Wide, CopyRow.go] using hw

theorem inFlash_iff (s : State) (c : CopyRow) (n : NestSet) (j : Nat) :
    s.flashBad (n.baseW j) (c.packed && j == 0) = true ↔ s.InFlash c n j := by
  unfold State.flashBad State.InFlash
  rw [Bool.and_eq_true, beq_iff_eq, Bool.or_eq_true, Bool.not_eq_true', ← Bool.not_eq_true, Bool.and_eq_true, beq_iff_eq, decide_eq_true_eq, ← not_lt]
  tauto

/-- What copyCheck tests first is `CopyRow.Good`. -/
theorem copyGood_iff (c : CopyRow) (n : NestSet) :
    ((c.go.src ++ c.go.dst).all (fun j => n.streamOk j (decide (j < 4)) true (c.go.listed == some j) (c.go.dec && j == 0)) &&
      (match c.go.list with | some a => a.toNat % 8 == 0 | none => true)) = true ↔ c.Good n := by
  have hstream : ∀ j, n.streamOk j (decide (j < 4)) true (c.go.listed == some j) (c.go.dec && j == 0) = true ↔
      n.Fits j (decide (4 ≤ j)) (decide (c.list.map Prod.snd ≠ some j)) (c.packed && decide (j = 0)) := by
    intro j
    have hgrid : (!(c.go.listed == some j)) = decide (c.list.map Prod.snd ≠ some j) := by rw [Bool.eq_iff_iff]; simp [CopyRow.go]
    rw [streamOk_iff, hgrid]
    rfl
  have hlist : (match c.go.list with | some a => a.toNat % 8 == 0 | none => true) = true ↔ ∀ x ∈ c.list, x.1.toNat % 8 = 0 := by
    unfold CopyRow.go
    cases c.list <;> simp
  rw [Bool.and_eq_true, List.all_eq_true, hlist]
  exact and_congr_left' (forall₂_congr fun j _ => hstream j)

theorem copyCheck_illegal {c : CopyRow} {n : NestSet} (s : State) (h : ¬ c.Good n) : s.copyCheck c.go n = some (1, 0, 0) := by
  unfold State.copyCheck
  dsimp only
  rw [if_pos]
  rw [Bool.not_eq_true', ← Bool.not_eq_true]
  exact mt (copyGood_iff c n).mp h

theorem copyCheck_good {c : CopyRow} {n : NestSet} (s : State) (h : c.Good n) : s.copyCheck c.go n =
    ((c.src ++ c.dst).find? (fun j => s.flashBad (n.baseW j) (c.packed && j == 0))).map (fun j => (6, 5, word (addrOf (n.baseW j)))) := by
  unfold State.copyCheck CopyRow.go
  dsimp only
  rw [if_neg]
  · cases (c.src ++ c.dst).find? (fun j => s.flashBad (n.baseW j) (c.packed && j == 0)) <;> rfl
  · rw [Bool.not_eq_true', Bool.not_eq_false]
    exact (copyGood_iff c n).mpr h

theorem copyCheck_flash {s : State} {c : CopyRow} {n : NestSet} (h : c.Good n) (hf : ∃ j ∈ c.src ++ c.dst, s.InFlash c n j) :
    ∃ j, s.InFlash c n j ∧ s.copyCheck c.go n = some (6, 5, word (addrOf (n.baseW j))) := by
  obtain ⟨k, hmem, hk⟩ := hf
  have hsome : ((c.src ++ c.dst).find? (fun j => s.flashBad (n.baseW j) (c.packed && j == 0))).isSome = true :=
    List.find?_isSome.mpr ⟨k, hmem, (inFlash_iff s c n k).mpr hk⟩
  obtain ⟨j, hj⟩ := Option.isSome_iff_exists.mp hsome
  have hfound := List.find?_some hj
  exact ⟨j, (inFlash_iff s c n j).mp hfound, by rw [copyCheck_good s h, hj]; rfl⟩

theorem copyCheck_none {s : State} {c : CopyRow} {n : NestSet} (h : c.Good n) (hf : ∀ j ∈ c.src ++ c.dst, ¬ s.InFlash c n j) :
    s.copyCheck c.go n = none := by
  rw [copyCheck_good s h, List.find?_eq_none.mpr fun j hj => mt (inFlash_iff s c n j).mp (hf j hj)]
  rfl

/-! ## The command at the head of C -/

theorem copyFree_of {s : State} {ch : Nat} (hc : Map.find s.me.eng.chans ch = none)
    (h : (s.program s.cur.cid 0 = none ∧ s.program s.cur.cid 1 = none) ∨ ∀ x ∈ s.me.eng.chans, x.2.op < 3 ∨ 7 < x.2.op) :
    s.copyFree s.cur.cid ch = true := by
  have hnone : (Map.find (s.ctx s.cur.cid).eng.chans ch).isNone = true := congrArg Option.isNone hc
  unfold State.copyFree
  dsimp only
  rw [hnone, Bool.true_and, Bool.not_eq_true', Bool.and_eq_false_iff]
  rcases h with ⟨h0, h1⟩ | h
  · left; rw [h0, h1]; rfl
  · right
    rw [List.any_eq_false]
    intro x hx
    have := h x hx
    simp only [Bool.and_eq_true, decide_eq_true_eq]
    omega

section
variable {i : Instr} {s : State} {c : CopyRow} (hrow : i.copyRow s.head = some c) (hs : s.AtStart 0 c.sy) (hfree : s.copyFree s.cur.cid c.ch = true)
include hrow hs hfree

theorem exec_copy_wide (hw : c.Wide s.head) : exec i s = s.trapStart (.ch c.ch) 1 0 0 := by
  rw [copyRow_go hrow]
  refine (engineOp_ready hs hfree _).trans ?_
  rw [goNest_none hw]
  rfl

/-- Without a wide override the checks of the active set decide. -/
theorem exec_copy_checked (hw : ¬ c.Wide s.head) : exec i s = (s.copyCheck c.go (c.active s.head s.me.eng.copyNest)).elim
    (.next (s.copyStart c.go (c.active s.head s.me.eng.copyNest))) (fun x => s.trapStart (.ch c.ch) x.1 x.2.1 x.2.2) := by
  rw [copyRow_go hrow]
  refine (engineOp_ready hs hfree _).trans ?_
  rw [goNest_some hw]
  dsimp only
  cases s.copyCheck c.go (c.active s.head s.me.eng.copyNest) <;> rfl

end

/-- Settles O41: a command at the head of C is turned away by its overrides, its streams or a place in the flash tier, or starts with the
promise of `promise_low`. -/
theorem copyCommandsStart : Obligations.CopyCommandsStart := by
  unfold Obligations.CopyCommandsStart
  intro i s c hrow hs hchan hidle h n0 n1 n wide good flash
  have hfree := copyFree_of hchan hidle
  have hexec : ¬ wide → exec i s = (s.copyCheck c.go n).elim (.next (s.copyStart c.go n)) (fun x => s.trapStart (.ch c.ch) x.1 x.2.1 x.2.2) :=
    exec_copy_checked hrow hs hfree
  refine ⟨fun hbad hp => ?illegal, fun hw hg hf hp => ?flash, fun hw hg hf => ?starts⟩
  case illegal =>
    have he : exec i s = s.trapStart (.ch c.ch) 1 0 0 := by
      by_cases hw : c.Wide s.head
      · exact exec_copy_wide hrow hs hfree hw
      · rw [hexec hw, copyCheck_illegal s (hbad.resolve_left hw)]
        rfl
    rw [he]
    exact trapStart_traps hp (.ch c.ch) 1 0 0
  case flash =>
    obtain ⟨j, hj, hcheck⟩ := copyCheck_flash hg hf
    rw [hexec hw, hcheck]
    obtain ⟨t, ht, htraps⟩ := trapStart_traps hp (.ch c.ch) 6 5 (word (addrOf (n.baseW j)))
    exact ⟨t, j, ht, hj, htraps⟩
  case starts =>
    obtain ⟨clk, hlate, hpromise, hexact⟩ := promise_low s s.cur.cid c.ch n c.src c.dst (c.list.map Prod.fst) c.packed
    rw [hexec hw, copyCheck_none hg hf]
    exact ⟨_, _, clk, rfl, copyStart_eq s c.go n, rfl, rfl, rfl, rfl, rfl, rfl, rfl, hlate, hpromise,
      fun hsp hl hd h0 h1 => hexact hsp (by rw [hl]; rfl) hd h0 h1⟩

end Sys2Proof.Machine
end

section
/-! PROOF. The K instructions at the head of their stream: weights, rings, reductions, broadcasts and puts (R365-R371). -/

namespace Sys2Proof.Machine

open Sys2Proof

/-! ## kbw and kput (R367, R371) -/

/-- The value of kbw has nothing above its two weights, and neither is 0. -/
theorem kbw_bad_iff (v : Word) : (bitsOf v 63 16 ≠ 0 ∨ bitsOf v 7 0 = 0 ∨ bitsOf v 15 8 = 0) ↔
    ¬ (v.toNat / 65536 = 0 ∧ v.toNat % 256 ≠ 0 ∧ v.toNat / 256 % 256 ≠ 0) := by
  obtain ⟨hhigh, hwc, hwl⟩ := bits_kbw v
  rw [hhigh, hwc, hwl]
  tauto

section
variable {s : State} {o : EReg} (h : s.AtK o.sy)
include h

theorem exec_kbw_bad (hv : ¬ (s.head.a.toNat / 65536 = 0 ∧ s.head.a.toNat % 256 ≠ 0 ∧ s.head.a.toNat / 256 % 256 ≠ 0)) :
    exec (.kbw o) s = s.trapStart (.coll 0) 1 0 0 := by
  show execKbw o s = _
  unfold execKbw
  rw [engineOp_ready h.start h.noRing_eq]
  exact if_pos ((kbw_bad_iff _).mpr hv)

theorem exec_kbw_good (hv : s.head.a.toNat / 65536 = 0 ∧ s.head.a.toNat % 256 ≠ 0 ∧ s.head.a.toNat / 256 % 256 ≠ 0) :
    exec (.kbw o) s = (s.setColl (dieAt s.cur.cid) { s.coll (dieAt s.cur.cid) with
      wc := s.head.a.toNat % 256, wl := s.head.a.toNat / 256 }).kDone o.sy := by
  obtain ⟨-, hwc, hwl⟩ := bits_kbw s.head.a
  have hsmall : s.head.a.toNat / 256 % 256 = s.head.a.toNat / 256 := by omega
  show execKbw o s = _
  unfold execKbw
  rw [engineOp_ready h.start h.noRing_eq]
  dsimp only
  rw [if_neg (fun hb => (kbw_bad_iff _).mp hb hv), hwc, hwl, hsmall]

end

theorem exec_kput {s : State} {o : E3} (h : s.AtK o.sy) (hroom : s.me.eng.coll.length < 16) :
    exec (.kput o) s = if 1 ≤ s.head.c.toNat ∧ s.head.c.toNat ≤ 2 ^ 32 then .next (s.joined o.sy s.kCmd) else s.trapStart (.coll 0) 1 0 0 := by
  show s.kGo o.sy (inRange s.head.c 1 (2 ^ 32)) = _
  unfold State.kGo
  rw [engineOp_ready h.start (kGate h hroom), kStart_eq]
  simp only [inRange_iff]

/-! ## kallred and kbcast (R368-R370) -/

/-- A ring that the launch of the context holds under an id, in the engine of its die. -/
def State.MyRing (s : State) (g : Nat) (r : Machine.Ring) : Prop := Map.find (s.coll (dieAt s.cur.cid)).rings g = some r ∧ r.launch = s.me.launch

theorem holdsRing_iff (s : State) (g : Nat) : s.holdsRing g = true ↔ ∃ r, s.MyRing g r := by
  unfold State.holdsRing State.MyRing
  cases Map.find (s.coll (dieAt s.cur.cid)).rings g <;> simp

theorem karOk_iff (s : State) (g : Nat) : s.karOk g = true ↔
    (1 ≤ s.head.b.toNat ∧ s.head.b.toNat ≤ 1024) ∧ s.head.a.toNat % 8 = 0 ∧ ∃ r, s.MyRing g r := by
  unfold State.karOk
  rw [Bool.and_eq_true, Bool.and_eq_true, inRange_iff, beq_iff_eq, holdsRing_iff, and_assoc]

section
variable {s : State} {sy : Sync} {g : Nat} (h : s.AtK sy) (hroom : s.me.eng.coll.length < 16)
include h hroom

theorem karGo_bad (hb : ¬ s.karOk g = true) : s.karGo sy g = s.trapStart (.coll 0) 1 0 0 := by
  unfold State.karGo
  rw [engineOp_ready h.start (kGate h hroom)]
  exact if_neg hb

/-- The buckets of a command that starts take the next numbers of its ring (R369). -/
theorem karGo_ok {r : Machine.Ring} (hr : s.MyRing g r) (hb : s.karOk g = true) : s.karGo sy g =
    .next ((s.setColl (dieAt s.cur.cid) { s.coll (dieAt s.cur.cid) with
      rings := Map.put (s.coll (dieAt s.cur.cid)).rings g { r with next := r.next + s.head.b.toNat } }).joined sy { s.kCmd with numBase := r.next }) := by
  unfold State.karGo
  rw [engineOp_ready h.start (kGate h hroom), if_pos hb]
  dsimp only
  rw [hr.1]
  dsimp only
  rw [kStart_eq]

end

/-! ## The descriptor of a ring (R366) -/

theorem length_eraseDups_le : ∀ l : List Nat, l.eraseDups.length ≤ l.length
  | [] => le_rfl
  | a :: l => by
    have hfilter := List.length_filter_le (fun b => !b == a) l
    have hrest := length_eraseDups_le (l.filter (fun b => !b == a))
    rw [List.eraseDups_cons, List.length_cons, List.length_cons]
    omega
  termination_by l => l.length
  decreasing_by rw [List.length_cons]; omega

/-- Where dropping repetitions leaves the length there were none. -/
theorem length_eraseDups_iff (l : List Nat) : l.eraseDups.length = l.length ↔ l.Nodup := by
  refine ⟨fun h => ?_, fun h => by rw [eraseDups_nodup h]⟩
  induction l with
  | nil => exact List.nodup_nil
  | cons a l ih =>
    rw [List.eraseDups_cons, List.length_cons, List.length_cons, Nat.add_right_cancel_iff] at h
    have hrest := length_eraseDups_le (l.filter (fun b => !b == a))
    have hfilter := List.length_filter_le (fun b => !b == a) l
    have hkept : ∀ b ∈ l, (!b == a) = true := List.length_filter_eq_length_iff.mp (by omega)
    rw [List.filter_eq_self.mpr hkept] at h
    refine List.nodup_cons.mpr ⟨fun ha => ?_, ih h⟩
    have := hkept a ha
    simp at this

/-- The members that the bytes of a descriptor name, those of the device itself on an engine's die (R366). -/
def State.ringMembers (s : State) (die : Nat) (bs : List Byte) : List Nat :=
  bs.map (fun x => if x.toNat % 128 = s.net.devid then s.net.devid + 128 * die else x.toNat)

/-- A descriptor names each member once, the engine's own die among them, and every other device has a route (R366). -/
def State.RingOk (s : State) (die : Nat) (ms : List Nat) : Prop :=
  ms.Nodup ∧ s.net.devid + 128 * die ∈ ms ∧ ∀ x ∈ ms, x % 128 = s.net.devid ∨ (Map.getD s.net.routes (x % 128) .fresh).v = true

theorem ringOk_iff (s : State) (die : Nat) (ms : List Nat) :
    (ms.contains (s.net.devid + 128 * die) && ms.eraseDups.length == ms.length &&
      ms.all (fun x => x % 128 == s.net.devid || (Map.getD s.net.routes (x % 128) .fresh).v)) = true ↔ s.RingOk die ms := by
  unfold State.RingOk
  simp only [Bool.and_eq_true, List.contains_iff_mem, beq_iff_eq, length_eraseDups_iff, List.all_eq_true, Bool.or_eq_true]
  tauto

section
variable {s : State} {cid : Nat} {m : Cmd}

theorem kringDo_stops {e : Stop} (h : s.kRead cid m m.ent.a 8 = .error e) : s.kringDo cid m = .error e := by
  unfold State.kringDo State.kringMembers
  rw [h]
  rfl

/-- A descriptor of 2 to 128 members whose first word holds their number and nothing else. -/
theorem kringMembers_eq {n : Nat} {bs : List Byte} {e e' : Fl} {ms : List Nat} [Decidable (s.RingOk m.die ms)]
    (hhead : s.kRead cid m m.ent.a 8 = .ok (BitVec.ofNat 8 n :: List.replicate 7 0, e)) (h2 : 2 ≤ n) (h128 : n ≤ 128)
    (hbytes : s.kRead cid m (m.ent.a + 8) n = .ok (bs, e')) (hms : s.ringMembers m.die bs = ms) :
    s.kringMembers cid m = if s.RingOk m.die ms then .ok ms else .error (.fault 1 0 0) := by
  have hn : (BitVec.ofNat 8 n).toNat = n := by rw [BitVec.toNat_ofNat]; omega
  subst hms
  unfold State.kringMembers
  simp only [hhead, bind, Except.bind, List.map_cons, hn, List.getElem?_cons_zero, Option.getD_some]
  rw [if_neg (by simp; omega), hbytes]
  simp only [← ringOk_iff]
  rfl

theorem kringEnter_foreign {r : Machine.Ring} {ms : List Nat} (hr : Map.find (s.coll m.die).rings m.ring = some r)
    (hl : r.launch ≠ (s.ctx cid).launch) : s.kringEnter cid m ms = .error (.fault 7 1 0) := by
  unfold State.kringEnter
  dsimp only
  rw [hr]
  exact if_neg hl

/-- A ring id that is free, or the launch's own, is entered; the next bucket number of the launch's own ring stays. -/
theorem kringEnter_own {ms : List Nat} (hr : ∀ r, Map.find (s.coll m.die).rings m.ring = some r → r.launch = (s.ctx cid).launch) :
    s.kringEnter cid m ms = .ok (s.setColl m.die { s.coll m.die with
      rings := Map.put (s.coll m.die).rings m.ring
        { launch := (s.ctx cid).launch, members := ms, next := (Map.find (s.coll m.die).rings m.ring).elim 0 Machine.Ring.next } }) := by
  unfold State.kringEnter
  dsimp only
  cases hf : Map.find (s.coll m.die).rings m.ring with
  | none => rfl
  | some r => exact if_pos (hr r hf)

theorem kringDo_bad {e : Stop} (h : s.kringMembers cid m = .error e) : s.kringDo cid m = .error e := by
  unfold State.kringDo
  rw [h]
  rfl

theorem kringDo_enters {ms : List Nat} (h : s.kringMembers cid m = .ok ms) : s.kringDo cid m = s.kringEnter cid m ms := by
  unfold State.kringDo
  rw [h]
  rfl

end

/-! ## kring at the head of K (R366, R432) -/

section
variable {s : State} {o : EIdx} (h : s.AtK o.sy) (hroom : s.me.eng.coll.length < 16) (hfree : s.kringFree s.cur.cid o.g = true)
include h hroom hfree

theorem kringGate : (s.noRing && decide (s.me.eng.coll.length < 16) && s.kringFree s.cur.cid o.g) = true := by
  rw [kGate h hroom, hfree]
  rfl

theorem exec_kring_entered {u : State} (hd : s.kringDo s.cur.cid s.kCmd = .ok u) : exec (.kring o) s = u.kDone o.sy := by
  show execKring o s = _
  unfold execKring
  rw [engineOp_ready h.start (kringGate h hroom hfree), hd]

theorem exec_kring_fault {c d : Nat} {fa : Word} (hd : s.kringDo s.cur.cid s.kCmd = .error (.fault c d fa)) :
    exec (.kring o) s = s.trapStart (.coll 0) c d fa := by
  show execKring o s = _
  unfold execKring
  rw [engineOp_ready h.start (kringGate h hroom hfree), hd]

/-- A descriptor on another device: the command starts, and its request is sent as it runs. -/
theorem exec_kring_asks {dev pa key : Nat} {va : Word} (hd : s.kringDo s.cur.cid s.kCmd = .error (.need dev pa key va)) :
    exec (.kring o) s = .next (s.joined o.sy s.kCmd) := by
  show execKring o s = _
  unfold execKring
  rw [engineOp_ready h.start (kringGate h hroom hfree), hd, ← kStart_eq]

end

/-- Settles O45: each instruction by its equation, a ring by what its descriptor names and by who holds its id. -/
theorem collectivesStart : Obligations.CollectivesStart := by
  unfold Obligations.CollectivesStart
  refine ⟨fun o s h => ?kbw, fun o s h hroom => ?kput, fun i o s hi h hroom => ?kar, fun o s h hroom hfree => ?kring⟩
  case kbw =>
    refine ⟨fun hbad hp => ?_, fun hgood => ?_⟩
    · rw [exec_kbw_bad h hbad]
      exact kTrap hp 1 0 0
    · rw [exec_kbw_good h hgood]
      exact kDone_ends _ o.sy
  case kput =>
    intro n
    rw [exec_kput h hroom]
    refine ⟨fun hbad hp => ?_, fun h1 h2 => ⟨s.kCmd, if_pos ⟨h1, h2⟩, rfl, rfl, rfl, rfl, rfl, rfl⟩⟩
    rw [if_neg (by omega)]
    exact kTrap hp 1 0 0
  case kar =>
    intro d n mine
    have he : exec i s = s.karGo o.sy o.g := by rcases hi with rfl | rfl <;> rfl
    rw [he]
    refine ⟨fun hbad hp => ?_, fun r hr h1 h2 ha => ?_⟩
    · rw [karGo_bad h hroom]
      · exact kTrap hp 1 0 0
      · rw [karOk_iff]
        rintro ⟨hn, ha, hr⟩
        rcases hbad with hz | hbig | hmis | hno
        · omega
        · omega
        · exact hmis ha
        · exact hno hr
    · exact ⟨_, karGo_ok h hroom hr ((karOk_iff s o.g).mpr ⟨⟨h1, h2⟩, ha, r, hr⟩), rfl, rfl, rfl, rfl, rfl, rfl, rfl, rfl, rfl⟩
  case kring =>
    intro d m l own
    refine ⟨fun c x fa hf hp => ?fault, fun dev pa key va hn => ?need, fun n bs e e' hhead h2 h128 hbytes => ?read⟩
    case fault =>
      rw [exec_kring_fault h hroom hfree (kringDo_stops hf)]
      exact kTrap hp c x fa
    case need => exact exec_kring_asks h hroom hfree (kringDo_stops hn)
    case read =>
      intro ms
      classical
      have hmembers := kringMembers_eq (ms := ms) hhead h2 h128 hbytes rfl
      refine ⟨fun hok => ?ring, fun hbad hp => ?illegal⟩
      case ring =>
        have henters := kringDo_enters (hmembers.trans (if_pos hok))
        refine ⟨fun r hr hl hp => ?_, fun hown => ?_⟩
        · rw [exec_kring_fault h hroom hfree (henters.trans (kringEnter_foreign hr hl))]
          exact kTrap hp 7 1 0
        · rw [exec_kring_entered h hroom hfree (henters.trans (kringEnter_own hown))]
          obtain ⟨t, ht, hends⟩ := kDone_ends (s.setColl d _) o.sy
          exact ⟨t, _, ht, hends, fun r hr => congrArg (Option.elim · 0 Machine.Ring.next) hr, fun hr => congrArg (Option.elim · 0 Machine.Ring.next) hr⟩
      case illegal =>
        rw [exec_kring_fault h hroom hfree (kringDo_bad (hmembers.trans (if_neg hbad)))]
        exact kTrap hp 1 0 0

end Sys2Proof.Machine
end

section
/-! PROOF. The port instructions of the main stream (R90, R404-R408, R412-R418). -/

namespace Sys2Proof.Machine

open Sys2Proof

/-! ## The port hold and the task's slots (R413, R414) -/

section
variable {s : State} {srcs dsts : List Nat} (h : s.AtPort srcs) (hd : s.Here dsts)
include h hd

theorem portOp_allowed {ok : Bool} (hok : ok = true) (k : Res) : s.portOp ok srcs dsts k = k := by rw [portOp_eq h hd, if_pos hok]

theorem portOp_refused {ok : Bool} (hok : ok = false) (k : Res) : s.portOp ok srcs dsts k = .next (s.trapS 7 1 0) := by
  rw [portOp_eq h hd, if_neg (ne_true_of_eq_false hok)]

end

/-! ## What PLOAD tests before it reads (R415) -/

theorem findSome?_range_first {β : Type} {f : Nat → Option β} {j n : Nat} {b : β} (hj : j < n) (hf : f j = some b) (hbefore : ∀ k < j, f k = none) :
    (List.range n).findSome? f = some b := by
  induction n with
  | zero => omega
  | succ n ih =>
    rw [List.range_succ, List.findSome?_append]
    rcases Nat.lt_succ_iff_lt_or_eq.mp hj with hlt | rfl
    · rw [ih hlt]
      rfl
    · rw [List.findSome?_eq_none_iff.mpr fun k hk => hbefore k (List.mem_range.mp hk)]
      simpa using hf

theorem ploadFaults_first {s : State} {ea : Word} {j c d : Nat} (hj : j < 11) (hf : s.xlat s.cur.cid false .load (ea + word (64 * j)) = .fault c d)
    (hbefore : ∀ k < j, ∃ p, s.xlat s.cur.cid false .load (ea + word (64 * k)) = .ok p) :
    s.ploadFaults ea = some (c, d, ea + word (64 * j)) := by
  refine findSome?_range_first hj ?_ fun k hk => ?_
  · rw [hf]
  · obtain ⟨p, hp⟩ := hbefore k hk
    rw [hp]

theorem ploadFaults_none {s : State} {ea : Word} (h : ∀ j < 11, ∃ p, s.xlat s.cur.cid false .load (ea + word (64 * j)) = .ok p) :
    s.ploadFaults ea = none := by
  refine List.findSome?_eq_none_iff.mpr fun j hj => ?_
  obtain ⟨p, hp⟩ := h j (List.mem_range.mp hj)
  rw [hp]

/-- A load waits for no store where each store that it meets is a plain one of this device (R142, R145). -/
theorem loadBlocked_plain {sts : List StEnt} {l : LdEnt}
    (h : ∀ e ∈ sts, l.place.meets l.size e.place e.size = true → l.place.isRemote = false ∧ ∃ v, e.kind = .store v) : loadBlocked sts l = false := by
  by_cases hmeets : ∃ e ∈ sts, l.place.meets l.size e.place e.size = true
  · obtain ⟨e, he, hm⟩ := hmeets
    exact loadBlocked_stores (h e he hm).1 fun e he hm => (h e he hm).2
  · push Not at hmeets
    exact loadBlocked_misses fun e he _ => Bool.eq_false_iff.mpr (hmeets e he)

theorem ploadReady_of {s : State} {ea : Word} (hl : s.me.path.loads = []) (h : ∀ j < 11, ∃ p, s.xlat s.cur.cid false .load (ea + word (64 * j)) = .ok p ∧
      ∀ e ∈ s.me.path.stores, p.meets 64 e.place e.size = true → p.isRemote = false ∧ ∃ v, e.kind = .store v) : s.ploadReady ea = true := by
  unfold State.ploadReady
  rw [hl, List.isEmpty_nil, Bool.true_and, List.all_eq_true]
  intro j hj
  obtain ⟨p, hp, hplain⟩ := h j (List.mem_range.mp hj)
  have hfree : loadBlocked s.me.path.stores (s.ploadLine p (ea + word (64 * j))) = false := loadBlocked_plain hplain
  dsimp only
  rw [hp]
  dsimp only
  rw [hfree]
  rfl

section
variable {s : State} {o : PloadF} (h : s.AtPort [o.ra]) (hslot : o.slot < s.me.hdr.slots)
include h hslot

theorem exec_pload_misaligned (hea : (s.r o.ra).toNat % 64 ≠ 0) : exec (.pload o) s = .next (s.trapS 5 64 (s.r o.ra)) :=
  (portOp_allowed h (State.here_nil s) ((slotOk_iff s o.slot).mpr hslot) _).trans (if_pos hea)

theorem exec_pload_faults (hea : (s.r o.ra).toNat % 64 = 0) {c d : Nat} {va : Word} (hf : s.ploadFaults (s.r o.ra) = some (c, d, va)) :
    exec (.pload o) s = .next (s.trapS c d va) := by
  refine (portOp_allowed h (State.here_nil s) ((slotOk_iff s o.slot).mpr hslot) _).trans ((if_neg (not_not.mpr hea)).trans ?_)
  rw [hf]

theorem exec_pload_reads (hea : (s.r o.ra).toNat % 64 = 0) (hf : s.ploadFaults (s.r o.ra) = none) (hr : s.ploadReady (s.r o.ra) = true) :
    exec (.pload o) s = .next ((s.park .none o.st).ploadGo o.slot (s.r o.ra) 11 0 []) := by
  refine (portOp_allowed h (State.here_nil s) ((slotOk_iff s o.slot).mpr hslot) _).trans ((if_neg (not_not.mpr hea)).trans ?_)
  rw [hf]
  exact if_neg (by rw [hr]; exact Bool.false_ne_true)

end

/-! ## What reading the lines leaves (R415) -/

/-- Reading lines changes nothing of a context but that it wakes a parked waita. -/
theorem pulled_ctx (s : State) (ea : Word) (n c : Nat) :
    ({ (s.pulled ea n).1.ctx c with sc := { ((s.pulled ea n).1.ctx c).sc with hold := .none } } : Ctx) =
      { s.ctx c with sc := { (s.ctx c).sc with hold := .none } } ∧
    Hold.wokenBy (s.ctx c).sc.hold ((s.pulled ea n).1.ctx c).sc.hold := by
  induction n with
  | zero => exact ⟨rfl, wokenBy_refl _⟩
  | succ n ih =>
    unfold State.pulled
    dsimp only
    split
    case h_1 => exact ih
    case h_2 p _ =>
      have hmoves := State.loadL1_moves (((s.pulled ea n).1.noteXlat s.cur.cid (ea + word (64 * n))).sRead s.myCore p 64) s.myCore p .nh true
      have hsame : (((s.pulled ea n).1.noteXlat s.cur.cid (ea + word (64 * n))).sRead s.myCore p 64).ctx c = (s.pulled ea n).1.ctx c := by
        rw [State.ctx_sRead]
        unfold State.ctx
        rw [(noteXlat_data _ _ _).1]
      have hrest := hmoves.ctxs c
      have hholds := hmoves.holds c
      rw [hsame] at hrest hholds
      exact ⟨hrest.trans ih.1, Hold.wokenBy_trans ih.2 hholds⟩

/-- The state in which a PLOAD has read its lines: the cursor's context is as it was, and nothing holds it. -/
structure State.Pulls (s y : State) : Prop where
  cur : y.cur = s.cur
  main : y.OnMain
  free : y.sca.hold = .none
  trap : y.me.trap = s.me.trap
  ports : y.me.ports = s.me.ports

theorem pulled_pulls {s : State} (hm : s.OnMain) (ea : Word) (n st : Nat) : s.Pulls ((s.park .none st).pulled ea n).1 := by
  have hpark := State.park_parks (State.hasAgent_main hm) .none st
  have hpm := hpark.frame.onMain hm
  have hcur : ((s.park .none st).pulled ea n).1.cur = (s.park .none st).cur := pulled_cur _ ea n
  have hmain := onMain_of_cur hcur hpm
  obtain ⟨hrest, hwoken⟩ := pulled_ctx (s.park .none st) ea n (s.park .none st).cur.cid
  have hme : ((s.park .none st).pulled ea n).1.me = ((s.park .none st).pulled ea n).1.ctx (s.park .none st).cur.cid := by
    unfold State.me
    rw [hcur]
  have hpports : (s.park .none st).me.ports = s.me.ports := by
    have hmine := hpark.frame.mine
    rw [show s.cur.agent = .S from hm] at hmine
    have hports := congrArg Ctx.ports hmine
    exact hports
  refine ⟨hcur.trans hpark.frame.cur, hmain, ?_, ?_, ?_⟩
  · have hnone : ((s.park .none st).ctx (s.park .none st).cur.cid).sc.hold = .none := by
      show (s.park .none st).me.sc.hold = .none
      rw [sca_main hpm, hpark.scalar]
    rw [← sca_main hmain, hme]
    rcases hwoken with he | ⟨w, hw, -⟩
    · exact he.trans hnone
    · rw [hnone] at hw
      cases hw
  · have htrap := congrArg Ctx.trap hrest
    rw [hme]
    exact htrap.trans (trap_keeps hpark.frame hm)
  · have hports := congrArg Ctx.ports hrest
    rw [hme]
    exact hports.trans hpports

/-! ## The checks of an image (R405, R412, R415) -/

/-- The slot that an image of 704 bytes makes, with the binding that the slot had. -/
def Slot.ofImage (bs : List Byte) (b : Option Nat) : Slot := { Slot.fresh with img := Mem.write [] 0 bs, bound := b }

theorem headerOk_iff (l : Slot) : l.headerOk = true ↔ l.tsz ≤ 128 ∧ l.comb ≤ 6 ∧ l.lg ≤ 7 ∧ l.elen ≤ 8 ∧ l.blen ≤ 32 := by
  unfold Slot.headerOk
  simp only [Bool.and_eq_true, decide_eq_true_eq, and_assoc]

/-- An agent that nothing holds is the same after its hold ends. -/
theorem unhold_free {y : State} (hm : y.OnMain) (hf : y.sca.hold = .none) : y.unhold = y.modMe id := by
  have hfreed : y.me.freed = id y.me := by
    unfold Ctx.freed
    rw [← hf, ← sca_main hm]
    rfl
  rw [State.unhold_main hm]
  exact modMe_congr y hfreed

theorem ctx_modMe_id (y : State) (c : Nat) : (y.modMe id).ctx c = y.ctx c := by
  unfold State.modMe
  rw [State.ctx_modCtx]
  split
  case isTrue hc => rw [hc]; rfl
  case isFalse => rfl

theorem Traps.of_modMe_id {y t : State} {cid : Nat} {once : Bool} {f : Frame} (h : (y.modMe id).Traps t cid once f) : y.Traps t cid once f := by
  obtain ⟨htrap, hmine, hothers, hholds, helsewhere, houtside, hcores⟩ := h
  simp only [ctx_modMe_id] at htrap hmine hothers hholds helsewhere
  exact ⟨htrap, hmine, hothers, hholds, helsewhere, houtside, hcores⟩

theorem frameS_modMe_id {y : State} (hm : y.OnMain) (code detail : Nat) (fa : Word) : (y.modMe id).frameS code detail fa = y.frameS code detail fa := by
  have hsca : (y.modMe id).sca = y.sca := by rw [← sca_main (s := y.modMe id) hm, modMe_me, id, sca_main hm]
  have hpc : (y.modMe id).pc = y.pc := congrArg Scalar.pc hsca
  have hbundle : (y.modMe id).bundle = y.bundle := by
    unfold State.bundle
    rw [hsca, hpc]
  have hword : (y.modMe id).curWord = y.curWord := by
    unfold State.curWord
    rw [hbundle, hpc]
    rfl
  unfold State.frameS
  rw [hword, hpc]

/-- A port fault of PLOAD is the port fault's cause at the instruction, with the slot, the word and the point (R412). -/
theorem ploadFault_traps {y : State} (hm : y.OnMain) (hf : y.sca.hold = .none) (hp : y.me.trap.phase = .none) (kind slot pins point : Nat) :
    y.Traps (y.unhold.ploadFault kind slot pins point) y.cur.cid false
      { y.frameS 0x0A kind 0 with pslot := slot, pins := pins, pbind := point } := by
  rw [unhold_free hm hf, ← frameS_modMe_id hm]
  refine Traps.of_modMe_id (raise_traps (y.modMe id) y.cur.cid _ ?_)
  rw [ctx_modMe_id]
  exact hp

section
variable {y : State} {slot : Nat} {bs : List Byte}

theorem ploadDone_header (h : ¬ (Slot.ofImage bs (y.slot y.cur.cid slot).bound).headerOk = true) :
    y.ploadDone slot bs = y.unhold.ploadFault 2 slot 0 ((y.slot y.cur.cid slot).bound.getD 0) :=
  if_pos (by rw [Bool.not_eq_true', ← Bool.not_eq_true]; exact h)

variable (h : (Slot.ofImage bs (y.slot y.cur.cid slot).bound).headerOk = true)
include h

theorem ploadDone_word {n : Nat} (hb : (Slot.ofImage bs (y.slot y.cur.cid slot).bound).badWord = some n) :
    y.ploadDone slot bs = y.unhold.ploadFault 1 slot n ((y.slot y.cur.cid slot).bound.getD 0) := by
  refine (if_neg (by rw [Bool.not_eq_true', Bool.not_eq_false]; exact h)).trans ?_
  rw [show Slot.badWord { Slot.fresh with img := Mem.write [] 0 bs, bound := (y.slot y.cur.cid slot).bound } = some n from hb]
  rfl

theorem ploadDone_slot (hb : (Slot.ofImage bs (y.slot y.cur.cid slot).bound).badWord = none) :
    y.ploadDone slot bs = (y.unhold.modSlot y.unhold.cur.cid slot (fun _ => Slot.ofImage bs (y.slot y.cur.cid slot).bound)).go := by
  refine (if_neg (by rw [Bool.not_eq_true', Bool.not_eq_false]; exact h)).trans ?_
  rw [show Slot.badWord { Slot.fresh with img := Mem.write [] 0 bs, bound := (y.slot y.cur.cid slot).bound } = none from hb]
  rfl

/-- An image that passes its checks replaces the slot but for its binding, and the PLOAD ends. -/
theorem ploadDone_ends (hm : y.OnMain) (hf : y.sca.hold = .none) (hb : (Slot.ofImage bs (y.slot y.cur.cid slot).bound).badWord = none) :
    (y.modMe (fun c => { c with ports := { c.ports with slots := Map.put c.ports.slots slot (Slot.ofImage bs (y.slot y.cur.cid slot).bound) } })).EndsFree
      (y.ploadDone slot bs) := by
  have hput : (y.modMe id).modSlot (y.modMe id).cur.cid slot (fun _ => Slot.ofImage bs (y.slot y.cur.cid slot).bound) =
      y.modMe (fun c => { c with ports := { c.ports with slots := Map.put c.ports.slots slot (Slot.ofImage bs (y.slot y.cur.cid slot).bound) } }) :=
    modMe_modMe y id _
  rw [ploadDone_slot h hb, unhold_free hm hf, hput]
  exact State.go_endsFree (State.hasAgent_main hm)

end

theorem State.Pulls.slot {s y : State} (h : s.Pulls y) (k : Nat) : y.slot y.cur.cid k = s.slot s.cur.cid k := congrArg (Ports.slot · k) h.ports

theorem pload_reads {s : State} {o : PloadF} (h : s.AtPort [o.ra]) (hslot : o.slot < s.me.hdr.slots) (hea : (s.r o.ra).toNat % 64 = 0)
    (hl : s.me.path.loads = []) (hplaces : ∀ j < 11, ∃ p, s.xlat s.cur.cid false .load (s.r o.ra + word (64 * j)) = .ok p ∧
      ∀ e ∈ s.me.path.stores, p.meets 64 e.place e.size = true → p.isRemote = false ∧ ∃ v, e.kind = .store v)
    (hpull : (s.park .none o.st).Pullable (s.r o.ra)) :
    let x := (s.park .none o.st).pulled (s.r o.ra) 11
    let new := Slot.ofImage x.2 (s.slot s.cur.cid o.slot).bound
    (new.headerOk = true → new.badWord = none → ∃ t, exec (.pload o) s = .next t ∧
      (x.1.modMe (fun c => { c with ports := { c.ports with slots := Map.put c.ports.slots o.slot new } })).EndsFree t) ∧
    (¬ new.headerOk = true → s.me.trap.phase = .none → ∃ t, exec (.pload o) s = .next t ∧
      x.1.Traps t s.cur.cid false { x.1.frameS 0x0A 2 0 with pslot := o.slot, pbind := (s.slot s.cur.cid o.slot).bound.getD 0 }) ∧
    (∀ n, new.headerOk = true → new.badWord = some n → s.me.trap.phase = .none → ∃ t, exec (.pload o) s = .next t ∧
      x.1.Traps t s.cur.cid false { x.1.frameS 0x0A 1 0 with pslot := o.slot, pins := n, pbind := (s.slot s.cur.cid o.slot).bound.getD 0 }) := by
  intro x new
  have hpulls : s.Pulls x.1 := pulled_pulls h.main (s.r o.ra) 11 o.st
  have hdone : (s.park .none o.st).ploadGo o.slot (s.r o.ra) 11 0 [] = x.1.ploadDone o.slot x.2 := ploadGo_near 11 0 hpull
  have hexec : exec (.pload o) s = .next (x.1.ploadDone o.slot x.2) := by
    rw [exec_pload_reads h hslot hea (ploadFaults_none fun j hj => (hplaces j hj).imp fun _ hp => hp.1) (ploadReady_of hl hplaces), hdone]
  have hphase : s.me.trap.phase = .none → x.1.me.trap.phase = .none := fun hp => (congrArg TrapSt.phase hpulls.trap).trans hp
  have hnew : new = Slot.ofImage x.2 (x.1.slot x.1.cur.cid o.slot).bound := by rw [hpulls.slot]
  rw [hexec, ← hpulls.slot, hnew, ← hpulls.cur]
  refine ⟨fun hh hb => ⟨_, rfl, ploadDone_ends hh hpulls.main hpulls.free hb⟩, fun hh hp => ⟨_, rfl, ?header⟩, fun n hh hb hp => ⟨_, rfl, ?word⟩⟩
  case header =>
    rw [ploadDone_header hh]
    exact ploadFault_traps hpulls.main hpulls.free (hphase hp) 2 o.slot 0 _
  case word =>
    rw [ploadDone_word hh hb]
    exact ploadFault_traps hpulls.main hpulls.free (hphase hp) 1 o.slot n _

/-! ## PBIND, PPAR, PCLR and PRD (R416-R418) -/

/-- A port instruction that changes only the context's slots. -/
theorem slots_pass {s : State} (hm : s.OnMain) {i : Instr} {f : Ports → Ports} {st : Nat} (he : exec i s = .next ((s.modMyPorts f).adv st))
    (hf : f s.me.ports = { s.me.ports with slots := (f s.me.ports).slots }) {g : Nat → Option Nat}
    (hg : ∀ k, (f s.me.ports).slot k = { s.me.ports.slot k with bound := g k }) : ∃ t u, exec i s = .next t ∧
    (∀ k, u.slot s.cur.cid k = { s.slot s.cur.cid k with bound := g k }) ∧
    u = s.modMe (fun c => { c with ports := { c.ports with slots := u.me.ports.slots } }) ∧ u.Passes t st :=
  ⟨_, s.modMyPorts f, he, fun k => (slot_modMyPorts s f k).trans (hg k), ports_slots s f hf, ports_passes hm _ st⟩

theorem exec_pbind {s : State} {o : PbindF} (h : s.AtPort []) (hslot : o.slot < s.me.hdr.slots) :
    exec (.pbind o) s = .next ((s.modMyPorts (fun p => p.bind o.slot (pointNum o.pt))).adv o.st) :=
  portOp_allowed h (State.here_nil s) ((slotOk_iff s o.slot).mpr hslot) _

theorem exec_pbindU {s : State} {o : PbindUF} (h : s.AtPort []) :
    exec (.pbindU o) s = .next ((s.modMyPorts (fun p => p.unbind (pointNum o.pt))).adv o.st) :=
  portOp_allowed h (State.here_nil s) rfl _

theorem cleared_lpm_bound {p : Ports} {o : PclrF} {pt : Nat} (hl : o.lpm = true) (hb : (p.slot o.slot).bound = some pt) :
    (p.cleared o).lpm = Mem.clear p.lpm (131072 * pt) 131072 := by
  unfold Ports.cleared
  rw [hl, hb]
  rfl

theorem cleared_lpm_kept {p : Ports} {o : PclrF} (h : o.lpm = false ∨ (p.slot o.slot).bound = none) : (p.cleared o).lpm = p.lpm := by
  unfold Ports.cleared
  rcases h with h | h
  · rw [h]
  · rw [h]
    cases o.lpm <;> rfl

theorem exec_pclr {s : State} {o : PclrF} (h : s.AtPort []) (hslot : o.slot < s.me.hdr.slots) :
    exec (.pclr o) s = .next ((s.modMyPorts (fun p => p.cleared o)).adv o.st) :=
  portOp_allowed h (State.here_nil s) ((slotOk_iff s o.slot).mpr hslot) _

/-- pclr empties its slot but for its image and its binding, and with LPM the lane memory of its point (R408, R417). -/
theorem pclr_clears {s : State} (o : PclrF) :
    let l := s.slot s.cur.cid o.slot
    let u := s.modMe (fun c => { c with ports := { c.ports with slots := Map.put c.ports.slots o.slot { Slot.fresh with img := l.img, bound := l.bound } } })
    s.modMyPorts (fun p => p.cleared o) = u.modMe (fun c => { c with ports := { c.ports with lpm := (s.me.ports.cleared o).lpm } }) := by
  intro l u
  show s.modMe _ = (s.modMe _).modMe _
  rw [modMe_modMe]
  exact modMe_congr s rfl

/-- A read of a slot gives its value as a result of variable latency. -/
theorem portRead_gives {s : State} {st slot rd : Nat} {srcs : List Nat} (h : s.AtPort srcs) (hd : s.Here [rd]) (hslot : slot < s.me.hdr.slots)
    (v : Slot → Word) : ∃ t, s.portRead st slot rd srcs v = .next t ∧ s.GivesVar t rd (v (s.slot s.cur.cid slot)) st := by
  refine ⟨_, ?_, State.resVar_adv_gives (State.hasAgent_main h.main) rd _ st⟩
  unfold State.portRead
  exact portOp_allowed h hd ((slotOk_iff s slot).mpr hslot) _

/-- Settles O44: the waits and the slot by `portOp_eq`, pload by what it tests and what its image holds, the rest by what they do to the slots. -/
theorem portInstructions : Obligations.PortInstructions := by
  unfold Obligations.PortInstructions
  refine ⟨fun i slot srcs dsts s hi h hd hslot hp => ?refused, fun o s h hslot => ?pload, fun o s h hslot => ?pbind, fun o s h => ?pbindU,
    fun o s h hslots => ⟨_, portOp_allowed h (State.here_nil s) (decide_eq_true hslots) _, ports_passes h.main _ o.st⟩, fun o s h hslot => ?pclr,
    fun o s h hd hslot => ⟨portRead_gives (st := o.st) h hd hslot Slot.result, portRead_gives (st := o.st) h hd hslot (fun l => word l.count)⟩,
    fun o s h hd hslot => ?prdC⟩
  case refused =>
    have hno : s.slotOk slot = false := by rw [← Bool.not_eq_true, slotOk_iff]; omega
    suffices he : exec i s = .next (s.trapS 7 1 0) from ⟨_, he, trapS_traps h.main hp 7 1 0⟩
    rcases hi with ⟨o, rfl, rfl, rfl, rfl⟩ | ⟨o, rfl, rfl, rfl, rfl⟩ | ⟨o, rfl, rfl, rfl, rfl⟩ | ⟨o, rfl, rfl, rfl, rfl⟩ | ⟨o, rfl, rfl, rfl, rfl⟩ |
      ⟨o, rfl, rfl, rfl, rfl⟩ | ⟨o, rfl, rfl, rfl, rfl⟩
    case inr.inr.inl => exact portOp_refused h hd (decide_eq_false (not_not.mpr (Nat.le_zero.mp hslot))) _
    all_goals exact portOp_refused h hd hno _
  case pload =>
    intro ea old x new legal header used
    refine ⟨fun hea hp => ⟨_, exec_pload_misaligned h hslot hea, trapS_traps h.main hp 5 64 ea⟩, fun j c d hea hj hf hbefore hp =>
      ⟨_, exec_pload_faults h hslot hea (ploadFaults_first hj hf hbefore), trapS_traps h.main hp c d _⟩, fun hea hl hplaces hpull => ?_⟩
    obtain ⟨hends, hheader, hword⟩ := pload_reads h hslot hea hl hplaces hpull
    exact ⟨fun hh hlegal => hends ((headerOk_iff new).mpr hh) ((badWord_none new).mpr hlegal), fun hh => hheader (mt (headerOk_iff new).mp hh),
      fun n hh hn hbad hleast => hword n ((headerOk_iff new).mpr hh) (badWord_least new hh.2.2.2.2 hn hbad hleast)⟩
  case pbind => exact slots_pass h.main (exec_pbind h hslot) rfl (bind_slot s.me.ports o.slot (pointNum o.pt))
  case pbindU => exact slots_pass h.main (exec_pbindU h) rfl (unbind_slot s.me.ports (pointNum o.pt))
  case pclr =>
    have hlpm : (s.modMyPorts (fun p => p.cleared o)).me.ports.lpm = (s.me.ports.cleared o).lpm := by rw [modMyPorts_me]
    refine ⟨_, _, s.modMyPorts (fun p => p.cleared o), exec_pclr h hslot, rfl, ?_, fun pt hl hb a => ?_, fun hkept => ?_, ports_passes h.main _ o.st⟩
    · rw [hlpm]
      exact pclr_clears o
    · rw [hlpm, cleared_lpm_bound (p := s.me.ports) hl hb]
      exact find_clear _ _ _ a
    · rw [hlpm]
      exact cleared_lpm_kept hkept
  case prdC =>
    intro l lane
    have hlane : bitsOf (s.r o.ra) 6 0 = lane := bits_lane (s.r o.ra)
    rw [← hlane]
    exact portRead_gives (st := o.st) h hd hslot (fun l =>
      if bitsOf (s.r o.ra) 6 0 < l.laneCount then Map.getD l.carried (4 * bitsOf (s.r o.ra) 6 0 + o.ci) 0 else 0)

end Sys2Proof.Machine
end

section
/-! PROOF. The data ops of a port program on a running lane (R406, R408, R410-R412, R423-R425). -/

namespace Sys2Proof.Machine

open Sys2Proof

/-- Settles O48: each op puts its value in its destination, or changes the lane's run, its carried registers or its lane memory. -/
theorem portData : Obligations.PortData := by
  unfold Obligations.PortData
  intro o s r h
  exact ⟨get_spec h o, out_spec h o, drop_spec h o, par_spec h o, parx_spec h o, cget_spec h o, cset_spec h o, prev_spec h o, lut_spec h o,
    lpm_spec h o, flag_spec h o, fun n => hint_spec h n o⟩

end Sys2Proof.Machine
end
